-- ==== Sys2Proof/Word.lean ====
section
/-! DEFINITION. The word types of the Vystaotte model and the one sparse-table type its memories and
register banks are held in. Only names stand here: every operation on them is in Machine/. -/

namespace Sys2Proof

/-- A byte, the smallest addressable unit (00_scope, R15). -/
abbrev Byte := BitVec 8
/-- A 16-bit word. -/
abbrev Half := BitVec 16
/-- A 32-bit word. -/
abbrev Word := BitVec 32
/-- A 64-bit word. -/
abbrev Dword := BitVec 64
/-- One Choyx 2 instruction word (R98). -/
abbrev InstrWord := BitVec 128

/-- A sparse table in one canonical form: keys strictly rising, and no entry equal to what an unlisted
key reads as (that default is given by the operation that reads or writes the table). -/
abbrev Tbl (α : Type) := List (Nat × α)

end Sys2Proof
end

