-- ==== Sys2Proof/Config.lean ====
section
/-! DEFINITION. What an implementation fixes and the free values: uninterpreted functions that stand for
quantities the manual names but whose value it leaves open, or that another standard defines. Nothing
in Lean can evaluate them, so a theorem holds whatever they are. -/

namespace Sys2Proof.Config

/-- SHA-384 of a byte string (R658, R660, R668). The manual names the hash and does not define it: the
digest is an uninterpreted function of the bytes. Assumption 20. -/
opaque sha384 : List Byte → BitVec 384
/-- SHA-256 of a byte string (R660). Assumption 20. -/
opaque sha256 : List Byte → BitVec 256
/-- Whether an ECDSA P-384 signature verifies: key, signature, covered bytes (R660). Assumption 20. -/
opaque ecdsaVerify : List Byte → List Byte → List Byte → Bool
/-- Whether an LMS signature verifies: key, signature, covered bytes (R660). Assumption 20. -/
opaque lmsVerify : List Byte → List Byte → List Byte → Bool
/-- The alias key the ROM derives from the unique device secret and the digest of the image (R666).
Assumption 20. -/
opaque aliasKey : BitVec 384 → BitVec 384 → BitVec 384
/-- The alias certificate, signed by the DevID key derived from the secret (R666). Assumption 20. -/
opaque aliasCert : BitVec 384 → BitVec 384 → List Byte
/-- The signature the alias key makes over a transcript (R667). Assumption 20. -/
opaque aliasSign : BitVec 384 → List Byte → List Byte
/-- The measurement of the boot ROM (R668, index 1). Assumption 20. -/
opaque romDigest : BitVec 384
/-- The 384-bit unique device secret in OTP (R666): no register and no command returns it. -/
opaque deviceSecret : BitVec 384
/-- A fresh unspecified byte: the local bytes of a poisoned unit (R175) and the code region after a refused
LOAD (R529) are unspecified. Applied to the state's draw counter. Assumption 6. -/
opaque freeByte : Nat → Byte
/-- A fresh unspecified FP32 pattern, for a numeric result the manual states no value for. Assumption 6. -/
opaque freeWord : Nat → Word
/-- A byte that pads an array of a region that CULL or GERMINATE writes, as a function of the region's other bytes and
the offset, so that the output depends on nothing else (R383, R396). Assumption 6. -/
opaque padByte : List Byte → Nat → Byte

/-- A byte of a frame header's INLINE field whose layout the manual does not give, as a function of what it carries and its
place (R488). Assumption 9. -/
opaque inlineByte : List Nat → Nat → Byte
/-- A parity byte of an RS(224,208) codeword, by its 208 data bytes and its number: the manual names neither the field's
polynomial nor the code's generator (R485). Assumption 83. -/
opaque rsParity : List Byte → Nat → Byte
/-- How long a tracking step holds its channel, in root-PLL cycles; only its bound is stated (R501). Assumption 67. -/
opaque trackHold : Nat → Nat
/-- How long the sweep of one wavelength holds its channel, in root-PLL cycles; only its bound is stated (R676). Assumption
67. -/
opaque sweepHold : Nat → Nat

end Sys2Proof.Config
end

