-- ==== Sys2Proof/Syntax.lean ====
section
/-! DEFINITION. The commands the block takes: one constructor of `Instr` per row of the spec's table of
operations and events, with the row's operands, and the plain data those operands are made of. -/

namespace Sys2Proof

/-- The three shuttles of a core (R25), in the order F, B, U of R76. -/
inductive Shuttle where
  | f | b | u
  deriving DecidableEq, Repr

/-- The two memory tiers of R162. -/
inductive Tier where
  | hbm | lpddr
  deriving DecidableEq, Repr

/-- The check sites of R546, with their codes 1 to 5. -/
inductive Site where
  | product | groupSum | laneAddition | errorRegister | vectorAdder
  deriving DecidableEq, Repr

/-- What one residue comparison of an operation saw (R259 to R261, R372, R544): the cycle of the operation, counted from its
issue cycle; the site; the lane, or the array row for a product (R546); the addition or the K position that it checks, in
the order in which they are done; the residue that the hardware's own result gave, in the operation and in its first and
second repeat; and the FP32 pattern that the lane carries when no repeat gives the right residue, which no rule fixes.
The comparison is the device's (assumption 7). -/
structure Detection where
  cycle : Nat
  site : Site
  lane : Nat
  term : Nat
  got : BitVec 3
  again1 : BitVec 3
  again2 : BitVec 3
  value : Word
  deriving DecidableEq, Repr

/-- What the physics did to one instruction: residue detections (R545), uncorrectable core-store and tun
units its reads found (R570), corrected single-bit errors, and pick-table parity failures (R373).
Assumption 7. -/
structure Upsets where
  detections : List Detection
  storeDouble : List Nat
  tunDouble : List Nat
  corrected : Nat
  parity : List Nat
  deriving DecidableEq, Repr

/-- Nothing went wrong. -/
def Upsets.none : Upsets := ⟨[], [], [], 0, []⟩

/-- An instruction issue: the physical core whose page holds the logical identity (R24, R61), the shuttle,
and the 128-bit word at that shuttle's program counter (R98). -/
structure Issue where
  core : Fin 192
  sh : Shuttle
  word : InstrWord
  ups : Upsets
  deriving DecidableEq, Repr

/-- How the repeats of a tile's conversion ended in the quadrant's checker (R556): the first or second
repeat passed, or neither did. It is read only when the tile fails its bound. Assumption 7. -/
inductive RepeatEnd where
  | first | second | neither
  deriving DecidableEq, Repr

/-- What ECC found in HBM3E and LPDDR5X units that a command reads (R192 to R194): the uncorrectable and the corrected
64-byte units, named by tier and unit number. Assumption 7. -/
structure MemEcc where
  bad : List (Tier × Nat)
  corrected : List (Tier × Nat)
  deriving DecidableEq, Repr

/-- Every unit read was sound. -/
def MemEcc.clean : MemEcc := ⟨[], []⟩

/-- What ECC found in the units of core store and the lines of the tun that a bobbin request or a tap reads (R570): the
uncorrectable ones, and the number of single-bit errors corrected. Assumption 7. -/
structure SramEcc where
  store : List Nat
  tun : List Nat
  corrected : Nat
  deriving DecidableEq, Repr

/-- Every unit and line read was sound. -/
def SramEcc.clean : SramEcc := ⟨[], [], 0⟩

/-- What the 48 INLINE bytes of a frame header carry (R488). The manual lays out only the VERDICT bytes
(R564), so the content is held by name. Assumption 9. `units` names the 64-byte units that a READ asks for and a DATA or
DONE answers, `spans` the bits (bit offset in the tier, bits) that a WRITE or TAP brings, `add` the destination elements
of an ADD (bit offset in the tier, contributions). -/
inductive Inline where
  | empty
  | units (us : List Nat)
  | spans (xs : List (Nat × Nat))
  | signal (count : Half)
  | header (exp : Int) (nonfin : Bool) (count : Nat) (digest : Word)
  | piece (count : Nat) (ivq : Bool) (part : Nat) (parts : Nat)
  | verdict (offset count : Nat) (pass : Bool)
  | norm (group : Half) (sum err : Word) (nonfin : Bool)
  | beat (k : Nat)
  | add (src dst : BitVec 4) (elems : List (Nat × Nat))
  | refusal
  deriving DecidableEq, Repr

/-- One frame (R488, R489): header fields and data bytes; SLOTS is their length in 64-byte slots. -/
structure Frame where
  kind : Byte
  addr : Dword
  prov : Bool
  backup : Bool
  poison : Bool
  standIn : Nat
  srcCore : Nat
  srcShuttle : Shuttle
  tag : Half
  inline : Inline
  data : List Byte
  deriving DecidableEq, Repr

/-- A frame as it reaches the module: the port it arrived on and the sending module. A frame whose sender is
the module itself crossed the mesh (R33). -/
structure Rx where
  port : Fin 8
  sender : Nat
  frame : Frame
  deriving DecidableEq, Repr

/-- A 64-byte slot of a flit (R485, R488): a frame header, or data bytes of a frame. -/
inductive Slot where
  | head (f : Frame)
  | data (bytes : List Byte)
  deriving DecidableEq, Repr

/-- Flit types (R487). -/
inductive FlitType where
  | data | idle | retry | training
  deriving DecidableEq, Repr

/-- One flit (R485, R487): link header and up to 25 payload slots with their virtual lanes. -/
structure Flit where
  seq : Word
  ack : Word
  type : FlitType
  port : Nat
  sender : Nat
  slots : List (Nat × Slot)
  credit : List (Nat × Nat)
  shared : Nat
  deriving DecidableEq, Repr

/-- How a flit reached the receiver (R485, R486): the CRC in its header as the peer sent it, and the bytes of the 1,792 that
the line changed. -/
structure FlitErrors where
  crc : Word
  bad : List (Fin 1792)
  deriving DecidableEq, Repr

/-- Training flits received on one comb line, at bring-up or in a retrain (R504, R505), and the PORT and SENDER they
carry. -/
structure TrainingSeen where
  line : Fin 64
  port : Nat
  sender : Nat
  deriving DecidableEq, Repr

/-- What patrol scrub finds in one unit (R193 to R195). -/
inductive ScrubFound where
  | clean | corrected | uncorrectable
  deriving DecidableEq, Repr

/-- A 64-byte command entry as the device read it (R522); `bad` says that the read returned poison or an
error (R519). -/
structure CmdEntry where
  opc : Byte
  z1 : Byte
  tag : Half
  z4 : Word
  addr0 : Dword
  len0 : Dword
  addr1 : Dword
  len1 : Dword
  addr2 : Dword
  arg : Dword
  z56 : Dword
  bad : Bool
  deriving DecidableEq, Repr

/-- What a binary supplies for one logical core (R51, R52): three shuttle images, slot plans and the
descriptor images in place at LOADED. Assumption 12. -/
structure CoreImage where
  f : List InstrWord
  b : List InstrWord
  u : List InstrWord
  plans : List (List Byte)
  descs : List (Nat × BitVec 512)
  deriving DecidableEq, Repr

/-- A Choyx 2 binary by its header fields (R51). The manual gives no byte layout. Assumption 12. -/
structure Binary where
  code : Half
  fabric : Nat
  quadrants : Nat
  kq : List Nat
  profile : Nat
  cores : List CoreImage
  demand : List (List Nat)
  fixups : List (BitVec 128)
  deriving DecidableEq, Repr

/-- What LOAD reads from host memory (R519, R527): the binary (`none` when the bytes are not a Choyx 2
binary), its raw bytes as measured (R669), the allocation table's 16-byte entries and the load parameters. -/
structure LoadInput where
  binary : Option Binary
  raw : List Byte
  alloc : List (BitVec 128)
  params : List Dword
  bad : Bool
  deriving DecidableEq, Repr

/-- One record of a checkpoint image to be written (R435): its header fields and where its payload lies in
the module's own memory. The manual does not say how the device learns the record list. Assumption 13. -/
structure RecordSource where
  kind : Byte
  tensor : Half
  estart : BitVec 48
  tier : Tier
  offset : Nat
  length : Nat
  deriving DecidableEq, Repr

/-- Where the payload of a checkpoint record goes on restore, by KIND, TENSOR and ESTART (R436). Assumption 13. -/
structure RecordTarget where
  kind : Byte
  tensor : Half
  estart : BitVec 48
  tier : Tier
  offset : Nat
  deriving DecidableEq, Repr

/-- A host MMIO access to BAR0 (R536): byte offset, width in bits, and the value of a write. -/
structure MmioAccess where
  write : Bool
  addr : Nat
  width : Nat
  value : Dword
  deriving DecidableEq, Repr

/-- The two management endpoints (R541). -/
inductive Endpoint where
  | cxl | i3c
  deriving DecidableEq, Repr

/-- What an MCTP control message asks for (R540, R541): nothing that changes the endpoint, an endpoint ID, or a transmission
unit. -/
inductive MctpAsk where
  | nothing
  | setEid (eid : Byte)
  | unit (n : Nat)
  deriving DecidableEq, Repr

/-- An MCTP message: its bytes, and what a control message among them asks for. -/
structure MctpMessage where
  bytes : List Byte
  ask : MctpAsk
  deriving DecidableEq, Repr

/-- How the CXL link came up beside its width (R512, R513): the rate in GT/s, and the PBR ID of the host that the fabric manager
binds to the device behind a PBR switch. -/
structure LinkFound where
  rate : Nat
  binding : Option (BitVec 12)
  deriving DecidableEq, Repr

/-- What makes the device leave an idle level (R652). -/
inductive IdleCause where
  | command | horizonWrite | knownEvent | shedding
  deriving DecidableEq, Repr

/-- What the boot sequence meets that the firmware does not decide (R659): fuse ECC, flash readability,
memory training and the CXL link. -/
structure BootFound where
  otpOk : Bool
  stagedReadable : Bool
  imageReadable : Bool
  memoryTrains : Bool
  linkWidth : Nat
  linkRate : Nat
  deriving DecidableEq, Repr

/-- The commands: one constructor per row of spec/opcode_table.json, in the table's order. -/
inductive Instr where
  /-- NOP (R109). The shuttle issues an instruction that does nothing. -/
  | nop (i : Issue)
  /-- BR (R110). A branch moves the PC to the target index, and faults on a target that R111 forbids. -/
  | br (i : Issue)
  /-- LOOP (R109). Decrements a count register with saturation and branches while the result is not 0. -/
  | loop (i : Issue)
  /-- END (R112). The shuttle ends and counts as held at a wait from then on. -/
  | endShuttle (i : Issue)
  /-- SLOT_SEL (R72). Selects a slot plan, which takes effect once all three shuttles are held; a plan the binary lacks faults. -/
  | slotSel (i : Issue)
  /-- TRAP (R109). Raises fault kind 0x0F with DETAIL taken from the immediate. -/
  | trap (i : Issue)
  /-- ADD (R109). Writes S1 plus S2 to D; a-file results wrap and c-file results saturate. -/
  | add (i : Issue)
  /-- SUB (R109). Writes S1 minus S2 to D; a-file results wrap and c-file results saturate. -/
  | subtract (i : Issue)
  /-- MUL (R109). Writes S1 times S2 to D; a-file results wrap and c-file results saturate. -/
  | mul (i : Issue)
  /-- LOGIC (R109). Writes the AND, OR, XOR or ANDN of S1 and S2 to D. -/
  | logic (i : Issue)
  /-- SHF (R109). Shifts S1 left, logically right or arithmetically right. -/
  | shf (i : Issue)
  /-- MOV (R104). Moves a register or an immediate into D; a q-file destination accepts only a token copy or 0. -/
  | mov (i : Issue)
  /-- CMP (R109). Writes to a predicate register the comparison of S1 with S2. -/
  | cmp (i : Issue)
  /-- SEL (R109). Writes S1 or S2 to D, according to a predicate. -/
  | sel (i : Issue)
  /-- DESC_MAKE (R138). Validates a 64-byte descriptor image from core store and writes it to a table entry. -/
  | descMake (i : Issue)
  /-- DESC_SET (R142). Replaces one descriptor field and revalidates; on failure the entry keeps its old value. -/
  | descSet (i : Issue)
  /-- DESC_OFFS (R143). Advances a descriptor's base by a multiple of a stride and revalidates. -/
  | descOffs (i : Issue)
  /-- DESC_LDT (R113). Loads consecutive descriptor entries from core store, stopping at the first entry that fails validation. -/
  | descLdt (i : Issue)
  /-- DESC_STT (R109). Stores a descriptor entry to core store. -/
  | descStt (i : Issue)
  /-- BQ_ISSUE (R169). Posts a bobbin request of the kind KIND selects (GET, PUT, GATHER, SCATTER, SCATTER.ADD, SPILL or FILL) and writes its token. -/
  | bqIssue (i : Issue)
  /-- BQ_WAIT (R171). Waits until the named request and every earlier request of its queue complete, then retires them. -/
  | bqWait (i : Issue)
  /-- BEAM_MM (R230). Runs a dense product pass into the beam accumulator set. -/
  | beamMm (i : Issue)
  /-- BEAM_SCORE (R392). Computes a dense gradient tile and writes its magnitudes to a score tensor. -/
  | beamScore (i : Issue)
  /-- BEAM_ZERO (R233). Clears the beam accumulator set and its shape. -/
  | beamZero (i : Issue)
  /-- HEDDLE_SPMM (R342). Runs a sparse by dense product pass, using the pick table when TA is 1, with optional row skipping. -/
  | heddleSpmm (i : Issue)
  /-- HEDDLE_SDDMM (R343). Runs a dense by dense product sampled at the mask's nonzeros into a packed set. -/
  | heddleSddmm (i : Issue)
  /-- HEDDLE_SPSP (R355). Runs a sparse by sparse product of PAIR regions through the pick table. -/
  | heddleSpsp (i : Issue)
  /-- HEDDLE_ZERO (R346). Clears the heddle accumulator set. -/
  | heddleZero (i : Issue)
  /-- VEC_OP (R109). Applies an elementwise vector operation to 256 elements. -/
  | vecOp (i : Issue)
  /-- VEC_RED (R109). Reduces 256 elements by sum, maximum or sum of squares. -/
  | vecRed (i : Issue)
  /-- VEC_CVT (R285). Converts up to 256 elements with one rounding, including the BS4 block scaling of R286. -/
  | vecCvt (i : Issue)
  /-- SFU_EVAL (R300). Evaluates 64 elements through an SFU table. -/
  | sfuEval (i : Issue)
  /-- SFU_DERIV (R301). Evaluates a function and its derivative from one table pair. -/
  | sfuDeriv (i : Issue)
  /-- SFU_LOAD (R299). Loads 64 SFU table entries, or the table configuration. -/
  | sfuLoad (i : Issue)
  /-- GRAV (R273). Computes per-granule power-of-two scales and, optionally, row and column norms. -/
  | grav (i : Issue)
  /-- DRAIN (R278). Copies an engine's accumulator set to its drain buffer and writes the tile to DO, converted and permuted. -/
  | drain (i : Issue)
  /-- DRAIN_D (R302). Drains an accumulator set while applying a derivative from saved bits or an SFU table. -/
  | drainD (i : Issue)
  /-- CHAIN_SEND (R251). Sends compensated sums and a trailer to another core's store, then signals its semaphore with release. -/
  | chainSend (i : Issue)
  /-- CHAIN_SEED (R255). Loads an engine's accumulator set from a received compensated buffer. -/
  | chainSeed (i : Issue)
  /-- CASK_OPEN (R447). Opens a bucket in the partition's casks from a bucket record and a backup map. -/
  | caskOpen (i : Issue)
  /-- CASK_HDR (R453). Sends the gravity header of a slice to a target cask. -/
  | caskHdr (i : Issue)
  /-- CASK_PUT (R449). Sends a BF16 or IVQ piece of a slice to a target cask, marked provisional when required. -/
  | caskPut (i : Issue)
  /-- CASK_NORM (R472). Declares a bucket's part in its norm group's reduction. -/
  | caskNorm (i : Issue)
  /-- CASK_CLOSE (R475). Releases a bucket in every cask of the partition. -/
  | caskClose (i : Issue)
  /-- UPD (R419). Applies the fused optimizer update to 256 weights, or remaps moments with SUB 2. -/
  | upd (i : Issue)
  /-- UPD_CFG (R412). Loads a 128-byte parameter block into a parameter slot. -/
  | updCfg (i : Issue)
  /-- CULL (R388). Writes a new region with the K least-magnitude positions of each unit removed. -/
  | cull (i : Issue)
  /-- GERMINATE (R393). Writes a new region with the K highest-scoring absent positions of each unit grown. -/
  | germinate (i : Issue)
  /-- MASK_COMMIT (R398). Stamps a region with generation G + 1 and sets the partition's pending bit. -/
  | maskCommit (i : Issue)
  /-- SEM_SIG (R203). Sends a count to a semaphore of a logical core on some module. -/
  | semSig (i : Issue)
  /-- SEM_WAIT (R198). Waits until a semaphore count reaches CNT, then subtracts CNT. -/
  | semWait (i : Issue)
  /-- BEATUP (R207). Joins the k-th beat-up of a quadrant, partition or fabric scope. -/
  | beatup (i : Issue)
  /-- VERDICT_WAIT (R474). Waits until every verdict of a bucket has arrived, the bucket is sealed and its group norm is final. -/
  | verdictWait (i : Issue)
  /-- FENCE_C (R187). Waits until the shuttle's earlier accesses to the core's own targets have performed. -/
  | fenceC (i : Issue)
  /-- FENCE_Q (R187). Waits until the shuttle's earlier accesses at quadrant scope have performed. -/
  | fenceQ (i : Issue)
  /-- FENCE_D (R187). Waits until the shuttle's earlier accesses at device scope have performed, then drops read-combining entries. -/
  | fenceD (i : Issue)
  /-- FENCE_F (R187). Waits until the shuttle's earlier accesses at fabric scope have performed, then drops read-combining entries. -/
  | fenceF (i : Issue)
  /-- SELV_CFG (R586). Writes one part of the core selvedge unit's configuration. -/
  | selvCfg (i : Issue)
  /-- SELV_RUN (R588). Queues a selvedge COMPUTE, COMPARE, STAMP or VERIFY run. -/
  | selvRun (i : Issue)
  /-- SELV_READ (R592). Reads the last landed selvedge result or status into an a register. -/
  | selvRead (i : Issue)
  /-- PWR_HORIZON (R649). Declares the number of cc until the next known event. -/
  | pwrHorizon (i : Issue)
  /-- JNL_HASH (R424). Folds DA's bytes into the core's CRC-64 hash register. -/
  | jnlHash (i : Issue)
  /-- JNL_WRITE (R426). Joins the core to the k-th step-journal entry. -/
  | jnlWrite (i : Issue)
  /-- JNL_TAP (R432). During a replay, appends DA's bytes to a tap. -/
  | jnlTap (i : Issue)
  /-- DEFERRED_FAULT_DETECT (R123). A fault found during an engine pass suppresses the output and halts the core on the next cycle. -/
  | deferredFaultDetect (core : Fin 192) (sh : Shuttle)
  /-- CONTEXT_FAULTED (R125). Once every shuttle has halted, the context enters FAULTED. -/
  | contextFaulted (q : Fin 8)
  /-- CONTEXT_STOPPED (R55). Once every shuttle is held after a stop, the context enters STOPPED. -/
  | contextStopped (q : Fin 8)
  /-- WAIT_RESUME (R78). A shuttle whose wait condition is met resumes at the first cycle that matches its resume phase. -/
  | waitResume (core : Fin 192) (sh : Shuttle)
  /-- SLOT_PLAN_TAKE_EFFECT (R72). A pending slot plan takes effect when all three shuttles are held, and the phase counter restarts at 0. -/
  | slotPlanTakeEffect (core : Fin 192)
  /-- RESULT_VISIBLE (R82). An instruction's result lands at its issue cycle plus the latency of its cost class. -/
  | resultVisible (core : Fin 192)
  /-- TUN_DRAIN_LAND (R290). A drain into the tun lands in issue order after every earlier tun drain. -/
  | tunDrainLand (core : Fin 192)
  /-- HEDDLE_OVERRUN (R360). When BUDGET elapses before the work is done, the core holds while the heddle finishes. -/
  | heddleOverrun (core : Fin 192)
  /-- HEDDLE_WORK_COMPLETE (R364). A heddle pass's work ends, which ends any overrun and records W. -/
  | heddleWorkComplete (core : Fin 192)
  /-- PLAUSIBILITY_VERDICT (R556). The quadrant checker resolves a checked drain's verdict, repeating the conversion on a failure. -/
  | plausibilityVerdict (core : Fin 192) (id : Nat) (rep : RepeatEnd)
  /-- VERDICT_FRAME_SEND (R563). Once the piece has been sent and its dependencies have resolved, the sender sends its VERDICT frame and any resend. -/
  | verdictFrameSend (core : Fin 192) (id : Nat)
  /-- HELD_ACCESS_RELEASE (R184). An access held for release or acquire, or for provisional source units, performs once its predecessors have. -/
  | heldAccessRelease (core : Fin 192) (id : Nat) (sram : SramEcc)
  /-- BOBBIN_REQUEST_COMPLETE (R172). A bobbin request completes, possibly poisoned. -/
  | bobbinRequestComplete (core : Fin 192) (queue : Fin 16) (seq : Fin 2048) (ecc : MemEcc) (sram : SramEcc)
  /-- REMOTE_REQUEST_TIMEOUT (R176). A remote request with no response within PORT_REQ_TIMEOUT completes poisoned. -/
  | remoteRequestTimeout (core : Fin 192) (queue : Fin 16) (seq : Fin 2048)
  /-- SIGNAL_PERFORM (R197). A signal performs at its semaphore, adding to the count and saturating if needed. -/
  | signalPerform (id : Nat)
  /-- BEATUP_COMPLETE (R209). All participants have arrived and their accesses have performed; drift is recorded, counts are zeroed and the phase is set. -/
  | beatupComplete (scope : Fin 3) (q : Fin 8)
  /-- JOURNAL_ENTRY_COMPLETE (R426). When every core has joined the entry, the journal entry is written and the hash registers are reset. -/
  | journalEntryComplete (q : Fin 8)
  /-- SELV_RUN_COMPLETE (R589). A selvedge run ends and its outcome lands, counting and recording mismatches. -/
  | selvRunComplete (core : Fin 192)
  /-- READ_FRAME_RECEIVE (R167). A receiving module accepts or refuses a remote READ against its export entries. -/
  | readFrameReceive (rx : Rx) (ecc : MemEcc)
  /-- WRITE_FRAME_RECEIVE (R167). A receiving module performs or refuses a remote WRITE. -/
  | writeFrameReceive (rx : Rx)
  /-- ADD_FRAME_RECEIVE (R160). A receiving module applies a remote SCATTER.ADD segment atomically per element. -/
  | addFrameReceive (rx : Rx) (ecc : MemEcc)
  /-- DATA_FRAME_RECEIVE (R489). A read response arrives for an outstanding remote request. -/
  | dataFrameReceive (rx : Rx)
  /-- DONE_FRAME_RECEIVE (R494). A write, signal, refusal or poison completion arrives at the sender. -/
  | doneFrameReceive (rx : Rx)
  /-- CASK_HDR_RECEIVE (R463). A cask accepts, holds back or discards a header; the anchor is fixed once every header is resolved. -/
  | caskHdrReceive (rx : Rx)
  /-- CASK_PIECE_RECEIVE (R465). A cask places, compares, holds back, ledgers or discards the units of a piece. -/
  | caskPieceReceive (rx : Rx) (sramDouble : Bool)
  /-- CASK_ACK_RECEIVE (R455). A cask acknowledgement arrives, and the CASK.HDR or CASK.PUT performs. -/
  | caskAckReceive (rx : Rx)
  /-- VERDICT_RECEIVE (R466). A cask frees or subtracts a provisional unit's ledger copy according to its verdict. -/
  | verdictReceive (rx : Rx)
  /-- NORM_RECEIVE (R473). A module receives a norm partial, and the group norm becomes final once all have arrived. -/
  | normReceive (rx : Rx)
  /-- SIGNAL_FRAME_RECEIVE (R204). A remote signal is delivered or discarded and answered with DONE. -/
  | signalFrameReceive (rx : Rx)
  /-- BEATUP_FRAME_RECEIVE (R717). A fabric beat-up notice is kept or discarded by the matching partition. -/
  | beatupFrameReceive (rx : Rx)
  /-- TAP_FRAME_RECEIVE (R432). Replay tap bytes are written at the target module. -/
  | tapFrameReceive (rx : Rx)
  /-- QUIESCE_NOTICE_RECEIVE (R643). A channel that receives a quiesce notice enters QUIESCED and keeps its sequence state. -/
  | quiesceNoticeReceive (port : Fin 8) (peer : Fin 64)
  /-- HELD_FRAME_RELEASE (R463). A frame held back in the link engine is acted on once its bucket opens, space frees or its section is allocated. -/
  | heldFrameRelease (cask : Fin 8) (id : Nat)
  /-- SECTION_SEAL (R470). A section with every contributor resolved and no ledger left writes its results and norm partial. -/
  | sectionSeal (cask : Fin 8) (q : Fin 8) (bkt : Half)
  /-- BUCKET_DEADLINE (R468). The bucket deadline expires, and contributors without a header are withheld. -/
  | bucketDeadline (cask : Fin 8) (q : Fin 8) (bkt : Half)
  /-- SECTION_DEADLINE (R468). A section deadline expires; backup copies resolve contributors, and the rest are withheld. -/
  | sectionDeadline (cask : Fin 8) (q : Fin 8) (bkt : Half)
  /-- CASK_SELV_VERDICT (R595). The cask port unit's check of an IVQ piece lands as the piece's verdict. -/
  | caskSelvVerdict (cask : Fin 8) (id : Nat)
  /-- FLIT_SEND (R490). Every 128 ns a channel sends a flit filled from its virtual lanes by priority and credit. -/
  | flitSend (port : Fin 8) (peer : Fin 64)
  /-- FLIT_RECEIVE (R496). A receiver corrects, accepts or discards a flit, requests a retry on a gap, and delivers its frames. -/
  | flitReceive (port : Fin 8) (peer : Fin 64) (flit : Flit) (err : FlitErrors)
  /-- RETRY_REQUEST_RECEIVE (R497). A transmitter resends from ACK + 1; eight retries naming one ACK start a retrain. -/
  | retryRequestReceive (port : Fin 8) (peer : Fin 64) (ack : Word)
  /-- LOCK_LOSS_TIMEOUT (R498). A receiver that loses lock for 1 µs puts its channel into RETRAINING. -/
  | lockLossTimeout (port : Fin 8) (peer : Fin 64)
  /-- RETRAIN_COMPLETE (R498). A retrain ends, and the channel resumes, or enters FAILED after three failed retrains. -/
  | retrainComplete (port : Fin 8) (peer : Fin 64) (seen : List TrainingSeen)
  /-- RETRAIN_TIMEOUT (R499). A retrain that lasts beyond 200 µs puts the channel into FAILED. -/
  | retrainTimeout (port : Fin 8) (peer : Fin 64)
  /-- CAL_TRACKING_STEP (R501). Every PERIOD_US a lit port retunes the rings of the next wavelength. -/
  | calTrackingStep (port : Fin 8)
  /-- PORT_BRING_UP (R504). A port leaving the dark state sweeps, trains and checks the wiring of each channel. -/
  | portBringUp (port : Fin 8) (seen : List TrainingSeen)
  /-- LASER_INPUT_CHANGE (R506). A change of LASER_OK darkens a port or lets it light. -/
  | laserInputChange (port : Fin 8) (powers : List Nat)
  /-- PATROL_SCRUB_READ (R195). Patrol scrub reads and corrects memory units, recording those that are uncorrectable. -/
  | patrolScrubRead (tier : Tier) (unit : Nat) (found : ScrubFound)
  /-- ERROR_RECORD_COPY (R579). A stored record is copied to the HBM3E ring when there is room, raising vector 32. -/
  | errorRecordCopy
  /-- HANG_DETECT (R603). A shuttle that goes WINDOW_MS without progress sets HUNG and causes a hang record. -/
  | hangDetect (q : Fin 8)
  /-- HANG_AUTO_RESET (R605). A further WINDOW_MS without progress starts a reset at level AUTO. -/
  | hangAutoReset (q : Fin 8)
  /-- RESET_LEVEL_TIMEOUT (R614). A reset level that exceeds its limit escalates, and an L4 overrun withdraws the device and requests an L5. -/
  | resetLevelTimeout (q : Fin 8)
  /-- RESET_SEQUENCE_COMPLETE (R619). A reset sequence completes, is counted and recorded, and may withdraw the device. -/
  | resetSequenceComplete (q : Fin 8)
  /-- CONTEXT_CLEAR_COMPLETE (R220). The clearing of a context switch completes, and a waiting load may proceed. -/
  | contextClearComplete (q : Fin 8)
  /-- LOAD (R529). Copies, patches and checks a binary, and the context becomes LOADED or stays refused. -/
  | load (r : Fin 8) (e : CmdEntry) (input : LoadInput)
  /-- START (R53). Starts every shuttle of the partition on one cycle. -/
  | start (r : Fin 8) (e : CmdEntry)
  /-- STOP (R55). Stops each shuttle at its next wait. -/
  | stop (r : Fin 8) (e : CmdEntry)
  /-- UNLOAD (R218). Returns the context to EMPTY and clears its state. -/
  | unload (r : Fin 8) (e : CmdEntry)
  /-- CHECKPOINT (R435). Writes a checkpoint image of a STOPPED context. -/
  | checkpoint (r : Fin 8) (e : CmdEntry) (manifest : List RecordSource)
  /-- RESTORE (R436). Checks a checkpoint image and restores it. -/
  | restore (r : Fin 8) (e : CmdEntry) (targets : List RecordTarget)
  /-- REPLAY (R431). Restores a checkpoint and runs the given number of journal entries with REPLAY set. -/
  | replay (r : Fin 8) (e : CmdEntry) (targets : List RecordTarget)
  /-- PARTITION (R520). Sets the partition layout and rebinds the rings. -/
  | partition (r : Fin 8) (e : CmdEntry)
  /-- RESET (R616). Starts or merges a reset sequence of level 1 to 4. -/
  | reset (r : Fin 8) (e : CmdEntry)
  /-- CELLAR_RING_TAIL_WRITE (R523). A host TAIL write makes new command entries available for fetch. -/
  | cellarRingTailWrite (r : Fin 8) (value : Word)
  /-- CELLAR_CPL_HEAD_WRITE (R526). Host software consumes completions, freeing a command that was held for room. -/
  | cellarCplHeadWrite (r : Fin 8) (value : Word)
  /-- CELLAR_RING_CTRL_WRITE (R542). Enables a ring, resetting its pointers, or disables it after the command in progress. -/
  | cellarRingCtrlWrite (r : Fin 8) (value : Word)
  /-- MSIX_VECTOR_UNMASK (R535). Unmasking a vector sends one message for its merged pending events. -/
  | msixVectorUnmask (vector : Fin 64)
  /-- HDM_HOST_READ (R516). A host read through the HDM window returns data, poison, or zero marked poison. -/
  | hdmHostRead (addr : Nat) (caches : Bool) (ecc : MemEcc)
  /-- HDM_HOST_WRITE (R191). A host write through the HDM window performs, or is dropped and counted. -/
  | hdmHostWrite (addr : Nat) (data : List Byte)
  /-- BI_SNOOP_RESPONSE (R514). A BIRsp lets a device write held for back-invalidation perform. -/
  | biSnoopResponse (line : Nat)
  /-- CELLAR_HDM_SEG_WRITE (R517). A segment mapping change takes effect after back-invalidation of the old lines. -/
  | cellarHdmSegWrite (i : Fin 16) (value : Word)
  /-- MMIO_BAD_ACCESS (R536). A misaligned or wrong-width MMIO access is refused, counted and recorded. -/
  | mmioBadAccess (access : MmioAccess)
  /-- CXL_FOREIGN_REQUEST (R513). A request from another PBR ID is completed as unsupported, counted and recorded. -/
  | cxlForeignRequest (pid : BitVec 12) (mem : Bool) (addr : Nat)
  /-- CXL_LINK_TRAINED (R512). The CXL link trains, and degraded widths or rates are flagged. -/
  | cxlLinkTrained (width : Nat) (found : LinkFound)
  /-- MCTP_CONTROL_MESSAGE (R540). Answers an MCTP control message. -/
  | mctpControlMessage (ep : Endpoint) (body : MctpMessage)
  /-- PLDM_REQUEST_UPDATE (R541). Begins a firmware update, or answers ALREADY_IN_UPDATE_MODE. -/
  | pldmRequestUpdate (ep : Endpoint)
  /-- PLDM_COMPONENT_TRANSFER (R664). Writes a firmware component to staging and verifies it at VerifyComplete. -/
  | pldmComponentTransfer (ep : Endpoint) (component : List Byte)
  /-- PLDM_ACTIVATE_FIRMWARE (R664). Sets the activation marker for the next L5. -/
  | pldmActivateFirmware (ep : Endpoint)
  /-- RECOVERY_IMAGE_RECEIVE (R662). The ROM receives, verifies, writes and rechecks a recovery image over I3C. -/
  | recoveryImageReceive (component : List Byte) (readBack : List Byte)
  /-- SPDM_GET_MEASUREMENTS (R668). Returns measurement digests from one snapshot. -/
  | spdmGetMeasurements (ep : Endpoint) (index : Nat) (nonce : List Byte)
  /-- SPDM_GET_CERTIFICATE (R667). Returns the certificate chain of slot 0. -/
  | spdmGetCertificate (ep : Endpoint) (slot : Nat)
  /-- SPDM_CHALLENGE (R667). Answers a challenge signed with the alias key. -/
  | spdmChallenge (ep : Endpoint) (slot : Nat) (nonce : List Byte)
  /-- SPDM_KEY_EXCHANGE (R667). Establishes a secured session, at most 2 per endpoint. -/
  | spdmKeyExchange (ep : Endpoint) (slot : Nat) (exchange : List Byte)
  /-- SPDM_HEARTBEAT (R667). Answers a session heartbeat. -/
  | spdmHeartbeat (ep : Endpoint) (session : Nat)
  /-- IDE_KM (R667). Programs IDE keys inside a secured session. -/
  | ideKm (ep : Endpoint) (session : Nat) (stream : Nat) (key : BitVec 256) (go : Bool)
  /-- CELLAR_CORE_FENCE_CLEAR (R573). Clears a core's fence and history while its partitions are EMPTY. -/
  | cellarCoreFenceClear (i : Fin 3) (value : Dword)
  /-- CELLAR_CORE_FENCE_SET (R573). Host software fences a core. -/
  | cellarCoreFenceSet (i : Fin 3) (value : Dword)
  /-- CELLAR_ERR_TAIL_WRITE (R580). Frees ring space, letting stored and summary records be copied. -/
  | cellarErrTailWrite (value : Dword)
  /-- CELLAR_SELV_GO (R598). Starts a host-path CRC run over own memory. -/
  | cellarSelvGo
  /-- HOST_SELV_RUN_COMPLETE (R598). A host-path run ends, setting DONE, RESULT, MISMATCH or RANGE. -/
  | hostSelvRunComplete (ecc : MemEcc)
  /-- ADMIT (R622). Re-admits a device in RECOVERY to service. -/
  | admitDevice
  /-- SVN_COMMIT (R665). Blows OTP fuses up to the running image's SVN. -/
  | svnCommit
  /-- SELFTEST_GO (R670). Starts a self-test request over the selected cores. -/
  | selftestGo (value : Word)
  /-- SELFTEST_CORE_START (R671). Tests a core once an idle window or a test pairing allows. -/
  | selftestCoreStart (core : Fin 192)
  /-- SELFTEST_CORE_DONE (R674). A core test ends, fencing on failure and completing the request when none are left. -/
  | selftestCoreDone (core : Fin 192) (pass : Bool)
  /-- CAL_GO (R676). Starts a port sweep or a sensor check. -/
  | calGo (value : Word)
  /-- CAL_COMPLETE (R676). A calibration ends with a record and vector 36. -/
  | calComplete
  /-- PORT_RETRAIN_WRITE (R499). Retrains a FAILED wavelength. -/
  | portRetrainWrite (port : Fin 8) (value : Dword)
  /-- PORT_FABRIC_WRITE (R509). Sets fabric size and module index while every context is EMPTY. -/
  | portFabricWrite (value : Word)
  /-- QUAD_MASK_GEN_WRITE (R404). Writes the partition's mask generation. -/
  | quadMaskGenWrite (q : Fin 8) (value : Dword)
  /-- QUAD_CTX_MODE_WRITE (R438). Sets rollout mode unless the context is RUNNING. -/
  | quadCtxModeWrite (q : Fin 8) (value : Word)
  /-- PWR_HORIZON_HOST_WRITE (R652). Declares a host horizon and exits idle. -/
  | pwrHorizonHostWrite (r : Fin 8) (value : Word)
  /-- PWR_POOL_CAP_WRITE (R631). Changes the pool in force on the next cycle. -/
  | pwrPoolCapWrite (q : Fin 8) (value : Word)
  /-- DIV_HOST_WRITE (R625). Changes the host CCLK divider request. -/
  | divHostWrite (value : Word)
  /-- REGISTER_WRITE (R537). A write to a register with no behaviour of its own stores clamped RW values and applies W1C and W1S bits. -/
  | registerWrite (access : MmioAccess)
  /-- CCLK_DIVIDER_CHANGE (R626). Switches CCLK on both dies when the slowest request changes. -/
  | cclkDividerChange
  /-- SHED_STAGE_CHANGE (R633). The 1 ms supply average crosses a stage threshold, and the stage actions apply or lift in order. -/
  | shedStageChange (average : Nat)
  /-- S4_LIMIT_EXPIRY (R640). A context not held within S4_LIMIT_MS is stopped. -/
  | s4LimitExpiry (q : Fin 8)
  /-- TCLK_LOSS (R627). No TCLK edge for 1 µs makes the loops hold frequency and causes a record. -/
  | tclkLoss
  /-- TCLK_ABSENT (R627). TCLK absent for 100 ms applies the S5 actions until it returns for 10 ms. -/
  | tclkAbsent
  /-- THERMAL_THROTTLE_STEP (R645). Every 1 ms or 10 ms the thermal divider request slows or speeds by one code. -/
  | thermalThrottleStep (tmax : Int)
  /-- THERMAL_CRITICAL (R646). TMAX at or above 115 °C for 100 µs sets CRIT and stops contexts. -/
  | thermalCritical (tmax : Int) (sensor : Byte)
  /-- THERMAL_SHUTDOWN (R647). At 125 °C the device switches off and drives THERMTRIP_N. -/
  | thermalShutdown (tmax : Int)
  /-- IDLE_ENTER (R650). An eligible partition enters the deepest idle level that fits before its next known event. -/
  | idleEnter (q : Fin 8)
  /-- IDLE_EXIT (R652). A command, horizon write, known event or S4 brings the partition back to I0. -/
  | idleExit (q : Fin 8) (cause : IdleCause)
  /-- POWER_UP (R707). PWR_EN assertion starts the converters and powers the module up. -/
  | powerUp (input : Nat)
  /-- BOOT (R659). From power-on, the ROM and firmware verify, load and bring up the device. -/
  | boot (found : BootFound)
  /-- POWER_DOWN (R709). PWR_EN deassertion takes the S5 actions and switches the rails off. -/
  | powerDown
  /-- INPUT_UNDERVOLTAGE_OFF (R644). An input below 40 V switches the device off; recovery restarts it from power-on. -/
  | inputUndervoltageOff (input : Nat)
  /-- INPUT_OVERVOLTAGE_OFF (R692). An average above 62 V switches the device off. -/
  | inputOvervoltageOff (average : Nat)
  /-- RAIL_FAULT (R708). A rail that leaves its limits drives PGOOD low and switches the device off. -/
  | railFault
  /-- LEAK_DETECT (R702). The moisture sensor drives LEAK_N low and takes no other action. -/
  | leakDetect (wet : Bool)
  /-- TCLK_RETURN (R627). When TCLK has been back for 10 ms after an absence, the device lifts the S5 actions it applied, as it lifts S5. -/
  | tclkReturn
  /-- THERMAL_CRIT_CLEAR (R646). When TMAX falls below 105 °C, CRIT clears and the ring-command hold ends, while stopped contexts stay STOPPED. -/
  | thermalCritClear (tmax : Int)
  /-- INPUT_RETURN (R711). When the input returns above 48 V after an undervoltage switch-off, the device restarts from power-on without a new PWR_EN assertion. -/
  | inputReturn (input : Nat)
  /-- INTERMITTENT_WINDOW_EXPIRY (R572). When 86,400 s have passed since a core's intermittent, that intermittent leaves the window, and CORE_INTEG_STATUS.INTERMIT falls. -/
  | intermittentWindowExpiry (core : Fin 192)
  /-- RESET_HISTORY_EXPIRY (R620). When 900 s have passed since a counted L3 or L4 completion, it leaves the reset history, and CELLAR_RESET_STATUS.HISTORY falls. -/
  | resetHistoryExpiry
  /-- IDLE_MMIO_ACCESS (R653). A host MMIO read or write of a CORE_ or QUAD_ register of a quadrant at I2 triggers an idle exit and completes at I1; at I3 or I4 it is refused, counted and recorded. -/
  | idleMmioAccess (access : MmioAccess)  deriving DecidableEq, Repr

end Sys2Proof
end

