-- ==== Sys2Proof/Machine/State.lean ====
section
/-! DEFINITION. The state of one Vystaotte module: everything the manual gives it, as plain data, with the
value each part holds at power-on. Sparse tables read as the default named beside them. -/

namespace Sys2Proof.Machine

/-- Why a command stops the model. Nothing else faults: the manual's own faults (shuttle faults, poisoned
completions, refusals of a host command) are next states. -/
inductive Fault where
  /-- Raised by `execHdmHostRead` and `execHdmHostWrite` for an offset at or beyond the 1 TiB HDM window of R189,
  an address the manual says does not exist. Safe: the model stops where it cannot say what the host link does. -/
  | outsideHdmWindow (addr : Nat)
  deriving DecidableEq, Repr

/-- Why a command has no meaning in this model. -/
inductive Refusal where
  /-- Raised by an arm of `exec` that has no meaning yet. Safe: nothing is claimed of the command. -/
  | notModelled (mnemonic : String)
  deriving DecidableEq, Repr

/-! ### Check states, lanes and accumulator sets -/

/-- The check state of a 64-byte unit of core store, a tun line or an accumulator set (R558, R560): clear,
provisional on the verdicts named, or failed. -/
inductive Chk where
  | clear
  | prov (verdicts : List Nat)
  | failed
  deriving DecidableEq, Repr

/-- A lane of an accumulator set (R222, R242): the FP32 sum register, the error register in units of
2^(anchor − 76), and the anchor, unset in a zeroed lane. -/
structure Lane where
  sum : Word := 0
  err : Int := 0
  anchor : Option Int := none
  deriving DecidableEq, Repr

/-- An accumulator set (R222, R346): tile shape M × N, lanes by 128 m + n (default a zeroed lane), term count,
the three flags, and for the heddle the packed and skipped bits; its check state (R560). -/
structure AccSet where
  shape : Option (Nat × Nat) := none
  lanes : Tbl Lane := []
  terms : Nat := 0
  longChain : Bool := false
  nonfin : Bool := false
  mismatch : Bool := false
  packed : Bool := false
  skipped : Bool := false
  chk : Chk := .clear
  deriving DecidableEq, Repr

/-- One step of an engine's accumulator history: the schedule cycle on which the operation's result becomes
visible, and the set after it (R232, R237). -/
structure AccStep where
  due : Nat
  set : AccSet
  deriving DecidableEq, Repr

/-- The status flags LONG_CHAIN, NONFINITE and RES_MISMATCH that a pass raises when its result becomes visible (R246, R250,
R262, R263), whatever later operation has become visible before it. -/
structure AccMark where
  due : Nat
  long : Bool
  nonfin : Bool
  mismatch : Bool
  deriving DecidableEq, Repr

/-- An engine of a core: the first schedule cycles on which it is no longer occupied and no longer busy (R71,
R87), and of its drain buffer (R235, R236); each BEAM.SCORE fills the buffer for an interval of its own (R392). -/
structure EngineTime where
  occupied : Nat := 0
  busy : Nat := 0
  drain : Nat := 0
  scores : List (Nat × Nat) := []
  deriving DecidableEq, Repr

/-- A multiplier engine: the set as of the newest visible operation, the operations since in issue order, the marks still to
show, and its sticky status flags LONG_CHAIN, NONFINITE, RES_MISMATCH and (heddle) OVERRUN (R264, R374). -/
structure Multiplier where
  base : AccSet := {}
  later : List AccStep := []
  marks : List AccMark := []
  stLong : Bool := false
  stNonfin : Bool := false
  stMismatch : Bool := false
  stOverrun : Bool := false
  deriving DecidableEq, Repr

/-! ### Registers, shuttles and waits -/

/-- The register files of a core and the three program counters (R92): a, c and q files by index (default 0), the
64 predicates as bits. -/
structure RegFile where
  a : Tbl Dword := []
  c : Tbl Word := []
  p : Dword := 0
  q : Tbl Half := []
  pcF : Word := 0
  pcB : Word := 0
  pcU : Word := 0
  deriving DecidableEq, Repr

/-- What a shuttle waits for (R77). `met` stands for a wait whose condition holds at issue (R79, R94, R102, R199). -/
inductive WaitKind where
  | met
  | bq (queue : Nat) (seq : Nat)
  | sem (index : Nat) (count : Nat)
  | beatup (scope : Nat) (k : Nat)
  | verdict (bucket : Half)
  | fence (scope : Nat)
  deriving DecidableEq, Repr

/-- A shuttle's wait: its kind, resume phase, ACQ flag, the CCLK cycle and order of its issue, the CCLK cycle on
which its condition was met, and whether the requests it retired were poisoned (R78, R175). -/
structure Wait where
  kind : WaitKind
  rph : Nat
  acq : Bool
  issued : Nat
  metAt : Option Nat
  poisoned : Bool
  deriving DecidableEq, Repr

/-- What a shuttle is doing (R52, R55, R77, R112, R124). -/
inductive ShMode where
  | off
  | run
  | wait
  | ended
  | halted
  deriving DecidableEq, Repr

/-- What an access is (R178); it names what performs when a held one is released (R184). -/
inductive AccessKind where
  | store
  | bobbin (queue seq : Nat)
  | chain
  | signal (id : Nat)
  | caskHdr (bucket : Half) (cask : Nat) (dest : Nat)
  | caskPiece (bucket : Half) (cask : Nat) (dest : Nat) (offset : Nat) (count : Nat)
  | commit
  | tap (source : BitVec 512) (handle offset count : Nat)
  deriving DecidableEq, Repr

/-- An access that a shuttle has issued and that has not performed (R178): its number, the smallest fence scope
that covers its target (0 C, 1 Q, 2 D, 3 F; R187), whether it carries release, whether it is held, the frames it
will send when released, and the frames still unanswered. -/
structure Access where
  id : Nat
  level : Nat
  kind : AccessKind
  rel : Bool
  held : Bool
  frames : List (Nat × Nat × Frame)
  unanswered : Nat
  deriving DecidableEq, Repr

/-- One shuttle: mode, wait, the schedule cycle of its last issue (or of its resume, when `resumed`), its
CORE_FAULT and CORE_META_FAULT registers, progress counter and the time it last changed (R601, R602), its
accesses not yet performed, and how many BEATUPs of each scope it has issued since load (R207). -/
structure Sh where
  mode : ShMode := .off
  wait : Option Wait := none
  last : Nat := 0
  resumed : Bool := false
  fault : Dword := 0
  metaFault : Dword := 0
  progress : Dword := 0
  progressAt : Nat := 0
  accesses : List Access := []
  acquiring : List Nat := []
  beats0 : Nat := 0
  beats1 : Nat := 0
  beats2 : Nat := 0
  deriving DecidableEq, Repr

/-! ### Results in flight -/

/-- A value on its way to a tun-wide element (R289): an exact number as mantissa and exponent of two, or a
non-finite FP32 pattern. -/
inductive Exact where
  | num (m : Int) (e : Int)
  | nonfin (bits : Word)
  deriving DecidableEq, Repr

/-- One element on its way to a byte memory: bit address, width in bits, value. -/
abbrev Poke := Nat × Nat × Nat

/-- What lands when an instruction's result becomes visible (R82). A drain into the tun, or onto tun-wide elements of
either memory, also carries what it writes back to its scale record in core store; `beam` says whose NONFINITE it sets. -/
inductive Effect where
  | nothing
  | reg (spec : Byte) (value : Dword)
  | desc (index : Nat) (image : BitVec 512)
  | store (elems : List Poke) (chk : Chk)
  | tunStore (elems : List Poke) (chk : Chk) (back : List Poke)
  | accum (tun : Bool) (adds : List (Nat × Exact)) (tset : Bool) (chk : Chk) (back : List Poke) (beam : Bool)
  | chain (target : Nat) (elems : List Poke) (chk : Chk) (sem : Nat)
  | sfuEntries (table first : Nat) (entries : List Dword)
  | sfuConfig (table : Nat) (lo inv : Word)
  | paramSlot (slot : Nat) (block : List Byte)
  | commit (elems : List Poke)
  | selvCfg (fn : Nat) (imm : Dword)
  | selv (pc : Word) (result : Dword) (events : List (Nat × Nat)) (elems : List Poke) (chk : Chk) (tally : Option Byte)
  | jnlFold (bytes : List Byte)
  deriving DecidableEq, Repr

/-- A result in flight: the schedule cycle it lands on, its issue order, its shuttle, the access it performs as,
the check that its tile enters, and the effect. -/
structure Flight where
  due : Nat
  order : Nat
  sh : Shuttle
  access : Option Nat
  verdict : Option Nat
  effect : Effect
  deriving DecidableEq, Repr

/-- A fault found during a pass and not yet detected (R123): `due` is the schedule cycle by which the pass detects it
(R362). -/
structure Deferred where
  due : Nat
  sh : Shuttle
  pc : Word
  opcode : Byte
  kind : Nat
  detail : Half
  metaFault : Dword
  deriving DecidableEq, Repr

/-- A residue detection whose cycle has not ended (R545): that schedule cycle, the engine, the syndrome (R546), the outcome
code of R577 and the repeats that gave it (R547), and the instruction. -/
structure Found where
  at_ : Nat
  eng : Nat
  syndrome : BitVec 24
  outcome : Nat
  repeats : Nat
  sh : Shuttle
  pc : Word
  opcode : Byte
  deriving DecidableEq, Repr

/-- One entry of the pick table or its victim store (R349, R373): the key, the payload as the numbers of the stored positions
of DA that the key stands for (assumption 79), and the parity bit over both. -/
structure PickEntry where
  key : BitVec 24
  payload : List Nat
  parity : Bool
  deriving DecidableEq, Repr

/-- The heddle pass (or CULL, GERMINATE) whose work is not complete (R358, R360): issue cycle, budget, work,
whether it has overrun, the CCLK cycles of overrun so far, and what completion adds to the pass counters. -/
structure HeddlePass where
  issued : Nat
  budget : Nat
  work : Nat
  overrunning : Bool
  overran : Nat
  failed : Bool
  deriving DecidableEq, Repr

/-- A checked drain's outstanding verdict (R555, R556): its number, the shuttle, PC and opcode of the drain, the
engine drained, the time its tile landed (`none` before), the first failing element, whether DO lies in the tun, and
the elements of the conversion that no later write has replaced. -/
structure Verdict where
  id : Nat
  sh : Shuttle
  pc : Word
  opcode : Byte
  eng : Nat
  landed : Option Nat
  fails : Option (Nat × Nat)
  tun : Bool
  elems : List Poke
  deriving DecidableEq, Repr

/-- A provisional piece whose VERDICT frame has not been sent (R563): its access number, the module it went to, the verdicts
it still depends on, whether a unit was FAILED when it was read, its core-store units, DA as the PUT read it (for the
resend), and the header of its frames. -/
structure PieceVerdict where
  id : Nat
  sh : Shuttle
  pc : Word
  dest : Nat
  offset : Nat
  count : Nat
  deps : List Nat
  failed : Bool
  units : List Nat
  da : BitVec 512
  head : Frame
  deriving DecidableEq, Repr

/-! ### Bobbin queues, semaphores and the selvedge unit -/

/-- A segment of a remote request (R483): its lowest byte in the tier, and its pieces, each within one 64-byte unit, as
external bit offset, bits and local bit address. -/
structure Segment where
  offset : Nat
  pieces : List (Nat × Nat × Nat)
  deriving DecidableEq, Repr

/-- A bobbin request (R169 to R173): sequence number, kind, the descriptor images read at issue (R144), the AO
offset, its access number and shuttle, token, ACQ, whether it waits for release or provisional units, whether it
has completed and poisoned; and for a remote one the module, its segments without an answer (R483), what has arrived for
local bytes, the local bytes whose external unit came poisoned, and the time its link engine took it. -/
structure Request where
  seq : Nat
  kind : Nat
  dl : BitVec 512
  dr : BitVec 512
  di : BitVec 512
  offset : Int
  access : Nat
  sh : Shuttle
  token : Half
  acq : Bool
  held : Bool
  complete : Bool
  poisoned : Bool
  dest : Option Nat
  sent : Bool
  segs : List Segment
  got : List Poke
  bad : List Poke
  sentAt : Nat
  deriving DecidableEq, Repr

/-- A bobbin queue (R170): the sequence number of its oldest outstanding request, of its next one, and the
outstanding requests in issue order. -/
structure Queue where
  oldest : Nat := 0
  next : Nat := 0
  reqs : List Request := []
  deriving DecidableEq, Repr

/-- A counting semaphore (R196). -/
structure Sem where
  count : Half := 0
  sat : Bool := false
  deriving DecidableEq, Repr

/-- An entry of a core's read-combining buffer (R183): tier and module-qualified unit, data, root-PLL time of the
fetch. -/
structure CombineEntry where
  unit : Nat
  data : List Byte
  fetched : Nat
  deriving DecidableEq, Repr

/-- A core's selvedge unit (R586, R592): configuration, last landed result, and the schedule cycles on which its queued
and running runs end (R589). -/
structure Selv where
  poly : Dword := 0
  init : Dword := 0
  width : BitVec 7 := 0
  refin : Bool := false
  refout : Bool := false
  inv : Bool := false
  tally : Byte := 0
  lastMismatch : Bool := false
  result : Dword := 0
  runs : List Nat := []
  deriving DecidableEq, Repr

/-! ### A core -/

/-- Why a core is held besides a token freeze and an overrun (R81, R638): until a CCLK cycle, until fewer than four
verdicts are outstanding, until the units that a UPD names resolve, or under S4. -/
structure Holds where
  until_ : Nat := 0
  verdictSlots : Bool := false
  updUnits : List Nat := []
  s4 : Bool := false
  deriving DecidableEq, Repr

/-- One physical core (R25). Byte memories read 0 where unlisted; check states read clear. `jnlPend` holds the JNL.WRITEs
whose entry has not completed, as the order of their issue and the 64 bytes that core 0 gives (R426, R427). `semFresh` holds
what signals have added to each semaphore on CCLK cycle `semCycle` (R200, R210); `found` the residue detections whose cycle
is still to end; `storeCause` says that an intermittent or the fence had a storage cause (R570), `fenceStore` that the fault that fenced the
core lies in its memories (R62). `starveSeen` marks the starved-gradient counters that have raised their event since RUN was
last 0 (R298). -/
structure Core where
  regs : RegFile := {}
  spare : RegFile := {}
  f : Sh := {}
  b : Sh := {}
  u : Sh := {}
  imgF : List InstrWord := []
  imgB : List InstrWord := []
  imgU : List InstrWord := []
  plans : List (List Byte) := []
  plan : Nat := 0
  planPending : Option Nat := none
  phase : Nat := 0
  cycle : Nat := 0
  sched : Bool := false
  frozen : Bool := false
  haltAt : Option Nat := none
  collide : Bool := false
  store : Tbl Byte := []
  storeChk : Tbl Chk := []
  tun : Tbl Byte := []
  tunChk : Tbl Chk := []
  desc : Tbl (Option (BitVec 512)) := []
  sems : Tbl Sem := []
  semCycle : Nat := 0
  semFresh : Tbl Nat := []
  drift : Dword := 0
  queues : Tbl Queue := []
  combine : List CombineEntry := []
  beam : Multiplier := {}
  heddle : Multiplier := {}
  beamT : EngineTime := {}
  heddleT : EngineTime := {}
  vecT : EngineTime := {}
  sfuT : EngineTime := {}
  sfuEntry : Tbl Dword := []
  sfuConfig : Tbl Dword := []
  pick0 : Tbl (Option PickEntry) := []
  pick1 : Tbl (Option PickEntry) := []
  victim : List PickEntry := []
  lastW : Word := 0
  pass : Option HeddlePass := none
  params : Tbl (Option (List Byte)) := []
  selv : Selv := {}
  flight : List Flight := []
  nextOrder : Nat := 0
  nextAccess : Nat := 0
  deferred : List Deferred := []
  found : List Found := []
  holds : Holds := {}
  verdicts : List Verdict := []
  pieces : List PieceVerdict := []
  verdictBuckets : List Half := []
  jnlHash : Dword := 0
  jnlPend : List (Nat × List Byte) := []
  counters : Tbl Dword := []
  starveCfg : Word := 0x00400080
  starveEvent : Dword := 0
  starveTotal : Tbl Dword := []
  starveFlush : Tbl Dword := []
  starveSeen : Dword := 0
  intermits : List Nat := []
  storeCause : Bool := false
  fenceStore : Bool := false
  deriving DecidableEq, Repr

/-! ### Quadrants and partitions -/

/-- One quadrant (R65, R89, R404, R440, R603, R630, R649); `genNext` is a host write of GEN with the CCLK cycle of its arrival
(R405), `exitAt` the time at which an exit that an access has triggered ends (R653). -/
structure Quad where
  pair : Word := 0
  pairFrom : Nat := 0
  pairNext : Option (Nat × Nat) := none
  testPair : Bool := false
  window : List Nat := []
  poolCap : Word := 0x258
  ctxMode : Word := 0
  jnlBase : Dword := 0
  jnlIndex : Dword := 0
  replayTaps : Word := 0xFFFF
  replayDrop : Dword := 0
  hangCtrl : Word := 0x64
  maskGen : Dword := 0
  genNext : Option Nat := none
  idle : Nat := 0
  exitAt : Option Nat := none
  horizonHost : Word := 0
  horizonAt : Nat := 0
  deriving DecidableEq, Repr

/-- The context states of R52. -/
inductive Ctx where
  | empty | loaded | running | stopped | faulted
  deriving DecidableEq, Repr

/-- A bucket as the partition opened it (R442, R447): the record's fields, the digest of words 1 to 3 (R446), and
whether it came as a Choyx 1 descriptor. -/
structure BucketRec where
  elems : Nat
  ledgerKb : Nat
  contrib : Dword
  deadlineUs : Nat
  group : Half
  groupCount : Nat
  thin : Nat
  digest : Word
  backup : List Byte
  normDeclared : Bool
  deriving DecidableEq, Repr

/-- A norm group in progress (R472, R473): its identifier, GROUP_COUNT and CONTRIB (0 until a bucket of it opens), how
many buckets have joined, those of them still open, whether the module partial has been sent, the partials by module
(sum, error, non-finite bit), and the final norm. -/
structure NormGroup where
  group : Half
  count : Nat := 0
  contrib : Dword := 0
  joined : Nat := 0
  members : List Half := []
  sent : Bool := false
  partials : Tbl (Option (Word × Word × Bool)) := []
  final : Option Word := none
  nonfin : Bool := false
  deriving DecidableEq, Repr

/-- A reset sequence in progress on a partition (R606, R614, R616): first level, level in progress, source of that level
(0 command, 1 AUTO, 2 escalation), whether it escalated, start of the sequence and of the level in root-PLL cycles, and
whether its L4 has passed its limit (R615). -/
structure ResetSeq where
  first : Nat
  level : Nat
  source : Nat
  escalated : Bool
  began : Nat
  levelBegan : Nat
  overrun : Bool := false
  deriving DecidableEq, Repr

/-- A partition (R43, R52): its lowest quadrant and size, its context and everything the context holds beyond its
cores: timing profile, logical map (R57), allocation table (R164), code region (R530), measurement (R669), start of the
clearing (R220), stop requests (R55, R574), first fault (R129), beat-up notices (R717), buckets, norm groups, the step's
journal tallies (R428), replay (R431), horizon (R649), reset progress, the shuttle named in a hang record with the record's
time (R605), the CCLK cycle and time from which S4 holds it (R638), cores under test in it (R671), and whether it is EMPTY
after a reset (R618). -/
structure Part where
  low : Nat
  size : Nat
  ctx : Ctx := .empty
  profile : Nat := 1
  map : List Nat := []
  alloc : List (BitVec 128) := []
  codeStart : Nat := 0
  codeLen : Nat := 0
  digest : BitVec 384 := 0
  clearing : Option Nat := none
  stopping : Bool := false
  stopAtRun : Bool := false
  faultFirst : Option (Nat × Nat × Nat) := none
  notices : List (Nat × Nat) := []
  noticesSent : List Nat := []
  buckets : List (Half × BucketRec) := []
  closed : List (Half × Half) := []
  groups : List NormGroup := []
  jnlStart : Nat := 0
  jnlFresh : Bool := true
  jnlStep : Dword := 0
  jnlFlags : Nat := 0
  jnlFails : Nat := 0
  jnlRepeats : Nat := 0
  replayLeft : Nat := 0
  cursors : Tbl Nat := []
  horizon : List Nat := []
  reset : Option ResetSeq := none
  hangShuttle : Option (Nat × Shuttle × Nat) := none
  s4Hold : Option (Nat × Nat) := none
  testing : List Nat := []
  afterReset : Bool := false
  deriving DecidableEq, Repr

/-! ### Casks -/

/-- A unit of a slice in a cask, for one contributor (R465, R466): whether it is added, the contributor's own copy has
been placed or compared equal, and the backup's; its CRC-32C, the module that sent the placed copy and whether that was
the backup; its ledger copy with the verdicts it still awaits (the piece's, the selvedge check's); how many provisional
copies of either kind were compared and have their verdicts still to come; and how many were subtracted by the selvedge
check before their verdicts came (R595). -/
structure CaskUnit where
  added : Bool := false
  own : Bool := false
  crc : Word := 0
  sender : Nat := 0
  backup : Bool := false
  ledger : Option (List Byte) := none
  awaitsPiece : Bool := false
  awaitsSelv : Bool := false
  comparedOwn : Nat := 0
  comparedBackup : Nat := 0
  staleOwn : Nat := 0
  staleBackup : Nat := 0
  deriving DecidableEq, Repr

/-- A verdict that a cask keeps (R565, R595): the contributor and copy it speaks for, whether it is the selvedge check of
an IVQ piece, its outcome, whether it has landed, the units it has still to be applied to, and (of a selvedge check) those of
its piece that have not been accepted. -/
structure CaskVerdict where
  id : Nat
  speaksFor : Nat
  backup : Bool
  selv : Bool
  sender : Nat
  pass : Bool
  landed : Bool
  units : List Nat
  waiting : List Nat
  deriving DecidableEq, Repr

/-- An IVQ piece whose frames have not all arrived (R508): sender, contributor, copy, offset, the cask's selvedge
registers when its first slot arrived (R596), and its bytes so far. -/
structure Building where
  sender : Nat
  speaksFor : Nat
  backup : Bool
  offset : Nat
  cfg : Word × Word × Word
  bytes : List Byte
  deriving DecidableEq, Repr

/-- An open bucket in one cask (R442 to R475). Tables: headers and non-finite records as lists, units by
2^20 × contributor + unit, cells and results by element, allocation times by section; `backedUp` lists the contributors
counted as resolved through a backup copy (R468). -/
structure CaskBucket where
  low : Nat
  bucket : Half
  tag : Half
  clock : Option Nat := none
  anchor : Option Int := none
  anchorAt : Nat := 0
  largest : Int := -32768
  headers : List Nat := []
  units : Tbl CaskUnit := []
  cells : Tbl Int := []
  results : Tbl Word := []
  sealedCount : Nat := 0
  allocAt : Tbl Nat := []
  elapsed : List Nat := []
  bucketElapsed : Bool := false
  norm : Lane := {}
  nonfin : Bool := false
  nonfinSeen : List Nat := []
  backedUp : List Nat := []
  withheld : List Nat := []
  withheldMark : Bool := false
  verdicts : List CaskVerdict := []
  building : List Building := []
  deriving DecidableEq, Repr

/-- A frame held back in the link engine (R463, R464, R467, R492): what is left of it, its slots whose credit has not
been returned, and the cask's selvedge registers when it arrived (R596). -/
structure HeldFrame where
  id : Nat
  rx : Rx
  slots : Nat
  cfg : Word × Word × Word
  deriving DecidableEq, Repr

/-- One cask (R33, R477, R584). -/
structure Cask where
  buckets : List CaskBucket := []
  counters : Tbl Dword := []
  selvCtrl : Word := 0x3C0
  selvPoly : Word := 0x1EDC6F41
  selvInit : Word := 0xFFFFFFFF
  held : List HeldFrame := []
  lateSeen : List (Nat × Nat) := []
  deriving DecidableEq, Repr

/-! ### Ports -/

/-- Channel states (R495 to R505, R643). -/
inductive ChanState where
  | down | up | retraining | quiesced | failed
  deriving DecidableEq, Repr

/-- One channel pair of a port, to and from one peer (R478, R485 to R500): sequence state, the flits kept for
retry, frames' slots waiting by VL, slots sent and not yet credited by VL, slots held here and credits to return, the last
flit discarded ahead of its turn, whether a retry request is due, retrain bookkeeping, whether its sweep is held (R502), the
last flit sent with its time and comb line (R478), and the end of a tracking step's hold (R501). -/
structure Chan where
  state : ChanState := .down
  txSeq : Word := 0
  rxSeq : Word := 0xFFFFFFFF
  unacked : List Flit := []
  resend : List Flit := []
  txq : Tbl (List Slot) := []
  lastVl : Nat := 0
  creditUsed : Tbl Nat := []
  rxHeld : Tbl Nat := []
  returned : Tbl Nat := []
  returnedShared : Nat := 0
  gap : Option Word := none
  askRetry : Bool := false
  retryAck : Option (Word × Nat) := none
  retrainFails : Nat := 0
  retrainAt : Nat := 0
  sweepHeld : Bool := false
  sent : Option Flit := none
  sentAt : Nat := 0
  line : Nat := 0
  holdTill : Nat := 0
  deriving DecidableEq, Repr

/-- A slot that a port has delivered to its link engine (R488, R493): the peer, the virtual lane, the slot, and for the first
slot of a CASK.PIECE frame the selvedge registers of the port's cask as it arrived (R596). -/
structure Arrived where
  peer : Nat
  vl : Nat
  slot : Slot
  cfg : Option (Word × Word × Word) := none
  deriving DecidableEq, Repr

/-- One warp port (R501 to R510); `sweepHeld` says that a dark port waits for its sweeps (R502), `quiescing` that it darkens
once its quiesce notices have gone (R641). -/
structure Port where
  laserOk : Bool := false
  lit : Bool := false
  sweepHeld : Bool := false
  quiescing : Bool := false
  failed : Dword := 0
  retrain : Dword := 0
  counters : Tbl Dword := []
  chans : Tbl Chan := []
  calNext : Nat := 0
  calAt : Nat := 0
  delivered : List Arrived := []
  deriving DecidableEq, Repr

/-! ### Device-wide blocks -/

/-- A signal on its way to a semaphore of this module (R197, R203): its number, target physical core, semaphore and
count, and the access that it performs (core, shuttle, access number). -/
structure Signal where
  id : Nat
  target : Nat
  sem : Nat
  count : Half
  source : Option (Nat × Shuttle × Nat)
  held : Bool
  deriving DecidableEq, Repr

/-- A response still awaited for a frame of a reset partition (R608): the logical core, the peer, token and address that
it will carry, and when the timeout of R176 frees the entry. -/
structure Abandoned where
  core : Nat
  peer : Nat
  token : Half
  addr : Dword
  expires : Nat
  deriving DecidableEq, Repr

/-- An error record before its CHECK field is computed (R577). -/
structure Record where
  time : Nat
  rseq : Word
  kind : Nat
  outcome : Nat
  flags : Nat
  die : Nat
  quad : Nat
  core : Nat
  engine : Nat
  shuttle : Nat
  opcode : Nat
  pc : Word
  temp : Half
  vcore : Half
  vin : Half
  maskGen : Word
  step : Dword
  detail : Dword
  lost : Word
  deriving DecidableEq, Repr

/-- The error-record machinery (R579, R580): the cellar store, the coalescing table (first record, time of the
last, count, fence seen), and the ring registers. -/
structure Errors where
  rseq : Nat := 0
  store : List Record := []
  table : List (Record × Nat × Nat × Bool) := []
  base : Dword := 0x0047FFC00000
  head : Dword := 0
  tail : Dword := 0
  lost : Dword := 0
  deriving DecidableEq, Repr

/-- A command in progress on a ring: its code and tag (R523). -/
structure Busy where
  opc : Nat
  tag : Half
  deriving DecidableEq, Repr

/-- A completion entry the device wrote to host memory (R526): ring, host address, and its fields. -/
structure Completion where
  ring : Nat
  addr : Nat
  tag : Half
  status : Nat
  phase : Bool
  seq : Word
  detail : Dword
  deriving DecidableEq, Repr

/-- The registers and progress of one command ring (R520 to R526). -/
structure Ring where
  base : Dword := 0
  cplBase : Dword := 0
  ctrl : Word := 0x6
  tail : BitVec 12 := 0
  head : BitVec 12 := 0
  cplHead : BitVec 12 := 0
  cplTail : BitVec 12 := 0
  phase : Bool := true
  seq : Word := 0
  busy : Option Busy := none
  deriving DecidableEq, Repr

/-- What a host read through the HDM window, or an idle MMIO access, returned. -/
inductive HostReply where
  | data (addr : Nat) (bytes : List Byte) (poison : Bool)
  | mmio (addr : Nat) (value : Dword)
  | unsupported (addr : Nat)
  deriving DecidableEq, Repr

/-- Management responses (R540, R541, R662 to R668). -/
inductive MgmtReply where
  | mctp (ep : Endpoint) (body : List Byte) (error : Bool)
  | updateMode (ep : Endpoint)
  | alreadyInUpdateMode (ep : Endpoint)
  | verifyComplete (ep : Endpoint) (reason : Nat)
  | applyComplete (ep : Endpoint) (ok : Bool)
  | activated (ep : Endpoint)
  | measurements (ep : Endpoint) (digests : List (Nat × BitVec 384)) (signature : List Byte)
  | certificate (ep : Endpoint) (chain : List Byte)
  | challengeAuth (ep : Endpoint) (signature : List Byte)
  | keyExchange (ep : Endpoint) (session : Nat) (signature : List Byte)
  | heartbeatAck (ep : Endpoint) (session : Nat)
  | ideAck (stream : Nat)
  | spdmError (ep : Endpoint)
  | inBandInterrupt
  | romHalt (otp : Bool)
  | requestData (ep : Endpoint) (offset length : Nat)
  deriving DecidableEq, Repr

/-- The host interface beyond the rings (R511 to R518, R534 to R538): link, HDM segments, snoop filter (oldest
first), lines with a BISnpInv outstanding, segment changes waiting, MSI-X mask and pending bits, and what the host
has been sent: messages, completions, replies, snoops. -/
structure HostIf where
  width : Nat := 0
  rate64 : Bool := false
  degraded : Bool := false
  ideActive : Bool := false
  pid : BitVec 12 := 0
  badacc : Dword := 0
  seg : Tbl Word := []
  segWait : List (Nat × Word) := []
  snoop : List Nat := []
  snooping : List Nat := []
  msixMask : Dword := 0xFFFFFFFFFFFFFFFF
  msixPend : Dword := 0
  messages : List Nat := []
  completions : List Completion := []
  replies : List HostReply := []
  deriving DecidableEq, Repr

/-- Fused and OTP content (R58, R660, R665, R690), and the slot position that the MOD_ID straps give (22, J2 signals). -/
structure Fuses where
  code : Half := 0x9600
  stepping : Nat := 1
  tp1 : Bool := true
  tp2 : Bool := false
  disable : Dword := 0
  otpSvn : Nat := 0
  eccKeyHash : BitVec 384 := 0
  lmsKeyHash : BitVec 256 := 0
  modId : BitVec 6 := 0
  deriving DecidableEq, Repr

/-- The module's flash (R657) by region: image, staged image and marker, certificate chain, and the persistent
records: withdrawal flag, supply records (CELLAR_TIME at S5 entry), boot failures (reason, step). -/
structure Flash where
  image : List Byte := []
  staging : List Byte := []
  marker : Bool := false
  devidChain : List Byte := []
  withdrawn : Bool := false
  supply : List Nat := []
  bootFailures : List (Nat × Nat) := []
  deriving DecidableEq, Repr

/-- How far the boot of R659 has come: before step 1; in recovery (R662); step 4 done and step 5 to come; halted in step 1
or in steps 5 and 6; finished. -/
inductive BootPhase where
  | start | recovery | ready | haltedOtp | haltedTraining | done
  deriving DecidableEq, Repr

/-- Boot, service and security state (R620 to R622, R657 to R668), with each endpoint's ID and the transmission unit of the
CXL.io one (R540, R541); `secretLocked` says that the ROM has locked the device secret out, after it issued the alias
certificate (R666). -/
structure Boot where
  phase : BootPhase := .start
  reason : Nat := 0
  recovered : Bool := false
  activated : Bool := false
  imageSvn : Nat := 0
  alias_ : BitVec 384 := 0
  imageDigest : BitVec 384 := 0
  aliasCert : List Byte := []
  secretLocked : Bool := false
  service : Nat := 0
  eidCxl : Byte := 0
  eidI3c : Byte := 0
  mctpUnit : Nat := 64
  updating : Option Endpoint := none
  updateVerified : Bool := false
  sessionsCxl : List Nat := []
  sessionsI3c : List Nat := []
  nextSession : Nat := 0
  ideKeys : Tbl (BitVec 256) := []
  replies : List MgmtReply := []
  deriving DecidableEq, Repr

/-- Self-test and calibration requests (R670 to R676): the control fields, the core sets, the number of cores asked for,
the cores under test with the time of their start plus one, and a calibration's kind, port and start. `kind` is the TEST of
the request in progress; a port sweep has come to wavelength `calWave`, whose own sweep ends at `calTill`. -/
structure SelfTest where
  test : Bool := false
  intrusive : Bool := false
  busy : Bool := false
  done : Bool := false
  sel : BitVec 192 := 0
  left : BitVec 192 := 0
  fail : BitVec 192 := 0
  asked : Nat := 0
  started : Tbl Nat := []
  kind : Bool := false
  calKind : Bool := false
  calPort : BitVec 3 := 0
  calBusy : Bool := false
  calRun : Option (Bool × Nat × Nat) := none
  calWave : Nat := 0
  calTill : Nat := 0
  deriving DecidableEq, Repr

/-- The host path of the cellar's selvedge units (R598). -/
structure HostSelv where
  cfg : Word := 0x3A0
  poly : Dword := 0x1EDC6F41
  init : Dword := 0xFFFFFFFF
  addr : Dword := 0
  len : Dword := 0x40
  expect : Dword := 0
  result : Dword := 0
  busy : Bool := false
  mismatch : Bool := false
  done : Bool := false
  range : Bool := false
  run : Option (Word × Dword × Dword × Dword × Dword × Dword) := none
  began : Nat := 0
  deriving DecidableEq, Repr

/-- Clocks, supply, thermal and idle state (R624 to R656, R699 to R711): divider requests and the one in force, TCLK and the
time of its loss, the supply average and stage, the times of S4's start and of a throttle step, an S5 entry whose stops are
still awaited (its start, and whether it writes a supply record) and whether its notices have been handed over, the stage
that follows an S5 whose ports are coming up (R642), core store and tun in retention, the partitions' states and known events
at the last choice of an idle level (R651), THERMTRIP_N and the other sideband pins, the start of a
shutdown, and a switch-off that ends when the input returns. -/
structure Power where
  divHost : Nat := 0
  divNow : Nat := 0
  divTherm : Nat := 0
  tclk : Bool := true
  tclkLostAt : Option Nat := none
  tclkAbsent : Bool := false
  vinAvg : Nat := 0
  stage : Nat := 0
  s4At : Nat := 0
  s5Wait : Option (Nat × Bool) := none
  s5Sent : Bool := false
  s5Ending : Option Nat := none
  s4LimitMs : Nat := 0xC8
  stageCounts : Tbl Dword := []
  throttle : Nat := 0x190
  tmax : Int := 0
  crit : Bool := false
  thermAt : Nat := 0
  maxLevel : Nat := 2
  guardUs : Nat := 0x64
  saveBase : Dword := 0x0047EFC00000
  rails : Bool := true
  pgood : Bool := true
  pwrEn : Bool := true
  downAt : Option Nat := none
  awaitInput : Bool := false
  l5Request : Bool := false
  thermTrip : Bool := false
  leak : Bool := false
  selfRefresh : Bool := false
  retention : Bool := false
  idleSeen : List (Nat × Ctx × List Nat) := []
  deriving DecidableEq, Repr

/-- Reset bookkeeping across partitions (R612, R619, R620). -/
structure ResetLog where
  counts : Tbl Dword := []
  last : Nat := 0
  history : List Nat := []
  deriving DecidableEq, Repr

/-- The whole module, and the queue of commands that wait, first in, first out. -/
structure State where
  pending : List Instr := []
  /-- root-PLL cycles since power-on (R624, R628) -/
  pll : Nat := 0
  /-- CCLK cycles since power-on (R13) -/
  cc : Nat := 0
  epoch : Dword := 0
  fuses : Fuses := {}
  flash : Flash := {}
  boot : Boot := {}
  power : Power := {}
  cores : Tbl Core := []
  quads : Tbl Quad := []
  parts : List Part := [{ low := 0, size := 8 }]
  casks : Tbl Cask := []
  ports : Tbl Port := []
  /-- PORT_FABRIC (R509), PORT_CAL_CTRL, PORT_REQ_TIMEOUT (R176) -/
  fabric : Word := 0x1
  calCtrl : Word := 0xA
  reqTimeout : Word := 0x2710
  hbm : Tbl Byte := []
  lpddr : Tbl Byte := []
  /-- 64-byte units of HBM3E and LPDDR5X that stand uncorrectable (R194), found or written poisoned (R562) -/
  poisonHbm : List Nat := []
  poisonLpddr : List Nat := []
  /-- those of them that a read has found and recorded (R194) -/
  poisonFound : List (Tier × Nat) := []
  /-- corrections per stack (0 to 11) or package (12 and up) (R193) -/
  eccCounts : Tbl Dword := []
  scrubCtrl : Word := 0x1801
  fence : BitVec 192 := 0
  errors : Errors := {}
  rings : Tbl Ring := []
  host : HostIf := {}
  resets : ResetLog := {}
  selfTest : SelfTest := {}
  hostSelv : HostSelv := {}
  /-- signals on their way to this module's semaphores (R197) -/
  signals : List Signal := []
  nextSignal : Nat := 0
  /-- frames bound for the module's own casks over the mesh (R33) -/
  mesh : List Rx := []
  nextVerdict : Nat := 0
  nextHeld : Nat := 0
  /-- frames of reset partitions whose responses are still awaited (R608) -/
  abandoned : List Abandoned := []
  /-- the W1C bits, by register address and bit, that the device has set on CCLK cycle `w1cAt` (R687) -/
  w1c : List (Nat × Nat) := []
  w1cAt : Nat := 0
  /-- the model's own counter of free values drawn (assumption 6) -/
  draws : Nat := 0
  deriving DecidableEq, Repr

/-- The module at power-on (R19, R689, R707): every register at its Reset value, one partition of eight quadrants
with its context EMPTY (R521), no command waiting. -/
def State.reset : State := {}

end Sys2Proof.Machine
end

