-- ==== Sys2Proof/Machine/Ops.lean ====
section
/-! DEFINITION. Named operations over the state: sparse tables, fields of words, little-endian bytes, time,
and the one way to reach each core, quadrant, partition, cask, port and ring. -/

namespace Sys2Proof.Machine

/-! ### Sparse tables -/

/-- What a table holds at a key; an unlisted key reads as the default `d`. -/
def tget {α : Type} (d : α) : Tbl α → Nat → α
  | [], _ => d
  | (k, v) :: t, i => if i = k then v else tget d t i

/-- The table without a key. -/
def terase {α : Type} : Tbl α → Nat → Tbl α
  | [], _ => []
  | (k, v) :: t, i => if i = k then terase t i else (k, v) :: terase t i

/-- The table with an entry put at its place in rising key order. -/
def tinsert {α : Type} : Tbl α → Nat → α → Tbl α
  | [], i, x => [(i, x)]
  | (k, v) :: t, i, x =>
    if i < k then (i, x) :: (k, v) :: t
    else if i = k then (i, x) :: t
    else (k, v) :: tinsert t i x

/-- Write one entry and keep the canonical form: writing the default unlists the key. -/
def tset {α : Type} [DecidableEq α] (d : α) (t : Tbl α) (i : Nat) (x : α) : Tbl α :=
  if x = d then terase t i else tinsert t i x

/-- Keys strictly rising above a bound, no entry equal to the default. -/
def tsorted {α : Type} [DecidableEq α] (d : α) : Nat → Tbl α → Bool
  | _, [] => true
  | lo, (k, v) :: t => decide (lo ≤ k) && decide (v ≠ d) && tsorted d (k + 1) t

/-- The canonical form of a table. -/
def twf {α : Type} [DecidableEq α] (d : α) (t : Tbl α) : Bool := tsorted d 0 t

/-- Write several entries, later ones last. -/
def tsetAll {α : Type} [DecidableEq α] (d : α) (t : Tbl α) (xs : List (Nat × α)) : Tbl α :=
  xs.foldl (fun m x => tset d m x.1 x.2) t

/-! ### Fields of words (R14) -/

/-- The value of bits [lo + len − 1 : lo]. -/
def bits {n : Nat} (x : BitVec n) (lo len : Nat) : Nat := (x.toNat >>> lo) % 2 ^ len

/-- Bit `i`. -/
def bit {n : Nat} (x : BitVec n) (i : Nat) : Bool := x.getLsbD i

/-- The word with bits [lo + len − 1 : lo] replaced. -/
def setBits {n : Nat} (x : BitVec n) (lo len v : Nat) : BitVec n :=
  let m := BitVec.ofNat n ((2 ^ len - 1) <<< lo)
  (x &&& ~~~ m) ||| BitVec.ofNat n ((v % 2 ^ len) <<< lo)

/-- A number as a two's-complement integer of `n` bits. -/
def signed (n v : Nat) : Int := if v % 2 ^ n < 2 ^ (n - 1) then (v % 2 ^ n : Nat) else (v % 2 ^ n : Nat) - (2 ^ n : Nat)

/-- 1 for true. -/
def flag (b : Bool) : Nat := if b then 1 else 0

/-! ### Little-endian bytes (R15) -/

/-- The `n` bytes of a number, lowest first. -/
def leBytes : Nat → Nat → List Byte
  | 0, _ => []
  | n + 1, v => BitVec.ofNat 8 v :: leBytes n (v / 256)

/-- The number whose bytes are given lowest first. -/
def leVal : List Byte → Nat
  | [] => 0
  | b :: t => b.toNat + 256 * leVal t

/-- `n` bytes of a byte memory from an address. -/
def readBytes (m : Tbl Byte) (addr : Nat) : Nat → List Byte
  | 0 => []
  | n + 1 => tget 0 m addr :: readBytes m (addr + 1) n

/-- Pair bytes with rising addresses. -/
def placed (addr : Nat) : List Byte → List (Nat × Byte)
  | [] => []
  | b :: t => (addr, b) :: placed (addr + 1) t

/-- Write bytes into a byte memory, later pairs last. -/
def writeBytes (m : Tbl Byte) (xs : List (Nat × Byte)) : Tbl Byte := tsetAll 0 m xs

/-- Round up to a multiple of 64 (09_sparse_formats, r64). -/
def r64 (x : Nat) : Nat := (x + 63) / 64 * 64

/-- Division rounded up. -/
def ceilDiv (a b : Nat) : Nat := (a + b - 1) / b

/-- The 64-byte unit numbers that byte addresses touch, each once. -/
def unitsOf (xs : List (Nat × Byte)) : List Nat := (xs.map (fun x => x.1 / 64)).dedup

/-! ### Time (R624, R628) -/

/-- Root-PLL cycles of `n` microseconds: the root PLL runs at 10.2 GHz. -/
def us (n : Nat) : Nat := n * 10200
/-- Root-PLL cycles of `n` milliseconds. -/
def ms (n : Nat) : Nat := us (n * 1000)
/-- Root-PLL cycles of `n` seconds. -/
def sec (n : Nat) : Nat := ms (n * 1000)
/-- Root-PLL cycles of `n` nanoseconds, rounded up. -/
def nsUp (n : Nat) : Nat := (n * 51 + 4) / 5

/-- CELLAR_TIME: 10 more on every TCLK cycle, which is 102 root-PLL cycles (R628). -/
def deviceTime (s : State) : Nat := 10 * (s.pll / 102)

/-- Root-PLL cycles of one CCLK cycle for a divider code (R625). -/
def divider (code : Nat) : Nat :=
  match code with
  | 0 => 6
  | 1 => 7
  | 2 => 8
  | 3 => 10
  | _ => 12

/-! ### The parts of the state -/

def getCore (s : State) (n : Nat) : Core := tget {} s.cores n
def setCore (s : State) (n : Nat) (c : Core) : State := { s with cores := tset {} s.cores n c }
def modCore (s : State) (n : Nat) (g : Core → Core) : State := setCore s n (g (getCore s n))

def getQuad (s : State) (q : Nat) : Quad := tget {} s.quads q
def setQuad (s : State) (q : Nat) (x : Quad) : State := { s with quads := tset {} s.quads q x }
def modQuad (s : State) (q : Nat) (g : Quad → Quad) : State := setQuad s q (g (getQuad s q))

def getCask (s : State) (k : Nat) : Cask := tget {} s.casks k
def setCask (s : State) (k : Nat) (x : Cask) : State := { s with casks := tset {} s.casks k x }
def modCask (s : State) (k : Nat) (g : Cask → Cask) : State := setCask s k (g (getCask s k))

def getPort (s : State) (k : Nat) : Port := tget {} s.ports k
def setPort (s : State) (k : Nat) (x : Port) : State := { s with ports := tset {} s.ports k x }
def modPort (s : State) (k : Nat) (g : Port → Port) : State := setPort s k (g (getPort s k))

def getRing (s : State) (r : Nat) : Ring := tget {} s.rings r
def setRing (s : State) (r : Nat) (x : Ring) : State := { s with rings := tset {} s.rings r x }
def modRing (s : State) (r : Nat) (g : Ring → Ring) : State := setRing s r (g (getRing s r))

def getChan (s : State) (port peer : Nat) : Chan := tget {} (getPort s port).chans peer
def modChan (s : State) (port peer : Nat) (g : Chan → Chan) : State :=
  modPort s port (fun p => { p with chans := tset {} p.chans peer (g (tget {} p.chans peer)) })

/-- The partition that holds a quadrant. -/
def partOf (s : State) (q : Nat) : Option Part :=
  s.parts.find? (fun p => decide (p.low ≤ q) && decide (q < p.low + p.size))

/-- The partition whose lowest quadrant is given (R520). -/
def partAt (s : State) (low : Nat) : Option Part := s.parts.find? (fun p => p.low == low)

/-- Change the partition with the given lowest quadrant. -/
def modPart (s : State) (low : Nat) (g : Part → Part) : State :=
  { s with parts := s.parts.map (fun p => if p.low = low then g p else p) }

/-- The quadrants of a partition. -/
def partQuads (p : Part) : List Nat := (List.range p.size).map (fun i => p.low + i)

/-- Change every quadrant of a partition (R404, R440: partition-wide registers). -/
def modPartQuads (s : State) (p : Part) (g : Quad → Quad) : State :=
  (partQuads p).foldl (fun t q => modQuad t q g) s

/-- The physical cores of a quadrant (R23). -/
def quadCores (q : Nat) : List Nat := (List.range 24).map (fun i => 24 * q + i)

/-- The physical cores of a partition. -/
def partCores (p : Part) : List Nat := (partQuads p).flatMap quadCores

/-- The quadrant of a physical core (R23). -/
def quadOf (core : Nat) : Nat := core / 24

/-- The partition of a physical core. -/
def corePart (s : State) (core : Nat) : Option Part := partOf s (quadOf core)

/-- The logical number of a physical core in its partition's map (R57). -/
def logicalOf (p : Part) (core : Nat) : Option Nat := p.map.findIdx? (fun n => n == core)

/-- Fabric size N and the own module index (R509). -/
def fabricN (s : State) : Nat := bits s.fabric 0 7
def ownIndex (s : State) : Nat := bits s.fabric 8 6

/-- Whether a partition lies on compute die H1 (R21). -/
def onH1 (p : Part) : Bool := decide (4 ≤ p.low)

/-- C of R443: casks of a partition. -/
def caskCount (p : Part) : Nat := if p.size = 8 then 8 else 4

/-- The physical cask of partition-relative cask j (R45). -/
def caskOf (p : Part) (j : Nat) : Nat := if p.size ≠ 8 ∧ 4 ≤ p.low then 4 + j else j

/-- The physical casks of a partition (R45). -/
def partCasks (p : Part) : List Nat := (List.range (caskCount p)).map (caskOf p)

/-- The port of port index i of a partition (R482). -/
def portOf (p : Part) (i : Nat) : Nat := caskOf p i

/-- A fresh unspecified byte: an uninterpreted value of the draw counter (assumption 6). -/
def drawBytes : Nat → Nat → List Byte
  | _, 0 => []
  | d, n + 1 => Config.freeByte d :: drawBytes (d + 1) n

/-- The stage whose actions are in force: TCLK absence applies those of S5 (R627, R633). -/
def stageNow (s : State) : Nat := if s.power.tclkAbsent then 5 else s.power.stage

/-- An HDM or remote access at I4 takes the memories out of self-refresh (R652). -/
def wakeMemory (s : State) : State :=
  if stageNow s < 5 then { s with power := { s.power with selfRefresh := false } } else s

/-! ### Counters that rise for ever -/

/-- Add to a 64-bit counter held in a table by register offset. -/
def bumpTbl (t : Tbl Dword) (off n : Nat) : Tbl Dword := tset 0 t off (tget 0 t off + BitVec.ofNat 64 n)

def bumpCore (s : State) (core off n : Nat) : State :=
  modCore s core (fun c => { c with counters := bumpTbl c.counters off n })

def bumpCask (s : State) (k off n : Nat) : State :=
  modCask s k (fun c => { c with counters := bumpTbl c.counters off n })

def bumpPort (s : State) (k off n : Nat) : State :=
  modPort s k (fun c => { c with counters := bumpTbl c.counters off n })

end Sys2Proof.Machine
end

