-- ==== Sys2Proof/Machine/Num.lean ====
section
/-! DEFINITION. Exact arithmetic and the number formats: values as an integer mantissa times a power of two,
the formats of R266, the one rounding of R267, the lane arithmetic of R242 and the tun-wide form of R288. -/

namespace Sys2Proof.Machine

/-! ### Exact values -/

/-- 2^n as an integer. -/
def pow2 (n : Nat) : Int := (2 ^ n : Nat)

/-- The quiet NaN the device writes in FP32 (R266). -/
def nan32 : Word := 0x7FC00000
/-- The FP32 infinity of a sign. -/
def inf32 (neg : Bool) : Word := if neg then 0xFF800000 else 0x7F800000

/-- Exact zero. -/
def Exact.zero : Exact := .num 0 0

/-- Whether a value is a number. -/
def finiteE : Exact → Bool
  | .num _ _ => true
  | .nonfin _ => false

/-- expo(x) = ⌊log₂|x|⌋ of a nonzero value (R242). -/
def expoE (m e : Int) : Option Int := if m = 0 then none else some ((m.natAbs.log2 : Int) + e)

/-- Bring two exponents to the smaller one. -/
def alignE (m1 e1 m2 e2 : Int) : Int × Int × Int :=
  if e1 ≤ e2 then (m1, m2 * pow2 (e2 - e1).toNat, e1)
  else (m1 * pow2 (e1 - e2).toNat, m2, e2)

/-- Whether an FP32 pattern is a NaN. -/
def isNan32 (x : Word) : Bool := bits x 23 8 == 255 && bits x 0 23 != 0
/-- Whether an FP32 pattern is finite. -/
def finite32 (x : Word) : Bool := bits x 23 8 != 255
/-- The sign of an FP32 pattern. -/
def neg32 (x : Word) : Bool := bit x 31

/-- IEEE 754 addition of two values of which at least one is non-finite. -/
def addNonfin (a b : Word) : Word :=
  if isNan32 a || isNan32 b then nan32
  else if finite32 a then b
  else if finite32 b then a
  else if neg32 a = neg32 b then a else nan32

/-- A stand-in finite pattern for `addNonfin`. -/
def wordOfE : Exact → Word
  | .num _ _ => 0
  | .nonfin b => b

/-- Exact addition; non-finite operands add as IEEE 754 does. -/
def addE : Exact → Exact → Exact
  | .num m1 e1, .num m2 e2 => let (a, b, e) := alignE m1 e1 m2 e2; .num (a + b) e
  | a, b => .nonfin (addNonfin (wordOfE a) (wordOfE b))

/-- Exact negation. -/
def negE : Exact → Exact
  | .num m e => .num (-m) e
  | .nonfin b => .nonfin (if isNan32 b then nan32 else b ^^^ 0x80000000)

/-- Exact product; non-finite operands multiply as IEEE 754 does. -/
def mulE : Exact → Exact → Exact
  | .num m1 e1, .num m2 e2 => .num (m1 * m2) (e1 + e2)
  | .num m _, .nonfin b =>
    if isNan32 b || m = 0 then .nonfin nan32 else .nonfin (inf32 (xor (decide (m < 0)) (neg32 b)))
  | .nonfin b, .num m _ =>
    if isNan32 b || m = 0 then .nonfin nan32 else .nonfin (inf32 (xor (decide (m < 0)) (neg32 b)))
  | .nonfin a, .nonfin b =>
    if isNan32 a || isNan32 b then .nonfin nan32 else .nonfin (inf32 (xor (neg32 a) (neg32 b)))

/-- The value times 2^k. -/
def scaleE (x : Exact) (k : Int) : Exact :=
  match x with
  | .num m e => .num m (e + k)
  | .nonfin b => .nonfin b

/-- The magnitude. -/
def absE : Exact → Exact
  | .num m e => .num m.natAbs e
  | .nonfin b => .nonfin (b &&& 0x7FFFFFFF)

/-- a ≤ b for exact numbers given as mantissa and exponent. -/
def leNum (m1 e1 m2 e2 : Int) : Bool := let (a, b, _) := alignE m1 e1 m2 e2; decide (a ≤ b)

/-- a ≤ b; false when either is NaN, infinities at the ends. -/
def leE : Exact → Exact → Bool
  | .num m1 e1, .num m2 e2 => leNum m1 e1 m2 e2
  | .nonfin a, .num _ _ => !isNan32 a && neg32 a
  | .num _ _, .nonfin b => !isNan32 b && !neg32 b
  | .nonfin a, .nonfin b => !isNan32 a && !isNan32 b && (neg32 a || !neg32 b)

/-- a < b. -/
def ltE (a b : Exact) : Bool := leE a b && !leE b a

/-! ### Rounding (R267) -/

/-- Directions of rounding: to nearest even, toward zero, toward +∞. -/
inductive Rnd where
  | rne | zero | up
  deriving DecidableEq, Repr

/-- The integer n for which n × 2^q is m × 2^e rounded. -/
def roundTo (d : Rnd) (m e q : Int) : Int :=
  if q ≤ e then m * pow2 (e - q).toNat
  else
    let b := pow2 (q - e).toNat
    let fl := m / b
    let rem := m - fl * b
    match d with
    | .rne => if 2 * rem < b then fl else if b < 2 * rem then fl + 1 else if fl % 2 = 0 then fl else fl + 1
    | .zero => if m < 0 && rem != 0 then fl + 1 else fl
    | .up => if rem = 0 then fl else fl + 1

/-- A binary floating-point format (R266): fraction bits, bias, largest exponent code of a finite value, width, whether
infinities exist, and the NaN the device writes. -/
structure FpFmt where
  frac : Nat
  bias : Nat
  top : Nat
  expBits : Nat
  inf : Bool
  nan : Nat
  deriving DecidableEq, Repr

def fmtE4M3 : FpFmt := ⟨3, 7, 15, 4, false, 0x7F⟩
def fmtE5M2 : FpFmt := ⟨2, 15, 30, 5, true, 0x7F⟩
def fmtFP16 : FpFmt := ⟨10, 15, 30, 5, true, 0x7E00⟩
def fmtBF16 : FpFmt := ⟨7, 127, 254, 8, true, 0x7FC0⟩
def fmtFP32 : FpFmt := ⟨23, 127, 254, 8, true, 0x7FC00000⟩
def fmtE2M1 : FpFmt := ⟨1, 1, 3, 2, false, 0⟩

/-- Largest finite magnitude of a format as mantissa and exponent. E4M3 keeps fraction 0b111 at the top for NaN; E2M1
has no NaN. -/
def maxFinite (f : FpFmt) : Int × Int :=
  let m := if f = fmtE4M3 then 14 else 2 ^ (f.frac + 1) - 1
  (m, (f.top : Int) - f.bias - f.frac)

/-- Decode an element of a format. -/
def decodeFp (f : FpFmt) (x : Nat) : Exact :=
  let fr := x % 2 ^ f.frac
  let ex := (x / 2 ^ f.frac) % 2 ^ f.expBits
  let sg := (x / 2 ^ (f.frac + f.expBits)) % 2 = 1
  let sgn (m : Nat) : Int := if sg then -(m : Int) else m
  if f = fmtE4M3 then
    if ex = 15 ∧ fr = 7 then .nonfin nan32
    else if ex = 0 then .num (sgn fr) (-9) else .num (sgn (8 + fr)) ((ex : Int) - 10)
  else if f.top < ex then
    if fr = 0 then .nonfin (inf32 sg) else .nonfin nan32
  else if ex = 0 then .num (sgn fr) (1 - (f.bias : Int) - f.frac)
  else .num (sgn (2 ^ f.frac + fr)) ((ex : Int) - f.bias - f.frac)

/-- The quantum exponent of a number in a format: the weight of its last place, subnormals included. -/
def quantum (f : FpFmt) (m e : Int) : Int :=
  let lo : Int := 1 - (f.bias : Int) - f.frac
  match expoE m e with
  | none => lo
  | some x => max (x - f.frac) lo

/-- A number rounded to a format's precision with an unbounded exponent (R271): mantissa and exponent. -/
def roundNum (d : Rnd) (f : FpFmt) (m e : Int) : Int × Int :=
  let q := quantum f m e
  (roundTo d m e q, q)

/-- Encode a number that the format holds exactly, its magnitude at most the largest finite one. -/
def encodeExact (f : FpFmt) (neg : Bool) (mag : Nat) (q : Int) : Nat :=
  let s := if neg then 2 ^ (f.frac + f.expBits) else 0
  if mag = 0 then s
  else
    let x := (mag.log2 : Int) + q
    let lo : Int := 1 - (f.bias : Int)
    if x < lo then
      s + mag * 2 ^ (q - (lo - f.frac)).toNat
    else
      let fr := if (f.frac : Int) ≤ mag.log2 then mag / 2 ^ (mag.log2 - f.frac) else mag * 2 ^ (f.frac - mag.log2)
      s + (x + f.bias).toNat * 2 ^ f.frac + fr % 2 ^ f.frac

/-- How a conversion ended (R271). -/
structure Conv where
  bits : Nat
  ovf : Bool
  flush : Bool
  deriving DecidableEq, Repr

/-- What an overflow writes: the largest finite value of its sign (R279), or the infinity (R282). -/
inductive OverRule where
  | saturate | infinity
  deriving DecidableEq, Repr

/-- Convert with one rounding (R266 to R271). A non-finite value becomes the format's infinity where it has one and the
value is infinite, otherwise its NaN (R268). -/
def convert (d : Rnd) (o : OverRule) (f : FpFmt) (x : Exact) : Conv :=
  match x with
  | .nonfin b =>
    if !isNan32 b && f.inf then
      ⟨(if neg32 b then 2 ^ (f.frac + f.expBits) else 0) + (f.top + 1) * 2 ^ f.frac, false, false⟩
    else ⟨f.nan, false, false⟩
  | .num m e =>
    let (r, q) := roundNum d f m e
    let (mm, me) := maxFinite f
    let neg := decide (m < 0)
    let mag := r.natAbs
    if !leNum mag q mm me then
      match o with
      | .saturate => ⟨encodeExact f neg mm.natAbs me, true, false⟩
      | .infinity =>
        if f.inf then ⟨(if neg then 2 ^ (f.frac + f.expBits) else 0) + (f.top + 1) * 2 ^ f.frac, true, false⟩
        else ⟨f.nan, true, false⟩
    else ⟨encodeExact f neg mag q, false, decide (m ≠ 0 ∧ r = 0)⟩

/-- rne32 (R242): the FP32 rounding of an exact value. -/
def rne32 (x : Exact) : Word := BitVec.ofNat 32 (convert .rne .infinity fmtFP32 x).bits
/-- FP32 rounding toward +∞ (R267, R274, R366, R553). A negative number that overflows holds the most negative finite
value, which is the least FP32 value not below it. -/
def up32 (x : Exact) : Word :=
  match x with
  | .num m _ =>
    BitVec.ofNat 32 (convert .up (if m < 0 then .saturate else .infinity) fmtFP32 x).bits
  | .nonfin b => b
/-- The exact value of an FP32 pattern. -/
def val32 (x : Word) : Exact := decodeFp fmtFP32 x.toNat
/-- FP32 arithmetic with one rounding per operation (R419). A zero result of a product keeps no sign. -/
def add32 (a b : Word) : Word :=
  if a = 0x80000000 ∧ b = 0x80000000 then a else rne32 (addE (val32 a) (val32 b))
def sub32 (a b : Word) : Word := add32 a (b ^^^ 0x80000000)
def mul32 (a b : Word) : Word :=
  let r := rne32 (mulE (val32 a) (val32 b))
  if bits r 0 31 = 0 then (if neg32 a = neg32 b then 0 else 0x80000000) else r

/-- A fused multiply-add with one rounding. A zero is negative only where the product and the addend both are. -/
def fma32 (a b c : Word) : Word :=
  if mul32 a b = 0x80000000 ∧ c = 0x80000000 ∧ (bits a 0 31 = 0 ∨ bits b 0 31 = 0) then 0x80000000
  else rne32 (addE (mulE (val32 a) (val32 b)) (val32 c))

/-- An integer square root by fixed bisection steps. -/
def isqrtAux : Nat → Nat → Nat → Nat
  | 0, _, r => r
  | k + 1, n, r => let t := r + 2 ^ k; if t * t ≤ n then isqrtAux k n t else isqrtAux k n r
/-- ⌊√n⌋. -/
def isqrt (n : Nat) : Nat := isqrtAux (n.log2 / 2 + 1) n 0

/-- The square root of a nonnegative exact number, as an FP32 pattern rounded as given. The root is taken with 64 more
bits than the format needs and a sticky bit. -/
def sqrt32 (d : Rnd) (x : Exact) : Word :=
  match x with
  | .nonfin b => if isNan32 b || neg32 b then nan32 else b
  | .num m e =>
    if m < 0 then nan32
    else if m = 0 then 0
    else
      let k : Nat := 128 + (if e % 2 = 0 then 0 else 1)
      let n := m.toNat * 2 ^ k
      let r := isqrt n
      let sticky := if r * r = n then 0 else 1
      let v : Exact := .num ((2 * r + sticky : Nat) : Int) ((e - k) / 2 - 1)
      BitVec.ofNat 32 (convert d .infinity fmtFP32 v).bits

/-- FP32 division, rounded to nearest even. -/
def div32 (a b : Word) : Word :=
  let neg := xor (neg32 a) (neg32 b)
  if isNan32 a || isNan32 b then nan32
  else match val32 a, val32 b with
    | .nonfin _, .nonfin _ => nan32
    | .nonfin _, .num _ _ => inf32 neg
    | .num _ _, .nonfin _ => if neg then 0x80000000 else 0
    | .num ma ea, .num mb eb =>
      if mb = 0 then (if ma = 0 then nan32 else inf32 neg)
      else if ma = 0 then (if neg then 0x80000000 else 0)
      else
        let n := ma.natAbs * 2 ^ 80
        let q := n / mb.natAbs
        let sticky := if q * mb.natAbs = n then 0 else 1
        let v : Int := ((2 * q + sticky : Nat) : Int)
        rne32 (.num (if neg then -v else v) (ea - eb - 81))

/-! ### Accumulator lanes (R242 to R246) -/

/-- trunc_grid (R242): the number of grid units, truncated toward zero. -/
def gridOf (m e g : Int) : Int := roundTo .zero m e g

/-- The error register saturates at its 80 bits (R244). -/
def clampErr (x : Int) : Int :=
  if x < -(pow2 79) then -(pow2 79) else if pow2 79 - 1 < x then pow2 79 - 1 else x

/-- A product as it enters a lane (R243): beyond the largest finite FP32 value, the infinity of its sign. -/
def laneTerm (t : Exact) : Exact :=
  match t with
  | .nonfin b => .nonfin b
  | .num m e => let (mm, me) := maxFinite fmtFP32
    if leNum m.natAbs e mm me then .num m e else .nonfin (inf32 (decide (m < 0)))

/-- The larger of two exponents, either absent for a zero. -/
def maxOpt : Option Int → Option Int → Option Int
  | none, b => b
  | a, none => a
  | some a, some b => some (max a b)

/-- The error register, taken onto the coarser grid of a new anchor (R242). -/
def regrid (err : Int) (old new : Option Int) : Int :=
  match old, new with
  | some a, some b => if a < b then gridOf err (a - 76) (b - 76) else err
  | _, _ => err

/-- One addition of R242. -/
def laneAdd (l : Lane) (t : Exact) : Lane :=
  match val32 l.sum, t with
  | .num ms es, .num mt et =>
    let a := maxOpt l.anchor (maxOpt (expoE ms es) (expoE mt et))
    let err := regrid l.err l.anchor a
    let x := addE (.num ms es) (.num mt et)
    let s1 := rne32 x
    match a, addE x (negE (val32 s1)) with
    | some g, .num mr er => { sum := s1, err := clampErr (err + gridOf mr er (g - 76)), anchor := a }
    | none, .num _ _ => { sum := s1, err := err, anchor := a }
    | _, .nonfin _ => { sum := s1, err := 0, anchor := a }
  | _, _ => { l with sum := addNonfin l.sum (wordOfE t), err := 0 }

/-- What an addition of R242 on finite operands adds up in the error register: its old content on the grid in force and the
remainder kept, both as exact values (R261). -/
def laneErrors (l : Lane) (t : Exact) : Option (Exact × Exact) :=
  match val32 l.sum, t with
  | .num ms es, .num mt et =>
    match maxOpt l.anchor (maxOpt (expoE ms es) (expoE mt et)), addE (addE (.num ms es) (.num mt et))
        (negE (val32 (rne32 (addE (.num ms es) (.num mt et))))) with
    | some g, .num mr er => some (.num (regrid l.err l.anchor (some g)) (g - 76), .num (gridOf mr er (g - 76)) (g - 76))
    | _, _ => some (Exact.zero, Exact.zero)
  | _, _ => none

/-- Whether a lane is non-finite (R246). -/
def laneNonfin (l : Lane) : Bool := !finite32 l.sum

/-- The exact value of a lane (R245): sum + err, or the sum register alone when it is non-finite (R246). -/
def laneVal (l : Lane) : Exact :=
  match l.anchor with
  | some a => if finite32 l.sum then addE (val32 l.sum) (.num l.err (a - 76)) else .nonfin l.sum
  | none => val32 l.sum

/-- The lane that a received compensated pair sets (R255). -/
def laneSeed (sum err : Word) : Lane :=
  match val32 sum, val32 err with
  | .num ms es, .num me ee =>
    match maxOpt (expoE ms es) (expoE me ee) with
    | none => { sum := sum, err := 0, anchor := none }
    | some a => { sum := sum, err := gridOf me ee (a - 76), anchor := some a }
  | _, _ => { sum := sum, err := 0, anchor := none }

/-- A sum of exact numbers of a list under R242, from a zeroed lane. -/
def laneSum (xs : List Exact) : Lane := xs.foldl (fun l t => laneAdd l (laneTerm t)) {}

/-! ### The tun-wide form (R288, R289) -/

/-- The exponent of u(S): max(expo(S), −126) − 39, or −165 when S is zero. -/
def tunU (s : Word) : Int :=
  match val32 s with
  | .num m e => match expoE m e with
    | some x => max x (-126) - 39
    | none => -165
  | .nonfin _ => -165

/-- The exact value of a tun-wide element. -/
def tunVal (s : Word) (k : Half) : Exact :=
  match val32 s with
  | .num m e => addE (.num m e) (.num k.toInt (tunU s))
  | .nonfin b => .nonfin b

/-- The FP32 pattern one unit in the last place above a finite one. -/
def ulpUp (s : Word) : Word := if neg32 s then s - 1 else s + 1

/-- Add an exact value onto a tun-wide element (R289). -/
def tunAdd (s : Word) (k : Half) (v : Exact) : Word × Half :=
  match val32 s, v with
  | .num _ _, .num _ _ =>
    match addE (tunVal s k) v with
    | .num mx ex =>
      let s1 := rne32 (.num mx ex)
      match addE (.num mx ex) (negE (val32 s1)) with
      | .num mr er =>
        let k1 := gridOf mr er (tunU s1)
        if k1 = 32768 then
          let s2 := ulpUp s1
          match addE (.num mx ex) (negE (val32 s2)) with
          | .num m2 e2 => (s2, BitVec.ofInt 16 (gridOf m2 e2 (tunU s2)))
          | .nonfin _ => (s2, 0)
        else (s1, BitVec.ofInt 16 k1)
      | .nonfin _ => (s1, 0)
    | .nonfin b => (b, 0)
  | _, _ => (addNonfin s (wordOfE v), 0)

/-- The tun-wide element nearest to an exact value: its error term to nearest even (R159, R267). -/
def tunRound (x : Exact) : Nat :=
  match x with
  | .nonfin b => b.toNat
  | .num m e =>
    let s := rne32 (.num m e)
    let put (s : Word) : Option Int := match addE (.num m e) (negE (val32 s)) with
      | .num mr er => some (roundTo .rne mr er (tunU s))
      | .nonfin _ => none
    match put s with
    | none => s.toNat
    | some k =>
      if k = 32768 then (ulpUp s).toNat + (BitVec.ofInt 16 ((put (ulpUp s)).getD 0)).toNat * 2 ^ 32
      else s.toNat + (BitVec.ofInt 16 k).toNat * 2 ^ 32

/-! ### Scales (R269, R273) -/

/-- The value of a SCALE8 byte as an exponent of two; `none` for the non-finite scale (R269). -/
def scaleExp (e : Nat) : Option Int := if e % 256 = 255 then none else some ((e % 256 : Nat) - 127)

/-- An element times its scale (R270); the non-finite scale makes it NaN (R269). -/
def scaled (x : Exact) (e : Nat) : Exact :=
  match scaleExp e with
  | none => .nonfin nan32
  | some k => scaleE x k

/-- The larger of two magnitudes. -/
def maxMag (a b : Exact) : Exact := if leE a b then b else a

/-- Smallest e from 0 to 254 with amax ≤ max × 2^(e − 127), searched upward (R273). -/
def leastScale (amax : Exact) (mm me : Int) : Nat → Nat → Nat
  | 0, e => e
  | fuel + 1, e =>
    if leE amax (.num mm (me + (e : Int) - 127)) then e else leastScale amax mm me fuel (e + 1)

/-- The scale byte of a granule (R273), `mm` × 2^`me` being Max_T. -/
def gravScale (mm me : Int) (xs : List Exact) : Nat :=
  if xs.any (fun x => !finiteE x) then 255
  else
    let amax := xs.foldl (fun a x => maxMag a (absE x)) Exact.zero
    match amax with
    | .num m _ => if m = 0 then 127 else leastScale amax mm me 254 0
    | .nonfin _ => 255

/-! ### Stochastic rounding (R292 to R294) -/

/-- One round of Philox-4×32: counter words and key words. -/
def philoxRound (c : Nat × Nat × Nat × Nat) (k : Nat × Nat) : Nat × Nat × Nat × Nat :=
  let (c0, c1, c2, c3) := c
  let p0 := 0xD2511F53 * c0
  let p1 := 0xCD9E8D57 * c2
  let hi (p : Nat) := p / 2 ^ 32
  let lo (p : Nat) := p % 2 ^ 32
  (Nat.xor (Nat.xor (hi p1) c1) k.1, lo p1, Nat.xor (Nat.xor (hi p0) c3) k.2, lo p0)

/-- Ten rounds, the key rising by the Weyl constants between them. -/
def philoxRounds : Nat → Nat × Nat × Nat × Nat → Nat × Nat → Nat × Nat × Nat × Nat
  | 0, c, _ => c
  | n + 1, c, k => philoxRounds n (philoxRound c k) ((k.1 + 0x9E3779B9) % 2 ^ 32, (k.2 + 0xBB67AE85) % 2 ^ 32)

/-- ρ of R294: bits [15:0] of output word 0. Key and counter words low half first (assumption 14). -/
def philoxRho (seed : Dword) (elem : Nat) (tensor : Nat) (stepNo : Dword) : Nat :=
  let c := (elem % 2 ^ 32, (elem / 2 ^ 32) % 2 ^ 16 + (tensor % 2 ^ 16) * 2 ^ 16, bits stepNo 0 32, bits stepNo 32 32)
  (philoxRounds 10 c (bits seed 0 32, bits seed 32 32)).1 % 2 ^ 16

/-- The weight that UPD writes (R292, R293): ρ × 2^−16 of a last place is added to the magnitude, which is then
truncated; beyond the largest finite value, that value. -/
def stochastic (f : FpFmt) (x : Exact) (rho : Nat) : Nat :=
  match x with
  | .nonfin _ => (convert .rne .infinity f x).bits
  | .num m e =>
    let q := quantum f m e
    let (a, b, g) := alignE m.natAbs e rho (q - 16)
    let r := roundTo .zero (a + b) g q
    let (mm, me) := maxFinite f
    let neg := decide (m < 0)
    if leNum r q mm me then encodeExact f neg r.natAbs q
    else encodeExact f neg mm.natAbs me

/-! ### Residues (R259, R544) -/

/-- ρ of a finite value modulo 7: ±(i mod 7) × 2^(q mod 3) mod 7. -/
def residue7 (m q : Int) : Int := (m % 7) * pow2 (q % 3).toNat % 7
/-- ρ₃ of a finite value modulo 3: ±(i mod 3) × (−1)^q mod 3. -/
def residue3 (m q : Int) : Int := (m % 3) * (if q % 2 = 0 then 1 else 2) % 3

/-- The residue of a value under ρ (modulo 7) or ρ₃ (modulo 3); a non-finite value has none. -/
def rho7 : Exact → Option Nat
  | .num m q => some (residue7 m q).toNat
  | .nonfin _ => none
def rho3 : Exact → Option Nat
  | .num m q => some (residue3 m q).toNat
  | .nonfin _ => none

/-- Residues added and multiplied; the caller reduces them. -/
def resAdd (x y : Option Nat) : Option Nat := x.bind (fun a => y.map (fun b => a + b))
def resMul (x y : Option Nat) : Option Nat := x.bind (fun a => y.map (fun b => a * b))
def resSum (xs : List (Option Nat)) : Option Nat := xs.foldl resAdd (some 0)

end Sys2Proof.Machine
end

