-- ==== Sys2Proof/Machine/Operands.lean ====
section
/-! DEFINITION. The fields of an instruction word in its four formats (R98, R106), its reserved bits (R100, R107),
register operands (R103, R104) and the list of fault conditions an instruction meets (R121). -/

namespace Sys2Proof.Machine

/-! ### Fault conditions -/

/-- The (kind, DETAIL) pairs of the conditions an instruction meets. -/
abbrev Conds := List (Nat × Nat)

/-- One condition. -/
def cond (b : Bool) (kind detail : Nat) : Conds := if b then [(kind, detail)] else []

/-- Whether one condition is reported before another: the lowest kind (R121), and within a kind the lowest DETAIL
(assumption 15). -/
def condLt (a b : Nat × Nat) : Bool := decide (a.1 < b.1) || (a.1 == b.1 && decide (a.2 < b.2))

/-- The condition that is reported. -/
def worst : Conds → Option (Nat × Nat)
  | [] => none
  | x :: t => match worst t with
    | none => some x
    | some y => if condLt y x then some y else some x

/-! ### Fields (R98, R106) -/

/-- The four formats of R106. -/
inductive Fmt where
  | s | t | q | w
  deriving DecidableEq, Repr

def fldOp (w : InstrWord) : Nat := bits w 0 8
def fldGap (w : InstrWord) : Nat := bits w 8 7
def fldPred (w : InstrWord) : Nat := bits w 16 6
def fldPneg (w : InstrWord) : Bool := bit w 22
def fldPen (w : InstrWord) : Bool := bit w 23
/-- FLAGS[24 + k]. -/
def fldFlag (w : InstrWord) (k : Nat) : Bool := bit w (24 + k)

/-- Format S. -/
def sD (w : InstrWord) : Nat := bits w 32 8
def sS1 (w : InstrWord) : Nat := bits w 40 8
def sS2 (w : InstrWord) : Nat := bits w 48 8
def sFn (w : InstrWord) : Nat := bits w 56 8
def sImm (w : InstrWord) : Nat := bits w 64 64

/-- Format T. -/
def tDO (w : InstrWord) : Nat := bits w 32 8
def tDA (w : InstrWord) : Nat := bits w 40 8
def tDB (w : InstrWord) : Nat := bits w 48 8
def tDX (w : InstrWord) : Nat := bits w 56 8
def tMode (w : InstrWord) : Nat := bits w 64 8
def tSub (w : InstrWord) : Nat := bits w 72 8
def tImm (w : InstrWord) : Nat := bits w 96 32

/-- Format Q. -/
def qQN (w : InstrWord) : Nat := bits w 32 4
def qQT (w : InstrWord) : Nat := bits w 36 4
def qDL (w : InstrWord) : Nat := bits w 40 8
def qDR (w : InstrWord) : Nat := bits w 48 8
def qDI (w : InstrWord) : Nat := bits w 56 8
def qAO (w : InstrWord) : Nat := bits w 64 5
def qKind (w : InstrWord) : Nat := bits w 69 3

/-- Format W. -/
def wTgt (w : InstrWord) : Nat := bits w 32 8
def wCnt (w : InstrWord) : Nat := bits w 40 16
def wRph (w : InstrWord) : Nat := bits w 56 9
def wTcore (w : InstrWord) : Nat := bits w 72 8
def wTmod (w : InstrWord) : Nat := bits w 80 6
def wBkt (w : InstrWord) : Nat := bits w 88 16

/-- The bit positions of DO, DA, DB and DX, which DETAIL names (R121). -/
def offDO : Nat := 32
def offDA : Nat := 40
def offDB : Nat := 48
def offDX : Nat := 56
def offMode : Nat := 64
def offSub : Nat := 72
def offImm : Nat := 96

/-- `len` ones from bit `lo`. -/
def maskOf (lo len : Nat) : Nat := (2 ^ len - 1) * 2 ^ lo

/-- The bits that must be 0: bit 15, PRED and PNEG without PEN (R100), the FLAGS bits that the format does not define
and its reserved bits (R106). -/
def reservedMask (f : Fmt) (pen : Bool) : Nat :=
  maskOf 15 1 + (if pen then 0 else maskOf 16 7) +
  match f with
  | .s => maskOf 25 7
  | .t => maskOf 25 7 + maskOf 80 16
  | .q => maskOf 27 5 + maskOf 72 56
  | .w => maskOf 26 6 + maskOf 65 7 + maskOf 86 2 + maskOf 104 24

/-- The lowest set bit among bits 0 to 127. -/
def lowestBit (x : Nat) : Option Nat := (List.range 128).find? (fun i => x.testBit i)

/-- The reserved-encoding conditions of the bits every instruction of a format shares. -/
def reservedConds (f : Fmt) (w : InstrWord) : Conds :=
  match lowestBit (w.toNat &&& reservedMask f (fldPen w)) with
  | some i => [(2, i)]
  | none => []

/-- The lowest set bit of IMM, for IMM bits that must be 0. -/
def immZero (imm off kind : Nat) : Conds :=
  match lowestBit imm with
  | some i => [(kind, off + i)]
  | none => []

/-- A field whose value is undefined (R107): kind 0x02 with the lowest bit of the field. -/
def undefinedField (bad : Bool) (lo : Nat) : Conds := cond bad 2 lo

/-- Reserved bits of the word from `lo` on (R107): kind 0x02 with the position of the lowest one that is set. -/
def reservedBits (w : InstrWord) (lo width : Nat) : Conds := immZero (bits w lo width) lo 2

/-- The opcodes of the map (R108). -/
def definedOpcodes : List Nat :=
  [0x00, 0x01, 0x02, 0x03, 0x04, 0x05, 0x08, 0x09, 0x0A, 0x0B, 0x0C, 0x0D, 0x0E, 0x0F, 0x10, 0x11, 0x12, 0x13, 0x14,
   0x18, 0x19, 0x20, 0x21, 0x22, 0x28, 0x29, 0x2A, 0x2B, 0x30, 0x31, 0x32, 0x38, 0x39, 0x3A, 0x40, 0x48, 0x49, 0x50,
   0x51, 0x58, 0x59, 0x5A, 0x5B, 0x5C, 0x60, 0x61, 0x68, 0x69, 0x6A, 0x70, 0x71, 0x72, 0x73, 0x78, 0x79, 0x7A, 0x7B,
   0x80, 0x81, 0x82, 0x88, 0x90, 0x91, 0x92]

def opcodeDefined (op : Nat) : Bool := definedOpcodes.contains op

/-- The opcodes of the wait class (R77). -/
def waitOpcode (op : Nat) : Bool := [0x19, 0x71, 0x72, 0x73, 0x78, 0x79, 0x7A, 0x7B].contains op

/-! ### Register operands (R103) -/

/-- File of a specifier: 0 a, 1 c, 2 p, 3 q. -/
def specFile (sp : Nat) : Nat := sp / 64 % 4
/-- Index of a specifier. -/
def specIdx (sp : Nat) : Nat := sp % 64

/-- Entries of a file (R92). -/
def fileSize : Nat → Nat
  | 0 => 32
  | 1 => 16
  | 2 => 64
  | _ => 16

/-- An index beyond the file's last entry (R103). -/
def specBad (sp : Nat) : Bool := decide (fileSize (specFile sp) ≤ specIdx sp)

/-- Read a register, zero-extended. -/
def regRead (r : RegFile) (sp : Nat) : Nat :=
  match specFile sp with
  | 0 => (tget 0 r.a (specIdx sp)).toNat
  | 1 => (tget 0 r.c (specIdx sp)).toNat
  | 2 => flag (bit r.p (specIdx sp))
  | _ => (tget 0 r.q (specIdx sp)).toNat

/-- Write a register, truncated to its width (R109). -/
def regWrite (r : RegFile) (sp : Nat) (v : Nat) : RegFile :=
  match specFile sp with
  | 0 => { r with a := tset 0 r.a (specIdx sp) (BitVec.ofNat 64 v) }
  | 1 => { r with c := tset 0 r.c (specIdx sp) (BitVec.ofNat 32 v) }
  | 2 => { r with p := setBits r.p (specIdx sp) 1 v }
  | _ => { r with q := tset 0 r.q (specIdx sp) (BitVec.ofNat 16 v) }

/-- A result as its destination holds it: a-file results wrap modulo 2^64 and c-file results saturate (R95, R109); a
predicate takes bit 0. -/
def fitResult (sp : Nat) (v : Int) : Nat :=
  if specFile sp = 1 then (if v < 0 then 0 else if 0xFFFFFFFF < v then 0xFFFFFFFF else v.toNat)
  else (v % pow2 64).toNat

/-- The program counter of a shuttle (R92). -/
def pcOf (r : RegFile) : Shuttle → Word
  | .f => r.pcF
  | .b => r.pcB
  | .u => r.pcU

def setPc (r : RegFile) (sh : Shuttle) (v : Word) : RegFile :=
  match sh with
  | .f => { r with pcF := v }
  | .b => { r with pcB := v }
  | .u => { r with pcU := v }

/-- The shuttle's place in the order F, B, U. -/
def shIdx : Shuttle → Nat
  | .f => 0
  | .b => 1
  | .u => 2

def allShuttles : List Shuttle := [.f, .b, .u]

def shOf (c : Core) : Shuttle → Sh
  | .f => c.f
  | .b => c.b
  | .u => c.u

def setSh (c : Core) (sh : Shuttle) (x : Sh) : Core :=
  match sh with
  | .f => { c with f := x }
  | .b => { c with b := x }
  | .u => { c with u := x }

def modSh (c : Core) (sh : Shuttle) (g : Sh → Sh) : Core := setSh c sh (g (shOf c sh))

def imgOf (c : Core) : Shuttle → List InstrWord
  | .f => c.imgF
  | .b => c.imgB
  | .u => c.imgU

end Sys2Proof.Machine
end

