-- ==== Sys2Proof/Machine/Desc.lean ====
section
/-! DEFINITION. Tensor descriptors (R131 to R151): fields, the allocation table behind the handles (R164, R165), the
validation of R138 and R139, and the positions an access through a descriptor reaches. -/

namespace Sys2Proof.Machine

/-- A descriptor image (R131). -/
abbrev Image := BitVec 512

def dBase (d : Image) : Nat := bits d 0 48
def dHandle (d : Image) : Nat := bits d 48 16
def dType (d : Image) : Nat := bits d 64 4
def dFmt (d : Image) : Nat := bits d 68 4
def dRank (d : Image) : Nat := bits d 72 3
def dIndex (d : Image) : Bool := bit d 75
def dPad (d : Image) (k : Nat) : Nat := if k = 0 then bits d 80 10 else bits d (83 + 7 * k) 7
def dSize (d : Image) (k : Nat) : Nat := bits d (128 + 64 * k) 24
def dStride (d : Image) (k : Nat) : Int := signed 40 (bits d (152 + 64 * k) 40)
/-- Valid extent of a dimension. -/
def dValid (d : Image) (k : Nat) : Nat := dSize d k - dPad d k

/-- Element types of R134. -/
def tyE4M3 : Nat := 0
def tyE5M2 : Nat := 1
def tyBF16 : Nat := 2
def tyFP16 : Nat := 3
def tyFP32 : Nat := 4
def tyBS4 : Nat := 5
def tyTun : Nat := 6
def tyComp : Nat := 7
def tyInt16 : Nat := 8
def tyInt32 : Nat := 9
def tyScale : Nat := 10
def tyBit : Nat := 11

/-- Width of an element type in bits (R134). -/
def tyWidth : Nat → Nat
  | 0 => 8 | 1 => 8 | 2 => 16 | 3 => 16 | 4 => 32 | 5 => 4 | 6 => 48 | 7 => 64 | 8 => 16 | 9 => 32 | 10 => 8 | _ => 1

/-- The floating-point format of an element type. -/
def tyFp : Nat → Option FpFmt
  | 0 => some fmtE4M3 | 1 => some fmtE5M2 | 2 => some fmtBF16 | 3 => some fmtFP16 | 4 => some fmtFP32
  | 5 => some fmtE2M1 | _ => none

/-- Storage formats of R135. -/
def fmDense : Nat := 0
def fmBSR : Nat := 1
def fmNM : Nat := 2
def fmNMT : Nat := 3
def fmCSRT : Nat := 4
def fmBMP : Nat := 5
def fmPAIR : Nat := 6
def fmIVQ : Nat := 7

def dDense (d : Image) : Bool := dFmt d == fmDense

/-! ### Capacities and allocations (R1, R161, R164, R165) -/

def gib : Nat := 2 ^ 30
def hbmBytes : Nat := 576 * gib
/-- LPDDR5X of a module: 3 TiB, 2 TiB on GV-9580 (R1). -/
def lpddrBytes (s : State) : Nat := if s.fuses.code = 0x9580 then 2048 * gib else 3072 * gib
def storeBytes : Nat := 0x180000
def tunBytes : Nat := 0x100000

/-- Capacity of a tier code of R162; a reserved tier has none. -/
def tierBytes (s : State) (t : Nat) : Nat := if t = 0 then hbmBytes else if t = 1 then lpddrBytes s else 0

/-- One allocation entry as R164 lays it out. -/
structure Alloc where
  start : Nat
  tier : Nat
  pq : Nat
  xport : Bool
  readonly : Bool
  module : Nat
  length : Nat
  deriving DecidableEq, Repr

/-- Read an entry, or nothing when R165 says that it names nothing. -/
def allocOf (s : State) (p : Part) (w : BitVec 128) : Option Alloc :=
  let a : Alloc := { start := bits w 0 42, tier := bits w 42 2, pq := bits w 44 3, xport := bit w 47,
                     readonly := bit w 48, module := bits w 58 6, length := bits w 64 42 }
  if bits w 49 9 ≠ 0 ∨ bits w 106 22 ≠ 0 ∨ 2 ≤ a.tier ∨ a.start % 4096 ≠ 0 ∨ a.length = 0 ∨ a.length % 4096 ≠ 0 ∨
     tierBytes s a.tier < a.start + a.length ∨ fabricN s ≤ a.module ∨
     (a.module = ownIndex s ∧ a.pq ≠ p.low) then none
  else some a

/-- The entry that a handle names. -/
def allocAt (s : State) (p : Part) (h : Nat) : Option Alloc :=
  if h < 2 ∨ 0x1002 ≤ h then none
  else match p.alloc[h - 2]? with
    | some w => allocOf s p w
    | none => none

/-- The length of what a handle names (R132); `none` when it names nothing. -/
def handleLen (s : State) (p : Part) (h : Nat) : Option Nat :=
  if h = 0 then some storeBytes
  else if h = 1 then some tunBytes
  else (allocAt s p h).map (fun a => a.length)

/-! ### Validation (R138, R139) -/

/-- Bytes of a row of a DENSE descriptor. -/
def rowBytes (d : Image) : Nat :=
  if dType d = tyTun then dSize d 0 / 10 * 64 else dSize d 0 * tyWidth (dType d) / 8

/-- The addressable byte range of R139: (lo, hi). -/
def byteRange (d : Image) : Int × Int :=
  if dDense d then
    ((List.range 5).foldl (fun (r : Int × Int) k =>
        if k + 1 < dRank d then
          let span := dStride d (k + 1) * ((dSize d (k + 1) : Int) - 1)
          if span < 0 then (r.1 + span, r.2) else (r.1, r.2 + span)
        else r)
      ((dBase d : Int), (dBase d : Int) + rowBytes d - 1))
  else ((dBase d : Int), (dBase d : Int) + dStride d 1 - 1)

/-- Value types that a format accepts (R309). -/
def fmtAccepts (fm ty : Nat) : Bool :=
  if fm = fmIVQ then [tyE4M3, tyE5M2, tyBF16].contains ty
  else [tyE4M3, tyE5M2, tyBF16, tyFP16, tyFP32, tyBit].contains ty

def anyDim (g : Nat → Bool) : Bool := (List.range 6).any g

/-- The first condition of R138 that fails. -/
def descReason (s : State) (p : Part) (d : Image) : Option Nat :=
  let n := dRank d
  if bits d 76 4 ≠ 0 ∨ bits d 125 3 ≠ 0 then some 0x01
  else if 0xC ≤ dType d ∨ 0x8 ≤ dFmt d then some 0x02
  else if n = 0 ∨ n = 7 then some 0x03
  else if (dIndex d && ((dType d != tyInt16 && dType d != tyInt32) || !dDense d))
      || (!dDense d && !fmtAccepts (dFmt d) (dType d)) then some 0x04
  else match handleLen s p (dHandle d) with
    | none => some 0x05
    | some len =>
      if anyDim (fun k => if k < n then dSize d k == 0
          else dSize d k != 1 || dStride d k != 0 || dPad d k != 0) then some 0x06
      else if anyDim (fun k => decide (dSize d k ≤ dPad d k)) then some 0x07
      else if dStride d 0 ≠ 0 ∨ (!dDense d && anyDim (fun k => k != 1 && dStride d k != 0)) then some 0x08
      else if dBase d % 64 ≠ 0 then some 0x09
      else if dDense d && (if dType d = tyTun then dSize d 0 % 10 != 0
          else dSize d 0 * tyWidth (dType d) % 512 != 0) then some 0x0A
      else if (dDense d && anyDim (fun k => 1 ≤ k && k < n && dStride d k % 64 != 0))
          || (!dDense d && (dStride d 1 ≤ 0 || dStride d 1 % 64 != 0)) then some 0x0B
      else
        let (lo, hi) := byteRange d
        if lo < 0 ∨ (len : Int) ≤ hi then some 0x0C else none

/-! ### Positions -/

/-- All index vectors of a box, dimension 0 fastest. -/
def boxOf : List Nat → List (List Nat)
  | [] => [[]]
  | n :: t => (boxOf t).flatMap (fun r => (List.range n).map (fun i => i :: r))

/-- The valid extents of the dimensions in use. -/
def validDims (d : Image) : List Nat := (List.range (dRank d)).map (dValid d)
/-- The padded extents of the dimensions in use. -/
def paddedDims (d : Image) : List Nat := (List.range (dRank d)).map (dSize d)
/-- The number of valid elements. -/
def validCount (d : Image) : Nat := (validDims d).foldl (fun a b => a * b) 1

/-- Whether an index vector lies inside the valid extent of every dimension. -/
def inValid : Image → Nat → List Nat → Bool
  | _, _, [] => true
  | d, k, i :: t => decide (i < dValid d k) && inValid d (k + 1) t

/-- The byte offset that outer dimensions add. -/
def outerOff : Image → Nat → List Nat → Int
  | _, _, [] => 0
  | d, k, i :: t => dStride d k * (i : Int) + outerOff d (k + 1) t

/-- The bit address of an element (R136), from the start of its allocation. -/
def elemBit (d : Image) (ix : List Nat) : Nat :=
  match ix with
  | [] => 8 * dBase d
  | i :: t =>
    let b := ((dBase d : Int) + outerOff d 1 t).toNat * 8
    if dType d = tyTun then b + i / 10 * 512 + i % 10 * 48 else b + i * tyWidth (dType d)

/-- The bit address and width of each valid element in ascending linear order. -/
def validElems (d : Image) : List (Nat × Nat) := (boxOf (validDims d)).map (fun ix => (elemBit d ix, tyWidth (dType d)))

/-- Index wrap (R146): i mod SIZE in the range 0 to SIZE − 1. -/
def wrapIndex (i : Int) (size : Nat) : Nat := if size = 0 then 0 else (i % (size : Int)).toNat

/-- The 64-byte units that elements touch, each once. -/
def elemUnits (xs : List (Nat × Nat)) : List Nat := (xs.map (fun x => x.1 / 512)).dedup

/-- The value of `width` bits at a bit address of a byte memory. -/
def peek (m : Tbl Byte) (a width : Nat) : Nat :=
  leVal (readBytes m (a / 8) ((a % 8 + width + 7) / 8)) / 2 ^ (a % 8) % 2 ^ width

/-- Write one element into a byte memory. -/
def poke (m : Tbl Byte) (x : Poke) : Tbl Byte :=
  if x.1 % 8 = 0 ∧ x.2.1 % 8 = 0 then writeBytes m (placed (x.1 / 8) (leBytes (x.2.1 / 8) x.2.2))
  else tset 0 m (x.1 / 8) (setBits (tget 0 m (x.1 / 8)) (x.1 % 8) x.2.1 x.2.2)

/-- Write elements in order (R151: the later position determines an aliased byte). -/
def pokeAll (m : Tbl Byte) (xs : List Poke) : Tbl Byte := xs.foldl poke m

/-- The units that element writes touch. -/
def pokeUnits (xs : List Poke) : List Nat := (xs.map (fun x => x.1 / 512)).dedup

/-- Read the element of a core-store descriptor at an index vector; padding reads zero (R149). -/
def readElem (m : Tbl Byte) (d : Image) (ix : List Nat) : Nat :=
  if inValid d 0 ix then peek m (elemBit d ix) (tyWidth (dType d)) else 0

/-- An INT16 or INT32 element as a signed integer. -/
def readIndex (m : Tbl Byte) (d : Image) (j : Nat) : Int :=
  signed (tyWidth (dType d)) (readElem m d [j])

/-- Decode a raw element of a floating-point type, exactly; other types read as an unsigned number. -/
def decodeTy (ty raw : Nat) : Exact :=
  match tyFp ty with
  | some f => decodeFp f raw
  | none =>
    if ty = tyTun then tunVal (BitVec.ofNat 32 raw) (BitVec.ofNat 16 (raw / 2 ^ 32))
    else if ty = tyComp then addE (val32 (BitVec.ofNat 32 raw)) (val32 (BitVec.ofNat 32 (raw / 2 ^ 32)))
    else if ty = tyInt16 then .num (signed 16 raw) 0
    else if ty = tyInt32 then .num (signed 32 raw) 0
    else .num raw 0

/-- The values of the valid elements in ascending linear order. -/
def readVals (m : Tbl Byte) (d : Image) : List Exact :=
  (boxOf (validDims d)).map (fun ix => decodeTy (dType d) (readElem m d ix))

end Sys2Proof.Machine
end

