-- ==== Sys2Proof/Machine/Records.lean ====
section
/-! DEFINITION. MSI-X vectors (R534, R535), error records (R577 to R580, R719), check states and how a verdict resolves
them (R558 to R561), intermittents and fences (R572 to R574). -/

namespace Sys2Proof.Machine

/-! ### Counters of a core, by CORE_ page offset (21_register_map) -/

def ctrTokenFreeze : Nat := 0x100
def ctrBeatup : Nat := 0x108
def ctrBeamResidue : Nat := 0x110
def ctrNumRetry : Nat := 0x118
def ctrNumSat : Nat := 0x120
def ctrOverrunCc : Nat := 0x128
def ctrChunks : Nat := 0x130
def ctrVictim : Nat := 0x138
def ctrSerial : Nat := 0x140
def ctrSkipRows : Nat := 0x148
def ctrHeddleResidue : Nat := 0x150
def ctrMaskShort : Nat := 0x158
def ctrMaskAhead : Nat := 0x160
def ctrUpdSkipped : Nat := 0x168
def ctrUpdBlocked : Nat := 0x170
def ctrRemapMiss : Nat := 0x178
def ctrRepeat : Nat := 0x180
def ctrVecResidue : Nat := 0x188
def ctrPlaus : Nat := 0x190
def ctrVerdictFail : Nat := 0x198
def ctrSramCorr : Nat := 0x1A0
def ctrSelvMismatch : Nat := 0x1A8

/-! ### W1C bits (R687) -/

/-- Note that the device sets bit `b` of the W1C register at address `a` on this cycle. -/
def noteW1c (s : State) (a b : Nat) : State :=
  { s with w1c := (if s.w1cAt = s.cc then s.w1c else []) ++ [(a, b)], w1cAt := s.cc }

/-- The bits of the register at an address that the device has set on this cycle: a host write of 1 leaves them set. -/
def w1cNow (s : State) (a : Nat) : Nat :=
  if s.w1cAt = s.cc then s.w1c.foldl (fun m x => if x.1 = a then m ||| 2 ^ x.2 else m) 0 else 0

/-- What a host write of 1s clears of a W1C register. -/
def w1cWrite {w : Nat} (s : State) (a : Nat) (v : BitVec w) : BitVec w := v &&& ~~~ BitVec.ofNat w (w1cNow s a)

/-- Address of a register in the page of a core (R679). -/
def corePage (n o : Nat) : Nat := 0x1000000 + 0x10000 * n + o

/-! ### Vectors -/

/-- Raise an MSI-X vector: one message, or the pending bit of a masked vector (R534, R535). -/
def raiseVector (s : State) (v : Nat) : State :=
  if bit s.host.msixMask v then
    { s with host := { s.host with msixPend := setBits s.host.msixPend v 1 1 } }
  else { s with host := { s.host with messages := s.host.messages ++ [v] } }

/-- The vector of a partition: 4r + k for the ring r of its lowest quadrant (R520, R534). -/
def partVector (s : State) (low k : Nat) : State := raiseVector s (4 * low + k)

/-! ### Error records -/

/-- What the event supplies of a record; every other field the device fills (R577, R719). -/
structure RecIn where
  kind : Nat
  detail : Nat := 0
  outcome : Nat := 0
  fence : Bool := false
  die : Nat := 2
  quad : Nat := 0xFF
  core : Nat := 0xFF
  engine : Nat := 0xFF
  shuttle : Nat := 0xFF
  opcode : Nat := 0
  pc : Word := 0
  deriving DecidableEq, Repr

/-- A record that names a physical core. -/
def coreRec (kind core detail : Nat) : RecIn :=
  { kind := kind, detail := detail, die := quadOf core / 4, quad := quadOf core, core := core }

/-- Whether the compute rail that a record's die names, or of the die to which its optical engine attaches (R22), is off: the
whole device is, or the die stands at I3 or I4. -/
def railOff (s : State) (die : Nat) : Bool :=
  let h := if die < 2 then die else if die < 5 then 0 else 1
  !s.power.rails || (List.range 4).any (fun i => decide (3 ≤ (getQuad s (4 * h + i)).idle))

/-- Measured temperature and core voltage are physical: free values (R719, assumption 6). The voltage is 0 for the
cellar and while the rail is off. -/
def buildRecord (s : State) (r : RecIn) (rseq : Word) : Record :=
  { time := deviceTime s, rseq := rseq, kind := r.kind, outcome := r.outcome, flags := if r.fence then 2 else 0,
    die := r.die, quad := r.quad, core := r.core, engine := r.engine, shuttle := r.shuttle, opcode := r.opcode,
    pc := r.pc, temp := (Config.freeWord s.draws).truncate 16,
    vcore := if r.die = 2 ∨ railOff s r.die = true then 0 else (Config.freeWord (s.draws + 1)).truncate 16,
    vin := BitVec.ofNat 16 s.power.vinAvg,
    maskGen := if r.quad = 0xFF then 0 else (getQuad s r.quad).maskGen.truncate 32,
    step := if r.quad = 0xFF then 0 else (getQuad s r.quad).jnlIndex,
    detail := BitVec.ofNat 64 r.detail, lost := 0 }

/-- Records of the ring not yet consumed (R579). -/
def ringFull (s : State) : Bool := (s.errors.head - s.errors.tail).toNat == 65536

/-- The 64 bytes of a record, CHECK given (R577). -/
def recordBytes (r : Record) (check : Nat) : List Byte :=
  leBytes 8 r.time ++ leBytes 4 r.rseq.toNat ++ leBytes 2 r.kind ++ leBytes 1 r.outcome ++ leBytes 1 r.flags ++
  leBytes 1 r.die ++ leBytes 1 r.quad ++ leBytes 1 r.core ++ leBytes 1 r.engine ++ leBytes 1 r.shuttle ++
  leBytes 1 r.opcode ++ leBytes 2 0 ++ leBytes 4 r.pc.toNat ++ leBytes 2 r.temp.toNat ++ leBytes 2 r.vcore.toNat ++
  leBytes 2 r.vin.toNat ++ leBytes 2 0 ++ leBytes 4 r.maskGen.toNat ++ leBytes 8 r.step.toNat ++
  leBytes 8 r.detail.toNat ++ leBytes 4 r.lost.toNat ++ leBytes 4 check

/-- One bit of a CRC register of `w` bits, most significant bit first (R585). -/
def crcBit (w poly reg : Nat) (b : Bool) : Nat :=
  let top := reg.testBit (w - 1)
  let sh := reg * 2 % 2 ^ w
  if xor top b then Nat.xor sh poly else sh

/-- The eight bits of a byte in the order REFIN gives: least significant first when set. -/
def byteBits (refin : Bool) (b : Byte) : List Bool :=
  let l := (List.range 8).map (fun i => bit b i)
  if refin then l else l.reverse

/-- The low `w` bits in reverse order. -/
def reflect (w x : Nat) : Nat := (List.range w).foldl (fun a i => if x.testBit i then a + 2 ^ (w - 1 - i) else a) 0

/-- The running CRC register over bytes. -/
def crcRun (w poly : Nat) (refin : Bool) (reg : Nat) (xs : List Byte) : Nat :=
  xs.foldl (fun r b => (byteBits refin b).foldl (fun r x => crcBit w poly r x) r) reg

/-- The result of R585 over bytes. -/
def crcResult (w poly init : Nat) (refin refout inv : Bool) (xs : List Byte) : Nat :=
  let r := crcRun w poly refin (init % 2 ^ w) xs
  let r := if refout then reflect w r else r
  if inv then Nat.xor r (2 ^ w - 1) else r

/-- CRC-32C (R435, R577). -/
def crc32c (xs : List Byte) : Nat := crcResult 32 0x1EDC6F41 0xFFFFFFFF true true true xs

/-- Copy the oldest stored record to the ring in HBM3E and raise vector 32 (R579). -/
def copyOldest (s : State) : State :=
  match s.errors.store with
  | [] => s
  | r :: rest =>
    let body := recordBytes r 0
    let bs := body.take 60 ++ leBytes 4 (crc32c (body.take 60))
    let addr := bits s.errors.base 0 42 + 64 * (s.errors.head.toNat % 65536)
    raiseVector { s with hbm := writeBytes s.hbm (placed addr bs)
                         poisonHbm := s.poisonHbm.filter (fun u => u != addr / 64)
                         errors := { s.errors with store := rest, head := s.errors.head + 1 } } 32

/-- Coalesce into the entry with the same key (R580). -/
def coalesce (r : Record) (t : List (Record × Nat × Nat × Bool)) : Option (List (Record × Nat × Nat × Bool)) :=
  let same (x : Record × Nat × Nat × Bool) : Bool :=
    x.1.die == r.die && x.1.quad == r.quad && x.1.core == r.core && x.1.engine == r.engine && x.1.kind == r.kind
  if t.any same then
    some (t.map (fun x => if same x then (x.1, r.time, x.2.2.1 + 1, x.2.2.2 || r.flags / 2 % 2 == 1) else x))
  else if t.length < 256 then some (t ++ [(r, r.time, 1, r.flags / 2 % 2 == 1)])
  else none

/-- The snoop-filter key of a unit of a tier (R514). -/
def lineKey (t : Tier) (unit : Nat) : Nat := 2 * unit + (if t = .lpddr then 1 else 0)

/-- Byte address of the next ring entry (R579). -/
def ringAddr (s : State) : Nat := bits s.errors.base 0 42 + 64 * (s.errors.head.toNat % 65536)

/-- Whether the host holds the line of the next ring entry, so that its write waits for back-invalidation (R514). -/
def ringLineHeld (s : State) : Bool := s.host.snoop.contains (lineKey .hbm (ringAddr s / 64))

/-- Generate a record (R577): into the cellar store, whose oldest record is copied when it is full and the ring has
room (R579); with both full, into the coalescing table, or counted as lost (R580). -/
def record (s0 : State) (r : RecIn) : State :=
  let rec_ := buildRecord s0 r (BitVec.ofNat 32 s0.errors.rseq)
  let s := { s0 with draws := s0.draws + 2, errors := { s0.errors with rseq := s0.errors.rseq + 1 } }
  let s := if s.errors.store.length < 512 ∨ ringFull s ∨ ringLineHeld s then s else copyOldest s
  if s.errors.store.length < 512 then { s with errors := { s.errors with store := s.errors.store ++ [rec_] } }
  else match coalesce rec_ s.errors.table with
    | some t => { s with errors := { s.errors with table := t } }
    | none => { s with errors := { s.errors with lost := s.errors.lost + 1 } }

/-- A partition-wide record: the partition's lowest quadrant in QUAD (R719). -/
def partRec (kind : Nat) (p : Part) (detail : Nat) : RecIn :=
  { kind := kind, detail := detail, die := p.low / 4, quad := p.low }

/-! ### Check states (R558 to R561) -/

/-- The check state of what is computed from two others (R560). -/
def joinChk : Chk → Chk → Chk
  | .failed, _ => .failed
  | _, .failed => .failed
  | .clear, b => b
  | a, .clear => a
  | .prov a, .prov b => .prov (a ++ b.filter (fun x => !a.contains x))

def joinAll (xs : List Chk) : Chk := xs.foldl joinChk .clear

/-- What becomes of a state when a verdict resolves (R561). -/
def resolveChk (id : Nat) (pass : Bool) : Chk → Chk
  | .prov l =>
    if l.contains id then
      if pass then
        match l.filter (fun x => x != id) with
        | [] => .clear
        | r => .prov r
      else .failed
    else .prov l
  | c => c

/-- Resolve in a table of check states; a state that becomes clear is unlisted. -/
def resolveTbl (id : Nat) (pass : Bool) (t : Tbl Chk) : Tbl Chk :=
  (t.map (fun x => (x.1, resolveChk id pass x.2))).filter (fun x => x.2 != Chk.clear)

def resolveSet (id : Nat) (pass : Bool) (a : AccSet) : AccSet := { a with chk := resolveChk id pass a.chk }

def resolveMul (id : Nat) (pass : Bool) (m : Multiplier) : Multiplier :=
  { m with base := resolveSet id pass m.base
           later := m.later.map (fun x => { x with set := resolveSet id pass x.set }) }

def resolveEffect (id : Nat) (pass : Bool) : Effect → Effect
  | .store e c => .store e (resolveChk id pass c)
  | .tunStore e c b => .tunStore e (resolveChk id pass c) b
  | .accum m a t c b g => .accum m a t (resolveChk id pass c) b g
  | .chain n e c m => .chain n e (resolveChk id pass c) m
  | .selv p r v e c t => .selv p r v e (resolveChk id pass c) t
  | x => x

def resolveFlight (id : Nat) (pass : Bool) (f : Flight) : Flight := { f with effect := resolveEffect id pass f.effect }

/-- A piece's verdict loses a dependency, and remembers a failure (R563). -/
def resolvePiece (id : Nat) (pass : Bool) (v : PieceVerdict) : PieceVerdict :=
  if v.deps.contains id then { v with deps := v.deps.filter (fun x => x != id), failed := v.failed || !pass } else v

/-- A verdict resolves in every unit, set, result in flight and piece of a core (R561). -/
def resolveCore (id : Nat) (pass : Bool) (c : Core) : Core :=
  { c with storeChk := resolveTbl id pass c.storeChk
           tunChk := resolveTbl id pass c.tunChk
           beam := resolveMul id pass c.beam
           heddle := resolveMul id pass c.heddle
           flight := c.flight.map (resolveFlight id pass)
           pieces := c.pieces.map (resolvePiece id pass) }

/-- Change every listed core. -/
def mapCores (s : State) (g : Core → Core) : State :=
  { s with cores := (s.cores.map (fun x => (x.1, g x.2))).filter (fun x => x.2 != ({} : Core)) }

/-- A verdict resolves wherever data depends on it, across the mesh as well (R561, R566). -/
def resolveVerdict (s : State) (id : Nat) (pass : Bool) : State := mapCores s (resolveCore id pass)

/-- The check state of units that a read touches. -/
def unitsChk (t : Tbl Chk) (us : List Nat) : Chk := joinAll (us.map (tget Chk.clear t))

/-- Give units a state. -/
def setChk (t : Tbl Chk) (us : List Nat) (c : Chk) : Tbl Chk := us.foldl (fun m u => tset Chk.clear m u c) t

/-! ### Fences (R572 to R575) -/

/-- Whether a quadrant has a pairing in force (R65). -/
def pairActive (s : State) (q : Nat) : Bool := bit (getQuad s q).pair 15
/-- Physical core of the fenced member of the quadrant's pairing, and of its partner. -/
def pairFenced (s : State) (q : Nat) : Nat := 24 * q + bits (getQuad s q).pair 0 5
def pairPartner (s : State) (q : Nat) : Nat := 24 * q + bits (getQuad s q).pair 8 5

/-- The physical core whose engines and issue logic run a core's identity: the partner of a fenced core in a pairing
(R61, R63), otherwise the core itself. -/
def runner (s : State) (core : Nat) : Nat :=
  let q := quadOf core
  if pairActive s q && pairFenced s q == core then pairPartner s q else core

def isFenced (s : State) (core : Nat) : Bool := bit s.fence core

/-- Whether a core is disabled at manufacture (R58). -/
def isDisabled (s : State) (core : Nat) : Bool :=
  let b := bits s.fuses.disable (8 * quadOf core) 8
  decide (128 ≤ b) && b % 32 == core % 24

/-- A usable core is neither disabled nor fenced (R57). -/
def usable (s : State) (core : Nat) : Bool := !isDisabled s core && !isFenced s core

/-- The partner of R60. -/
def partnerOf (s : State) (core : Nat) : Nat :=
  let q := quadOf core
  let pos := core % 24
  let r := pos / 6
  let c := pos % 6
  let first := 24 * q + 6 * r + (if c % 2 = 0 then c + 1 else c - 1)
  if isDisabled s first then 24 * q + 6 * (if r % 2 = 0 then r + 1 else r - 1) + c else first

/-- Whether the pairing waiting for a beat-up is another core's fence's, and not a test's (R672, R675). -/
def nextIsFence (s : State) (q core : Nat) : Bool :=
  match (getQuad s q).pairNext with
  | some (f, _) => isFenced s (24 * q + f) && 24 * q + f != core
  | none => false

/-- A core under an intrusive test goes back to LEFT (R675). -/
def returnToLeft (s : State) (core : Nat) : State :=
  { s with selfTest := { s.selfTest with left := setBits s.selfTest.left core 1 1
                                         started := terase s.selfTest.started core } }

/-- What a new fence means for the context that holds the core (R574, R575): a pairing at the next beat-up, or, when
R62 forbids it or the quadrant already has one, a record, vector 4r + 1 and a stop. A test pairing gives way (R675). -/
def fenceInContext (s : State) (core : Nat) : State :=
  let q := quadOf core
  match partOf s q with
  | none => s
  | some p =>
    if p.map.contains core && (p.ctx == .loaded || p.ctx == .running || p.ctx == .stopped) then
      if (getCore s core).fenceStore || (pairActive s q && !(getQuad s q).testPair) || nextIsFence s q core then
        let s := record s { kind := 0x17, detail := q, die := q / 4, quad := q, core := core }
        let s := partVector s p.low 1
        modPart s p.low (fun p => if p.ctx = .running then { p with stopping := true } else { p with stopAtRun := true })
      else
        let s := if pairActive s q then returnToLeft s (pairFenced s q) else s
        modQuad s q (fun x => { x with pairNext := some (core % 24, partnerOf s core % 24) })
    else s

/-- Fence a physical core and record the cause (R573): 1 permanent, 2 third intermittent, 3 host; and whether the fault lies in
its memories (R62). -/
def fenceFor (s : State) (core cause : Nat) (storage : Bool) : State :=
  if isFenced s core then s
  else
    let s := modCore { s with fence := setBits s.fence core 1 1 } core (fun c =>
      { c with fenceStore := storage, storeCause := c.storeCause || storage })
    let s := if cause = 3 then s else noteW1c s (0x100 + 8 * (core / 64)) (core % 64)
    let s := record s (coreRec 0x16 core cause)
    fenceInContext s core

/-- A fence whose cause lies in no memory of the core. -/
def fenceCore (s : State) (core cause : Nat) : State := fenceFor s core cause false

/-- The seconds window of R572 in root-PLL cycles. -/
def intermitWindow : Nat := sec 86400

/-- Whether one more intermittent of a core is its third within the window (R572). -/
def intermitFences (s : State) (core : Nat) : Bool :=
  !isFenced s core &&
  decide (2 ≤ ((getCore s core).intermits.filter (fun t => decide (s.pll < t + intermitWindow))).length)

/-- Count an intermittent of a core (R572); the third within the window fences it, and is the fault that R62 looks at. -/
def intermittent (s : State) (core : Nat) (storage : Bool) : State :=
  let c := getCore s core
  let recent := (c.intermits.filter (fun t => decide (s.pll < t + intermitWindow))) ++ [s.pll]
  let s := modCore s core (fun c => { c with intermits := recent, storeCause := c.storeCause || storage })
  if 3 ≤ recent.length then fenceFor s core 2 storage else s

end Sys2Proof.Machine
end

