-- ==== Sys2Proof/Machine/Issue.lean ====
section
/-! DEFINITION. How an instruction issues: when it is due (R53, R68, R78), predication (R99 to R102), the fault it
raises (R121 to R129), the result that lands later (R82, R290), the engine it occupies (R71, R715), and the residue
detections and SRAM errors its reads and additions meet (R545 to R551, R560, R570). -/

namespace Sys2Proof.Machine

/-! ### The registers of an identity -/

/-- The register set of a core's logical identity: its own, or, once a pairing binds it, its partner's spare set
(R61, R92). -/
def getRegs (s : State) (n : Nat) : RegFile :=
  if runner s n = n then (getCore s n).regs else (getCore s (runner s n)).spare

def setRegs (s : State) (n : Nat) (r : RegFile) : State :=
  if runner s n = n then modCore s n (fun c => { c with regs := r })
  else modCore s (runner s n) (fun c => { c with spare := r })

/-- The identities that one physical core runs (R63, R361, R549). -/
def mates (s : State) (n : Nat) : List Nat :=
  let q := quadOf n
  if pairActive s q && (pairFenced s q == n || pairPartner s q == n) then [pairFenced s q, pairPartner s q] else [n]

/-! ### Accesses (R178) -/

/-- An access has performed: it leaves its shuttle's list, and an acquire ends (R185). -/
def dropAccess (c : Core) (sh : Shuttle) (id : Nat) : Core :=
  modSh c sh (fun x => { x with accesses := x.accesses.filter (fun a => a.id != id)
                                acquiring := x.acquiring.filter (fun a => a != id) })

def performAccess (s : State) (n : Nat) (sh : Shuttle) (id : Nat) : State := modCore s n (fun c => dropAccess c sh id)

/-- Whether an access of a shuttle must be held: it carries release and an earlier access has not performed (R184), or
an earlier acquire has not (R185). -/
def mustHold (x : Sh) (id : Nat) (rel : Bool) : Bool :=
  (rel && x.accesses.any (fun a => decide (a.id < id))) || x.acquiring.any (fun a => decide (a < id))

/-- Whether a piece stands behind a CASK.HDR of its shuttle to the same bucket and cask that is still held: it performs only
after that header (R454); of a header that has been sent, the lane keeps the order. -/
def behindHdr (x : Sh) (id : Nat) (kind : AccessKind) : Bool :=
  match kind with
  | .caskPiece b j m _ _ => x.accesses.any (fun a => a.held && decide (a.id < id) && a.kind == .caskHdr b j m)
  | _ => false

/-! ### Results land (R82, R290) -/

/-- Insert by landing cycle, then by issue order. -/
def insFlight (f : Flight) : List Flight → List Flight
  | [] => [f]
  | g :: t => if f.due < g.due ∨ (f.due = g.due ∧ f.order < g.order) then f :: g :: t else g :: insFlight f t

def sortFlights (l : List Flight) : List Flight := l.foldr insFlight []

def isTun (f : Flight) : Bool :=
  match f.effect with
  | .tunStore _ _ _ => true
  | .accum m _ _ _ _ _ => m
  | _ => false

/-- A write replaces what landed verdicts of the core could still rewrite in the units it touches (R556). -/
def replaceUnits (c : Core) (tun : Bool) (units : List Nat) : Core :=
  if c.verdicts.isEmpty then c
  else { c with verdicts := c.verdicts.map (fun v =>
    if v.landed.isSome && v.tun == tun then
      { v with elems := v.elems.filter (fun x => !units.contains (x.1 / 512)) }
    else v) }

/-- Write elements into a core's store with their check state (R559). -/
def storeElems (c : Core) (elems : List Poke) (chk : Chk) : Core :=
  if elems.isEmpty then c
  else
    let units := pokeUnits elems
    let c := replaceUnits c false units
    { c with store := pokeAll c.store elems, storeChk := setChk c.storeChk units chk }

/-- Write elements into a core's tun with their check state (R559). -/
def tunPokes (c : Core) (elems : List Poke) (chk : Chk) : Core :=
  let units := pokeUnits elems
  let c := replaceUnits c true units
  { c with tun := pokeAll c.tun elems, tunChk := setChk c.tunChk units chk }

/-- Add exact values onto tun-wide elements of a memory (R289), each named by its bit address; `ov` overwrites instead
(TSET). Also says whether a finite element became non-finite from a finite value (R282). -/
def accumInto (m : Tbl Byte) (adds : List (Nat × Exact)) (ov : Bool) : Tbl Byte × Bool :=
  adds.foldl (fun (m : Tbl Byte × Bool) x =>
    let raw := if ov then 0 else peek m.1 x.1 48
    let old := BitVec.ofNat 32 raw
    let r := tunAdd old (BitVec.ofNat 16 (raw / 2 ^ 32)) x.2
    (poke m.1 (x.1, 48, r.1.toNat + r.2.toNat * 2 ^ 32), m.2 || (finite32 old && finiteE x.2 && !finite32 r.1)))
    (m, false)

/-- The check states after an accumulation: what was there joins in, unless TSET overwrites it. -/
def accumChk (t : Tbl Chk) (units : List Nat) (ov : Bool) (chk : Chk) : Tbl Chk :=
  units.foldl (fun t l => tset Chk.clear t l (if ov then chk else joinChk chk (tget Chk.clear t l))) t

/-- An accumulation lands in the tun or in core store. -/
def accumElems (c : Core) (tun : Bool) (adds : List (Nat × Exact)) (ov : Bool) (chk : Chk) (beam : Bool) : Core :=
  let units := (adds.map (fun x => x.1 / 512)).dedup
  let c := replaceUnits c tun units
  let r := accumInto (if tun then c.tun else c.store) adds ov
  let c := if tun then { c with tun := r.1, tunChk := accumChk c.tunChk units ov chk }
    else { c with store := r.1, storeChk := accumChk c.storeChk units ov chk }
  if beam && r.2 then { c with beam := { c.beam with stNonfin := true } } else c

/-- Whether an accumulation takes a finite element beyond its format. -/
def accumOvf (c : Core) (tun : Bool) (adds : List (Nat × Exact)) (ov : Bool) : Bool :=
  let c := replaceUnits c tun ((adds.map (fun x => x.1 / 512)).dedup)
  (accumInto (if tun then c.tun else c.store) adds ov).2

/-- The tile of a checked drain enters its quadrant's checker on the cycle on which it lands (R555). -/
def landVerdict (s : State) (n : Nat) (v : Option Nat) : State :=
  match v with
  | none => s
  | some id => modCore s n (fun c => { c with verdicts := c.verdicts.map (fun x =>
      if x.id = id then { x with landed := some s.pll } else x) })

/-- SELV.CFG writes one part of the configuration (R586). -/
def selvWrite (x : Selv) (fn : Nat) (imm : Dword) : Selv :=
  if fn = 0 then { x with poly := imm }
  else if fn = 1 then { x with init := imm }
  else if fn = 2 then { x with width := imm.truncate 7, refin := bit imm 7, refout := bit imm 8, inv := bit imm 9 }
  else { x with tally := imm.truncate 8 }

/-- The outcome of a selvedge run lands: STAMP writes, the result, and what R594 asks for each event. -/
def landSelv (s : State) (n : Nat) (sh : Shuttle) (pc : Word) (result : Dword) (events : List (Nat × Nat))
    (elems : List Poke) (chk : Chk) (tally : Option Byte) : State :=
  let s := modCore s n (fun c =>
    let c := storeElems c elems chk
    { c with selv := { c.selv with result := result, lastMismatch := !events.isEmpty, tally := tally.getD c.selv.tally } })
  events.foldl (fun s x => record (bumpCore s n ctrSelvMismatch 1)
    { coreRec x.1 n x.2 with shuttle := shIdx sh, opcode := 0x81, pc := pc }) s

/-- One result lands. A CHAIN.SEND's data performs at its target, and its signal follows with release (R254). -/
def landOne (s : State) (n : Nat) (f : Flight) : State :=
  let done (t : State) : State :=
    match f.access with
    | some id => performAccess t n f.sh id
    | none => t
  let t : State := match f.effect with
    | .nothing => done s
    | .reg sp v => done (setRegs s n (regWrite (getRegs s n) sp.toNat v.toNat))
    | .desc k d => done (modCore s n (fun c => { c with desc := tset none c.desc k (some d) }))
    | .store e chk => done (modCore s n (fun c => storeElems c e chk))
    | .tunStore e chk back => done (modCore s n (fun c => storeElems (tunPokes c e chk) back chk))
    | .accum m a t chk back beam =>
      let s := if beam && accumOvf (getCore s n) m a t then noteW1c s (corePage n 4) 1 else s
      done (modCore s n (fun c => storeElems (accumElems c m a t chk beam) back chk))
    | .chain target e chk sem =>
      let s := modCore s target (fun c => storeElems c e chk)
      let id := f.access.getD 0
      let hold := mustHold (shOf (getCore s n) f.sh) id true
      { s with nextSignal := s.nextSignal + 1
               signals := s.signals ++ [{ id := s.nextSignal, target := target, sem := sem, count := 1,
                                          source := some (n, f.sh, id), held := hold }] }
    | .sfuEntries tb first es => done (modCore s n (fun c =>
        { c with sfuEntry := tsetAll 0 c.sfuEntry (es.zipIdx.map (fun x => (1024 * tb + first + x.2, x.1))) }))
    | .sfuConfig tb lo inv => done (modCore s n (fun c =>
        { c with sfuConfig := tset 0 c.sfuConfig tb (lo.zeroExtend 64 ||| (inv.zeroExtend 64 <<< 32)) }))
    | .paramSlot k b => done (modCore s n (fun c => { c with params := tset none c.params k (some b) }))
    | .selvCfg fn imm => done (modCore s n (fun c => { c with selv := selvWrite c.selv fn imm }))
    | .selv pc r ev e chk t => done (landSelv s n f.sh pc r ev e chk t)
    | .jnlFold bs => done (modCore s n (fun c =>
        { c with jnlHash := BitVec.ofNat 64 (crcRun 64 0x42F0E1EBA9EA3693 false c.jnlHash.toNat bs) }))
    | .commit e =>
      let s := modCore s n (fun c => storeElems c e .clear)
      done (match corePart s n with
        | some p => modPartQuads s p (fun q => { q with maskGen := setBits q.maskGen 32 1 1 })
        | none => s)
  landVerdict t n f.verdict

/-- Keep of an engine's history what can still be seen: everything up to the newest visible operation folds into the
base (R237). -/
def settleSet (cycle : Nat) (m : Multiplier) : Multiplier :=
  m.later.foldl (fun (a : Multiplier) x =>
    if x.due ≤ cycle then { a with base := x.set, later := [] } else { a with later := a.later ++ [x] })
    { m with later := [] }

/-- Raise the sticky flags of the passes whose results have become visible (R246, R250, R262). -/
def settleMarks (cycle : Nat) (m : Multiplier) : Multiplier :=
  let shown := m.marks.filter (fun x => decide (x.due ≤ cycle))
  { m with marks := m.marks.filter (fun x => decide (cycle < x.due))
           stLong := m.stLong || shown.any (fun x => x.long)
           stNonfin := m.stNonfin || shown.any (fun x => x.nonfin)
           stMismatch := m.stMismatch || shown.any (fun x => x.mismatch) }

def settleMul (cycle : Nat) (m : Multiplier) : Multiplier := settleMarks cycle (settleSet cycle m)

/-- Whether a CHAIN.SEND waits for an earlier acquire of its shuttle (R185). -/
def chainHeld (c : Core) (f : Flight) : Bool :=
  match f.effect, f.access with
  | .chain _ _ _ _, some id => (shOf c f.sh).acquiring.any (fun a => decide (a < id))
  | _, _ => false

/-- Note the status flags that an engine's passes raise as their results become visible. -/
def noteMarks (s : State) (n o : Nat) (cycle : Nat) (m : Multiplier) : State :=
  (m.marks.filter (fun x => decide (x.due ≤ cycle))).foldl (fun s x =>
    let s := if x.long then noteW1c s (corePage n o) 0 else s
    let s := if x.nonfin then noteW1c s (corePage n o) 1 else s
    if x.mismatch then noteW1c s (corePage n o) 2 else s) s

/-- Every result of a core that is due by its schedule cycle lands, tun drains excepted. -/
def landDue (s : State) (n : Nat) : State :=
  let c := getCore s n
  let ready (f : Flight) : Bool := !isTun f && decide (f.due ≤ c.cycle) && !chainHeld c f
  let due := sortFlights (c.flight.filter ready)
  let s := noteMarks (noteMarks s n 4 c.cycle c.beam) n 8 c.cycle c.heddle
  let s := setCore s n { c with flight := c.flight.filter (fun f => !ready f)
                                beam := settleMul c.cycle c.beam, heddle := settleMul c.cycle c.heddle }
  due.foldl (fun t f => landOne t n f) s

/-- The tun drains that land: in issue order, each once it is due and every earlier one has landed (R290). -/
def tunReady (cycle : Nat) : List Flight → List Flight
  | [] => []
  | f :: t => if f.due ≤ cycle then f :: tunReady cycle t else []

def landTun (s : State) (n : Nat) : State :=
  let c := getCore s n
  let tuns := c.flight.filter isTun
  let ready := tunReady c.cycle tuns
  let s := setCore s n { c with flight := c.flight.filter (fun f => !isTun f) ++ tuns.drop ready.length }
  ready.foldl (fun t f => landOne t n f) s

/-- All that has become visible lands before an instruction reads. -/
def landAll (s : State) (n : Nat) : State := landTun (landDue s n) n

/-! ### Where an instruction stands -/

/-- An instruction in its place: the state with every due result landed, the core whose page holds the identity, the
shuttle, the word, the partition, the logical number and the registers. -/
structure At where
  s : State
  n : Nat
  sh : Shuttle
  w : InstrWord
  ups : Upsets
  p : Part
  lc : Nat
  c : Core
  r : RegFile

/-- An issue is due in this CCLK cycle: the context runs, the core is on a schedule cycle and not halted, the shuttle
runs, the word stands at its program counter, and its gap has passed since the last issue (R68), or the shuttle
resumed on this cycle (R78). -/
def issueDue (p : Part) (c : Core) (r : RegFile) (cc : Nat) (sh : Shuttle) (w : InstrWord) : Bool :=
  let x := shOf c sh
  p.ctx == .running && c.sched && x.mode == .run
    && (match c.haltAt with | some h => decide (cc < h) | none => true)
    && (imgOf c sh)[(pcOf r sh).toNat]? == some w
    && (if x.resumed then c.cycle == x.last else c.cycle == x.last + fldGap w)

/-- The instruction in its place, when it is due and its opcode is the row's; an undefined opcode comes with NOP's row
(assumption 16). -/
def place (op : Nat) (i : Issue) (s0 : State) : Option At :=
  let n := i.core.val
  let s := landAll s0 n
  match corePart s n with
  | none => none
  | some p =>
    match logicalOf p n with
    | none => none
    | some lc =>
      let c := getCore s n
      let r := getRegs s n
      let mine := fldOp i.word == op || (op == 0 && !opcodeDefined (fldOp i.word))
      if mine && issueDue p c r s.cc i.sh i.word then
        some { s := s, n := n, sh := i.sh, w := i.word, ups := i.ups, p := p, lc := lc, c := c, r := r }
      else none

/-- Whether a predicated instruction executes (R99). -/
def executes (a : At) : Bool := !fldPen a.w || (bit a.r.p (fldPred a.w) != fldPneg a.w)

/-! ### Engines (R71, R715) -/

/-- The engines of a core. -/
inductive Engine where
  | beam | heddle | vector | sfu
  deriving DecidableEq, Repr

def engIdx : Engine → Nat
  | .beam => 0
  | .heddle => 1
  | .vector => 2
  | .sfu => 3

def engTime (c : Core) : Engine → EngineTime
  | .beam => c.beamT
  | .heddle => c.heddleT
  | .vector => c.vecT
  | .sfu => c.sfuT

def setEng (c : Core) (e : Engine) (t : EngineTime) : Core :=
  match e with
  | .beam => { c with beamT := t }
  | .heddle => { c with heddleT := t }
  | .vector => { c with vecT := t }
  | .sfu => { c with sfuT := t }

/-- The plan in force and its length P (R70); an empty plan grants nothing. -/
def planOf (c : Core) : List Byte := c.plans.getD c.plan []
def planLen (c : Core) : Nat := (planOf c).length

/-- Whether the slot-plan entry at the phase counter grants an engine to a shuttle (R69, R70). -/
def granted (c : Core) (e : Engine) (sh : Shuttle) : Bool :=
  bits ((planOf c).getD c.phase 0) (2 * engIdx e) 2 == shIdx sh + 1

/-- What an instruction asks of an engine: which one, its occupancy, the cycles it is busy, whether it copies into the
drain buffer and for how long (R235). -/
structure EngUse where
  eng : Engine
  occ : Nat
  busy : Nat
  drain : Option Nat := none

/-- Whether an engine's drain buffer is within a K6 occupancy (R236) or a BEAM.SCORE's (R392). -/
def drainBusy (cycle : Nat) (t : EngineTime) : Bool :=
  decide (cycle < t.drain) || t.scores.any (fun x => decide (x.1 ≤ cycle) && decide (cycle < x.2))

/-- A schedule conflict (R71, R236): kind 0x04. The grant must be the issuing shuttle's own. -/
def engConds (c : Core) (sh : Shuttle) (u : EngUse) : Conds :=
  let t := engTime c u.eng
  cond (!granted c u.eng sh || decide (c.cycle < t.occupied) || (u.drain.isSome && drainBusy c.cycle t))
    4 (engIdx u.eng)

/-- Occupy an engine and its drain buffer; a predicated-off instruction reserves both without making the engine busy (R101,
assumption 17), and never shortens what an earlier instruction reserved. -/
def useEngine (c : Core) (u : EngUse) (on : Bool) : Core :=
  let t := engTime c u.eng
  setEng c u.eng { t with
                   occupied := max t.occupied (c.cycle + u.occ)
                   busy := if on then max t.busy (c.cycle + u.busy) else t.busy
                   drain := match u.drain with
                     | some k => max t.drain (c.cycle + k)
                     | none => t.drain }

/-! ### Faults (R122 to R129) -/

/-- CORE_FAULT of a shuttle (R128). -/
def faultWord (pc : Word) (kind detail : Nat) (deferred first : Bool) : Dword :=
  BitVec.ofNat 64 (pc.toNat + kind * 2 ^ 32 + flag deferred * 2 ^ 40 + flag first * 2 ^ 41 + detail % 65536 * 2 ^ 48)

/-- Whether a fault detected now comes before the context's first one, which shares its cycle (R129). -/
def firstFault (s : State) (p : Part) (n : Nat) (sh : Shuttle) : Bool :=
  match p.faultFirst with
  | none => true
  | some (cc, m, k) =>
    cc == s.cc && (decide ((logicalOf p n).getD 0 < (logicalOf p m).getD 0) || (n == m && decide (shIdx sh < k)))

/-- A shuttle fault: CORE_FAULT, the record, vector 4r + 1, and the halt of the core on the next cycle (R122, R124,
R128). Every other core of the context halts at its next wait. -/
def raiseFault (s : State) (p : Part) (n : Nat) (sh : Shuttle) (pc : Word) (opcode kind detail : Nat)
    (deferred : Bool) : State :=
  let first := firstFault s p n sh
  let word := faultWord pc kind detail deferred first
  let s := match first, p.faultFirst with
    | true, some (_, m, k) => modCore s m (fun c =>
        let sh' := if k = 0 then Shuttle.f else if k = 1 then Shuttle.b else Shuttle.u
        modSh c sh' (fun x => { x with fault := setBits x.fault 41 1 0 }))
    | _, _ => s
  let s := modCore s n (fun c => { modSh c sh (fun x => { x with fault := word, mode := .halted, wait := none }) with
    haltAt := match c.haltAt with | some h => some h | none => some (s.cc + 1) })
  let s := if first then modPart s p.low (fun q => { q with faultFirst := some (s.cc, n, shIdx sh) }) else s
  let s := record s { coreRec kind n word.toNat with shuttle := shIdx sh, opcode := opcode, pc := pc }
  partVector s p.low 1

/-! ### Detections (R545 to R551) -/

/-- Codes of the check sites (R546). -/
def siteCode : Site → Nat
  | .product => 1
  | .groupSum => 2
  | .laneAddition => 3
  | .errorRegister => 4
  | .vectorAdder => 5

/-- The syndrome of R546: the lane, or the array row for a product; the residue difference; the site. -/
def syndromeOf (site : Site) (lane diff : Nat) : BitVec 24 :=
  BitVec.ofNat 24 ((if site = .product then lane / 128 else lane) % 2 ^ 14 + diff * 2 ^ 14 + siteCode site * 2 ^ 17)

/-- How far a residue lies from the right one, modulo m; 0 passes. -/
def residueDiff (m want : Nat) (got : BitVec 3) : Nat := (got.toNat % m + m - want % m) % m

/-- The outcome of a detection from the differences of the operation and of its repeats (R547): code of R577, repeats run,
and whether the set is FAILED. -/
def repeatOutcome (diff again1 again2 : Nat) : Nat × Nat × Bool :=
  if again1 = 0 then (1, 1, false)
  else if again2 = 0 then (2, 2, false)
  else if again1 = diff ∧ again2 = diff then (3, 2, true)
  else (2, 2, true)

/-- A comparison that fails: the detection, the lane or element it falls on, the pattern the lane carries when no repeat
passes, and whether none did. -/
structure Failure where
  found : Found
  lane : Nat
  value : Word
  lasts : Bool

/-- A comparison modulo `m` against the residue that the rules give, `none` where the device makes no such comparison. It falls
on a cycle of the operation up to the cycle `last` on which the result becomes visible (R263). -/
def failureOf (a : At) (e : Engine) (m last : Nat) (want : Detection → Option Nat) (d : Detection) : Option Failure :=
  match want d with
  | none => none
  | some w =>
    let diff := residueDiff m w d.got
    if diff = 0 then none
    else
      let r := repeatOutcome diff (residueDiff m w d.again1) (residueDiff m w d.again2)
      some { found := { at_ := a.c.cycle + min d.cycle last, eng := engIdx e, syndrome := syndromeOf d.site d.lane diff,
                        outcome := r.1, repeats := r.2.1, sh := a.sh, pc := pcOf a.r a.sh,
                        opcode := BitVec.ofNat 8 (fldOp a.w) }
             lane := d.lane, value := d.value, lasts := r.2.2 }

/-- The failed comparisons of an instruction. -/
def failuresOf (a : At) (e : Engine) (m last : Nat) (want : Detection → Option Nat) : List Failure :=
  a.ups.detections.filterMap (failureOf a e m last want)

/-- The failed comparisons wait for the cycle on which the device detects them (R545). -/
def detections (s : State) (n : Nat) (l : List Failure) : State :=
  if l.isEmpty then s else modCore s n (fun c => { c with found := c.found ++ l.map (fun x => x.found) })

/-- Whether any detection leaves the result FAILED (R547). -/
def detectFailed (l : List Failure) : Bool := l.any (fun x => x.lasts)

/-- The accumulator set after the detections of its pass (R246, R547, R548, R560). The FP32 value of a lane whose repeats
never passed is the hardware's own. -/
def detectSet (l : List Failure) (a : AccSet) : AccSet :=
  let bad := l.filter (fun x => x.lasts)
  let a := bad.foldl (fun (a : AccSet) x =>
    { a with lanes := tset {} a.lanes x.lane { (tget {} a.lanes x.lane) with sum := x.value } }) a
  if bad.isEmpty then a
  else { a with mismatch := true, chk := .failed, nonfin := a.nonfin || a.lanes.any (fun x => laneNonfin x.2) }

/-- Add repeats to the step's journal tally (R551). -/
def addRepeats (s : State) (n k : Nat) : State :=
  match corePart s n with
  | some p => modPart s p.low (fun q => { q with jnlRepeats := q.jnlRepeats + k })
  | none => s

/-- The counter of an engine's detections (R262, R372, R544). -/
def ctrDetected (eng : Nat) : Nat := if eng = 0 then ctrBeamResidue else if eng = 1 then ctrHeddleResidue else ctrVecResidue

/-- One detection of an identity: counted, recorded and charged on the physical core that runs it (R549). -/
def detectOne (s : State) (n : Nat) (f : Found) : State :=
  let phys := runner s n
  let s := bumpCore (bumpCore s phys (ctrDetected f.eng) 1) phys ctrRepeat f.repeats
  let s := addRepeats s n f.repeats
  let s := record s { coreRec 0x10 phys f.syndrome.toNat with
    outcome := f.outcome, engine := f.eng, shuttle := shIdx f.sh, opcode := f.opcode.toNat, pc := f.pc,
    fence := !isFenced s phys && (f.outcome == 3 || (f.outcome == 2 && intermitFences s phys)) }
  if f.outcome = 3 then fenceCore s phys 1
  else if f.outcome = 2 then intermittent s phys false
  else s

/-- How far an engine of a core has worked: the schedule cycles that have ended, and for the heddle those of its overrun
(R360). -/
def workedTo (c : Core) (eng : Nat) : Nat :=
  c.cycle + flag c.sched + (match eng, c.pass with | 1, some p => p.overran | _, _ => 0)

/-- The detections of the cycle that ends: each receives its own outcome, and all are repeated together while the core and
the identity that shares it hold from the next cycle (R545, R549). -/
def foundTest (s : State) (n : Nat) : State :=
  let c := getCore s n
  let due := c.found.filter (fun f => decide (f.at_ < workedTo c f.eng))
  if due.isEmpty then s
  else
    let s := setCore s n { c with found := c.found.filter (fun f => decide (workedTo c f.eng ≤ f.at_)) }
    let cost := 4 * (due.map (fun f => f.repeats)).foldl max 0
    let s := (mates s n).foldl (fun t m => modCore t m (fun c =>
      { c with holds := { c.holds with until_ := max c.holds.until_ (s.cc + 1) + cost } })) s
    due.foldl (fun t f => detectOne t n f) s

/-- Store units and tun lines that a read finds uncorrectable: FAILED, recorded, an intermittent with storage cause
(R570); corrected errors are counted. -/
def sramFound (s : State) (n : Nat) (who : RecIn → RecIn) (e : SramEcc) (units lines : List Nat) : State :=
  let s := (e.store.filter (fun u => units.contains u)).foldl (fun t u =>
    let t := modCore t n (fun c => { c with storeChk := tset Chk.clear c.storeChk u .failed })
    let t := record t (who { coreRec 0x14 n (64 * u) with outcome := 2, engine := 5, fence := intermitFences t n })
    intermittent t n true) s
  let s := (e.tun.filter (fun u => lines.contains u)).foldl (fun t u =>
    let t := modCore t n (fun c => { c with tunChk := tset Chk.clear c.tunChk u .failed })
    let t := record t (who { coreRec 0x14 n (64 * u) with outcome := 2, engine := 6, fence := intermitFences t n })
    intermittent t n true) s
  if e.corrected = 0 then s else bumpCore s n ctrSramCorr e.corrected

/-- What an instruction's reads found, by the same means. -/
def sramOf (ups : Upsets) : SramEcc := ⟨ups.storeDouble, ups.tunDouble, ups.corrected⟩

/-- What the reads of an engine's instruction find: the record names the instruction. -/
def sramErrors (s : State) (n : Nat) (sh : Shuttle) (pc : Word) (op : Nat) (ups : Upsets)
    (units lines : List Nat) : State :=
  sramFound s n (fun r => { r with shuttle := shIdx sh, opcode := op, pc := pc }) (sramOf ups) units lines

/-! ### The issue -/

/-- What an instruction does: the conditions that its word shows against the binary's plans and the map, the engine it needs, the conditions that its
operands show, a hold of the core in place of the issue, its effect, the branch it takes, and what it does when
predicated off (R101, R102). `onDesc` is what a kind 0x05 fault leaves done (R113). -/
structure Action where
  fmt : Fmt
  enc : Conds := []
  eng : Option EngUse := none
  chk : Conds := []
  hold : Option (Core → Core) := none
  eff : State
  jump : Option Nat := none
  off : Option State := none
  onDesc : Option State := none

/-- The shuttle has issued: program counter, last issue cycle, progress (R68, R101, R110). A cycle on which it both resumed
and issued adds 1 once (R601). -/
def advance (s : State) (a : At) (target : Option Nat) : State :=
  let next : Word := match target with
    | some t => BitVec.ofNat 32 t
    | none => pcOf a.r a.sh + 1
  let s := setRegs s a.n (setPc (getRegs s a.n) a.sh next)
  modCore s a.n (fun c => modSh c a.sh (fun x =>
    { x with last := a.c.cycle, resumed := false, progress := x.progress + (if x.resumed then 0 else 1), progressAt := s.pll }))

/-- Faults an instruction meets, lowest kind first; predicated off it raises only kinds 0x01 to 0x03, and only what `enc`
holds (R101, assumption 17). -/
def actionFault (a : At) (act : Action) : Option (Nat × Nat) :=
  let enc := reservedConds act.fmt a.w ++ act.enc
  if executes a then
    worst (enc ++ (match act.eng with | some u => engConds a.c a.sh u | none => []) ++ act.chk)
  else worst (enc.filter (fun x => decide (x.1 ≤ 3)))

/-- Occupy the engine of an action. -/
def occupy (s : State) (a : At) (act : Action) (on : Bool) : State :=
  match act.eng with
  | some u => modCore s a.n (fun c => useEngine c u on)
  | none => s

/-- The state after the instruction has issued without a fault. -/
def complete (a : At) (act : Action) : State :=
  if executes a then advance (occupy act.eff a act true) a act.jump
  else advance (occupy (act.off.getD a.s) a act false) a none

/-- The issue of an instruction of a row. One that is not due has no effect (assumption 8). -/
def issueWith (op : Nat) (i : Issue) (s : State) (m : At → Action) : Host.Outcome State Fault Refusal :=
  match place op i s with
  | none => .next s
  | some a =>
    if !opcodeDefined (fldOp a.w) then
      .next (raiseFault a.s a.p a.n a.sh (pcOf a.r a.sh) (fldOp a.w) 1 (fldOp a.w) false)
    else
      let act := m a
      match actionFault a act with
      | some (k, d) =>
        .next (raiseFault (if k = 5 then act.onDesc.getD a.s else a.s) a.p a.n a.sh (pcOf a.r a.sh) (fldOp a.w) k d false)
      | none =>
        match executes a, act.hold with
        | true, some h => .next (setCore a.s a.n { h a.c with sched := false })
        | _, _ => .next (complete a act)

/-! ### Sending a result on its way -/

/-- Latency of K0 to K3 and K7 and the addends of K4 to K6 under a profile (R83). A B0 device holds a TP1 binary's
results to the TP1 cycle (R85). -/
def latency (p : Part) (tp1 tp2 : Nat) : Nat := if p.profile = 2 then tp2 else tp1

/-- Put a result in flight on an identity. -/
def push (s : State) (n : Nat) (sh : Shuttle) (lat : Nat) (access verdict : Option Nat) (e : Effect) : State :=
  modCore s n (fun c => { c with nextOrder := c.nextOrder + 1
                                 flight := c.flight ++ [{ due := c.cycle + lat, order := c.nextOrder, sh := sh,
                                                          access := access, verdict := verdict, effect := e }] })

/-- Whether two results write the same register or the same descriptor entry (R76, R145). -/
def sameTarget : Effect → Effect → Bool
  | .reg a _, .reg b _ => a == b
  | .desc a _, .desc b _ => a == b
  | _, _ => false

/-- Put a register or descriptor write in flight. A write that lands on the same cycle from another shuttle collides:
the later shuttle's value stays and REG_COLLIDE is set (R76, R145). -/
def pushWrite (s : State) (a : At) (lat : Nat) (e : Effect) : State :=
  let c := getCore s a.n
  let due := c.cycle + lat
  let clash (f : Flight) : Bool := f.due == due && f.sh != a.sh && sameTarget f.effect e
  if c.flight.any clash then
    let s := noteW1c (modCore s a.n (fun c => { c with collide := true })) (corePage a.n 0) 3
    if c.flight.any (fun f => clash f && decide (shIdx a.sh < shIdx f.sh)) then s
    else push (modCore s a.n (fun c => { c with flight := c.flight.filter (fun f => !clash f) })) a.n a.sh lat none none e
  else push s a.n a.sh lat none none e

/-- Write a register at a latency. -/
def pushReg (s : State) (a : At) (sp lat v : Nat) : State :=
  pushWrite s a lat (.reg (BitVec.ofNat 8 sp) (BitVec.ofNat 64 v))

/-- A new access of a shuttle (R178), returning its number. -/
def newAccess (s : State) (n : Nat) (sh : Shuttle) (level : Nat) (kind : AccessKind) (rel : Bool) (held : Bool)
    (frames : List (Nat × Nat × Frame)) : State × Nat :=
  let c := getCore s n
  let id := c.nextAccess
  (setCore s n { modSh c sh (fun x => { x with accesses := x.accesses ++
      [{ id := id, level := level, kind := kind, rel := rel, held := held, frames := frames, unanswered := 0 }] }) with
    nextAccess := id + 1 }, id)

/-- An engine store to the core's own core store or tun: an access that performs on the cycle on which it lands (R181). -/
def pushStore (s : State) (a : At) (lat : Nat) (verdict : Option Nat) (e : Effect) : State :=
  let (s, id) := newAccess s a.n a.sh 0 .store false false []
  push s a.n a.sh lat (some id) verdict e

/-! ### Descriptor operands at issue -/

/-- The entry that an operand names, read on the issue cycle (R144). -/
def entryOf (a : At) (k : Nat) : Option Image := tget none a.c.desc k

/-- An entry not yet written raises kind 0x03 with the operand's bit offset (R105). -/
def needEntry (a : At) (k off : Nat) : Conds := cond (entryOf a k).isNone 3 off

/-- Conditions on an operand's descriptor, when it has one. -/
def onEntry (a : At) (k : Nat) (g : Image → Conds) : Conds :=
  match entryOf a k with
  | some d => g d
  | none => []

/-- The operand's descriptor; unwritten entries have raised kind 0x03 before this is used. -/
def entryD (a : At) (k : Nat) : Image := (entryOf a k).getD 0

/-- Sizes of dimensions 2 to 5 all 1. -/
def rank2ish (d : Image) : Bool := [2, 3, 4, 5].all (fun k => dSize d k == 1)

/-- The units of core store or lines of the tun that a DENSE descriptor's valid elements touch. -/
def descUnits (d : Image) : List Nat := elemUnits (validElems d)

/-- The check state of what a descriptor's valid elements hold (R560). -/
def descChk (c : Core) (d : Image) : Chk :=
  unitsChk (if dHandle d = 1 then c.tunChk else c.storeChk) (descUnits d)

/-- A result written through a DENSE descriptor: one value per valid position in ascending linear order. -/
def pokesOf (d : Image) (vals : List Nat) : List Poke :=
  ((validElems d).zip vals).map (fun x => (x.1.1, x.1.2, x.2))

end Sys2Proof.Machine
end

