-- ==== Sys2Proof/Machine/DescInstr.lean ====
section
/-! DEFINITION. The descriptor instructions (R109, R113, R138 to R145). -/

namespace Sys2Proof.Machine

/-- A 64-byte image read from core store. -/
def imageAt (m : Tbl Byte) (addr : Nat) : Image := BitVec.ofNat 512 (leVal (readBytes m addr 64))

/-- The conditions on the core-store span an instruction takes at DA's base plus an offset: DA must name core store and
the bytes lie inside it (assumption 18). -/
def spanConds (a : At) (k off extra len : Nat) : Conds :=
  needEntry a k off ++ onEntry a k (fun d =>
    cond (dHandle d != 0 || decide (storeBytes < dBase d + extra + len)) 3 off)

/-- A failed validation: kind 0x05 with the reason (R138). -/
def reasonConds (a : At) (d : Image) : Conds :=
  match descReason a.s a.p d with
  | some r => [(5, r)]
  | none => []

/-- MODE and SUB have no meaning. -/
def modeSubZero (w : InstrWord) : Conds := undefinedField (tMode w != 0) offMode ++ undefinedField (tSub w != 0) offSub
def modeZero (w : InstrWord) : Conds := undefinedField (tMode w != 0) offMode

/-- The units that a span of core store touches. -/
def spanUnits (addr len : Nat) : List Nat :=
  (List.range ((addr + len + 63) / 64 - addr / 64)).map (fun i => addr / 64 + i)

/-- Units found uncorrectable on this instruction's reads. -/
def readStore (a : At) (units : List Nat) : State :=
  sramErrors a.s a.n a.sh (pcOf a.r a.sh) (fldOp a.w) a.ups units []

def actDescMake (a : At) : Action :=
  let da := tDA a.w
  let addr := dBase (entryD a da) + tImm a.w
  let img := imageAt a.c.store addr
  let span := spanConds a da offDA (tImm a.w) 64
  { fmt := .t, enc := modeSubZero a.w
    chk := span ++ (if span.isEmpty then reasonConds a img else [])
    eff := pushWrite (readStore a (spanUnits addr 64)) a (latency a.p 4 3) (.desc (tDO a.w) img) }

/-- The sub-codes of DESC.SET (R142). -/
def descSetDefined (sub : Nat) : Bool :=
  decide (sub ≤ 4) || (decide (0x08 ≤ sub) && decide (sub ≤ 0x0D)) || (decide (0x10 ≤ sub) && decide (sub ≤ 0x15))

/-- The entry with the field that SUB selects replaced; `none` for an immediate with a bit beyond its field. -/
def descSetImage (d : Image) (sub imm : Nat) : Option Image :=
  if sub = 0 then some (setBits d 0 32 imm)
  else if sub = 1 then if imm < 2 ^ 16 then some (setBits d 32 16 imm) else none
  else if sub = 2 then if imm < 2 ^ 16 then some (setBits d 48 16 imm) else none
  else if sub = 3 then if imm < 2 ^ 16 then some (setBits d 64 16 imm) else none
  else if sub = 4 then
    let k := imm / 2 ^ 16
    let v := imm % 2 ^ 16
    if k = 0 then if v < 2 ^ 10 then some (setBits d 80 10 v) else none
    else if k ≤ 5 ∧ v < 2 ^ 7 then some (setBits d (83 + 7 * k) 7 v) else none
  else if sub < 0x10 then if imm < 2 ^ 24 then some (setBits d (128 + 64 * (sub - 8)) 24 imm) else none
  else some (setBits d (152 + 64 * (sub - 0x10)) 40 (signed 32 imm % pow2 40).toNat)

def actDescSet (a : At) : Action :=
  let k := tDO a.w
  let d := entryD a k
  let img := descSetImage d (tSub a.w) (tImm a.w)
  { fmt := .t, enc := modeZero a.w ++ undefinedField (!descSetDefined (tSub a.w)) offSub
    chk := needEntry a k offDO ++ onEntry a k (fun _ => match img with
      | none => [(5, 1)]
      | some x => reasonConds a x)
    eff := pushWrite a.s a (latency a.p 4 3) (.desc k (img.getD 0)) }

/-- The advanced base of DESC.OFFS (R143); `none` where the product is not a whole number of bytes or lines. -/
def offsBase (d : Image) (sub : Nat) (imm : Int) : Option Int :=
  if sub ≠ 0 then some ((dBase d : Int) + imm * dStride d sub)
  else if dType d = tyTun then if imm % 10 = 0 then some ((dBase d : Int) + imm / 10 * 64) else none
  else
    let x := imm * (tyWidth (dType d) : Int)
    if x % 8 = 0 then some ((dBase d : Int) + x / 8) else none

def actDescOffs (a : At) : Action :=
  let k := tDO a.w
  let d := entryD a k
  let nb := offsBase d (tSub a.w) (signed 32 (tImm a.w))
  let img := setBits d 0 48 (nb.getD 0).toNat
  { fmt := .t, enc := modeZero a.w ++ undefinedField (decide (5 < tSub a.w)) offSub
    chk := needEntry a k offDO ++ onEntry a k (fun _ => match nb with
      | none => [(5, 9)]
      | some b =>
        if b % 64 ≠ 0 then [(5, 9)]
        else if b < 0 ∨ pow2 48 ≤ b then [(5, 0x0C)]
        else reasonConds a img)
    eff := pushWrite a.s a (latency a.p 4 3) (.desc k img) }

/-- The first of consecutive images that fails validation: its place and reason (R140). -/
def firstBad (a : At) : Nat → List Image → Option (Nat × Nat)
  | _, [] => none
  | j, d :: t => match descReason a.s a.p d with
    | some r => some (j, r)
    | none => firstBad a (j + 1) t

/-- Write the first `n` of consecutive entries. -/
def pushDescs (a : At) (s : State) (k : Nat) (ds : List Image) : State :=
  (ds.zipIdx).foldl (fun t x => pushWrite t a (latency a.p 4 3) (.desc (k + x.2) x.1)) s

def actDescLdt (a : At) : Action :=
  let n := tImm a.w % 256 + 1
  let k := tDO a.w
  let addr := dBase (entryD a (tDA a.w))
  let ds := (List.range n).map (fun j => imageAt a.c.store (addr + 64 * j))
  let span := spanConds a (tDA a.w) offDA 0 (64 * n)
  let bad := if span.isEmpty then firstBad a 0 ds else none
  let s := readStore a (spanUnits addr (64 * n))
  { fmt := .t, enc := modeSubZero a.w ++ cond (decide (255 < k + n - 1)) 3 offDO
    chk := span ++ (match bad with
      | some (j, r) => [(5, r + (k + j) % 256 * 256)]
      | none => [])
    eff := pushDescs a s k ds
    onDesc := match bad with
      | some (j, _) => some (pushDescs a s k (ds.take j))
      | none => none }

def actDescStt (a : At) : Action :=
  let img := entryD a (tDO a.w)
  let addr := dBase (entryD a (tDA a.w))
  { fmt := .t, enc := modeSubZero a.w
    chk := needEntry a (tDO a.w) offDO ++ spanConds a (tDA a.w) offDA 0 64
    eff := pushStore a.s a (latency a.p 4 3) none (.store [(8 * addr, 512, img.toNat)] .clear) }

def execDescMake (i : Issue) (s : State) : Host.Outcome State Fault Refusal := issueWith 0x10 i s actDescMake
def execDescSet (i : Issue) (s : State) : Host.Outcome State Fault Refusal := issueWith 0x11 i s actDescSet
def execDescOffs (i : Issue) (s : State) : Host.Outcome State Fault Refusal := issueWith 0x12 i s actDescOffs
def execDescLdt (i : Issue) (s : State) : Host.Outcome State Fault Refusal := issueWith 0x13 i s actDescLdt
def execDescStt (i : Issue) (s : State) : Host.Outcome State Fault Refusal := issueWith 0x14 i s actDescStt

end Sys2Proof.Machine
end

