-- ==== Sys2Proof/Machine/Beam.lean ====
section
/-! DEFINITION. The beam engine (R222 to R265, R390 to R392): operands, K order, passes and the accumulator set, which
the heddle shares (R346). -/

namespace Sys2Proof.Machine

/-! ### MODE of passes (R114) -/

def mStart (w : InstrWord) : Bool := bit w 64
def mTA (w : InstrWord) : Bool := bit w 65
def mTB (w : InstrWord) : Bool := bit w 66
def mKord (w : InstrWord) : Nat := bits w 67 2
def mSkip (w : InstrWord) : Bool := bit w 69

/-! ### Accumulator sets -/

/-- The set after every operation issued so far (R232). -/
def accNow (m : Multiplier) : AccSet :=
  match m.later.getLast? with
  | some x => x.set
  | none => m.base

/-- The set as it stands for a drain's copy (R237): after the newest operation whose result is visible. -/
def accVisible (cycle : Nat) (m : Multiplier) : AccSet := (settleMul cycle m).base

/-- Queue an operation on an accumulator set, with the status flags that its pass raises. -/
def pushAcc (m : Multiplier) (due : Nat) (set : AccSet) (long nonfin mism : Bool) : Multiplier :=
  { m with later := m.later ++ [{ due := due, set := set }]
           marks := if long || nonfin || mism then
               m.marks ++ [{ due := due, long := long, nonfin := nonfin, mismatch := mism }]
             else m.marks }

/-- The limit of a chain's length (R250). -/
def longTerms : Nat := 2 ^ 24

/-- Add each lane's terms, in their order, onto a set of shape M × N (R230, R242, R246). -/
def addTerms (base : AccSet) (mm nn : Nat) (terms : Nat → Nat → List Exact) : Tbl Lane :=
  (List.range mm).foldl (fun t m => (List.range nn).foldl (fun t n =>
    tset {} t (128 * m + n) ((terms m n).foldl (fun l x => laneAdd l (laneTerm x)) (tget {} t (128 * m + n)))) t)
    base.lanes

/-- Whether any lane of a set is non-finite (R246). -/
def anyNonfin (a : AccSet) : Bool := a.lanes.any (fun x => laneNonfin x.2)

/-- The set after a pass: cleared first when START is 1, of the pass's shape, K more terms, flags and check state
(R230, R231, R233, R246, R250, R560). -/
def passSet (old : AccSet) (start : Bool) (mm nn k : Nat) (packed skipped : Bool) (chk : Chk)
    (terms : Nat → Nat → List Exact) : AccSet :=
  let base : AccSet := if start then {} else old
  let lanes := addTerms base mm nn terms
  let a : AccSet := { base with shape := some (mm, nn), lanes := lanes, terms := base.terms + k, packed := packed,
                                skipped := skipped, chk := joinChk base.chk chk }
  { a with longChain := base.longChain || decide (longTerms < a.terms), nonfin := base.nonfin || anyNonfin a }

/-! ### Operands (R223 to R227, R239, R240) -/

def isFp8 (t : Nat) : Bool := t == tyE4M3 || t == tyE5M2
/-- Accepted pairs of element types (R223). -/
def beamPair (a b : Nat) : Bool :=
  (isFp8 a && isFp8 b) || (a == b && (a == tyBF16 || a == tyFP16 || a == tyBS4))
def beamType (a : Nat) : Bool := isFp8 a || a == tyBF16 || a == tyFP16 || a == tyBS4

/-- M, N and K in padded extents (R225). -/
def passM (w : InstrWord) (da : Image) : Nat := dSize da (if mTA w then 0 else 1)
def passN (w : InstrWord) (db : Image) : Nat := dSize db (if mTB w then 1 else 0)
def passKA (w : InstrWord) (da : Image) : Nat := dSize da (if mTA w then 1 else 0)
def passKB (w : InstrWord) (db : Image) : Nat := dSize db (if mTB w then 0 else 1)

/-- Element (m, k) of DA and (k, n) of DB in the orientation of R225. -/
def elemA (st : Tbl Byte) (w : InstrWord) (da : Image) (m k : Nat) : Exact :=
  decodeTy (dType da) (readElem st da (if mTA w then [m, k] else [k, m]))
def elemB (st : Tbl Byte) (w : InstrWord) (db : Image) (k n : Nat) : Exact :=
  decodeTy (dType db) (readElem st db (if mTB w then [k, n] else [n, k]))

/-- K positions of a chunk of 128 (R239). -/
def chunkKs (k c : Nat) : List Nat := (List.range 128).map (fun j => 128 * c + j) |>.filter (fun j => decide (j < k))
def chunkCount (k : Nat) : Nat := (k + 127) / 128

/-- K positions in the order that KORD gives (R240). -/
def kOrder (st : Tbl Byte) (w : InstrWord) (dx : Image) (k : Nat) : List Nat :=
  let n := chunkCount k
  let order := if mKord w = 0 then List.range n
    else if mKord w = 1 then (List.range n).reverse
    else (List.range (dValid dx 0)).map (fun j => wrapIndex (readIndex st dx j) n)
  order.flatMap (chunkKs k)

/-- One product (R243), both BS4 scales included (R227). -/
def beamProduct (st : Tbl Byte) (w : InstrWord) (da db dx : Image) (m n k : Nat) : Exact :=
  let p := mulE (elemA st w da m k) (elemB st w db k n)
  if dType da = tyBS4 then
    scaled (scaled p (readElem st dx [k / 32, m])) (readElem st dx [k / 32, passM w da + n])
  else p

/-- MAC rate per cc (R223). -/
def beamRate (t : Nat) : Nat := if isFp8 t then 8192 else if t = tyBS4 then 16384 else 4096

/-- Occupancy of a pass (R83, R228). -/
def beamOcc (w : InstrWord) (da db : Image) : Nat :=
  ceilDiv ((passM w da + 63) / 64 * 64 * ((passN w db + 127) / 128 * 128) * passKA w da) (beamRate (dType da))

/-- Conditions of an operand that an engine reads from core store: handle (R224) and format (R328). -/
def coreDense (d : Image) (off : Nat) : Conds := cond (dHandle d != 0) 3 off ++ cond (!dDense d) 6 off

/-- Conditions on DA and DB of a beam pass (R223 to R226). -/
def beamPairConds (w : InstrWord) (da db : Image) : Conds :=
  coreDense da offDA ++ coreDense db offDB ++
  cond (!beamType (dType da)) 6 offDA ++ cond (beamType (dType da) && !beamPair (dType da) (dType db)) 6 offDB ++
  cond (!rank2ish da || decide (128 < passM w da)) 7 offDA ++
  cond (!rank2ish db || decide (128 < passN w db) || passKA w da != passKB w db) 7 offDB ++
  cond (dType da == tyBS4 && passKA w da % 32 != 0) 7 offDA

/-- Conditions on DX of a BS4 pass (R227) or of an ordered one (R240, R241). -/
def beamDxConds (a : At) (da db : Image) : Conds :=
  let w := a.w
  if dType da = tyBS4 ∧ dType db = tyBS4 then
    cond (mKord w == 2) 6 offDX ++ cond (!fldFlag w 0) 3 offDX ++
    (if fldFlag w 0 then
      needEntry a (tDX w) offDX ++ onEntry a (tDX w) (fun dx =>
        let kk := passKA w da / 32
        cond (dHandle dx != 0) 3 offDX ++ cond (!dDense dx || dType dx != tyScale) 6 offDX ++
        cond (dRank dx != 2 || dValid dx 0 != kk || dSize dx 0 != (kk + 63) / 64 * 64 ||
          dSize dx 1 != passM w da + passN w db || dPad dx 1 != 0) 7 offDX)
    else [])
  else if mKord w = 2 ∧ fldFlag w 0 then
    needEntry a (tDX w) offDX ++ onEntry a (tDX w) (fun dx =>
      cond (dHandle dx != 0) 3 offDX ++
      cond (!dDense dx || !dIndex dx) 6 offDX ++
      cond (dRank dx != 1 || dValid dx 0 != chunkCount (passKA w da)) 7 offDX)
  else []

/-- Whether a pass uses DX. -/
def beamUsesDx (w : InstrWord) (da : Image) : Bool := dType da == tyBS4 || mKord w == 2

/-- A START = 0 pass must match the set's shape (R231). -/
def shapeConds (old : AccSet) (start : Bool) (mm nn off : Nat) : Conds :=
  match old.shape with
  | some (x, y) => cond (!start && (x != mm || y != nn)) 7 off
  | none => []

/-! ### The residue checks of a pass (R259 to R263, R372) -/

/-- What the residue checks of a pass see: for each lane of the tile its terms in order, each as the factor pairs whose
products it sums; the lanes before the pass; and, for the beam, the N columns whose products an array row checks together. -/
structure PassChecks where
  terms : Nat → Option (List (List (Exact × Exact)))
  start : Tbl Lane
  cols : Option Nat := none

/-- The exact sum of a term's products. -/
def termSum (g : List (Exact × Exact)) : Exact :=
  match g.map (fun x => mulE x.1 x.2) with
  | [] => Exact.zero
  | x :: t => t.foldl addE x

/-- A lane before one of its additions. -/
def laneBefore (k : PassChecks) (lane : Nat) (ts : List (List (Exact × Exact))) (i : Nat) : Lane :=
  (ts.take i).foldl (fun l g => laneAdd l (laneTerm (termSum g))) (tget {} k.start lane)

/-- The residue of an array row's products at a K position (R260): ρ of the row's operand times the sum of ρ of the column
operands. -/
def rowResidue (k : PassChecks) (nn lane i : Nat) : Option Nat :=
  let at_ (l : Nat) : Option (Exact × Exact) := ((k.terms l).bind (fun ts => ts[i]?)).bind (fun g => g.head?)
  (at_ lane).bind (fun x => resMul (rho7 x.1)
    (resSum ((List.range nn).map (fun n => (at_ (128 * (lane / 128) + n)).bind (fun y => rho7 y.2)))))

/-- The residue that a comparison of a pass must find; `none` where the device makes none: outside the tile, beyond the
lane's terms, or where a non-finite value takes part (R259, R261). -/
def passWant (k : PassChecks) (d : Detection) : Option Nat :=
  match k.terms d.lane with
  | none => none
  | some ts =>
    match d.site with
    | .product => match k.cols with
      | some nn => rowResidue k nn d.lane d.term
      | none => (ts.flatten[d.term]?).bind (fun x => resMul (rho7 x.1) (rho7 x.2))
    | .groupSum =>
      if k.cols.isSome then none
      else (ts[d.term]?).bind (fun g => resSum (g.map (fun x => resMul (rho7 x.1) (rho7 x.2))))
    | .laneAddition => (ts[d.term]?).bind (fun g =>
        resAdd (rho7 (val32 (laneBefore k d.lane ts d.term).sum)) (rho7 (laneTerm (termSum g))))
    | .errorRegister => (ts[d.term]?).bind (fun g =>
        (laneErrors (laneBefore k d.lane ts d.term) (laneTerm (termSum g))).bind (fun x => resAdd (rho7 x.1) (rho7 x.2)))
    | .vectorAdder => none

/-! ### BEAM.MM -/

/-- The factors of one product, both BS4 scales included (R227, R260). -/
def beamFactors (st : Tbl Byte) (w : InstrWord) (da db dx : Image) (m n k : Nat) : Exact × Exact :=
  if dType da = tyBS4 then
    (scaled (elemA st w da m k) (readElem st dx [k / 32, m]), scaled (elemB st w db k n) (readElem st dx [k / 32, passM w da + n]))
  else (elemA st w da m k, elemB st w db k n)

/-- What the residue checks of a beam pass see. -/
def beamChecks (a : At) (da db dx : Image) : PassChecks :=
  let ks := kOrder a.c.store a.w dx (passKA a.w da)
  { terms := fun l =>
      if l / 128 < passM a.w da ∧ l % 128 < passN a.w db then
        some (ks.map (fun k => [beamFactors a.c.store a.w da db dx (l / 128) (l % 128) k]))
      else none
    start := if mStart a.w then [] else (accNow a.c.beam).lanes
    cols := some (passN a.w db) }

/-- The set a BEAM.MM leaves (R230 to R233, R239 to R246). -/
def beamSet (a : At) (da db dx : Image) (chk : Chk) : AccSet :=
  let ks := kOrder a.c.store a.w dx (passKA a.w da)
  passSet (accNow a.c.beam) (mStart a.w) (passM a.w da) (passN a.w db) (passKA a.w da) false false chk
    (fun m n => ks.map (fun k => beamProduct a.c.store a.w da db dx m n k))

/-- The check state of the operands of a pass after this read found what it found (R560, R570). -/
def operandsChk (s : State) (n : Nat) (ds : List Image) : Chk := joinAll (ds.map (descChk (getCore s n)))

/-- Store units that DENSE operands read. -/
def operandUnits (ds : List Image) : List Nat := (ds.flatMap descUnits).dedup

/-- DX of a pass when it is used, otherwise nothing. -/
def passOperands (w : InstrWord) (da db dx : Image) : List Image :=
  if beamUsesDx w da then [da, db, dx] else [da, db]

def actBeamMm (a : At) : Action :=
  let da := entryD a (tDA a.w)
  let db := entryD a (tDB a.w)
  let dx := entryD a (tDX a.w)
  let occ := beamOcc a.w da db
  let ops := passOperands a.w da db dx
  let s := readStore a (operandUnits ops)
  let set := beamSet a da db dx (operandsChk s a.n ops)
  let lat := occ + latency a.p 24 20
  let fails := failuresOf a .beam 7 lat (passWant (beamChecks a da db dx))
  let out := detectSet fails set
  let s := detections s a.n fails
  { fmt := .t
    enc := reservedBits a.w 70 2 ++ undefinedField (bits a.w 69 1 != 0 || mKord a.w == 3) offMode ++ undefinedField (tSub a.w != 0) offSub ++
      cond (mKord a.w == 2 && !fldFlag a.w 0) 3 offDX
    eng := some { eng := .beam, occ := max 1 occ, busy := max 1 occ }
    chk := needEntry a (tDA a.w) offDA ++ needEntry a (tDB a.w) offDB ++
      onEntry a (tDA a.w) (fun da => onEntry a (tDB a.w) (fun db => beamPairConds a.w da db ++ beamDxConds a da db ++
        shapeConds (accNow a.c.beam) (mStart a.w) (passM a.w da) (passN a.w db) offDA))
    eff := modCore s a.n (fun c =>
      { c with beam := pushAcc c.beam (c.cycle + lat) out (decide (longTerms < set.terms)) (anyNonfin out)
                         (!fails.isEmpty) }) }

/-! ### BEAM.ZERO -/

/-- A zero instruction: the set holds no shape and everything in it is zero (R233). -/
def actBeamZero (a : At) : Action :=
  { fmt := .t, enc := modeSubZero a.w
    eng := some { eng := .beam, occ := 1, busy := 1 }
    eff := modCore a.s a.n (fun c =>
      { c with beam := pushAcc c.beam (c.cycle + 1 + latency a.p 24 20) {} false false false }) }

/-! ### BEAM.SCORE (R390 to R392) -/

/-- What a score element holds: the magnitude of the lane's value rounded to FP32. -/
def scoreWord (l : Lane) : Word := rne32 (absE (laneVal l))

/-- A BEAM.SCORE fills the drain buffer for an interval of its own. -/
def fillBuffer (cycle : Nat) (t : EngineTime) (from_ to_ : Nat) : EngineTime :=
  { t with scores := t.scores.filter (fun x => decide (cycle < x.2)) ++ [(from_, to_)] }

def actBeamScore (a : At) : Action :=
  let da := entryD a (tDA a.w)
  let db := entryD a (tDB a.w)
  let dx := entryD a (tDX a.w)
  let d := entryD a (tDO a.w)
  let occ := beamOcc a.w da db
  let mm := passM a.w da
  let nn := passN a.w db
  let s := readStore a (operandUnits [da, db, dx])
  let lat := occ + latency a.p 24 20
  let fails := failuresOf a .beam 7 lat (passWant (beamChecks a da db 0))
  let set := detectSet fails (beamSet a da db 0 (operandsChk s a.n [da, db, dx]))
  let s := detections s a.n fails
  let tr := wrapIndex (readIndex a.c.store dx 0) ((dSize d 1 + 127) / 128)
  let tc := wrapIndex (readIndex a.c.store dx 1) ((dSize d 0 + 127) / 128)
  let elems : List Poke := (boxOf [nn, mm]).filterMap (fun ix => match ix with
    | [n, m] =>
      let pos := [128 * tc + n, 128 * tr + m]
      if inValid d 0 pos then some (elemBit d pos, 32, (scoreWord (tget {} set.lanes (128 * m + n))).toNat) else none
    | _ => none)
  let buf := ceilDiv (4 * mm * nn) 192
  let s := pushStore s a (lat + buf) none (.store elems set.chk)
  { fmt := .t
    enc := reservedBits a.w 70 2 ++ undefinedField (bits a.w 69 1 != 0 || !mStart a.w || decide (2 ≤ mKord a.w)) offMode ++
      undefinedField (tSub a.w != 0) offSub ++ cond (!fldFlag a.w 0) 3 offDX
    eng := some { eng := .beam, occ := max 1 occ, busy := max 1 occ }
    chk := needEntry a (tDA a.w) offDA ++ needEntry a (tDB a.w) offDB ++ needEntry a (tDX a.w) offDX ++
      needEntry a (tDO a.w) offDO ++
      onEntry a (tDA a.w) (fun da => onEntry a (tDB a.w) (fun db => beamPairConds a.w da db ++
        cond (dType da == tyBS4) 6 offDA ++ cond (dType db == tyBS4) 6 offDB)) ++
      onEntry a (tDX a.w) (fun dx => cond (!dDense dx || dHandle dx != 0 || dRank dx != 1 || dValid dx 0 != 2 ||
        (dType dx != tyInt16 && dType dx != tyInt32)) 3 offDX) ++
      onEntry a (tDO a.w) (fun d => cond (dHandle d != 0) 3 offDO ++ cond (!dDense d || dType d != tyFP32) 6 offDO ++
        cond (dRank d != 2) 7 offDO)
    eff := modCore s a.n (fun c =>
      { c with beam := pushAcc c.beam (c.cycle + lat) {} (decide (longTerms < set.terms)) (anyNonfin set)
                         (!fails.isEmpty)
               beamT := fillBuffer c.cycle c.beamT (c.cycle + lat) (c.cycle + lat + buf) }) }

def execBeamMm (i : Issue) (s : State) : Host.Outcome State Fault Refusal := issueWith 0x20 i s actBeamMm
def execBeamScore (i : Issue) (s : State) : Host.Outcome State Fault Refusal := issueWith 0x21 i s actBeamScore
def execBeamZero (i : Issue) (s : State) : Host.Outcome State Fault Refusal := issueWith 0x22 i s actBeamZero

end Sys2Proof.Machine
end

