-- ==== Sys2Proof/Machine/Mem.lean ====
section
/-! DEFINITION. The two memory tiers as the device reads and writes them: ECC, poison and its records (R192 to R194),
lines that the host holds (R514), and fabric addresses (R162). -/

namespace Sys2Proof.Machine

/-! ### Fabric addresses (R162) -/

def tierCode : Tier → Nat
  | .hbm => 0
  | .lpddr => 1

/-- The tier of a code below 2. -/
def tierOf (t : Nat) : Tier := if t = 0 then .hbm else .lpddr

/-- The 64-bit fabric address of a byte. -/
def fabricAddr (module tier pq off : Nat) : Nat := off % 2 ^ 42 + tier * 2 ^ 42 + pq * 2 ^ 44 + module * 2 ^ 58

def faOff (a : Dword) : Nat := bits a 0 42
def faTier (a : Dword) : Nat := bits a 42 2
def faPq (a : Dword) : Nat := bits a 44 3
def faModule (a : Dword) : Nat := bits a 58 6

/-! ### Bytes and poison -/

def tierMem (s : State) : Tier → Tbl Byte
  | .hbm => s.hbm
  | .lpddr => s.lpddr

def setTierMem (s : State) (t : Tier) (m : Tbl Byte) : State :=
  match t with
  | .hbm => { s with hbm := m }
  | .lpddr => { s with lpddr := m }

def poisonOf (s : State) : Tier → List Nat
  | .hbm => s.poisonHbm
  | .lpddr => s.poisonLpddr

def setPoison (s : State) (t : Tier) (l : List Nat) : State :=
  match t with
  | .hbm => { s with poisonHbm := l }
  | .lpddr => { s with poisonLpddr := l }

def isPoisoned (s : State) (t : Tier) (u : Nat) : Bool := (poisonOf s t).contains u

/-- A unit becomes poisoned anew: nobody has found it yet. -/
def poisonUnit (s : State) (t : Tier) (u : Nat) : State :=
  let s := { s with poisonFound := s.poisonFound.filter (fun x => x != (t, u)) }
  if isPoisoned s t u then s else setPoison s t (poisonOf s t ++ [u])

/-- A write has replaced whole units: they are sound again (R194). -/
def unpoison (s : State) (t : Tier) (us : List Nat) : State :=
  let s := setPoison s t ((poisonOf s t).filter (fun u => !us.contains u))
  { s with poisonFound := s.poisonFound.filter (fun x => !(x.1 == t && us.contains x.2)) }

/-- The die on whose side a byte of a tier lies (R163). -/
def sideOf (s : State) (t : Tier) (off : Nat) : Nat :=
  if 2 * off < tierBytes s (tierCode t) then 0 else 1

/-- One record when a poisoned unit is first found (R194). -/
def findPoison (s : State) (t : Tier) (pq u : Nat) : State :=
  if isPoisoned s t u && !s.poisonFound.contains (t, u) then
    record { s with poisonFound := s.poisonFound ++ [(t, u)] }
      { kind := 0x15, detail := fabricAddr (ownIndex s) (tierCode t) pq (64 * u), die := sideOf s t (64 * u), engine := 9 }
  else s

/-- The stack (0 to 11) or package (12 and up) of a 64-byte unit, whose counter R193 names: each side is interleaved across
its own in 4 KiB units (R31). -/
def controllerOf (s : State) (t : Tier) (u : Nat) : Nat :=
  let side := sideOf s t (64 * u)
  let at_ := 64 * u - side * (tierBytes s (tierCode t) / 2)
  match t with
  | .hbm => 6 * side + at_ / 4096 % 6
  | .lpddr =>
    let n := tierBytes s 1 / (128 * gib)
    12 + n * side + at_ / 4096 % n

/-! ### Lines that the host holds (R514) -/

/-- The host-held lines among units of a tier. -/
def heldLines (s : State) (t : Tier) (us : List Nat) : List Nat :=
  (us.map (lineKey t)).filter (fun l => s.host.snoop.contains l)

/-- A device write to host-held lines first sends BISnpInv for each and waits for the BIRsp. -/
def snoopLines (s : State) (ls : List Nat) : State :=
  { s with host := { s.host with
      snooping := s.host.snooping ++ ls.filter (fun l => !s.host.snooping.contains l) } }

/-! ### Reads -/

/-- What ECC does when units of a tier are read: corrections are counted and written back, which takes the line from a host
that holds it (R193, R514), units that it cannot correct are poisoned, and each poisoned unit is recorded when first found
(R194). -/
def eccRead (s : State) (t : Tier) (pq : Nat) (us : List Nat) (ecc : MemEcc) : State :=
  let s := (ecc.bad.filter (fun x => x.1 == t && us.contains x.2)).foldl (fun s x =>
    if isPoisoned s t x.2 then s else poisonUnit s t x.2) s
  let fixed := (ecc.corrected.filter (fun x => x.1 == t && us.contains x.2)).map (fun x => x.2)
  let s := fixed.foldl (fun s u => { s with eccCounts := bumpTbl s.eccCounts (controllerOf s t u) 1 }) s
  let s := snoopLines s (heldLines s t fixed)
  us.foldl (fun s u => findPoison s t pq u) s

/-! ### Pokes over units -/

/-- A span of bits: address and length. -/
abbrev Span := Nat × Nat

/-- Cut a span at every multiple of `g` bits. -/
def cutSpan (g : Nat) : Nat → Span → List Span
  | 0, x => [x]
  | k + 1, (a, n) =>
    if a % g + n ≤ g then [(a, n)]
    else (a, g - a % g) :: cutSpan g k (a + (g - a % g), n - (g - a % g))

/-- The units that spans touch, each once. -/
def spanUnitsOf (xs : List Span) : List Nat :=
  (xs.flatMap (fun x => (cutSpan 512 (x.2 / 512 + 1) x).map (fun y => y.1 / 512))).dedup

/-- Units that elements, each within one unit, cover whole. -/
def coveredUnits (xs : List Poke) : List Nat :=
  let spans := (xs.map (fun x => (x.1, x.2.1))).dedup
  (spans.map (fun x => x.1 / 512)).dedup.filter (fun u =>
    decide (512 ≤ ((spans.filter (fun x => x.1 / 512 == u)).map (fun x => x.2)).sum))

/-- Write elements, each within one 64-byte unit, into a tier; a unit that they cover whole loses its poison (R182,
R194). -/
def writeMem (s : State) (t : Tier) (xs : List Poke) : State :=
  unpoison (setTierMem s t (pokeAll (tierMem s t) xs)) t (coveredUnits xs)

/-- Bytes from an aligned offset as one element per unit. -/
def unitPokes (addr : Nat) (bs : List Byte) : List Poke :=
  ((List.range (bs.length / 64 + 1)).map (fun k => (addr + 64 * k, (bs.drop (64 * k)).take 64))).filterMap (fun x =>
    if x.2.isEmpty then none else some (8 * x.1, 8 * x.2.length, leVal x.2))

/-- Write bytes into a tier from a 64-byte boundary. -/
def writeMemBytes (s : State) (t : Tier) (addr : Nat) (bs : List Byte) : State := writeMem s t (unitPokes addr bs)

/-! ### The bytes of a descriptor -/

/-- Elements packed one after the other, the first lowest. -/
def packBits (st : Tbl Byte) : List (Nat × Nat) → Nat × Nat
  | [] => (0, 0)
  | (a, w) :: t =>
    let (n, v) := packBits st t
    (n + w, peek st a w + v * 2 ^ w)

/-- The bytes of a DENSE descriptor's valid extent in ascending linear order, dimension 0 fastest (R424, R588). Bits that
fill up a last byte lie in padding, which reads as zero (R149). -/
def extentBytes (st : Tbl Byte) (d : Image) : List Byte :=
  let es := validElems d
  if tyWidth (dType d) % 8 = 0 then es.flatMap (fun x => leBytes (x.2 / 8) (peek st x.1 x.2))
  else
    let (n, v) := packBits st es
    leBytes ((n + 7) / 8) v

/-- The bytes of that extent. -/
def extentLen (d : Image) : Nat := ((validElems d).length * tyWidth (dType d) + 7) / 8

end Sys2Proof.Machine
end

