-- ==== Sys2Proof/Machine/Link.lean ====
section
/-! DEFINITION. Frames on their way out (R482 to R484, R488, R489): virtual lanes, ports, and the queue of slots that a
channel keeps for each virtual lane. -/

namespace Sys2Proof.Machine

/-- Frame kinds (R489). -/
def fkRead : Byte := 0x01
def fkWrite : Byte := 0x02
def fkAdd : Byte := 0x03
def fkData : Byte := 0x04
def fkDone : Byte := 0x05
def fkCaskHdr : Byte := 0x10
def fkPiece : Byte := 0x11
def fkCaskAck : Byte := 0x12
def fkVerdict : Byte := 0x13
def fkNorm : Byte := 0x14
def fkSignal : Byte := 0x20
def fkBeatup : Byte := 0x21
def fkTap : Byte := 0x22

/-- The bucket, the partition-relative cask, the sending partition's lowest quadrant and the element offset that a cask
frame carries in ADDR (R462, R488). -/
def caskAddr (bucket : Half) (cask low off : Nat) : Dword :=
  BitVec.ofNat 64 (bucket.toNat + cask * 2 ^ 16 + low * 2 ^ 20 + off % 2 ^ 24 * 2 ^ 24)
def faBucket (a : Dword) : Half := BitVec.ofNat 16 (bits a 0 16)
def faCask (a : Dword) : Nat := bits a 16 3
def faLow (a : Dword) : Nat := bits a 20 3
def faElem (a : Dword) : Nat := bits a 24 24

/-- QN of a queue token (R93). -/
def tokenQueue (t : Half) : Nat := bits t 11 4

/-- The virtual lane of a frame (R489). -/
def vlOf (f : Frame) : Nat :=
  if f.kind = fkRead ∨ f.kind = fkWrite ∨ f.kind = fkAdd then tokenQueue f.tag
  else if f.kind = fkData ∨ f.kind = fkDone then 16 + tokenQueue f.tag % 4
  else if f.kind = fkCaskHdr ∨ f.kind = fkPiece then 20 + (faBucket f.addr).toNat % 4
  else if f.kind = fkCaskAck then 25
  else if f.kind = fkVerdict then 24
  else if f.kind = fkNorm then 26
  else if f.kind = fkSignal then 27
  else if f.kind = fkBeatup then 28
  else if f.kind = fkTap then 29
  else 31

/-- A frame with nothing set but its kind, address, source and tag. -/
def bareFrame (kind : Byte) (addr : Dword) (core : Nat) (sh : Shuttle) (tag : Half) (inline : Inline) : Frame :=
  { kind := kind, addr := addr, prov := false, backup := false, poison := false, standIn := 0, srcCore := core,
    srcShuttle := sh, tag := tag, inline := inline, data := [] }

/-- Data bytes as slots of 64. -/
def dataSlots : Nat → List Byte → List Slot
  | 0, _ => []
  | k + 1, bs => if bs.isEmpty then [] else .data (bs.take 64) :: dataSlots k (bs.drop 64)

/-- The slots of a frame: its header, then its data (R488). -/
def frameSlots (f : Frame) : List Slot := .head f :: dataSlots (f.data.length / 64 + 1) f.data

/-- Hand a frame to a channel's virtual lane. A FAILED channel discards it (R499). -/
def sendFrame (s : State) (port peer : Nat) (f : Frame) : State :=
  modChan s port peer (fun c =>
    if c.state = .failed then c
    else { c with txq := tset [] c.txq (vlOf f) (tget [] c.txq (vlOf f) ++ frameSlots f) })

/-- A frame bound for a module: the module's own casks are reached over the mesh (R33). -/
def sendTo (s : State) (x : Nat × Nat × Frame) : State :=
  if x.2.1 = ownIndex s then
    { s with mesh := s.mesh ++ [{ port := Fin.ofNat 8 x.1, sender := ownIndex s, frame := x.2.2 }] }
  else sendFrame s x.1 x.2.1 x.2.2

def sendAll (s : State) (xs : List (Nat × Nat × Frame)) : State := xs.foldl sendTo s

/-- The port of a byte offset of a tier for a partition (R482, R483). -/
def offsetPort (p : Part) (off : Nat) : Nat := portOf p (off / 4096 % caskCount p)

/-! ### Frames that have arrived -/

/-- Shared slots among `n` held slots of a virtual lane, of which 4 are reserved (R491). -/
def sharedPart (n : Nat) : Nat := n - 4
def reservedPart (n : Nat) : Nat := min n 4

/-- The receiver frees slots of a virtual lane; their credits go back with the next flit (R485, R491). -/
def freeSlots (s : State) (port peer vl n : Nat) : State :=
  modChan s port peer (fun c =>
    let old := tget 0 c.rxHeld vl
    let new := old - n
    { c with
      rxHeld := tset 0 c.rxHeld vl new
      returned := tset 0 c.returned vl (tget 0 c.returned vl + (reservedPart old - reservedPart new))
      returnedShared := c.returnedShared + (sharedPart old - sharedPart new) })

/-- Whether a delivered slot lies on a virtual lane of a channel. -/
def onLane (peer vl : Nat) (x : Arrived) : Bool := x.peer == peer && x.vl == vl

/-- Remove the first `n` delivered slots of a virtual lane. -/
def dropLane (peer vl : Nat) : Nat → List Arrived → List Arrived
  | _, [] => []
  | 0, l => l
  | n + 1, x :: t => if onLane peer vl x then dropLane peer vl n t else x :: dropLane peer vl (n + 1) t

/-- The link engine takes a frame whose slots stand first on its virtual lane (R488, R493); a frame of the module itself
is taken from the mesh, where frames of one lane keep their order as well. -/
def takeRx (s : State) (rx : Rx) : Option State :=
  let vl := vlOf rx.frame
  if rx.sender = ownIndex s then
    match s.mesh.find? (fun y => y.port == rx.port && vlOf y.frame == vl) with
    | some y => if y = rx then some { s with mesh := s.mesh.erase y } else none
    | none => none
  else
    let want := frameSlots rx.frame
    let lane := ((getPort s rx.port.val).delivered.filter (onLane rx.sender vl)).map (fun x => x.slot)
    if lane.take want.length = want then
      some (modPort s rx.port.val (fun p => { p with delivered := dropLane rx.sender vl want.length p.delivered }))
    else none

/-- Return the credits of a frame's slots; the mesh has none. -/
def freeRx (s : State) (rx : Rx) (n : Nat) : State :=
  if rx.sender = ownIndex s then s else freeSlots s rx.port.val rx.sender (vlOf rx.frame) n

/-- Act on a frame that the link engine takes, and return its credits. A frame that has not arrived has no effect
(assumption 8). -/
def withRx (s : State) (rx : Rx) (g : State → State) : Host.Outcome State Fault Refusal :=
  match takeRx s rx with
  | none => .next s
  | some t => .next (g (freeRx t rx (frameSlots rx.frame).length))

end Sys2Proof.Machine
end

