-- ==== Sys2Proof/Machine/Vector.lean ====
section
/-! DEFINITION. The vector engine and the special-function unit: VEC.OP, VEC.RED, VEC.CVT (R109, R285 to R287), GRAV
(R272 to R275), SFU.EVAL, SFU.DERIV, SFU.LOAD (R299 to R301), and the starved-gradient counters (R296). -/

namespace Sys2Proof.Machine

/-! ### Starved gradients (R296) -/

/-- Add to counter SIDX: TOTAL in 64 bits, FLUSHED in 48, both saturating. -/
def countStarve (c : Core) (sidx total flushed : Nat) : Core :=
  let t := (tget 0 c.starveTotal sidx).toNat + total
  let w := tget 0 c.starveFlush sidx
  let f := bits w 0 48 + flushed
  { c with starveTotal := tset 0 c.starveTotal sidx (BitVec.ofNat 64 (min t (2 ^ 64 - 1)))
           starveFlush := tset 0 c.starveFlush sidx (setBits w 0 48 (min f (2 ^ 48 - 1))) }

/-- A saturation (R279): counted, and recorded with DO's descriptor index. -/
def noteSaturation (s : State) (a : At) (eng : Nat) : State :=
  let s := bumpCore s a.n ctrNumSat 1
  record s { coreRec 0x1B a.n (tDO a.w) with
    engine := eng, shuttle := shIdx a.sh, opcode := fldOp a.w, pc := pcOf a.r a.sh }

/-! ### Elements -/

/-- Floating-point types that the vector lanes read and write; BS4 needs scales and is left to VEC.CVT. -/
def laneType (t : Nat) : Bool := isFp8 t || t == tyBF16 || t == tyFP16 || t == tyFP32

/-- A raw element as an FP32 pattern, exactly; a signed zero keeps its sign. -/
def widen (ty raw : Nat) : Word :=
  match decodeTy ty raw with
  | .num m e =>
    if m = 0 then (if raw / 2 ^ (tyWidth ty - 1) % 2 = 1 then 0x80000000 else 0) else rne32 (.num m e)
  | .nonfin b => b

/-- An FP32 pattern as an element of a floating-point type, with one rounding (assumption 21). -/
def narrow (ty : Nat) (x : Word) : Nat :=
  match tyFp ty with
  | none => 0
  | some f =>
    if bits x 0 31 = 0 then (if neg32 x then 2 ^ (f.frac + f.expBits) else 0)
    else (convert .rne .infinity f (val32 x)).bits

/-- Raw valid elements in ascending linear order. -/
def rawElems (m : Tbl Byte) (d : Image) : List Nat := (boxOf (validDims d)).map (fun ix => readElem m d ix)

/-- The memory that a descriptor's handle names on a core: the tun for 1, otherwise core store. -/
def memOf (c : Core) (d : Image) : Tbl Byte := if dHandle d = 1 then c.tun else c.store

/-- Results after the detections of a vector operation: the element of an outcome whose repeats never passed is the
hardware's own, and every result is FAILED (R547, R560). -/
def detectVals (l : List Failure) (xs : List Word) : List Word :=
  (l.filter (fun x => x.lasts)).foldl (fun ys x => ys.set x.lane x.value) xs
def detectChk (l : List Failure) (c : Chk) : Chk := if detectFailed l then .failed else c

/-- Vector-engine use of one cycle. -/
def vecUse : EngUse := { eng := .vector, occ := 1, busy := 1 }

/-- The failed comparisons of a vector instruction (R544): one for each addition on finite operands, given by element as
operand pairs in the order in which they are added, within the instruction's latency. -/
def vecFailures (a : At) (last : Nat) (adds : Nat → List (Exact × Exact)) : List Failure :=
  failuresOf a .vector 3 last (fun d =>
    if d.site = .vectorAdder then ((adds d.lane)[d.term]?).bind (fun x => resAdd (rho3 x.1) (rho3 x.2)) else none)

/-- The additions of a running sum of terms from zero. -/
def runningAdds (xs : List Exact) : List (Exact × Exact) :=
  (List.range xs.length).map (fun i => ((xs.take i).foldl addE Exact.zero, xs.getD i Exact.zero))

/-- Conditions on a floating-point operand of the vector engine in core store. A count is compared with DA's when DA's is
one that R109 allows (assumption 15). -/
def vecOperand (a : At) (k off : Nat) (count : Option Nat) : Conds :=
  needEntry a k off ++ onEntry a k (fun d => coreDense d off ++ cond (!laneType (dType d)) 6 off ++
    cond (match count with
      | some n => decide (n ≤ 256) && validCount d != n
      | none => decide (256 < validCount d)) 7 off)

/-- NaN-propagating maximum and minimum; of equal values the first. -/
def maxW (x y : Word) : Word :=
  if isNan32 x || isNan32 y then nan32 else if ltE (val32 x) (val32 y) then y else x
def minW (x y : Word) : Word :=
  if isNan32 x || isNan32 y then nan32 else if ltE (val32 y) (val32 x) then y else x

/-- One element of VEC.OP (R109): each result is rounded once. A scale beyond 2^±1000 overflows or flushes every value. -/
def vecElem (sub : Nat) (imm : Int) (x y z : Word) : Word :=
  if sub = 0 then add32 x y
  else if sub = 1 then sub32 x y
  else if sub = 2 then mul32 x y
  else if sub = 3 then fma32 x y z
  else if sub = 4 then maxW x y
  else if sub = 5 then minW x y
  else if sub = 6 then (if isNan32 x then nan32 else x &&& 0x7FFFFFFF)
  else if bits x 0 31 = 0 then x else rne32 (scaleE (val32 x) (max (-1000) (min 1000 imm)))

def vecUsesB (sub : Nat) : Bool := decide (sub ≤ 5)

/-- The additions of one element of VEC.OP: ADD, SUB and FMA make one. -/
def vecAdds (sub : Nat) (x y z : Word) : List (Exact × Exact) :=
  if sub = 0 then [(val32 x, val32 y)]
  else if sub = 1 then [(val32 x, negE (val32 y))]
  else if sub = 3 then [(mulE (val32 x) (val32 y), val32 z)]
  else []

def actVecOp (a : At) : Action :=
  let w := a.w
  let da := entryD a (tDA w)
  let db := entryD a (tDB w)
  let dx := entryD a (tDX w)
  let d := entryD a (tDO w)
  let sub := tSub w
  let st := a.c.store
  let ops := [da] ++ (if vecUsesB sub then [db] else []) ++ (if sub = 3 then [dx] else [])
  let s := readStore a (operandUnits ops)
  let xs := (rawElems st da).map (widen (dType da))
  let ys := (rawElems st db).map (widen (dType db))
  let zs := (rawElems st dx).map (widen (dType dx))
  let out := xs.zipIdx.map (fun x => vecElem sub (signed 32 (tImm w)) x.1 (ys.getD x.2 0) (zs.getD x.2 0))
  let fails := vecFailures a (latency a.p 6 5) (fun j => match xs[j]? with
    | some x => vecAdds sub x (ys.getD j 0) (zs.getD j 0)
    | none => [])
  let out := detectVals fails out
  let chk := detectChk fails (operandsChk s a.n ops)
  { fmt := .t
    enc := modeZero w ++ undefinedField (decide (7 < sub)) offSub ++ cond (sub == 3 && !fldFlag w 0) 3 offDX
    eng := some vecUse
    chk := vecOperand a (tDA w) offDA none ++
      onEntry a (tDA w) (fun da =>
        (if vecUsesB sub then vecOperand a (tDB w) offDB (some (validCount da)) else []) ++
        (if sub = 3 then vecOperand a (tDX w) offDX (some (validCount da)) else []) ++
        vecOperand a (tDO w) offDO (some (validCount da)))
    eff := pushStore (detections s a.n fails) a (latency a.p 6 5) none
      (.store (pokesOf d (out.map (narrow (dType d)))) chk) }

/-- The terms of SUM and SUMSQ; MAX adds nothing. -/
def redTerms (sub : Nat) (xs : List Word) : List Exact :=
  if sub = 1 then [] else xs.map (fun x => if sub = 0 then val32 x else mulE (val32 x) (val32 x))

/-- SUM and SUMSQ as the exact sum rounded once, MAX as the largest; a sum of negative zeros alone is one (assumption
21). -/
def reduceOf (sub : Nat) (xs : List Word) : Word :=
  if sub = 1 then match xs with
    | [] => 0
    | x :: t => t.foldl maxW x
  else if sub = 0 ∧ xs.all (fun x => x == 0x80000000) then 0x80000000
  else rne32 ((redTerms sub xs).foldl addE Exact.zero)

def actVecRed (a : At) : Action :=
  let w := a.w
  let da := entryD a (tDA w)
  let d := entryD a (tDO w)
  let s := readStore a (operandUnits [da])
  let xs := (rawElems a.c.store da).map (widen (dType da))
  let fails := vecFailures a (latency a.p 6 5) (fun j => if j = 0 then runningAdds (redTerms (tSub w) xs) else [])
  let out := detectVals fails [reduceOf (tSub w) xs]
  let chk := detectChk fails (operandsChk s a.n [da])
  { fmt := .t
    enc := modeZero w ++ undefinedField (decide (2 < tSub w)) offSub
    eng := some vecUse
    chk := vecOperand a (tDA w) offDA none ++ vecOperand a (tDO w) offDO (some 1)
    eff := pushStore (detections s a.n fails) a (latency a.p 6 5) none
      (.store (pokesOf d (out.map (narrow (dType d)))) chk) }

/-! ### VEC.CVT (R285 to R287) -/

/-- FP8, FP16, BF16 and BS4 are narrow (R285). -/
def narrowType (t : Nat) : Bool := isFp8 t || t == tyBF16 || t == tyFP16 || t == tyBS4
/-- Number types, which a conversion reads and writes (assumption 78). -/
def cvtSource (t : Nat) : Bool := narrowType t || t == tyFP32 || t == tyTun || t == tyComp || t == tyInt16 || t == tyInt32
/-- Destinations of a conversion: the number types, and BIT (R287). -/
def cvtDest (t : Nat) : Bool := cvtSource t || t == tyBit

/-- The scaled source of an element that is no BS4 operand (R285): the destination rule when the destination is narrow. -/
def cvtScaled (src dst : Nat) (e : Option Nat) (x : Exact) : Exact :=
  match e with
  | none => x
  | some e =>
    if narrowType dst then
      match scaleExp e with
      | some k => scaleE x (-k)
      | none => .nonfin nan32
    else if narrowType src then scaled x e
    else x

/-- Convert one element to a floating-point format with saturation; a source zero keeps its sign. -/
def cvtElem (f : FpFmt) (raw : Nat) (srcTy : Nat) (x : Exact) : Conv :=
  match x with
  | .num m e =>
    if m = 0 then
      ⟨if (tyFp srcTy).isSome ∧ raw / 2 ^ (tyWidth srcTy - 1) % 2 = 1 then 2 ^ (f.frac + f.expBits) else 0, false, false⟩
    else convert .rne .saturate f (.num m e)
  | .nonfin b => convert .rne .saturate f (.nonfin b)

/-- Convert one element to a type without a floating-point format (assumption 78): integers to nearest even with
saturation, compensated and tun-wide pairs with their error term to nearest even. An integer from a non-finite value is
`free`, a free value of the types and the source pattern. -/
def cvtOther (dst : Nat) (x : Exact) (free : Nat) : Conv :=
  match x with
  | .nonfin b => ⟨if dst = tyComp ∨ dst = tyTun then (rne32 (.nonfin b)).toNat else free % 2 ^ tyWidth dst, false, false⟩
  | .num m e =>
    if dst = tyComp ∨ dst = tyTun then
      let c := convert .rne .saturate fmtFP32 (.num m e)
      if c.ovf then c
      else if dst = tyTun then ⟨tunRound (.num m e), false, m != 0 && tunRound (.num m e) % 2 ^ 31 == 0 && tunRound (.num m e) / 2 ^ 32 == 0⟩
      else ⟨c.bits + (rne32 (addE (.num m e) (negE (val32 (BitVec.ofNat 32 c.bits))))).toNat * 2 ^ 32, false, c.flush⟩
    else
      let k := roundTo .rne m e 0
      let top : Int := pow2 (tyWidth dst - 1)
      let v := max (-top) (min (top - 1) k)
      ⟨(BitVec.ofInt (tyWidth dst) v).toNat, v != k, k == 0 && m != 0⟩

/-- A list in blocks of n. -/
def blocksOf {α : Type} (n : Nat) : Nat → List α → List (List α)
  | 0, _ => []
  | k + 1, l => if l.isEmpty then [] else l.take n :: blocksOf n k (l.drop n)

/-- Results of a VEC.CVT, with DX's valid elements in ascending linear order (assumption 80): the converted elements, and the scales that a BS4 destination chooses (R286). -/
def cvtResults (a : At) (da d : Image) (dx : Image) : List Conv × List Nat :=
  let st := memOf a.c da
  let raws := rawElems st da
  let xs := rawElems a.c.store dx
  let src := dType da
  let dst := dType d
  let vals := raws.zipIdx.map (fun x =>
    let v := decodeTy src x.1
    if src = tyBS4 then (x.1, scaled v (xs.getD (x.2 / 32) 0)) else (x.1, v))
  if dst = tyBit then (vals.map (fun v => ⟨flag (ltE Exact.zero v.2), false, false⟩), [])
  else
    let e := if fldFlag a.w 0 ∧ src ≠ tyBS4 then xs.head? else none
    match tyFp dst with
    | none => (vals.map (fun v =>
        cvtOther dst (cvtScaled src dst e v.2) (Config.freeWord (2 ^ 201 + dst + 256 * (src + 256 * v.1))).toNat), [])
    | some f =>
      if dst = tyBS4 then
        let blocks := blocksOf 32 8 vals
        let scales := blocks.map (fun b => gravScale 6 0 (b.map (fun v => v.2)))
        ((blocks.zip scales).flatMap (fun b => b.1.map (fun v =>
          match scaleExp b.2 with
          | some k => cvtElem f v.1 src (scaleE v.2 (-k))
          | none => ⟨0, false, false⟩)), scales)
      else
        (vals.map (fun v => cvtElem f v.1 src (cvtScaled src dst e v.2)), [])

/-- SIDX and SEN of an immediate (R276). -/
def immSidx (w : InstrWord) : Nat := bits w (offImm + 18) 6
def immSen (w : InstrWord) : Bool := bit w (offImm + 24)

/-- The lowest set bit of IMM among those of a mask, as kind 0x02. -/
def immReserved (w : InstrWord) (mask : Nat) : Conds :=
  match lowestBit (tImm w &&& mask) with
  | some i => [(2, offImm + i)]
  | none => []

/-- Conditions on the DX of a conversion (R285, R286). -/
def cvtDxConds (a : At) (src dst : Nat) : Conds :=
  let bs := src == tyBS4 || dst == tyBS4
  cond (bs && !fldFlag a.w 0) 3 offDX ++
  (if fldFlag a.w 0 then
    needEntry a (tDX a.w) offDX ++ onEntry a (tDX a.w) (fun dx => cond (dHandle dx != 0) 3 offDX ++
      cond (!dDense dx || dType dx != tyScale) 6 offDX ++ cond (decide (validCount dx < (if bs then 8 else 1))) 7 offDX)
  else [])

def actVecCvt (a : At) : Action :=
  let w := a.w
  let da := entryD a (tDA w)
  let d := entryD a (tDO w)
  let dx := entryD a (tDX w)
  let uses := fldFlag w 0
  let reads := (if dHandle da = 1 then [] else descUnits da) ++ (if uses then descUnits dx else [])
  let s := sramErrors a.s a.n a.sh (pcOf a.r a.sh) (fldOp w) a.ups reads (if dHandle da = 1 then descUnits da else [])
  let (res, scales) := cvtResults a da d dx
  let chk := joinChk (descChk (getCore s a.n) da)
    (if uses && dType d != tyBS4 then descChk (getCore s a.n) dx else .clear)
  let sat := res.any (fun r => r.ovf)
  let s := if sat then noteSaturation s a 2 else s
  let s := if immSen w then modCore s a.n (fun c =>
      countStarve c (immSidx w) res.length (res.filter (fun r => r.flush)).length) else s
  let elems := pokesOf d (res.map (fun r => r.bits)) ++
    (if dType d = tyBS4 then pokesOf dx scales else [])
  { fmt := .t
    enc := modeZero w ++ undefinedField (tSub w != 0) offSub ++ immReserved w (maskOf 0 18 + maskOf 25 7)
    eng := some vecUse
    chk := needEntry a (tDA w) offDA ++ needEntry a (tDO w) offDO ++
      onEntry a (tDA w) (fun da => onEntry a (tDO w) (fun d =>
        cond (decide (1 < dHandle da) || (!dDense da && dHandle da != 0)) 3 offDA ++ cond (!dDense da) 6 offDA ++
        coreDense d offDO ++ cond (!cvtSource (dType da)) 6 offDA ++ cond (!cvtDest (dType d)) 6 offDO ++
        cond (dType da == tyBS4 && dType d == tyBS4) 6 offDO ++
        cond (decide (256 < validCount da)) 7 offDA ++
        cond (decide (validCount da ≤ 256) && validCount da != validCount d) 7 offDO ++
        cvtDxConds a (dType da) (dType d)))
    eff := pushStore s a (latency a.p 6 5) none (.store elems chk) }

/-! ### GRAV (R272 to R275) -/

/-- Max_T of a GRAV target as mantissa and exponent. -/
def gravMax (sub : Nat) : Int × Int :=
  if sub = 0 then maxFinite fmtE4M3 else if sub = 1 then maxFinite fmtE5M2 else if sub = 2 then maxFinite fmtFP16
  else (6, 0)

/-- Granule extents: (columns, rows). -/
def gravGranule (sub : Nat) : Nat × Nat := if sub = 3 then (32, 1) else (128, 128)

/-- The values of a granule's valid elements. -/
def granuleVals (st : Tbl Byte) (da : Image) (g : Nat × Nat) (gc gr : Nat) : List Exact :=
  ((boxOf [g.1, g.2]).filterMap (fun ix => match ix with
    | [i, j] =>
      let c := gc * g.1 + i
      let r := gr * g.2 + j
      if c < dValid da 0 ∧ r < dValid da 1 then some (decodeTy (dType da) (readElem st da [c, r])) else none
    | _ => none))

/-- The Euclidean norm of a list, rounded toward +∞ (R274). -/
def normUp (xs : List Exact) : Word :=
  if xs.any (fun x => !finiteE x) then inf32 false
  else sqrt32 .up (laneVal (laneSum (xs.map (fun x => mulE x x))))

def actGrav (a : At) : Action :=
  let w := a.w
  let st := a.c.store
  let da := entryD a (tDA w)
  let d := entryD a (tDO w)
  let dx := entryD a (tDX w)
  let sub := tSub w
  let g := gravGranule sub
  let cc := dValid da 0
  let rr := dValid da 1
  let occ := ceilDiv (cc * rr * tyWidth (dType da) / 8) 192
  let s := readStore a (operandUnits [da])
  let (mm, me) := gravMax sub
  let scales := (boxOf (validDims d)).map (fun ix => gravScale mm me (granuleVals st da g (ix.getD 0 0) (ix.getD 1 0)))
  let val (c r : Nat) : Exact := decodeTy (dType da) (readElem st da [c, r])
  let lines := (List.range rr).map (fun r => (List.range cc).map (fun c => val c r)) ++
    (List.range cc).map (fun c => (List.range rr).map (fun r => val c r))
  let fails := if fldFlag w 0 then vecFailures a (occ + latency a.p 16 12) (fun j =>
      runningAdds ((lines.getD j []).map (fun x => mulE x x))) else []
  let norms := (detectVals fails (lines.map normUp)).map (fun x => x.toNat)
  let elems := pokesOf d scales ++ (if fldFlag w 0 then pokesOf dx norms else [])
  let chk := detectChk fails (operandsChk s a.n [da])
  { fmt := .t
    enc := modeZero w ++ undefinedField (decide (3 < sub)) offSub
    eng := some { eng := .vector, occ := max 1 occ, busy := max 1 occ }
    chk := needEntry a (tDA w) offDA ++ needEntry a (tDO w) offDO ++
      onEntry a (tDA w) (fun da => coreDense da offDA ++ cond (!laneType (dType da)) 6 offDA ++
        cond (dRank da != 2) 7 offDA ++
        onEntry a (tDO w) (fun d => coreDense d offDO ++ cond (dType d != tyScale) 6 offDO ++
          cond (dValid d 0 != ceilDiv (dValid da 0) g.1 || dValid d 1 != ceilDiv (dValid da 1) g.2 || !rank2ish d)
            7 offDO) ++
        (if fldFlag w 0 then needEntry a (tDX w) offDX ++ onEntry a (tDX w) (fun dx => coreDense dx offDX ++
          cond (dType dx != tyFP32) 6 offDX ++
          cond (dRank dx != 1 || dValid dx 0 != dValid da 0 + dValid da 1) 7 offDX) else []))
    eff := pushStore (detections s a.n fails) a (occ + latency a.p 16 12) none (.store elems chk) }

/-! ### The special-function unit (R299 to R301) -/

/-- The last entry index of a table. -/
def sfuTop : Int := 1023

/-- ⌊x⌋ of an exact number. -/
def floorE (m e : Int) : Int := if 0 ≤ e then m * pow2 e.toNat else m / pow2 (-e).toNat

/-- u, i and t of R300 under a table's configuration. -/
def sfuPlace (c : Core) (tb : Nat) (x : Word) : Nat × Word :=
  let cfg := tget 0 c.sfuConfig tb
  let lo : Word := BitVec.ofNat 32 (bits cfg 0 32)
  let inv : Word := BitVec.ofNat 32 (bits cfg 32 32)
  let u := mul32 (sub32 x lo) inv
  match val32 u with
  | .num m e =>
    let i := (min (max (floorE m e) 0) sfuTop).toNat
    (i, rne32 (addE (.num m e) (.num (-(i : Int)) 0)))
  | .nonfin b => (if isNan32 b || neg32 b then 0 else 1023, if isNan32 b then nan32 else b)

/-- y = rne32(f_i + d_i × t). -/
def sfuEntryAt (c : Core) (tb i : Nat) (t : Word) : Exact :=
  let en := tget 0 c.sfuEntry (1024 * tb + i)
  addE (val32 (BitVec.ofNat 32 (bits en 0 32))) (mulE (val32 (BitVec.ofNat 32 (bits en 32 32))) (val32 t))

/-- The FP32 result of R300; a non-finite x gives NaN. -/
def sfuEval (c : Core) (tb : Nat) (x : Word) : Word :=
  if !finite32 x then nan32
  else let (i, t) := sfuPlace c tb x; rne32 (sfuEntryAt c tb i t)

/-- One table's results over elements, at the places of table `at_` (R300, R301), as elements of type `ty`: y is rounded to
FP32, and then to BF16 where that is the type. -/
def sfuResults (c : Core) (at_ tb : Nat) (ty : Nat) (xs : List Word) : List Nat :=
  xs.map (fun x =>
    narrow ty (if !finite32 x then nan32 else let (i, t) := sfuPlace c at_ x; rne32 (sfuEntryAt c tb i t)))

def sfuUse : EngUse := { eng := .sfu, occ := 1, busy := 1 }

/-- An SFU operand: DENSE in core store; the instruction's only shape kind is 0x03 (assumption 22). -/
def sfuIn (a : At) (k off : Nat) : Conds :=
  needEntry a k off ++ onEntry a k (fun d => coreDense d off ++ cond (!laneType (dType d)) 6 off ++
    cond (decide (64 < validCount d)) 3 off)
def sfuOut (a : At) (k off n : Nat) : Conds :=
  needEntry a k off ++ onEntry a k (fun d => coreDense d off ++
    cond (dType d != tyFP32 && dType d != tyBF16) 6 off ++ cond (decide (n ≤ 64) && validCount d != n) 3 off)

def actSfuEval (a : At) : Action :=
  let w := a.w
  let da := entryD a (tDA w)
  let d := entryD a (tDO w)
  let s := readStore a (operandUnits [da])
  let xs := (rawElems a.c.store da).map (widen (dType da))
  { fmt := .t
    enc := modeZero w ++ undefinedField (decide (3 < tSub w)) offSub
    eng := some sfuUse
    chk := sfuIn a (tDA w) offDA ++ onEntry a (tDA w) (fun da => sfuOut a (tDO w) offDO (validCount da))
    eff := pushStore s a (latency a.p 14 11) none
      (.store (pokesOf d (sfuResults a.c (tSub w) (tSub w) (dType d) xs)) (operandsChk s a.n [da])) }

def actSfuDeriv (a : At) : Action :=
  let w := a.w
  let da := entryD a (tDA w)
  let d := entryD a (tDO w)
  let db := entryD a (tDB w)
  let t0 := 2 * tSub w
  let s := readStore a (operandUnits [da])
  let xs := (rawElems a.c.store da).map (widen (dType da))
  let elems := pokesOf d (sfuResults a.c t0 t0 (dType d) xs) ++ pokesOf db (sfuResults a.c t0 (t0 + 1) (dType db) xs)
  { fmt := .t
    enc := modeZero w ++ undefinedField (decide (1 < tSub w)) offSub
    eng := some sfuUse
    chk := sfuIn a (tDA w) offDA ++ onEntry a (tDA w) (fun da => sfuOut a (tDO w) offDO (validCount da) ++
      sfuOut a (tDB w) offDB (validCount da))
    eff := pushStore s a (latency a.p 14 11) none (.store elems (operandsChk s a.n [da])) }

def actSfuLoad (a : At) : Action :=
  let w := a.w
  let da := entryD a (tDA w)
  let imm := tImm w
  let cfg := imm == 1024
  let s := readStore a (operandUnits [da])
  let el (j : Nat) : Nat := readElem a.c.store da [j]
  { fmt := .t
    enc := modeZero w ++ undefinedField (decide (3 < tSub w)) offSub ++
      cond (!(cfg || (imm % 64 == 0 && decide (imm < 1024)))) 3 offImm
    eng := some sfuUse
    chk := needEntry a (tDA w) offDA ++ onEntry a (tDA w) (fun d => cond (dHandle d != 0) 3 offDA ++
      cond (!dDense d) 6 offDA ++ cond (dType d != tyFP32 || (if cfg then decide (dValid d 0 < 2) else dValid d 0 != 128)) 7 offDA)
    eff := if cfg then
        push s a.n a.sh (latency a.p 14 11) none none
          (.sfuConfig (tSub w) (BitVec.ofNat 32 (el 0)) (BitVec.ofNat 32 (el 1)))
      else push s a.n a.sh (latency a.p 14 11) none none
          (.sfuEntries (tSub w) imm ((List.range 64).map (fun j =>
            BitVec.ofNat 64 (el (2 * j) + el (2 * j + 1) * 2 ^ 32)))) }

def execVecOp (i : Issue) (s : State) : Host.Outcome State Fault Refusal := issueWith 0x30 i s actVecOp
def execVecRed (i : Issue) (s : State) : Host.Outcome State Fault Refusal := issueWith 0x31 i s actVecRed
def execVecCvt (i : Issue) (s : State) : Host.Outcome State Fault Refusal := issueWith 0x32 i s actVecCvt
def execSfuEval (i : Issue) (s : State) : Host.Outcome State Fault Refusal := issueWith 0x38 i s actSfuEval
def execSfuDeriv (i : Issue) (s : State) : Host.Outcome State Fault Refusal := issueWith 0x39 i s actSfuDeriv
def execSfuLoad (i : Issue) (s : State) : Host.Outcome State Fault Refusal := issueWith 0x3A i s actSfuLoad
def execGrav (i : Issue) (s : State) : Host.Outcome State Fault Refusal := issueWith 0x40 i s actGrav

end Sys2Proof.Machine
end

