-- ==== Sys2Proof/Machine/Bobbin.lean ====
section
/-! DEFINITION. Bobbin queues (R93, R94, R155 to R160, R166 to R176, R180, R183 to R185, R329, R330, R411, R562). -/

namespace Sys2Proof.Machine

/-- Request kinds. -/
def bqGet : Nat := 0
def bqPut : Nat := 1
def bqGather : Nat := 2
def bqScatter : Nat := 3
def bqAdd : Nat := 4
def bqSpill : Nat := 5
def bqFill : Nat := 6

def bqReads (k : Nat) : Bool := k == bqGet || k == bqGather || k == bqFill
def bqRows (k : Nat) : Bool := k == bqGather || k == bqScatter || k == bqAdd
def bqTun (k : Nat) : Bool := k == bqSpill || k == bqFill

/-! ### The positions that a request moves -/

/-- The outer indices of a descriptor's rows from dimension 1, `cut` of its dimensions left out. -/
def outerBox (d : Image) (cut : Nat) : List (List Nat) :=
  boxOf ((List.range (dRank d - 1 - cut)).map (fun k => dValid d (k + 1)))

/-- A span whose length is no whole number of bytes, with its last bits apart. -/
def splitBits (x : Span) : List Span :=
  if x.2 % 8 = 0 ∨ x.2 < 8 then [x] else [(x.1, x.2 / 8 * 8), (x.1 + x.2 / 8 * 8, x.2 % 8)]

/-- The valid elements of one row as contiguous spans (R136, R150). -/
def rowSpans (d : Image) (outer : List Nat) : List Span :=
  if dType d = tyTun then
    (List.range (ceilDiv (dValid d 0) 10)).map (fun l =>
      (elemBit d (10 * l :: outer), 48 * min 10 (dValid d 0 - 10 * l)))
  else splitBits (elemBit d (0 :: outer), dValid d 0 * tyWidth (dType d))

/-- Every valid row (GET, PUT). -/
def allSpans (d : Image) : List Span := (outerBox d 0).flatMap (rowSpans d)

/-- The slice at a position of the outermost dimension (R155). -/
def sliceSpans (d : Image) (r : Nat) : List Span :=
  if dRank d = 1 then [(elemBit d [r], tyWidth (dType d))]
  else (outerBox d 1).flatMap (fun o => rowSpans d (o ++ [r]))

/-- Whole tun lines (SPILL, FILL; R168, R411). -/
def lineSpans (d : Image) : List Span :=
  (outerBox d 0).flatMap (fun o => (List.range (ceilDiv (dValid d 0) 10)).map (fun l => (elemBit d (10 * l :: o), 512)))

/-- The outermost dimension. -/
def outerDim (d : Image) : Nat := dRank d - 1

/-- The row of DR that index j names, `none` in DR's padding (R146, R149, R150). -/
def indexRow (st : Tbl Byte) (di dr : Image) (j : Nat) : Option Nat :=
  let r := wrapIndex (readIndex st di j) (dSize dr (outerDim dr))
  if r < dValid dr (outerDim dr) then some r else none

/-- Pair external spans with local ones, row by row of DI where the kind has rows; `none` for a row in DR's padding. -/
def pairRows (st : Tbl Byte) (q : Request) : List (List (Option Nat × Nat × Nat)) :=
  let both (xs ys : List Span) : List (Option Nat × Nat × Nat) := (xs.zip ys).map (fun x => (some x.1.1, x.1.2, x.2.1))
  if !dDense q.dl then
    let len := if q.kind = bqGet then dStride q.dr 1 else dStride q.dl 1
    [[(some (8 * dBase q.dr), 8 * len.toNat, 8 * dBase q.dl)]]
  else if bqTun q.kind then [both (lineSpans q.dr) (lineSpans q.dl)]
  else if bqRows q.kind then
    (List.range (dValid q.di 0)).map (fun j =>
      let l := sliceSpans q.dl j
      match indexRow st q.di q.dr j with
      | some r => both (sliceSpans q.dr r) l
      | none => l.map (fun x => (none, x.2, x.1)))
  else [both (allSpans q.dr) (allSpans q.dl)]

/-- All rows. -/
def pairSpans (st : Tbl Byte) (q : Request) : List (Option Nat × Nat × Nat) := (pairRows st q).flatten

/-- The allocation of a request's DR. -/
def reqAlloc (s : State) (p : Part) (q : Request) : Alloc :=
  (allocAt s p (dHandle q.dr)).getD { start := 0, tier := 0, pq := 0, xport := false, readonly := false, module := 0,
                                      length := 0 }

/-- Where an external bit of DR lies in its tier. -/
def extBit (al : Alloc) (q : Request) (b : Nat) : Nat := (((b : Int) + 8 * (al.start : Int)) + 8 * q.offset).toNat

/-- Cut a segment at every multiple of `g` bits of its external offset. -/
def cutExt (g : Nat) : Nat → Nat × Nat × Nat → List (Nat × Nat × Nat)
  | 0, x => [x]
  | k + 1, (e, n, l) =>
    if e % g + n ≤ g then [(e, n, l)]
    else
      let m := g - e % g
      (e, m, l) :: cutExt g k (e + m, n - m, l + m)

/-- Cut a segment at every 64-byte unit of its local address. -/
def cutLocal : Nat → Nat × Nat × Nat → List (Nat × Nat × Nat)
  | 0, x => [x]
  | k + 1, (e, n, l) =>
    if l % 512 + n ≤ 512 then [(e, n, l)]
    else
      let m := 512 - l % 512
      (e, m, l) :: cutLocal k (e + m, n - m, l + m)

/-- The pieces of some rows outside DR's padding: external bit offset in the tier, bits, local bit address. -/
def extPieces (al : Alloc) (q : Request) (xs : List (Option Nat × Nat × Nat)) : List (Nat × Nat × Nat) :=
  xs.filterMap (fun x => x.1.map (fun e => (extBit al q e, x.2.1, x.2.2)))

/-- The pieces of a whole request. -/
def reqSegs (al : Alloc) (st : Tbl Byte) (q : Request) : List (Nat × Nat × Nat) := extPieces al q (pairSpans st q)

/-- The parts of a request that are cut into segments apart: the rows of a GATHER, else the whole request (R489). -/
def pieceGroups (al : Alloc) (st : Tbl Byte) (q : Request) : List (List (Nat × Nat × Nat)) :=
  if q.kind = bqGather then (pairRows st q).map (extPieces al q) else [reqSegs al st q]

/-- Local spans that take zeros: a gathered row in DR's padding. -/
def zeroSpans (st : Tbl Byte) (q : Request) : List Span :=
  (pairSpans st q).filterMap (fun x => match x.1 with
    | some _ => none
    | none => some (x.2.2, x.2.1))

/-- Segments cut so that each lies in one external and one local unit. -/
def unitSegs (xs : List (Nat × Nat × Nat)) : List (Nat × Nat × Nat) :=
  xs.flatMap (fun x => (cutExt 512 (x.2.1 / 512 + 1) x).flatMap (fun y => cutLocal 2 y))

/-- Spans as zero pokes within units. -/
def zeroPokes (xs : List Span) : List Poke :=
  xs.flatMap (fun x => (cutSpan 512 (x.2 / 512 + 1) x).map (fun y => (y.1, y.2, 0)))

/-- The external units of a request. -/
def reqUnits (al : Alloc) (st : Tbl Byte) (q : Request) : List Nat :=
  spanUnitsOf ((reqSegs al st q).map (fun x => (x.1, x.2.1)))

/-- The units of local source or destination. -/
def localUnits (st : Tbl Byte) (q : Request) : List Nat :=
  spanUnitsOf ((pairSpans st q).map (fun x => (x.2.2, x.2.1)))

/-- The memory on the core's side. -/
def localMem (c : Core) (q : Request) : Tbl Byte := if bqTun q.kind then c.tun else c.store
def localChk (c : Core) (q : Request) : Tbl Chk := if bqTun q.kind then c.tunChk else c.storeChk

/-- Whether any of some units is provisional. -/
def unitsProv (t : Tbl Chk) (us : List Nat) : Bool :=
  match unitsChk t us with
  | .prov _ => true
  | _ => false

/-! ### SCATTER.ADD (R159) -/

/-- A destination element after contributions in ascending j: the compensated sum, rounded once. -/
def scatterAdd (src dst old : Nat) (xs : List Nat) : Nat :=
  let l := xs.foldl (fun l x => laneAdd l (decodeTy src x)) (laneAdd {} (decodeTy dst old))
  if dst = tyTun then tunRound (laneVal l)
  else match tyFp dst with
    | some f => (convert .rne .infinity f (laneVal l)).bits
    | none => 0

/-- The destination rows of an add, each once, with the positions j that name it in ascending order. -/
def addRows (st : Tbl Byte) (q : Request) : List (Nat × List Nat) :=
  let js := List.range (dValid q.di 0)
  ((js.filterMap (indexRow st q.di q.dr)).eraseDups).map (fun r =>
    (r, js.filter (fun j => indexRow st q.di q.dr j == some r)))

/-- The elements of a span. -/
def spanElems (ty : Nat) (x : Span) : List Nat := (List.range (x.2 / tyWidth ty)).map (fun i => x.1 + i * tyWidth ty)

/-- The element addresses of a slice in linear order. -/
def sliceElems (d : Image) (r : Nat) : List Nat := (sliceSpans d r).flatMap (spanElems (dType d))

/-- Every destination element of an add, as external bit offset with the local bit addresses of its contributions. -/
def addElems (al : Alloc) (st : Tbl Byte) (q : Request) : List (Nat × List Nat) :=
  (addRows st q).flatMap (fun x =>
    let ls := x.2.map (sliceElems q.dl)
    (sliceElems q.dr x.1).zipIdx.map (fun e => (extBit al q e.1, ls.map (fun l => l.getD e.2 0))))

/-! ### Read combining (R183) -/

/-- How long an entry lasts: 2,048 NCLK cycles. -/
def combineTime : Nat := 2048 * 8

/-- The key of a unit: module, tier and unit number. -/
def combineKey (module tier unit : Nat) : Nat := module * 2 ^ 40 + tier * 2 ^ 39 + unit

def combineGet (c : Core) (now key : Nat) : Option (List Byte) :=
  (c.combine.find? (fun e => e.unit == key && decide (now < e.fetched + combineTime))).map (fun e => e.data)

/-- A unit fetched anew; with 64 entries the oldest goes (assumption 25). -/
def combinePut (c : Core) (now key : Nat) (data : List Byte) : Core :=
  let l := c.combine.filter (fun e => e.unit != key)
  let l := if l.length < 64 then l else l.drop 1
  { c with combine := l ++ [{ unit := key, data := data, fetched := now }] }

def combineDrop (c : Core) (keys : List Nat) : Core :=
  if c.combine.isEmpty then c else { c with combine := c.combine.filter (fun e => !keys.contains e.unit) }

def combineClear (c : Core) : Core := { c with combine := [] }

/-! ### Departure of a remote request (R483, R489) -/

/-- The fabric address of an external bit offset. -/
def segAddr (al : Alloc) (e : Nat) : Dword := BitVec.ofNat 64 (fabricAddr al.module al.tier al.pq (e / 8))

/-- Pieces cut so that each lies in one external unit. -/
def extUnits (xs : List (Nat × Nat × Nat)) : List (Nat × Nat × Nat) :=
  xs.flatMap (fun x => cutExt 512 (x.2.1 / 512 + 1) x)

/-- The lowest byte of some pieces. -/
def lowestByte : List (Nat × Nat × Nat) → Nat
  | [] => 0
  | x :: t => t.foldl (fun m y => min m (y.1 / 8)) (x.1 / 8)

/-- The segments of pieces that each lie in one unit: one for each 4 KiB of the offset that they touch (R483). -/
def segmentsOf (xs : List (Nat × Nat × Nat)) : List Segment :=
  ((xs.map (fun x => x.1 / 32768)).dedup).map (fun g =>
    let ys := xs.filter (fun x => x.1 / 32768 == g)
    { offset := lowestByte ys, pieces := ys })

/-- The external units of some pieces. -/
def pieceUnits (xs : List (Nat × Nat × Nat)) : List Nat := (xs.map (fun x => x.1 / 512)).dedup

/-- Segments apart for the units that a FAILED source fills, so that only these travel as poison (R562). -/
def splitSegments (bad : List Nat) (xs : List (Nat × Nat × Nat)) : List Segment :=
  if bad.isEmpty then segmentsOf xs
  else segmentsOf (xs.filter (fun x => !bad.contains (x.1 / 512))) ++ segmentsOf (xs.filter (fun x => bad.contains (x.1 / 512)))

/-- Whether any unit that a local span reads is FAILED. -/
def spanFailed (c : Core) (q : Request) (l n : Nat) : Bool :=
  (spanUnitsOf [(l, n)]).any (fun u => tget Chk.clear (localChk c q) u == .failed)

/-- Whether any local unit of a request is FAILED. -/
def sourceFailed (c : Core) (q : Request) : Bool :=
  (localUnits c.store q).any (fun u => tget Chk.clear (localChk c q) u == .failed)

/-- The external units among pieces that a FAILED source fills. -/
def failedUnits (c : Core) (q : Request) (xs : List (Nat × Nat × Nat)) : List Nat :=
  if sourceFailed c q then pieceUnits (xs.filter (fun x => spanFailed c q x.2.2 x.2.1)) else []

/-- Whole units of 64 bytes with elements in place, zero elsewhere: the data slots of a WRITE or TAP. -/
def unitBytes (us : List Nat) (xs : List Poke) : List Byte :=
  let m := pokeAll [] xs
  us.flatMap (fun u => readBytes m (64 * u) 64)

/-- The elements that such data slots bring. -/
def unitElems (xs : List Span) (data : List Byte) : List Poke :=
  let us := spanUnitsOf xs
  (xs.flatMap (fun x => cutSpan 512 (x.2 / 512 + 1) x)).map (fun y =>
    (y.1, y.2, leVal ((data.drop (64 * us.idxOf (y.1 / 512))).take 64) / 2 ^ (y.1 % 512) % 2 ^ y.2))

/-- The data slots of spans of bits and their values. -/
def spanData (xs : List Poke) : List Byte := unitBytes (spanUnitsOf (xs.map (fun x => (x.1, x.2.1)))) xs

/-- Cut a list so that each part costs at most `lim`, or is one entry. -/
def chunkBy {α : Type} (cost : α → Nat) (lim : Nat) : Nat → List α → List α → List (List α)
  | _, cur, [] => if cur.isEmpty then [] else [cur.reverse]
  | used, cur, x :: t =>
    if cur.isEmpty || decide (used + cost x ≤ lim) then chunkBy cost lim (used + cost x) (x :: cur) t
    else cur.reverse :: chunkBy cost lim (cost x) [x] t

/-- The segments of an add as lists of elements: each 4 KiB of the offset apart, and cut again where the contributions
would take more than 64 slots (R483, R488, assumption 26). -/
def addGroups (al : Alloc) (c : Core) (q : Request) : List (List (Nat × List Nat)) :=
  let ws := tyWidth (dType q.dl)
  let es := addElems al c.store q
  let bad := if sourceFailed c q then
      ((es.filter (fun x => x.2.any (fun l => spanFailed c q l ws))).map (fun x => x.1 / 512)).dedup else []
  let parts := [es.filter (fun x => !bad.contains (x.1 / 512)), es.filter (fun x => bad.contains (x.1 / 512))]
  parts.flatMap (fun es => ((es.map (fun x => x.1 / 32768)).dedup).flatMap (fun g =>
    chunkBy (fun (x : Nat × List Nat) => ws / 8 * x.2.length) 4096 0 [] (es.filter (fun x => x.1 / 32768 == g))))

/-- The ADD frame of such a segment: its elements, and for each the contributions in ascending j. -/
def addFrame (al : Alloc) (c : Core) (q : Request) (lc : Nat) (es : List (Nat × List Nat)) : Segment × Frame :=
  let ws := tyWidth (dType q.dl)
  let ps := es.map (fun x => (x.1, tyWidth (dType q.dr), 0))
  let fr := bareFrame fkAdd (segAddr al (8 * lowestByte ps)) lc q.sh q.token
    (.add (BitVec.ofNat 4 (dType q.dl)) (BitVec.ofNat 4 (dType q.dr)) (es.map (fun x => (x.1, x.2.length))))
  ({ offset := lowestByte ps, pieces := ps },
   { fr with data := es.flatMap (fun x => x.2.flatMap (fun l => leBytes (ws / 8) (peek c.store l ws)))
             poison := es.any (fun x => x.2.any (fun l => spanFailed c q l ws)) })

/-- The READ or WRITE frame of a segment. A READ asks for whole units, as DATA brings whole slots. -/
def segFrame (al : Alloc) (c : Core) (q : Request) (lc : Nat) (x : Segment) : Frame :=
  let addr := segAddr al (8 * x.offset)
  if bqReads q.kind then bareFrame fkRead addr lc q.sh q.token (.units (pieceUnits x.pieces))
  else
    { bareFrame fkWrite addr lc q.sh q.token (.spans (x.pieces.map (fun y => (y.1, y.2.1)))) with
      data := spanData (x.pieces.map (fun y => (y.1, y.2.1, peek (localMem c q) y.2.2 y.2.1)))
      poison := x.pieces.any (fun y => spanFailed c q y.2.2 y.2.1) }

/-- Whether the read-combining buffer holds a unit for a read now. -/
def combined (c : Core) (now : Nat) (al : Alloc) (u : Nat) : Bool :=
  (combineGet c now (combineKey al.module al.tier u)).isSome

/-- The value of a piece's bits in the buffer. -/
def combineVal (c : Core) (now : Nat) (al : Alloc) (x : Nat × Nat × Nat) : Nat :=
  leVal ((combineGet c now (combineKey al.module al.tier (x.1 / 512))).getD []) / 2 ^ (x.1 % 512) % 2 ^ x.2.1

/-- A segment as pokes of local bits, each within one unit. -/
def localPokes (l n v : Nat) : List Poke :=
  (cutSpan 512 (n / 512 + 1) (l, n)).map (fun y => (y.1, y.2, v / 2 ^ (y.1 - l) % 2 ^ y.2))

/-- Change one request of a core. -/
def modRequest (s : State) (n k seq : Nat) (g : Request → Request) : State :=
  modCore s n (fun c =>
    let q := tget {} c.queues k
    { c with queues := tset {} c.queues k { q with reqs := q.reqs.map (fun r => if r.seq = seq then g r else r) } })

/-- What ECC finds in the core store and tun as a request reads them (R570): its source, and DI. -/
def requestSram (s : State) (n : Nat) (q : Request) (e : SramEcc) : State :=
  if e = SramEcc.clean then s
  else
    let st := (getCore s n).store
    let index := if bqRows q.kind then descUnits q.di else []
    let source := if bqReads q.kind then [] else localUnits st q
    if bqTun q.kind then sramFound s n id e index source else sramFound s n id e (source ++ index) []

/-- A remote request leaves: its frames go to their ports; its writes drop the core's own buffered units. -/
def departRemote (s0 : State) (p : Part) (n k : Nat) (q : Request) (e : SramEcc) : State :=
  let s := requestSram s0 n q e
  let c := getCore s n
  let al := reqAlloc s p q
  let lc := (logicalOf p n).getD 0
  let now := s.pll
  let mark (segs : List Segment) (got : List Poke) (s : State) : State :=
    modRequest s n k q.seq (fun r => { r with sent := true, segs := segs, got := got, sentAt := now })
  let drop (s : State) : State :=
    modCore s n (fun c => combineDrop c ((reqUnits al c.store q).map (combineKey al.module al.tier)))
  let send (x : Segment) (f : Frame) : Nat × Nat × Frame := (offsetPort p x.offset, al.module, f)
  if q.kind = bqAdd then
    let fs := (addGroups al c q).map (addFrame al c q lc)
    sendAll (drop (mark (fs.map (fun x => x.1)) [] s)) (fs.map (fun x => send x.1 x.2))
  else if bqReads q.kind then
    let groups := (pieceGroups al c.store q).map extUnits
    let hit := groups.flatten.filter (fun x => combined c now al (x.1 / 512))
    let segs := groups.flatMap (fun xs => segmentsOf (xs.filter (fun x => !combined c now al (x.1 / 512))))
    let got := hit.flatMap (fun x => localPokes x.2.2 x.2.1 (combineVal c now al x)) ++ zeroPokes (zeroSpans c.store q)
    sendAll (mark segs got s) (segs.map (fun x => send x (segFrame al c q lc x)))
  else
    let xs := extUnits (reqSegs al c.store q)
    let segs := splitSegments (failedUnits c q xs) xs
    sendAll (drop (mark segs [] s)) (segs.map (fun x => send x (segFrame al c q lc x)))

/-! ### JNL.TAP bytes on their way (R432, R483, R562) -/

/-- The unit of core store behind each byte of a DENSE descriptor's valid extent: that of the byte's first element. -/
def byteUnits (d : Image) : List Nat :=
  let w := tyWidth (dType d)
  if 8 ≤ w then (validElems d).flatMap (fun x => List.replicate (w / 8) (x.1 / 512))
  else ((validElems d).zipIdx.filter (fun x => x.2 * w % 8 == 0)).map (fun x => x.1.1 / 512)

/-- Cut a byte span at every multiple of `g` bytes: (address, length) pairs. -/
def cutBytes (g a n : Nat) : List (Nat × Nat) := (cutSpan (8 * g) (n / g + 1) (8 * a, 8 * n)).map (fun x => (x.1 / 8, x.2 / 8))

/-- A tap drops the units that it writes from the core's own read-combining buffer (R183). -/
def tapDrop (s : State) (n : Nat) (al : Alloc) (off count : Nat) : State :=
  modCore s n (fun c => combineDrop c ((spanUnitsOf [(8 * off, 8 * count)]).map (combineKey al.module al.tier)))

/-- Send the first `count` bytes of a tap's source to a tier offset of an allocation, as they stand now. Where a source
unit is FAILED, each frame fills one unit only, and those with such a source travel as poison. -/
def tapFrames (s : State) (p : Part) (n : Nat) (sh : Shuttle) (d : Image) (al : Alloc) (off count : Nat) :
    List (Nat × Nat × Frame) :=
  let c := getCore s n
  let bs := (extentBytes c.store d).take count
  let us := (byteUnits d).take count
  let failed (u : Nat) : Bool := tget Chk.clear c.storeChk u == .failed
  let lc := (logicalOf p n).getD 0
  (cutBytes (if us.any failed then 64 else 4096) off bs.length).map (fun x =>
    let k := x.1 - off
    let addr := BitVec.ofNat 64 (fabricAddr al.module al.tier al.pq x.1)
    (offsetPort p x.1, al.module,
      { bareFrame fkTap addr lc sh 0 (.spans [(8 * x.1, 8 * x.2)]) with
        data := spanData (localPokes (8 * x.1) (8 * x.2) (leVal ((bs.drop k).take x.2)))
        poison := ((us.drop k).take x.2).any failed }))

/-! ### BQ.ISSUE -/

/-- Whether DI is what R155 asks: DENSE, rank 1, INDEX, in core store (R161). -/
def indexOk (d : Image) : Bool := dDense d && dRank d == 1 && dIndex d && dHandle d == 0

/-- Conditions on a written DI. -/
def indexConds (di : Image) : Conds := cond (!indexOk di) 3 56

/-- Inner valid extents agree (R156). -/
def innerEq (x y : Image) : Bool :=
  (List.range 5).all (fun k => (if k < outerDim x then dValid x k else 1) == (if k < outerDim y then dValid y k else 1))

/-- Conditions on types, formats and shapes (R155, R156, R159, R168, R329, R330). -/
def bqConds (w : InstrWord) (dl dr : Image) : Conds :=
  let k := qKind w
  cond (decide (dHandle dr < 2)) 3 48 ++
  cond (if bqTun k then dHandle dl != 1 || dType dl != tyTun else dHandle dl != 0) 3 40 ++
  cond (bqTun k && dType dr != tyTun) 3 48 ++
  (if k = bqGet ∨ k = bqPut then
    (if dDense dl ∧ dDense dr then
      cond (dType dl != dType dr || (List.range 6).any (fun i => dValid dl i != dValid dr i)) 3 48
    else
      cond (dFmt dl != dFmt dr || dType dl != dType dr ||
        (List.range 6).any (fun i => dSize dl i != dSize dr i || dPad dl i != dPad dr i)) 3 48 ++
      cond (if k = bqGet then decide (dStride dl 1 < dStride dr 1) else decide (dStride dr 1 < dStride dl 1)) 3
        (if k = bqGet then 40 else 48))
  else cond (!dDense dl) 3 40 ++ cond (!dDense dr) 3 48) ++
  (if bqRows k then
    cond (!innerEq dl dr) 3 48 ++
    (if k = bqAdd then
      cond (dType dl != tyFP32 && dType dl != tyBF16) 3 40 ++
      cond (dType dr != tyFP32 && dType dr != tyBF16 && dType dr != tyTun) 3 48
    else cond (dType dl != dType dr) 3 48)
  else [])

/-- The AO offset (R148). -/
def aoOffset (a : At) : Int := if fldFlag a.w 2 then (tget 0 a.r.a (qAO a.w)).toInt else 0

/-- Whether the range of R139, moved by AO, stays inside the allocation. -/
def rangeIn (dr : Image) (off : Int) (len : Nat) : Bool :=
  let (lo, hi) := byteRange dr
  decide (0 ≤ lo + off) && decide (hi + off < (len : Int))

/-- The token of a request (R93). -/
def tokenOf (queue seq : Nat) : Nat := 2 ^ 15 + queue * 2 ^ 11 + seq

/-- An earlier request of the queue that has not completed and overlaps this one (R180). -/
def blockedBy (s : State) (p : Part) (c : Core) (k : Nat) (q : Request) : Bool :=
  let mine := reqUnits (reqAlloc s p q) c.store q
  let al := reqAlloc s p q
  ((tget {} c.queues k).reqs.takeWhile (fun r => r.seq != q.seq)).any (fun r =>
    let bl := reqAlloc s p r
    !r.complete && r.dest == q.dest && bl.tier == al.tier && (reqUnits bl c.store r).any (fun u => mine.contains u))

/-- The state with a request posted and, when nothing holds it, a remote one on its way. A remote one that overlaps an
earlier request of its queue is held until that has performed (R180). -/
def postRequest (a : At) : State :=
  let w := a.w
  let k := qKind w
  let qn := qQN w
  let dl := entryD a (qDL w)
  let dr := entryD a (qDR w)
  let di := entryD a (qDI w)
  let q := tget {} a.c.queues qn
  let acq := fldFlag w 0
  let rel := fldFlag w 1
  let al := allocAt a.s a.p (dHandle dr)
  let remote := match al with
    | some x => if x.module = ownIndex a.s then none else some x.module
    | none => none
  let level := if remote.isSome then 3 else 2
  let (s, id) := newAccess a.s a.n a.sh level (.bobbin qn q.next) rel false []
  let c := getCore s a.n
  let r0 : Request :=
    { seq := q.next, kind := k, dl := dl, dr := dr, di := di, offset := aoOffset a, access := id, sh := a.sh,
      token := BitVec.ofNat 16 (tokenOf qn q.next), acq := acq, held := false, complete := false, poisoned := false,
      dest := remote, sent := false, segs := [], got := [], bad := [], sentAt := 0 }
  let prov := !bqReads k && unitsProv (localChk c r0) (localUnits c.store r0)
  let late := remote.isSome && blockedBy a.s a.p a.c qn r0
  let held := prov || late || mustHold (shOf c a.sh) id rel
  let r := { r0 with held := held }
  let s := setCore s a.n { modSh c a.sh (fun x => { x with
      acquiring := if acq then x.acquiring ++ [id] else x.acquiring
      accesses := x.accesses.map (fun y => if y.id = id then { y with held := held } else y) }) with
    queues := tset {} c.queues qn { q with next := (q.next + 1) % 2048, reqs := q.reqs ++ [r] } }
  let s := pushReg s a (192 + qQT w) 1 (tokenOf qn q.next)
  if remote.isSome && !held then departRemote s a.p a.n qn r (sramOf a.ups) else s

def actBqIssue (a : At) : Action :=
  let w := a.w
  let k := qKind w
  let al := onEntry a (qDR w) (fun dr => match allocAt a.s a.p (dHandle dr) with
    | none => []
    | some x => cond (!rangeIn dr (aoOffset a) x.length || (x.readonly && !bqReads k)) 0x0A x.module)
  { fmt := .q
    enc := undefinedField (k == 7) 69
    chk := needEntry a (qDL w) 40 ++ needEntry a (qDR w) 48 ++ (if bqRows k then needEntry a (qDI w) 56 else []) ++
      onEntry a (qDL w) (fun dl => onEntry a (qDR w) (fun dr => bqConds w dl dr)) ++
      (if bqRows k then onEntry a (qDI w) (fun di => indexConds di ++
        onEntry a (qDL w) (fun dl => cond (dValid dl (outerDim dl) != dValid di 0) 3 40)) else []) ++
      cond (aoOffset a % 64 != 0) 3 64 ++
      cond (decide (32 ≤ (tget {} a.c.queues (qQN w)).reqs.length)) 9 (qQN w) ++ al
    eff := postRequest a }

def execBqIssue (i : Issue) (s : State) : Host.Outcome State Fault Refusal := issueWith 0x18 i s actBqIssue

/-! ### BOBBIN_REQUEST_COMPLETE -/

/-- The request of a queue with a sequence number. -/
def findRequest (c : Core) (k seq : Nat) : Option Request := (tget {} c.queues k).reqs.find? (fun r => r.seq == seq)

/-- Whether a request's local source waits for a verdict (R562). -/
def sourceProv (c : Core) (q : Request) : Bool :=
  !bqReads q.kind && unitsProv (localChk c q) (localUnits c.store q)

/-- Values for local pokes of poisoned units: unspecified bytes (R175, assumption 6). -/
def garbage : Nat → List Poke → List Poke
  | _, [] => []
  | d, x :: t => (x.1, x.2.1, leVal (drawBytes d ((x.2.1 + 7) / 8)) % 2 ^ x.2.1) :: garbage (d + 64) t

/-- Write what a read brought into DL: zeros and data CLEAR, poisoned units FAILED (R559). -/
def deliver (s : State) (n : Nat) (q : Request) (good bad : List Poke) : State :=
  let junk := garbage s.draws bad
  let s := { s with draws := s.draws + 64 * bad.length }
  modCore s n (fun c =>
    let put (c : Core) (xs : List Poke) (k : Chk) : Core :=
      if xs.isEmpty then c else if bqTun q.kind then tunPokes c xs k else storeElems c xs k
    put (put c good .clear) junk .failed)

/-- A request has completed: it performs, and an acquire drops what was fetched before (R185). -/
def finishRequest (s : State) (n k : Nat) (q : Request) (poisoned : Bool) : State :=
  let s := modRequest s n k q.seq (fun r => { r with complete := true, poisoned := r.poisoned || poisoned })
  let s := if q.acq then modCore s n combineClear else s
  performAccess s n q.sh q.access

/-- A unit as this core reads it: the buffer's copy, or memory's (R183). -/
def unitValue (s : State) (c : Core) (al : Alloc) (u : Nat) : Nat :=
  match combineGet c s.pll (combineKey al.module al.tier u) with
  | some bs => leVal bs
  | none => leVal (readBytes (tierMem s (tierOf al.tier)) (64 * u) 64)

/-- A local read: GET, GATHER, FILL. -/
def localRead (s0 : State) (p : Part) (n k : Nat) (q : Request) (ecc : MemEcc) (sram : SramEcc) : State :=
  let s := requestSram s0 n q sram
  let c := getCore s n
  let al := reqAlloc s p q
  let t := tierOf al.tier
  let us := (reqUnits al c.store q)
  let fetched := us.filter (fun u => (combineGet c s.pll (combineKey al.module al.tier u)).isNone)
  let s := eccRead s t p.low fetched ecc
  let segs := unitSegs (reqSegs al c.store q)
  let isBad (u : Nat) : Bool := fetched.contains u && isPoisoned s t u
  let val (x : Nat × Nat × Nat) : Poke := (x.2.2, x.2.1, unitValue s c al (x.1 / 512) / 2 ^ (x.1 % 512) % 2 ^ x.2.1)
  let good := (segs.filter (fun x => !isBad (x.1 / 512))).map val ++ zeroPokes (zeroSpans c.store q)
  let bad := (segs.filter (fun x => isBad (x.1 / 512))).map val
  let s := deliver s n q good bad
  let s := (fetched.filter (fun u => !isBad u)).foldl (fun s u => modCore s n (fun c =>
    combinePut c s.pll (combineKey al.module al.tier u) (readBytes (tierMem s t) (64 * u) 64))) s
  finishRequest s n k q (us.any isBad)

/-- The pokes of a local write, and the units that a FAILED source fills. -/
def writePokes (c : Core) (al : Alloc) (q : Request) : List Poke × List Nat :=
  let segs := unitSegs (reqSegs al c.store q)
  (segs.map (fun x => (x.1, x.2.1, peek (localMem c q) x.2.2 x.2.1)), failedUnits c q segs)

/-- The pokes of a local SCATTER.ADD. -/
def addPokes (s : State) (c : Core) (al : Alloc) (q : Request) : List Poke × List Nat :=
  let wd := tyWidth (dType q.dr)
  let ws := tyWidth (dType q.dl)
  let es := addElems al c.store q
  (es.map (fun x => (x.1, wd, scatterAdd (dType q.dl) (dType q.dr) (peek (tierMem s (tierOf al.tier)) x.1 wd)
      (x.2.map (fun l => peek c.store l ws)))),
   ((es.filter (fun x => x.2.any (fun l => spanFailed c q l ws))).map (fun x => x.1 / 512)).dedup)

/-- A local write: PUT, SCATTER, SCATTER.ADD, SPILL. Host-held lines are invalidated first (R514). -/
def localWrite (s0 : State) (p : Part) (n k : Nat) (q : Request) (ecc : MemEcc) (sram : SramEcc) : State :=
  let al := reqAlloc s0 p q
  let t := tierOf al.tier
  let us := reqUnits al (getCore s0 n).store q
  let lines := heldLines s0 t us
  if !lines.isEmpty then snoopLines s0 lines
  else
    let s := requestSram s0 n q sram
    let c := getCore s n
    let s := if q.kind = bqAdd then eccRead s t p.low us ecc else s
    let old := if q.kind = bqAdd then us.filter (isPoisoned s t) else []
    let (pokes, failed) := if q.kind = bqAdd then addPokes s c al q else writePokes c al q
    let s := writeMem s t pokes
    let s := (failed ++ old).foldl (fun s u => if isPoisoned s t u then s else poisonUnit s t u) s
    let s := modCore s n (fun c => combineDrop c (us.map (combineKey al.module al.tier)))
    finishRequest s n k q (!old.isEmpty)

/-- A remote request whose segments have all been answered; its writes have performed and drop the core's own buffered
units (R183). -/
def remoteDone (s : State) (p : Part) (n k : Nat) (q : Request) : State :=
  let al := reqAlloc s p q
  let s := if bqReads q.kind then deliver s n q q.got q.bad
    else modCore s n (fun c => combineDrop c ((reqUnits al c.store q).map (combineKey al.module al.tier)))
  finishRequest s n k q false

/-- BOBBIN_REQUEST_COMPLETE: a request that nothing holds or precedes moves its bytes and completes. -/
def execBobbinRequestComplete (core : Fin 192) (queue : Fin 16) (seq : Fin 2048) (ecc : MemEcc) (sram : SramEcc)
    (s0 : State) : Host.Outcome State Fault Refusal :=
  let n := core.val
  let s := landAll s0 n
  let c := getCore s n
  match corePart s n, findRequest c queue.val seq.val with
  | some p, some q =>
    if q.complete || q.held || sourceProv c q || blockedBy s p c queue.val q then .next s
    else if q.dest.isSome then
      .next (if q.sent && q.segs.isEmpty then remoteDone s p n queue.val q else s)
    else .next (if bqReads q.kind then localRead s p n queue.val q ecc sram else localWrite s p n queue.val q ecc sram)
  | _, _ => .next s

/-- REMOTE_REQUEST_TIMEOUT: PORT_REQ_TIMEOUT after its link engine took it, a remote request without all its responses
completes poisoned (R176). -/
def execRemoteRequestTimeout (core : Fin 192) (queue : Fin 16) (seq : Fin 2048) (s : State) :
    Host.Outcome State Fault Refusal :=
  let n := core.val
  match findRequest (getCore s n) queue.val seq.val with
  | some q =>
    if q.sent && !q.complete && !q.segs.isEmpty && decide (q.sentAt + us (bits s.reqTimeout 0 20) ≤ s.pll) then
      let lost := q.segs.flatMap (fun x => x.pieces.flatMap (fun y => localPokes y.2.2 y.2.1 0))
      let s := if bqReads q.kind then deliver s n q q.got (q.bad ++ lost) else s
      .next (finishRequest s n queue.val q true)
    else .next s
  | none => .next s

end Sys2Proof.Machine
end

