-- ==== Sys2Proof/Machine/Sparse.lean ====
section
/-! DEFINITION. Sparse regions (R305 to R325): the header, the metadata checks of R323 in the order of R324, and the
stored positions of each format in stored order. -/

namespace Sys2Proof.Machine

/-- A region header (R306). -/
abbrev Header := BitVec 512

def hFmt (h : Header) : Nat := bits h 0 4
def hVtype (h : Header) : Nat := bits h 8 4
def hP0 (h : Header) : Nat := bits h 16 8
def hP1 (h : Header) : Nat := bits h 24 8
def hRows (h : Header) : Nat := bits h 32 32
def hCols (h : Header) : Nat := bits h 64 32
def hNnz (h : Header) : Nat := bits h 96 32
def hNseg (h : Header) : Nat := bits h 128 32
def hMetaOff (h : Header) : Nat := bits h 160 32
def hMetaLen (h : Header) : Nat := bits h 192 32
def hValOff (h : Header) : Nat := bits h 224 32
def hValLen (h : Header) : Nat := bits h 256 32
def hGen (h : Header) : Nat := bits h 288 32

/-- The header of the region that a descriptor names. -/
def headerOf (st : Tbl Byte) (d : Image) : Header := imageAt st (dBase d)

/-- A 32-bit word of an array in core store. -/
def rd32 (st : Tbl Byte) (addr i : Nat) : Nat := leVal (readBytes st (addr + 4 * i) 4)
def rd16 (st : Tbl Byte) (addr i : Nat) : Nat := leVal (readBytes st (addr + 2 * i) 2)
def rd64 (st : Tbl Byte) (addr i : Nat) : Nat := leVal (readBytes st (addr + 8 * i) 8)

/-- A failed metadata check: kind, ROW, ENTRY (R323). -/
abbrev Meta := Nat × Nat × Nat

def metaLt (a b : Meta) : Bool :=
  decide (a.1 < b.1) || (a.1 == b.1 && (decide (a.2.1 < b.2.1) || (a.2.1 == b.2.1 && decide (a.2.2 < b.2.2))))

/-- The check that R324 reports. -/
def worstMeta : List Meta → Option Meta
  | [] => none
  | x :: t => match worstMeta t with
    | none => some x
    | some y => if metaLt y x then some y else some x

def mcond (b : Bool) (k r e : Nat) : List Meta := if b then [(k, r, e)] else []

/-! ### Where the arrays lie -/

def metaAt (st : Tbl Byte) (d : Image) : Nat := dBase d + hMetaOff (headerOf st d)
def valAt (st : Tbl Byte) (d : Image) : Nat := dBase d + hValOff (headerOf st d)

/-- BSR16 (R311). -/
def bsrRows (d : Image) : Nat := dSize d 1 / 16
def bsrColAt (st : Tbl Byte) (d : Image) : Nat := metaAt st d + r64 (4 * (bsrRows d + 1))
def bsrMapAt (st : Tbl Byte) (d : Image) : Nat := bsrColAt st d + r64 (4 * hNseg (headerOf st d))

/-- CSRT (R315). -/
def csrtTileC (h : Header) : Nat := 2 ^ hP0 h
def csrtTC (h : Header) (d : Image) : Nat := ceilDiv (dSize d 0) (csrtTileC h)
def csrtIdxAt (st : Tbl Byte) (d : Image) : Nat := metaAt st d + r64 (516 * hNseg (headerOf st d))

/-- BMP64 (R317). -/
def bmpG (d : Image) : Nat := ceilDiv (dSize d 0) 64
def bmpMapAt (st : Tbl Byte) (d : Image) : Nat := metaAt st d + r64 (4 * (dSize d 1 + 1))

/-- PAIR (R319). -/
def pairEntAt (st : Tbl Byte) (d : Image) : Nat := metaAt st d + r64 (4 * (2 ^ hP0 (headerOf st d) + 1))
/-- The bucket of a key. -/
def pairBucket (h k : Nat) : Nat := k * 0x9E3779B1 % 2 ^ 32 / 2 ^ (32 - h)
def pairKey (e : Nat) : Nat := e % 2 ^ 24
def pairOther (e : Nat) : Nat := e / 2 ^ 24 % 2 ^ 24

/-- IVQ frame length (R321). -/
def ivqLen (ty count : Nat) : Nat := r64 (16 + (2 + tyWidth ty / 8) * count)

/-- Frame addresses and counts, as the COUNT fields chain them (R320, R321). -/
def ivqFrames (st : Tbl Byte) (ty : Nat) : Nat → Nat → List (Nat × Nat)
  | 0, _ => []
  | n + 1, addr =>
    let c := rd32 st (addr + 8) 0
    (addr, c) :: ivqFrames st ty n (addr + ivqLen ty c)

/-! ### Header checks -/

/-- Kind 0x01, Identity. -/
def checkIdentity (h : Header) (d : Image) : List Meta :=
  mcond (hFmt h != dFmt d || hVtype h != dType d || bits h 4 4 != 0 || bits h 12 4 != 0 || bits h 320 192 != 0) 1 0 0

/-- Parameters and shape multiples of R307. -/
def paramsOk (h : Header) (d : Image) : Bool :=
  let f := dFmt d
  let p0 := hP0 h
  let p1 := hP1 h
  let nm := decide (2 ≤ p1) && decide (p1 ≤ 16) && decide (1 ≤ p0) && decide (p0 < p1) && dSize d 0 % p1 == 0
  if f = fmBSR then p0 == 0 && p1 == 0 && dSize d 0 % 16 == 0 && dSize d 1 % 16 == 0
  else if f = fmNM then nm
  else if f = fmNMT then nm && dSize d 1 % p1 == 0
  else if f = fmCSRT then decide (10 ≤ p0) && decide (p0 ≤ 16) && p1 == 0
  else if f = fmPAIR then decide (4 ≤ p0) && decide (p0 ≤ 16) && decide (p1 ≤ 1)
  else p0 == 0 && p1 == 0

/-- Kind 0x02, Shape. -/
def checkShape (h : Header) (d : Image) : List Meta :=
  mcond (hRows h != dSize d 1 || hCols h != dSize d 0 || dRank d != 2 || !paramsOk h d) 2 0 0

/-- Kind 0x03, Placement. -/
def checkPlacement (h : Header) (d : Image) : List Meta :=
  mcond (decide (hMetaOff h < 64) || hMetaOff h % 64 != 0 || hValOff h % 64 != 0 ||
    decide (hValOff h < hMetaOff h + hMetaLen h) || decide (dStride d 1 < ((hValOff h + hValLen h : Nat) : Int))) 3 0 0

/-- META_LEN of each format (R311 to R319); IVQ's is the sum of its frames. -/
def metaLenOf (h : Header) (d : Image) : Nat :=
  let f := dFmt d
  let z := hNnz h
  if f = fmBSR then r64 (4 * (bsrRows d + 1)) + r64 (4 * hNseg h) + r64 (32 * hNseg h)
  else if f = fmNM ∨ f = fmNMT then r64 ((z + 1) / 2)
  else if f = fmCSRT then r64 (516 * hNseg h) + r64 (2 * z)
  else if f = fmBMP then r64 (4 * (dSize d 1 + 1)) + r64 (8 * dSize d 1 * bmpG d)
  else r64 (4 * (2 ^ hP0 h + 1)) + r64 (8 * z)

/-- NSEG of each format (R307); BSR16 counts its stored blocks itself. -/
def nsegOk (h : Header) (d : Image) : Bool :=
  let f := dFmt d
  if f = fmBSR then true
  else if f = fmCSRT then hNseg h == ceilDiv (dSize d 1) 128 * csrtTC h d
  else if f = fmIVQ then hNseg h == ceilDiv (dSize d 0 * dSize d 1) 65536
  else hNseg h == 0

/-- VAL_LEN (R308). -/
def valLenOf (h : Header) (d : Image) : Nat :=
  if dType d = tyBit ∨ dFmt d = fmIVQ then 0 else r64 (hNnz h * tyWidth (dType d) / 8)

/-- Kind 0x04, Length. -/
def checkLength (st : Tbl Byte) (h : Header) (d : Image) : List Meta :=
  let ivqBad :=
    if dFmt d = fmIVQ ∧ nsegOk h d then
      let fr := ivqFrames st (dType d) (hNseg h) (metaAt st d)
      (fr.map (fun x => ivqLen (dType d) x.2)).sum != hMetaLen h || (fr.map (fun x => x.2)).sum != hNnz h
    else hMetaLen h != metaLenOf h d
  mcond (!nsegOk h d || hValLen h != valLenOf h d || ivqBad) 4 0 0

/-! ### Metadata checks -/

/-- Kind 0x05 for a pointer array of n + 1 entries that must end at `last`. -/
def checkPointers (st : Tbl Byte) (addr n last : Nat) : List Meta :=
  mcond (rd32 st addr 0 != 0) 5 0 0 ++
  (List.range n).flatMap (fun i => mcond (decide (rd32 st addr (i + 1) < rd32 st addr i)) 5 (i + 1) 0) ++
  mcond (rd32 st addr n != last) 5 n 0

/-- Entry numbers of one run between two pointers. -/
def runOf (st : Tbl Byte) (addr i : Nat) : List Nat :=
  (List.range (rd32 st addr (i + 1) - rd32 st addr i)).map (fun j => rd32 st addr i + j)

/-- Set bits of a number below a width, ascending. -/
def setBitsOf (w x : Nat) : List Nat := (List.range w).filter (fun i => x.testBit i)

def checkBsr (st : Tbl Byte) (h : Header) (d : Image) : List Meta :=
  let bp := metaAt st d
  let ca := bsrColAt st d
  let ma := bsrMapAt st d
  let ptr := checkPointers st bp (bsrRows d) (hNseg h)
  if !ptr.isEmpty then ptr
  else
    (List.range (bsrRows d)).flatMap (fun b => (runOf st bp b).flatMap (fun j =>
      mcond (decide (dSize d 0 / 16 ≤ rd32 st ca j)) 6 b j ++
      mcond (decide (rd32 st bp b < j) && decide (rd32 st ca j ≤ rd32 st ca (j - 1))) 7 b j)) ++
    mcond (((List.range (hNseg h)).map (fun j =>
      (setBitsOf 256 (leVal (readBytes st (ma + 32 * j) 32))).length)).sum != hNnz h) 9 0 0

/-- Nibble j of an N:M position array (R313). -/
def nibble (st : Tbl Byte) (addr j : Nat) : Nat := leVal (readBytes st (addr + j / 2) 1) / 16 ^ (j % 2) % 16

/-- Stored positions of an N:M region as (row, column), in nibble order. -/
def nmPositions (st : Tbl Byte) (h : Header) (d : Image) : List (Nat × Nat) :=
  let n := hP0 h
  let m := hP1 h
  let perRow := dSize d 0 / m * n
  (List.range (hNnz h)).map (fun j => (j / perRow, j % perRow / n * m + nibble st (metaAt st d) j))

def checkNm (st : Tbl Byte) (h : Header) (d : Image) : List Meta :=
  let n := hP0 h
  let m := hP1 h
  let perRow := dSize d 0 / m * n
  let ma := metaAt st d
  let order := (List.range (hNnz h)).flatMap (fun j =>
    mcond (decide (m ≤ nibble st ma j)) 6 (j / perRow) j ++
    mcond (j % n != 0 && decide (nibble st ma j ≤ nibble st ma (j - 1))) 7 (j / perRow) j)
  if hNnz h * m ≠ dSize d 1 * dSize d 0 * n then order ++ [(8, 0, 0)]
  else if dFmt d = fmNMT then
    let ps := nmPositions st h d
    order ++ (List.range (dSize d 1 / m)).flatMap (fun g => (List.range (dSize d 0)).flatMap (fun c =>
      mcond ((ps.filter (fun x => x.1 / m == g && x.2 == c)).length != n) 0xA g c))
  else order

def checkCsrt (st : Tbl Byte) (h : Header) (d : Image) : List Meta :=
  let rp := metaAt st d
  let ia := csrtIdxAt st d
  let tc := csrtTC h d
  let n := 129 * hNseg h
  let ptr := mcond (rd32 st rp 0 != 0) 5 0 0 ++
    (List.range (n - 1)).flatMap (fun i =>
      mcond (decide (rd32 st rp (i + 1) < rd32 st rp i) ||
        (i % 129 == 128 && rd32 st rp (i + 1) != rd32 st rp i)) 5 (i + 1) 0) ++
    mcond (rd32 st rp (n - 1) != hNnz h) 5 (n - 1) 0
  if !ptr.isEmpty then ptr
  else (List.range (hNseg h)).flatMap (fun t => (List.range 128).flatMap (fun r =>
    (runOf st rp (129 * t + r)).flatMap (fun j =>
      let c := rd16 st ia j
      mcond (decide (csrtTileC h ≤ c) || decide (dSize d 0 ≤ t % tc * csrtTileC h + c) ||
        decide (dSize d 1 ≤ t / tc * 128 + r)) 6 t j ++
      mcond (decide (rd32 st rp (129 * t + r) < j) && decide (c ≤ rd16 st ia (j - 1))) 7 t j)))

def checkBmp (st : Tbl Byte) (h : Header) (d : Image) : List Meta :=
  let rp := metaAt st d
  let ma := bmpMapAt st d
  let ptr := checkPointers st rp (dSize d 1) (hNnz h)
  if !ptr.isEmpty then ptr
  else (List.range (dSize d 1)).flatMap (fun r =>
    let cols := (List.range (bmpG d)).flatMap (fun g =>
      (setBitsOf 64 (rd64 st ma (r * bmpG d + g))).map (fun c => 64 * g + c))
    (cols.filter (fun c => decide (dSize d 0 ≤ c))).map (fun c => (6, r, c)) ++
    mcond (cols.length != rd32 st rp (r + 1) - rd32 st rp r) 9 r 0)

def checkPair (st : Tbl Byte) (h : Header) (d : Image) : List Meta :=
  let da := metaAt st d
  let ea := pairEntAt st d
  let ptr := checkPointers st da (2 ^ hP0 h) (hNnz h)
  let keyMax := dSize d (hP1 h)
  let othMax := dSize d (1 - hP1 h)
  if !ptr.isEmpty then ptr
  else (List.range (2 ^ hP0 h)).flatMap (fun b => (runOf st da b).flatMap (fun j =>
    let e := rd64 st ea j
    let p := rd64 st ea (j - 1)
    mcond (decide (keyMax ≤ pairKey e) || decide (othMax ≤ pairOther e) || decide (2 ^ 48 ≤ e)) 6 b j ++
    mcond (decide (rd32 st da b < j) && (decide (pairKey e < pairKey p) ||
      (pairKey e == pairKey p && decide (pairOther e ≤ pairOther p)))) 7 b j ++
    mcond (pairBucket (hP0 h) (pairKey e) != b) 0xB b j))

def checkIvq (st : Tbl Byte) (h : Header) (d : Image) : List Meta :=
  (ivqFrames st (dType d) (hNseg h) (metaAt st d)).zipIdx.flatMap (fun x =>
    let (fr, f) := x
    let b0 := leVal (readBytes st fr.1 4)
    let off (j : Nat) : Nat := rd16 st (fr.1 + 16) j
    (List.range fr.2).flatMap (fun j =>
      mcond (decide (dSize d 0 * dSize d 1 ≤ 65536 * f + off j)) 6 f j ++
      mcond (decide (0 < j) && decide (off j ≤ off (j - 1))) 7 f j) ++
    mcond (b0 % 256 != 0xA5 || b0 / 256 % 256 != dType d || b0 / 2 ^ 24 % 256 != 0 || rd32 st fr.1 1 != f ||
      decide (65536 < fr.2)) 0xC f 0)

/-- Every metadata check of a region (R322, R323); those of the arrays run only on a header that passes. -/
def regionChecks (st : Tbl Byte) (d : Image) : List Meta :=
  let h := headerOf st d
  let head := checkIdentity h d ++ checkShape h d ++ checkPlacement h d
  let head := if head.isEmpty then checkLength st h d else head
  if !head.isEmpty then head
  else
    let f := dFmt d
    if f = fmBSR then checkBsr st h d
    else if f = fmNM ∨ f = fmNMT then checkNm st h d
    else if f = fmCSRT then checkCsrt st h d
    else if f = fmBMP then checkBmp st h d
    else if f = fmPAIR then checkPair st h d
    else checkIvq st h d

/-! ### Stored positions -/

/-- A stored position: row, column and the bit address of its value. -/
structure Stored where
  row : Nat
  col : Nat
  addr : Nat
  deriving DecidableEq, Repr

/-- Rows and columns in stored order, for formats whose values form one array. -/
def storedCoords (st : Tbl Byte) (d : Image) : List (Nat × Nat) :=
  let h := headerOf st d
  let f := dFmt d
  if f = fmBSR then
    (List.range (bsrRows d)).flatMap (fun b => (runOf st (metaAt st d) b).flatMap (fun j =>
      (setBitsOf 256 (leVal (readBytes st (bsrMapAt st d + 32 * j) 32))).map (fun i =>
        (16 * b + i / 16, 16 * rd32 st (bsrColAt st d) j + i % 16))))
  else if f = fmNM ∨ f = fmNMT then nmPositions st h d
  else if f = fmCSRT then
    (List.range (hNseg h)).flatMap (fun t => (List.range 128).flatMap (fun r =>
      (runOf st (metaAt st d) (129 * t + r)).map (fun j =>
        (t / csrtTC h d * 128 + r, t % csrtTC h d * csrtTileC h + rd16 st (csrtIdxAt st d) j))))
  else if f = fmBMP then
    (List.range (dSize d 1)).flatMap (fun r => (List.range (bmpG d)).flatMap (fun g =>
      (setBitsOf 64 (rd64 st (bmpMapAt st d) (r * bmpG d + g))).map (fun c => (r, 64 * g + c))))
  else
    (List.range (hNnz h)).map (fun j =>
      let e := rd64 st (pairEntAt st d) j
      if hP1 h = 0 then (pairOther e, pairKey e) else (pairKey e, pairOther e))

/-- The stored positions of a region in stored order (R308, R320, R321). -/
def storedOf (st : Tbl Byte) (d : Image) : List Stored :=
  let w := tyWidth (dType d)
  if dFmt d = fmIVQ then
    (ivqFrames st (dType d) (hNseg (headerOf st d)) (metaAt st d)).zipIdx.flatMap (fun x =>
      (List.range x.1.2).map (fun j =>
        let l := 65536 * x.2 + rd16 st (x.1.1 + 16) j
        { row := l / dSize d 0, col := l % dSize d 0, addr := 8 * (x.1.1 + 16 + 2 * x.1.2) + w * j }))
  else
    (storedCoords st d).zipIdx.map (fun x =>
      { row := x.1.1, col := x.1.2, addr := 8 * valAt st d + w * x.2 })

/-- The value of a stored position; one in padding reads as zero (R310). -/
def storedVal (st : Tbl Byte) (d : Image) (x : Stored) : Exact :=
  if inValid d 0 [x.col, x.row] then decodeTy (dType d) (peek st x.addr (tyWidth (dType d))) else Exact.zero

/-- The units that a reader of a region touches: header, metadata and values. -/
def regionUnits (st : Tbl Byte) (d : Image) : List Nat :=
  let h := headerOf st d
  spanUnits (dBase d) 64 ++ spanUnits (metaAt st d) (hMetaLen h) ++ spanUnits (valAt st d) (hValLen h)

/-- Units that an operand of either kind reads. -/
def anyUnits (st : Tbl Byte) (d : Image) : List Nat := if dDense d then descUnits d else regionUnits st d

/-- Whether a GEN is ahead of G (R400). -/
def aheadOf (g cur : Nat) : Bool :=
  let x := (g + 2 ^ 32 - cur % 2 ^ 32) % 2 ^ 32
  decide (1 ≤ x) && decide (x ≤ 2 ^ 31 - 1)

end Sys2Proof.Machine
end

