-- ==== Sys2Proof/Machine/Casks.lean ====
section
/-! DEFINITION. The casks (R442 to R477, R565, R571, R595, R618): frames that are accepted, held back or discarded, the
exact grid, the ledger and verdicts, deadlines, sealing, and the norm groups. -/

namespace Sys2Proof.Machine

/-! ### Counters of a cask, by CASK_ page offset (21_register_map) -/

def caskTrunc : Nat := 0x10
def caskDup : Nat := 0x18
def caskMismatch : Nat := 0x20
def caskSub : Nat := 0x28
def caskBackup : Nat := 0x30
def caskWithheld : Nat := 0x38
def caskLate : Nat := 0x40
def caskSelvFail : Nat := 0x48

/-! ### Buckets in a cask -/

/-- A bucket in a cask: physical cask, lowest quadrant of its partition, identifier. -/
structure CaskLoc where
  k : Nat
  low : Nat
  b : Half
  deriving DecidableEq, Repr

def bucketAt (s : State) (l : CaskLoc) : Option CaskBucket :=
  (getCask s l.k).buckets.find? (fun x => x.low == l.low && x.bucket == l.b)

def modBucket (s : State) (l : CaskLoc) (g : CaskBucket → CaskBucket) : State :=
  modCask s l.k (fun c => { c with buckets := c.buckets.map (fun x =>
    if x.low = l.low ∧ x.bucket = l.b then g x else x) })

/-- The record that a partition opened a bucket with. -/
def bucketRec (p : Part) (b : Half) : Option BucketRec := (p.buckets.find? (fun x => x.1 == b)).map (fun x => x.2)

/-- The contributors of a record (R442). -/
def contributors (r : BucketRec) : List Nat := (List.range 64).filter (fun m => bit r.contrib m)

/-- The backup of a contributor (R445). -/
def backupOf (r : BucketRec) (m : Nat) : Nat := (r.backup.getD m 0xFF).toNat

/-- Sections of 65,536 elements, units of 256 (R462 to R464). -/
def sectionCount (r : BucketRec) : Nat := ceilDiv r.elems 65536
def sectionUnits (r : BucketRec) (i : Nat) : List Nat :=
  (List.range 256).map (fun j => 256 * i + j) |>.filter (fun u => decide (256 * u < r.elems))

/-- The key of a contributor's unit. -/
def unitKey (m u : Nat) : Nat := 2 ^ 20 * m + u
def unitOf (x : CaskBucket) (m u : Nat) : CaskUnit := tget {} x.units (unitKey m u)
def setUnit (x : CaskBucket) (m u : Nat) (y : CaskUnit) : CaskBucket := { x with units := tset {} x.units (unitKey m u) y }

/-- What DETAIL of a record about a bucket adds to the fields of its kind: THIN of the module's own record of the bucket (R442),
0 where it has none. -/
def thinDetail (s : State) (low : Nat) (b : Half) : Nat :=
  ((partAt s low).bind (fun p => bucketRec p b)).elim 0 (fun (r : BucketRec) => r.thin * 2 ^ 40)

/-- What DETAIL of a record that names a cask adds (R462, R571): the physical cask, and THIN (assumption 28). -/
def caskDetail (s : State) (k low : Nat) (b : Half) : Nat := k * 2 ^ 32 + thinDetail s low b

/-- A record that names a cask: its die, the partition's lowest quadrant, engine 7. -/
def caskRecord (s : State) (l : CaskLoc) (kind detail : Nat) : State :=
  record s { kind := kind, detail := detail + caskDetail s l.k l.low l.b, die := l.k / 4, quad := l.low, engine := 7 }

/-- DETAIL of a record that names a bucket, a module and a second value (assumption 28). -/
def bucketDetail (b : Half) (m x : Nat) : Nat := b.toNat + m * 2 ^ 16 + x * 2 ^ 24

/-! ### The exact grid (R457 to R461) -/

/-- 16-bit elements of bytes. -/
def halves : List Byte → List Nat
  | a :: b :: t => (a.toNat + 256 * b.toNat) :: halves t
  | _ => []

/-- One BF16 element in grid units of 2^(A − 117), with whether a nonzero remainder is discarded; `none` when it is
non-finite or its exponent exceeds A (R459, R460). -/
def gridUnits (a : Int) (raw : Nat) : Option (Int × Bool) :=
  match decodeFp fmtBF16 raw with
  | .nonfin _ => none
  | .num m e =>
    match expoE m e with
    | none => some (0, false)
    | some x =>
      if a < x then none
      else
        let k := e - (a - 117)
        if 0 ≤ k then some (m * pow2 k.toNat, false)
        else
          let q := m.tdiv (pow2 (-k).toNat)
          some (q, q * pow2 (-k).toNat != m)

/-- The elements of a unit with what each adds. -/
def unitTerms (a : Int) (u : Nat) (bytes : List Byte) : List (Nat × Option (Int × Bool)) :=
  (halves bytes).zipIdx.map (fun x => (256 * u + x.2, gridUnits a x.1))

/-- Add a unit's placed elements to the cells, or take them off again (R459, R466). -/
def addCells (cells : Tbl Int) (terms : List (Nat × Option (Int × Bool))) (sign : Int) : Tbl Int :=
  terms.foldl (fun t x => match x.2 with
    | some (q, _) => tset 0 t x.1 (tget 0 t x.1 + sign * q)
    | none => t) cells

/-! ### Withholding and verdicts (R466, R468) -/

/-- Whether a verdict that a cask keeps speaks of a unit of a copy. -/
def keptFor (v : CaskVerdict) (m u : Nat) (backup : Bool) : Bool :=
  v.speaksFor == m && v.backup == backup && v.units.contains u

/-- Take a unit out of the verdicts that `g` picks; a landed verdict with no unit left goes. -/
def dropKept (vs : List CaskVerdict) (g : CaskVerdict → Bool) (u : Nat) : List CaskVerdict :=
  (vs.map (fun v => if g v then
      { v with units := v.units.filter (fun w => w != u), waiting := v.waiting.filter (fun w => w != u) } else v)).filter
    (fun v => !v.landed || !v.units.isEmpty)

/-- A unit whose ledger copy is subtracted: its cells are restored, and it is absent again. Verdicts of that copy that are
still to come no longer meet it. -/
def subtractUnit (x : CaskBucket) (m u : Nat) : CaskBucket :=
  let y := unitOf x m u
  match y.ledger, x.anchor with
  | some bytes, some a =>
    setUnit { x with
      cells := addCells x.cells (unitTerms a u bytes) (-1)
      verdicts := dropKept x.verdicts (fun v => v.selv && keptFor v m u y.backup && !v.waiting.contains u) u } m u
      { comparedOwn := y.comparedOwn
        comparedBackup := y.comparedBackup
        staleOwn := y.staleOwn + flag (y.awaitsPiece && !y.backup)
        staleBackup := y.staleBackup + flag (y.awaitsPiece && y.backup) }
  | _, _ => x

/-- A contributor's units that lie in the ledger. -/
def ledgerUnits (x : CaskBucket) (m : Nat) : List Nat :=
  (x.units.filter (fun y => y.1 / 2 ^ 20 == m && y.2.ledger.isSome)).map (fun y => y.1 % 2 ^ 20)

/-- Ledger bytes in use. -/
def ledgerUsed (x : CaskBucket) : Nat := 512 * (x.units.filter (fun y => y.2.ledger.isSome)).length

/-- Withhold a contributor (R468). -/
def withhold (s : State) (l : CaskLoc) (m : Nat) : State :=
  match bucketAt s l with
  | none => s
  | some x =>
    if x.withheld.contains m then s
    else
      let us := ledgerUnits x m
      let s := modBucket s l (fun x =>
        let x := us.foldl (fun x u => subtractUnit x m u) x
        { x with withheld := x.withheld ++ [m], withheldMark := true
                 verdicts := x.verdicts.filter (fun v => v.speaksFor != m)
                 building := x.building.filter (fun v => v.speaksFor != m) })
      let s := bumpCask s l.k caskWithheld 1
      let s := if us.isEmpty then s else bumpCask s l.k caskSub us.length
      caskRecord s l 0x24 (bucketDetail l.b m 0)

/-- A verdict resolves one unit's ledger copy, if it was placed by the same copy: a failure subtracts it, a pass frees it
once no other verdict is awaited (R466, R595). -/
def judgeUnit (s : State) (l : CaskLoc) (m u : Nat) (backup selv pass : Bool) : State :=
  match bucketAt s l with
  | none => s
  | some x =>
    let y := unitOf x m u
    if y.ledger.isNone || y.backup != backup then s
    else
      let y := if selv then { y with awaitsSelv := false } else { y with awaitsPiece := false }
      if !pass then bumpCask (modBucket s l (fun x => subtractUnit (setUnit x m u y) m u)) l.k caskSub 1
      else
        let y := if y.awaitsPiece || y.awaitsSelv then y else { y with ledger := none }
        modBucket s l (fun x => setUnit x m u y)

/-- Verdicts to come of copies that the selvedge check has subtracted. -/
def staleOf (y : CaskUnit) (backup : Bool) : Nat := if backup then y.staleBackup else y.staleOwn

/-- Whether a unit's ledger copy came from a copy and awaits its piece's verdict. -/
def awaitsFrom (y : CaskUnit) (backup : Bool) : Bool := y.ledger.isSome && y.backup == backup && y.awaitsPiece

/-- Whether a unit has been accepted from a copy, so that a verdict on it need not be kept (R565). -/
def acceptedCopy (y : CaskUnit) (backup : Bool) : Bool :=
  decide (0 < staleOf y backup) || awaitsFrom y backup || decide (0 < if backup then y.comparedBackup else y.comparedOwn)

/-- A piece's verdict meets a unit. Verdicts come in the order of their pieces: that of a subtracted copy first, then that of
the ledger copy, then those of compared copies. -/
def meetVerdict (s : State) (l : CaskLoc) (m u : Nat) (backup pass : Bool) : State :=
  match bucketAt s l with
  | none => s
  | some x =>
    let y := unitOf x m u
    if 0 < staleOf y backup then modBucket s l (fun x => setUnit x m u
      (if backup then { y with staleBackup := y.staleBackup - 1 } else { y with staleOwn := y.staleOwn - 1 }))
    else if awaitsFrom y backup then judgeUnit s l m u backup false pass
    else modBucket s l (fun x => setUnit x m u
      (if backup then { y with comparedBackup := y.comparedBackup - 1 } else { y with comparedOwn := y.comparedOwn - 1 }))

/-! ### Accepting a unit (R464 to R467) -/

/-- Whether a selvedge check covers a unit that its piece has yet to bring. -/
def checksNext (v : CaskVerdict) (m u : Nat) (backup : Bool) : Bool :=
  v.selv && v.speaksFor == m && v.backup == backup && v.waiting.contains u

/-- The first piece verdict kept for a unit applies to it on its acceptance, and loses it (R565). -/
def applyPiece (s : State) (l : CaskLoc) (m u : Nat) (backup : Bool) : State :=
  match (bucketAt s l).bind (fun x => x.verdicts.find? (fun v => !v.selv && keptFor v m u backup)) with
  | none => s
  | some v =>
    meetVerdict (modBucket s l (fun x => { x with verdicts := dropKept x.verdicts (fun w => w.id == v.id) u }))
      l m u backup v.pass

/-- The selvedge check of the unit's piece applies as well: at once when it has landed, or when it lands (R595). -/
def applySelv (s : State) (l : CaskLoc) (m u : Nat) (backup : Bool) : State :=
  match (bucketAt s l).bind (fun x => x.verdicts.find? (fun v => checksNext v m u backup)) with
  | none => s
  | some v =>
    if v.landed then
      judgeUnit (modBucket s l (fun x => { x with verdicts := dropKept x.verdicts (fun w => w.id == v.id) u }))
        l m u backup true v.pass
    else modBucket s l (fun x => { x with verdicts := x.verdicts.map (fun w =>
      if w.id = v.id then { w with waiting := w.waiting.filter (fun y => y != u) } else w) })

/-- What becomes of one unit: acted on, or held back. -/
inductive UnitEnd where
  | done (s : State)
  | held

/-- A unit that is absent is placed; one that is provisional needs ledger space (R465 to R467). -/
def placeUnit (s : State) (l : CaskLoc) (r : BucketRec) (x : CaskBucket) (a : Int) (m u sender : Nat)
    (backup prov selv : Bool) (bytes : List Byte) : UnitEnd :=
  if (prov || selv) && decide (1024 * r.ledgerKb < ledgerUsed x + 512) then .held
  else
    let terms := unitTerms a u bytes
    let y : CaskUnit := { unitOf x m u with
      added := true, own := !backup, crc := BitVec.ofNat 32 (crc32c bytes), sender := sender, backup := backup
      ledger := if prov || selv then some bytes else none, awaitsPiece := prov, awaitsSelv := selv }
    let bad := terms.any (fun t => t.2.isNone)
    let fresh := bad && !x.nonfinSeen.contains m
    let s := modBucket s l (fun x => setUnit { x with
      cells := addCells x.cells terms 1
      nonfin := x.nonfin || bad
      nonfinSeen := if fresh then x.nonfinSeen ++ [m] else x.nonfinSeen } m u y)
    let lost := (terms.filter (fun t => match t.2 with | some (_, true) => true | _ => false)).length
    let s := if lost = 0 then s else bumpCask s l.k caskTrunc lost
    let s := if fresh then caskRecord s l 0x21 (bucketDetail l.b sender (flag backup)) else s
    let s := if prov then applyPiece s l m u backup else s
    .done (applySelv s l m u backup)

/-- A unit that is already added or held is compared (R465). -/
def compareUnit (s : State) (l : CaskLoc) (x : CaskBucket) (m u sender : Nat) (backup prov : Bool) (bytes : List Byte) : State :=
  let y := unitOf x m u
  let same := y.crc == BitVec.ofNat 32 (crc32c bytes)
  let y' := { y with
    own := y.own || (same && !backup)
    comparedOwn := y.comparedOwn + flag (prov && !backup)
    comparedBackup := y.comparedBackup + flag (prov && backup) }
  let s := modBucket s l (fun x =>
    setUnit { x with verdicts := dropKept x.verdicts (fun v => checksNext v m u backup) u } m u y')
  let s := if prov then applyPiece s l m u backup else s
  if same then bumpCask s l.k caskDup 1
  else
    let s := bumpCask s l.k caskMismatch 1
    let s := caskRecord s l 0x22 (bucketDetail l.b y.sender sender)
    withhold s l m

/-- A unit of a piece reaches the cask. -/
def acceptUnit (s : State) (l : CaskLoc) (r : BucketRec) (m u sender : Nat) (backup prov : Bool) (bytes : List Byte) : UnitEnd :=
  match bucketAt s l with
  | none => .held
  | some x =>
    match x.anchor with
    | none => .held
    | some a =>
      let sec := u / 256
      if x.withheld.contains m then .done s
      else if sec < x.sealedCount ∨ x.sealedCount + 1 < sec then .held
      else if (unitOf x m u).added then .done (compareUnit s l x m u sender backup prov bytes)
      else placeUnit s l r x a m u sender backup prov (x.verdicts.any (fun v => checksNext v m u backup)) bytes

/-- Units in order until one is held back; what is left of the data, when one is. -/
def acceptUnits (l : CaskLoc) (r : BucketRec) (m sender : Nat) (backup prov : Bool) :
    Nat → Nat → List Byte → State → State × Option (Nat × List Byte)
  | 0, _, _, s => (s, none)
  | n + 1, u, bytes, s =>
    match acceptUnit s l r m u sender backup prov (bytes.take 512) with
    | .done s => acceptUnits l r m sender backup prov n (u + 1) (bytes.drop 512) s
    | .held => (s, some (u, bytes))

/-! ### Headers (R446, R453, R457, R463, R469) -/

/-- The anchor is fixed once every contributor is resolved for its header (R457). -/
def fixAnchor (s : State) (l : CaskLoc) (r : BucketRec) : State :=
  modBucket s l (fun x =>
    if x.anchor.isNone && (contributors r).all (fun m => x.headers.contains m || x.withheld.contains m) then
      { x with anchor := some (max (-16) x.largest), anchorAt := s.pll }
    else x)

/-- A header is accepted; the first starts the deadline clock (R468). -/
def acceptHeader (s : State) (l : CaskLoc) (r : BucketRec) (m : Nat) (e : Int) : State :=
  fixAnchor (modBucket s l (fun x => { x with
    clock := match x.clock with | some t => some t | none => some s.pll
    headers := if x.headers.contains m then x.headers else x.headers ++ [m]
    largest := max x.largest e })) l r

/-! ### Discards (R462, R463, R469, R618) -/

/-- Whole units that a frame carries; none for a header or a verdict. -/
def frameUnits (f : Frame) : Nat :=
  match f.inline with
  | .piece count ivq part _ => if ivq then (if part = 0 then count / 256 else 0) else f.data.length / 512
  | _ => 0

/-- The contributor that a frame speaks for (R450). -/
def speaksFor (rx : Rx) : Nat := if rx.frame.backup then rx.frame.standIn else rx.sender

/-- A frame discarded as late at a cask (R463): one record per contributor and bucket. -/
def discardLate (s : State) (k : Nat) (rx : Rx) (record_ : Bool) : State :=
  let f := rx.frame
  let s := bumpCask s k caskLate (frameUnits f)
  let low := faLow f.addr
  let key := (speaksFor rx, (faBucket f.addr).toNat + low * 2 ^ 16 + f.tag.toNat * 2 ^ 20)
  if record_ && !(getCask s k).lateSeen.contains key then
    let s := modCask s k (fun c => { c with lateSeen := c.lateSeen ++ [key] })
    record s { kind := 0x23, detail := bucketDetail (faBucket f.addr) rx.sender 0 + caskDetail s k low (faBucket f.addr)
               die := k / 4, engine := 7
               quad := if (partAt s low).isSome then low else 0xFF }
  else s

/-- An invalid frame (R469). -/
def discardInvalid (s : State) (l : CaskLoc) (rx : Rx) : State :=
  caskRecord (bumpCask s l.k caskLate (frameUnits rx.frame)) l 0x23 (bucketDetail l.b rx.sender 0)

/-! ### IVQ pieces (R508, R595) -/

/-- The frames of IVQ bytes: each frame's bytes. -/
def ivqCut : Nat → List Byte → List (List Byte)
  | 0, _ => []
  | n + 1, bs =>
    if bs.length < 16 then []
    else
      let len := ivqLen tyBF16 (leVal ((bs.drop 8).take 4))
      bs.take len :: ivqCut n (bs.drop len)

/-- Dense BF16 bytes of an IVQ piece of `count` elements; absent elements are +0. -/
def ivqDense (count : Nat) (bs : List Byte) : List Byte :=
  let m : Tbl Byte := (ivqCut (count / 65536 + 1) bs).foldl (fun m fr =>
    let c := leVal ((fr.drop 8).take 4)
    let chunk := leVal ((fr.drop 4).take 4)
    (List.range c).foldl (fun m j =>
      let e := 65536 * chunk + leVal ((fr.drop (16 + 2 * j)).take 2)
      if e < count then writeBytes m (placed (2 * e) ((fr.drop (16 + 2 * c + 2 * j)).take 2)) else m) m) []
  readBytes m 0 (2 * count)

/-- The check of the frames of a piece under the cask's registers (R595, R593): every CHECK agrees, and every tally after
the first follows the one before. -/
def selvPieceOk (cfg : Word × Word × Word) (count : Nat) (bs : List Byte) : Bool :=
  let (ctrl, poly, init) := cfg
  let w := bits ctrl 1 6
  let frames := ivqCut (count / 65536 + 1) bs
  let checks := frames.all (fun fr =>
    crcResult w (poly.toNat % 2 ^ w) init.toNat (bit ctrl 7) (bit ctrl 8) (bit ctrl 9) (fr.take 12 ++ fr.drop 16)
      == leVal ((fr.drop 12).take 4))
  let tallies := frames.map (fun fr => (fr.getD 2 0).toNat)
  checks && (tallies.zip (tallies.drop 1)).all (fun x => x.2 == (x.1 + 1) % 256)

/-! ### Resolution (R468) -/

/-- Whether a contributor is resolved for the units of a section (R468). -/
def unitsResolved (x : CaskBucket) (r : BucketRec) (i m : Nat) : Bool :=
  let us := sectionUnits r i
  us.all (fun u => (unitOf x m u).own) ||
  (x.elapsed.contains i && us.all (fun u => (unitOf x m u).added && (unitOf x m u).ledger.isNone))

/-- Whether a contributor is resolved for the slice, with a unit that only the backup gave (R468). -/
def throughBackup (x : CaskBucket) (r : BucketRec) (m : Nat) : Bool :=
  !x.withheld.contains m && (List.range (sectionCount r)).all (fun i => decide (i < x.sealedCount) || unitsResolved x r i m) &&
  (List.range (r.elems / 256)).any (fun u => !(unitOf x m u).own && (unitOf x m u).added)

/-- Count the contributors that have come to be resolved through a backup copy, once each (R468). -/
def countBackups (s : State) (l : CaskLoc) : State :=
  match bucketAt s l, (partAt s l.low).bind (fun p => bucketRec p l.b) with
  | some x, some r =>
    let ms := (contributors r).filter (fun m => !x.backedUp.contains m && throughBackup x r m)
    if ms.isEmpty then s
    else bumpCask (modBucket s l (fun x => { x with backedUp := x.backedUp ++ ms })) l.k caskBackup ms.length
  | _, _ => s

/-! ### Acting on a frame -/

/-- What a cask does with a frame: it has acted, or it holds back what is left. -/
inductive CaskEnd where
  | acted (s : State)
  | hold (s : State) (rest : Frame)

/-- Place the units of a BF16 piece, or of an expanded IVQ piece. -/
def caskPlace (s : State) (l : CaskLoc) (r : BucketRec) (rx : Rx) (m : Nat) : CaskEnd :=
  let f := rx.frame
  let off := faElem f.addr
  match acceptUnits l r m rx.sender f.backup f.prov (f.data.length / 512) (off / 256) f.data s with
  | (s, none) => .acted (countBackups s l)
  | (s, some (u, bytes)) =>
    .hold (countBackups s l) { f with addr := caskAddr l.b (faCask f.addr) l.low (256 * u), data := bytes }

/-- One frame of an IVQ piece: kept until the last, then expanded, and checked while EN is 1 (R508, R595). -/
def caskIvq (s : State) (l : CaskLoc) (r : BucketRec) (rx : Rx) (m : Nat) (cfg : Word × Word × Word)
    (count part parts : Nat) : CaskEnd :=
  let f := rx.frame
  let off := faElem f.addr
  match bucketAt s l with
  | none => .acted s
  | some x =>
    let mine (y : Building) : Bool :=
      y.sender == rx.sender && y.speaksFor == m && y.backup == f.backup && y.offset == off
    let old := x.building.find? mine
    let cfg := match old with | some y => y.cfg | none => cfg
    let bytes := (match old with | some y => y.bytes | none => []) ++ f.data
    let rest := x.building.filter (fun y => !mine y)
    if part + 1 < parts then
      .acted (modBucket s l (fun x => { x with building := rest ++
        [{ sender := rx.sender, speaksFor := m, backup := f.backup, offset := off, cfg := cfg, bytes := bytes }] }))
    else
      let v : List CaskVerdict := if bit cfg.1 0 then
          [{ id := s.nextHeld, speaksFor := m, backup := f.backup, selv := true, sender := rx.sender
             pass := selvPieceOk cfg count bytes, landed := false
             units := (List.range (count / 256)).map (fun i => off / 256 + i)
             waiting := (List.range (count / 256)).map (fun i => off / 256 + i) }]
        else []
      let s := modBucket { s with nextHeld := s.nextHeld + 1 } l (fun x => { x with building := rest, verdicts := x.verdicts ++ v })
      caskPlace s l r { rx with frame := { f with data := ivqDense count bytes, inline := .piece count false 0 1 } } m

/-- A VERDICT frame: units already accepted are judged, the others keep the verdict (R466, R565). -/
def caskVerdict (s : State) (l : CaskLoc) (r : BucketRec) (rx : Rx) (m off count : Nat) (pass : Bool) : State :=
  match bucketAt s l with
  | none => s
  | some x =>
    let b := rx.frame.backup
    let us := ((List.range (count / 256)).map (fun i => off / 256 + i)).filter (fun u => decide (256 * u < r.elems))
    let now := us.filter (fun u => acceptedCopy (unitOf x m u) b)
    let later := us.filter (fun u => !acceptedCopy (unitOf x m u) b)
    let s := countBackups (now.foldl (fun s u => meetVerdict s l m u b pass) s) l
    if later.isEmpty then s
    else modBucket { s with nextHeld := s.nextHeld + 1 } l (fun x => { x with verdicts := x.verdicts ++
      [{ id := s.nextHeld, speaksFor := m, backup := b, selv := false, sender := rx.sender, pass := pass,
         landed := true, units := later, waiting := [] }] })

/-- A frame for an open bucket whose tag matches (R463 to R469). -/
def caskAccept (s : State) (l : CaskLoc) (r : BucketRec) (x : CaskBucket) (rx : Rx)
    (cfg : Word × Word × Word) : CaskEnd :=
  let f := rx.frame
  let m := speaksFor rx
  let off := faElem f.addr
  if !bit r.contrib m || (f.backup && backupOf r m != rx.sender) then .acted (discardInvalid s l rx)
  else if x.withheld.contains m then .acted s
  else match f.inline with
  | .header e _ count digest =>
    if count ≠ r.elems ∨ digest ≠ r.digest then .acted (discardInvalid s l rx)
    else .acted (acceptHeader s l r m e)
  | .piece count ivq part parts =>
    let n := if ivq then count else f.data.length / 2
    if off % 256 ≠ 0 ∨ n % 256 ≠ 0 ∨ r.elems < off + n then .acted (discardInvalid s l rx)
    else if ivq then caskIvq s l r rx m cfg count part parts
    else caskPlace s l r rx m
  | .verdict voff count pass => .acted (caskVerdict s l r rx m voff count pass)
  | _ => .acted s

/-- Where a cask frame belongs and what is done with it there (R462, R463, R618). -/
def caskAct (s : State) (rx : Rx) (cfg : Word × Word × Word) : CaskEnd :=
  let f := rx.frame
  let b := faBucket f.addr
  let j := faCask f.addr
  let beside := rx.port.val
  match partAt s (faLow f.addr) with
  | none => .acted (discardLate s beside rx true)
  | some p =>
    if p.reset.isSome || (p.afterReset && p.ctx == .empty) then
      .acted (discardLate s (if j < caskCount p then caskOf p j else beside) rx false)
    else if caskCount p ≤ j then .acted (discardLate s beside rx true)
    else
      let l : CaskLoc := { k := caskOf p j, low := p.low, b := b }
      match bucketAt s l, bucketRec p b with
      | some x, some r =>
        let d := (f.tag - x.tag).toNat
        if d = 0 then caskAccept s l r x rx cfg
        else if d ≤ 32767 then .hold s f
        else .acted (discardLate s l.k rx true)
      | _, _ =>
        if f.kind = fkVerdict ∧ p.closed.contains (b, f.tag) then .acted s
        else if (f.tag - (getQuad s p.low).jnlIndex.truncate 16).toNat ≤ 32767 then .hold s f
        else .acted (discardLate s l.k rx true)

/-- The acknowledgement of a frame that a cask has acted on, on the port it came on (R455, R483); it repeats the frame's
address, tag, source and INLINE content (assumption 9). -/
def caskAck (s : State) (rx : Rx) : State :=
  let f := rx.frame
  sendTo s (rx.port.val, rx.sender, { bareFrame fkCaskAck f.addr f.srcCore f.srcShuttle f.tag f.inline with backup := f.backup })

/-- The cask whose link engine a frame waits in: the one beside the port it came on (R33). -/
def sameLane (x y : Rx) : Bool := x.port == y.port && x.sender == y.sender && vlOf x.frame == vlOf y.frame

/-- The selvedge registers that a frame met on arrival (R596): those kept with its first slot, or over the mesh those in
force. -/
def metCfg (s : State) (rx : Rx) : Word × Word × Word :=
  let c := getCask s rx.port.val
  (((getPort s rx.port.val).delivered.find? (onLane rx.sender (vlOf rx.frame))).bind (fun x => x.cfg)).getD
    (c.selvCtrl, c.selvPoly, c.selvInit)

/-- A cask frame reaches its link engine: behind a held frame of its lane it waits as well (R492). -/
def caskArrive (s : State) (rx : Rx) (cfg : Word × Word × Word) : State :=
  let k := rx.port.val
  let n := (frameSlots rx.frame).length
  let c := getCask s k
  let keep (s : State) (f : Frame) : State :=
    modCask { s with nextHeld := s.nextHeld + 1 } k (fun c => { c with held := c.held ++
      [{ id := s.nextHeld, rx := { rx with frame := f }, slots := n, cfg := cfg }] })
  if c.held.any (fun h => sameLane h.rx rx) then keep s rx.frame
  else match caskAct s rx cfg with
    | .acted s => freeRx (caskAck s rx) rx n
    | .hold s f => keep s f

/-- A cask frame of one kind is received. -/
def caskReceive (kind : Byte) (rx : Rx) (s : State) : Host.Outcome State Fault Refusal :=
  if rx.frame.kind = kind then
    match takeRx s rx with
    | some t => .next (caskArrive t rx (metCfg s rx))
    | none => .next s
  else .next s

/-- Whether a cask takes a piece in: its bucket is open with the piece's tag in a partition that no reset has emptied, and the
frame is one of R463's that it neither holds back nor discards. -/
def takesPiece (s : State) (l : CaskLoc) (p : Part) (rx : Rx) : Bool :=
  let m := speaksFor rx
  !(p.reset.isSome || (p.afterReset && p.ctx == .empty)) && decide (faCask rx.frame.addr < caskCount p) &&
  match bucketAt s l, bucketRec p l.b with
  | some x, some r =>
    rx.frame.tag == x.tag && x.anchor.isSome && bit r.contrib m && (!rx.frame.backup || backupOf r m == rx.sender) &&
    !x.withheld.contains m && decide (faElem rx.frame.addr < r.elems)
  | _, _ => false

/-- A double-bit error that the cask finds in its own SRAM while it places a piece: the bucket is withheld in the cask
(R571). -/
def caskSram (s : State) (rx : Rx) : State :=
  let f := rx.frame
  match partAt s (faLow f.addr) with
  | none => s
  | some p =>
    let l : CaskLoc := { k := caskOf p (faCask f.addr), low := p.low, b := faBucket f.addr }
    if takesPiece s l p rx then
      caskRecord (modBucket s l (fun x => { x with withheldMark := true })) l 0x14 (2 * faElem f.addr)
    else s

def execCaskHdrReceive (rx : Rx) (s : State) : Host.Outcome State Fault Refusal := caskReceive fkCaskHdr rx s

def execCaskPieceReceive (rx : Rx) (sramDouble : Bool) (s : State) : Host.Outcome State Fault Refusal :=
  if sramDouble ∧ rx.frame.kind = fkPiece ∧ (takeRx s rx).isSome then caskReceive fkPiece rx (caskSram s rx)
  else caskReceive fkPiece rx s

def execVerdictReceive (rx : Rx) (s : State) : Host.Outcome State Fault Refusal := caskReceive fkVerdict rx s

/-- A held frame goes on as far as its cask can act on it (R463, R464, R467). -/
def releaseFrame (k : Nat) (s : State) (h : HeldFrame) : State :=
  match caskAct s h.rx h.cfg with
  | .acted s =>
    let s := modCask s k (fun c => { c with held := c.held.filter (fun x => x.id != h.id) })
    freeRx (caskAck s h.rx) h.rx h.slots
  | .hold s f => modCask s k (fun c => { c with held := c.held.map (fun x =>
      if x.id = h.id then { x with rx := { x.rx with frame := f } } else x) })

/-- The frames held for a partition that a reset covers are discarded: its casks hold none (R618). -/
def discardHeld (s : State) (p : Part) : State :=
  (List.range 8).foldl (fun s k =>
    ((getCask s k).held.filter (fun h => faLow h.rx.frame.addr == p.low)).foldl (releaseFrame k) s) s

/-- HELD_FRAME_RELEASE: a held frame that is first of its lane is acted on once the cask can (R463, R464, R467, R492). -/
def execHeldFrameRelease (cask : Fin 8) (id : Nat) (s : State) : Host.Outcome State Fault Refusal :=
  let c := getCask s cask.val
  match c.held.find? (fun h => h.id == id) with
  | none => .next s
  | some h =>
    if (c.held.takeWhile (fun x => x.id != id)).any (fun x => sameLane x.rx h.rx) then .next s
    else .next (releaseFrame cask.val s h)

/-- CASK_SELV_VERDICT: the port unit's check of an IVQ piece lands as a verdict (R595). -/
def execCaskSelvVerdict (cask : Fin 8) (id : Nat) (s : State) : Host.Outcome State Fault Refusal :=
  let k := cask.val
  match (getCask s k).buckets.findSome? (fun x => (x.verdicts.find? (fun v => v.id == id && v.selv && !v.landed)).map
      (fun v => (x, v))) with
  | none => .next s
  | some (x, v) =>
    let l : CaskLoc := { k := k, low := x.low, b := x.bucket }
    let s := if v.pass then s
      else record (bumpCask s k caskSelvFail 1)
        { kind := 0x64, detail := bucketDetail x.bucket v.sender 0, die := k / 4, quad := l.low, engine := 7 }
    let now := v.units.filter (fun u => !v.waiting.contains u)
    let later := v.units.filter (fun u => v.waiting.contains u)
    let s := modBucket s l (fun x => { x with verdicts := (x.verdicts.map (fun y =>
      if y.id = id then { y with landed := true, units := later } else y)).filter (fun y => y.id != id || !later.isEmpty) })
    .next (countBackups (now.foldl (fun s u => judgeUnit s l v.speaksFor u v.backup true v.pass) s) l)

/-! ### Norm groups (R472, R473) -/

/-- A lane as the pair of R252: sum and error. -/
def pairOf (l : Lane) : Word × Word :=
  if laneNonfin l then (l.sum, 0)
  else
    let c := (convert .rne .infinity fmtFP32 (laneVal l)).bits
    let sum : Word := BitVec.ofNat 32 c
    match val32 sum with
    | .num _ _ => (sum, rne32 (addE (laneVal l) (negE (val32 sum))))
    | .nonfin _ => (sum, 0)

/-- The two members of a pair enter a lane in order (R472). -/
def addPair (l : Lane) (x : Word × Word) : Lane := laneAdd (laneAdd l (val32 x.1)) (val32 x.2)

/-- The cask buckets of a partition's bucket, in ascending cask index. -/
def caskBuckets (s : State) (p : Part) (b : Half) : List CaskBucket :=
  (partCasks p).filterMap (fun k => bucketAt s { k := k, low := p.low, b := b })

/-- Whether a bucket is sealed in every cask of its partition (R471). -/
def bucketSealed (s : State) (p : Part) (b : Half) : Bool :=
  match bucketRec p b with
  | some r => (caskBuckets s p b).all (fun x => x.sealedCount == sectionCount r)
  | none => false

/-- Insert an identifier in ascending order. -/
def insHalf (b : Half) : List Half → List Half
  | [] => [b]
  | c :: t => if b.toNat < c.toNat then b :: c :: t else c :: insHalf b t

/-- The module partial of a group is complete: GROUP_COUNT buckets declared and sealed (R472). -/
def groupComplete (s : State) (p : Part) (g : NormGroup) : Bool :=
  !g.sent && decide (0 < g.count) && g.members.length == g.count &&
  g.members.all (fun b => (match bucketRec p b with | some r => r.normDeclared | none => false) && bucketSealed s p b)

/-- Whether a bucket is marked non-finite in a cask of the module (R460). -/
def bucketNonfin (s : State) (p : Part) (b : Half) : Bool := (caskBuckets s p b).any (fun x => x.nonfin)

/-- The final norm, once the partials of every contributor are there (R473). -/
def finalNorm (s : State) (p : Part) (g : NormGroup) : NormGroup :=
  let ms := (List.range 64).filter (fun m => bit g.contrib m)
  let parts := ms.map (fun m => tget none g.partials m)
  if !g.sent || g.final.isSome || parts.any (fun x => x.isNone) then g
  else
    let bad := parts.any (fun x => match x with | some (_, _, n) => n | none => false) ||
      g.members.any (bucketNonfin s p)
    let lane := parts.foldl (fun l x => match x with | some (a, b, _) => addPair l (a, b) | none => l) {}
    { g with final := some (if bad then nan32 else sqrt32 .rne (laneVal lane)), nonfin := bad }

/-- The low 16 bits of the partition's journal index (R454, R463). -/
def stepTag (s : State) (p : Part) : Half := (getQuad s p.low).jnlIndex.truncate 16

/-- The NORM frame of R472 and R489. -/
def normFrame (p : Part) (g : Half) (x : Word × Word) (bad : Bool) (tag : Half) : Frame :=
  bareFrame fkNorm (BitVec.ofNat 64 (p.low * 2 ^ 20)) 0 .f tag (.norm g x.1 x.2 bad)

/-- Complete and send the module partials that can be, and close the norms that are final. -/
def settleGroup (s : State) (p : Part) (i : Nat) : State :=
  match p.groups[i]? with
  | none => s
  | some g =>
    let set (s : State) (g : NormGroup) : State := modPart s p.low (fun p => { p with groups := p.groups.set i g })
    if groupComplete s p g then
      let bs := g.members.foldl (fun l b => insHalf b l) []
      let lane := bs.foldl (fun l b => (caskBuckets s p b).foldl (fun l x => addPair l (pairOf x.norm)) l) {}
      let pair := pairOf lane
      let bad := bs.any (bucketNonfin s p) || laneNonfin lane
      let g := { g with sent := true, partials := tset none g.partials (ownIndex s) (some (pair.1, pair.2, bad)) }
      let dests := (List.range 64).filter (fun m => bit g.contrib m && m != ownIndex s)
      let s := sendAll s (dests.map (fun m => (portOf p 0, m, normFrame p g.group pair bad (stepTag s p))))
      set s (finalNorm s p g)
    else set s (finalNorm s p g)

/-- Settle every group of a partition. -/
def settleGroups (s : State) (low : Nat) : State :=
  match partAt s low with
  | none => s
  | some p => (List.range p.groups.length).foldl (fun s i =>
      match partAt s low with
      | some p => settleGroup s p i
      | none => s) s

/-- A partial arrives: it goes to the oldest instance of its group that lacks the sender's. -/
def takeNorm (rx : Rx) (s : State) : State :=
  match partAt s (faLow rx.frame.addr), rx.frame.inline with
  | some p, .norm group sum err bad =>
    let lacks (g : NormGroup) : Bool := g.group == group && (tget none g.partials rx.sender).isNone
    let put (g : NormGroup) : NormGroup := { g with partials := tset none g.partials rx.sender (some (sum, err, bad)) }
    let gs := match p.groups.findIdx? lacks with
      | some i => p.groups.set i (put (p.groups.getD i { group := group }))
      | none => p.groups ++ [put { group := group }]
    settleGroups (modPart s p.low (fun p => { p with groups := gs })) p.low
  | _, _ => s

/-- NORM_RECEIVE (R473). -/
def execNormReceive (rx : Rx) (s : State) : Host.Outcome State Fault Refusal :=
  if rx.frame.kind = fkNorm then withRx s rx (takeNorm rx) else .next s

/-- The group that a bucket has joined. -/
def groupOf (p : Part) (b : Half) : Option NormGroup := p.groups.find? (fun g => g.members.contains b)

/-! ### Sealing and deadlines (R468, R470) -/

/-- Whether the lowest unsealed section can seal (R470). -/
def canSeal (x : CaskBucket) (r : BucketRec) : Bool :=
  let i := x.sealedCount
  x.anchor.isSome && decide (i < sectionCount r) &&
  (contributors r).all (fun m => x.withheld.contains m || unitsResolved x r i m) &&
  x.units.all (fun y => y.2.ledger.isNone || y.1 % 2 ^ 20 / 256 != i)

/-- The results of a section, each rne32 of its cell's value, and its norm partial in ascending element order. -/
def sealSection (x : CaskBucket) (a : Int) (now : Nat) : CaskBucket :=
  let i := x.sealedCount
  let mine := x.cells.filter (fun y => y.1 / 65536 == i)
  let res := mine.map (fun y => (y.1, rne32 (.num y.2 (a - 117))))
  { x with
    results := tsetAll 0 x.results res
    norm := res.foldl (fun l y => laneAdd l (mulE (val32 y.2) (val32 y.2))) x.norm
    cells := x.cells.filter (fun y => y.1 / 65536 != i)
    sealedCount := i + 1
    allocAt := tset 0 x.allocAt (i + 2) now }

/-- SECTION_SEAL. A partition under reset sends nothing (R607). -/
def execSectionSeal (cask : Fin 8) (q : Fin 8) (bkt : Half) (s : State) : Host.Outcome State Fault Refusal :=
  let l : CaskLoc := { k := cask.val, low := q.val, b := bkt }
  match bucketAt s l, (partAt s q.val).bind (fun p => if p.reset.isSome then none else bucketRec p bkt) with
  | some x, some r =>
    match x.anchor with
    | some a =>
      if canSeal x r then .next (settleGroups (modBucket s l (fun x => sealSection x a s.pll)) l.low)
      else .next s
    | none => .next s
  | _, _ => .next s

/-- The bucket deadline, once its clock runs (R468). -/
def bucketDeadline (x : CaskBucket) (r : BucketRec) : Option Nat :=
  if r.deadlineUs = 0 then none else x.clock.map (fun t => t + us r.deadlineUs)

/-- BUCKET_DEADLINE: contributors without a header are withheld. -/
def execBucketDeadline (cask : Fin 8) (q : Fin 8) (bkt : Half) (s : State) : Host.Outcome State Fault Refusal :=
  let l : CaskLoc := { k := cask.val, low := q.val, b := bkt }
  match bucketAt s l, (partAt s q.val).bind (fun p => bucketRec p bkt) with
  | some x, some r =>
    match bucketDeadline x r with
    | some t =>
      if s.pll < t ∨ x.bucketElapsed then .next s
      else
        let s := modBucket s l (fun x => { x with bucketElapsed := true })
        let s := ((contributors r).filter (fun m => !x.headers.contains m)).foldl (fun s m => withhold s l m) s
        .next (fixAnchor s l r)
    | none => .next s
  | _, _ => .next s

/-- The deadline of a section whose cell buffer is allocated (R468). -/
def sectionDeadline (x : CaskBucket) (r : BucketRec) (i : Nat) : Option Nat :=
  match x.anchor, bucketDeadline x r with
  | some _, some t =>
    let ts := max (tget 0 x.allocAt i) x.anchorAt
    some (if ts < t then t else ts + us r.deadlineUs)
  | _, _ => none

/-- One section's deadline elapses: backup copies now resolve, and the contributors still unresolved are withheld. -/
def elapseSection (s : State) (l : CaskLoc) (r : BucketRec) (i : Nat) : State :=
  match bucketAt s l with
  | none => s
  | some x =>
    match sectionDeadline x r i with
    | none => s
    | some t =>
      if s.pll < t ∨ x.elapsed.contains i ∨ sectionCount r ≤ i then s
      else
        let s := modBucket s l (fun x => { x with elapsed := x.elapsed ++ [i] })
        let y := { x with elapsed := x.elapsed ++ [i] }
        countBackups (((contributors r).filter (fun m => !unitsResolved y r i m)).foldl (fun s m => withhold s l m) s) l

/-- SECTION_DEADLINE: the deadlines of the two sections whose cell buffers are allocated. -/
def execSectionDeadline (cask : Fin 8) (q : Fin 8) (bkt : Half) (s : State) : Host.Outcome State Fault Refusal :=
  let l : CaskLoc := { k := cask.val, low := q.val, b := bkt }
  match bucketAt s l, (partAt s q.val).bind (fun p => bucketRec p bkt) with
  | some x, some r =>
    .next (elapseSection (elapseSection s l r x.sealedCount) l r (x.sealedCount + 1))
  | _, _ => .next s

end Sys2Proof.Machine
end

