-- ==== Sys2Proof/Machine/Drain.lean ====
section
/-! DEFINITION. DRAIN and DRAIN.D (R117, R152 to R154, R235 to R238, R276 to R284, R302, R332, R333, R552 to R556), and
the chains of split reductions, CHAIN.SEND and CHAIN.SEED (R251 to R256). -/

namespace Sys2Proof.Machine

/-! ### The engine that SUB names -/

def subEngine (w : InstrWord) : Engine := if tSub w = 0 then .beam else .heddle
def subMul (c : Core) (w : InstrWord) : Multiplier := if tSub w = 0 then c.beam else c.heddle
def setSubMul (c : Core) (w : InstrWord) (m : Multiplier) : Core :=
  if tSub w = 0 then { c with beam := m } else { c with heddle := m }

/-- The set as the copy of R235 holds it (R237). -/
def drainSet (a : At) : AccSet := accVisible a.c.cycle (subMul a.c a.w)

/-- K6 occupancy of a number of bits (R83). -/
def occBits (n : Nat) : Nat := max 1 (ceilDiv n (8 * 192))

/-! ### The permutation (R117, R152, R154) -/

/-- Field i of the permutation. -/
def permAt (w : InstrWord) (i : Nat) : Nat := bits w (offImm + 3 * i) 3
def permOf (w : InstrWord) : List Nat := (List.range 5).map (permAt w)
def permOk (w : InstrWord) : Bool := (List.range 5).all (fun j => (permOf w).contains j)

/-- The linear source position of a DO position: source dimension j has the size and index of the DO dimension whose
field names it, dimension 0 fastest. -/
def sourceLin (w : InstrWord) (d : Image) (o : List Nat) : Nat :=
  ((List.range 5).foldl (fun (r : Nat × Nat) j =>
    let i := (permOf w).idxOf j
    (r.1 + o.getD i 0 * r.2, r.2 * dSize d i)) (0, 1)).1

/-- The valid DO positions in ascending linear order, each with the lane that it takes. -/
def drainPlaces (w : InstrWord) (d : Image) (nn : Nat) : List (List Nat × Nat × Nat) :=
  (boxOf ((List.range 5).map (dValid d))).map (fun o =>
    let l := sourceLin w d o
    (o, l / nn, l % nn))

/-! ### The scale record (R277, R552) -/

/-- TSET, DPAIR, SIDX and SEN of an immediate (R276); SIDX and SEN are at the same place as in VEC.CVT. -/
def immTset (w : InstrWord) : Bool := bit w (offImm + 15)
def immDpair (w : InstrWord) : Nat := bits w (offImm + 16) 2

/-- The record's elements, with the values of R277 where FLAGS[24] is 0. -/
structure ScaleRec where
  ein : Nat
  eout : Nat
  na : Nat
  nb : Nat
  margin : Nat
  check : Nat
  deriving DecidableEq, Repr

def scaleRec (a : At) : ScaleRec :=
  if fldFlag a.w 0 then
    let dx := entryD a (tDX a.w)
    let el (k : Nat) : Nat := readElem a.c.store dx [k]
    ⟨el 0, el 1, el 4, el 5, el 6, if 8 ≤ dValid dx 0 then el 7 else 0⟩
  else ⟨127, 127, 0, 0, 0, 0⟩

/-- Whether the tile is checked (R552, R554). -/
def drainChecked (a : At) (d : Image) (set : AccSet) : Bool :=
  fldFlag a.w 0 && (scaleRec a).check % 2 == 1 && dType d != tyTun && !set.packed

/-- A norm descriptor of R552. -/
def normConds (a : At) (k need : Nat) : Conds :=
  match entryOf a k with
  | none => [(3, offDX)]
  | some d => cond (!dDense d || dType d != tyFP32 || dRank d != 1 || dHandle d != 0 || decide (dValid d 0 < need)) 3 offDX

/-- Conditions on DX of a drain and on what its record holds. -/
def recordConds (a : At) (d : Image) (set : AccSet) : Conds :=
  if fldFlag a.w 0 then
    needEntry a (tDX a.w) offDX ++ onEntry a (tDX a.w) (fun dx =>
      if !dDense dx || dType dx != tyScale || dRank dx != 1 || dHandle dx != 0 || decide (dValid dx 0 < 4) then [(7, offDX)]
      else
        let r := scaleRec a
        cond (r.eout == 255) 3 offDX ++
        (if drainChecked a d set then
          cond (r.check / 2 != 0 || r.margin / 8 != 0) 2 offDX ++
          (match set.shape with
          | some (mm, nn) => normConds a r.na mm ++ normConds a r.nb nn
          | none => [])
        else []))
  else []

/-! ### The destination -/

/-- Types that a drain converts under the shift of R278. -/
def shiftType (t : Nat) : Bool := isFp8 t || t == tyBF16 || t == tyFP16
/-- Types that a drain accepts (R284). -/
def drainType (t : Nat) : Bool := shiftType t || t == tyFP32 || t == tyComp || t == tyTun

/-- The product of the sizes of dimensions 0 to 4. -/
def sizeProduct (d : Image) : Nat := ((List.range 5).map (dSize d)).foldl (fun x y => x * y) 1

/-- Conditions on DO: handle, format and type (R161, R284, R328), shape (R153), an IVQ region's own (R332). -/
def drainDoConds (w : InstrWord) (d : Image) (set : AccSet) : Conds :=
  cond (decide (1 < dHandle d) || (!dDense d && dHandle d != 0)) 3 offDO ++
  (match set.shape with
  | none => [(7, offDO)]
  | some (mm, nn) =>
    cond (sizeProduct d != mm * nn || dSize d 5 != 1) 7 offDO ++
    (if dFmt d = fmIVQ then
      cond (!(isFp8 (dType d) || dType d == tyBF16) || dRank d != 2 || dSize d 1 != mm || dSize d 0 != nn ||
        tImm w % 2 ^ 15 != 0x4688 ||
        decide (dStride d 1 < ((64 + ivqLen (dType d) (mm * nn) : Nat) : Int))) 7 offDO
    else [])) ++
  (if dFmt d = fmIVQ then []
  else cond (!dDense d) 6 offDO ++ cond (dDense d && !drainType (dType d)) 6 offDO) ++
  cond (immTset w && dType d != tyTun) 2 (offImm + 15)

/-! ### Values (R245, R277, R278, R302) -/

/-- A lane's value under E_IN and E_OUT. -/
def drainScaled (r : ScaleRec) (x : Exact) : Exact := scaleE (scaled x r.ein) (127 - (r.eout : Int))

/-- The derivative of a DRAIN.D at a DO position; 1 in a DRAIN. -/
def derivAt (a : At) (deriv : Bool) (o : List Nat) : Option Exact :=
  if deriv then
    let db := entryD a (tDB a.w)
    let raw := readElem a.c.store db o
    if tMode a.w = 0 then some (.num raw 0)
    else some (val32 (sfuEval a.c (2 * immDpair a.w + 1) (widen (dType db) raw)))
  else none

/-- The exact values aimed at DO's valid positions, before the shift. -/
def drainVals (a : At) (d : Image) (set : AccSet) (deriv : Bool) : List (List Nat × Exact) :=
  let r := scaleRec a
  match set.shape with
  | none => []
  | some (_, nn) => (drainPlaces a.w d nn).map (fun x =>
      let v := drainScaled r (laneVal (tget {} set.lanes (128 * x.2.1 + x.2.2)))
      (x.1, match derivAt a deriv x.1 with
        | some g => mulE v g
        | none => v))

/-- The largest finite magnitude of a list (R280). -/
def largest (xs : List Exact) : Exact := (xs.filter finiteE).foldl (fun m x => maxMag m (absE x)) Exact.zero

/-- The shift r of R278, and whether none meets it (R279, R281). -/
def shiftOf (flag : Bool) (eout : Nat) (f : FpFmt) (amax : Exact) : Nat × Bool :=
  let bad (r : Nat) : Bool := (convert .rne .saturate f (scaleE amax (-(r : Int)))).ovf
  if !flag then (0, bad 0)
  else match (List.range 5).find? (fun r => decide (eout + r ≤ 254) && !bad r) with
    | some r => (r, false)
    | none => (min 4 (254 - eout), true)

/-- A compensated pair (R252): sum' and error', with the overflow of R282. -/
def compOf (x : Exact) : Conv :=
  match x with
  | .nonfin b => ⟨b.toNat, false, false⟩
  | .num m e =>
    let c := convert .rne .infinity fmtFP32 (.num m e)
    let s := BitVec.ofNat 32 c.bits
    match val32 s with
    | .num ms es => ⟨c.bits + (rne32 (addE (.num m e) (negE (.num ms es)))).toNat * 2 ^ 32, false, c.flush⟩
    | .nonfin _ => ⟨c.bits, true, false⟩

/-- One value converted to a type other than tun-wide, shifted by r. -/
def drainConv (ty r : Nat) (x : Exact) : Conv :=
  if ty = tyComp then compOf x
  else match tyFp ty with
    | some f => convert .rne (if shiftType ty then .saturate else .infinity) f (scaleE x (-(r : Int)))
    | none => ⟨0, false, false⟩

/-- A drained IVQ region (R333): header and one frame of the elements that are not ±0, given by linear index. -/
def ivqRegion (d : Image) (els : List (Nat × Nat)) : List Poke :=
  let wb := tyWidth (dType d)
  let kept := els.filter (fun x => x.2 % 2 ^ (wb - 1) != 0)
  let n := kept.length
  let len := ivqLen (dType d) n
  let head := fmIVQ + dType d * 2 ^ 8 + dSize d 1 * 2 ^ 32 + dSize d 0 * 2 ^ 64 + n * 2 ^ 96 + 1 * 2 ^ 128 + 64 * 2 ^ 160 +
    len * 2 ^ 192 + (64 + len) * 2 ^ 224
  let frame := leBytes 16 (0xA5 + dType d * 2 ^ 8 + n * 2 ^ 64) ++ kept.flatMap (fun x => leBytes 2 x.1) ++
    kept.flatMap (fun x => leBytes (wb / 8) x.2)
  (8 * dBase d, 512, head) :: unitPokes (dBase d + 64) (frame ++ List.replicate (len - frame.length) 0)

/-- Whether a nonzero value becomes a zero tun-wide element (R271, R289, R296). -/
def tunFlushes (x : Exact) : Bool :=
  match x with
  | .num m _ => m != 0 && tunRound x % 2 ^ 31 == 0 && tunRound x / 2 ^ 32 == 0
  | .nonfin _ => false

/-- Everything a drain computes on its issue cycle: shift, saturation, elements or exact values, flush count, overflow
of a wide type. -/
structure Drained where
  shift : Nat
  sat : Bool
  elems : List Poke
  adds : List (Nat × Exact)
  total : Nat
  flushed : Nat
  wideOvf : Bool
  deriving DecidableEq, Repr

def drained (a : At) (d : Image) (set : AccSet) (deriv : Bool) : Drained :=
  let vals : List (List Nat × Exact) := drainVals a d set deriv
  let ty := dType d
  if ty = tyTun then
    ⟨0, false, [], vals.map (fun x : List Nat × Exact => (elemBit d x.1, x.2)), vals.length,
      if immTset a.w then (vals.filter (fun x => tunFlushes x.2)).length else 0, false⟩
  else
    let rs : Nat × Bool := match shiftType ty, tyFp ty with
      | true, some f => shiftOf (fldFlag a.w 0) (scaleRec a).eout f (largest (vals.map (fun x => x.2)))
      | _, _ => (0, false)
    let r := rs.1
    let conv : List (List Nat × Conv) := vals.map (fun x => (x.1, drainConv ty r x.2))
    let elems := if dFmt d = fmIVQ then
        ivqRegion d (conv.map (fun x => (x.1.getD 1 0 * dSize d 0 + x.1.getD 0 0, x.2.bits)))
      else conv.map (fun x => (elemBit d x.1, tyWidth ty, x.2.bits))
    ⟨r, rs.2, elems, [], conv.length, (conv.filter (fun x => x.2.flush)).length,
      !shiftType ty && conv.any (fun x => x.2.ovf)⟩

/-! ### The plausibility bound (R553) -/

/-- The bound 2^k × NA[m] × NB[n], rounded toward +∞; `none` where a norm is non-finite. -/
def plausBound (a : At) (r : ScaleRec) (m n : Nat) : Option Word :=
  let x : Word := BitVec.ofNat 32 (readElem a.c.store (entryD a r.na) [m])
  let y : Word := BitVec.ofNat 32 (readElem a.c.store (entryD a r.nb) [n])
  if finite32 x && finite32 y then some (up32 (scaleE (mulE (val32 x) (val32 y)) (r.margin % 8 : Nat))) else none

/-- Whether an element fails. -/
def plausFails (a : At) (r : ScaleRec) (set : AccSet) (m n : Nat) : Bool :=
  let l := tget {} set.lanes (128 * m + n)
  !laneNonfin l &&
  match plausBound a r m n with
  | none => false
  | some b => ltE (val32 b) (absE (scaled (laneVal l) r.ein))

/-- The first failing element in row-major order (R556). -/
def firstImplausible (a : At) (set : AccSet) : Option (Nat × Nat) :=
  match set.shape with
  | none => none
  | some (mm, nn) =>
    ((List.range mm).flatMap (fun m => (List.range nn).map (fun n => (m, n)))).find?
      (fun x => plausFails a (scaleRec a) set x.1 x.2)

/-! ### DRAIN and DRAIN.D -/

/-- Conditions on the DB of a DRAIN.D (R302). -/
def derivConds (a : At) (d : Image) : Conds :=
  let w := a.w
  needEntry a (tDB w) offDB ++ onEntry a (tDB w) (fun db =>
    coreDense db offDB ++
    cond (if tMode w = 0 then dType db != tyBit else !shiftType (dType db)) 6 offDB ++
    cond ((List.range 6).any (fun k => dValid db k != dValid d k)) 7 offDB)

/-- Word conditions of both (R117, R276). -/
def drainEnc (w : InstrWord) (deriv : Bool) : Conds :=
  undefinedField (if deriv then decide (1 < tMode w) else tMode w != 0) offMode ++
  undefinedField (decide (1 < tSub w)) offSub ++ immReserved w (maskOf 25 7) ++
  (if deriv && tMode w == 1 then cond (decide (1 < immDpair w)) 3 (offImm + 16)
    else cond (immDpair w != 0) 2 (offImm + 16)) ++
  cond (!permOk w) 3 offImm

/-- The state after a drain: counters, the check it enters, and the result on its way (R278 to R284, R552 to R555). -/
def drainEffect (a : At) (d : Image) (set : AccSet) (deriv : Bool) (occ : Nat) : State :=
  let w := a.w
  let out := drained a d set deriv
  let useDx := fldFlag w 0
  let dx := entryD a (tDX w)
  let db := entryD a (tDB w)
  let checked := drainChecked a d set
  let norms := if checked then [entryD a (scaleRec a).na, entryD a (scaleRec a).nb] else []
  let reads := (if useDx then descUnits dx else []) ++ (if deriv then descUnits db else []) ++ operandUnits norms
  let lines := if dType d = tyTun ∧ !immTset w then descUnits d else []
  let s := sramErrors a.s a.n a.sh (pcOf a.r a.sh) (fldOp w) a.ups
    (reads ++ if dHandle d = 0 then lines else []) (if dHandle d = 1 then lines else [])
  let c := getCore s a.n
  let chk := joinChk set.chk (joinChk (if useDx then descChk c dx else .clear) (if deriv then descChk c db else .clear))
  let chk := joinChk chk (operandsChk s a.n norms)
  let chk := if checked then joinChk chk (.prov [s.nextVerdict]) else chk
  let s := if out.shift = 0 then s else bumpCore s a.n ctrNumRetry 1
  let s := if out.sat then noteSaturation s a (engIdx (subEngine w)) else s
  let s := if immSen w then modCore s a.n (fun c => countStarve c (immSidx w) out.total out.flushed) else s
  let s := if out.wideOvf ∧ tSub w = 0 then
      noteW1c (modCore s a.n (fun c => { c with beam := { c.beam with stNonfin := true } })) (corePage a.n 4) 1
    else s
  let back : List Poke := if useDx then
      [(elemBit dx [2], 8, (scaleRec a).eout + out.shift), (elemBit dx [3], 8, out.shift + 128 * flag out.sat)]
    else []
  let v := if checked then some s.nextVerdict else none
  let s := if checked then
      let vd : Verdict := { id := s.nextVerdict, sh := a.sh, pc := pcOf a.r a.sh, opcode := BitVec.ofNat 8 (fldOp w),
                            eng := engIdx (subEngine w), landed := none, fails := firstImplausible a set,
                            tun := dHandle d == 1, elems := out.elems }
      let s := { s with nextVerdict := s.nextVerdict + 1 }
      modCore s a.n (fun c => { c with verdicts := c.verdicts ++ [vd] })
    else s
  let lat := occ + latency a.p 16 12
  if dType d = tyTun then pushStore s a lat v (.accum (dHandle d == 1) out.adds (immTset w) chk back (tSub w == 0))
  else if dHandle d = 1 then pushStore s a lat v (.tunStore out.elems chk back)
  else pushStore s a lat v (.store (out.elems ++ back) chk)

def actDrainAny (deriv : Bool) (a : At) : Action :=
  let w := a.w
  let d := entryD a (tDO w)
  let set := drainSet a
  let occ := match set.shape with
    | some (mm, nn) => occBits (mm * nn * tyWidth (dType d))
    | none => 1
  { fmt := .t
    enc := drainEnc w deriv
    eng := some { eng := subEngine w, occ := 1, busy := 1, drain := some occ }
    chk := needEntry a (tDO w) offDO ++ onEntry a (tDO w) (fun d =>
      drainDoConds w d set ++ recordConds a d set ++ (if deriv then derivConds a d else []))
    hold := if drainChecked a d set && decide (4 ≤ a.c.verdicts.length) then
        some (fun c => { c with holds := { c.holds with verdictSlots := true } }) else none
    eff := drainEffect a d set deriv occ }

def actDrain (a : At) : Action := actDrainAny false a
def actDrainD (a : At) : Action := actDrainAny true a

/-! ### CHAIN.SEND (R251 to R254) -/

def immCore (w : InstrWord) : Nat := bits w (offImm + 16) 8
def immSem (w : InstrWord) : Nat := bits w (offImm + 24) 8

/-- The shape that R251 requires of a buffer for a tile of M × N. -/
def chainShape (d : Image) (mm nn : Nat) : Bool :=
  dHandle d == 0 && dRank d == 2 && dSize d 1 == mm + 1 && dPad d 1 == 0 && dValid d 0 == max nn 2 &&
  dSize d 0 == (max nn 2 + 7) / 8 * 8

/-- Bits of a send or a seed of a tile. -/
def chainBits (mm nn : Nat) : Nat := (mm + 1) * max nn 2 * 64

/-- A lane as sent (R252). -/
def lanePair (l : Lane) : Nat := if laneNonfin l then l.sum.toNat else (compOf (laneVal l)).bits

/-- Element 1 of the trailer (R253). -/
def trailerFlags (set : AccSet) (nn : Nat) : Nat :=
  flag set.longChain + 2 * flag set.nonfin + 4 * flag set.mismatch + (nn - 1) * 2 ^ 8

/-- Every valid element of the buffer. -/
def chainElems (d : Image) (set : AccSet) (mm nn : Nat) : List Poke :=
  (boxOf [max nn 2, mm + 1]).map (fun ix =>
    let n := ix.getD 0 0
    let m := ix.getD 1 0
    (elemBit d ix, 64,
      if m < mm then (if n < nn then lanePair (tget {} set.lanes (128 * m + n)) else 0)
      else if n = 0 then set.terms % 2 ^ 64
      else if n = 1 then trailerFlags set nn
      else 0))

/-- The fence scope that covers another core's targets (R187): the core itself, its quadrant, its device. -/
def coreLevel (a b : Nat) : Nat := if a = b then 0 else if quadOf a = quadOf b then 1 else 2

def actChainSend (a : At) : Action :=
  let w := a.w
  let d := entryD a (tDO w)
  let set := drainSet a
  let target := a.p.map[immCore w]?
  let (mm, nn) := set.shape.getD (0, 0)
  let occ := occBits (chainBits mm nn)
  let tgt := target.getD 0
  let (s, id) := newAccess a.s a.n a.sh (coreLevel a.n tgt) .chain true false []
  { fmt := .t
    enc := modeZero w ++ undefinedField (decide (1 < tSub w)) offSub
    eng := some { eng := subEngine w, occ := 1, busy := 1, drain := some occ }
    chk := cond target.isNone 3 (offImm + 16) ++ needEntry a (tDO w) offDO ++ onEntry a (tDO w) (fun d =>
      cond (!dDense d && dHandle d != 0) 3 offDO ++ cond (!dDense d || dType d != tyComp) 6 offDO ++
      (match set.shape with
      | none => [(7, offDO)]
      | some (mm, nn) => cond (!chainShape d mm nn || set.skipped) 7 offDO))
    eff := push s a.n a.sh (occ + latency a.p 16 12) (some id) none
      (.chain tgt (chainElems d set mm nn) set.chk (immSem w)) }

/-! ### CHAIN.SEED (R255, R256) -/

/-- The pair of a lane in the buffer. -/
def seedLane (st : Tbl Byte) (d : Image) (m n : Nat) : Lane :=
  let x := readElem st d [n, m]
  laneSeed (BitVec.ofNat 32 x) (BitVec.ofNat 32 (x / 2 ^ 32))

/-- N of the trailer. -/
def seedN (st : Tbl Byte) (d : Image) : Nat := readElem st d [1, dSize d 1 - 1] / 2 ^ 8 % 2 ^ 7 + 1

/-- Whether a buffer is one that R256 refuses. -/
def seedBad (st : Tbl Byte) (d : Image) : Bool :=
  let mm := dSize d 1 - 1
  let t1 := readElem st d [1, mm]
  decide (mm < 1) || decide (128 < mm) || !chainShape d mm (seedN st d) || t1 / 2 ^ 3 % 2 ^ 5 != 0 ||
  t1 / 2 ^ 15 != 0 || (List.range (dValid d 0 - 2)).any (fun j => readElem st d [j + 2, mm] != 0)

/-- The set that a buffer holds. -/
def seedSet (st : Tbl Byte) (d : Image) (chk : Chk) : AccSet :=
  let mm := dSize d 1 - 1
  let nn := seedN st d
  let t1 := readElem st d [1, mm]
  { shape := some (mm, nn)
    lanes := (List.range mm).foldl (fun t m => (List.range nn).foldl (fun t n =>
      tset {} t (128 * m + n) (seedLane st d m n)) t) []
    terms := readElem st d [0, mm]
    longChain := t1 % 2 == 1
    nonfin := t1 / 2 % 2 == 1
    mismatch := t1 / 4 % 2 == 1
    chk := chk }

def actChainSeed (a : At) : Action :=
  let w := a.w
  let d := entryD a (tDA w)
  let st := a.c.store
  let occ := occBits (64 * validCount d)
  let s := readStore a (descUnits d)
  let set := seedSet st d (descChk (getCore s a.n) d)
  { fmt := .t
    enc := modeZero w ++ undefinedField (decide (1 < tSub w)) offSub
    eng := some { eng := subEngine w, occ := occ, busy := occ }
    chk := needEntry a (tDA w) offDA ++ onEntry a (tDA w) (fun d =>
      cond (!dDense d && dHandle d != 0) 3 offDA ++ cond (!dDense d || dType d != tyComp) 6 offDA ++ cond (seedBad st d) 7 offDA)
    eff := modCore s a.n (fun c => setSubMul c w
      (pushAcc (subMul c w) (c.cycle + occ + latency a.p 16 12) set false false false)) }

def execDrain (i : Issue) (s : State) : Host.Outcome State Fault Refusal := issueWith 0x48 i s actDrain
def execDrainD (i : Issue) (s : State) : Host.Outcome State Fault Refusal := issueWith 0x49 i s actDrainD
def execChainSend (i : Issue) (s : State) : Host.Outcome State Fault Refusal := issueWith 0x50 i s actChainSend
def execChainSeed (i : Issue) (s : State) : Host.Outcome State Fault Refusal := issueWith 0x51 i s actChainSeed

/-! ### Results that land, and verdicts of checked drains -/

/-- RESULT_VISIBLE: every result of a core that is due lands (R82). -/
def execResultVisible (core : Fin 192) (s : State) : Host.Outcome State Fault Refusal := .next (landDue s core.val)

/-- TUN_DRAIN_LAND: the tun drains whose turn it is land (R290). -/
def execTunDrainLand (core : Fin 192) (s : State) : Host.Outcome State Fault Refusal := .next (landTun s core.val)

/-- A failed verdict is counted (R569): the journal's tally and flag, the core's counter, one record. -/
def countVerdictFail (s : State) (n : Nat) (r : RecIn) : State :=
  let s := match corePart s n with
    | some p => modPart s p.low (fun q => { q with jnlFails := q.jnlFails + 1, jnlFlags := q.jnlFlags ||| 4 })
    | none => s
  record (bumpCore s n ctrVerdictFail 1) { r with kind := 0x13 }

/-- Rewrite the units of DO that no later write has replaced; they become CLEAR (R556, R561). -/
def rewriteTile (c : Core) (v : Verdict) : Core :=
  let units := pokeUnits v.elems
  if v.tun then { c with tun := pokeAll c.tun v.elems, tunChk := setChk c.tunChk units .clear }
  else { c with store := pokeAll c.store v.elems, storeChk := setChk c.storeChk units .clear }

/-- A verdict fails after its repeats (R551, R556, R561, R569, R572). -/
def failVerdict (s : State) (n : Nat) (v : Verdict) (mn : Nat × Nat) (rep : RepeatEnd) : State :=
  let reps := if rep = .first then 1 else 2
  let s := addRepeats (bumpCore (bumpCore s n ctrPlaus 1) n ctrRepeat reps) n reps
  let s := if rep = .neither then s else modCore s n (fun c => rewriteTile c v)
  let s := resolveVerdict s v.id false
  let base : RecIn := { coreRec 0x12 n (mn.1 + 128 * mn.2) with
    engine := v.eng, shuttle := shIdx v.sh, opcode := v.opcode.toNat, pc := v.pc }
  let s := record s { base with outcome := if rep = .neither then 2 else 1, fence := rep == .neither && intermitFences s n }
  let s := countVerdictFail s n { base with detail := 0 }
  if rep = .neither then intermittent s n false else s

/-- Whether a tile is at the head of its quadrant's checker queue: no tile of the quadrant landed before it (R555). Tiles that
landed on one cycle are taken in any order. -/
def headOfChecker (s : State) (n : Nat) (v : Verdict) : Bool :=
  (List.range 24).all (fun j => (getCore s (24 * quadOf n + j)).verdicts.all (fun x =>
    match x.landed, v.landed with
    | some t, some u => decide (u ≤ t)
    | _, _ => true))

/-- PLAUSIBILITY_VERDICT: the quadrant's checker resolves the verdict of the tile at the head of its queue. -/
def execPlausibilityVerdict (core : Fin 192) (id : Nat) (rep : RepeatEnd) (s0 : State) :
    Host.Outcome State Fault Refusal :=
  let n := core.val
  let s := landAll s0 n
  match (getCore s n).verdicts.find? (fun v => v.id == id && v.landed.isSome) with
  | none => .next s
  | some v =>
    if !headOfChecker s n v then .next s
    else
      let s := modCore s n (fun c => { c with verdicts := c.verdicts.filter (fun x => x.id != id) })
      match v.fails with
      | none => .next (resolveVerdict s id true)
      | some mn => .next (failVerdict s n v mn rep)

end Sys2Proof.Machine
end

