-- ==== Sys2Proof/Machine/Sync.lean ====
section
/-! DEFINITION. Waits and their resumption (R77 to R79, R171, R187, R198 to R200), semaphores and signals (R196 to R204),
the beat-up barrier (R205 to R213, R717) with the pairings and mask generations that take effect at it (R59 to R65,
R399), and the release of held accesses (R184, R185). -/

namespace Sys2Proof.Machine

/-! ### Issuing a wait -/

/-- A shuttle enters a wait; one whose condition already holds is met on its issue cycle (R79). -/
def enterWait (s : State) (a : At) (kind : WaitKind) (acq : Bool) : State :=
  modCore s a.n (fun c => modSh c a.sh (fun x => { x with
    mode := .wait
    wait := some { kind := kind, rph := wRph a.w, acq := acq, issued := s.cc,
                   metAt := if kind = .met then some s.cc else none, poisoned := false } }))

/-- A wait predicated off behaves as one whose condition was met at issue (R102). -/
def offWait (a : At) : Option State := some (enterWait a.s a .met false)

/-- Whether a token names an outstanding request (R170). -/
def tokenLive (q : Queue) (seq : Nat) : Bool :=
  decide ((seq + 2048 - q.oldest) % 2048 < (q.next + 2048 - q.oldest) % 2048)

/-- What a BQ.WAIT on a register's value waits for (R94, R171). -/
def bqWaitKind (c : Core) (tok : Nat) : WaitKind :=
  let k := tok / 2 ^ 11 % 16
  let seq := tok % 2 ^ 11
  if tok / 2 ^ 15 % 2 = 1 ∧ tokenLive (tget {} c.queues k) seq then .bq k seq else .met

def actBqWait (a : At) : Action :=
  let sp := wTgt a.w
  { fmt := .w
    enc := cond (specBad sp || specFile sp != 3) 3 32
    eff := enterWait a.s a (bqWaitKind a.c (regRead a.r sp)) (fldFlag a.w 0)
    off := offWait a }

def actSemWait (a : At) : Action :=
  let kind : WaitKind := if wCnt a.w = 0 then .met else .sem (wTgt a.w) (wCnt a.w)
  { fmt := .w, eff := enterWait a.s a kind (fldFlag a.w 0), off := offWait a }

/-- A fence; ACQ and REL have no effect on it (R186). FENCE.D and FENCE.F drop the read-combining buffer on resuming
(R188), which the wait's ACQ stands for. -/
def actFence (scope : Nat) (a : At) : Action :=
  { fmt := .w, eff := enterWait a.s a (.fence scope) (decide (2 ≤ scope)), off := offWait a }

/-- How many BEATUPs of a scope a shuttle has issued (R207). -/
def beatsOf (x : Sh) (scope : Nat) : Nat := if scope = 0 then x.beats0 else if scope = 1 then x.beats1 else x.beats2
def addBeat (x : Sh) (scope : Nat) : Sh :=
  if scope = 0 then { x with beats0 := x.beats0 + 1 }
  else if scope = 1 then { x with beats1 := x.beats1 + 1 } else { x with beats2 := x.beats2 + 1 }

def actBeatup (a : At) : Action :=
  let scope := wTgt a.w
  let k := beatsOf (shOf a.c a.sh) scope + 1
  { fmt := .w
    enc := cond (decide (2 < scope)) 2 32 ++ immZero (wCnt a.w) 40 2 ++ immZero (wTcore a.w) 72 2 ++
      immZero (wTmod a.w) 80 2 ++ immZero (wBkt a.w) 88 2
    eff := modCore (enterWait a.s a (.beatup scope k) false) a.n (fun c => modSh c a.sh (fun x => addBeat x scope))
    off := offWait a }

def execBqWait (i : Issue) (s : State) : Host.Outcome State Fault Refusal := issueWith 0x19 i s actBqWait
def execSemWait (i : Issue) (s : State) : Host.Outcome State Fault Refusal := issueWith 0x71 i s actSemWait
def execBeatup (i : Issue) (s : State) : Host.Outcome State Fault Refusal := issueWith 0x72 i s actBeatup
def execFenceC (i : Issue) (s : State) : Host.Outcome State Fault Refusal := issueWith 0x78 i s (actFence 0)
def execFenceQ (i : Issue) (s : State) : Host.Outcome State Fault Refusal := issueWith 0x79 i s (actFence 1)
def execFenceD (i : Issue) (s : State) : Host.Outcome State Fault Refusal := issueWith 0x7A i s (actFence 2)
def execFenceF (i : Issue) (s : State) : Host.Outcome State Fault Refusal := issueWith 0x7B i s (actFence 3)

/-! ### The end-of-cycle tests of waits -/

/-- A wait's condition is met on a cycle. -/
def meetWait (c : Core) (sh : Shuttle) (cc : Nat) (poisoned : Bool) : Core :=
  modSh c sh (fun x => { x with wait := x.wait.map (fun w =>
    { w with metAt := some cc, poisoned := w.poisoned || poisoned }) })

/-- The wait of a shuttle that is still pending. -/
def pendingWait (c : Core) (sh : Shuttle) : Option Wait :=
  let x := shOf c sh
  if x.mode = .wait then
    match x.wait with
    | some w => if w.metAt.isNone then some w else none
    | none => none
  else none

/-- BQ.WAIT (R171): the request and every earlier one of its queue have completed; all of them retire. A wait whose token
another wait has retired is met. -/
def bqTest (cc : Nat) (c : Core) (sh : Shuttle) : Core :=
  match pendingWait c sh with
  | some w => match w.kind with
    | .bq k seq =>
      let q := tget {} c.queues k
      if tokenLive q seq then
        let n := (seq + 2048 - q.oldest) % 2048 + 1
        let mine := q.reqs.take n
        if mine.all (fun r => r.complete) then
          let q' := { q with oldest := (q.oldest + n) % 2048, reqs := q.reqs.drop n }
          meetWait { c with queues := tset {} c.queues k q' } sh cc (mine.any (fun r => r.poisoned))
        else c
      else meetWait c sh cc false
    | _ => c
  | none => c

/-- FENCE (R187): no earlier access of the shuttle within the scope is outstanding. -/
def fenceTest (cc : Nat) (c : Core) (sh : Shuttle) : Core :=
  match pendingWait c sh with
  | some w => match w.kind with
    | .fence scope =>
      if (shOf c sh).accesses.all (fun x => decide (scope < x.level)) then meetWait c sh cc false else c
    | _ => c
  | none => c

/-- Insert a semaphore wait by issue cycle; equal cycles keep the order F, B, U. -/
def insSem (x : Nat × Shuttle × Nat × Nat) :
    List (Nat × Shuttle × Nat × Nat) → List (Nat × Shuttle × Nat × Nat)
  | [] => [x]
  | y :: t => if x.1 < y.1 then x :: y :: t else y :: insSem x t

/-- The pending SEM.WAITs of a core as (issue cycle, shuttle, semaphore, CNT), in the order of R200. -/
def semWaits (c : Core) : List (Nat × Shuttle × Nat × Nat) :=
  (allShuttles.filterMap (fun sh => match pendingWait c sh with
    | some w => match w.kind with
      | .sem i k => some (w.issued, sh, i, k)
      | _ => none
    | none => none)).foldl (fun l x => insSem x l) []

/-- SEM.WAIT (R198, R200): each in turn; one that is not met holds every later one on its semaphore. -/
def semTest (cc : Nat) (c : Core) : Core :=
  ((semWaits c).foldl (fun (a : Core × List Nat) x =>
    let (_, sh, i, k) := x
    let m := tget {} a.1.sems i
    if a.2.contains i then a
    else if k ≤ m.count.toNat then
      (meetWait { a.1 with sems := tset {} a.1.sems i { m with count := m.count - BitVec.ofNat 16 k } } sh cc false, a.2)
    else (a.1, a.2 ++ [i])) (c, [])).1

/-- The tests of one core that concern it alone. -/
def waitTests (cc : Nat) (c : Core) : Core :=
  let c := semTest cc c
  let c := allShuttles.foldl (bqTest cc) c
  allShuttles.foldl (fenceTest cc) c

/-! ### Resuming -/

/-- Whether a wait's resume cycle has come (R78). -/
def resumeDue (s : State) (c : Core) (w : Wait) : Bool :=
  match w.metAt with
  | some t => decide (t < s.cc) && c.sched && decide (0 < planLen c) && c.phase == w.rph % planLen c
  | none => false

/-- Whether S4 holds the partition's shuttles in place of resuming them (R638). -/
def s4Holds (s : State) (p : Part) : Bool :=
  match p.s4Hold with
  | some (t, _) => decide (t ≤ s.cc)
  | none => false

/-- Whether a pending slot plan takes effect on this cycle: all three shuttles are held at waits of earlier cycles or have
ended (R72). -/
def planDue (cc : Nat) (c : Core) : Bool :=
  c.planPending.isSome && allShuttles.all (fun sh =>
    let x := shOf c sh
    match x.mode, x.wait with
    | .wait, some w => decide (w.issued < cc)
    | .ended, _ => decide (x.last < c.cycle)
    | _, _ => false)

/-- The pending slot plan takes effect, and the phase counter restarts at 0 (R72). -/
def takePlan (cc : Nat) (c : Core) : Core :=
  if planDue cc c then { c with plan := c.planPending.getD c.plan, planPending := none, phase := 0 } else c

/-- WAIT_RESUME: a shuttle whose condition is met resumes at its resume phase (R78). A BQ.WAIT that retired a poisoned
request faults instead (R175); the U shuttle's VERDICT.WAIT opens its bucket to UPD (R415); after a fault notice the shuttle halts (R124); after a stop it stays (R55). -/
def execWaitResume (core : Fin 192) (sh : Shuttle) (s0 : State) : Host.Outcome State Fault Refusal :=
  let n := core.val
  let s := modCore (landAll s0 n) n (takePlan s0.cc)
  let c := getCore s n
  let x := shOf c sh
  match corePart s n, x.wait with
  | some p, some w =>
    if x.mode = .wait ∧ p.ctx = .running ∧ p.map.contains n then
      if p.faultFirst.isSome then
        .next (modCore s n (fun c => modSh c sh (fun x => { x with mode := .halted, wait := none })))
      else if p.stopping || s4Holds s p || !resumeDue s c w then .next s
      else if w.poisoned then
        let k := match w.kind with
          | .bq k _ => k
          | _ => 0
        .next (raiseFault s p n sh (pcOf (getRegs s n) sh - 1) 0x19 0x0B k false)
      else
        let s := if w.acq then modCore s n combineClear else s
        let s := match sh, w.kind with
          | .u, .verdict b => modCore s n (fun c =>
              { c with verdictBuckets := if c.verdictBuckets.contains b then c.verdictBuckets else c.verdictBuckets ++ [b] })
          | _, _ => s
        .next (modCore s n (fun c => modSh c sh (fun x =>
          { x with mode := .run, wait := none, last := c.cycle, resumed := true, progress := x.progress + 1,
                   progressAt := s.pll })))
    else .next s
  | _, _ => .next s

/-- SLOT_PLAN_TAKE_EFFECT: a pending plan of a RUNNING context takes effect once all three shuttles are held (R54, R72). -/
def execSlotPlanTakeEffect (core : Fin 192) (s : State) : Host.Outcome State Fault Refusal :=
  match corePart s core.val with
  | some p => .next (if p.ctx = .running ∧ p.map.contains core.val then modCore s core.val (takePlan s.cc) else s)
  | none => .next s

/-! ### Semaphores and signals -/

/-- What the signals of this CCLK cycle have added to the semaphores of a core (R200, R210). -/
def freshSignals (cc : Nat) (c : Core) : Tbl Nat := if c.semCycle = cc then c.semFresh else []

/-- The first saturation of a semaphore is recorded and raises vector 4r + 2 (R202, R534). -/
def noteSat (s : State) (n i : Nat) : State :=
  partVector (record s (coreRec 0x19 n i)) (((corePart s n).map (fun p => p.low)).getD 0) 2

/-- The semaphore's register, and beside its bits the mark that this cycle's saturation found SAT set (R687). -/
def semAddr (n i : Nat) : Nat := corePage n (0x1000 + 4 * i)

/-- A signal adds to a semaphore (R197); SAT is set where the sum does not fit. -/
def semAdd (s : State) (n i : Nat) (k : Nat) : State :=
  let m := tget {} (getCore s n).sems i
  let sum := m.count.toNat + k
  let m' : Sem := if 65535 < sum then { count := 65535, sat := true } else { m with count := BitVec.ofNat 16 sum }
  let s := modCore s n (fun c =>
    let fresh := freshSignals s.cc c
    { c with sems := tset {} c.sems i m'
             semCycle := s.cc
             semFresh := tset 0 fresh i (tget 0 fresh i + (m'.count.toNat - m.count.toNat)) })
  if sum ≤ 65535 then s
  else
    let s := noteW1c s (semAddr n i) 16
    if m.sat then noteW1c s (semAddr n i) 32 else noteSat s n i

/-- Whether a partition takes signals: it holds a context that is RUNNING or STOPPED (R204), and no reset covers it (R618). -/
def takesSignals (p : Part) : Bool := (p.ctx == .running || p.ctx == .stopped) && p.reset.isNone

/-- DETAIL of a discarded signal: the sending core, physical for this module's own and logical for another's, in [7:0] and module in [13:8] (assumption 27). -/
def signalFrom (module core : Nat) : Nat := core + module * 2 ^ 8

/-- A signal reaches a core of this module or is discarded with a record (R204). -/
def deliverSignal (s : State) (target : Option Nat) (low i k : Nat) (sender : Nat) : State :=
  let drop : State := record s { kind := 0x20, detail := sender, die := low / 4, quad := low }
  match target with
  | none => drop
  | some n => match corePart s n with
    | some p => if takesSignals p && p.map.contains n then semAdd s n i k else drop
    | none => drop

/-- SIGNAL_PERFORM: a signal that nothing holds performs at its semaphore. -/
def execSignalPerform (id : Nat) (s : State) : Host.Outcome State Fault Refusal :=
  match s.signals.find? (fun g => g.id == id && !g.held) with
  | none => .next s
  | some g =>
    let s := { s with signals := s.signals.filter (fun x => x.id != id) }
    let low := ((corePart s g.target).map (fun p => p.low)).getD (quadOf g.target)
    let from_ := match g.source with
      | some (n, _, _) => n
      | none => 0
    let s := deliverSignal s (some g.target) low g.sem g.count.toNat (signalFrom (ownIndex s) from_)
    .next (match g.source with
      | some (n, sh, acc) => performAccess s n sh acc
      | none => s)

/-- The SIGNAL frame of R203 and R488. -/
def signalFrame (p : Part) (lc : Nat) (sh : Shuttle) (w : InstrWord) : Frame :=
  bareFrame fkSignal (BitVec.ofNat 64 (wTcore w + wTgt w * 2 ^ 8 + p.low * 2 ^ 20)) lc sh 0
    (.signal (BitVec.ofNat 16 (wCnt w)))

/-- Post a signal: to a core of this module, or as a frame on port TCORE mod C (R203, R483). -/
def postSignal (a : At) : State :=
  let w := a.w
  let rel := fldFlag w 1
  let c := getCore a.s a.n
  let hold := mustHold (shOf c a.sh) c.nextAccess rel
  if wTmod w = ownIndex a.s then
    let target := a.p.map.getD (wTcore w) 0
    let (s, id) := newAccess a.s a.n a.sh (coreLevel a.n target) (.signal a.s.nextSignal) rel hold []
    { s with nextSignal := s.nextSignal + 1
             signals := s.signals ++ [{ id := s.nextSignal, target := target, sem := wTgt w,
                                        count := BitVec.ofNat 16 (wCnt w), source := some (a.n, a.sh, id), held := hold }] }
  else
    let fr := signalFrame a.p a.lc a.sh w
    let x : Nat × Nat × Frame := (portOf a.p (wTcore w % caskCount a.p), wTmod w, fr)
    let (s, _) := newAccess a.s a.n a.sh 3 (.signal a.s.nextSignal) rel hold [x]
    if hold then s else sendAll s [x]

def actSemSig (a : At) : Action :=
  let w := a.w
  { fmt := .w
    enc := cond (decide (a.p.map.length ≤ wTcore w)) 3 72
    chk := cond (decide (fabricN a.s ≤ wTmod w)) 0x0A (wTmod w)
    eff := postSignal a }

def execSemSig (i : Issue) (s : State) : Host.Outcome State Fault Refusal := issueWith 0x70 i s actSemSig

/-! ### Held accesses (R184, R185, R562, R454) -/

/-- The shuttle and access with a number. -/
def findAccess (c : Core) (id : Nat) : Option (Shuttle × Access) :=
  allShuttles.findSome? (fun sh => ((shOf c sh).accesses.find? (fun x => x.id == id)).map (fun x => (sh, x)))

/-- Change one access of a shuttle. -/
def modAccess (s : State) (n : Nat) (sh : Shuttle) (id : Nat) (g : Access → Access) : State :=
  modCore s n (fun c => modSh c sh (fun x => { x with accesses := x.accesses.map (fun y => if y.id = id then g y else y) }))

/-- An access is held no longer. -/
def freeAccess (s : State) (n : Nat) (sh : Shuttle) (id : Nat) : State :=
  modAccess s n sh id (fun y => { y with held := false, frames := [] })

/-- Let a held signal of an access go on. -/
def freeSignals (s : State) (n : Nat) (sh : Shuttle) (id : Nat) : State :=
  { s with signals := s.signals.map (fun g => if g.source = some (n, sh, id) then { g with held := false } else g) }

/-- HELD_ACCESS_RELEASE: an access whose predecessors have performed, and whose source units are no longer provisional,
goes on. -/
def execHeldAccessRelease (core : Fin 192) (id : Nat) (sram : SramEcc) (s0 : State) : Host.Outcome State Fault Refusal :=
  let n := core.val
  let s := landAll s0 n
  let c := getCore s n
  match corePart s n, findAccess c id with
  | some p, some (sh, x) =>
    if mustHold (shOf c sh) id x.rel || behindHdr (shOf c sh) id x.kind then .next s
    else match x.kind with
      | .bobbin k seq => match findRequest c k seq with
        | some q =>
          if !q.held || sourceProv c q || (q.dest.isSome && blockedBy s p c k q) then .next s
          else
            let s := modRequest (freeAccess s n sh id) n k seq (fun r => { r with held := false })
            .next (if q.dest.isSome then departRemote s p n k { q with held := false } sram else s)
        | none => .next s
      | .tap d handle off count =>
        if !x.held || unitsProv c.storeChk (descUnits d) then .next s
        else
          let s := sramFound s n (fun r => r) sram (descUnits d) []
          .next (match allocAt s p handle with
            | some al =>
              let fs := tapFrames s p n sh d al off count
              sendAll (modAccess (tapDrop s n al off count) n sh id (fun y => { y with held := false, frames := fs })) fs
            | none => modAccess s n sh id (fun y => { y with held := false }))
      | .signal _ =>
        if !x.held then .next s
        else .next (sendAll (freeSignals (modAccess s n sh id (fun y => { y with held := false })) n sh id) x.frames)
      | _ =>
        let s := freeSignals (freeAccess s n sh id) n sh id
        .next (sendAll s x.frames)
  | _, _ => .next s

/-! ### The beat-up -/

/-- The quadrants in a scope: the one, or the partition's. -/
def scopeQuads (p : Part) (scope q : Nat) : List Nat := if scope = 0 then [q] else partQuads p

/-- The participating cores on this module (R205). -/
def scopeCores (p : Part) (scope q : Nat) : List Nat :=
  p.map.filter (fun n => (scopeQuads p scope q).contains (quadOf n))

/-- The beat-up that a shuttle is held at. -/
def atBeatup (x : Sh) (scope : Nat) : Option Nat :=
  match x.mode, x.wait with
  | .wait, some w => match w.kind, w.metAt with
    | .beatup sc k, none => if sc = scope then some k else none
    | _, _ => none
  | _, _ => none

/-- The smallest beat-up that a peer's kept notice names. -/
def firstNotice (p : Part) : Option Nat :=
  p.notices.foldl (fun r x => match r with
    | some k => some (min k x.2)
    | none => some x.2) none

/-- The number of the beat-up at which every participant has arrived (R205, R207): all that have not ended are held at
it. Where all have ended, they have arrived at whichever fabric beat-up the peers are at (assumption 71). -/
def arrived (s : State) (p : Part) (scope q : Nat) : Option Nat :=
  let shs := (scopeCores p scope q).flatMap (fun n => allShuttles.map (fun sh => shOf (getCore s n) sh))
  let live := shs.filter (fun x => x.mode != .ended)
  match live.head? with
  | none => if scope = 2 then firstNotice p else none
  | some x => match atBeatup x scope with
    | none => none
    | some k => if live.all (fun y => atBeatup y scope == some k) then some k else none

/-- Step 2 of R209: nothing that a participant issued before its BEATUP, and that the matching fence covers, is
outstanding. -/
def accessesDone (s : State) (p : Part) (scope q : Nat) : Bool :=
  (scopeCores p scope q).all (fun n => allShuttles.all (fun sh =>
    (shOf (getCore s n) sh).accesses.all (fun x => decide (scope + 1 < x.level))))

/-- The drift of a core's semaphores on cc z, and their zeroing (R209, R211). The signals of cc z itself are no part of the
drift and count after the zeroing (R210). -/
def recordDrift (s : State) (n : Nat) : State :=
  let c := getCore s n
  let fresh (i : Nat) : Nat := tget 0 (freshSignals s.cc c) i
  let l := (c.sems.map (fun x => (x.1, x.2.count.toNat - fresh x.1))).filter (fun x => x.2 != 0)
  let word := match l with
    | [] => 0
    | (i, k) :: _ => l.length + i * 2 ^ 16 + k * 2 ^ 24
  let s := setCore s n { c with
    drift := BitVec.ofNat 64 word
    sems := (c.sems.map (fun x => (x.1, { x.2 with count := BitVec.ofNat 16 (fresh x.1) }))).filter
      (fun x => x.2 != ({} : Sem)) }
  let s := bumpCore s n ctrBeatup 1
  if l.isEmpty then s else partVector (record s (coreRec 0x1A n word)) (((corePart s n).map (fun p => p.low)).getD 0) 2

/-- Remove a quadrant's test pairing: the identity gets its own registers back (R672, R675). -/
def unpair (s : State) (q : Nat) : State :=
  let f := pairFenced s q
  let g := pairPartner s q
  let r := (getCore s g).spare
  let s := modCore s f (fun c => { c with regs := r })
  let s := modCore s g (fun c => { c with spare := {} })
  modQuad s q (fun x => { x with pair := 0, testPair := false })

/-- Form the pairing that waits: the fenced core's registers move into the partner's spare set (R59 to R61, R65). It
dilates the quadrant from cc z + 4 (R63, R212). -/
def formPair (s : State) (q f g : Nat) : State :=
  let test := !isFenced s (24 * q + f)
  let r := (getCore s (24 * q + f)).regs
  let s := modCore s (24 * q + g) (fun c => { c with spare := r })
  let s := modQuad s q (fun x => { x with pair := BitVec.ofNat 32 (f + g * 2 ^ 8 + 2 ^ 15), pairNext := none
                                          pairFrom := s.cc + 4, testPair := test })
  if test then { s with selfTest := { s.selfTest with
      left := setBits s.selfTest.left (24 * q + f) 1 0
      started := tset 0 s.selfTest.started (24 * q + f) (s.pll + 4 * divider s.power.divNow + 1) } }
  else s

/-- Pairings at a beat-up that holds every shuttle of a quadrant (R64, R574, R672, R675). No test pairing forms under a
shedding stage (R672). -/
def applyPairings (s : State) (q : Nat) : State :=
  let x := getQuad s q
  let over_ := pairActive s q && x.testPair &&
    (tget 0 s.selfTest.started (pairFenced s q) == 0 || x.pairNext.isSome)
  let s := if over_ then unpair s q else s
  match (getQuad s q).pairNext with
  | some (f, g) =>
    if pairActive s q then s
    else if !isFenced s (24 * q + f) && decide (0 < stageNow s) then modQuad s q (fun y => { y with pairNext := none })
    else formPair s q f g
  | none => s

/-- A pending commit advances G at cc z of a partition or fabric beat-up (R399). -/
def advanceGen (s : State) (p : Part) : State :=
  modPartQuads s p (fun q =>
    if bit q.maskGen 32 then { q with maskGen := setBits (setBits q.maskGen 0 32 (bits q.maskGen 0 32 + 1)) 32 1 0 } else q)

/-- cc z of a beat-up: drift, zeroing, pairings, generation, and every participant's wait met with t = z + 3 (R209 to
R212). Under S4 the participants are held from cc z + 4 (R638). -/
def beatupCycle (s : State) (p : Part) (scope q : Nat) : State :=
  let ns := scopeCores p scope q
  let s := ns.foldl recordDrift s
  let s := (scopeQuads p scope q).foldl applyPairings s
  let s := if 1 ≤ scope then advanceGen s p else s
  let s := if 1 ≤ scope ∧ 4 ≤ stageNow s then
      modPart s p.low (fun x => { x with s4Hold := some (s.cc + 4, s.pll + 4 * divider s.power.divNow) })
    else s
  ns.foldl (fun s n => modCore s n (fun c => allShuttles.foldl (fun c sh =>
    if (atBeatup (shOf c sh) scope).isSome then meetWait c sh (s.cc + 3) false else c) c)) s

/-- The peers of a fabric. -/
def peers (s : State) : List Nat := (List.range (fabricN s)).filter (fun m => m != ownIndex s)

/-- The BEATUP notice of R717. -/
def beatFrame (p : Part) (k : Nat) : Frame :=
  bareFrame fkBeatup (BitVec.ofNat 64 (p.low * 2 ^ 20)) 0 .f 0 (.beat k)

/-- BEATUP_COMPLETE: when every participant has arrived and its accesses have performed, a fabric beat-up first notifies
every peer, and completes once every peer's notice is there; any other completes at once. -/
def execBeatupComplete (scope : Fin 3) (q : Fin 8) (s0 : State) : Host.Outcome State Fault Refusal :=
  match partOf s0 q.val with
  | none => .next s0
  | some p =>
    let sc := scope.val
    let s := (scopeCores p sc q.val).foldl landAll s0
    if !(p.ctx == .running || p.ctx == .stopped) then .next s
    else match arrived s p sc q.val with
      | none => .next s
      | some k =>
        if !accessesDone s p sc q.val then .next s
        else if sc = 2 ∧ 1 < fabricN s then
          let s := if p.noticesSent.contains k then s
            else modPart (sendAll s ((peers s).map (fun m => (portOf p 0, m, beatFrame p k)))) p.low
              (fun x => { x with noticesSent := x.noticesSent ++ [k] })
          if (peers s).all (fun m => p.notices.contains (m, k)) then
            .next (modPart (beatupCycle s p sc q.val) p.low (fun x =>
              { x with notices := x.notices.filter (fun y => y.2 != k)
                       noticesSent := x.noticesSent.filter (fun y => y != k) }))
          else .next s
        else .next (beatupCycle s p sc q.val)

/-- A notice reaches the matching partition, which keeps it while it holds a context that is LOADED, RUNNING or STOPPED
(R717). -/
def keepNotice (rx : Rx) (s : State) : State :=
  match partAt s (faLow rx.frame.addr), rx.frame.inline with
  | some p, .beat k =>
    if (p.ctx = .loaded ∨ p.ctx = .running ∨ p.ctx = .stopped) ∧ p.reset.isNone then
      modPart s p.low (fun x =>
        if x.notices.contains (rx.sender, k) then x else { x with notices := x.notices ++ [(rx.sender, k)] })
    else s
  | _, _ => s

/-- BEATUP_FRAME_RECEIVE. -/
def execBeatupFrameReceive (rx : Rx) (s : State) : Host.Outcome State Fault Refusal :=
  if rx.frame.kind = fkBeatup then withRx s rx (keepNotice rx) else .next s

/-- A remote signal is delivered or discarded, and answered with DONE on the port it came on (R204, R494). -/
def remoteSignal (rx : Rx) (s : State) : State :=
  let f := rx.frame
  match f.inline with
  | .signal k =>
    let low := bits f.addr 20 3
    let target := (partAt s low).bind (fun p => p.map[bits f.addr 0 8]?)
    let s := deliverSignal s target low (bits f.addr 8 8) k.toNat (signalFrom rx.sender f.srcCore)
    sendFrame s rx.port.val rx.sender (bareFrame fkDone f.addr f.srcCore f.srcShuttle 0 .empty)
  | _ => s

/-- SIGNAL_FRAME_RECEIVE. -/
def execSignalFrameReceive (rx : Rx) (s : State) : Host.Outcome State Fault Refusal :=
  if rx.frame.kind = fkSignal then withRx s rx (remoteSignal rx) else .next s

end Sys2Proof.Machine
end

