-- ==== Sys2Proof/Machine/Remote.lean ====
section
/-! DEFINITION. Frames of remote requests at both ends (R160, R167, R175, R176, R182, R432, R489, R493, R494, R608): READ,
WRITE, ADD and TAP at the target, DATA and DONE at the source. -/

namespace Sys2Proof.Machine

/-! ### At the target -/

/-- The bits of a request in the tier: the units of a READ, the spans of a WRITE or TAP, the elements of an ADD. -/
def rxSpans (f : Frame) : List Span :=
  match f.inline with
  | .units us => us.map (fun u => (512 * u, 512))
  | .spans xs => xs
  | .add _ dst es => es.map (fun e => (e.1, tyWidth dst.toNat))
  | _ => []

/-- Whether the receiver accepts a request (R167): its bytes lie wholly inside one entry of the context in partition PQ
that names this module, is exported and, for a write, is not read-only. An entry begins and ends at 4 KiB (R164), so the
units of a READ stand for its bytes. -/
def accepts (s : State) (f : Frame) (write : Bool) : Bool :=
  match partAt s (faPq f.addr) with
  | none => false
  | some p => p.ctx != .empty && p.reset.isNone && p.alloc.any (fun w => match allocOf s p w with
    | some al => al.module == ownIndex s && al.xport && !(write && al.readonly) && al.tier == faTier f.addr &&
        decide (al.start ≤ faOff f.addr) && decide (faOff f.addr < al.start + al.length) &&
        (rxSpans f).all (fun x => decide (8 * al.start ≤ x.1) && decide (x.1 + x.2 ≤ 8 * (al.start + al.length)))
    | none => false)

/-- The answer to a request, on the port on which it arrived (R483). -/
def answer (s : State) (rx : Rx) (g : Frame → Frame) : State :=
  let f := rx.frame
  sendTo s (rx.port.val, rx.sender, g (bareFrame fkDone f.addr f.srcCore f.srcShuttle f.tag .empty))

/-- A refused request performs nothing: one record and a refusal (R167). -/
def refuse (rx : Rx) (s : State) : State :=
  answer (record s { kind := 0x1F, detail := rx.frame.addr.toNat, die := faPq rx.frame.addr / 4, quad := faPq rx.frame.addr })
    rx (fun f => { f with inline := .refusal })

/-- The units that a request touches. -/
def rxUnits (f : Frame) : List Nat := spanUnitsOf (rxSpans f)

def rxTier (f : Frame) : Tier := tierOf (faTier f.addr)

/-- A READ: its sound units come back as DATA, marked POISON where others are poisoned; where all are, a DONE with POISON
comes back (R175, R489, assumption 66). -/
def serveRead (rx : Rx) (ecc : MemEcc) (s : State) : State :=
  let f := rx.frame
  if accepts s f false then
    let s := wakeMemory s
    let t := rxTier f
    let us := rxUnits f
    let good := us.filter (fun u => !(isPoisoned s t u || ecc.bad.contains (t, u)))
    let data := good.flatMap (fun u => readBytes (tierMem s t) (64 * u) 64)
    let s := eccRead s t (faPq f.addr) us ecc
    if good.isEmpty && !us.isEmpty then answer s rx (fun d => { d with poison := true })
    else
      answer s rx (fun d => { d with
        kind := fkData, inline := .units good, poison := decide (good.length < us.length)
        data := data })
  else refuse rx s

/-- Elements of a WRITE or TAP within units. -/
def writeElems (f : Frame) : List Poke := unitElems (rxSpans f) f.data

/-- Units that a poisoned frame fills (R562). -/
def poisonAll (s : State) (t : Tier) (us : List Nat) : State :=
  us.foldl (fun s u => if isPoisoned s t u then s else poisonUnit s t u) s

/-- A WRITE performs and is answered with DONE (R182, R194). -/
def serveWrite (rx : Rx) (s : State) : State :=
  let f := rx.frame
  if accepts s f true then
    let s := writeMem (wakeMemory s) (rxTier f) (writeElems f)
    let s := if f.poison then poisonAll s (rxTier f) (rxUnits f) else s
    answer s rx (fun d => { d with inline := .units (rxUnits f) })
  else refuse rx s

/-- The contributions of an ADD's elements, in order: as many as each element has (R159, R160). -/
def addBlocks (ws : Nat) : List (Nat × Nat) → List Byte → List (Nat × List Nat)
  | [], _ => []
  | e :: t, bs => (e.1, (List.range e.2).map (fun r => leVal ((bs.drop (r * ws)).take ws))) :: addBlocks ws t (bs.drop (e.2 * ws))

/-- The elements of an ADD after its contributions. -/
def addedElems (m : Tbl Byte) (f : Frame) : List Poke :=
  match f.inline with
  | .add src dst es =>
    let wd := tyWidth dst.toNat
    (addBlocks (tyWidth src.toNat / 8) es f.data).map (fun x =>
      (x.1, wd, scatterAdd src.toNat dst.toNat (peek m x.1 wd) x.2))
  | _ => []

/-- An ADD performs on each element atomically; units whose old value is poisoned stay so, and the request completes
poisoned (R160, R175). -/
def serveAdd (rx : Rx) (ecc : MemEcc) (s : State) : State :=
  let f := rx.frame
  if accepts s f true then
    let s := wakeMemory s
    let t := rxTier f
    let us := rxUnits f
    let s := eccRead s t (faPq f.addr) us ecc
    let old := us.filter (isPoisoned s t)
    let s := writeMem s t (addedElems (tierMem s t) f)
    let s := poisonAll s t (if f.poison then us else old)
    answer s rx (fun d => { d with poison := !old.isEmpty, inline := .units us })
  else refuse rx s

/-- A frame that writes waits until the host has given back every line it touches (R514). -/
def afterSnoop (s : State) (rx : Rx) (g : State → State) : Host.Outcome State Fault Refusal :=
  let lines := heldLines s (rxTier rx.frame) (rxUnits rx.frame)
  if lines.isEmpty then withRx s rx g
  else match takeRx s rx with
    | none => .next s
    | some _ => .next (snoopLines s lines)

def execReadFrameReceive (rx : Rx) (ecc : MemEcc) (s : State) : Host.Outcome State Fault Refusal :=
  if rx.frame.kind = fkRead then withRx s rx (serveRead rx ecc) else .next s
def execWriteFrameReceive (rx : Rx) (s : State) : Host.Outcome State Fault Refusal :=
  if rx.frame.kind = fkWrite then afterSnoop s rx (serveWrite rx) else .next s
def execAddFrameReceive (rx : Rx) (ecc : MemEcc) (s : State) : Host.Outcome State Fault Refusal :=
  if rx.frame.kind = fkAdd then afterSnoop s rx (serveAdd rx ecc) else .next s

/-! ### At the source -/

/-- The cores that a response may mean: those whose logical number it carries. -/
def sourceCores (s : State) (lc : Nat) : List Nat := s.parts.filterMap (fun p => p.map[lc]?)

/-- The outstanding request and segment that a response answers: core, partition, queue, request, segment. -/
def findSegment (s : State) (rx : Rx) : Option (Nat × Part × Nat × Request × Segment) :=
  let f := rx.frame
  let k := tokenQueue f.tag
  (sourceCores s f.srcCore).findSome? (fun n => (corePart s n).bind (fun p =>
    (tget {} (getCore s n).queues k).reqs.findSome? (fun q =>
      if q.token == f.tag && q.dest == some rx.sender && !q.complete && q.sent then
        (q.segs.find? (fun x => segAddr (reqAlloc s p q) (8 * x.offset) == f.addr)).map (fun x => (n, p, k, q, x))
      else none)))

/-- The units that a DATA frame brings, with their 64 bytes each. -/
def dataUnits (f : Frame) : List (Nat × List Byte) :=
  match f.inline with
  | .units us => us.zipIdx.map (fun x => (x.1, (f.data.drop (64 * x.2)).take 64))
  | _ => []

/-- Whether a DATA frame brings the unit of a piece. -/
def brought (f : Frame) (y : Nat × Nat × Nat) : Bool :=
  match f.inline with
  | .units us => us.contains (y.1 / 512)
  | _ => false

/-- The local bytes of a segment's pieces whose unit a DATA frame brings. -/
def dataPokes (f : Frame) (x : Segment) : List Poke :=
  let us := dataUnits f
  (x.pieces.filter (brought f)).flatMap (fun y =>
    let v := leVal (((us.find? (fun z => z.1 == y.1 / 512)).map (fun z => z.2)).getD [])
    localPokes y.2.2 y.2.1 (v / 2 ^ (y.1 % 512) % 2 ^ y.2.1))

/-- The local bytes of pieces without data. -/
def lostPokes (ys : List (Nat × Nat × Nat)) : List Poke := ys.flatMap (fun y => localPokes y.2.2 y.2.1 0)

/-- The units whose data have arrived enter the read-combining buffer (R183). -/
def combineUnits (c : Core) (now : Nat) (al : Alloc) (f : Frame) : Core :=
  (dataUnits f).foldl (fun c x => combinePut c now (combineKey al.module al.tier x.1) x.2) c

/-- The entry of a reset partition that a response answers (R608): the oldest comes first on its lane. -/
def findAbandoned (s : State) (rx : Rx) : Option Abandoned :=
  let f := rx.frame
  s.abandoned.find? (fun x => x.core == f.srcCore && x.peer == rx.sender && x.token == f.tag && x.addr == f.addr &&
    decide (s.pll < x.expires))

/-- A response to a request of a reset partition is discarded and its entry freed (R608); any other is taken. -/
def orAbandoned (rx : Rx) (g : State → State) (s : State) : State :=
  match findAbandoned s rx with
  | some x => { s with abandoned := s.abandoned.erase x }
  | none => g s

/-- DATA: the segment's units arrive; one that it leaves out came poisoned (R175). A response that answers nothing is
discarded (R176, R608). -/
def takeData (rx : Rx) (s : State) : State :=
  match findSegment s rx with
  | none => s
  | some (n, p, k, q, x) =>
    let lost := x.pieces.filter (fun y => !brought rx.frame y)
    let s := modRequest s n k q.seq (fun r => { r with
      segs := r.segs.erase x
      got := r.got ++ dataPokes rx.frame x
      bad := r.bad ++ lostPokes lost
      poisoned := r.poisoned || !lost.isEmpty })
    modCore s n (fun c => combineUnits c s.pll (reqAlloc s p q) rx.frame)

/-- DONE for a bobbin segment: the write performed, or a refusal or poison poisons the request; the local bytes of a read
become unspecified (R167, R175). -/
def takeDone (rx : Rx) (s : State) : State :=
  match findSegment s rx with
  | none => s
  | some (n, _, k, q, x) =>
    let bad := rx.frame.poison || rx.frame.inline == .refusal
    modRequest s n k q.seq (fun r => { r with
      segs := r.segs.erase x
      poisoned := r.poisoned || bad
      bad := if bqReads q.kind then r.bad ++ lostPokes x.pieces else r.bad })

/-- Whether an access sent a frame that a DONE with TAG 0 answers, and not yet answered. -/
def sentThis (rx : Rx) (x : Access) : Bool :=
  !x.held && x.frames.any (fun y => y.2.1 == rx.sender && y.2.2.addr == rx.frame.addr) &&
  (match x.kind with
    | .signal _ => rx.frame.inline == .empty
    | .tap .. => rx.frame.inline != .empty
    | _ => false)

/-- A frame of an access has been answered; with the last one the access performs (R494). -/
def answered (s : State) (n : Nat) (sh : Shuttle) (x : Access) (dest : Nat) (addr : Dword) : State :=
  let rest := match x.frames.find? (fun y => y.2.1 == dest && y.2.2.addr == addr) with
    | some y => x.frames.erase y
    | none => x.frames
  let s := match x.kind, corePart s n with
    | .tap _ handle off count, some p => match allocAt s p handle with
      | some al => tapDrop s n al off count
      | none => s
    | _, _ => s
  if rest.isEmpty then performAccess s n sh x.id else modAccess s n sh x.id (fun y => { y with frames := rest })

/-- DONE with TAG 0: a signal has been acted on, or tap bytes have been written (R494, R433). -/
def takeSignalDone (rx : Rx) (s : State) : State :=
  let f := rx.frame
  match (sourceCores s f.srcCore).findSome? (fun n =>
    ((shOf (getCore s n) f.srcShuttle).accesses.find? (sentThis rx)).map (fun x => (n, x))) with
  | some (n, x) => answered s n f.srcShuttle x rx.sender f.addr
  | none => s

def execDataFrameReceive (rx : Rx) (s : State) : Host.Outcome State Fault Refusal :=
  if rx.frame.kind = fkData then withRx s rx (orAbandoned rx (takeData rx)) else .next s
def execDoneFrameReceive (rx : Rx) (s : State) : Host.Outcome State Fault Refusal :=
  if rx.frame.kind = fkDone then
    withRx s rx (orAbandoned rx (if rx.frame.tag = 0 then takeSignalDone rx else takeDone rx))
  else .next s

/-! ### TAP -/

/-- Tap bytes are written at the target, and the sender is told with a DONE of TAG 0; at the module itself the access
performs at once. -/
def serveTap (rx : Rx) (s : State) : State :=
  let f := rx.frame
  let done (s : State) (inl : Inline) : State :=
    let d : Rx := { port := rx.port, sender := rx.sender,
                    frame := bareFrame fkDone f.addr f.srcCore f.srcShuttle 0 inl }
    if rx.sender = ownIndex s then takeSignalDone d s else sendFrame s rx.port.val rx.sender d.frame
  if rx.sender = ownIndex s || accepts s f true then
    let s := writeMem (wakeMemory s) (rxTier f) (writeElems f)
    let s := if f.poison then poisonAll s (rxTier f) (rxUnits f) else s
    done s (.units (rxUnits f))
  else
    done (record s { kind := 0x1F, detail := f.addr.toNat, die := faPq f.addr / 4, quad := faPq f.addr }) .refusal

def execTapFrameReceive (rx : Rx) (s : State) : Host.Outcome State Fault Refusal :=
  if rx.frame.kind = fkTap then afterSnoop s rx (serveTap rx) else .next s

end Sys2Proof.Machine
end

