-- ==== Sys2Proof/Machine/Rings.lean ====
section
/-! DEFINITION. Command rings (R519 to R528, R542): when a ring takes its next command, the checks that every command
meets, completions, and the registers by which host software drives a ring. -/

namespace Sys2Proof.Machine

/-! ### Fields of CELLAR_RING_CTRL -/

def ringSize (x : Ring) : Nat := 2 ^ bits x.ctrl 0 4
def ringEn (x : Ring) : Bool := bit x.ctrl 4
def ringIen (x : Ring) : Bool := bit x.ctrl 5

/-! ### Completion (R526) -/

/-- Completion status codes (R528). -/
def stDone : Nat := 0x00
def stState : Nat := 0x20
def stField : Nat := 0x21
def stHost : Nat := 0x22
def stImage : Nat := 0x23
def stShort : Nat := 0x24
def stLayout : Nat := 0x25
def stNoPart : Nat := 0x26
def stService : Nat := 0x27
def stFaulted : Nat := 0x28

/-- The next index of a ring. -/
def ringNext (x : Ring) (i : BitVec 12) : BitVec 12 := BitVec.ofNat 12 ((i.toNat + 1) % ringSize x)

/-- Write a completion entry and advance CPL_TAIL; PHASE inverts on the wrap (R526), and vector 4r is raised under IEN
(R534). -/
def completeCmd (s : State) (r : Nat) (tag : Half) (status detail : Nat) : State :=
  let x := getRing s r
  let c : Completion :=
    { ring := r, addr := x.cplBase.toNat + 16 * x.cplTail.toNat, tag := tag, status := status, phase := x.phase, seq := x.seq,
      detail := BitVec.ofNat 64 detail }
  let next := ringNext x x.cplTail
  let s := setRing s r { x with
    cplTail := next
    phase := if next = 0 then !x.phase else x.phase
    seq := x.seq + 1
    busy := none }
  let s := { s with host := { s.host with completions := s.host.completions ++ [c] } }
  if ringIen x then raiseVector s (4 * r) else s

/-- Complete the command in progress on a ring, if it is the one given. -/
def completeBusy (s : State) (r opc status detail : Nat) : State :=
  match (getRing s r).busy with
  | some b => if b.opc = opc then completeCmd s r b.tag status detail else s
  | none => s

/-! ### Command codes (R527) -/

def cLoad : Nat := 1
def cStart : Nat := 2
def cStop : Nat := 3
def cUnload : Nat := 4
def cCheckpoint : Nat := 5
def cRestore : Nat := 6
def cReplay : Nat := 7
def cPartition : Nat := 8
def cReset : Nat := 9

/-! ### When a ring takes a command -/

/-- Commands that a service state accepts (Service states, R620). -/
def serviceTakes (service opc : Nat) : Bool :=
  service == 1 || (service == 2 && opc == cReset) ||
  (service == 3 && [cStop, cCheckpoint, cUnload, cReset].contains opc)

/-- S4, a deeper stage or CRIT leaves every command but STOP, CHECKPOINT, UNLOAD and RESET at the head of its ring (R637,
R646). -/
def shedHolds (s : State) (opc : Nat) : Bool :=
  (decide (4 ≤ stageNow s) || s.power.crit) && !([cStop, cCheckpoint, cUnload, cReset].contains opc)

/-- A reset sequence holds the other commands of its partition's ring, and an L4 every ring but ring 0 (R617). -/
def resetHolds (s : State) (r opc : Nat) : Bool :=
  s.parts.any (fun p => match p.reset with
    | some q => (p.low == r && opc != cReset) || (q.level == 4 && r != 0)
    | none => false)

/-- A partition at an idle level leaves it before its command executes (R652), and one under test holds its commands but
RESET (R671). -/
def partHolds (s : State) (r opc : Nat) : Bool :=
  match partAt s r with
  | some p => (partQuads p).any (fun q => (getQuad s q).idle != 0) || (!p.testing.isEmpty && opc != cReset)
  | none => false

/-- Ring r takes the entry at HEAD now (R523, R526): it is enabled, not empty, idle, has room for the completion, the
device is past START-UP, its power is on and nothing holds the command. -/
def ringReady (s : State) (r opc : Nat) : Bool :=
  let x := getRing s r
  ringEn x && x.head != x.tail && x.busy.isNone && ringNext x x.cplTail != x.cplHead && s.boot.service != 0 &&
    s.power.rails && !shedHolds s opc && !resetHolds s r opc && !partHolds s r opc

/-- A command whose OPC is undefined, or whose entry could not be read, comes with LOAD's row (assumption 16). -/
def rowTakes (opc : Nat) (e : CmdEntry) : Bool :=
  if e.bad ∨ e.opc.toNat = 0 ∨ 9 < e.opc.toNat then opc == cLoad else e.opc.toNat == opc

/-- The fields every command must leave 0 (R525). -/
def entryBad (e : CmdEntry) : Bool := e.z1 != 0 || e.z4 != 0 || e.z56 != 0 || e.opc == 0 || decide (9 < e.opc.toNat)

/-- Take the entry at HEAD and execute it: host-memory errors, fields, service state, partition and context state are
checked in this order (R519, R520, R525, R527; assumption 32). `fields` says whether a field of the command lies outside
its range; `states` whether its context state accepts it. -/
def ringCommand (opc : Nat) (r : Fin 8) (e : CmdEntry) (s : State) (fields : Bool) (states : Part → Bool)
    (g : Part → State → State) : Host.Outcome State Fault Refusal :=
  if !ringReady s r.val opc || !rowTakes opc e then .next s
  else
    let t := modRing s r.val (fun x => { x with head := ringNext x x.head })
    if e.bad then .next (completeCmd t r.val e.tag stHost 0)
    else if entryBad e || fields then .next (completeCmd t r.val e.tag stField 0)
    else if !serviceTakes s.boot.service opc then .next (completeCmd t r.val e.tag stService 0)
    else match partAt s r.val with
      | none => .next (completeCmd t r.val e.tag stNoPart 0)
      | some p => .next (if states p then g p t else completeCmd t r.val e.tag stState 0)

/-- A command that completes later keeps its ring busy (R523). -/
def keepBusy (s : State) (r opc : Nat) (tag : Half) : State :=
  modRing s r (fun x => { x with busy := some { opc := opc, tag := tag } })

/-! ### The registers of a ring -/

/-- A pointer field as it is stored: clamped below 2^SIZE (R537). -/
def clampPtr (x : Ring) (value : Word) : BitVec 12 := BitVec.ofNat 12 (min (bits value 0 12) (ringSize x - 1))

/-- A write of TAIL: entries up to it may be fetched (R523). -/
def tailWrite (s : State) (r : Nat) (value : Word) : State := modRing s r (fun x => { x with tail := clampPtr x value })

/-- CELLAR_RING_TAIL_WRITE. -/
def execCellarRingTailWrite (r : Fin 8) (value : Word) (s : State) : Host.Outcome State Fault Refusal :=
  .next (tailWrite s r.val value)

/-- A write of CPL_HEAD: host software has consumed completions (R526). -/
def cplHeadWrite (s : State) (r : Nat) (value : Word) : State :=
  modRing s r (fun x => { x with cplHead := clampPtr x value })

/-- CELLAR_CPL_HEAD_WRITE. -/
def execCellarCplHeadWrite (r : Fin 8) (value : Word) (s : State) : Host.Outcome State Fault Refusal :=
  .next (cplHeadWrite s r.val value)

/-- The stored CELLAR_RING_CTRL: SIZE is clamped to 6 to 12, and kept while EN is 1 (R537, R539). -/
def storeCtrl (x : Ring) (value : Word) : Word :=
  let size := if ringEn x then bits x.ctrl 0 4 else max 6 (min 12 (bits value 0 4))
  BitVec.ofNat 32 (size + bits value 4 2 * 2 ^ 4)

/-- A write of CELLAR_RING_CTRL: EN from 0 to 1 resets the pointers and PHASE; from 1 to 0 the command in progress
completes and no further entry is fetched (R542). -/
def ctrlWrite (s : State) (r : Nat) (value : Word) : State :=
  modRing s r (fun x =>
    let y := { x with ctrl := storeCtrl x value }
    if !ringEn x && ringEn y then { y with tail := 0, head := 0, cplHead := 0, cplTail := 0, phase := true } else y)

/-- CELLAR_RING_CTRL_WRITE. -/
def execCellarRingCtrlWrite (r : Fin 8) (value : Word) (s : State) : Host.Outcome State Fault Refusal :=
  .next (ctrlWrite s r.val value)

end Sys2Proof.Machine
end

