-- ==== Sys2Proof/Machine/Context.lean ====
section
/-! DEFINITION. Contexts (R51 to R67, R88, R96, R124 to R126, R218 to R220, R529 to R533): loading, starting, stopping and
unloading, and the clearing of a context switch. -/

namespace Sys2Proof.Machine

/-! ### What a context switch clears (R218) -/

/-- A shuttle after a context switch: CORE_PROGRESS keeps its count (R219). -/
def clearSh (x : Sh) : Sh := { progress := x.progress, progressAt := x.progressAt }

/-- A core after a context switch: counters, CORE_STARVE_CFG, the intermittent history and its cause stay (R219, R304,
R583); internal numbers of results and accesses never repeat. -/
def clearCore (c : Core) : Core :=
  { f := clearSh c.f, b := clearSh c.b, u := clearSh c.u, counters := c.counters, starveCfg := c.starveCfg,
    intermits := c.intermits, storeCause := c.storeCause, fenceStore := c.fenceStore, nextOrder := c.nextOrder, nextAccess := c.nextAccess }

/-- The outstanding remote parts of a request, as entries that swallow late responses (R608). -/
def abandonRequest (s : State) (p : Part) (lc : Nat) (q : Request) : List Abandoned :=
  match q.dest with
  | some m => if q.sent ∧ !q.complete then
      q.segs.map (fun x => { core := lc, peer := m, token := q.token, addr := segAddr (reqAlloc s p q) (8 * x.offset),
                             expires := q.sentAt + us (bits s.reqTimeout 0 20) })
    else []
  | none => []

/-- The same for signals and tap bytes, whose DONE carries TAG 0. -/
def abandonAccess (s : State) (lc : Nat) (x : Access) : List Abandoned :=
  let exp := s.pll + us (bits s.reqTimeout 0 20)
  match x.kind with
  | .signal _ | .tap .. =>
    if x.held then [] else x.frames.map (fun y => { core := lc, peer := y.2.1, token := 0, addr := y.2.2.addr, expires := exp })
  | _ => []

/-- Everything of a core that still awaits a response. -/
def abandonCore (s : State) (p : Part) (n : Nat) : List Abandoned :=
  let c := getCore s n
  let lc := (logicalOf p n).getD 0
  c.queues.flatMap (fun x => x.2.reqs.flatMap (abandonRequest s p lc)) ++
    allShuttles.flatMap (fun sh => (shOf c sh).accesses.flatMap (abandonAccess s lc))

/-- Keep an entry for each remote request, signal and tap of a partition without a response (R608). -/
def abandonPart (s : State) (p : Part) : State :=
  { s with abandoned := s.abandoned.filter (fun x => decide (s.pll < x.expires)) ++ p.map.flatMap (abandonCore s p) }

/-- Held signals of a partition's cores never go (R607). -/
def dropHeldSignals (s : State) (p : Part) : State :=
  { s with signals := s.signals.filter (fun g => !(g.held && (match g.source with
      | some (n, _, _) => (partCores p).contains n
      | none => false))) }

/-- The quadrant registers of a context switch: generation, mode, and a test pairing or one still waiting (R406, R441,
R672). QUAD_PAIR otherwise stays (R219). -/
def clearQuad (x : Quad) : Quad :=
  { x with maskGen := 0, ctxMode := 0, pairNext := none
           pair := if x.testPair then 0 else x.pair
           testPair := false }

/-- A partition with nothing loaded. -/
def emptyPart (p : Part) : Part :=
  { low := p.low, size := p.size, reset := p.reset, testing := p.testing, afterReset := p.afterReset,
    clearing := p.clearing }

/-- The transition of a partition's context to EMPTY, with the clearing of R218. -/
def clearPart (s : State) (p : Part) : State :=
  let s := dropHeldSignals (abandonPart s p) p
  let s := (partCores p).foldl (fun s n => modCore s n clearCore) s
  let s := modPartQuads s p clearQuad
  let s := (partCasks p).foldl (fun s k => modCask s k (fun c =>
    { c with buckets := c.buckets.filter (fun x => x.low != p.low) })) s
  modPart s p.low emptyPart

/-! ### The logical map (R57 to R62, R66) -/

/-- The cores of a quadrant that exist. -/
def presentCores (s : State) (q : Nat) : List Nat := (quadCores q).filter (fun n => !isDisabled s n)

/-- The logical cores of one quadrant for k_q, with the fenced core that a pairing would bind; `none` when R66 refuses
k_q. -/
def mapQuad (s : State) (q k : Nat) : Option (List Nat × Option Nat) :=
  let present := presentCores s q
  let good := present.filter (fun n => !isFenced s n)
  let fenced := present.filter (isFenced s)
  if k = 0 ∨ present.length < k then none
  else if k ≤ good.length then some (good.take k, none)
  else match fenced with
    | [f] => if k = good.length + 1 ∧ !(getCore s f).fenceStore then some (present, some f) else none
    | _ => none

/-- The map of a partition for its k_q, and the pairings it needs. -/
def mapPart (s : State) : List Nat → List Nat → Option (List Nat × List (Nat × Option Nat))
  | [], [] => some ([], [])
  | q :: qs, k :: ks =>
    match mapQuad s q k, mapPart s qs ks with
    | some (a, f), some (b, l) => some (a ++ b, (q, f) :: l)
    | _, _ => none
  | _, _ => none

/-! ### Fix-ups (R531 to R533) -/

def fixIndex (f : BitVec 128) : Nat := bits f 0 32
def fixShuttle (f : BitVec 128) : Nat := bits f 32 2
def fixCore (f : BitVec 128) : Nat := bits f 34 8
def fixBit (f : BitVec 128) : Nat := bits f 42 7
def fixWidth (f : BitVec 128) : Nat := bits f 49 7
def fixKind (f : BitVec 128) : Nat := bits f 56 4
def fixArg (f : BitVec 128) : Nat := bits f 64 4

def imageOf (c : CoreImage) (sh : Nat) : List InstrWord := if sh = 0 then c.f else if sh = 1 then c.b else c.u

def setImage (c : CoreImage) (sh : Nat) (l : List InstrWord) : CoreImage :=
  if sh = 0 then { c with f := l } else if sh = 1 then { c with b := l } else { c with u := l }

/-- Whether a fix-up lies inside the images (R532). -/
def fixOk (cs : List CoreImage) (f : BitVec 128) : Bool :=
  decide (fixShuttle f < 3) && decide (fixKind f < 3) && decide (1 ≤ fixWidth f) && decide (fixWidth f ≤ 64) &&
  decide (fixBit f + fixWidth f ≤ 128) &&
  (match cs[fixCore f]? with
    | some c => decide (fixIndex f < (imageOf c (fixShuttle f)).length)
    | none => false)

/-- The value that a fix-up writes (R532). -/
def fixValue (s : State) (low : Nat) (params : List Dword) (f : BitVec 128) (old : Nat) : Nat :=
  if fixKind f = 0 then (old + ownIndex s) % fabricN s
  else if fixKind f = 1 then low
  else (params.getD (fixArg f) 0).toNat

/-- Apply one fix-up; an entry outside the images writes nothing. -/
def applyFix (s : State) (low : Nat) (params : List Dword) (cs : List CoreImage) (f : BitVec 128) : List CoreImage :=
  if fixOk cs f then
    cs.modify (fixCore f) (fun c => setImage c (fixShuttle f) ((imageOf c (fixShuttle f)).modify (fixIndex f) (fun w =>
      setBits w (fixBit f) (fixWidth f) (fixValue s low params f (bits w (fixBit f) (fixWidth f))))))
  else cs

def applyFixups (s : State) (low : Nat) (params : List Dword) (cs : List CoreImage) (fs : List (BitVec 128)) :
    List CoreImage := fs.foldl (applyFix s low params) cs

/-! ### The load checks (R51, R96) -/

/-- The longest run of instructions without a wait in an image (R30; assumption 33). -/
def longestRun (img : List InstrWord) : Nat :=
  (img.foldl (fun (a : Nat × Nat) w =>
    if waitOpcode (fldOp w) then (a.1, 0) else (max a.1 (a.2 + 1), a.2 + 1)) (0, 0)).1

def allImages (cs : List CoreImage) : List (List InstrWord) := cs.flatMap (fun c => [c.f, c.b, c.u])

/-- Slot plans as R51 and R96 require. -/
def plansOk (c : CoreImage) : Bool :=
  decide (1 ≤ c.plans.length) && decide (c.plans.length ≤ 4) &&
    c.plans.all (fun l => decide (1 ≤ l.length) && decide (l.length ≤ 512))

/-- The first refusal code of R96 whose condition holds, on the patched images; token demand counts half tokens. -/
def loadRefusal (s : State) (p : Part) (x : Binary) (cs : List CoreImage) : Option Nat :=
  let map := mapPart s (partQuads p) x.kq
  let logical := (map.map (fun m => m.1.length)).getD 0
  if x.code ≠ s.fuses.code then some 0x02
  else if x.fabric ≠ fabricN s then some 0x03
  else if x.quadrants ≠ p.size then some 0x04
  else if !((x.profile = 1 && s.fuses.tp1) || (x.profile = 2 && s.fuses.tp2)) then some 0x05
  else if map.isNone then some 0x06
  else if (allImages cs).any (fun l => decide (2048 < longestRun l)) then some 0x07
  else if cs.length < logical ∨ !(cs.take logical).all plansOk then some 0x08
  else if x.demand.any (fun l => l.any (fun d => decide (600 < d))) then some 0x09
  else if !x.fixups.all (fixOk x.cores) then some 0x0A
  else if (allImages cs).any (fun l => l.any (fun w => decide (fldGap w = 0 ∨ 64 < fldGap w))) then some 0x0B
  else none

/-! ### The code region (R530) -/

/-- Bytes of a list of images. -/
def codeSize (cs : List CoreImage) : Nat := 16 * ((allImages cs).map (fun l => l.length)).sum

/-- Rounded up to 4 KiB. -/
def up4k (n : Nat) : Nat := (n + 4095) / 4096 * 4096

def overlaps (a n b m : Nat) : Bool := decide (a < b + m) && decide (b < a + n) && decide (0 < n) && decide (0 < m)

/-- Whether a code region meets the own-HBM3E allocations of the LOAD, another context's code region or the error ring, or
leaves its tier. -/
def regionBad (s : State) (p : Part) (alloc : List (BitVec 128)) (at_ len : Nat) : Bool :=
  decide (hbmBytes < at_ + len) ||
  alloc.any (fun w => match allocOf s p w with
    | some a => a.tier == 0 && a.module == ownIndex s && overlaps at_ len a.start a.length
    | none => false) ||
  s.parts.any (fun x => x.low != p.low && overlaps at_ len x.codeStart x.codeLen) ||
  overlaps at_ len (bits s.errors.base 0 42) (64 * 65536)

/-- The bytes of the images, core by core in the order F, B, U. -/
def codeBytes (cs : List CoreImage) : List Byte := (allImages cs).flatMap (fun l => l.flatMap (fun w => leBytes 16 w.toNat))

/-! ### LOAD -/

/-- A core at LOADED (R52): images, plans, and the descriptor images that pass R138; a shuttle without instructions has
ended (assumption 33). -/
def loadCore (s : State) (p : Part) (c : Core) (x : CoreImage) : Core :=
  let mode (l : List InstrWord) : ShMode := if l.isEmpty then .ended else .run
  { c with
    imgF := x.f
    imgB := x.b
    imgU := x.u
    plans := x.plans
    f := { c.f with mode := mode x.f }
    b := { c.b with mode := mode x.b }
    u := { c.u with mode := mode x.u }
    desc := x.descs.foldl (fun t d =>
      if d.1 < 256 ∧ (descReason s p d.2).isNone then tset none t d.1 (some d.2) else t) c.desc }

/-- The QUAD_PAIR value of a pairing. -/
def pairWord (f g : Nat) : Word := BitVec.ofNat 32 (f % 24 + g % 24 * 2 ^ 8 + 2 ^ 15)

/-- The pairing that a load's map needs in a quadrant, or none (R59). A new one waits for a beat-up of the context (R64); one
that QUAD_PAIR still holds from the last context stays (R219, assumption 34). -/
def loadPair (s : State) (x : Nat × Option Nat) : State :=
  modQuad s x.1 (fun q =>
    let want : Word := match x.2 with
      | some f => pairWord f (partnerOf s f)
      | none => 0
    if q.pair = want ∧ q.testPair = false then { q with pairNext := none }
    else { q with pair := 0, pairNext := x.2.map (fun f => (f % 24, partnerOf s f % 24)), testPair := false })

/-- The partition as a load leaves it. -/
def loadedPart (p : Part) (x : Binary) (map : List Nat) (e : CmdEntry) (input : LoadInput) (len : Nat) : Part :=
  { low := p.low, size := p.size, testing := p.testing, ctx := .loaded, profile := x.profile, map := map,
    alloc := input.alloc.take (e.len1.toNat / 16), codeStart := e.addr2.toNat, codeLen := len,
    digest := Config.sha384 input.raw }

/-- An accepted load (R52, R430, R669). -/
def acceptLoad (s : State) (p : Part) (x : Binary) (cs : List CoreImage) (e : CmdEntry) (input : LoadInput) (len : Nat) :
    State :=
  match mapPart s (partQuads p) x.kq with
  | none => s
  | some (map, pairs) =>
    let s := writeMemBytes s .hbm e.addr2.toNat (codeBytes cs)
    let p' := loadedPart p x map e input len
    let s := modPart s p.low (fun _ => p')
    let s := (map.zip cs).foldl (fun s y => modCore s y.1 (fun c => loadCore s p' c y.2)) s
    let s := pairs.foldl loadPair s
    modPartQuads s p (fun q => { q with jnlIndex := 0 })

/-- After a refused load the code region is unspecified (R529): fresh free bytes. -/
def spoilRegion (s : State) (at_ len : Nat) : State :=
  { writeMemBytes s .hbm at_ (drawBytes s.draws len) with draws := s.draws + len }

/-- LOAD on an EMPTY partition. -/
def doLoad (r : Nat) (e : CmdEntry) (input : LoadInput) (p : Part) (s : State) : State :=
  match input.binary with
  | none => completeCmd s r e.tag (if input.bad then stHost else 0x01) 0
  | some x =>
    let params := if e.arg = 0 then [] else input.params
    let cs := applyFixups s p.low params x.cores x.fixups
    let len := up4k (codeSize x.cores)
    if input.bad then completeCmd s r e.tag stHost 0
    else if regionBad s p (input.alloc.take (e.len1.toNat / 16)) e.addr2.toNat len then completeCmd s r e.tag stField 0
    else match loadRefusal s p x cs with
      | some code => completeCmd (spoilRegion s e.addr2.toNat len) r e.tag code (codeSize x.cores)
      | none => completeCmd (acceptLoad s p x cs e input len) r e.tag stDone (codeSize x.cores)

/-- Fields of LOAD (R519, R525, R527). -/
def loadFields (e : CmdEntry) : Bool :=
  e.addr0.toNat % 64 != 0 || e.addr1.toNat % 64 != 0 || e.arg.toNat % 64 != 0 || e.len1.toNat % 16 != 0 ||
    decide (65536 < e.len1.toNat) || e.addr2.toNat % 4096 != 0

/-- Units of the code region that the host holds (R514). -/
def loadLines (s : State) (e : CmdEntry) (input : LoadInput) : List Nat :=
  match input.binary with
  | some x => heldLines s .hbm ((List.range (up4k (codeSize x.cores) / 64)).map (fun i => e.addr2.toNat / 64 + i))
  | none => []

/-- LOAD: it waits until the clearing of R220 is complete. -/
def execLoad (r : Fin 8) (e : CmdEntry) (input : LoadInput) (s : State) : Host.Outcome State Fault Refusal :=
  if ((partAt s r.val).bind (fun p => p.clearing)).isSome then .next s
  else
    let lines := loadLines s e input
    if ringReady s r.val cLoad && rowTakes cLoad e && !lines.isEmpty then .next (snoopLines s lines)
    else ringCommand cLoad r e s (loadFields e) (fun p => p.ctx == .empty && p.reset.isNone) (doLoad r.val e input)

/-! ### START (R53, R54) -/

/-- A shuttle that starts: as if it had issued on the cycle before cycle s. -/
def startSh (cycle now : Nat) (x : Sh) : Sh := { x with last := cycle, resumed := false, progressAt := now }

/-- Every core starts on the next CCLK cycle (R53): `fresh` starts it from the beginning, with phase counter and slot plan
0. -/
def startCore (now : Nat) (fresh : Bool) (c : Core) : Core :=
  let g (x : Sh) : Sh := if fresh then startSh c.cycle now x else { x with progressAt := now }
  { c with
    f := g c.f
    b := g c.b
    u := g c.u
    cycle := c.cycle + 1
    sched := false
    phase := if fresh then 0 else c.phase
    plan := if fresh then 0 else c.plan
    planPending := if fresh then none else c.planPending }

/-- The context enters RUNNING: T_START of a first entry (R428), the horizon starts anew (R649), a stop that a fence asked
for is performed (R574), and a pairing in force dilates from the start cycle (R63). -/
def enterRunning (s : State) (p : Part) (fresh : Bool) : State :=
  let s := p.map.foldl (fun s n => modCore s n (startCore s.pll fresh)) s
  let s := modPartQuads s p (fun q => { q with pairFrom := s.cc + 1 })
  modPart s p.low (fun x => { x with
    ctx := .running
    jnlStart := if x.jnlFresh then deviceTime s else x.jnlStart
    jnlFresh := false
    horizon := []
    stopping := x.stopAtRun
    stopAtRun := false
    faultFirst := if fresh then none else x.faultFirst })

def execStart (r : Fin 8) (e : CmdEntry) (s : State) : Host.Outcome State Fault Refusal :=
  ringCommand cStart r e s false (fun p => (p.ctx == .loaded || p.ctx == .stopped) && p.reset.isNone)
    (fun p s => completeCmd (enterRunning s p (p.ctx == .loaded)) r.val e.tag stDone 0)

/-! ### STOP, CONTEXT_STOPPED and CONTEXT_FAULTED (R55, R124 to R126, R431) -/

/-- A stop under R55: each shuttle stops at its next wait. -/
def stopPart (s : State) (low : Nat) : State :=
  modPart s low (fun p => if p.ctx = .running then { p with stopping := true } else p)

/-- Stop every RUNNING context. -/
def stopAll (s : State) : State := s.parts.foldl (fun s p => stopPart s p.low) s

def execStop (r : Fin 8) (e : CmdEntry) (s : State) : Host.Outcome State Fault Refusal :=
  ringCommand cStop r e s false (fun p => p.ctx == .running && p.reset.isNone)
    (fun _ s => keepBusy (stopPart s r.val) r.val cStop e.tag)

/-- The context leaves RUNNING: REPLAY is cleared (R431). -/
def leaveRunning (s : State) (p : Part) (ctx : Ctx) : State :=
  let s := modPartQuads s p (fun q => { q with ctxMode := setBits q.ctxMode 1 1 0 })
  modPart s p.low (fun x => { x with ctx := ctx, stopping := false, replayLeft := 0, s4Hold := none })

/-- Every shuttle of a context satisfies a test. -/
def allSh (s : State) (p : Part) (g : Core → Sh → Bool) : Bool :=
  p.map.all (fun n => allShuttles.all (fun sh => g (getCore s n) (shOf (getCore s n) sh)))

/-- Held at a wait or at its end (R52). -/
def shHeld (_ : Core) (x : Sh) : Bool := x.mode == .wait || x.mode == .ended
/-- Ended. -/
def shEnded (_ : Core) (x : Sh) : Bool := x.mode == .ended

/-- CONTEXT_STOPPED: after a stop every shuttle is held, or every stream has ended (R52, R55). -/
def execContextStopped (q : Fin 8) (s : State) : Host.Outcome State Fault Refusal :=
  match partOf s q.val with
  | none => .next s
  | some p =>
    if p.ctx == .running && p.reset.isNone && p.faultFirst.isNone &&
        ((p.stopping && allSh s p shHeld) || allSh s p shEnded) then
      .next (completeBusy (leaveRunning s p .stopped) p.low cStop stDone 0)
    else .next s

/-- Halted after a fault: on the faulting core from the halt cycle, elsewhere at a wait (R124). -/
def shHalted (cc : Nat) (c : Core) (x : Sh) : Bool :=
  x.mode == .halted || x.mode == .ended || x.mode == .wait ||
    (match c.haltAt with | some h => decide (h ≤ cc) | none => false)

/-- Mark every shuttle that has not ended as halted. -/
def haltCore (c : Core) : Core :=
  allShuttles.foldl (fun c sh => modSh c sh (fun x => if x.mode = .ended then x else { x with mode := .halted })) c

/-- CONTEXT_FAULTED: every shuttle has halted; a STOP in progress completes with status 0x28 (R125, R126, R528). A fault that
a pass in flight detects once the context is STOPPED overlaps the stop. -/
def execContextFaulted (q : Fin 8) (s : State) : Host.Outcome State Fault Refusal :=
  match partOf s q.val with
  | none => .next s
  | some p =>
    if (p.ctx == .running || p.ctx == .stopped) && p.reset.isNone && p.faultFirst.isSome && allSh s p (shHalted s.cc) then
      let s := p.map.foldl (fun s n => modCore s n haltCore) s
      .next (completeBusy (leaveRunning s p .faulted) p.low cStop stFaulted 0)
    else .next s

/-! ### UNLOAD and the end of the clearing (R218, R220) -/

def execUnload (r : Fin 8) (e : CmdEntry) (s : State) : Host.Outcome State Fault Refusal :=
  ringCommand cUnload r e s false (fun p => (p.ctx == .loaded || p.ctx == .stopped) && p.reset.isNone)
    (fun p s =>
      let s := modPart (clearPart s p) r.val (fun x => { x with clearing := some s.pll, afterReset := false })
      keepBusy s r.val cUnload e.tag)

/-- CONTEXT_CLEAR_COMPLETE: the UNLOAD completes, and a LOAD may proceed (R220). A PARTITION command meanwhile may have joined
the partition to others: the UNLOAD completes on the ring on which it came. -/
def execContextClearComplete (q : Fin 8) (s : State) : Host.Outcome State Fault Refusal :=
  match partOf s q.val with
  | none => .next s
  | some p =>
    if p.clearing.isSome then
      .next ((partQuads p).foldl (fun s r => completeBusy s r cUnload stDone 0)
        (modPart s p.low (fun x => { x with clearing := none })))
    else .next s

/-! ### PARTITION (R43, R44, R520) -/

/-- The starts of a layout: bit q set where a partition starts. -/
def layoutStarts (arg : Nat) : List Nat := (List.range 8).filter (fun q => arg.testBit q)

/-- The partitions of a layout as lowest quadrant and size. -/
def layoutParts : List Nat → List (Nat × Nat)
  | [] => []
  | [a] => [(a, 8 - a)]
  | a :: b :: t => (a, b - a) :: layoutParts (b :: t)

/-- A partition of R43: a power of two of quadrants, aligned to its size. -/
def legalPart (x : Nat × Nat) : Bool :=
  (x.2 == 1 || x.2 == 2 || x.2 == 4 || x.2 == 8) && x.1 % x.2 == 0

def layoutOk (arg : Nat) : Bool := bit (BitVec.ofNat 8 arg) 0 && (layoutParts (layoutStarts arg)).all legalPart

/-- A partition of a new layout: quadrants that were EMPTY after a reset, or under test, stay so. -/
def newPart (s : State) (x : Nat × Nat) : Part :=
  let old := s.parts.filter (fun p => (partQuads p).any (fun q => decide (x.1 ≤ q) && decide (q < x.1 + x.2)))
  { low := x.1, size := x.2, afterReset := old.any (fun p => p.afterReset),
    testing := old.flatMap (fun p => p.testing.filter (fun n => decide (x.1 ≤ quadOf n) && decide (quadOf n < x.1 + x.2))),
    clearing := old.findSome? (fun p => p.clearing) }

/-- Partition-wide registers take the value of the lowest quadrant (R404, R440, R683; assumption 35), and the choice of an
idle level begins anew. -/
def shareQuad (from_ x : Quad) : Quad :=
  { x with ctxMode := from_.ctxMode, jnlBase := from_.jnlBase, jnlIndex := from_.jnlIndex, replayTaps := from_.replayTaps,
           replayDrop := from_.replayDrop, hangCtrl := from_.hangCtrl, maskGen := from_.maskGen, idle := 0, exitAt := none }

def applyLayout (s : State) (arg : Nat) : State :=
  let ps := (layoutParts (layoutStarts arg)).map (newPart s)
  let s := { s with parts := ps }
  ps.foldl (fun s p => modPartQuads s p (shareQuad (getQuad s p.low))) s

/-- Every partition's context is EMPTY, and no reset is in progress. -/
def allEmpty (s : State) : Bool := s.parts.all (fun p => p.ctx == .empty && p.reset.isNone)

def execPartition (r : Fin 8) (e : CmdEntry) (s : State) : Host.Outcome State Fault Refusal :=
  ringCommand cPartition r e s (decide (2 ^ 8 ≤ e.arg.toNat)) (fun _ => allEmpty s && r.val == 0)
    (fun _ s =>
      if layoutOk e.arg.toNat then completeCmd (applyLayout s e.arg.toNat) r.val e.tag stDone 0
      else completeCmd s r.val e.tag stLayout 0)

end Sys2Proof.Machine
end

