-- ==== Sys2Proof/Machine/Checkpoint.lean ====
section
/-! DEFINITION. Checkpoint images (R403, R430, R431, R435 to R437, R597): CHECKPOINT, RESTORE and REPLAY. -/

namespace Sys2Proof.Machine

/-! ### Addresses (R162, R527) -/

def ckTier (a : Dword) : Tier := tierOf (bits a 42 2)
def ckOff (a : Dword) : Nat := bits a 0 42

/-- ADDR0 of CHECKPOINT, RESTORE and REPLAY: TIER and OFFSET, other bits 0. -/
def ckAddrBad (e : CmdEntry) : Bool := decide (2 ^ 44 ≤ e.addr0.toNat) || decide (2 ≤ bits e.addr0 42 2)

/-- Whether a range lies inside a tier. -/
def inTier (s : State) (t : Tier) (off n : Nat) : Bool := decide (off + n ≤ tierBytes s (tierCode t))

/-- Units that a byte range touches. -/
def rangeUnits (off n : Nat) : List Nat :=
  if n = 0 then [] else (List.range ((off + n - 1) / 64 - off / 64 + 1)).map (fun i => off / 64 + i)

/-- Bytes as elements, each within one unit, from any offset. -/
def bytePokes (off : Nat) (bs : List Byte) : List Poke := localPokes (8 * off) (8 * bs.length) (leVal bs)

/-- Pad with zeros to a multiple of 64 bytes. -/
def pad64 (bs : List Byte) : List Byte := bs ++ List.replicate (r64 bs.length - bs.length) 0

/-! ### Writing an image (R435) -/

/-- "CHX1CKPT". -/
def ckMagic : Nat := leVal [0x43, 0x48, 0x58, 0x31, 0x43, 0x4B, 0x50, 0x54]

/-- The bytes that a record source names. -/
def sourceBytes (s : State) (x : RecordSource) : List Byte := readBytes (tierMem s x.tier) x.offset x.length

/-- The 64-byte record header. -/
def recordHeader (x : RecordSource) (payload : List Byte) : List Byte :=
  leBytes 1 x.kind.toNat ++ leBytes 1 0 ++ leBytes 2 x.tensor.toNat ++ leBytes 6 x.estart.toNat ++ leBytes 6 0 ++
    leBytes 8 x.length ++ leBytes 36 0 ++ leBytes 4 (crc32c payload)

/-- A record: header and padded payload. -/
def recordImage (s : State) (x : RecordSource) : List Byte :=
  let b := sourceBytes s x
  recordHeader x b ++ pad64 b

/-- The 64-byte checkpoint header. -/
def ckHeader (s : State) (p : Part) (records length : Nat) : List Byte :=
  let q := getQuad s p.low
  let h := leBytes 8 ckMagic ++ leBytes 2 1 ++ leBytes 2 s.fuses.code.toNat ++ leBytes 2 (ownIndex s) ++
    leBytes 2 (fabricN s) ++ leBytes 8 p.jnlStep.toNat ++ leBytes 4 (bits q.maskGen 0 32) ++ leBytes 1 (bits q.maskGen 32 1) ++
    leBytes 3 0 ++ leBytes 4 records ++ leBytes 4 0 ++ leBytes 8 length ++ leBytes 8 q.jnlIndex.toNat ++ leBytes 4 0
  h ++ leBytes 4 (crc32c h)

/-- The whole image. -/
def ckImage (s : State) (p : Part) (manifest : List RecordSource) : List Byte :=
  let body := manifest.flatMap (recordImage s)
  ckHeader s p manifest.length (64 + body.length) ++ body

/-- Bytes of the image. -/
def ckLength (manifest : List RecordSource) : Nat := 64 + (manifest.map (fun x => 64 + r64 x.length)).sum

/-- Where each payload lies in the image. -/
def payloadAt : Nat → List RecordSource → List (Nat × RecordSource)
  | _, [] => []
  | k, x :: t => (k + 64, x) :: payloadAt (k + 64 + r64 x.length) t

/-- A payload that reads a poisoned unit stands poisoned in the image (assumption 36). -/
def markPoison (base : Nat) (t : Tier) (s : State) (x : Nat × RecordSource) : State :=
  if (rangeUnits x.2.offset x.2.length).any (isPoisoned s x.2.tier) then
    (rangeUnits (base + x.1) x.2.length).foldl (fun s u => poisonUnit s t u) s
  else s

/-- CHECKPOINT of a STOPPED context. -/
def doCheckpoint (r : Nat) (e : CmdEntry) (manifest : List RecordSource) (p : Part) (s : State) : State :=
  let t := ckTier e.addr0
  let off := ckOff e.addr0
  let n := ckLength manifest
  if !inTier s t off e.len0.toNat || !manifest.all (fun x => inTier s x.tier x.offset x.length) then
    completeCmd s r e.tag stField 0
  else if e.len0.toNat < n then completeCmd s r e.tag stShort 0
  else
    let s := manifest.foldl (fun s x => (rangeUnits x.offset x.length).foldl (fun s u => findPoison s x.tier p.low u) s) s
    let s := writeMem s t (bytePokes off (ckImage s p manifest))
    let s := (payloadAt 0 manifest).foldl (fun s x => markPoison off t s (x.1 + 64, x.2)) s
    completeCmd s r e.tag stDone n

/-- CHECKPOINT. The record list is the model's operand (assumption 13). Host-held lines are invalidated first (R514). -/
def execCheckpoint (r : Fin 8) (e : CmdEntry) (manifest : List RecordSource) (s : State) :
    Host.Outcome State Fault Refusal :=
  let lines := heldLines s (ckTier e.addr0) (rangeUnits (ckOff e.addr0) (ckLength manifest))
  if ringReady s r.val cCheckpoint && rowTakes cCheckpoint e && !lines.isEmpty then .next (snoopLines s lines)
  else ringCommand cCheckpoint r e s (ckAddrBad e) (fun p => p.ctx == .stopped && p.reset.isNone)
    (doCheckpoint r.val e manifest)

/-! ### Reading an image (R436) -/

/-- A number of the image. -/
def imgNum (img : List Byte) (at_ n : Nat) : Nat := leVal ((img.drop at_).take n)

/-- The records of an image: where each header lies, with LENGTH. -/
def imgRecords (img : List Byte) : Nat → Nat → List (Nat × Nat)
  | 0, _ => []
  | k + 1, a =>
    let n := imgNum img (a + 16) 8
    (a, n) :: imgRecords img k (a + 64 + r64 n)

/-- The first field of an image's header that fails, as its byte offset (assumption 37): MAGIC, VERSION, CODE, N, CHECK. -/
def headBad (s : State) (img : List Byte) : Option Nat :=
  if imgNum img 0 8 ≠ ckMagic then some 0
  else if imgNum img 8 2 ≠ 1 then some 8
  else if imgNum img 10 2 ≠ s.fuses.code.toNat ∧ imgNum img 10 2 ≠ 0 then some 10
  else if imgNum img 14 2 ≠ fabricN s then some 14
  else if imgNum img 60 4 ≠ crc32c (img.take 60) then some 60
  else none

/-- The first field of an image that fails: the header's, then every record's CHECK. -/
def imgBad (s : State) (img : List Byte) : Option Nat :=
  match headBad s img with
  | some k => some k
  | none => ((imgRecords img (imgNum img 32 4) 64).find? (fun x =>
    imgNum img (x.1 + 60) 4 != crc32c ((img.drop (x.1 + 64)).take x.2) ||
      decide (img.length < x.1 + 64 + r64 x.2))).map (fun x => x.1 + 60)

/-- The image that ADDR0 names: LENGTH bytes as its header says, at least the header. -/
def readImage (s : State) (e : CmdEntry) : List Byte :=
  let m := tierMem s (ckTier e.addr0)
  let off := ckOff e.addr0
  readBytes m off (max 64 (leVal (readBytes m (off + 40) 8)))

/-- Whether the image reaches beyond its tier. -/
def imageLeaves (s : State) (e : CmdEntry) : Bool :=
  let m := tierMem s (ckTier e.addr0)
  let off := ckOff e.addr0
  !inTier s (ckTier e.addr0) off (max 64 (leVal (readBytes m (off + 40) 8)))

/-- The target of a record: by KIND, TENSOR and ESTART (assumption 13). -/
def targetOf (targets : List RecordTarget) (img : List Byte) (a : Nat) : Option RecordTarget :=
  targets.find? (fun x => x.kind.toNat == imgNum img a 1 && x.tensor.toNat == imgNum img (a + 2) 2 &&
    x.estart.toNat == imgNum img (a + 4) 6)

/-- Payloads with their targets. -/
def imgMoves (targets : List RecordTarget) (img : List Byte) : List (RecordTarget × List Byte) :=
  (imgRecords img (imgNum img 32 4) 64).filterMap (fun x =>
    (targetOf targets img x.1).map (fun y => (y, (img.drop (x.1 + 64)).take x.2)))

/-- A poisoned unit of the image fails the check of the field it holds. -/
def imagePoison (s : State) (e : CmdEntry) (img : List Byte) : Option Nat :=
  (rangeUnits (ckOff e.addr0) img.length).find? (isPoisoned s (ckTier e.addr0))

/-- The header of the image that ADDR0 names. -/
def readHead (s : State) (e : CmdEntry) : List Byte := readBytes (tierMem s (ckTier e.addr0)) (ckOff e.addr0) 64

/-- The checks of a restore in order: the header before its LENGTH is used, then the whole image; status, and a failed
image's record (R436). -/
def restoreBad (s : State) (p : Part) (e : CmdEntry) (targets : List RecordTarget) : Option (Nat × State) :=
  let fail (at_ : Nat) (s : State) : Option (Nat × State) := some (stImage, record s (partRec 0x28 p at_))
  let head := readHead s e
  if !inTier s (ckTier e.addr0) (ckOff e.addr0) 64 then some (stField, s)
  else if imageLeaves s e && (imagePoison s e head).isNone && (headBad s head).isNone then some (stField, s)
  else
    let img := if imageLeaves s e then head else readImage s e
    match imagePoison s e img with
    | some u => fail (64 * u - ckOff e.addr0) (findPoison s (ckTier e.addr0) p.low u)
    | none => match imgBad s img with
      | some k => fail k s
      | none =>
        if (imgMoves targets img).all (fun x => inTier s x.1.tier x.1.offset x.2.length) then none else some (stField, s)

/-- Copy every payload to its target, and take JNL_INDEX and STEP of the image (R430, R436). -/
def restoreImage (s : State) (p : Part) (e : CmdEntry) (targets : List RecordTarget) : State :=
  let img := readImage s e
  let s := (imgMoves targets img).foldl (fun s x => writeMem s x.1.tier (bytePokes x.1.offset x.2)) s
  let s := modPartQuads s p (fun q => { q with jnlIndex := BitVec.ofNat 64 (imgNum img 48 8) })
  modPart s p.low (fun x => { x with jnlFresh := true, jnlStep := BitVec.ofNat 64 (imgNum img 16 8) })

/-- Lines that a restore would write and the host holds (R514). -/
def restoreLines (s : State) (e : CmdEntry) (targets : List RecordTarget) : List Nat :=
  if ckAddrBad e || imageLeaves s e then []
  else (imgMoves targets (readImage s e)).flatMap (fun x => heldLines s x.1.tier (rangeUnits x.1.offset x.2.length))

/-- States that accept RESTORE and REPLAY. -/
def restoreIn (p : Part) : Bool := (p.ctx == .loaded || p.ctx == .stopped) && p.reset.isNone

def doRestore (r : Nat) (e : CmdEntry) (targets : List RecordTarget) (p : Part) (s : State) : State :=
  match restoreBad s p e targets with
  | some (st, t) => completeCmd t r e.tag st 0
  | none => completeCmd (restoreImage s p e targets) r e.tag stDone 0

def execRestore (r : Fin 8) (e : CmdEntry) (targets : List RecordTarget) (s : State) : Host.Outcome State Fault Refusal :=
  let lines := restoreLines s e targets
  if ringReady s r.val cRestore && rowTakes cRestore e && !lines.isEmpty then .next (snoopLines s lines)
  else ringCommand cRestore r e s (ckAddrBad e) restoreIn (doRestore r.val e targets)

/-! ### REPLAY (R431) -/

/-- Shuttles start as R53 starts them: program counters 0, no wait pending, images from their first instruction. -/
def rewindCore (c : Core) : Core :=
  let sh (l : List InstrWord) (x : Sh) : Sh :=
    { x with mode := if l.isEmpty then .ended else .run, wait := none }
  { c with f := sh c.imgF c.f, b := sh c.imgB c.b, u := sh c.imgU c.u }

/-- The program counters of a core go back to 0. -/
def rewindPcs (s : State) (n : Nat) : State :=
  setRegs s n { getRegs s n with pcF := 0, pcB := 0, pcU := 0 }

/-- REPLAY sets its bit, zeroes the tap cursors and starts the context. -/
def startReplay (s : State) (p : Part) (count : Nat) : State :=
  let s := p.map.foldl (fun s n => rewindPcs (modCore s n rewindCore) n) s
  let s := modPartQuads s p (fun q => { q with ctxMode := setBits q.ctxMode 1 1 1 })
  let s := modPart s p.low (fun x => { x with replayLeft := count, cursors := [] })
  enterRunning s ((partAt s p.low).getD p) true

def doReplay (r : Nat) (e : CmdEntry) (targets : List RecordTarget) (p : Part) (s : State) : State :=
  match restoreBad s p e targets with
  | some (st, t) => completeCmd t r e.tag st 0
  | none =>
    let s := restoreImage s p e targets
    completeCmd (startReplay s ((partAt s p.low).getD p) e.arg.toNat) r e.tag stDone 0

/-- REPLAY: ARG journal entries, 1 to 4,096 (R527). -/
def execReplay (r : Fin 8) (e : CmdEntry) (targets : List RecordTarget) (s : State) : Host.Outcome State Fault Refusal :=
  let lines := restoreLines s e targets
  if ringReady s r.val cReplay && rowTakes cReplay e && !lines.isEmpty then .next (snoopLines s lines)
  else ringCommand cReplay r e s (ckAddrBad e || e.arg = 0 || decide (4096 < e.arg.toNat)) restoreIn (doReplay r.val e targets)

end Sys2Proof.Machine
end

