-- ==== Sys2Proof/Machine/Wire.lean ====
section
/-! DEFINITION. Byte images: the header slot of a frame and a VERDICT's INLINE bytes (R488, R564), a flit with its link
header, slots and parity (R485, R487), the command and completion entries of a ring (R522, R526). -/

namespace Sys2Proof.Machine

/-! ### Frames (R488, R564) -/

/-- What an INLINE field carries, as numbers. -/
def inlineKey : Inline → List Nat
  | .empty => [0]
  | .units us => 1 :: us
  | .spans xs => 2 :: xs.flatMap (fun x => [x.1, x.2])
  | .signal n => [3, n.toNat]
  | .header e bad n digest => [4, (BitVec.ofInt 32 e).toNat, flag bad, n, digest.toNat]
  | .piece n ivq part parts => [5, n, flag ivq, part, parts]
  | .verdict off n pass => [6, off, n, flag pass]
  | .norm g a b bad => [7, g.toNat, a.toNat, b.toNat, flag bad]
  | .beat k => [8, k]
  | .add src dst es => 9 :: src.toNat :: dst.toNat :: es.flatMap (fun x => [x.1, x.2])
  | .refusal => [10]

/-- The 48 INLINE bytes: those of a VERDICT as R564 lays them out; of the other kinds the manual gives no places (assumption
9). -/
def inlineBytes : Inline → List Byte
  | .empty => List.replicate 48 0
  | .verdict off n pass => leBytes 4 off ++ leBytes 4 n ++ leBytes 1 (if pass then 0x01 else 0x02) ++ List.replicate 39 0
  | x => (List.range 48).map (Config.inlineByte (inlineKey x))

/-- Data slots of a frame. -/
def dataSlotCount (f : Frame) : Nat := (frameSlots f).length - 1

/-- The header slot of a frame. -/
def headBytes (f : Frame) : List Byte :=
  leBytes 8 f.addr.toNat ++ [f.kind] ++ leBytes 1 (flag f.prov + 2 * flag f.backup + 4 * flag f.poison) ++
  leBytes 1 (dataSlotCount f) ++ leBytes 1 f.standIn ++ leBytes 2 (f.srcCore + shIdx f.srcShuttle * 2 ^ 8) ++
  leBytes 2 f.tag.toNat ++ inlineBytes f.inline

/-- Bytes filled up to a length with zeros. -/
def padTo (n : Nat) (bs : List Byte) : List Byte := bs ++ List.replicate (n - bs.length) 0

/-- The 64 bytes of a slot. -/
def slotBytes : Slot → List Byte
  | .head f => headBytes f
  | .data bs => padTo 64 bs

/-! ### Flits (R485, R487) -/

def typeCode : FlitType → Nat
  | .data => 0x00
  | .idle => 0x01
  | .retry => 0x02
  | .training => 0x03

/-- Slot i on its virtual lane, five bits each. -/
def vlMap (f : Flit) : Nat := (f.slots.zipIdx.map (fun x => x.1.1 * 2 ^ (5 * x.2))).sum

/-- Reserved-slot credits, four bits per virtual lane. -/
def creditMap (f : Flit) : Nat := (f.credit.map (fun x => min 15 x.2 * 2 ^ (4 * x.1))).sum

/-- Bytes 0 to 59 of the link header. -/
def linkHead (f : Flit) : List Byte :=
  leBytes 4 f.seq.toNat ++ leBytes 4 f.ack.toNat ++ leBytes 1 (typeCode f.type) ++ leBytes 1 f.port ++ leBytes 1 f.sender ++
  [0] ++ leBytes 16 (vlMap f) ++ leBytes 4 (2 ^ f.slots.length - 1) ++ leBytes 16 (creditMap f) ++ leBytes 1 f.shared ++
  List.replicate 11 0

/-- The 25 payload slots; one not in use holds zeros (assumption 83). -/
def payload (f : Flit) : List Byte := padTo 1600 (f.slots.flatMap (fun x => slotBytes x.2))

/-- The CRC of a flit. -/
def flitCrc (f : Flit) : Word := BitVec.ofNat 32 (crc32c (linkHead f ++ payload f))

/-- Header and slots, with the CRC that the header carries. -/
def flitBody (f : Flit) (crc : Word) : List Byte := linkHead f ++ leBytes 4 crc.toNat ++ payload f

/-- The data bytes of codeword j of the eight interleaved ones: byte b belongs to codeword b mod 8. -/
def codeword (bs : List Byte) (j : Nat) : List Byte := (bs.zipIdx.filter (fun x => x.2 % 8 == j)).map (fun x => x.1)

/-- The 1,792 bytes of a flit: header, slots, and 16 parity bytes for each codeword, interleaved as well. -/
def flitImage (f : Flit) (crc : Word) : List Byte :=
  let bs := flitBody f crc
  bs ++ (List.range 128).map (fun p => Config.rsParity (codeword bs (p % 8)) (p / 8))

/-! ### Rings (R522, R526) -/

/-- A little-endian field of bytes. -/
def fieldAt (bs : List Byte) (at_ n : Nat) : Nat := leVal ((bs.drop at_).take n)

/-- A command entry as the device takes it from its 64 bytes; `bad` says that the read failed (R519). -/
def cmdEntryOf (bs : List Byte) (bad : Bool) : CmdEntry :=
  { opc := BitVec.ofNat 8 (fieldAt bs 0 1), z1 := BitVec.ofNat 8 (fieldAt bs 1 1), tag := BitVec.ofNat 16 (fieldAt bs 2 2)
    z4 := BitVec.ofNat 32 (fieldAt bs 4 4), addr0 := BitVec.ofNat 64 (fieldAt bs 8 8), len0 := BitVec.ofNat 64 (fieldAt bs 16 8)
    addr1 := BitVec.ofNat 64 (fieldAt bs 24 8), len1 := BitVec.ofNat 64 (fieldAt bs 32 8)
    addr2 := BitVec.ofNat 64 (fieldAt bs 40 8), arg := BitVec.ofNat 64 (fieldAt bs 48 8)
    z56 := BitVec.ofNat 64 (fieldAt bs 56 8), bad := bad }

/-- The 64 bytes of a command entry. -/
def cmdEntryBytes (e : CmdEntry) : List Byte :=
  [e.opc, e.z1] ++ leBytes 2 e.tag.toNat ++ leBytes 4 e.z4.toNat ++ leBytes 8 e.addr0.toNat ++ leBytes 8 e.len0.toNat ++
  leBytes 8 e.addr1.toNat ++ leBytes 8 e.len1.toNat ++ leBytes 8 e.addr2.toNat ++ leBytes 8 e.arg.toNat ++
  leBytes 8 e.z56.toNat

/-- The 16 bytes of a completion entry. -/
def completionBytes (c : Completion) : List Byte :=
  leBytes 2 c.tag.toNat ++ leBytes 1 c.status ++ leBytes 1 (flag c.phase) ++ leBytes 4 c.seq.toNat ++
  leBytes 8 c.detail.toNat

end Sys2Proof.Machine
end

