-- ==== Sys2Proof/Machine/Fabric.lean ====
section
/-! DEFINITION. The optical fabric (R478 to R510, R643): flits, credits and retry, retraining, bring-up, calibration and
quiescence. -/

namespace Sys2Proof.Machine

/-! ### Counters of a port, by PORT_ page offset -/

def portFecCorr : Nat := 0x18
def portFecUncorr : Nat := 0x20
def portRetry : Nat := 0x28
def portRetrainCount : Nat := 0x30
def portCalSteps : Nat := 0x38

/-! ### Credits (R485, R491) -/

/-- Shared slots that the sender counts as in use. -/
def sharedUsed (c : Chan) : Nat := (c.creditUsed.map (fun x => x.2 - 4)).sum

/-- Whether a virtual lane has a credit: one of its 4 reserved slots, or one of the 384 shared, of which it may hold
128. -/
def hasCredit (c : Chan) (v : Nat) : Bool :=
  let n := tget 0 c.creditUsed v
  decide (n < 4) || (decide (n < 132) && decide (sharedUsed c < 384))

/-- The lanes in the order in which credits without a lane of their own are booked: 31, 24, then ascending (assumption
31). -/
def laneRank : List Nat := [31, 24] ++ (List.range 31).filter (fun v => v != 24)

/-- Book one returned credit against lanes: first one that uses more than its reserved slots, else any in use. -/
def giveBack (t : Tbl Nat) : Nat → Tbl Nat
  | 0 => t
  | n + 1 =>
    match laneRank.find? (fun v => decide (4 < tget 0 t v)) with
    | some v => giveBack (tset 0 t v (tget 0 t v - 1)) n
    | none => match laneRank.find? (fun v => decide (0 < tget 0 t v)) with
      | some v => giveBack (tset 0 t v (tget 0 t v - 1)) n
      | none => t

/-- Credits that a flit returns. -/
def takeCredits (c : Chan) (f : Flit) : Chan :=
  let r := f.credit.foldl (fun (a : Tbl Nat × Nat) x =>
    let n := tget 0 a.1 x.1
    (tset 0 a.1 x.1 (n - x.2), a.2 + (x.2 - n))) (c.creditUsed, 0)
  { c with creditUsed := giveBack r.1 (r.2 + f.shared) }

/-! ### Sending (R490, R497) -/

/-- Lanes in the order of R490: VL 31, VL 24, then the others round-robin after the last one served. -/
def laneOrder (last : Nat) : List Nat :=
  [31, 24] ++ ((List.range 31).map (fun i => (last + 1 + i) % 31)).filter (fun v => v != 24)

/-- The next lane with a slot ready and a credit. -/
def pickLane (c : Chan) : Option Nat :=
  (laneOrder c.lastVl).find? (fun v => !(tget [] c.txq v).isEmpty && hasCredit c v)

/-- Fill up to `n` payload slots. -/
def fillSlots : Nat → Chan → List (Nat × Slot) × Chan
  | 0, c => ([], c)
  | n + 1, c =>
    match pickLane c with
    | none => ([], c)
    | some v =>
      match tget [] c.txq v with
      | [] => ([], c)
      | x :: t =>
        let c := { c with
          txq := tset [] c.txq v t
          creditUsed := tset 0 c.creditUsed v (tget 0 c.creditUsed v + 1)
          lastVl := if v = 31 ∨ v = 24 then c.lastVl else v }
        let (l, c) := fillSlots n c
        ((v, x) :: l, c)

/-- A flit without payload. -/
def bareFlit (port sender : Nat) (c : Chan) (t : FlitType) : Flit :=
  { seq := c.txSeq - 1, ack := c.rxSeq, type := t, port := port, sender := sender, slots := [], credit := [], shared := 0 }

/-- A flit takes the credits returned since the last one (R487). -/
def withCredits (f : Flit) (c : Chan) : Flit × Chan :=
  let credit := c.returned.map (fun x => (x.1, min 15 x.2))
  let shared := min 255 c.returnedShared
  ({ f with credit := credit, shared := shared },
   { c with
     returned := credit.foldl (fun t x => tset 0 t x.1 (tget 0 t x.1 - x.2)) c.returned
     returnedShared := c.returnedShared - shared })

/-- The next flit of a channel (R490, R496, R497): a retry request that is due, a flit to resend with the newest ACK, a data
flit while fewer than 16 are unacknowledged and a slot is ready, otherwise an idle flit. -/
def nextFlit (port sender : Nat) (c : Chan) : Flit × Chan :=
  if c.askRetry then withCredits (bareFlit port sender c .retry) { c with askRetry := false }
  else match c.resend with
    | f :: t => ({ f with ack := c.rxSeq }, { c with resend := t })
    | [] =>
      if 16 ≤ c.unacked.length then withCredits (bareFlit port sender c .idle) c
      else
        let (slots, c1) := fillSlots 25 c
        if slots.isEmpty then withCredits (bareFlit port sender c .idle) c
        else
          let (f, c2) := withCredits { bareFlit port sender c1 .data with seq := c1.txSeq, slots := slots } c1
          (f, { c2 with txSeq := c2.txSeq + 1, unacked := c2.unacked ++ [f] })

/-- The comb line on which a module sends a wavelength (R478). -/
def txLine (own m : Nat) : Nat := (m + 64 - own) % 64

/-- Put the next flit of a channel on the fiber. -/
def emitFlit (s : State) (port peer : Nat) : State :=
  let own := ownIndex s
  modChan s port peer (fun c =>
    let (f, c) := if peer = own then (bareFlit port own c .idle, c) else nextFlit port own c
    { c with sent := some f, sentAt := s.pll, line := txLine own peer })

/-- Put a training flit on the fiber, which bring-up and a retrain exchange (R498, R504). -/
def emitTraining (s : State) (port peer : Nat) : State :=
  let own := ownIndex s
  modChan s port peer (fun c =>
    { c with sent := some (bareFlit port own c .training), sentAt := s.pll, line := txLine own peer })

/-! ### Channel states (R498 to R500, R502) -/

/-- Whether ring sweeps are held (R502, R633). -/
def sweepsHeld (s : State) : Bool := decide (1 ≤ stageNow s)

/-- Channels of a port that are up. -/
def portUp (p : Port) : Nat := (p.chans.filter (fun x => x.2.state == .up)).length

/-- A channel enters RETRAINING (R498); its sweep waits while sweeps are held (R502). -/
def startRetrain (s : State) (port peer : Nat) : State :=
  bumpPort (modChan s port peer (fun c =>
    { c with state := .retraining, retrainAt := s.pll, retryAck := none, sweepHeld := sweepsHeld s })) port portRetrainCount 1

/-- Sweeps are held from now on: every channel in RETRAINING keeps its sweep for later (R502). -/
def holdSweeps (s : State) (port : Nat) : State :=
  modPort s port (fun p => { p with chans := p.chans.map (fun x =>
    (x.1, if x.2.state = .retraining then { x.2 with sweepHeld := true } else x.2)) })

/-- Slots of one lane whose frame is complete: a frame's header tells its length. -/
def wholeFrames : Nat → List Arrived → List Arrived
  | 0, _ => []
  | n + 1, l =>
    match l with
    | [] => []
    | x :: _ =>
      match x.slot with
      | .head f =>
        let k := (frameSlots f).length
        if k ≤ l.length then l.take k ++ wholeFrames n (l.drop k) else []
      | .data _ => []

/-- What has been delivered from a peer without any incomplete frame. -/
def keepWhole (peer : Nat) (l : List Arrived) : List Arrived :=
  l.filter (fun x => x.peer != peer) ++ (List.range 32).flatMap (fun v =>
    let lane := l.filter (onLane peer v)
    wholeFrames lane.length lane)

/-- DETAIL of a channel record: port, wavelength, line, and the PORT and SENDER seen in training (R499, R505; assumption
28). -/
def chanDetail (port wave line sawPort sawSender : Nat) : Nat :=
  port + wave * 2 ^ 8 + line * 2 ^ 16 + sawPort * 2 ^ 24 + sawSender * 2 ^ 32

/-- The record of a failed channel, on the optical engine of the port (R22), and vector 34 (R534). -/
def chanRecord (s : State) (port detail : Nat) : State :=
  raiseVector (record s { kind := 0x25, detail := detail, die := 3 + port / 2, engine := 8 }) 34

/-- A channel enters FAILED: every frame held for it is discarded (R499). Unacknowledged flits keep their numbers without
their frames. -/
def failChan (s : State) (port peer detail : Nat) : State :=
  let blank (f : Flit) : Flit := { f with slots := [] }
  let s := modChan s port peer (fun c => { c with
    state := .failed
    txq := []
    creditUsed := []
    unacked := c.unacked.map blank
    resend := c.resend.map blank
    retrainFails := 0
    retryAck := none
    sweepHeld := false })
  let s := modPort s port (fun p => { p with
    failed := setBits p.failed peer 1 1
    retrain := setBits p.retrain peer 1 0
    delivered := keepWhole peer p.delivered })
  chanRecord s port detail

/-- The line on which a module receives a peer's wavelength (R478). -/
def rxLine (own peer : Nat) : Nat := (own + 64 - peer) % 64

def failDetail (s : State) (port peer : Nat) : Nat := chanDetail port peer (rxLine (ownIndex s) peer) 0 0

/-! ### Receiving (R486, R496, R497) -/

/-- a is ahead of b (R495). -/
def seqAhead (a b : Word) : Bool := decide (1 ≤ (a - b).toNat) && decide ((a - b).toNat ≤ 2 ^ 31 - 1)

/-- Free the unacknowledged flits that an ACK reaches or passes. -/
def takeAck (c : Chan) (ack : Word) : Chan :=
  { c with
    unacked := c.unacked.filter (fun f => seqAhead f.seq ack)
    resend := c.resend.filter (fun f => seqAhead f.seq ack) }

/-- A flit ahead of its turn shows a gap: the first one asks for a retry (R496), and so does one that repeats an earlier
gap. -/
def noteGap (c : Chan) (seq : Word) (data : Bool) : Chan :=
  match c.gap with
  | none => { c with gap := some seq, askRetry := true }
  | some g =>
    if !data then c
    else if seqAhead seq g then { c with gap := some seq }
    else { c with gap := some seq, askRetry := true }

/-- A slot as it arrives: the first of a piece meets the selvedge registers of the cask beside the port (R596). -/
def arrive (s : State) (port peer : Nat) (x : Nat × Slot) : Arrived :=
  let c := getCask s port
  { peer := peer, vl := x.1, slot := x.2
    cfg := match x.2 with
      | .head f => if f.kind = fkPiece then some (c.selvCtrl, c.selvPoly, c.selvInit) else none
      | .data _ => none }

/-- Accept the next data flit: its slots go to the link engine. -/
def acceptFlit (s : State) (port peer : Nat) (f : Flit) : State :=
  let s := modChan s port peer (fun c =>
    let c := takeCredits { c with rxSeq := f.seq, gap := none } f
    { c with rxHeld := f.slots.foldl (fun t x => tset 0 t x.1 (tget 0 t x.1 + 1)) c.rxHeld })
  modPort s port (fun p => { p with delivered := p.delivered ++ f.slots.map (arrive s port peer) })

/-- A retry request (R497): resend from ACK + 1; the eighth in a row that names one ACK starts a retrain (R498). -/
def takeRetry (s : State) (port peer : Nat) (ack : Word) : State :=
  let s := bumpPort s port portRetry 1
  let s := modChan s port peer (fun c =>
    let c := takeAck c ack
    let n := match c.retryAck with
      | some (a, k) => if a = ack then k + 1 else 1
      | none => 1
    { c with resend := c.unacked, retryAck := some (ack, n) })
  match (getChan s port peer).retryAck with
  | some (_, n) => if 8 ≤ n then startRetrain s port peer else s
  | none => s

/-- What a flit without errors does: its ACK and, unless it is a data flit out of turn, its credits count (R487, R497). -/
def takeFlit (s : State) (port peer : Nat) (f : Flit) : State :=
  let s := modChan s port peer (fun c => takeAck c f.ack)
  let c := getChan s port peer
  match f.type with
  | .training => s
  | .retry => takeRetry (modChan s port peer (fun c => takeCredits c f)) port peer f.ack
  | .idle =>
    let s := modChan s port peer (fun c => takeCredits c f)
    if seqAhead f.seq c.rxSeq then modChan s port peer (fun c => noteGap c f.seq false) else s
  | .data =>
    if f.seq = c.rxSeq + 1 then acceptFlit s port peer f
    else if seqAhead f.seq c.rxSeq then modChan s port peer (fun c => noteGap c f.seq true)
    else s

/-- The byte errors of a codeword, and whether every codeword of a flit can be corrected: up to 8 byte errors each (R486). -/
def codewordErrors (e : FlitErrors) (j : Nat) : Nat := (e.bad.dedup.filter (fun b => b.val % 8 == j)).length
def correctable (e : FlitErrors) : Bool := (List.range 8).all (fun j => decide (codewordErrors e j ≤ 8))

/-- FLIT_RECEIVE (R486, R496): a flit with an uncorrectable codeword, or one that fails its CRC once corrected, is discarded
and counted; one that is corrected is counted. -/
def execFlitReceive (port : Fin 8) (peer : Fin 64) (flit : Flit) (err : FlitErrors) (s : State) :
    Host.Outcome State Fault Refusal :=
  let k := port.val
  if (getChan s k peer.val).state = .up ∧ peer.val ≠ ownIndex s then
    if correctable err then
      let s := if err.bad.isEmpty then s else bumpPort s k portFecCorr 1
      .next (if err.crc = flitCrc flit then takeFlit s k peer.val flit else bumpPort s k portFecUncorr 1)
    else .next (bumpPort s k portFecUncorr 1)
  else .next s

/-- RETRY_REQUEST_RECEIVE. -/
def execRetryRequestReceive (port : Fin 8) (peer : Fin 64) (ack : Word) (s : State) : Host.Outcome State Fault Refusal :=
  if (getChan s port.val peer.val).state = .up ∧ peer.val ≠ ownIndex s then .next (takeRetry s port.val peer.val ack)
  else .next s

/-! ### Retraining -/

/-- LOCK_LOSS_TIMEOUT: 1 µs without lock (R498). -/
def execLockLossTimeout (port : Fin 8) (peer : Fin 64) (s : State) : Host.Outcome State Fault Refusal :=
  if (getChan s port.val peer.val).state = .up then .next (startRetrain s port.val peer.val) else .next s

/-- What training flits on a line carried. -/
def seenOn (line : Nat) (seen : List TrainingSeen) : Option TrainingSeen := seen.find? (fun x => x.line.val == line)

/-- Whether a channel can train: its port is lit and its wavelength modulated (R481, R506). -/
def mayTrain (s : State) (k m : Nat) : Bool := (getPort s k).lit && decide (m < fabricN s)

/-- RETRAIN_COMPLETE: with the right training flits the channel resumes from ACK + 1, with wrong ones it enters FAILED (R505);
without any it retrains again, and after three failures in a row enters FAILED (R498, R499). A retrain whose sweep is held
does not end (R502). -/
def execRetrainComplete (port : Fin 8) (peer : Fin 64) (seen : List TrainingSeen) (s : State) :
    Host.Outcome State Fault Refusal :=
  let k := port.val
  let m := peer.val
  let c := getChan s k m
  let line := rxLine (ownIndex s) m
  if c.state = .retraining ∧ c.sweepHeld = false ∧ mayTrain s k m then
    match seenOn line seen with
    | some x =>
      if x.port = k ∧ x.sender = m then
        let s := modChan s k m (fun c => { c with state := .up, retrainFails := 0, resend := c.unacked, gap := none })
        .next (modPort s k (fun p => { p with retrain := setBits p.retrain m 1 0 }))
      else .next (failChan s k m (chanDetail k m line x.port x.sender))
    | none =>
      if 2 ≤ c.retrainFails then .next (failChan s k m (failDetail s k m))
      else .next (startRetrain (modChan s k m (fun c => { c with retrainFails := c.retrainFails + 1 })) k m)
  else .next s

/-- RETRAIN_TIMEOUT: a retrain lasts longer than 200 µs (R499). -/
def execRetrainTimeout (port : Fin 8) (peer : Fin 64) (s : State) : Host.Outcome State Fault Refusal :=
  let c := getChan s port.val peer.val
  if c.state = .retraining ∧ c.sweepHeld = false ∧ c.retrainAt + us 200 < s.pll then
    .next (failChan s port.val peer.val (failDetail s port.val peer.val))
  else .next s

/-- A write of PORT_RETRAIN: each bit set for a FAILED channel retrains it (R499). -/
def retrainWrite (s : State) (k : Nat) (value : Dword) : State :=
  (List.range 64).foldl (fun s m =>
    if bit value m && (getChan s k m).state == .failed then
      let s := modPort s k (fun p => { p with failed := setBits p.failed m 1 0, retrain := setBits p.retrain m 1 1 })
      startRetrain s k m
    else s) s

/-- PORT_RETRAIN_WRITE. -/
def execPortRetrainWrite (port : Fin 8) (value : Dword) (s : State) : Host.Outcome State Fault Refusal :=
  .next (retrainWrite s port.val value)

/-! ### Calibration (R501, R503) -/

/-- Whether a channel takes no tracking step: it is retrying, retraining or quiesced (R503, R643). -/
def skipsTracking (c : Chan) : Bool := !c.resend.isEmpty || c.state == .retraining || c.state == .quiesced

/-- When the flit that a channel is sending ends: the flit boundary at which a tracking step begins. -/
def flitBoundary (s : State) (c : Chan) : Nat := if c.sent.isSome then max s.pll (c.sentAt + nsUp 128) else s.pll

/-- A tracking step holds its channel's transmission for at most 0.2 µs from a flit boundary (R501). -/
def trackChan (s : State) (k m : Nat) : State :=
  modChan s k m (fun c => { c with holdTill := flitBoundary s c + min (nsUp 200) (Config.trackHold s.pll) })

/-- CAL_TRACKING_STEP: every PERIOD_US a lit port retunes the rings of the next wavelength. -/
def execCalTrackingStep (port : Fin 8) (s : State) : Host.Outcome State Fault Refusal :=
  let k := port.val
  let p := getPort s k
  if p.lit ∧ p.calAt + us (bits s.calCtrl 0 7) ≤ s.pll then
    let s := modPort s k (fun p => { p with calNext := (p.calNext + 1) % 64, calAt := s.pll })
    .next (if skipsTracking (getChan s k p.calNext) then s else bumpPort (trackChan s k p.calNext) k portCalSteps 1)
  else .next s

/-! ### Bring-up (R495, R504 to R506, R643) -/

/-- Modules of the fabric, the own one included. -/
def fabricModules (s : State) : List Nat := List.range (fabricN s)

/-- A channel with its queue and sequence numbers from 0 (R495). -/
def freshChan (c : Chan) : Chan := { state := c.state, txq := c.txq, line := c.line, sent := c.sent, sentAt := c.sentAt }

/-- A channel as it comes up: anew, or a quiesced one with its state, resuming from ACK + 1 (R495, R643). -/
def raiseChan (c : Chan) : Chan :=
  if c.state = .quiesced then { c with state := .up, resend := c.unacked, gap := none }
  else { freshChan c with state := .up }

/-- A channel comes up: it sends training flits first (R504), and a retrain that was asked for has ended. -/
def bringUp (s : State) (k m : Nat) : State :=
  modPort (modChan (emitTraining s k m) k m raiseChan) k (fun p => { p with retrain := setBits p.retrain m 1 0 })

/-- Whether the training flits that a channel needs have been seen (R505). -/
def trained (own k m : Nat) (seen : List TrainingSeen) : Bool :=
  match seenOn (rxLine own m) seen with
  | some x => x.port == k && x.sender == m
  | none => false

/-- The wiring check of one channel as its port leaves the dark state (R505). A quiesced channel waits for its peer and never
fails (R643); one that is FAILED stays so, with its sequence numbers at 0 (R495, R499). -/
def wireChan (seen : List TrainingSeen) (k : Nat) (s : State) (m : Nat) : State :=
  let own := ownIndex s
  let line := rxLine own m
  let anew (s : State) : State := modChan (emitTraining s k m) k m freshChan
  match (getChan s k m).state with
  | .quiesced => if trained own k m seen then bringUp s k m else emitTraining s k m
  | .failed => modChan s k m freshChan
  | _ =>
    if trained own k m seen then bringUp s k m
    else match seenOn line seen with
      | some x => failChan (anew s) k m (chanDetail k m line x.port x.sender)
      | none => failChan (anew s) k m (chanDetail k m line 0xFF 0xFF)

/-- Whether a port may light (R506): N at least 8 and its laser input within limits; ports stay dark while S5 or I4 has
darkened them or the device is off. A port lights before S5 has ended (R642). -/
def mayLight (s : State) (p : Port) : Bool :=
  decide (8 ≤ fabricN s) && p.laserOk && (decide (stageNow s < 5) || s.power.s5Ending.isSome) && s.power.rails &&
    (getQuad s 0).idle != 4

/-- PORT_BRING_UP: a dark port lights and checks the wiring of every channel; on a lit port, quiesced channels whose
peer's training flits are back come up (R504, R505, R643). While sweeps are held a dark port waits (R502), but for the end of
S5 (R642). -/
def execPortBringUp (port : Fin 8) (seen : List TrainingSeen) (s : State) : Host.Outcome State Fault Refusal :=
  let k := port.val
  let p := getPort s k
  if !mayLight s p then .next s
  else if p.lit then
    .next (((fabricModules s).filter (fun m => (getChan s k m).state == .quiesced && trained (ownIndex s) k m seen)).foldl
      (fun s m => bringUp s k m) s)
  else if sweepsHeld s && s.power.s5Ending.isNone then .next (modPort s k (fun p => { p with sweepHeld := true }))
  else
    let s := modPort s k (fun p => { p with lit := true, sweepHeld := false, calAt := s.pll })
    .next ((fabricModules s).foldl (wireChan seen k) s)

/-- A channel of a port that goes dark: quiesced and failed ones keep their state, and a retrain ends. -/
def darkChan (c : Chan) : Chan :=
  if c.state = .quiesced ∨ c.state = .failed then c else { c with state := .down, sweepHeld := false }

/-- A port goes dark. -/
def darken (s : State) (k : Nat) : State :=
  modPort s k (fun p => { p with
    lit := false
    quiescing := false
    retrain := 0
    chans := p.chans.map (fun x => (x.1, darkChan x.2)) })

/-- Whether a line delivers +6 dBm to +12 dBm: its power in nW, to the fifth, lies between 10^33 and 10^36 (R705). -/
def lineOk (nw : Nat) : Bool := decide (10 ^ 33 ≤ nw ^ 5) && decide (nw ^ 5 ≤ 10 ^ 36)

/-- LASER_OK: each of the 64 lines within its limits, and +30 dBm or less together (R705). -/
def laserGood (powers : List Nat) : Bool :=
  powers.length == 64 && powers.all lineOk && decide (powers.sum ≤ 10 ^ 9)

/-- LASER_INPUT_CHANGE: the 64 lines of a port's laser input now deliver these powers in nW (R506, R705). -/
def execLaserInputChange (port : Fin 8) (powers : List Nat) (s : State) : Host.Outcome State Fault Refusal :=
  let k := port.val
  let ok := laserGood powers
  let s := modPort s k (fun p => { p with laserOk := ok })
  .next (if ok then s else darken s k)

/-- Wavelengths from N on are not modulated (R481): their channels go down, but for quiesced and failed ones. -/
def dropBeyond (s : State) (k : Nat) : State :=
  let n := fabricN s
  modPort s k (fun p => { p with chans := p.chans.map (fun x =>
    if n ≤ x.1 ∧ x.2.state ≠ .failed ∧ x.2.state ≠ .quiesced then (x.1, {}) else x) })

/-! ### Quiescence (R641, R643) -/

/-- The quiesce notice. -/
def quiesceFrame : Frame := bareFrame 0x30 0 0 .f 0 .empty

/-- Whether a channel that is up has still to send the quiesce notice. -/
def noticeWaits (c : Chan) : Bool := c.state == .up && (tget [] c.txq (vlOf quiesceFrame)).contains (.head quiesceFrame)

/-- A port darkens once its notices have gone; its own channels keep their sequence state as well (R641, R643). -/
def settleQuiesce (s : State) (k : Nat) : State :=
  let p := getPort s k
  if p.quiescing && !p.chans.any (fun x => noticeWaits x.2) then
    darken (modPort s k (fun p => { p with chans := p.chans.map (fun x =>
      if x.2.state = .up ∧ x.1 ≠ ownIndex s then (x.1, { x.2 with state := .quiesced }) else x) })) k
  else s

/-- A quiesce notice is handed to every channel of a lit port that is up; the port darkens when they have gone (R641). -/
def quiescePort (s : State) (k : Nat) : State :=
  let p := getPort s k
  if p.lit && !p.quiescing then
    let peers := (p.chans.filter (fun x => x.2.state == .up && x.1 != ownIndex s)).map (fun x => x.1)
    settleQuiesce (modPort (peers.foldl (fun s m => sendFrame s k m quiesceFrame) s) k (fun p => { p with quiescing := true })) k
  else s

def quiescePorts (s : State) : State := (List.range 8).foldl quiescePort s

/-- Whether no port is lit. -/
def portsDark (s : State) : Bool := (List.range 8).all (fun k => !(getPort s k).lit)

/-- FLIT_SEND: a channel that is up sends a flit every 128 ns (R485), on the module's own wavelength only idle flits (R481),
and one in RETRAINING training flits (R498); a tracking step holds it (R501). -/
def execFlitSend (port : Fin 8) (peer : Fin 64) (s : State) : Host.Outcome State Fault Refusal :=
  let k := port.val
  let m := peer.val
  let c := getChan s k m
  if (c.sent.isNone ∨ c.sentAt + nsUp 128 ≤ s.pll) ∧ c.holdTill ≤ s.pll then
    if c.state = .up then .next (settleQuiesce (emitFlit s k m) k)
    else if c.state = .retraining ∧ c.sweepHeld = false ∧ mayTrain s k m then .next (emitTraining s k m)
    else .next s
  else .next s

/-- QUIESCE_NOTICE_RECEIVE: the notice, first on VL 31, quiesces its channel (R643). -/
def execQuiesceNoticeReceive (port : Fin 8) (peer : Fin 64) (s : State) : Host.Outcome State Fault Refusal :=
  let rx : Rx := { port := port, sender := peer.val, frame := quiesceFrame }
  if peer.val = ownIndex s then .next s
  else withRx s rx (fun s => modChan s port.val peer.val (fun c =>
    if c.state = .failed then c else { c with state := .quiesced }))

end Sys2Proof.Machine
end

