-- ==== Sys2Proof/Machine/Resets.lean ====
section
/-! DEFINITION. Hang detection, reset sequences, withdrawal and re-admission (R601 to R622). -/

namespace Sys2Proof.Machine

/-! ### What a reset does when it starts (R607 to R611) -/

/-- A shuttle that a reset halts: it meets no wait and posts nothing more. -/
def haltSh (x : Sh) : Sh :=
  { x with
    mode := if x.mode = .off ∨ x.mode = .ended then x.mode else .halted
    wait := none
    accesses := []
    acquiring := [] }

/-- A local request that was posted and may still complete. -/
def stillLocal (q : Request) : Bool := q.dest.isNone && !q.held && !q.complete

/-- A core on the cycle the reset starts: results in flight and verdicts are discarded, posted local requests stay. -/
def haltForReset (c : Core) : Core :=
  { c with
    f := haltSh c.f
    b := haltSh c.b
    u := haltSh c.u
    sched := false
    haltAt := none
    planPending := none
    queues := c.queues.map (fun x => (x.1, { x.2 with reqs := x.2.reqs.filter stillLocal }))
    pass := none
    flight := []
    deferred := []
    holds := {}
    verdicts := []
    pieces := []
    jnlPend := [] }

/-- Cores of the partition under test return to LEFT (R671, R675). -/
def endTests (s : State) (p : Part) : State :=
  let ns := (partCores p).filter (fun n => tget 0 s.selfTest.started n != 0)
  modPart (ns.foldl returnToLeft s) p.low (fun x => { x with testing := [] })

/-- Steps 1 to 4 of R607, and HUNG is cleared (R613). A STOP in progress ends with status 0x20. -/
def beginReset (s : State) (p : Part) (q : ResetSeq) : State :=
  let s := dropHeldSignals (abandonPart s p) p
  let s := endTests s p
  let s := (partCores p).foldl (fun s n => modCore s n haltForReset) s
  let s := modPartQuads s p (fun x => { x with hangCtrl := setBits x.hangCtrl 24 1 0, idle := 0, exitAt := none })
  let s := modPart s p.low (fun x => { x with reset := some q, hangShuttle := none, stopping := false, s4Hold := none })
  let s := discardHeld s p
  completeBusy s p.low cStop stState 0

/-- Cover a partition: a sequence that begins takes steps 1 to 4 of R607, a sequence in progress goes on as given. -/
def coverPart (q : ResetSeq) (s : State) (p : Part) : State :=
  if p.reset.isSome then modPart s p.low (fun x => { x with reset := some q }) else beginReset s p q

/-- A signal bound for one of the cores. -/
def signalInto (p : Part) (g : Signal) : Bool := (partCores p).contains g.target

/-- What L3 reinitializes: segments, meters and QUAD_PAIR (R610). -/
def quadReset (s : State) (p : Part) : State :=
  let s := modPartQuads s p (fun x => { x with pair := 0, pairNext := none, testPair := false, window := [] })
  { s with signals := s.signals.filter (fun g => !signalInto p g) }

/-- What L4 reinitializes in addition: the meshes and the bridge (R611). -/
def meshReset (s : State) : State := { s with mesh := [], signals := [] }

/-- The level in progress begins on the partitions it covers. -/
def enterLevel (s : State) (p : Part) (q : ResetSeq) : State :=
  if q.level = 4 then meshReset (s.parts.foldl quadReset (s.parts.foldl (coverPart q) s))
  else
    let s := coverPart q s p
    if q.level = 3 then quadReset s p else s

/-- Of two sequences the one that began first. -/
def olderSeq (a : Option ResetSeq) (b : Option ResetSeq) : Option ResetSeq :=
  match a, b with
  | some x, some y => if y.began < x.began then some y else some x
  | some x, none => some x
  | none, y => y

/-- The sequence that a request for a level joins: that of the partition, and for L4 the oldest of any (R616). -/
def joined (s : State) (p : Part) (level : Nat) : Option ResetSeq :=
  if level = 4 then s.parts.foldl (fun a x => olderSeq a x.reset) none else p.reset

/-- A reset of a level is requested for a partition by a command (0), AUTO (1) or escalation (2): it starts a sequence or
merges into the one that covers the partition (R614, R616). -/
def requestReset (s : State) (p : Part) (level source : Nat) : State :=
  match joined s p level with
  | some q =>
    if level ≤ q.level then
      if level = 4 then s.parts.foldl (coverPart q) s else s
    else enterLevel s p { q with level := level, source := source, levelBegan := s.pll,
                                 escalated := q.escalated || source == 2 }
  | none =>
    enterLevel s p { first := level, level := level, source := source, escalated := false, began := s.pll,
                     levelBegan := s.pll }

/-- RESET (R527, R606): a level of 1 to 4, and 4 on ring 0 only. It completes with the sequence (R616). -/
def execReset (r : Fin 8) (e : CmdEntry) (s : State) : Host.Outcome State Fault Refusal :=
  ringCommand cReset r e s
    (e.arg == 0 || decide (4 < e.arg.toNat) || (e.arg == 4 && r.val != 0)) (fun _ => true)
    (fun p s => keepBusy (requestReset s p e.arg.toNat 0) r.val cReset e.tag)

/-! ### Withdrawal (R615, R620) -/

/-- Whole seconds of device time between two times, in 12 bits. -/
def secondsAgo (now t : Nat) : Nat := min 4095 ((now - t) / sec 1)

/-- The device withdraws: every RUNNING context stops, the flag in flash is set, and record 0x33 names the completion times
as seconds before the withdrawal, the oldest lowest. -/
def withdraw (s : State) (times : List Nat) : State :=
  let s := stopAll s
  let s := { s with flash := { s.flash with withdrawn := true }, boot := { s.boot with service := 3 } }
  let detail := (List.range 4).foldl (fun a i => a + (match times[i]? with
    | some t => secondsAgo s.pll t
    | none => 0) * 2 ^ (12 * i)) 0
  raiseVector (record s { kind := 0x33, detail := detail }) 37

/-- L5_REQ_N goes low, with an in-band interrupt on I3C (R700). -/
def requestL5 (s : State) : State :=
  { s with power := { s.power with l5Request := true }
           boot := { s.boot with replies := s.boot.replies ++ [.inBandInterrupt] } }

/-! ### Escalation (R614, R615) -/

/-- The limit of a level in root-PLL cycles (R606). -/
def levelLimit (level : Nat) : Nat :=
  if level = 1 then ms 1 else if level = 2 then ms 2 else if level = 3 then ms 5 else ms 50

/-- Whether the level in progress has passed its limit without the device having acted on it. -/
def pastLimit (s : State) (x : ResetSeq) : Bool := decide (x.levelBegan + levelLimit x.level < s.pll) && !x.overrun

/-- What follows when the level in progress passes its limit: the next level starts at once (R614); an L4 withdraws the device
and requests an L5, once (R615). -/
def passLimit (s : State) (p : Part) (x : ResetSeq) : State :=
  if x.level < 4 then requestReset s p (x.level + 1) 2
  else
    let s := { s with parts := s.parts.map (fun (p : Part) => { p with
      reset := p.reset.map (fun (y : ResetSeq) => { y with overrun := true }) }) }
    let s := if s.boot.service = 3 then s else withdraw s s.resets.history
    requestL5 (record s { kind := 0x35, detail := (s.pll - x.began) / us 1 })

/-- RESET_LEVEL_TIMEOUT. -/
def execResetLevelTimeout (q : Fin 8) (s : State) : Host.Outcome State Fault Refusal :=
  match partOf s q.val with
  | none => .next s
  | some p => match p.reset with
    | none => .next s
    | some x => .next (if pastLimit s x then passLimit s p x else s)

/-! ### Completion (R612, R613, R616, R619 to R621) -/

/-- The window of the reset history. -/
def historyWindow : Nat := sec 900

/-- Completions of the last 900 s. -/
def recentResets (s : State) : List Nat := s.resets.history.filter (fun t => decide (s.pll ≤ t + historyWindow))

/-- Whether a partition's posted local requests have completed (R607), which every level waits for: each performs an L1
(R609 to R611). -/
def localDone (s : State) (p : Part) : Bool :=
  (partCores p).all (fun n => (getCore s n).queues.all (fun x => x.2.reqs.all (fun q => q.complete)))

/-- A partition at the end of its sequence (R612, R618). -/
def finishPart (s : State) (p : Part) : State :=
  let s := modPartQuads (clearPart s p) p (fun x => { x with hangCtrl := setBits x.hangCtrl 24 1 0 })
  modPart s p.low (fun x => { x with reset := none, afterReset := true })

/-- Duration and source of a completed sequence (R623). -/
def resetDetail (q : ResetSeq) (now : Nat) : Nat :=
  q.level + q.source * 2 ^ 3 + (now - q.began) / us 1 % 2 ^ 40 * 2 ^ 8

/-- A counted L3 or L4 enters the history, and the fourth within 900 s withdraws the device (R619, R620). -/
def noteHistory (s : State) (q : ResetSeq) : State :=
  if q.level < 3 ∨ s.boot.service ≠ 1 then s
  else
    let h := recentResets s
    let s := { s with resets := { s.resets with history := h ++ [s.pll] } }
    if 3 ≤ h.length then withdraw s ((h ++ [s.pll]).drop (h.length - 3)) else s

/-- Count and record a completed sequence (R619). -/
def reportReset (s : State) (p : Part) (q : ResetSeq) : State :=
  let mk (kind detail : Nat) : RecIn := if q.level = 4 then { kind := kind, detail := detail } else partRec kind p detail
  let s := { s with resets := { s.resets with counts := bumpTbl s.resets.counts q.level 1, last := q.level } }
  let s := record s (mk 0x31 (resetDetail q s.pll))
  let s := if q.escalated then record s (mk 0x32 (q.first + q.level * 2 ^ 3)) else s
  noteHistory s q

/-- RESET_SEQUENCE_COMPLETE: a level completes within its limit, or the next one starts at once (R614). -/
def execResetSequenceComplete (q : Fin 8) (s : State) : Host.Outcome State Fault Refusal :=
  match partOf s q.val with
  | none => .next s
  | some p => match p.reset with
    | none => .next s
    | some x =>
      let ps := if x.level = 4 then s.parts else [p]
      if pastLimit s x then .next (passLimit s p x)
      else if !ps.all (localDone s) then .next s
      else
        let s := reportReset (ps.foldl finishPart s) p x
        .next (ps.foldl (fun s p => completeBusy s p.low cReset stDone x.level) s)

/-! ### Hangs (R601 to R605) -/

/-- WINDOW_MS of a partition in root-PLL cycles. -/
def hangWindow (s : State) (p : Part) : Nat := ms (bits (getQuad s p.low).hangCtrl 0 14)

/-- A partition that the monitor watches: RUNNING, no reset, not halted by S4, HUNG clear (R602, R604). -/
def watched (s : State) (p : Part) : Bool :=
  p.ctx == .running && p.reset.isNone && !(decide (4 ≤ stageNow s) && p.s4Hold.isSome) &&
    !bit (getQuad s p.low).hangCtrl 24

/-- The shuttles of a context with the time of their last progress, in the order of R603; those that have ended do not
count. -/
def standing (s : State) (p : Part) : List (Nat × Shuttle × Nat) :=
  p.map.flatMap (fun n => allShuttles.filterMap (fun sh =>
    let x := shOf (getCore s n) sh
    if x.mode = .ended then none else some (n, sh, x.progressAt)))

/-- The one that has stood longest; the first of several. -/
def longest : List (Nat × Shuttle × Nat) → Option (Nat × Shuttle × Nat)
  | [] => none
  | x :: t => match longest t with
    | none => some x
    | some y => if y.2.2 < x.2.2 then some y else some x

/-- HANG_DETECT. The context continues to run. -/
def execHangDetect (q : Fin 8) (s : State) : Host.Outcome State Fault Refusal :=
  match partOf s q.val with
  | none => .next s
  | some p => match longest (standing s p) with
    | none => .next s
    | some (n, sh, at_) =>
      if watched s p && decide (at_ + hangWindow s p ≤ s.pll) then
        let s := (partQuads p).foldl (fun s q => noteW1c s (0x40008 + 0x1000 * q) 24)
          (modPartQuads s p (fun x => { x with hangCtrl := setBits x.hangCtrl 24 1 1 }))
        let s := modPart s p.low (fun x => { x with hangShuttle := some (n, sh, s.pll) })
        let s := record s { coreRec 0x30 n ((s.pll - at_) / us 1) with
          shuttle := shIdx sh, pc := pcOf (getRegs s n) sh }
        .next (partVector s p.low 3)
      else .next s

/-- HANG_AUTO_RESET: AUTO is 1 to 3 and the shuttle of the hang record has stood for WINDOW_MS more (R605). -/
def execHangAutoReset (q : Fin 8) (s : State) : Host.Outcome State Fault Refusal :=
  match partOf s q.val with
  | none => .next s
  | some p => match p.hangShuttle with
    | none => .next s
    | some (n, sh, at_) =>
      let auto := bits (getQuad s p.low).hangCtrl 16 2
      if auto ≠ 0 ∧ p.ctx = .running ∧ p.reset.isNone ∧ (shOf (getCore s n) sh).progressAt ≤ at_ ∧
          at_ + hangWindow s p ≤ s.pll ∧ p.s4Hold.isNone then
        .next (requestReset s p auto 1)
      else .next s

/-! ### Histories that expire -/

/-- RESET_HISTORY_EXPIRY: completions older than 900 s leave the history (R620). -/
def execResetHistoryExpiry (s : State) : Host.Outcome State Fault Refusal :=
  .next { s with resets := { s.resets with history := recentResets s } }

/-- INTERMITTENT_WINDOW_EXPIRY: intermittents older than 86,400 s leave a core's window (R572). -/
def execIntermittentWindowExpiry (core : Fin 192) (s : State) : Host.Outcome State Fault Refusal :=
  .next (modCore s core.val (fun c => { c with
    intermits := c.intermits.filter (fun t => decide (s.pll < t + intermitWindow)) }))

/-- A write of 1 to ADMIT in RECOVERY re-admits the device (R622). -/
def admitWrite (s : State) : State :=
  if s.boot.service = 2 then
    record { s with flash := { s.flash with withdrawn := false }, boot := { s.boot with service := 1 } } { kind := 0x34 }
  else s

/-- ADMIT. -/
def execAdmit (s : State) : Host.Outcome State Fault Refusal := .next (admitWrite s)

end Sys2Proof.Machine
end

