-- ==== Sys2Proof/Machine/HostMem.lean ====
section
/-! DEFINITION. The host's side of the CXL port (R189 to R191, R511 to R518, R530, R534 to R536, R718): the HDM window,
the snoop filter, refused accesses, the link and the MSI-X mask; patrol scrub and the copying of error records (R195,
R579, R580). -/

namespace Sys2Proof.Machine

/-! ### Accesses that are counted and recorded (R718) -/

/-- DETAIL of record kind 0x26: offset, space, rule. -/
def badDetail (off space rule : Nat) : Nat := off % 2 ^ 48 + space * 2 ^ 48 + rule * 2 ^ 52

/-- Count a refused or dropped host access and record it. -/
def badAccess (s : State) (off space rule : Nat) : State :=
  record { s with host := { s.host with badacc := s.host.badacc + 1 } }
    { kind := 0x26, detail := badDetail off space rule, engine := 10 }

/-- What the host is answered. -/
def hostReply (s : State) (x : HostReply) : State := { s with host := { s.host with replies := s.host.replies ++ [x] } }

/-! ### The HDM window (R189) -/

/-- 1 TiB. -/
def hdmBytes : Nat := 2 ^ 40
/-- 64 GiB. -/
def segBytes : Nat := 2 ^ 36

def segIndex (v : Word) : Nat := bits v 0 6
def segTier (v : Word) : Tier := tierOf (bits v 6 1)
def segEn (v : Word) : Bool := bit v 7

/-- CELLAR_HDM_SEGi. -/
def segReg (s : State) (i : Nat) : Word := tget 0 s.host.seg i

/-- A change of the segment is still waiting (R517). -/
def segHeld (s : State) (i : Nat) : Bool := s.host.segWait.any (fun x => x.1 == i)

/-- Tier and offset of a window byte. -/
def hdmTarget (s : State) (addr : Nat) : Tier × Nat :=
  let v := segReg s (addr / segBytes)
  (segTier v, segIndex v * segBytes + addr % segBytes)

/-- Whether an offset lies in the code region of a loaded context (R530). -/
def inCode (s : State) (t : Tier) (off n : Nat) : Bool :=
  t == .hbm && s.parts.any (fun p => p.ctx != .empty && overlaps off n p.codeStart p.codeLen)

/-- Entries of the snoop filter (R514). -/
def snoopSize : Nat := 2 ^ 20

/-- Lines that the host holds under a segment's present mapping. -/
def segLines (s : State) (i : Nat) : List Nat :=
  let v := segReg s i
  if segEn v then
    s.host.snoop.filter (fun l => lineKey (segTier v) (l / 2) == l && l / 2 * 64 / segBytes == segIndex v)
  else []

/-- The host takes a line into its caches. -/
def takeLine (s : State) (l : Nat) : State :=
  if s.host.snoop.contains l then s else { s with host := { s.host with snoop := s.host.snoop ++ [l] } }

/-- Every line that the host holds under the old mapping of a segment whose change waits is back-invalidated, also one taken
meanwhile through another segment (R517). -/
def chaseSegs (s : State) : State := s.host.segWait.foldl (fun s x => snoopLines s (segLines s x.1)) s

/-- HDM_HOST_READ of the 64-byte unit that holds an address (R191, R515, R516, R518, R641). -/
def execHdmHostRead (addr : Nat) (caches : Bool) (ecc : MemEcc) (s : State) : Host.Outcome State Fault Refusal :=
  let a := addr / 64 * 64
  let i := a / segBytes
  if hdmBytes ≤ addr then .fault (.outsideHdmWindow addr)
  else if segHeld s i then .next s
  else
    let zero (rule : Nat) : State := hostReply (badAccess s a 0 rule) (.data a (List.replicate 64 0) true)
    if 5 ≤ stageNow s then .next (zero 5)
    else if !segEn (segReg s i) then .next (zero 2)
    else
      let (t, off) := hdmTarget s a
      let l := lineKey t (off / 64)
      if caches && !s.host.snoop.contains l && decide (snoopSize ≤ s.host.snoop.length) then
        .next (snoopLines s (s.host.snoop.take 1))
      else
        let s := eccRead (wakeMemory s) t 0 [off / 64] ecc
        let s := if caches then chaseSegs (takeLine s l) else s
        .next (hostReply s (.data a (readBytes (tierMem s t) off 64) (isPoisoned s t (off / 64))))

/-- HDM_HOST_WRITE of bytes within one 64-byte unit (R191, R516, R530, R641). -/
def execHdmHostWrite (addr : Nat) (data : List Byte) (s : State) : Host.Outcome State Fault Refusal :=
  let i := addr / segBytes
  let bs := data.take (64 - addr % 64)
  if hdmBytes ≤ addr then .fault (.outsideHdmWindow addr)
  else if segHeld s i then .next s
  else if 5 ≤ stageNow s then .next (badAccess s addr 0 5)
  else if !segEn (segReg s i) then .next (badAccess s addr 0 2)
  else
    let (t, off) := hdmTarget s addr
    if inCode s t off bs.length then .next (badAccess s addr 0 3)
    else .next (writeMem (wakeMemory s) t (localPokes (8 * off) (8 * bs.length) (leVal bs)))

/-! ### Segment changes and back-invalidation (R190, R514, R517) -/

/-- The value that a write stores: SEG_INDEX is clamped against the TIER of the same write. -/
def segClamp (s : State) (value : Word) : Word :=
  let t := bits value 6 1
  BitVec.ofNat 32 (min (bits value 0 6) (tierBytes s t / segBytes - 1) + t * 2 ^ 6 + bits value 7 1 * 2 ^ 7)

def setSeg (s : State) (i : Nat) (v : Word) : State := { s with host := { s.host with seg := tset 0 s.host.seg i v } }

/-- A write to CELLAR_HDM_SEGi: a change waits until no line of the old mapping is held. -/
def segWrite (s : State) (i : Nat) (value : Word) : State :=
  let v := segClamp s value
  if segHeld s i then { s with host := { s.host with segWait := s.host.segWait ++ [(i, v)] } }
  else if v = segReg s i then s
  else
    let lines := segLines s i
    if lines.isEmpty then setSeg s i v
    else
      let s := snoopLines s lines
      { s with host := { s.host with segWait := s.host.segWait ++ [(i, v)] } }

/-- CELLAR_HDM_SEG_WRITE. -/
def execCellarHdmSegWrite (i : Fin 16) (value : Word) (s : State) : Host.Outcome State Fault Refusal :=
  .next (segWrite s i.val value)

/-- Waiting changes take effect once nothing of their segment's old mapping is held; those of one segment in order. -/
def settleSegs : List (Nat × Word) → State → State
  | [], s => s
  | (i, v) :: t, s =>
    if (segLines s i).isEmpty && s.host.segWait.find? (fun x => x.1 == i) == some (i, v) then
      settleSegs t { setSeg s i v with host := { (setSeg s i v).host with segWait := s.host.segWait.erase (i, v) } }
    else settleSegs t s

/-- BI_SNOOP_RESPONSE: the host no longer holds the line, and what waited for it may go on. -/
def execBiSnoopResponse (line : Nat) (s : State) : Host.Outcome State Fault Refusal :=
  if s.host.snooping.contains line then
    let s := { s with host := { s.host with
      snoop := s.host.snoop.filter (fun l => l != line)
      snooping := s.host.snooping.filter (fun l => l != line) } }
    .next (chaseSegs (settleSegs s.host.segWait s))
  else .next s

/-! ### MMIO and foreign requests (R513, R536, R688) -/

/-- An access that R536 refuses: not of 32 or 64 bits, or not naturally aligned. -/
def misshapen (x : MmioAccess) : Bool := !(x.width == 32 || x.width == 64) || x.addr % (x.width / 8) != 0

/-- The quadrant of an address in the CORE_ or QUAD_ block (R679). -/
def coreQuadOf (addr : Nat) : Option Nat :=
  if 0x40000 ≤ addr ∧ addr < 0x48000 then some ((addr - 0x40000) / 0x1000)
  else if 0x1000000 ≤ addr ∧ addr < 0x1C00000 then some (quadOf ((addr - 0x1000000) / 0x10000))
  else none

/-- Refuse an MMIO access: a read completes as an unsupported request, a write is dropped. -/
def refuseMmio (s : State) (x : MmioAccess) (rule : Nat) : State :=
  let s := badAccess s x.addr 1 rule
  if x.write then s else hostReply s (.unsupported x.addr)

/-- The rule that refuses an MMIO access, if one does: its shape, S5, or an idle level of I3 or I4. -/
def mmioRule (s : State) (x : MmioAccess) : Option Nat :=
  if misshapen x then some 4
  else match coreQuadOf x.addr with
    | some q => if 5 ≤ stageNow s then some 7 else if 3 ≤ (getQuad s q).idle then some 6 else none
    | none => none

/-- MMIO_BAD_ACCESS. -/
def execMmioBadAccess (access : MmioAccess) (s : State) : Host.Outcome State Fault Refusal :=
  match mmioRule s access with
  | some r => .next (if r = 6 then s else refuseMmio s access r)
  | none => .next s

/-- CXL_FOREIGN_REQUEST: a request from a PBR ID that is not bound. -/
def execCxlForeignRequest (pid : BitVec 12) (mem : Bool) (addr : Nat) (s : State) : Host.Outcome State Fault Refusal :=
  if pid = s.host.pid then .next s
  else
    let mmio := !mem && decide (addr < 0x2000000)
    .next (hostReply (badAccess s (if mem || mmio then addr else 0) (if mem then 0 else if mmio then 1 else 2) 1)
      (.unsupported addr))

/-! ### The link (R512) -/

/-- CELLAR_LINK_STATUS. -/
def linkStatus (s : State) : Nat :=
  s.host.width + flag s.host.rate64 * 2 ^ 4 + flag s.host.degraded * 2 ^ 5 + flag s.host.ideActive * 2 ^ 6

/-- The link has trained at a width and a rate in GT/s: below x8 at 64 GT/s it is degraded and recorded; below x4 or below 32
GT/s it stays in training. -/
def trainLink (s : State) (width rate : Nat) : State :=
  if (width = 4 ∨ width = 8) ∧ (rate = 32 ∨ rate = 64) then
    let bad := width == 4 || rate == 32
    let s := { s with host := { s.host with width := width, rate64 := rate == 64, degraded := bad } }
    if bad then record s { kind := 0x27, detail := linkStatus s, engine := 10 } else s
  else { s with host := { s.host with width := 0, rate64 := false, degraded := false } }

/-- CXL_LINK_TRAINED; behind a PBR switch the fabric manager binds the PBR ID of the host to the device (R513; assumption
84). -/
def execCxlLinkTrained (width : Nat) (found : LinkFound) (s : State) : Host.Outcome State Fault Refusal :=
  let s := trainLink s width found.rate
  .next (match found.binding with
    | some pid => { s with host := { s.host with pid := pid } }
    | none => s)

/-! ### MSI-X (R535) -/

/-- MSIX_VECTOR_UNMASK: one message for everything that was pending. -/
def execMsixVectorUnmask (vector : Fin 64) (s : State) : Host.Outcome State Fault Refusal :=
  let v := vector.val
  let pend := bit s.host.msixPend v
  .next { s with host := { s.host with
    msixMask := setBits s.host.msixMask v 1 0
    msixPend := setBits s.host.msixPend v 1 0
    messages := if pend then s.host.messages ++ [v] else s.host.messages } }

/-! ### Patrol scrub (R193 to R195) -/

/-- Whether shedding, or I4, holds patrol scrub. -/
def scrubHeld (s : State) : Bool := decide (1 ≤ stageNow s) || (getQuad s 0).idle == 4

/-- PATROL_SCRUB_READ: a correction is written back, which waits for a line that the host holds (R514). -/
def execPatrolScrubRead (tier : Tier) (unit : Nat) (found : ScrubFound) (s : State) : Host.Outcome State Fault Refusal :=
  if !bit s.scrubCtrl 0 || scrubHeld s || decide (tierBytes s (tierCode tier) ≤ 64 * unit) then .next s
  else match found with
    | .clean => .next (findPoison s tier 0 unit)
    | .corrected =>
      let lines := heldLines s tier [unit]
      if lines.isEmpty then .next { s with eccCounts := bumpTbl s.eccCounts (controllerOf s tier unit) 1 }
      else .next (snoopLines s lines)
    | .uncorrectable => .next (eccRead s tier 0 [unit] ⟨[(tier, unit)], []⟩)

/-! ### Copying error records (R579, R580) -/

/-- A summary record of a table entry (R580). -/
def summaryOf (s : State) (x : Record × Nat × Nat × Bool) : Record :=
  { x.1 with
    rseq := BitVec.ofNat 32 s.errors.rseq
    detail := BitVec.ofNat 64 x.2.1
    lost := BitVec.ofNat 32 x.2.2.1
    flags := 1 + 2 * flag x.2.2.2 }

/-- With the store empty, the oldest table entry becomes a summary record. -/
def takeSummary (s : State) : State :=
  match s.errors.store, s.errors.table with
  | [], x :: t =>
    { s with errors := { s.errors with store := [summaryOf s x], table := t, rseq := s.errors.rseq + 1 } }
  | _, _ => s

/-- ERROR_RECORD_COPY: the oldest stored record, or else the oldest summary, goes to the ring while it has room. -/
def execErrorRecordCopy (s : State) : Host.Outcome State Fault Refusal :=
  if ringFull s || (s.errors.store.isEmpty && s.errors.table.isEmpty) then .next s
  else if ringLineHeld s then .next (snoopLines s [lineKey .hbm (ringAddr s / 64)])
  else .next (copyOldest (takeSummary s))

end Sys2Proof.Machine
end

