-- ==== Sys2Proof/Machine/Power.lean ====
section
/-! DEFINITION. Clocks (R624 to R627), supply shedding (R630 to R643), thermal limits (R645 to R647), idle levels (R648 to
R654), and power sequencing (R644, R692, R695, R700 to R711). -/

namespace Sys2Proof.Machine

/-! ### The CCLK divider (R625, R626) -/

/-- The divider request of shedding. -/
def shedDiv (s : State) : Nat := if 3 ≤ stageNow s then 2 else 0

/-- The slowest of the three requests. -/
def divWanted (s : State) : Nat := max s.power.divHost (max s.power.divTherm (shedDiv s))

/-- The request that determines a divider: the first of host, thermal and shedding that asks for it. -/
def divSource (s : State) : Nat :=
  if s.power.divHost = divWanted s then 0 else if s.power.divTherm = divWanted s then 1 else 2

/-- Switch CCLK to the slowest request, with its record. -/
def switchCclk (s : State) : State :=
  if divWanted s = s.power.divNow then s
  else
    let old := s.power.divNow
    let s := { s with power := { s.power with divNow := divWanted s } }
    record s { kind := 0x41, detail := old + s.power.divNow * 2 ^ 3 + divSource s * 2 ^ 6 }

/-- CCLK_DIVIDER_CHANGE. -/
def execCclkDividerChange (s : State) : Host.Outcome State Fault Refusal := .next (switchCclk s)

/-- A write of DIV_HOST; legal codes are 0 to 4. -/
def divWrite (s : State) (value : Word) : State :=
  { s with power := { s.power with divHost := min 4 (bits value 0 3) } }

/-- DIV_HOST_WRITE. -/
def execDivHostWrite (value : Word) (s : State) : Host.Outcome State Fault Refusal := .next (divWrite s value)

/-! ### Pools (R630) -/

/-- The stage pool in half tokens. -/
def stagePool (s : State) : Nat := if 3 ≤ stageNow s then 300 else if stageNow s = 2 then 450 else 600

/-- The pool in force of a quadrant in half tokens. -/
def poolNow (s : State) (q : Nat) : Nat := min (stagePool s) (getQuad s q).poolCap.toNat

/-- A write of CAP, legal 120 to 600. -/
def poolCapWrite (s : State) (q : Nat) (value : Word) : State :=
  modQuad s q (fun x => { x with poolCap := BitVec.ofNat 32 (max 120 (min 600 (bits value 0 10))) })

/-- PWR_POOL_CAP_WRITE: it holds from the next CCLK cycle (R631). -/
def execPwrPoolCapWrite (q : Fin 8) (value : Word) (s : State) : Host.Outcome State Fault Refusal :=
  .next (poolCapWrite s q.val value)

/-! ### Entering S5 (R641) -/

/-- Step 1: every RUNNING context that S4 does not hold stops. -/
def stopUnheld (s : State) : State := s.parts.foldl (fun s p => if s4Holds s p then s else stopPart s p.low) s

/-- Contexts whose stop is still awaited. -/
def stopsPending (s : State) : Bool := s.parts.any (fun p => p.ctx == .running && p.stopping)

/-- Whether every memory request that was accepted has completed: no posted local request is left (R641). -/
def memoryIdle (s : State) : Bool := s.cores.all (fun x => x.2.queues.all (fun y => !y.2.reqs.any stillLocal))

/-- Steps 3 to 5: memories go to self-refresh, core store and tun to retention, and the supply record is written. -/
def finishS5 (s : State) (t : Nat) (rec_ : Bool) : State :=
  { s with
    power := { s.power with selfRefresh := true, retention := true, s5Wait := none, s5Sent := false }
    flash := if rec_ then { s.flash with supply := s.flash.supply ++ [10 * (t / 102)] } else s.flash }

/-- How far the entry has come: the stops of step 1 are awaited for at most 1 ms, then the notices of step 2 until every port
is dark, then the memory requests already accepted. -/
def settleS5 (s : State) : State :=
  match s.power.s5Wait with
  | none => s
  | some (t, rec_) =>
    if !s.power.s5Sent && stopsPending s && decide (s.pll < t + ms 1) then s
    else
      let s := if s.power.s5Sent then s else quiescePorts { s with power := { s.power with s5Sent := true } }
      if portsDark s && memoryIdle s then finishS5 s t rec_ else s

/-- S5 begins. -/
def enterS5 (s : State) (rec_ : Bool) : State :=
  settleS5 (stopUnheld { s with power := { s.power with
    s5Wait := some (s.pll, rec_), s5Sent := false, s5Ending := none } })

/-! ### Leaving stages (R639, R642) -/

/-- A participant's wait with t the cycle on which S4 ends. -/
def remeet (cc : Nat) (x : Sh) : Sh :=
  match x.mode, x.wait with
  | .wait, some w => match w.kind, w.metAt with
    | .beatup _ _, some _ => { x with wait := some { w with metAt := some cc } }
    | _, _ => x
  | _, _ => x

/-- A shuttle's hang window did not run while the partition was held (R602). -/
def pauseSh (paused : Nat) (x : Sh) : Sh := { x with progressAt := x.progressAt + paused }

/-- S4 ends for a partition that it held. -/
def releaseS4 (s : State) (p : Part) : State :=
  match p.s4Hold with
  | none => s
  | some (t, at_) =>
    let s := modPart s p.low (fun x => { x with s4Hold := none })
    if t ≤ s.cc then
      let paused := s.pll - at_
      let s := p.map.foldl (fun s n => modCore s n (fun c => allShuttles.foldl (fun c sh =>
        modSh c sh (fun x => pauseSh paused (remeet s.cc x))) c)) s
      modPart s p.low (fun x => { x with hangShuttle := x.hangShuttle.map (fun h => (h.1, h.2.1, h.2.2 + paused)) })
    else s

/-- Sweeps resume: a channel in RETRAINING begins its time anew (R502). -/
def resumeSweeps (s : State) (k : Nat) : State :=
  modPort s k (fun p => { p with
    sweepHeld := false
    chans := p.chans.map (fun x =>
      (x.1, if x.2.sweepHeld = true then { x.2 with sweepHeld := false, retrainAt := s.pll } else x.2)) })

/-- The memories leave self-refresh, and core store and tun retention, at the end of S5. -/
def wakeS5 (s : State) : State :=
  { s with power := { s.power with selfRefresh := false, retention := false, s5Wait := none, s5Sent := false } }

/-- The actions of the stages from `new` + 1 to `old` are lifted, the deepest first; `s` is already at the new stage. On
leaving S3, CCLK is restored before the pool is raised (R635). -/
def liftStages (s : State) (old new : Nat) : State :=
  let s := if old = 5 ∧ new < 5 then wakeS5 s else s
  let s := if 4 ≤ old ∧ new < 4 then s.parts.foldl releaseS4 s else s
  let s := if 3 ≤ old ∧ new < 3 then switchCclk s else s
  if 1 ≤ old ∧ new = 0 then (List.range 8).foldl resumeSweeps s else s

/-- The actions of the stages from `old` + 1 to `new`, in stage order (R635). Those of S2 and S3 follow from the stage
itself. -/
def enterStages (s : State) (old new : Nat) (rec_ : Bool) : State :=
  let s := if old < 1 ∧ 1 ≤ new then (List.range 8).foldl holdSweeps s else s
  let s := if old < 4 ∧ 4 ≤ new then { s with power := { s.power with s4At := s.pll } } else s
  if old < 5 ∧ new = 5 then enterS5 s rec_ else s

/-! ### Stages (R633, R634) -/

/-- Entry and leave levels of stage k in 10 mV. -/
def enterBelow (k : Nat) : Nat := 5300 - 200 * k
def leaveAt (k : Nat) : Nat := 5400 - 200 * k

/-- The stage in force for an average: the deepest that it enters, or that was in force and has not ended. -/
def stageFor (old average : Nat) : Nat :=
  (List.range 6).foldl (fun a k =>
    if k ≠ 0 ∧ (average < enterBelow k ∨ (k ≤ old ∧ average < leaveAt k)) then k else a) 0

/-- Count each stage that is entered. -/
def countStages (t : Tbl Dword) (old new : Nat) : Tbl Dword :=
  (List.range 6).foldl (fun t k => if old < k ∧ k ≤ new then bumpTbl t k 1 else t) t

/-- A change of stage: record 0x40, the counts, vector 33, and the actions. TCLK absence already applies those of S5. -/
def changeStage (s : State) (new average : Nat) : State :=
  let old := s.power.stage
  let now := stageNow s
  let s := { s with power := { s.power with stage := new, stageCounts := countStages s.power.stageCounts old new } }
  let s := raiseVector (record s { kind := 0x40, detail := old + new * 2 ^ 3 + average * 2 ^ 16 }) 33
  if s.power.tclkAbsent then s
  else if now < new then enterStages s now new true else liftStages s now new

/-- Whether every port that may light has done so. -/
def portsUp (s : State) : Bool :=
  (List.range 8).all (fun k => let p := getPort s k; (p.lit && !p.quiescing) || !mayLight s p)

/-- The end of S5: once the ports are up, the stage that follows is treated as the one in force (R642); what an absence of TCLK
applied is lifted likewise (R627). -/
def settleEnd (s : State) : State :=
  match s.power.s5Ending with
  | none => s
  | some new =>
    if portsUp s then
      let s := { s with power := { s.power with s5Ending := none } }
      if s.power.stage = 5 then changeStage s (min new 5) s.power.vinAvg
      else liftStages { s with power := { s.power with tclkAbsent := false } } 5 s.power.stage
    else s

/-- S5 begins to end: the memories leave self-refresh, and the ports may light (R642). -/
def beginEnd (s : State) (new : Nat) : State :=
  settleEnd { wakeS5 s with power := { (wakeS5 s).power with s5Ending := some new } }

/-- An S5 that was ending goes on: its actions apply again. -/
def resumeS5 (s : State) : State := enterS5 { s with power := { s.power with s5Ending := none } } false

/-- What an average means while S5 is in force through the supply: it goes on, or ends as R642 says. -/
def leaveS5 (s : State) (new avg : Nat) : State :=
  if new = 5 then (if s.power.s5Ending.isSome then resumeS5 s else s)
  else if s.power.tclkAbsent then changeStage s new avg
  else beginEnd s new

/-- SHED_STAGE_CHANGE: the monitor has a new 1 ms average. -/
def execShedStageChange (average : Nat) (s0 : State) : Host.Outcome State Fault Refusal :=
  let avg := min average 65535
  let s := settleEnd (settleS5 { s0 with power := { s0.power with vinAvg := avg } })
  let new := stageFor s.power.stage avg
  .next (if s.power.stage = 5 then leaveS5 s new avg
    else if new = s.power.stage then s
    else if new = 5 ∧ s.power.s5Ending.isSome then
      changeStage { s with power := { s.power with s5Ending := none, tclkAbsent := false } } new avg
    else changeStage s new avg)

/-- S4_LIMIT_EXPIRY: a RUNNING context that S4 has not held in time stops, with record 0x46 (R640). -/
def execS4LimitExpiry (q : Fin 8) (s : State) : Host.Outcome State Fault Refusal :=
  match partOf s q.val with
  | none => .next s
  | some p =>
    if 4 ≤ stageNow s ∧ p.ctx = .running ∧ p.stopping = false ∧ s4Holds s p = false ∧
        s.power.s4At + ms s.power.s4LimitMs ≤ s.pll then
      .next (stopPart (record s (partRec 0x46 p p.low)) p.low)
    else .next s

/-! ### The reference clock (R627) -/

/-- TCLK_LOSS: no edge for 1 µs. The loops hold their frequency, so time goes on; the absence counts from the last edge. -/
def execTclkLoss (s : State) : Host.Outcome State Fault Refusal :=
  if s.power.tclk then
    .next (record { s with power := { s.power with tclk := false, tclkLostAt := some (s.pll - us 1) } } { kind := 0x47 })
  else .next s

/-- TCLK_ABSENT: 100 ms after the last edge the actions of S5 apply. -/
def execTclkAbsent (s : State) : Host.Outcome State Fault Refusal :=
  match s.power.tclkLostAt with
  | some t =>
    let lost := { s with power := { s.power with tclkAbsent := true } }
    if s.pll < t + ms 100 then .next s
    else if s.power.s5Ending.isSome then .next (resumeS5 lost)
    else if s.power.tclkAbsent then .next s
    else .next (enterStages lost s.power.stage 5 true)
  | none => .next s

/-- TCLK_RETURN: TCLK has been back for 10 ms; what its absence applied is lifted as S5 is. -/
def execTclkReturn (s : State) : Host.Outcome State Fault Refusal :=
  if s.power.tclk then .next s
  else
    let was := s.power.tclkAbsent
    let s := { s with power := { s.power with tclk := true, tclkLostAt := none } }
    .next (if !was then s
      else if s.power.stage = 5 then { s with power := { s.power with tclkAbsent := false } }
      else beginEnd s s.power.stage)

/-! ### Thermal limits (R645, R646) -/

/-- TMAX as 16 bits. -/
def tmaxBits (t : Int) : Nat := (BitVec.ofInt 16 t).toNat

def setTmax (s : State) (t : Int) : State := { s with power := { s.power with tmax := t } }

/-- A throttle step: record 0x42 and vector 35 where throttling starts or ends. -/
def setTherm (s : State) (code : Nat) : State :=
  let old := s.power.divTherm
  let s := { s with power := { s.power with divTherm := code, thermAt := s.pll } }
  if old = 0 ∧ code ≠ 0 then raiseVector (record s { kind := 0x42, detail := tmaxBits s.power.tmax + 2 ^ 16 }) 35
  else if old ≠ 0 ∧ code = 0 then raiseVector (record s { kind := 0x42, detail := tmaxBits s.power.tmax }) 35
  else s

/-- THERMAL_THROTTLE_STEP: slower every 1 ms at or above THROTTLE, faster every 10 ms below THROTTLE − 5 °C. -/
def execThermalThrottleStep (tmax : Int) (s0 : State) : Host.Outcome State Fault Refusal :=
  let s := setTmax s0 tmax
  let code := s.power.divTherm
  if (s.power.throttle : Int) ≤ tmax then
    .next (if code < 4 ∧ s.power.thermAt + ms 1 ≤ s.pll then setTherm s (code + 1) else s)
  else if tmax < (s.power.throttle : Int) - 20 then
    .next (if 0 < code ∧ s.power.thermAt + ms 10 ≤ s.pll then setTherm s (code - 1) else s)
  else .next s

/-- THERMAL_CRITICAL: 115 °C for 100 µs sets CRIT and stops every context. -/
def execThermalCritical (tmax : Int) (sensor : Byte) (s0 : State) : Host.Outcome State Fault Refusal :=
  let s := setTmax s0 tmax
  if 460 ≤ tmax ∧ s.power.crit = false then
    let s := stopAll { s with power := { s.power with crit := true } }
    .next (raiseVector (record s { kind := 0x43, detail := tmaxBits tmax + sensor.toNat * 2 ^ 16 }) 35)
  else .next s

/-- THERMAL_CRIT_CLEAR: below 105 °C CRIT clears; stopped contexts stay STOPPED. -/
def execThermalCritClear (tmax : Int) (s0 : State) : Host.Outcome State Fault Refusal :=
  let s := setTmax s0 tmax
  .next (if tmax < 420 then { s with power := { s.power with crit := false } } else s)

/-! ### Switching off and on (R644, R647, R692, R695, R700 to R702, R707 to R711) -/

/-- The module with nothing but what survives an L5: fuses, flash, the wet sensor, and the commands that wait. The number
of draws goes on, so free values stay fresh. -/
def cleared (s : State) : State :=
  { pending := s.pending, fuses := s.fuses, flash := s.flash, draws := s.draws
    power := { leak := s.power.leak, pwrEn := s.power.pwrEn } }

/-- Rails off: every volatile state is lost. -/
def switchOff (s : State) (trip await : Bool) : State :=
  let t := cleared s
  { t with power := { t.power with
    rails := false
    pgood := false
    thermTrip := trip || s.power.thermTrip
    l5Request := s.power.l5Request
    awaitInput := await } }

/-- Power-on: every register at its Reset value (R689, R707). Nothing is averaged yet. -/
def powerOn (s : State) : State :=
  let t := cleared s
  { t with power := { t.power with pwrEn := true, thermTrip := s.power.thermTrip, l5Request := s.power.l5Request } }

/-- THERMAL_SHUTDOWN at 125 °C. -/
def execThermalShutdown (tmax : Int) (s : State) : Host.Outcome State Fault Refusal :=
  if 500 ≤ tmax ∧ s.power.rails then .next (switchOff s true false) else .next s

/-- INPUT_UNDERVOLTAGE_OFF below 40 V. -/
def execInputUndervoltageOff (input : Nat) (s : State) : Host.Outcome State Fault Refusal :=
  if input < 4000 then
    .next (if s.power.rails then switchOff s false s.power.pwrEn
      else { s with power := { s.power with awaitInput := s.power.pwrEn } })
  else .next s

/-- INPUT_OVERVOLTAGE_OFF above an average of 62 V. -/
def execInputOvervoltageOff (average : Nat) (s : State) : Host.Outcome State Fault Refusal :=
  if 6200 < average ∧ s.power.rails then .next (switchOff s false s.power.pwrEn) else .next s

/-- RAIL_FAULT after PGOOD went high. -/
def execRailFault (s : State) : Host.Outcome State Fault Refusal :=
  if s.power.pgood then .next (switchOff s false false) else .next s

/-- INPUT_RETURN: with PWR_EN still asserted the device restarts from power-on once the input is back, above 48 V. -/
def execInputReturn (input : Nat) (s : State) : Host.Outcome State Fault Refusal :=
  if s.power.awaitInput && s.power.pwrEn && decide (4800 < input) && decide (input ≤ 6200) then .next (powerOn s)
  else .next s

/-- POWER_UP: PWR_EN is asserted; the converters start at 48 V or more. -/
def execPowerUp (input : Nat) (s : State) : Host.Outcome State Fault Refusal :=
  if s.power.pwrEn then .next s
  else if s.power.rails then .next s
  else if 4800 ≤ input then .next (powerOn s)
  else .next { s with power := { s.power with pwrEn := true, awaitInput := true } }

/-- Rails go off at the end of a shutdown. -/
def railsOff (s : State) : State :=
  let t := switchOff s false false
  { t with power := { t.power with pwrEn := false, thermTrip := false, l5Request := false } }

/-- POWER_DOWN: PWR_EN is deasserted. The actions of S5 are taken within 5 ms, without a supply record, and then the rails
go off; a second command, or the passing of 5 ms, stands for their end. L5_REQ_N and THERMTRIP_N are released (R700,
R701). -/
def execPowerDown (s : State) : Host.Outcome State Fault Refusal :=
  if s.power.pwrEn then
    let s := { s with power := { s.power with
      pwrEn := false, l5Request := false, thermTrip := false, awaitInput := false, downAt := some s.pll } }
    .next (if s.power.rails then enterS5 s false else s)
  else .next (if s.power.rails then railsOff s else s)

/-- LEAK_DETECT: LEAK_N follows the moisture sensor, and nothing else happens (R702). -/
def execLeakDetect (wet : Bool) (s : State) : Host.Outcome State Fault Refusal :=
  .next { s with power := { s.power with leak := wet } }

end Sys2Proof.Machine
end

