-- ==== Sys2Proof/Machine/Idle.lean ====
section
/-! DEFINITION. Idle levels (R648 to R654): known events, the choice of a level, entry and exit. -/

namespace Sys2Proof.Machine

/-! ### Known events (R649) -/

/-- The host horizon of a partition's ring, if one is declared. -/
def hostHorizon (s : State) (p : Part) : List Nat :=
  let q := getQuad s p.low
  if q.horizonHost = 0 then [] else [q.horizonAt + us q.horizonHost.toNat]

/-- Deadlines of the buckets open in the partition's casks. -/
def bucketEvents (s : State) (p : Part) : List Nat :=
  (partCasks p).flatMap (fun k => ((getCask s k).buckets.filter (fun x => x.low == p.low)).filterMap (fun x =>
    match bucketRec p x.bucket with
    | some r => bucketDeadline x r
    | none => none))

/-- Known events that have not passed. -/
def knownEvents (s : State) (p : Part) : List Nat :=
  (p.horizon ++ hostHorizon s p ++ bucketEvents s p).filter (fun t => decide (s.pll < t))

/-- The earliest of several times. -/
def earliest : List Nat → Option Nat
  | [] => none
  | x :: t => match earliest t with
    | none => some x
    | some y => some (min x y)

/-! ### The choice (R650, R651) -/

/-- Exit latency and entry time of a level in µs. -/
def exitUs (l : Nat) : Nat := if l = 1 then 2 else if l = 2 then 30 else if l = 3 then 2000 else if l = 4 then 80000 else 0
def entryUs (l : Nat) : Nat := if l = 1 then 1 else if l = 2 then 20 else if l = 3 then 1500 else if l = 4 then 20000 else 0

/-- Whether a partition is eligible: not RUNNING, no reset, no test, no command waiting, and no stage of S4 or deeper. -/
def idleEligible (s : State) (p : Part) : Bool :=
  p.ctx != .running && p.reset.isNone && p.testing.isEmpty && decide (stageNow s < 4) &&
    (getRing s p.low).busy.isNone

/-- The time until the earliest known event less the guard, in root-PLL cycles; `none` without a known event. -/
def idleRoom (s : State) (p : Part) : Option Nat :=
  (earliest (knownEvents s p)).map (fun t => t - s.pll - us s.power.guardUs)

/-- The deepest level of 0 to `max_` that fits. -/
def fittingLevel (room max_ : Nat) : Nat :=
  (List.range (max_ + 1)).foldl (fun a l => if us (entryUs l + exitUs l) ≤ room then l else a) 0

/-- The level that a partition chooses for itself. -/
def idleChoice (s : State) (p : Part) : Nat :=
  if idleEligible s p then
    match idleRoom s p with
    | none => min 1 s.power.maxLevel
    | some room => fittingLevel room s.power.maxLevel
  else 0

/-- Whether two partitions share a compute die. -/
def dieOf (q : Nat) : Nat := q / 4
def sharesDie (a b : Part) : Bool :=
  (partQuads a).any (fun x => (partQuads b).any (fun y => dieOf x == dieOf y))

/-- The level that a choice gives (R651). -/
def idleLevel (s : State) (p : Part) : Nat :=
  let l := idleChoice s p
  if l = 4 ∧ s.parts.all (fun x => idleChoice s x == 4) then 4
  else if 3 ≤ l then
    if (s.parts.filter (sharesDie p)).all (fun x => decide (3 ≤ idleChoice s x)) then 3 else 2
  else l

/-! ### Entering (R650, R654) -/

/-- The save area of a die: 256 MiB (R654). -/
def saveArea (s : State) (die : Nat) : Nat := bits s.power.saveBase 0 42 + die * 0x4800000000
def saveLen : Nat := 2 ^ 28

/-- Host-held lines of the save areas. -/
def saveLines (s : State) (dies : List Nat) : List Nat :=
  s.host.snoop.filter (fun l => lineKey .hbm (l / 2) == l &&
    dies.any (fun d => overlaps (32 * l) 64 (saveArea s d) saveLen))

/-- Core store, tun and core state go to the die's save area. Their layout there is not given: the area holds free bytes. -/
def saveDie (s : State) (die : Nat) : State :=
  { writeMemBytes s .hbm (saveArea s die) (drawBytes s.draws saveLen) with draws := s.draws + saveLen }

/-- Set the level of partitions' quadrants. -/
def setIdle (s : State) (ps : List Part) (l : Nat) : State :=
  ps.foldl (fun s p => modPartQuads s p (fun q => { q with idle := l })) s

/-- The dies of partitions. -/
def diesOf (ps : List Part) : List Nat := ((ps.flatMap partQuads).map dieOf).dedup

/-- Dies not yet saved. -/
def unsaved (s : State) (dies : List Nat) : List Nat :=
  dies.filter (fun d => (List.range 4).any (fun i => decide ((getQuad s (4 * d + i)).idle < 3)))

/-- Take a level: at I3 every partition of the die, at I4 every one. -/
def takeLevel (s : State) (p : Part) (l : Nat) : State :=
  let ps := if l = 4 then s.parts else if l = 3 then s.parts.filter (sharesDie p) else [p]
  let dies := unsaved s (diesOf ps)
  let s := if 3 ≤ l then dies.foldl saveDie s else s
  let s := setIdle s ps l
  if l = 4 then
    let s := quiescePorts s
    { s with power := { s.power with selfRefresh := true } }
  else s

/-- The dies that a level would save now. -/
def savesDies (s : State) (p : Part) (l : Nat) : List Nat :=
  if l < 3 then [] else unsaved s (diesOf (if l = 4 then s.parts else s.parts.filter (sharesDie p)))

/-! ### Leaving (R651, R652) -/

/-- Another partition when one of its die leaves I3 or I4: it keeps what it may. -/
def shallower (p x : Part) (idle : Nat) : Nat :=
  if sharesDie p x then min idle 2 else min idle 3

/-- A partition goes back to a shallower level, and takes its die and the device out of I3 and I4. -/
def leaveTo (s : State) (p : Part) (l : Nat) : State :=
  let was := (getQuad s p.low).idle
  let s := modPartQuads s p (fun q => { q with idle := l, exitAt := none })
  let s := if 3 ≤ was ∧ l < 3 then
      (s.parts.filter (fun x => x.low != p.low)).foldl (fun s x =>
        modPartQuads s x (fun q => { q with idle := shallower p x q.idle })) s
    else if was = 4 then
      (s.parts.filter (fun x => x.low != p.low)).foldl (fun s x =>
        modPartQuads s x (fun q => { q with idle := min 3 q.idle })) s
    else s
  if was = 4 ∧ stageNow s < 5 then { s with power := { s.power with selfRefresh := false } } else s

/-- A partition goes back to I0. -/
def leaveIdle (s : State) (p : Part) : State := leaveTo s p 0

/-! ### Choosing anew (R651) -/

/-- The state and the known events of every partition, by which a choice is made. -/
def choiceNow (s : State) : List (Nat × Ctx × List Nat) := s.parts.map (fun p => (p.low, p.ctx, knownEvents s p))

/-- Whether the state or a known event of a partition has changed since the last choice; an event that has passed has dropped
out of the set. -/
def choiceChanged (s : State) : Bool :=
  s.power.idleSeen.map (fun x => (x.1, x.2.1, x.2.2.filter (fun t => decide (s.pll < t)))) != choiceNow s

/-- IDLE_ENTER: an eligible partition takes a level deeper than the one it has; and when a state or a known event has changed,
the choice may give it a shallower one. -/
def execIdleEnter (q : Fin 8) (s : State) : Host.Outcome State Fault Refusal :=
  match partOf s q.val with
  | none => .next s
  | some p =>
    let x := getQuad s p.low
    let l := idleLevel s p
    if x.exitAt.isSome then .next s
    else
      let t := { s with power := { s.power with idleSeen := choiceNow s } }
      if x.idle < l then
        let lines := saveLines s (savesDies s p l)
        if lines.isEmpty then .next (takeLevel t p l) else .next (snoopLines s lines)
      else if choiceChanged s then .next (if l < x.idle then leaveTo t p l else t)
      else .next s

/-- An exit that an access at I2 triggered reaches I0 after the level's exit latency (R653). -/
def settleExit (s : State) (p : Part) : State :=
  match (getQuad s p.low).exitAt with
  | some t => if t ≤ s.pll then leaveIdle s p else s
  | none => s

/-- Whether a cause of R652 holds. -/
def exitCause (s : State) (p : Part) : IdleCause → Bool
  | .command => ringEn (getRing s p.low) && (getRing s p.low).head != (getRing s p.low).tail
  | .horizonWrite => false
  | .knownEvent =>
    match earliest (knownEvents s p) with
    | some t => decide (t ≤ s.pll + us (exitUs (getQuad s p.low).idle))
    | none => false
  | .shedding => decide (4 ≤ stageNow s)

/-- IDLE_EXIT. A write of the host horizon exits by its own command. -/
def execIdleExit (q : Fin 8) (cause : IdleCause) (s : State) : Host.Outcome State Fault Refusal :=
  match partOf s q.val with
  | none => .next s
  | some p =>
    if (getQuad s p.low).idle ≠ 0 ∧ exitCause s p cause = true then .next (leaveIdle s p) else .next s

/-- A write of PWR_HORIZON_HOSTr: the host horizon of ring r, and an exit of its partition. -/
def horizonWrite (s : State) (r : Nat) (value : Word) : State :=
  let s := modQuad s r (fun q => { q with horizonHost := value, horizonAt := s.pll })
  match partAt s r with
  | some p => if (getQuad s p.low).idle = 0 then s else leaveIdle s p
  | none => s

/-- PWR_HORIZON_HOST_WRITE. -/
def execPwrHorizonHostWrite (r : Fin 8) (value : Word) (s : State) : Host.Outcome State Fault Refusal :=
  .next (horizonWrite s r.val value)

end Sys2Proof.Machine
end

