-- ==== Sys2Proof/Machine/SelfTest.lean ====
section
/-! DEFINITION. Self-test and calibration during work (R670 to R676). -/

namespace Sys2Proof.Machine

/-! ### The request (R670) -/

/-- Set bits of a core set. -/
def countCores (x : BitVec 192) : Nat := ((List.range 192).filter (fun n => bit x n)).length

/-- The selected cores that exist. -/
def selected (s : State) : BitVec 192 :=
  (List.range 192).foldl (fun a n => if isDisabled s n then setBits a n 1 0 else a) s.selfTest.sel

/-- When nothing is left and nothing is under test, the request completes. -/
def settleTests (s : State) : State :=
  let x := s.selfTest
  if x.busy && x.left == 0 && x.started.isEmpty then
    let s := noteW1c { s with selfTest := { x with busy := false, done := true } } 0x300 4
    raiseVector (record s { kind := 0x57, detail := x.asked + countCores x.fail * 2 ^ 8 }) 36
  else s

/-- A write of CELLAR_SELFTEST_CTRL: TEST and INTRUSIVE are stored, DONE cleared by 1, and GO starts a request unless BUSY,
with the TEST of that write (assumption 50). -/
def selftestWrite (s : State) (value : Word) : State :=
  let s := { s with selfTest := { s.selfTest with
    test := bit value 0
    intrusive := bit value 1
    done := s.selfTest.done && !bit (w1cWrite s 0x300 value) 4 } }
  if bit value 2 && !s.selfTest.busy then
    settleTests { s with selfTest := { s.selfTest with
      busy := true
      left := selected s
      fail := 0
      started := []
      kind := bit value 0
      asked := countCores (selected s) } }
  else s

/-- SELFTEST_GO. -/
def execSelftestGo (value : Word) (s : State) : Host.Outcome State Fault Refusal := .next (selftestWrite s value)

/-! ### Starting (R671 to R673) -/

/-- The time of one core's test: 300 µs for LOGIC, 2 ms for STORE. -/
def testTime (s : State) : Nat := if s.selfTest.kind then ms 2 else us 300

/-- A core's test begins. -/
def beginTest (s : State) (n : Nat) : State :=
  { s with selfTest := { s.selfTest with
      left := setBits s.selfTest.left n 1 0
      started := tset 0 s.selfTest.started n (s.pll + 1) } }

/-- The idle window of R671: the context is EMPTY and no known event comes before the test's end. -/
def testWindow (s : State) (p : Part) : Bool :=
  p.ctx == .empty && p.reset.isNone && p.clearing.isNone && p.testing.isEmpty && (getRing s p.low).busy.isNone &&
    (match idleRoom s p with
      | none => true
      | some room => decide (testTime s ≤ room))

/-- Every waiting core of the partition is tested together, and the partition takes no idle level. -/
def startWindow (s : State) (p : Part) : State :=
  let ns := (partCores p).filter (fun n => bit s.selfTest.left n)
  let s := if (getQuad s p.low).idle = 0 then s else leaveIdle s p
  modPart (ns.foldl beginTest s) p.low (fun x => { x with testing := ns })

/-- Whether a core is under test in an idle window of its partition (R671). -/
def windowTest (s : State) (n : Nat) : Bool := s.parts.any (fun p => p.testing.contains n)

/-- Whether an intrusive test is under way or waits for its pairing (R672: one core of the device at a time). -/
def intrusiveBusy (s : State) : Bool :=
  s.selfTest.started.any (fun x => !windowTest s x.1) || s.quads.any (fun x => x.2.testPair || (match x.2.pairNext with
    | some (f, _) => !isFenced s (24 * x.1 + f)
    | none => false))

/-- Whether R672 allows a core's test: INTRUSIVE, LOGIC, a RUNNING context and no shedding stage. -/
def testIntrudes (s : State) (p : Part) : Bool :=
  s.selfTest.intrusive && !s.selfTest.kind && p.ctx == .running && p.reset.isNone && stageNow s == 0 && !intrusiveBusy s

/-- A core with an identity waits for a test pairing, unless its quadrant holds a pairing already (R673); one without is
tested at once. -/
def startIntrusive (s : State) (p : Part) (n : Nat) : State :=
  let q := quadOf n
  if p.map.contains n then
    if pairActive s q || (getQuad s q).pairNext.isSome || isFenced s n || isFenced s (partnerOf s n) then s
    else modQuad s q (fun x => { x with pairNext := some (n % 24, partnerOf s n % 24) })
  else beginTest s n

/-- SELFTEST_CORE_START. -/
def execSelftestCoreStart (core : Fin 192) (s : State) : Host.Outcome State Fault Refusal :=
  let n := core.val
  match corePart s n with
  | none => .next s
  | some p =>
    if !s.selfTest.busy || !bit s.selfTest.left n then .next s
    else if testWindow s p then .next (startWindow s p)
    else if testIntrudes s p then .next (startIntrusive s p n)
    else .next s

/-! ### Ending (R674, R675) -/

/-- A STORE test leaves core store and tun zeroed and CLEAR. -/
def wipeCore (c : Core) : Core := { c with store := [], storeChk := [], tun := [], tunChk := [] }

/-- A failed core: its bit in FAIL, record 0x56, and a permanent suspect. A failed test of a core in a test pairing keeps
the pairing as the fence's. -/
def failTest (s : State) (n : Nat) : State :=
  let q := quadOf n
  let s := { s with selfTest := { s.selfTest with fail := setBits s.selfTest.fail n 1 1 } }
  let s := record s { coreRec 0x56 n (n + flag s.selfTest.kind * 2 ^ 8) with fence := !isFenced s n }
  let s := if s.selfTest.kind then modCore s n (fun c => { c with storeCause := true }) else s
  if pairActive s q && (getQuad s q).testPair && pairFenced s q == n then
    let s := modQuad s q (fun x => { x with testPair := false })
    if isFenced s n then s
    else record (noteW1c { s with fence := setBits s.fence n 1 1 } (0x100 + 8 * (n / 64)) (n % 64)) (coreRec 0x16 n 1)
  else fenceFor s n 1 s.selfTest.kind

/-- SELFTEST_CORE_DONE: a test that has run its time ends. -/
def execSelftestCoreDone (core : Fin 192) (pass : Bool) (s : State) : Host.Outcome State Fault Refusal :=
  let n := core.val
  let t := tget 0 s.selfTest.started n
  if t = 0 ∨ s.pll + 1 < t + testTime s then .next s
  else
    let s := { s with selfTest := { s.selfTest with started := terase s.selfTest.started n } }
    let s := match corePart s n with
      | some p => modPart s p.low (fun x => { x with testing := x.testing.filter (fun k => k != n) })
      | none => s
    let s := if s.selfTest.kind then modCore s n wipeCore else s
    .next (settleTests (if pass then s else failTest s n))

/-! ### Calibration (R676) -/

/-- A write of CELLAR_CAL_CTRL. -/
def calWrite (s : State) (value : Word) : State :=
  let s := { s with selfTest := { s.selfTest with
    calKind := bit value 0
    calPort := BitVec.ofNat 3 (bits value 1 3) } }
  if bit value 4 && !s.selfTest.calBusy then
    { s with selfTest := { s.selfTest with
      calBusy := true
      calWave := 0
      calTill := s.pll
      calRun := some (bit value 0, bits value 1 3, s.pll) } }
  else s

/-- CAL_GO. -/
def execCalGo (value : Word) (s : State) : Host.Outcome State Fault Refusal := .next (calWrite s value)

/-- The next modulated wavelength of a port from `m` on: a lit port modulates those below N (R481). -/
def nextWave (s : State) (port m : Nat) : Option Nat :=
  if (getPort s port).lit then (List.range (fabricN s)).find? (fun k => decide (m ≤ k)) else none

/-- A port sweep comes to its next wavelength once the last one's is over, whose channel it holds for at most 50 µs; while
S1 holds sweeps it waits (R676). -/
def sweepOn (s : State) : State :=
  match s.selfTest.calRun with
  | some (false, port, _) =>
    if sweepsHeld s || decide (s.pll < s.selfTest.calTill) then s
    else match nextWave s port s.selfTest.calWave with
      | some m =>
        let till := flitBoundary s (getChan s port m) + min (us 50) (Config.sweepHold s.pll)
        let s := modChan s port m (fun c => { c with holdTill := max c.holdTill till })
        { s with selfTest := { s.selfTest with calWave := m + 1, calTill := till } }
      | none => s
  | _ => s

/-- Whether a calibration has run its course: a sensor check takes 100 µs, a sweep the sweeps of its wavelengths. -/
def calOver (s : State) : Bool :=
  match s.selfTest.calRun with
  | none => false
  | some (true, _, t) => decide (t + us 100 ≤ s.pll)
  | some (false, port, _) =>
    !sweepsHeld s && decide (s.selfTest.calTill ≤ s.pll) && (nextWave s port s.selfTest.calWave).isNone

/-- CAL_COMPLETE. -/
def execCalComplete (s : State) : Host.Outcome State Fault Refusal :=
  match s.selfTest.calRun with
  | none => .next s
  | some (kind, port, _) =>
    if !calOver s then .next s
    else
      let s := { s with selfTest := { s.selfTest with calBusy := false, calRun := none } }
      .next (raiseVector (record s { kind := 0x58, detail := flag kind + port * 2 }) 36)

end Sys2Proof.Machine
end

