-- ==== Sys2Proof/Machine/Boot.lean ====
section
/-! DEFINITION. Boot, firmware, identity and management (R540, R541, R657 to R669), the commit of the SVN (R665), and the
host path of the selvedge (R598). -/

namespace Sys2Proof.Machine

/-! ### Images (R658, R660) -/

/-- A byte of an image in flash; what was never written reads as erased flash. -/
def imgByte (img : List Byte) (i : Nat) : Byte := img.getD i 0xFF

/-- Bytes of an image. -/
def imgBytes (img : List Byte) (at_ n : Nat) : List Byte := (List.range n).map (fun i => imgByte img (at_ + i))

/-- The ASCII magic GVFWIMG1. -/
def fwMagic : List Byte := [0x47, 0x56, 0x46, 0x57, 0x49, 0x4D, 0x47, 0x31]

def fwSvn (img : List Byte) : Nat := (imgByte img 10).toNat
def fwBodyLen (img : List Byte) : Nat := leVal (imgBytes img 16 8)
/-- Header and body, which both signatures cover. -/
def fwCovered (img : List Byte) : List Byte := imgBytes img 0 (64 + fwBodyLen img)
def fwBlock (img : List Byte) : Nat := 64 + fwBodyLen img

def zeros (img : List Byte) (at_ n : Nat) : Bool := (imgBytes img at_ n).all (fun b => b == 0)

/-- BODY_LEN as R658 allows it. -/
def bodyLenOk (n : Nat) : Bool := n % 64 == 0 && decide (64 ≤ n) && decide (n ≤ 2 ^ 24 - 4160)

/-- MAGIC, HDRVER, BODY_LEN and the zero fields. -/
def headerOk (img : List Byte) : Bool :=
  imgBytes img 0 8 == fwMagic && leVal (imgBytes img 8 2) == 1 && zeros img 11 5 && bodyLenOk (fwBodyLen img) &&
    zeros img 24 40 && zeros img (fwBlock img + 97) 31 && zeros img (fwBlock img + 224) 32 &&
    zeros img (fwBlock img + 312) 8 && zeros img (fwBlock img + 2092) 2004

/-- The reason code of R660, 0 for a pass. -/
def verifyImage (s : State) (readable : Bool) (img : List Byte) : Nat :=
  let eccKey := imgBytes img (fwBlock img) 97
  let lmsKey := imgBytes img (fwBlock img + 256) 56
  if !readable then 1
  else if !headerOk img then 2
  else if Config.sha384 eccKey ≠ s.fuses.eccKeyHash then 3
  else if Config.sha256 lmsKey ≠ s.fuses.lmsKeyHash then 4
  else if !Config.ecdsaVerify eccKey (imgBytes img (fwBlock img + 128) 96) (fwCovered img) then 5
  else if !Config.lmsVerify lmsKey (imgBytes img (fwBlock img + 320) 1772) (fwCovered img) then 6
  else if fwSvn img < s.fuses.otpSvn then 7
  else 0

/-! ### Boot (R659 to R661, R696) -/

/-- A failure of step 2 or 3 goes to flash, and REASON shows it (R661). -/
def bootFailure (s : State) (reason step : Nat) : State :=
  { s with boot := { s.boot with reason := reason }
           flash := { s.flash with bootFailures := s.flash.bootFailures ++ [(reason, step)] } }

/-- Step 2: an update that awaits activation. -/
def bootStaged (s : State) (readable : Bool) : State :=
  if s.flash.marker then
    let r := verifyImage s readable s.flash.staging
    let s := { s with flash := { s.flash with marker := false } }
    if r = 0 then { s with flash := { s.flash with image := s.flash.staging }, boot := { s.boot with activated := true } }
    else bootFailure s r 2
  else s

/-- Step 4: the digest of the image, the alias key with its certificate, and measurement 2 (R666, R668). The ROM alone reads
the device secret, and locks it out before the body runs. -/
def bootDerive (s : State) : State :=
  let d := Config.sha384 (fwCovered s.flash.image)
  { s with boot := { s.boot with
    phase := .ready
    imageSvn := fwSvn s.flash.image
    imageDigest := d
    aliasCert := Config.aliasCert Config.deviceSecret d
    secretLocked := true
    alias_ := Config.aliasKey Config.deviceSecret d } }

/-- Add a management answer. -/
def mgmt (s : State) (x : MgmtReply) : State := { s with boot := { s.boot with replies := s.boot.replies ++ [x] } }

/-- Steps 1 to 4: the root PLL locks to TCLK and OTP is read, or the ROM halts and the I3C target reports the reason. -/
def bootRom (found : BootFound) (s : State) : State :=
  if !(s.power.tclk && found.otpOk) then mgmt { s with boot := { s.boot with phase := .haltedOtp } } (.romHalt (!found.otpOk))
  else
    let s := bootStaged s found.stagedReadable
    let r := verifyImage s found.imageReadable s.flash.image
    if r = 0 then bootDerive s
    else
      let s := bootFailure s r 3
      { s with boot := { s.boot with phase := .recovery } }

/-- The persistent records go to the error ring, and leave flash. -/
def copyPersistent (s : State) : State :=
  let sup := s.flash.supply
  let fail := s.flash.bootFailures
  let s := { s with flash := { s.flash with supply := [], bootFailures := [] } }
  let s := sup.foldl (fun s t => record s { kind := 0x45, detail := t }) s
  let s := fail.foldl (fun s x => record s { kind := 0x50, detail := x.1 + x.2 * 2 ^ 4 }) s
  if s.boot.activated then record s { kind := 0x54, detail := s.boot.imageSvn } else s

/-- A halt in step 5 or 6, with its record. -/
def bootHalt (s : State) (step : Nat) : State :=
  record { s with boot := { s.boot with phase := .haltedTraining } } { kind := 0x50, detail := step * 2 ^ 4 }

/-- Steps 5 to 7, once no stage deeper than S3 is in force. -/
def bootFirmware (found : BootFound) (s : State) : State :=
  if 3 < stageNow s then s
  else if !found.memoryTrains then bootHalt s 5
  else
    let s := trainLink (copyPersistent s) found.linkWidth found.linkRate
    if s.host.width = 0 then bootHalt s 6
    else { s with boot := { s.boot with phase := .done, service := if s.flash.withdrawn then 2 else 1 } }

/-- BOOT: from power-on, or from step 5 after a recovery or a wait for the supply. -/
def execBoot (found : BootFound) (s : State) : Host.Outcome State Fault Refusal :=
  if s.power.rails = false then .next s
  else
    let s := if s.boot.phase = .start then bootRom found s else s
    .next (if s.boot.phase = .ready then bootFirmware found s else s)

/-! ### Recovery (R662, R663) -/

/-- The ROM requests a component in transfers of 4 KiB. -/
def requestAll (s : State) (n : Nat) : State :=
  { s with boot := { s.boot with replies := s.boot.replies ++
      (List.range (ceilDiv n 4096)).map (fun k => .requestData .i3c (4096 * k) (min 4096 (n - 4096 * k))) } }

/-- RECOVERY_IMAGE_RECEIVE: requested, verified, written, read back and verified again; then step 4. A component of more than
16 MiB is not requested. -/
def execRecoveryImageReceive (component readBack : List Byte) (s : State) : Host.Outcome State Fault Refusal :=
  if s.boot.phase ≠ .recovery then .next s
  else
    let big := decide (2 ^ 24 < component.length)
    let r := if big then 2 else verifyImage s true component
    let s := mgmt (if big then s else requestAll s component.length) (.verifyComplete .i3c r)
    if r ≠ 0 then .next s
    else
      let s := { s with flash := { s.flash with image := readBack } }
      if verifyImage s true readBack ≠ 0 then .next (mgmt s (.applyComplete .i3c false))
      else
        let s := bootDerive (mgmt s (.applyComplete .i3c true))
        let s := { s with boot := { s.boot with recovered := true } }
        .next (record s { kind := 0x51, detail := s.boot.imageSvn })

/-! ### Updates (R541, R664, R665) -/

/-- Whether an endpoint answers: after boot step 6, and on I3C while the ROM is in recovery. -/
def endpointUp (s : State) (ep : Endpoint) : Bool :=
  s.boot.phase == .done || (s.boot.phase == .recovery && ep == .i3c)

/-- PLDM_REQUEST_UPDATE: one update at a time. -/
def execPldmRequestUpdate (ep : Endpoint) (s : State) : Host.Outcome State Fault Refusal :=
  if s.boot.phase ≠ .done then .next s
  else match s.boot.updating with
    | some _ => .next (mgmt s (.alreadyInUpdateMode ep))
    | none =>
      .next (mgmt { s with boot := { s.boot with updating := some ep, updateVerified := false } } (.updateMode ep))

/-- PLDM_COMPONENT_TRANSFER: the component goes to staging and is verified; a refused one ends the update. -/
def execPldmComponentTransfer (ep : Endpoint) (component : List Byte) (s : State) : Host.Outcome State Fault Refusal :=
  if s.boot.updating ≠ some ep then .next s
  else
    let s := { s with flash := { s.flash with staging := component, marker := false } }
    let r := if 2 ^ 24 - 64 < component.length then 2 else verifyImage s true component
    let s := mgmt s (.verifyComplete ep r)
    if r = 0 then
      .next (record { s with boot := { s.boot with updateVerified := true } } { kind := 0x52, detail := fwSvn component })
    else
      .next (record { s with boot := { s.boot with updating := none, updateVerified := false } } { kind := 0x53, detail := r })

/-- PLDM_ACTIVATE_FIRMWARE: the marker is set for the next L5. -/
def execPldmActivateFirmware (ep : Endpoint) (s : State) : Host.Outcome State Fault Refusal :=
  if s.boot.updating = some ep ∧ s.boot.updateVerified = true then
    .next (mgmt { s with
      flash := { s.flash with marker := true }
      boot := { s.boot with updating := none, updateVerified := false } } (.activated ep))
  else .next s

/-- A COMMIT (R665). -/
def commitSvn (s : State) : State :=
  if s.boot.phase = .done ∧ s.fuses.otpSvn < s.boot.imageSvn then
    let old := s.fuses.otpSvn
    let new := max old (min 64 s.boot.imageSvn)
    record { s with fuses := { s.fuses with otpSvn := new } } { kind := 0x55, detail := old + new * 2 ^ 8 }
  else s

/-- SVN_COMMIT. -/
def execSvnCommit (s : State) : Host.Outcome State Fault Refusal := .next (commitSvn s)

/-! ### MCTP and SPDM (R540, R667, R668) -/

/-- What an MCTP control message asks of the endpoint: an endpoint ID of its own (R541), and on CXL.io a transmission unit
from 64 to 256 bytes (R540). Which bytes say so is the standards' matter (assumption 20). -/
def mctpAsk (s : State) (ep : Endpoint) (ask : MctpAsk) : State :=
  match ask with
  | .nothing => s
  | .setEid eid => match ep with
    | .cxl => { s with boot := { s.boot with eidCxl := eid } }
    | .i3c => { s with boot := { s.boot with eidI3c := eid } }
  | .unit n => if ep = .cxl then { s with boot := { s.boot with mctpUnit := max 64 (min 256 n) } } else s

/-- MCTP_CONTROL_MESSAGE, by its message type: control, PLDM of types 0, 2 and 5, and SPDM are answered, every other type
with an error response. What the answer says is the standards' matter (assumption 20). -/
def execMctpControlMessage (ep : Endpoint) (body : MctpMessage) (s : State) : Host.Outcome State Fault Refusal :=
  if !endpointUp s ep then .next s
  else
    let t := (body.bytes.getD 0 0).toNat % 128
    let ok := t == 0 || (t == 1 && [0, 2, 5].contains ((body.bytes.getD 2 0).toNat % 64)) || t == 5
    .next (mgmt (if t = 0 then mctpAsk s ep body.ask else s) (.mctp ep [] (!ok)))

/-- CELLAR_BOOT_STATUS. -/
def bootStatus (s : State) : Nat := s.boot.reason + flag s.boot.recovered * 2 ^ 4 + flag s.boot.activated * 2 ^ 5

/-- A measurement (R668), taken from the state as the request arrives. -/
def measure (s : State) (i : Nat) : Option (BitVec 384) :=
  if i = 1 then some Config.romDigest
  else if i = 2 then some s.boot.imageDigest
  else if i = 3 then
    some (Config.sha384 (leBytes 1 s.fuses.otpSvn ++ leBytes 48 s.fuses.eccKeyHash.toNat ++
      leBytes 32 s.fuses.lmsKeyHash.toNat))
  else if i = 4 then some (Config.sha384 (leBytes 1 (flag s.host.ideActive) ++ leBytes 4 (bootStatus s)))
  else if 16 ≤ i ∧ i < 24 then
    some (match partAt s (i - 16) with
      | some p => if p.ctx = .empty then 0 else p.digest
      | none => 0)
  else none

/-- The indices a request names: one, or every one with 0xFF. -/
def measureIndices (i : Nat) : List Nat :=
  if i = 0xFF then [1, 2, 3, 4, 16, 17, 18, 19, 20, 21, 22, 23] else [i]

def measureBytes (l : List (Nat × BitVec 384)) : List Byte :=
  l.flatMap (fun x => leBytes 1 x.1 ++ leBytes 48 x.2.toNat)

/-- SPDM_GET_MEASUREMENTS. -/
def execSpdmGetMeasurements (ep : Endpoint) (index : Nat) (nonce : List Byte) (s : State) :
    Host.Outcome State Fault Refusal :=
  if s.boot.phase ≠ .done then .next s
  else
    let l := (measureIndices index).filterMap (fun i => (measure s i).map (fun d => (i, d)))
    if l.isEmpty then .next (mgmt s (.spdmError ep))
    else .next (mgmt s (.measurements ep l (Config.aliasSign s.boot.alias_ (nonce ++ measureBytes l))))

/-- SPDM_GET_CERTIFICATE: slot 0 holds root, DevID and alias. -/
def execSpdmGetCertificate (ep : Endpoint) (slot : Nat) (s : State) : Host.Outcome State Fault Refusal :=
  if s.boot.phase ≠ .done then .next s
  else if slot ≠ 0 then .next (mgmt s (.spdmError ep))
  else .next (mgmt s (.certificate ep (s.flash.devidChain ++ s.boot.aliasCert)))

/-- SPDM_CHALLENGE. -/
def execSpdmChallenge (ep : Endpoint) (slot : Nat) (nonce : List Byte) (s : State) : Host.Outcome State Fault Refusal :=
  if s.boot.phase ≠ .done then .next s
  else if slot ≠ 0 then .next (mgmt s (.spdmError ep))
  else .next (mgmt s (.challengeAuth ep (Config.aliasSign s.boot.alias_ nonce)))

/-- Sessions of an endpoint. -/
def sessionsOf (s : State) : Endpoint → List Nat
  | .cxl => s.boot.sessionsCxl
  | .i3c => s.boot.sessionsI3c

def addSession (s : State) (ep : Endpoint) : State :=
  let n := s.boot.nextSession
  match ep with
  | .cxl => { s with boot := { s.boot with sessionsCxl := s.boot.sessionsCxl ++ [n], nextSession := n + 1 } }
  | .i3c => { s with boot := { s.boot with sessionsI3c := s.boot.sessionsI3c ++ [n], nextSession := n + 1 } }

/-- SPDM_KEY_EXCHANGE: at most 2 sessions per endpoint. -/
def execSpdmKeyExchange (ep : Endpoint) (slot : Nat) (exchange : List Byte) (s : State) :
    Host.Outcome State Fault Refusal :=
  if s.boot.phase ≠ .done then .next s
  else if slot ≠ 0 ∨ 2 ≤ (sessionsOf s ep).length then .next (mgmt s (.spdmError ep))
  else
    let n := s.boot.nextSession
    .next (mgmt (addSession s ep) (.keyExchange ep n (Config.aliasSign s.boot.alias_ exchange)))

/-- SPDM_HEARTBEAT. -/
def execSpdmHeartbeat (ep : Endpoint) (session : Nat) (s : State) : Host.Outcome State Fault Refusal :=
  if s.boot.phase ≠ .done then .next s
  else .next (mgmt s (if (sessionsOf s ep).contains session then .heartbeatAck ep session else .spdmError ep))

/-- IDE_KM: inside a session of the CXL.io endpoint a key is programmed, and with GO IDE protects the link. -/
def execIdeKm (ep : Endpoint) (session stream : Nat) (key : BitVec 256) (go : Bool) (s : State) :
    Host.Outcome State Fault Refusal :=
  if s.boot.phase ≠ .done then .next s
  else if ep = .cxl ∧ s.boot.sessionsCxl.contains session = true then
    let s := { s with
      boot := { s.boot with ideKeys := tset 0 s.boot.ideKeys stream key }
      host := { s.host with ideActive := s.host.ideActive || go } }
    .next (mgmt s (.ideAck stream))
  else .next (mgmt s (.spdmError ep))

/-! ### The host path of the selvedge (R598) -/

/-- GO starts a run on the configuration of that moment, unless one proceeds. -/
def selvGo (s : State) : State :=
  let x := s.hostSelv
  if x.busy then s
  else { s with hostSelv := { x with
    busy := true
    began := s.pll
    run := some (x.cfg, x.poly, x.init, x.addr, x.len, x.expect) } }

/-- CELLAR_SELV_GO. -/
def execCellarSelvGo (s : State) : Host.Outcome State Fault Refusal := .next (selvGo s)

/-- A range that leaves its tier reads nothing: RANGE and DONE, and a record. -/
def selvRange (s : State) : State :=
  let s := { s with hostSelv := { s.hostSelv with
    busy := false, run := none, done := true, range := true, mismatch := false } }
  let s := noteW1c s 0x204 3
  record s { kind := 0x65, detail := s.hostSelv.result.toNat }

/-- The end of a run within its tier. -/
def selvEnd (s : State) (cfg : Word) (poly init : Dword) (t : Tier) (off len : Nat) (expect : Dword) (ecc : MemEcc) :
    State :=
  let w := bits cfg 0 7
  let r := crcResult w (poly.toNat % 2 ^ w) init.toNat (bit cfg 7) (bit cfg 8) (bit cfg 9) (readBytes (tierMem s t) off len)
  let bad := r != expect.toNat % 2 ^ w
  let s := eccRead s t 0 (rangeUnits off len) ecc
  let s := { s with hostSelv := { s.hostSelv with
    busy := false, run := none, done := true, range := false, mismatch := bad, result := BitVec.ofNat 64 r } }
  let s := noteW1c s 0x204 3
  if bad then record s { kind := 0x65, detail := r } else s

/-- HOST_SELV_RUN_COMPLETE: 64 bytes take one SCLK cycle at least. -/
def execHostSelvRunComplete (ecc : MemEcc) (s : State) : Host.Outcome State Fault Refusal :=
  match s.hostSelv.run with
  | none => .next s
  | some (cfg, poly, init, addr, len, expect) =>
    let t := tierOf (bits addr 42 2)
    let off := bits addr 0 42
    let n := bits len 0 42
    if tierBytes s (tierCode t) < off + n then .next (selvRange s)
    else if s.pll < s.hostSelv.began + 24 * ceilDiv n 64 then .next s
    else .next (selvEnd s cfg poly init t off n expect ecc)

end Sys2Proof.Machine
end

