-- ==== Sys2Proof/Machine/Heddle.lean ====
section
/-! DEFINITION. The heddle engine (R337 to R375): operands, K groups, the pick table, work, budget and overrun,
proof-based skipping. -/

namespace Sys2Proof.Machine

/-! ### The pick table (R349, R350) -/

/-- Both banks and the victim store; `hits` counts the inserts into the victim store since the table was emptied. -/
structure Pick where
  b0 : Tbl (Option PickEntry) := []
  b1 : Tbl (Option PickEntry) := []
  vic : List PickEntry := []
  hits : Nat := 0

def bankIdx (mul k : Nat) : Nat := k * mul % 2 ^ 32 / 2 ^ 20

/-- The 1 bits of a number's lowest 24 bits, modulo 2. -/
def parity24 (x : Nat) : Bool := (List.range 24).foldl (fun b i => b != (x / 2 ^ i % 2 == 1)) false

/-- An entry for a key, with its parity over key and payload (R373). -/
def pickEntry (k : Nat) (payload : List Nat) : PickEntry :=
  { key := BitVec.ofNat 24 k, payload := payload, parity := payload.foldl (fun b x => b != parity24 x) (parity24 k) }

/-- Insert a key with its payload (R350); `none` when no place is empty. -/
def pickInsert (t : Pick) (k : Nat) (payload : List Nat) : Option Pick :=
  let i0 := bankIdx 0x9E3779B1 k
  let i1 := bankIdx 0x2545F491 k
  let e := pickEntry k payload
  if (tget none t.b0 i0).isNone then some { t with b0 := tset none t.b0 i0 (some e) }
  else if (tget none t.b1 i1).isNone then some { t with b1 := tset none t.b1 i1 (some e) }
  else if t.vic.length < 256 then some { t with vic := t.vic ++ [e], hits := t.hits + 1 }
  else none

/-- Insert the positions of one K group, each its output row m and its number among DA's stored positions, with key
m × 2^17 + j (R351), j counting the row's earlier positions of the chunk: the table and row counts, how many went in, and
whether all did. -/
def pickGroup : Pick → Tbl Nat → List (Nat × Nat) → Nat → Pick × Tbl Nat × Nat × Bool
  | t, js, [], n => (t, js, n, true)
  | t, js, (m, x) :: rest, n =>
    match pickInsert t (m * 2 ^ 17 + tget 0 js m) [x] with
    | some t' => pickGroup t' (tset 0 js m (tget 0 js m + 1)) rest (n + 1)
    | none => (t, js, n, false)

/-- Chunking of a TA = 1 pass (R353, R354, R356): finished chunks as (E, positions computed), the sizes of groups taken
serially, the inserts placed in the victim store by what has left the table, and the chunk in progress. -/
structure Chunking where
  done : List (Nat × Nat) := []
  serial : List Nat := []
  victims : Nat := 0
  cur : Pick := {}
  js : Tbl Nat := []
  ins : Nat := 0
  pos : Nat := 0

/-- A group that begins a chunk (R353, R354): inserted into the empty table, or taken serially. -/
def beginChunk (c : Chunking) (g : List (Nat × Nat)) : Chunking :=
  match pickGroup {} [] g 0 with
  | (t, js, k, true) => { c with cur := t, js := js, ins := k, pos := g.length }
  | (t, _, _, false) =>
    { c with serial := c.serial ++ [g.length], victims := c.victims + t.hits, cur := {}, js := [], ins := 0, pos := 0 }

/-- Take one more K group. A group that does not fit ends the chunk, and begins the next one. -/
def chunkGroup (c : Chunking) (g : List (Nat × Nat)) : Chunking :=
  if c.pos = 0 then beginChunk c g
  else match pickGroup c.cur c.js g 0 with
    | (t, js, n, true) => { c with cur := t, js := js, ins := c.ins + n, pos := c.pos + g.length }
    | (t, _, n, false) => beginChunk { c with done := c.done ++ [(c.ins + n, c.pos)], victims := c.victims + t.hits } g

/-- Close the last chunk. -/
def closeChunks (c : Chunking) : Chunking :=
  if c.pos = 0 then c else { c with done := c.done ++ [(c.ins, c.pos)], victims := c.victims + c.cur.hits }

/-- Group a list sorted by K into runs of one K group. -/
def groupRuns {α : Type} : List (Nat × α) → List (List α)
  | [] => []
  | (g, m) :: t => match t, groupRuns t with
    | (g2, _) :: _, r :: rs => if g = g2 then (m :: r) :: rs else [m] :: r :: rs
    | _, rs => [m] :: rs

/-! ### Operands (R337 to R341) -/

/-- MAC per cc of a format (R359). -/
def heddleRate (fm ty : Nat) : Nat :=
  let r := if fm = fmBSR then 3968 else if fm = fmNM ∨ fm = fmNMT then 4096 else if fm = fmBMP then 3328
    else if fm = fmCSRT then 2816 else 2048
  if isFp8 ty then r else r / 2
def sddmmRate (ty : Nat) : Nat := if isFp8 ty then 4096 else 2048
def spspRate (ty : Nat) : Nat := if isFp8 ty then 2048 else 1024

def hBudget (w : InstrWord) : Nat := tImm w % 2 ^ 20
def hSkipIn (w : InstrWord) : Bool := bit w (offImm + 20)

/-- Multiplied types (R338). -/
def heddlePair (a b : Nat) : Bool := (isFp8 a && isFp8 b) || (a == b && (a == tyBF16 || a == tyFP16))
def heddleType (a : Nat) : Bool := isFp8 a || a == tyBF16 || a == tyFP16

def typeConds (da db : Image) : Conds :=
  cond (!heddleType (dType da)) 6 offDA ++ cond (heddleType (dType da) && !heddlePair (dType da) (dType db)) 6 offDB

/-- Shape conditions that hold for every heddle pass (R339). -/
def heddleShape (w : InstrWord) (da db : Image) : Conds :=
  cond (!rank2ish da || decide (128 < passM w da)) 7 offDA ++
  cond (!rank2ish db || decide (128 < passN w db) || passKA w da != passKB w db) 7 offDB

def handleConds (d : Image) (off : Nat) : Conds := cond (dHandle d != 0) 3 off

/-- MODE and IMM conditions of the passes (R340, R341). -/
def heddleEnc (w : InstrWord) (spmm : Bool) : Conds :=
  reservedBits w 70 2 ++ undefinedField (mKord w != 0 || (mSkip w && (!spmm || mTA w || !mStart w))) offMode ++
  undefinedField (tSub w != 0) offSub ++
  cond (hSkipIn w && !mSkip w) 2 (offImm + 20) ++
  (match lowestBit (tImm w / 2 ^ 21) with | some i => [(2, offImm + 21 + i)] | none => []) ++
  cond (hBudget w == 0) 3 offImm

/-- Accepted formats of SPMM's DA (R328). -/
def spmmFmt (w : InstrWord) (d : Image) : Bool :=
  let f := dFmt d
  ([fmBSR, fmNM, fmNMT, fmCSRT, fmBMP].contains f || (f == fmIVQ && !mTA w)) && dType d != tyBit
def maskFmt (d : Image) : Bool := [fmBSR, fmNM, fmNMT, fmCSRT, fmBMP].contains (dFmt d)
/-- PAIR with the key on the operand's K coordinate (R328). -/
def pairMatch (isA : Bool) (w : InstrWord) : Nat :=
  if isA then (if mTA w then 1 else 0) else (if mTB w then 0 else 1)

/-! ### Products by K group (R342) -/

/-- The terms of a lane, one for each K group that has a product: the exact sum of its products. -/
def termsOf (gs : List (List (Exact × Exact))) : List Exact := gs.map termSum

/-- Stored positions of DA as (output row m, K position, value). -/
def spmmPositions (st : Tbl Byte) (w : InstrWord) (da : Image) : List (Nat × Nat × Exact) :=
  (storedOf st da).map (fun x => if mTA w then (x.col, x.row, storedVal st da x) else (x.row, x.col, storedVal st da x))

/-- K groups of a K extent. -/
def groupCount (k : Nat) : Nat := (k + 31) / 32

/-- Insert by K position, keeping the positions of one row in ascending K. -/
def insK (x : Nat × Exact) : List (Nat × Exact) → List (Nat × Exact)
  | [] => [x]
  | y :: t => if x.1 < y.1 then x :: y :: t else y :: insK x t

/-- The factors of lane (m, n) of an SPMM: the matched pairs of each K group that has one, in ascending group. -/
def spmmFactors (st : Tbl Byte) (w : InstrWord) (db : Image) (k : Nat) (ps : List (Nat × Nat × Exact)) (m n : Nat) :
    List (List (Exact × Exact)) :=
  let row := (ps.filterMap (fun x => if x.1 = m then some (x.2.1, x.2.2) else none)).foldr insK []
  ((List.range (groupCount k)).map (fun g =>
    (row.filter (fun x => x.1 / 32 == g)).map (fun x => (x.2, elemB st w db x.1 n)))).filter (fun g => !g.isEmpty)

/-- The terms of lane (m, n) of an SPMM: one per K group with a matched pair, in ascending group. -/
def spmmTerms (st : Tbl Byte) (w : InstrWord) (db : Image) (k : Nat) (ps : List (Nat × Nat × Exact)) (m n : Nat) :
    List Exact := termsOf (spmmFactors st w db k ps m n)

/-- The factors of the lane that stands for a position (m, n) of an SDDMM's mask, by K group. -/
def sddmmFactors (st : Tbl Byte) (w : InstrWord) (da db : Image) (k m n : Nat) : List (List (Exact × Exact)) :=
  ((List.range (groupCount k)).map (fun g =>
    ((List.range 32).map (fun j => 32 * g + j)).filter (fun j => decide (j < k)) |>.map
      (fun j => (elemA st w da m j, elemB st w db j n)))).filter (fun g => !g.isEmpty)

/-- The terms of the lane that stands for a position (m, n) of an SDDMM's mask. -/
def sddmmTerms (st : Tbl Byte) (w : InstrWord) (da db : Image) (k m n : Nat) : List Exact :=
  termsOf (sddmmFactors st w da db k m n)

/-! ### Skipping (R366 to R369) -/

/-- The least of two exact numbers. -/
def minE (a b : Exact) : Exact := if leE a b then a else b
def maxE (a b : Exact) : Exact := if leE a b then b else a

/-- Xmax and Xmin of a K group over all columns. -/
def groupBounds (st : Tbl Byte) (w : InstrWord) (db : Image) (k n g : Nat) : Exact × Exact :=
  let xs := ((List.range 32).map (fun j => 32 * g + j)).filter (fun j => decide (j < k)) |>.flatMap
    (fun j => (List.range n).map (fun c => elemB st w db j c))
  match xs with
  | [] => (Exact.zero, Exact.zero)
  | x :: t => (t.foldl maxE x, t.foldl minE x)

def sumE (xs : List Exact) : Exact := xs.foldl addE Exact.zero
def roundUp (x : Exact) : Exact := val32 (up32 x)

/-- U_m and V_m of R366, each quantity rounded once toward +∞ (assumption 19). -/
def skipBounds (bs : List (Exact × Exact)) (row : List (Nat × Exact)) : Exact × Exact :=
  let part (g : Nat) (pos : Bool) : Exact :=
    roundUp (sumE ((row.filter (fun x => x.1 / 32 == g && (ltE Exact.zero x.2 == pos))).map (fun x => absE x.2)))
  let us := bs.zipIdx.map (fun x => addE (mulE (part x.2 true) x.1.1) (negE (mulE (part x.2 false) x.1.2)))
  let vs := bs.zipIdx.map (fun x => mulE (addE (part x.2 true) (part x.2 false)) (maxE (absE x.1.1) (absE x.1.2)))
  (roundUp (sumE us), roundUp (sumE vs))

/-- Whether a bound skips a row (R367). -/
def skipRow (u v : Exact) : Bool :=
  finiteE u && ltE u Exact.zero && leE u (negE (scaleE v (-20)))

/-! ### Work (R358) and the pass in progress (R357 to R364) -/

/-- A pass that has finished its work leaves W in CORE_HEDDLE_LAST_W (R364). -/
def passDone (c : Core) (p : HeddlePass) : Bool :=
  if p.work ≤ p.budget then decide (p.issued + p.work ≤ c.cycle) else decide (p.work - p.budget ≤ p.overran)

def finishPass (c : Core) : Core :=
  match c.pass with
  | some p => if passDone c p then
      { c with pass := none, lastW := if p.failed then c.lastW else BitVec.ofNat 32 (min p.work 0xFFFFFFFF) }
    else c
  | none => c

def startPass (c : Core) (budget work : Nat) (failed : Bool) : Core :=
  let c := finishPass c
  { c with pass := some { issued := c.cycle, budget := budget, work := work, overrunning := false, overran := 0,
                          failed := failed } }

/-- The engine use of a pass: occupied for BUDGET, busy on the first W cycles (R357, R358, R715). -/
def heddleUse (budget work : Nat) : EngUse := { eng := .heddle, occ := budget, busy := min budget work }

/-- Regions ahead of G: counted and recorded once per instruction (R400). -/
def noteAhead (s : State) (a : At) (ds : List Image) : State :=
  let g := bits (getQuad s (quadOf a.n)).maskGen 0 32
  match ds.find? (fun d => !dDense d && aheadOf (hGen (headerOf a.c.store d)) g) with
  | none => s
  | some d =>
    let s := bumpCore s a.n ctrMaskAhead 1
    let s := record s { coreRec 0x1D a.n (hGen (headerOf a.c.store d)) with
      engine := 1, shuttle := shIdx a.sh, opcode := fldOp a.w, pc := pcOf a.r a.sh }
    partVector s a.p.low 2

/-- The first failing operand (R324): operand number and its check. -/
def operandMeta (st : Tbl Byte) : List (Nat × Image) → Option (Nat × Meta)
  | [] => none
  | (k, d) :: t => match worstMeta (regionChecks st d) with
    | some m => some (k, m)
    | none => operandMeta st t

/-- The detail and CORE_META_FAULT of a metadata fault (R325). -/
def metaDetail (k : Nat) (m : Meta) : Nat := m.1 + k * 256
def metaWord (k : Nat) (m : Meta) : Dword :=
  BitVec.ofNat 64 (m.1 + k * 2 ^ 8 + m.2.1 % 2 ^ 24 * 2 ^ 16 + m.2.2 % 2 ^ 24 * 2 ^ 40)

/-- Put off a fault that the pass will detect, at the latest on schedule cycle `due` (R123, R362). -/
def deferFault (s : State) (a : At) (due kind detail : Nat) (mf : Dword) : State :=
  modCore s a.n (fun c => { c with deferred := c.deferred ++
    [{ due := due, sh := a.sh, pc := pcOf a.r a.sh, opcode := BitVec.ofNat 8 (fldOp a.w), kind := kind,
       detail := BitVec.ofNat 16 detail, metaFault := mf }] })

/-- A pass whose metadata fails: nothing is written, and it ends with its scan (R322, R362). -/
def failPass (s : State) (a : At) (scan kind detail : Nat) (mf : Dword) : State :=
  let work := 16 + ceilDiv scan 512
  deferFault (modCore s a.n (fun c => startPass c (hBudget a.w) work true)) a (a.c.cycle + work) kind detail mf

/-- Pick-table parity failures on the probes of a pass (R373, R550): each a detection without repeat. -/
def parityErrors (s : State) (a : At) : State :=
  a.ups.parity.foldl (fun t e =>
    let phys := runner t a.n
    let t := bumpCore t phys ctrHeddleResidue 1
    let t := record t { coreRec 0x11 phys e with
      outcome := 2, engine := 4, shuttle := shIdx a.sh, opcode := fldOp a.w, pc := pcOf a.r a.sh, fence := intermitFences t phys }
    intermittent t phys false) s

/-- Land a pass's set in the heddle, with the detections and parity failures of the pass. A comparison of a pass that
overruns may fail as late as its work lasts. -/
def finishHeddle (s : State) (a : At) (set : AccSet) (checks : PassChecks) (work : Nat) (parity : Bool) : State :=
  let fails := failuresOf a .heddle 7 (max (hBudget a.w) work + latency a.p 40 32) (passWant checks)
  let out := detectSet fails set
  let bad := parity && !a.ups.parity.isEmpty
  let out := if bad then { out with mismatch := true, chk := .failed } else out
  let s := detections s a.n fails
  let s := if parity then parityErrors s a else s
  modCore s a.n (fun c => { c with heddle := pushAcc c.heddle (c.cycle + hBudget a.w + latency a.p 40 32) out
                                     (decide (longTerms < set.terms)) (anyNonfin out)
                                     (!fails.isEmpty || bad) })

/-- The pass counters of R356. -/
def countChunks (s : State) (n chunks victims serial : Nat) : State :=
  let s := if 1 < chunks then bumpCore s n ctrChunks (chunks - 1) else s
  let s := if 0 < victims then bumpCore s n ctrVictim victims else s
  if 0 < serial then bumpCore s n ctrSerial serial else s

/-! ### HEDDLE.SPMM -/

/-- Staged dense bytes of an SPMM (R339). -/
def spmmStaged (w : InstrWord) (da db : Image) : Nat := passKA w da * passN w db * tyWidth (dType db) / 8

/-- Whether an SPMM goes through the pick table (R351, R352). -/
def usesPick (w : InstrWord) (da : Image) : Bool := mTA w && dFmt da != fmNMT

/-- Chunks of a TA = 1 pass. -/
def spmmChunks (ps : List (Nat × Nat × Exact)) : Chunking :=
  closeChunks ((groupRuns (ps.zipIdx.map (fun x => (x.1.2.1 / 32, (x.1.1, x.2))))).foldl chunkGroup {})

/-- The skip vector of a pass: bit m of DX's BIT list under SKIPIN, or the bound's verdict (R366, R367, R369). -/
def spmmSkips (a : At) (db dx : Image) (mm nn k : Nat) (ps : List (Nat × Nat × Exact)) : List (Bool × Exact) :=
  let st := a.c.store
  if !mSkip a.w then []
  else if hSkipIn a.w then (List.range mm).map (fun m => (readElem st dx [m] == 1, Exact.zero))
  else
    let bs := (List.range (groupCount k)).map (groupBounds st a.w db k nn)
    let clean := ps.all (fun x => finiteE x.2.2) && bs.all (fun b => finiteE b.1 && finiteE b.2) &&
      (List.range k).all (fun j => (List.range nn).all (fun n => finiteE (elemB st a.w db j n)))
    (List.range mm).map (fun m =>
      let row := ps.filterMap (fun x => if x.1 = m then some (x.2.1, x.2.2) else none)
      let (u, v) := skipBounds bs row
      (clean && skipRow u v, u))

/-- Conditions of an SPMM's DX (R368, R369): a DENSE BIT list of valid extent M. -/
def skipDxConds (a : At) (mm : Nat) : Conds :=
  if mSkip a.w && fldFlag a.w 0 then
    needEntry a (tDX a.w) offDX ++ onEntry a (tDX a.w) (fun dx => handleConds dx offDX ++
      cond (!dDense dx || dType dx != tyBit) 6 offDX ++ cond (dRank dx != 1 || dValid dx 0 != mm) 7 offDX)
  else []

def actSpmm (a : At) : Action :=
  let w := a.w
  let st := a.c.store
  let da := entryD a (tDA w)
  let db := entryD a (tDB w)
  let dx := entryD a (tDX w)
  let mm := passM w da
  let nn := passN w db
  let k := passKA w da
  let old := accNow a.c.heddle
  let skipOut := mSkip w && !hSkipIn w && fldFlag w 0
  let bad := operandMeta st [(0, da)]
  let h := headerOf st da
  let dense := if mSkip w && hSkipIn w then [db, dx] else [db]
  let s := readStore a ((anyUnits st da ++ operandUnits dense).dedup)
  let ps := spmmPositions st w da
  let skips := spmmSkips a db dx mm nn k ps
  let skipped (m : Nat) : Bool := (skips.getD m (false, Exact.zero)).1
  let kept := (ps.filter (fun x => !skipped x.1)).length
  let ch := spmmChunks ps
  let rate := heddleRate (dFmt da) (dType da)
  let scan := ceilDiv (hMetaLen h) 512
  let body :=
    if usesPick w da then
      scan + (ch.done.map (fun c => ceilDiv c.1 256 + ceilDiv (128 * c.2) rate)).sum +
        (ch.serial.map (fun e => mm * ceilDiv e 32)).sum
    else scan + (if mSkip w && !hSkipIn w then ceilDiv (hNnz h) 64 else 0) + ceilDiv (128 * kept) rate
  let work := if bad.isSome then 16 + scan else 16 + max (ceilDiv (spmmStaged w da db) 512) body
  let chk := joinChk (unitsChk (getCore s a.n).storeChk (regionUnits st da)) (operandsChk s a.n dense)
  let set := passSet old (mStart w) mm nn k false (mSkip w) chk
    (fun m n => if skipped m then [] else spmmTerms st w db k ps m n)
  let set := (List.range mm).foldl (fun (t : AccSet) m =>
    if skipped m && !hSkipIn w then (List.range nn).foldl (fun (t : AccSet) n =>
      { t with lanes := tset {} t.lanes (128 * m + n) (laneSeed (up32 (skips.getD m (false, Exact.zero)).2) 0) }) t
    else t) set
  let nskip := ((List.range mm).filter skipped).length
  let good : State :=
    let s := noteAhead s a [da]
    let s := modCore s a.n (fun c => startPass c (hBudget w) work false)
    let s := if usesPick w da then
        countChunks (modCore s a.n (fun c =>
            { c with pick0 := ch.cur.b0, pick1 := ch.cur.b1, victim := ch.cur.vic }))
          a.n ch.done.length ch.victims ch.serial.length
      else s
    let s := if mSkip w && !hSkipIn w && 0 < nskip then bumpCore s a.n ctrSkipRows nskip else s
    let s := finishHeddle s a set
      { terms := fun l =>
          if l / 128 < mm ∧ l % 128 < nn then
            some (if skipped (l / 128) then [] else spmmFactors st w db k ps (l / 128) (l % 128))
          else none
        start := if mStart w then [] else old.lanes } work (usesPick w da)
    if skipOut then
      pushStore s a (hBudget w + latency a.p 40 32) none
        (.store (pokesOf dx ((List.range mm).map (fun m => flag (skipped m)))) set.chk)
    else s
  { fmt := .t
    enc := heddleEnc w true ++ cond (hSkipIn w && mSkip w && !fldFlag w 0) 3 offDX
    eng := some (heddleUse (hBudget w) work)
    chk := needEntry a (tDA w) offDA ++ needEntry a (tDB w) offDB ++
      cond (mSkip w && !bit (getQuad a.s (quadOf a.n)).ctxMode 0) 0x0D (fldOp w) ++
      onEntry a (tDA w) (fun da => onEntry a (tDB w) (fun db =>
        handleConds da offDA ++ coreDense db offDB ++ cond (!spmmFmt w da) 6 offDA ++ typeConds da db ++
        heddleShape w da db ++ cond (decide (262144 < spmmStaged w da db)) 7 offDB ++
        skipDxConds a (passM w da) ++
        cond (!mStart w && (old.packed || old.skipped)) 7 offDA ++
        shapeConds old (mStart w) (passM w da) (passN w db) offDA))
    eff := match bad with
      | some (o, m) => failPass s a (hMetaLen h) 8 (metaDetail o m) (metaWord o m)
      | none => good }

/-! ### HEDDLE.SDDMM -/

def sddmmStaged (w : InstrWord) (da db : Image) : Nat :=
  passKA w da * (passM w da + passN w db) * tyWidth (dType da) / 8

def actSddmm (a : At) : Action :=
  let w := a.w
  let st := a.c.store
  let da := entryD a (tDA w)
  let db := entryD a (tDB w)
  let dx := entryD a (tDX w)
  let k := passKA w da
  let old := accNow a.c.heddle
  let bad := operandMeta st [(2, dx)]
  let h := headerOf st dx
  let ps := storedOf st dx
  let rows := max 1 (ceilDiv ps.length 128)
  let scan := ceilDiv (hMetaLen h) 512
  let work := if bad.isSome then 16 + scan
    else 16 + max (ceilDiv (sddmmStaged w da db) 512)
      (scan + ceilDiv (ps.length * ((k + 31) / 32 * 32)) (sddmmRate (dType da)))
  let s := readStore a ((descUnits da ++ descUnits db ++ regionUnits st dx).dedup)
  let chk := joinChk (unitsChk (getCore s a.n).storeChk (regionUnits st dx)) (operandsChk s a.n [da, db])
  let base : AccSet := if mStart w then {} else old
  let lanes := ps.zipIdx.foldl (fun t x => tset {} t x.2
    ((sddmmTerms st w da db k x.1.row x.1.col).foldl (fun l e => laneAdd l (laneTerm e)) (tget {} t x.2))) base.lanes
  let set0 := passSet { base with lanes := lanes } false 0 0 k true false chk (fun _ _ => [])
  let set : AccSet := { set0 with shape := some (rows, 128) }
  let misfit := !mStart w && old.shape.isSome && old.shape != some (rows, 128)
  { fmt := .t
    enc := heddleEnc w false ++ cond (!fldFlag w 0) 3 offDX
    eng := some (heddleUse (hBudget w) work)
    chk := needEntry a (tDA w) offDA ++ needEntry a (tDB w) offDB ++ needEntry a (tDX w) offDX ++
      onEntry a (tDA w) (fun da => onEntry a (tDB w) (fun db => onEntry a (tDX w) (fun dx =>
        coreDense da offDA ++ coreDense db offDB ++ handleConds dx offDX ++ cond (!maskFmt dx) 6 offDX ++
        typeConds da db ++ heddleShape w da db ++
        cond (dSize dx 0 != passN w db || dSize dx 1 != passM w da || !rank2ish dx) 7 offDX ++
        cond (decide (262144 < sddmmStaged w da db)) 7 offDB ++
        cond (!mStart w && old.shape.isSome && (!old.packed || old.skipped)) 7 offDX)))
    eff := match bad with
      | some (o, m) => failPass s a (hMetaLen h) 8 (metaDetail o m) (metaWord o m)
      | none =>
        if misfit then failPass s a (hMetaLen h) 7 offDX 0
        else finishHeddle (modCore (noteAhead s a [dx]) a.n (fun c => startPass c (hBudget w) work false)) a set
          { terms := fun l => (ps[l]?).map (fun x => sddmmFactors st w da db k x.row x.col), start := base.lanes } work false }

/-! ### HEDDLE.SPSP -/

/-- PAIR entries as (key, the other coordinate, value) in stored order. -/
def pairEntries (st : Tbl Byte) (d : Image) : List (Nat × Nat × Exact) :=
  (storedOf st d).map (fun x =>
    if hP1 (headerOf st d) = 0 then (x.col, x.row, storedVal st d x) else (x.row, x.col, storedVal st d x))

/-- The stored positions of a key. -/
def keyRun (l : List (Nat × Nat × Exact)) (k : Nat) : List Nat :=
  l.zipIdx.filterMap (fun x => if x.1.1 = k then some x.2 else none)

/-- Distinct keys in stored order. -/
def distinctKeys (l : List (Nat × Nat × Exact)) : List Nat := (l.map (fun x => x.1)).eraseDups

/-- Chunks of DA's keys, each with its run of entries (R355): finished chunks as (keys, victim inserts) and the one in
progress. -/
def keyChunks : List (Nat × List Nat) → Pick → List Nat → List (List Nat × Nat) → List (List Nat × Nat) × Pick × List Nat
  | [], t, cur, done => (done, t, cur)
  | (k, run) :: rest, t, cur, done =>
    match pickInsert t k run with
    | some t' => keyChunks rest t' (cur ++ [k]) done
    | none => match pickInsert {} k run with
      | some t' => keyChunks rest t' [k] (done ++ [(cur, t.hits)])
      | none => (done, t, cur)

def actSpsp (a : At) : Action :=
  let w := a.w
  let st := a.c.store
  let da := entryD a (tDA w)
  let db := entryD a (tDB w)
  let mm := passM w da
  let nn := passN w db
  let k := passKA w da
  let old := accNow a.c.heddle
  let bad := operandMeta st [(0, da), (1, db)]
  let ha := headerOf st da
  let hb := headerOf st db
  let s := readStore a ((regionUnits st da ++ regionUnits st db).dedup)
  let ea := pairEntries st da
  let eb := pairEntries st db
  let keys := distinctKeys ea
  let (done, last, cur) := keyChunks (keys.map (fun k => (k, keyRun ea k))) {} [] []
  let chunks := done ++ (if cur.isEmpty then [] else [(cur, last.hits)])
  let pairsOf (ks : List Nat) : Nat :=
    (ks.map (fun k => (ea.filter (fun x => x.1 == k)).length * (eb.filter (fun x => x.1 == k)).length)).sum
  let scanAll := hMetaLen ha + hMetaLen hb
  let work := if bad.isSome then 16 + ceilDiv scanAll 512
    else 16 + ceilDiv scanAll 512 + (chunks.map (fun c => ceilDiv c.1.length 64 +
      max (ceilDiv eb.length 1024) (ceilDiv (pairsOf c.1) (spspRate (dType da))))).sum
  let chk := joinChk (unitsChk (getCore s a.n).storeChk (regionUnits st da))
    (unitsChk (getCore s a.n).storeChk (regionUnits st db))
  let factors (m n : Nat) : List (List (Exact × Exact)) :=
    keys.flatMap (fun k => (ea.filter (fun x => x.1 == k && x.2.1 == m)).flatMap (fun x =>
      (eb.filter (fun y => y.1 == k && y.2.1 == n)).map (fun y => [(x.2.2, y.2.2)])))
  let set := passSet old (mStart w) mm nn k false false chk (fun m n => termsOf (factors m n))
  { fmt := .t
    enc := heddleEnc w false
    eng := some (heddleUse (hBudget w) work)
    chk := needEntry a (tDA w) offDA ++ needEntry a (tDB w) offDB ++
      onEntry a (tDA w) (fun da => onEntry a (tDB w) (fun db =>
        handleConds da offDA ++ handleConds db offDB ++
        cond (dFmt da != fmPAIR || dType da == tyBit || hP1 (headerOf st da) != pairMatch true w) 6 offDA ++
        cond (dFmt db != fmPAIR || dType db == tyBit || hP1 (headerOf st db) != pairMatch false w) 6 offDB ++
        typeConds da db ++ heddleShape w da db ++
        cond (hP0 (headerOf st da) != hP0 (headerOf st db)) 7 offDB ++
        cond (!mStart w && (old.packed || old.skipped)) 7 offDA ++
        shapeConds old (mStart w) (passM w da) (passN w db) offDA))
    eff := match bad with
      | some (o, m) => failPass s a scanAll 8 (metaDetail o m) (metaWord o m)
      | none =>
        let s := noteAhead s a [da, db]
        let s := modCore s a.n (fun c => startPass c (hBudget w) work false)
        let s := countChunks (modCore s a.n (fun c => { c with pick0 := last.b0, pick1 := last.b1, victim := last.vic }))
          a.n chunks.length ((chunks.map (fun c => c.2)).sum) 0
        finishHeddle s a set
          { terms := fun l => if l / 128 < mm ∧ l % 128 < nn then some (factors (l / 128) (l % 128)) else none
            start := if mStart w then [] else old.lanes } work true }

/-! ### HEDDLE.ZERO -/

def actHeddleZero (a : At) : Action :=
  { fmt := .t
    enc := modeSubZero a.w ++ (match lowestBit (tImm a.w) with | some i => [(2, offImm + i)] | none => [])
    eng := some { eng := .heddle, occ := 1, busy := 1 }
    eff := modCore a.s a.n (fun c =>
      { c with heddle := pushAcc c.heddle (c.cycle + 1 + latency a.p 40 32) {} false false false }) }

def execHeddleSpmm (i : Issue) (s : State) : Host.Outcome State Fault Refusal := issueWith 0x28 i s actSpmm
def execHeddleSddmm (i : Issue) (s : State) : Host.Outcome State Fault Refusal := issueWith 0x29 i s actSddmm
def execHeddleSpsp (i : Issue) (s : State) : Host.Outcome State Fault Refusal := issueWith 0x2A i s actSpsp
def execHeddleZero (i : Issue) (s : State) : Host.Outcome State Fault Refusal := issueWith 0x2B i s actHeddleZero

/-! ### Events of a pass (R123, R360, R364) -/

/-- HEDDLE_OVERRUN: BUDGET has elapsed before the work is done (R360): the core holds and OVERRUN is set. The cycles are
counted as they pass. -/
def execHeddleOverrun (core : Fin 192) (s : State) : Host.Outcome State Fault Refusal :=
  let c := getCore s core.val
  match c.pass with
  | some p =>
    if !p.overrunning && decide (p.budget < p.work) && decide (p.issued + p.budget ≤ c.cycle) then
      .next (noteW1c (modCore s core.val (fun c => { c with
        pass := some { p with overrunning := true }, sched := false, heddle := { c.heddle with stOverrun := true } }))
        (corePage core.val 8) 21)
    else .next s
  | none => .next s

/-- HEDDLE_WORK_COMPLETE: the pass's work ends, which ends any overrun and records W (R364). -/
def execHeddleWorkComplete (core : Fin 192) (s : State) : Host.Outcome State Fault Refusal :=
  .next (modCore s core.val finishPass)

/-- DEFERRED_FAULT_DETECT: the oldest deferred fault of a shuttle is detected (R123, R124, R325). -/
def execDeferredFaultDetect (core : Fin 192) (sh : Shuttle) (s : State) : Host.Outcome State Fault Refusal :=
  let n := core.val
  let c := getCore s n
  match corePart s n, c.deferred.find? (fun d => d.sh == sh) with
  | some p, some d =>
    let s := setCore s n { modSh c sh (fun x => { x with metaFault := if d.kind = 8 then d.metaFault else x.metaFault }) with
      deferred := c.deferred.erase d
      pass := match c.pass with
        | some q => if q.failed then none else some q
        | none => none }
    .next (raiseFault s p n sh d.pc d.opcode.toNat d.kind d.detail.toNat true)
  | _, _ => .next s

end Sys2Proof.Machine
end

