-- ==== Sys2Proof/Machine/Exchange.lean ====
section
/-! DEFINITION. The program's side of gradient exchange: CASK.OPEN, CASK.HDR, CASK.PUT, CASK.NORM, CASK.CLOSE and
VERDICT.WAIT (R119, R415, R442 to R456, R472, R474 to R476, R563 to R569), acknowledgements, and verdict frames. -/

namespace Sys2Proof.Machine

/-! ### The immediate of a cask instruction (R451) -/

def immBucket (w : InstrWord) : Half := BitVec.ofNat 16 (tImm w)
def immModule (w : InstrWord) : Nat := bits w (offImm + 16) 6
def immCask (w : InstrWord) : Nat := bits w (offImm + 24) 3
def modeProv (w : InstrWord) : Bool := bit w offMode
def modeBackup (w : InstrWord) : Bool := bit w (offMode + 1)
def modeFor (w : InstrWord) : Nat := bits w (offMode + 2) 6

/-! ### CASK.OPEN (R442 to R448) -/

/-- Word k of 64 bytes. -/
def wordAt (bs : List Byte) (k : Nat) : Nat := leVal ((bs.drop (8 * k)).take 8)

/-- The words 1 to 3 of a native record. -/
def recordWords (elems ledger contrib deadline group count thin : Nat) : List Nat :=
  [elems + ledger * 2 ^ 32, contrib, deadline + group * 2 ^ 32 + count * 2 ^ 48 + thin * 2 ^ 56]

/-- CRC-32C of words 1 to 3 (R446). -/
def recordDigest (ws : List Nat) : Word := BitVec.ofNat 32 (crc32c (ws.flatMap (leBytes 8)))

/-- A native record (R442), unless a reserved bit is set. -/
def nativeRecord (bs backup : List Byte) : Option BucketRec :=
  let w (k : Nat) : Nat := wordAt bs k
  if w 0 / 256 ≠ 0 ∨ w 1 / 2 ^ 48 ≠ 0 ∨ [4, 5, 6, 7].any (fun k => w k != 0) then none
  else
    some { elems := w 1 % 2 ^ 32, ledgerKb := w 1 / 2 ^ 32, contrib := BitVec.ofNat 64 (w 2), deadlineUs := w 3 % 2 ^ 32
           group := BitVec.ofNat 16 (w 3 / 2 ^ 32), groupCount := w 3 / 2 ^ 48 % 2 ^ 8, thin := w 3 / 2 ^ 56
           digest := recordDigest [w 1, w 2, w 3], backup := backup, normDeclared := false }

/-- A Choyx 1 collective descriptor (R448) and its native equivalent. -/
def choyx1Record (casks : Nat) (b : Half) (bs : List Byte) : Option BucketRec :=
  let w (k : Nat) : Nat := wordAt bs k
  if bs.getD 1 0 ≠ 0x03 ∨ bs.getD 2 0 ≠ 0x02 ∨ w 0 / 2 ^ 24 ≠ 0 ∨ w 1 % (256 * casks) ≠ 0 ∨
     [3, 4, 5, 6, 7].any (fun k => w k != 0) then none
  else
    let e := w 1 / casks
    some { elems := e, ledgerKb := 1024, contrib := BitVec.ofNat 64 (w 2), deadlineUs := 0, group := b, groupCount := 1,
           thin := 1, digest := recordDigest (recordWords e 1024 (w 2) 0 b.toNat 1 1)
           backup := List.replicate 64 0xFF, normDeclared := false }

/-- Bits set in a mask. -/
def popCount (x : Dword) : Nat := ((List.range 64).filter (fun i => bit x i)).length

/-- The limits of R442, R443, R445 and R447. -/
def recordOk (s : State) (p : Part) (r : BucketRec) : Bool :=
  let total := 2 * r.elems * caskCount p * popCount r.contrib
  r.elems % 256 == 0 && decide (256 ≤ r.elems) && decide (r.elems ≤ 3620864) &&
  r.ledgerKb % 64 == 0 && decide (64 ≤ r.ledgerKb) && decide (r.ledgerKb ≤ 8192) &&
  decide (r.deadlineUs ≤ 10000000) && decide (1 ≤ r.groupCount) && decide (r.groupCount ≤ 64) &&
  decide (1 ≤ r.thin) && decide (r.thin ≤ 64) &&
  decide (4 * 2 ^ 20 ≤ total) && decide (total ≤ 2 ^ 30) &&
  r.contrib.toNat / 2 ^ fabricN s == 0 && bit r.contrib (ownIndex s) &&
  (List.range 64).all (fun m =>
    let x := backupOf r m
    x == 0xFF || (bit r.contrib m && x != m && decide (x < 64) && bit r.contrib x))

/-- The record and backup map that an instruction names. -/
def openRecord (a : At) : Option BucketRec :=
  let bs := readBytes a.c.store (dBase (entryD a (tDX a.w))) 64
  let map := readBytes a.c.store (dBase (entryD a (tDA a.w))) 64
  if bs.getD 0 0 = 0x01 then nativeRecord bs map
  else if bs.getD 0 0 = 0xC1 then choyx1Record (caskCount a.p) (immBucket a.w) bs
  else none

/-- Bytes that an open bucket takes in a cask (R447). -/
def bucketBytes (r : BucketRec) : Nat := 4 * r.elems + 16 * min r.elems 131072 + 1024 * r.ledgerKb + 131072

/-- Bytes in use in a physical cask. -/
def caskUsed (s : State) (k : Nat) : Nat :=
  ((getCask s k).buckets.map (fun x => match (partAt s x.low).bind (fun p => bucketRec p x.bucket) with
    | some r => bucketBytes r
    | none => 0)).sum

/-- Whether a record may be opened (R447). -/
def openOk (s : State) (p : Part) (b : Half) (r : BucketRec) : Bool :=
  (bucketRec p b).isNone && recordOk s p r &&
  (partCasks p).all (fun k => decide (caskUsed s k + bucketBytes r ≤ 2 ^ 24))

/-- A bucket joins the oldest instance of its group that is not complete, or a new one (R472). -/
def joinGroup (gs : List NormGroup) (b : Half) (r : BucketRec) : List NormGroup :=
  let free (g : NormGroup) : Bool := g.group == r.group && !g.sent && (g.count == 0 || decide (g.joined < g.count))
  let put (g : NormGroup) : NormGroup :=
    { g with count := r.groupCount, contrib := r.contrib, joined := g.joined + 1, members := g.members ++ [b] }
  match gs.findIdx? free with
  | some i => gs.set i (put (gs.getD i { group := r.group }))
  | none => gs ++ [put { group := r.group }]

/-- Open a bucket in every cask of the partition (R447, R463). No core's U shuttle has waited on it yet (R415). -/
def openBucket (s : State) (p : Part) (b : Half) (r : BucketRec) : State :=
  let tag := stepTag s p
  let s := (partCasks p).foldl (fun s k => modCask s k (fun c => { c with buckets := c.buckets ++
    [{ low := p.low, bucket := b, tag := tag, allocAt := tset 0 (tset 0 [] 0 s.pll) 1 s.pll }] })) s
  let s := modPart s p.low (fun p => { p with
    buckets := p.buckets ++ [(b, r)]
    closed := p.closed.filter (fun x => x != (b, tag))
    groups := joinGroup p.groups b r })
  (p.map).foldl (fun s n => modCore s n (fun c => { c with verdictBuckets := c.verdictBuckets.filter (fun x => x != b) })) s

def actCaskOpen (a : At) : Action :=
  let w := a.w
  let dx := entryD a (tDX w)
  let da := entryD a (tDA w)
  let spans := (if fldFlag w 0 then spanConds a (tDX w) offDX 0 64 else []) ++ spanConds a (tDA w) offDA 0 64
  let ok := match openRecord a with
    | some r => openOk a.s a.p (immBucket w) r
    | none => false
  { fmt := .t
    enc := modeSubZero w ++ cond (!fldFlag w 0) 3 offDX
    chk := if spans.isEmpty then cond (!ok) 0x0E (immBucket w).toNat else spans
    eff := match openRecord a with
      | some r => openBucket (readStore a (spanUnits (dBase dx) 64 ++ spanUnits (dBase da) 64)) a.p (immBucket w) r
      | none => a.s }

/-! ### Conditions of CASK.HDR and CASK.PUT (R449 to R451) -/

/-- Whether an operand is what R449 accepts by type and format. -/
def sliceType (d : Image) : Bool := dType d == tyBF16 && (dDense d || dFmt d == fmIVQ)

/-- The piece's offset in the slice (R449). -/
def pieceOffset (a : At) : Int := readIndex a.c.store (entryD a (tDX a.w)) 0

/-- Conditions on a DX that gives an offset. -/
def offsetConds (a : At) (d : Image) : Conds :=
  cond (dHandle d != 0) 3 offDX ++ cond (!dDense d || dType d != tyInt32) 6 offDX ++ cond (dRank d != 1) 7 offDX ++
  (if dHandle d = 0 ∧ dDense d ∧ dType d = tyInt32 then
    cond (decide (pieceOffset a < 0) || pieceOffset a % 256 != 0) 3 offDX else [])

/-- Conditions on DA's count against the partition's own record. -/
def countConds (a : At) (put : Bool) (d : Image) : Conds :=
  let n := validCount d
  cond (dDense d && dRank d != 1) 7 offDA ++
  (if put then cond (n % 256 != 0 || n == 0) 7 offDA else []) ++
  (match bucketRec a.p (immBucket a.w) with
  | some r => if put then cond (decide ((r.elems : Int) < pieceOffset a + n)) 7 offDA else cond (n != r.elems) 7 offDA
  | none => [])

def sliceConds (a : At) (put : Bool) : Conds :=
  let w := a.w
  let b := immBucket w
  cond (decide (caskCount a.p ≤ immCask w)) 3 (offImm + 24) ++
  needEntry a (tDA w) offDA ++
  (if put && fldFlag w 0 then needEntry a (tDX w) offDX ++ onEntry a (tDX w) (offsetConds a) else []) ++
  onEntry a (tDA w) (fun d => cond (dHandle d != 0) 3 offDA ++ cond (!sliceType d) 6 offDA ++ countConds a put d) ++
  cond (decide (fabricN a.s ≤ immModule w)) 0x0A (immModule w) ++
  (match bucketRec a.p b with
  | some r => cond (!bit r.contrib (immModule w)) 0x0E b.toNat
  | none => [(0x0E, b.toNat)])

def sliceEnc (w : InstrWord) (put : Bool) : Conds :=
  (if put then [] else undefinedField (modeProv w) offMode) ++
  (if modeBackup w then [] else immZero (modeFor w) (offMode + 2) 2) ++ cond (put && !fldFlag w 0) 3 offDX ++
  undefinedField (tSub w != 0) offSub ++
  immReserved w (maskOf 22 2 + maskOf 27 5)

/-! ### Frames -/

/-- The header of a cask frame of this instruction (R450, R454, R488). -/
def caskFrame (a : At) (kind : Byte) (off : Nat) (prov : Bool) (inl : Inline) : Frame :=
  let w := a.w
  { bareFrame kind (caskAddr (immBucket w) (immCask w) a.p.low off) a.lc a.sh (stepTag a.s a.p) inl with
    prov := prov, backup := modeBackup w, standIn := modeFor w }

/-- Data in pieces of 4 KiB, numbered. -/
def cut4k (bs : List Byte) : List (Nat × List Byte) :=
  (List.range (ceilDiv bs.length 4096)).map (fun i => (i, (bs.drop (4096 * i)).take 4096))

/-- The frames of a piece from core store: BF16 elements, or the frames of an IVQ region byte for byte (R508). -/
def pieceFrames (st : Tbl Byte) (d : Image) (off : Nat) (head : Frame) : List Frame :=
  let b := faBucket head.addr
  let j := faCask head.addr
  let low := faLow head.addr
  if dDense d then
    let bs := (validElems d).flatMap (fun x => leBytes 2 (peek st x.1 16))
    (cut4k bs).map (fun x => { head with
      addr := caskAddr b j low (off + 2048 * x.1), inline := .piece (x.2.length / 2) false 0 1, data := x.2 })
  else
    let bs := readBytes st (metaAt st d) (hMetaLen (headerOf st d))
    let n := (cut4k bs).length
    (cut4k bs).map (fun x => { head with
      addr := caskAddr b j low off, inline := .piece (validCount d) true x.1 n, data := x.2 })

/-- The port of a cask index (R449, R483). -/
def caskPort (p : Part) (j : Nat) : Nat := portOf p j

/-- Scope of an access to a cask: FENCE.D covers the module's own casks, FENCE.F those of others (R187). -/
def caskLevel (s : State) (m : Nat) : Nat := if m = ownIndex s then 2 else 3

/-- An access waits for one more acknowledgement of each frame it sends (R455, R563). -/
def expectAcks (s : State) (n : Nat) (sh : Shuttle) (id k : Nat) : State :=
  modCore s n (fun c => modSh c sh (fun x => { x with accesses := x.accesses.map (fun y =>
    if y.id = id then { y with unanswered := y.unanswered + k } else y) }))

/-- A cask access with its frames: sent at once, or held behind an acquire (R185) or behind a header (R454). -/
def postCask (a : At) (kind : AccessKind) (frames : List Frame) : State × Nat :=
  let m := immModule a.w
  let xs : List (Nat × Nat × Frame) := frames.map (fun f => (caskPort a.p (immCask a.w), m, f))
  let c := getCore a.s a.n
  let hold := mustHold (shOf c a.sh) c.nextAccess false || behindHdr (shOf c a.sh) c.nextAccess kind
  let (s, id) := newAccess a.s a.n a.sh (caskLevel a.s m) kind false hold (if hold then xs else [])
  let s := expectAcks s a.n a.sh id frames.length
  (if hold then s else sendAll s xs, id)

/-! ### CASK.HDR (R453) -/

/-- The elements of a slice that its operand stores. -/
def sliceVals (st : Tbl Byte) (d : Image) : List Exact :=
  if dDense d then readVals st d else (storedOf st d).map (storedVal st d)

/-- EXP and NONFIN. -/
def headerExp (xs : List Exact) : Int :=
  xs.foldl (fun r x => match x with
    | .num m e => match expoE m e with
      | some k => max r k
      | none => r
    | .nonfin _ => r) (-32768)
def headerNonfin (xs : List Exact) : Bool := xs.any (fun x => !finiteE x)

def headerEffect (a : At) : State :=
  let w := a.w
  let b := immBucket w
  let d := entryD a (tDA w)
  let s := readStore a (anyUnits a.c.store d)
  match operandMeta a.c.store (if dDense d then [] else [(0, d)]) with
  | some (k, m) => deferFault s a (a.c.cycle + 1) 8 (metaDetail k m) (metaWord k m)
  | none =>
    let xs := sliceVals a.c.store d
    let r := (bucketRec a.p b).map (fun (r : BucketRec) => r.digest)
    let bad := headerNonfin xs
    let s := if bad then record s { coreRec 0x21 a.n (bucketDetail b (ownIndex s) (flag (modeBackup w)) + thinDetail s a.p.low b) with
      shuttle := shIdx a.sh, opcode := fldOp w, pc := pcOf a.r a.sh } else s
    (postCask { a with s := s } (.caskHdr b (immCask w) (immModule w))
      [caskFrame a fkCaskHdr 0 false (.header (headerExp xs) bad (validCount d) (r.getD 0))]).1

def actCaskHdr (a : At) : Action :=
  { fmt := .t, enc := sliceEnc a.w false, chk := sliceConds a false, eff := headerEffect a }

/-! ### CASK.PUT (R452, R563) -/

/-- The verdicts that a check state depends on. -/
def depsOf (c : Chk) : List Nat :=
  match c with
  | .prov l => l
  | _ => []

def putEffect (a : At) : State :=
  let w := a.w
  let b := immBucket w
  let d := entryD a (tDA w)
  let st := a.c.store
  let off := (pieceOffset a).toNat
  let units := anyUnits st d
  let s := readStore a (units ++ descUnits (entryD a (tDX w)))
  match operandMeta st (if dDense d then [] else [(0, d)]) with
  | some (k, m) => deferFault s a (a.c.cycle + 1) 8 (metaDetail k m) (metaWord k m)
  | none =>
    let chks := units.map (tget Chk.clear (getCore s a.n).storeChk)
    let failed := chks.contains .failed
    let deps := (chks.flatMap depsOf).dedup
    let prov := modeProv w || failed || !deps.isEmpty
    let head := caskFrame a fkPiece off prov (.piece 0 false 0 1)
    let n := validCount d
    let (s, id) := postCask { a with s := s } (.caskPiece b (immCask w) (immModule w) off n) (pieceFrames st d off head)
    if prov then
      modCore s a.n (fun c => { c with pieces := c.pieces ++
        [{ id := id, sh := a.sh, pc := pcOf a.r a.sh, dest := immModule w, offset := off, count := n, deps := deps,
           failed := failed, units := units, da := d, head := head }] })
    else s

def actCaskPut (a : At) : Action :=
  { fmt := .t, enc := sliceEnc a.w true, chk := sliceConds a true, eff := putEffect a }

/-! ### CASK.NORM and CASK.CLOSE (R472, R475) -/

def notOpen (a : At) : Conds := cond (bucketRec a.p (immBucket a.w)).isNone 0x0E (immBucket a.w).toNat

def actCaskNorm (a : At) : Action :=
  let b := immBucket a.w
  { fmt := .t
    enc := modeSubZero a.w
    chk := notOpen a
    eff := settleGroups (modPart a.s a.p.low (fun p => { p with buckets := p.buckets.map (fun x =>
      if x.1 = b then (x.1, { x.2 with normDeclared := true }) else x) })) a.p.low }

/-- Release a bucket in every cask of its partition. -/
def closeBucket (s : State) (p : Part) (b : Half) : State :=
  let tags := (caskBuckets s p b).map (fun x => x.tag)
  let s := (partCasks p).foldl (fun s k => modCask s k (fun c => { c with buckets := c.buckets.filter (fun x =>
    !(x.low == p.low && x.bucket == b)) })) s
  modPart s p.low (fun p => { p with
    buckets := p.buckets.filter (fun x => x.1 != b)
    closed := p.closed ++ (tags.take 1).map (fun t => (b, t))
    groups := (p.groups.map (fun g => { g with members := g.members.filter (fun x => x != b) })).filter (fun g =>
      g.joined == 0 || !g.members.isEmpty) })

def actCaskClose (a : At) : Action :=
  { fmt := .t, enc := modeSubZero a.w, chk := notOpen a, eff := closeBucket a.s a.p (immBucket a.w) }

/-! ### VERDICT.WAIT (R474, R568) -/

/-- Nothing of a bucket awaits a verdict: no ledger entry, no kept verdict. -/
def noVerdictLeft (x : CaskBucket) : Bool := x.verdicts.isEmpty && x.units.all (fun y => y.2.ledger.isNone)

/-- The condition of VERDICT.WAIT on a bucket. -/
def verdictMet (s : State) (p : Part) (b : Half) : Bool :=
  bucketSealed s p b && (caskBuckets s p b).all noVerdictLeft &&
  (match groupOf p b with
  | some g => g.final.isSome
  | none => false)

def actVerdictWait (a : At) : Action :=
  let b : Half := BitVec.ofNat 16 (wBkt a.w)
  { fmt := .w
    chk := cond (bucketRec a.p b).isNone 0x0E b.toNat
    eff := enterWait a.s a (.verdict b) (fldFlag a.w 0)
    off := offWait a }

/-- The end-of-cycle test of the VERDICT.WAITs of a core. -/
def verdictTest (s : State) (p : Part) (n : Nat) : State :=
  allShuttles.foldl (fun s sh => match pendingWait (getCore s n) sh with
    | some w => match w.kind with
      | .verdict b => if verdictMet s p b then modCore s n (fun c => meetWait c sh s.cc false) else s
      | _ => s
    | none => s) s

def execCaskOpen (i : Issue) (s : State) : Host.Outcome State Fault Refusal := issueWith 0x58 i s actCaskOpen
def execCaskHdr (i : Issue) (s : State) : Host.Outcome State Fault Refusal := issueWith 0x59 i s actCaskHdr
def execCaskPut (i : Issue) (s : State) : Host.Outcome State Fault Refusal := issueWith 0x5A i s actCaskPut
def execCaskNorm (i : Issue) (s : State) : Host.Outcome State Fault Refusal := issueWith 0x5B i s actCaskNorm
def execCaskClose (i : Issue) (s : State) : Host.Outcome State Fault Refusal := issueWith 0x5C i s actCaskClose
def execVerdictWait (i : Issue) (s : State) : Host.Outcome State Fault Refusal := issueWith 0x73 i s actVerdictWait

/-! ### Acknowledgements (R455, R494) -/

/-- Whether an access is the one that an acknowledgement answers. -/
def ackMatches (f : Frame) (sender : Nat) (x : Access) : Bool :=
  decide (0 < x.unanswered) && match x.kind, f.inline with
  | .caskHdr b j m, .header _ _ _ _ => b == faBucket f.addr && j == faCask f.addr && m == sender
  | .caskPiece b j m off n, .piece _ _ _ _ =>
    b == faBucket f.addr && j == faCask f.addr && m == sender &&
    decide (off ≤ faElem f.addr) && decide (faElem f.addr < off + n)
  | .caskPiece b j m off n, .verdict voff vn _ =>
    b == faBucket f.addr && j == faCask f.addr && m == sender && off == voff && n == vn
  | _, _ => false

/-- One acknowledgement less; with none left, and no verdict to send, the access has performed. -/
def answerAccess (s : State) (n : Nat) (sh : Shuttle) (id : Nat) : State :=
  let s := modCore s n (fun c => modSh c sh (fun x => { x with accesses := x.accesses.map (fun y =>
    if y.id = id then { y with unanswered := y.unanswered - 1 } else y) }))
  let c := getCore s n
  if (shOf c sh).accesses.any (fun y => y.id == id && y.unanswered == 0) && !c.pieces.any (fun v => v.id == id) then
    performAccess s n sh id
  else s

/-- CASK_ACK_RECEIVE. -/
def takeCaskAck (rx : Rx) (s : State) : State :=
  let f := rx.frame
  match (partAt s (faLow f.addr)).bind (fun p => p.map[f.srcCore]?) with
  | none => s
  | some n =>
    match (shOf (getCore s n) f.srcShuttle).accesses.find? (ackMatches f rx.sender) with
    | some x => answerAccess s n f.srcShuttle x.id
    | none => s

def execCaskAckReceive (rx : Rx) (s : State) : Host.Outcome State Fault Refusal :=
  if rx.frame.kind = fkCaskAck then withRx s rx (takeCaskAck rx) else .next s

/-! ### Verdict frames (R563, R564, R569) -/

/-- Whether a slot is the header of one of a piece's frames. -/
def headOf (v : PieceVerdict) (x : Slot) : Bool :=
  match x with
  | .head f => f.kind == fkPiece && f.tag == v.head.tag && f.srcCore == v.head.srcCore && f.srcShuttle == v.head.srcShuttle &&
      faBucket f.addr == faBucket v.head.addr && faCask f.addr == faCask v.head.addr && faLow f.addr == faLow v.head.addr &&
      decide (v.offset ≤ faElem f.addr) && decide (faElem f.addr < v.offset + v.count)
  | .data _ => false

/-- Whether the piece's last slot has left: none of its headers waits, and no frame stands half sent on its lane. -/
def pieceGone (s : State) (port : Nat) (v : PieceVerdict) : Bool :=
  v.dest == ownIndex s ||
  (let q := tget [] (getChan s port v.dest).txq (vlOf v.head)
   !q.any (headOf v) && (match q with
     | .data _ :: _ => false
     | _ => true))

/-- VERDICT_FRAME_SEND: the piece has been sent and its dependencies have resolved. A failed piece whose units are now
all CLEAR is sent again; any other failure is counted. -/
def execVerdictFrameSend (core : Fin 192) (id : Nat) (s : State) : Host.Outcome State Fault Refusal :=
  let n := core.val
  let c := getCore s n
  match corePart s n, c.pieces.find? (fun v => v.id == id) with
  | some p, some v =>
    let port := caskPort p (faCask v.head.addr)
    let held := (shOf c v.sh).accesses.any (fun x => x.id == id && x.held)
    if !v.deps.isEmpty || held || !pieceGone s port v then .next s
    else
      let pass := !v.failed
      let s := modCore s n (fun c => { c with pieces := c.pieces.filter (fun x => x.id != id) })
      let vf := { v.head with kind := fkVerdict, prov := false, data := [], inline := .verdict v.offset v.count pass }
      let clear := v.units.all (fun u => tget Chk.clear c.storeChk u == .clear)
      let again := if !pass && clear then pieceFrames c.store v.da v.offset { v.head with prov := false } else []
      let s := expectAcks s n v.sh id (1 + again.length)
      let s := sendAll s ((vf :: again).map (fun f => (port, v.dest, f)))
      .next (if pass || clear then s
        else countVerdictFail s n { coreRec 0x13 n (faBucket v.head.addr).toNat with
          shuttle := shIdx v.sh, opcode := 0x5A, pc := v.pc })
  | _, _ => .next s

end Sys2Proof.Machine
end

