-- ==== Sys2Proof/Machine/Scalar.lean ====
section
/-! DEFINITION. Control and scalar instructions (R109 to R112, R72 to R74, R95, R104). -/

namespace Sys2Proof.Machine

/-! ### Control -/

/-- A format S instruction whose FN has no meaning. -/
def fnZero (w : InstrWord) : Conds := undefinedField (sFn w != 0) 56

/-- Whether a branch target is allowed (R111): a wait of the image, or an instruction of the branch's own segment, with no
wait between the two. -/
def branchOk (img : List InstrWord) (pc t : Nat) : Bool :=
  match img[t]? with
  | none => false
  | some w =>
    waitOpcode (fldOp w) ||
      !((img.drop (min pc t)).take (max pc t - min pc t)).any (fun x => waitOpcode (fldOp x))

/-- A taken branch to a forbidden target (R111): kind 0x0C with the target's low 16 bits. -/
def branchConds (a : At) (t : Nat) : Conds :=
  cond (!branchOk (imgOf a.c a.sh) (pcOf a.r a.sh).toNat t) 0x0C (t % 65536)

def actNop (a : At) : Action := { fmt := .s, enc := fnZero a.w, eff := a.s }

def actBr (a : At) : Action :=
  let t := sImm a.w % 2 ^ 32
  { fmt := .s, enc := fnZero a.w, chk := branchConds a t, eff := a.s, jump := some t }

/-- The decremented count register of LOOP, saturating at 0 (R95). -/
def loopCount (a : At) : Nat := regRead a.r (sS1 a.w) - 1

def actLoop (a : At) : Action :=
  let t := sImm a.w % 2 ^ 32
  let taken := loopCount a != 0
  { fmt := .s
    enc := fnZero a.w ++ cond (specBad (sS1 a.w) || specFile (sS1 a.w) != 1) 3 40
    chk := if taken then branchConds a t else []
    eff := pushReg a.s a (sS1 a.w) 1 (loopCount a)
    jump := if taken then some t else none }

def actEnd (a : At) : Action :=
  { fmt := .s, enc := fnZero a.w
    eff := modCore a.s a.n (fun c => modSh c a.sh (fun x => { x with mode := .ended })) }

def actSlotSel (a : At) : Action :=
  let k := sImm a.w % 4
  { fmt := .s, enc := fnZero a.w ++ cond (a.c.plans[k]?).isNone 3 64
    eff := modCore a.s a.n (fun c => { c with planPending := some k }) }

def actTrap (a : At) : Action :=
  { fmt := .s, enc := fnZero a.w, chk := [(0x0F, sImm a.w % 65536)], eff := a.s }

/-! ### Scalar operands -/

/-- The second source: IMM when FLAGS[24] is 1, else S2 (R106). -/
def src2 (a : At) : Nat := if fldFlag a.w 0 then sImm a.w else regRead a.r (sS2 a.w)
def src1 (a : At) : Nat := regRead a.r (sS1 a.w)

/-- Operand conditions of a two-source scalar instruction (R103, R104): a destination in the q file is refused. -/
def scalarConds (w : InstrWord) : Conds :=
  cond (specBad (sD w) || specFile (sD w) == 3) 3 32 ++ cond (specBad (sS1 w)) 3 40 ++
  cond (!fldFlag w 0 && specBad (sS2 w)) 3 48

/-- A scalar instruction that writes D on the next cycle (class K0). -/
def actScalar (a : At) (fnMax : Nat) (v : Nat) : Action :=
  { fmt := .s, enc := undefinedField (decide (fnMax < sFn a.w)) 56 ++ scalarConds a.w
    eff := pushReg a.s a (sD a.w) 1 v }

/-- FN of LOGIC: 0 AND, 1 OR, 2 XOR, 3 ANDN, on 64 bits. -/
def logicOf (fn x y : Nat) : Nat :=
  let a := BitVec.ofNat 64 x
  let b := BitVec.ofNat 64 y
  (if fn = 0 then a &&& b else if fn = 1 then a ||| b else if fn = 2 then a ^^^ b else a &&& ~~~b).toNat

/-- FN of SHF: 0 left, 1 logical right, 2 arithmetic right, on 64 bits; the count is S2 mod 64. -/
def scalarShift (fn x y : Nat) : Nat :=
  let a := BitVec.ofNat 64 x
  (if fn = 0 then a <<< (y % 64) else if fn = 1 then a >>> (y % 64) else a.sshiftRight (y % 64)).toNat

/-- FN of CMP: 0 EQ, 1 NE, 2 LT signed, 3 LT unsigned, 4 LE signed, 5 LE unsigned, on 64 bits. -/
def compareOf (fn x y : Nat) : Bool :=
  let a := BitVec.ofNat 64 x
  let b := BitVec.ofNat 64 y
  if fn = 0 then a == b else if fn = 1 then a != b else if fn = 2 then a.slt b else if fn = 3 then a.ult b
  else if fn = 4 then a.sle b else a.ule b

/-- ADD, SUB, MUL, LOGIC and SHF. -/
def actAdd (a : At) : Action := actScalar a 0 (fitResult (sD a.w) ((src1 a : Int) + src2 a))
def actSub (a : At) : Action := actScalar a 0 (fitResult (sD a.w) ((src1 a : Int) - src2 a))
def actMul (a : At) : Action := actScalar a 0 (fitResult (sD a.w) ((src1 a : Int) * src2 a))
def actLogic (a : At) : Action := actScalar a 3 (logicOf (sFn a.w) (src1 a) (src2 a))
def actShf (a : At) : Action := actScalar a 2 (scalarShift (sFn a.w) (src1 a) (src2 a))

/-- MOV: the source is IMM or S1; a q-file destination accepts a token copy or 0 (R104). -/
def actMov (a : At) : Action :=
  let imm := fldFlag a.w 0
  let v := if imm then sImm a.w else src1 a
  let q := specFile (sD a.w) == 3
  { fmt := .s
    enc := fnZero a.w ++ cond (specBad (sD a.w)) 3 32 ++ cond (!imm && specBad (sS1 a.w)) 3 40 ++
      cond (q && !(if imm then sImm a.w == 0 else specFile (sS1 a.w) == 3)) 3 32
    eff := pushReg a.s a (sD a.w) 1 v }

/-- CMP writes a predicate register. -/
def actCmp (a : At) : Action :=
  { fmt := .s
    enc := undefinedField (decide (5 < sFn a.w)) 56 ++ scalarConds a.w ++ cond (specFile (sD a.w) != 2) 3 32
    eff := pushReg a.s a (sD a.w) 1 (flag (compareOf (sFn a.w) (src1 a) (src2 a))) }

/-- SEL: FN[5:0] names the predicate. -/
def actSel (a : At) : Action :=
  { fmt := .s, enc := undefinedField (decide (63 < sFn a.w)) 56 ++ scalarConds a.w
    eff := pushReg a.s a (sD a.w) 1 (if bit a.r.p (sFn a.w % 64) then src1 a else src2 a) }

def execNop (i : Issue) (s : State) : Host.Outcome State Fault Refusal := issueWith 0x00 i s actNop
def execBr (i : Issue) (s : State) : Host.Outcome State Fault Refusal := issueWith 0x01 i s actBr
def execLoop (i : Issue) (s : State) : Host.Outcome State Fault Refusal := issueWith 0x02 i s actLoop
def execEndShuttle (i : Issue) (s : State) : Host.Outcome State Fault Refusal := issueWith 0x03 i s actEnd
def execSlotSel (i : Issue) (s : State) : Host.Outcome State Fault Refusal := issueWith 0x04 i s actSlotSel
def execTrap (i : Issue) (s : State) : Host.Outcome State Fault Refusal := issueWith 0x05 i s actTrap
def execAdd (i : Issue) (s : State) : Host.Outcome State Fault Refusal := issueWith 0x08 i s actAdd
def execSubtract (i : Issue) (s : State) : Host.Outcome State Fault Refusal := issueWith 0x09 i s actSub
def execMul (i : Issue) (s : State) : Host.Outcome State Fault Refusal := issueWith 0x0A i s actMul
def execLogic (i : Issue) (s : State) : Host.Outcome State Fault Refusal := issueWith 0x0B i s actLogic
def execShf (i : Issue) (s : State) : Host.Outcome State Fault Refusal := issueWith 0x0C i s actShf
def execMov (i : Issue) (s : State) : Host.Outcome State Fault Refusal := issueWith 0x0D i s actMov
def execCmp (i : Issue) (s : State) : Host.Outcome State Fault Refusal := issueWith 0x0E i s actCmp
def execSel (i : Issue) (s : State) : Host.Outcome State Fault Refusal := issueWith 0x0F i s actSel

end Sys2Proof.Machine
end

