-- ==== Sys2Proof/Machine/Selv.lean ====
section
/-! DEFINITION. The selvedge unit of a core (R584 to R594, R599, R600) and the declared horizon (R649). -/

namespace Sys2Proof.Machine

/-! ### The bytes of a descriptor -/

/-- Bits of a DENSE descriptor's valid extent. -/
def extentBits (d : Image) : Nat := validCount d * tyWidth (dType d)

/-! ### SELV.CFG and SELV.READ -/

def actSelvCfg (a : At) : Action :=
  let w := a.w
  let fn := sFn w
  { fmt := .s
    enc := undefinedField (decide (3 < fn)) 56 ++ cond (fldFlag w 0) 3 24 ++ cond (sD w != 0) 3 32 ++
      cond (sS1 w != 0) 3 40 ++ cond (sS2 w != 0) 3 48 ++
      (if fn = 2 then immZero (sImm w / 2 ^ 10) 74 3 else if fn = 3 then immZero (sImm w / 2 ^ 8) 72 3 else [])
    eff := push a.s a.n a.sh 1 none none (.selvCfg fn (BitVec.ofNat 64 (sImm w))) }

/-- Runs of a core that are queued or running (R589). -/
def liveRuns (c : Core) : List Nat := c.selv.runs.filter (fun e => decide (c.cycle < e))

/-- The status word of CORE_SELV_STATUS. -/
def selvStatus (c : Core) : Nat :=
  c.selv.width.toNat + flag c.selv.refin * 2 ^ 7 + flag c.selv.refout * 2 ^ 8 + flag c.selv.inv * 2 ^ 9 +
    c.selv.tally.toNat * 2 ^ 10 + flag c.selv.lastMismatch * 2 ^ 18 + min 4 (liveRuns c).length * 2 ^ 19

def actSelvRead (a : At) : Action :=
  let w := a.w
  { fmt := .s
    enc := undefinedField (decide (1 < sFn w)) 56 ++ cond (specBad (sD w) || specFile (sD w) != 0) 3 32
    eff := pushReg a.s a (sD w) 1 (if sFn w = 0 then a.c.selv.result.toNat else selvStatus a.c) }

/-! ### SELV.RUN -/

/-- The result of the unit's configuration over bytes (R585). -/
def selvCrc (x : Selv) (bs : List Byte) : Nat :=
  crcResult x.width.toNat x.poly.toNat x.init.toNat x.refin x.refout x.inv bs

/-- Whether the configuration is legal (R587). -/
def selvLegal (x : Selv) : Bool :=
  decide (8 ≤ x.width.toNat) && decide (x.width.toNat ≤ 64) && decide (x.poly.toNat < 2 ^ x.width.toNat) &&
    decide (x.init.toNat < 2 ^ x.width.toNat)

/-- Frames of an IVQ region as address and length. -/
def regionFrames (st : Tbl Byte) (d : Image) : List (Nat × Nat) :=
  (ivqFrames st (dType d) (hNseg (headerOf st d)) (metaAt st d)).map (fun x => (x.1, ivqLen (dType d) x.2))

/-- A frame's bytes with a tally put in. -/
def frameWith (st : Tbl Byte) (x : Nat × Nat) (tally : Option Byte) : List Byte :=
  let bs := readBytes st x.1 x.2
  match tally with
  | some t => bs.take 2 ++ [t] ++ bs.drop 3
  | none => bs

/-- A frame's result: every byte but CHECK (R588). -/
def frameResult (x : Selv) (bs : List Byte) : Nat := selvCrc x (bs.take 12 ++ bs.drop 16)

/-- What a run does: bytes read, result, events (kind, DETAIL), writes, final tally. -/
structure SelvOut where
  bytes : Nat
  result : Nat
  events : List (Nat × Nat) := []
  writes : List Poke := []
  tally : Option Byte := none

/-- The tally check of R593 on one frame: the new E and its events. -/
def tallyCheck (e t : Byte) (i : Nat) : Byte × List (Nat × Nat) :=
  let d := (t - e).toNat
  (t + 1, if d = 0 then [] else if d = 255 then [(0x62, i)] else [(0x63, d + i * 2 ^ 8)])

/-- SUB 2: every frame gets the next tally and its CHECK. -/
def selvStamp (st : Tbl Byte) (x : Selv) (frames : List (Nat × Nat)) : SelvOut :=
  let r := frames.foldl (fun (o : SelvOut × Byte) f =>
    let v := frameResult x (frameWith st f (some o.2))
    ({ o.1 with bytes := o.1.bytes + f.2, result := v
                writes := o.1.writes ++ [(8 * (f.1 + 2), 8, o.2.toNat), (8 * (f.1 + 12), 32, v)] }, o.2 + 1))
    ({ bytes := 0, result := 0 }, x.tally)
  { r.1 with tally := some r.2 }

/-- SUB 3: every frame's CHECK and tally are compared. -/
def selvVerify (st : Tbl Byte) (x : Selv) (frames : List (Nat × Nat)) : SelvOut :=
  let r := frames.zipIdx.foldl (fun (o : SelvOut × Byte) fi =>
    let f := fi.1
    let bs := frameWith st f none
    let v := frameResult x bs
    let (e, ev) := tallyCheck o.2 (bs.getD 2 0) fi.2
    ({ o.1 with bytes := o.1.bytes + f.2, result := v
                events := o.1.events ++ (if leVal ((bs.drop 12).take 4) = v then [] else [(0x61, fi.2)]) ++ ev }, e))
    ({ bytes := 0, result := 0 }, x.tally)
  { r.1 with tally := some r.2 }

/-- The outcome of a run over what DA, and under SUB 1 DX, hold at issue. -/
def selvOut (a : At) : SelvOut :=
  let st := a.c.store
  let x := a.c.selv
  let da := entryD a (tDA a.w)
  let sub := tSub a.w
  if sub = 2 then selvStamp st x (regionFrames st da)
  else if sub = 3 then selvVerify st x (regionFrames st da)
  else
    let bs := if dDense da then extentBytes st da else readBytes st (dBase da) (dStride da 1).toNat
    let v := selvCrc x bs
    let want := leVal ((extentBytes st (entryD a (tDX a.w))).take 8) % 2 ^ x.width.toNat
    { bytes := bs.length, result := v, events := if sub = 1 ∧ v ≠ want then [(0x60, v)] else [] }

/-- A fifth run holds the core until the oldest ends; the unit runs on meanwhile (R591). -/
def holdRun (cc : Nat) (c : Core) : Core :=
  let d := (liveRuns c).headD c.cycle - c.cycle
  let isSelv (f : Flight) : Bool := match f.effect with
    | .selv _ _ _ _ _ _ => true
    | _ => false
  { c with
    holds := { c.holds with until_ := max c.holds.until_ (cc + d) }
    selv := { c.selv with runs := (liveRuns c).drop 1 |>.map (fun e => e - d) }
    flight := c.flight.map (fun f => if isSelv f then { f with due := max c.cycle (f.due - d) } else f) }

/-- Conditions on DX of SUB 1 (R588). -/
def selvDxConds (a : At) : Conds :=
  needEntry a (tDX a.w) offDX ++ onEntry a (tDX a.w) (fun dx =>
    cond (dHandle dx != 0 || !dDense dx) 3 offDX ++ cond (decide (extentBits dx < 64)) 7 offDX)

def actSelvRun (a : At) : Action :=
  let w := a.w
  let st := a.c.store
  let sub := tSub w
  let x := a.c.selv
  let da := entryD a (tDA w)
  let dx := entryD a (tDX w)
  let out := selvOut a
  let start := max (a.c.cycle + 1) ((liveRuns a.c).getLast?.getD 0)
  let stop := start + ceilDiv out.bytes 64
  let bad := if dDense da then none else worstMeta (regionChecks st da)
  let units := anyUnits st da ++ (if sub = 1 then descUnits dx else [])
  { fmt := .t
    enc := undefinedField (tMode w != 0) offMode ++ undefinedField (decide (3 < sub)) offSub ++ immZero (tImm w) offImm 2 ++
      cond (fldFlag w 0 != (sub == 1)) 3 offDX
    chk := cond (!selvLegal x || (2 ≤ sub && decide (32 < x.width.toNat))) 3 offSub ++
      needEntry a (tDA w) offDA ++ onEntry a (tDA w) (fun da =>
        cond (dHandle da != 0 || (2 ≤ sub && dFmt da != fmIVQ)) 3 offDA ++
        cond (dDense da && extentBits da % 8 != 0) 7 offDA) ++
      (if sub = 1 then selvDxConds a else [])
    hold := if 4 ≤ (liveRuns a.c).length then some (holdRun a.s.cc) else none
    eff :=
      let s := readStore a units.dedup
      match bad with
      | some m => deferFault s a (stop + 1) 8 (metaDetail 0 m) (metaWord 0 m)
      | none =>
        let chk := unitsChk (getCore s a.n).storeChk units
        let s := modCore s a.n (fun c => { c with selv := { c.selv with runs := liveRuns c ++ [stop] } })
        let e : Effect := .selv (pcOf a.r a.sh) (BitVec.ofNat 64 out.result) out.events out.writes chk out.tally
        if out.writes.isEmpty then push s a.n a.sh (stop + 1 - a.c.cycle) none none e
        else pushStore s a (stop + 1 - a.c.cycle) none e }

def execSelvCfg (i : Issue) (s : State) : Host.Outcome State Fault Refusal := issueWith 0x80 i s actSelvCfg
def execSelvRun (i : Issue) (s : State) : Host.Outcome State Fault Refusal := issueWith 0x81 i s actSelvRun
def execSelvRead (i : Issue) (s : State) : Host.Outcome State Fault Refusal := issueWith 0x82 i s actSelvRead

/-- SELV_RUN_COMPLETE: every selvedge outcome whose landing cycle has come lands, with every other result due by then
(R589, R290). -/
def execSelvRunComplete (core : Fin 192) (s : State) : Host.Outcome State Fault Refusal := .next (landAll s core.val)

/-! ### PWR.HORIZON (R649) -/

/-- The program horizon gains a deadline: the declared cc at the CCLK period in force. -/
def actPwrHorizon (a : At) : Action :=
  let w := a.w
  let n := if fldFlag w 0 then sImm w else regRead a.r (sS1 w)
  { fmt := .s
    enc := fnZero w ++ cond (!fldFlag w 0 && specBad (sS1 w)) 3 40
    eff := modPart a.s a.p.low (fun p => { p with horizon := p.horizon ++ [a.s.pll + n * divider a.s.power.divNow] }) }

def execPwrHorizon (i : Issue) (s : State) : Host.Outcome State Fault Refusal := issueWith 0x88 i s actPwrHorizon

end Sys2Proof.Machine
end

