-- ==== Sys2Proof/Machine/Journal.lean ====
section
/-! DEFINITION. The step journal and the replay taps (R424 to R434, R562). -/

namespace Sys2Proof.Machine

/-! ### JNL.HASH and JNL.WRITE -/

/-- A DENSE operand of core store: any other is kind 0x03 (R424, R427). -/
def jnlOperand (a : At) : Conds :=
  needEntry a (tDA a.w) offDA ++ onEntry a (tDA a.w) (fun d => cond (dHandle d != 0 || !dDense d) 3 offDA)

/-- The cycle on which the folds issued so far end. -/
def foldEnd (c : Core) : Nat :=
  (c.flight.filterMap (fun f => match f.effect with
    | .jnlFold _ => some f.due
    | _ => none)).foldl max 0

/-- JNL.HASH folds DA's bytes over the cycles that it reads them, in issue order (R424, R425). -/
def actJnlHash (a : At) : Action :=
  let da := entryD a (tDA a.w)
  let bs := extentBytes a.c.store da
  let due := max (foldEnd a.c) (a.c.cycle + max 1 (ceilDiv bs.length 64))
  { fmt := .t
    enc := modeSubZero a.w
    chk := jnlOperand a
    eff := push (readStore a (descUnits da)) a.n a.sh (due - a.c.cycle) none none (.jnlFold bs) }

/-- JNL.WRITE joins the core to its next entry; logical core 0 gives 64 bytes (R426, R427). -/
def actJnlWrite (a : At) : Action :=
  let da := entryD a (tDA a.w)
  let first := a.lc == 0
  { fmt := .t
    enc := modeSubZero a.w
    chk := needEntry a (tDA a.w) offDA ++
      (if first then onEntry a (tDA a.w) (fun d => cond (dHandle d != 0 || !dDense d || extentBits d != 512) 3 offDA) else [])
    eff :=
      let s := if first then readStore a (descUnits da) else a.s
      modCore s a.n (fun c => { c with
        jnlPend := c.jnlPend ++ [(c.nextOrder, if first then extentBytes a.c.store da else [])] }) }

/-! ### JOURNAL_ENTRY_COMPLETE -/

/-- Rotate a 64-bit word left. -/
def rotl64 (x : Dword) (k : Nat) : Dword := x.rotateLeft (k % 64)

/-- INPUT_HASH (R428). -/
def inputHash (s : State) (p : Part) : Dword :=
  p.map.zipIdx.foldl (fun h x => h ^^^ rotl64 (getCore s x.1).jnlHash x.2) 0

/-- Whether a replay runs on a partition (R431). -/
def replaying (s : State) (p : Part) : Bool := bit (getQuad s p.low).ctxMode 1

/-- Whether a core's oldest JNL.WRITE waits for nothing: every JNL.HASH before it has folded. -/
def jnlReady (c : Core) : Bool :=
  match c.jnlPend with
  | [] => false
  | (k, _) :: _ => !c.flight.any (fun f => match f.effect with
    | .jnlFold _ => decide (f.order < k)
    | _ => false)

/-- The 128 bytes of the entry that completes (R428). -/
def entryBytes (s : State) (p : Part) (image : List Byte) : List Byte :=
  let pairing := (partQuads p).any (pairActive s)
  let flags := p.jnlFlags + flag pairing * 2 ^ 4 + flag (replaying s p) * 2 ^ 5
  image.take 16 ++ leBytes 8 (inputHash s p).toNat ++ leBytes 4 (bits (getQuad s p.low).maskGen 0 32) ++ leBytes 4 flags ++
  leBytes 4 (min p.jnlFails 0xFFFFFFFF) ++ leBytes 4 (min p.jnlRepeats 0xFFFFFFFF) ++ leBytes 8 p.jnlStart ++
  leBytes 8 (deviceTime s) ++ leBytes 8 0 ++ (image.drop 16).take 48 ++ leBytes 16 0

/-- Where the next entry lies: the journal ring, or the replay ring behind it (R426, R431). -/
def entryAddr (s : State) (p : Part) : Nat :=
  let q := getQuad s p.low
  bits q.jnlBase 0 42 + (if replaying s p then 0x80000 else 0) + 128 * (q.jnlIndex.toNat % 4096)

/-- One starved-gradient counter at the end of a step (R297): FLUSHED and TOTAL are cleared; also whether RUN reaches
STEPS for the first time since it was 0 (R298). -/
def starveCounter (c : Core) (i : Nat) : Core × Bool :=
  let total := (tget 0 c.starveTotal i).toNat
  let w := tget 0 c.starveFlush i
  if total = 0 then (c, false)
  else
    let run := if bits c.starveCfg 0 8 * total < bits w 0 48 * 256 then min 1023 (bits w 48 10 + 1) else 0
    let ev := decide (0 < run) && decide (bits c.starveCfg 16 10 ≤ run) && !bit c.starveSeen i
    ({ c with starveTotal := tset 0 c.starveTotal i 0
              starveFlush := tset 0 c.starveFlush i (BitVec.ofNat 64 (run * 2 ^ 48))
              starveSeen := setBits c.starveSeen i 1 (flag (decide (0 < run) && (ev || bit c.starveSeen i))) }, ev)

/-- Every counter of a core is evaluated; each event is set, recorded and raises vector 4r + 2 (R297, R298, R534). -/
def starveCore (low : Nat) (s : State) (n : Nat) : State :=
  (List.range 64).foldl (fun s i =>
    let (c, ev) := starveCounter (getCore s n) i
    let s := setCore s n c
    if ev then
      let s := noteW1c (modCore s n (fun c => { c with starveEvent := setBits c.starveEvent i 1 1 })) (corePage n 0x80) i
      let s := record s (coreRec 0x1C n i)
      partVector (modPart s low (fun p => { p with jnlFlags := p.jnlFlags ||| 8 })) low 2
    else s) s

/-- The entry is written, the index rises, the hash registers and the step's tallies start anew; the last entry of a
replay stops the context (R426, R428, R431). -/
def finishEntry (s : State) (p : Part) : State :=
  let s := p.map.foldl (starveCore p.low) s
  let p := (partAt s p.low).getD p
  let image := ((getCore s (p.map.headD 0)).jnlPend.headD (0, [])).2
  let s := writeMemBytes s .lpddr (entryAddr s p) (entryBytes s p image)
  let last := replaying s p && p.replayLeft == 1
  let s := p.map.foldl (fun s n => modCore s n (fun c => { c with jnlHash := 0, jnlPend := c.jnlPend.drop 1 })) s
  let s := modPartQuads s p (fun q => { q with jnlIndex := q.jnlIndex + 1 })
  modPart s p.low (fun x => { x with
    jnlStart := deviceTime s
    jnlFlags := 0
    jnlFails := 0
    jnlRepeats := 0
    jnlStep := BitVec.ofNat 64 (leVal (image.take 8))
    replayLeft := x.replayLeft - 1
    stopping := x.stopping || last })

/-- JOURNAL_ENTRY_COMPLETE: every logical core has issued its JNL.WRITE and every earlier fold is done. A line that the
host holds is invalidated first (R514). -/
def execJournalEntryComplete (q : Fin 8) (s0 : State) : Host.Outcome State Fault Refusal :=
  match partOf s0 q.val with
  | none => .next s0
  | some p =>
    let s := p.map.foldl landAll s0
    if p.reset.isSome || p.map.isEmpty || !(p.map.all (fun n => jnlReady (getCore s n))) then .next s
    else
      let addr := entryAddr s p
      let lines := heldLines s .lpddr [addr / 64, addr / 64 + 1]
      .next (if lines.isEmpty then finishEntry s p else snoopLines s lines)

/-! ### JNL.TAP -/

/-- A tap-table entry (R432): offset, handle and limit. -/
structure Tap where
  offset : Nat
  handle : Nat
  limit : Nat
  deriving DecidableEq, Repr

/-- The tier and the byte of tap t's entry; `none` outside the table. A table of another module is outside as well. -/
def tapPlace (s : State) (p : Part) (t : Nat) : Option (Tier × Nat) :=
  match allocAt s p (bits (getQuad s p.low).replayTaps 0 16) with
  | none => none
  | some al =>
    if al.length < 16 * t + 16 ∨ al.module ≠ ownIndex s then none else some (tierOf al.tier, al.start + 16 * t)

/-- The device reads the entry's unit for its own use, and finds it poisoned (R194). -/
def tapRead (s : State) (p : Part) (t : Nat) : State :=
  match tapPlace s p t with
  | some (tier, at_) => findPoison s tier p.low (at_ / 64)
  | none => s

/-- Tap t of the table; `none` outside it, and where its unit is poisoned (assumption 81). -/
def tapOf (s : State) (p : Part) (t : Nat) : Option Tap :=
  match tapPlace s p t with
  | none => none
  | some (tier, at_) =>
    if isPoisoned s tier (at_ / 64) then none
    else
      let m := tierMem s tier
      let w0 := leVal (readBytes m at_ 8)
      let w1 := leVal (readBytes m (at_ + 8) 8)
      some { offset := w0 % 2 ^ 48, handle := w0 / 2 ^ 48, limit := w1 % 2 ^ 32 }

/-- Count bytes dropped. -/
def dropTap (s : State) (p : Part) (n : Nat) : State :=
  if n = 0 then s else modPartQuads s p (fun q => { q with replayDrop := q.replayDrop + BitVec.ofNat 64 n })

/-- JNL.TAP under REPLAY: the bytes go to OFFSET + cursor of the tap's allocation, and the cursor advances; what lies
beyond LIMIT, or has nowhere to go, is dropped (R432). They are read as they leave, which for a provisional source is when
it has resolved (R433, R562). -/
def tapEffect (a : At) : State :=
  let t := tImm a.w % 65536
  let da := entryD a (tDA a.w)
  let len := extentLen da
  let s := tapRead a.s a.p t
  let cur := tget 0 a.p.cursors t
  let target : Option (Tap × Alloc) := (tapOf s a.p t).bind (fun tap => (allocAt s a.p tap.handle).map (fun al => (tap, al)))
  match target with
  | none => dropTap s a.p len
  | some (tap, al) =>
    let n := if al.readonly then 0 else min len (min (tap.limit - cur) (al.length - (tap.offset + cur)))
    let s := modPart s a.p.low (fun p => { p with cursors := tset 0 p.cursors t (cur + len) })
    let s := dropTap s a.p (len - n)
    if n = 0 then s
    else
      let c := getCore s a.n
      let hold := unitsProv c.storeChk (descUnits da) || mustHold (shOf c a.sh) c.nextAccess false
      let level := if al.module = ownIndex s then 2 else 3
      let off := al.start + tap.offset + cur
      let kind : AccessKind := .tap da tap.handle off n
      if hold then (newAccess s a.n a.sh level kind false true []).1
      else
        let s := sramFound s a.n (fun r => { r with shuttle := shIdx a.sh, opcode := fldOp a.w, pc := pcOf a.r a.sh })
          (sramOf a.ups) (descUnits da) []
        let fs := tapFrames s a.p a.n a.sh da al off n
        sendAll (newAccess (tapDrop s a.n al off n) a.n a.sh level kind false false fs).1 fs

def actJnlTap (a : At) : Action :=
  { fmt := .t
    enc := modeSubZero a.w
    chk := jnlOperand a
    eff := if replaying a.s a.p then tapEffect a else a.s }

def execJnlHash (i : Issue) (s : State) : Host.Outcome State Fault Refusal := issueWith 0x90 i s actJnlHash
def execJnlWrite (i : Issue) (s : State) : Host.Outcome State Fault Refusal := issueWith 0x91 i s actJnlWrite
def execJnlTap (i : Issue) (s : State) : Host.Outcome State Fault Refusal := issueWith 0x92 i s actJnlTap

end Sys2Proof.Machine
end

