-- ==== Sys2Proof/Machine/Update.lean ====
section
/-! DEFINITION. The optimizer update: UPD and UPD.CFG (R118, R292 to R295, R412 to R423, R567). -/

namespace Sys2Proof.Machine

/-- The mode condition of R118: only the U shuttle issues these. -/
def onlyU (a : At) : Conds := cond (a.sh != .u) 0x0D (fldOp a.w)

/-! ### Parameter slots (R412) -/

/-- UPD and UPD.CFG name a slot 0 to 3 with DX and FLAGS[24] (R118, R716). -/
def slotEnc (w : InstrWord) : Conds := cond (decide (3 < tDX w) || !fldFlag w 0) 3 offDX

def actUpdCfg (a : At) : Action :=
  let w := a.w
  let da := entryD a (tDA w)
  { fmt := .t
    enc := modeSubZero w ++ slotEnc w
    chk := spanConds a (tDA w) offDA 0 128 ++ onlyU a
    eff := push (readStore a (spanUnits (dBase da) 128)) a.n a.sh (latency a.p 4 3) none none
      (.paramSlot (tDX w) (readBytes a.c.store (dBase da) 128)) }

/-- A parameter block by its fields. -/
structure Params where
  seed : Dword
  stepNo : Dword
  lra : Word
  sbc2 : Word
  beta1 : Word
  beta2 : Word
  eps : Word
  lrw : Word
  clip : Word
  tensor : Nat
  tbase : Nat
  estart : Nat
  goff : Nat
  ostart : Nat
  list : Nat
  nsc : Nat
  deriving DecidableEq, Repr

def paramsOf (bs : List Byte) : Params :=
  let d (k : Nat) : Dword := BitVec.ofNat 64 (wordAt bs k)
  let lo (k : Nat) : Word := BitVec.ofNat 32 (wordAt bs k)
  let hi (k : Nat) : Word := BitVec.ofNat 32 (wordAt bs k / 2 ^ 32)
  { seed := d 0, stepNo := d 1, lra := lo 2, sbc2 := hi 2, beta1 := lo 3, beta2 := hi 3, eps := lo 4, lrw := hi 4,
    clip := lo 5, tensor := bits (d 5) 32 16, tbase := bits (d 6) 0 48, estart := bits (d 7) 0 48,
    goff := bits (d 8) 0 48, ostart := bits (d 9) 0 48, list := bits (d 9) 48 8, nsc := bits (d 9) 56 8 }

/-- The slot that DX names, if it has been written. -/
def slotOf (a : At) : Option Params := ((tget none a.c.params (tDX a.w)).map paramsOf)

/-! ### The moments (R270, R421) -/

/-- A moment as its row, position and scale index give it. -/
def momentAt (st : Tbl Byte) (val : Image) (row i : Nat) (scale : Nat) : Exact :=
  scaled (decodeTy tyE4M3 (readElem st val [i, row])) scale

/-- One block's scale and values (R421). -/
def storeBlock (xs : List (Nat × Exact)) : Nat × List (Nat × Nat) :=
  let s := gravScale 448 0 (xs.map (fun x => x.2))
  (s, xs.map (fun x => (x.1, if s = 255 then 0x7F
    else (convert .rne .saturate fmtE4M3 (scaleE x.2 (127 - (s : Int)))).bits)))

/-- A value aimed at a position of a tensor: dropped in padding (R150). -/
def pokeAt (d : Image) (pos : List Nat) (width v : Nat) : List Poke :=
  if inValid d 0 pos then [(elemBit d pos, width, v)] else []

/-- A row of moments for the valid positions, as elements of the value and scale tensors: row 0 is m, row 1 is r. A block
without a valid position is not written. -/
def storeRow (val sc : Image) (row : Nat) (xs : List (Nat × Exact)) : List Poke :=
  (List.range 32).flatMap (fun j =>
    let blk := xs.filter (fun x => x.1 / 8 == j)
    if blk.isEmpty then []
    else
      let (s, vs) := storeBlock blk
      pokeAt sc [32 * row + j] 8 s ++ vs.flatMap (fun x => pokeAt val [x.1, row] 8 x.2))

/-! ### SUB 0 and SUB 1 (R414 to R420) -/

/-- The module's result at an element of a bucket (R471); `none` beyond the bucket. -/
def resultAt (s : State) (p : Part) (b : Half) (e : Nat) : Option Word :=
  match bucketRec p b with
  | none => none
  | some r =>
    if e / r.elems < caskCount p then
      (bucketAt s { k := caskOf p (e / r.elems), low := p.low, b := b }).map (fun x => tget 0 x.results (e % r.elems))
    else none

/-- The clip factor (R418). -/
def clipFactor (_s : State) (p : Part) (b : Half) (clip : Word) : Word :=
  let n := ((groupOf p b).bind (fun g => g.final)).getD 0
  if clip = inf32 false || (!isNan32 n && !isNan32 clip && leE (val32 n) (val32 clip)) then 0x3F800000 else div32 clip n

/-- One weight's update with each operation rounded and taken left to right (R419, R420): m′, r′ (`none` in SUB 1), Δ, and
the operands of its additions in order, the last one adding Δ to the weight (R544). -/
structure UpdTrace where
  m : Exact
  r : Option Exact
  delta : Word
  adds : List (Word × Word)
  deriving DecidableEq, Repr

def updateTrace (q : Params) (sub : Nat) (c grad w : Word) (m r : Exact) : UpdTrace :=
  let one : Word := 0x3F800000
  let neg (x : Word) : Word := x ^^^ 0x80000000
  let mulX (x : Word) (y : Exact) : Word := rne32 (mulE (val32 x) y)
  let g := mul32 c grad
  if sub = 0 then
    let m1 := mulX q.beta1 m
    let m2 := mul32 (sub32 one q.beta1) g
    let m' := add32 m1 m2
    let v1 := rne32 (mulE (val32 (mulX q.beta2 r)) r)
    let v2 := mul32 (mul32 (sub32 one q.beta2) g) g
    let r' := sqrt32 .rne (val32 (add32 v1 v2))
    let d1 := mul32 r' q.sbc2
    let k := div32 m' (add32 d1 q.eps)
    let a1 := neg (mul32 q.lra k)
    let a2 := mul32 q.lrw w
    { m := val32 m', r := some (val32 r'), delta := sub32 a1 a2
      adds := [(one, neg q.beta1), (m1, m2), (one, neg q.beta2), (v1, v2), (d1, q.eps), (a1, neg a2), (w, sub32 a1 a2)] }
  else
    let m1 := mulX q.beta1 m
    let m' := add32 m1 g
    let a1 := neg (mul32 q.lra m')
    let a2 := mul32 q.lrw w
    { m := val32 m', r := none, delta := sub32 a1 a2, adds := [(m1, g), (a1, neg a2), (w, sub32 a1 a2)] }

/-- The new moments and the update of one weight: m′, r′ (`none` in SUB 1), Δ. -/
def updateOf (q : Params) (sub : Nat) (c grad w : Word) (m r : Exact) : Exact × Option Exact × Word :=
  let t := updateTrace q sub c grad w m r
  (t.m, t.r, t.delta)

/-- The weight written for x = w + Δ (R292, R293); a zero keeps the sign that both its terms have. -/
def newWeight (f : FpFmt) (w delta : Word) (rho : Nat) : Nat :=
  if bits w 0 31 = 0 ∧ bits delta 0 31 = 0 then
    (if neg32 w && neg32 delta then 2 ^ (f.frac + f.expBits) else 0)
  else stochastic f (addE (val32 w) (val32 delta)) rho

/-- Local index of the weight at DO's base (R414); `none` when BASE is no whole number of weights from TBASE. -/
def weightIndex (q : Params) (d : Image) : Option Nat :=
  let wb := tyWidth (dType d) / 8
  if dBase d < q.tbase ∨ (dBase d - q.tbase) % wb ≠ 0 then none else some ((dBase d - q.tbase) / wb)

/-- A gradient beyond the bucket's result, for which the manual states no value: a free value of the step, the bucket and the
element, the same in a replay of the step (R434, assumption 29). -/
def gradAt (s : State) (p : Part) (b : Half) (step : Dword) (e : Nat) : Word :=
  (resultAt s p b e).getD (Config.freeWord (2 ^ 200 + step.toNat + 2 ^ 64 * (b.toNat + 2 ^ 16 * e)))

/-- One weight of SUB 0 or SUB 1 at its position: its value, and what the update makes of it. -/
def weightTrace (a : At) (q : Params) (i : Nat) : Word × UpdTrace :=
  let w := a.w
  let b := immBucket w
  let d := entryD a (tDO w)
  let da := entryD a (tDA w)
  let db := entryD a (tDB w)
  let st := a.c.store
  let scale (k : Nat) : Nat := readElem st db [k]
  let wt := widen (dType d) (readElem st d [i])
  let e := q.goff + (weightIndex q d).getD 0 + i
  (wt, updateTrace q (tSub w) (clipFactor a.s a.p b q.clip) (gradAt a.s a.p b q.stepNo e) wt
    (momentAt st da 0 i (scale (i / 8))) (momentAt st da 1 i (scale (32 + i / 8))))

/-- The failed comparisons of the additions of SUB 0 and SUB 1 (R544). -/
def updFailures (a : At) (q : Params) : List Failure :=
  vecFailures a (latency a.p 6 5) (fun j =>
    if tSub a.w = 2 ∨ dValid (entryD a (tDO a.w)) 0 ≤ j then []
    else (weightTrace a q j).2.adds.map (fun x => (val32 x.1, val32 x.2)))

/-- What SUB 0 and SUB 1 write. -/
def updatePokes (a : At) (q : Params) : List Poke :=
  let w := a.w
  let d := entryD a (tDO w)
  let da := entryD a (tDA w)
  let db := entryD a (tDB w)
  let e0 := (weightIndex q d).getD 0
  let outs := (List.range (dValid d 0)).map (fun i =>
    let (wt, u) := weightTrace a q i
    let rho := philoxRho q.seed (q.estart + e0 + i) q.tensor q.stepNo
    (i, BitVec.ofNat 32 (newWeight ((tyFp (dType d)).getD fmtBF16) wt u.delta rho), u.m, u.r))
  let ws := detectVals (updFailures a q) (outs.map (fun x => x.2.1))
  ws.zipIdx.map (fun x => (elemBit d [x.2], 16, x.1.toNat % 2 ^ 16)) ++
  storeRow da db 0 (outs.map (fun x => (x.1, x.2.2.1))) ++
  (if tSub w = 0 then storeRow da db 1 (outs.map (fun x => (x.1, x.2.2.2.getD Exact.zero))) else [])

/-! ### SUB 2 (R422, R423) -/

/-- The old moments of a new position, and whether its list entry misses the window. -/
def remapAt (a : At) (q : Params) (row i : Nat) : Exact × Bool :=
  let da := entryD a (tDA a.w)
  let db := entryD a (tDB a.w)
  let st := a.c.store
  let j := readIndex st (entryD a q.list) i
  let o := j - (q.ostart : Int)
  if j = -1 then (Exact.zero, false)
  else if 0 ≤ o ∧ o < dSize da 0 then
    let k := o.toNat
    (momentAt st da row k (readElem st db [32 * row + k % 256 / 8, k / 256]), false)
  else (Exact.zero, true)

def remapPokes (a : At) (q : Params) : List Poke × Nat :=
  let d := entryD a (tDO a.w)
  let sc := entryD a q.nsc
  let is := List.range (dValid d 0)
  (storeRow d sc 0 (is.map (fun i => (i, (remapAt a q 0 i).1))) ++ storeRow d sc 1 (is.map (fun i => (i, (remapAt a q 1 i).1))),
   (is.filter (fun i => (remapAt a q 0 i).2)).length)

/-! ### UPD -/

/-- Handle and shape faults are kind 0x03, type faults kind 0x06 (R413). -/
def updOperand (a : At) (k off ty : Nat) (shape : Image → Bool) : Conds :=
  needEntry a k off ++ onEntry a k (fun d =>
    cond (dHandle d != 0 || !shape d) 3 off ++ cond (!dDense d || dType d != ty) 6 off)

/-- The shape of moment values: 256 × 2. -/
def momentShape (d : Image) : Bool := dRank d == 2 && dSize d 0 == 256 && dSize d 1 == 2

def updConds (a : At) : Conds :=
  let w := a.w
  cond (slotOf a).isNone 3 offDX ++
  (if tSub w = 2 then
    updOperand a (tDO w) offDO tyE4M3 momentShape ++
    updOperand a (tDA w) offDA tyE4M3 (fun d => dRank d == 2 && dSize d 0 % 256 == 0 && dSize d 1 == 2) ++
    updOperand a (tDB w) offDB tyScale (fun d => dRank d == 2 && dSize d 0 == 64 &&
      dSize d 1 == dSize (entryD a (tDA w)) 0 / 256) ++
    (match slotOf a with
    | some q =>
      updOperand a q.list offDX tyInt32 (fun d => dRank d == 1 && dValid d 0 == 256) ++
      updOperand a q.nsc offDX tyScale (fun d => dRank d == 1 && dSize d 0 == 64)
    | none => [])
  else
    needEntry a (tDO w) offDO ++ onEntry a (tDO w) (fun d =>
      cond (dHandle d != 0 || dRank d != 1 || dSize d 0 != 256) 3 offDO ++
      cond (!dDense d || (dType d != tyBF16 && dType d != tyFP16)) 6 offDO ++
      (match slotOf a with
      | some q => if dType d = tyBF16 ∨ dType d = tyFP16 then cond (weightIndex q d).isNone 3 offDO else []
      | none => [])) ++
    updOperand a (tDA w) offDA tyE4M3 (fun d => momentShape d && dPad d 0 == dPad (entryD a (tDO w)) 0) ++
    updOperand a (tDB w) offDB tyScale (fun d => dRank d == 1 && dSize d 0 == 64) ++
    cond (bucketRec a.p (immBucket w)).isNone 0x0E (immBucket w).toNat) ++
  onlyU a

/-- The descriptors of a UPD's operands. -/
def updOperands (a : At) : List Image :=
  [entryD a (tDO a.w), entryD a (tDA a.w), entryD a (tDB a.w)] ++
  (if tSub a.w = 2 then match slotOf a with
    | some q => [entryD a q.list, entryD a q.nsc]
    | none => []
  else [])

/-- Those that a UPD reads: SUB 2 only writes its DO and its new scales. -/
def updReads (a : At) : List Image :=
  if tSub a.w = 2 then
    [entryD a (tDA a.w), entryD a (tDB a.w)] ++ (match slotOf a with
      | some q => [entryD a q.list]
      | none => [])
  else updOperands a

/-- Core-store units of the operands that are PROV. -/
def provUnits (a : At) : List Nat :=
  (operandUnits (updOperands a)).filter (fun u => match tget Chk.clear a.c.storeChk u with
    | .prov _ => true
    | _ => false)

/-- Set flag bits of the step's journal entry (R428). -/
def jnlFlag (s : State) (p : Part) (f : Nat) : State := modPart s p.low (fun p => { p with jnlFlags := p.jnlFlags ||| f })

/-- A UPD that writes nothing because R415 or R567 blocks it. -/
def blockUpd (a : At) (s : State) (flagBit : Nat) : State :=
  let b := if tSub a.w = 2 then 0 else (immBucket a.w).toNat
  let s := jnlFlag (bumpCore s a.n ctrUpdBlocked 1) a.p flagBit
  partVector (record s { coreRec 0x18 a.n b with
    engine := 2, shuttle := shIdx a.sh, opcode := fldOp a.w, pc := pcOf a.r a.sh }) a.p.low 2

/-- Whether bucket b's update is skipped: its norm is non-finite or it is withheld (R417). -/
def updSkips (s : State) (p : Part) (b : Half) : Bool :=
  (caskBuckets s p b).any (fun x => x.nonfin || x.withheldMark) ||
  (match groupOf p b with
  | some g => g.nonfin
  | none => false)

def updEffect (a : At) : State :=
  let w := a.w
  let b := immBucket w
  let s := readStore a (operandUnits (updReads a))
  let chk := operandsChk s a.n (updOperands a)
  let out (s : State) (fails : List Failure) (elems : List Poke) : State :=
    pushStore (detections s a.n fails) a (latency a.p 6 5) none (.store elems (detectChk fails .clear))
  match slotOf a with
  | none => s
  | some q =>
    if tSub w ≠ 2 ∧ !a.c.verdictBuckets.contains b then blockUpd a s 2
    else if chk = .failed then blockUpd a s 0
    else if tSub w = 2 then
      let (elems, misses) := remapPokes a q
      let s := if misses = 0 then s
        else record (bumpCore s a.n ctrRemapMiss misses) { coreRec 0x1E a.n misses with
          engine := 2, shuttle := shIdx a.sh, opcode := fldOp w, pc := pcOf a.r a.sh }
      out s [] elems
    else if updSkips s a.p b then partVector (jnlFlag (bumpCore s a.n ctrUpdSkipped 1) a.p 1) a.p.low 2
    else out s (updFailures a q) (updatePokes a q)

def actUpd (a : At) : Action :=
  let w := a.w
  { fmt := .t
    enc := modeZero w ++ undefinedField (decide (2 < tSub w)) offSub ++ slotEnc w ++
      immReserved w (if tSub w = 2 then maskOf 0 32 else maskOf 16 16)
    eng := some vecUse
    chk := updConds a
    hold := if (provUnits a).isEmpty then none
      else some (fun c => { c with holds := { c.holds with updUnits := provUnits a } })
    eff := updEffect a }

def execUpd (i : Issue) (s : State) : Host.Outcome State Fault Refusal := issueWith 0x60 i s actUpd
def execUpdCfg (i : Issue) (s : State) : Host.Outcome State Fault Refusal := issueWith 0x61 i s actUpdCfg

end Sys2Proof.Machine
end

