-- ==== Sys2Proof/Machine/Mask.lean ====
section
/-! DEFINITION. The mask instructions CULL, GERMINATE and MASK.COMMIT (R376 to R406). -/

namespace Sys2Proof.Machine

/-! ### Encoding and units (R378, R379) -/

def kK (w : InstrWord) : Nat := bits w offImm 12
def kBudget (w : InstrWord) : Nat := bits w (offImm + 12) 20
def kUnit (w : InstrWord) : Bool := bit w offMode

/-- Formats that CULL, GERMINATE and MASK.COMMIT accept (R328). -/
def cullFmt (d : Image) : Bool := decide (1 ≤ dFmt d) && decide (dFmt d ≤ 6)

/-- Whether UNIT is refused for a format (R378). -/
def unitRefused (d : Image) (unit : Bool) : Bool :=
  let f := dFmt d
  if f = fmNM ∨ f = fmNMT then !unit else if f = fmBSR then false else unit

/-- A position of a region's pattern: place in stored order, row, column, the raw value and the input index it comes
from (none for a grown position). -/
structure Spot where
  key : Nat
  row : Nat
  col : Nat
  raw : Nat
  origin : Option Nat
  deriving DecidableEq, Repr

/-- The place of a position in the stored order of a format. -/
def spotKey (d : Image) (h : Header) (row col : Nat) : Nat :=
  let f := dFmt d
  if f = fmBSR then ((row / 16) * (dSize d 0 / 16) + col / 16) * 256 + row % 16 * 16 + col % 16
  else if f = fmCSRT then
    ((row / 128 * csrtTC h d + col / csrtTileC h) * 128 + row % 128) * 2 ^ 16 + col % csrtTileC h
  else if f = fmPAIR then
    let k := if hP1 h = 0 then col else row
    let o := if hP1 h = 0 then row else col
    (pairBucket (hP0 h) k * 2 ^ 24 + k) * 2 ^ 24 + o
  else row * dSize d 0 + col

/-- The stored positions of a region in stored order. -/
def spotsOf (st : Tbl Byte) (d : Image) : List Spot :=
  (storedOf st d).zipIdx.map (fun (x : Stored × Nat) =>
    { key := spotKey d (headerOf st d) x.1.row x.1.col, row := x.1.row, col := x.1.col,
      raw := peek st x.1.addr (tyWidth (dType d)), origin := some x.2 })

/-- The value of a position as R310 reads it. -/
def spotVal (d : Image) (x : Spot) : Exact :=
  if inValid d 0 [x.col, x.row] then decodeTy (dType d) x.raw else Exact.zero

/-- The counting units of a region (R378): each as a test on a row and column. BSR16 counts rows or stored blocks. -/
def unitsIn (d : Image) (h : Header) (unit : Bool) (blocks : List (Nat × Nat)) : List (Nat → Nat → Bool) :=
  let f := dFmt d
  if f = fmNM then
    (List.range (dSize d 1)).flatMap (fun r => (List.range (dSize d 0 / hP1 h)).map (fun g =>
      fun row col => row == r && col / hP1 h == g))
  else if f = fmNMT then
    (List.range (dSize d 1 / hP1 h)).flatMap (fun b => (List.range (dSize d 0 / hP1 h)).map (fun g =>
      fun row col => row / hP1 h == b && col / hP1 h == g))
  else if unit then blocks.map (fun x => fun row col => row / 16 == x.1 && col / 16 == x.2)
  else (List.range (dSize d 1)).map (fun r => fun row _ => row == r)

/-- The stored blocks of a BSR16 region as block row and block column, in stored order (R311). -/
def bsrBlocks (st : Tbl Byte) (d : Image) : List (Nat × Nat) :=
  if dFmt d = fmBSR then
    (List.range (bsrRows d)).flatMap (fun b => (runOf st (metaAt st d) b).map (fun j => (b, rd32 st (bsrColAt st d) j)))
  else []

/-! ### Choosing positions (R388, R389, R393, R394) -/

/-- The class and magnitude of a CULL key (R388): finite, infinite, NaN. -/
def cullKey (x : Exact) : Nat × Exact :=
  match x with
  | .num m e => (0, .num m.natAbs e)
  | .nonfin b => (if isNan32 b then 2 else 1, Exact.zero)

def keyLt (a b : Nat × Exact) : Bool := decide (a.1 < b.1) || (a.1 == b.1 && ltE a.2 b.2)

/-- Stable insertion by a strict order. -/
def insBy {α : Type} (lt : α → α → Bool) (x : α) : List α → List α
  | [] => [x]
  | y :: t => if lt y x then y :: insBy lt x t else x :: y :: t

def sortBy {α : Type} (lt : α → α → Bool) (l : List α) : List α := l.foldr (insBy lt) []

/-- The largest finite FP32 value. -/
def maxE32 : Exact := .num (maxFinite fmtFP32).1 (maxFinite fmtFP32).2

/-- The key of R389. -/
def matchKey (x : Exact) : Exact :=
  match x with
  | .num m e => minE (.num m.natAbs e) maxE32
  | .nonfin _ => maxE32

/-- The adjusted score of R394. -/
def adjusted (x : Exact) : Exact :=
  match x with
  | .num _ _ => if leE x Exact.zero then Exact.zero else x
  | .nonfin b => if isNan32 b || neg32 b then Exact.zero else maxE32

/-- The perfect matching that is best by total key among those of the offered positions, the lexicographically least list
of columns among equals (R389, R394): total and columns for rows r to r + n − 1. -/
def bestMatching (offer : Nat → Nat → Option Exact) (better : Exact → Exact → Bool) (m : Nat) :
    Nat → Nat → List Nat → Option (Exact × List Nat)
  | 0, _, _ => some (Exact.zero, [])
  | n + 1, r, used =>
    (List.range m).foldl (fun best c =>
      if used.contains c then best
      else match offer r c, bestMatching offer better m n (r + 1) (c :: used) with
        | some k, some (t, cs) =>
          let total := addE k t
          (match best with
            | none => some (total, c :: cs)
            | some (b, _) => if better total b then some (total, c :: cs) else best)
        | _, _ => best) none

/-- The positions (row, column) that k rounds of matchings take in an M × M block at (r0, c0). -/
def matchRounds (value : Nat → Nat → Option Exact) (better : Exact → Exact → Bool) (m r0 c0 : Nat) :
    Nat → List (Nat × Nat) → List (Nat × Nat)
  | 0, taken => taken
  | k + 1, taken =>
    let offer (r c : Nat) : Option Exact := if taken.contains (r0 + r, c0 + c) then none else value (r0 + r) (c0 + c)
    match bestMatching offer better m m 0 [] with
    | some (_, cs) => matchRounds value better m r0 c0 k (taken ++ cs.zipIdx.map (fun x => (r0 + x.2, c0 + x.1)))
    | none => taken

/-- The blocks of an NMT region by first row and column. -/
def nmtBlocks (d : Image) (m : Nat) : List (Nat × Nat) :=
  (List.range (dSize d 1 / m)).flatMap (fun b => (List.range (dSize d 0 / m)).map (fun g => (b * m, g * m)))

/-- What a mask instruction derives: the positions of the new pattern in stored order and the shortfall (R395). -/
structure Derived where
  spots : List Spot
  short : Nat

/-- CULL (R388, R389). -/
def cullSpots (d : Image) (h : Header) (unit : Bool) (k : Nat) (blocks : List (Nat × Nat)) (sp : List Spot) : Derived :=
  if dFmt d = fmNMT then
    let value (r c : Nat) : Option Exact := (sp.find? (fun x => x.row == r && x.col == c)).map (fun x => matchKey (spotVal d x))
    let gone := (nmtBlocks d (hP1 h)).flatMap (fun b => matchRounds value (fun x y => ltE x y) (hP1 h) b.1 b.2 k [])
    { spots := sp.filter (fun x => !gone.contains (x.row, x.col)), short := 0 }
  else
    let per := (unitsIn d h unit blocks).map (fun inU => sp.filter (fun x => inU x.row x.col))
    let gone := per.flatMap (fun l =>
      ((sortBy (fun (x : Spot) y => keyLt (cullKey (spotVal d x)) (cullKey (spotVal d y))) l).take k).map (fun x => x.key))
    { spots := sp.filter (fun x => !gone.contains x.key), short := (per.map (fun l => k - l.length)).sum }

/-- Rows and columns at which a region may grow, in row-major order: inside stored blocks in BSR16 (R393). -/
def growable (d : Image) (blocks : List (Nat × Nat)) : List (Nat × Nat) :=
  (List.range (dSize d 1)).flatMap (fun r => ((List.range (dSize d 0)).filter (fun c =>
    dFmt d != fmBSR || blocks.contains (r / 16, c / 16))).map (fun c => (r, c)))

/-- The k grown positions of one unit: the greatest scores of its candidates, then, in an NM group that has too few, its
other absent positions in row-major order (R380, R393, assumption 30). -/
def growUnit (nm : Bool) (score : Nat × Nat → Exact) (ok : Nat × Nat → Bool) (k : Nat) (absent : List (Nat × Nat)) :
    List (Nat × Nat) :=
  let cand := (sortBy (fun x y => ltE (score y) (score x)) (absent.filter ok)).take k
  if nm then cand ++ (absent.filter (fun x => !ok x)).take (k - cand.length) else cand

/-- GERMINATE (R393, R394). -/
def growSpots (st : Tbl Byte) (d db : Image) (h : Header) (unit : Bool) (k : Nat) (blocks : List (Nat × Nat))
    (sp : List Spot) : Derived :=
  let score (x : Nat × Nat) : Exact := decodeTy tyFP32 (readElem st db [x.2, x.1])
  let stored (x : Nat × Nat) : Bool := sp.any (fun y => y.row == x.1 && y.col == x.2)
  let ok (x : Nat × Nat) : Bool :=
    inValid d 0 [x.2, x.1] &&
    (match score x with | .num _ _ => true | .nonfin b => !isNan32 b && !neg32 b)
  let (grown, short) : List (Nat × Nat) × Nat :=
    if dFmt d = fmNMT then
      let value (r c : Nat) : Option Exact := if stored (r, c) then none else some (adjusted (score (r, c)))
      ((nmtBlocks d (hP1 h)).flatMap (fun b => matchRounds value (fun x y => ltE y x) (hP1 h) b.1 b.2 k []), 0)
    else
      let free := (growable d blocks).filter (fun x => !stored x)
      let per := (unitsIn d h unit blocks).map (fun inU => free.filter (fun x => inU x.1 x.2))
      let nm := dFmt d == fmNM
      (per.flatMap (growUnit nm score ok k), if nm then 0 else (per.map (fun l => k - (l.filter ok).length)).sum)
  let add : List Spot := grown.map (fun x => { key := spotKey d h x.1 x.2, row := x.1, col := x.2, raw := 0, origin := none })
  let all : Tbl Spot := (sp ++ add).foldl (fun t x => tinsert t x.key x) []
  { spots := all.map (fun x => x.2), short := short }

/-! ### The output region (R383) -/

/-- Bytes of an array of the metadata section, padded to 64; `none` marks a padding byte. -/
def padArray (l : List Byte) : List (Option Byte) :=
  l.map some ++ List.replicate (r64 l.length - l.length) none

/-- Pointers of n runs: how many entries stand before each. -/
def pointersOf (n : Nat) (run : Nat → Nat) : List Nat :=
  (List.range n).foldl (fun l i => l ++ [l.getLast?.getD 0 + run i]) [0]

def le32 (l : List Nat) : List Byte := l.flatMap (leBytes 4)

/-- Count spots that satisfy a test. -/
def spotCount (sp : List Spot) (g : Spot → Bool) : Nat := (sp.filter g).length

/-- A number with a bit for each spot. -/
def spotMap (sp : List Spot) (pos : Spot → Nat) : Nat := (sp.map (fun x => 2 ^ pos x)).sum

/-- Two 4-bit numbers to a byte, the even one low. -/
def nibbles : List Nat → List Byte
  | [] => []
  | [a] => [BitVec.ofNat 8 a]
  | a :: b :: t => BitVec.ofNat 8 (a + 16 * b) :: nibbles t

/-- The metadata section of a pattern (R311 to R319), each array starting on a 64-byte boundary. -/
def metaBytes (d : Image) (h : Header) (blocks : List (Nat × Nat)) (sp : List Spot) : List (Option Byte) :=
  let f := dFmt d
  if f = fmBSR then
    padArray (le32 (pointersOf (bsrRows d) (fun b => (blocks.filter (fun x => x.1 == b)).length))) ++
    padArray (le32 (blocks.map (fun x => x.2))) ++
    padArray (blocks.flatMap (fun b => leBytes 32 (spotMap (sp.filter (fun x => x.row / 16 == b.1 && x.col / 16 == b.2))
      (fun x => x.row % 16 * 16 + x.col % 16))))
  else if f = fmNM ∨ f = fmNMT then padArray (nibbles (sp.map (fun x => x.col % hP1 h)))
  else if f = fmCSRT then
    let tc := csrtTC h d
    let tileOf (x : Spot) : Nat := x.row / 128 * tc + x.col / csrtTileC h
    let runs := (List.range (hNseg h)).flatMap (fun t => (List.range 129).map (fun r =>
      (spotCount sp (fun x => decide (tileOf x < t))) +
      (spotCount sp (fun x => tileOf x == t && decide (x.row % 128 < r)))))
    padArray (le32 runs) ++ padArray (sp.flatMap (fun x => leBytes 2 (x.col % csrtTileC h)))
  else if f = fmBMP then
    padArray (le32 (pointersOf (dSize d 1) (fun r => spotCount sp (fun x => x.row == r)))) ++
    padArray ((List.range (dSize d 1)).flatMap (fun r => (List.range (bmpG d)).flatMap (fun g =>
      leBytes 8 (spotMap (sp.filter (fun x => x.row == r && x.col / 64 == g)) (fun x => x.col % 64)))))
  else
    let keyOf (x : Spot) : Nat := if hP1 h = 0 then x.col else x.row
    let other (x : Spot) : Nat := if hP1 h = 0 then x.row else x.col
    padArray (le32 (pointersOf (2 ^ hP0 h) (fun b => spotCount sp (fun x => pairBucket (hP0 h) (keyOf x) == b)))) ++
    padArray (sp.flatMap (fun x => leBytes 8 (keyOf x + 2 ^ 24 * other x)))

/-- Pack values of a width into bytes (R308). -/
def packVals (w : Nat) (sp : List Spot) : List Byte := if w < 8 then [] else sp.flatMap (fun x => leBytes (w / 8) x.raw)

/-- The new N of an NM or NMT region (R380, R383); elsewhere P0 is copied. -/
def newP0 (d : Image) (h : Header) (k : Nat) (grow : Bool) : Nat :=
  if dFmt d = fmNM ∨ dFmt d = fmNMT then (if grow then hP0 h + k else hP0 h - k) else hP0 h

/-- The bytes of the output region; padding bytes are free (assumption 6). -/
def regionBytes (d : Image) (h : Header) (p0 : Nat) (blocks : List (Nat × Nat)) (sp : List Spot) : List Byte :=
  let m := metaBytes d h blocks sp
  let v := padArray (if dType d = tyBit then [] else packVals (tyWidth (dType d)) sp)
  let nseg := if dFmt d = fmBSR then blocks.length else hNseg h
  let head : List Byte := leBytes 1 (hFmt h) ++ leBytes 1 (hVtype h) ++ leBytes 1 p0 ++ leBytes 1 (hP1 h) ++
    leBytes 4 (hRows h) ++ leBytes 4 (hCols h) ++ leBytes 4 sp.length ++ leBytes 4 nseg ++ leBytes 4 64 ++
    leBytes 4 m.length ++ leBytes 4 (64 + m.length) ++ leBytes 4 v.length ++ leBytes 4 (hGen h) ++ leBytes 24 0
  let all : List (Option Byte) := head.map some ++ m ++ v
  let known := all.map (fun x => x.getD 0)
  all.zipIdx.map (fun (x : Option Byte × Nat) => match x.1 with
    | some b => b
    | none => Config.padByte known x.2)

/-! ### CULL and GERMINATE -/

/-- T of R387. -/
def maskT (d : Image) (h : Header) (k : Nat) : Nat :=
  if dFmt d = fmNMT then k * ceilDiv (hP1 h * hP1 h) 16 * (nmtBlocks d (hP1 h)).length else 0

/-- A mask instruction whose checks fail after its operands are read: nothing is written (R382, R385, R386). -/
def failMask (s : State) (a : At) (work kind detail : Nat) (mf : Dword) : State :=
  deferFault (modCore s a.n (fun c => startPass c (kBudget a.w) work true)) a (a.c.cycle + work) kind detail mf

/-- What is common to both: the region checked, the derived pattern, the work beyond 16 cycles and the staging of R387. -/
def actMask (a : At) (grow : Bool) (k : Nat) (work : Nat → Nat → Nat → Nat) (derive_ : Header → List (Nat × Nat) → List Spot → Derived)
    (dbs : List Image) (extra : Image → Conds) (onShort : State → Header → Nat → State) : Action :=
  let w := a.w
  let st := a.c.store
  let da := entryD a (tDA w)
  let do_ := entryD a (tDO w)
  let dx := entryD a (tDX w)
  let useX := fldFlag w 0
  let h := headerOf st da
  let refused := !cullFmt da || (!grow && dType da == tyBit)
  let bad : Option Meta := if refused then some (1, 0, 0) else worstMeta (regionChecks st da)
  let nm := dFmt da == fmNM || dFmt da == fmNMT
  let blocks := bsrBlocks st da
  let r := derive_ h blocks (spotsOf st da)
  let out := regionBytes da h (newP0 da h k grow) blocks r.spots
  let wk := 16 + ceilDiv (hMetaLen h + hValLen h) 512 + work (hNnz h) out.length (maskT da h k)
  let dense := dbs ++ (if useX && grow then [dx] else [])
  let s := readStore a (((if refused then [] else regionUnits st da) ++ operandUnits dense).dedup)
  let good : State :=
    let s := onShort (noteAhead s a [da]) h r.short
    if dStride do_ 1 < (out.length : Int) then failMask s a wk 3 offDO 0
    else if useX && decide (dValid dx 0 < r.spots.length) then failMask s a wk 3 offDX 0
    else
      let s := modCore s a.n (fun c => startPass c (kBudget w) wk false)
      let chk := joinChk (unitsChk (getCore s a.n).storeChk (regionUnits st da))
        (operandsChk s a.n dense)
      let origin (i : Nat) : Nat := if grow then readElem st dx [i] else i
      let list : List Poke := if useX then r.spots.zipIdx.map (fun (x : Spot × Nat) =>
          (elemBit dx [x.2], 32, match x.1.origin with
            | some i => origin i
            | none => 0xFFFFFFFF)) else []
      pushStore s a (kBudget w + latency a.p 40 32) none
        (.store (out.zipIdx.map (fun (x : Byte × Nat) => (8 * (dBase do_ + x.2), 8, x.1.toNat)) ++ list) chk)
  { fmt := .t
    enc := reservedBits w (offMode + 1) 7 ++ undefinedField (tSub w != 0) offSub ++
      cond (kBudget w == 0) 3 (offImm + 12)
    eng := some (heddleUse (kBudget w) (if bad.isSome then 16 else wk))
    chk := onlyU a ++ needEntry a (tDA w) offDA ++ (if grow then needEntry a (tDB w) offDB else []) ++
      needEntry a (tDO w) offDO ++ (if useX then needEntry a (tDX w) offDX else []) ++
      onEntry a (tDA w) (fun da =>
        handleConds da offDA ++
        cond (cullFmt da && unitRefused da (kUnit w)) 2 offMode ++
        cond (nm && decide ((if grow then hP1 h - hP0 h else hP0 h - 1) < kK w)) 3 offImm ++
        extra da ++
        onEntry a (tDO w) (fun o => cond (dHandle o != 0 || dFmt o != dFmt da || dType o != dType da ||
          dRank o != dRank da || anyDim (fun i => dSize o i != dSize da i || dPad o i != dPad da i)) 3 offDO)) ++
      (if useX then onEntry a (tDX w) (fun dx =>
        cond (dHandle dx != 0 || !dDense dx || dType dx != tyInt32 || dRank dx != 1) 3 offDX) else [])
    eff := match bad with
      | some m => failMask s a 16 8 (metaDetail 0 m) (metaWord 0 m)
      | none => good }

def actCull (a : At) : Action :=
  actMask a false (kK a.w) (fun nnz len t => ceilDiv nnz 64 + ceilDiv len 192 + t)
    (fun h blocks sp => cullSpots (entryD a (tDA a.w)) h (kUnit a.w) (kK a.w) blocks sp)
    [] (fun _ => [])
    (fun s _ short => if short = 0 then s else bumpCore s a.n ctrMaskShort short)

/-- The counting units of DA: how often K falls short under S2 (R636). -/
def unitTotal (a : At) (h : Header) : Nat :=
  let da := entryD a (tDA a.w)
  (unitsIn da h (kUnit a.w) (bsrBlocks a.c.store da)).length

/-- GERMINATE; under S2 or a deeper stage it grows nothing, counts the full K of every unit and is recorded with its stage (R636). -/
def actGerminate (a : At) : Action :=
  let da := entryD a (tDA a.w)
  let db := entryD a (tDB a.w)
  let s2 := decide (2 ≤ stageNow a.s)
  let k := if s2 then 0 else kK a.w
  let area := dSize da 0 * dSize da 1
  actMask a true k
    (fun nnz len t => ceilDiv area 128 + ceilDiv (area - nnz) 64 + ceilDiv len 192 + t)
    (fun h blocks sp => growSpots a.c.store da db h (kUnit a.w) k blocks sp)
    [db]
    (fun da => onEntry a (tDB a.w) (fun db =>
      cond (dHandle db != 0 || !dDense db || dType db != tyFP32 || dRank db != 2 || dSize db 0 != dSize da 0 ||
        dSize db 1 != dSize da 1) 3 offDB))
    (fun s h short =>
      if s2 then
        let s := bumpCore s a.n ctrMaskShort (kK a.w * unitTotal a h)
        record s { coreRec 0x44 a.n (stageNow a.s) with
          engine := 1, shuttle := shIdx a.sh, opcode := fldOp a.w, pc := pcOf a.r a.sh }
      else if short = 0 then s
      else bumpCore s a.n ctrMaskShort short)

/-! ### MASK.COMMIT (R398) -/

/-- The write of G + 1 to the header's GEN field. -/
def commitPoke (a : At) : List Poke :=
  [(8 * dBase (entryD a (tDA a.w)) + 288, 32, (bits (getQuad a.s (quadOf a.n)).maskGen 0 32 + 1) % 2 ^ 32)]

def actMaskCommit (a : At) : Action :=
  { fmt := .t
    enc := modeSubZero a.w
    chk := onlyU a ++ needEntry a (tDA a.w) offDA ++
      onEntry a (tDA a.w) (fun d => cond (dHandle d != 0 || !cullFmt d) 3 offDA)
    eff := let (s, id) := newAccess a.s a.n a.sh 0 .commit false false []
           push s a.n a.sh 1 (some id) none (.commit (commitPoke a)) }

def execCull (i : Issue) (s : State) : Host.Outcome State Fault Refusal := issueWith 0x68 i s actCull
def execGerminate (i : Issue) (s : State) : Host.Outcome State Fault Refusal := issueWith 0x69 i s actGerminate
def execMaskCommit (i : Issue) (s : State) : Host.Outcome State Fault Refusal := issueWith 0x6A i s actMaskCommit

end Sys2Proof.Machine
end

