-- ==== Sys2Proof/Machine/RegRead.lean ====
section
/-! DEFINITION. What the registers of BAR0 read (R16, R679 to R691): one value for each register, composed from the state. -/

namespace Sys2Proof.Machine

/-- A register: whether it is 64 bits wide, and its value. -/
abbrev RegVal := Bool × Nat

def rv32 (v : Nat) : Option RegVal := some (false, v % 2 ^ 32)
def rv64 (v : Nat) : Option RegVal := some (true, v % 2 ^ 64)

/-! ### CELLAR_ -/

/-- CELLAR_ID (R690). -/
def cellarId (s : State) : Nat :=
  s.fuses.code.toNat + s.fuses.stepping % 16 * 2 ^ 16 + flag s.fuses.tp1 * 2 ^ 20 + flag s.fuses.tp2 * 2 ^ 21

/-- CELLAR_RESET_STATUS (R623). -/
def resetStatus (s : State) : Nat :=
  let level := s.parts.foldl (fun a p => match p.reset with
    | some q => max a q.level
    | none => a) 0
  let parts := s.parts.foldl (fun a p => if p.reset.isSome then a + 2 ^ p.low else a) 0
  level + parts * 2 ^ 3 + min 3 (recentResets s).length * 2 ^ 11 + s.resets.last * 2 ^ 13

/-- 64 cores of a core set. -/
def coreSet (x : BitVec 192) (i : Nat) : Nat := bits x (64 * i) 64

/-- CELLAR_SELFTEST_CTRL and CELLAR_CAL_CTRL. -/
def selftestCtrl (x : SelfTest) : Nat :=
  flag x.test + flag x.intrusive * 2 + flag x.busy * 2 ^ 3 + flag x.done * 2 ^ 4
def calCtrlReg (x : SelfTest) : Nat := flag x.calKind + x.calPort.toNat * 2 + flag x.calBusy * 2 ^ 5

/-- CELLAR_SELV_CTRL. -/
def hostSelvCtrl (x : HostSelv) : Nat :=
  flag x.busy * 2 + flag x.mismatch * 2 ^ 2 + flag x.done * 2 ^ 3 + flag x.range * 2 ^ 4

/-- A register of a ring (R542). -/
def ringReg (x : Ring) (o : Nat) : Option RegVal :=
  match o with
  | 0x00 => rv64 x.base.toNat
  | 0x08 => rv64 x.cplBase.toNat
  | 0x10 => rv32 x.ctrl.toNat
  | 0x14 => rv32 x.tail.toNat
  | 0x18 => rv32 x.head.toNat
  | 0x1C => rv32 x.cplHead.toNat
  | 0x20 => rv32 x.cplTail.toNat
  | _ => none

/-- Registers of the CELLAR_ block that stand alone. -/
def cellarOne (s : State) (o : Nat) : Option RegVal :=
  match o with
  | 0x00 => rv32 (cellarId s)
  | 0x08 => rv64 s.fuses.disable.toNat
  | 0x10 => rv32 (bootStatus s)
  | 0x14 => rv32 (s.fuses.otpSvn + s.boot.imageSvn * 2 ^ 8)
  | 0x18 => rv32 (s.boot.service + flag s.flash.withdrawn * 2 ^ 3)
  | 0x1C => rv32 (resetStatus s)
  | 0x20 => rv32 (linkStatus s)
  | 0x24 => rv32 s.host.pid.toNat
  | 0x28 => rv64 s.host.badacc.toNat
  | 0x30 => rv64 (deviceTime s)
  | 0x38 => rv64 s.epoch.toNat
  | 0x60 => rv32 (s.scrubCtrl.toNat + flag (decide (1 ≤ stageNow s)) * 2 ^ 16)
  | 0x140 => rv64 s.errors.base.toNat
  | 0x148 => rv64 s.errors.head.toNat
  | 0x150 => rv64 s.errors.tail.toNat
  | 0x158 => rv64 s.errors.lost.toNat
  | 0x200 => rv32 s.hostSelv.cfg.toNat
  | 0x204 => rv32 (hostSelvCtrl s.hostSelv)
  | 0x208 => rv64 s.hostSelv.poly.toNat
  | 0x210 => rv64 s.hostSelv.init.toNat
  | 0x218 => rv64 s.hostSelv.addr.toNat
  | 0x220 => rv64 s.hostSelv.len.toNat
  | 0x228 => rv64 s.hostSelv.expect.toNat
  | 0x230 => rv64 s.hostSelv.result.toNat
  | 0x300 => rv32 (selftestCtrl s.selfTest)
  | 0x304 => rv32 (calCtrlReg s.selfTest)
  | _ => none

/-- Whether an offset is that of entry i < n of an array. -/
def inArray (o base stride n : Nat) : Option Nat :=
  if base ≤ o ∧ o < base + stride * n ∧ (o - base) % stride = 0 then some ((o - base) / stride) else none

/-- The CELLAR_ block. -/
def cellarReg (s : State) (o : Nat) : Option RegVal :=
  if 0x1000 ≤ o ∧ o < 0x1200 then ringReg (getRing s ((o - 0x1000) / 0x40)) ((o - 0x1000) % 0x40)
  else match inArray o 0x40 8 4, inArray o 0x80 4 16, inArray o 0x100 8 3, inArray o 0x120 8 3 with
    | some i, _, _, _ => rv64 (tget 0 s.resets.counts (i + 1)).toNat
    | _, some i, _, _ => rv32 (segReg s i).toNat
    | _, _, some i, _ => rv64 (coreSet s.fence i)
    | _, _, _, some i => rv64 (coreSet s.fence i)
    | _, _, _, _ => match inArray o 0x308 8 3, inArray o 0x320 8 3, inArray o 0x338 8 3 with
      | some i, _, _ => rv64 (coreSet s.selfTest.sel i)
      | _, some i, _ => rv64 (coreSet s.selfTest.left i)
      | _, _, some i => rv64 (coreSet s.selfTest.fail i)
      | _, _, _ => cellarOne s o

/-! ### PWR_ -/

/-- PWR_CLK_CTRL and PWR_IDLE_STATUS. -/
def clkCtrl (s : State) : Nat :=
  s.power.divHost + s.power.divNow * 2 ^ 4 + s.power.divTherm * 2 ^ 8 + flag (decide (3 ≤ stageNow s)) * 2 ^ 11
def idleStatus (s : State) : Nat := (List.range 8).foldl (fun a q => a + (getQuad s q).idle * 2 ^ (4 * q)) 0

def pwrReg (s : State) (o : Nat) : Option RegVal :=
  match inArray o 0x40 4 8, inArray o 0x60 4 8, inArray o 0x80 8 5 with
  | some q, _, _ => rv32 ((getQuad s q).poolCap.toNat + poolNow s q * 2 ^ 10)
  | _, some r, _ => rv32 (getQuad s r).horizonHost.toNat
  | _, _, some k => rv64 (tget 0 s.power.stageCounts (k + 1)).toNat
  | _, _, _ => match o with
    | 0x00 => rv32 (clkCtrl s)
    | 0x04 => rv32 (s.power.vinAvg + s.power.stage * 2 ^ 16)
    | 0x08 => rv32 s.power.s4LimitMs
    | 0x0C => rv32 s.power.throttle
    | 0x10 => rv32 (tmaxBits s.power.tmax + flag (s.power.divTherm != 0) * 2 ^ 16 + flag s.power.crit * 2 ^ 17)
    | 0x14 => rv32 (s.power.maxLevel + s.power.guardUs * 2 ^ 4)
    | 0x18 => rv32 (idleStatus s)
    | 0x20 => rv64 s.power.saveBase.toNat
    | _ => none

/-! ### PORT_ and CASK_ -/

def portDevReg (s : State) (o : Nat) : Option RegVal :=
  match o with
  | 0x00 => rv32 s.fabric.toNat
  | 0x04 => rv32 s.calCtrl.toNat
  | 0x08 => rv32 s.reqTimeout.toNat
  | _ => none

/-- PORT_STATUS_k. -/
def portStatus (p : Port) : Nat :=
  portUp p + flag p.laserOk * 2 ^ 7 + flag p.lit * 2 ^ 8 + flag (p.sweepHeld || p.chans.any (fun x => x.2.sweepHeld)) * 2 ^ 9

def portReg (p : Port) (o : Nat) : Option RegVal :=
  match o with
  | 0x00 => rv32 (portStatus p)
  | 0x08 => rv64 p.failed.toNat
  | 0x10 => rv64 p.retrain.toNat
  | _ => match inArray o 0x18 8 5 with
    | some _ => rv64 (tget 0 p.counters o).toNat
    | none => none

/-- CASK_STATUS: open buckets, held frames, free space in KiB. -/
def caskStatus (s : State) (k : Nat) : Nat :=
  let c := getCask s k
  min 15 c.buckets.length + flag (!c.held.isEmpty) * 2 ^ 4 + (2 ^ 24 - caskUsed s k) / 1024 * 2 ^ 8

def caskReg (s : State) (k o : Nat) : Option RegVal :=
  let c := getCask s k
  match o with
  | 0x00 => rv32 (caskStatus s k)
  | 0x04 => rv32 c.selvCtrl.toNat
  | 0x08 => rv32 c.selvPoly.toNat
  | 0x0C => rv32 c.selvInit.toNat
  | _ => match inArray o 0x10 8 8 with
    | some _ => rv64 (tget 0 c.counters o).toNat
    | none => none

/-! ### QUAD_ and CORE_ -/

def quadReg (x : Quad) (o : Nat) : Option RegVal :=
  match o with
  | 0x00 => rv32 x.pair.toNat
  | 0x04 => rv32 x.ctxMode.toNat
  | 0x08 => rv32 x.hangCtrl.toNat
  | 0x0C => rv32 x.replayTaps.toNat
  | 0x10 => rv64 x.maskGen.toNat
  | 0x18 => rv64 x.jnlBase.toNat
  | 0x20 => rv64 x.jnlIndex.toNat
  | 0x28 => rv64 x.replayDrop.toNat
  | _ => none

/-- CORE_SCHED_STATUS. -/
def schedStatus (s : State) (n : Nat) (c : Core) : Nat :=
  c.plan + flag c.planPending.isSome * 2 ^ 2 + flag c.collide * 2 ^ 3 +
    flag (pairActive s (quadOf n) && pairPartner s (quadOf n) == n) * 2 ^ 4

/-- Bits [18:0] of an engine's status: flags, shape, drain buffer. -/
def engineStatus (cycle : Nat) (m : Multiplier) (t : EngineTime) : Nat :=
  flag m.stLong + flag m.stNonfin * 2 + flag m.stMismatch * 2 ^ 2 +
    (match m.base.shape with
      | some (a, b) => 2 ^ 3 + (a - 1) * 2 ^ 4 + (b - 1) * 2 ^ 11
      | none => 0) +
    flag (drainBusy cycle t) * 2 ^ 18

/-- CORE_HEDDLE_STATUS. -/
def heddleStatus (c : Core) : Nat :=
  engineStatus c.cycle c.heddle c.heddleT + flag c.heddle.base.packed * 2 ^ 19 + flag c.heddle.base.skipped * 2 ^ 20 +
    flag c.heddle.stOverrun * 2 ^ 21

/-- CORE_INTEG_STATUS. -/
def integStatus (s : State) (n : Nat) (c : Core) : Nat :=
  min 2 (c.intermits.filter (fun t => decide (s.pll < t + intermitWindow))).length + flag (isFenced s n) * 2 ^ 2 +
    flag c.storeCause * 2 ^ 3 + min 4 c.verdicts.length * 2 ^ 4

/-- CORE_SEM_s. -/
def semReg (m : Sem) : Nat := m.count.toNat + flag m.sat * 2 ^ 16

/-- Registers of a core page that stand alone. -/
def coreOne (s : State) (n : Nat) (c : Core) (o : Nat) : Option RegVal :=
  match o with
  | 0x00 => rv32 (schedStatus s n c)
  | 0x04 => rv32 (engineStatus c.cycle c.beam c.beamT)
  | 0x08 => rv32 (heddleStatus c)
  | 0x0C => rv32 (integStatus s n c)
  | 0x10 => rv32 c.starveCfg.toNat
  | 0x14 => rv32 c.lastW.toNat
  | 0x18 => rv64 (selvStatus c)
  | 0x20 => rv64 c.f.fault.toNat
  | 0x28 => rv64 c.b.fault.toNat
  | 0x30 => rv64 c.u.fault.toNat
  | 0x38 => rv64 c.f.metaFault.toNat
  | 0x40 => rv64 c.b.metaFault.toNat
  | 0x48 => rv64 c.u.metaFault.toNat
  | 0x50 => rv64 c.f.progress.toNat
  | 0x58 => rv64 c.b.progress.toNat
  | 0x60 => rv64 c.u.progress.toNat
  | 0x68 => rv64 c.drift.toNat
  | 0x70 => rv64 c.beam.base.terms
  | 0x78 => rv64 c.heddle.base.terms
  | 0x80 => rv64 c.starveEvent.toNat
  | 0x88 => rv64 c.jnlHash.toNat
  | 0x90 => rv64 c.selv.result.toNat
  | _ => none

/-- A core page, with every result landed that is visible by now. -/
def coreReg (s0 : State) (n o : Nat) : Option RegVal :=
  let s := landAll s0 n
  let c := getCore s n
  match inArray o 0x100 8 22, inArray o 0x800 8 64, inArray o 0xA00 8 64, inArray o 0x1000 4 256 with
  | some _, _, _, _ => rv64 (tget 0 c.counters o).toNat
  | _, some i, _, _ => rv64 (tget 0 c.starveTotal i).toNat
  | _, _, some i, _ => rv64 (tget 0 c.starveFlush i).toNat
  | _, _, _, some i => rv32 (semReg (tget {} c.sems i))
  | _, _, _, _ => coreOne s n c o

/-! ### BAR0 (R679 to R682) -/

/-- A place in BAR0: block, number of the page, offset in it. -/
inductive Place where
  | cellar (o : Nat)
  | pwr (o : Nat)
  | portDev (o : Nat)
  | port (k o : Nat)
  | cask (k o : Nat)
  | quad (q o : Nat)
  | core (n o : Nat)
  | nothing
  deriving DecidableEq, Repr

/-- Where an address lies (R679). -/
def placeOf (a : Nat) : Place :=
  if a < 0x10000 then .cellar a
  else if a < 0x11000 then .pwr (a - 0x10000)
  else if 0x20000 ≤ a ∧ a < 0x21000 then .portDev (a - 0x20000)
  else if 0x21000 ≤ a ∧ a < 0x29000 then .port ((a - 0x21000) / 0x1000) ((a - 0x21000) % 0x1000)
  else if 0x30000 ≤ a ∧ a < 0x38000 then .cask ((a - 0x30000) / 0x1000) ((a - 0x30000) % 0x1000)
  else if 0x40000 ≤ a ∧ a < 0x48000 then .quad ((a - 0x40000) / 0x1000) ((a - 0x40000) % 0x1000)
  else if 0x1000000 ≤ a ∧ a < 0x1C00000 then .core ((a - 0x1000000) / 0x10000) ((a - 0x1000000) % 0x10000)
  else .nothing

/-- The register at an address; the page of a disabled core holds none (R682). -/
def regAt (s : State) (a : Nat) : Option RegVal :=
  match placeOf a with
  | .cellar o => cellarReg s o
  | .pwr o => pwrReg s o
  | .portDev o => portDevReg s o
  | .port k o => portReg (getPort s k) o
  | .cask k o => caskReg s k o
  | .quad q o => quadReg (getQuad s q) o
  | .core n o => if isDisabled s n then none else coreReg s n o
  | .nothing => none

/-- 32 bits at an address: a 32-bit register, a half of a 64-bit one, or 0 (R681, R684). -/
def read32 (s : State) (a : Nat) : Nat :=
  match regAt s a with
  | some (_, v) => v % 2 ^ 32
  | none => if a % 8 = 4 then
      match regAt s (a - 4) with
      | some (true, v) => v / 2 ^ 32
      | _ => 0
    else 0

/-- What an aligned access reads. -/
def mmioRead (s : State) (a width : Nat) : Dword :=
  BitVec.ofNat 64 (if width = 64 then read32 s a + read32 s (a + 4) * 2 ^ 32 else read32 s a)

end Sys2Proof.Machine
end

