-- ==== Sys2Proof/Machine/RegMap.lean ====
section
/-! DEFINITION. Host writes to the registers of BAR0 (R16, R404, R438, R440, R509, R537 to R539, R573, R580, R653, R681 to
R688). -/

namespace Sys2Proof.Machine

/-! ### Clamping (R537) -/

/-- The nearest value of a range. -/
def clampTo (lo hi v : Nat) : Nat := max lo (min hi v)

/-- The nearest multiple of `m` up to `hi`, the greater of two that are equally near. -/
def clampMult (m hi v : Nat) : Nat := min hi ((v + m / 2) / m * m)

/-- 4 MiB. -/
def mib4 : Nat := 2 ^ 22

/-! ### Registers with rows of their own -/

/-- The nearest legal N: 1 or a multiple of 8 up to 64 (R537). -/
def clampN (n : Nat) : Nat := if n ≤ 4 then 1 else min 64 ((n + 4) / 8 * 8)

/-- A write of PORT_FABRIC while every context is EMPTY; INDEX is clamped against the N of the same write. With N of 1
every port is dark, and the wavelengths from N on are not modulated (R481, R506, R509). -/
def fabricWrite (s : State) (value : Word) : State :=
  if s.parts.all (fun p => p.ctx == .empty) then
    let n := clampN (bits value 0 7)
    let s := { s with fabric := BitVec.ofNat 32 (n + min (bits value 8 6) (n - 1) * 2 ^ 8) }
    let s := if n = 1 then (List.range 8).foldl darken s else s
    (List.range 8).foldl dropBeyond s
  else s

/-- PORT_FABRIC_WRITE. -/
def execPortFabricWrite (value : Word) (s : State) : Host.Outcome State Fault Refusal := .next (fabricWrite s value)

/-- Change a partition-wide register from any quadrant of the partition. -/
def modWide (s : State) (q : Nat) (g : Quad → Quad) : State :=
  match partOf s q with
  | some p => modPartQuads s p g
  | none => s

/-- A write of GEN, PENDING unchanged (R404). While the context is RUNNING it takes effect on the next CCLK cycle (R405). -/
def genWrite (s : State) (q : Nat) (value : Dword) : State :=
  match partOf s q with
  | none => s
  | some p =>
    if p.ctx = .running then modPartQuads s p (fun x => { x with genNext := some (bits value 0 32) })
    else modPartQuads s p (fun x => { x with maskGen := setBits x.maskGen 0 32 (bits value 0 32) })

/-- QUAD_MASK_GEN_WRITE. -/
def execQuadMaskGenWrite (q : Fin 8) (value : Dword) (s : State) : Host.Outcome State Fault Refusal :=
  .next (genWrite s q.val value)

/-- A write of ROLLOUT while the context is EMPTY, LOADED or STOPPED (R438). -/
def modeWrite (s : State) (q : Nat) (value : Word) : State :=
  match partOf s q with
  | some p =>
    if p.ctx = .empty ∨ p.ctx = .loaded ∨ p.ctx = .stopped then
      modPartQuads s p (fun x => { x with ctxMode := setBits x.ctxMode 0 1 (bits value 0 1) })
    else s
  | none => s

/-- QUAD_CTX_MODE_WRITE. -/
def execQuadCtxModeWrite (q : Fin 8) (value : Word) (s : State) : Host.Outcome State Fault Refusal :=
  .next (modeWrite s q.val value)

/-- Clear one core's fence and history while its partition is EMPTY (R573). -/
def unfence (s : State) (n : Nat) : State :=
  match corePart s n with
  | some p =>
    if p.ctx = .empty then
      modCore { s with fence := setBits s.fence n 1 0 } n (fun c => { c with intermits := [], storeCause := false, fenceStore := false })
    else s
  | none => s

/-- A write of 1s to CELLAR_CORE_FENCEi. -/
def fenceClear (s : State) (i : Nat) (value : Dword) : State :=
  let v := w1cWrite s (0x100 + 8 * i) value
  (List.range 64).foldl (fun s j => if bit v j && isFenced s (64 * i + j) then unfence s (64 * i + j) else s) s

/-- CELLAR_CORE_FENCE_CLEAR. -/
def execCellarCoreFenceClear (i : Fin 3) (value : Dword) (s : State) : Host.Outcome State Fault Refusal :=
  .next (fenceClear s i.val value)

/-- A write of 1s to CELLAR_CORE_FENCE_SETi. -/
def fenceSet (s : State) (i : Nat) (value : Dword) : State :=
  (List.range 64).foldl (fun s j => if bit value j then fenceCore s (64 * i + j) 3 else s) s

/-- CELLAR_CORE_FENCE_SET. -/
def execCellarCoreFenceSet (i : Fin 3) (value : Dword) (s : State) : Host.Outcome State Fault Refusal :=
  .next (fenceSet s i.val value)

/-- A write of CELLAR_ERR_TAIL, legal from HEAD − 65,536 to HEAD. -/
def tailErrWrite (s : State) (value : Dword) : State :=
  let h := s.errors.head.toNat
  { s with errors := { s.errors with tail := BitVec.ofNat 64 (clampTo (h - 65536) h value.toNat) } }

/-- CELLAR_ERR_TAIL_WRITE. -/
def execCellarErrTailWrite (value : Dword) (s : State) : Host.Outcome State Fault Refusal := .next (tailErrWrite s value)

/-! ### Plain registers -/

/-- SIZE-independent bases of a ring: multiples of 64, kept while EN is 1 (R539). -/
def ringBase (x : Ring) (old value : Dword) : Dword :=
  if ringEn x then old else BitVec.ofNat 64 (clampMult 64 (2 ^ 64 - 64) value.toNat)

/-- 64 cores of CELLAR_SELFTEST_SEL; a write while BUSY is 1 is ignored. -/
def selWrite (s : State) (i : Nat) (value : Dword) : State :=
  if s.selfTest.busy then s
  else { s with selfTest := { s.selfTest with sel := setBits s.selfTest.sel (64 * i) 64 value.toNat } }

def modSelv (s : State) (g : HostSelv → HostSelv) : State := { s with hostSelv := g s.hostSelv }

/-- CELLAR_SELV_CFG and CASK_SELV_CTRL with WIDTH clamped. -/
def selvCfgValue (v : Word) : Word := BitVec.ofNat 32 (clampTo 8 64 (bits v 0 7) + bits v 7 3 * 2 ^ 7)
def caskCtrlValue (v : Word) : Word :=
  BitVec.ofNat 32 (bits v 0 1 + clampTo 8 32 (bits v 1 6) * 2 + bits v 7 3 * 2 ^ 7)

/-- CELLAR_SELV_CTRL: DONE is W1C, GO starts a run. -/
def selvCtrlWrite (s : State) (v : Word) : State :=
  let s := modSelv s (fun x => { x with done := x.done && !bit (w1cWrite s 0x204 v) 3 })
  if bit v 0 then selvGo s else s

/-- 32-bit registers of the CELLAR_ block. -/
def cellarWrite32 (s : State) (o : Nat) (v : Word) : State :=
  if 0x1000 ≤ o ∧ o < 0x1200 then
    let r := (o - 0x1000) / 0x40
    match (o - 0x1000) % 0x40 with
    | 0x10 => ctrlWrite s r v
    | 0x14 => tailWrite s r v
    | 0x1C => cplHeadWrite s r v
    | _ => s
  else match inArray o 0x80 4 16 with
    | some i => segWrite s i v
    | none => match o with
      | 0x14 => if bit v 16 then commitSvn s else s
      | 0x18 => if bit v 2 then admitWrite s else s
      | 0x60 => { s with scrubCtrl := BitVec.ofNat 32 (bits v 0 1 + clampTo 1 168 (bits v 8 8) * 2 ^ 8) }
      | 0x200 => modSelv s (fun x => { x with cfg := selvCfgValue v })
      | 0x204 => selvCtrlWrite s v
      | 0x300 => selftestWrite s v
      | 0x304 => calWrite s v
      | _ => s

/-- Set the base of the error ring. -/
def setErrBase (s : State) (b : Dword) : State := { s with errors := { s.errors with base := b } }

/-- 64-bit registers of the CELLAR_ block: the whole value, and the bits that the write itself carries. -/
def cellarWrite64 (s : State) (o : Nat) (v acts : Dword) : State :=
  if 0x1000 ≤ o ∧ o < 0x1200 then
    let r := (o - 0x1000) / 0x40
    match (o - 0x1000) % 0x40 with
    | 0x00 => modRing s r (fun x => { x with base := ringBase x x.base v })
    | 0x08 => modRing s r (fun x => { x with cplBase := ringBase x x.cplBase v })
    | _ => s
  else match inArray o 0x100 8 3, inArray o 0x120 8 3, inArray o 0x308 8 3 with
    | some i, _, _ => fenceClear s i acts
    | _, some i, _ => fenceSet s i acts
    | _, _, some i => selWrite s i v
    | _, _, _ => match o with
      | 0x38 => { s with epoch := v }
      | 0x140 => setErrBase s (BitVec.ofNat 64 (clampMult mib4 (hbmBytes - mib4) (bits v 0 42)))
      | 0x150 => tailErrWrite s v
      | 0x208 => modSelv s (fun x => { x with poly := v })
      | 0x210 => modSelv s (fun x => { x with init := v })
      | 0x218 => modSelv s (fun x => { x with
          addr := BitVec.ofNat 64 (clampMult 64 (2 ^ 42 - 64) (bits v 0 42) + min 1 (bits v 42 2) * 2 ^ 42) })
      | 0x220 => modSelv s (fun x => { x with len := BitVec.ofNat 64 (clampTo 1 (2 ^ 42 - 1) (bits v 0 42)) })
      | 0x228 => modSelv s (fun x => { x with expect := v })
      | _ => s

def modPower (s : State) (g : Power → Power) : State := { s with power := g s.power }

/-- The PWR_ block. -/
def pwrWrite32 (s : State) (o : Nat) (v : Word) : State :=
  match inArray o 0x40 4 8, inArray o 0x60 4 8 with
  | some q, _ => poolCapWrite s q v
  | _, some r => horizonWrite s r v
  | _, _ => match o with
    | 0x00 => divWrite s v
    | 0x08 => modPower s (fun x => { x with s4LimitMs := clampTo 10 1000 (bits v 0 10) })
    | 0x0C => modPower s (fun x => { x with throttle := clampTo 280 440 (bits v 0 10) })
    | 0x14 => modPower s (fun x => { x with maxLevel := min 4 (bits v 0 3), guardUs := min 10000 (bits v 4 16) })
    | _ => s

/-- Set the base of the save areas. -/
def setSaveBase (s : State) (b : Dword) : State := { s with power := { s.power with saveBase := b } }

def pwrWrite64 (s : State) (o : Nat) (v : Dword) : State :=
  if o = 0x20 then setSaveBase s (BitVec.ofNat 64 (clampMult mib4 0x0047F0000000 (bits v 0 42))) else s

def portDevWrite (s : State) (o : Nat) (v : Word) : State :=
  match o with
  | 0x00 => fabricWrite s v
  | 0x04 => { s with calCtrl := BitVec.ofNat 32 (clampTo 1 100 (bits v 0 7)) }
  | 0x08 => { s with reqTimeout := BitVec.ofNat 32 (clampTo 100 1000000 (bits v 0 20)) }
  | _ => s

def caskWrite (s : State) (k o : Nat) (v : Word) : State :=
  match o with
  | 0x04 => modCask s k (fun c => { c with selvCtrl := caskCtrlValue v })
  | 0x08 => modCask s k (fun c => { c with selvPoly := v })
  | 0x0C => modCask s k (fun c => { c with selvInit := v })
  | _ => s

/-- QUAD_HANG_CTRL: WINDOW_MS and AUTO, and HUNG cleared by 1. -/
def hangValue (old v : Word) : Word :=
  BitVec.ofNat 32 (clampTo 1 10000 (bits v 0 14) + bits v 16 2 * 2 ^ 16 + (if bit v 24 then 0 else bits old 24 1) * 2 ^ 24)

def quadWrite32 (s : State) (q o : Nat) (v : Word) : State :=
  match o with
  | 0x04 => modeWrite s q v
  | 0x08 => modWide s q (fun x => { x with hangCtrl := hangValue x.hangCtrl (w1cWrite s (0x40008 + 0x1000 * q) v) })
  | 0x0C => modWide s q (fun x => { x with replayTaps := BitVec.ofNat 32 (bits v 0 16) })
  | _ => s

/-- `low` says that the write reaches the lower half: GEN, which the device changes too, is written only with it (R538). -/
def quadWrite64 (s : State) (q o : Nat) (v : Dword) (low : Bool) : State :=
  match o with
  | 0x10 => if low then genWrite s q v else s
  | 0x18 => modWide s q (fun x => { x with
      jnlBase := BitVec.ofNat 64 (clampMult 65536 (lpddrBytes s - 2 ^ 20) (bits v 0 42)) })
  | _ => s

/-- W1C of the flags of an engine's status register. -/
def clearFlags (m : Multiplier) (v : Word) : Multiplier :=
  { m with
    stLong := m.stLong && !bit v 0
    stNonfin := m.stNonfin && !bit v 1
    stMismatch := m.stMismatch && !bit v 2 }

/-- A write of 1 to SAT. A semaphore that saturated on this very cycle stays saturated; where SAT was set before, that
saturation is a first one once more, and recorded (R202, R687). -/
def satWrite (s : State) (n i : Nat) : State :=
  let now := w1cNow s (semAddr n i)
  if now.testBit 16 then
    if now.testBit 32 then noteSat { s with w1c := s.w1c.filter (fun x => x != (semAddr n i, 32)) } n i else s
  else modCore s n (fun c => { c with sems := tset {} c.sems i { tget {} c.sems i with sat := false } })

def coreWrite32 (s0 : State) (n o : Nat) (value : Word) : State :=
  let s := landAll s0 n
  let v := w1cWrite s (corePage n o) value
  match inArray o 0x1000 4 256 with
  | some i => if bit value 16 then satWrite s n i else s
  | none => match o with
    | 0x00 => if bit v 3 then modCore s n (fun c => { c with collide := false }) else s
    | 0x04 => modCore s n (fun c => { c with beam := clearFlags c.beam v })
    | 0x08 => modCore s n (fun c =>
        { c with heddle := { clearFlags c.heddle v with stOverrun := c.heddle.stOverrun && !bit v 21 } })
    | 0x10 => modCore s n (fun c => { c with
        starveCfg := BitVec.ofNat 32 (clampTo 1 255 (bits v 0 8) + clampTo 1 1023 (bits v 16 10) * 2 ^ 16) })
    | _ => s

def coreWrite64 (s : State) (n o : Nat) (acts : Dword) : State :=
  if o = 0x80 then
    let v := w1cWrite s (corePage n o) acts
    modCore s n (fun c => { c with starveEvent := c.starveEvent &&& ~~~ v })
  else s

/-! ### BAR0 -/

/-- A write to a 32-bit register. -/
def regWrite32 (s : State) (a : Nat) (v : Word) : State :=
  match placeOf a with
  | .cellar o => cellarWrite32 s o v
  | .pwr o => pwrWrite32 s o v
  | .portDev o => portDevWrite s o v
  | .port _ _ => s
  | .cask k o => caskWrite s k o v
  | .quad q o => quadWrite32 s q o v
  | .core n o => coreWrite32 s n o v
  | .nothing => s

/-- A write to a 64-bit register: `v` is the value with the unwritten half as stored, `acts` the bits that were written
(R538), and `low` says whether the lower half was. -/
def regWrite64 (s : State) (a : Nat) (v acts : Dword) (low : Bool) : State :=
  match placeOf a with
  | .cellar o => cellarWrite64 s o v acts
  | .pwr o => pwrWrite64 s o v
  | .port k o => if o = 0x10 then retrainWrite s k acts else s
  | .quad q o => quadWrite64 s q o v low
  | .core n o => coreWrite64 s n o acts
  | _ => s

/-- An aligned 32-bit write: a 32-bit register, or a half of a 64-bit one. -/
def mmioWrite32 (s : State) (a : Nat) (v : Word) : State :=
  match regAt s a with
  | some (false, _) => regWrite32 s a v
  | some (true, old) => regWrite64 s a (BitVec.ofNat 64 (old / 2 ^ 32 * 2 ^ 32 + v.toNat)) (BitVec.ofNat 64 v.toNat) true
  | none =>
    if a % 8 = 4 then
      match regAt s (a - 4) with
      | some (true, old) =>
        regWrite64 s (a - 4) (BitVec.ofNat 64 (old % 2 ^ 32 + v.toNat * 2 ^ 32)) (BitVec.ofNat 64 (v.toNat * 2 ^ 32)) false
      | _ => s
    else s

/-- An aligned write of 32 or 64 bits. -/
def mmioWrite (s : State) (a width : Nat) (v : Dword) : State :=
  if width = 64 then
    match regAt s a with
    | some (true, _) => regWrite64 s a v v true
    | _ => mmioWrite32 (mmioWrite32 s a (v.truncate 32)) (a + 4) ((v >>> 32).truncate 32)
  else mmioWrite32 s a (v.truncate 32)

/-- Serve an MMIO access that nothing refuses. -/
def serveMmio (s : State) (x : MmioAccess) : State :=
  if x.write then mmioWrite s x.addr x.width x.value else hostReply s (.mmio x.addr (mmioRead s x.addr x.width))

/-- Whether the access reaches a CORE_ or QUAD_ register of a quadrant at I2 (R653). -/
def atI2 (s : State) (x : MmioAccess) : Bool :=
  match coreQuadOf x.addr with
  | some q => (getQuad s q).idle == 2
  | none => false

/-- Whether an access waits: a read completes only after every earlier host write has taken effect (R686), and a write of GEN
(R405) or of a segment (R517) may still be about to. -/
def readWaits (s : State) (x : MmioAccess) : Bool :=
  !x.write && (!s.host.segWait.isEmpty || (List.range 8).any (fun q => (getQuad s q).genNext.isSome))

/-- REGISTER_WRITE: an MMIO access that no rule refuses, no idle level delays and no earlier write holds back; the table has
no row for a read, which this row serves as well (R684). -/
def execRegisterWrite (access : MmioAccess) (s : State) : Host.Outcome State Fault Refusal :=
  if (mmioRule s access).isSome || atI2 s access || readWaits s access then .next s else .next (serveMmio s access)

/-- A partition at I2 begins its exit: it is at I1 now, and at I0 after I2's exit latency (R652, R653). -/
def beginExit (s : State) (p : Part) : State :=
  modPartQuads s p (fun q => { q with idle := 1, exitAt := some (s.pll + us (exitUs 2)) })

/-- IDLE_MMIO_ACCESS: at I2 the access triggers an exit and completes at I1; at I3 or I4 it is refused (R653). -/
def execIdleMmioAccess (access : MmioAccess) (s : State) : Host.Outcome State Fault Refusal :=
  match mmioRule s access with
  | some r => .next (if r = 6 then refuseMmio s access 6 else s)
  | none =>
    if atI2 s access then
      match (coreQuadOf access.addr).bind (partOf s) with
      | some p => .next (if readWaits s access then beginExit s p else serveMmio (beginExit s p) access)
      | none => .next s
    else .next s

end Sys2Proof.Machine
end

