-- ==== Sys2Proof/Machine/Dispatch.lean ====
section
/-! DEFINITION. One arm per command: its meaning. -/

namespace Sys2Proof.Machine

def exec (i : Instr) (s : State) : Host.Outcome State Fault Refusal :=
  match i with
  | .nop x => Sys2Proof.Machine.execNop x s
  | .br x => Sys2Proof.Machine.execBr x s
  | .loop x => Sys2Proof.Machine.execLoop x s
  | .endShuttle x => Sys2Proof.Machine.execEndShuttle x s
  | .slotSel x => Sys2Proof.Machine.execSlotSel x s
  | .trap x => Sys2Proof.Machine.execTrap x s
  | .add x => Sys2Proof.Machine.execAdd x s
  | .subtract x => Sys2Proof.Machine.execSubtract x s
  | .mul x => Sys2Proof.Machine.execMul x s
  | .logic x => Sys2Proof.Machine.execLogic x s
  | .shf x => Sys2Proof.Machine.execShf x s
  | .mov x => Sys2Proof.Machine.execMov x s
  | .cmp x => Sys2Proof.Machine.execCmp x s
  | .sel x => Sys2Proof.Machine.execSel x s
  | .descMake x => Sys2Proof.Machine.execDescMake x s
  | .descSet x => Sys2Proof.Machine.execDescSet x s
  | .descOffs x => Sys2Proof.Machine.execDescOffs x s
  | .descLdt x => Sys2Proof.Machine.execDescLdt x s
  | .descStt x => Sys2Proof.Machine.execDescStt x s
  | .bqIssue x => Sys2Proof.Machine.execBqIssue x s
  | .bqWait x => Sys2Proof.Machine.execBqWait x s
  | .beamMm x => Sys2Proof.Machine.execBeamMm x s
  | .beamScore x => Sys2Proof.Machine.execBeamScore x s
  | .beamZero x => Sys2Proof.Machine.execBeamZero x s
  | .heddleSpmm x => Sys2Proof.Machine.execHeddleSpmm x s
  | .heddleSddmm x => Sys2Proof.Machine.execHeddleSddmm x s
  | .heddleSpsp x => Sys2Proof.Machine.execHeddleSpsp x s
  | .heddleZero x => Sys2Proof.Machine.execHeddleZero x s
  | .vecOp x => Sys2Proof.Machine.execVecOp x s
  | .vecRed x => Sys2Proof.Machine.execVecRed x s
  | .vecCvt x => Sys2Proof.Machine.execVecCvt x s
  | .sfuEval x => Sys2Proof.Machine.execSfuEval x s
  | .sfuDeriv x => Sys2Proof.Machine.execSfuDeriv x s
  | .sfuLoad x => Sys2Proof.Machine.execSfuLoad x s
  | .grav x => Sys2Proof.Machine.execGrav x s
  | .drain x => Sys2Proof.Machine.execDrain x s
  | .drainD x => Sys2Proof.Machine.execDrainD x s
  | .chainSend x => Sys2Proof.Machine.execChainSend x s
  | .chainSeed x => Sys2Proof.Machine.execChainSeed x s
  | .caskOpen x => Sys2Proof.Machine.execCaskOpen x s
  | .caskHdr x => Sys2Proof.Machine.execCaskHdr x s
  | .caskPut x => Sys2Proof.Machine.execCaskPut x s
  | .caskNorm x => Sys2Proof.Machine.execCaskNorm x s
  | .caskClose x => Sys2Proof.Machine.execCaskClose x s
  | .upd x => Sys2Proof.Machine.execUpd x s
  | .updCfg x => Sys2Proof.Machine.execUpdCfg x s
  | .cull x => Sys2Proof.Machine.execCull x s
  | .germinate x => Sys2Proof.Machine.execGerminate x s
  | .maskCommit x => Sys2Proof.Machine.execMaskCommit x s
  | .semSig x => Sys2Proof.Machine.execSemSig x s
  | .semWait x => Sys2Proof.Machine.execSemWait x s
  | .beatup x => Sys2Proof.Machine.execBeatup x s
  | .verdictWait x => Sys2Proof.Machine.execVerdictWait x s
  | .fenceC x => Sys2Proof.Machine.execFenceC x s
  | .fenceQ x => Sys2Proof.Machine.execFenceQ x s
  | .fenceD x => Sys2Proof.Machine.execFenceD x s
  | .fenceF x => Sys2Proof.Machine.execFenceF x s
  | .selvCfg x => Sys2Proof.Machine.execSelvCfg x s
  | .selvRun x => Sys2Proof.Machine.execSelvRun x s
  | .selvRead x => Sys2Proof.Machine.execSelvRead x s
  | .pwrHorizon x => Sys2Proof.Machine.execPwrHorizon x s
  | .jnlHash x => Sys2Proof.Machine.execJnlHash x s
  | .jnlWrite x => Sys2Proof.Machine.execJnlWrite x s
  | .jnlTap x => Sys2Proof.Machine.execJnlTap x s
  | .deferredFaultDetect core sh => Sys2Proof.Machine.execDeferredFaultDetect core sh s
  | .contextFaulted q => Sys2Proof.Machine.execContextFaulted q s
  | .contextStopped q => Sys2Proof.Machine.execContextStopped q s
  | .waitResume core sh => Sys2Proof.Machine.execWaitResume core sh s
  | .slotPlanTakeEffect core => Sys2Proof.Machine.execSlotPlanTakeEffect core s
  | .resultVisible core => Sys2Proof.Machine.execResultVisible core s
  | .tunDrainLand core => Sys2Proof.Machine.execTunDrainLand core s
  | .heddleOverrun core => Sys2Proof.Machine.execHeddleOverrun core s
  | .heddleWorkComplete core => Sys2Proof.Machine.execHeddleWorkComplete core s
  | .plausibilityVerdict core id rep => Sys2Proof.Machine.execPlausibilityVerdict core id rep s
  | .verdictFrameSend core id => Sys2Proof.Machine.execVerdictFrameSend core id s
  | .heldAccessRelease core id sram => Sys2Proof.Machine.execHeldAccessRelease core id sram s
  | .bobbinRequestComplete core queue seq ecc sram => Sys2Proof.Machine.execBobbinRequestComplete core queue seq ecc sram s
  | .remoteRequestTimeout core queue seq => Sys2Proof.Machine.execRemoteRequestTimeout core queue seq s
  | .signalPerform id => Sys2Proof.Machine.execSignalPerform id s
  | .beatupComplete scope q => Sys2Proof.Machine.execBeatupComplete scope q s
  | .journalEntryComplete q => Sys2Proof.Machine.execJournalEntryComplete q s
  | .selvRunComplete core => Sys2Proof.Machine.execSelvRunComplete core s
  | .readFrameReceive rx ecc => Sys2Proof.Machine.execReadFrameReceive rx ecc s
  | .writeFrameReceive rx => Sys2Proof.Machine.execWriteFrameReceive rx s
  | .addFrameReceive rx ecc => Sys2Proof.Machine.execAddFrameReceive rx ecc s
  | .dataFrameReceive rx => Sys2Proof.Machine.execDataFrameReceive rx s
  | .doneFrameReceive rx => Sys2Proof.Machine.execDoneFrameReceive rx s
  | .caskHdrReceive rx => Sys2Proof.Machine.execCaskHdrReceive rx s
  | .caskPieceReceive rx sramDouble => Sys2Proof.Machine.execCaskPieceReceive rx sramDouble s
  | .caskAckReceive rx => Sys2Proof.Machine.execCaskAckReceive rx s
  | .verdictReceive rx => Sys2Proof.Machine.execVerdictReceive rx s
  | .normReceive rx => Sys2Proof.Machine.execNormReceive rx s
  | .signalFrameReceive rx => Sys2Proof.Machine.execSignalFrameReceive rx s
  | .beatupFrameReceive rx => Sys2Proof.Machine.execBeatupFrameReceive rx s
  | .tapFrameReceive rx => Sys2Proof.Machine.execTapFrameReceive rx s
  | .quiesceNoticeReceive port peer => Sys2Proof.Machine.execQuiesceNoticeReceive port peer s
  | .heldFrameRelease cask id => Sys2Proof.Machine.execHeldFrameRelease cask id s
  | .sectionSeal cask q bkt => Sys2Proof.Machine.execSectionSeal cask q bkt s
  | .bucketDeadline cask q bkt => Sys2Proof.Machine.execBucketDeadline cask q bkt s
  | .sectionDeadline cask q bkt => Sys2Proof.Machine.execSectionDeadline cask q bkt s
  | .caskSelvVerdict cask id => Sys2Proof.Machine.execCaskSelvVerdict cask id s
  | .flitSend port peer => Sys2Proof.Machine.execFlitSend port peer s
  | .flitReceive port peer flit err => Sys2Proof.Machine.execFlitReceive port peer flit err s
  | .retryRequestReceive port peer ack => Sys2Proof.Machine.execRetryRequestReceive port peer ack s
  | .lockLossTimeout port peer => Sys2Proof.Machine.execLockLossTimeout port peer s
  | .retrainComplete port peer seen => Sys2Proof.Machine.execRetrainComplete port peer seen s
  | .retrainTimeout port peer => Sys2Proof.Machine.execRetrainTimeout port peer s
  | .calTrackingStep port => Sys2Proof.Machine.execCalTrackingStep port s
  | .portBringUp port seen => Sys2Proof.Machine.execPortBringUp port seen s
  | .laserInputChange port powers => Sys2Proof.Machine.execLaserInputChange port powers s
  | .patrolScrubRead tier unit found => Sys2Proof.Machine.execPatrolScrubRead tier unit found s
  | .errorRecordCopy => Sys2Proof.Machine.execErrorRecordCopy s
  | .hangDetect q => Sys2Proof.Machine.execHangDetect q s
  | .hangAutoReset q => Sys2Proof.Machine.execHangAutoReset q s
  | .resetLevelTimeout q => Sys2Proof.Machine.execResetLevelTimeout q s
  | .resetSequenceComplete q => Sys2Proof.Machine.execResetSequenceComplete q s
  | .contextClearComplete q => Sys2Proof.Machine.execContextClearComplete q s
  | .load r e input => Sys2Proof.Machine.execLoad r e input s
  | .start r e => Sys2Proof.Machine.execStart r e s
  | .stop r e => Sys2Proof.Machine.execStop r e s
  | .unload r e => Sys2Proof.Machine.execUnload r e s
  | .checkpoint r e manifest => Sys2Proof.Machine.execCheckpoint r e manifest s
  | .restore r e targets => Sys2Proof.Machine.execRestore r e targets s
  | .replay r e targets => Sys2Proof.Machine.execReplay r e targets s
  | .partition r e => Sys2Proof.Machine.execPartition r e s
  | .reset r e => Sys2Proof.Machine.execReset r e s
  | .cellarRingTailWrite r value => Sys2Proof.Machine.execCellarRingTailWrite r value s
  | .cellarCplHeadWrite r value => Sys2Proof.Machine.execCellarCplHeadWrite r value s
  | .cellarRingCtrlWrite r value => Sys2Proof.Machine.execCellarRingCtrlWrite r value s
  | .msixVectorUnmask vector => Sys2Proof.Machine.execMsixVectorUnmask vector s
  | .hdmHostRead addr caches ecc => Sys2Proof.Machine.execHdmHostRead addr caches ecc s
  | .hdmHostWrite addr data => Sys2Proof.Machine.execHdmHostWrite addr data s
  | .biSnoopResponse line => Sys2Proof.Machine.execBiSnoopResponse line s
  | .cellarHdmSegWrite x value => Sys2Proof.Machine.execCellarHdmSegWrite x value s
  | .mmioBadAccess access => Sys2Proof.Machine.execMmioBadAccess access s
  | .cxlForeignRequest pid mem addr => Sys2Proof.Machine.execCxlForeignRequest pid mem addr s
  | .cxlLinkTrained width found => Sys2Proof.Machine.execCxlLinkTrained width found s
  | .mctpControlMessage ep body => Sys2Proof.Machine.execMctpControlMessage ep body s
  | .pldmRequestUpdate ep => Sys2Proof.Machine.execPldmRequestUpdate ep s
  | .pldmComponentTransfer ep component => Sys2Proof.Machine.execPldmComponentTransfer ep component s
  | .pldmActivateFirmware ep => Sys2Proof.Machine.execPldmActivateFirmware ep s
  | .recoveryImageReceive component readBack => Sys2Proof.Machine.execRecoveryImageReceive component readBack s
  | .spdmGetMeasurements ep index nonce => Sys2Proof.Machine.execSpdmGetMeasurements ep index nonce s
  | .spdmGetCertificate ep slot => Sys2Proof.Machine.execSpdmGetCertificate ep slot s
  | .spdmChallenge ep slot nonce => Sys2Proof.Machine.execSpdmChallenge ep slot nonce s
  | .spdmKeyExchange ep slot exchange => Sys2Proof.Machine.execSpdmKeyExchange ep slot exchange s
  | .spdmHeartbeat ep session => Sys2Proof.Machine.execSpdmHeartbeat ep session s
  | .ideKm ep session stream key go => Sys2Proof.Machine.execIdeKm ep session stream key go s
  | .cellarCoreFenceClear x value => Sys2Proof.Machine.execCellarCoreFenceClear x value s
  | .cellarCoreFenceSet x value => Sys2Proof.Machine.execCellarCoreFenceSet x value s
  | .cellarErrTailWrite value => Sys2Proof.Machine.execCellarErrTailWrite value s
  | .cellarSelvGo => Sys2Proof.Machine.execCellarSelvGo s
  | .hostSelvRunComplete ecc => Sys2Proof.Machine.execHostSelvRunComplete ecc s
  | .admitDevice => Sys2Proof.Machine.execAdmit s
  | .svnCommit => Sys2Proof.Machine.execSvnCommit s
  | .selftestGo value => Sys2Proof.Machine.execSelftestGo value s
  | .selftestCoreStart core => Sys2Proof.Machine.execSelftestCoreStart core s
  | .selftestCoreDone core pass => Sys2Proof.Machine.execSelftestCoreDone core pass s
  | .calGo value => Sys2Proof.Machine.execCalGo value s
  | .calComplete => Sys2Proof.Machine.execCalComplete s
  | .portRetrainWrite port value => Sys2Proof.Machine.execPortRetrainWrite port value s
  | .portFabricWrite value => Sys2Proof.Machine.execPortFabricWrite value s
  | .quadMaskGenWrite q value => Sys2Proof.Machine.execQuadMaskGenWrite q value s
  | .quadCtxModeWrite q value => Sys2Proof.Machine.execQuadCtxModeWrite q value s
  | .pwrHorizonHostWrite r value => Sys2Proof.Machine.execPwrHorizonHostWrite r value s
  | .pwrPoolCapWrite q value => Sys2Proof.Machine.execPwrPoolCapWrite q value s
  | .divHostWrite value => Sys2Proof.Machine.execDivHostWrite value s
  | .registerWrite access => Sys2Proof.Machine.execRegisterWrite access s
  | .cclkDividerChange => Sys2Proof.Machine.execCclkDividerChange s
  | .shedStageChange average => Sys2Proof.Machine.execShedStageChange average s
  | .s4LimitExpiry q => Sys2Proof.Machine.execS4LimitExpiry q s
  | .tclkLoss => Sys2Proof.Machine.execTclkLoss s
  | .tclkAbsent => Sys2Proof.Machine.execTclkAbsent s
  | .thermalThrottleStep tmax => Sys2Proof.Machine.execThermalThrottleStep tmax s
  | .thermalCritical tmax sensor => Sys2Proof.Machine.execThermalCritical tmax sensor s
  | .thermalShutdown tmax => Sys2Proof.Machine.execThermalShutdown tmax s
  | .idleEnter q => Sys2Proof.Machine.execIdleEnter q s
  | .idleExit q cause => Sys2Proof.Machine.execIdleExit q cause s
  | .powerUp input => Sys2Proof.Machine.execPowerUp input s
  | .boot found => Sys2Proof.Machine.execBoot found s
  | .powerDown => Sys2Proof.Machine.execPowerDown s
  | .inputUndervoltageOff input => Sys2Proof.Machine.execInputUndervoltageOff input s
  | .inputOvervoltageOff average => Sys2Proof.Machine.execInputOvervoltageOff average s
  | .railFault => Sys2Proof.Machine.execRailFault s
  | .leakDetect wet => Sys2Proof.Machine.execLeakDetect wet s
  | .tclkReturn => Sys2Proof.Machine.execTclkReturn s
  | .thermalCritClear tmax => Sys2Proof.Machine.execThermalCritClear tmax s
  | .inputReturn input => Sys2Proof.Machine.execInputReturn input s
  | .intermittentWindowExpiry core => Sys2Proof.Machine.execIntermittentWindowExpiry core s
  | .resetHistoryExpiry => Sys2Proof.Machine.execResetHistoryExpiry s
  | .idleMmioAccess access => Sys2Proof.Machine.execIdleMmioAccess access s

end Sys2Proof.Machine
end

