-- ==== Sys2Proof/Machine/Run.lean ====
section
/-! DEFINITION. What a core does on a CCLK cycle without a command (assumption 2): a pending slot plan takes effect (R72), shuttles
resume (R78), the instructions that are due issue (R53, R68), and deferred faults are detected (R123, R362). -/

namespace Sys2Proof.Machine

/-- The issue of an instruction by its opcode; an undefined opcode is NOP's row (assumption 16). -/
def issueRow (i : Issue) (s : State) : Host.Outcome State Fault Refusal :=
  match fldOp i.word with
  | 0x01 => execBr i s
  | 0x02 => execLoop i s
  | 0x03 => execEndShuttle i s
  | 0x04 => execSlotSel i s
  | 0x05 => execTrap i s
  | 0x08 => execAdd i s
  | 0x09 => execSubtract i s
  | 0x0A => execMul i s
  | 0x0B => execLogic i s
  | 0x0C => execShf i s
  | 0x0D => execMov i s
  | 0x0E => execCmp i s
  | 0x0F => execSel i s
  | 0x10 => execDescMake i s
  | 0x11 => execDescSet i s
  | 0x12 => execDescOffs i s
  | 0x13 => execDescLdt i s
  | 0x14 => execDescStt i s
  | 0x18 => execBqIssue i s
  | 0x19 => execBqWait i s
  | 0x20 => execBeamMm i s
  | 0x21 => execBeamScore i s
  | 0x22 => execBeamZero i s
  | 0x28 => execHeddleSpmm i s
  | 0x29 => execHeddleSddmm i s
  | 0x2A => execHeddleSpsp i s
  | 0x2B => execHeddleZero i s
  | 0x30 => execVecOp i s
  | 0x31 => execVecRed i s
  | 0x32 => execVecCvt i s
  | 0x38 => execSfuEval i s
  | 0x39 => execSfuDeriv i s
  | 0x3A => execSfuLoad i s
  | 0x40 => execGrav i s
  | 0x48 => execDrain i s
  | 0x49 => execDrainD i s
  | 0x50 => execChainSend i s
  | 0x51 => execChainSeed i s
  | 0x58 => execCaskOpen i s
  | 0x59 => execCaskHdr i s
  | 0x5A => execCaskPut i s
  | 0x5B => execCaskNorm i s
  | 0x5C => execCaskClose i s
  | 0x60 => execUpd i s
  | 0x61 => execUpdCfg i s
  | 0x68 => execCull i s
  | 0x69 => execGerminate i s
  | 0x6A => execMaskCommit i s
  | 0x70 => execSemSig i s
  | 0x71 => execSemWait i s
  | 0x72 => execBeatup i s
  | 0x73 => execVerdictWait i s
  | 0x78 => execFenceC i s
  | 0x79 => execFenceQ i s
  | 0x7A => execFenceD i s
  | 0x7B => execFenceF i s
  | 0x80 => execSelvCfg i s
  | 0x81 => execSelvRun i s
  | 0x82 => execSelvRead i s
  | 0x88 => execPwrHorizon i s
  | 0x90 => execJnlHash i s
  | 0x91 => execJnlWrite i s
  | 0x92 => execJnlTap i s
  | _ => execNop i s

/-- The state that a command leaves; a stop leaves it unchanged. -/
def after (s : State) (o : Host.Outcome State Fault Refusal) : State :=
  match o with
  | .next t => t
  | _ => s

/-- A shuttle issues the instruction at its program counter when that is due. -/
def runShuttle (core : Fin 192) (s : State) (sh : Shuttle) : State :=
  match corePart s core.val with
  | none => s
  | some p =>
    let c := getCore s core.val
    let r := getRegs s core.val
    match (imgOf c sh)[(pcOf r sh).toNat]? with
    | some w =>
      if issueDue p c r s.cc sh w then after s (issueRow { core := core, sh := sh, word := w, ups := Upsets.none } s) else s
    | none => s

/-- A deferred fault whose cycle has come is detected (R362). -/
def detectDue (core : Fin 192) (s : State) (sh : Shuttle) : State :=
  let c := getCore s core.val
  if c.deferred.any (fun d => d.sh == sh && decide (d.due < workedTo c 1)) then after s (execDeferredFaultDetect core sh s)
  else s

/-- A core does what is due on this cycle and has not been commanded, in the order F, B, U. -/
def runCore (s : State) (n : Nat) : State :=
  if h : n < 192 then
    let core : Fin 192 := ⟨n, h⟩
    let s := after s (execSlotPlanTakeEffect core s)
    let s := allShuttles.foldl (fun s sh => after s (execWaitResume core sh s)) s
    let s := allShuttles.foldl (runShuttle core) s
    allShuttles.foldl (detectDue core) s
  else s

end Sys2Proof.Machine
end

