-- ==== Sys2Proof/Machine/Tick.lean ====
section
/-! DEFINITION. One CCLK cycle of the module (assumption 2): what was due on it (R68, R72, R78), the tests at its end (R78, R79, R171, R187, R198), then the
next cycle with its schedule cycles (R63, R70, R80, R81, R212, R638), the token meter (R89, R90) and the ballast (R215 to
R217). -/

namespace Sys2Proof.Machine

/-! ### The cores that live -/

/-- A context whose cores have a schedule. -/
def ctxLives (p : Part) : Bool := p.ctx == .running || p.ctx == .stopped || p.ctx == .faulted

/-- The logical cores of such contexts, in logical order within each partition. -/
def liveCores (s : State) : List (Part × Nat) :=
  (s.parts.filter ctxLives).flatMap (fun p => p.map.map (fun n => (p, n)))

/-! ### The end of a cycle -/

/-- Results land, and the conditions of waits are tested. -/
def endCore (s : State) (x : Part × Nat) : State :=
  let s := landAll s x.2
  verdictTest (modCore s x.2 (waitTests s.cc)) x.1 x.2

/-- A heddle pass whose budget has elapsed before its work is done (R360). -/
def overrunHold (c : Core) : Bool :=
  match c.pass with
  | some p => decide (p.budget < p.work) && decide (p.issued + p.budget ≤ c.cycle) && decide (p.overran < p.work - p.budget)
  | none => false

/-- A cycle on which an overrun held the core is counted; the heddle has worked on it unless the meter froze it or a
repeat held it (R360, R361, R545). -/
def countOverrun (cc : Nat) (c : Core) : Core :=
  match c.pass with
  | some p =>
    if overrunHold c && !c.sched then
      { c with
        pass := some { p with overrunning := true, overran := p.overran + flag (!c.frozen && decide (c.holds.until_ ≤ cc)) }
        heddle := { c.heddle with stOverrun := true }
        counters := bumpTbl c.counters ctrOverrunCc 1 }
    else c
  | none => c

/-! ### The next cycle of a core -/

/-- Core-wide holds that end with the state (R555, R567). -/
def settleHolds (c : Core) : Core :=
  { c with holds := { c.holds with
             verdictSlots := c.holds.verdictSlots && decide (4 ≤ c.verdicts.length)
             updUnits := c.holds.updUnits.filter (fun u => match tget Chk.clear c.storeChk u with
               | .prov _ => true
               | _ => false) } }

/-- Whether a hold of R81 or R638, other than a token freeze, stops a core on this cycle. A core-wide hold stops every identity
that the physical core runs (R361, R545, R549). -/
def heldCore (s : State) (p : Part) (n : Nat) : Bool :=
  s4Holds s p || (mates s n).any (fun m =>
    let c := getCore s m
    decide (s.cc < c.holds.until_) || c.holds.verdictSlots || !c.holds.updUnits.isEmpty || overrunHold c)

/-- Whether the quadrant's dilation gives a core this CCLK cycle (R63): the fenced identity takes the cycles between. -/
def dilated (s : State) (n : Nat) : Bool :=
  let q := quadOf n
  if pairActive s q then
    let from_ := (getQuad s q).pairFrom
    decide (from_ ≤ s.cc) && decide ((s.cc - from_) % 2 = (if n = pairFenced s q then 1 else 0))
  else true

/-- A schedule cycle ends: the cycle number and, in a RUNNING context, the phase counter advance (R54, R70). Outside RUNNING
the cycle number alone goes on, so that results land. -/
def moveOn (running : Bool) (free : Bool) (c : Core) : Core :=
  if running then
    if c.sched then { c with cycle := c.cycle + 1, phase := if planLen c = 0 then 0 else (c.phase + 1) % planLen c } else c
  else if c.sched || free then { c with cycle := c.cycle + 1 }
  else c

/-- On cycle z + 4 of a beat-up the phase counter is the resume phase of the first shuttle that has not ended (R212). -/
def beatPhase (cc : Nat) (c : Core) : Core :=
  match (allShuttles.map (shOf c)).find? (fun x => x.mode != .ended) with
  | some x => match x.wait with
    | some w => match w.kind, w.metAt with
      | .beatup _ _, some t => if t + 1 = cc then { c with phase := if planLen c = 0 then 0 else w.rph % planLen c } else c
      | _, _ => c
    | none => c
  | none => c

/-- A core halts on the cycle after its fault (R124). -/
def haltDue (cc : Nat) (c : Core) : Core :=
  match c.haltAt with
  | some h => if h ≤ cc then haltCore c else c
  | none => c

/-- A core enters the new cycle; whether it is a schedule cycle is settled by the meter. -/
def enterCore (s : State) (x : Part × Nat) : State :=
  let running := x.1.ctx == .running
  let n := x.2
  let free := !(heldCore s x.1 n) && !(getCore s n).frozen && dilated { s with cc := s.cc - 1 } n
  let s := modCore s n (fun c => haltDue s.cc (beatPhase s.cc (settleHolds (moveOn running free c))))
  let go := !(heldCore s x.1 n) && dilated s n
  landAll (modCore s n (fun c => { c with sched := go, frozen := false })) n

/-! ### The token meter (R87 to R91) -/

/-- Cost of a busy engine in half tokens (R87). -/
def tokenCost : Engine → Nat
  | .beam => 18
  | .heddle => 10
  | .vector => 3
  | .sfu => 1

def allEngines : List Engine := [.beam, .heddle, .vector, .sfu]

/-- The engine that an instruction makes busy on its issue cycle (R715). -/
def engineOf (w : InstrWord) : Option Engine :=
  let op := fldOp w
  if [0x20, 0x21, 0x22].contains op then some .beam
  else if [0x28, 0x29, 0x2A, 0x2B, 0x68, 0x69].contains op then some .heddle
  else if [0x30, 0x31, 0x32, 0x40, 0x60].contains op then some .vector
  else if [0x38, 0x39, 0x3A].contains op then some .sfu
  else if [0x48, 0x49, 0x50, 0x51].contains op then some (if bits w 72 8 = 0 then .beam else .heddle)
  else none

/-- A core as this cycle finds it once a pending slot plan has taken effect (R72). -/
def coreAsHeld (s : State) (p : Part) (n : Nat) : Core :=
  if p.ctx = .running then takePlan s.cc (getCore s n) else getCore s n

/-- Whether a shuttle resumes on this cycle (R78). -/
def resumesNow (s : State) (p : Part) (c : Core) (x : Sh) : Bool :=
  match x.mode, x.wait with
  | .wait, some w => p.ctx == .running && !p.stopping && p.faultFirst.isNone && !w.poisoned && !s4Holds s p && resumeDue s c w
  | _, _ => false

/-- The instruction that a shuttle issues on this cycle. -/
def issuesNow (s : State) (p : Part) (c : Core) (r : RegFile) (sh : Shuttle) : Option InstrWord :=
  let x := shOf c sh
  match (imgOf c sh)[(pcOf r sh).toNat]? with
  | some w =>
    if resumesNow s p c x then some w
    else if p.ctx = .running ∧ x.mode = .run ∧ (if x.resumed then c.cycle = x.last else c.cycle = x.last + fldGap w) then some w
    else none
  | none => none

/-- Whether an instruction makes an engine busy, its predicate deciding (R101). -/
def makesBusy (r : RegFile) (e : Engine) (w : InstrWord) : Bool :=
  engineOf w == some e && (!fldPen w || (bit r.p (fldPred w) != fldPneg w))

/-- Whether an engine of a core would be busy on this cycle: inside an earlier instruction's time, by an issue of this
cycle, or the heddle in an overrun. -/
def engineBusy (s : State) (p : Part) (n : Nat) (e : Engine) : Bool :=
  let c := coreAsHeld s p n
  let r := getRegs s n
  (c.sched && (decide (c.cycle < (engTime c e).busy) ||
      allShuttles.any (fun sh => match issuesNow s p c r sh with
        | some w => makesBusy r e w
        | none => false))) ||
    (e == .heddle && overrunHold c)

/-- The draw of a core in half tokens. -/
def coreDraw (s : State) (x : Part × Nat) : Nat :=
  (allEngines.map (fun e => if engineBusy s x.1 x.2 e then tokenCost e else 0)).sum

/-- The ballast cycles of a core on a schedule cycle, as costs in the order of the engines (R215, R217). -/
def ballastOf (s : State) (x : Part × Nat) : List Nat :=
  let p := x.1
  let c := coreAsHeld s p x.2
  if p.ctx = .running ∧ c.sched = true then
    allEngines.filterMap (fun e =>
      if allShuttles.any (fun sh =>
          let y := shOf c sh
          y.mode == .wait && !resumesNow s p c y && granted c e sh) && decide ((engTime c e).occupied ≤ c.cycle) then
        some (tokenCost e)
      else none)
  else []

/-- The meter's sum after the ballast it admits (R216). -/
def admitted (limit : Nat) (sum : Nat) (costs : List Nat) : Nat :=
  costs.foldl (fun a k => if a + k ≤ limit then a + k else a) sum

/-- The meter freezes a core for this cycle (R80, R90). Outside RUNNING the core has no schedule cycle to lose. -/
def freezeCore (s : State) (x : Part × Nat) : State :=
  modCore s x.2 (fun c => { c with sched := false, frozen := true, counters := bumpTbl c.counters ctrTokenFreeze 1 })

/-- The window with one cycle more: the draws of the last 1,024 cycles, newest first, less the one in progress. -/
def pushWindow (w : List Nat) (x : Nat) : List Nat := if w.isEmpty && x == 0 then [] else (x :: w).take 1023

/-- One quadrant's meter decides the cycle. -/
def meterQuad (live : List (Part × Nat)) (s : State) (q : Nat) : State :=
  let mine := live.filter (fun x => quadOf x.2 == q)
  let w := (getQuad s q).window
  let sum := w.sum
  let limit := poolNow s q * 1024
  let draws := mine.map (fun x => (x, coreDraw s x))
  let total := (draws.map (fun y => y.2)).sum
  let freeze := decide (limit < sum + total)
  let s := if freeze then draws.foldl (fun s y => if y.2 = 0 then s else freezeCore s y.1) s else s
  let base := if freeze then sum else sum + total
  let after := admitted limit base (mine.flatMap (ballastOf s))
  modQuad s q (fun x => { x with window := pushWindow w (after - sum) })

/-- Outside RUNNING no cycle is a schedule cycle (R54, R217). -/
def stillCore (s : State) (x : Part × Nat) : State :=
  if x.1.ctx = .running then s else modCore s x.2 (fun c => { c with sched := false })

/-! ### The module -/

/-- A shutdown takes at most 5 ms from POWER_DOWN (R695). -/
def finishDown (s : State) : State :=
  match s.power.downAt with
  | some t => if !s.power.pwrEn && decide (t + ms 5 ≤ s.pll) then railsOff s else s
  | none => s

/-- A host write of GEN to a RUNNING context takes effect on the cycle after its own (R405). -/
def takeGen (s : State) (q : Nat) : State :=
  match (getQuad s q).genNext with
  | some v => modQuad s q (fun x => { x with maskGen := setBits x.maskGen 0 32 v, genNext := none })
  | none => s

/-- One CCLK cycle ends and the next begins. What was due on it and not commanded happens first. -/
def tick (s : State) : State :=
  if !s.power.rails then s
  else
    let s := (liveCores s).foldl (fun s x => runCore s x.2) s
    let live := liveCores s
    let s := live.foldl endCore s
    let s := live.foldl (fun s x => foundTest (modCore s x.2 (countOverrun s.cc)) x.2) s
    let s := { s with cc := s.cc + 1, pll := s.pll + divider s.power.divNow }
    let s := live.foldl enterCore s
    let s := (List.range 8).foldl (meterQuad live) s
    let s := live.foldl stillCore s
    let s := (List.range 8).foldl takeGen s
    let s := s.parts.foldl settleExit s
    let s := (List.range 8).foldl settleQuiesce s
    finishDown (settleEnd (settleS5 (sweepOn s)))

end Sys2Proof.Machine
end

