-- ==== Sys2Proof/WellFormed.lean ====
section
/-! DEFINITION. Which commands are well formed: every operand in the range its field can carry. A command that is not
well formed is one that nothing outside the module can send. -/

namespace Sys2Proof

/-! ### Operand ranges -/

/-- 64-byte units of a tier at its largest (R1): 576 GiB of HBM3E, 3 TiB of LPDDR5X. -/
def unitsIn : Tier → Nat
  | .hbm => 576 * 2 ^ 24
  | .lpddr => 3072 * 2 ^ 24

/-- Core-store units and tun lines exist (R26, R28), and a detection names a lane of a set (R222). -/
def Upsets.wf (u : Upsets) : Bool :=
  u.storeDouble.all (fun x => decide (x < 24576)) && u.tunDouble.all (fun x => decide (x < 16384)) &&
    u.detections.all (fun d => decide (d.lane < 16384))

/-- The units that ECC names exist. -/
def MemEcc.wf (e : MemEcc) : Bool :=
  e.bad.all (fun x => decide (x.2 < unitsIn x.1)) && e.corrected.all (fun x => decide (x.2 < unitsIn x.1))

/-- Core-store units and tun lines exist (R26, R28). -/
def SramEcc.wf (e : SramEcc) : Bool :=
  e.store.all (fun x => decide (x < 24576)) && e.tun.all (fun x => decide (x < 16384))

/-- The header fields of a frame fit their widths and the payload its largest piece (R488). -/
def Frame.wf (f : Frame) : Bool :=
  decide (f.standIn < 64) && decide (f.srcCore < 256) && decide (f.data.length ≤ 4096)

/-- The sender is a module index (R10). -/
def Rx.wf (x : Rx) : Bool := decide (x.sender < 64) && x.frame.wf

def Slot.wf : Slot → Bool
  | .head f => f.wf
  | .data b => decide (b.length ≤ 64)

/-- At most 25 payload slots (R485), on one of 32 virtual lanes each (R491). -/
def Flit.wf (x : Flit) : Bool :=
  decide (x.slots.length ≤ 25) && decide (x.port < 8) && decide (x.sender < 64) &&
    x.slots.all (fun y => decide (y.1 < 32) && y.2.wf) && x.credit.all (fun y => decide (y.1 < 32))

def TrainingSeen.wf (x : TrainingSeen) : Bool := decide (x.port < 8) && decide (x.sender < 64)

/-- A binary has one k_q and one demand list entry per quadrant of its size (R51), descriptor entries of the table (R131),
and at most 184 or 192 core images (R1). -/
def Binary.wf (b : Binary) : Bool :=
  decide (b.cores.length ≤ 192) && decide (b.kq.length = b.quadrants) &&
    b.cores.all (fun c => c.descs.all (fun d => decide (d.1 < 256)))

/-- At most 4,096 allocation entries (R164) and 16 load parameters (R533). -/
def LoadInput.wf (x : LoadInput) : Bool :=
  decide (x.alloc.length ≤ 4096) && decide (x.params.length ≤ 16) &&
    (match x.binary with
      | some b => b.wf
      | none => true)

/-- The payload of a checkpoint record lies in its tier (R435). -/
def RecordSource.wf (x : RecordSource) : Bool := decide (x.offset + x.length ≤ 64 * unitsIn x.tier)

def RecordTarget.wf (x : RecordTarget) : Bool := decide (x.offset < 64 * unitsIn x.tier)

/-- An access of 8, 16, 32 or 64 bits inside the 32 MiB of BAR0 (R536), whose value fits. -/
def MmioAccess.wf (x : MmioAccess) : Bool :=
  [8, 16, 32, 64].contains x.width && decide (x.addr + x.width / 8 ≤ 2 ^ 25) && decide (x.value.toNat < 2 ^ x.width)

/-- A temperature fits the 16 signed bits in which it is reported (R645). -/
def tmaxWf (t : Int) : Bool := decide (-32768 ≤ t) && decide (t ≤ 32767)

/-! ### Commands -/

/-- The opcode and the issue of an instruction row; none for the other rows. -/
def Instr.issue : Instr → Option (Nat × Issue)
  | .nop i => some (0x00, i)
  | .br i => some (0x01, i)
  | .loop i => some (0x02, i)
  | .endShuttle i => some (0x03, i)
  | .slotSel i => some (0x04, i)
  | .trap i => some (0x05, i)
  | .add i => some (0x08, i)
  | .subtract i => some (0x09, i)
  | .mul i => some (0x0A, i)
  | .logic i => some (0x0B, i)
  | .shf i => some (0x0C, i)
  | .mov i => some (0x0D, i)
  | .cmp i => some (0x0E, i)
  | .sel i => some (0x0F, i)
  | .descMake i => some (0x10, i)
  | .descSet i => some (0x11, i)
  | .descOffs i => some (0x12, i)
  | .descLdt i => some (0x13, i)
  | .descStt i => some (0x14, i)
  | .bqIssue i => some (0x18, i)
  | .bqWait i => some (0x19, i)
  | .beamMm i => some (0x20, i)
  | .beamScore i => some (0x21, i)
  | .beamZero i => some (0x22, i)
  | .heddleSpmm i => some (0x28, i)
  | .heddleSddmm i => some (0x29, i)
  | .heddleSpsp i => some (0x2A, i)
  | .heddleZero i => some (0x2B, i)
  | .vecOp i => some (0x30, i)
  | .vecRed i => some (0x31, i)
  | .vecCvt i => some (0x32, i)
  | .sfuEval i => some (0x38, i)
  | .sfuDeriv i => some (0x39, i)
  | .sfuLoad i => some (0x3A, i)
  | .grav i => some (0x40, i)
  | .drain i => some (0x48, i)
  | .drainD i => some (0x49, i)
  | .chainSend i => some (0x50, i)
  | .chainSeed i => some (0x51, i)
  | .caskOpen i => some (0x58, i)
  | .caskHdr i => some (0x59, i)
  | .caskPut i => some (0x5A, i)
  | .caskNorm i => some (0x5B, i)
  | .caskClose i => some (0x5C, i)
  | .upd i => some (0x60, i)
  | .updCfg i => some (0x61, i)
  | .cull i => some (0x68, i)
  | .germinate i => some (0x69, i)
  | .maskCommit i => some (0x6A, i)
  | .semSig i => some (0x70, i)
  | .semWait i => some (0x71, i)
  | .beatup i => some (0x72, i)
  | .verdictWait i => some (0x73, i)
  | .fenceC i => some (0x78, i)
  | .fenceQ i => some (0x79, i)
  | .fenceD i => some (0x7A, i)
  | .fenceF i => some (0x7B, i)
  | .selvCfg i => some (0x80, i)
  | .selvRun i => some (0x81, i)
  | .selvRead i => some (0x82, i)
  | .pwrHorizon i => some (0x88, i)
  | .jnlHash i => some (0x90, i)
  | .jnlWrite i => some (0x91, i)
  | .jnlTap i => some (0x92, i)
  | .deferredFaultDetect _ _ => none
  | .contextFaulted _ => none
  | .contextStopped _ => none
  | .waitResume _ _ => none
  | .slotPlanTakeEffect _ => none
  | .resultVisible _ => none
  | .tunDrainLand _ => none
  | .heddleOverrun _ => none
  | .heddleWorkComplete _ => none
  | .plausibilityVerdict _ _ _ => none
  | .verdictFrameSend _ _ => none
  | .heldAccessRelease _ _ _ => none
  | .bobbinRequestComplete _ _ _ _ _ => none
  | .remoteRequestTimeout _ _ _ => none
  | .signalPerform _ => none
  | .beatupComplete _ _ => none
  | .journalEntryComplete _ => none
  | .selvRunComplete _ => none
  | .readFrameReceive _ _ => none
  | .writeFrameReceive _ => none
  | .addFrameReceive _ _ => none
  | .dataFrameReceive _ => none
  | .doneFrameReceive _ => none
  | .caskHdrReceive _ => none
  | .caskPieceReceive _ _ => none
  | .caskAckReceive _ => none
  | .verdictReceive _ => none
  | .normReceive _ => none
  | .signalFrameReceive _ => none
  | .beatupFrameReceive _ => none
  | .tapFrameReceive _ => none
  | .quiesceNoticeReceive _ _ => none
  | .heldFrameRelease _ _ => none
  | .sectionSeal _ _ _ => none
  | .bucketDeadline _ _ _ => none
  | .sectionDeadline _ _ _ => none
  | .caskSelvVerdict _ _ => none
  | .flitSend _ _ => none
  | .flitReceive _ _ _ _ => none
  | .retryRequestReceive _ _ _ => none
  | .lockLossTimeout _ _ => none
  | .retrainComplete _ _ _ => none
  | .retrainTimeout _ _ => none
  | .calTrackingStep _ => none
  | .portBringUp _ _ => none
  | .laserInputChange _ _ => none
  | .patrolScrubRead _ _ _ => none
  | .errorRecordCopy => none
  | .hangDetect _ => none
  | .hangAutoReset _ => none
  | .resetLevelTimeout _ => none
  | .resetSequenceComplete _ => none
  | .contextClearComplete _ => none
  | .load _ _ _ => none
  | .start _ _ => none
  | .stop _ _ => none
  | .unload _ _ => none
  | .checkpoint _ _ _ => none
  | .restore _ _ _ => none
  | .replay _ _ _ => none
  | .partition _ _ => none
  | .reset _ _ => none
  | .cellarRingTailWrite _ _ => none
  | .cellarCplHeadWrite _ _ => none
  | .cellarRingCtrlWrite _ _ => none
  | .msixVectorUnmask _ => none
  | .hdmHostRead _ _ _ => none
  | .hdmHostWrite _ _ => none
  | .biSnoopResponse _ => none
  | .cellarHdmSegWrite _ _ => none
  | .mmioBadAccess _ => none
  | .cxlForeignRequest _ _ _ => none
  | .cxlLinkTrained _ _ => none
  | .mctpControlMessage _ _ => none
  | .pldmRequestUpdate _ => none
  | .pldmComponentTransfer _ _ => none
  | .pldmActivateFirmware _ => none
  | .recoveryImageReceive _ _ => none
  | .spdmGetMeasurements _ _ _ => none
  | .spdmGetCertificate _ _ => none
  | .spdmChallenge _ _ _ => none
  | .spdmKeyExchange _ _ _ => none
  | .spdmHeartbeat _ _ => none
  | .ideKm _ _ _ _ _ => none
  | .cellarCoreFenceClear _ _ => none
  | .cellarCoreFenceSet _ _ => none
  | .cellarErrTailWrite _ => none
  | .cellarSelvGo => none
  | .hostSelvRunComplete _ => none
  | .admitDevice => none
  | .svnCommit => none
  | .selftestGo _ => none
  | .selftestCoreStart _ => none
  | .selftestCoreDone _ _ => none
  | .calGo _ => none
  | .calComplete => none
  | .portRetrainWrite _ _ => none
  | .portFabricWrite _ => none
  | .quadMaskGenWrite _ _ => none
  | .quadCtxModeWrite _ _ => none
  | .pwrHorizonHostWrite _ _ => none
  | .pwrPoolCapWrite _ _ => none
  | .divHostWrite _ => none
  | .registerWrite _ => none
  | .cclkDividerChange => none
  | .shedStageChange _ => none
  | .s4LimitExpiry _ => none
  | .tclkLoss => none
  | .tclkAbsent => none
  | .thermalThrottleStep _ => none
  | .thermalCritical _ _ => none
  | .thermalShutdown _ => none
  | .idleEnter _ => none
  | .idleExit _ _ => none
  | .powerUp _ => none
  | .boot _ => none
  | .powerDown => none
  | .inputUndervoltageOff _ => none
  | .inputOvervoltageOff _ => none
  | .railFault => none
  | .leakDetect _ => none
  | .tclkReturn => none
  | .thermalCritClear _ => none
  | .inputReturn _ => none
  | .intermittentWindowExpiry _ => none
  | .resetHistoryExpiry => none
  | .idleMmioAccess _ => none

/-- Whether a command is well formed. Every 128-bit word is (R108: it decodes or raises a decode fault). -/
def Instr.wf : Instr → Bool
  | .nop i => i.ups.wf
  | .br i => i.ups.wf
  | .loop i => i.ups.wf
  | .endShuttle i => i.ups.wf
  | .slotSel i => i.ups.wf
  | .trap i => i.ups.wf
  | .add i => i.ups.wf
  | .subtract i => i.ups.wf
  | .mul i => i.ups.wf
  | .logic i => i.ups.wf
  | .shf i => i.ups.wf
  | .mov i => i.ups.wf
  | .cmp i => i.ups.wf
  | .sel i => i.ups.wf
  | .descMake i => i.ups.wf
  | .descSet i => i.ups.wf
  | .descOffs i => i.ups.wf
  | .descLdt i => i.ups.wf
  | .descStt i => i.ups.wf
  | .bqIssue i => i.ups.wf
  | .bqWait i => i.ups.wf
  | .beamMm i => i.ups.wf
  | .beamScore i => i.ups.wf
  | .beamZero i => i.ups.wf
  | .heddleSpmm i => i.ups.wf
  | .heddleSddmm i => i.ups.wf
  | .heddleSpsp i => i.ups.wf
  | .heddleZero i => i.ups.wf
  | .vecOp i => i.ups.wf
  | .vecRed i => i.ups.wf
  | .vecCvt i => i.ups.wf
  | .sfuEval i => i.ups.wf
  | .sfuDeriv i => i.ups.wf
  | .sfuLoad i => i.ups.wf
  | .grav i => i.ups.wf
  | .drain i => i.ups.wf
  | .drainD i => i.ups.wf
  | .chainSend i => i.ups.wf
  | .chainSeed i => i.ups.wf
  | .caskOpen i => i.ups.wf
  | .caskHdr i => i.ups.wf
  | .caskPut i => i.ups.wf
  | .caskNorm i => i.ups.wf
  | .caskClose i => i.ups.wf
  | .upd i => i.ups.wf
  | .updCfg i => i.ups.wf
  | .cull i => i.ups.wf
  | .germinate i => i.ups.wf
  | .maskCommit i => i.ups.wf
  | .semSig i => i.ups.wf
  | .semWait i => i.ups.wf
  | .beatup i => i.ups.wf
  | .verdictWait i => i.ups.wf
  | .fenceC i => i.ups.wf
  | .fenceQ i => i.ups.wf
  | .fenceD i => i.ups.wf
  | .fenceF i => i.ups.wf
  | .selvCfg i => i.ups.wf
  | .selvRun i => i.ups.wf
  | .selvRead i => i.ups.wf
  | .pwrHorizon i => i.ups.wf
  | .jnlHash i => i.ups.wf
  | .jnlWrite i => i.ups.wf
  | .jnlTap i => i.ups.wf
  | .deferredFaultDetect _ _ => true
  | .contextFaulted _ => true
  | .contextStopped _ => true
  | .waitResume _ _ => true
  | .slotPlanTakeEffect _ => true
  | .resultVisible _ => true
  | .tunDrainLand _ => true
  | .heddleOverrun _ => true
  | .heddleWorkComplete _ => true
  | .plausibilityVerdict _ _ _ => true
  | .verdictFrameSend _ _ => true
  | .heldAccessRelease _ _ sram => sram.wf
  | .bobbinRequestComplete _ _ _ ecc sram => ecc.wf && sram.wf
  | .remoteRequestTimeout _ _ _ => true
  | .signalPerform _ => true
  | .beatupComplete _ _ => true
  | .journalEntryComplete _ => true
  | .selvRunComplete _ => true
  | .readFrameReceive rx ecc => rx.wf && ecc.wf
  | .writeFrameReceive rx => rx.wf
  | .addFrameReceive rx ecc => rx.wf && ecc.wf
  | .dataFrameReceive rx => rx.wf
  | .doneFrameReceive rx => rx.wf
  | .caskHdrReceive rx => rx.wf
  | .caskPieceReceive rx _ => rx.wf
  | .caskAckReceive rx => rx.wf
  | .verdictReceive rx => rx.wf
  | .normReceive rx => rx.wf
  | .signalFrameReceive rx => rx.wf
  | .beatupFrameReceive rx => rx.wf
  | .tapFrameReceive rx => rx.wf
  | .quiesceNoticeReceive _ _ => true
  | .heldFrameRelease _ _ => true
  | .sectionSeal _ _ _ => true
  | .bucketDeadline _ _ _ => true
  | .sectionDeadline _ _ _ => true
  | .caskSelvVerdict _ _ => true
  | .flitSend _ _ => true
  | .flitReceive _ _ flit _ => flit.wf
  | .retryRequestReceive _ _ _ => true
  | .lockLossTimeout _ _ => true
  | .retrainComplete _ _ _ => true
  | .retrainTimeout _ _ => true
  | .calTrackingStep _ => true
  | .portBringUp _ seen => seen.all TrainingSeen.wf
  | .laserInputChange _ powers => decide (powers.length = 64)
  | .patrolScrubRead tier unit _ => decide (unit < unitsIn tier)
  | .errorRecordCopy => true
  | .hangDetect _ => true
  | .hangAutoReset _ => true
  | .resetLevelTimeout _ => true
  | .resetSequenceComplete _ => true
  | .contextClearComplete _ => true
  | .load _ _ input => input.wf
  | .start _ _ => true
  | .stop _ _ => true
  | .unload _ _ => true
  | .checkpoint _ _ manifest => manifest.all RecordSource.wf
  | .restore _ _ targets => targets.all RecordTarget.wf
  | .replay _ _ targets => targets.all RecordTarget.wf
  | .partition _ _ => true
  | .reset _ _ => true
  | .cellarRingTailWrite _ _ => true
  | .cellarCplHeadWrite _ _ => true
  | .cellarRingCtrlWrite _ _ => true
  | .msixVectorUnmask _ => true
  | .hdmHostRead addr _ ecc => decide (addr < 2 ^ 40) && decide (addr % 64 = 0) && ecc.wf
  | .hdmHostWrite addr data => decide (addr + data.length ≤ 2 ^ 40) && decide (addr % 64 + data.length ≤ 64)
  | .biSnoopResponse line => decide (line < 2 * unitsIn .lpddr + 2)
  | .cellarHdmSegWrite _ _ => true
  | .mmioBadAccess access => access.wf
  | .cxlForeignRequest _ _ addr => decide (addr < 2 ^ 64)
  | .cxlLinkTrained width _ => [1, 2, 4, 8].contains width
  | .mctpControlMessage _ _ => true
  | .pldmRequestUpdate _ => true
  | .pldmComponentTransfer _ _ => true
  | .pldmActivateFirmware _ => true
  | .recoveryImageReceive _ _ => true
  | .spdmGetMeasurements _ _ nonce => decide (nonce.length = 32)
  | .spdmGetCertificate _ _ => true
  | .spdmChallenge _ _ nonce => decide (nonce.length = 32)
  | .spdmKeyExchange _ _ _ => true
  | .spdmHeartbeat _ _ => true
  | .ideKm _ _ _ _ _ => true
  | .cellarCoreFenceClear _ _ => true
  | .cellarCoreFenceSet _ _ => true
  | .cellarErrTailWrite _ => true
  | .cellarSelvGo => true
  | .hostSelvRunComplete ecc => ecc.wf
  | .admitDevice => true
  | .svnCommit => true
  | .selftestGo _ => true
  | .selftestCoreStart _ => true
  | .selftestCoreDone _ _ => true
  | .calGo _ => true
  | .calComplete => true
  | .portRetrainWrite _ _ => true
  | .portFabricWrite _ => true
  | .quadMaskGenWrite _ _ => true
  | .quadCtxModeWrite _ _ => true
  | .pwrHorizonHostWrite _ _ => true
  | .pwrPoolCapWrite _ _ => true
  | .divHostWrite _ => true
  | .registerWrite access => access.wf
  | .cclkDividerChange => true
  | .shedStageChange average => decide (average < 65536)
  | .s4LimitExpiry _ => true
  | .tclkLoss => true
  | .tclkAbsent => true
  | .thermalThrottleStep tmax => tmaxWf tmax
  | .thermalCritical tmax _ => tmaxWf tmax
  | .thermalShutdown tmax => tmaxWf tmax
  | .idleEnter _ => true
  | .idleExit _ _ => true
  | .powerUp input => decide (input < 65536)
  | .boot found => [0, 1, 2, 4, 8].contains found.linkWidth
  | .powerDown => true
  | .inputUndervoltageOff input => decide (input < 65536)
  | .inputOvervoltageOff average => decide (average < 65536)
  | .railFault => true
  | .leakDetect _ => true
  | .tclkReturn => true
  | .thermalCritClear tmax => tmaxWf tmax
  | .inputReturn input => decide (input < 65536)
  | .intermittentWindowExpiry _ => true
  | .resetHistoryExpiry => true
  | .idleMmioAccess access => access.wf

end Sys2Proof
end

