-- ==== Sys2Proof/Safety.lean ====
section
/-! DEFINITION. What counts as a sound module, in the terms the statements use: the invariants every step keeps, and the
frames that say what a command may touch. -/

namespace Sys2Proof.Machine

/-! ### Invariants -/

/-- Both memory tiers are in canonical form: addresses strictly rising, no listed byte that reads as an unlisted one. -/
def memWf (s : State) : Bool := twf 0 s.hbm && twf 0 s.lpddr

/-- The clock and supply modes are legal: every divider code is one of R625's five, and the supply stage one of R633's
six. -/
def legalModes (p : Power) : Bool :=
  decide (p.divHost ≤ 4) && decide (p.divTherm ≤ 4) && decide (p.divNow ≤ 4) && decide (p.stage ≤ 5)

/-- The cellar holds at most 512 error records (R579) and the coalescing table at most 256 entries (R580). -/
def boundedErrors (e : Errors) : Bool := decide (e.store.length ≤ 512) && decide (e.table.length ≤ 256)

/-- The invariant of the whole module. -/
def Inv (s : State) : Prop := memWf s = true ∧ legalModes s.power = true ∧ boundedErrors s.errors = true

/-! ### Frames -/

/-- Fused content that no command changes: ordering code, stepping, accepted profiles, CELLAR_CORE_DISABLE and the hashes
of the firmware keys (R5, R58, R660). -/
def fusedSame (s t : State) : Prop :=
  t.fuses.code = s.fuses.code ∧ t.fuses.stepping = s.fuses.stepping ∧ t.fuses.tp1 = s.fuses.tp1 ∧
  t.fuses.tp2 = s.fuses.tp2 ∧ t.fuses.disable = s.fuses.disable ∧ t.fuses.eccKeyHash = s.fuses.eccKeyHash ∧
  t.fuses.lmsKeyHash = s.fuses.lmsKeyHash

/-- What every command keeps between the state it finds and the one it leaves: the queue, the fuses (the OTP security
version may only rise, R665), the free-value counter never falls, and the parts of the invariant. -/
def Kept (s t : State) : Prop :=
  t.pending = s.pending ∧ fusedSame s t ∧ s.fuses.otpSvn ≤ t.fuses.otpSvn ∧ s.draws ≤ t.draws ∧
  (memWf s = true → memWf t = true) ∧ (legalModes s.power = true → legalModes t.power = true) ∧
  (boundedErrors s.errors = true → boundedErrors t.errors = true)

/-- The same of an outcome: whenever it is a next state. -/
def KeptO (s : State) (o : Host.Outcome State Fault Refusal) : Prop := ∀ t, o = .next t → Kept s t

/-- The same of what an instruction would do. -/
def KeptA (s : State) (x : Action) : Prop :=
  Kept s x.eff ∧ (∀ t, x.off = some t → Kept s t) ∧ (∀ t, x.onDesc = some t → Kept s t)

/-- Nothing outside the listed cores differs, but the note of W1C bits set on this cycle (R687). -/
def onlyCores (l : List Nat) (s t : State) : Prop :=
  t = { s with cores := t.cores, w1c := t.w1c, w1cAt := t.w1cAt } ∧ ∀ m, m ∉ l → getCore t m = getCore s m

/-! ### Instructions as actions -/

/-- What an instruction row does in its place; none for the other rows. -/
def actionOf : Instr → Option (At → Action)
  | .nop _ => some actNop
  | .br _ => some actBr
  | .loop _ => some actLoop
  | .endShuttle _ => some actEnd
  | .slotSel _ => some actSlotSel
  | .trap _ => some actTrap
  | .add _ => some actAdd
  | .subtract _ => some actSub
  | .mul _ => some actMul
  | .logic _ => some actLogic
  | .shf _ => some actShf
  | .mov _ => some actMov
  | .cmp _ => some actCmp
  | .sel _ => some actSel
  | .descMake _ => some actDescMake
  | .descSet _ => some actDescSet
  | .descOffs _ => some actDescOffs
  | .descLdt _ => some actDescLdt
  | .descStt _ => some actDescStt
  | .bqIssue _ => some actBqIssue
  | .bqWait _ => some actBqWait
  | .beamMm _ => some actBeamMm
  | .beamScore _ => some actBeamScore
  | .beamZero _ => some actBeamZero
  | .heddleSpmm _ => some actSpmm
  | .heddleSddmm _ => some actSddmm
  | .heddleSpsp _ => some actSpsp
  | .heddleZero _ => some actHeddleZero
  | .vecOp _ => some actVecOp
  | .vecRed _ => some actVecRed
  | .vecCvt _ => some actVecCvt
  | .sfuEval _ => some actSfuEval
  | .sfuDeriv _ => some actSfuDeriv
  | .sfuLoad _ => some actSfuLoad
  | .grav _ => some actGrav
  | .drain _ => some actDrain
  | .drainD _ => some actDrainD
  | .chainSend _ => some actChainSend
  | .chainSeed _ => some actChainSeed
  | .caskOpen _ => some actCaskOpen
  | .caskHdr _ => some actCaskHdr
  | .caskPut _ => some actCaskPut
  | .caskNorm _ => some actCaskNorm
  | .caskClose _ => some actCaskClose
  | .upd _ => some actUpd
  | .updCfg _ => some actUpdCfg
  | .cull _ => some actCull
  | .germinate _ => some actGerminate
  | .maskCommit _ => some actMaskCommit
  | .semSig _ => some actSemSig
  | .semWait _ => some actSemWait
  | .beatup _ => some actBeatup
  | .verdictWait _ => some actVerdictWait
  | .fenceC _ => some (actFence 0)
  | .fenceQ _ => some (actFence 1)
  | .fenceD _ => some (actFence 2)
  | .fenceF _ => some (actFence 3)
  | .selvCfg _ => some actSelvCfg
  | .selvRun _ => some actSelvRun
  | .selvRead _ => some actSelvRead
  | .pwrHorizon _ => some actPwrHorizon
  | .jnlHash _ => some actJnlHash
  | .jnlWrite _ => some actJnlWrite
  | .jnlTap _ => some actJnlTap
  | .deferredFaultDetect _ _ => none
  | .contextFaulted _ => none
  | .contextStopped _ => none
  | .waitResume _ _ => none
  | .slotPlanTakeEffect _ => none
  | .resultVisible _ => none
  | .tunDrainLand _ => none
  | .heddleOverrun _ => none
  | .heddleWorkComplete _ => none
  | .plausibilityVerdict _ _ _ => none
  | .verdictFrameSend _ _ => none
  | .heldAccessRelease _ _ _ => none
  | .bobbinRequestComplete _ _ _ _ _ => none
  | .remoteRequestTimeout _ _ _ => none
  | .signalPerform _ => none
  | .beatupComplete _ _ => none
  | .journalEntryComplete _ => none
  | .selvRunComplete _ => none
  | .readFrameReceive _ _ => none
  | .writeFrameReceive _ => none
  | .addFrameReceive _ _ => none
  | .dataFrameReceive _ => none
  | .doneFrameReceive _ => none
  | .caskHdrReceive _ => none
  | .caskPieceReceive _ _ => none
  | .caskAckReceive _ => none
  | .verdictReceive _ => none
  | .normReceive _ => none
  | .signalFrameReceive _ => none
  | .beatupFrameReceive _ => none
  | .tapFrameReceive _ => none
  | .quiesceNoticeReceive _ _ => none
  | .heldFrameRelease _ _ => none
  | .sectionSeal _ _ _ => none
  | .bucketDeadline _ _ _ => none
  | .sectionDeadline _ _ _ => none
  | .caskSelvVerdict _ _ => none
  | .flitSend _ _ => none
  | .flitReceive _ _ _ _ => none
  | .retryRequestReceive _ _ _ => none
  | .lockLossTimeout _ _ => none
  | .retrainComplete _ _ _ => none
  | .retrainTimeout _ _ => none
  | .calTrackingStep _ => none
  | .portBringUp _ _ => none
  | .laserInputChange _ _ => none
  | .patrolScrubRead _ _ _ => none
  | .errorRecordCopy => none
  | .hangDetect _ => none
  | .hangAutoReset _ => none
  | .resetLevelTimeout _ => none
  | .resetSequenceComplete _ => none
  | .contextClearComplete _ => none
  | .load _ _ _ => none
  | .start _ _ => none
  | .stop _ _ => none
  | .unload _ _ => none
  | .checkpoint _ _ _ => none
  | .restore _ _ _ => none
  | .replay _ _ _ => none
  | .partition _ _ => none
  | .reset _ _ => none
  | .cellarRingTailWrite _ _ => none
  | .cellarCplHeadWrite _ _ => none
  | .cellarRingCtrlWrite _ _ => none
  | .msixVectorUnmask _ => none
  | .hdmHostRead _ _ _ => none
  | .hdmHostWrite _ _ => none
  | .biSnoopResponse _ => none
  | .cellarHdmSegWrite _ _ => none
  | .mmioBadAccess _ => none
  | .cxlForeignRequest _ _ _ => none
  | .cxlLinkTrained _ _ => none
  | .mctpControlMessage _ _ => none
  | .pldmRequestUpdate _ => none
  | .pldmComponentTransfer _ _ => none
  | .pldmActivateFirmware _ => none
  | .recoveryImageReceive _ _ => none
  | .spdmGetMeasurements _ _ _ => none
  | .spdmGetCertificate _ _ => none
  | .spdmChallenge _ _ _ => none
  | .spdmKeyExchange _ _ _ => none
  | .spdmHeartbeat _ _ => none
  | .ideKm _ _ _ _ _ => none
  | .cellarCoreFenceClear _ _ => none
  | .cellarCoreFenceSet _ _ => none
  | .cellarErrTailWrite _ => none
  | .cellarSelvGo => none
  | .hostSelvRunComplete _ => none
  | .admitDevice => none
  | .svnCommit => none
  | .selftestGo _ => none
  | .selftestCoreStart _ => none
  | .selftestCoreDone _ _ => none
  | .calGo _ => none
  | .calComplete => none
  | .portRetrainWrite _ _ => none
  | .portFabricWrite _ => none
  | .quadMaskGenWrite _ _ => none
  | .quadCtxModeWrite _ _ => none
  | .pwrHorizonHostWrite _ _ => none
  | .pwrPoolCapWrite _ _ => none
  | .divHostWrite _ => none
  | .registerWrite _ => none
  | .cclkDividerChange => none
  | .shedStageChange _ => none
  | .s4LimitExpiry _ => none
  | .tclkLoss => none
  | .tclkAbsent => none
  | .thermalThrottleStep _ => none
  | .thermalCritical _ _ => none
  | .thermalShutdown _ => none
  | .idleEnter _ => none
  | .idleExit _ _ => none
  | .powerUp _ => none
  | .boot _ => none
  | .powerDown => none
  | .inputUndervoltageOff _ => none
  | .inputOvervoltageOff _ => none
  | .railFault => none
  | .leakDetect _ => none
  | .tclkReturn => none
  | .thermalCritClear _ => none
  | .inputReturn _ => none
  | .intermittentWindowExpiry _ => none
  | .resetHistoryExpiry => none
  | .idleMmioAccess _ => none

/-- The instruction executes (R99), meets no fault (R121) and no core-wide hold (R81). -/
def clean (a : At) (x : Action) : Prop := executes a = true ∧ actionFault a x = none ∧ x.hold = none

/-! ### Instructions in their place -/

/-- An instruction of a row stands ready in its place: it is due (R68), its opcode is in the map (R108), its predicate
holds (R99), and none of its reserved bits is set (R100, R107). -/
def Ready (op : Nat) (f : Fmt) (i : Issue) (s : State) (a : At) : Prop :=
  place op i s = some a ∧ opcodeDefined (fldOp a.w) = true ∧ executes a = true ∧ reservedConds f a.w = []

/-- An instruction of a row runs in its place: it is due, meets none of its fault conditions and no hold, and physics
upsets nothing (assumption 7). -/
def Runs (op : Nat) (i : Issue) (s : State) (a : At) (x : Action) : Prop :=
  place op i s = some a ∧ opcodeDefined (fldOp a.w) = true ∧ clean a x ∧ a.ups = Upsets.none

/-- One more result is in flight on the core: it lands `lat` schedule cycles after the issue. -/
def landsIn (a : At) (t : State) (lat : Nat) (e : Effect) : Prop :=
  ∃ f, (getCore t a.n).flight = a.c.flight ++ [f] ∧ f.due = a.c.cycle + lat ∧ f.sh = a.sh ∧ f.effect = e

/-- What no engine instruction changes as it issues: core store, tun, descriptors, semaphores, queues and registers of
its core, every core but its own and the one that holds its registers, LPDDR5X, and HBM3E as long as no record has to be
copied to its ring. -/
def issueFrame (a : At) (t : State) : Prop :=
  (getCore t a.n).store = a.c.store ∧ (getCore t a.n).tun = a.c.tun ∧ (getCore t a.n).desc = a.c.desc ∧
  (getCore t a.n).sems = a.c.sems ∧ (getCore t a.n).queues = a.c.queues ∧
  (∀ sp, regRead (getRegs t a.n) sp = regRead a.r sp) ∧
  (∀ m, m ≠ a.n → m ≠ runner a.s a.n → getCore t m = getCore a.s m) ∧
  t.lpddr = a.s.lpddr ∧ (a.s.errors.store.length < 510 → t.hbm = a.s.hbm)

/-- D, S1 and, without FLAGS[24], S2 name entries of their files, and D is no token register (R103, R104). -/
def scalarNamed (w : InstrWord) : Prop :=
  specBad (sD w) = false ∧ specFile (sD w) ≠ 3 ∧ specBad (sS1 w) = false ∧ (fldFlag w 0 = true ∨ specBad (sS2 w) = false)

/-- A scalar result on its way to D, which it reaches on the next cycle (class K0, R83). -/
def toD (a : At) (v : Nat) : State := pushReg a.s a (sD a.w) 1 v

/-- A sum, difference or product as its destination takes it (R95, R109): a count saturates, the rest wraps. -/
def scalarFit (w : InstrWord) (v : Int) : Nat :=
  if specFile (sD w) = 1 then (max 0 (min v (2 ^ 32 - 1))).toNat else (v % 2 ^ 64).toNat

/-- The relation of CMP that FN names (R109). -/
def cmpHolds (fn x y : Nat) : Prop :=
  (fn = 0 → x = y) ∧ (fn = 1 → x ≠ y) ∧ (fn = 2 → signed 64 x < signed 64 y) ∧ (fn = 3 → x < y) ∧
  (fn = 4 → signed 64 x ≤ signed 64 y) ∧ (fn = 5 → x ≤ y)

/-! ### Frames sent and received -/

/-- A frame is on its way to a module through a port: over the mesh to the module itself, else behind the slots of its
virtual lane, unless the channel is FAILED. -/
def frameOut (s t : State) (port : Fin 8) (m : Nat) (f : Frame) : Prop :=
  (m = ownIndex s → ({ port := port, sender := m, frame := f } : Rx) ∈ t.mesh) ∧
  (m ≠ ownIndex s → (getChan s port.val m).state ≠ .failed →
    ∀ y ∈ frameSlots f, y ∈ tget [] (getChan t port.val m).txq (vlOf f))

/-- One memory tier becomes the given bytes, and the other stays. -/
def onlyTier (s t : State) (ti : Tier) (m : Tbl Byte) : Prop :=
  tierMem t ti = m ∧ ∀ x, x ≠ ti → tierMem t x = tierMem s x

/-- A cask frame that has come to the cask and the open bucket it names, with the bucket's tag, from a sender that may
speak for a contributor not withheld, behind no held frame of its lane (R450, R462, R463, R469). -/
def forBucket (s : State) (rx : Rx) (l : CaskLoc) (p : Part) (r : BucketRec) (x : CaskBucket) : Prop :=
  (takeRx s rx).isSome = true ∧ partAt s (faLow rx.frame.addr) = some p ∧ p.reset = none ∧ p.afterReset = false ∧
  faCask rx.frame.addr < caskCount p ∧ l = { k := caskOf p (faCask rx.frame.addr), low := p.low, b := faBucket rx.frame.addr } ∧
  bucketAt s l = some x ∧ bucketRec p l.b = some r ∧ rx.frame.tag = x.tag ∧ bit r.contrib (speaksFor rx) = true ∧
  (rx.frame.backup = true → backupOf r (speaksFor rx) = rx.sender) ∧ speaksFor rx ∉ x.withheld ∧
  (getCask s rx.port.val).held.any (fun h => sameLane h.rx rx) = false

/-- Every other bucket of every cask is as it was. -/
def onlyBucket (s t : State) (l : CaskLoc) : Prop :=
  ∀ o, o ≠ l → bucketAt t o = bucketAt s o

/-! ### Rings -/

/-- Ring r takes a sound entry of a command for a partition that the service state lets through (R519 to R527). -/
def ringRuns (opc : Nat) (r : Fin 8) (e : CmdEntry) (s : State) (p : Part) : Prop :=
  ringReady s r.val opc = true ∧ rowTakes opc e = true ∧ e.bad = false ∧ entryBad e = false ∧
  serviceTakes s.boot.service opc = true ∧ partAt s r.val = some p

/-- The ring's next completion, with its tag, status and detail, is written at CPL_TAIL (R526). -/
def completes (s t : State) (r : Nat) (tag : Half) (status detail : Nat) : Prop :=
  ∃ c, t.host.completions = s.host.completions ++ [c] ∧ c.ring = r ∧ c.tag = tag ∧ c.status = status ∧
    c.detail = BitVec.ofNat 64 detail ∧ c.addr = (getRing s r).cplBase.toNat + 16 * (getRing s r).cplTail.toNat ∧
    (getRing t r).busy = none

/-! ### Records -/

/-- One more error record is generated, with the next number, and the store takes it while it has room (R577, R579). -/
def recorded (s t : State) (r : RecIn) : Prop :=
  t.errors.rseq = s.errors.rseq + 1 ∧ (s.errors.store.length < 512 → t.hbm = s.hbm ∧
    ∃ x, t.errors.store = s.errors.store ++ [x] ∧ x.kind = r.kind ∧ x.detail = BitVec.ofNat 64 r.detail ∧ x.die = r.die ∧
      x.quad = r.quad ∧ x.core = r.core ∧ x.engine = r.engine)

/-- A host access is refused or dropped: counted once in CELLAR_BADACC, and recorded as kind 0x26 (R718). -/
def countedBad (s t : State) (off space rule : Nat) : Prop :=
  t.host.badacc = s.host.badacc + 1 ∧ recorded s t { kind := 0x26, detail := badDetail off space rule, engine := 10 }

/-- What a change of the host's side alone leaves. -/
def hostOnly (s t : State) : Prop := t = { s with host := t.host }

end Sys2Proof.Machine
end

