-- ==== Sys2Proof/Certificates/Slice0/Obligations.lean ====
section
/-! DEFINITION. The statements put to the provers: what the commands do, what they leave alone, and the invariants that
every step keeps. -/

open Sys2Proof Sys2Proof.Machine

/-- A step runs the command at the front of the queue; with none waiting it is one CCLK cycle (derived from
00_scope.md). What log entry 2 says is the model's choice. -/
def Obligations.QueueStep : Prop :=
  ∀ s : State,
    (∀ (c : Instr) (rest : List Instr), s.pending = c :: rest → step s = exec c { s with pending := rest }) ∧
    (s.pending = [] → step s = .next (tick s) ∧ (s.power.rails = false → step s = .next s))

/-- The module is sound at power-on (derived from 19_power_clocks_supply.md, 05_memory_and_ordering.md). What log
entries 1, 5 say is the model's choice. -/
def Obligations.ResetInvariant : Prop :=
  Inv State.reset ∧ State.reset.pending = []

/-- Every step keeps the module sound (derived from 05_memory_and_ordering.md, 16_integrity_and_faults.md,
19_power_clocks_supply.md). What log entry 5 says is the model's choice. -/
def Obligations.StepKeepsInvariant : Prop :=
  ∀ s t : State, Inv s → step s = .next t → Inv t

/-- No step changes a fused register, and the OTP security version never falls (derived from 02_execution_model.md,
20_boot_and_security.md). What log entry 3 says is the model's choice. -/
def Obligations.FusesHold : Prop :=
  ∀ s t : State, step s = .next t → fusedSame s t ∧ s.fuses.otpSvn ≤ t.fuses.otpSvn

/-- No command touches the queue, and free values are never drawn twice (derived from 00_scope.md). What log entry 6
says is the model's choice. -/
def Obligations.ExecLeavesQueue : Prop :=
  ∀ (c : Instr) (s t : State), exec c s = .next t → t.pending = s.pending ∧ s.draws ≤ t.draws

/-- An instruction that is due, executes and meets no fault completes (derived from 02_execution_model.md,
03_choyx_encoding.md). What log entry 7 says is the model's choice. -/
def Obligations.InstructionCompletes : Prop :=
  ∀ (c : Instr) (op : Nat) (i : Issue) (m : At → Action) (s : State) (a : At),
    c.issue = some (op, i) → actionOf c = some m → place op i s = some a → opcodeDefined (fldOp a.w) = true →
    clean a (m a) →
    exec c s = .next (advance (occupy (m a).eff a (m a) true) a (m a).jump)

/-- An instruction that meets a fault condition raises the lowest kind and has no effect of its own (derived from
03_choyx_encoding.md). What log entries 7, 15 say is the model's choice. -/
def Obligations.InstructionFaults : Prop :=
  ∀ (c : Instr) (op : Nat) (i : Issue) (m : At → Action) (s : State) (a : At) (k d : Nat),
    c.issue = some (op, i) → actionOf c = some m → place op i s = some a → opcodeDefined (fldOp a.w) = true →
    actionFault a (m a) = some (k, d) →
    exec c s = .next (raiseFault (if k = 5 then (m a).onDesc.getD a.s else a.s) a.p a.n a.sh (pcOf a.r a.sh)
      (fldOp a.w) k d false)

/-- A predicated-off instruction writes nothing and its engine stays reserved but not busy (R101). What log entry 17
says, its drain buffer among it, is the model's choice. -/
def Obligations.PredicatedOff : Prop :=
  ∀ (c : Instr) (op : Nat) (i : Issue) (m : At → Action) (s : State) (a : At),
    c.issue = some (op, i) → actionOf c = some m → place op i s = some a → opcodeDefined (fldOp a.w) = true →
    waitOpcode op = false → executes a = false →
    (∀ k d, actionFault a (m a) = some (k, d) → k ≤ 3) ∧
    (actionFault a (m a) = none → exec c s = .next (advance (occupy a.s a (m a) false) a none)) ∧
    (∀ u, (m a).eng = some u →
      (engTime (getCore (occupy a.s a (m a) false) a.n) u.eng).occupied = max (engTime a.c u.eng).occupied (a.c.cycle + u.occ) ∧
      (engTime (getCore (occupy a.s a (m a) false) a.n) u.eng).busy = (engTime a.c u.eng).busy ∧
      ∀ k, u.drain = some k → (engTime (getCore (occupy a.s a (m a) false) a.n) u.eng).drain =
        max (engTime a.c u.eng).drain (a.c.cycle + k))

/-- An opcode outside the map raises fault kind 0x01 with the opcode in DETAIL (R108). What log entry 16 says is the
model's choice. -/
def Obligations.UndefinedOpcodeFaults : Prop :=
  ∀ (i : Issue) (s : State) (a : At), place 0 i s = some a → opcodeDefined (fldOp a.w) = false →
    exec (.nop i) s = .next (raiseFault a.s a.p a.n a.sh (pcOf a.r a.sh) (fldOp a.w) 1 (fldOp a.w) false)

/-- A nonzero reserved bit of any instruction raises fault kind 0x02 unless a lower kind applies (derived from
03_choyx_encoding.md). What log entry 15 says is the model's choice. -/
def Obligations.ReservedBitFaults : Prop :=
  ∀ (c : Instr) (op : Nat) (i : Issue) (m : At → Action) (s : State) (a : At) (b : Nat),
    c.issue = some (op, i) → actionOf c = some m → place op i s = some a → opcodeDefined (fldOp a.w) = true →
    b < 128 → (a.w.toNat &&& reservedMask (m a).fmt (fldPen a.w)).testBit b = true →
    ∃ k d, (k < 2 ∨ k = 2 ∧ d ≤ b) ∧
      exec c s = .next (raiseFault (if k = 5 then (m a).onDesc.getD a.s else a.s) a.p a.n a.sh (pcOf a.r a.sh)
        (fldOp a.w) k d false)

/-- ADD, SUB and MUL: a-file results wrap, c-file results saturate, and D is written on the next cycle (derived from
02_execution_model.md, 03_choyx_encoding.md). What log entries 7, 68 say is the model's choice. -/
def Obligations.ScalarArithmetic : Prop :=
  ∀ (i : Issue) (s : State) (a : At), sFn a.w = 0 → scalarNamed a.w →
    (Ready 0x08 .s i s a →
      exec (.add i) s = .next (advance (toD a (scalarFit a.w ((src1 a : Int) + src2 a))) a none)) ∧
    (Ready 0x09 .s i s a →
      exec (.subtract i) s = .next (advance (toD a (scalarFit a.w ((src1 a : Int) - src2 a))) a none)) ∧
    (Ready 0x0A .s i s a →
      exec (.mul i) s = .next (advance (toD a (scalarFit a.w ((src1 a : Int) * src2 a))) a none))

/-- LOGIC and SHF: bitwise results and shifts by S2 modulo 64, written to D on the next cycle (derived from
03_choyx_encoding.md). What log entry 68 says is the model's choice. -/
def Obligations.ScalarLogic : Prop :=
  ∀ (i : Issue) (s : State) (a : At), scalarNamed a.w →
    (Ready 0x0B .s i s a → sFn a.w ≤ 3 →
      ∃ v : BitVec 64, exec (.logic i) s = .next (advance (toD a v.toNat) a none) ∧
        ∀ k : Nat, k < 64 → v.getLsbD k =
          (let x := (src1 a).testBit k
           let y := (src2 a).testBit k
           if sFn a.w = 0 then x && y else if sFn a.w = 1 then x || y else if sFn a.w = 2 then x ^^ y else x && !y)) ∧
    (Ready 0x0C .s i s a → sFn a.w ≤ 2 →
      exec (.shf i) s = .next (advance (toD a
        (let n := src2 a % 64
         if sFn a.w = 0 then src1 a * 2 ^ n % 2 ^ 64 else if sFn a.w = 1 then src1 a / 2 ^ n
         else (signed 64 (src1 a) / 2 ^ n % 2 ^ 64).toNat)) a none))

/-- MOV, CMP and SEL write what their operands name to D on the next cycle (derived from 03_choyx_encoding.md). What
log entry 68 says is the model's choice. -/
def Obligations.ScalarMoves : Prop :=
  ∀ (i : Issue) (s : State) (a : At),
    (Ready 0x0D .s i s a → sFn a.w = 0 → specBad (sD a.w) = false →
      (fldFlag a.w 0 = true → (specFile (sD a.w) = 3 → sImm a.w = 0) →
        exec (.mov i) s = .next (advance (toD a (sImm a.w)) a none)) ∧
      (fldFlag a.w 0 = false → specBad (sS1 a.w) = false → (specFile (sD a.w) = 3 → specFile (sS1 a.w) = 3) →
        exec (.mov i) s = .next (advance (toD a (regRead a.r (sS1 a.w))) a none))) ∧
    (Ready 0x0E .s i s a → sFn a.w ≤ 5 → scalarNamed a.w → specFile (sD a.w) = 2 →
      ∃ b : Bool, (b = true ↔ cmpHolds (sFn a.w) (src1 a) (src2 a)) ∧
        exec (.cmp i) s = .next (advance (toD a (flag b)) a none)) ∧
    (Ready 0x0F .s i s a → sFn a.w ≤ 63 → scalarNamed a.w →
      exec (.sel i) s = .next (advance (toD a (if bit a.r.p (sFn a.w) then src1 a else src2 a)) a none))

/-- A scalar instruction with a destination in the q file raises kind 0x03 unless it is MOV of a token or of
immediate 0 (R104). What log entry 17 says is the model's choice. -/
def Obligations.TokensNotForged : Prop :=
  ∀ (c : Instr) (i : Issue) (op fnMax : Nat) (s : State) (a : At),
    (c, op, fnMax) ∈ [(Instr.add i, 0x08, 0), (.subtract i, 0x09, 0), (.mul i, 0x0A, 0), (.logic i, 0x0B, 3),
      (.shf i, 0x0C, 2), (.mov i, 0x0D, 0), (.cmp i, 0x0E, 5), (.sel i, 0x0F, 63)] →
    Ready op .s i s a → sFn a.w ≤ fnMax → specFile (sD a.w) = 3 →
    ¬ (op = 0x0D ∧ ((fldFlag a.w 0 = true ∧ sImm a.w = 0) ∨
      (fldFlag a.w 0 = false ∧ specFile (sS1 a.w) = 3 ∧ specBad (sS1 a.w) = false))) →
    ∃ d, exec c s = .next (raiseFault a.s a.p a.n a.sh (pcOf a.r a.sh) (fldOp a.w) 3 d false)

/-- A register write goes in flight to land on its cycle; of two shuttles' writes on one cycle the later one stays
(R76). -/
def Obligations.RegisterWriteIssued : Prop :=
  ∀ (s : State) (a : At) (sp lat v : Nat),
    let c := getCore s a.n
    let new : Flight := { due := c.cycle + lat, order := c.nextOrder, sh := a.sh, access := none, verdict := none,
                          effect := .reg (BitVec.ofNat 8 sp) (BitVec.ofNat 64 v) }
    let clash := fun f : Flight => f.due = c.cycle + lat ∧ f.sh ≠ a.sh ∧ ∃ w, f.effect = .reg (BitVec.ofNat 8 sp) w
    onlyCores [a.n] s (pushReg s a sp lat v) ∧
    ((∀ f ∈ c.flight, ¬ clash f) → pushReg s a sp lat v = { s with cores := (pushReg s a sp lat v).cores } ∧
      getCore (pushReg s a sp lat v) a.n = { c with nextOrder := c.nextOrder + 1, flight := c.flight ++ [new] }) ∧
    (∀ f ∈ c.flight, clash f → shIdx a.sh < shIdx f.sh →
      getCore (pushReg s a sp lat v) a.n = { c with collide := true }) ∧
    ((∃ f ∈ c.flight, clash f) → (∀ f ∈ c.flight, clash f → shIdx f.sh < shIdx a.sh) →
      ∃ l : List Flight, (∀ f, f ∈ l ↔ f ∈ c.flight ∧ ¬ clash f) ∧
        getCore (pushReg s a sp lat v) a.n =
          { c with collide := true, nextOrder := c.nextOrder + 1, flight := l ++ [new] })

/-- A register write that lands is read truncated to its file's width, and leaves every other register (derived from
02_execution_model.md, 03_choyx_encoding.md). -/
def Obligations.RegisterWriteLands : Prop :=
  ∀ (s : State) (n : Nat) (f : Flight) (sp : Byte) (v : Dword), f.effect = .reg sp v → f.access = none → f.verdict = none →
    specBad sp.toNat = false →
    let t := landOne s n f
    regRead (getRegs t n) sp.toNat =
      v.toNat % 2 ^ (if specFile sp.toNat = 0 then 64 else if specFile sp.toNat = 1 then 32
        else if specFile sp.toNat = 2 then 1 else 16) ∧
    (∀ x : Byte, x ≠ sp → specBad x.toNat = false → regRead (getRegs t n) x.toNat = regRead (getRegs s n) x.toNat) ∧
    (∀ sh : Shuttle, pcOf (getRegs t n) sh = pcOf (getRegs s n) sh) ∧ onlyCores [n, runner s n] s t ∧
    (∀ m, getCore t m = { getCore s m with regs := (getCore t m).regs, spare := (getCore t m).spare })

/-- Issuing moves one program counter and one shuttle's bookkeeping, and nothing else (derived from
02_execution_model.md, 03_choyx_encoding.md, 18_hang_and_reset.md). What log entries 71, 72 say is the model's
choice. -/
def Obligations.IssueAdvances : Prop :=
  ∀ (s : State) (a : At) (target : Option Nat),
    let t := advance s a target
    onlyCores [a.n, runner s a.n] s t ∧
    getRegs t a.n = setPc (getRegs s a.n) a.sh (match target with
      | some k => BitVec.ofNat 32 k
      | none => pcOf a.r a.sh + 1) ∧
    shOf (getCore t a.n) a.sh = { shOf (getCore s a.n) a.sh with
      last := a.c.cycle, resumed := false, progressAt := s.pll, progress := (shOf (getCore s a.n) a.sh).progress +
        (if (shOf (getCore s a.n) a.sh).resumed then 0 else 1) } ∧
    (∀ x : Shuttle, x ≠ a.sh → shOf (getCore t a.n) x = shOf (getCore s a.n) x) ∧
    (∀ m, getCore t m = { getCore s m with regs := (getCore t m).regs, spare := (getCore t m).spare,
                                           f := (getCore t m).f, b := (getCore t m).b, u := (getCore t m).u })

/-- NOP, BR, LOOP, END and SLOT.SEL do what their rows say (derived from 02_execution_model.md,
03_choyx_encoding.md). What log entry 7 says is the model's choice. -/
def Obligations.ControlCompletes : Prop :=
  ∀ (i : Issue) (s : State) (a : At), sFn a.w = 0 →
    let t := sImm a.w % 2 ^ 32
    let n := regRead a.r (sS1 a.w) - 1
    (Ready 0x00 .s i s a → exec (.nop i) s = .next (advance a.s a none)) ∧
    (Ready 0x01 .s i s a → branchOk (imgOf a.c a.sh) (pcOf a.r a.sh).toNat t = true →
      exec (.br i) s = .next (advance a.s a (some t))) ∧
    (Ready 0x02 .s i s a → specFile (sS1 a.w) = 1 → specBad (sS1 a.w) = false →
      (n = 0 → exec (.loop i) s = .next (advance (pushReg a.s a (sS1 a.w) 1 0) a none)) ∧
      (n ≠ 0 → branchOk (imgOf a.c a.sh) (pcOf a.r a.sh).toNat t = true →
        exec (.loop i) s = .next (advance (pushReg a.s a (sS1 a.w) 1 n) a (some t)))) ∧
    (Ready 0x03 .s i s a → exec (.endShuttle i) s =
      .next (advance (modCore a.s a.n (fun c => modSh c a.sh (fun x => { x with mode := .ended }))) a none)) ∧
    (Ready 0x04 .s i s a → sImm a.w % 4 < a.c.plans.length → exec (.slotSel i) s =
      .next (advance (modCore a.s a.n (fun c => { c with planPending := some (sImm a.w % 4) })) a none))

/-- TRAP writes CORE_FAULT with kind 0x0F and its immediate, halts the shuttle and its core, records and interrupts
(R128). -/
def Obligations.TrapFaults : Prop :=
  ∀ (i : Issue) (s : State) (a : At), Ready 0x05 .s i s a → sFn a.w = 0 →
    ∃ t, exec (.trap i) s = .next t ∧
      (shOf (getCore t a.n) a.sh).mode = .halted ∧ (shOf (getCore t a.n) a.sh).wait = none ∧
      bits (shOf (getCore t a.n) a.sh).fault 0 32 = (pcOf a.r a.sh).toNat ∧
      bits (shOf (getCore t a.n) a.sh).fault 32 8 = 0x0F ∧
      bits (shOf (getCore t a.n) a.sh).fault 40 1 = 0 ∧
      bits (shOf (getCore t a.n) a.sh).fault 48 16 = sImm a.w % 2 ^ 16 ∧
      (getCore t a.n).haltAt = (match (getCore a.s a.n).haltAt with
        | some h => some h
        | none => some (a.s.cc + 1)) ∧
      (a.s.errors.store.length < 512 → ∃ r, t.errors.store = a.s.errors.store ++ [r] ∧
        r.kind = 0x0F ∧ r.shuttle = shIdx a.sh ∧ r.opcode = 0x05 ∧ r.pc = pcOf a.r a.sh ∧ r.core = a.n) ∧
      (if bit a.s.host.msixMask (4 * a.p.low + 1) = true
        then bit t.host.msixPend (4 * a.p.low + 1) = true
        else t.host.messages.getLast? = some (4 * a.p.low + 1)) ∧
      getRegs t a.n = getRegs a.s a.n

/-- Raising a fault changes its shuttle, the halt of its core, FIRST of a later fault, the records and the interrupt
(derived from 03_choyx_encoding.md, 16_integrity_and_faults.md). What log entry 6 says is the model's choice. -/
def Obligations.FaultChangesOnly : Prop :=
  ∀ (s : State) (p : Part) (n : Nat) (sh : Shuttle) (pc : Word) (op kind detail : Nat) (d : Bool),
    let t := raiseFault s p n sh pc op kind detail d
    (∀ m, getCore t m = { getCore s m with f := (getCore t m).f, b := (getCore t m).b, u := (getCore t m).u,
                                           haltAt := (getCore t m).haltAt }) ∧
    (∀ m x, (m ≠ n ∨ x ≠ sh) → shOf (getCore t m) x =
      { shOf (getCore s m) x with fault := (shOf (getCore t m) x).fault }) ∧
    (∀ m, m ≠ n → (getCore t m).haltAt = (getCore s m).haltAt) ∧
    t.quads = s.quads ∧ t.casks = s.casks ∧ t.ports = s.ports ∧ t.rings = s.rings ∧ t.power = s.power ∧
    t.fence = s.fence ∧ t.signals = s.signals ∧ t.mesh = s.mesh ∧ t.lpddr = s.lpddr

/-- DESC.MAKE, DESC.SET and DESC.OFFS put a validated descriptor on its way to entry DO (derived from
03_choyx_encoding.md, 04_tensor_descriptors.md). What log entry 18 says is the model's choice. -/
def Obligations.DescriptorsCreated : Prop :=
  ∀ (i : Issue) (s : State) (a : At) (x : Image), tMode a.w = 0 → descReason a.s a.p x = none →
    let lat := if a.p.profile = 2 then 3 else 4
    (∀ d, Ready 0x10 .t i s a → tSub a.w = 0 → entryOf a (tDA a.w) = some d → dHandle d = 0 →
      dBase d + tImm a.w + 64 ≤ storeBytes → x = imageAt a.c.store (dBase d + tImm a.w) →
      a.ups.storeDouble = [] → a.ups.corrected = 0 →
      exec (.descMake i) s = .next (advance (pushWrite a.s a lat (.desc (tDO a.w) x)) a none)) ∧
    (∀ d, Ready 0x11 .t i s a → descSetDefined (tSub a.w) = true → entryOf a (tDO a.w) = some d →
      descSetImage d (tSub a.w) (tImm a.w) = some x →
      exec (.descSet i) s = .next (advance (pushWrite a.s a lat (.desc (tDO a.w) x)) a none)) ∧
    (∀ (d : Image) (b : Nat), Ready 0x12 .t i s a → tSub a.w ≤ 5 → entryOf a (tDO a.w) = some d →
      offsBase d (tSub a.w) (signed 32 (tImm a.w)) = some (b : Int) → b % 64 = 0 → b < 2 ^ 48 → x = setBits d 0 48 b →
      exec (.descOffs i) s = .next (advance (pushWrite a.s a lat (.desc (tDO a.w) x)) a none))

/-- DESC.LDT loads consecutive validated entries and DESC.STT stores one (derived from 03_choyx_encoding.md,
04_tensor_descriptors.md). What log entry 18 says is the model's choice. -/
def Obligations.DescriptorTablesMove : Prop :=
  ∀ (i : Issue) (s : State) (a : At) (d : Image), tMode a.w = 0 → tSub a.w = 0 → entryOf a (tDA a.w) = some d →
    dHandle d = 0 →
    let n := tImm a.w % 256 + 1
    let img := fun j : Nat => imageAt a.c.store (dBase d + 64 * j)
    (Ready 0x13 .t i s a → tDO a.w + n ≤ 256 → dBase d + 64 * n ≤ storeBytes → a.ups.storeDouble = [] → a.ups.corrected = 0 →
      ((∀ j, j < n → descReason a.s a.p (img j) = none) →
        exec (.descLdt i) s = .next (advance (pushDescs a a.s (tDO a.w) ((List.range n).map img)) a none)) ∧
      (∀ j r, j < n → (∀ k, k < j → descReason a.s a.p (img k) = none) → descReason a.s a.p (img j) = some r → r < 256 →
        exec (.descLdt i) s = .next (raiseFault (pushDescs a a.s (tDO a.w) ((List.range j).map img)) a.p a.n a.sh
          (pcOf a.r a.sh) (fldOp a.w) 5 (r + 256 * (tDO a.w + j)) false))) ∧
    (∀ x : Image, Ready 0x14 .t i s a → entryOf a (tDO a.w) = some x → dBase d + 64 ≤ storeBytes →
      exec (.descStt i) s = .next (advance (pushStore a.s a (if a.p.profile = 2 then 3 else 4) none
        (.store [(8 * dBase d, 512, x.toNat)] .clear)) a none))

/-- BQ.WAIT, SEM.WAIT, BEATUP, VERDICT.WAIT and the four fences hold the shuttle that issues them (derived from
02_execution_model.md, 05_memory_and_ordering.md, 06_synchronization.md, 16_integrity_and_faults.md). What log entry
7 says is the model's choice. -/
def Obligations.WaitsHoldTheirShuttle : Prop :=
  ∀ (i : Issue) (s : State) (a : At),
    let held := fun (kind : WaitKind) (acq : Bool) (met : Bool) (g : Sh → Sh) =>
      advance (modCore a.s a.n (fun c => modSh c a.sh (fun x => g { x with
        mode := .wait
        wait := some { kind := kind, rph := wRph a.w, acq := acq, issued := a.s.cc,
                       metAt := if met then some a.s.cc else none, poisoned := false } }))) a none
    let tok := regRead a.r (wTgt a.w)
    let q := tget {} a.c.queues (tok / 2 ^ 11 % 16)
    (Ready 0x19 .w i s a → specFile (wTgt a.w) = 3 → specBad (wTgt a.w) = false →
      (tok / 2 ^ 15 % 2 = 1 → (tok % 2 ^ 11 + 2048 - q.oldest) % 2048 < (q.next + 2048 - q.oldest) % 2048 →
        exec (.bqWait i) s = .next (held (.bq (tok / 2 ^ 11 % 16) (tok % 2 ^ 11)) (fldFlag a.w 0) false id)) ∧
      (¬ (tok / 2 ^ 15 % 2 = 1 ∧
          (tok % 2 ^ 11 + 2048 - q.oldest) % 2048 < (q.next + 2048 - q.oldest) % 2048) →
        exec (.bqWait i) s = .next (held .met (fldFlag a.w 0) true id))) ∧
    (Ready 0x71 .w i s a →
      (wCnt a.w = 0 → exec (.semWait i) s = .next (held .met (fldFlag a.w 0) true id)) ∧
      (wCnt a.w ≠ 0 → exec (.semWait i) s = .next (held (.sem (wTgt a.w) (wCnt a.w)) (fldFlag a.w 0) false id))) ∧
    (Ready 0x72 .w i s a → wTgt a.w ≤ 2 → wCnt a.w = 0 → wTcore a.w = 0 → wTmod a.w = 0 → wBkt a.w = 0 →
      ∃ t, exec (.beatup i) s = .next t ∧
        t = advance (modCore (modCore a.s a.n (fun c => modSh c a.sh (fun x => { x with
          mode := .wait
          wait := some { kind := .beatup (wTgt a.w) (beatsOf (shOf a.c a.sh) (wTgt a.w) + 1), rph := wRph a.w, acq := false,
                         issued := a.s.cc, metAt := none, poisoned := false } }))) a.n
          (fun c => modSh c a.sh (fun x => addBeat x (wTgt a.w)))) a none ∧
        beatsOf (shOf (getCore t a.n) a.sh) (wTgt a.w) = beatsOf (shOf a.c a.sh) (wTgt a.w) + 1) ∧
    (Ready 0x73 .w i s a → (bucketRec a.p (BitVec.ofNat 16 (wBkt a.w))).isSome = true →
      exec (.verdictWait i) s = .next (held (.verdict (BitVec.ofNat 16 (wBkt a.w))) (fldFlag a.w 0) false id)) ∧
    (Ready 0x78 .w i s a → exec (.fenceC i) s = .next (held (.fence 0) false false id)) ∧
    (Ready 0x79 .w i s a → exec (.fenceQ i) s = .next (held (.fence 1) false false id)) ∧
    (Ready 0x7A .w i s a → exec (.fenceD i) s = .next (held (.fence 2) true false id)) ∧
    (Ready 0x7B .w i s a → exec (.fenceF i) s = .next (held (.fence 3) true false id))

/-- A predicated-off wait is met at issue and a predicated-off branch is not taken (R102). -/
def Obligations.PredicatedOffWaits : Prop :=
  ∀ (c : Instr) (op : Nat) (i : Issue) (m : At → Action) (s : State) (a : At),
    c.issue = some (op, i) → actionOf c = some m → place op i s = some a → opcodeDefined (fldOp a.w) = true →
    executes a = false → actionFault a (m a) = none →
    (waitOpcode op = true → exec c s = .next (advance (modCore a.s a.n (fun k => modSh k a.sh (fun x => { x with
        mode := .wait
        wait := some { kind := .met, rph := wRph a.w, acq := false, issued := a.s.cc, metAt := some a.s.cc,
                       poisoned := false } }))) a none)) ∧
    (op = 0x01 ∨ op = 0x02 → exec c s = .next (advance a.s a none))

/-- A met wait resumes on the first schedule cycle at its resume phase, unless a stop or a fault holds it (derived
from 02_execution_model.md, 05_memory_and_ordering.md, 12_training_step.md). What log entries 8, 40 say is the
model's choice. -/
def Obligations.WaitResumes : Prop :=
  ∀ (core : Fin 192) (sh : Shuttle) (s0 : State) (p : Part) (w : Wait),
    let n := core.val
    let s := modCore (landAll s0 n) n (takePlan s0.cc)
    let c := getCore s n
    corePart s n = some p → (shOf c sh).wait = some w → (shOf c sh).mode = .wait → p.ctx = .running → p.map.contains n = true →
    (p.faultFirst.isSome = true → exec (.waitResume core sh) s0 =
      .next (modCore s n (fun c => modSh c sh (fun x => { x with mode := .halted, wait := none })))) ∧
    (p.faultFirst = none → (p.stopping = true ∨ w.metAt = none ∨ c.sched = false ∨ c.phase ≠ w.rph % planLen c) →
      exec (.waitResume core sh) s0 = .next s) ∧
    (∀ t, p.faultFirst = none → p.stopping = false → p.s4Hold = none → w.metAt = some t → t < s.cc → c.sched = true →
      0 < planLen c → c.phase = w.rph % planLen c →
      (w.poisoned = false → ∃ u, exec (.waitResume core sh) s0 = .next u ∧ onlyCores [n] s u ∧
        shOf (getCore u n) sh = { shOf c sh with mode := .run, wait := none, last := c.cycle, resumed := true,
                                                 progress := (shOf c sh).progress + 1, progressAt := s.pll } ∧
        (∀ x, x ≠ sh → shOf (getCore u n) x = shOf c x) ∧
        (getCore u n).combine = (if w.acq = true then [] else c.combine) ∧
        (∀ b, sh = .u → w.kind = .verdict b → b ∈ (getCore u n).verdictBuckets) ∧
        getCore u n = { c with f := (getCore u n).f, b := (getCore u n).b, u := (getCore u n).u,
                               combine := (getCore u n).combine, verdictBuckets := (getCore u n).verdictBuckets }) ∧
      (∀ k seq, w.poisoned = true → w.kind = .bq k seq → exec (.waitResume core sh) s0 =
        .next (raiseFault s p n sh (pcOf (getRegs s n) sh - 1) 0x19 0x0B k false)))

/-- A BQ.WAIT is met by completed requests, which retire; a SEM.WAIT by its count, which is subtracted (derived from
05_memory_and_ordering.md, 06_synchronization.md). What log entry 8 says is the model's choice. -/
def Obligations.WaitConditionsMet : Prop :=
  ∀ (cc : Nat) (c : Core) (sh : Shuttle) (w : Wait), pendingWait c sh = some w →
    (∀ k seq : Nat, w.kind = .bq k seq →
      let q := tget {} c.queues k
      let n := (seq + 2048 - q.oldest) % 2048 + 1
      (seq + 2048 - q.oldest) % 2048 < (q.next + 2048 - q.oldest) % 2048 →
      ((∀ r ∈ q.reqs.take n, r.complete = true) →
        (shOf (bqTest cc c sh) sh).wait =
          some { w with metAt := some cc, poisoned := w.poisoned || (q.reqs.take n).any (fun r => r.poisoned) } ∧
        tget {} (bqTest cc c sh).queues k = { q with oldest := (q.oldest + n) % 2048, reqs := q.reqs.drop n } ∧
        (∀ j, j ≠ k → tget {} (bqTest cc c sh).queues j = tget {} c.queues j) ∧ (bqTest cc c sh).regs = c.regs) ∧
      ((∃ r ∈ q.reqs.take n, r.complete = false) → bqTest cc c sh = c)) ∧
    (∀ i k : Nat, w.kind = .sem i k → (∀ x y, x ≠ sh → pendingWait c x = some y → ∀ j l, y.kind ≠ .sem j l) →
      let m := tget {} c.sems i
      (k ≤ m.count.toNat →
        (shOf (semTest cc c) sh).wait = some { w with metAt := some cc } ∧
        (tget {} (semTest cc c).sems i).count.toNat = m.count.toNat - k ∧ (tget {} (semTest cc c).sems i).sat = m.sat ∧
        (∀ j, j ≠ i → tget {} (semTest cc c).sems j = tget {} c.sems j) ∧
        (∀ x, x ≠ sh → shOf (semTest cc c) x = shOf c x)) ∧
      (m.count.toNat < k → semTest cc c = c))

/-- BQ.ISSUE posts a request that is outstanding from then on and writes its token to QT (derived from
02_execution_model.md, 03_choyx_encoding.md, 05_memory_and_ordering.md). What log entries 7, 56 say is the model's
choice. -/
def Obligations.BobbinIssuePosts : Prop :=
  ∀ (i : Issue) (s : State) (a : At) (dl dr : Image) (al : Alloc), Ready 0x18 .q i s a →
    a.ups = Upsets.none → qKind a.w ≠ 7 → entryOf a (qDL a.w) = some dl → entryOf a (qDR a.w) = some dr →
    (bqRows (qKind a.w) = true → ∃ di, entryOf a (qDI a.w) = some di ∧ indexConds di = [] ∧
      dValid dl (outerDim dl) = dValid di 0) → bqConds a.w dl dr = [] →
    aoOffset a % 64 = 0 → (tget {} a.c.queues (qQN a.w)).reqs.length < 32 → allocAt a.s a.p (dHandle dr) = some al →
    rangeIn dr (aoOffset a) al.length = true → (al.readonly = false ∨ bqReads (qKind a.w) = true) →
    let q := tget {} a.c.queues (qQN a.w)
    ∃ t l r, exec (.bqIssue i) s = .next t ∧
      tget {} (getCore t a.n).queues (qQN a.w) = { q with next := (q.next + 1) % 2048, reqs := l ++ [r] } ∧
      l.map (fun x => x.seq) = q.reqs.map (fun x => x.seq) ∧ (r.dest = none → l = q.reqs) ∧
      r.seq = q.next ∧ r.kind = qKind a.w ∧ r.dl = dl ∧ r.dr = dr ∧ r.offset = aoOffset a ∧ r.complete = false ∧
      r.poisoned = false ∧ r.sh = a.sh ∧ r.acq = fldFlag a.w 0 ∧
      (∀ j, j ≠ qQN a.w → tget {} (getCore t a.n).queues j = tget {} a.c.queues j) ∧
      ((∀ f ∈ a.c.flight, ∀ v, f.effect ≠ .reg (BitVec.ofNat 8 (192 + qQT a.w)) v) →
        ∃ f ∈ (getCore t a.n).flight, f.due = a.c.cycle + 1 ∧ f.effect = .reg (BitVec.ofNat 8 (192 + qQT a.w))
          (BitVec.ofNat 64 (2 ^ 15 + qQN a.w * 2 ^ 11 + q.next))) ∧
      (getCore t a.n).store = a.c.store ∧ (getCore t a.n).tun = a.c.tun ∧ t.hbm = a.s.hbm ∧ t.lpddr = a.s.lpddr ∧
      (∀ m, m ≠ a.n → m ≠ runner a.s a.n → getCore t m = getCore a.s m)

/-- A local bobbin request that nothing holds back completes; a read leaves memory, a write changes only its own
bytes (derived from 05_memory_and_ordering.md). What log entries 8, 56 say is the model's choice. -/
def Obligations.LocalRequestsComplete : Prop :=
  ∀ (core : Fin 192) (queue : Fin 16) (seq : Fin 2048) (s0 : State) (p : Part) (q : Request),
    let n := core.val
    let s := landAll s0 n
    let c := getCore s n
    let al := reqAlloc s p q
    let ti := tierOf al.tier
    corePart s n = some p → findRequest c queue.val seq.val = some q → q.complete = false → q.held = false →
    sourceProv c q = false → blockedBy s p c queue.val q = false → q.dest = none →
    (bqReads q.kind = true → (∀ u ∈ reqUnits al c.store q, isPoisoned s ti u = false) →
      ∃ t, exec (.bobbinRequestComplete core queue seq MemEcc.clean SramEcc.clean) s0 = .next t ∧ t.hbm = s.hbm ∧
        t.lpddr = s.lpddr ∧
        (bqTun q.kind = false → (getCore t n).store = pokeAll c.store
          ((unitSegs (reqSegs al c.store q)).map (fun x =>
            (x.2.2, x.2.1, unitValue s c al (x.1 / 512) / 2 ^ (x.1 % 512) % 2 ^ x.2.1)) ++
            zeroPokes (zeroSpans c.store q))) ∧
        ∃ r, findRequest (getCore t n) queue.val seq.val = some r ∧ r.complete = true ∧ r.poisoned = q.poisoned) ∧
    (bqReads q.kind = false → q.kind ≠ bqAdd → heldLines s ti (reqUnits al c.store q) = [] →
      ∃ t, exec (.bobbinRequestComplete core queue seq MemEcc.clean SramEcc.clean) s0 = .next t ∧
        (∀ ti', ti' ≠ ti → tierMem t ti' = tierMem s ti') ∧
        tierMem t ti = pokeAll (tierMem s ti) (writePokes c al q).1 ∧
        (∀ b : Nat, (∀ x ∈ (writePokes c al q).1, b < x.1 / 8 ∨ (x.1 + x.2.1 + 7) / 8 ≤ b) →
          tget 0 (tierMem t ti) b = tget 0 (tierMem s ti) b) ∧
        ∃ r, findRequest (getCore t n) queue.val seq.val = some r ∧ r.complete = true ∧ r.poisoned = q.poisoned)

/-- A remote request without all its responses PORT_REQ_TIMEOUT after it left completes poisoned (derived from
05_memory_and_ordering.md). What log entry 8 says is the model's choice. -/
def Obligations.RemoteRequestTimesOut : Prop :=
  ∀ (core : Fin 192) (queue : Fin 16) (seq : Fin 2048) (s : State) (q : Request),
    findRequest (getCore s core.val) queue.val seq.val = some q → q.sent = true → q.complete = false → q.segs ≠ [] →
    (q.sentAt + 10200 * bits s.reqTimeout 0 20 ≤ s.pll →
      ∃ t r, exec (.remoteRequestTimeout core queue seq) s = .next t ∧
        findRequest (getCore t core.val) queue.val seq.val = some r ∧ r.complete = true ∧ r.poisoned = true ∧
        t.hbm = s.hbm ∧ t.lpddr = s.lpddr) ∧
    (s.pll < q.sentAt + 10200 * bits s.reqTimeout 0 20 → exec (.remoteRequestTimeout core queue seq) s = .next s)

/-- A signal adds its count, saturating at 65,535, and the first saturation is recorded (R197). What log entry 8
says is the model's choice. -/
def Obligations.SignalAdds : Prop :=
  ∀ (s : State) (n i k : Nat),
    let m := tget {} (getCore s n).sems i
    let t := semAdd s n i k
    (tget {} (getCore t n).sems i).count.toNat = min 65535 (m.count.toNat + k) ∧
    (tget {} (getCore t n).sems i).sat = (m.sat || decide (65535 < m.count.toNat + k)) ∧
    (∀ j, j ≠ i → tget {} (getCore t n).sems j = tget {} (getCore s n).sems j) ∧
    (∀ x, x ≠ n → getCore t x = getCore s x) ∧ getCore t n = { getCore s n with
      sems := (getCore t n).sems, semCycle := s.cc, semFresh := (getCore t n).semFresh } ∧
    (∀ j, j ≠ i → tget 0 (getCore t n).semFresh j = tget 0 (freshSignals s.cc (getCore s n)) j) ∧
    tget 0 (getCore t n).semFresh i = tget 0 (freshSignals s.cc (getCore s n)) i +
      ((tget {} (getCore t n).sems i).count.toNat - m.count.toNat) ∧
    (65535 < m.count.toNat + k → m.sat = false → t.errors.rseq = s.errors.rseq + 1) ∧
    ((m.count.toNat + k ≤ 65535 ∨ m.sat = true) → t.errors = s.errors)

/-- SEM.SIG sends a signal; SIGNAL_PERFORM and SIGNAL_FRAME_RECEIVE add it at a core of a live context and otherwise
discard it with a record; a signal from another module is answered with DONE (derived from 06_synchronization.md,
14_optical_fabric.md). What log entries 27, 69 say is the model's choice. -/
def Obligations.SignalsSentAndPerformed : Prop :=
  (∀ (i : Issue) (s : State) (a : At), Ready 0x70 .w i s a → wTmod a.w < fabricN a.s → wTcore a.w < a.p.map.length →
      ∃ t, exec (.semSig i) s = .next t ∧
        (wTmod a.w = ownIndex a.s → ∃ g, t.signals = a.s.signals ++ [g] ∧ g.target = a.p.map.getD (wTcore a.w) 0 ∧
          g.sem = wTgt a.w ∧ g.count.toNat = wCnt a.w ∧ (fldFlag a.w 1 = false → a.c.f.acquiring = [] →
            a.c.b.acquiring = [] → a.c.u.acquiring = [] → g.held = false)) ∧
        (wTmod a.w ≠ ownIndex a.s → t.signals = a.s.signals) ∧ t.hbm = a.s.hbm ∧ t.lpddr = a.s.lpddr) ∧
    (∀ (id : Nat) (s : State) (g : Signal), s.signals.find? (fun x => x.id == id && !x.held) = some g →
      ∃ t, exec (.signalPerform id) s = .next t ∧ t.signals = s.signals.filter (fun x => x.id != id) ∧
        (∀ p, corePart s g.target = some p → (p.ctx = .running ∨ p.ctx = .stopped) → p.reset = none →
          p.map.contains g.target = true → (tget {} (getCore t g.target).sems g.sem).count.toNat =
            min 65535 ((tget {} (getCore s g.target).sems g.sem).count.toNat + g.count.toNat)) ∧
        (∀ p, corePart s g.target = some p → (p.ctx ≠ .running ∧ p.ctx ≠ .stopped ∨ p.map.contains g.target = false) →
          t.errors.rseq = s.errors.rseq + 1 ∧ ∀ m, (getCore t m).sems = (getCore s m).sems)) ∧
    (∀ (id : Nat) (s : State), (∀ g ∈ s.signals, g.id = id → g.held = true) → exec (.signalPerform id) s = .next s) ∧
    (∀ (id : Nat) (s : State) (g : Signal) (n : Nat) (sh : Shuttle) (k : Nat),
      s.signals.find? (fun x => x.id == id && !x.held) = some g → g.source = some (n, sh, k) →
      ∃ t, exec (.signalPerform id) s = .next t ∧ (∀ y, y ∈ (shOf (getCore t n) sh).accesses ↔
        y ∈ (shOf (getCore s n) sh).accesses ∧ y.id ≠ k) ∧ t.ports = s.ports ∧ t.lpddr = s.lpddr) ∧
    (∀ (rx : Rx) (s : State) (k : Half), rx.frame.kind = fkSignal → rx.frame.inline = .signal k →
      (takeRx s rx).isSome = true →
      let low := bits rx.frame.addr 20 3
      let i := bits rx.frame.addr 8 8
      let live := fun (p : Part) => (p.ctx = .running ∨ p.ctx = .stopped) ∧ p.reset = none
      let answered := fun (t : State) => rx.sender ≠ ownIndex s → ∃ d, frameOut s t rx.port rx.sender d ∧ d.kind = fkDone ∧
        d.tag = 0 ∧ d.addr = rx.frame.addr ∧ d.srcCore = rx.frame.srcCore ∧ d.srcShuttle = rx.frame.srcShuttle
      (∀ p q n, partAt s low = some p → p.map[bits rx.frame.addr 0 8]? = some n → corePart s n = some q → live q → n ∈ q.map →
        ∃ t, exec (.signalFrameReceive rx) s = .next t ∧ answered t ∧ t.lpddr = s.lpddr ∧
          (tget {} (getCore t n).sems i).count.toNat = min 65535 ((tget {} (getCore s n).sems i).count.toNat + k.toNat) ∧
          (∀ j, j ≠ i → tget {} (getCore t n).sems j = tget {} (getCore s n).sems j) ∧
          (∀ m, m ≠ n → getCore t m = getCore s m)) ∧
      ((∀ p n, partAt s low = some p → p.map[bits rx.frame.addr 0 8]? = some n → ∀ q, corePart s n = some q →
          ¬ (live q ∧ n ∈ q.map)) →
        ∃ t, exec (.signalFrameReceive rx) s = .next t ∧ answered t ∧ t.cores = s.cores ∧
          recorded s t { kind := 0x20, detail := signalFrom rx.sender rx.frame.srcCore, die := low / 4, quad := low })) ∧
    (∀ (rx : Rx) (s : State), takeRx s rx = none → exec (.signalFrameReceive rx) s = .next s)

/-- A beat-up of quadrant or partition scope zeroes the participants' semaphores and meets their waits (derived from
06_synchronization.md). What log entry 8 says is the model's choice. -/
def Obligations.BeatupCompletes : Prop :=
  ∀ (scope : Fin 3) (q : Fin 8) (s0 : State) (p : Part) (k : Nat), partOf s0 q.val = some p → scope.val ≤ 1 →
    let s := (scopeCores p scope.val q.val).foldl landAll s0
    (p.ctx = .running ∨ p.ctx = .stopped) → arrived s p scope.val q.val = some k →
    accessesDone s p scope.val q.val = true →
    ∃ t, exec (.beatupComplete scope q) s0 = .next t ∧
      (∀ n ∈ scopeCores p scope.val q.val, ∀ i, tget 0 (freshSignals s.cc (getCore s n)) i = 0 →
        (tget {} (getCore t n).sems i).count = 0) ∧
      (∀ n ∈ scopeCores p scope.val q.val, ∀ sh w, (shOf (getCore s n) sh).mode = .wait →
        (shOf (getCore s n) sh).wait = some w →
        (shOf (getCore t n) sh).wait = some { w with metAt := some (s.cc + 3) })

/-- At a beat-up CORE_SEM_DRIFT shows how many semaphores held a count, the first and its count, and all are zeroed but
for what the signals of the same cycle have added (derived from 06_synchronization.md). -/
def Obligations.DriftRecorded : Prop :=
  ∀ (s : State) (n : Nat),
    let c := getCore s n
    let fresh := fun (i : Nat) => tget 0 (freshSignals s.cc c) i
    let l := (c.sems.map (fun x => (x.1, x.2.count.toNat - fresh x.1))).filter (fun x => x.2 != 0)
    let t := recordDrift s n
    (l = [] → (getCore t n).drift = 0 ∧ t.errors = s.errors) ∧
    (∀ x r, l = x :: r → l.length < 512 → x.1 < 256 →
      bits (getCore t n).drift 0 9 = l.length ∧ bits (getCore t n).drift 16 8 = x.1 ∧
      bits (getCore t n).drift 24 16 = x.2 ∧ t.errors.rseq = s.errors.rseq + 1) ∧
    (∀ i, fresh i = 0 → (tget {} (getCore t n).sems i).count = 0) ∧
    (∀ i, tget {} c.sems i ≠ {} → (tget {} (getCore t n).sems i).count = BitVec.ofNat 16 (fresh i)) ∧
    tget 0 (getCore t n).counters ctrBeatup = tget 0 c.counters ctrBeatup + 1 ∧ (∀ m, m ≠ n → getCore t m = getCore s m)

/-- In a fabric of several modules a beat-up of scope 2 notifies every peer once and completes with the last notice; a
notice is kept by a partition with a context (derived from 06_synchronization.md). What log entries 8, 9 say is the
model's choice. -/
def Obligations.FabricBeatups : Prop :=
  (∀ (q : Fin 8) (s0 : State) (p : Part) (k : Nat), partOf s0 q.val = some p →
      let s := (scopeCores p 2 q.val).foldl landAll s0
      (p.ctx = .running ∨ p.ctx = .stopped) → arrived s p 2 q.val = some k → accessesDone s p 2 q.val = true →
      1 < fabricN s →
      ∃ t, exec (.beatupComplete 2 q) s0 = .next t ∧
        (k ∉ p.noticesSent → ∀ m ∈ peers s, (getChan s (portOf p 0) m).state ≠ .failed → portOf p 0 < 8 →
          Slot.head (beatFrame p k) ∈ tget [] (getChan t (portOf p 0) m).txq 28) ∧
        ((∃ m ∈ peers s, p.notices.contains (m, k) = false) →
          (∃ x ∈ t.parts, x.low = p.low ∧ k ∈ x.noticesSent) ∧ t.cores = s.cores) ∧
        ((∀ m ∈ peers s, p.notices.contains (m, k) = true) →
          (∀ x ∈ t.parts, x.low = p.low → ∀ y ∈ x.notices, y.2 ≠ k) ∧
          (∀ n ∈ scopeCores p 2 q.val, ∀ i, tget 0 (freshSignals s.cc (getCore s n)) i = 0 →
            (tget {} (getCore t n).sems i).count = 0) ∧
          (∀ n ∈ scopeCores p 2 q.val, ∀ sh w, (shOf (getCore s n) sh).mode = .wait → (shOf (getCore s n) sh).wait = some w →
            (shOf (getCore t n) sh).wait = some { w with metAt := some (s.cc + 3) }))) ∧
    (∀ (rx : Rx) (s : State) (p : Part) (k : Nat), rx.frame.kind = fkBeatup → rx.frame.inline = .beat k →
      (takeRx s rx).isSome = true → partAt s (faLow rx.frame.addr) = some p →
      ((p.ctx = .loaded ∨ p.ctx = .running ∨ p.ctx = .stopped) → p.reset = none →
        ∃ t x, exec (.beatupFrameReceive rx) s = .next t ∧ partAt t p.low = some x ∧ (rx.sender, k) ∈ x.notices ∧
          t.cores = s.cores ∧ t.lpddr = s.lpddr) ∧
      ((p.ctx = .empty ∨ p.ctx = .faulted ∨ p.reset.isSome = true) →
        ∃ t, exec (.beatupFrameReceive rx) s = .next t ∧ t.parts = s.parts ∧ t.cores = s.cores)) ∧
    (∀ (rx : Rx) (s : State), takeRx s rx = none → exec (.beatupFrameReceive rx) s = .next s)

/-- A pending slot plan of a RUNNING context takes effect once all three shuttles are held, with the phase counter at 0
(derived from 02_execution_model.md). -/
def Obligations.SlotPlanTakesEffect : Prop :=
  ∀ (core : Fin 192) (s : State) (p : Part) (k : Nat), corePart s core.val = some p →
    (getCore s core.val).planPending = some k →
    let c := getCore s core.val
    let held := ∀ sh, ((shOf c sh).mode = .wait ∧ ∃ w, (shOf c sh).wait = some w ∧ w.issued < s.cc) ∨
      ((shOf c sh).mode = .ended ∧ (shOf c sh).last < c.cycle)
    ∃ t, exec (.slotPlanTakeEffect core) s = .next t ∧ onlyCores [core.val] s t ∧
      (p.ctx = .running → core.val ∈ p.map → held →
        getCore t core.val = { c with plan := k, planPending := none, phase := 0 }) ∧
      (p.ctx ≠ .running ∨ core.val ∉ p.map ∨ ¬ held → getCore t core.val = c)

/-- A held access goes on once no earlier access of its shuttle stands in its way (derived from
05_memory_and_ordering.md). What log entry 8 says is the model's choice. -/
def Obligations.HeldAccessGoesOn : Prop :=
  ∀ (core : Fin 192) (id : Nat) (s0 : State) (p : Part) (sh : Shuttle) (x : Access),
    let n := core.val
    let s := landAll s0 n
    let c := getCore s n
    corePart s n = some p → findAccess c id = some (sh, x) →
    (mustHold (shOf c sh) id x.rel = true ↔ (x.rel = true ∧ ∃ y ∈ (shOf c sh).accesses, y.id < id) ∨
      ∃ y ∈ (shOf c sh).acquiring, y < id) ∧
    (mustHold (shOf c sh) id x.rel = true → ∀ sram, exec (.heldAccessRelease core id sram) s0 = .next s) ∧
    (∀ b j m off count y, x.kind = .caskPiece b j m off count → y ∈ (shOf c sh).accesses → y.held = true → y.id < id →
      y.kind = .caskHdr b j m → ∀ sram, exec (.heldAccessRelease core id sram) s0 = .next s) ∧
    (mustHold (shOf c sh) id x.rel = false →
      (∀ k, x.kind = .signal k → x.held = true → ∀ sram, ∃ t, exec (.heldAccessRelease core id sram) s0 = .next t ∧
        (∀ g ∈ t.signals, g.source = some (n, sh, id) → g.held = false) ∧
        ∀ y ∈ (shOf (getCore t n) sh).accesses, y.id = id → y.held = false) ∧
      (∀ k seq q, x.kind = .bobbin k seq → findRequest c k seq = some q → q.held = true → sourceProv c q = false →
        (q.dest = none ∨ blockedBy s p c k q = false) → ∃ t r, exec (.heldAccessRelease core id SramEcc.clean) s0 = .next t ∧ findRequest (getCore t n) k seq = some r ∧ r.held = false ∧
          t.hbm = s.hbm ∧ t.lpddr = s.lpddr))

/-- BEAM.MM adds its products to the set lane by lane, BEAM.ZERO clears it, BEAM.SCORE stores magnitudes (derived
from 02_execution_model.md, 03_choyx_encoding.md, 07_beam_engine_accumulation.md, 11_mask_lifecycle.md). What log
entries 7, 24 say is the model's choice. -/
def Obligations.BeamPasses : Prop :=
  ∀ (i : Issue) (s : State) (a : At),
    let da := entryD a (tDA a.w)
    let db := entryD a (tDB a.w)
    let dx := entryD a (tDX a.w)
    let d := entryD a (tDO a.w)
    let occ := beamOcc a.w da db
    let lat := occ + latency a.p 24 20
    let lane := fun (x : AccSet) (m n : Nat) => tget {} x.lanes (128 * m + n)
    let start := if mStart a.w = true then ({} : AccSet) else accNow a.c.beam
    let summed := fun (m n : Nat) => ((kOrder a.c.store a.w dx (passKA a.w da)).map
      (fun k => beamProduct a.c.store a.w da db dx m n k)).foldl (fun l x => laneAdd l (laneTerm x)) (lane start m n)
    (Runs 0x20 i s a (actBeamMm a) → ∃ t x, exec (.beamMm i) s = .next t ∧ issueFrame a t ∧
      (getCore t a.n).beam.later = a.c.beam.later ++ [x] ∧ x.due = a.c.cycle + lat ∧
      x.set.shape = some (passM a.w da, passN a.w db) ∧ x.set.terms = start.terms + passKA a.w da ∧
      (∀ m n, m < passM a.w da → n < passN a.w db → lane x.set m n = summed m n) ∧
      (getCore t a.n).beamT.occupied = a.c.cycle + max 1 occ) ∧
    (Runs 0x22 i s a (actBeamZero a) → ∃ t x, exec (.beamZero i) s = .next t ∧ issueFrame a t ∧
      (getCore t a.n).beam.later = a.c.beam.later ++ [x] ∧ x.due = a.c.cycle + 1 + latency a.p 24 20 ∧ x.set = ({} : AccSet) ∧
      (getCore t a.n).beamT.occupied = a.c.cycle + 1) ∧
    (Runs 0x21 i s a (actBeamScore a) → ∃ t x elems chk, exec (.beamScore i) s = .next t ∧ issueFrame a t ∧
      (getCore t a.n).beam.later = a.c.beam.later ++ [x] ∧ x.set = ({} : AccSet) ∧
      landsIn a t (lat + ceilDiv (4 * passM a.w da * passN a.w db) 192) (.store elems chk) ∧
      (∀ m n, m < passM a.w da → n < passN a.w db →
        let pos := [128 * wrapIndex (readIndex a.c.store dx 1) ((dSize d 0 + 127) / 128) + n,
                    128 * wrapIndex (readIndex a.c.store dx 0) ((dSize d 1 + 127) / 128) + m]
        let scored := ((kOrder a.c.store a.w 0 (passKA a.w da)).map (fun k => beamProduct a.c.store a.w da db 0 m n k)).foldl
          (fun l x => laneAdd l (laneTerm x)) ({} : Lane)
        inValid d 0 pos = true → (elemBit d pos, 32, (rne32 (absE (laneVal scored))).toNat) ∈ elems))

/-- The heddle passes leave the lanes their terms give and work out their budget; HEDDLE.ZERO clears the set
(derived from 09_sparse_formats.md, 10_heddle_engine.md). What log entries 7, 19, 74 say is the model's choice. -/
def Obligations.HeddlePasses : Prop :=
  ∀ (i : Issue) (s : State) (a : At),
    let st := a.c.store
    let da := entryD a (tDA a.w)
    let db := entryD a (tDB a.w)
    let dx := entryD a (tDX a.w)
    let k := passKA a.w da
    let lane := fun (x : AccSet) (j : Nat) => tget {} x.lanes j
    let start := if mStart a.w = true then ({} : AccSet) else accNow a.c.heddle
    let grown := fun (x : AccSet) (j : Nat) (l : List Exact) =>
      lane x j = l.foldl (fun l e => laneAdd l (laneTerm e)) (lane start j)
    let done := fun (t : State) (x : AccStep) =>
      (getCore t a.n).heddle.later = a.c.heddle.later ++ [x] ∧ x.due = a.c.cycle + hBudget a.w + latency a.p 40 32 ∧
      x.set.terms = start.terms + k ∧ (getCore t a.n).heddleT.occupied = a.c.cycle + hBudget a.w ∧
      (∃ p, (getCore t a.n).pass = some p ∧ p.issued = a.c.cycle ∧ p.budget = hBudget a.w ∧ p.failed = false) ∧
      issueFrame a t
    (Runs 0x28 i s a (actSpmm a) → operandMeta st [(0, da)] = none → mSkip a.w = false →
      ∃ t x, exec (.heddleSpmm i) s = .next t ∧ done t x ∧ x.set.shape = some (passM a.w da, passN a.w db) ∧
        ∀ m n, m < passM a.w da → n < passN a.w db →
          grown x.set (128 * m + n) (spmmTerms st a.w db k (spmmPositions st a.w da) m n)) ∧
    (Runs 0x29 i s a (actSddmm a) → operandMeta st [(2, dx)] = none → mStart a.w = true →
      let ps := storedOf st dx
      ∃ t x, exec (.heddleSddmm i) s = .next t ∧ done t x ∧ x.set.packed = true ∧
        x.set.shape = some (max 1 (ceilDiv ps.length 128), 128) ∧
        ∀ j y, ps[j]? = some y → grown x.set j (sddmmTerms st a.w da db k y.row y.col)) ∧
    (Runs 0x2A i s a (actSpsp a) → operandMeta st [(0, da), (1, db)] = none →
      let ea := pairEntries st da
      let eb := pairEntries st db
      ∃ t x, exec (.heddleSpsp i) s = .next t ∧ done t x ∧ x.set.shape = some (passM a.w da, passN a.w db) ∧
        ∀ m n, m < passM a.w da → n < passN a.w db → grown x.set (128 * m + n)
          ((distinctKeys ea).flatMap (fun key => (ea.filter (fun x => x.1 == key && x.2.1 == m)).flatMap (fun x =>
            (eb.filter (fun y => y.1 == key && y.2.1 == n)).map (fun y => mulE x.2.2 y.2.2))))) ∧
    (Runs 0x2B i s a (actHeddleZero a) → ∃ t x, exec (.heddleZero i) s = .next t ∧ issueFrame a t ∧
      (getCore t a.n).heddle.later = a.c.heddle.later ++ [x] ∧ x.due = a.c.cycle + 1 + latency a.p 40 32 ∧ x.set = ({} : AccSet) ∧
      (getCore t a.n).heddleT.occupied = a.c.cycle + 1)

/-- A heddle pass on bad metadata leaves accumulators and output alone, and DEFERRED_FAULT_DETECT reports it (R116).
What log entries 8, 23 say is the model's choice. -/
def Obligations.MetadataFaultIsHarmless : Prop :=
  (∀ (i : Issue) (s : State) (a : At) (o : Nat) (m : Meta), Runs 0x28 i s a (actSpmm a) →
      operandMeta a.c.store [(0, entryD a (tDA a.w))] = some (o, m) →
      ∃ t f, exec (.heddleSpmm i) s = .next t ∧ issueFrame a t ∧ (getCore t a.n).heddle = a.c.heddle ∧
        (getCore t a.n).flight = a.c.flight ∧ (getCore t a.n).deferred = a.c.deferred ++ [f] ∧ f.sh = a.sh ∧
        f.kind = 8 ∧ f.due = a.c.cycle + 16 + ceilDiv (hMetaLen (headerOf a.c.store (entryD a (tDA a.w)))) 512 ∧
        f.pc = pcOf a.r a.sh ∧ f.opcode.toNat = 0x28 ∧ f.detail = BitVec.ofNat 16 (metaDetail o m) ∧
        f.metaFault = metaWord o m) ∧
    (∀ (core : Fin 192) (sh : Shuttle) (s : State) (p : Part) (f : Deferred), corePart s core.val = some p →
      (getCore s core.val).deferred.find? (fun d => d.sh == sh) = some f →
      ∃ t, exec (.deferredFaultDetect core sh) s = .next t ∧
        (shOf (getCore t core.val) sh).mode = .halted ∧
        bits (shOf (getCore t core.val) sh).fault 0 32 = f.pc.toNat ∧
        bits (shOf (getCore t core.val) sh).fault 40 1 = 1 ∧
        (f.kind < 256 → bits (shOf (getCore t core.val) sh).fault 32 8 = f.kind) ∧
        bits (shOf (getCore t core.val) sh).fault 48 16 = f.detail.toNat ∧
        (f.kind = 8 → (shOf (getCore t core.val) sh).metaFault = f.metaFault) ∧
        (getCore t core.val).heddle = (getCore s core.val).heddle ∧ (getCore t core.val).beam = (getCore s core.val).beam ∧
        (getCore t core.val).store = (getCore s core.val).store ∧ (getCore t core.val).tun = (getCore s core.val).tun)

/-- The vector and SFU instructions and GRAV send the elements their rows give to their destinations (derived from
02_execution_model.md, 03_choyx_encoding.md, 08_training_numerics.md). What log entries 7, 21, 22, 78 say is the
model's choice. -/
def Obligations.VectorAndSfuResults : Prop :=
  ∀ (i : Issue) (s : State) (a : At),
    let st := a.c.store
    let da := entryD a (tDA a.w)
    let db := entryD a (tDB a.w)
    let dx := entryD a (tDX a.w)
    let d := entryD a (tDO a.w)
    let vals := fun x : Image => (rawElems st x).map (widen (dType x))
    let sub := tSub a.w
    (Runs 0x30 i s a (actVecOp a) → ∃ t chk, exec (.vecOp i) s = .next t ∧ issueFrame a t ∧
      landsIn a t (latency a.p 6 5) (.store (pokesOf d ((vals da).zipIdx.map (fun x => narrow (dType d)
        (vecElem sub (signed 32 (tImm a.w)) x.1 ((vals db).getD x.2 0) ((vals dx).getD x.2 0))))) chk)) ∧
    (Runs 0x31 i s a (actVecRed a) → ∃ t chk, exec (.vecRed i) s = .next t ∧ issueFrame a t ∧
      landsIn a t (latency a.p 6 5) (.store (pokesOf d [narrow (dType d) (reduceOf sub (vals da))]) chk)) ∧
    (Runs 0x32 i s a (actVecCvt a) → (cvtResults a da d dx).1.any (fun r => r.ovf) = false →
      ∃ t chk, exec (.vecCvt i) s = .next t ∧ issueFrame a t ∧ landsIn a t (latency a.p 6 5)
        (.store (pokesOf d ((cvtResults a da d dx).1.map (fun r => r.bits)) ++
          (if dType d = tyBS4 then pokesOf dx (cvtResults a da d dx).2 else [])) chk)) ∧
    (Runs 0x40 i s a (actGrav a) → ∃ t chk norms, exec (.grav i) s = .next t ∧ issueFrame a t ∧
      landsIn a t (ceilDiv (dValid da 0 * dValid da 1 * tyWidth (dType da) / 8) 192 + latency a.p 16 12)
        (.store (pokesOf d ((boxOf (validDims d)).map (fun ix => gravScale (gravMax sub).1 (gravMax sub).2
            (granuleVals st da (gravGranule sub) (ix.getD 0 0) (ix.getD 1 0)))) ++
          (if fldFlag a.w 0 = true then pokesOf dx norms else [])) chk) ∧
      norms.length = dValid da 1 + dValid da 0 ∧
      (∀ r, r < dValid da 1 → norms[r]? = some (normUp ((List.range (dValid da 0)).map
        (fun c => decodeTy (dType da) (readElem st da [c, r])))).toNat)) ∧
    (Runs 0x38 i s a (actSfuEval a) → ∃ t chk, exec (.sfuEval i) s = .next t ∧ issueFrame a t ∧
      landsIn a t (latency a.p 14 11) (.store (pokesOf d (sfuResults a.c sub sub (dType d) (vals da))) chk)) ∧
    (Runs 0x39 i s a (actSfuDeriv a) → ∃ t chk, exec (.sfuDeriv i) s = .next t ∧ issueFrame a t ∧
      landsIn a t (latency a.p 14 11) (.store (pokesOf d (sfuResults a.c (2 * sub) (2 * sub) (dType d) (vals da)) ++
        pokesOf db (sfuResults a.c (2 * sub) (2 * sub + 1) (dType db) (vals da))) chk)) ∧
    (Runs 0x3A i s a (actSfuLoad a) → ∃ t, exec (.sfuLoad i) s = .next t ∧ issueFrame a t ∧
      (tImm a.w = 1024 → landsIn a t (latency a.p 14 11) (.sfuConfig sub (BitVec.ofNat 32 (readElem st da [0]))
        (BitVec.ofNat 32 (readElem st da [1])))) ∧
      (tImm a.w ≠ 1024 → ∃ es, landsIn a t (latency a.p 14 11) (.sfuEntries sub (tImm a.w) es) ∧ es.length = 64 ∧
        ∀ j, j < 64 → es[j]? = some (BitVec.ofNat 64 (readElem st da [2 * j] + readElem st da [2 * j + 1] * 2 ^ 32))))

/-- DRAIN and DRAIN.D convert the visible set under the least shift; CHAIN.SEND sends it, CHAIN.SEED loads it
(derived from 07_beam_engine_accumulation.md, 08_training_numerics.md). What log entries 7, 24, 55, 57 say is the
model's choice. -/
def Obligations.DrainsAndChains : Prop :=
  (∀ (eout : Nat) (f : FpFmt) (x : Exact) (r : Nat),
      let ovf := fun k : Nat => (convert .rne .saturate f (scaleE x (-(k : Int)))).ovf
      shiftOf true eout f x = (r, false) ↔
        r ≤ 4 ∧ eout + r ≤ 254 ∧ ovf r = false ∧ ∀ k, k < r → ovf k = true) ∧
    (∀ (i : Issue) (s : State) (a : At),
      let d := entryD a (tDO a.w)
      let dx := entryD a (tDX a.w)
      let set := drainSet a
      let isBeam := tSub a.w = 0
      let kept := fun t : State => (subMul (getCore t a.n) a.w).later = (subMul a.c a.w).later ∧
        (subMul (getCore t a.n) a.w).base = (subMul a.c a.w).base
      let sent := fun (deriv : Bool) (t : State) => ∃ elems chk, kept t ∧
        (∀ x ∈ drainVals a d set deriv,
          (elemBit d x.1, tyWidth (dType d), (drainConv (dType d) (drained a d set deriv).shift x.2).bits) ∈ elems) ∧
        (fldFlag a.w 0 = true → (elemBit dx [2], 8, (scaleRec a).eout + (drained a d set deriv).shift) ∈ elems) ∧
        landsIn a t (occBits (match set.shape with
          | some (mm, nn) => mm * nn * tyWidth (dType d)
          | none => 0) + latency a.p 16 12) (.store elems chk) ∧ issueFrame a t
      (Runs 0x48 i s a (actDrain a) → drainChecked a d set = false → dType d ≠ tyTun → dHandle d = 0 → dFmt d = 0 →
        (drained a d set false).sat = false → ∃ t, exec (.drain i) s = .next t ∧ sent false t) ∧
      (Runs 0x49 i s a (actDrainD a) → drainChecked a d set = false → dType d ≠ tyTun → dHandle d = 0 → dFmt d = 0 →
        (drained a d set true).sat = false → ∃ t, exec (.drainD i) s = .next t ∧ sent true t) ∧
      (Runs 0x50 i s a (actChainSend a) → ∀ mm nn tgt, set.shape = some (mm, nn) → a.p.map[immCore a.w]? = some tgt →
        ∃ t elems chk, exec (.chainSend i) s = .next t ∧ kept t ∧ issueFrame a t ∧
          landsIn a t (occBits (chainBits mm nn) + latency a.p 16 12) (.chain tgt elems chk (immSem a.w)) ∧
          (∀ m n, m < mm → n < nn → (elemBit d [n, m], 64, lanePair (tget {} set.lanes (128 * m + n))) ∈ elems) ∧
          (elemBit d [0, mm], 64, set.terms % 2 ^ 64) ∈ elems ∧ (elemBit d [1, mm], 64, trailerFlags set nn) ∈ elems) ∧
      (Runs 0x51 i s a (actChainSeed a) →
        let da := entryD a (tDA a.w)
        ∃ t x, exec (.chainSeed i) s = .next t ∧ issueFrame a t ∧
          (subMul (getCore t a.n) a.w).later = (subMul a.c a.w).later ++ [x] ∧
          x.set.shape = some (dSize da 1 - 1, seedN a.c.store da) ∧
          x.set.terms = readElem a.c.store da [0, dSize da 1 - 1] ∧
          (∀ m n, m < dSize da 1 - 1 → n < seedN a.c.store da →
            tget {} x.set.lanes (128 * m + n) = seedLane a.c.store da m n) ∧
          (subMul (getCore t a.n) a.w).marks = (subMul a.c a.w).marks ∧ (isBeam → (getCore t a.n).heddle = a.c.heddle)))

/-- CASK.OPEN opens a bucket in every cask, CASK.HDR and CASK.PUT send their frames, CASK.NORM and CASK.CLOSE act on
the record (derived from 13_gradient_exchange.md, 03_choyx_encoding.md, 14_optical_fabric.md). What log entries 7,
58, 59, 60 say is the model's choice. -/
def Obligations.CaskInstructions : Prop :=
  (∀ (xs : List Exact), (∀ m e k, Exact.num m e ∈ xs → expoE m e = some k → k ≤ headerExp xs) ∧
      (headerExp xs = -32768 ∨ ∃ m e, Exact.num m e ∈ xs ∧ expoE m e = some (headerExp xs))) ∧
    (∀ (i : Issue) (s : State) (a : At),
      let b := immBucket a.w
      let low := a.p.low
      let port := caskPort a.p (immCask a.w)
      let m := immModule a.w
      let d := entryD a (tDA a.w)
      let row := fun (t : State) (k : Nat) => (getCask t k).buckets
      let free := mustHold (shOf a.c a.sh) a.c.nextAccess false = false
      let noHdr := ∀ y ∈ (shOf a.c a.sh).accesses, y.held = true → y.kind ≠ .caskHdr b (immCask a.w) m
      let sent := fun (t : State) (fs : List Frame) =>
        (m = ownIndex a.s → t.mesh = a.s.mesh ++ fs.map (fun f => { port := Fin.ofNat 8 port, sender := m, frame := f })) ∧
        (m ≠ ownIndex a.s → (getChan a.s port m).state ≠ .failed →
          ∀ f ∈ fs, ∀ y ∈ frameSlots f, y ∈ tget [] (getChan t port m).txq (vlOf f))
      let waits := fun (t : State) (k : AccessKind) (n : Nat) =>
        ∃ x ∈ (shOf (getCore t a.n) a.sh).accesses, x.id = a.c.nextAccess ∧ x.kind = k ∧ x.unanswered = n
      (Runs 0x58 i s a (actCaskOpen a) → ∃ r t p q, openRecord a = some r ∧ exec (.caskOpen i) s = .next t ∧
        partAt a.s low = some p ∧ partAt t low = some q ∧ q.buckets = p.buckets ++ [(b, r)] ∧
        (∀ k ∈ partCasks a.p, row t k = row a.s k ++
          [{ low := low, bucket := b, tag := stepTag a.s a.p, allocAt := tset 0 (tset 0 [] 0 a.s.pll) 1 a.s.pll }]) ∧
        (∀ k, k ∉ partCasks a.p → getCask t k = getCask a.s k) ∧ (∀ n ∈ a.p.map, b ∉ (getCore t n).verdictBuckets)) ∧
      (Runs 0x59 i s a (actCaskHdr a) → free → operandMeta a.c.store (if dDense d = true then [] else [(0, d)]) = none →
        let xs := sliceVals a.c.store d
        ∃ t f g, exec (.caskHdr i) s = .next t ∧ sent t [f] ∧ waits t (.caskHdr b (immCask a.w) m) 1 ∧
          f.kind = fkCaskHdr ∧ f.tag = stepTag a.s a.p ∧ f.backup = modeBackup a.w ∧ f.standIn = modeFor a.w ∧
          f.addr = caskAddr b (immCask a.w) low 0 ∧ f.srcCore = a.lc ∧ f.srcShuttle = a.sh ∧
          (∀ r, bucketRec a.p b = some r → g = r.digest) ∧
          f.inline = .header (headerExp xs) (xs.any (fun x => !finiteE x)) (validCount d) g ∧
          (getCore t a.n).store = a.c.store) ∧
      (Runs 0x5A i s a (actCaskPut a) → free → noHdr → dDense d = true →
        ∃ t fs, exec (.caskPut i) s = .next t ∧ sent t fs ∧
          waits t (.caskPiece b (immCask a.w) m (pieceOffset a).toNat (validCount d)) fs.length ∧
          (fs.flatMap (fun f => f.data) = (validElems d).flatMap (fun x => leBytes 2 (peek a.c.store x.1 16))) ∧
          (∀ f ∈ fs, f.kind = fkPiece ∧ f.tag = stepTag a.s a.p ∧ f.backup = modeBackup a.w ∧ f.standIn = modeFor a.w ∧
            (modeProv a.w = true → f.prov = true)) ∧
          (modeProv a.w = true → ∃ v ∈ (getCore t a.n).pieces, v.id = a.c.nextAccess ∧ v.count = validCount d ∧ v.dest = m) ∧
          (getCore t a.n).store = a.c.store) ∧
      (Runs 0x5B i s a (actCaskNorm a) → ∃ t p q, exec (.caskNorm i) s = .next t ∧ partAt a.s low = some p ∧
        partAt t low = some q ∧ (∀ r, bucketRec p b = some r → bucketRec q b = some { r with normDeclared := true }) ∧
        (∀ c, c ≠ b → bucketRec q c = bucketRec p c) ∧ (∀ k, getCask t k = getCask a.s k)) ∧
      (Runs 0x5C i s a (actCaskClose a) → ∃ t p q, exec (.caskClose i) s = .next t ∧ partAt a.s low = some p ∧
        partAt t low = some q ∧ bucketRec q b = none ∧ (∀ c, c ≠ b → bucketRec q c = bucketRec p c) ∧
        (∀ k ∈ partCasks a.p, row t k = (row a.s k).filter (fun x => !(x.low == low && x.bucket == b))) ∧
        (∀ k, k ∉ partCasks a.p → getCask t k = getCask a.s k)))

/-- UPD writes the weights and moments of R419 behind its verdict fence; CULL and GERMINATE write a region;
MASK.COMMIT stamps G + 1 (derived from 11_mask_lifecycle.md, 12_training_step.md, 08_training_numerics.md,
09_sparse_formats.md). What log entries 7, 30, 61, 63 say is the model's choice. -/
def Obligations.UpdateAndMasks : Prop :=
  (∀ (d db : Image) (h : Header) (st : Tbl Byte) (unit : Bool) (k : Nat) (blocks : List (Nat × Nat)) (sp : List Spot),
      (∀ x ∈ (cullSpots d h unit k blocks sp).spots, x ∈ sp) ∧ (cullSpots d h unit 0 blocks sp).spots = sp ∧
      (∀ x ∈ (growSpots st d db h unit k blocks sp).spots, x ∈ sp ∨ (x.raw = 0 ∧ x.origin = none))) ∧
    (∀ (i : Issue) (s : State) (a : At),
      let st := a.c.store
      let d := entryD a (tDO a.w)
      let da := entryD a (tDA a.w)
      let db := entryD a (tDB a.w)
      let dx := entryD a (tDX a.w)
      let h := headerOf st da
      let blocks := bsrBlocks st da
      let quiet := operandsChk (readStore a (operandUnits (updReads a))) a.n (updOperands a) ≠ .failed
      let tally := fun (c : Nat) (t : State) => tget 0 (getCore t a.n).counters c = tget 0 a.c.counters c + 1
      let region := fun (t : State) (grow : Bool) (k : Nat) (r : Derived) =>
        ∃ elems chk, landsIn a t (kBudget a.w + latency a.p 40 32) (.store elems chk) ∧
          (∀ j b, (regionBytes da h (newP0 da h k grow) blocks r.spots)[j]? = some b →
            (8 * (dBase d + j), 8, b.toNat) ∈ elems) ∧
          issueFrame a t ∧ (getCore t a.n).heddle = a.c.heddle ∧
          ∃ p, (getCore t a.n).pass = some p ∧ p.budget = kBudget a.w ∧ p.failed = false
      let fits := fun (grow : Bool) (k : Nat) (r : Derived) =>
        cullFmt da = true ∧ worstMeta (regionChecks st da) = none ∧
        ((regionBytes da h (newP0 da h k grow) blocks r.spots).length : Int) ≤ dStride d 1 ∧
        (fldFlag a.w 0 = true → r.spots.length ≤ dValid dx 0)
      (Runs 0x61 i s a (actUpdCfg a) → ∃ t, exec (.updCfg i) s = .next t ∧ issueFrame a t ∧
        landsIn a t (latency a.p 4 3) (.paramSlot (tDX a.w) (readBytes st (dBase da) 128))) ∧
      (Runs 0x60 i s a (actUpd a) → ∀ q, slotOf a = some q → tSub a.w < 2 →
        (immBucket a.w ∉ a.c.verdictBuckets → ∃ t, exec (.upd i) s = .next t ∧ (getCore t a.n).flight = a.c.flight ∧
          issueFrame a t ∧ tally ctrUpdBlocked t) ∧
        (immBucket a.w ∈ a.c.verdictBuckets → quiet →
          (updSkips a.s a.p (immBucket a.w) = true → ∃ t, exec (.upd i) s = .next t ∧
            (getCore t a.n).flight = a.c.flight ∧ issueFrame a t ∧ tally ctrUpdSkipped t) ∧
          (updSkips a.s a.p (immBucket a.w) = false → ∃ t elems chk, exec (.upd i) s = .next t ∧ issueFrame a t ∧
            landsIn a t (latency a.p 6 5) (.store elems chk) ∧
            ∀ k, k < dValid d 0 →
              let e := (weightIndex q d).getD 0 + k
              let wt := widen (dType d) (readElem st d [k])
              let scale := fun j : Nat => readElem st db [j]
              let r := updateOf q (tSub a.w) (clipFactor a.s a.p (immBucket a.w) q.clip)
                (gradAt a.s a.p (immBucket a.w) q.stepNo (q.goff + e)) wt
                (momentAt st da 0 k (scale (k / 8))) (momentAt st da 1 k (scale (32 + k / 8)))
              (elemBit d [k], 16, newWeight ((tyFp (dType d)).getD fmtBF16) wt r.2.2
                (philoxRho q.seed (q.estart + e) q.tensor q.stepNo) % 2 ^ 16) ∈ elems))) ∧
      (Runs 0x60 i s a (actUpd a) → ∀ q, slotOf a = some q → tSub a.w = 2 → quiet →
        ∃ t chk, exec (.upd i) s = .next t ∧ issueFrame a t ∧
          landsIn a t (latency a.p 6 5) (.store (remapPokes a q).1 chk)) ∧
      (Runs 0x68 i s a (actCull a) →
        let r := cullSpots da h (kUnit a.w) (kK a.w) blocks (spotsOf st da)
        fits false (kK a.w) r → dType da ≠ tyBit → ∃ t, exec (.cull i) s = .next t ∧ region t false (kK a.w) r) ∧
      (Runs 0x69 i s a (actGerminate a) →
        let k := if 2 ≤ stageNow a.s then 0 else kK a.w
        let r := growSpots st da db h (kUnit a.w) k blocks (spotsOf st da)
        fits true k r → ∃ t, exec (.germinate i) s = .next t ∧ region t true k r) ∧
      (Runs 0x6A i s a (actMaskCommit a) → ∃ t, exec (.maskCommit i) s = .next t ∧ issueFrame a t ∧
        landsIn a t 1 (.commit [(8 * dBase da + 288, 32,
          (bits (getQuad a.s (quadOf a.n)).maskGen 0 32 + 1) % 2 ^ 32)])))

/-- SELV.CFG, SELV.RUN, SELV.READ, PWR.HORIZON, JNL.HASH, JNL.WRITE and JNL.TAP do what their rows give (derived
from 17_selvedge_units.md, 12_training_step.md, 19_power_clocks_supply.md). What log entries 6, 7, 64, 65 say is the
model's choice. -/
def Obligations.SelvedgeHorizonJournal : Prop :=
  crcResult 32 0x1EDC6F41 0xFFFFFFFF true true true [0x31, 0x32, 0x33, 0x34, 0x35, 0x36, 0x37, 0x38, 0x39] = 0xE3069283 ∧
    (∀ (i : Issue) (s : State) (a : At),
      let st := a.c.store
      let da := entryD a (tDA a.w)
      let start := max (a.c.cycle + 1) ((liveRuns a.c).getLast?.getD 0)
      let stop := start + ceilDiv (selvOut a).bytes 64
      (Runs 0x80 i s a (actSelvCfg a) → ∃ t, exec (.selvCfg i) s = .next t ∧ issueFrame a t ∧
        landsIn a t 1 (.selvCfg (sFn a.w) (BitVec.ofNat 64 (sImm a.w)))) ∧
      (Runs 0x81 i s a (actSelvRun a) → (dDense da = false → worstMeta (regionChecks st da) = none) →
        ∃ t chk, exec (.selvRun i) s = .next t ∧ issueFrame a t ∧
          landsIn a t (stop + 1 - a.c.cycle) (.selv (pcOf a.r a.sh) (BitVec.ofNat 64 (selvOut a).result) (selvOut a).events
            (selvOut a).writes chk (selvOut a).tally) ∧
          (getCore t a.n).selv.runs = liveRuns a.c ++ [stop] ∧
          (tSub a.w < 2 → dDense da = true → (selvOut a).result = selvCrc a.c.selv (extentBytes st da) ∧
            (selvOut a).writes = [])) ∧
      (Runs 0x82 i s a (actSelvRead a) → ∃ t, exec (.selvRead i) s = .next t ∧
        t = advance (toD a (if sFn a.w = 0 then a.c.selv.result.toNat else selvStatus a.c)) a none) ∧
      (Runs 0x88 i s a (actPwrHorizon a) → ∃ t p q, exec (.pwrHorizon i) s = .next t ∧ partAt a.s a.p.low = some p ∧
        partAt t a.p.low = some q ∧ issueFrame a t ∧
        q.horizon = p.horizon ++ [a.s.pll + (if fldFlag a.w 0 = true then sImm a.w else regRead a.r (sS1 a.w)) *
          divider a.s.power.divNow]) ∧
      (Runs 0x90 i s a (actJnlHash a) → ∃ t, exec (.jnlHash i) s = .next t ∧ issueFrame a t ∧
        let bs := extentBytes st da
        landsIn a t (max (foldEnd a.c) (a.c.cycle + max 1 (ceilDiv bs.length 64)) - a.c.cycle) (.jnlFold bs)) ∧
      (Runs 0x91 i s a (actJnlWrite a) → ∃ t, exec (.jnlWrite i) s = .next t ∧ issueFrame a t ∧
        (getCore t a.n).flight = a.c.flight ∧ (getCore t a.n).jnlPend =
          a.c.jnlPend ++ [(a.c.nextOrder, if a.lc = 0 then extentBytes st da else [])]) ∧
      (Runs 0x92 i s a (actJnlTap a) → replaying a.s a.p = false →
        exec (.jnlTap i) s = .next (advance a.s a none)))

/-- READ, WRITE and ADD frames are served at their target or refused; DATA, DONE and TAP frames act where they
arrive (derived from 05_memory_and_ordering.md, 14_optical_fabric.md, 12_training_step.md, 18_hang_and_reset.md).
What log entries 8, 9, 26, 66 say is the model's choice. -/
def Obligations.RemoteRequestsServed : Prop :=
  ∀ (rx : Rx) (s : State),
    let f := rx.frame
    let ti := rxTier f
    let here := (takeRx s rx).isSome = true
    let free := heldLines s ti (rxUnits f) = []
    let sound := f.poison = false ∧ ∀ u ∈ rxUnits f, isPoisoned s ti u = false
    let replied := fun (t : State) (g : Frame → Prop) => t.cores = s.cores ∧ ∃ d, frameOut s t rx.port rx.sender d ∧
      d.addr = f.addr ∧ d.srcCore = f.srcCore ∧ d.srcShuttle = f.srcShuttle ∧ d.tag = f.tag ∧ g d
    let wrote := fun (t : State) (xs : List Poke) => onlyTier s t ti (pokeAll (tierMem s ti) xs) ∧
      ∀ b : Nat, (∀ x ∈ xs, b < x.1 / 8 ∨ (x.1 + x.2.1 + 7) / 8 ≤ b) → tget 0 (tierMem t ti) b = tget 0 (tierMem s ti) b
    let done := fun (d : Frame) => d.kind = fkDone ∧ d.inline = .units (rxUnits f) ∧ d.poison = false
    let no := fun (d : Frame) => d.kind = fkDone ∧ d.inline = .refusal
    (f.kind = fkRead → ∀ ecc, (takeRx s rx = none → exec (.readFrameReceive rx ecc) s = .next s) ∧
      (here → accepts s f false = true → ecc = MemEcc.clean →
        ((∀ u ∈ rxUnits f, isPoisoned s ti u = false) → ∃ t, exec (.readFrameReceive rx ecc) s = .next t ∧
          t.hbm = s.hbm ∧ t.lpddr = s.lpddr ∧ replied t (fun d => d.kind = fkData ∧ d.poison = false ∧
            d.inline = .units (rxUnits f) ∧
            d.data = (rxUnits f).flatMap (fun u => readBytes (tierMem s ti) (64 * u) 64))) ∧
        ((∃ u ∈ rxUnits f, isPoisoned s ti u = true) → ∃ t, exec (.readFrameReceive rx ecc) s = .next t ∧
          replied t (fun d => d.poison = true ∧
            let good := (rxUnits f).filter (fun u => !isPoisoned s ti u)
            if good = [] then d.kind = fkDone else d.kind = fkData ∧ d.inline = .units good ∧
              d.data = good.flatMap (fun u => readBytes (tierMem s ti) (64 * u) 64)))) ∧
      (here → accepts s f false = false → ∃ t, exec (.readFrameReceive rx ecc) s = .next t ∧ replied t no)) ∧
    (f.kind = fkWrite → free →
      (here → accepts s f true = true → f.poison = false → ∃ t, exec (.writeFrameReceive rx) s = .next t ∧
        wrote t (writeElems f) ∧ replied t done) ∧
      (here → accepts s f true = false → ∃ t, exec (.writeFrameReceive rx) s = .next t ∧ replied t no ∧
        t.lpddr = s.lpddr ∧ (s.errors.store.length < 512 → t.hbm = s.hbm))) ∧
    (f.kind = fkAdd → free → here → accepts s f true = true → sound → ∃ t,
      exec (.addFrameReceive rx MemEcc.clean) s = .next t ∧ wrote t (addedElems (tierMem s ti) f) ∧ replied t done) ∧
    (f.kind = fkWrite → here → ¬ free →
      exec (.writeFrameReceive rx) s = .next (snoopLines s (heldLines s ti (rxUnits f)))) ∧
    (f.kind = fkData → here → findAbandoned s rx = none → ∀ n p k q x, findSegment s rx = some (n, p, k, q, x) →
      ∃ t, exec (.dataFrameReceive rx) s = .next t ∧ t.hbm = s.hbm ∧ t.lpddr = s.lpddr ∧
        (∃ r ∈ (tget {} (getCore t n).queues k).reqs, r.seq = q.seq ∧ r.segs = q.segs.erase x ∧
          r.poisoned = (q.poisoned || !x.pieces.all (brought f)) ∧ r.got = q.got ++ dataPokes f x ∧
          r.bad = q.bad ++ lostPokes (x.pieces.filter (fun y => !brought f y))) ∧
        (∀ m, m ≠ n → getCore t m = getCore s m) ∧ (getCore t n).store = (getCore s n).store) ∧
    (f.kind = fkData → here → findAbandoned s rx = none → findSegment s rx = none →
      ∃ t, exec (.dataFrameReceive rx) s = .next t ∧ t.cores = s.cores ∧ t.hbm = s.hbm ∧ t.lpddr = s.lpddr) ∧
    (f.kind = fkDone → here → findAbandoned s rx = none → f.tag ≠ 0 → ∀ n p k q x, findSegment s rx = some (n, p, k, q, x) →
      ∃ t, exec (.doneFrameReceive rx) s = .next t ∧ t.hbm = s.hbm ∧ t.lpddr = s.lpddr ∧
        (∃ r ∈ (tget {} (getCore t n).queues k).reqs, r.seq = q.seq ∧ r.segs = q.segs.erase x ∧
          r.poisoned = (q.poisoned || f.poison || f.inline == .refusal)) ∧
        (∀ m, m ≠ n → getCore t m = getCore s m) ∧ (getCore t n).store = (getCore s n).store) ∧
    (f.kind = fkDone → here → findAbandoned s rx = none → f.tag = 0 → ∀ n x,
      (sourceCores s f.srcCore).findSome? (fun n =>
        ((shOf (getCore s n) f.srcShuttle).accesses.find? (sentThis rx)).map (fun x => (n, x))) = some (n, x) →
      x.frames.length = 1 → ∃ t, exec (.doneFrameReceive rx) s = .next t ∧
        (∀ y, y ∈ (shOf (getCore t n) f.srcShuttle).accesses ↔
          y ∈ (shOf (getCore s n) f.srcShuttle).accesses ∧ y.id ≠ x.id)) ∧
    (f.kind = fkData → here → ∀ x, findAbandoned s rx = some x → ∃ t, exec (.dataFrameReceive rx) s = .next t ∧
      t.cores = s.cores ∧ t.abandoned = s.abandoned.erase x) ∧
    (f.kind = fkTap → free → here → (rx.sender = ownIndex s ∨ accepts s f true = true) → f.poison = false →
      ∃ t, exec (.tapFrameReceive rx) s = .next t ∧ wrote t (writeElems f) ∧
        (rx.sender ≠ ownIndex s → ∃ d, frameOut s t rx.port rx.sender d ∧ d.kind = fkDone ∧ d.tag = 0))

/-- A header, a unit and a verdict act on the bucket they name, are acknowledged, and wait or are discarded where R463
says so; a withheld contributor's frames change nothing (derived from 13_gradient_exchange.md,
16_integrity_and_faults.md, 14_optical_fabric.md, 17_selvedge_units.md). What log entries 8, 28, 58, 59 say is the
model's choice. -/
def Obligations.CaskFramesAct : Prop :=
  (∀ (c : Tbl Int) (t u : List (Nat × Option (Int × Bool))) (e : Nat),
      tget 0 (addCells (addCells c t 1) t (-1)) e = tget 0 c e ∧
      tget 0 (addCells (addCells c t 1) u 1) e = tget 0 (addCells (addCells c u 1) t 1) e) ∧
    (∀ (a m e x : Int) (raw : Nat), decodeFp fmtBF16 raw = .num m e → expoE m e = some x → x ≤ a →
      (a - 117 ≤ e → gridUnits a raw = some (m * pow2 (e - (a - 117)).toNat, false)) ∧
      (e < a - 117 → ∃ q lost, gridUnits a raw = some (q, lost) ∧ q = m.tdiv (pow2 (a - 117 - e).toNat) ∧
        (lost = false ↔ q * pow2 (a - 117 - e).toNat = m))) ∧
    (∀ (rx : Rx) (s : State), takeRx s rx = none → exec (.caskHdrReceive rx) s = .next s ∧
      (∀ b, exec (.caskPieceReceive rx b) s = .next s) ∧ exec (.verdictReceive rx) s = .next s) ∧
    (∀ (rx : Rx) (s : State) (p : Part) (c : Instr), (takeRx s rx).isSome = true →
      (c = .caskHdrReceive rx ∧ rx.frame.kind = fkCaskHdr ∨ c = .caskPieceReceive rx false ∧ rx.frame.kind = fkPiece ∨
        c = .verdictReceive rx ∧ rx.frame.kind = fkVerdict) →
      (getCask s rx.port.val).held.any (fun h => sameLane h.rx rx) = false → partAt s (faLow rx.frame.addr) = some p →
      let f := rx.frame
      let l : CaskLoc := { k := caskOf p (faCask f.addr), low := p.low, b := faBucket f.addr }
      let counted := fun (t : State) (k : Nat) => tget 0 (getCask t k).counters caskLate =
        tget 0 (getCask s k).counters caskLate + BitVec.ofNat 64 (frameUnits f)
      let acked := fun (t : State) => ∃ d, frameOut s t rx.port rx.sender d ∧ d.kind = fkCaskAck ∧ d.addr = f.addr ∧
        d.tag = f.tag ∧ d.inline = f.inline
      let same := fun (t : State) => (∀ k, (getCask t k).buckets = (getCask s k).buckets) ∧ t.cores = s.cores ∧
        t.parts = s.parts ∧ t.lpddr = s.lpddr
      (faCask f.addr < caskCount p → p.reset.isSome = true ∨ (p.afterReset = true ∧ p.ctx = .empty) →
        ∃ t, exec c s = .next t ∧ same t ∧ acked t ∧ counted t l.k ∧ t.errors = s.errors) ∧
      (p.reset = none → p.afterReset = false → faCask f.addr < caskCount p →
        (∀ x r, bucketAt s l = some x → bucketRec p l.b = some r → f.tag ≠ x.tag → 32767 < (f.tag - x.tag).toNat →
          ∃ t, exec c s = .next t ∧ same t ∧ acked t ∧ counted t l.k) ∧
        (∀ x r, bucketAt s l = some x → bucketRec p l.b = some r → f.tag = x.tag → bit r.contrib (speaksFor rx) = true →
          (f.backup = true → backupOf r (speaksFor rx) = rx.sender) → speaksFor rx ∈ x.withheld →
          ∃ t, exec c s = .next t ∧ same t ∧ acked t ∧ t.errors = s.errors) ∧
        (∀ x r, bucketAt s l = some x → bucketRec p l.b = some r → f.tag = x.tag →
          bit r.contrib (speaksFor rx) = false ∨ (f.backup = true ∧ backupOf r (speaksFor rx) ≠ rx.sender) →
          ∃ t, exec c s = .next t ∧ same t ∧ acked t ∧ counted t l.k ∧ t.errors.rseq = s.errors.rseq + 1) ∧
        (bucketAt s l = none → ¬ (f.kind = fkVerdict ∧ (l.b, f.tag) ∈ p.closed) →
          ((f.tag - (getQuad s p.low).jnlIndex.truncate 16).toNat ≤ 32767 → ∃ t h, exec c s = .next t ∧ same t ∧
            (getCask t rx.port.val).held = (getCask s rx.port.val).held ++ [h] ∧ h.rx = rx) ∧
          (32767 < (f.tag - (getQuad s p.low).jnlIndex.truncate 16).toNat → ∃ t, exec c s = .next t ∧ same t ∧ acked t ∧
            counted t l.k)))) ∧
    (∀ (rx : Rx) (s : State) (l : CaskLoc) (p : Part) (r : BucketRec) (x : CaskBucket), forBucket s rx l p r x →
      let f := rx.frame
      let m := speaksFor rx
      let u := faElem f.addr / 256
      let y := unitOf x m u
      let acked := fun (t : State) => ∃ d, frameOut s t rx.port rx.sender d ∧ d.kind = fkCaskAck ∧ d.addr = f.addr ∧
        d.tag = f.tag ∧ d.inline = f.inline
      let becomes := fun (o : Host.Outcome State Fault Refusal) (g : CaskBucket → Prop) =>
        ∃ t z, o = .next t ∧ bucketAt t l = some z ∧ g z ∧ acked t ∧ onlyBucket s t l ∧ t.cores = s.cores ∧
          t.lpddr = s.lpddr
      let unitFrame := f.kind = fkPiece ∧ (∃ n, f.inline = .piece n false 0 1) ∧ f.data.length = 512 ∧
        faElem f.addr % 256 = 0 ∧ faElem f.addr + 256 ≤ r.elems ∧ x.verdicts = [] ∧
        x.sealedCount ≤ u / 256 ∧ u / 256 ≤ x.sealedCount + 1
      (∀ e bad, f.kind = fkCaskHdr → f.inline = .header e bad r.elems r.digest →
        becomes (exec (.caskHdrReceive rx) s) (fun z => m ∈ z.headers ∧ z.largest = max x.largest e ∧
          z.cells = x.cells ∧ z.units = x.units ∧ z.clock = some (x.clock.getD s.pll) ∧
          (x.anchor = none → (∀ c ∈ contributors r, c ∈ z.headers ∨ c ∈ z.withheld) →
            z.anchor = some (max (-16) z.largest)) ∧ (∀ a, x.anchor = some a → z.anchor = some a))) ∧
      (∀ a, unitFrame → x.anchor = some a → y.added = false → y.ledger = none →
        (f.prov = true → ledgerUsed x + 512 ≤ 1024 * r.ledgerKb) →
        becomes (exec (.caskPieceReceive rx false) s) (fun z => z.cells = addCells x.cells (unitTerms a u f.data) 1 ∧
          (unitOf z m u).added = true ∧ (unitOf z m u).crc = BitVec.ofNat 32 (crc32c f.data) ∧
          (unitOf z m u).backup = f.backup ∧
          (unitOf z m u).ledger = (if f.prov = true then some f.data else none) ∧ z.headers = x.headers ∧
          (∀ v, v ≠ unitKey m u → tget {} z.units v = tget {} x.units v))) ∧
      (∀ a, unitFrame → x.anchor = some a → y.added = true → y.crc = BitVec.ofNat 32 (crc32c f.data) →
        becomes (exec (.caskPieceReceive rx false) s) (fun z => z.cells = x.cells ∧ z.withheld = x.withheld)) ∧
      (∀ voff count pass, f.kind = fkVerdict → f.inline = .verdict voff count pass →
        (∀ j, j < count / 256 → acceptedCopy (unitOf x m (voff / 256 + j)) f.backup = false) →
        becomes (exec (.verdictReceive rx) s) (fun z => z.cells = x.cells ∧ z.units = x.units ∧
          ∀ j, j < count / 256 → 256 * (voff / 256 + j) < r.elems → ∃ v ∈ z.verdicts, v.speaksFor = m ∧ v.backup = f.backup ∧
            v.pass = pass ∧ v.landed = true ∧ voff / 256 + j ∈ v.units)) ∧
      (∀ a bs pass, f.kind = fkVerdict → f.inline = .verdict (256 * u) 256 pass → x.anchor = some a →
        256 * u < r.elems → y.ledger = some bs → y.backup = f.backup → y.awaitsPiece = true → staleOf y f.backup = 0 →
        becomes (exec (.verdictReceive rx) s) (fun z =>
          (pass = false → z.cells = addCells x.cells (unitTerms a u bs) (-1) ∧ (unitOf z m u).added = false ∧
            (unitOf z m u).ledger = none) ∧
          (pass = true → y.awaitsSelv = false → z.cells = x.cells ∧ (unitOf z m u).ledger = none ∧
            (unitOf z m u).added = y.added)))) ∧
    (∀ (rx : Rx) (s : State) (p : Part) (x : CaskBucket),
      let f := rx.frame
      let l : CaskLoc := { k := caskOf p (faCask f.addr), low := p.low, b := faBucket f.addr }
      (takeRx s rx).isSome = true → f.kind = fkPiece → partAt s (faLow f.addr) = some p → p.reset = none →
      p.afterReset = false → faCask f.addr < caskCount p → bucketAt s l = some x → (bucketRec p l.b).isSome = true →
      1 ≤ (f.tag - x.tag).toNat → (f.tag - x.tag).toNat ≤ 32767 →
      ∃ t h, exec (.caskPieceReceive rx false) s = .next t ∧
        (getCask t rx.port.val).held = (getCask s rx.port.val).held ++ [h] ∧ h.rx = rx ∧ bucketAt t l = some x) ∧
    (∀ (cask : Fin 8) (id : Nat) (s : State) (h : HeldFrame), (getCask s cask.val).held.find? (fun h => h.id == id) = some h →
      (((getCask s cask.val).held.takeWhile (fun x => x.id != id)).any (fun x => sameLane x.rx h.rx) = true →
        exec (.heldFrameRelease cask id) s = .next s) ∧
      (((getCask s cask.val).held.takeWhile (fun x => x.id != id)).any (fun x => sameLane x.rx h.rx) = false →
      (∀ p x r, partAt s (faLow h.rx.frame.addr) = some p → p.reset = none → p.afterReset = false →
        faCask h.rx.frame.addr < caskCount p →
        let l : CaskLoc := { k := caskOf p (faCask h.rx.frame.addr), low := p.low, b := faBucket h.rx.frame.addr }
        bucketAt s l = some x → bucketRec p l.b = some r → h.rx.frame.tag = x.tag → h.rx.frame.kind = fkCaskHdr →
        bit r.contrib (speaksFor h.rx) = true → h.rx.frame.backup = false → speaksFor h.rx ∉ x.withheld →
        ∀ e bad, h.rx.frame.inline = .header e bad r.elems r.digest → ∃ t z, exec (.heldFrameRelease cask id) s = .next t ∧
          (∀ y ∈ (getCask t cask.val).held, y.id ≠ id) ∧ bucketAt t l = some z ∧ speaksFor h.rx ∈ z.headers ∧
          z.largest = max x.largest e) ∧
      ∃ t, exec (.heldFrameRelease cask id) s = .next t ∧
        (∀ u, caskAct s h.rx h.cfg = .acted u → ∀ y ∈ (getCask t cask.val).held, y.id ≠ id) ∧
        (∀ u g, caskAct s h.rx h.cfg = .hold u g → ∃ y ∈ (getCask t cask.val).held, y.id = id ∧ y.rx.frame = g))) ∧
    (∀ (rx : Rx) (s : State) (p : Part) (n : Nat) (x : Access), (takeRx s rx).isSome = true → rx.frame.kind = fkCaskAck →
      partAt s (faLow rx.frame.addr) = some p → p.map[rx.frame.srcCore]? = some n →
      (shOf (getCore s n) rx.frame.srcShuttle).accesses.find? (ackMatches rx.frame rx.sender) = some x →
      ∃ t, exec (.caskAckReceive rx) s = .next t ∧ t.casks = s.casks ∧ t.lpddr = s.lpddr ∧
        (∀ m, m ≠ n → getCore t m = getCore s m) ∧ (getCore t n).store = (getCore s n).store ∧
        (x.unanswered = 1 → (∀ v ∈ (getCore s n).pieces, v.id ≠ x.id) →
          ∀ y ∈ (shOf (getCore t n) rx.frame.srcShuttle).accesses, y.id ≠ x.id) ∧
        (2 ≤ x.unanswered → (∀ y ∈ (shOf (getCore s n) rx.frame.srcShuttle).accesses, y.id = x.id → y = x) →
          ∃ y ∈ (shOf (getCore t n) rx.frame.srcShuttle).accesses, y.id = x.id ∧
          y.unanswered = x.unanswered - 1)) ∧
    (∀ (rx : Rx) (s : State), takeRx s rx = none → exec (.caskAckReceive rx) s = .next s)

/-- Flits leave in sequence order on their comb line with the credits that are due, are accepted only in order and with at
most 8 byte errors a codeword, and are resent on a retry request; channels retrain and fail as R498, R499 and R505 say
(derived from 14_optical_fabric.md, 19_power_clocks_supply.md). What log entries 8, 31, 67 say is the model's choice. -/
def Obligations.FlitsAndRetry : Prop :=
  ∀ (port : Fin 8) (peer : Fin 64) (s : State),
    let k := port.val
    let m := peer.val
    let c := getChan s k m
    let now := fun (t : State) => getChan t k m
    let rest := fun (t : State) => (∀ j n, (j, n) ≠ (k, m) → getChan t j n = getChan s j n) ∧ t.cores = s.cores ∧
      t.casks = s.casks ∧ t.lpddr = s.lpddr
    let count := fun (t : State) (n : Nat) => (getPort t k).counters = bumpTbl (getPort s k).counters n 1
    let becomes := fun (o : Host.Outcome State Fault Refusal) (g : State → Prop) => ∃ t, o = .next t ∧ rest t ∧ g t
    let failed := fun (t : State) => (now t).state = .failed ∧ (now t).txq = [] ∧ bit (getPort t k).failed m = true ∧
      (now t).txSeq = c.txSeq ∧ (now t).rxSeq = c.rxSeq
    let training := fun (t : State) => (now t).state = .retraining ∧ (now t).retrainAt = s.pll ∧ (now t).txSeq = c.txSeq ∧
      (now t).rxSeq = c.rxSeq ∧ (now t).sweepHeld = sweepsHeld s ∧ count t portRetrainCount
    let open_ := c.state = .up ∧ m ≠ ownIndex s
    let due := (c.sent = none ∨ c.sentAt + nsUp 128 ≤ s.pll) ∧ c.holdTill ≤ s.pll
    let quiet := (getPort s k).quiescing = false
    let told := fun (f : Flit) => f.credit = c.returned.map (fun x => (x.1, min 15 x.2)) ∧ f.shared = min 255 c.returnedShared
    (c.state = .up → due → quiet →
      becomes (exec (.flitSend port peer) s) (fun t => ∃ f, (now t).sent = some f ∧ (now t).sentAt = s.pll ∧
        (now t).line = txLine (ownIndex s) m ∧ (m = ownIndex s → f.type = .idle) ∧
        (m ≠ ownIndex s → c.askRetry = true → f.type = .retry ∧ f.ack = c.rxSeq ∧ told f ∧ (now t).askRetry = false ∧
          (now t).unacked = c.unacked) ∧
        (m ≠ ownIndex s → c.askRetry = false → ∀ g l, c.resend = g :: l → f = { g with ack := c.rxSeq } ∧
          (now t).resend = l) ∧
        (m ≠ ownIndex s → c.askRetry = false → c.resend = [] → 16 ≤ c.unacked.length →
          f.type = .idle ∧ told f ∧ (now t).txSeq = c.txSeq) ∧
        (m ≠ ownIndex s → c.askRetry = false → c.resend = [] → c.unacked.length < 16 →
          (f.type = .idle ∧ told f ∧ (now t).txSeq = c.txSeq ∧ (now t).unacked = c.unacked) ∨
          (f.type = .data ∧ told f ∧ f.seq = c.txSeq ∧ f.ack = c.rxSeq ∧ (now t).txSeq = c.txSeq + 1 ∧
            1 ≤ f.slots.length ∧ f.slots.length ≤ 25 ∧ (now t).unacked = c.unacked ++ [f])))) ∧
    (c.state = .retraining → c.sweepHeld = false → mayTrain s k m = true → due →
      becomes (exec (.flitSend port peer) s) (fun t => (∃ f, (now t).sent = some f ∧ f.type = .training ∧ f.port = k ∧
        f.sender = ownIndex s) ∧ now t = { c with sent := (now t).sent, sentAt := s.pll, line := txLine (ownIndex s) m })) ∧
    (c.state ≠ .up → c.state ≠ .retraining → exec (.flitSend port peer) s = .next s) ∧
    (¬ due → exec (.flitSend port peer) s = .next s) ∧
    (∀ e : FlitErrors, (correctable e = true ↔ ∀ j, j < 8 → codewordErrors e j ≤ 8) ∧
      (e.bad = [] → correctable e = true)) ∧
    (∀ f e, open_ → correctable e = false ∨ (e.bad = [] ∧ e.crc ≠ flitCrc f) →
      exec (.flitReceive port peer f e) s = .next (bumpPort s k portFecUncorr 1)) ∧
    (∀ f e, open_ → correctable e = true → e.crc = flitCrc f → f.type = .data → f.seq = c.rxSeq + 1 →
      becomes (exec (.flitReceive port peer f e) s) (fun t =>
        (now t).rxSeq = f.seq ∧ (now t).gap = none ∧ (now t).unacked = c.unacked.filter (fun g => seqAhead g.seq f.ack) ∧
        (getPort t k).delivered = (getPort s k).delivered ++ f.slots.map (arrive s k m) ∧
        (e.bad = [] → (getPort t k).counters = (getPort s k).counters) ∧ (e.bad ≠ [] → count t portFecCorr))) ∧
    (∀ f e, open_ → correctable e = true → e.crc = flitCrc f → f.type = .data → f.seq ≠ c.rxSeq + 1 →
      becomes (exec (.flitReceive port peer f e) s) (fun t =>
        (now t).rxSeq = c.rxSeq ∧ (getPort t k).delivered = (getPort s k).delivered ∧
        (seqAhead f.seq c.rxSeq = true → c.gap = none → (now t).askRetry = true ∧ (now t).gap = some f.seq) ∧
        (seqAhead f.seq c.rxSeq = false → (now t).askRetry = c.askRetry ∧ (now t).gap = c.gap))) ∧
    (∀ ack, open_ → (∀ n, c.retryAck ≠ some (ack, n + 7)) →
      becomes (exec (.retryRequestReceive port peer ack) s) (fun t => count t portRetry ∧ (now t).state = .up ∧
        (now t).unacked = c.unacked.filter (fun f => seqAhead f.seq ack) ∧ (now t).resend = (now t).unacked)) ∧
    (∀ ack, open_ → c.retryAck = some (ack, 7) → becomes (exec (.retryRequestReceive port peer ack) s) (fun t =>
      (now t).state = .retraining ∧ (now t).resend = c.unacked.filter (fun f => seqAhead f.seq ack))) ∧
    (c.state = .up → becomes (exec (.lockLossTimeout port peer) s) training) ∧
    (c.state = .retraining → c.sweepHeld = false →
      (mayTrain s k m = true → ∀ seen,
        (∀ x, seenOn (rxLine (ownIndex s) m) seen = some x → x.port = k → x.sender = m →
          becomes (exec (.retrainComplete port peer seen) s) (fun t => (now t).state = .up ∧ (now t).retrainFails = 0 ∧
            (now t).txSeq = c.txSeq ∧ (now t).rxSeq = c.rxSeq ∧ (now t).resend = c.unacked ∧ (now t).unacked = c.unacked)) ∧
        (∀ x, seenOn (rxLine (ownIndex s) m) seen = some x → x.port ≠ k ∨ x.sender ≠ m →
          becomes (exec (.retrainComplete port peer seen) s) failed) ∧
        (seenOn (rxLine (ownIndex s) m) seen = none →
          (c.retrainFails < 2 → becomes (exec (.retrainComplete port peer seen) s) (fun t => training t ∧
            (now t).retrainFails = c.retrainFails + 1)) ∧
          (2 ≤ c.retrainFails → becomes (exec (.retrainComplete port peer seen) s) failed))) ∧
      (c.retrainAt + us 200 < s.pll → becomes (exec (.retrainTimeout port peer) s) failed) ∧
      (s.pll ≤ c.retrainAt + us 200 → exec (.retrainTimeout port peer) s = .next s)) ∧
    (c.sweepHeld = true → exec (.retrainTimeout port peer) s = .next s ∧
      ∀ seen, exec (.retrainComplete port peer seen) s = .next s) ∧
    ((takeRx s { port := port, sender := m, frame := quiesceFrame }).isSome = true → m ≠ ownIndex s → c.state ≠ .failed →
      becomes (exec (.quiesceNoticeReceive port peer) s) (fun t => (now t).state = .quiesced ∧ (now t).txSeq = c.txSeq ∧
        (now t).rxSeq = c.rxSeq))

/-- Tracking steps, bring-up with its wiring check, the laser input, PORT_RETRAIN and PORT_FABRIC act on ports as
chapters 14 and 22 say (derived from 14_optical_fabric.md, 21_register_map.md, 22_electrical_mechanical.md). What log
entries 7, 8, 67 say is the model's choice. -/
def Obligations.PortsCalibrateAndLight : Prop :=
  ∀ (port : Fin 8) (s : State),
    let k := port.val
    let p := getPort s k
    let others := fun (t : State) => (∀ j, j ≠ k → getPort t j = getPort s j) ∧ t.cores = s.cores ∧ t.lpddr = s.lpddr
    (p.lit = true → p.calAt + us (bits s.calCtrl 0 7) ≤ s.pll → ∃ t, exec (.calTrackingStep port) s = .next t ∧ others t ∧
      (getPort t k).calNext = (p.calNext + 1) % 64 ∧ (getPort t k).calAt = s.pll ∧
      (∀ m, m ≠ p.calNext → getChan t k m = getChan s k m) ∧
      (let c := getChan s k p.calNext
       let d := getChan t k p.calNext
       (skipsTracking c = true → (getPort t k).counters = p.counters ∧ d = c) ∧
       (skipsTracking c = false → (getPort t k).counters = bumpTbl p.counters portCalSteps 1 ∧
         d = { c with holdTill := d.holdTill } ∧ flitBoundary s c ≤ d.holdTill ∧ d.holdTill ≤ flitBoundary s c + nsUp 200))) ∧
    (p.lit = false → exec (.calTrackingStep port) s = .next s) ∧
    (∀ seen, mayLight s p = false → exec (.portBringUp port seen) s = .next s) ∧
    (∀ seen, mayLight s p = true → p.lit = false → sweepsHeld s = true → s.power.s5Ending = none →
      ∃ t, exec (.portBringUp port seen) s = .next t ∧ others t ∧ getPort t k = { p with sweepHeld := true }) ∧
    (∀ seen, mayLight s p = true → (sweepsHeld s = false ∨ s.power.s5Ending.isSome = true) → p.lit = false → fabricN s ≤ 64 →
      ∃ t, exec (.portBringUp port seen) s = .next t ∧ others t ∧ (getPort t k).lit = true ∧
        ∀ m, m < fabricN s →
          let c := getChan s k m
          let d := getChan t k m
          let right := trained (ownIndex s) k m seen = true
          let fresh := d.txSeq = 0 ∧ d.rxSeq = 0xFFFFFFFF ∧ d.unacked = []
          (right ↔ ∃ x, seenOn (rxLine (ownIndex s) m) seen = some x ∧ x.port = k ∧ x.sender = m) ∧
          (c.state ≠ .failed → ∃ f, d.sent = some f ∧ f.type = .training ∧ f.port = k ∧ f.sender = ownIndex s) ∧
          (c.state = .quiesced → d.txSeq = c.txSeq ∧ d.rxSeq = c.rxSeq ∧ d.unacked = c.unacked ∧
            (right → d.state = .up ∧ d.resend = c.unacked) ∧ (¬ right → d.state = .quiesced)) ∧
          (c.state = .failed → d.state = .failed ∧ fresh) ∧
          (c.state ≠ .quiesced → c.state ≠ .failed → fresh ∧ (right → d.state = .up) ∧
            (¬ right → d.state = .failed ∧ bit (getPort t k).failed m = true))) ∧
    (∀ seen, mayLight s p = true → p.lit = true → fabricN s ≤ 64 → ∃ t, exec (.portBringUp port seen) s = .next t ∧ others t ∧
      ∀ m, (m < fabricN s → (getChan s k m).state = .quiesced → trained (ownIndex s) k m seen = true →
          (getChan t k m).state = .up ∧ (getChan t k m).txSeq = (getChan s k m).txSeq ∧
          (getChan t k m).resend = (getChan s k m).unacked) ∧
        ((getChan s k m).state ≠ .quiesced ∨ trained (ownIndex s) k m seen = false → getChan t k m = getChan s k m)) ∧
    (∀ powers : List Nat,
      let good := powers.length = 64 ∧ (∀ x ∈ powers, 10 ^ 33 ≤ x ^ 5 ∧ x ^ 5 ≤ 10 ^ 36) ∧ powers.sum ≤ 10 ^ 9
      (good → ∃ t, exec (.laserInputChange port powers) s = .next t ∧ others t ∧ getPort t k = { p with laserOk := true }) ∧
      (¬ good → ∃ t, exec (.laserInputChange port powers) s = .next t ∧ others t ∧ (getPort t k).laserOk = false ∧
        (getPort t k).lit = false ∧ (getPort t k).retrain = 0 ∧ ∀ m, getChan t k m =
          (if (getChan s k m).state = .quiesced ∨ (getChan s k m).state = .failed then getChan s k m
          else { getChan s k m with state := .down, sweepHeld := false }))) ∧
    (∀ value : Dword, ∃ t, exec (.portRetrainWrite port value) s = .next t ∧ others t ∧ ∀ m, m < 64 →
      (bit value m = true → (getChan s k m).state = .failed → (getChan t k m).state = .retraining ∧
        bit (getPort t k).failed m = false ∧ bit (getPort t k).retrain m = true ∧
        (getChan t k m).txSeq = (getChan s k m).txSeq ∧ (getChan t k m).rxSeq = (getChan s k m).rxSeq) ∧
      (bit value m = false ∨ (getChan s k m).state ≠ .failed → getChan t k m = getChan s k m)) ∧
    (∀ value : Word, s.parts.all (fun x => x.ctx == .empty) = true → ∃ t, exec (.portFabricWrite value) s = .next t ∧
      fabricN t = clampN (bits value 0 7) ∧ ownIndex t = min (bits value 8 6) (fabricN t - 1) ∧
      (fabricN t = 1 ∨ (fabricN t % 8 = 0 ∧ 8 ≤ fabricN t ∧ fabricN t ≤ 64)) ∧
      (fabricN t = 1 → ∀ j, j < 8 → (getPort t j).lit = false) ∧
      (1 < fabricN t → ∀ j, j < 8 → (getPort t j).lit = (getPort s j).lit ∧
        (∀ m, m < fabricN t → getChan t j m = getChan s j m) ∧
        (∀ m, fabricN t ≤ m → (getChan s j m).state ≠ .failed → (getChan s j m).state ≠ .quiesced → getChan t j m = {})) ∧
      t.cores = s.cores ∧ t.parts = s.parts) ∧
    (∀ value : Word, s.parts.all (fun x => x.ctx == .empty) = false → exec (.portFabricWrite value) s = .next s)

/-- A result lands on its cycle and not before: register, descriptor, store, tun, tables, hash, commit, selvedge
outcome; a pass overruns and ends (derived from 02_execution_model.md, 07_beam_engine_accumulation.md,
10_heddle_engine.md, 11_mask_lifecycle.md, 12_training_step.md, 17_selvedge_units.md). What log entries 8, 69, 74
say is the model's choice. -/
def Obligations.ResultsLand : Prop :=
  ∀ (core : Fin 192) (s : State),
    let n := core.val
    let c := getCore s n
    let now := fun (t : State) => getCore t n
    let others := fun (t : State) => ∀ m, m ≠ n → m ≠ runner s n → getCore t m = getCore s m
    (∃ t, exec (.resultVisible core) s = .next t ∧
      ∀ f ∈ (now t).flight, isTun f = false → c.cycle < f.due ∨ chainHeld c f = true) ∧
    (∀ f, c.flight = [f] → f.due ≤ c.cycle → f.verdict = none → isTun f = false → chainHeld c f = false → ∃ t,
      exec (.resultVisible core) s = .next t ∧ (now t).flight = [] ∧ (now t).tun = c.tun) ∧
    (∀ f, c.flight = [f] → f.due ≤ c.cycle → f.access = none → f.verdict = none → ∃ t,
      exec (.resultVisible core) s = .next t ∧
      (∀ sp v, f.effect = .reg sp v → others t ∧ getRegs t n = regWrite (getRegs s n) sp.toNat v.toNat ∧
        (now t).store = c.store ∧ (now t).desc = c.desc) ∧
      (∀ k d, f.effect = .desc k d → others t ∧ tget none (now t).desc k = some d ∧ (now t).store = c.store ∧
        ∀ j, j ≠ k → tget none (now t).desc j = tget none c.desc j) ∧
      (∀ e chk, f.effect = .store e chk → others t ∧ (now t).store = pokeAll c.store e ∧ (now t).desc = c.desc) ∧
      (∀ k b, f.effect = .paramSlot k b → tget none (now t).params k = some b ∧ (now t).store = c.store) ∧
      (∀ tb lo inv, f.effect = .sfuConfig tb lo inv →
        tget 0 (now t).sfuConfig tb = (lo.zeroExtend 64 ||| (inv.zeroExtend 64 <<< 32))) ∧
      (∀ tb j x, f.effect = .sfuEntries tb j [x] → tget 0 (now t).sfuEntry (1024 * tb + j) = x) ∧
      (∀ fn imm, f.effect = .selvCfg fn imm → (now t).selv = selvWrite c.selv fn imm) ∧
      (∀ bs, f.effect = .jnlFold bs →
        (now t).jnlHash = BitVec.ofNat 64 (crcRun 64 0x42F0E1EBA9EA3693 false c.jnlHash.toNat bs)) ∧
      (∀ e p, f.effect = .commit e → corePart s n = some p → (now t).store = pokeAll c.store e ∧
        ∀ q ∈ partQuads p, bit (getQuad t q).maskGen 32 = true ∧
          bits (getQuad t q).maskGen 0 32 = bits (getQuad s q).maskGen 0 32)) ∧
    (∀ x, c.flight = [] → ∃ t, exec (.resultVisible core) s = .next t ∧
      (c.beam.later = [x] → x.due ≤ c.cycle → (now t).beam.base = x.set ∧ (now t).beam.later = []) ∧
      (∀ y, c.beam.marks = [y] → y.due ≤ c.cycle → (now t).beam.marks = [] ∧
        (now t).beam.stLong = (c.beam.stLong || y.long) ∧ (now t).beam.stNonfin = (c.beam.stNonfin || y.nonfin) ∧
        (now t).beam.stMismatch = (c.beam.stMismatch || y.mismatch)) ∧
      (c.heddle.later = [x] → c.cycle < x.due → (now t).heddle.base = c.heddle.base ∧ (now t).heddle.later = [x])) ∧
    (∀ f, c.flight = [f] → f.due ≤ c.cycle → f.access = none → f.verdict = none → ∃ t,
      exec (.tunDrainLand core) s = .next t ∧
      (∀ e chk back, f.effect = .tunStore e chk back → (now t).flight = [] ∧ (now t).tun = pokeAll c.tun e ∧
        (now t).store = pokeAll c.store back) ∧
      (∀ a ov chk back bm, f.effect = .accum true a ov chk back bm → (now t).flight = [] ∧
        (now t).tun = (accumInto c.tun a ov).1 ∧ (now t).store = pokeAll c.store back)) ∧
    (∀ f l, c.flight.filter isTun = f :: l → c.cycle < f.due → ∃ t, exec (.tunDrainLand core) s = .next t ∧
      (now t).tun = c.tun ∧ (now t).store = c.store ∧ (now t).flight.filter isTun = f :: l) ∧
    (∀ f pc r ev e chk ty, c.flight = [f] → f.due ≤ c.cycle → f.access = none → f.verdict = none →
      f.effect = .selv pc r ev e chk ty → ∃ t, exec (.selvRunComplete core) s = .next t ∧ (now t).selv.result = r ∧
        (now t).selv.lastMismatch = !ev.isEmpty ∧ (now t).store = pokeAll c.store e ∧
        tget 0 (now t).counters ctrSelvMismatch = tget 0 c.counters ctrSelvMismatch + BitVec.ofNat 64 ev.length) ∧
    (∀ p, c.pass = some p →
      (p.overrunning = false → p.budget < p.work → p.issued + p.budget ≤ c.cycle → ∃ t,
        exec (.heddleOverrun core) s = .next t ∧ others t ∧ (now t).pass = some { p with overrunning := true } ∧
        (now t).sched = false ∧ (now t).heddle.stOverrun = true ∧ (now t).store = c.store) ∧
      (p.work ≤ p.budget → exec (.heddleOverrun core) s = .next s) ∧
      ((p.work ≤ p.budget ∧ p.issued + p.work ≤ c.cycle) ∨ (p.budget < p.work ∧ p.work - p.budget ≤ p.overran) → ∃ t,
        exec (.heddleWorkComplete core) s = .next t ∧ others t ∧ (now t).pass = none ∧ (now t).store = c.store ∧
        (p.failed = false → (now t).lastW = BitVec.ofNat 32 (min p.work 0xFFFFFFFF))))

/-- A verdict clears or fails what depends on it; a piece's verdict frame follows it; a journal entry is written
when every core has joined (derived from 16_integrity_and_faults.md, 13_gradient_exchange.md, 12_training_step.md).
What log entries 8, 62, 65 say is the model's choice. -/
def Obligations.VerdictsAndJournal : Prop :=
  (∀ (core : Fin 192) (id : Nat) (rep : RepeatEnd) (s0 : State) (v : Verdict),
      let n := core.val
      let s := landAll s0 n
      let c := getCore s n
      c.verdicts.find? (fun v => v.id == id && v.landed.isSome) = some v →
      (headOfChecker s n v = false → exec (.plausibilityVerdict core id rep) s0 = .next s) ∧
      (headOfChecker s n v = true → twf ({} : Core) s.cores = true → (∀ m, twf Chk.clear (getCore s m).storeChk = true) →
      (v.fails = none → ∃ t, exec (.plausibilityVerdict core id rep) s0 = .next t ∧
        (∀ x ∈ (getCore t n).verdicts, x.id ≠ id) ∧ t.hbm = s.hbm ∧ t.lpddr = s.lpddr ∧
        ∀ m u, (getCore t m).store = (getCore s m).store ∧
          (tget Chk.clear (getCore s m).storeChk u = .prov [id] → tget Chk.clear (getCore t m).storeChk u = .clear)) ∧
      (∀ mn, v.fails = some mn → ∃ t, exec (.plausibilityVerdict core id rep) s0 = .next t ∧
        tget 0 (getCore t n).counters ctrPlaus = tget 0 c.counters ctrPlaus + 1 ∧
        tget 0 (getCore t n).counters ctrRepeat = tget 0 c.counters ctrRepeat + (if rep = .first then 1 else 2) ∧
        tget 0 (getCore t n).counters ctrVerdictFail = tget 0 c.counters ctrVerdictFail + 1 ∧
        (rep = .neither → ∀ m u l, tget Chk.clear (getCore s m).storeChk u = .prov l → id ∈ l →
          tget Chk.clear (getCore t m).storeChk u = .failed)))) ∧
    (∀ (core : Fin 192) (id : Nat) (s : State) (p : Part) (v : PieceVerdict) (port : Fin 8), corePart s core.val = some p →
      (getCore s core.val).pieces.find? (fun v => v.id == id) = some v → v.deps = [] →
      (∀ x ∈ (shOf (getCore s core.val) v.sh).accesses, x.id = id → x.held = false) →
      caskPort p (faCask v.head.addr) = port.val → pieceGone s port.val v = true →
      ∃ t d, exec (.verdictFrameSend core id) s = .next t ∧ (∀ x ∈ (getCore t core.val).pieces, x.id ≠ id) ∧
        frameOut s t port v.dest d ∧ d.kind = fkVerdict ∧ d.addr = v.head.addr ∧ d.tag = v.head.tag ∧
        d.inline = .verdict v.offset v.count (!v.failed)) ∧
    (∀ (q : Fin 8) (s0 : State) (p : Part), partOf s0 q.val = some p →
      let s := p.map.foldl landAll s0
      let ready := p.map ≠ [] ∧ ∀ n ∈ p.map, jnlReady (getCore s n) = true
      let addr := entryAddr s p
      (p.reset = none → ready → partAt s p.low = some p → (∀ n ∈ p.map, (getCore s n).starveTotal = []) →
        heldLines s .lpddr [addr / 64, addr / 64 + 1] = [] → ∃ t, exec (.journalEntryComplete q) s0 = .next t ∧
          t.lpddr = pokeAll s.lpddr (unitPokes addr (entryBytes s p ((getCore s (p.map.headD 0)).jnlPend.headD (0, [])).2)) ∧
          t.hbm = s.hbm ∧ (∀ r ∈ partQuads p, (getQuad t r).jnlIndex = (getQuad s r).jnlIndex + 1) ∧
          (∀ n ∈ p.map, (getCore t n).jnlHash = 0) ∧ (∀ n, (getCore t n).store = (getCore s n).store)) ∧
      ((∃ n ∈ p.map, jnlReady (getCore s n) = false) → exec (.journalEntryComplete q) s0 = .next s))

/-- Contexts stop, fault and clear; a hang is reported for the shuttle that stood longest; resets halt, escalate and
end EMPTY (derived from 02_execution_model.md, 18_hang_and_reset.md, 15_host_interface.md, 06_synchronization.md).
What log entries 8, 38, 40 say is the model's choice. -/
def Obligations.ContextsHangsResets : Prop :=
  (∀ (l : List (Nat × Shuttle × Nat)) (x : Nat × Shuttle × Nat), longest l = some x → x ∈ l ∧ ∀ y ∈ l, x.2.2 ≤ y.2.2) ∧
    (∀ (q : Fin 8) (s : State) (p : Part), partOf s q.val = some p → partAt s p.low = some p →
      let gives := fun (o : Host.Outcome State Fault Refusal) (g : State → Part → Prop) =>
        ∃ t p', o = .next t ∧ partAt t p.low = some p' ∧ g t p'
      let stopBusy := fun (t : State) (st : Nat) => ∀ b, (getRing s p.low).busy = some b → b.opc = cStop →
        completes s t p.low b.tag st 0
      let halted := fun (t : State) => ∀ n ∈ partCores p, (getCore t n).flight = [] ∧ (getCore t n).verdicts = [] ∧
        ∀ sh, (shOf (getCore t n) sh).mode = .halted ∨ (shOf (getCore t n) sh).mode = .off ∨
          (shOf (getCore t n) sh).mode = .ended
      (p.ctx = .running → p.reset = none → p.faultFirst = none →
        (p.stopping = true ∧ allSh s p shHeld = true) ∨ allSh s p shEnded = true →
        gives (exec (.contextStopped q) s) (fun t p' => p'.ctx = .stopped ∧ p'.stopping = false ∧ t.cores = s.cores ∧
          t.hbm = s.hbm ∧ t.lpddr = s.lpddr ∧ (∀ r ∈ partQuads p, bit (getQuad t r).ctxMode 1 = false) ∧ stopBusy t 0)) ∧
      (p.ctx = .running ∨ p.ctx = .stopped → p.reset = none → p.faultFirst.isSome = true → allSh s p (shHalted s.cc) = true →
        gives (exec (.contextFaulted q) s) (fun t p' => p'.ctx = .faulted ∧ stopBusy t 0x28 ∧
          ∀ n ∈ p.map, (getCore t n).store = (getCore s n).store ∧ ∀ sh, (shOf (getCore t n) sh).mode = .halted ∨
            (shOf (getCore t n) sh).mode = .ended)) ∧
      (p.ctx ≠ .running → exec (.contextStopped q) s = .next s) ∧
      (p.ctx ≠ .running → p.ctx ≠ .stopped → exec (.contextFaulted q) s = .next s) ∧
      (p.clearing.isSome = true → gives (exec (.contextClearComplete q) s) (fun t p' => p'.clearing = none ∧
        p'.ctx = p.ctx ∧ t.cores = s.cores ∧ ∀ r ∈ partQuads p, ∀ b, (getRing s r).busy = some b → b.opc = cUnload →
          (∀ j ∈ partQuads p, j ≠ r → (getRing s j).busy = none) → completes s t r b.tag 0 0)) ∧
      (∀ n sh at_, longest (standing s p) = some (n, sh, at_) →
        (watched s p = true → at_ + hangWindow s p ≤ s.pll → gives (exec (.hangDetect q) s) (fun t p' =>
          p'.ctx = .running ∧ p'.hangShuttle = some (n, sh, s.pll) ∧ t.cores = s.cores ∧
          ∀ r ∈ partQuads p, bit (getQuad t r).hangCtrl 24 = true)) ∧
        (watched s p = false ∨ s.pll < at_ + hangWindow s p → exec (.hangDetect q) s = .next s)) ∧
      (∀ n sh at_, p.hangShuttle = some (n, sh, at_) → bits (getQuad s p.low).hangCtrl 16 2 ≠ 0 → p.ctx = .running →
        p.reset = none → (shOf (getCore s n) sh).progressAt ≤ at_ → at_ + hangWindow s p ≤ s.pll → p.s4Hold = none →
        gives (exec (.hangAutoReset q) s) (fun t p' => halted t ∧ t.lpddr = s.lpddr ∧ t.hbm = s.hbm ∧
          ∃ x, p'.reset = some x ∧ x.level = bits (getQuad s p.low).hangCtrl 16 2 ∧ x.first = x.level ∧ x.source = 1 ∧
            x.began = s.pll)) ∧
      (∀ x, p.reset = some x →
        (s.pll ≤ x.levelBegan + levelLimit x.level ∨ x.overrun = true → exec (.resetLevelTimeout q) s = .next s) ∧
        (x.levelBegan + levelLimit x.level < s.pll → x.overrun = false → x.level < 3 →
          let deeper := fun (t : State) (p' : Part) => t.hbm = s.hbm ∧ t.lpddr = s.lpddr ∧
            p'.reset = some { x with level := x.level + 1, source := 2, levelBegan := s.pll, escalated := true }
          gives (exec (.resetLevelTimeout q) s) deeper ∧ gives (exec (.resetSequenceComplete q) s) deeper) ∧
        (x.levelBegan + levelLimit x.level < s.pll → x.overrun = false → x.level = 4 → ∃ t,
          exec (.resetLevelTimeout q) s = .next t ∧ t.power.l5Request = true ∧ t.boot.service = 3 ∧ t.cores = s.cores ∧
          (∀ p' ∈ t.parts, ∀ y, p'.reset = some y → y.overrun = true)) ∧
        (x.level < 4 → (s.pll ≤ x.levelBegan + levelLimit x.level ∨ x.overrun = true) → localDone s p = true →
          gives (exec (.resetSequenceComplete q) s) (fun t p' =>
          p'.ctx = .empty ∧ p'.reset = none ∧ p'.afterReset = true ∧ t.lpddr = s.lpddr ∧
          (∀ n ∈ partCores p, getCore t n = clearCore (getCore s n)) ∧
          (∀ n, n ∉ partCores p → getCore t n = getCore s n) ∧
          (∀ r ∈ partQuads p, bit (getQuad t r).hangCtrl 24 = false ∧ (getQuad t r).maskGen = 0 ∧
            (getQuad t r).ctxMode = 0) ∧
          (∀ k ∈ partCasks p, ∀ y ∈ (getCask t k).buckets, y.low ≠ p.low) ∧
          tget 0 t.resets.counts x.level = tget 0 s.resets.counts x.level + 1 ∧ t.resets.last = x.level))))

/-- LOAD, START, STOP, UNLOAD, CHECKPOINT, RESTORE, REPLAY, PARTITION and RESET do what R527 gives and complete as
it gives (derived from 15_host_interface.md, 02_execution_model.md, 12_training_step.md, 18_hang_and_reset.md). What
log entries 12, 13, 16, 32, 34, 35, 54 say is the model's choice. -/
def Obligations.RingCommandsRun : Prop :=
  ∀ (r : Fin 8) (e : CmdEntry) (s : State) (p : Part),
    let k := r.val
    let gives := fun (o : Host.Outcome State Fault Refusal) (g : State → Part → Prop) =>
      ∃ t p', o = .next t ∧ partAt t k = some p' ∧ g t p'
    let ends := fun (t : State) (st detail : Nat) => completes s t k e.tag st detail
    let goesOn := fun (t : State) (opc : Nat) => (getRing t k).busy = some { opc := opc, tag := e.tag }
    let refused := fun (o : Host.Outcome State Fault Refusal) => ∃ t, o = .next t ∧ t.parts = s.parts ∧
      t.cores = s.cores ∧ ends t 0x20 0
    let index := fun (t : State) => bits (getQuad t k).jnlIndex 0 64
    (∀ input x, ringRuns cLoad r e s p → p.clearing = none → loadLines s e input = [] → loadFields e = false →
      input.binary = some x → input.bad = false → p.ctx = .empty → p.reset = none →
      let cs := applyFixups s p.low (if e.arg = 0 then [] else input.params) x.cores x.fixups
      let len := up4k (codeSize x.cores)
      regionBad s p (input.alloc.take (e.len1.toNat / 16)) e.addr2.toNat len = false →
      (loadRefusal s p x cs = none → gives (exec (.load r e input) s) (fun t p' => p'.ctx = .loaded ∧
        p'.profile = x.profile ∧ (∃ pairs, mapPart s (partQuads p) x.kq = some (p'.map, pairs)) ∧
        p'.alloc = input.alloc.take (e.len1.toNat / 16) ∧ (∀ q ∈ partQuads p, (getQuad t q).jnlIndex = 0) ∧
        onlyTier s t .hbm (pokeAll s.hbm (unitPokes e.addr2.toNat (codeBytes cs))) ∧
        (∀ (i n : Nat) (c : CoreImage), p'.map[i]? = some n → cs[i]? = some c →
          (getCore t n).imgF = c.f ∧ (getCore t n).imgB = c.b ∧ (getCore t n).imgU = c.u ∧ (getCore t n).plans = c.plans) ∧
        ends t 0 (codeSize x.cores))) ∧
      (∀ code, loadRefusal s p x cs = some code → gives (exec (.load r e input) s) (fun t p' => p'.ctx = .empty ∧
        t.cores = s.cores ∧ ends t code (codeSize x.cores)))) ∧
    (ringRuns cStart r e s p → p.reset = none →
      (p.ctx = .loaded ∨ p.ctx = .stopped → gives (exec (.start r e) s) (fun t p' => p'.ctx = .running ∧
        (p.ctx = .loaded → p'.faultFirst = none) ∧ (p.ctx = .stopped → p'.faultFirst = p.faultFirst) ∧
        p'.horizon = [] ∧ p'.map = p.map ∧ ends t 0 0 ∧ t.hbm = s.hbm ∧ t.lpddr = s.lpddr ∧
        (p.ctx = .loaded → ∀ n ∈ p.map, (getCore t n).phase = 0 ∧ (getCore t n).plan = 0) ∧
        (∀ n, n ∉ p.map → getCore t n = getCore s n))) ∧
      (p.ctx ≠ .loaded → p.ctx ≠ .stopped → refused (exec (.start r e) s))) ∧
    (ringRuns cStop r e s p → p.reset = none →
      (p.ctx = .running → gives (exec (.stop r e) s) (fun t p' => p' = { p with stopping := true } ∧ goesOn t cStop ∧
        t.cores = s.cores)) ∧
      (p.ctx ≠ .running → refused (exec (.stop r e) s))) ∧
    (ringRuns cUnload r e s p → p.reset = none → p.ctx = .loaded ∨ p.ctx = .stopped →
      gives (exec (.unload r e) s) (fun t p' => p'.ctx = .empty ∧ p'.clearing = some s.pll ∧ goesOn t cUnload ∧
        (∀ n ∈ partCores p, getCore t n = clearCore (getCore s n)) ∧ t.hbm = s.hbm ∧ t.lpddr = s.lpddr)) ∧
    (∀ manifest, ringRuns cCheckpoint r e s p → p.reset = none → p.ctx = .stopped → ckAddrBad e = false →
      heldLines s (ckTier e.addr0) (rangeUnits (ckOff e.addr0) (ckLength manifest)) = [] →
      inTier s (ckTier e.addr0) (ckOff e.addr0) e.len0.toNat = true →
      (∀ x ∈ manifest, inTier s x.tier x.offset x.length = true ∧
        ∀ u ∈ rangeUnits x.offset x.length, isPoisoned s x.tier u = false) →
      ckLength manifest ≤ e.len0.toNat → gives (exec (.checkpoint r e manifest) s) (fun t p' => p' = p ∧
        t.cores = s.cores ∧ ends t 0 (ckLength manifest) ∧ onlyTier s t (ckTier e.addr0)
          (pokeAll (tierMem s (ckTier e.addr0)) (bytePokes (ckOff e.addr0) (ckImage s p manifest))))) ∧
    (∀ targets, p.reset = none → p.ctx = .loaded ∨ p.ctx = .stopped → ckAddrBad e = false → 1 ≤ p.size →
      restoreLines s e targets = [] → restoreBad s p e targets = none →
      (ringRuns cRestore r e s p → gives (exec (.restore r e targets) s) (fun t p' => p'.ctx = p.ctx ∧ ends t 0 0 ∧
        index t = imgNum (readImage s e) 48 8 % 2 ^ 64 ∧ p'.jnlFresh = true ∧ t.cores = s.cores)) ∧
      (ringRuns cReplay r e s p → 1 ≤ e.arg.toNat → e.arg.toNat ≤ 4096 →
        gives (exec (.replay r e targets) s) (fun t p' => p'.ctx = .running ∧ ends t 0 0 ∧
          index t = imgNum (readImage s e) 48 8 % 2 ^ 64 ∧ p'.replayLeft = e.arg.toNat ∧ p'.cursors = [] ∧
          bit (getQuad t k).ctxMode 1 = true))) ∧
    (ringRuns cPartition r e s p → allEmpty s = true → r = 0 → e.arg.toNat < 2 ^ 8 →
      (layoutOk e.arg.toNat = true → ∃ t, exec (.partition r e) s = .next t ∧ ends t 0 0 ∧
        t.parts.map (fun x => (x.low, x.size)) = layoutParts (layoutStarts e.arg.toNat) ∧
        (∀ x ∈ t.parts, x.ctx = .empty) ∧ t.cores = s.cores) ∧
      (layoutOk e.arg.toNat = false → ∃ t, exec (.partition r e) s = .next t ∧ t.parts = s.parts ∧ ends t 0x25 0)) ∧
    (ringRuns cReset r e s p → p.reset = none → 1 ≤ e.arg.toNat → e.arg.toNat < 4 →
      gives (exec (.reset r e) s) (fun t p' => goesOn t cReset ∧ t.hbm = s.hbm ∧ t.lpddr = s.lpddr ∧
        ∃ x, p'.reset = some x ∧ x.level = e.arg.toNat ∧ x.source = 0 ∧ x.began = s.pll))

/-- A section seals to the rounded cell values, deadlines withhold the unresolved, a landed check judges its units,
a last partial makes the norm final (derived from 13_gradient_exchange.md, 17_selvedge_units.md,
08_training_numerics.md). What log entries 8, 28, 59 say is the model's choice. -/
def Obligations.SectionsDeadlinesNorms : Prop :=
  (∀ (cask q : Fin 8) (b : Half) (s : State) (p : Part) (r : BucketRec) (x : CaskBucket),
      let l : CaskLoc := { k := cask.val, low := q.val, b := b }
      bucketAt s l = some x → partAt s q.val = some p → bucketRec p b = some r → r.elems ≤ 2 ^ 28 →
      let becomes := fun (o : Host.Outcome State Fault Refusal) (g : State → CaskBucket → Prop) =>
        ∃ t z, o = .next t ∧ bucketAt t l = some z ∧ g t z ∧ onlyBucket s t l ∧ t.cores = s.cores ∧ t.lpddr = s.lpddr
      let count := fun (t : State) (o : Nat) => tget 0 (getCask t cask.val).counters o
      let counted := fun (t : State) (z : CaskBucket) =>
        count t caskBackup + x.backedUp.length = count s caskBackup + z.backedUp.length
      (∀ a, p.reset = none → x.anchor = some a → canSeal x r = true → twf 0 x.cells = true →
        becomes (exec (.sectionSeal cask q b) s) (fun t z => z.sealedCount = x.sealedCount + 1 ∧ t.hbm = s.hbm ∧
          z.headers = x.headers ∧ z.withheld = x.withheld ∧ z.units = x.units ∧ z.anchor = x.anchor ∧
          (∀ e, e / 65536 = x.sealedCount → tget 0 z.cells e = 0 ∧ (tget 0 x.cells e ≠ 0 →
            tget 0 z.results e = rne32 (.num (tget 0 x.cells e) (a - 117)))) ∧
          (∀ e, e / 65536 ≠ x.sealedCount → tget 0 z.cells e = tget 0 x.cells e ∧
            tget 0 z.results e = tget 0 x.results e) ∧
          z.norm = (x.cells.filter (fun y => y.1 / 65536 == x.sealedCount)).foldl (fun n (y : Nat × Int) =>
            laneAdd n (mulE (val32 (rne32 (.num y.2 (a - 117)))) (val32 (rne32 (.num y.2 (a - 117)))))) x.norm ∧
          count t caskBackup = count s caskBackup)) ∧
      (p.reset.isSome = true ∨ x.anchor = none ∨ canSeal x r = false → exec (.sectionSeal cask q b) s = .next s) ∧
      (∀ d, bucketDeadline x r = some d →
        (s.pll < d ∨ x.bucketElapsed = true → exec (.bucketDeadline cask q b) s = .next s) ∧
        (d ≤ s.pll → x.bucketElapsed = false →
          let late := (contributors r).filter (fun m => !x.headers.contains m && !x.withheld.contains m)
          becomes (exec (.bucketDeadline cask q b) s) (fun t z => z.bucketElapsed = true ∧ z.headers = x.headers ∧
            (∀ m, m ∈ z.withheld ↔ m ∈ x.withheld ∨ m ∈ late) ∧
            count t caskWithheld = count s caskWithheld + late.length ∧
            (x.anchor = none → z.anchor = some (max (-16) x.largest) ∧ z.anchorAt = s.pll) ∧
            (∀ a, x.anchor = some a → z.anchor = some a)))) ∧
      (bucketDeadline x r = none → exec (.bucketDeadline cask q b) s = .next s ∧
        exec (.sectionDeadline cask q b) s = .next s) ∧
      (let due := fun (i : Nat) => (i = x.sealedCount ∨ i = x.sealedCount + 1) ∧ i < sectionCount r ∧ i ∉ x.elapsed ∧
         ∃ d, sectionDeadline x r i = some d ∧ d ≤ s.pll
       let stuck := fun (i m : Nat) => m ∈ contributors r ∧
         unitsResolved { x with elapsed := x.elapsed ++ [i] } r i m = false
       becomes (exec (.sectionDeadline cask q b) s) (fun t z => z.headers = x.headers ∧ z.anchor = x.anchor ∧
         counted t z ∧
         (∀ i, i ∈ z.elapsed ↔ i ∈ x.elapsed ∨ due i) ∧
         (∀ m, m ∈ z.withheld ↔ m ∈ x.withheld ∨ ∃ i, due i ∧ stuck i m))) ∧
      (∀ id v a, (getCask s cask.val).buckets.findSome? (fun x =>
          (x.verdicts.find? (fun v => v.id == id && v.selv && !v.landed)).map (fun v => (x, v))) = some (x, v) →
        x.anchor = some a → becomes (exec (.caskSelvVerdict cask id) s) (fun t z =>
          count t caskSelvFail = count s caskSelvFail + (if v.pass = true then 0 else 1) ∧ counted t z ∧
          (∀ m, m ∈ z.backedUp ↔ m ∈ x.backedUp ∨ m ∈ contributors r ∧ throughBackup z r m = true) ∧
          ∀ u ∈ v.units,
            let y := unitOf x v.speaksFor u
            let w := unitOf z v.speaksFor u
            (u ∈ v.waiting → w = y ∧ ∃ k ∈ z.verdicts, k.id = id ∧ k.landed = true ∧ u ∈ k.units) ∧
            (u ∉ v.waiting → y.ledger = none ∨ y.backup ≠ v.backup → w = y) ∧
            (u ∉ v.waiting → y.ledger.isSome = true → y.backup = v.backup →
              (v.pass = true → w.awaitsSelv = false ∧ w.added = y.added ∧
                w.ledger = (if y.awaitsPiece = true then y.ledger else none)) ∧
              (v.pass = false → w.added = false ∧ w.ledger = none))))) ∧
    (∀ (rx : Rx) (s : State) (p : Part) (group : Half) (sum err : Word) (bad : Bool),
      (takeRx s rx).isSome = true → rx.frame.kind = fkNorm → partAt s (faLow rx.frame.addr) = some p →
      rx.frame.inline = .norm group sum err bad → rx.sender ≠ ownIndex s →
      let lacks := fun (g : NormGroup) => g.group == group && (tget none g.partials rx.sender).isNone
      let put := fun (g : NormGroup) =>
        { g with partials := tset none g.partials rx.sender (some (sum, err, bad)) }
      ∃ t q, exec (.normReceive rx) s = .next t ∧ partAt t p.low = some q ∧ t.cores = s.cores ∧ t.casks = s.casks ∧
        t.hbm = s.hbm ∧ t.lpddr = s.lpddr ∧
        (p.groups.findIdx? lacks = none → ∃ g ∈ q.groups, g.group = group ∧
          tget none g.partials rx.sender = some (sum, err, bad)) ∧
        (∀ i g, p.groups.findIdx? lacks = some i → p.groups[i]? = some g →
          ∃ h, q.groups[i]? = some h ∧ h.group = group ∧ tget none h.partials rx.sender = some (sum, err, bad) ∧
            (g.sent = true → g.final = none →
              let ms := (List.range 64).filter (fun m => bit g.contrib m)
              let ps := ms.map (fun m => tget none (put g).partials m)
              (ps.any (fun y => y.isNone) = true → h = put g) ∧
              (ps.any (fun y => y.isNone) = false →
                let vs := ps.map (fun y => y.getD (0, 0, false))
                h.nonfin = (vs.any (fun y => y.2.2) || g.members.any (bucketNonfin s p)) ∧
                h.final = some (if h.nonfin = true then nan32 else
                  sqrt32 .rne (laneVal (vs.foldl (fun n (y : Word × Word × Bool) => addPair n (y.1, y.2.1)) {})))))))

/-- Ring pointers, enables, vectors, segments, back-invalidation and the error ring change as their writes say, and
nothing else does (derived from 15_host_interface.md, 16_integrity_and_faults.md, 21_register_map.md,
05_memory_and_ordering.md). What log entries 4, 43, 52, 77 say is the model's choice. -/
def Obligations.HostRegistersAndRings : Prop :=
  (∀ (r : Fin 8) (v : Word) (s : State),
      let x := getRing s r.val
      let top := 2 ^ bits x.ctrl 0 4 - 1
      let gives := fun (o : Host.Outcome State Fault Refusal) (g : Ring → Prop) => ∃ t, o = .next t ∧
        g (getRing t r.val) ∧ t = { s with rings := t.rings } ∧ ∀ k : Fin 8, k ≠ r → getRing t k.val = getRing s k.val
      gives (exec (.cellarRingTailWrite r v) s) (fun y => y = { x with tail := BitVec.ofNat 12 (min (bits v 0 12) top) }) ∧
      gives (exec (.cellarCplHeadWrite r v) s) (fun y =>
        y = { x with cplHead := BitVec.ofNat 12 (min (bits v 0 12) top) }) ∧
      gives (exec (.cellarRingCtrlWrite r v) s) (fun y => bits y.ctrl 4 28 = bits v 4 2 ∧
        bits y.ctrl 0 4 = (if bit x.ctrl 4 = true then bits x.ctrl 0 4 else max 6 (min 12 (bits v 0 4))) ∧
        (bit x.ctrl 4 = false → bit v 4 = true →
          y = { x with ctrl := y.ctrl, tail := 0, head := 0, cplHead := 0, cplTail := 0, phase := true }) ∧
        (bit x.ctrl 4 = true ∨ bit v 4 = false → y = { x with ctrl := y.ctrl }))) ∧
    (∀ (v : Fin 64) (s : State), ∃ t, exec (.msixVectorUnmask v) s = .next t ∧ hostOnly s t ∧
      (∀ i, bit t.host.msixMask i = (bit s.host.msixMask i && i != v.val)) ∧
      (∀ i, bit t.host.msixPend i = (bit s.host.msixPend i && i != v.val)) ∧
      t.host.messages = s.host.messages ++ (if bit s.host.msixPend v.val = true then [v.val] else [])) ∧
    (∀ (v : Dword) (s : State), ∃ t, exec (.cellarErrTailWrite v) s = .next t ∧
      t = { s with errors := { s.errors with tail := t.errors.tail } } ∧
      t.errors.tail.toNat = max (s.errors.head.toNat - 65536) (min s.errors.head.toNat v.toNat)) ∧
    (∀ (i : Fin 16) (v : Word) (s : State), segHeld s i.val = false →
      let w := segClamp s v
      bits w 6 2 = bits v 6 2 ∧ bits w 0 6 = min (bits v 0 6) (tierBytes s (bits v 6 1) / segBytes - 1) ∧
      (w = segReg s i.val → exec (.cellarHdmSegWrite i v) s = .next s) ∧
      (w ≠ segReg s i.val → ∃ t, exec (.cellarHdmSegWrite i v) s = .next t ∧ hostOnly s t ∧
        (∀ j, j ≠ i.val → segReg t j = segReg s j) ∧ t.host.snoop = s.host.snoop ∧
        (segLines s i.val = [] → segReg t i.val = w ∧ segHeld t i.val = false) ∧
        (segLines s i.val ≠ [] → segReg t i.val = segReg s i.val ∧ (i.val, w) ∈ t.host.segWait ∧
          ∀ l ∈ segLines s i.val, l ∈ t.host.snooping))) ∧
    (∀ (line : Nat) (s : State),
      (line ∉ s.host.snooping → exec (.biSnoopResponse line) s = .next s) ∧
      (line ∈ s.host.snooping → ∃ t, exec (.biSnoopResponse line) s = .next t ∧ hostOnly s t ∧
        (∀ l, l ∈ t.host.snoop ↔ l ∈ s.host.snoop ∧ l ≠ line) ∧
        (∀ l, l ∈ t.host.snooping ↔
          (l ∈ s.host.snooping ∧ l ≠ line) ∨ ∃ x ∈ t.host.segWait, l ∈ segLines t x.1) ∧
        (∀ i v, s.host.segWait = [(i, v)] →
          ((∀ l ∈ segLines s i, l = line) → segReg t i = v ∧ t.host.segWait = []) ∧
          ((∃ l ∈ segLines s i, l ≠ line) → segReg t i = segReg s i ∧ t.host.segWait = s.host.segWait)))) ∧
    (∀ s : State,
      let at_ := ringAddr s
      let sum := fun (r : Record) => recordBytes r (crc32c ((recordBytes r 0).take 60))
      let copied := fun (r : Record) (l : List Record) => ∃ t, exec .errorRecordCopy s = .next t ∧ t.errors.store = l ∧
        t.errors.head = s.errors.head + 1 ∧ (sum r).length = 64 ∧ readBytes t.hbm at_ 64 = sum r ∧
        (∀ b : Nat, b < at_ ∨ at_ + 64 ≤ b → tget 0 t.hbm b = tget 0 s.hbm b) ∧ t.lpddr = s.lpddr ∧ t.cores = s.cores ∧
        (bit s.host.msixMask 32 = true → bit t.host.msixPend 32 = true) ∧
        (bit s.host.msixMask 32 = false → t.host.messages = s.host.messages ++ [32])
      (ringFull s = true → exec .errorRecordCopy s = .next s) ∧
      (s.errors.store = [] → s.errors.table = [] → exec .errorRecordCopy s = .next s) ∧
      (ringFull s = false → ringLineHeld s = false →
        (∀ r l, s.errors.store = r :: l → copied r l) ∧
        (∀ x l, s.errors.store = [] → s.errors.table = x :: l → copied (summaryOf s x) [] ∧
          (summaryOf s x).kind = x.1.kind ∧ bits (summaryOf s x).lost 0 32 = x.2.2.1 % 2 ^ 32)))

/-- The HDM window reads and writes memory through its segments and drops what R191 drops; other host accesses are
refused and counted (derived from 15_host_interface.md, 05_memory_and_ordering.md, 19_power_clocks_supply.md,
21_register_map.md). What log entries 7, 41, 42, 77 say is the model's choice. -/
def Obligations.HostWindowLinkScrub : Prop :=
  (∀ (addr : Nat) (s : State),
      let i := addr / segBytes
      let up := addr < hdmBytes ∧ segHeld s i = false
      let go := up ∧ stageNow s < 5 ∧ segEn (segReg s i) = true
      let ti := segTier (segReg s i)
      let off := segIndex (segReg s i) * segBytes + addr % segBytes
      let unit := off / 64
      let rule := if 5 ≤ stageNow s then 5 else 2
      let a := addr / 64 * 64
      let said := fun (t : State) (x : HostReply) => t.host.replies = s.host.replies ++ [x]
      let same := fun (t : State) => t.hbm = s.hbm ∧ t.lpddr = s.lpddr ∧ t.cores = s.cores
      (∀ caches, go → isPoisoned s ti unit = false →
        (caches = true → lineKey ti unit ∈ s.host.snoop ∨ s.host.snoop.length < snoopSize) →
        (∃ t, exec (.hdmHostRead addr caches MemEcc.clean) s = .next t ∧ same t ∧ t.errors = s.errors ∧
          said t (.data a (readBytes (tierMem s ti) (64 * unit) 64) false) ∧ (caches = true → lineKey ti unit ∈ t.host.snoop)) ∧
        (∀ ecc, (ti, unit) ∈ ecc.bad → s.errors.store.length < 512 → ∃ t bs, exec (.hdmHostRead addr caches ecc) s = .next t ∧
          said t (.data a bs true) ∧ isPoisoned t ti unit = true)) ∧
      (∀ caches ecc, up → 5 ≤ stageNow s ∨ segEn (segReg s i) = false →
        ∃ t, exec (.hdmHostRead addr caches ecc) s = .next t ∧ countedBad s t a 0 rule ∧
          said t (.data a (List.replicate 64 0) true)) ∧
      (∀ data : List Byte,
        let bs := data.take (64 - addr % 64)
        (go → inCode s ti off bs.length = false → ∃ t, exec (.hdmHostWrite addr data) s = .next t ∧ t.cores = s.cores ∧
          readBytes (tierMem t ti) off bs.length = bs ∧ (∀ y, y ≠ ti → tierMem t y = tierMem s y) ∧
          (∀ b : Nat, b < off ∨ off + bs.length ≤ b → tget 0 (tierMem t ti) b = tget 0 (tierMem s ti) b)) ∧
        (go → inCode s ti off bs.length = true → ∃ t, exec (.hdmHostWrite addr data) s = .next t ∧
          countedBad s t addr 0 3 ∧ t.lpddr = s.lpddr ∧ t.cores = s.cores) ∧
        (up → 5 ≤ stageNow s ∨ segEn (segReg s i) = false → ∃ t, exec (.hdmHostWrite addr data) s = .next t ∧
          countedBad s t addr 0 rule ∧ t.lpddr = s.lpddr ∧ t.cores = s.cores) ∧
        (hdmBytes ≤ addr → exec (.hdmHostWrite addr data) s = .fault (.outsideHdmWindow addr))) ∧
      (∀ caches ecc, hdmBytes ≤ addr → exec (.hdmHostRead addr caches ecc) s = .fault (.outsideHdmWindow addr))) ∧
    (∀ (x : MmioAccess) (s : State) (r : Nat), mmioRule s x = some r → r ≠ 6 →
      ∃ t, exec (.mmioBadAccess x) s = .next t ∧ countedBad s t x.addr 1 r ∧ t.cores = s.cores ∧ t.quads = s.quads ∧
        t.host.replies = s.host.replies ++ (if x.write = true then [] else [.unsupported x.addr])) ∧
    (∀ (x : MmioAccess) (s : State), (x.width ≠ 32 ∧ x.width ≠ 64 ∨ x.addr % (x.width / 8) ≠ 0) → mmioRule s x = some 4) ∧
    (∀ (pid : BitVec 12) (mem : Bool) (addr : Nat) (s : State),
      (pid = s.host.pid → exec (.cxlForeignRequest pid mem addr) s = .next s) ∧
      (pid ≠ s.host.pid → ∃ t off space, exec (.cxlForeignRequest pid mem addr) s = .next t ∧ countedBad s t off space 1 ∧
        (mem = true → off = addr ∧ space = 0) ∧ t.host.replies = s.host.replies ++ [.unsupported addr] ∧
        t.cores = s.cores)) ∧
    (∀ (width : Nat) (f : LinkFound) (s : State), ∃ t, exec (.cxlLinkTrained width f) s = .next t ∧ t.cores = s.cores ∧
      let trains := (width = 4 ∨ width = 8) ∧ (f.rate = 32 ∨ f.rate = 64)
      t.host.pid = f.binding.getD s.host.pid ∧
      (width = 8 → f.rate = 64 → t.host.width = 8 ∧ t.host.rate64 = true ∧ t.host.degraded = false ∧ hostOnly s t) ∧
      (trains → width = 4 ∨ f.rate = 32 → t.host.width = width ∧ t.host.rate64 = (f.rate == 64) ∧
        t.host.degraded = true ∧ recorded s t { kind := 0x27, detail := linkStatus t, engine := 10 }) ∧
      (¬ trains → t.host.width = 0 ∧ t.host.degraded = false ∧ t.errors = s.errors)) ∧
    (∀ (ti : Tier) (unit : Nat) (s : State),
      let run := fun (f : ScrubFound) (g : State → Prop) => ∃ t, exec (.patrolScrubRead ti unit f) s = .next t ∧ g t ∧
        t.lpddr = s.lpddr ∧ t.cores = s.cores ∧ (s.errors.store.length < 512 → t.hbm = s.hbm)
      let runs := bit s.scrubCtrl 0 = true ∧ stageNow s = 0 ∧ (getQuad s 0).idle ≠ 4 ∧
        64 * unit < tierBytes s (tierCode ti)
      (∀ f, ¬ runs → exec (.patrolScrubRead ti unit f) s = .next s) ∧
      (runs → (isPoisoned s ti unit = false → run .clean (fun t => t = s)) ∧
        (heldLines s ti [unit] = [] → run .corrected (fun t => tget 0 t.eccCounts (controllerOf s ti unit) =
          tget 0 s.eccCounts (controllerOf s ti unit) + 1 ∧ t.errors = s.errors)) ∧
        (isPoisoned s ti unit = false → run .uncorrectable (fun t =>
          (s.errors.store.length < 512 → isPoisoned t ti unit = true) ∧ t.errors.rseq = s.errors.rseq + 1))))

/-- Only an image that passes every check boots, recovers or updates the device, and both endpoints answer as their
rows give (derived from 20_boot_and_security.md, 15_host_interface.md). What log entries 8, 20, 46, 51, 77 say is
the model's choice. -/
def Obligations.FirmwareAndManagement : Prop :=
  (∀ (s : State) (rd : Bool) (img : List Byte), verifyImage s rd img = 0 → rd = true ∧
      Config.sha384 (imgBytes img (64 + fwBodyLen img) 97) = s.fuses.eccKeyHash ∧
      Config.sha256 (imgBytes img (64 + fwBodyLen img + 256) 56) = s.fuses.lmsKeyHash ∧
      Config.ecdsaVerify (imgBytes img (64 + fwBodyLen img) 97) (imgBytes img (64 + fwBodyLen img + 128) 96)
        (imgBytes img 0 (64 + fwBodyLen img)) = true ∧
      Config.lmsVerify (imgBytes img (64 + fwBodyLen img + 256) 56) (imgBytes img (64 + fwBodyLen img + 320) 1772)
        (imgBytes img 0 (64 + fwBodyLen img)) = true ∧ s.fuses.otpSvn ≤ (imgByte img 10).toNat) ∧
    (∀ (found : BootFound) (s : State), (s.power.rails = false → exec (.boot found) s = .next s) ∧
      (s.power.rails = true → s.boot.phase = .start →
        (found.otpOk = false ∨ s.power.tclk = false → ∃ t, exec (.boot found) s = .next t ∧ t.boot.phase = .haltedOtp ∧
          t.flash = s.flash ∧ t.boot.service = s.boot.service ∧
          t.boot.replies = s.boot.replies ++ [.romHalt (!found.otpOk)]) ∧
        (found.otpOk = true → s.power.tclk = true →
          let adopt := s.flash.marker && verifyImage s found.stagedReadable s.flash.staging == 0
          let image := if adopt = true then s.flash.staging else s.flash.image
          let r := verifyImage s found.imageReadable image
          ∃ t, exec (.boot found) s = .next t ∧ t.flash.image = image ∧ t.flash.marker = false ∧ t.fuses = s.fuses ∧
            t.flash.withdrawn = s.flash.withdrawn ∧
            (r ≠ 0 → t.boot.phase = .recovery ∧ t.boot.reason = r ∧ (r, 3) ∈ t.flash.bootFailures ∧
              t.boot.service = s.boot.service) ∧
            (r = 0 → t.boot.imageSvn = fwSvn image ∧ t.boot.imageDigest = Config.sha384 (fwCovered image) ∧
              t.boot.aliasCert = Config.aliasCert Config.deviceSecret t.boot.imageDigest ∧ t.boot.secretLocked = true ∧
              (3 < stageNow s → t.boot.phase = .ready ∧ t.boot.service = s.boot.service) ∧
              (stageNow s ≤ 3 → found.memoryTrains = false → t.boot.phase = .haltedTraining) ∧
              (stageNow s ≤ 3 → found.memoryTrains = true → found.linkWidth = 4 ∨ found.linkWidth = 8 →
                found.linkRate = 32 ∨ found.linkRate = 64 → t.boot.phase = .done ∧ t.boot.service = (if s.flash.withdrawn = true then 2 else 1) ∧
                t.host.width = found.linkWidth ∧ t.flash.bootFailures = [] ∧ t.flash.supply = []))))) ∧
    (∀ (img back : List Byte) (s : State),
      let r := if 2 ^ 24 < img.length then 2 else verifyImage s true img
      let said := fun (t : State) (l : List MgmtReply) => t.boot.replies = s.boot.replies ++ l
      (s.boot.phase ≠ .recovery → exec (.recoveryImageReceive img back) s = .next s) ∧
      (s.boot.phase = .recovery →
        let asked := if 2 ^ 24 < img.length then [] else (List.range (ceilDiv img.length 4096)).map (fun k =>
          MgmtReply.requestData .i3c (4096 * k) (min 4096 (img.length - 4096 * k)))
        (r ≠ 0 → exec (.recoveryImageReceive img back) s = .next { s with boot := { s.boot with
          replies := s.boot.replies ++ asked ++ [.verifyComplete .i3c r] } }) ∧
        (r = 0 → ∃ t, exec (.recoveryImageReceive img back) s = .next t ∧ t.flash = { s.flash with image := back } ∧
          t.fuses = s.fuses ∧ t.cores = s.cores ∧
          (verifyImage s true back ≠ 0 → t.boot.phase = .recovery ∧
            said t (asked ++ [.verifyComplete .i3c 0, .applyComplete .i3c false])) ∧
          (verifyImage s true back = 0 → t.boot.phase = .ready ∧ t.boot.recovered = true ∧ t.boot.imageSvn = fwSvn back ∧
            said t (asked ++ [.verifyComplete .i3c 0, .applyComplete .i3c true]) ∧
            recorded s t { kind := 0x51, detail := fwSvn back })))) ∧
    (∀ (ep : Endpoint) (s : State),
      let done := s.boot.phase = .done
      (∀ y, done → s.boot.updating = some y →
        exec (.pldmRequestUpdate ep) s = .next (mgmt s (.alreadyInUpdateMode ep))) ∧
      (done → s.boot.updating = none → ∃ t, exec (.pldmRequestUpdate ep) s = .next t ∧ t.boot.updating = some ep ∧
        t.boot.updateVerified = false ∧ t.flash = s.flash ∧ t.boot.replies = s.boot.replies ++ [.updateMode ep]) ∧
      (∀ img, s.boot.updating = some ep →
        let r := if 2 ^ 24 - 64 < img.length then 2 else verifyImage s true img
        ∃ t, exec (.pldmComponentTransfer ep img) s = .next t ∧ t.flash = { s.flash with staging := img, marker := false } ∧
          t.fuses = s.fuses ∧ t.boot.replies = s.boot.replies ++ [.verifyComplete ep r] ∧
          (r = 0 → t.boot.updating = some ep ∧ t.boot.updateVerified = true ∧
            recorded s t { kind := 0x52, detail := fwSvn img }) ∧
          (r ≠ 0 → t.boot.updating = none ∧ t.boot.updateVerified = false ∧ recorded s t { kind := 0x53, detail := r })) ∧
      (s.boot.updating = some ep → s.boot.updateVerified = true → ∃ t, exec (.pldmActivateFirmware ep) s = .next t ∧
        t.flash = { s.flash with marker := true } ∧ t.boot.updating = none ∧
        t.boot.replies = s.boot.replies ++ [.activated ep]) ∧
      (s.boot.updating ≠ some ep → (∀ img, exec (.pldmComponentTransfer ep img) s = .next s) ∧
        exec (.pldmActivateFirmware ep) s = .next s) ∧
      (endpointUp s ep = true → ∀ b rest ask, ∃ err t, exec (.mctpControlMessage ep { bytes := b :: rest, ask := ask }) s =
        .next (mgmt t (.mctp ep [] err)) ∧ (b.toNat % 128 = 0 ∨ b.toNat % 128 = 5 → err = false) ∧
          (5 < b.toNat % 128 → err = true) ∧ t = { s with boot := { s.boot with
            eidCxl := t.boot.eidCxl, eidI3c := t.boot.eidI3c, mctpUnit := t.boot.mctpUnit } } ∧
          (b.toNat % 128 ≠ 0 ∨ ask = .nothing → t = s) ∧ (b.toNat % 128 = 0 →
            (∀ e, ask = .setEid e → t.boot.mctpUnit = s.boot.mctpUnit ∧
              t.boot.eidCxl = (if ep = .cxl then e else s.boot.eidCxl) ∧
              t.boot.eidI3c = (if ep = .i3c then e else s.boot.eidI3c)) ∧
            (∀ n, ask = .unit n → t.boot.eidCxl = s.boot.eidCxl ∧ t.boot.eidI3c = s.boot.eidI3c ∧
              t.boot.mctpUnit = (if ep = .cxl then max 64 (min 256 n) else s.boot.mctpUnit)))) ∧
      (endpointUp s ep = false → ∀ b, exec (.mctpControlMessage ep b) s = .next s) ∧
      (∀ i nonce, done →
        (∀ d, i ≠ 0xFF → measure s i = some d → exec (.spdmGetMeasurements ep i nonce) s = .next (mgmt s
          (.measurements ep [(i, d)] (Config.aliasSign s.boot.alias_ (nonce ++ (leBytes 1 i ++ leBytes 48 d.toNat)))))) ∧
        (i ≠ 0xFF → measure s i = none → exec (.spdmGetMeasurements ep i nonce) s = .next (mgmt s (.spdmError ep))) ∧
        (i = 0xFF → ∃ l sig, exec (.spdmGetMeasurements ep i nonce) s = .next (mgmt s (.measurements ep l sig)) ∧
          l.length = 12 ∧ ∀ x ∈ l, measure s x.1 = some x.2)) ∧
      (∀ slot nonce, done → (slot = 0 → exec (.spdmGetCertificate ep slot) s = .next (mgmt s (.certificate ep
          (s.flash.devidChain ++ s.boot.aliasCert))) ∧
          exec (.spdmChallenge ep slot nonce) s =
            .next (mgmt s (.challengeAuth ep (Config.aliasSign s.boot.alias_ nonce)))) ∧
        (slot ≠ 0 → exec (.spdmGetCertificate ep slot) s = .next (mgmt s (.spdmError ep)) ∧
          exec (.spdmChallenge ep slot nonce) s = .next (mgmt s (.spdmError ep)))) ∧
      (∀ slot x, done →
        (slot = 0 → (sessionsOf s ep).length < 2 → ∃ t, exec (.spdmKeyExchange ep slot x) s = .next t ∧
          sessionsOf t ep = sessionsOf s ep ++ [s.boot.nextSession] ∧ (∀ y, y ≠ ep → sessionsOf t y = sessionsOf s y) ∧
          t.boot.nextSession = s.boot.nextSession + 1 ∧ t.flash = s.flash ∧ t.boot.replies = s.boot.replies ++
            [.keyExchange ep s.boot.nextSession (Config.aliasSign s.boot.alias_ x)]) ∧
        (slot ≠ 0 ∨ 2 ≤ (sessionsOf s ep).length →
          exec (.spdmKeyExchange ep slot x) s = .next (mgmt s (.spdmError ep)))) ∧
      (∀ n, done → exec (.spdmHeartbeat ep n) s =
        .next (mgmt s (if n ∈ sessionsOf s ep then .heartbeatAck ep n else .spdmError ep))) ∧
      (∀ n stream key go, done →
        (ep = .cxl → n ∈ s.boot.sessionsCxl → ∃ t, exec (.ideKm ep n stream key go) s = .next t ∧
          tget 0 t.boot.ideKeys stream = key ∧ (∀ j, j ≠ stream → tget 0 t.boot.ideKeys j = tget 0 s.boot.ideKeys j) ∧
          t.host = { s.host with ideActive := s.host.ideActive || go } ∧
          t.boot.replies = s.boot.replies ++ [.ideAck stream]) ∧
        (ep = .i3c ∨ n ∉ s.boot.sessionsCxl →
          exec (.ideKm ep n stream key go) s = .next (mgmt s (.spdmError ep)))) ∧
      (s.boot.phase = .done → s.fuses.otpSvn < s.boot.imageSvn → s.boot.imageSvn ≤ 64 → ∃ t,
        exec .svnCommit s = .next t ∧ t.fuses = { s.fuses with otpSvn := s.boot.imageSvn } ∧ t.flash = s.flash ∧
        recorded s t { kind := 0x55, detail := s.fuses.otpSvn + s.boot.imageSvn * 2 ^ 8 }) ∧
      (s.boot.imageSvn ≤ s.fuses.otpSvn → exec .svnCommit s = .next s))

/-- Cores are fenced and unfenced, self-tests, calibrations and host CRC runs start and end, and ADMIT re-admits,
each leaving the rest alone (derived from 16_integrity_and_faults.md, 20_boot_and_security.md, 17_selvedge_units.md,
18_hang_and_reset.md, 21_register_map.md). What log entries 50, 52, 53, 67 say is the model's choice. -/
def Obligations.FencesTestsAndRuns : Prop :=
  (∀ (i : Fin 3) (v : Dword) (s : State), ∃ t, exec (.cellarCoreFenceClear i v) s = .next t ∧
      t = { s with fence := t.fence, cores := t.cores } ∧ ∀ n : Fin 192,
        let named := n.val / 64 = i.val ∧ bit v (n.val % 64) = true ∧ isFenced s n.val = true ∧
          (w1cNow s (0x100 + 8 * i.val)).testBit (n.val % 64) = false ∧ ∃ p, corePart s n.val = some p ∧ p.ctx = .empty
        (named → isFenced t n.val = false ∧
          getCore t n.val = { getCore s n.val with intermits := [], storeCause := false, fenceStore := false }) ∧
        (¬ named → isFenced t n.val = isFenced s n.val ∧ getCore t n.val = getCore s n.val)) ∧
    (∀ (i : Fin 3) (v : Dword) (s : State), ∃ t, exec (.cellarCoreFenceSet i v) s = .next t ∧ t.lpddr = s.lpddr ∧
      (∀ n : Fin 192, isFenced t n.val = (isFenced s n.val || (n.val / 64 == i.val && bit v (n.val % 64)))) ∧
      ∀ (n : Fin 192) (p : Part), n.val / 64 = i.val → (∀ j, bit v j = true ↔ j = n.val % 64) → isFenced s n.val = false →
        corePart s n.val = some p → partAt s p.low = some p →
        let q := quadOf n.val
        let second := (pairActive s q = true ∧ (getQuad s q).testPair = false) ∨ nextIsFence s q n.val = true
        (getCore t n.val = { getCore s n.val with fenceStore := false } ∧
          ∀ m, m ≠ n.val → getCore t m = getCore s m) ∧
        (p.ctx = .empty → recorded s t (coreRec 0x16 n.val 3) ∧ t.parts = s.parts ∧ t.quads = s.quads) ∧
        (p.ctx = .running → n.val ∈ p.map →
          (¬ second → recorded s t (coreRec 0x16 n.val 3) ∧ t.parts = s.parts ∧
            (getQuad t q).pairNext = some (n.val % 24, partnerOf s n.val % 24) ∧
            (pairActive s q = true → pairFenced s q < 192 → bit t.selfTest.left (pairFenced s q) = true)) ∧
          (second → t.errors.rseq = s.errors.rseq + 2 ∧ (getQuad t q).pairNext = (getQuad s q).pairNext ∧
            partAt t p.low = some { p with stopping := true }))) ∧
    (∀ (v : Word) (s : State), (∀ n : Fin 192, bit (selected s) n.val = (bit s.selfTest.sel n.val && !isDisabled s n.val)) ∧
      ∃ t, exec (.selftestGo v) s = .next t ∧ t.selfTest.test = bit v 0 ∧ t.selfTest.intrusive = bit v 1 ∧
        t.cores = s.cores ∧ t.parts = s.parts ∧
        (bit v 2 = false ∨ s.selfTest.busy = true → t = { s with selfTest := { s.selfTest with
          test := bit v 0, intrusive := bit v 1
          done := s.selfTest.done && !(bit v 4 && !(w1cNow s 0x300).testBit 4) } }) ∧
        (bit v 2 = true → s.selfTest.busy = false → t.selfTest.left = selected s ∧ t.selfTest.fail = 0 ∧
          t.selfTest.started = [] ∧ t.selfTest.kind = bit v 0 ∧
          (selected s ≠ 0 → t.selfTest.busy = true ∧ t = { s with selfTest := t.selfTest }) ∧
          (selected s = 0 → t.selfTest.busy = false ∧ t.selfTest.done = true ∧
            recorded s t { kind := 0x57, detail := 0 }))) ∧
    (∀ (n : Fin 192) (s : State) (p : Part), corePart s n.val = some p → partAt s p.low = some p →
      let waits := s.selfTest.busy = true ∧ bit s.selfTest.left n.val = true
      let began := fun (t : State) (m : Nat) => bit t.selfTest.left m = false ∧ tget 0 t.selfTest.started m = s.pll + 1
      (waits → testWindow s p = true → ∃ t q, exec (.selftestCoreStart n) s = .next t ∧ partAt t p.low = some q ∧
        q.testing = (partCores p).filter (fun m => bit s.selfTest.left m) ∧ q.ctx = .empty ∧ t.cores = s.cores ∧
        (getQuad t p.low).idle = 0 ∧ (∀ m ∈ q.testing, began t m) ∧
        (∀ m, m ∉ q.testing → bit t.selfTest.left m = bit s.selfTest.left m ∧
          tget 0 t.selfTest.started m = tget 0 s.selfTest.started m)) ∧
      (waits → testWindow s p = false → testIntrudes s p = true →
        (n.val ∉ p.map → ∃ t, exec (.selftestCoreStart n) s = .next t ∧ began t n.val ∧
          t = { s with selfTest := t.selfTest }) ∧
        (n.val ∈ p.map → pairActive s (quadOf n.val) = false → (getQuad s (quadOf n.val)).pairNext = none →
          isFenced s n.val = false → isFenced s (partnerOf s n.val) = false → ∃ t, exec (.selftestCoreStart n) s = .next t ∧
            (getQuad t (quadOf n.val)).pairNext = some (n.val % 24, partnerOf s n.val % 24) ∧
            t = { s with quads := t.quads })) ∧
      (¬ waits ∨ (testWindow s p = false ∧ testIntrudes s p = false) → exec (.selftestCoreStart n) s = .next s) ∧
      (∀ (pass : Bool), let at_ := tget 0 s.selfTest.started n.val
        (at_ = 0 ∨ s.pll + 1 < at_ + testTime s → exec (.selftestCoreDone n pass) s = .next s) ∧
        (at_ ≠ 0 → at_ + testTime s ≤ s.pll + 1 → ∃ t q, exec (.selftestCoreDone n pass) s = .next t ∧
          tget 0 t.selfTest.started n.val = 0 ∧ (∀ m, m ≠ n.val → getCore t m = getCore s m) ∧
          partAt t p.low = some q ∧ n.val ∉ q.testing ∧ q.map = p.map ∧
          (pass = true → (∀ m, m ≠ n.val → tget 0 t.selfTest.started m = tget 0 s.selfTest.started m) ∧
            t.selfTest.left = s.selfTest.left ∧ getCore t n.val = (if s.selfTest.kind = true then wipeCore (getCore s n.val)
            else getCore s n.val) ∧ t.selfTest.fail = s.selfTest.fail ∧ t.fence = s.fence) ∧
          (pass = false → bit t.selfTest.fail n.val = true ∧ isFenced t n.val = true ∧
            (s.selfTest.kind = true → (getCore t n.val).storeCause = true))))) ∧
    (∀ (v : Word) (s : State),
      let x := { s.selfTest with calKind := bit v 0, calPort := BitVec.ofNat 3 (bits v 1 3) }
      (bit v 4 = true → s.selfTest.calBusy = false → exec (.calGo v) s = .next { s with
        selfTest := { x with calBusy := true, calWave := 0, calTill := s.pll, calRun := some (bit v 0, bits v 1 3, s.pll) } }) ∧
      (bit v 4 = false ∨ s.selfTest.calBusy = true → exec (.calGo v) s = .next { s with selfTest := x })) ∧
    (∀ (s : State), (s.selfTest.calRun = none → exec .calComplete s = .next s) ∧
      (∀ kind port at_, s.selfTest.calRun = some (kind, port, at_) →
        let ahead := fun m => s.selfTest.calWave ≤ m ∧ m < fabricN s ∧ (getPort s port).lit = true
        let waits := if kind = true then s.pll < at_ + us 100
          else sweepsHeld s = true ∨ s.pll < s.selfTest.calTill ∨ ∃ m, ahead m
        (∀ m, kind = false → ahead m → (∀ j, j < m → ¬ ahead j) → sweepsHeld s = false → s.selfTest.calTill ≤ s.pll →
          let t := sweepOn s
          let from_ := flitBoundary s (getChan s port m)
          t.selfTest.calWave = m + 1 ∧ from_ ≤ t.selfTest.calTill ∧ t.selfTest.calTill ≤ from_ + us 50 ∧
          (getChan t port m).holdTill = max (getChan s port m).holdTill t.selfTest.calTill ∧
          ∀ k j, (k, j) ≠ (port, m) → getChan t k j = getChan s k j) ∧
        (waits → exec .calComplete s = .next s) ∧
        (¬ waits → ∃ t, exec .calComplete s = .next t ∧ t.selfTest = { s.selfTest with calBusy := false, calRun := none } ∧
          recorded s t { kind := 0x58, detail := flag kind + port * 2 } ∧ t.cores = s.cores ∧ t.ports = s.ports)) ∧
      (s.hostSelv.busy = true → exec .cellarSelvGo s = .next s) ∧
      (s.hostSelv.busy = false →
        let x := s.hostSelv
        let run := some (x.cfg, x.poly, x.init, x.addr, x.len, x.expect)
        exec .cellarSelvGo s = .next { s with hostSelv := { x with busy := true, began := s.pll, run := run } }) ∧
      (∀ cfg poly init addr len expect, s.hostSelv.run = some (cfg, poly, init, addr, len, expect) →
        let ti := tierOf (bits addr 42 2)
        let off := bits addr 0 42
        let n := bits len 0 42
        let w := bits cfg 0 7
        let r := crcResult w (poly.toNat % 2 ^ w) init.toNat (bit cfg 7) (bit cfg 8) (bit cfg 9)
          (readBytes (tierMem s ti) off n)
        let bad := r ≠ expect.toNat % 2 ^ w
        let ended := fun (t : State) => t.hostSelv.busy = false ∧ t.hostSelv.run = none ∧ t.hostSelv.done = true ∧
          t.lpddr = s.lpddr ∧ t.cores = s.cores
        (tierBytes s (tierCode ti) < off + n → ∃ t, exec (.hostSelvRunComplete MemEcc.clean) s = .next t ∧ ended t ∧
          t.hostSelv.range = true ∧ t.hostSelv.mismatch = false ∧ t.hostSelv.result = s.hostSelv.result ∧
          recorded s t { kind := 0x65, detail := s.hostSelv.result.toNat }) ∧
        (off + n ≤ tierBytes s (tierCode ti) →
          (s.pll < s.hostSelv.began + 24 * ceilDiv n 64 →
            exec (.hostSelvRunComplete MemEcc.clean) s = .next s) ∧
          (s.hostSelv.began + 24 * ceilDiv n 64 ≤ s.pll → (∀ u ∈ rangeUnits off n, isPoisoned s ti u = false) →
            ∃ t, exec (.hostSelvRunComplete MemEcc.clean) s = .next t ∧ ended t ∧ t.hostSelv.range = false ∧
              t.hostSelv.result = BitVec.ofNat 64 r ∧ (t.hostSelv.mismatch = true ↔ bad) ∧
              (bad → recorded s t { kind := 0x65, detail := r }) ∧ (¬ bad → t.errors = s.errors ∧ t.hbm = s.hbm)))) ∧
      (s.boot.service = 2 → ∃ t, exec .admitDevice s = .next t ∧ t.boot = { s.boot with service := 1 } ∧
        t.flash = { s.flash with withdrawn := false } ∧ recorded s t { kind := 0x34 }) ∧
      (s.boot.service ≠ 2 → exec .admitDevice s = .next s))

/-- Register writes reach exactly their register, partition-wide ones every quadrant, and idle levels are chosen,
entered and left by R650 to R653 (derived from 21_register_map.md, 19_power_clocks_supply.md, 11_mask_lifecycle.md,
12_training_step.md, 15_host_interface.md). What log entries 49, 52, 77 say is the model's choice. -/
def Obligations.RegistersAndIdle : Prop :=
  (∀ (q : Fin 8) (s : State) (p : Part), partOf s q.val = some p →
      let wide := fun (o : Host.Outcome State Fault Refusal) (g : Quad → Quad → Prop) => ∃ t, o = .next t ∧
        t = { s with quads := t.quads } ∧ (∀ r ∈ partQuads p, g (getQuad s r) (getQuad t r)) ∧
        ∀ r, r ∉ partQuads p → getQuad t r = getQuad s r
      (∀ v, p.ctx ≠ .running → wide (exec (.quadMaskGenWrite q v) s) (fun x y => y = { x with maskGen := y.maskGen } ∧
        bits y.maskGen 0 32 = bits v 0 32 ∧ bits y.maskGen 32 32 = bits x.maskGen 32 32)) ∧
      (∀ v, p.ctx = .running → wide (exec (.quadMaskGenWrite q v) s) (fun x y =>
        y = { x with genNext := some (bits v 0 32) })) ∧
      (∀ v, p.ctx = .empty ∨ p.ctx = .loaded ∨ p.ctx = .stopped →
        wide (exec (.quadCtxModeWrite q v) s) (fun x y => y = { x with ctxMode := y.ctxMode } ∧
          bit y.ctxMode 0 = bit v 0 ∧ ∀ i, i ≠ 0 → bit y.ctxMode i = bit x.ctxMode i)) ∧
      (∀ v, p.ctx = .running ∨ p.ctx = .faulted → exec (.quadCtxModeWrite q v) s = .next s) ∧
      (idleLevel s p ≠ 0 → idleEligible s p = true ∧ idleLevel s p ≤ s.power.maxLevel) ∧
      (let l := idleLevel s p
       let was := (getQuad s p.low).idle
       let chosen := { s.power with idleSeen := choiceNow s }
       ((getQuad s p.low).exitAt.isSome = true ∨ (l ≤ was ∧ choiceChanged s = false) → exec (.idleEnter q) s = .next s) ∧
       ((getQuad s p.low).exitAt = none → choiceChanged s = true →
         (l = was → exec (.idleEnter q) s = .next { s with power := chosen }) ∧
         (l < was → ∃ t, exec (.idleEnter q) s = .next t ∧ (∀ r ∈ partQuads p, (getQuad t r).idle = l) ∧
           t = { s with quads := t.quads, power := { chosen with selfRefresh := t.power.selfRefresh } } ∧
           (was ≠ 4 → t.power.selfRefresh = s.power.selfRefresh) ∧
           (was = 4 → stageNow s < 5 → t.power.selfRefresh = false))) ∧
       ((getQuad s p.low).exitAt = none → was < l → saveLines s (savesDies s p l) = [] →
         ∃ t, exec (.idleEnter q) s = .next t ∧
         (∀ x ∈ s.parts, (x = p ∨ l = 4 ∨ (l = 3 ∧ sharesDie p x = true)) → ∀ r ∈ partQuads x, (getQuad t r).idle = l) ∧
         (∀ r, (∀ x ∈ s.parts, r ∉ partQuads x) → getQuad t r = getQuad s r) ∧
         t.cores = s.cores ∧ t.lpddr = s.lpddr ∧ (l < 3 → t = { s with quads := t.quads, power := chosen }) ∧
         (∀ b : Nat, (∀ d ∈ savesDies s p l, b < saveArea s d ∨ saveArea s d + saveLen ≤ b) →
           tget 0 t.hbm b = tget 0 s.hbm b) ∧ (l = 4 → t.power.selfRefresh = true))) ∧
      (∀ c, ((getQuad s p.low).idle ≠ 0 → exitCause s p c = true → ∃ t, exec (.idleExit q c) s = .next t ∧
          (∀ r ∈ partQuads p, (getQuad t r).idle = 0) ∧ t = { s with quads := t.quads, power := t.power }) ∧
        ((getQuad s p.low).idle = 0 ∨ exitCause s p c = false → exec (.idleExit q c) s = .next s)) ∧
      (∀ x : MmioAccess, coreQuadOf x.addr = some q.val → mmioRule s x = none → (getQuad s q.val).idle = 2 →
        x.write = false → ∃ t d, exec (.idleMmioAccess x) s = .next t ∧
          (∀ r ∈ partQuads p, (getQuad t r).idle = 1 ∧ (getQuad t r).exitAt = some (s.pll + us 30)) ∧
          t.host.replies = s.host.replies ++ (if readWaits s x = true then [] else [.mmio x.addr d]) ∧
          t.cores = s.cores ∧ t.errors = s.errors)) ∧
    (∀ (x : MmioAccess) (s : State),
      (mmioRule s x = some 6 → ∃ t, exec (.idleMmioAccess x) s = .next t ∧ countedBad s t x.addr 1 6 ∧ t.quads = s.quads ∧
        t.host.replies = s.host.replies ++ (if x.write = true then [] else [.unsupported x.addr])) ∧
      (mmioRule s x = none → atI2 s x = false → exec (.idleMmioAccess x) s = .next s ∧
        (x.write = false → exec (.registerWrite x) s =
          .next (if readWaits s x = true then s else hostReply s (.mmio x.addr (mmioRead s x.addr x.width)))) ∧
        (readWaits s x = true ↔ x.write = false ∧ (s.host.segWait ≠ [] ∨ ∃ q, q < 8 ∧ (getQuad s q).genNext ≠ none)) ∧
        (x.write = true → x.width = 32 → regAt s x.addr = none → x.addr % 8 = 0 → exec (.registerWrite x) s = .next s) ∧
        (x.write = true → x.width = 64 → x.addr = 0x38 → exec (.registerWrite x) s = .next { s with epoch := x.value }) ∧
        (x.write = true → x.width = 32 → x.addr = 0x38 → ∃ t, exec (.registerWrite x) s = .next t ∧
          t = { s with epoch := t.epoch } ∧ bits t.epoch 0 32 = bits x.value 0 32 ∧ bits t.epoch 32 32 = bits s.epoch 32 32) ∧
        (x.write = true → x.width = 32 → x.addr = 0x3C → ∃ t, exec (.registerWrite x) s = .next t ∧
          t = { s with epoch := t.epoch } ∧ bits t.epoch 32 32 = bits x.value 0 32 ∧ bits t.epoch 0 32 = bits s.epoch 0 32) ∧
        (∀ n : Fin 192, isDisabled s n.val = false → x.write = true → x.width = 32 →
          x.addr = 0x1000000 + 0x10000 * n.val + 4 → ∃ t, exec (.registerWrite x) s = .next t ∧
            let m := (getCore (landAll s n.val) n.val).beam
            let y := (getCore t n.val).beam
            let clears := fun b => bit x.value b && !(w1cNow (landAll s n.val) x.addr).testBit b
            y = { m with stLong := y.stLong, stNonfin := y.stNonfin, stMismatch := y.stMismatch } ∧
            y.stLong = (m.stLong && !clears 0) ∧ y.stNonfin = (m.stNonfin && !clears 1) ∧
            y.stMismatch = (m.stMismatch && !clears 2))) ∧
      ((mmioRule s x).isSome = true ∨ atI2 s x = true → exec (.registerWrite x) s = .next s)) ∧
    (∀ (r : Fin 8) (v : Word) (s : State), ∃ t, exec (.pwrHorizonHostWrite r v) s = .next t ∧
      (getQuad t r.val).horizonHost = v ∧ (getQuad t r.val).horizonAt = s.pll ∧
      t = { s with quads := t.quads, power := t.power } ∧
      (∀ p, partAt s r.val = some p → 1 ≤ p.size → (getQuad t r.val).idle = 0)) ∧
    (∀ (q : Fin 8) (v : Word) (s : State), ∃ t, exec (.pwrPoolCapWrite q v) s = .next t ∧ t = { s with quads := t.quads } ∧
      getQuad t q.val = { getQuad s q.val with poolCap := BitVec.ofNat 32 (max 120 (min 600 (bits v 0 10))) } ∧
      ∀ r, r ≠ q.val → getQuad t r = getQuad s r) ∧
    (∀ (v : Word) (s : State), exec (.divHostWrite v) s =
      .next { s with power := { s.power with divHost := min 4 (bits v 0 3) } })

/-- CCLK takes the slowest request; shedding stages, the reference clock and heat act as R626 to R646 say, and only
as they say (derived from 19_power_clocks_supply.md, 18_hang_and_reset.md, 16_integrity_and_faults.md). What log
entries 8, 44, 45, 47, 75 say is the model's choice. -/
def Obligations.SupplyClocksAndHeat : Prop :=
  (∀ (old a k : Nat), stageFor old a ≤ 5 ∧ (1 ≤ k → k ≤ 5 → (a < 5300 - 200 * k ∨ (k ≤ old ∧ a < 5400 - 200 * k)) →
      k ≤ stageFor old a) ∧ (stageFor old a = k → k ≠ 0 → a < 5300 - 200 * k ∨ (k ≤ old ∧ a < 5400 - 200 * k))) ∧
    (∀ s : State,
      let w := max s.power.divHost (max s.power.divTherm (if 3 ≤ stageNow s then 2 else 0))
      (w = s.power.divNow → exec .cclkDividerChange s = .next s) ∧
      (w ≠ s.power.divNow → ∃ t, exec .cclkDividerChange s = .next t ∧ t.power = { s.power with divNow := w } ∧
        recorded s t { kind := 0x41, detail := s.power.divNow + w * 2 ^ 3 + divSource s * 2 ^ 6 } ∧ t.cores = s.cores)) ∧
    (∀ (average : Nat) (s : State), s.power.s5Wait = none → s.power.s5Ending = none →
      let a := min average 65535
      let old := s.power.stage
      let new := stageFor old a
      let runs := fun (o : Host.Outcome State Fault Refusal) (g : State → Prop) => ∃ t, o = .next t ∧ g t ∧
        t.power.stage = new ∧ t.power.vinAvg = a ∧ t.lpddr = s.lpddr ∧ t.fuses = s.fuses
      (new = old → runs (exec (.shedStageChange average) s) (fun t =>
        t = { s with power := { s.power with vinAvg := a } })) ∧
      (old < new → s.power.tclkAbsent = false → runs (exec (.shedStageChange average) s) (fun t => t.cores = s.cores ∧
        recorded s t { kind := 0x40, detail := old + new * 2 ^ 3 + a * 2 ^ 16 } ∧
        (∀ k, old < k → k ≤ new → tget 0 t.power.stageCounts k = tget 0 s.power.stageCounts k + 1) ∧
        (∀ k, k ≤ old ∨ new < k → tget 0 t.power.stageCounts k = tget 0 s.power.stageCounts k) ∧
        (new < 5 → t.parts = s.parts ∧ (1 ≤ old → t.ports = s.ports) ∧ (old = 0 → t.ports =
          (List.range 8).foldl (fun ps k => (holdSweeps { s with ports := ps } k).ports) s.ports)) ∧
        (old < 4 → 4 ≤ new → t.power.s4At = s.pll) ∧
        (new = 5 → (∀ p ∈ t.parts, p.ctx = .running → p.stopping = true ∨ s4Holds s p = true) ∧
          ((∀ p ∈ s.parts, p.ctx ≠ .running) → portsDark s = true → memoryIdle s = true →
            t.power.selfRefresh = true ∧ t.power.retention = true ∧
            t.flash.supply = s.flash.supply ++ [10 * (s.pll / 102)])))) ∧
      (let w := { s with power := { s.power with
         vinAvg := a, selfRefresh := false, retention := false, s5Sent := false, s5Ending := some new } }
       old = 5 → new < 5 → s.power.tclkAbsent = false → portsUp w = false → exec (.shedStageChange average) s = .next w) ∧
      (new < old → s.power.tclkAbsent = false → (old = 5 → portsUp { s with power := { s.power with
          vinAvg := a, selfRefresh := false, retention := false, s5Sent := false, s5Ending := some new } } = true) →
        runs (exec (.shedStageChange average) s) (fun t =>
        t.power.stageCounts = s.power.stageCounts ∧
        (old = 5 → t.power.selfRefresh = false ∧ t.power.retention = false ∧ t.power.s5Ending = none) ∧
        (4 ≤ old → new < 4 → ∀ p ∈ t.parts, p.s4Hold = none) ∧
        (3 ≤ old → new < 3 → t.power.divNow = max s.power.divHost s.power.divTherm) ∧
        t.parts.map (fun p => (p.low, p.ctx, p.stopping)) = s.parts.map (fun p => (p.low, p.ctx, p.stopping))))) ∧
    (∀ (q : Fin 8) (s : State) (p : Part), partOf s q.val = some p → partAt s p.low = some p →
      let late := 4 ≤ stageNow s ∧ p.ctx = .running ∧ p.stopping = false ∧ s4Holds s p = false ∧
        s.power.s4At + ms s.power.s4LimitMs ≤ s.pll
      (¬ late → exec (.s4LimitExpiry q) s = .next s) ∧
      (late → ∃ t, exec (.s4LimitExpiry q) s = .next t ∧ partAt t p.low = some { p with stopping := true } ∧
        recorded s t (partRec 0x46 p p.low) ∧ t.cores = s.cores)) ∧
    (∀ s : State,
      (s.power.tclk = false → exec .tclkLoss s = .next s) ∧ (s.power.tclk = true → exec .tclkReturn s = .next s) ∧
      (s.power.tclk = true → ∃ t, exec .tclkLoss s = .next t ∧ recorded s t { kind := 0x47 } ∧
        t.power = { s.power with tclk := false, tclkLostAt := some (s.pll - us 1) } ∧ t.parts = s.parts ∧ t.cores = s.cores) ∧
      (∀ at_, s.power.tclkLostAt = some at_ →
        ((s.power.tclkAbsent = true ∧ s.power.s5Ending = none) ∨ s.pll < at_ + ms 100 →
          exec .tclkAbsent s = .next s) ∧
        (s.power.tclkAbsent = false ∨ s.power.s5Ending.isSome = true → at_ + ms 100 ≤ s.pll →
          ∃ t, exec .tclkAbsent s = .next t ∧
          t.power.tclkAbsent = true ∧ t.power.stage = s.power.stage ∧ t.cores = s.cores ∧ t.errors = s.errors ∧
          t.power.s5Ending = none ∧
          (s.power.stage < 5 → (∀ p ∈ t.parts, p.ctx = .running → p.stopping = true ∨ s4Holds s p = true) ∧
            ((∀ p ∈ s.parts, p.ctx ≠ .running) → portsDark s = true → memoryIdle s = true →
              t.power.selfRefresh = true ∧ t.power.retention = true)))) ∧
      (s.power.tclkLostAt = none → exec .tclkAbsent s = .next s) ∧
      (s.power.tclk = false →
        let back := { s.power with tclk := true, tclkLostAt := none }
        (s.power.tclkAbsent = false → exec .tclkReturn s = .next { s with power := back }) ∧
        (s.power.tclkAbsent = true → s.power.stage = 5 →
          exec .tclkReturn s = .next { s with power := { back with tclkAbsent := false } }) ∧
        (s.power.tclkAbsent = true → s.power.stage ≠ 5 →
          let w := { s with power := { back with selfRefresh := false, retention := false, s5Wait := none,
                                                 s5Sent := false, s5Ending := some s.power.stage } }
          (portsUp w = false → exec .tclkReturn s = .next w) ∧
          (portsUp w = true → ∃ t, exec .tclkReturn s = .next t ∧ t.power.tclk = true ∧ t.power.tclkAbsent = false ∧
            t.power.tclkLostAt = none ∧ t.power.stage = s.power.stage ∧ t.power.selfRefresh = false ∧
            t.power.retention = false ∧ t.power.s5Ending = none)))) ∧
    (∀ (x : Int) (sensor : Byte) (s : State),
      let code := s.power.divTherm
      let hot := (s.power.throttle : Int) ≤ x
      let cool := x < (s.power.throttle : Int) - 20
      let step := fun (c : Nat) (edge : Bool) => ∃ t, exec (.thermalThrottleStep x) s = .next t ∧
        t.power = { s.power with tmax := x, divTherm := c, thermAt := s.pll } ∧ t.cores = s.cores ∧ t.parts = s.parts ∧
        (edge = false → t.errors = s.errors) ∧
        (edge = true → recorded s t { kind := 0x42, detail := tmaxBits x + (if c = 0 then 0 else 2 ^ 16) })
      (hot → code < 4 → s.power.thermAt + ms 1 ≤ s.pll → step (code + 1) (code == 0)) ∧
      (cool → 0 < code → s.power.thermAt + ms 10 ≤ s.pll → step (code - 1) (code == 1)) ∧
      ((¬ hot ∧ ¬ cool) ∨ (hot ∧ (4 ≤ code ∨ s.pll < s.power.thermAt + ms 1)) ∨
        (cool ∧ ¬ hot ∧ (code = 0 ∨ s.pll < s.power.thermAt + ms 10)) →
        exec (.thermalThrottleStep x) s = .next { s with power := { s.power with tmax := x } }) ∧
      (460 ≤ x → s.power.crit = false → ∃ t, exec (.thermalCritical x sensor) s = .next t ∧
        t.power = { s.power with tmax := x, crit := true } ∧ t.cores = s.cores ∧
        recorded s t { kind := 0x43, detail := tmaxBits x + sensor.toNat * 2 ^ 16 } ∧
        (∀ p ∈ t.parts, p.ctx = .running → p.stopping = true) ∧
        t.parts.map (fun p => (p.low, p.ctx)) = s.parts.map (fun p => (p.low, p.ctx))) ∧
      (x < 460 ∨ s.power.crit = true →
        exec (.thermalCritical x sensor) s = .next { s with power := { s.power with tmax := x } }) ∧
      (∃ t, exec (.thermalCritClear x) s = .next t ∧ t = { s with power := t.power } ∧
        t.power = { s.power with tmax := x, crit := t.power.crit } ∧
        (t.power.crit = true ↔ s.power.crit = true ∧ 420 ≤ x))) ∧
    (∀ s : State, (∃ t, exec .resetHistoryExpiry s = .next t ∧
        t = { s with resets := { s.resets with history := t.resets.history } } ∧
        ∀ x, x ∈ t.resets.history ↔ x ∈ s.resets.history ∧ s.pll ≤ x + sec 900) ∧
      (∀ n : Fin 192, ∃ t, exec (.intermittentWindowExpiry n) s = .next t ∧ t = { s with cores := t.cores } ∧
        getCore t n.val = { getCore s n.val with intermits := (getCore t n.val).intermits } ∧
        (∀ x, x ∈ (getCore t n.val).intermits ↔ x ∈ (getCore s n.val).intermits ∧ s.pll < x + sec 86400) ∧
        ∀ m, m ≠ n.val → getCore t m = getCore s m))

/-- Switching off loses everything but fuses and flash, power-on brings every register to its Reset value, and the
wet sensor does nothing else (derived from 22_electrical_mechanical.md, 19_power_clocks_supply.md,
21_register_map.md). What log entries 1, 3, 48, 75 say is the model's choice. -/
def Obligations.PowerOnAndOff : Prop :=
  (∀ (s : State) (v : Nat) (x : Int),
      let none_ := { State.reset with pending := s.pending, fuses := s.fuses, flash := s.flash, draws := s.draws }
      let lost := fun (t : State) => t = { none_ with power := t.power } ∧ t.power.leak = s.power.leak ∧
        (let y := { t.power with rails := true, pgood := true, pwrEn := true, awaitInput := false }
         { y with l5Request := false, thermTrip := false, leak := false } = State.reset.power)
      let off := fun (o : Host.Outcome State Fault Refusal) (trip await : Bool) => ∃ t, o = .next t ∧ lost t ∧
        t.power.rails = false ∧ t.power.pgood = false ∧ t.power.pwrEn = s.power.pwrEn ∧ t.power.awaitInput = await ∧
        t.power.thermTrip = (trip || s.power.thermTrip)
      let on := fun (o : Host.Outcome State Fault Refusal) => ∃ t, o = .next t ∧ lost t ∧ t.power.rails = true ∧
        t.power.pgood = true ∧ t.power.pwrEn = true ∧ t.power.awaitInput = false
      (s.power.rails = true →
        (v < 4000 → off (exec (.inputUndervoltageOff v) s) false s.power.pwrEn) ∧
        (6200 < v → off (exec (.inputOvervoltageOff v) s) false s.power.pwrEn) ∧
        (500 ≤ x → off (exec (.thermalShutdown x) s) true false)) ∧
      (s.power.pgood = true → off (exec .railFault s) false false) ∧
      (s.power.pgood = false → exec .railFault s = .next s) ∧
      (4000 ≤ v → exec (.inputUndervoltageOff v) s = .next s) ∧
      (v ≤ 6200 ∨ s.power.rails = false → exec (.inputOvervoltageOff v) s = .next s) ∧
      (x < 500 ∨ s.power.rails = false → exec (.thermalShutdown x) s = .next s) ∧
      (s.power.pwrEn = false → s.power.rails = false → (4800 ≤ v → on (exec (.powerUp v) s)) ∧
        (v < 4800 → exec (.powerUp v) s =
          .next { s with power := { s.power with pwrEn := true, awaitInput := true } })) ∧
      (s.power.pwrEn = true → exec (.powerUp v) s = .next s) ∧
      (s.power.awaitInput = true → s.power.pwrEn = true → 4800 < v → v ≤ 6200 → on (exec (.inputReturn v) s)) ∧
      (s.power.awaitInput = false ∨ s.power.pwrEn = false ∨ v ≤ 4800 → exec (.inputReturn v) s = .next s) ∧
      (s.power.pwrEn = true → ∃ t, exec .powerDown s = .next t ∧ t.power.pwrEn = false ∧ t.power.l5Request = false ∧
        t.power.thermTrip = false ∧ t.power.awaitInput = false ∧ t.power.downAt = some s.pll ∧
        t.power.rails = s.power.rails ∧ t.flash = s.flash ∧ t.fuses = s.fuses ∧ t.cores = s.cores ∧
        (s.power.rails = true → (∀ p ∈ t.parts, p.ctx = .running → p.stopping = true ∨ s4Holds s p = true) ∧
          ((∀ p ∈ s.parts, p.ctx ≠ .running) → portsDark s = true → memoryIdle s = true →
            t.power.selfRefresh = true ∧ t.power.retention = true))) ∧
      (s.power.pwrEn = false → s.power.rails = true → ∃ t, exec .powerDown s = .next t ∧ t.cores = [] ∧ t.hbm = [] ∧
        t.lpddr = [] ∧ t.fuses = s.fuses ∧ t.flash = s.flash ∧ t.power.rails = false ∧
        t.power.pgood = false ∧ t.power.pwrEn = false ∧ t.parts = State.reset.parts) ∧
      (s.power.pwrEn = false → s.power.rails = false → exec .powerDown s = .next s) ∧
      (∀ wet, exec (.leakDetect wet) s = .next { s with power := { s.power with leak := wet } })) ∧
    (let at_ := fun (a : Nat) (wide : Bool) (v : Nat) => regAt State.reset a = some (wide, v)
     at_ 0x18 false 0 ∧ at_ 0x60 false 0x1801 ∧ at_ 0x140 true 0x47FFC00000 ∧ at_ 0x100 true 0 ∧ at_ 0x300 false 0 ∧
     at_ 0x10000 false 0 ∧ at_ 0x10008 false 0xC8 ∧ at_ 0x1000C false 0x190 ∧ at_ 0x10014 false 0x642 ∧
     at_ 0x10020 true 0x47EFC00000 ∧ at_ 0x20000 false 1 ∧ at_ 0x20004 false 0xA ∧ at_ 0x20008 false 0x2710 ∧
     (∀ k : Fin 8, at_ (0x1010 + 0x40 * k.val) false 6 ∧ at_ (0x1014 + 0x40 * k.val) false 0 ∧
       at_ (0x10040 + 4 * k.val) false (0x258 + 600 * 2 ^ 10) ∧ at_ (0x40008 + 0x1000 * k.val) false 0x64 ∧
       at_ (0x4000C + 0x1000 * k.val) false 0xFFFF ∧ at_ (0x40010 + 0x1000 * k.val) true 0) ∧
     (∀ n : Fin 192, at_ (0x1000000 + 0x10000 * n.val) false 0 ∧ at_ (0x1000020 + 0x10000 * n.val) true 0))
end

