-- ==== Sys2Proof/Laws/Tbl.lean ====
section
/-! SUPPORT. Laws of the sparse tables: read after write, other keys, and the canonical form that every table
operation keeps; then the same for byte memories. -/

namespace Sys2Proof.Machine

variable {α : Type}

/-! ### Read after write -/

@[simp] theorem tget_nil (d : α) (i : Nat) : tget d [] i = d := rfl

theorem tget_terase_same (d : α) (t : Tbl α) (i : Nat) : tget d (terase t i) i = d := by
  fun_induction terase t i <;> simp_all [tget]

theorem tget_terase_other (d : α) (t : Tbl α) {i j : Nat} (h : j ≠ i) : tget d (terase t i) j = tget d t j := by
  fun_induction terase t i <;> simp_all [tget]

theorem tget_tinsert_same (d : α) (t : Tbl α) (i : Nat) (x : α) : tget d (tinsert t i x) i = x := by
  fun_induction tinsert t i x <;> simp_all [tget]

theorem tget_tinsert_other (d : α) (t : Tbl α) {i j : Nat} (x : α) (h : j ≠ i) :
    tget d (tinsert t i x) j = tget d t j := by
  fun_induction tinsert t i x <;> simp_all [tget]

/-- Reading the key that was written gives the value written. -/
theorem tget_tset_same [DecidableEq α] (d : α) (t : Tbl α) (i : Nat) (x : α) : tget d (tset d t i x) i = x := by
  unfold tset
  split
  · next h => rw [tget_terase_same, h]
  · exact tget_tinsert_same ..

/-- Every other key reads as before. -/
theorem tget_tset_other [DecidableEq α] (d : α) (t : Tbl α) {i j : Nat} (x : α) (h : j ≠ i) :
    tget d (tset d t i x) j = tget d t j := by
  unfold tset
  split
  · exact tget_terase_other d t h
  · exact tget_tinsert_other d t x h

theorem tget_tset [DecidableEq α] (d : α) (t : Tbl α) (i j : Nat) (x : α) :
    tget d (tset d t i x) j = if j = i then x else tget d t j := by
  split
  · next h => subst h; exact tget_tset_same ..
  · next h => exact tget_tset_other d t x h

/-- A key that no written pair names reads as before. -/
theorem tget_tsetAll_other [DecidableEq α] (d : α) (xs : List (Nat × α)) (t : Tbl α) {j : Nat}
    (h : ∀ x ∈ xs, x.1 ≠ j) : tget d (tsetAll d t xs) j = tget d t j := by
  unfold tsetAll
  induction xs generalizing t with
  | nil => rfl
  | cons y ys ih =>
    simp only [List.foldl_cons]
    rw [ih _ (fun x hx => h x (List.mem_cons_of_mem _ hx))]
    exact tget_tset_other d t y.2 (h y List.mem_cons_self).symm

/-! ### The canonical form -/

theorem tsorted_cons [DecidableEq α] {d v : α} {lo k : Nat} {t : Tbl α} :
    tsorted d lo ((k, v) :: t) = true ↔ lo ≤ k ∧ v ≠ d ∧ tsorted d (k + 1) t = true := by
  simp [tsorted, and_assoc]

theorem tsorted_mono [DecidableEq α] {d : α} {lo lo' : Nat} {t : Tbl α} (hl : lo' ≤ lo) (h : tsorted d lo t = true) :
    tsorted d lo' t = true := by
  cases t with
  | nil => rfl
  | cons x t => exact tsorted_cons.2 ⟨hl.trans (tsorted_cons.1 h).1, (tsorted_cons.1 h).2⟩

theorem tsorted_terase [DecidableEq α] {d : α} {lo : Nat} {t : Tbl α} (i : Nat) (h : tsorted d lo t = true) :
    tsorted d lo (terase t i) = true := by
  fun_induction terase t i generalizing lo with
  | case1 => rfl
  | case2 k v t ih =>
    have ⟨low, _, rest⟩ := tsorted_cons.1 h
    exact ih (tsorted_mono (Nat.le_succ_of_le low) rest)
  | case3 k v t i _ ih => exact tsorted_cons.2 ((tsorted_cons.1 h).imp_right (.imp_right ih))

theorem tsorted_tinsert [DecidableEq α] {d : α} {lo : Nat} {t : Tbl α} {i : Nat} {x : α} (hx : x ≠ d) (hi : lo ≤ i)
    (h : tsorted d lo t = true) : tsorted d lo (tinsert t i x) = true := by
  fun_induction tinsert t i x generalizing lo with
  | case1 => exact tsorted_cons.2 ⟨hi, hx, rfl⟩
  | case2 i x k v t below =>
    exact tsorted_cons.2 ⟨hi, hx, tsorted_cons.2 ⟨below, (tsorted_cons.1 h).2⟩⟩
  | case3 x k v t => exact tsorted_cons.2 ⟨hi, hx, (tsorted_cons.1 h).2.2⟩
  | case4 i x k v t _ _ ih =>
    have ⟨low, listed, rest⟩ := tsorted_cons.1 h
    exact tsorted_cons.2 ⟨low, listed, ih hx (by omega) rest⟩

/-- A write keeps the canonical form. -/
theorem twf_tset [DecidableEq α] {d : α} {t : Tbl α} (i : Nat) (x : α) (h : twf d t = true) :
    twf d (tset d t i x) = true := by
  unfold twf tset at *
  split
  · exact tsorted_terase i h
  · next hx => exact tsorted_tinsert hx (Nat.zero_le _) h

theorem twf_tsetAll [DecidableEq α] {d : α} (xs : List (Nat × α)) {t : Tbl α} (h : twf d t = true) :
    twf d (tsetAll d t xs) = true := by
  unfold tsetAll
  induction xs generalizing t with
  | nil => exact h
  | cons y ys ih => exact ih (twf_tset y.1 y.2 h)

/-! ### Byte memories -/

theorem twf_writeBytes {m : Tbl Byte} (xs : List (Nat × Byte)) (h : twf 0 m = true) : twf 0 (writeBytes m xs) = true :=
  twf_tsetAll xs h

theorem twf_poke {m : Tbl Byte} (x : Poke) (h : twf 0 m = true) : twf 0 (poke m x) = true := by
  unfold poke
  split
  · exact twf_writeBytes _ h
  · exact twf_tset _ _ h

theorem twf_pokeAll (xs : List Poke) {m : Tbl Byte} (h : twf 0 m = true) : twf 0 (pokeAll m xs) = true := by
  unfold pokeAll
  induction xs generalizing m with
  | nil => exact h
  | cons y ys ih => exact ih (twf_poke y h)

end Sys2Proof.Machine
end

