-- ==== Sys2Proof/Laws/State.lean ====
section
/-! SUPPORT. What each update of a part of the state leaves of every other part: one lemma per field and update, and the
read of what was written. -/

namespace Sys2Proof.Machine

/-! ### setCore and modCore -/

@[simp] theorem setCore_pending (s : State) (n : Nat) (x : Core) : (setCore s n x).pending = s.pending := rfl
@[simp] theorem modCore_pending (s : State) (n : Nat) (g : Core → Core) :
    (modCore s n g).pending = s.pending := rfl
@[simp] theorem setCore_pll (s : State) (n : Nat) (x : Core) : (setCore s n x).pll = s.pll := rfl
@[simp] theorem modCore_pll (s : State) (n : Nat) (g : Core → Core) :
    (modCore s n g).pll = s.pll := rfl
@[simp] theorem setCore_cc (s : State) (n : Nat) (x : Core) : (setCore s n x).cc = s.cc := rfl
@[simp] theorem modCore_cc (s : State) (n : Nat) (g : Core → Core) :
    (modCore s n g).cc = s.cc := rfl
@[simp] theorem setCore_epoch (s : State) (n : Nat) (x : Core) : (setCore s n x).epoch = s.epoch := rfl
@[simp] theorem modCore_epoch (s : State) (n : Nat) (g : Core → Core) :
    (modCore s n g).epoch = s.epoch := rfl
@[simp] theorem setCore_fuses (s : State) (n : Nat) (x : Core) : (setCore s n x).fuses = s.fuses := rfl
@[simp] theorem modCore_fuses (s : State) (n : Nat) (g : Core → Core) :
    (modCore s n g).fuses = s.fuses := rfl
@[simp] theorem setCore_flash (s : State) (n : Nat) (x : Core) : (setCore s n x).flash = s.flash := rfl
@[simp] theorem modCore_flash (s : State) (n : Nat) (g : Core → Core) :
    (modCore s n g).flash = s.flash := rfl
@[simp] theorem setCore_boot (s : State) (n : Nat) (x : Core) : (setCore s n x).boot = s.boot := rfl
@[simp] theorem modCore_boot (s : State) (n : Nat) (g : Core → Core) :
    (modCore s n g).boot = s.boot := rfl
@[simp] theorem setCore_power (s : State) (n : Nat) (x : Core) : (setCore s n x).power = s.power := rfl
@[simp] theorem modCore_power (s : State) (n : Nat) (g : Core → Core) :
    (modCore s n g).power = s.power := rfl
@[simp] theorem setCore_quads (s : State) (n : Nat) (x : Core) : (setCore s n x).quads = s.quads := rfl
@[simp] theorem modCore_quads (s : State) (n : Nat) (g : Core → Core) :
    (modCore s n g).quads = s.quads := rfl
@[simp] theorem setCore_parts (s : State) (n : Nat) (x : Core) : (setCore s n x).parts = s.parts := rfl
@[simp] theorem modCore_parts (s : State) (n : Nat) (g : Core → Core) :
    (modCore s n g).parts = s.parts := rfl
@[simp] theorem setCore_casks (s : State) (n : Nat) (x : Core) : (setCore s n x).casks = s.casks := rfl
@[simp] theorem modCore_casks (s : State) (n : Nat) (g : Core → Core) :
    (modCore s n g).casks = s.casks := rfl
@[simp] theorem setCore_ports (s : State) (n : Nat) (x : Core) : (setCore s n x).ports = s.ports := rfl
@[simp] theorem modCore_ports (s : State) (n : Nat) (g : Core → Core) :
    (modCore s n g).ports = s.ports := rfl
@[simp] theorem setCore_fabric (s : State) (n : Nat) (x : Core) : (setCore s n x).fabric = s.fabric := rfl
@[simp] theorem modCore_fabric (s : State) (n : Nat) (g : Core → Core) :
    (modCore s n g).fabric = s.fabric := rfl
@[simp] theorem setCore_calCtrl (s : State) (n : Nat) (x : Core) : (setCore s n x).calCtrl = s.calCtrl := rfl
@[simp] theorem modCore_calCtrl (s : State) (n : Nat) (g : Core → Core) :
    (modCore s n g).calCtrl = s.calCtrl := rfl
@[simp] theorem setCore_reqTimeout (s : State) (n : Nat) (x : Core) : (setCore s n x).reqTimeout = s.reqTimeout := rfl
@[simp] theorem modCore_reqTimeout (s : State) (n : Nat) (g : Core → Core) :
    (modCore s n g).reqTimeout = s.reqTimeout := rfl
@[simp] theorem setCore_hbm (s : State) (n : Nat) (x : Core) : (setCore s n x).hbm = s.hbm := rfl
@[simp] theorem modCore_hbm (s : State) (n : Nat) (g : Core → Core) :
    (modCore s n g).hbm = s.hbm := rfl
@[simp] theorem setCore_lpddr (s : State) (n : Nat) (x : Core) : (setCore s n x).lpddr = s.lpddr := rfl
@[simp] theorem modCore_lpddr (s : State) (n : Nat) (g : Core → Core) :
    (modCore s n g).lpddr = s.lpddr := rfl
@[simp] theorem setCore_poisonHbm (s : State) (n : Nat) (x : Core) : (setCore s n x).poisonHbm = s.poisonHbm := rfl
@[simp] theorem modCore_poisonHbm (s : State) (n : Nat) (g : Core → Core) :
    (modCore s n g).poisonHbm = s.poisonHbm := rfl
@[simp] theorem setCore_poisonLpddr (s : State) (n : Nat) (x : Core) : (setCore s n x).poisonLpddr = s.poisonLpddr := rfl
@[simp] theorem modCore_poisonLpddr (s : State) (n : Nat) (g : Core → Core) :
    (modCore s n g).poisonLpddr = s.poisonLpddr := rfl
@[simp] theorem setCore_poisonFound (s : State) (n : Nat) (x : Core) : (setCore s n x).poisonFound = s.poisonFound := rfl
@[simp] theorem modCore_poisonFound (s : State) (n : Nat) (g : Core → Core) :
    (modCore s n g).poisonFound = s.poisonFound := rfl
@[simp] theorem setCore_eccCounts (s : State) (n : Nat) (x : Core) : (setCore s n x).eccCounts = s.eccCounts := rfl
@[simp] theorem modCore_eccCounts (s : State) (n : Nat) (g : Core → Core) :
    (modCore s n g).eccCounts = s.eccCounts := rfl
@[simp] theorem setCore_scrubCtrl (s : State) (n : Nat) (x : Core) : (setCore s n x).scrubCtrl = s.scrubCtrl := rfl
@[simp] theorem modCore_scrubCtrl (s : State) (n : Nat) (g : Core → Core) :
    (modCore s n g).scrubCtrl = s.scrubCtrl := rfl
@[simp] theorem setCore_fence (s : State) (n : Nat) (x : Core) : (setCore s n x).fence = s.fence := rfl
@[simp] theorem modCore_fence (s : State) (n : Nat) (g : Core → Core) :
    (modCore s n g).fence = s.fence := rfl
@[simp] theorem setCore_errors (s : State) (n : Nat) (x : Core) : (setCore s n x).errors = s.errors := rfl
@[simp] theorem modCore_errors (s : State) (n : Nat) (g : Core → Core) :
    (modCore s n g).errors = s.errors := rfl
@[simp] theorem setCore_rings (s : State) (n : Nat) (x : Core) : (setCore s n x).rings = s.rings := rfl
@[simp] theorem modCore_rings (s : State) (n : Nat) (g : Core → Core) :
    (modCore s n g).rings = s.rings := rfl
@[simp] theorem setCore_host (s : State) (n : Nat) (x : Core) : (setCore s n x).host = s.host := rfl
@[simp] theorem modCore_host (s : State) (n : Nat) (g : Core → Core) :
    (modCore s n g).host = s.host := rfl
@[simp] theorem setCore_resets (s : State) (n : Nat) (x : Core) : (setCore s n x).resets = s.resets := rfl
@[simp] theorem modCore_resets (s : State) (n : Nat) (g : Core → Core) :
    (modCore s n g).resets = s.resets := rfl
@[simp] theorem setCore_selfTest (s : State) (n : Nat) (x : Core) : (setCore s n x).selfTest = s.selfTest := rfl
@[simp] theorem modCore_selfTest (s : State) (n : Nat) (g : Core → Core) :
    (modCore s n g).selfTest = s.selfTest := rfl
@[simp] theorem setCore_hostSelv (s : State) (n : Nat) (x : Core) : (setCore s n x).hostSelv = s.hostSelv := rfl
@[simp] theorem modCore_hostSelv (s : State) (n : Nat) (g : Core → Core) :
    (modCore s n g).hostSelv = s.hostSelv := rfl
@[simp] theorem setCore_signals (s : State) (n : Nat) (x : Core) : (setCore s n x).signals = s.signals := rfl
@[simp] theorem modCore_signals (s : State) (n : Nat) (g : Core → Core) :
    (modCore s n g).signals = s.signals := rfl
@[simp] theorem setCore_nextSignal (s : State) (n : Nat) (x : Core) : (setCore s n x).nextSignal = s.nextSignal := rfl
@[simp] theorem modCore_nextSignal (s : State) (n : Nat) (g : Core → Core) :
    (modCore s n g).nextSignal = s.nextSignal := rfl
@[simp] theorem setCore_mesh (s : State) (n : Nat) (x : Core) : (setCore s n x).mesh = s.mesh := rfl
@[simp] theorem modCore_mesh (s : State) (n : Nat) (g : Core → Core) :
    (modCore s n g).mesh = s.mesh := rfl
@[simp] theorem setCore_nextVerdict (s : State) (n : Nat) (x : Core) : (setCore s n x).nextVerdict = s.nextVerdict := rfl
@[simp] theorem modCore_nextVerdict (s : State) (n : Nat) (g : Core → Core) :
    (modCore s n g).nextVerdict = s.nextVerdict := rfl
@[simp] theorem setCore_nextHeld (s : State) (n : Nat) (x : Core) : (setCore s n x).nextHeld = s.nextHeld := rfl
@[simp] theorem modCore_nextHeld (s : State) (n : Nat) (g : Core → Core) :
    (modCore s n g).nextHeld = s.nextHeld := rfl
@[simp] theorem setCore_abandoned (s : State) (n : Nat) (x : Core) : (setCore s n x).abandoned = s.abandoned := rfl
@[simp] theorem modCore_abandoned (s : State) (n : Nat) (g : Core → Core) :
    (modCore s n g).abandoned = s.abandoned := rfl
@[simp] theorem setCore_w1c (s : State) (n : Nat) (x : Core) : (setCore s n x).w1c = s.w1c := rfl
@[simp] theorem modCore_w1c (s : State) (n : Nat) (g : Core → Core) :
    (modCore s n g).w1c = s.w1c := rfl
@[simp] theorem setCore_w1cAt (s : State) (n : Nat) (x : Core) : (setCore s n x).w1cAt = s.w1cAt := rfl
@[simp] theorem modCore_w1cAt (s : State) (n : Nat) (g : Core → Core) :
    (modCore s n g).w1cAt = s.w1cAt := rfl
@[simp] theorem setCore_draws (s : State) (n : Nat) (x : Core) : (setCore s n x).draws = s.draws := rfl
@[simp] theorem modCore_draws (s : State) (n : Nat) (g : Core → Core) :
    (modCore s n g).draws = s.draws := rfl
@[simp] theorem getQuad_setCore (s : State) (n m : Nat) (x : Core) : getQuad (setCore s n x) m = getQuad s m := rfl
@[simp] theorem getQuad_modCore (s : State) (n m : Nat) (g : Core → Core) : getQuad (modCore s n g) m = getQuad s m := rfl
@[simp] theorem getCask_setCore (s : State) (n m : Nat) (x : Core) : getCask (setCore s n x) m = getCask s m := rfl
@[simp] theorem getCask_modCore (s : State) (n m : Nat) (g : Core → Core) : getCask (modCore s n g) m = getCask s m := rfl
@[simp] theorem getPort_setCore (s : State) (n m : Nat) (x : Core) : getPort (setCore s n x) m = getPort s m := rfl
@[simp] theorem getPort_modCore (s : State) (n m : Nat) (g : Core → Core) : getPort (modCore s n g) m = getPort s m := rfl
@[simp] theorem getRing_setCore (s : State) (n m : Nat) (x : Core) : getRing (setCore s n x) m = getRing s m := rfl
@[simp] theorem getRing_modCore (s : State) (n m : Nat) (g : Core → Core) : getRing (modCore s n g) m = getRing s m := rfl

theorem getCore_setCore (s : State) (n m : Nat) (x : Core) :
    getCore (setCore s n x) m = if m = n then x else getCore s m :=
  tget_tset ({} : Core) s.cores n m x
@[simp] theorem getCore_setCore_same (s : State) (n : Nat) (x : Core) : getCore (setCore s n x) n = x := by
  simp [getCore_setCore]
theorem getCore_modCore (s : State) (n m : Nat) (g : Core → Core) :
    getCore (modCore s n g) m = if m = n then g (getCore s n) else getCore s m := getCore_setCore s n m _
@[simp] theorem getCore_modCore_same (s : State) (n : Nat) (g : Core → Core) :
    getCore (modCore s n g) n = g (getCore s n) := by simp [getCore_modCore]

/-! ### setQuad and modQuad -/

@[simp] theorem setQuad_pending (s : State) (n : Nat) (x : Quad) : (setQuad s n x).pending = s.pending := rfl
@[simp] theorem modQuad_pending (s : State) (n : Nat) (g : Quad → Quad) :
    (modQuad s n g).pending = s.pending := rfl
@[simp] theorem setQuad_pll (s : State) (n : Nat) (x : Quad) : (setQuad s n x).pll = s.pll := rfl
@[simp] theorem modQuad_pll (s : State) (n : Nat) (g : Quad → Quad) :
    (modQuad s n g).pll = s.pll := rfl
@[simp] theorem setQuad_cc (s : State) (n : Nat) (x : Quad) : (setQuad s n x).cc = s.cc := rfl
@[simp] theorem modQuad_cc (s : State) (n : Nat) (g : Quad → Quad) :
    (modQuad s n g).cc = s.cc := rfl
@[simp] theorem setQuad_epoch (s : State) (n : Nat) (x : Quad) : (setQuad s n x).epoch = s.epoch := rfl
@[simp] theorem modQuad_epoch (s : State) (n : Nat) (g : Quad → Quad) :
    (modQuad s n g).epoch = s.epoch := rfl
@[simp] theorem setQuad_fuses (s : State) (n : Nat) (x : Quad) : (setQuad s n x).fuses = s.fuses := rfl
@[simp] theorem modQuad_fuses (s : State) (n : Nat) (g : Quad → Quad) :
    (modQuad s n g).fuses = s.fuses := rfl
@[simp] theorem setQuad_flash (s : State) (n : Nat) (x : Quad) : (setQuad s n x).flash = s.flash := rfl
@[simp] theorem modQuad_flash (s : State) (n : Nat) (g : Quad → Quad) :
    (modQuad s n g).flash = s.flash := rfl
@[simp] theorem setQuad_boot (s : State) (n : Nat) (x : Quad) : (setQuad s n x).boot = s.boot := rfl
@[simp] theorem modQuad_boot (s : State) (n : Nat) (g : Quad → Quad) :
    (modQuad s n g).boot = s.boot := rfl
@[simp] theorem setQuad_power (s : State) (n : Nat) (x : Quad) : (setQuad s n x).power = s.power := rfl
@[simp] theorem modQuad_power (s : State) (n : Nat) (g : Quad → Quad) :
    (modQuad s n g).power = s.power := rfl
@[simp] theorem setQuad_cores (s : State) (n : Nat) (x : Quad) : (setQuad s n x).cores = s.cores := rfl
@[simp] theorem modQuad_cores (s : State) (n : Nat) (g : Quad → Quad) :
    (modQuad s n g).cores = s.cores := rfl
@[simp] theorem setQuad_parts (s : State) (n : Nat) (x : Quad) : (setQuad s n x).parts = s.parts := rfl
@[simp] theorem modQuad_parts (s : State) (n : Nat) (g : Quad → Quad) :
    (modQuad s n g).parts = s.parts := rfl
@[simp] theorem setQuad_casks (s : State) (n : Nat) (x : Quad) : (setQuad s n x).casks = s.casks := rfl
@[simp] theorem modQuad_casks (s : State) (n : Nat) (g : Quad → Quad) :
    (modQuad s n g).casks = s.casks := rfl
@[simp] theorem setQuad_ports (s : State) (n : Nat) (x : Quad) : (setQuad s n x).ports = s.ports := rfl
@[simp] theorem modQuad_ports (s : State) (n : Nat) (g : Quad → Quad) :
    (modQuad s n g).ports = s.ports := rfl
@[simp] theorem setQuad_fabric (s : State) (n : Nat) (x : Quad) : (setQuad s n x).fabric = s.fabric := rfl
@[simp] theorem modQuad_fabric (s : State) (n : Nat) (g : Quad → Quad) :
    (modQuad s n g).fabric = s.fabric := rfl
@[simp] theorem setQuad_calCtrl (s : State) (n : Nat) (x : Quad) : (setQuad s n x).calCtrl = s.calCtrl := rfl
@[simp] theorem modQuad_calCtrl (s : State) (n : Nat) (g : Quad → Quad) :
    (modQuad s n g).calCtrl = s.calCtrl := rfl
@[simp] theorem setQuad_reqTimeout (s : State) (n : Nat) (x : Quad) : (setQuad s n x).reqTimeout = s.reqTimeout := rfl
@[simp] theorem modQuad_reqTimeout (s : State) (n : Nat) (g : Quad → Quad) :
    (modQuad s n g).reqTimeout = s.reqTimeout := rfl
@[simp] theorem setQuad_hbm (s : State) (n : Nat) (x : Quad) : (setQuad s n x).hbm = s.hbm := rfl
@[simp] theorem modQuad_hbm (s : State) (n : Nat) (g : Quad → Quad) :
    (modQuad s n g).hbm = s.hbm := rfl
@[simp] theorem setQuad_lpddr (s : State) (n : Nat) (x : Quad) : (setQuad s n x).lpddr = s.lpddr := rfl
@[simp] theorem modQuad_lpddr (s : State) (n : Nat) (g : Quad → Quad) :
    (modQuad s n g).lpddr = s.lpddr := rfl
@[simp] theorem setQuad_poisonHbm (s : State) (n : Nat) (x : Quad) : (setQuad s n x).poisonHbm = s.poisonHbm := rfl
@[simp] theorem modQuad_poisonHbm (s : State) (n : Nat) (g : Quad → Quad) :
    (modQuad s n g).poisonHbm = s.poisonHbm := rfl
@[simp] theorem setQuad_poisonLpddr (s : State) (n : Nat) (x : Quad) : (setQuad s n x).poisonLpddr = s.poisonLpddr := rfl
@[simp] theorem modQuad_poisonLpddr (s : State) (n : Nat) (g : Quad → Quad) :
    (modQuad s n g).poisonLpddr = s.poisonLpddr := rfl
@[simp] theorem setQuad_poisonFound (s : State) (n : Nat) (x : Quad) : (setQuad s n x).poisonFound = s.poisonFound := rfl
@[simp] theorem modQuad_poisonFound (s : State) (n : Nat) (g : Quad → Quad) :
    (modQuad s n g).poisonFound = s.poisonFound := rfl
@[simp] theorem setQuad_eccCounts (s : State) (n : Nat) (x : Quad) : (setQuad s n x).eccCounts = s.eccCounts := rfl
@[simp] theorem modQuad_eccCounts (s : State) (n : Nat) (g : Quad → Quad) :
    (modQuad s n g).eccCounts = s.eccCounts := rfl
@[simp] theorem setQuad_scrubCtrl (s : State) (n : Nat) (x : Quad) : (setQuad s n x).scrubCtrl = s.scrubCtrl := rfl
@[simp] theorem modQuad_scrubCtrl (s : State) (n : Nat) (g : Quad → Quad) :
    (modQuad s n g).scrubCtrl = s.scrubCtrl := rfl
@[simp] theorem setQuad_fence (s : State) (n : Nat) (x : Quad) : (setQuad s n x).fence = s.fence := rfl
@[simp] theorem modQuad_fence (s : State) (n : Nat) (g : Quad → Quad) :
    (modQuad s n g).fence = s.fence := rfl
@[simp] theorem setQuad_errors (s : State) (n : Nat) (x : Quad) : (setQuad s n x).errors = s.errors := rfl
@[simp] theorem modQuad_errors (s : State) (n : Nat) (g : Quad → Quad) :
    (modQuad s n g).errors = s.errors := rfl
@[simp] theorem setQuad_rings (s : State) (n : Nat) (x : Quad) : (setQuad s n x).rings = s.rings := rfl
@[simp] theorem modQuad_rings (s : State) (n : Nat) (g : Quad → Quad) :
    (modQuad s n g).rings = s.rings := rfl
@[simp] theorem setQuad_host (s : State) (n : Nat) (x : Quad) : (setQuad s n x).host = s.host := rfl
@[simp] theorem modQuad_host (s : State) (n : Nat) (g : Quad → Quad) :
    (modQuad s n g).host = s.host := rfl
@[simp] theorem setQuad_resets (s : State) (n : Nat) (x : Quad) : (setQuad s n x).resets = s.resets := rfl
@[simp] theorem modQuad_resets (s : State) (n : Nat) (g : Quad → Quad) :
    (modQuad s n g).resets = s.resets := rfl
@[simp] theorem setQuad_selfTest (s : State) (n : Nat) (x : Quad) : (setQuad s n x).selfTest = s.selfTest := rfl
@[simp] theorem modQuad_selfTest (s : State) (n : Nat) (g : Quad → Quad) :
    (modQuad s n g).selfTest = s.selfTest := rfl
@[simp] theorem setQuad_hostSelv (s : State) (n : Nat) (x : Quad) : (setQuad s n x).hostSelv = s.hostSelv := rfl
@[simp] theorem modQuad_hostSelv (s : State) (n : Nat) (g : Quad → Quad) :
    (modQuad s n g).hostSelv = s.hostSelv := rfl
@[simp] theorem setQuad_signals (s : State) (n : Nat) (x : Quad) : (setQuad s n x).signals = s.signals := rfl
@[simp] theorem modQuad_signals (s : State) (n : Nat) (g : Quad → Quad) :
    (modQuad s n g).signals = s.signals := rfl
@[simp] theorem setQuad_nextSignal (s : State) (n : Nat) (x : Quad) : (setQuad s n x).nextSignal = s.nextSignal := rfl
@[simp] theorem modQuad_nextSignal (s : State) (n : Nat) (g : Quad → Quad) :
    (modQuad s n g).nextSignal = s.nextSignal := rfl
@[simp] theorem setQuad_mesh (s : State) (n : Nat) (x : Quad) : (setQuad s n x).mesh = s.mesh := rfl
@[simp] theorem modQuad_mesh (s : State) (n : Nat) (g : Quad → Quad) :
    (modQuad s n g).mesh = s.mesh := rfl
@[simp] theorem setQuad_nextVerdict (s : State) (n : Nat) (x : Quad) : (setQuad s n x).nextVerdict = s.nextVerdict := rfl
@[simp] theorem modQuad_nextVerdict (s : State) (n : Nat) (g : Quad → Quad) :
    (modQuad s n g).nextVerdict = s.nextVerdict := rfl
@[simp] theorem setQuad_nextHeld (s : State) (n : Nat) (x : Quad) : (setQuad s n x).nextHeld = s.nextHeld := rfl
@[simp] theorem modQuad_nextHeld (s : State) (n : Nat) (g : Quad → Quad) :
    (modQuad s n g).nextHeld = s.nextHeld := rfl
@[simp] theorem setQuad_abandoned (s : State) (n : Nat) (x : Quad) : (setQuad s n x).abandoned = s.abandoned := rfl
@[simp] theorem modQuad_abandoned (s : State) (n : Nat) (g : Quad → Quad) :
    (modQuad s n g).abandoned = s.abandoned := rfl
@[simp] theorem setQuad_w1c (s : State) (n : Nat) (x : Quad) : (setQuad s n x).w1c = s.w1c := rfl
@[simp] theorem modQuad_w1c (s : State) (n : Nat) (g : Quad → Quad) :
    (modQuad s n g).w1c = s.w1c := rfl
@[simp] theorem setQuad_w1cAt (s : State) (n : Nat) (x : Quad) : (setQuad s n x).w1cAt = s.w1cAt := rfl
@[simp] theorem modQuad_w1cAt (s : State) (n : Nat) (g : Quad → Quad) :
    (modQuad s n g).w1cAt = s.w1cAt := rfl
@[simp] theorem setQuad_draws (s : State) (n : Nat) (x : Quad) : (setQuad s n x).draws = s.draws := rfl
@[simp] theorem modQuad_draws (s : State) (n : Nat) (g : Quad → Quad) :
    (modQuad s n g).draws = s.draws := rfl
@[simp] theorem getCore_setQuad (s : State) (n m : Nat) (x : Quad) : getCore (setQuad s n x) m = getCore s m := rfl
@[simp] theorem getCore_modQuad (s : State) (n m : Nat) (g : Quad → Quad) : getCore (modQuad s n g) m = getCore s m := rfl
@[simp] theorem getCask_setQuad (s : State) (n m : Nat) (x : Quad) : getCask (setQuad s n x) m = getCask s m := rfl
@[simp] theorem getCask_modQuad (s : State) (n m : Nat) (g : Quad → Quad) : getCask (modQuad s n g) m = getCask s m := rfl
@[simp] theorem getPort_setQuad (s : State) (n m : Nat) (x : Quad) : getPort (setQuad s n x) m = getPort s m := rfl
@[simp] theorem getPort_modQuad (s : State) (n m : Nat) (g : Quad → Quad) : getPort (modQuad s n g) m = getPort s m := rfl
@[simp] theorem getRing_setQuad (s : State) (n m : Nat) (x : Quad) : getRing (setQuad s n x) m = getRing s m := rfl
@[simp] theorem getRing_modQuad (s : State) (n m : Nat) (g : Quad → Quad) : getRing (modQuad s n g) m = getRing s m := rfl

theorem getQuad_setQuad (s : State) (n m : Nat) (x : Quad) :
    getQuad (setQuad s n x) m = if m = n then x else getQuad s m :=
  tget_tset ({} : Quad) s.quads n m x
@[simp] theorem getQuad_setQuad_same (s : State) (n : Nat) (x : Quad) : getQuad (setQuad s n x) n = x := by
  simp [getQuad_setQuad]
theorem getQuad_modQuad (s : State) (n m : Nat) (g : Quad → Quad) :
    getQuad (modQuad s n g) m = if m = n then g (getQuad s n) else getQuad s m := getQuad_setQuad s n m _
@[simp] theorem getQuad_modQuad_same (s : State) (n : Nat) (g : Quad → Quad) :
    getQuad (modQuad s n g) n = g (getQuad s n) := by simp [getQuad_modQuad]

/-! ### setCask and modCask -/

@[simp] theorem setCask_pending (s : State) (n : Nat) (x : Cask) : (setCask s n x).pending = s.pending := rfl
@[simp] theorem modCask_pending (s : State) (n : Nat) (g : Cask → Cask) :
    (modCask s n g).pending = s.pending := rfl
@[simp] theorem setCask_pll (s : State) (n : Nat) (x : Cask) : (setCask s n x).pll = s.pll := rfl
@[simp] theorem modCask_pll (s : State) (n : Nat) (g : Cask → Cask) :
    (modCask s n g).pll = s.pll := rfl
@[simp] theorem setCask_cc (s : State) (n : Nat) (x : Cask) : (setCask s n x).cc = s.cc := rfl
@[simp] theorem modCask_cc (s : State) (n : Nat) (g : Cask → Cask) :
    (modCask s n g).cc = s.cc := rfl
@[simp] theorem setCask_epoch (s : State) (n : Nat) (x : Cask) : (setCask s n x).epoch = s.epoch := rfl
@[simp] theorem modCask_epoch (s : State) (n : Nat) (g : Cask → Cask) :
    (modCask s n g).epoch = s.epoch := rfl
@[simp] theorem setCask_fuses (s : State) (n : Nat) (x : Cask) : (setCask s n x).fuses = s.fuses := rfl
@[simp] theorem modCask_fuses (s : State) (n : Nat) (g : Cask → Cask) :
    (modCask s n g).fuses = s.fuses := rfl
@[simp] theorem setCask_flash (s : State) (n : Nat) (x : Cask) : (setCask s n x).flash = s.flash := rfl
@[simp] theorem modCask_flash (s : State) (n : Nat) (g : Cask → Cask) :
    (modCask s n g).flash = s.flash := rfl
@[simp] theorem setCask_boot (s : State) (n : Nat) (x : Cask) : (setCask s n x).boot = s.boot := rfl
@[simp] theorem modCask_boot (s : State) (n : Nat) (g : Cask → Cask) :
    (modCask s n g).boot = s.boot := rfl
@[simp] theorem setCask_power (s : State) (n : Nat) (x : Cask) : (setCask s n x).power = s.power := rfl
@[simp] theorem modCask_power (s : State) (n : Nat) (g : Cask → Cask) :
    (modCask s n g).power = s.power := rfl
@[simp] theorem setCask_cores (s : State) (n : Nat) (x : Cask) : (setCask s n x).cores = s.cores := rfl
@[simp] theorem modCask_cores (s : State) (n : Nat) (g : Cask → Cask) :
    (modCask s n g).cores = s.cores := rfl
@[simp] theorem setCask_quads (s : State) (n : Nat) (x : Cask) : (setCask s n x).quads = s.quads := rfl
@[simp] theorem modCask_quads (s : State) (n : Nat) (g : Cask → Cask) :
    (modCask s n g).quads = s.quads := rfl
@[simp] theorem setCask_parts (s : State) (n : Nat) (x : Cask) : (setCask s n x).parts = s.parts := rfl
@[simp] theorem modCask_parts (s : State) (n : Nat) (g : Cask → Cask) :
    (modCask s n g).parts = s.parts := rfl
@[simp] theorem setCask_ports (s : State) (n : Nat) (x : Cask) : (setCask s n x).ports = s.ports := rfl
@[simp] theorem modCask_ports (s : State) (n : Nat) (g : Cask → Cask) :
    (modCask s n g).ports = s.ports := rfl
@[simp] theorem setCask_fabric (s : State) (n : Nat) (x : Cask) : (setCask s n x).fabric = s.fabric := rfl
@[simp] theorem modCask_fabric (s : State) (n : Nat) (g : Cask → Cask) :
    (modCask s n g).fabric = s.fabric := rfl
@[simp] theorem setCask_calCtrl (s : State) (n : Nat) (x : Cask) : (setCask s n x).calCtrl = s.calCtrl := rfl
@[simp] theorem modCask_calCtrl (s : State) (n : Nat) (g : Cask → Cask) :
    (modCask s n g).calCtrl = s.calCtrl := rfl
@[simp] theorem setCask_reqTimeout (s : State) (n : Nat) (x : Cask) : (setCask s n x).reqTimeout = s.reqTimeout := rfl
@[simp] theorem modCask_reqTimeout (s : State) (n : Nat) (g : Cask → Cask) :
    (modCask s n g).reqTimeout = s.reqTimeout := rfl
@[simp] theorem setCask_hbm (s : State) (n : Nat) (x : Cask) : (setCask s n x).hbm = s.hbm := rfl
@[simp] theorem modCask_hbm (s : State) (n : Nat) (g : Cask → Cask) :
    (modCask s n g).hbm = s.hbm := rfl
@[simp] theorem setCask_lpddr (s : State) (n : Nat) (x : Cask) : (setCask s n x).lpddr = s.lpddr := rfl
@[simp] theorem modCask_lpddr (s : State) (n : Nat) (g : Cask → Cask) :
    (modCask s n g).lpddr = s.lpddr := rfl
@[simp] theorem setCask_poisonHbm (s : State) (n : Nat) (x : Cask) : (setCask s n x).poisonHbm = s.poisonHbm := rfl
@[simp] theorem modCask_poisonHbm (s : State) (n : Nat) (g : Cask → Cask) :
    (modCask s n g).poisonHbm = s.poisonHbm := rfl
@[simp] theorem setCask_poisonLpddr (s : State) (n : Nat) (x : Cask) : (setCask s n x).poisonLpddr = s.poisonLpddr := rfl
@[simp] theorem modCask_poisonLpddr (s : State) (n : Nat) (g : Cask → Cask) :
    (modCask s n g).poisonLpddr = s.poisonLpddr := rfl
@[simp] theorem setCask_poisonFound (s : State) (n : Nat) (x : Cask) : (setCask s n x).poisonFound = s.poisonFound := rfl
@[simp] theorem modCask_poisonFound (s : State) (n : Nat) (g : Cask → Cask) :
    (modCask s n g).poisonFound = s.poisonFound := rfl
@[simp] theorem setCask_eccCounts (s : State) (n : Nat) (x : Cask) : (setCask s n x).eccCounts = s.eccCounts := rfl
@[simp] theorem modCask_eccCounts (s : State) (n : Nat) (g : Cask → Cask) :
    (modCask s n g).eccCounts = s.eccCounts := rfl
@[simp] theorem setCask_scrubCtrl (s : State) (n : Nat) (x : Cask) : (setCask s n x).scrubCtrl = s.scrubCtrl := rfl
@[simp] theorem modCask_scrubCtrl (s : State) (n : Nat) (g : Cask → Cask) :
    (modCask s n g).scrubCtrl = s.scrubCtrl := rfl
@[simp] theorem setCask_fence (s : State) (n : Nat) (x : Cask) : (setCask s n x).fence = s.fence := rfl
@[simp] theorem modCask_fence (s : State) (n : Nat) (g : Cask → Cask) :
    (modCask s n g).fence = s.fence := rfl
@[simp] theorem setCask_errors (s : State) (n : Nat) (x : Cask) : (setCask s n x).errors = s.errors := rfl
@[simp] theorem modCask_errors (s : State) (n : Nat) (g : Cask → Cask) :
    (modCask s n g).errors = s.errors := rfl
@[simp] theorem setCask_rings (s : State) (n : Nat) (x : Cask) : (setCask s n x).rings = s.rings := rfl
@[simp] theorem modCask_rings (s : State) (n : Nat) (g : Cask → Cask) :
    (modCask s n g).rings = s.rings := rfl
@[simp] theorem setCask_host (s : State) (n : Nat) (x : Cask) : (setCask s n x).host = s.host := rfl
@[simp] theorem modCask_host (s : State) (n : Nat) (g : Cask → Cask) :
    (modCask s n g).host = s.host := rfl
@[simp] theorem setCask_resets (s : State) (n : Nat) (x : Cask) : (setCask s n x).resets = s.resets := rfl
@[simp] theorem modCask_resets (s : State) (n : Nat) (g : Cask → Cask) :
    (modCask s n g).resets = s.resets := rfl
@[simp] theorem setCask_selfTest (s : State) (n : Nat) (x : Cask) : (setCask s n x).selfTest = s.selfTest := rfl
@[simp] theorem modCask_selfTest (s : State) (n : Nat) (g : Cask → Cask) :
    (modCask s n g).selfTest = s.selfTest := rfl
@[simp] theorem setCask_hostSelv (s : State) (n : Nat) (x : Cask) : (setCask s n x).hostSelv = s.hostSelv := rfl
@[simp] theorem modCask_hostSelv (s : State) (n : Nat) (g : Cask → Cask) :
    (modCask s n g).hostSelv = s.hostSelv := rfl
@[simp] theorem setCask_signals (s : State) (n : Nat) (x : Cask) : (setCask s n x).signals = s.signals := rfl
@[simp] theorem modCask_signals (s : State) (n : Nat) (g : Cask → Cask) :
    (modCask s n g).signals = s.signals := rfl
@[simp] theorem setCask_nextSignal (s : State) (n : Nat) (x : Cask) : (setCask s n x).nextSignal = s.nextSignal := rfl
@[simp] theorem modCask_nextSignal (s : State) (n : Nat) (g : Cask → Cask) :
    (modCask s n g).nextSignal = s.nextSignal := rfl
@[simp] theorem setCask_mesh (s : State) (n : Nat) (x : Cask) : (setCask s n x).mesh = s.mesh := rfl
@[simp] theorem modCask_mesh (s : State) (n : Nat) (g : Cask → Cask) :
    (modCask s n g).mesh = s.mesh := rfl
@[simp] theorem setCask_nextVerdict (s : State) (n : Nat) (x : Cask) : (setCask s n x).nextVerdict = s.nextVerdict := rfl
@[simp] theorem modCask_nextVerdict (s : State) (n : Nat) (g : Cask → Cask) :
    (modCask s n g).nextVerdict = s.nextVerdict := rfl
@[simp] theorem setCask_nextHeld (s : State) (n : Nat) (x : Cask) : (setCask s n x).nextHeld = s.nextHeld := rfl
@[simp] theorem modCask_nextHeld (s : State) (n : Nat) (g : Cask → Cask) :
    (modCask s n g).nextHeld = s.nextHeld := rfl
@[simp] theorem setCask_abandoned (s : State) (n : Nat) (x : Cask) : (setCask s n x).abandoned = s.abandoned := rfl
@[simp] theorem modCask_abandoned (s : State) (n : Nat) (g : Cask → Cask) :
    (modCask s n g).abandoned = s.abandoned := rfl
@[simp] theorem setCask_w1c (s : State) (n : Nat) (x : Cask) : (setCask s n x).w1c = s.w1c := rfl
@[simp] theorem modCask_w1c (s : State) (n : Nat) (g : Cask → Cask) :
    (modCask s n g).w1c = s.w1c := rfl
@[simp] theorem setCask_w1cAt (s : State) (n : Nat) (x : Cask) : (setCask s n x).w1cAt = s.w1cAt := rfl
@[simp] theorem modCask_w1cAt (s : State) (n : Nat) (g : Cask → Cask) :
    (modCask s n g).w1cAt = s.w1cAt := rfl
@[simp] theorem setCask_draws (s : State) (n : Nat) (x : Cask) : (setCask s n x).draws = s.draws := rfl
@[simp] theorem modCask_draws (s : State) (n : Nat) (g : Cask → Cask) :
    (modCask s n g).draws = s.draws := rfl
@[simp] theorem getCore_setCask (s : State) (n m : Nat) (x : Cask) : getCore (setCask s n x) m = getCore s m := rfl
@[simp] theorem getCore_modCask (s : State) (n m : Nat) (g : Cask → Cask) : getCore (modCask s n g) m = getCore s m := rfl
@[simp] theorem getQuad_setCask (s : State) (n m : Nat) (x : Cask) : getQuad (setCask s n x) m = getQuad s m := rfl
@[simp] theorem getQuad_modCask (s : State) (n m : Nat) (g : Cask → Cask) : getQuad (modCask s n g) m = getQuad s m := rfl
@[simp] theorem getPort_setCask (s : State) (n m : Nat) (x : Cask) : getPort (setCask s n x) m = getPort s m := rfl
@[simp] theorem getPort_modCask (s : State) (n m : Nat) (g : Cask → Cask) : getPort (modCask s n g) m = getPort s m := rfl
@[simp] theorem getRing_setCask (s : State) (n m : Nat) (x : Cask) : getRing (setCask s n x) m = getRing s m := rfl
@[simp] theorem getRing_modCask (s : State) (n m : Nat) (g : Cask → Cask) : getRing (modCask s n g) m = getRing s m := rfl

theorem getCask_setCask (s : State) (n m : Nat) (x : Cask) :
    getCask (setCask s n x) m = if m = n then x else getCask s m :=
  tget_tset ({} : Cask) s.casks n m x
@[simp] theorem getCask_setCask_same (s : State) (n : Nat) (x : Cask) : getCask (setCask s n x) n = x := by
  simp [getCask_setCask]
theorem getCask_modCask (s : State) (n m : Nat) (g : Cask → Cask) :
    getCask (modCask s n g) m = if m = n then g (getCask s n) else getCask s m := getCask_setCask s n m _
@[simp] theorem getCask_modCask_same (s : State) (n : Nat) (g : Cask → Cask) :
    getCask (modCask s n g) n = g (getCask s n) := by simp [getCask_modCask]

/-! ### setPort and modPort -/

@[simp] theorem setPort_pending (s : State) (n : Nat) (x : Port) : (setPort s n x).pending = s.pending := rfl
@[simp] theorem modPort_pending (s : State) (n : Nat) (g : Port → Port) :
    (modPort s n g).pending = s.pending := rfl
@[simp] theorem setPort_pll (s : State) (n : Nat) (x : Port) : (setPort s n x).pll = s.pll := rfl
@[simp] theorem modPort_pll (s : State) (n : Nat) (g : Port → Port) :
    (modPort s n g).pll = s.pll := rfl
@[simp] theorem setPort_cc (s : State) (n : Nat) (x : Port) : (setPort s n x).cc = s.cc := rfl
@[simp] theorem modPort_cc (s : State) (n : Nat) (g : Port → Port) :
    (modPort s n g).cc = s.cc := rfl
@[simp] theorem setPort_epoch (s : State) (n : Nat) (x : Port) : (setPort s n x).epoch = s.epoch := rfl
@[simp] theorem modPort_epoch (s : State) (n : Nat) (g : Port → Port) :
    (modPort s n g).epoch = s.epoch := rfl
@[simp] theorem setPort_fuses (s : State) (n : Nat) (x : Port) : (setPort s n x).fuses = s.fuses := rfl
@[simp] theorem modPort_fuses (s : State) (n : Nat) (g : Port → Port) :
    (modPort s n g).fuses = s.fuses := rfl
@[simp] theorem setPort_flash (s : State) (n : Nat) (x : Port) : (setPort s n x).flash = s.flash := rfl
@[simp] theorem modPort_flash (s : State) (n : Nat) (g : Port → Port) :
    (modPort s n g).flash = s.flash := rfl
@[simp] theorem setPort_boot (s : State) (n : Nat) (x : Port) : (setPort s n x).boot = s.boot := rfl
@[simp] theorem modPort_boot (s : State) (n : Nat) (g : Port → Port) :
    (modPort s n g).boot = s.boot := rfl
@[simp] theorem setPort_power (s : State) (n : Nat) (x : Port) : (setPort s n x).power = s.power := rfl
@[simp] theorem modPort_power (s : State) (n : Nat) (g : Port → Port) :
    (modPort s n g).power = s.power := rfl
@[simp] theorem setPort_cores (s : State) (n : Nat) (x : Port) : (setPort s n x).cores = s.cores := rfl
@[simp] theorem modPort_cores (s : State) (n : Nat) (g : Port → Port) :
    (modPort s n g).cores = s.cores := rfl
@[simp] theorem setPort_quads (s : State) (n : Nat) (x : Port) : (setPort s n x).quads = s.quads := rfl
@[simp] theorem modPort_quads (s : State) (n : Nat) (g : Port → Port) :
    (modPort s n g).quads = s.quads := rfl
@[simp] theorem setPort_parts (s : State) (n : Nat) (x : Port) : (setPort s n x).parts = s.parts := rfl
@[simp] theorem modPort_parts (s : State) (n : Nat) (g : Port → Port) :
    (modPort s n g).parts = s.parts := rfl
@[simp] theorem setPort_casks (s : State) (n : Nat) (x : Port) : (setPort s n x).casks = s.casks := rfl
@[simp] theorem modPort_casks (s : State) (n : Nat) (g : Port → Port) :
    (modPort s n g).casks = s.casks := rfl
@[simp] theorem setPort_fabric (s : State) (n : Nat) (x : Port) : (setPort s n x).fabric = s.fabric := rfl
@[simp] theorem modPort_fabric (s : State) (n : Nat) (g : Port → Port) :
    (modPort s n g).fabric = s.fabric := rfl
@[simp] theorem setPort_calCtrl (s : State) (n : Nat) (x : Port) : (setPort s n x).calCtrl = s.calCtrl := rfl
@[simp] theorem modPort_calCtrl (s : State) (n : Nat) (g : Port → Port) :
    (modPort s n g).calCtrl = s.calCtrl := rfl
@[simp] theorem setPort_reqTimeout (s : State) (n : Nat) (x : Port) : (setPort s n x).reqTimeout = s.reqTimeout := rfl
@[simp] theorem modPort_reqTimeout (s : State) (n : Nat) (g : Port → Port) :
    (modPort s n g).reqTimeout = s.reqTimeout := rfl
@[simp] theorem setPort_hbm (s : State) (n : Nat) (x : Port) : (setPort s n x).hbm = s.hbm := rfl
@[simp] theorem modPort_hbm (s : State) (n : Nat) (g : Port → Port) :
    (modPort s n g).hbm = s.hbm := rfl
@[simp] theorem setPort_lpddr (s : State) (n : Nat) (x : Port) : (setPort s n x).lpddr = s.lpddr := rfl
@[simp] theorem modPort_lpddr (s : State) (n : Nat) (g : Port → Port) :
    (modPort s n g).lpddr = s.lpddr := rfl
@[simp] theorem setPort_poisonHbm (s : State) (n : Nat) (x : Port) : (setPort s n x).poisonHbm = s.poisonHbm := rfl
@[simp] theorem modPort_poisonHbm (s : State) (n : Nat) (g : Port → Port) :
    (modPort s n g).poisonHbm = s.poisonHbm := rfl
@[simp] theorem setPort_poisonLpddr (s : State) (n : Nat) (x : Port) : (setPort s n x).poisonLpddr = s.poisonLpddr := rfl
@[simp] theorem modPort_poisonLpddr (s : State) (n : Nat) (g : Port → Port) :
    (modPort s n g).poisonLpddr = s.poisonLpddr := rfl
@[simp] theorem setPort_poisonFound (s : State) (n : Nat) (x : Port) : (setPort s n x).poisonFound = s.poisonFound := rfl
@[simp] theorem modPort_poisonFound (s : State) (n : Nat) (g : Port → Port) :
    (modPort s n g).poisonFound = s.poisonFound := rfl
@[simp] theorem setPort_eccCounts (s : State) (n : Nat) (x : Port) : (setPort s n x).eccCounts = s.eccCounts := rfl
@[simp] theorem modPort_eccCounts (s : State) (n : Nat) (g : Port → Port) :
    (modPort s n g).eccCounts = s.eccCounts := rfl
@[simp] theorem setPort_scrubCtrl (s : State) (n : Nat) (x : Port) : (setPort s n x).scrubCtrl = s.scrubCtrl := rfl
@[simp] theorem modPort_scrubCtrl (s : State) (n : Nat) (g : Port → Port) :
    (modPort s n g).scrubCtrl = s.scrubCtrl := rfl
@[simp] theorem setPort_fence (s : State) (n : Nat) (x : Port) : (setPort s n x).fence = s.fence := rfl
@[simp] theorem modPort_fence (s : State) (n : Nat) (g : Port → Port) :
    (modPort s n g).fence = s.fence := rfl
@[simp] theorem setPort_errors (s : State) (n : Nat) (x : Port) : (setPort s n x).errors = s.errors := rfl
@[simp] theorem modPort_errors (s : State) (n : Nat) (g : Port → Port) :
    (modPort s n g).errors = s.errors := rfl
@[simp] theorem setPort_rings (s : State) (n : Nat) (x : Port) : (setPort s n x).rings = s.rings := rfl
@[simp] theorem modPort_rings (s : State) (n : Nat) (g : Port → Port) :
    (modPort s n g).rings = s.rings := rfl
@[simp] theorem setPort_host (s : State) (n : Nat) (x : Port) : (setPort s n x).host = s.host := rfl
@[simp] theorem modPort_host (s : State) (n : Nat) (g : Port → Port) :
    (modPort s n g).host = s.host := rfl
@[simp] theorem setPort_resets (s : State) (n : Nat) (x : Port) : (setPort s n x).resets = s.resets := rfl
@[simp] theorem modPort_resets (s : State) (n : Nat) (g : Port → Port) :
    (modPort s n g).resets = s.resets := rfl
@[simp] theorem setPort_selfTest (s : State) (n : Nat) (x : Port) : (setPort s n x).selfTest = s.selfTest := rfl
@[simp] theorem modPort_selfTest (s : State) (n : Nat) (g : Port → Port) :
    (modPort s n g).selfTest = s.selfTest := rfl
@[simp] theorem setPort_hostSelv (s : State) (n : Nat) (x : Port) : (setPort s n x).hostSelv = s.hostSelv := rfl
@[simp] theorem modPort_hostSelv (s : State) (n : Nat) (g : Port → Port) :
    (modPort s n g).hostSelv = s.hostSelv := rfl
@[simp] theorem setPort_signals (s : State) (n : Nat) (x : Port) : (setPort s n x).signals = s.signals := rfl
@[simp] theorem modPort_signals (s : State) (n : Nat) (g : Port → Port) :
    (modPort s n g).signals = s.signals := rfl
@[simp] theorem setPort_nextSignal (s : State) (n : Nat) (x : Port) : (setPort s n x).nextSignal = s.nextSignal := rfl
@[simp] theorem modPort_nextSignal (s : State) (n : Nat) (g : Port → Port) :
    (modPort s n g).nextSignal = s.nextSignal := rfl
@[simp] theorem setPort_mesh (s : State) (n : Nat) (x : Port) : (setPort s n x).mesh = s.mesh := rfl
@[simp] theorem modPort_mesh (s : State) (n : Nat) (g : Port → Port) :
    (modPort s n g).mesh = s.mesh := rfl
@[simp] theorem setPort_nextVerdict (s : State) (n : Nat) (x : Port) : (setPort s n x).nextVerdict = s.nextVerdict := rfl
@[simp] theorem modPort_nextVerdict (s : State) (n : Nat) (g : Port → Port) :
    (modPort s n g).nextVerdict = s.nextVerdict := rfl
@[simp] theorem setPort_nextHeld (s : State) (n : Nat) (x : Port) : (setPort s n x).nextHeld = s.nextHeld := rfl
@[simp] theorem modPort_nextHeld (s : State) (n : Nat) (g : Port → Port) :
    (modPort s n g).nextHeld = s.nextHeld := rfl
@[simp] theorem setPort_abandoned (s : State) (n : Nat) (x : Port) : (setPort s n x).abandoned = s.abandoned := rfl
@[simp] theorem modPort_abandoned (s : State) (n : Nat) (g : Port → Port) :
    (modPort s n g).abandoned = s.abandoned := rfl
@[simp] theorem setPort_w1c (s : State) (n : Nat) (x : Port) : (setPort s n x).w1c = s.w1c := rfl
@[simp] theorem modPort_w1c (s : State) (n : Nat) (g : Port → Port) :
    (modPort s n g).w1c = s.w1c := rfl
@[simp] theorem setPort_w1cAt (s : State) (n : Nat) (x : Port) : (setPort s n x).w1cAt = s.w1cAt := rfl
@[simp] theorem modPort_w1cAt (s : State) (n : Nat) (g : Port → Port) :
    (modPort s n g).w1cAt = s.w1cAt := rfl
@[simp] theorem setPort_draws (s : State) (n : Nat) (x : Port) : (setPort s n x).draws = s.draws := rfl
@[simp] theorem modPort_draws (s : State) (n : Nat) (g : Port → Port) :
    (modPort s n g).draws = s.draws := rfl
@[simp] theorem getCore_setPort (s : State) (n m : Nat) (x : Port) : getCore (setPort s n x) m = getCore s m := rfl
@[simp] theorem getCore_modPort (s : State) (n m : Nat) (g : Port → Port) : getCore (modPort s n g) m = getCore s m := rfl
@[simp] theorem getQuad_setPort (s : State) (n m : Nat) (x : Port) : getQuad (setPort s n x) m = getQuad s m := rfl
@[simp] theorem getQuad_modPort (s : State) (n m : Nat) (g : Port → Port) : getQuad (modPort s n g) m = getQuad s m := rfl
@[simp] theorem getCask_setPort (s : State) (n m : Nat) (x : Port) : getCask (setPort s n x) m = getCask s m := rfl
@[simp] theorem getCask_modPort (s : State) (n m : Nat) (g : Port → Port) : getCask (modPort s n g) m = getCask s m := rfl
@[simp] theorem getRing_setPort (s : State) (n m : Nat) (x : Port) : getRing (setPort s n x) m = getRing s m := rfl
@[simp] theorem getRing_modPort (s : State) (n m : Nat) (g : Port → Port) : getRing (modPort s n g) m = getRing s m := rfl

theorem getPort_setPort (s : State) (n m : Nat) (x : Port) :
    getPort (setPort s n x) m = if m = n then x else getPort s m :=
  tget_tset ({} : Port) s.ports n m x
@[simp] theorem getPort_setPort_same (s : State) (n : Nat) (x : Port) : getPort (setPort s n x) n = x := by
  simp [getPort_setPort]
theorem getPort_modPort (s : State) (n m : Nat) (g : Port → Port) :
    getPort (modPort s n g) m = if m = n then g (getPort s n) else getPort s m := getPort_setPort s n m _
@[simp] theorem getPort_modPort_same (s : State) (n : Nat) (g : Port → Port) :
    getPort (modPort s n g) n = g (getPort s n) := by simp [getPort_modPort]

/-! ### setRing and modRing -/

@[simp] theorem setRing_pending (s : State) (n : Nat) (x : Ring) : (setRing s n x).pending = s.pending := rfl
@[simp] theorem modRing_pending (s : State) (n : Nat) (g : Ring → Ring) :
    (modRing s n g).pending = s.pending := rfl
@[simp] theorem setRing_pll (s : State) (n : Nat) (x : Ring) : (setRing s n x).pll = s.pll := rfl
@[simp] theorem modRing_pll (s : State) (n : Nat) (g : Ring → Ring) :
    (modRing s n g).pll = s.pll := rfl
@[simp] theorem setRing_cc (s : State) (n : Nat) (x : Ring) : (setRing s n x).cc = s.cc := rfl
@[simp] theorem modRing_cc (s : State) (n : Nat) (g : Ring → Ring) :
    (modRing s n g).cc = s.cc := rfl
@[simp] theorem setRing_epoch (s : State) (n : Nat) (x : Ring) : (setRing s n x).epoch = s.epoch := rfl
@[simp] theorem modRing_epoch (s : State) (n : Nat) (g : Ring → Ring) :
    (modRing s n g).epoch = s.epoch := rfl
@[simp] theorem setRing_fuses (s : State) (n : Nat) (x : Ring) : (setRing s n x).fuses = s.fuses := rfl
@[simp] theorem modRing_fuses (s : State) (n : Nat) (g : Ring → Ring) :
    (modRing s n g).fuses = s.fuses := rfl
@[simp] theorem setRing_flash (s : State) (n : Nat) (x : Ring) : (setRing s n x).flash = s.flash := rfl
@[simp] theorem modRing_flash (s : State) (n : Nat) (g : Ring → Ring) :
    (modRing s n g).flash = s.flash := rfl
@[simp] theorem setRing_boot (s : State) (n : Nat) (x : Ring) : (setRing s n x).boot = s.boot := rfl
@[simp] theorem modRing_boot (s : State) (n : Nat) (g : Ring → Ring) :
    (modRing s n g).boot = s.boot := rfl
@[simp] theorem setRing_power (s : State) (n : Nat) (x : Ring) : (setRing s n x).power = s.power := rfl
@[simp] theorem modRing_power (s : State) (n : Nat) (g : Ring → Ring) :
    (modRing s n g).power = s.power := rfl
@[simp] theorem setRing_cores (s : State) (n : Nat) (x : Ring) : (setRing s n x).cores = s.cores := rfl
@[simp] theorem modRing_cores (s : State) (n : Nat) (g : Ring → Ring) :
    (modRing s n g).cores = s.cores := rfl
@[simp] theorem setRing_quads (s : State) (n : Nat) (x : Ring) : (setRing s n x).quads = s.quads := rfl
@[simp] theorem modRing_quads (s : State) (n : Nat) (g : Ring → Ring) :
    (modRing s n g).quads = s.quads := rfl
@[simp] theorem setRing_parts (s : State) (n : Nat) (x : Ring) : (setRing s n x).parts = s.parts := rfl
@[simp] theorem modRing_parts (s : State) (n : Nat) (g : Ring → Ring) :
    (modRing s n g).parts = s.parts := rfl
@[simp] theorem setRing_casks (s : State) (n : Nat) (x : Ring) : (setRing s n x).casks = s.casks := rfl
@[simp] theorem modRing_casks (s : State) (n : Nat) (g : Ring → Ring) :
    (modRing s n g).casks = s.casks := rfl
@[simp] theorem setRing_ports (s : State) (n : Nat) (x : Ring) : (setRing s n x).ports = s.ports := rfl
@[simp] theorem modRing_ports (s : State) (n : Nat) (g : Ring → Ring) :
    (modRing s n g).ports = s.ports := rfl
@[simp] theorem setRing_fabric (s : State) (n : Nat) (x : Ring) : (setRing s n x).fabric = s.fabric := rfl
@[simp] theorem modRing_fabric (s : State) (n : Nat) (g : Ring → Ring) :
    (modRing s n g).fabric = s.fabric := rfl
@[simp] theorem setRing_calCtrl (s : State) (n : Nat) (x : Ring) : (setRing s n x).calCtrl = s.calCtrl := rfl
@[simp] theorem modRing_calCtrl (s : State) (n : Nat) (g : Ring → Ring) :
    (modRing s n g).calCtrl = s.calCtrl := rfl
@[simp] theorem setRing_reqTimeout (s : State) (n : Nat) (x : Ring) : (setRing s n x).reqTimeout = s.reqTimeout := rfl
@[simp] theorem modRing_reqTimeout (s : State) (n : Nat) (g : Ring → Ring) :
    (modRing s n g).reqTimeout = s.reqTimeout := rfl
@[simp] theorem setRing_hbm (s : State) (n : Nat) (x : Ring) : (setRing s n x).hbm = s.hbm := rfl
@[simp] theorem modRing_hbm (s : State) (n : Nat) (g : Ring → Ring) :
    (modRing s n g).hbm = s.hbm := rfl
@[simp] theorem setRing_lpddr (s : State) (n : Nat) (x : Ring) : (setRing s n x).lpddr = s.lpddr := rfl
@[simp] theorem modRing_lpddr (s : State) (n : Nat) (g : Ring → Ring) :
    (modRing s n g).lpddr = s.lpddr := rfl
@[simp] theorem setRing_poisonHbm (s : State) (n : Nat) (x : Ring) : (setRing s n x).poisonHbm = s.poisonHbm := rfl
@[simp] theorem modRing_poisonHbm (s : State) (n : Nat) (g : Ring → Ring) :
    (modRing s n g).poisonHbm = s.poisonHbm := rfl
@[simp] theorem setRing_poisonLpddr (s : State) (n : Nat) (x : Ring) : (setRing s n x).poisonLpddr = s.poisonLpddr := rfl
@[simp] theorem modRing_poisonLpddr (s : State) (n : Nat) (g : Ring → Ring) :
    (modRing s n g).poisonLpddr = s.poisonLpddr := rfl
@[simp] theorem setRing_poisonFound (s : State) (n : Nat) (x : Ring) : (setRing s n x).poisonFound = s.poisonFound := rfl
@[simp] theorem modRing_poisonFound (s : State) (n : Nat) (g : Ring → Ring) :
    (modRing s n g).poisonFound = s.poisonFound := rfl
@[simp] theorem setRing_eccCounts (s : State) (n : Nat) (x : Ring) : (setRing s n x).eccCounts = s.eccCounts := rfl
@[simp] theorem modRing_eccCounts (s : State) (n : Nat) (g : Ring → Ring) :
    (modRing s n g).eccCounts = s.eccCounts := rfl
@[simp] theorem setRing_scrubCtrl (s : State) (n : Nat) (x : Ring) : (setRing s n x).scrubCtrl = s.scrubCtrl := rfl
@[simp] theorem modRing_scrubCtrl (s : State) (n : Nat) (g : Ring → Ring) :
    (modRing s n g).scrubCtrl = s.scrubCtrl := rfl
@[simp] theorem setRing_fence (s : State) (n : Nat) (x : Ring) : (setRing s n x).fence = s.fence := rfl
@[simp] theorem modRing_fence (s : State) (n : Nat) (g : Ring → Ring) :
    (modRing s n g).fence = s.fence := rfl
@[simp] theorem setRing_errors (s : State) (n : Nat) (x : Ring) : (setRing s n x).errors = s.errors := rfl
@[simp] theorem modRing_errors (s : State) (n : Nat) (g : Ring → Ring) :
    (modRing s n g).errors = s.errors := rfl
@[simp] theorem setRing_host (s : State) (n : Nat) (x : Ring) : (setRing s n x).host = s.host := rfl
@[simp] theorem modRing_host (s : State) (n : Nat) (g : Ring → Ring) :
    (modRing s n g).host = s.host := rfl
@[simp] theorem setRing_resets (s : State) (n : Nat) (x : Ring) : (setRing s n x).resets = s.resets := rfl
@[simp] theorem modRing_resets (s : State) (n : Nat) (g : Ring → Ring) :
    (modRing s n g).resets = s.resets := rfl
@[simp] theorem setRing_selfTest (s : State) (n : Nat) (x : Ring) : (setRing s n x).selfTest = s.selfTest := rfl
@[simp] theorem modRing_selfTest (s : State) (n : Nat) (g : Ring → Ring) :
    (modRing s n g).selfTest = s.selfTest := rfl
@[simp] theorem setRing_hostSelv (s : State) (n : Nat) (x : Ring) : (setRing s n x).hostSelv = s.hostSelv := rfl
@[simp] theorem modRing_hostSelv (s : State) (n : Nat) (g : Ring → Ring) :
    (modRing s n g).hostSelv = s.hostSelv := rfl
@[simp] theorem setRing_signals (s : State) (n : Nat) (x : Ring) : (setRing s n x).signals = s.signals := rfl
@[simp] theorem modRing_signals (s : State) (n : Nat) (g : Ring → Ring) :
    (modRing s n g).signals = s.signals := rfl
@[simp] theorem setRing_nextSignal (s : State) (n : Nat) (x : Ring) : (setRing s n x).nextSignal = s.nextSignal := rfl
@[simp] theorem modRing_nextSignal (s : State) (n : Nat) (g : Ring → Ring) :
    (modRing s n g).nextSignal = s.nextSignal := rfl
@[simp] theorem setRing_mesh (s : State) (n : Nat) (x : Ring) : (setRing s n x).mesh = s.mesh := rfl
@[simp] theorem modRing_mesh (s : State) (n : Nat) (g : Ring → Ring) :
    (modRing s n g).mesh = s.mesh := rfl
@[simp] theorem setRing_nextVerdict (s : State) (n : Nat) (x : Ring) : (setRing s n x).nextVerdict = s.nextVerdict := rfl
@[simp] theorem modRing_nextVerdict (s : State) (n : Nat) (g : Ring → Ring) :
    (modRing s n g).nextVerdict = s.nextVerdict := rfl
@[simp] theorem setRing_nextHeld (s : State) (n : Nat) (x : Ring) : (setRing s n x).nextHeld = s.nextHeld := rfl
@[simp] theorem modRing_nextHeld (s : State) (n : Nat) (g : Ring → Ring) :
    (modRing s n g).nextHeld = s.nextHeld := rfl
@[simp] theorem setRing_abandoned (s : State) (n : Nat) (x : Ring) : (setRing s n x).abandoned = s.abandoned := rfl
@[simp] theorem modRing_abandoned (s : State) (n : Nat) (g : Ring → Ring) :
    (modRing s n g).abandoned = s.abandoned := rfl
@[simp] theorem setRing_w1c (s : State) (n : Nat) (x : Ring) : (setRing s n x).w1c = s.w1c := rfl
@[simp] theorem modRing_w1c (s : State) (n : Nat) (g : Ring → Ring) :
    (modRing s n g).w1c = s.w1c := rfl
@[simp] theorem setRing_w1cAt (s : State) (n : Nat) (x : Ring) : (setRing s n x).w1cAt = s.w1cAt := rfl
@[simp] theorem modRing_w1cAt (s : State) (n : Nat) (g : Ring → Ring) :
    (modRing s n g).w1cAt = s.w1cAt := rfl
@[simp] theorem setRing_draws (s : State) (n : Nat) (x : Ring) : (setRing s n x).draws = s.draws := rfl
@[simp] theorem modRing_draws (s : State) (n : Nat) (g : Ring → Ring) :
    (modRing s n g).draws = s.draws := rfl
@[simp] theorem getCore_setRing (s : State) (n m : Nat) (x : Ring) : getCore (setRing s n x) m = getCore s m := rfl
@[simp] theorem getCore_modRing (s : State) (n m : Nat) (g : Ring → Ring) : getCore (modRing s n g) m = getCore s m := rfl
@[simp] theorem getQuad_setRing (s : State) (n m : Nat) (x : Ring) : getQuad (setRing s n x) m = getQuad s m := rfl
@[simp] theorem getQuad_modRing (s : State) (n m : Nat) (g : Ring → Ring) : getQuad (modRing s n g) m = getQuad s m := rfl
@[simp] theorem getCask_setRing (s : State) (n m : Nat) (x : Ring) : getCask (setRing s n x) m = getCask s m := rfl
@[simp] theorem getCask_modRing (s : State) (n m : Nat) (g : Ring → Ring) : getCask (modRing s n g) m = getCask s m := rfl
@[simp] theorem getPort_setRing (s : State) (n m : Nat) (x : Ring) : getPort (setRing s n x) m = getPort s m := rfl
@[simp] theorem getPort_modRing (s : State) (n m : Nat) (g : Ring → Ring) : getPort (modRing s n g) m = getPort s m := rfl

theorem getRing_setRing (s : State) (n m : Nat) (x : Ring) :
    getRing (setRing s n x) m = if m = n then x else getRing s m :=
  tget_tset ({} : Ring) s.rings n m x
@[simp] theorem getRing_setRing_same (s : State) (n : Nat) (x : Ring) : getRing (setRing s n x) n = x := by
  simp [getRing_setRing]
theorem getRing_modRing (s : State) (n m : Nat) (g : Ring → Ring) :
    getRing (modRing s n g) m = if m = n then g (getRing s n) else getRing s m := getRing_setRing s n m _
@[simp] theorem getRing_modRing_same (s : State) (n : Nat) (g : Ring → Ring) :
    getRing (modRing s n g) n = g (getRing s n) := by simp [getRing_modRing]

/-! ### modPart -/

@[simp] theorem modPart_pending (s : State) (low : Nat) (g : Part → Part) : (modPart s low g).pending = s.pending := rfl
@[simp] theorem modPart_pll (s : State) (low : Nat) (g : Part → Part) : (modPart s low g).pll = s.pll := rfl
@[simp] theorem modPart_cc (s : State) (low : Nat) (g : Part → Part) : (modPart s low g).cc = s.cc := rfl
@[simp] theorem modPart_epoch (s : State) (low : Nat) (g : Part → Part) : (modPart s low g).epoch = s.epoch := rfl
@[simp] theorem modPart_fuses (s : State) (low : Nat) (g : Part → Part) : (modPart s low g).fuses = s.fuses := rfl
@[simp] theorem modPart_flash (s : State) (low : Nat) (g : Part → Part) : (modPart s low g).flash = s.flash := rfl
@[simp] theorem modPart_boot (s : State) (low : Nat) (g : Part → Part) : (modPart s low g).boot = s.boot := rfl
@[simp] theorem modPart_power (s : State) (low : Nat) (g : Part → Part) : (modPart s low g).power = s.power := rfl
@[simp] theorem modPart_cores (s : State) (low : Nat) (g : Part → Part) : (modPart s low g).cores = s.cores := rfl
@[simp] theorem modPart_quads (s : State) (low : Nat) (g : Part → Part) : (modPart s low g).quads = s.quads := rfl
@[simp] theorem modPart_casks (s : State) (low : Nat) (g : Part → Part) : (modPart s low g).casks = s.casks := rfl
@[simp] theorem modPart_ports (s : State) (low : Nat) (g : Part → Part) : (modPart s low g).ports = s.ports := rfl
@[simp] theorem modPart_fabric (s : State) (low : Nat) (g : Part → Part) : (modPart s low g).fabric = s.fabric := rfl
@[simp] theorem modPart_calCtrl (s : State) (low : Nat) (g : Part → Part) : (modPart s low g).calCtrl = s.calCtrl := rfl
@[simp] theorem modPart_reqTimeout (s : State) (low : Nat) (g : Part → Part) : (modPart s low g).reqTimeout = s.reqTimeout := rfl
@[simp] theorem modPart_hbm (s : State) (low : Nat) (g : Part → Part) : (modPart s low g).hbm = s.hbm := rfl
@[simp] theorem modPart_lpddr (s : State) (low : Nat) (g : Part → Part) : (modPart s low g).lpddr = s.lpddr := rfl
@[simp] theorem modPart_poisonHbm (s : State) (low : Nat) (g : Part → Part) : (modPart s low g).poisonHbm = s.poisonHbm := rfl
@[simp] theorem modPart_poisonLpddr (s : State) (low : Nat) (g : Part → Part) : (modPart s low g).poisonLpddr = s.poisonLpddr := rfl
@[simp] theorem modPart_poisonFound (s : State) (low : Nat) (g : Part → Part) : (modPart s low g).poisonFound = s.poisonFound := rfl
@[simp] theorem modPart_eccCounts (s : State) (low : Nat) (g : Part → Part) : (modPart s low g).eccCounts = s.eccCounts := rfl
@[simp] theorem modPart_scrubCtrl (s : State) (low : Nat) (g : Part → Part) : (modPart s low g).scrubCtrl = s.scrubCtrl := rfl
@[simp] theorem modPart_fence (s : State) (low : Nat) (g : Part → Part) : (modPart s low g).fence = s.fence := rfl
@[simp] theorem modPart_errors (s : State) (low : Nat) (g : Part → Part) : (modPart s low g).errors = s.errors := rfl
@[simp] theorem modPart_rings (s : State) (low : Nat) (g : Part → Part) : (modPart s low g).rings = s.rings := rfl
@[simp] theorem modPart_host (s : State) (low : Nat) (g : Part → Part) : (modPart s low g).host = s.host := rfl
@[simp] theorem modPart_resets (s : State) (low : Nat) (g : Part → Part) : (modPart s low g).resets = s.resets := rfl
@[simp] theorem modPart_selfTest (s : State) (low : Nat) (g : Part → Part) : (modPart s low g).selfTest = s.selfTest := rfl
@[simp] theorem modPart_hostSelv (s : State) (low : Nat) (g : Part → Part) : (modPart s low g).hostSelv = s.hostSelv := rfl
@[simp] theorem modPart_signals (s : State) (low : Nat) (g : Part → Part) : (modPart s low g).signals = s.signals := rfl
@[simp] theorem modPart_nextSignal (s : State) (low : Nat) (g : Part → Part) : (modPart s low g).nextSignal = s.nextSignal := rfl
@[simp] theorem modPart_mesh (s : State) (low : Nat) (g : Part → Part) : (modPart s low g).mesh = s.mesh := rfl
@[simp] theorem modPart_nextVerdict (s : State) (low : Nat) (g : Part → Part) : (modPart s low g).nextVerdict = s.nextVerdict := rfl
@[simp] theorem modPart_nextHeld (s : State) (low : Nat) (g : Part → Part) : (modPart s low g).nextHeld = s.nextHeld := rfl
@[simp] theorem modPart_abandoned (s : State) (low : Nat) (g : Part → Part) : (modPart s low g).abandoned = s.abandoned := rfl
@[simp] theorem modPart_w1c (s : State) (low : Nat) (g : Part → Part) : (modPart s low g).w1c = s.w1c := rfl
@[simp] theorem modPart_w1cAt (s : State) (low : Nat) (g : Part → Part) : (modPart s low g).w1cAt = s.w1cAt := rfl
@[simp] theorem modPart_draws (s : State) (low : Nat) (g : Part → Part) : (modPart s low g).draws = s.draws := rfl
@[simp] theorem getCore_modPart (s : State) (low m : Nat) (g : Part → Part) : getCore (modPart s low g) m = getCore s m := rfl
@[simp] theorem getQuad_modPart (s : State) (low m : Nat) (g : Part → Part) : getQuad (modPart s low g) m = getQuad s m := rfl
@[simp] theorem getCask_modPart (s : State) (low m : Nat) (g : Part → Part) : getCask (modPart s low g) m = getCask s m := rfl
@[simp] theorem getPort_modPart (s : State) (low m : Nat) (g : Part → Part) : getPort (modPart s low g) m = getPort s m := rfl
@[simp] theorem getRing_modPart (s : State) (low m : Nat) (g : Part → Part) : getRing (modPart s low g) m = getRing s m := rfl
/-! ### noteW1c -/

@[simp] theorem noteW1c_pending (s : State) (a b : Nat) : (noteW1c s a b).pending = s.pending := rfl
@[simp] theorem noteW1c_pll (s : State) (a b : Nat) : (noteW1c s a b).pll = s.pll := rfl
@[simp] theorem noteW1c_cc (s : State) (a b : Nat) : (noteW1c s a b).cc = s.cc := rfl
@[simp] theorem noteW1c_epoch (s : State) (a b : Nat) : (noteW1c s a b).epoch = s.epoch := rfl
@[simp] theorem noteW1c_fuses (s : State) (a b : Nat) : (noteW1c s a b).fuses = s.fuses := rfl
@[simp] theorem noteW1c_flash (s : State) (a b : Nat) : (noteW1c s a b).flash = s.flash := rfl
@[simp] theorem noteW1c_boot (s : State) (a b : Nat) : (noteW1c s a b).boot = s.boot := rfl
@[simp] theorem noteW1c_power (s : State) (a b : Nat) : (noteW1c s a b).power = s.power := rfl
@[simp] theorem noteW1c_cores (s : State) (a b : Nat) : (noteW1c s a b).cores = s.cores := rfl
@[simp] theorem noteW1c_quads (s : State) (a b : Nat) : (noteW1c s a b).quads = s.quads := rfl
@[simp] theorem noteW1c_parts (s : State) (a b : Nat) : (noteW1c s a b).parts = s.parts := rfl
@[simp] theorem noteW1c_casks (s : State) (a b : Nat) : (noteW1c s a b).casks = s.casks := rfl
@[simp] theorem noteW1c_ports (s : State) (a b : Nat) : (noteW1c s a b).ports = s.ports := rfl
@[simp] theorem noteW1c_fabric (s : State) (a b : Nat) : (noteW1c s a b).fabric = s.fabric := rfl
@[simp] theorem noteW1c_calCtrl (s : State) (a b : Nat) : (noteW1c s a b).calCtrl = s.calCtrl := rfl
@[simp] theorem noteW1c_reqTimeout (s : State) (a b : Nat) : (noteW1c s a b).reqTimeout = s.reqTimeout := rfl
@[simp] theorem noteW1c_hbm (s : State) (a b : Nat) : (noteW1c s a b).hbm = s.hbm := rfl
@[simp] theorem noteW1c_lpddr (s : State) (a b : Nat) : (noteW1c s a b).lpddr = s.lpddr := rfl
@[simp] theorem noteW1c_poisonHbm (s : State) (a b : Nat) : (noteW1c s a b).poisonHbm = s.poisonHbm := rfl
@[simp] theorem noteW1c_poisonLpddr (s : State) (a b : Nat) : (noteW1c s a b).poisonLpddr = s.poisonLpddr := rfl
@[simp] theorem noteW1c_poisonFound (s : State) (a b : Nat) : (noteW1c s a b).poisonFound = s.poisonFound := rfl
@[simp] theorem noteW1c_eccCounts (s : State) (a b : Nat) : (noteW1c s a b).eccCounts = s.eccCounts := rfl
@[simp] theorem noteW1c_scrubCtrl (s : State) (a b : Nat) : (noteW1c s a b).scrubCtrl = s.scrubCtrl := rfl
@[simp] theorem noteW1c_fence (s : State) (a b : Nat) : (noteW1c s a b).fence = s.fence := rfl
@[simp] theorem noteW1c_errors (s : State) (a b : Nat) : (noteW1c s a b).errors = s.errors := rfl
@[simp] theorem noteW1c_rings (s : State) (a b : Nat) : (noteW1c s a b).rings = s.rings := rfl
@[simp] theorem noteW1c_host (s : State) (a b : Nat) : (noteW1c s a b).host = s.host := rfl
@[simp] theorem noteW1c_resets (s : State) (a b : Nat) : (noteW1c s a b).resets = s.resets := rfl
@[simp] theorem noteW1c_selfTest (s : State) (a b : Nat) : (noteW1c s a b).selfTest = s.selfTest := rfl
@[simp] theorem noteW1c_hostSelv (s : State) (a b : Nat) : (noteW1c s a b).hostSelv = s.hostSelv := rfl
@[simp] theorem noteW1c_signals (s : State) (a b : Nat) : (noteW1c s a b).signals = s.signals := rfl
@[simp] theorem noteW1c_nextSignal (s : State) (a b : Nat) : (noteW1c s a b).nextSignal = s.nextSignal := rfl
@[simp] theorem noteW1c_mesh (s : State) (a b : Nat) : (noteW1c s a b).mesh = s.mesh := rfl
@[simp] theorem noteW1c_nextVerdict (s : State) (a b : Nat) : (noteW1c s a b).nextVerdict = s.nextVerdict := rfl
@[simp] theorem noteW1c_nextHeld (s : State) (a b : Nat) : (noteW1c s a b).nextHeld = s.nextHeld := rfl
@[simp] theorem noteW1c_abandoned (s : State) (a b : Nat) : (noteW1c s a b).abandoned = s.abandoned := rfl
@[simp] theorem noteW1c_draws (s : State) (a b : Nat) : (noteW1c s a b).draws = s.draws := rfl
@[simp] theorem getCore_noteW1c (s : State) (a b m : Nat) : getCore (noteW1c s a b) m = getCore s m := rfl
@[simp] theorem getQuad_noteW1c (s : State) (a b m : Nat) : getQuad (noteW1c s a b) m = getQuad s m := rfl
@[simp] theorem getCask_noteW1c (s : State) (a b m : Nat) : getCask (noteW1c s a b) m = getCask s m := rfl
@[simp] theorem getPort_noteW1c (s : State) (a b m : Nat) : getPort (noteW1c s a b) m = getPort s m := rfl
@[simp] theorem getRing_noteW1c (s : State) (a b m : Nat) : getRing (noteW1c s a b) m = getRing s m := rfl

/-! ### Who runs a core, and whose partition it is in, do not depend on the cores -/

@[simp] theorem partOf_setCore (s : State) (n q : Nat) (x : Core) : partOf (setCore s n x) q = partOf s q := rfl
@[simp] theorem partOf_modCore (s : State) (n q : Nat) (g : Core → Core) : partOf (modCore s n g) q = partOf s q := rfl
@[simp] theorem corePart_setCore (s : State) (n m : Nat) (x : Core) : corePart (setCore s n x) m = corePart s m := rfl
@[simp] theorem corePart_modCore (s : State) (n m : Nat) (g : Core → Core) : corePart (modCore s n g) m = corePart s m := rfl
@[simp] theorem runner_setCore (s : State) (n m : Nat) (x : Core) : runner (setCore s n x) m = runner s m := rfl
@[simp] theorem runner_modCore (s : State) (n m : Nat) (g : Core → Core) : runner (modCore s n g) m = runner s m := rfl
@[simp] theorem partOf_noteW1c (s : State) (a b q : Nat) : partOf (noteW1c s a b) q = partOf s q := rfl
@[simp] theorem corePart_noteW1c (s : State) (a b m : Nat) : corePart (noteW1c s a b) m = corePart s m := rfl
@[simp] theorem runner_noteW1c (s : State) (a b m : Nat) : runner (noteW1c s a b) m = runner s m := rfl

end Sys2Proof.Machine
end

