-- ==== Sys2Proof/Laws/Issue.lean ====
section
/-! SUPPORT. The issue of an instruction: `exec` of an instruction row is `issueWith` of its action, and `issueWith` has
the four ends of R99 to R122. -/

namespace Sys2Proof.Machine

/-! ### Updates of a core and the note of a W1C bit leave everything else alone -/

theorem onlyCores_refl (l : List Nat) (s : State) : onlyCores l s s := ⟨rfl, fun _ _ => rfl⟩

theorem onlyCores_trans {l : List Nat} {s t u : State} (h : onlyCores l s t) (k : onlyCores l t u) : onlyCores l s u := by
  obtain ⟨h, hc⟩ := h
  obtain ⟨k, kc⟩ := k
  refine ⟨?_, fun m hm => (kc m hm).trans (hc m hm)⟩
  rw [k, h]

theorem onlyCores_modCore {l : List Nat} {n : Nat} (s : State) (g : Core → Core) (hn : n ∈ l) : onlyCores l s (modCore s n g) :=
  ⟨rfl, fun m hm => by
    rw [getCore_modCore, if_neg]
    rintro rfl
    exact hm hn⟩

theorem onlyCores_noteW1c (l : List Nat) (s : State) (x b : Nat) : onlyCores l s (noteW1c s x b) := ⟨rfl, fun _ _ => rfl⟩

/-- Every instruction row issues its action under its opcode. -/
theorem exec_issue {c : Instr} {op : Nat} {i : Issue} {m : At → Action} (s : State) (hi : c.issue = some (op, i))
    (hm : actionOf c = some m) : exec c s = issueWith op i s m := by
  cases c <;> cases hi <;> cases hm <;> rfl

theorem issueWith_notDue {op : Nat} {i : Issue} {m : At → Action} {s : State} (hp : place op i s = none) :
    issueWith op i s m = .next s := by
  unfold issueWith
  rw [hp]

theorem issueWith_undefined {op : Nat} {i : Issue} {m : At → Action} {s : State} {a : At} (hp : place op i s = some a)
    (hd : opcodeDefined (fldOp a.w) = false) :
    issueWith op i s m = .next (raiseFault a.s a.p a.n a.sh (pcOf a.r a.sh) (fldOp a.w) 1 (fldOp a.w) false) := by
  unfold issueWith
  rw [hp]
  simp [hd]

theorem issueWith_fault {op : Nat} {i : Issue} {m : At → Action} {s : State} {a : At} {k d : Nat}
    (hp : place op i s = some a) (hd : opcodeDefined (fldOp a.w) = true) (hf : actionFault a (m a) = some (k, d)) :
    issueWith op i s m = .next (raiseFault (if k = 5 then (m a).onDesc.getD a.s else a.s) a.p a.n a.sh (pcOf a.r a.sh)
      (fldOp a.w) k d false) := by
  unfold issueWith
  rw [hp]
  simp [hd, hf]

theorem issueWith_off {op : Nat} {i : Issue} {m : At → Action} {s : State} {a : At} (hp : place op i s = some a)
    (hd : opcodeDefined (fldOp a.w) = true) (he : executes a = false) (hf : actionFault a (m a) = none) :
    issueWith op i s m = .next (advance (occupy ((m a).off.getD a.s) a (m a) false) a none) := by
  unfold issueWith
  rw [hp]
  simp [hd, hf, he, complete]

theorem issueWith_clean {op : Nat} {i : Issue} {m : At → Action} {s : State} {a : At} (hp : place op i s = some a)
    (hd : opcodeDefined (fldOp a.w) = true) (hc : clean a (m a)) :
    issueWith op i s m = .next (advance (occupy (m a).eff a (m a) true) a (m a).jump) := by
  obtain ⟨he, hf, hh⟩ := hc
  unfold issueWith
  rw [hp]
  simp [hd, hf, he, hh, complete]

/-- A core-wide hold stops the issue: the core loses its schedule cycle and nothing else changes (R81). -/
theorem issueWith_hold {op : Nat} {i : Issue} {m : At → Action} {s : State} {a : At} {g : Core → Core}
    (hp : place op i s = some a) (hd : opcodeDefined (fldOp a.w) = true) (he : executes a = true)
    (hf : actionFault a (m a) = none) (hh : (m a).hold = some g) :
    issueWith op i s m = .next (setCore a.s a.n { g a.c with sched := false }) := by
  unfold issueWith
  rw [hp]
  simp [hd, hf, he, hh]

/-! ### The place of an instruction -/

/-- What `place` puts together: the landed state, the core, its registers and the word. -/
theorem place_spec {op : Nat} {i : Issue} {s : State} {a : At} (h : place op i s = some a) :
    a.s = landAll s i.core.val ∧ a.n = i.core.val ∧ a.sh = i.sh ∧ a.w = i.word ∧ a.ups = i.ups ∧
    a.c = getCore a.s a.n ∧ a.r = getRegs a.s a.n ∧ corePart a.s a.n = some a.p ∧ logicalOf a.p a.n = some a.lc ∧
    issueDue a.p a.c a.r a.s.cc a.sh a.w = true := by
  cases hp : corePart (landAll s i.core.val) i.core.val with
  | none => simp [place, hp] at h
  | some p =>
    cases hl : logicalOf p i.core.val with
    | none => simp [place, hp, hl] at h
    | some lc =>
      simp only [place, hp, hl, Bool.and_eq_true, Option.ite_none_right_eq_some, Option.some.injEq] at h
      have ⟨due, placed⟩ := h
      subst placed
      simp [hp, hl, due.2]

/-! ### Registers and shuttles after an update -/

@[simp] theorem runner_setRegs (s : State) (n m : Nat) (r : RegFile) : runner (setRegs s n r) m = runner s m := by
  unfold setRegs
  split <;> rfl

/-- The registers of an identity read as they were written. -/
@[simp] theorem getRegs_setRegs (s : State) (n : Nat) (r : RegFile) : getRegs (setRegs s n r) n = r := by
  unfold getRegs
  rw [runner_setRegs]
  unfold setRegs
  split <;> simp

@[simp] theorem pcOf_setPc (r : RegFile) (sh : Shuttle) (v : Word) : pcOf (setPc r sh v) sh = v := by
  cases sh <;> rfl

theorem pcOf_setPc_other (r : RegFile) {sh sh' : Shuttle} (v : Word) (h : sh' ≠ sh) :
    pcOf (setPc r sh v) sh' = pcOf r sh' := by
  cases sh <;> cases sh' <;> first | exact absurd rfl h | rfl

@[simp] theorem shOf_setSh (c : Core) (sh : Shuttle) (x : Sh) : shOf (setSh c sh x) sh = x := by
  cases sh <;> rfl

theorem shOf_setSh_other (c : Core) {sh sh' : Shuttle} (x : Sh) (h : sh' ≠ sh) : shOf (setSh c sh x) sh' = shOf c sh' := by
  cases sh <;> cases sh' <;> first | exact absurd rfl h | rfl

@[simp] theorem shOf_modSh (c : Core) (sh : Shuttle) (g : Sh → Sh) : shOf (modSh c sh g) sh = g (shOf c sh) :=
  shOf_setSh ..

theorem shOf_modSh_other (c : Core) {sh sh' : Shuttle} (g : Sh → Sh) (h : sh' ≠ sh) :
    shOf (modSh c sh g) sh' = shOf c sh' := shOf_setSh_other _ _ h

/-- A change of one shuttle leaves the rest of its core. -/
@[simp] theorem modSh_regs (c : Core) (sh : Shuttle) (g : Sh → Sh) : (modSh c sh g).regs = c.regs := by cases sh <;> rfl
@[simp] theorem modSh_spare (c : Core) (sh : Shuttle) (g : Sh → Sh) : (modSh c sh g).spare = c.spare := by cases sh <;> rfl
@[simp] theorem modSh_store (c : Core) (sh : Shuttle) (g : Sh → Sh) : (modSh c sh g).store = c.store := by cases sh <;> rfl
@[simp] theorem modSh_tun (c : Core) (sh : Shuttle) (g : Sh → Sh) : (modSh c sh g).tun = c.tun := by cases sh <;> rfl
@[simp] theorem modSh_desc (c : Core) (sh : Shuttle) (g : Sh → Sh) : (modSh c sh g).desc = c.desc := by cases sh <;> rfl
@[simp] theorem modSh_sems (c : Core) (sh : Shuttle) (g : Sh → Sh) : (modSh c sh g).sems = c.sems := by cases sh <;> rfl
@[simp] theorem modSh_flight (c : Core) (sh : Shuttle) (g : Sh → Sh) : (modSh c sh g).flight = c.flight := by
  cases sh <;> rfl
@[simp] theorem modSh_queues (c : Core) (sh : Shuttle) (g : Sh → Sh) : (modSh c sh g).queues = c.queues := by
  cases sh <;> rfl
@[simp] theorem modSh_cycle (c : Core) (sh : Shuttle) (g : Sh → Sh) : (modSh c sh g).cycle = c.cycle := by cases sh <;> rfl

/-- A register write leaves every shuttle. -/
theorem shOf_setRegs (s : State) (n m : Nat) (r : RegFile) (sh : Shuttle) :
    shOf (getCore (setRegs s n r) m) sh = shOf (getCore s m) sh := by
  unfold setRegs
  split <;> (rw [getCore_modCore]; split <;> (try subst_vars) <;> cases sh <;> rfl)

@[simp] theorem pll_setRegs (s : State) (n : Nat) (r : RegFile) : (setRegs s n r).pll = s.pll := by
  unfold setRegs
  split <;> rfl

/-- What `advance` does to the shuttle that issued. -/
theorem advance_shuttle (s : State) (a : At) (target : Option Nat) :
    shOf (getCore (advance s a target) a.n) a.sh =
      { shOf (getCore s a.n) a.sh with
        last := a.c.cycle, resumed := false, progress := (shOf (getCore s a.n) a.sh).progress + (if (shOf (getCore s a.n) a.sh).resumed then 0 else 1), progressAt := s.pll } := by
  unfold advance
  simp only [getCore_modCore_same, shOf_modSh, shOf_setRegs, pll_setRegs]

/-- A change of a shuttle leaves every identity's registers. -/
@[simp] theorem getRegs_modSh (s : State) (n m : Nat) (sh : Shuttle) (g : Sh → Sh) :
    getRegs (modCore s n (fun c => modSh c sh g)) m = getRegs s m := by
  unfold getRegs
  rw [runner_modCore]
  split <;> (rw [getCore_modCore]; split)
  · next h => rw [modSh_regs, h]
  · rfl
  · next h => rw [modSh_spare, h]
  · rfl

/-- What `advance` does to the program counter. -/
theorem advance_pc (s : State) (a : At) (target : Option Nat) :
    pcOf (getRegs (advance s a target) a.n) a.sh =
      match target with
      | some t => BitVec.ofNat 32 t
      | none => pcOf a.r a.sh + 1 := by
  unfold advance
  cases target <;> simp only [getRegs_modSh, getRegs_setRegs, pcOf_setPc]

end Sys2Proof.Machine
end

