-- ==== Sys2Proof/Laws/Kept.lean ====
section
/-! SUPPORT. The relation `Kept`: reflexive, transitive, closed under every update that leaves the seven fields it reads
alone, and under folds. -/

set_option linter.unusedTactic false
set_option linter.unreachableTactic false

namespace Sys2Proof.Machine

theorem fusedSame_of {s t : State} (h : t.fuses = s.fuses) : fusedSame s t := by simp [fusedSame, h]

theorem fusedSame_trans {s t u : State} (h : fusedSame s t) (k : fusedSame t u) : fusedSame s u := by
  simp_all [fusedSame]

theorem Kept.refl (s : State) : Kept s s :=
  ⟨rfl, fusedSame_of rfl, Nat.le_refl _, Nat.le_refl _, id, id, id⟩

theorem Kept.trans {s t u : State} (h : Kept s t) (k : Kept t u) : Kept s u :=
  have ⟨queue, fuse, svn, draw, mem, modes, errs⟩ := h
  ⟨k.1.trans queue, fusedSame_trans fuse k.2.1, svn.trans k.2.2.1, draw.trans k.2.2.2.1,
    k.2.2.2.2.1 ∘ mem, k.2.2.2.2.2.1 ∘ modes, k.2.2.2.2.2.2 ∘ errs⟩

/-- A state that agrees on the fields that `Kept` reads. -/
theorem Kept.of_fields {s t : State} (h1 : t.pending = s.pending) (h2 : t.fuses = s.fuses) (h3 : t.draws = s.draws)
    (h4 : t.hbm = s.hbm) (h5 : t.lpddr = s.lpddr) (h6 : t.power = s.power) (h7 : t.errors = s.errors) : Kept s t := by
  unfold Kept memWf
  rw [h1, h2, h3, h4, h5, h6, h7]
  exact ⟨rfl, fusedSame_of h2, Nat.le_refl _, Nat.le_refl _, id, id, id⟩

/-- An update that leaves those fields alone. -/
theorem kept_mk {z s : State} {pll : Nat} {cc : Nat} {epoch : Dword} {flash : Flash} {boot : Boot} {cores : Tbl Core} {quads : Tbl
    Quad} {parts : List Part} {casks : Tbl Cask} {ports : Tbl Port} {fabric : Word} {calCtrl : Word}
    {reqTimeout : Word} {poisonHbm : List Nat} {poisonLpddr : List Nat} {poisonFound : List (Tier × Nat)}
    {eccCounts : Tbl Dword} {scrubCtrl : Word} {fence : BitVec 192} {rings : Tbl Ring} {host : HostIf}
    {resets : ResetLog} {selfTest : SelfTest} {hostSelv : HostSelv} {signals : List Signal} {nextSignal :
    Nat} {mesh : List Rx} {nextVerdict : Nat} {nextHeld : Nat} {abandoned : List Abandoned}
    {w1c : List (Nat × Nat)} {w1cAt : Nat}
    (h : Kept z s) :
    Kept z (State.mk s.pending pll cc epoch s.fuses flash boot s.power cores quads parts casks ports fabric calCtrl
      reqTimeout s.hbm s.lpddr poisonHbm poisonLpddr poisonFound eccCounts scrubCtrl fence s.errors rings
      host resets selfTest hostSelv signals nextSignal mesh nextVerdict nextHeld abandoned w1c w1cAt s.draws) :=
  h.trans (Kept.of_fields rfl rfl rfl rfl rfl rfl rfl)

/-- The same as a rewriting step: it fires on a record update and on nothing else. -/
theorem kept_upd {z s : State} {pll : Nat} {cc : Nat} {epoch : Dword} {flash : Flash} {boot : Boot} {cores : Tbl Core} {quads : Tbl
    Quad} {parts : List Part} {casks : Tbl Cask} {ports : Tbl Port} {fabric : Word} {calCtrl : Word}
    {reqTimeout : Word} {poisonHbm : List Nat} {poisonLpddr : List Nat} {poisonFound : List (Tier × Nat)}
    {eccCounts : Tbl Dword} {scrubCtrl : Word} {fence : BitVec 192} {rings : Tbl Ring} {host : HostIf}
    {resets : ResetLog} {selfTest : SelfTest} {hostSelv : HostSelv} {signals : List Signal} {nextSignal :
    Nat} {mesh : List Rx} {nextVerdict : Nat} {nextHeld : Nat} {abandoned : List Abandoned}
    {w1c : List (Nat × Nat)} {w1cAt : Nat} :
    Kept z (State.mk s.pending pll cc epoch s.fuses flash boot s.power cores quads parts casks ports fabric calCtrl
      reqTimeout s.hbm s.lpddr poisonHbm poisonLpddr poisonFound eccCounts scrubCtrl fence s.errors rings
      host resets selfTest hostSelv signals nextSignal mesh nextVerdict nextHeld abandoned w1c w1cAt s.draws) = Kept z s :=
  propext ⟨fun h => h.trans (Kept.of_fields rfl rfl rfl rfl rfl rfl rfl), kept_mk⟩

theorem kept_errTail {z s : State} (b : Dword) (h : Kept z s) :
    Kept z { s with errors := { s.errors with tail := b } } := h.trans
  ⟨rfl, fusedSame_of rfl, Nat.le_refl _, Nat.le_refl _, id, id, id⟩

theorem kept_powerRefresh {z s : State} (h : Kept z s) :
    Kept z { s with power := { s.power with selfRefresh := true } } := h.trans
  ⟨rfl, fusedSame_of rfl, Nat.le_refl _, Nat.le_refl _, id, id, id⟩

theorem kept_ite {z a b : State} {c : Prop} [Decidable c] (ha : Kept z a) (hb : Kept z b) :
    Kept z (if c then a else b) := by
  split
  · exact ha
  · exact hb

theorem legalModes_of {p q : Power} (h1 : q.divHost = p.divHost) (h2 : q.divTherm = p.divTherm)
    (h3 : q.divNow = p.divNow) (h4 : q.stage = p.stage) (hp : legalModes p = true) : legalModes q = true := by
  unfold legalModes at *
  rw [h1, h2, h3, h4]
  exact hp

theorem boundedErrors_of {e f : Errors} (h1 : f.store = e.store) (h2 : f.table = e.table)
    (he : boundedErrors e = true) : boundedErrors f = true := by
  unfold boundedErrors at *
  rw [h1, h2]
  exact he

/-- An update of those fields within the legal range. -/
theorem kept_legal {z s : State} {pll : Nat} {cc : Nat} {epoch : Dword} {flash : Flash} {boot : Boot} {power : Power} {cores : Tbl Core}
    {quads : Tbl Quad} {parts : List Part} {casks : Tbl Cask} {ports : Tbl Port} {fabric : Word} {calCtrl :
    Word} {reqTimeout : Word} {poisonHbm : List Nat} {poisonLpddr : List Nat} {poisonFound : List (Tier ×
    Nat)} {eccCounts : Tbl Dword} {scrubCtrl : Word} {fence : BitVec 192} {errors : Errors} {rings : Tbl
    Ring} {host : HostIf} {resets : ResetLog} {selfTest : SelfTest} {hostSelv : HostSelv} {signals : List
    Signal} {nextSignal : Nat} {mesh : List Rx} {nextVerdict : Nat} {nextHeld : Nat} {abandoned : List
    Abandoned}
    {w1c : List (Nat × Nat)} {w1cAt : Nat} {draws : Nat}
    (hd : s.draws ≤ draws) (hp : legalModes s.power = true → legalModes power = true)
    (he : boundedErrors s.errors = true → boundedErrors errors = true) (h : Kept z s) :
    Kept z (State.mk s.pending pll cc epoch s.fuses flash boot power cores quads parts casks ports fabric calCtrl
      reqTimeout s.hbm s.lpddr poisonHbm poisonLpddr poisonFound eccCounts scrubCtrl fence errors rings
      host resets selfTest hostSelv signals nextSignal mesh nextVerdict nextHeld abandoned w1c w1cAt draws) :=
  h.trans ⟨rfl, fusedSame_of rfl, Nat.le_refl _, hd, id, hp, he⟩

theorem kept_foldl {α : Type} {z : State} (f : State → α → State) (hf : ∀ t x, Kept z t → Kept z (f t x)) :
    ∀ (l : List α) (s : State), Kept z s → Kept z (l.foldl f s)
  | [], _, h => h
  | x :: l, s, h => kept_foldl f hf l (f s x) (hf s x h)

/-- The state that a cask's handling of a frame leaves. -/
def caskState : CaskEnd → State
  | .acted s => s
  | .hold s _ => s

@[simp] theorem caskState_acted (s : State) : caskState (.acted s) = s := rfl
@[simp] theorem caskState_hold (s : State) (f : Frame) : caskState (.hold s f) = s := rfl

theorem keptO_next {z t : State} (h : Kept z t) : KeptO z (.next t) := by
  intro u hu
  cases hu
  exact h

theorem keptO_fault (z : State) (e : Fault) : KeptO z (.fault e) := by
  intro u hu
  cases hu

theorem keptA_eff {s : State} {x : Action} (h : Kept s x.eff) (h2 : x.off = none) (h3 : x.onDesc = none) :
    KeptA s x := by
  refine ⟨h, ?_, ?_⟩
  · intro t ht; rw [h2] at ht; cases ht
  · intro t ht; rw [h3] at ht; cases ht

/-! ### The updates of a part -/

theorem kept_setCore {z s : State} (n : Nat) (x : Core) (h : Kept z s) : Kept z (setCore s n x) :=
  h.trans (Kept.of_fields rfl rfl rfl rfl rfl rfl rfl)
theorem kept_modCore {z s : State} (n : Nat) (g : Core → Core) (h : Kept z s) : Kept z (modCore s n g) :=
  kept_setCore n _ h
theorem kept_setQuad {z s : State} (n : Nat) (x : Quad) (h : Kept z s) : Kept z (setQuad s n x) :=
  h.trans (Kept.of_fields rfl rfl rfl rfl rfl rfl rfl)
theorem kept_modQuad {z s : State} (n : Nat) (g : Quad → Quad) (h : Kept z s) : Kept z (modQuad s n g) :=
  kept_setQuad n _ h
theorem kept_setCask {z s : State} (n : Nat) (x : Cask) (h : Kept z s) : Kept z (setCask s n x) :=
  h.trans (Kept.of_fields rfl rfl rfl rfl rfl rfl rfl)
theorem kept_modCask {z s : State} (n : Nat) (g : Cask → Cask) (h : Kept z s) : Kept z (modCask s n g) :=
  kept_setCask n _ h
theorem kept_setPort {z s : State} (n : Nat) (x : Port) (h : Kept z s) : Kept z (setPort s n x) :=
  h.trans (Kept.of_fields rfl rfl rfl rfl rfl rfl rfl)
theorem kept_modPort {z s : State} (n : Nat) (g : Port → Port) (h : Kept z s) : Kept z (modPort s n g) :=
  kept_setPort n _ h
theorem kept_setRing {z s : State} (n : Nat) (x : Ring) (h : Kept z s) : Kept z (setRing s n x) :=
  h.trans (Kept.of_fields rfl rfl rfl rfl rfl rfl rfl)
theorem kept_modRing {z s : State} (n : Nat) (g : Ring → Ring) (h : Kept z s) : Kept z (modRing s n g) :=
  kept_setRing n _ h

end Sys2Proof.Machine
end

