-- ==== Sys2Proof/Laws/KeptOps.lean ====
section
/-! SUPPORT. What the operations of Machine/Ops.lean keep: `Kept` of each, from that of the operations it uses. -/

namespace Sys2Proof.Machine

theorem kept_modChan {z s : State} (port peer : Nat) (g : Chan → Chan) (h : Kept z s) : Kept z (modChan s port peer
    g) := by
  unfold modChan
  try dsimp only
  repeat' (first
    | with_reducible assumption | with_reducible apply kept_modPort | simp only [kept_upd])

theorem kept_modPart {z s : State} (low : Nat) (g : Part → Part) (h : Kept z s) : Kept z (modPart s low g) := by
  unfold modPart
  try dsimp only
  repeat' (first
    | with_reducible assumption | simp only [kept_upd])

theorem kept_modPartQuads {z s : State} (p : Part) (g : Quad → Quad) (h : Kept z s) : Kept z (modPartQuads s p g) :=
    by
  unfold modPartQuads
  try dsimp only
  repeat' (first
    | with_reducible assumption | with_reducible apply kept_modQuad | simp only [kept_upd] | split
    | with_reducible refine kept_foldl _ (fun _ _ _ => ?_) _ _ ?_)

theorem kept_wakeMemory {z s : State} (h : Kept z s) : Kept z (wakeMemory s) := by
  unfold wakeMemory
  try dsimp only
  repeat' (first
    | with_reducible assumption | simp only [kept_upd] | split
    | with_reducible refine kept_foldl _ (fun _ _ _ => ?_) _ _ ?_ | exact Nat.le_refl _
    | exact fun hp => legalModes_of rfl rfl rfl rfl hp | exact fun he => boundedErrors_of rfl rfl he
    | apply kept_legal)

theorem kept_bumpCore {z s : State} (core off n : Nat) (h : Kept z s) : Kept z (bumpCore s core off n) := by
  unfold bumpCore
  try dsimp only
  repeat' (first
    | with_reducible assumption | with_reducible apply kept_modCore | simp only [kept_upd])

theorem kept_bumpCask {z s : State} (k off n : Nat) (h : Kept z s) : Kept z (bumpCask s k off n) := by
  unfold bumpCask
  try dsimp only
  repeat' (first
    | with_reducible assumption | with_reducible apply kept_modCask | simp only [kept_upd])

theorem kept_bumpPort {z s : State} (k off n : Nat) (h : Kept z s) : Kept z (bumpPort s k off n) := by
  unfold bumpPort
  try dsimp only
  repeat' (first
    | with_reducible assumption | with_reducible apply kept_modPort | simp only [kept_upd])

end Sys2Proof.Machine
end

