-- ==== Sys2Proof/Laws/KeptRecords.lean ====
section
/-! SUPPORT. What the operations of Machine/Records.lean keep: `Kept` of each, from that of the operations it uses. -/

namespace Sys2Proof.Machine

theorem kept_noteW1c {z s : State} (a b : Nat) (h : Kept z s) : Kept z (noteW1c s a b) := by
  unfold noteW1c
  try dsimp only
  repeat' (first
    | with_reducible assumption | simp only [kept_upd] | with_reducible apply kept_ite
    | with_reducible refine kept_foldl _ (fun _ _ _ => ?_) _ _ ?_ | with_reducible exact id
    | exact Nat.le_refl _ | exact fun hp => legalModes_of rfl rfl rfl rfl hp
    | exact fun he => boundedErrors_of rfl rfl he | split | intro _ | dsimp only | assumption | omega
    | (intro he; simp only [legalModes, boundedErrors] at he ⊢; with_reducible exact he)
    | (simp only [legalModes, boundedErrors, Bool.and_eq_true, decide_eq_true_eq] at *; omega)
    | apply kept_legal)

theorem kept_raiseVector {z s : State} (v : Nat) (h : Kept z s) : Kept z (raiseVector s v) := by
  unfold raiseVector
  try dsimp only
  repeat' (first
    | with_reducible assumption | simp only [kept_upd] | split)

theorem kept_partVector {z s : State} (low k : Nat) (h : Kept z s) : Kept z (partVector s low k) := by
  unfold partVector
  try dsimp only
  repeat' (first
    | with_reducible assumption | with_reducible apply kept_raiseVector | simp only [kept_upd])

theorem kept_copyOldest {z s : State} (h : Kept z s) : Kept z (copyOldest s) := by
  unfold copyOldest
  split
  · exact h
  · next r rest hs =>
    apply kept_raiseVector
    refine h.trans ⟨rfl, fusedSame_of rfl, Nat.le_refl _, Nat.le_refl _, fun hm => ?_, id, fun he => ?_⟩
    · simp only [memWf, Bool.and_eq_true] at hm ⊢
      exact ⟨twf_writeBytes _ hm.1, hm.2⟩
    · simp only [boundedErrors, Bool.and_eq_true, decide_eq_true_eq] at he ⊢
      rw [hs] at he
      exact ⟨Nat.le_of_succ_le he.1, he.2⟩

theorem coalesce_length {r : Record} {t u : List (Record × Nat × Nat × Bool)} (h : coalesce r t = some u)
    (ht : t.length ≤ 256) : u.length ≤ 256 := by
  unfold coalesce at h
  dsimp only at h
  split at h
  · cases h; simpa using ht
  · split at h
    · cases h; simp; omega
    · cases h

theorem kept_record {z s0 : State} (r : RecIn) (h : Kept z s0) : Kept z (record s0 r) := by
  unfold record
  extract_lets rec_ e s s'
  have hs : Kept z s := kept_legal (Nat.le_add_right _ 2) id id h
  have hs' : Kept z s' := by
    show Kept z (if _ then s else copyOldest s)
    split
    · exact hs
    · exact kept_copyOldest hs
  split
  · next hl =>
    refine kept_legal (Nat.le_refl _) id (fun he => ?_) hs'
    simp only [boundedErrors, Bool.and_eq_true, decide_eq_true_eq] at he ⊢
    exact ⟨by rw [List.length_append]; exact Nat.succ_le_of_lt hl, he.2⟩
  · split
    · next t ht =>
      refine kept_legal (Nat.le_refl _) id (fun he => ?_) hs'
      simp only [boundedErrors, Bool.and_eq_true, decide_eq_true_eq] at he ⊢
      exact ⟨he.1, coalesce_length ht he.2⟩
    · exact kept_legal (Nat.le_refl _) id id hs'

theorem kept_mapCores {z s : State} (g : Core → Core) (h : Kept z s) : Kept z (mapCores s g) := by
  unfold mapCores
  try dsimp only
  repeat' (first
    | with_reducible assumption | simp only [kept_upd])

theorem kept_resolveVerdict {z s : State} (id : Nat) (pass : Bool) (h : Kept z s) : Kept z (resolveVerdict s id
    pass) := by
  unfold resolveVerdict
  try dsimp only
  repeat' (first
    | with_reducible assumption | with_reducible apply kept_mapCores | simp only [kept_upd])

theorem kept_returnToLeft {z s : State} (core : Nat) (h : Kept z s) : Kept z (returnToLeft s core) := by
  unfold returnToLeft
  try dsimp only
  repeat' (first
    | with_reducible assumption | simp only [kept_upd])

theorem kept_fenceInContext {z s : State} (core : Nat) (h : Kept z s) : Kept z (fenceInContext s core) := by
  unfold fenceInContext
  try dsimp only
  repeat' (first
    | with_reducible assumption | with_reducible apply kept_record | with_reducible apply kept_partVector
    | with_reducible apply kept_modPart | with_reducible apply kept_returnToLeft
    | with_reducible apply kept_modQuad | simp only [kept_upd] | split)

theorem kept_fenceFor {z s : State} (core cause : Nat) (storage : Bool) (h : Kept z s) : Kept z (fenceFor s core
    cause storage) := by
  unfold fenceFor
  try dsimp only
  repeat' (first
    | with_reducible assumption | with_reducible apply kept_modCore | with_reducible apply kept_noteW1c
    | with_reducible apply kept_record | with_reducible apply kept_fenceInContext | simp only [kept_upd]
    | with_reducible apply kept_ite | with_reducible refine kept_foldl _ (fun _ _ _ => ?_) _ _ ?_
    | with_reducible exact id | exact Nat.le_refl _ | exact fun hp => legalModes_of rfl rfl rfl rfl hp
    | exact fun he => boundedErrors_of rfl rfl he | split | intro _ | dsimp only | assumption | omega
    | (intro he; simp only [legalModes, boundedErrors] at he ⊢; with_reducible exact he)
    | (simp only [legalModes, boundedErrors, Bool.and_eq_true, decide_eq_true_eq] at *; omega)
    | apply kept_legal)

theorem kept_fenceCore {z s : State} (core cause : Nat) (h : Kept z s) : Kept z (fenceCore s core cause) := by
  unfold fenceCore
  try dsimp only
  repeat' (first
    | with_reducible assumption | with_reducible apply kept_fenceFor | simp only [kept_upd] | split)

theorem kept_intermittent {z s : State} (core : Nat) (storage : Bool) (h : Kept z s) : Kept z (intermittent s core
    storage) := by
  unfold intermittent
  try dsimp only
  repeat' (first
    | with_reducible assumption | with_reducible apply kept_modCore | with_reducible apply kept_fenceFor
    | simp only [kept_upd] | split)

end Sys2Proof.Machine
end

