-- ==== Sys2Proof/Laws/KeptIssue.lean ====
section
/-! SUPPORT. What the operations of Machine/Issue.lean keep: `Kept` of each, from that of the operations it uses. -/

namespace Sys2Proof.Machine

theorem kept_setRegs {z s : State} (n : Nat) (r : RegFile) (h : Kept z s) : Kept z (setRegs s n r) := by
  unfold setRegs
  try dsimp only
  repeat' (first
    | with_reducible assumption | with_reducible apply kept_modCore | simp only [kept_upd] | split)

theorem kept_performAccess {z s : State} (n : Nat) (sh : Shuttle) (id : Nat) (h : Kept z s) : Kept z (performAccess
    s n sh id) := by
  unfold performAccess
  try dsimp only
  repeat' (first
    | with_reducible assumption | with_reducible apply kept_modCore | simp only [kept_upd])

theorem kept_landVerdict {z s : State} (n : Nat) (v : Option Nat) (h : Kept z s) : Kept z (landVerdict s n v) := by
  unfold landVerdict
  try dsimp only
  repeat' (first
    | with_reducible assumption | with_reducible apply kept_modCore | simp only [kept_upd] | split)

theorem kept_landSelv {z s : State} (n : Nat) (sh : Shuttle) (pc : Word) (result : Dword) (events : List (Nat ×
    Nat)) (elems : List Poke) (chk : Chk) (tally : Option Byte) (h : Kept z s) : Kept z (landSelv s n sh pc result
    events elems chk tally) := by
  unfold landSelv
  try dsimp only
  repeat' (first
    | with_reducible assumption | with_reducible apply kept_modCore | with_reducible apply kept_record
    | with_reducible apply kept_bumpCore | simp only [kept_upd] | split
    | with_reducible refine kept_foldl _ (fun _ _ _ => ?_) _ _ ?_)

theorem kept_landOne {z s : State} (n : Nat) (f : Flight) (h : Kept z s) : Kept z (landOne s n f) := by
  unfold landOne
  try dsimp only
  repeat' (first
    | with_reducible assumption | with_reducible apply kept_performAccess
    | with_reducible apply kept_setRegs | with_reducible apply kept_modCore
    | with_reducible apply kept_noteW1c | with_reducible apply kept_landSelv
    | with_reducible apply kept_modPartQuads | with_reducible apply kept_landVerdict | simp only [kept_upd]
    | split)

theorem kept_noteMarks {z s : State} (n o : Nat) (cycle : Nat) (m : Multiplier) (h : Kept z s) : Kept z (noteMarks s
    n o cycle m) := by
  unfold noteMarks
  try dsimp only
  repeat' (first
    | with_reducible assumption | with_reducible apply kept_noteW1c | simp only [kept_upd]
    | with_reducible apply kept_ite | with_reducible refine kept_foldl _ (fun _ _ _ => ?_) _ _ ?_
    | with_reducible exact id | exact Nat.le_refl _ | exact fun hp => legalModes_of rfl rfl rfl rfl hp
    | exact fun he => boundedErrors_of rfl rfl he | split | intro _ | dsimp only | assumption | omega
    | (intro he; simp only [legalModes, boundedErrors] at he ⊢; with_reducible exact he)
    | (simp only [legalModes, boundedErrors, Bool.and_eq_true, decide_eq_true_eq] at *; omega)
    | apply kept_legal)

theorem kept_landDue {z s : State} (n : Nat) (h : Kept z s) : Kept z (landDue s n) := by
  unfold landDue
  try dsimp only
  repeat' (first
    | with_reducible assumption | with_reducible apply kept_noteMarks | with_reducible apply kept_setCore
    | with_reducible apply kept_landOne | simp only [kept_upd] | split
    | with_reducible refine kept_foldl _ (fun _ _ _ => ?_) _ _ ?_)

theorem kept_landTun {z s : State} (n : Nat) (h : Kept z s) : Kept z (landTun s n) := by
  unfold landTun
  try dsimp only
  repeat' (first
    | with_reducible assumption | with_reducible apply kept_setCore | with_reducible apply kept_landOne
    | simp only [kept_upd] | split | with_reducible refine kept_foldl _ (fun _ _ _ => ?_) _ _ ?_)

theorem kept_landAll {z s : State} (n : Nat) (h : Kept z s) : Kept z (landAll s n) := by
  unfold landAll
  try dsimp only
  repeat' (first
    | with_reducible assumption | with_reducible apply kept_landTun | with_reducible apply kept_landDue
    | simp only [kept_upd])

theorem kept_place {z s : State} {op : Nat} {i : Issue} {a : At} (ha : place op i s = some a) (h : Kept z s) :
    Kept z a.s := by
  unfold place at ha
  dsimp only at ha
  split at ha
  · cases ha
  · split at ha
    · cases ha
    · split at ha
      · cases ha; exact kept_landAll _ h
      · cases ha

theorem kept_raiseFault {z s : State} (p : Part) (n : Nat) (sh : Shuttle) (pc : Word) (opcode kind detail : Nat)
    (deferred : Bool) (h : Kept z s) : Kept z (raiseFault s p n sh pc opcode kind detail deferred) := by
  unfold raiseFault
  try dsimp only
  repeat' (first
    | with_reducible assumption | with_reducible apply kept_modCore | with_reducible apply kept_modPart
    | with_reducible apply kept_record | with_reducible apply kept_partVector | simp only [kept_upd]
    | split)

theorem kept_detections {z s : State} (n : Nat) (l : List Failure) (h : Kept z s) : Kept z (detections s n l) := by
  unfold detections
  try dsimp only
  repeat' (first
    | with_reducible assumption | with_reducible apply kept_modCore | simp only [kept_upd] | split
    | with_reducible refine kept_foldl _ (fun _ _ _ => ?_) _ _ ?_)

theorem kept_addRepeats {z s : State} (n k : Nat) (h : Kept z s) : Kept z (addRepeats s n k) := by
  unfold addRepeats
  try dsimp only
  repeat' (first
    | with_reducible assumption | with_reducible apply kept_modPart | simp only [kept_upd] | split)

theorem kept_detectOne {z s : State} (n : Nat) (f : Found) (h : Kept z s) : Kept z (detectOne s n f) := by
  unfold detectOne
  try dsimp only
  repeat' (first
    | with_reducible assumption | with_reducible apply kept_bumpCore | with_reducible apply kept_addRepeats
    | with_reducible apply kept_record | with_reducible apply kept_fenceCore
    | with_reducible apply kept_intermittent | simp only [kept_upd] | with_reducible apply kept_ite
    | with_reducible refine kept_foldl _ (fun _ _ _ => ?_) _ _ ?_ | with_reducible exact id
    | exact Nat.le_refl _ | exact fun hp => legalModes_of rfl rfl rfl rfl hp
    | exact fun he => boundedErrors_of rfl rfl he | split | intro _ | dsimp only | assumption | omega
    | (intro he; simp only [legalModes, boundedErrors] at he ⊢; with_reducible exact he)
    | (simp only [legalModes, boundedErrors, Bool.and_eq_true, decide_eq_true_eq] at *; omega)
    | apply kept_legal)

theorem kept_foundTest {z s : State} (n : Nat) (h : Kept z s) : Kept z (foundTest s n) := by
  unfold foundTest
  try dsimp only
  repeat' (first
    | with_reducible assumption | with_reducible apply kept_setCore | with_reducible apply kept_modCore
    | with_reducible apply kept_detectOne | simp only [kept_upd] | with_reducible apply kept_ite
    | with_reducible refine kept_foldl _ (fun _ _ _ => ?_) _ _ ?_ | with_reducible exact id
    | exact Nat.le_refl _ | exact fun hp => legalModes_of rfl rfl rfl rfl hp
    | exact fun he => boundedErrors_of rfl rfl he | split | intro _ | dsimp only | assumption | omega
    | (intro he; simp only [legalModes, boundedErrors] at he ⊢; with_reducible exact he)
    | (simp only [legalModes, boundedErrors, Bool.and_eq_true, decide_eq_true_eq] at *; omega)
    | apply kept_legal)

theorem kept_sramFound {z s : State} (n : Nat) (who : RecIn → RecIn) (e : SramEcc) (units lines : List Nat) (h :
    Kept z s) : Kept z (sramFound s n who e units lines) := by
  unfold sramFound
  try dsimp only
  repeat' (first
    | with_reducible assumption | with_reducible apply kept_modCore | with_reducible apply kept_record
    | with_reducible apply kept_intermittent | with_reducible apply kept_bumpCore | simp only [kept_upd]
    | with_reducible apply kept_ite | with_reducible refine kept_foldl _ (fun _ _ _ => ?_) _ _ ?_
    | with_reducible exact id | exact Nat.le_refl _ | exact fun hp => legalModes_of rfl rfl rfl rfl hp
    | exact fun he => boundedErrors_of rfl rfl he | split | intro _ | dsimp only | assumption | omega
    | (intro he; simp only [legalModes, boundedErrors] at he ⊢; with_reducible exact he)
    | (simp only [legalModes, boundedErrors, Bool.and_eq_true, decide_eq_true_eq] at *; omega)
    | apply kept_legal)

theorem kept_sramErrors {z s : State} (n : Nat) (sh : Shuttle) (pc : Word) (op : Nat) (ups : Upsets) (units lines :
    List Nat) (h : Kept z s) : Kept z (sramErrors s n sh pc op ups units lines) := by
  unfold sramErrors
  try dsimp only
  repeat' (first
    | with_reducible assumption | with_reducible apply kept_sramFound | simp only [kept_upd] | split
    | with_reducible refine kept_foldl _ (fun _ _ _ => ?_) _ _ ?_)

theorem kept_advance {z s : State} (a : At) (target : Option Nat) (h : Kept z s) : Kept z (advance s a target) := by
  unfold advance
  try dsimp only
  repeat' (first
    | with_reducible assumption | with_reducible apply kept_setRegs | with_reducible apply kept_modCore
    | simp only [kept_upd])

theorem kept_occupy {z s : State} (a : At) (act : Action) (on : Bool) (h : Kept z s) : Kept z (occupy s a act on) :=
    by
  unfold occupy
  try dsimp only
  repeat' (first
    | with_reducible assumption | with_reducible apply kept_modCore | simp only [kept_upd] | split)

theorem kept_complete (a : At) (act : Action) (h : KeptA a.s act) : Kept a.s (complete a act) := by
  obtain ⟨h1, h2, h3⟩ := h
  unfold complete
  split
  · exact kept_advance _ _ (kept_occupy _ _ _ h1)
  · refine kept_advance _ _ (kept_occupy _ _ _ ?_)
    cases ho : act.off with
    | none => exact Kept.refl _
    | some t => exact h2 t ho

theorem keptO_issueWith {z s : State} (op : Nat) (i : Issue) (m : At → Action) (hm : ∀ a, KeptA a.s (m a))
 (h : Kept z s) : KeptO z (issueWith op i s m) := by
  unfold issueWith
  split
  · exact keptO_next h
  · next a ha =>
    have hs : Kept z a.s := kept_place ha h
    obtain ⟨h1, h2, h3⟩ := hm a
    split
    · exact keptO_next (kept_raiseFault _ _ _ _ _ _ _ _ hs)
    · dsimp only
      split
      · refine keptO_next (kept_raiseFault _ _ _ _ _ _ _ _ ?_)
        split
        · cases ho : (m a).onDesc with
          | none => exact hs
          | some t => exact hs.trans (h3 t ho)
        · exact hs
      · split
        · exact keptO_next (kept_setCore _ _ hs)
        · exact keptO_next (hs.trans (kept_complete a (m a) ⟨h1, h2, h3⟩))

theorem kept_push {z s : State} (n : Nat) (sh : Shuttle) (lat : Nat) (access verdict : Option Nat) (e : Effect) (h :
    Kept z s) : Kept z (push s n sh lat access verdict e) := by
  unfold push
  try dsimp only
  repeat' (first
    | with_reducible assumption | with_reducible apply kept_modCore | simp only [kept_upd])

theorem kept_pushWrite {z s : State} (a : At) (lat : Nat) (e : Effect) (h : Kept z s) : Kept z (pushWrite s a lat e)
    := by
  unfold pushWrite
  try dsimp only
  repeat' (first
    | with_reducible assumption | with_reducible apply kept_noteW1c | with_reducible apply kept_modCore
    | with_reducible apply kept_push | simp only [kept_upd] | split)

theorem kept_pushReg {z s : State} (a : At) (sp lat v : Nat) (h : Kept z s) : Kept z (pushReg s a sp lat v) := by
  unfold pushReg
  try dsimp only
  repeat' (first
    | with_reducible assumption | with_reducible apply kept_pushWrite | simp only [kept_upd])

theorem kept_newAccess {z s : State} (n : Nat) (sh : Shuttle) (level : Nat) (kind : AccessKind) (rel held : Bool)
    (frames : List (Nat × Nat × Frame)) (h : Kept z s) : Kept z (newAccess s n sh level kind rel held frames).1 := by
  unfold newAccess
  exact kept_setCore _ _ h

theorem kept_pushStore {z s : State} (a : At) (lat : Nat) (verdict : Option Nat) (e : Effect) (h : Kept z s) : Kept
    z (pushStore s a lat verdict e) := by
  unfold pushStore
  try dsimp only
  repeat' (first
    | with_reducible assumption | with_reducible apply kept_newAccess | with_reducible apply kept_push
    | simp only [kept_upd])

end Sys2Proof.Machine
end

