-- ==== Sys2Proof/Laws/KeptDescInstr.lean ====
section
/-! SUPPORT. What the operations of Machine/DescInstr.lean keep: `Kept` of each, from that of the operations it uses. -/

namespace Sys2Proof.Machine

theorem kept_readStore (a : At) (units : List Nat) : Kept a.s (readStore a units) := by
  unfold readStore
  try dsimp only
  repeat' (first
    | with_reducible exact Kept.refl _ | with_reducible assumption | with_reducible apply kept_sramErrors
    | simp only [kept_upd])

theorem keptA_actDescMake (a : At) : KeptA a.s (actDescMake a) := by
  unfold actDescMake
  refine keptA_eff ?_ rfl rfl
  try dsimp only
  repeat' (first
    | with_reducible exact Kept.refl _ | with_reducible assumption | with_reducible apply kept_pushWrite
    | with_reducible apply kept_readStore | simp only [kept_upd])

theorem keptA_actDescSet (a : At) : KeptA a.s (actDescSet a) := by
  unfold actDescSet
  refine keptA_eff ?_ rfl rfl
  try dsimp only
  repeat' (first
    | with_reducible exact Kept.refl _ | with_reducible assumption | with_reducible apply kept_pushWrite
    | simp only [kept_upd])

theorem keptA_actDescOffs (a : At) : KeptA a.s (actDescOffs a) := by
  unfold actDescOffs
  refine keptA_eff ?_ rfl rfl
  try dsimp only
  repeat' (first
    | with_reducible exact Kept.refl _ | with_reducible assumption | with_reducible apply kept_pushWrite
    | simp only [kept_upd])

theorem kept_pushDescs {z s : State} (a : At) (k : Nat) (ds : List Image) (h : Kept z s) : Kept z (pushDescs a s k
    ds) := by
  unfold pushDescs
  try dsimp only
  repeat' (first
    | with_reducible assumption | with_reducible apply kept_pushWrite | simp only [kept_upd] | split
    | with_reducible refine kept_foldl _ (fun _ _ _ => ?_) _ _ ?_)

theorem keptA_actDescLdt (a : At) : KeptA a.s (actDescLdt a) := by
  unfold actDescLdt
  refine ⟨?_, fun t ht => ?_, fun t ht => ?_⟩
  · exact kept_pushDescs _ _ _ (kept_readStore _ _)
  · cases ht
  · dsimp only at ht
    split at ht
    · cases ht; exact kept_pushDescs _ _ _ (kept_readStore _ _)
    · cases ht

theorem keptA_actDescStt (a : At) : KeptA a.s (actDescStt a) := by
  unfold actDescStt
  refine keptA_eff ?_ rfl rfl
  try dsimp only
  repeat' (first
    | with_reducible exact Kept.refl _ | with_reducible assumption | with_reducible apply kept_pushStore
    | simp only [kept_upd])

theorem keptO_execDescMake {z s : State} (i : Issue) (h : Kept z s) : KeptO z (execDescMake i s) := by
  unfold execDescMake
  try dsimp only
  repeat' (first
    | with_reducible assumption | with_reducible apply keptO_issueWith
    | with_reducible apply keptA_actDescMake | simp only [kept_upd])

theorem keptO_execDescSet {z s : State} (i : Issue) (h : Kept z s) : KeptO z (execDescSet i s) := by
  unfold execDescSet
  try dsimp only
  repeat' (first
    | with_reducible assumption | with_reducible apply keptO_issueWith
    | with_reducible apply keptA_actDescSet | simp only [kept_upd])

theorem keptO_execDescOffs {z s : State} (i : Issue) (h : Kept z s) : KeptO z (execDescOffs i s) := by
  unfold execDescOffs
  try dsimp only
  repeat' (first
    | with_reducible assumption | with_reducible apply keptO_issueWith
    | with_reducible apply keptA_actDescOffs | simp only [kept_upd])

theorem keptO_execDescLdt {z s : State} (i : Issue) (h : Kept z s) : KeptO z (execDescLdt i s) := by
  unfold execDescLdt
  try dsimp only
  repeat' (first
    | with_reducible assumption | with_reducible apply keptO_issueWith
    | with_reducible apply keptA_actDescLdt | simp only [kept_upd])

theorem keptO_execDescStt {z s : State} (i : Issue) (h : Kept z s) : KeptO z (execDescStt i s) := by
  unfold execDescStt
  try dsimp only
  repeat' (first
    | with_reducible assumption | with_reducible apply keptO_issueWith
    | with_reducible apply keptA_actDescStt | simp only [kept_upd])

end Sys2Proof.Machine
end

