-- ==== Sys2Proof/Laws/KeptBeam.lean ====
section
/-! SUPPORT. What the operations of Machine/Beam.lean keep: `Kept` of each, from that of the operations it uses. -/

namespace Sys2Proof.Machine

theorem keptA_actBeamMm (a : At) : KeptA a.s (actBeamMm a) := by
  unfold actBeamMm
  refine keptA_eff ?_ rfl rfl
  try dsimp only
  repeat' (first
    | with_reducible exact Kept.refl _ | with_reducible assumption | with_reducible apply kept_readStore
    | with_reducible apply kept_detections | with_reducible apply kept_modCore | simp only [kept_upd])

theorem keptA_actBeamZero (a : At) : KeptA a.s (actBeamZero a) := by
  unfold actBeamZero
  refine keptA_eff ?_ rfl rfl
  try dsimp only
  repeat' (first
    | with_reducible exact Kept.refl _ | with_reducible assumption | with_reducible apply kept_modCore
    | simp only [kept_upd])

theorem keptA_actBeamScore (a : At) : KeptA a.s (actBeamScore a) := by
  unfold actBeamScore
  refine keptA_eff ?_ rfl rfl
  try dsimp only
  repeat' (first
    | with_reducible exact Kept.refl _ | with_reducible assumption | with_reducible apply kept_readStore
    | with_reducible apply kept_detections | with_reducible apply kept_pushStore
    | with_reducible apply kept_modCore | simp only [kept_upd])

theorem keptO_execBeamMm {z s : State} (i : Issue) (h : Kept z s) : KeptO z (execBeamMm i s) := by
  unfold execBeamMm
  try dsimp only
  repeat' (first
    | with_reducible assumption | with_reducible apply keptO_issueWith
    | with_reducible apply keptA_actBeamMm | simp only [kept_upd])

theorem keptO_execBeamScore {z s : State} (i : Issue) (h : Kept z s) : KeptO z (execBeamScore i s) := by
  unfold execBeamScore
  try dsimp only
  repeat' (first
    | with_reducible assumption | with_reducible apply keptO_issueWith
    | with_reducible apply keptA_actBeamScore | simp only [kept_upd])

theorem keptO_execBeamZero {z s : State} (i : Issue) (h : Kept z s) : KeptO z (execBeamZero i s) := by
  unfold execBeamZero
  try dsimp only
  repeat' (first
    | with_reducible assumption | with_reducible apply keptO_issueWith
    | with_reducible apply keptA_actBeamZero | simp only [kept_upd])

end Sys2Proof.Machine
end

