-- ==== Sys2Proof/Laws/KeptLink.lean ====
section
/-! SUPPORT. What the operations of Machine/Link.lean keep: `Kept` of each, from that of the operations it uses. -/

namespace Sys2Proof.Machine

theorem kept_sendFrame {z s : State} (port peer : Nat) (f : Frame) (h : Kept z s) : Kept z (sendFrame s port peer f)
    := by
  unfold sendFrame
  try dsimp only
  repeat' (first
    | with_reducible assumption | with_reducible apply kept_modChan | simp only [kept_upd])

theorem kept_sendTo {z s : State} (x : Nat × Nat × Frame) (h : Kept z s) : Kept z (sendTo s x) := by
  unfold sendTo
  try dsimp only
  repeat' (first
    | with_reducible assumption | with_reducible apply kept_sendFrame | simp only [kept_upd] | split)

theorem kept_sendAll {z s : State} (xs : List (Nat × Nat × Frame)) (h : Kept z s) : Kept z (sendAll s xs) := by
  unfold sendAll
  try dsimp only
  repeat' (first
    | with_reducible assumption | with_reducible apply kept_sendTo | simp only [kept_upd] | split
    | with_reducible refine kept_foldl _ (fun _ _ _ => ?_) _ _ ?_)

theorem kept_freeSlots {z s : State} (port peer vl n : Nat) (h : Kept z s) : Kept z (freeSlots s port peer vl n) := by
  unfold freeSlots
  try dsimp only
  repeat' (first
    | with_reducible assumption | with_reducible apply kept_modChan | simp only [kept_upd])

theorem kept_takeRx {z s t : State} {rx : Rx} (ht : takeRx s rx = some t) (h : Kept z s) : Kept z t := by
  unfold takeRx at ht
  dsimp only at ht
  repeat' split at ht
  all_goals first
    | cases ht; done
    | (cases ht; first | apply kept_mk | apply kept_modPort
       assumption)

theorem kept_freeRx {z s : State} (rx : Rx) (n : Nat) (h : Kept z s) : Kept z (freeRx s rx n) := by
  unfold freeRx
  try dsimp only
  repeat' (first
    | with_reducible assumption | with_reducible apply kept_freeSlots | simp only [kept_upd] | split)

theorem keptO_withRx {z s : State} (rx : Rx) (g : State → State) (hg : ∀ t, Kept z t → Kept z (g t)) (h : Kept z s) :
    KeptO z (withRx s rx g) := by
  unfold withRx
  split
  · exact keptO_next h
  · next t ht => exact keptO_next (hg _ (kept_freeRx _ _ (kept_takeRx ht h)))

end Sys2Proof.Machine
end

