-- ==== Sys2Proof/Laws/KeptMem.lean ====
section
/-! SUPPORT. What the operations of Machine/Mem.lean keep: `Kept` of each, from that of the operations it uses. -/

namespace Sys2Proof.Machine

theorem kept_setTierMem {z s : State} (t : Tier) (m : Tbl Byte)
    (hm : twf 0 (tierMem s t) = true → twf 0 m = true) (h : Kept z s) : Kept z (setTierMem s t m) := by
  refine h.trans ?_
  unfold setTierMem
  unfold tierMem at hm
  refine ⟨?_, ?_, ?_, ?_, ?_, ?_, ?_⟩ <;> cases t <;> simp_all [fusedSame, memWf]

theorem kept_setPoison {z s : State} (t : Tier) (l : List Nat) (h : Kept z s) : Kept z (setPoison s t l) := by
  unfold setPoison
  try dsimp only
  repeat' (first
    | with_reducible assumption | simp only [kept_upd] | split)

theorem kept_poisonUnit {z s : State} (t : Tier) (u : Nat) (h : Kept z s) : Kept z (poisonUnit s t u) := by
  unfold poisonUnit
  try dsimp only
  repeat' (first
    | with_reducible assumption | with_reducible apply kept_setPoison | simp only [kept_upd] | split)

theorem kept_unpoison {z s : State} (t : Tier) (us : List Nat) (h : Kept z s) : Kept z (unpoison s t us) := by
  unfold unpoison
  try dsimp only
  repeat' (first
    | with_reducible assumption | with_reducible apply kept_setPoison | simp only [kept_upd])

theorem kept_findPoison {z s : State} (t : Tier) (pq u : Nat) (h : Kept z s) : Kept z (findPoison s t pq u) := by
  unfold findPoison
  try dsimp only
  repeat' (first
    | with_reducible assumption | with_reducible apply kept_record | simp only [kept_upd] | split)

theorem kept_snoopLines {z s : State} (ls : List Nat) (h : Kept z s) : Kept z (snoopLines s ls) := by
  unfold snoopLines
  try dsimp only
  repeat' (first
    | with_reducible assumption | simp only [kept_upd])

theorem kept_eccRead {z s : State} (t : Tier) (pq : Nat) (us : List Nat) (ecc : MemEcc) (h : Kept z s) : Kept z
    (eccRead s t pq us ecc) := by
  unfold eccRead
  try dsimp only
  repeat' (first
    | with_reducible assumption | with_reducible apply kept_poisonUnit
    | with_reducible apply kept_snoopLines | with_reducible apply kept_findPoison | simp only [kept_upd]
    | split | with_reducible refine kept_foldl _ (fun _ _ _ => ?_) _ _ ?_)

theorem kept_writeMem {z s : State} (t : Tier) (xs : List Poke) (h : Kept z s) : Kept z (writeMem s t xs) := by
  unfold writeMem
  exact kept_unpoison _ _ (kept_setTierMem _ _ (fun hm => twf_pokeAll xs hm) h)

theorem kept_writeMemBytes {z s : State} (t : Tier) (addr : Nat) (bs : List Byte) (h : Kept z s) : Kept z
    (writeMemBytes s t addr bs) := by
  unfold writeMemBytes
  try dsimp only
  repeat' (first
    | with_reducible assumption | with_reducible apply kept_writeMem | simp only [kept_upd])

end Sys2Proof.Machine
end

