-- ==== Sys2Proof/Laws/KeptBobbin.lean ====
section
/-! SUPPORT. What the operations of Machine/Bobbin.lean keep: `Kept` of each, from that of the operations it uses. -/

namespace Sys2Proof.Machine

theorem kept_modRequest {z s : State} (n k seq : Nat) (g : Request → Request) (h : Kept z s) : Kept z (modRequest s
    n k seq g) := by
  unfold modRequest
  try dsimp only
  repeat' (first
    | with_reducible assumption | with_reducible apply kept_modCore | simp only [kept_upd])

theorem kept_requestSram {z s : State} (n : Nat) (q : Request) (e : SramEcc) (h : Kept z s) : Kept z (requestSram s
    n q e) := by
  unfold requestSram
  try dsimp only
  repeat' (first
    | with_reducible assumption | with_reducible apply kept_sramFound | simp only [kept_upd]
    | with_reducible apply kept_ite | with_reducible refine kept_foldl _ (fun _ _ _ => ?_) _ _ ?_
    | with_reducible exact id | exact Nat.le_refl _ | exact fun hp => legalModes_of rfl rfl rfl rfl hp
    | exact fun he => boundedErrors_of rfl rfl he | split | intro _ | dsimp only | assumption | omega
    | (intro he; simp only [legalModes, boundedErrors] at he ⊢; with_reducible exact he)
    | (simp only [legalModes, boundedErrors, Bool.and_eq_true, decide_eq_true_eq] at *; omega)
    | apply kept_legal)

theorem kept_departRemote {z s0 : State} (p : Part) (n k : Nat) (q : Request) (e : SramEcc) (h : Kept z s0) : Kept z
    (departRemote s0 p n k q e) := by
  unfold departRemote
  try dsimp only
  repeat' (first
    | with_reducible assumption | with_reducible apply kept_requestSram
    | with_reducible apply kept_modRequest | with_reducible apply kept_modCore
    | with_reducible apply kept_sendAll | simp only [kept_upd] | split)

theorem kept_tapDrop {z s : State} (n : Nat) (al : Alloc) (off count : Nat) (h : Kept z s) : Kept z (tapDrop s n al
    off count) := by
  unfold tapDrop
  try dsimp only
  repeat' (first
    | with_reducible assumption | with_reducible apply kept_modCore | simp only [kept_upd]
    | with_reducible apply kept_ite | with_reducible refine kept_foldl _ (fun _ _ _ => ?_) _ _ ?_
    | with_reducible exact id | exact Nat.le_refl _ | exact fun hp => legalModes_of rfl rfl rfl rfl hp
    | exact fun he => boundedErrors_of rfl rfl he | split | intro _ | dsimp only | assumption | omega
    | (intro he; simp only [legalModes, boundedErrors] at he ⊢; with_reducible exact he)
    | (simp only [legalModes, boundedErrors, Bool.and_eq_true, decide_eq_true_eq] at *; omega)
    | apply kept_legal)

theorem kept_postRequest (a : At) : Kept a.s (postRequest a) := by
  unfold postRequest
  try dsimp only
  repeat' (first
    | with_reducible exact Kept.refl _ | with_reducible assumption | with_reducible apply kept_newAccess
    | with_reducible apply kept_complete | with_reducible apply kept_setCore
    | with_reducible apply kept_pushReg | with_reducible apply kept_departRemote | simp only [kept_upd]
    | split)

theorem keptA_actBqIssue (a : At) : KeptA a.s (actBqIssue a) := by
  unfold actBqIssue
  refine keptA_eff ?_ rfl rfl
  try dsimp only
  repeat' (first
    | with_reducible exact Kept.refl _ | with_reducible assumption | with_reducible apply kept_postRequest
    | simp only [kept_upd])

theorem keptO_execBqIssue {z s : State} (i : Issue) (h : Kept z s) : KeptO z (execBqIssue i s) := by
  unfold execBqIssue
  try dsimp only
  repeat' (first
    | with_reducible assumption | with_reducible apply keptO_issueWith
    | with_reducible apply keptA_actBqIssue | simp only [kept_upd])

theorem kept_deliver {z s : State} (n : Nat) (q : Request) (good bad : List Poke) (h : Kept z s) : Kept z (deliver s
    n q good bad) := by
  unfold deliver
  try dsimp only
  repeat' (first
    | with_reducible assumption | with_reducible apply kept_modCore | simp only [kept_upd]
    | with_reducible apply kept_ite | with_reducible refine kept_foldl _ (fun _ _ _ => ?_) _ _ ?_
    | with_reducible exact id | exact Nat.le_refl _ | exact fun hp => legalModes_of rfl rfl rfl rfl hp
    | exact fun he => boundedErrors_of rfl rfl he | split | intro _ | dsimp only | assumption | omega
    | (intro he; simp only [legalModes, boundedErrors] at he ⊢; with_reducible exact he)
    | (simp only [legalModes, boundedErrors, Bool.and_eq_true, decide_eq_true_eq] at *; omega)
    | apply kept_legal)

theorem kept_finishRequest {z s : State} (n k : Nat) (q : Request) (poisoned : Bool) (h : Kept z s) : Kept z
    (finishRequest s n k q poisoned) := by
  unfold finishRequest
  try dsimp only
  repeat' (first
    | with_reducible assumption | with_reducible apply kept_modRequest | with_reducible apply kept_complete
    | with_reducible apply kept_modCore | with_reducible apply kept_performAccess | simp only [kept_upd]
    | split)

theorem kept_localRead {z s0 : State} (p : Part) (n k : Nat) (q : Request) (ecc : MemEcc) (sram : SramEcc) (h : Kept
    z s0) : Kept z (localRead s0 p n k q ecc sram) := by
  unfold localRead
  try dsimp only
  repeat' (first
    | with_reducible assumption | with_reducible apply kept_requestSram | with_reducible apply kept_eccRead
    | with_reducible apply kept_deliver | with_reducible apply kept_modCore
    | with_reducible apply kept_finishRequest | simp only [kept_upd] | split
    | with_reducible refine kept_foldl _ (fun _ _ _ => ?_) _ _ ?_)

theorem kept_localWrite {z s0 : State} (p : Part) (n k : Nat) (q : Request) (ecc : MemEcc) (sram : SramEcc) (h :
    Kept z s0) : Kept z (localWrite s0 p n k q ecc sram) := by
  unfold localWrite
  try dsimp only
  repeat' (first
    | with_reducible assumption | with_reducible apply kept_snoopLines
    | with_reducible apply kept_requestSram | with_reducible apply kept_eccRead
    | with_reducible apply kept_writeMem | with_reducible apply kept_poisonUnit
    | with_reducible apply kept_modCore | with_reducible apply kept_finishRequest | simp only [kept_upd]
    | split | with_reducible refine kept_foldl _ (fun _ _ _ => ?_) _ _ ?_)

theorem kept_remoteDone {z s : State} (p : Part) (n k : Nat) (q : Request) (h : Kept z s) : Kept z (remoteDone s p n
    k q) := by
  unfold remoteDone
  try dsimp only
  repeat' (first
    | with_reducible assumption | with_reducible apply kept_deliver | with_reducible apply kept_modCore
    | with_reducible apply kept_finishRequest | simp only [kept_upd] | split)

theorem keptO_execBobbinRequestComplete {z s0 : State} (core : Fin 192) (queue : Fin 16) (seq : Fin 2048) (ecc :
    MemEcc) (sram : SramEcc) (h : Kept z s0) : KeptO z (execBobbinRequestComplete core queue seq ecc sram s0) := by
  unfold execBobbinRequestComplete
  try dsimp only
  repeat' (first
    | with_reducible assumption | refine keptO_next ?_ | with_reducible apply kept_landAll
    | with_reducible apply kept_remoteDone | with_reducible apply kept_localRead
    | with_reducible apply kept_localWrite | simp only [kept_upd] | split)

theorem keptO_execRemoteRequestTimeout {z s : State} (core : Fin 192) (queue : Fin 16) (seq : Fin 2048) (h : Kept z
    s) : KeptO z (execRemoteRequestTimeout core queue seq s) := by
  unfold execRemoteRequestTimeout
  try dsimp only
  repeat' (first
    | with_reducible assumption | refine keptO_next ?_ | with_reducible apply kept_deliver
    | with_reducible apply kept_finishRequest | simp only [kept_upd] | split)

end Sys2Proof.Machine
end

