-- ==== Sys2Proof/Laws/KeptHostMem.lean ====
section
/-! SUPPORT. What the operations of Machine/HostMem.lean keep: `Kept` of each, from that of the operations it uses. -/

namespace Sys2Proof.Machine

theorem kept_badAccess {z s : State} (off space rule : Nat) (h : Kept z s) : Kept z (badAccess s off space rule) := by
  unfold badAccess
  try dsimp only
  repeat' (first
    | with_reducible assumption | with_reducible apply kept_record | simp only [kept_upd])

theorem kept_hostReply {z s : State} (x : HostReply) (h : Kept z s) : Kept z (hostReply s x) := by
  unfold hostReply
  try dsimp only
  repeat' (first
    | with_reducible assumption | simp only [kept_upd])

theorem kept_takeLine {z s : State} (l : Nat) (h : Kept z s) : Kept z (takeLine s l) := by
  unfold takeLine
  try dsimp only
  repeat' (first
    | with_reducible assumption | simp only [kept_upd] | split)

theorem kept_chaseSegs {z s : State} (h : Kept z s) : Kept z (chaseSegs s) := by
  unfold chaseSegs
  try dsimp only
  repeat' (first
    | with_reducible assumption | with_reducible apply kept_snoopLines | simp only [kept_upd]
    | with_reducible apply kept_ite | with_reducible refine kept_foldl _ (fun _ _ _ => ?_) _ _ ?_
    | with_reducible exact id | exact Nat.le_refl _ | exact fun hp => legalModes_of rfl rfl rfl rfl hp
    | exact fun he => boundedErrors_of rfl rfl he | split | intro _ | dsimp only | assumption | omega
    | (intro he; simp only [legalModes, boundedErrors] at he ⊢; with_reducible exact he)
    | (simp only [legalModes, boundedErrors, Bool.and_eq_true, decide_eq_true_eq] at *; omega)
    | apply kept_legal)

theorem keptO_execHdmHostRead {z s : State} (addr : Nat) (caches : Bool) (ecc : MemEcc) (h : Kept z s) : KeptO z
    (execHdmHostRead addr caches ecc s) := by
  unfold execHdmHostRead
  try dsimp only
  repeat' (first
    | with_reducible assumption | exact keptO_fault _ _ | refine keptO_next ?_
    | with_reducible apply kept_hostReply | with_reducible apply kept_badAccess
    | with_reducible apply kept_snoopLines | with_reducible apply kept_eccRead
    | with_reducible apply kept_wakeMemory | with_reducible apply kept_chaseSegs
    | with_reducible apply kept_takeLine | simp only [kept_upd] | split)

theorem keptO_execHdmHostWrite {z s : State} (addr : Nat) (data : List Byte) (h : Kept z s) : KeptO z
    (execHdmHostWrite addr data s) := by
  unfold execHdmHostWrite
  try dsimp only
  repeat' (first
    | with_reducible assumption | exact keptO_fault _ _ | refine keptO_next ?_
    | with_reducible apply kept_badAccess | with_reducible apply kept_writeMem
    | with_reducible apply kept_wakeMemory | simp only [kept_upd] | split)

theorem kept_setSeg {z s : State} (i : Nat) (v : Word) (h : Kept z s) : Kept z (setSeg s i v) := by
  unfold setSeg
  try dsimp only
  repeat' (first
    | with_reducible assumption | simp only [kept_upd])

theorem kept_segWrite {z s : State} (i : Nat) (value : Word) (h : Kept z s) : Kept z (segWrite s i value) := by
  unfold segWrite
  try dsimp only
  repeat' (first
    | with_reducible assumption | with_reducible apply kept_setSeg | with_reducible apply kept_snoopLines
    | simp only [kept_upd] | split)

theorem keptO_execCellarHdmSegWrite {z s : State} (i : Fin 16) (value : Word) (h : Kept z s) : KeptO z
    (execCellarHdmSegWrite i value s) := by
  unfold execCellarHdmSegWrite
  try dsimp only
  repeat' (first
    | with_reducible assumption | refine keptO_next ?_ | with_reducible apply kept_segWrite
    | simp only [kept_upd])

theorem kept_settleSegs {z : State} : ∀ (l : List (Nat × Word)) (s : State), Kept z s → Kept z (settleSegs l s)
  | [], _, h => h
  | (i, v) :: t, s, h => by
    unfold settleSegs
    split
    · exact kept_settleSegs t _ (kept_mk (kept_setSeg _ _ h))
    · exact kept_settleSegs t _ h

theorem keptO_execBiSnoopResponse {z s : State} (line : Nat) (h : Kept z s) : KeptO z (execBiSnoopResponse line s)
    := by
  unfold execBiSnoopResponse
  try dsimp only
  repeat' (first
    | with_reducible assumption | refine keptO_next ?_ | with_reducible apply kept_chaseSegs
    | with_reducible apply kept_settleSegs | simp only [kept_upd] | split)

theorem kept_refuseMmio {z s : State} (x : MmioAccess) (rule : Nat) (h : Kept z s) : Kept z (refuseMmio s x rule) :=
    by
  unfold refuseMmio
  try dsimp only
  repeat' (first
    | with_reducible assumption | with_reducible apply kept_badAccess | with_reducible apply kept_hostReply
    | simp only [kept_upd] | split)

theorem keptO_execMmioBadAccess {z s : State} (access : MmioAccess) (h : Kept z s) : KeptO z (execMmioBadAccess
    access s) := by
  unfold execMmioBadAccess
  try dsimp only
  repeat' (first
    | with_reducible assumption | refine keptO_next ?_ | with_reducible apply kept_refuseMmio
    | simp only [kept_upd] | split)

theorem keptO_execCxlForeignRequest {z s : State} (pid : BitVec 12) (mem : Bool) (addr : Nat) (h : Kept z s) : KeptO
    z (execCxlForeignRequest pid mem addr s) := by
  unfold execCxlForeignRequest
  try dsimp only
  repeat' (first
    | with_reducible assumption | refine keptO_next ?_ | with_reducible apply kept_hostReply
    | with_reducible apply kept_badAccess | simp only [kept_upd] | split)

theorem kept_trainLink {z s : State} (width rate : Nat) (h : Kept z s) : Kept z (trainLink s width rate) := by
  unfold trainLink
  try dsimp only
  repeat' (first
    | with_reducible assumption | with_reducible apply kept_record | simp only [kept_upd] | split)

theorem keptO_execCxlLinkTrained {z s : State} (width : Nat) (found : LinkFound) (h : Kept z s) : KeptO z
    (execCxlLinkTrained width found s) := by
  unfold execCxlLinkTrained
  try dsimp only
  repeat' (first
    | with_reducible assumption | refine keptO_next ?_ | with_reducible apply kept_trainLink
    | simp only [kept_upd] | with_reducible apply kept_ite
    | with_reducible refine kept_foldl _ (fun _ _ _ => ?_) _ _ ?_ | with_reducible exact id
    | exact Nat.le_refl _ | exact fun hp => legalModes_of rfl rfl rfl rfl hp
    | exact fun he => boundedErrors_of rfl rfl he | split | intro _ | dsimp only | assumption | omega
    | (intro he; simp only [legalModes, boundedErrors] at he ⊢; with_reducible exact he)
    | (simp only [legalModes, boundedErrors, Bool.and_eq_true, decide_eq_true_eq] at *; omega)
    | apply kept_legal)

theorem keptO_execMsixVectorUnmask {z s : State} (vector : Fin 64) (h : Kept z s) : KeptO z (execMsixVectorUnmask
    vector s) := by
  unfold execMsixVectorUnmask
  try dsimp only
  repeat' (first
    | with_reducible assumption | refine keptO_next ?_ | simp only [kept_upd])

theorem keptO_execPatrolScrubRead {z s : State} (tier : Tier) (unit : Nat) (found : ScrubFound) (h : Kept z s) :
    KeptO z (execPatrolScrubRead tier unit found s) := by
  unfold execPatrolScrubRead
  try dsimp only
  repeat' (first
    | with_reducible assumption | refine keptO_next ?_ | with_reducible apply kept_findPoison
    | with_reducible apply kept_snoopLines | with_reducible apply kept_eccRead | simp only [kept_upd]
    | split)

theorem kept_takeSummary {z s : State} (h : Kept z s) : Kept z (takeSummary s) := by
  unfold takeSummary
  split
  · next x t hs ht =>
    refine kept_legal (Nat.le_refl _) id (fun he => ?_) h
    simp only [boundedErrors, Bool.and_eq_true, decide_eq_true_eq] at he ⊢
    rw [ht] at he
    exact ⟨by simp, Nat.le_of_succ_le he.2⟩
  · exact h

theorem keptO_execErrorRecordCopy {z s : State} (h : Kept z s) : KeptO z (execErrorRecordCopy s) := by
  unfold execErrorRecordCopy
  try dsimp only
  repeat' (first
    | with_reducible assumption | refine keptO_next ?_ | with_reducible apply kept_snoopLines
    | with_reducible apply kept_copyOldest | with_reducible apply kept_takeSummary | simp only [kept_upd]
    | split)

end Sys2Proof.Machine
end

