-- ==== Sys2Proof/Laws/KeptBoot.lean ====
section
/-! SUPPORT. What the operations of Machine/Boot.lean keep: `Kept` of each, from that of the operations it uses. -/

namespace Sys2Proof.Machine

theorem kept_bootFailure {z s : State} (reason step : Nat) (h : Kept z s) : Kept z (bootFailure s reason step) := by
  unfold bootFailure
  try dsimp only
  repeat' (first
    | with_reducible assumption | simp only [kept_upd])

theorem kept_bootStaged {z s : State} (readable : Bool) (h : Kept z s) : Kept z (bootStaged s readable) := by
  unfold bootStaged
  try dsimp only
  repeat' (first
    | with_reducible assumption | with_reducible apply kept_bootFailure | simp only [kept_upd] | split)

theorem kept_bootDerive {z s : State} (h : Kept z s) : Kept z (bootDerive s) := by
  unfold bootDerive
  try dsimp only
  repeat' (first
    | with_reducible assumption | simp only [kept_upd])

theorem kept_mgmt {z s : State} (x : MgmtReply) (h : Kept z s) : Kept z (mgmt s x) := by
  unfold mgmt
  try dsimp only
  repeat' (first
    | with_reducible assumption | simp only [kept_upd])

theorem kept_bootRom {z s : State} (found : BootFound) (h : Kept z s) : Kept z (bootRom found s) := by
  unfold bootRom
  try dsimp only
  repeat' (first
    | with_reducible assumption | with_reducible apply kept_mgmt | with_reducible apply kept_bootStaged
    | with_reducible apply kept_bootDerive | with_reducible apply kept_bootFailure | simp only [kept_upd]
    | split)

theorem kept_copyPersistent {z s : State} (h : Kept z s) : Kept z (copyPersistent s) := by
  unfold copyPersistent
  try dsimp only
  repeat' (first
    | with_reducible assumption | with_reducible apply kept_record | simp only [kept_upd] | split
    | with_reducible refine kept_foldl _ (fun _ _ _ => ?_) _ _ ?_)

theorem kept_bootHalt {z s : State} (step : Nat) (h : Kept z s) : Kept z (bootHalt s step) := by
  unfold bootHalt
  try dsimp only
  repeat' (first
    | with_reducible assumption | with_reducible apply kept_record | simp only [kept_upd])

theorem kept_bootFirmware {z s : State} (found : BootFound) (h : Kept z s) : Kept z (bootFirmware found s) := by
  unfold bootFirmware
  try dsimp only
  repeat' (first
    | with_reducible assumption | with_reducible apply kept_bootHalt | with_reducible apply kept_trainLink
    | with_reducible apply kept_copyPersistent | simp only [kept_upd] | split)

theorem keptO_execBoot {z s : State} (found : BootFound) (h : Kept z s) : KeptO z (execBoot found s) := by
  unfold execBoot
  try dsimp only
  repeat' (first
    | with_reducible assumption | refine keptO_next ?_ | with_reducible apply kept_bootRom
    | with_reducible apply kept_bootFirmware | simp only [kept_upd] | split)

theorem kept_requestAll {z s : State} (n : Nat) (h : Kept z s) : Kept z (requestAll s n) := by
  unfold requestAll
  try dsimp only
  repeat' (first
    | with_reducible assumption | simp only [kept_upd] | with_reducible apply kept_ite
    | with_reducible refine kept_foldl _ (fun _ _ _ => ?_) _ _ ?_ | with_reducible exact id
    | exact Nat.le_refl _ | exact fun hp => legalModes_of rfl rfl rfl rfl hp
    | exact fun he => boundedErrors_of rfl rfl he | split | intro _ | dsimp only | assumption | omega
    | (intro he; simp only [legalModes, boundedErrors] at he ⊢; with_reducible exact he)
    | (simp only [legalModes, boundedErrors, Bool.and_eq_true, decide_eq_true_eq] at *; omega)
    | apply kept_legal)

theorem keptO_execRecoveryImageReceive {z s : State} (component readBack : List Byte) (h : Kept z s) : KeptO z
    (execRecoveryImageReceive component readBack s) := by
  unfold execRecoveryImageReceive
  try dsimp only
  repeat' (first
    | with_reducible assumption | refine keptO_next ?_ | with_reducible apply kept_mgmt
    | with_reducible apply kept_requestAll | with_reducible apply kept_bootDerive
    | with_reducible apply kept_record | simp only [kept_upd] | split)

theorem keptO_execPldmRequestUpdate {z s : State} (ep : Endpoint) (h : Kept z s) : KeptO z (execPldmRequestUpdate ep
    s) := by
  unfold execPldmRequestUpdate
  try dsimp only
  repeat' (first
    | with_reducible assumption | refine keptO_next ?_ | with_reducible apply kept_mgmt
    | simp only [kept_upd] | split)

theorem keptO_execPldmComponentTransfer {z s : State} (ep : Endpoint) (component : List Byte) (h : Kept z s) : KeptO
    z (execPldmComponentTransfer ep component s) := by
  unfold execPldmComponentTransfer
  try dsimp only
  repeat' (first
    | with_reducible assumption | refine keptO_next ?_ | with_reducible apply kept_mgmt
    | with_reducible apply kept_record | simp only [kept_upd] | split)

theorem keptO_execPldmActivateFirmware {z s : State} (ep : Endpoint) (h : Kept z s) : KeptO z
    (execPldmActivateFirmware ep s) := by
  unfold execPldmActivateFirmware
  try dsimp only
  repeat' (first
    | with_reducible assumption | refine keptO_next ?_ | with_reducible apply kept_mgmt
    | simp only [kept_upd] | split)

theorem kept_commitSvn {z s : State} (h : Kept z s) : Kept z (commitSvn s) := by
  unfold commitSvn
  split
  · next hc =>
    refine kept_record _ (h.trans ⟨rfl, by simp [fusedSame], ?_, Nat.le_refl _, id, id, id⟩)
    exact Nat.le_max_left _ _
  · exact h

theorem keptO_execSvnCommit {z s : State} (h : Kept z s) : KeptO z (execSvnCommit s) := by
  unfold execSvnCommit
  try dsimp only
  repeat' (first
    | with_reducible assumption | refine keptO_next ?_ | with_reducible apply kept_commitSvn
    | simp only [kept_upd])

theorem kept_mctpAsk {z s : State} (ep : Endpoint) (ask : MctpAsk) (h : Kept z s) : Kept z (mctpAsk s ep ask) := by
  unfold mctpAsk
  try dsimp only
  repeat' (first
    | with_reducible assumption | simp only [kept_upd] | with_reducible apply kept_ite
    | with_reducible refine kept_foldl _ (fun _ _ _ => ?_) _ _ ?_ | with_reducible exact id
    | exact Nat.le_refl _ | exact fun hp => legalModes_of rfl rfl rfl rfl hp
    | exact fun he => boundedErrors_of rfl rfl he | split | intro _ | dsimp only | assumption | omega
    | (intro he; simp only [legalModes, boundedErrors] at he ⊢; with_reducible exact he)
    | (simp only [legalModes, boundedErrors, Bool.and_eq_true, decide_eq_true_eq] at *; omega)
    | apply kept_legal)

theorem keptO_execMctpControlMessage {z s : State} (ep : Endpoint) (body : MctpMessage) (h : Kept z s) : KeptO z
    (execMctpControlMessage ep body s) := by
  unfold execMctpControlMessage
  try dsimp only
  repeat' (first
    | with_reducible assumption | refine keptO_next ?_ | with_reducible apply kept_mgmt
    | with_reducible apply kept_mctpAsk | simp only [kept_upd] | split)

theorem keptO_execSpdmGetMeasurements {z s : State} (ep : Endpoint) (index : Nat) (nonce : List Byte) (h : Kept z s)
    : KeptO z (execSpdmGetMeasurements ep index nonce s) := by
  unfold execSpdmGetMeasurements
  try dsimp only
  repeat' (first
    | with_reducible assumption | refine keptO_next ?_ | with_reducible apply kept_mgmt
    | simp only [kept_upd] | split)

theorem keptO_execSpdmGetCertificate {z s : State} (ep : Endpoint) (slot : Nat) (h : Kept z s) : KeptO z
    (execSpdmGetCertificate ep slot s) := by
  unfold execSpdmGetCertificate
  try dsimp only
  repeat' (first
    | with_reducible assumption | refine keptO_next ?_ | with_reducible apply kept_mgmt
    | simp only [kept_upd] | split)

theorem keptO_execSpdmChallenge {z s : State} (ep : Endpoint) (slot : Nat) (nonce : List Byte) (h : Kept z s) :
    KeptO z (execSpdmChallenge ep slot nonce s) := by
  unfold execSpdmChallenge
  try dsimp only
  repeat' (first
    | with_reducible assumption | refine keptO_next ?_ | with_reducible apply kept_mgmt
    | simp only [kept_upd] | split)

theorem kept_addSession {z s : State} (ep : Endpoint) (h : Kept z s) : Kept z (addSession s ep) := by
  unfold addSession
  try dsimp only
  repeat' (first
    | with_reducible assumption | simp only [kept_upd] | split)

theorem keptO_execSpdmKeyExchange {z s : State} (ep : Endpoint) (slot : Nat) (exchange : List Byte) (h : Kept z s) :
    KeptO z (execSpdmKeyExchange ep slot exchange s) := by
  unfold execSpdmKeyExchange
  try dsimp only
  repeat' (first
    | with_reducible assumption | refine keptO_next ?_ | with_reducible apply kept_mgmt
    | with_reducible apply kept_addSession | simp only [kept_upd] | split)

theorem keptO_execSpdmHeartbeat {z s : State} (ep : Endpoint) (session : Nat) (h : Kept z s) : KeptO z
    (execSpdmHeartbeat ep session s) := by
  unfold execSpdmHeartbeat
  try dsimp only
  repeat' (first
    | with_reducible assumption | refine keptO_next ?_ | with_reducible apply kept_mgmt
    | simp only [kept_upd] | split)

theorem keptO_execIdeKm {z s : State} (ep : Endpoint) (session stream : Nat) (key : BitVec 256) (go : Bool) (h :
    Kept z s) : KeptO z (execIdeKm ep session stream key go s) := by
  unfold execIdeKm
  try dsimp only
  repeat' (first
    | with_reducible assumption | refine keptO_next ?_ | with_reducible apply kept_mgmt
    | simp only [kept_upd] | split)

theorem kept_selvGo {z s : State} (h : Kept z s) : Kept z (selvGo s) := by
  unfold selvGo
  try dsimp only
  repeat' (first
    | with_reducible assumption | simp only [kept_upd] | split)

theorem keptO_execCellarSelvGo {z s : State} (h : Kept z s) : KeptO z (execCellarSelvGo s) := by
  unfold execCellarSelvGo
  try dsimp only
  repeat' (first
    | with_reducible assumption | refine keptO_next ?_ | with_reducible apply kept_selvGo
    | simp only [kept_upd])

theorem kept_selvRange {z s : State} (h : Kept z s) : Kept z (selvRange s) := by
  unfold selvRange
  try dsimp only
  repeat' (first
    | with_reducible assumption | with_reducible apply kept_noteW1c | with_reducible apply kept_record
    | simp only [kept_upd])

theorem kept_selvEnd {z s : State} (cfg : Word) (poly init : Dword) (t : Tier) (off len : Nat) (expect : Dword) (ecc
    : MemEcc) (h : Kept z s) : Kept z (selvEnd s cfg poly init t off len expect ecc) := by
  unfold selvEnd
  try dsimp only
  repeat' (first
    | with_reducible assumption | with_reducible apply kept_eccRead | with_reducible apply kept_noteW1c
    | with_reducible apply kept_record | simp only [kept_upd] | split)

theorem keptO_execHostSelvRunComplete {z s : State} (ecc : MemEcc) (h : Kept z s) : KeptO z (execHostSelvRunComplete
    ecc s) := by
  unfold execHostSelvRunComplete
  try dsimp only
  repeat' (first
    | with_reducible assumption | refine keptO_next ?_ | with_reducible apply kept_selvRange
    | with_reducible apply kept_selvEnd | simp only [kept_upd] | split)

end Sys2Proof.Machine
end

