-- ==== Sys2Proof/Laws/KeptCasks.lean ====
section
/-! SUPPORT. What the operations of Machine/Casks.lean keep: `Kept` of each, from that of the operations it uses. -/

namespace Sys2Proof.Machine

theorem kept_modBucket {z s : State} (l : CaskLoc) (g : CaskBucket → CaskBucket) (h : Kept z s) : Kept z (modBucket
    s l g) := by
  unfold modBucket
  try dsimp only
  repeat' (first
    | with_reducible assumption | with_reducible apply kept_modCask | simp only [kept_upd])

theorem kept_caskRecord {z s : State} (l : CaskLoc) (kind detail : Nat) (h : Kept z s) : Kept z (caskRecord s l kind
    detail) := by
  unfold caskRecord
  try dsimp only
  repeat' (first
    | with_reducible assumption | with_reducible apply kept_record | simp only [kept_upd])

theorem kept_withhold {z s : State} (l : CaskLoc) (m : Nat) (h : Kept z s) : Kept z (withhold s l m) := by
  unfold withhold
  try dsimp only
  repeat' (first
    | with_reducible assumption | with_reducible apply kept_modBucket | with_reducible apply kept_bumpCask
    | with_reducible apply kept_caskRecord | simp only [kept_upd] | split)

theorem kept_judgeUnit {z s : State} (l : CaskLoc) (m u : Nat) (backup selv pass : Bool) (h : Kept z s) : Kept z
    (judgeUnit s l m u backup selv pass) := by
  unfold judgeUnit
  try dsimp only
  repeat' (first
    | with_reducible assumption | with_reducible apply kept_bumpCask | with_reducible apply kept_modBucket
    | simp only [kept_upd] | split)

theorem kept_meetVerdict {z s : State} (l : CaskLoc) (m u : Nat) (backup pass : Bool) (h : Kept z s) : Kept z
    (meetVerdict s l m u backup pass) := by
  unfold meetVerdict
  try dsimp only
  repeat' (first
    | with_reducible assumption | with_reducible apply kept_modBucket | with_reducible apply kept_judgeUnit
    | simp only [kept_upd] | split)

theorem kept_applyPiece {z s : State} (l : CaskLoc) (m u : Nat) (backup : Bool) (h : Kept z s) : Kept z (applyPiece
    s l m u backup) := by
  unfold applyPiece
  try dsimp only
  repeat' (first
    | with_reducible assumption | with_reducible apply kept_meetVerdict
    | with_reducible apply kept_modBucket | simp only [kept_upd] | with_reducible apply kept_ite
    | with_reducible refine kept_foldl _ (fun _ _ _ => ?_) _ _ ?_ | with_reducible exact id
    | exact Nat.le_refl _ | exact fun hp => legalModes_of rfl rfl rfl rfl hp
    | exact fun he => boundedErrors_of rfl rfl he | split | intro _ | dsimp only | assumption | omega
    | (intro he; simp only [legalModes, boundedErrors] at he ⊢; with_reducible exact he)
    | (simp only [legalModes, boundedErrors, Bool.and_eq_true, decide_eq_true_eq] at *; omega)
    | apply kept_legal)

theorem kept_applySelv {z s : State} (l : CaskLoc) (m u : Nat) (backup : Bool) (h : Kept z s) : Kept z (applySelv s
    l m u backup) := by
  unfold applySelv
  try dsimp only
  repeat' (first
    | with_reducible assumption | with_reducible apply kept_judgeUnit | with_reducible apply kept_modBucket
    | simp only [kept_upd] | with_reducible apply kept_ite
    | with_reducible refine kept_foldl _ (fun _ _ _ => ?_) _ _ ?_ | with_reducible exact id
    | exact Nat.le_refl _ | exact fun hp => legalModes_of rfl rfl rfl rfl hp
    | exact fun he => boundedErrors_of rfl rfl he | split | intro _ | dsimp only | assumption | omega
    | (intro he; simp only [legalModes, boundedErrors] at he ⊢; with_reducible exact he)
    | (simp only [legalModes, boundedErrors, Bool.and_eq_true, decide_eq_true_eq] at *; omega)
    | apply kept_legal)

theorem kept_placeUnit {z s t : State} {l : CaskLoc} {r : BucketRec} {x : CaskBucket} {a : Int} {m u sender : Nat}
    {backup prov selv : Bool} {bytes : List Byte}
    (ht : placeUnit s l r x a m u sender backup prov selv bytes = .done t) (h : Kept z s) : Kept z t := by
  unfold placeUnit at ht
  split at ht
  · cases ht
  · cases ht
    repeat' (first
      | with_reducible assumption | with_reducible apply kept_applySelv | with_reducible apply kept_applyPiece
      | with_reducible apply kept_caskRecord | with_reducible apply kept_bumpCask | with_reducible apply kept_modBucket
      | split)

theorem kept_compareUnit {z s : State} (l : CaskLoc) (x : CaskBucket) (m u sender : Nat) (backup prov : Bool) (bytes
    : List Byte) (h : Kept z s) : Kept z (compareUnit s l x m u sender backup prov bytes) := by
  unfold compareUnit
  try dsimp only
  repeat' (first
    | with_reducible assumption | with_reducible apply kept_modBucket
    | with_reducible apply kept_applyPiece | with_reducible apply kept_bumpCask
    | with_reducible apply kept_caskRecord | with_reducible apply kept_withhold | simp only [kept_upd]
    | split)

theorem kept_acceptUnit {z s t : State} {l : CaskLoc} {r : BucketRec} {m u sender : Nat} {backup prov : Bool}
    {bytes : List Byte} (ht : acceptUnit s l r m u sender backup prov bytes = .done t) (h : Kept z s) : Kept z t := by
  unfold acceptUnit at ht
  dsimp only at ht
  split at ht
  · cases ht
  · split at ht
    · cases ht
    · repeat' split at ht
      · cases ht; exact h
      · cases ht
      · cases ht; exact kept_compareUnit _ _ _ _ _ _ _ _ h
      · exact kept_placeUnit ht h

theorem kept_acceptUnits {z : State} (l : CaskLoc) (r : BucketRec) (m sender : Nat) (backup prov : Bool) (n u : Nat)
    (bytes : List Byte) (s : State) (h : Kept z s) : Kept z (acceptUnits l r m sender backup prov n u bytes s).1 := by
  induction n generalizing u bytes s with
  | zero => exact h
  | succ n ih =>
    unfold acceptUnits
    split
    · next t ht => exact ih _ _ _ (kept_acceptUnit ht h)
    · exact h

theorem kept_fixAnchor {z s : State} (l : CaskLoc) (r : BucketRec) (h : Kept z s) : Kept z (fixAnchor s l r) := by
  unfold fixAnchor
  try dsimp only
  repeat' (first
    | with_reducible assumption | with_reducible apply kept_modBucket | simp only [kept_upd])

theorem kept_acceptHeader {z s : State} (l : CaskLoc) (r : BucketRec) (m : Nat) (e : Int) (h : Kept z s) : Kept z
    (acceptHeader s l r m e) := by
  unfold acceptHeader
  try dsimp only
  repeat' (first
    | with_reducible assumption | with_reducible apply kept_fixAnchor | with_reducible apply kept_modBucket
    | simp only [kept_upd])

theorem kept_discardLate {z s : State} (k : Nat) (rx : Rx) (record_ : Bool) (h : Kept z s) : Kept z (discardLate s k
    rx record_) := by
  unfold discardLate
  try dsimp only
  repeat' (first
    | with_reducible assumption | with_reducible apply kept_bumpCask | with_reducible apply kept_modCask
    | with_reducible apply kept_record | simp only [kept_upd] | split)

theorem kept_discardInvalid {z s : State} (l : CaskLoc) (rx : Rx) (h : Kept z s) : Kept z (discardInvalid s l rx) :=
    by
  unfold discardInvalid
  try dsimp only
  repeat' (first
    | with_reducible assumption | with_reducible apply kept_caskRecord | with_reducible apply kept_bumpCask
    | simp only [kept_upd])

theorem kept_countBackups {z s : State} (l : CaskLoc) (h : Kept z s) : Kept z (countBackups s l) := by
  unfold countBackups
  try dsimp only
  repeat' (first
    | with_reducible assumption | with_reducible apply kept_bumpCask | with_reducible apply kept_modBucket
    | simp only [kept_upd] | with_reducible apply kept_ite
    | with_reducible refine kept_foldl _ (fun _ _ _ => ?_) _ _ ?_ | with_reducible exact id
    | exact Nat.le_refl _ | exact fun hp => legalModes_of rfl rfl rfl rfl hp
    | exact fun he => boundedErrors_of rfl rfl he | split | intro _ | dsimp only | assumption | omega
    | (intro he; simp only [legalModes, boundedErrors] at he ⊢; with_reducible exact he)
    | (simp only [legalModes, boundedErrors, Bool.and_eq_true, decide_eq_true_eq] at *; omega)
    | apply kept_legal)

theorem kept_caskPlace {z s : State} (l : CaskLoc) (r : BucketRec) (rx : Rx) (m : Nat) (h : Kept z s) :
    Kept z (caskState (caskPlace s l r rx m)) := by
  have hu := kept_acceptUnits l r m rx.sender rx.frame.backup rx.frame.prov (rx.frame.data.length / 512)
    (faElem rx.frame.addr / 256) rx.frame.data s h
  unfold caskPlace
  dsimp only
  split
  · next t ht => rw [ht] at hu; exact kept_countBackups _ hu
  · next t u bytes ht => rw [ht] at hu; exact kept_countBackups _ hu

theorem kept_caskIvq {z s : State} (l : CaskLoc) (r : BucketRec) (rx : Rx) (m : Nat) (cfg : Word × Word × Word)
    (count part parts : Nat) (h : Kept z s) : Kept z (caskState (caskIvq s l r rx m cfg count part parts)) := by
  unfold caskIvq
  dsimp only
  split
  · exact h
  · split
    · exact kept_modBucket _ _ h
    · exact kept_caskPlace _ _ _ _ (kept_modBucket _ _ (kept_mk h))

theorem kept_caskVerdict {z s : State} (l : CaskLoc) (r : BucketRec) (rx : Rx) (m off count : Nat) (pass : Bool) (h
    : Kept z s) : Kept z (caskVerdict s l r rx m off count pass) := by
  unfold caskVerdict
  try dsimp only
  repeat' (first
    | with_reducible assumption | with_reducible apply kept_countBackups
    | with_reducible apply kept_meetVerdict | with_reducible apply kept_modBucket | simp only [kept_upd]
    | split | with_reducible refine kept_foldl _ (fun _ _ _ => ?_) _ _ ?_)

theorem kept_caskAccept {z s : State} (l : CaskLoc) (r : BucketRec) (x : CaskBucket) (rx : Rx)
    (cfg : Word × Word × Word) (h : Kept z s) : Kept z (caskState (caskAccept s l r x rx cfg)) := by
  unfold caskAccept
  dsimp only
  repeat' split
  all_goals try simp only [caskState_acted, caskState_hold]
  all_goals first
    | with_reducible exact h
    | with_reducible exact kept_discardInvalid _ _ h
    | with_reducible exact kept_acceptHeader _ _ _ _ h
    | with_reducible exact kept_caskIvq _ _ _ _ _ _ _ _ h
    | with_reducible exact kept_caskPlace _ _ _ _ h
    | with_reducible exact kept_caskVerdict _ _ _ _ _ _ _ h

theorem kept_caskAct {z s : State} (rx : Rx) (cfg : Word × Word × Word) (h : Kept z s) :
    Kept z (caskState (caskAct s rx cfg)) := by
  unfold caskAct
  dsimp only
  repeat' split
  all_goals try simp only [caskState_acted, caskState_hold]
  all_goals first
    | with_reducible exact h
    | with_reducible exact kept_discardLate _ _ _ h
    | with_reducible exact kept_caskAccept _ _ _ _ _ h

theorem kept_caskAck {z s : State} (rx : Rx) (h : Kept z s) : Kept z (caskAck s rx) := by
  unfold caskAck
  try dsimp only
  repeat' (first
    | with_reducible assumption | with_reducible apply kept_sendTo | simp only [kept_upd])

theorem kept_caskArrive {z s : State} (rx : Rx) (cfg : Word × Word × Word) (h : Kept z s) :
    Kept z (caskArrive s rx cfg) := by
  have ha : Kept z (caskState (caskAct s rx cfg)) := kept_caskAct rx cfg h
  unfold caskArrive
  dsimp only
  split
  · exact kept_modCask _ _ (kept_mk h)
  · split
    · next t ht => exact kept_freeRx _ _ (kept_caskAck _ (caskState_acted t ▸ ht ▸ ha))
    · next t f ht => exact kept_modCask _ _ (kept_mk (caskState_hold t f ▸ ht ▸ ha))

theorem keptO_caskReceive {z s : State} (kind : Byte) (rx : Rx) (h : Kept z s) : KeptO z (caskReceive kind rx s) := by
  unfold caskReceive
  split
  · split
    · next t ht => exact keptO_next (kept_caskArrive _ _ (kept_takeRx ht h))
    · exact keptO_next h
  · exact keptO_next h

theorem kept_caskSram {z s : State} (rx : Rx) (h : Kept z s) : Kept z (caskSram s rx) := by
  unfold caskSram
  try dsimp only
  repeat' (first
    | with_reducible assumption | with_reducible apply kept_caskRecord
    | with_reducible apply kept_modBucket | simp only [kept_upd] | split)

theorem keptO_execCaskHdrReceive {z s : State} (rx : Rx) (h : Kept z s) : KeptO z (execCaskHdrReceive rx s) := by
  unfold execCaskHdrReceive
  try dsimp only
  repeat' (first
    | with_reducible assumption | with_reducible apply keptO_caskReceive | simp only [kept_upd])

theorem keptO_execCaskPieceReceive {z s : State} (rx : Rx) (sramDouble : Bool) (h : Kept z s) :
    KeptO z (execCaskPieceReceive rx sramDouble s) := by
  unfold execCaskPieceReceive
  split
  · exact keptO_caskReceive _ _ (kept_caskSram _ h)
  · exact keptO_caskReceive _ _ h

theorem keptO_execVerdictReceive {z s : State} (rx : Rx) (h : Kept z s) : KeptO z (execVerdictReceive rx s) := by
  unfold execVerdictReceive
  try dsimp only
  repeat' (first
    | with_reducible assumption | with_reducible apply keptO_caskReceive | simp only [kept_upd])

theorem kept_releaseFrame {z s : State} (k : Nat) (x : HeldFrame) (h : Kept z s) : Kept z (releaseFrame k s x) := by
  have ha := kept_caskAct x.rx x.cfg h
  unfold releaseFrame
  split
  · next t ht => rw [ht] at ha; exact kept_freeRx _ _ (kept_caskAck _ (kept_modCask _ _ ha))
  · next t f ht => rw [ht] at ha; exact kept_modCask _ _ ha

theorem kept_discardHeld {z s : State} (p : Part) (h : Kept z s) : Kept z (discardHeld s p) := by
  unfold discardHeld
  try dsimp only
  repeat' (first
    | with_reducible assumption | with_reducible apply kept_releaseFrame | simp only [kept_upd]
    | with_reducible apply kept_ite | with_reducible refine kept_foldl _ (fun _ _ _ => ?_) _ _ ?_
    | with_reducible exact id | exact Nat.le_refl _ | exact fun hp => legalModes_of rfl rfl rfl rfl hp
    | exact fun he => boundedErrors_of rfl rfl he | split | intro _ | dsimp only | assumption | omega
    | (intro he; simp only [legalModes, boundedErrors] at he ⊢; with_reducible exact he)
    | (simp only [legalModes, boundedErrors, Bool.and_eq_true, decide_eq_true_eq] at *; omega)
    | apply kept_legal)

theorem keptO_execHeldFrameRelease {z s : State} (cask : Fin 8) (id : Nat) (h : Kept z s) :
    KeptO z (execHeldFrameRelease cask id s) := by
  unfold execHeldFrameRelease
  dsimp only
  repeat' (first
    | with_reducible assumption | refine keptO_next ?_ | with_reducible apply kept_releaseFrame | split)

theorem keptO_execCaskSelvVerdict {z s : State} (cask : Fin 8) (id : Nat) (h : Kept z s) : KeptO z
    (execCaskSelvVerdict cask id s) := by
  unfold execCaskSelvVerdict
  try dsimp only
  repeat' (first
    | with_reducible assumption | refine keptO_next ?_ | with_reducible apply kept_record
    | with_reducible apply kept_bumpCask | with_reducible apply kept_modBucket
    | with_reducible apply kept_countBackups | with_reducible apply kept_judgeUnit | simp only [kept_upd]
    | split | with_reducible refine kept_foldl _ (fun _ _ _ => ?_) _ _ ?_)

theorem kept_settleGroup {z s : State} (p : Part) (i : Nat) (h : Kept z s) : Kept z (settleGroup s p i) := by
  unfold settleGroup
  try dsimp only
  repeat' (first
    | with_reducible assumption | with_reducible apply kept_modPart | with_reducible apply kept_sendAll
    | simp only [kept_upd] | split)

theorem kept_settleGroups {z s : State} (low : Nat) (h : Kept z s) : Kept z (settleGroups s low) := by
  unfold settleGroups
  try dsimp only
  repeat' (first
    | with_reducible assumption | with_reducible apply kept_settleGroup | simp only [kept_upd] | split
    | with_reducible refine kept_foldl _ (fun _ _ _ => ?_) _ _ ?_)

theorem kept_takeNorm {z s : State} (rx : Rx) (h : Kept z s) : Kept z (takeNorm rx s) := by
  unfold takeNorm
  try dsimp only
  repeat' (first
    | with_reducible assumption | with_reducible apply kept_settleGroups
    | with_reducible apply kept_modPart | simp only [kept_upd] | split)

theorem keptO_execNormReceive {z s : State} (rx : Rx) (h : Kept z s) : KeptO z (execNormReceive rx s) := by
  unfold execNormReceive
  try dsimp only
  repeat' (first
    | with_reducible assumption | refine keptO_next ?_ | with_reducible apply keptO_withRx
    | with_reducible apply kept_takeNorm | simp only [kept_upd] | split | intro _)

theorem keptO_execSectionSeal {z s : State} (cask : Fin 8) (q : Fin 8) (bkt : Half) (h : Kept z s) : KeptO z
    (execSectionSeal cask q bkt s) := by
  unfold execSectionSeal
  try dsimp only
  repeat' (first
    | with_reducible assumption | refine keptO_next ?_ | with_reducible apply kept_settleGroups
    | with_reducible apply kept_modBucket | simp only [kept_upd] | split)

theorem keptO_execBucketDeadline {z s : State} (cask : Fin 8) (q : Fin 8) (bkt : Half) (h : Kept z s) : KeptO z
    (execBucketDeadline cask q bkt s) := by
  unfold execBucketDeadline
  try dsimp only
  repeat' (first
    | with_reducible assumption | refine keptO_next ?_ | with_reducible apply kept_modBucket
    | with_reducible apply kept_withhold | with_reducible apply kept_fixAnchor | simp only [kept_upd]
    | split | with_reducible refine kept_foldl _ (fun _ _ _ => ?_) _ _ ?_)

theorem kept_elapseSection {z s : State} (l : CaskLoc) (r : BucketRec) (i : Nat) (h : Kept z s) : Kept z
    (elapseSection s l r i) := by
  unfold elapseSection
  try dsimp only
  repeat' (first
    | with_reducible assumption | with_reducible apply kept_modBucket
    | with_reducible apply kept_countBackups | with_reducible apply kept_withhold | simp only [kept_upd]
    | split | with_reducible refine kept_foldl _ (fun _ _ _ => ?_) _ _ ?_)

theorem keptO_execSectionDeadline {z s : State} (cask : Fin 8) (q : Fin 8) (bkt : Half) (h : Kept z s) : KeptO z
    (execSectionDeadline cask q bkt s) := by
  unfold execSectionDeadline
  try dsimp only
  repeat' (first
    | with_reducible assumption | refine keptO_next ?_ | with_reducible apply kept_elapseSection
    | simp only [kept_upd] | split)

end Sys2Proof.Machine
end

