-- ==== Sys2Proof/Laws/KeptRings.lean ====
section
/-! SUPPORT. What the operations of Machine/Rings.lean keep: `Kept` of each, from that of the operations it uses. -/

namespace Sys2Proof.Machine

theorem kept_completeCmd {z s : State} (r : Nat) (tag : Half) (status detail : Nat) (h : Kept z s) : Kept z
    (completeCmd s r tag status detail) := by
  unfold completeCmd
  try dsimp only
  repeat' (first
    | with_reducible assumption | with_reducible apply kept_setRing | with_reducible apply kept_raiseVector
    | simp only [kept_upd] | split)

theorem kept_completeBusy {z s : State} (r opc status detail : Nat) (h : Kept z s) : Kept z (completeBusy s r opc
    status detail) := by
  unfold completeBusy
  try dsimp only
  repeat' (first
    | with_reducible assumption | with_reducible apply kept_completeCmd | simp only [kept_upd] | split)

theorem keptO_ringCommand {z s : State} (opc : Nat) (r : Fin 8) (e : CmdEntry) (fields : Bool) (states : Part → Bool)
    (g : Part → State → State) (hg : ∀ p t, Kept z t → Kept z (g p t)) (h : Kept z s) :
    KeptO z (ringCommand opc r e s fields states g) := by
  have ht : Kept z (modRing s r.val (fun x => { x with head := ringNext x x.head })) := kept_modRing _ _ h
  unfold ringCommand
  split
  · exact keptO_next h
  · dsimp only
    split
    · exact keptO_next (kept_completeCmd _ _ _ _ ht)
    · split
      · exact keptO_next (kept_completeCmd _ _ _ _ ht)
      · split
        · exact keptO_next (kept_completeCmd _ _ _ _ ht)
        · split
          · exact keptO_next (kept_completeCmd _ _ _ _ ht)
          · refine keptO_next ?_
            split
            · exact hg _ _ ht
            · exact kept_completeCmd _ _ _ _ ht

theorem kept_keepBusy {z s : State} (r opc : Nat) (tag : Half) (h : Kept z s) : Kept z (keepBusy s r opc tag) := by
  unfold keepBusy
  try dsimp only
  repeat' (first
    | with_reducible assumption | with_reducible apply kept_modRing | simp only [kept_upd])

theorem kept_tailWrite {z s : State} (r : Nat) (value : Word) (h : Kept z s) : Kept z (tailWrite s r value) := by
  unfold tailWrite
  try dsimp only
  repeat' (first
    | with_reducible assumption | with_reducible apply kept_modRing | simp only [kept_upd])

theorem keptO_execCellarRingTailWrite {z s : State} (r : Fin 8) (value : Word) (h : Kept z s) : KeptO z
    (execCellarRingTailWrite r value s) := by
  unfold execCellarRingTailWrite
  try dsimp only
  repeat' (first
    | with_reducible assumption | refine keptO_next ?_ | with_reducible apply kept_tailWrite
    | simp only [kept_upd])

theorem kept_cplHeadWrite {z s : State} (r : Nat) (value : Word) (h : Kept z s) : Kept z (cplHeadWrite s r value) :=
    by
  unfold cplHeadWrite
  try dsimp only
  repeat' (first
    | with_reducible assumption | with_reducible apply kept_modRing | simp only [kept_upd])

theorem keptO_execCellarCplHeadWrite {z s : State} (r : Fin 8) (value : Word) (h : Kept z s) : KeptO z
    (execCellarCplHeadWrite r value s) := by
  unfold execCellarCplHeadWrite
  try dsimp only
  repeat' (first
    | with_reducible assumption | refine keptO_next ?_ | with_reducible apply kept_cplHeadWrite
    | simp only [kept_upd])

theorem kept_ctrlWrite {z s : State} (r : Nat) (value : Word) (h : Kept z s) : Kept z (ctrlWrite s r value) := by
  unfold ctrlWrite
  try dsimp only
  repeat' (first
    | with_reducible assumption | with_reducible apply kept_modRing | simp only [kept_upd])

theorem keptO_execCellarRingCtrlWrite {z s : State} (r : Fin 8) (value : Word) (h : Kept z s) : KeptO z
    (execCellarRingCtrlWrite r value s) := by
  unfold execCellarRingCtrlWrite
  try dsimp only
  repeat' (first
    | with_reducible assumption | refine keptO_next ?_ | with_reducible apply kept_ctrlWrite
    | simp only [kept_upd])

end Sys2Proof.Machine
end

