-- ==== Sys2Proof/Laws/KeptContext.lean ====
section
/-! SUPPORT. What the operations of Machine/Context.lean keep: `Kept` of each, from that of the operations it uses. -/

namespace Sys2Proof.Machine

theorem kept_abandonPart {z s : State} (p : Part) (h : Kept z s) : Kept z (abandonPart s p) := by
  unfold abandonPart
  try dsimp only
  repeat' (first
    | with_reducible assumption | simp only [kept_upd])

theorem kept_dropHeldSignals {z s : State} (p : Part) (h : Kept z s) : Kept z (dropHeldSignals s p) := by
  unfold dropHeldSignals
  try dsimp only
  repeat' (first
    | with_reducible assumption | simp only [kept_upd])

theorem kept_clearPart {z s : State} (p : Part) (h : Kept z s) : Kept z (clearPart s p) := by
  unfold clearPart
  try dsimp only
  repeat' (first
    | with_reducible assumption | with_reducible apply kept_dropHeldSignals
    | with_reducible apply kept_abandonPart | with_reducible apply kept_modCore
    | with_reducible apply kept_modPartQuads | with_reducible apply kept_modCask
    | with_reducible apply kept_modPart | simp only [kept_upd] | split
    | with_reducible refine kept_foldl _ (fun _ _ _ => ?_) _ _ ?_)

theorem kept_loadPair {z s : State} (x : Nat × Option Nat) (h : Kept z s) : Kept z (loadPair s x) := by
  unfold loadPair
  try dsimp only
  repeat' (first
    | with_reducible assumption | with_reducible apply kept_modQuad | simp only [kept_upd])

theorem kept_acceptLoad {z s : State} (p : Part) (x : Binary) (cs : List CoreImage) (e : CmdEntry) (input :
    LoadInput) (len : Nat) (h : Kept z s) : Kept z (acceptLoad s p x cs e input len) := by
  unfold acceptLoad
  try dsimp only
  repeat' (first
    | with_reducible assumption | with_reducible apply kept_writeMemBytes
    | with_reducible apply kept_modPart | with_reducible apply kept_modCore
    | with_reducible apply kept_loadPair | with_reducible apply kept_modPartQuads | simp only [kept_upd]
    | split | with_reducible refine kept_foldl _ (fun _ _ _ => ?_) _ _ ?_)

theorem kept_spoilRegion {z s : State} (at_ len : Nat) (h : Kept z s) : Kept z (spoilRegion s at_ len) := by
  unfold spoilRegion
  refine kept_legal ?_ id id (kept_writeMemBytes Tier.hbm at_ (drawBytes s.draws len) h)
  show (writeMemBytes s .hbm at_ (drawBytes s.draws len)).draws ≤ s.draws + len
  have hd : (writeMemBytes s .hbm at_ (drawBytes s.draws len)).draws = s.draws := rfl
  omega

theorem kept_doLoad {z s : State} (r : Nat) (e : CmdEntry) (input : LoadInput) (p : Part) (h : Kept z s) : Kept z
    (doLoad r e input p s) := by
  unfold doLoad
  try dsimp only
  repeat' (first
    | with_reducible assumption | with_reducible apply kept_completeCmd
    | with_reducible apply kept_spoilRegion | with_reducible apply kept_acceptLoad | simp only [kept_upd]
    | split)

theorem keptO_execLoad {z s : State} (r : Fin 8) (e : CmdEntry) (input : LoadInput) (h : Kept z s) : KeptO z
    (execLoad r e input s) := by
  unfold execLoad
  try dsimp only
  repeat' (first
    | with_reducible assumption | refine keptO_next ?_ | with_reducible apply kept_snoopLines
    | with_reducible apply keptO_ringCommand | with_reducible apply kept_doLoad | simp only [kept_upd]
    | split | intro _)

theorem kept_enterRunning {z s : State} (p : Part) (fresh : Bool) (h : Kept z s) : Kept z (enterRunning s p fresh)
    := by
  unfold enterRunning
  try dsimp only
  repeat' (first
    | with_reducible assumption | with_reducible apply kept_modCore
    | with_reducible apply kept_modPartQuads | with_reducible apply kept_modPart | simp only [kept_upd]
    | split | with_reducible refine kept_foldl _ (fun _ _ _ => ?_) _ _ ?_)

theorem keptO_execStart {z s : State} (r : Fin 8) (e : CmdEntry) (h : Kept z s) : KeptO z (execStart r e s) := by
  unfold execStart
  try dsimp only
  repeat' (first
    | with_reducible assumption | with_reducible apply keptO_ringCommand
    | with_reducible apply kept_completeCmd | with_reducible apply kept_enterRunning | simp only [kept_upd]
    | split | intro _)

theorem kept_stopPart {z s : State} (low : Nat) (h : Kept z s) : Kept z (stopPart s low) := by
  unfold stopPart
  try dsimp only
  repeat' (first
    | with_reducible assumption | with_reducible apply kept_modPart | simp only [kept_upd])

theorem kept_stopAll {z s : State} (h : Kept z s) : Kept z (stopAll s) := by
  unfold stopAll
  try dsimp only
  repeat' (first
    | with_reducible assumption | with_reducible apply kept_stopPart | simp only [kept_upd] | split
    | with_reducible refine kept_foldl _ (fun _ _ _ => ?_) _ _ ?_)

theorem keptO_execStop {z s : State} (r : Fin 8) (e : CmdEntry) (h : Kept z s) : KeptO z (execStop r e s) := by
  unfold execStop
  try dsimp only
  repeat' (first
    | with_reducible assumption | with_reducible apply keptO_ringCommand
    | with_reducible apply kept_keepBusy | with_reducible apply kept_stopPart | simp only [kept_upd]
    | split | intro _)

theorem kept_leaveRunning {z s : State} (p : Part) (ctx : Ctx) (h : Kept z s) : Kept z (leaveRunning s p ctx) := by
  unfold leaveRunning
  try dsimp only
  repeat' (first
    | with_reducible assumption | with_reducible apply kept_modPartQuads
    | with_reducible apply kept_modPart | simp only [kept_upd])

theorem keptO_execContextStopped {z s : State} (q : Fin 8) (h : Kept z s) : KeptO z (execContextStopped q s) := by
  unfold execContextStopped
  try dsimp only
  repeat' (first
    | with_reducible assumption | exact keptO_fault _ _ | refine keptO_next ?_
    | with_reducible apply kept_completeBusy | with_reducible apply kept_leaveRunning
    | simp only [kept_upd] | split)

theorem keptO_execContextFaulted {z s : State} (q : Fin 8) (h : Kept z s) : KeptO z (execContextFaulted q s) := by
  unfold execContextFaulted
  try dsimp only
  repeat' (first
    | with_reducible assumption | exact keptO_fault _ _ | refine keptO_next ?_
    | with_reducible apply kept_modCore | with_reducible apply kept_completeBusy
    | with_reducible apply kept_leaveRunning | simp only [kept_upd] | split
    | with_reducible refine kept_foldl _ (fun _ _ _ => ?_) _ _ ?_)

theorem keptO_execUnload {z s : State} (r : Fin 8) (e : CmdEntry) (h : Kept z s) : KeptO z (execUnload r e s) := by
  unfold execUnload
  try dsimp only
  repeat' (first
    | with_reducible assumption | with_reducible apply keptO_ringCommand
    | with_reducible apply kept_modPart | with_reducible apply kept_clearPart
    | with_reducible apply kept_keepBusy | simp only [kept_upd] | split | intro _)

theorem keptO_execContextClearComplete {z s : State} (q : Fin 8) (h : Kept z s) : KeptO z (execContextClearComplete
    q s) := by
  unfold execContextClearComplete
  try dsimp only
  repeat' (first
    | with_reducible assumption | refine keptO_next ?_ | with_reducible apply kept_completeBusy
    | with_reducible apply kept_modPart | simp only [kept_upd] | with_reducible apply kept_ite
    | with_reducible refine kept_foldl _ (fun _ _ _ => ?_) _ _ ?_ | with_reducible exact id
    | exact Nat.le_refl _ | exact fun hp => legalModes_of rfl rfl rfl rfl hp
    | exact fun he => boundedErrors_of rfl rfl he | split | intro _ | dsimp only | assumption | omega
    | (intro he; simp only [legalModes, boundedErrors] at he ⊢; with_reducible exact he)
    | (simp only [legalModes, boundedErrors, Bool.and_eq_true, decide_eq_true_eq] at *; omega)
    | apply kept_legal)

theorem kept_applyLayout {z s : State} (arg : Nat) (h : Kept z s) : Kept z (applyLayout s arg) := by
  unfold applyLayout
  try dsimp only
  repeat' (first
    | with_reducible assumption | with_reducible apply kept_modPartQuads | simp only [kept_upd] | split
    | with_reducible refine kept_foldl _ (fun _ _ _ => ?_) _ _ ?_)

theorem keptO_execPartition {z s : State} (r : Fin 8) (e : CmdEntry) (h : Kept z s) : KeptO z (execPartition r e s)
    := by
  unfold execPartition
  try dsimp only
  repeat' (first
    | with_reducible assumption | with_reducible apply keptO_ringCommand
    | with_reducible apply kept_completeCmd | with_reducible apply kept_applyLayout | simp only [kept_upd]
    | split | intro _)

end Sys2Proof.Machine
end

