-- ==== Sys2Proof/Laws/KeptCheckpoint.lean ====
section
/-! SUPPORT. What the operations of Machine/Checkpoint.lean keep: `Kept` of each, from that of the operations it uses. -/

namespace Sys2Proof.Machine

theorem kept_markPoison {z s : State} (base : Nat) (t : Tier) (x : Nat × RecordSource) (h : Kept z s) : Kept z
    (markPoison base t s x) := by
  unfold markPoison
  try dsimp only
  repeat' (first
    | with_reducible assumption | with_reducible apply kept_poisonUnit | simp only [kept_upd] | split
    | with_reducible refine kept_foldl _ (fun _ _ _ => ?_) _ _ ?_)

theorem kept_doCheckpoint {z s : State} (r : Nat) (e : CmdEntry) (manifest : List RecordSource) (p : Part) (h : Kept
    z s) : Kept z (doCheckpoint r e manifest p s) := by
  unfold doCheckpoint
  try dsimp only
  repeat' (first
    | with_reducible assumption | with_reducible apply kept_completeCmd
    | with_reducible apply kept_findPoison | with_reducible apply kept_writeMem
    | with_reducible apply kept_markPoison | simp only [kept_upd] | split
    | with_reducible refine kept_foldl _ (fun _ _ _ => ?_) _ _ ?_)

theorem keptO_execCheckpoint {z s : State} (r : Fin 8) (e : CmdEntry) (manifest : List RecordSource) (h : Kept z s)
    : KeptO z (execCheckpoint r e manifest s) := by
  unfold execCheckpoint
  try dsimp only
  repeat' (first
    | with_reducible assumption | refine keptO_next ?_ | with_reducible apply kept_snoopLines
    | with_reducible apply keptO_ringCommand | with_reducible apply kept_doCheckpoint
    | simp only [kept_upd] | split | intro _)

theorem kept_restoreBad {z s t : State} {p : Part} {e : CmdEntry} {targets : List RecordTarget} {k : Nat}
    (ht : restoreBad s p e targets = some (k, t)) (h : Kept z s) : Kept z t := by
  unfold restoreBad at ht
  dsimp only at ht
  repeat' split at ht
  all_goals (cases ht; repeat' (first | assumption | apply kept_record | apply kept_findPoison))

theorem kept_restoreImage {z s : State} (p : Part) (e : CmdEntry) (targets : List RecordTarget) (h : Kept z s) :
    Kept z (restoreImage s p e targets) := by
  unfold restoreImage
  try dsimp only
  repeat' (first
    | with_reducible assumption | with_reducible apply kept_writeMem
    | with_reducible apply kept_modPartQuads | with_reducible apply kept_modPart | simp only [kept_upd]
    | split | with_reducible refine kept_foldl _ (fun _ _ _ => ?_) _ _ ?_)

theorem kept_doRestore {z s : State} (r : Nat) (e : CmdEntry) (targets : List RecordTarget) (p : Part) (h : Kept z
    s) :
    Kept z (doRestore r e targets p s) := by
  unfold doRestore
  split
  · next st t ht => exact kept_completeCmd _ _ _ _ (kept_restoreBad ht h)
  · exact kept_completeCmd _ _ _ _ (kept_restoreImage _ _ _ h)

theorem keptO_execRestore {z s : State} (r : Fin 8) (e : CmdEntry) (targets : List RecordTarget) (h : Kept z s) :
    KeptO z (execRestore r e targets s) := by
  unfold execRestore
  try dsimp only
  repeat' (first
    | with_reducible assumption | refine keptO_next ?_ | with_reducible apply kept_snoopLines
    | with_reducible apply keptO_ringCommand | with_reducible apply kept_doRestore | simp only [kept_upd]
    | split | intro _)

theorem kept_rewindPcs {z s : State} (n : Nat) (h : Kept z s) : Kept z (rewindPcs s n) := by
  unfold rewindPcs
  try dsimp only
  repeat' (first
    | with_reducible assumption | with_reducible apply kept_setRegs | simp only [kept_upd])

theorem kept_startReplay {z s : State} (p : Part) (count : Nat) (h : Kept z s) : Kept z (startReplay s p count) := by
  unfold startReplay
  try dsimp only
  repeat' (first
    | with_reducible assumption | with_reducible apply kept_rewindPcs | with_reducible apply kept_modCore
    | with_reducible apply kept_modPartQuads | with_reducible apply kept_modPart
    | with_reducible apply kept_enterRunning | simp only [kept_upd] | split
    | with_reducible refine kept_foldl _ (fun _ _ _ => ?_) _ _ ?_)

theorem kept_doReplay {z s : State} (r : Nat) (e : CmdEntry) (targets : List RecordTarget) (p : Part) (h : Kept z s) :
    Kept z (doReplay r e targets p s) := by
  unfold doReplay
  split
  · next st t ht => exact kept_completeCmd _ _ _ _ (kept_restoreBad ht h)
  · exact kept_completeCmd _ _ _ _ (kept_startReplay _ _ (kept_restoreImage _ _ _ h))

theorem keptO_execReplay {z s : State} (r : Fin 8) (e : CmdEntry) (targets : List RecordTarget) (h : Kept z s) :
    KeptO z (execReplay r e targets s) := by
  unfold execReplay
  try dsimp only
  repeat' (first
    | with_reducible assumption | refine keptO_next ?_ | with_reducible apply kept_snoopLines
    | with_reducible apply keptO_ringCommand | with_reducible apply kept_doReplay | simp only [kept_upd]
    | split | intro _)

end Sys2Proof.Machine
end

