-- ==== Sys2Proof/Laws/KeptVector.lean ====
section
/-! SUPPORT. What the operations of Machine/Vector.lean keep: `Kept` of each, from that of the operations it uses. -/

namespace Sys2Proof.Machine

theorem kept_noteSaturation {z s : State} (a : At) (eng : Nat) (h : Kept z s) : Kept z (noteSaturation s a eng) := by
  unfold noteSaturation
  try dsimp only
  repeat' (first
    | with_reducible assumption | with_reducible apply kept_bumpCore | with_reducible apply kept_record
    | simp only [kept_upd])

theorem keptA_actVecOp (a : At) : KeptA a.s (actVecOp a) := by
  unfold actVecOp
  refine keptA_eff ?_ rfl rfl
  try dsimp only
  repeat' (first
    | with_reducible exact Kept.refl _ | with_reducible assumption | with_reducible apply kept_readStore
    | with_reducible apply kept_pushStore | with_reducible apply kept_detections | simp only [kept_upd])

theorem keptA_actVecRed (a : At) : KeptA a.s (actVecRed a) := by
  unfold actVecRed
  refine keptA_eff ?_ rfl rfl
  try dsimp only
  repeat' (first
    | with_reducible exact Kept.refl _ | with_reducible assumption | with_reducible apply kept_readStore
    | with_reducible apply kept_pushStore | with_reducible apply kept_detections | simp only [kept_upd])

theorem keptA_actVecCvt (a : At) : KeptA a.s (actVecCvt a) := by
  unfold actVecCvt
  refine keptA_eff ?_ rfl rfl
  try dsimp only
  repeat' (first
    | with_reducible exact Kept.refl _ | with_reducible assumption | with_reducible apply kept_sramErrors
    | with_reducible apply kept_noteSaturation | with_reducible apply kept_modCore
    | with_reducible apply kept_pushStore | simp only [kept_upd] | with_reducible apply kept_ite
    | with_reducible refine kept_foldl _ (fun _ _ _ => ?_) _ _ ?_ | with_reducible exact id
    | exact Nat.le_refl _ | exact fun hp => legalModes_of rfl rfl rfl rfl hp
    | exact fun he => boundedErrors_of rfl rfl he | split | intro _ | dsimp only | assumption | omega
    | (intro he; simp only [legalModes, boundedErrors] at he ⊢; with_reducible exact he)
    | (simp only [legalModes, boundedErrors, Bool.and_eq_true, decide_eq_true_eq] at *; omega)
    | apply kept_legal)

theorem keptA_actGrav (a : At) : KeptA a.s (actGrav a) := by
  unfold actGrav
  refine keptA_eff ?_ rfl rfl
  try dsimp only
  repeat' (first
    | with_reducible exact Kept.refl _ | with_reducible assumption | with_reducible apply kept_readStore
    | with_reducible apply kept_pushStore | with_reducible apply kept_detections | simp only [kept_upd])

theorem keptA_actSfuEval (a : At) : KeptA a.s (actSfuEval a) := by
  unfold actSfuEval
  refine keptA_eff ?_ rfl rfl
  try dsimp only
  repeat' (first
    | with_reducible exact Kept.refl _ | with_reducible assumption | with_reducible apply kept_readStore
    | with_reducible apply kept_pushStore | simp only [kept_upd])

theorem keptA_actSfuDeriv (a : At) : KeptA a.s (actSfuDeriv a) := by
  unfold actSfuDeriv
  refine keptA_eff ?_ rfl rfl
  try dsimp only
  repeat' (first
    | with_reducible exact Kept.refl _ | with_reducible assumption | with_reducible apply kept_readStore
    | with_reducible apply kept_pushStore | simp only [kept_upd])

theorem keptA_actSfuLoad (a : At) : KeptA a.s (actSfuLoad a) := by
  unfold actSfuLoad
  refine keptA_eff ?_ rfl rfl
  try dsimp only
  repeat' (first
    | with_reducible exact Kept.refl _ | with_reducible assumption | with_reducible apply kept_readStore
    | with_reducible apply kept_push | simp only [kept_upd] | split)

theorem keptO_execVecOp {z s : State} (i : Issue) (h : Kept z s) : KeptO z (execVecOp i s) := by
  unfold execVecOp
  try dsimp only
  repeat' (first
    | with_reducible assumption | with_reducible apply keptO_issueWith
    | with_reducible apply keptA_actVecOp | simp only [kept_upd])

theorem keptO_execVecRed {z s : State} (i : Issue) (h : Kept z s) : KeptO z (execVecRed i s) := by
  unfold execVecRed
  try dsimp only
  repeat' (first
    | with_reducible assumption | with_reducible apply keptO_issueWith
    | with_reducible apply keptA_actVecRed | simp only [kept_upd])

theorem keptO_execVecCvt {z s : State} (i : Issue) (h : Kept z s) : KeptO z (execVecCvt i s) := by
  unfold execVecCvt
  try dsimp only
  repeat' (first
    | with_reducible assumption | with_reducible apply keptO_issueWith
    | with_reducible apply keptA_actVecCvt | simp only [kept_upd] | with_reducible apply kept_ite
    | with_reducible refine kept_foldl _ (fun _ _ _ => ?_) _ _ ?_ | with_reducible exact id
    | exact Nat.le_refl _ | exact fun hp => legalModes_of rfl rfl rfl rfl hp
    | exact fun he => boundedErrors_of rfl rfl he | split | intro _ | dsimp only | assumption | omega
    | (intro he; simp only [legalModes, boundedErrors] at he ⊢; with_reducible exact he)
    | (simp only [legalModes, boundedErrors, Bool.and_eq_true, decide_eq_true_eq] at *; omega)
    | apply kept_legal)

theorem keptO_execSfuEval {z s : State} (i : Issue) (h : Kept z s) : KeptO z (execSfuEval i s) := by
  unfold execSfuEval
  try dsimp only
  repeat' (first
    | with_reducible assumption | with_reducible apply keptO_issueWith
    | with_reducible apply keptA_actSfuEval | simp only [kept_upd])

theorem keptO_execSfuDeriv {z s : State} (i : Issue) (h : Kept z s) : KeptO z (execSfuDeriv i s) := by
  unfold execSfuDeriv
  try dsimp only
  repeat' (first
    | with_reducible assumption | with_reducible apply keptO_issueWith
    | with_reducible apply keptA_actSfuDeriv | simp only [kept_upd])

theorem keptO_execSfuLoad {z s : State} (i : Issue) (h : Kept z s) : KeptO z (execSfuLoad i s) := by
  unfold execSfuLoad
  try dsimp only
  repeat' (first
    | with_reducible assumption | with_reducible apply keptO_issueWith
    | with_reducible apply keptA_actSfuLoad | simp only [kept_upd])

theorem keptO_execGrav {z s : State} (i : Issue) (h : Kept z s) : KeptO z (execGrav i s) := by
  unfold execGrav
  try dsimp only
  repeat' (first
    | with_reducible assumption | with_reducible apply keptO_issueWith | with_reducible apply keptA_actGrav
    | simp only [kept_upd])

end Sys2Proof.Machine
end

