-- ==== Sys2Proof/Laws/KeptDrain.lean ====
section
/-! SUPPORT. What the operations of Machine/Drain.lean keep: `Kept` of each, from that of the operations it uses. -/

namespace Sys2Proof.Machine

theorem kept_drainEffect (a : At) (d : Image) (set : AccSet) (deriv : Bool) (occ : Nat) : Kept a.s (drainEffect a d
    set deriv occ) := by
  unfold drainEffect
  try dsimp only
  repeat' (first
    | with_reducible exact Kept.refl _ | with_reducible assumption | with_reducible apply kept_sramErrors
    | with_reducible apply kept_bumpCore | with_reducible apply kept_noteSaturation
    | with_reducible apply kept_modCore | with_reducible apply kept_noteW1c
    | with_reducible apply kept_pushStore | simp only [kept_upd] | with_reducible apply kept_ite
    | with_reducible refine kept_foldl _ (fun _ _ _ => ?_) _ _ ?_ | with_reducible exact id
    | exact Nat.le_refl _ | exact fun hp => legalModes_of rfl rfl rfl rfl hp
    | exact fun he => boundedErrors_of rfl rfl he | split | intro _ | dsimp only | assumption | omega
    | (intro he; simp only [legalModes, boundedErrors] at he ⊢; with_reducible exact he)
    | (simp only [legalModes, boundedErrors, Bool.and_eq_true, decide_eq_true_eq] at *; omega)
    | apply kept_legal)

theorem keptA_actDrainAny (deriv : Bool) (a : At) : KeptA a.s (actDrainAny deriv a) := by
  unfold actDrainAny
  refine keptA_eff ?_ rfl rfl
  try dsimp only
  repeat' (first
    | with_reducible exact Kept.refl _ | with_reducible assumption | with_reducible apply kept_drainEffect
    | simp only [kept_upd] | with_reducible apply kept_ite
    | with_reducible refine kept_foldl _ (fun _ _ _ => ?_) _ _ ?_ | with_reducible exact id
    | exact Nat.le_refl _ | exact fun hp => legalModes_of rfl rfl rfl rfl hp
    | exact fun he => boundedErrors_of rfl rfl he | split | intro _ | dsimp only | assumption | omega
    | (intro he; simp only [legalModes, boundedErrors] at he ⊢; with_reducible exact he)
    | (simp only [legalModes, boundedErrors, Bool.and_eq_true, decide_eq_true_eq] at *; omega)
    | apply kept_legal)

theorem keptA_actDrain (a : At) : KeptA a.s (actDrain a) := keptA_actDrainAny false a

theorem keptA_actDrainD (a : At) : KeptA a.s (actDrainD a) := keptA_actDrainAny true a

theorem keptA_actChainSend (a : At) : KeptA a.s (actChainSend a) := by
  unfold actChainSend
  refine keptA_eff ?_ rfl rfl
  try dsimp only
  repeat' (first
    | with_reducible exact Kept.refl _ | with_reducible assumption | with_reducible apply kept_newAccess
    | with_reducible apply kept_push | simp only [kept_upd])

theorem keptA_actChainSeed (a : At) : KeptA a.s (actChainSeed a) := by
  unfold actChainSeed
  refine keptA_eff ?_ rfl rfl
  try dsimp only
  repeat' (first
    | with_reducible exact Kept.refl _ | with_reducible assumption | with_reducible apply kept_readStore
    | with_reducible apply kept_modCore | simp only [kept_upd])

theorem keptO_execDrain {z s : State} (i : Issue) (h : Kept z s) : KeptO z (execDrain i s) := by
  unfold execDrain
  try dsimp only
  repeat' (first
    | with_reducible assumption | with_reducible apply keptO_issueWith
    | with_reducible apply keptA_actDrain | simp only [kept_upd])

theorem keptO_execDrainD {z s : State} (i : Issue) (h : Kept z s) : KeptO z (execDrainD i s) := by
  unfold execDrainD
  try dsimp only
  repeat' (first
    | with_reducible assumption | with_reducible apply keptO_issueWith
    | with_reducible apply keptA_actDrainD | simp only [kept_upd])

theorem keptO_execChainSend {z s : State} (i : Issue) (h : Kept z s) : KeptO z (execChainSend i s) := by
  unfold execChainSend
  try dsimp only
  repeat' (first
    | with_reducible assumption | with_reducible apply keptO_issueWith
    | with_reducible apply keptA_actChainSend | simp only [kept_upd])

theorem keptO_execChainSeed {z s : State} (i : Issue) (h : Kept z s) : KeptO z (execChainSeed i s) := by
  unfold execChainSeed
  try dsimp only
  repeat' (first
    | with_reducible assumption | with_reducible apply keptO_issueWith
    | with_reducible apply keptA_actChainSeed | simp only [kept_upd])

theorem keptO_execResultVisible {z s : State} (core : Fin 192) (h : Kept z s) : KeptO z (execResultVisible core s)
    := by
  unfold execResultVisible
  try dsimp only
  repeat' (first
    | with_reducible assumption | refine keptO_next ?_ | with_reducible apply kept_landDue
    | simp only [kept_upd])

theorem keptO_execTunDrainLand {z s : State} (core : Fin 192) (h : Kept z s) : KeptO z (execTunDrainLand core s) := by
  unfold execTunDrainLand
  try dsimp only
  repeat' (first
    | with_reducible assumption | refine keptO_next ?_ | with_reducible apply kept_landTun
    | simp only [kept_upd])

theorem kept_countVerdictFail {z s : State} (n : Nat) (r : RecIn) (h : Kept z s) : Kept z (countVerdictFail s n r)
    := by
  unfold countVerdictFail
  try dsimp only
  repeat' (first
    | with_reducible assumption | with_reducible apply kept_modPart | with_reducible apply kept_record
    | with_reducible apply kept_bumpCore | simp only [kept_upd] | split)

theorem kept_failVerdict {z s : State} (n : Nat) (v : Verdict) (mn : Nat × Nat) (rep : RepeatEnd) (h : Kept z s) :
    Kept z (failVerdict s n v mn rep) := by
  unfold failVerdict
  try dsimp only
  repeat' (first
    | with_reducible assumption | with_reducible apply kept_addRepeats | with_reducible apply kept_bumpCore
    | with_reducible apply kept_modCore | with_reducible apply kept_resolveVerdict
    | with_reducible apply kept_record | with_reducible apply kept_countVerdictFail
    | with_reducible apply kept_intermittent | simp only [kept_upd] | split)

theorem keptO_execPlausibilityVerdict {z s0 : State} (core : Fin 192) (id : Nat) (rep : RepeatEnd) (h : Kept z s0) :
    KeptO z (execPlausibilityVerdict core id rep s0) := by
  unfold execPlausibilityVerdict
  try dsimp only
  repeat' (first
    | with_reducible assumption | refine keptO_next ?_ | with_reducible apply kept_landAll
    | with_reducible apply kept_modCore | with_reducible apply kept_resolveVerdict
    | with_reducible apply kept_failVerdict | simp only [kept_upd] | split)

end Sys2Proof.Machine
end

