-- ==== Sys2Proof/Laws/KeptHeddle.lean ====
section
/-! SUPPORT. What the operations of Machine/Heddle.lean keep: `Kept` of each, from that of the operations it uses. -/

namespace Sys2Proof.Machine

theorem kept_noteAhead {z s : State} (a : At) (ds : List Image) (h : Kept z s) : Kept z (noteAhead s a ds) := by
  unfold noteAhead
  try dsimp only
  repeat' (first
    | with_reducible assumption | with_reducible apply kept_bumpCore | with_reducible apply kept_record
    | with_reducible apply kept_partVector | simp only [kept_upd] | split)

theorem kept_deferFault {z s : State} (a : At) (due kind detail : Nat) (mf : Dword) (h : Kept z s) : Kept z
    (deferFault s a due kind detail mf) := by
  unfold deferFault
  try dsimp only
  repeat' (first
    | with_reducible assumption | with_reducible apply kept_modCore | simp only [kept_upd])

theorem kept_failPass {z s : State} (a : At) (scan kind detail : Nat) (mf : Dword) (h : Kept z s) : Kept z (failPass
    s a scan kind detail mf) := by
  unfold failPass
  try dsimp only
  repeat' (first
    | with_reducible assumption | with_reducible apply kept_deferFault | with_reducible apply kept_modCore
    | simp only [kept_upd])

theorem kept_parityErrors {z s : State} (a : At) (h : Kept z s) : Kept z (parityErrors s a) := by
  unfold parityErrors
  try dsimp only
  repeat' (first
    | with_reducible assumption | with_reducible apply kept_bumpCore | with_reducible apply kept_record
    | with_reducible apply kept_intermittent | simp only [kept_upd] | split
    | with_reducible refine kept_foldl _ (fun _ _ _ => ?_) _ _ ?_)

theorem kept_finishHeddle {z s : State} (a : At) (set : AccSet) (checks : PassChecks) (work : Nat) (parity : Bool)
 (h : Kept z s) : Kept z (finishHeddle s a set checks work parity) := by
  unfold finishHeddle
  try dsimp only
  repeat' (first
    | with_reducible assumption | with_reducible apply kept_detections
    | with_reducible apply kept_parityErrors | with_reducible apply kept_modCore | simp only [kept_upd]
    | split)

theorem kept_countChunks {z s : State} (n chunks victims serial : Nat) (h : Kept z s) : Kept z (countChunks s n
    chunks victims serial) := by
  unfold countChunks
  try dsimp only
  repeat' (first
    | with_reducible assumption | with_reducible apply kept_bumpCore | simp only [kept_upd] | split)

theorem keptA_actSpmm (a : At) : KeptA a.s (actSpmm a) := by
  unfold actSpmm
  refine keptA_eff ?_ rfl rfl
  try dsimp only
  repeat' (first
    | with_reducible exact Kept.refl _ | with_reducible assumption | with_reducible apply kept_readStore
    | with_reducible apply kept_noteAhead | with_reducible apply kept_modCore
    | with_reducible apply kept_countChunks | with_reducible apply kept_bumpCore
    | with_reducible apply kept_finishHeddle | with_reducible apply kept_pushStore
    | with_reducible apply kept_failPass | simp only [kept_upd] | split)

theorem keptA_actSddmm (a : At) : KeptA a.s (actSddmm a) := by
  unfold actSddmm
  refine keptA_eff ?_ rfl rfl
  try dsimp only
  repeat' (first
    | with_reducible exact Kept.refl _ | with_reducible assumption | with_reducible apply kept_readStore
    | with_reducible apply kept_failPass | with_reducible apply kept_finishHeddle
    | with_reducible apply kept_modCore | with_reducible apply kept_noteAhead | simp only [kept_upd]
    | split)

theorem keptA_actSpsp (a : At) : KeptA a.s (actSpsp a) := by
  unfold actSpsp
  refine keptA_eff ?_ rfl rfl
  try dsimp only
  repeat' (first
    | with_reducible exact Kept.refl _ | with_reducible assumption | with_reducible apply kept_readStore
    | with_reducible apply kept_failPass | with_reducible apply kept_noteAhead
    | with_reducible apply kept_modCore | with_reducible apply kept_countChunks
    | with_reducible apply kept_finishHeddle | simp only [kept_upd] | split)

theorem keptA_actHeddleZero (a : At) : KeptA a.s (actHeddleZero a) := by
  unfold actHeddleZero
  refine keptA_eff ?_ rfl rfl
  try dsimp only
  repeat' (first
    | with_reducible exact Kept.refl _ | with_reducible assumption | with_reducible apply kept_modCore
    | simp only [kept_upd])

theorem keptO_execHeddleSpmm {z s : State} (i : Issue) (h : Kept z s) : KeptO z (execHeddleSpmm i s) := by
  unfold execHeddleSpmm
  try dsimp only
  repeat' (first
    | with_reducible assumption | with_reducible apply keptO_issueWith | with_reducible apply keptA_actSpmm
    | simp only [kept_upd])

theorem keptO_execHeddleSddmm {z s : State} (i : Issue) (h : Kept z s) : KeptO z (execHeddleSddmm i s) := by
  unfold execHeddleSddmm
  try dsimp only
  repeat' (first
    | with_reducible assumption | with_reducible apply keptO_issueWith
    | with_reducible apply keptA_actSddmm | simp only [kept_upd])

theorem keptO_execHeddleSpsp {z s : State} (i : Issue) (h : Kept z s) : KeptO z (execHeddleSpsp i s) := by
  unfold execHeddleSpsp
  try dsimp only
  repeat' (first
    | with_reducible assumption | with_reducible apply keptO_issueWith | with_reducible apply keptA_actSpsp
    | simp only [kept_upd])

theorem keptO_execHeddleZero {z s : State} (i : Issue) (h : Kept z s) : KeptO z (execHeddleZero i s) := by
  unfold execHeddleZero
  try dsimp only
  repeat' (first
    | with_reducible assumption | with_reducible apply keptO_issueWith
    | with_reducible apply keptA_actHeddleZero | simp only [kept_upd])

theorem keptO_execHeddleOverrun {z s : State} (core : Fin 192) (h : Kept z s) : KeptO z (execHeddleOverrun core s)
    := by
  unfold execHeddleOverrun
  try dsimp only
  repeat' (first
    | with_reducible assumption | refine keptO_next ?_ | with_reducible apply kept_noteW1c
    | with_reducible apply kept_modCore | simp only [kept_upd] | split)

theorem keptO_execHeddleWorkComplete {z s : State} (core : Fin 192) (h : Kept z s) : KeptO z (execHeddleWorkComplete
    core s) := by
  unfold execHeddleWorkComplete
  try dsimp only
  repeat' (first
    | with_reducible assumption | refine keptO_next ?_ | with_reducible apply kept_modCore
    | simp only [kept_upd])

theorem keptO_execDeferredFaultDetect {z s : State} (core : Fin 192) (sh : Shuttle) (h : Kept z s) : KeptO z
    (execDeferredFaultDetect core sh s) := by
  unfold execDeferredFaultDetect
  try dsimp only
  repeat' (first
    | with_reducible assumption | refine keptO_next ?_ | with_reducible apply kept_setCore
    | with_reducible apply kept_raiseFault | simp only [kept_upd] | split)

end Sys2Proof.Machine
end

