-- ==== Sys2Proof/Laws/KeptSync.lean ====
section
/-! SUPPORT. What the operations of Machine/Sync.lean keep: `Kept` of each, from that of the operations it uses. -/

namespace Sys2Proof.Machine

theorem kept_enterWait {z s : State} (a : At) (kind : WaitKind) (acq : Bool) (h : Kept z s) : Kept z (enterWait s a
    kind acq) := by
  unfold enterWait
  try dsimp only
  repeat' (first
    | with_reducible assumption | with_reducible apply kept_modCore | simp only [kept_upd])

theorem kept_offWait (a : At) : ∀ t, offWait a = some t → Kept a.s t := by
  intro t ht
  cases ht
  exact kept_enterWait _ _ _ (Kept.refl _)

theorem keptA_wait {a : At} {x : Action} (h : Kept a.s x.eff) (h2 : x.off = offWait a) (h3 : x.onDesc = none) :
    KeptA a.s x := by
  refine ⟨h, ?_, ?_⟩
  · intro t ht; rw [h2] at ht; exact kept_offWait a t ht
  · intro t ht; rw [h3] at ht; cases ht

theorem keptA_actBqWait (a : At) : KeptA a.s (actBqWait a) := by
  unfold actBqWait
  refine keptA_wait ?_ rfl rfl
  try dsimp only
  repeat' (first
    | with_reducible exact Kept.refl _ | with_reducible assumption | with_reducible apply kept_enterWait
    | with_reducible apply kept_offWait | simp only [kept_upd])

theorem keptA_actSemWait (a : At) : KeptA a.s (actSemWait a) := by
  unfold actSemWait
  refine keptA_wait ?_ rfl rfl
  try dsimp only
  repeat' (first
    | with_reducible exact Kept.refl _ | with_reducible assumption | with_reducible apply kept_enterWait
    | with_reducible apply kept_offWait | simp only [kept_upd])

theorem keptA_actFence (scope : Nat) (a : At) : KeptA a.s (actFence scope a) := by
  unfold actFence
  refine keptA_wait ?_ rfl rfl
  try dsimp only
  repeat' (first
    | with_reducible exact Kept.refl _ | with_reducible assumption | with_reducible apply kept_enterWait
    | with_reducible apply kept_offWait | simp only [kept_upd])

theorem keptA_actBeatup (a : At) : KeptA a.s (actBeatup a) := by
  unfold actBeatup
  refine keptA_wait ?_ rfl rfl
  try dsimp only
  repeat' (first
    | with_reducible exact Kept.refl _ | with_reducible assumption | with_reducible apply kept_modCore
    | with_reducible apply kept_enterWait | with_reducible apply kept_offWait | simp only [kept_upd])

theorem keptO_execBqWait {z s : State} (i : Issue) (h : Kept z s) : KeptO z (execBqWait i s) := by
  unfold execBqWait
  try dsimp only
  repeat' (first
    | with_reducible assumption | with_reducible apply keptO_issueWith
    | with_reducible apply keptA_actBqWait | simp only [kept_upd])

theorem keptO_execSemWait {z s : State} (i : Issue) (h : Kept z s) : KeptO z (execSemWait i s) := by
  unfold execSemWait
  try dsimp only
  repeat' (first
    | with_reducible assumption | with_reducible apply keptO_issueWith
    | with_reducible apply keptA_actSemWait | simp only [kept_upd])

theorem keptO_execBeatup {z s : State} (i : Issue) (h : Kept z s) : KeptO z (execBeatup i s) := by
  unfold execBeatup
  try dsimp only
  repeat' (first
    | with_reducible assumption | with_reducible apply keptO_issueWith
    | with_reducible apply keptA_actBeatup | simp only [kept_upd])

theorem keptO_execFenceC {z s : State} (i : Issue) (h : Kept z s) : KeptO z (execFenceC i s) := by
  unfold execFenceC
  try dsimp only
  repeat' (first
    | with_reducible assumption | with_reducible apply keptO_issueWith
    | with_reducible apply keptA_actFence | simp only [kept_upd])

theorem keptO_execFenceQ {z s : State} (i : Issue) (h : Kept z s) : KeptO z (execFenceQ i s) := by
  unfold execFenceQ
  try dsimp only
  repeat' (first
    | with_reducible assumption | with_reducible apply keptO_issueWith
    | with_reducible apply keptA_actFence | simp only [kept_upd])

theorem keptO_execFenceD {z s : State} (i : Issue) (h : Kept z s) : KeptO z (execFenceD i s) := by
  unfold execFenceD
  try dsimp only
  repeat' (first
    | with_reducible assumption | with_reducible apply keptO_issueWith
    | with_reducible apply keptA_actFence | simp only [kept_upd])

theorem keptO_execFenceF {z s : State} (i : Issue) (h : Kept z s) : KeptO z (execFenceF i s) := by
  unfold execFenceF
  try dsimp only
  repeat' (first
    | with_reducible assumption | with_reducible apply keptO_issueWith
    | with_reducible apply keptA_actFence | simp only [kept_upd])

theorem keptO_execWaitResume {z s0 : State} (core : Fin 192) (sh : Shuttle) (h : Kept z s0) : KeptO z
    (execWaitResume core sh s0) := by
  unfold execWaitResume
  try dsimp only
  repeat' (first
    | with_reducible assumption | exact keptO_fault _ _ | refine keptO_next ?_
    | with_reducible apply kept_modCore | with_reducible apply kept_landAll
    | with_reducible apply kept_raiseFault | simp only [kept_upd] | split)

theorem keptO_execSlotPlanTakeEffect {z s : State} (core : Fin 192) (h : Kept z s) : KeptO z (execSlotPlanTakeEffect
    core s) := by
  unfold execSlotPlanTakeEffect
  try dsimp only
  repeat' (first
    | with_reducible assumption | refine keptO_next ?_ | with_reducible apply kept_modCore
    | simp only [kept_upd] | split)

theorem kept_noteSat {z s : State} (n i : Nat) (h : Kept z s) : Kept z (noteSat s n i) := by
  unfold noteSat
  try dsimp only
  repeat' (first
    | with_reducible assumption | with_reducible apply kept_partVector | with_reducible apply kept_record
    | simp only [kept_upd] | with_reducible apply kept_ite
    | with_reducible refine kept_foldl _ (fun _ _ _ => ?_) _ _ ?_ | with_reducible exact id
    | exact Nat.le_refl _ | exact fun hp => legalModes_of rfl rfl rfl rfl hp
    | exact fun he => boundedErrors_of rfl rfl he | split | intro _ | dsimp only | assumption | omega
    | (intro he; simp only [legalModes, boundedErrors] at he ⊢; with_reducible exact he)
    | (simp only [legalModes, boundedErrors, Bool.and_eq_true, decide_eq_true_eq] at *; omega)
    | apply kept_legal)

theorem kept_semAdd {z s : State} (n i : Nat) (k : Nat) (h : Kept z s) : Kept z (semAdd s n i k) := by
  unfold semAdd
  try dsimp only
  repeat' (first
    | with_reducible assumption | with_reducible apply kept_modCore | with_reducible apply kept_noteW1c
    | with_reducible apply kept_noteSat | simp only [kept_upd] | split)

theorem kept_deliverSignal {z s : State} (target : Option Nat) (low i k : Nat) (sender : Nat) (h : Kept z s) : Kept
    z (deliverSignal s target low i k sender) := by
  unfold deliverSignal
  try dsimp only
  repeat' (first
    | with_reducible assumption | with_reducible apply kept_record | with_reducible apply kept_semAdd
    | simp only [kept_upd] | split)

theorem keptO_execSignalPerform {z s : State} (id : Nat) (h : Kept z s) : KeptO z (execSignalPerform id s) := by
  unfold execSignalPerform
  try dsimp only
  repeat' (first
    | with_reducible assumption | refine keptO_next ?_ | with_reducible apply kept_deliverSignal
    | with_reducible apply kept_performAccess | simp only [kept_upd] | split)

theorem kept_postSignal (a : At) : Kept a.s (postSignal a) := by
  unfold postSignal
  try dsimp only
  repeat' (first
    | with_reducible exact Kept.refl _ | with_reducible assumption | with_reducible apply kept_newAccess
    | with_reducible apply kept_sendAll | simp only [kept_upd] | split)

theorem keptA_actSemSig (a : At) : KeptA a.s (actSemSig a) := by
  unfold actSemSig
  refine keptA_eff ?_ rfl rfl
  try dsimp only
  repeat' (first
    | with_reducible exact Kept.refl _ | with_reducible assumption | with_reducible apply kept_postSignal
    | simp only [kept_upd])

theorem keptO_execSemSig {z s : State} (i : Issue) (h : Kept z s) : KeptO z (execSemSig i s) := by
  unfold execSemSig
  try dsimp only
  repeat' (first
    | with_reducible assumption | with_reducible apply keptO_issueWith
    | with_reducible apply keptA_actSemSig | simp only [kept_upd])

theorem kept_modAccess {z s : State} (n : Nat) (sh : Shuttle) (id : Nat) (g : Access → Access) (h : Kept z s) : Kept
    z (modAccess s n sh id g) := by
  unfold modAccess
  try dsimp only
  repeat' (first
    | with_reducible assumption | with_reducible apply kept_modCore | simp only [kept_upd])

theorem kept_freeAccess {z s : State} (n : Nat) (sh : Shuttle) (id : Nat) (h : Kept z s) : Kept z (freeAccess s n sh
    id) := by
  unfold freeAccess
  try dsimp only
  repeat' (first
    | with_reducible assumption | with_reducible apply kept_modAccess | simp only [kept_upd])

theorem kept_freeSignals {z s : State} (n : Nat) (sh : Shuttle) (id : Nat) (h : Kept z s) : Kept z (freeSignals s n
    sh id) := by
  unfold freeSignals
  try dsimp only
  repeat' (first
    | with_reducible assumption | simp only [kept_upd])

theorem keptO_execHeldAccessRelease {z s0 : State} (core : Fin 192) (id : Nat) (sram : SramEcc) (h : Kept z s0) :
    KeptO z (execHeldAccessRelease core id sram s0) := by
  unfold execHeldAccessRelease
  try dsimp only
  repeat' (first
    | with_reducible assumption | refine keptO_next ?_ | with_reducible apply kept_landAll
    | with_reducible apply kept_modRequest | with_reducible apply kept_freeAccess
    | with_reducible apply kept_departRemote | with_reducible apply kept_sramFound
    | with_reducible apply kept_sendAll | with_reducible apply kept_modAccess
    | with_reducible apply kept_tapDrop | with_reducible apply kept_freeSignals | simp only [kept_upd]
    | split)

theorem kept_recordDrift {z s : State} (n : Nat) (h : Kept z s) : Kept z (recordDrift s n) := by
  unfold recordDrift
  try dsimp only
  repeat' (first
    | with_reducible assumption | with_reducible apply kept_setCore | with_reducible apply kept_bumpCore
    | with_reducible apply kept_partVector | with_reducible apply kept_record | simp only [kept_upd]
    | split)

theorem kept_unpair {z s : State} (q : Nat) (h : Kept z s) : Kept z (unpair s q) := by
  unfold unpair
  try dsimp only
  repeat' (first
    | with_reducible assumption | with_reducible apply kept_modCore | with_reducible apply kept_modQuad
    | simp only [kept_upd])

theorem kept_formPair {z s : State} (q f g : Nat) (h : Kept z s) : Kept z (formPair s q f g) := by
  unfold formPair
  try dsimp only
  repeat' (first
    | with_reducible assumption | with_reducible apply kept_modCore | with_reducible apply kept_modQuad
    | simp only [kept_upd] | split)

theorem kept_applyPairings {z s : State} (q : Nat) (h : Kept z s) : Kept z (applyPairings s q) := by
  unfold applyPairings
  try dsimp only
  repeat' (first
    | with_reducible assumption | with_reducible apply kept_unpair | with_reducible apply kept_modQuad
    | with_reducible apply kept_formPair | simp only [kept_upd] | split)

theorem kept_advanceGen {z s : State} (p : Part) (h : Kept z s) : Kept z (advanceGen s p) := by
  unfold advanceGen
  try dsimp only
  repeat' (first
    | with_reducible assumption | with_reducible apply kept_modPartQuads | simp only [kept_upd])

theorem kept_beatupCycle {z s : State} (p : Part) (scope q : Nat) (h : Kept z s) : Kept z (beatupCycle s p scope q)
    := by
  unfold beatupCycle
  try dsimp only
  repeat' (first
    | with_reducible assumption | with_reducible apply kept_recordDrift
    | with_reducible apply kept_applyPairings | with_reducible apply kept_advanceGen
    | with_reducible apply kept_modPart | with_reducible apply kept_modCore | simp only [kept_upd] | split
    | with_reducible refine kept_foldl _ (fun _ _ _ => ?_) _ _ ?_)

theorem keptO_execBeatupComplete {z s0 : State} (scope : Fin 3) (q : Fin 8) (h : Kept z s0) : KeptO z
    (execBeatupComplete scope q s0) := by
  unfold execBeatupComplete
  try dsimp only
  repeat' (first
    | with_reducible assumption | refine keptO_next ?_ | with_reducible apply kept_landAll
    | with_reducible apply kept_modPart | with_reducible apply kept_sendAll
    | with_reducible apply kept_beatupCycle | simp only [kept_upd] | split
    | with_reducible refine kept_foldl _ (fun _ _ _ => ?_) _ _ ?_)

theorem kept_keepNotice {z s : State} (rx : Rx) (h : Kept z s) : Kept z (keepNotice rx s) := by
  unfold keepNotice
  try dsimp only
  repeat' (first
    | with_reducible assumption | with_reducible apply kept_modPart | simp only [kept_upd] | split)

theorem keptO_execBeatupFrameReceive {z s : State} (rx : Rx) (h : Kept z s) : KeptO z (execBeatupFrameReceive rx s)
    := by
  unfold execBeatupFrameReceive
  try dsimp only
  repeat' (first
    | with_reducible assumption | refine keptO_next ?_ | with_reducible apply keptO_withRx
    | with_reducible apply kept_keepNotice | simp only [kept_upd] | split | intro _)

theorem kept_remoteSignal {z s : State} (rx : Rx) (h : Kept z s) : Kept z (remoteSignal rx s) := by
  unfold remoteSignal
  try dsimp only
  repeat' (first
    | with_reducible assumption | with_reducible apply kept_deliverSignal
    | with_reducible apply kept_sendFrame | simp only [kept_upd] | split)

theorem keptO_execSignalFrameReceive {z s : State} (rx : Rx) (h : Kept z s) : KeptO z (execSignalFrameReceive rx s)
    := by
  unfold execSignalFrameReceive
  try dsimp only
  repeat' (first
    | with_reducible assumption | refine keptO_next ?_ | with_reducible apply keptO_withRx
    | with_reducible apply kept_remoteSignal | simp only [kept_upd] | split | intro _)

end Sys2Proof.Machine
end

