-- ==== Sys2Proof/Laws/KeptExchange.lean ====
section
/-! SUPPORT. What the operations of Machine/Exchange.lean keep: `Kept` of each, from that of the operations it uses. -/

namespace Sys2Proof.Machine

theorem kept_openBucket {z s : State} (p : Part) (b : Half) (r : BucketRec) (h : Kept z s) : Kept z (openBucket s p
    b r) := by
  unfold openBucket
  try dsimp only
  repeat' (first
    | with_reducible assumption | with_reducible apply kept_modCask | with_reducible apply kept_modPart
    | with_reducible apply kept_modCore | simp only [kept_upd] | split
    | with_reducible refine kept_foldl _ (fun _ _ _ => ?_) _ _ ?_)

theorem keptA_actCaskOpen (a : At) : KeptA a.s (actCaskOpen a) := by
  unfold actCaskOpen
  refine keptA_eff ?_ rfl rfl
  try dsimp only
  repeat' (first
    | with_reducible exact Kept.refl _ | with_reducible assumption | with_reducible apply kept_openBucket
    | with_reducible apply kept_readStore | simp only [kept_upd] | split)

theorem kept_expectAcks {z s : State} (n : Nat) (sh : Shuttle) (id k : Nat) (h : Kept z s) : Kept z (expectAcks s n
    sh id k) := by
  unfold expectAcks
  try dsimp only
  repeat' (first
    | with_reducible assumption | with_reducible apply kept_modCore | simp only [kept_upd])

theorem kept_postCask (a : At) (kind : AccessKind) (frames : List Frame) : Kept a.s (postCask a kind frames).1 := by
  unfold postCask
  dsimp only
  split
  · exact kept_expectAcks _ _ _ _ (kept_newAccess _ _ _ _ _ _ _ (Kept.refl _))
  · exact kept_sendAll _ (kept_expectAcks _ _ _ _ (kept_newAccess _ _ _ _ _ _ _ (Kept.refl _)))

theorem kept_headerEffect (a : At) : Kept a.s (headerEffect a) := by
  have hs := kept_readStore a (anyUnits a.c.store (entryD a (tDA a.w)))
  unfold headerEffect
  dsimp only
  split
  · exact kept_deferFault _ _ _ _ _ hs
  · split
    · exact (kept_record _ hs).trans (kept_postCask { a with s := _ } _ _)
    · exact hs.trans (kept_postCask { a with s := _ } _ _)

theorem keptA_actCaskHdr (a : At) : KeptA a.s (actCaskHdr a) := by
  unfold actCaskHdr
  refine keptA_eff ?_ rfl rfl
  try dsimp only
  repeat' (first
    | with_reducible exact Kept.refl _ | with_reducible assumption | with_reducible apply kept_headerEffect
    | simp only [kept_upd])

theorem kept_putEffect (a : At) : Kept a.s (putEffect a) := by
  unfold putEffect
  dsimp only
  split
  · exact kept_deferFault _ _ _ _ _ (kept_readStore _ _)
  · split
    · exact kept_modCore _ _ ((kept_readStore _ _).trans (kept_postCask { a with s := _ } _ _))
    · exact (kept_readStore _ _).trans (kept_postCask { a with s := _ } _ _)

theorem keptA_actCaskPut (a : At) : KeptA a.s (actCaskPut a) := by
  unfold actCaskPut
  refine keptA_eff ?_ rfl rfl
  try dsimp only
  repeat' (first
    | with_reducible exact Kept.refl _ | with_reducible assumption | with_reducible apply kept_putEffect
    | simp only [kept_upd])

theorem keptA_actCaskNorm (a : At) : KeptA a.s (actCaskNorm a) := by
  unfold actCaskNorm
  refine keptA_eff ?_ rfl rfl
  try dsimp only
  repeat' (first
    | with_reducible exact Kept.refl _ | with_reducible assumption | with_reducible apply kept_settleGroups
    | with_reducible apply kept_modPart | simp only [kept_upd])

theorem kept_closeBucket {z s : State} (p : Part) (b : Half) (h : Kept z s) : Kept z (closeBucket s p b) := by
  unfold closeBucket
  try dsimp only
  repeat' (first
    | with_reducible assumption | with_reducible apply kept_modCask | with_reducible apply kept_modPart
    | simp only [kept_upd] | split | with_reducible refine kept_foldl _ (fun _ _ _ => ?_) _ _ ?_)

theorem keptA_actCaskClose (a : At) : KeptA a.s (actCaskClose a) := by
  unfold actCaskClose
  refine keptA_eff ?_ rfl rfl
  try dsimp only
  repeat' (first
    | with_reducible exact Kept.refl _ | with_reducible assumption | with_reducible apply kept_closeBucket
    | simp only [kept_upd])

theorem keptA_actVerdictWait (a : At) : KeptA a.s (actVerdictWait a) := by
  unfold actVerdictWait
  refine keptA_wait ?_ rfl rfl
  try dsimp only
  repeat' (first
    | with_reducible exact Kept.refl _ | with_reducible assumption | with_reducible apply kept_enterWait
    | with_reducible apply kept_offWait | simp only [kept_upd])

theorem kept_verdictTest {z s : State} (p : Part) (n : Nat) (h : Kept z s) : Kept z (verdictTest s p n) := by
  unfold verdictTest
  try dsimp only
  repeat' (first
    | with_reducible assumption | with_reducible apply kept_modCore | simp only [kept_upd] | split
    | with_reducible refine kept_foldl _ (fun _ _ _ => ?_) _ _ ?_)

theorem keptO_execCaskOpen {z s : State} (i : Issue) (h : Kept z s) : KeptO z (execCaskOpen i s) := by
  unfold execCaskOpen
  try dsimp only
  repeat' (first
    | with_reducible assumption | with_reducible apply keptO_issueWith
    | with_reducible apply keptA_actCaskOpen | simp only [kept_upd])

theorem keptO_execCaskHdr {z s : State} (i : Issue) (h : Kept z s) : KeptO z (execCaskHdr i s) := by
  unfold execCaskHdr
  try dsimp only
  repeat' (first
    | with_reducible assumption | with_reducible apply keptO_issueWith
    | with_reducible apply keptA_actCaskHdr | simp only [kept_upd])

theorem keptO_execCaskPut {z s : State} (i : Issue) (h : Kept z s) : KeptO z (execCaskPut i s) := by
  unfold execCaskPut
  try dsimp only
  repeat' (first
    | with_reducible assumption | with_reducible apply keptO_issueWith
    | with_reducible apply keptA_actCaskPut | simp only [kept_upd])

theorem keptO_execCaskNorm {z s : State} (i : Issue) (h : Kept z s) : KeptO z (execCaskNorm i s) := by
  unfold execCaskNorm
  try dsimp only
  repeat' (first
    | with_reducible assumption | with_reducible apply keptO_issueWith
    | with_reducible apply keptA_actCaskNorm | simp only [kept_upd])

theorem keptO_execCaskClose {z s : State} (i : Issue) (h : Kept z s) : KeptO z (execCaskClose i s) := by
  unfold execCaskClose
  try dsimp only
  repeat' (first
    | with_reducible assumption | with_reducible apply keptO_issueWith
    | with_reducible apply keptA_actCaskClose | simp only [kept_upd])

theorem keptO_execVerdictWait {z s : State} (i : Issue) (h : Kept z s) : KeptO z (execVerdictWait i s) := by
  unfold execVerdictWait
  try dsimp only
  repeat' (first
    | with_reducible assumption | with_reducible apply keptO_issueWith
    | with_reducible apply keptA_actVerdictWait | simp only [kept_upd])

theorem kept_answerAccess {z s : State} (n : Nat) (sh : Shuttle) (id : Nat) (h : Kept z s) : Kept z (answerAccess s
    n sh id) := by
  unfold answerAccess
  try dsimp only
  repeat' (first
    | with_reducible assumption | with_reducible apply kept_modCore
    | with_reducible apply kept_performAccess | simp only [kept_upd] | split)

theorem kept_takeCaskAck {z s : State} (rx : Rx) (h : Kept z s) : Kept z (takeCaskAck rx s) := by
  unfold takeCaskAck
  try dsimp only
  repeat' (first
    | with_reducible assumption | with_reducible apply kept_answerAccess | simp only [kept_upd] | split)

theorem keptO_execCaskAckReceive {z s : State} (rx : Rx) (h : Kept z s) : KeptO z (execCaskAckReceive rx s) := by
  unfold execCaskAckReceive
  try dsimp only
  repeat' (first
    | with_reducible assumption | refine keptO_next ?_ | with_reducible apply keptO_withRx
    | with_reducible apply kept_takeCaskAck | simp only [kept_upd] | split | intro _)

theorem keptO_execVerdictFrameSend {z s : State} (core : Fin 192) (id : Nat) (h : Kept z s) : KeptO z
    (execVerdictFrameSend core id s) := by
  unfold execVerdictFrameSend
  try dsimp only
  repeat' (first
    | with_reducible assumption | refine keptO_next ?_ | with_reducible apply kept_modCore
    | with_reducible apply kept_expectAcks | with_reducible apply kept_sendAll
    | with_reducible apply kept_countVerdictFail | simp only [kept_upd] | split)

end Sys2Proof.Machine
end

