-- ==== Sys2Proof/Laws/KeptFabric.lean ====
section
/-! SUPPORT. What the operations of Machine/Fabric.lean keep: `Kept` of each, from that of the operations it uses. -/

namespace Sys2Proof.Machine

theorem kept_emitFlit {z s : State} (port peer : Nat) (h : Kept z s) : Kept z (emitFlit s port peer) := by
  unfold emitFlit
  try dsimp only
  repeat' (first
    | with_reducible assumption | with_reducible apply kept_modChan | simp only [kept_upd])

theorem kept_emitTraining {z s : State} (port peer : Nat) (h : Kept z s) : Kept z (emitTraining s port peer) := by
  unfold emitTraining
  try dsimp only
  repeat' (first
    | with_reducible assumption | with_reducible apply kept_modChan | simp only [kept_upd]
    | with_reducible apply kept_ite | with_reducible refine kept_foldl _ (fun _ _ _ => ?_) _ _ ?_
    | with_reducible exact id | exact Nat.le_refl _ | exact fun hp => legalModes_of rfl rfl rfl rfl hp
    | exact fun he => boundedErrors_of rfl rfl he | split | intro _ | dsimp only | assumption | omega
    | (intro he; simp only [legalModes, boundedErrors] at he ⊢; with_reducible exact he)
    | (simp only [legalModes, boundedErrors, Bool.and_eq_true, decide_eq_true_eq] at *; omega)
    | apply kept_legal)

theorem kept_startRetrain {z s : State} (port peer : Nat) (h : Kept z s) : Kept z (startRetrain s port peer) := by
  unfold startRetrain
  try dsimp only
  repeat' (first
    | with_reducible assumption | with_reducible apply kept_bumpPort | with_reducible apply kept_modChan
    | simp only [kept_upd])

theorem kept_holdSweeps {z s : State} (port : Nat) (h : Kept z s) : Kept z (holdSweeps s port) := by
  unfold holdSweeps
  try dsimp only
  repeat' (first
    | with_reducible assumption | with_reducible apply kept_modPort | simp only [kept_upd]
    | with_reducible apply kept_ite | with_reducible refine kept_foldl _ (fun _ _ _ => ?_) _ _ ?_
    | with_reducible exact id | exact Nat.le_refl _ | exact fun hp => legalModes_of rfl rfl rfl rfl hp
    | exact fun he => boundedErrors_of rfl rfl he | split | intro _ | dsimp only | assumption | omega
    | (intro he; simp only [legalModes, boundedErrors] at he ⊢; with_reducible exact he)
    | (simp only [legalModes, boundedErrors, Bool.and_eq_true, decide_eq_true_eq] at *; omega)
    | apply kept_legal)

theorem kept_chanRecord {z s : State} (port detail : Nat) (h : Kept z s) : Kept z (chanRecord s port detail) := by
  unfold chanRecord
  try dsimp only
  repeat' (first
    | with_reducible assumption | with_reducible apply kept_raiseVector | with_reducible apply kept_record
    | simp only [kept_upd])

theorem kept_failChan {z s : State} (port peer detail : Nat) (h : Kept z s) : Kept z (failChan s port peer detail)
    := by
  unfold failChan
  try dsimp only
  repeat' (first
    | with_reducible assumption | with_reducible apply kept_modChan | with_reducible apply kept_modPort
    | with_reducible apply kept_chanRecord | simp only [kept_upd])

theorem kept_acceptFlit {z s : State} (port peer : Nat) (f : Flit) (h : Kept z s) : Kept z (acceptFlit s port peer
    f) := by
  unfold acceptFlit
  try dsimp only
  repeat' (first
    | with_reducible assumption | with_reducible apply kept_modChan | with_reducible apply kept_modPort
    | simp only [kept_upd])

theorem kept_takeRetry {z s : State} (port peer : Nat) (ack : Word) (h : Kept z s) : Kept z (takeRetry s port peer
    ack) := by
  unfold takeRetry
  try dsimp only
  repeat' (first
    | with_reducible assumption | with_reducible apply kept_bumpPort | with_reducible apply kept_modChan
    | with_reducible apply kept_startRetrain | simp only [kept_upd] | split)

theorem kept_takeFlit {z s : State} (port peer : Nat) (f : Flit) (h : Kept z s) : Kept z (takeFlit s port peer f) :=
    by
  unfold takeFlit
  try dsimp only
  repeat' (first
    | with_reducible assumption | with_reducible apply kept_modChan | with_reducible apply kept_takeRetry
    | with_reducible apply kept_acceptFlit | simp only [kept_upd] | split)

theorem keptO_execFlitReceive {z s : State} (port : Fin 8) (peer : Fin 64) (flit : Flit) (err : FlitErrors) (h :
    Kept z s) : KeptO z (execFlitReceive port peer flit err s) := by
  unfold execFlitReceive
  try dsimp only
  repeat' (first
    | with_reducible assumption | refine keptO_next ?_ | with_reducible apply kept_bumpPort
    | with_reducible apply kept_takeFlit | simp only [kept_upd] | split)

theorem keptO_execRetryRequestReceive {z s : State} (port : Fin 8) (peer : Fin 64) (ack : Word) (h : Kept z s) :
    KeptO z (execRetryRequestReceive port peer ack s) := by
  unfold execRetryRequestReceive
  try dsimp only
  repeat' (first
    | with_reducible assumption | refine keptO_next ?_ | with_reducible apply kept_takeRetry
    | simp only [kept_upd] | split)

theorem keptO_execLockLossTimeout {z s : State} (port : Fin 8) (peer : Fin 64) (h : Kept z s) : KeptO z
    (execLockLossTimeout port peer s) := by
  unfold execLockLossTimeout
  try dsimp only
  repeat' (first
    | with_reducible assumption | refine keptO_next ?_ | with_reducible apply kept_startRetrain
    | simp only [kept_upd] | split)

theorem keptO_execRetrainComplete {z s : State} (port : Fin 8) (peer : Fin 64) (seen : List TrainingSeen) (h : Kept
    z s) : KeptO z (execRetrainComplete port peer seen s) := by
  unfold execRetrainComplete
  try dsimp only
  repeat' (first
    | with_reducible assumption | refine keptO_next ?_ | with_reducible apply kept_modChan
    | with_reducible apply kept_modPort | with_reducible apply kept_failChan
    | with_reducible apply kept_startRetrain | simp only [kept_upd] | split)

theorem keptO_execRetrainTimeout {z s : State} (port : Fin 8) (peer : Fin 64) (h : Kept z s) : KeptO z
    (execRetrainTimeout port peer s) := by
  unfold execRetrainTimeout
  try dsimp only
  repeat' (first
    | with_reducible assumption | refine keptO_next ?_ | with_reducible apply kept_failChan
    | simp only [kept_upd] | split)

theorem kept_retrainWrite {z s : State} (k : Nat) (value : Dword) (h : Kept z s) : Kept z (retrainWrite s k value)
    := by
  unfold retrainWrite
  try dsimp only
  repeat' (first
    | with_reducible assumption | with_reducible apply kept_modPort
    | with_reducible apply kept_startRetrain | simp only [kept_upd] | split
    | with_reducible refine kept_foldl _ (fun _ _ _ => ?_) _ _ ?_)

theorem keptO_execPortRetrainWrite {z s : State} (port : Fin 8) (value : Dword) (h : Kept z s) : KeptO z
    (execPortRetrainWrite port value s) := by
  unfold execPortRetrainWrite
  try dsimp only
  repeat' (first
    | with_reducible assumption | refine keptO_next ?_ | with_reducible apply kept_retrainWrite
    | simp only [kept_upd])

theorem kept_trackChan {z s : State} (k m : Nat) (h : Kept z s) : Kept z (trackChan s k m) := by
  unfold trackChan
  try dsimp only
  repeat' (first
    | with_reducible assumption | with_reducible apply kept_modChan | simp only [kept_upd]
    | with_reducible apply kept_ite | with_reducible refine kept_foldl _ (fun _ _ _ => ?_) _ _ ?_
    | with_reducible exact id | exact Nat.le_refl _ | exact fun hp => legalModes_of rfl rfl rfl rfl hp
    | exact fun he => boundedErrors_of rfl rfl he | split | intro _ | dsimp only | assumption | omega
    | (intro he; simp only [legalModes, boundedErrors] at he ⊢; with_reducible exact he)
    | (simp only [legalModes, boundedErrors, Bool.and_eq_true, decide_eq_true_eq] at *; omega)
    | apply kept_legal)

theorem keptO_execCalTrackingStep {z s : State} (port : Fin 8) (h : Kept z s) : KeptO z (execCalTrackingStep port s)
    := by
  unfold execCalTrackingStep
  try dsimp only
  repeat' (first
    | with_reducible assumption | refine keptO_next ?_ | with_reducible apply kept_modPort
    | with_reducible apply kept_bumpPort | with_reducible apply kept_trackChan | simp only [kept_upd]
    | split)

theorem kept_bringUp {z s : State} (k m : Nat) (h : Kept z s) : Kept z (bringUp s k m) := by
  unfold bringUp
  try dsimp only
  repeat' (first
    | with_reducible assumption | with_reducible apply kept_modPort | with_reducible apply kept_modChan
    | with_reducible apply kept_emitTraining | simp only [kept_upd] | with_reducible apply kept_ite
    | with_reducible refine kept_foldl _ (fun _ _ _ => ?_) _ _ ?_ | with_reducible exact id
    | exact Nat.le_refl _ | exact fun hp => legalModes_of rfl rfl rfl rfl hp
    | exact fun he => boundedErrors_of rfl rfl he | split | intro _ | dsimp only | assumption | omega
    | (intro he; simp only [legalModes, boundedErrors] at he ⊢; with_reducible exact he)
    | (simp only [legalModes, boundedErrors, Bool.and_eq_true, decide_eq_true_eq] at *; omega)
    | apply kept_legal)

theorem kept_wireChan {z s : State} (seen : List TrainingSeen) (k : Nat) (m : Nat) (h : Kept z s) : Kept z (wireChan
    seen k s m) := by
  unfold wireChan
  try dsimp only
  repeat' (first
    | with_reducible assumption | with_reducible apply kept_modChan
    | with_reducible apply kept_emitTraining | with_reducible apply kept_bringUp
    | with_reducible apply kept_failChan | simp only [kept_upd] | split)

theorem keptO_execPortBringUp {z s : State} (port : Fin 8) (seen : List TrainingSeen) (h : Kept z s) : KeptO z
    (execPortBringUp port seen s) := by
  unfold execPortBringUp
  try dsimp only
  repeat' (first
    | with_reducible assumption | refine keptO_next ?_ | with_reducible apply kept_bringUp
    | with_reducible apply kept_modPort | with_reducible apply kept_wireChan | simp only [kept_upd] | split
    | with_reducible refine kept_foldl _ (fun _ _ _ => ?_) _ _ ?_)

theorem kept_darken {z s : State} (k : Nat) (h : Kept z s) : Kept z (darken s k) := by
  unfold darken
  try dsimp only
  repeat' (first
    | with_reducible assumption | with_reducible apply kept_modPort | simp only [kept_upd])

theorem keptO_execLaserInputChange {z s : State} (port : Fin 8) (powers : List Nat) (h : Kept z s) : KeptO z
    (execLaserInputChange port powers s) := by
  unfold execLaserInputChange
  try dsimp only
  repeat' (first
    | with_reducible assumption | refine keptO_next ?_ | with_reducible apply kept_modPort
    | with_reducible apply kept_darken | simp only [kept_upd] | split)

theorem kept_dropBeyond {z s : State} (k : Nat) (h : Kept z s) : Kept z (dropBeyond s k) := by
  unfold dropBeyond
  try dsimp only
  repeat' (first
    | with_reducible assumption | with_reducible apply kept_modPort | simp only [kept_upd]
    | with_reducible apply kept_ite | with_reducible refine kept_foldl _ (fun _ _ _ => ?_) _ _ ?_
    | with_reducible exact id | exact Nat.le_refl _ | exact fun hp => legalModes_of rfl rfl rfl rfl hp
    | exact fun he => boundedErrors_of rfl rfl he | split | intro _ | dsimp only | assumption | omega
    | (intro he; simp only [legalModes, boundedErrors] at he ⊢; with_reducible exact he)
    | (simp only [legalModes, boundedErrors, Bool.and_eq_true, decide_eq_true_eq] at *; omega)
    | apply kept_legal)

theorem kept_settleQuiesce {z s : State} (k : Nat) (h : Kept z s) : Kept z (settleQuiesce s k) := by
  unfold settleQuiesce
  try dsimp only
  repeat' (first
    | with_reducible assumption | with_reducible apply kept_darken | with_reducible apply kept_modPort
    | simp only [kept_upd] | with_reducible apply kept_ite
    | with_reducible refine kept_foldl _ (fun _ _ _ => ?_) _ _ ?_ | with_reducible exact id
    | exact Nat.le_refl _ | exact fun hp => legalModes_of rfl rfl rfl rfl hp
    | exact fun he => boundedErrors_of rfl rfl he | split | intro _ | dsimp only | assumption | omega
    | (intro he; simp only [legalModes, boundedErrors] at he ⊢; with_reducible exact he)
    | (simp only [legalModes, boundedErrors, Bool.and_eq_true, decide_eq_true_eq] at *; omega)
    | apply kept_legal)

theorem kept_quiescePort {z s : State} (k : Nat) (h : Kept z s) : Kept z (quiescePort s k) := by
  unfold quiescePort
  try dsimp only
  repeat' (first
    | with_reducible assumption | with_reducible apply kept_settleQuiesce
    | with_reducible apply kept_modPort | with_reducible apply kept_sendFrame | simp only [kept_upd]
    | split | with_reducible refine kept_foldl _ (fun _ _ _ => ?_) _ _ ?_)

theorem kept_quiescePorts {z s : State} (h : Kept z s) : Kept z (quiescePorts s) := by
  unfold quiescePorts
  try dsimp only
  repeat' (first
    | with_reducible assumption | with_reducible apply kept_quiescePort | simp only [kept_upd] | split
    | with_reducible refine kept_foldl _ (fun _ _ _ => ?_) _ _ ?_)

theorem keptO_execFlitSend {z s : State} (port : Fin 8) (peer : Fin 64) (h : Kept z s) : KeptO z (execFlitSend port
    peer s) := by
  unfold execFlitSend
  try dsimp only
  repeat' (first
    | with_reducible assumption | refine keptO_next ?_ | with_reducible apply kept_settleQuiesce
    | with_reducible apply kept_emitFlit | with_reducible apply kept_emitTraining | simp only [kept_upd]
    | split)

theorem keptO_execQuiesceNoticeReceive {z s : State} (port : Fin 8) (peer : Fin 64) (h : Kept z s) : KeptO z
    (execQuiesceNoticeReceive port peer s) := by
  unfold execQuiesceNoticeReceive
  try dsimp only
  repeat' (first
    | with_reducible assumption | refine keptO_next ?_ | with_reducible apply keptO_withRx
    | with_reducible apply kept_modChan | simp only [kept_upd] | split | intro _)

end Sys2Proof.Machine
end

