-- ==== Sys2Proof/Laws/KeptIdle.lean ====
section
/-! SUPPORT. What the operations of Machine/Idle.lean keep: `Kept` of each, from that of the operations it uses. -/

namespace Sys2Proof.Machine

theorem kept_saveDie {z s : State} (die : Nat) (h : Kept z s) : Kept z (saveDie s die) := by
  unfold saveDie
  generalize saveLen = n
  refine kept_legal ?_ id id (kept_writeMemBytes Tier.hbm (saveArea s die) (drawBytes s.draws n) h)
  have hd : ∀ at_ bs, (writeMemBytes s .hbm at_ bs).draws = s.draws := fun _ _ => rfl
  rw [hd]
  exact Nat.le_add_right _ _

theorem kept_setIdle {z s : State} (ps : List Part) (l : Nat) (h : Kept z s) : Kept z (setIdle s ps l) := by
  unfold setIdle
  try dsimp only
  repeat' (first
    | with_reducible assumption | with_reducible apply kept_modPartQuads | simp only [kept_upd] | split
    | with_reducible refine kept_foldl _ (fun _ _ _ => ?_) _ _ ?_)

theorem kept_takeLevel {z s : State} (p : Part) (l : Nat) (h : Kept z s) : Kept z (takeLevel s p l) := by
  unfold takeLevel
  dsimp only
  have hs : ∀ ds : List Nat, Kept z (ds.foldl saveDie s) := fun ds =>
    kept_foldl _ (fun _ d ht => kept_saveDie d ht) ds s h
  have hi : ∀ ds ps, Kept z (setIdle (if 3 ≤ l then List.foldl saveDie s ds else s) ps l) := fun ds ps =>
    kept_setIdle _ _ (kept_ite (hs ds) h)
  split
  · exact kept_powerRefresh (kept_quiescePorts (hi _ _))
  · exact hi _ _

theorem kept_leaveTo {z s : State} (p : Part) (l : Nat) (h : Kept z s) : Kept z (leaveTo s p l) := by
  unfold leaveTo
  try dsimp only
  repeat' (first
    | with_reducible assumption | with_reducible apply kept_modPartQuads | simp only [kept_upd]
    | with_reducible apply kept_ite | with_reducible refine kept_foldl _ (fun _ _ _ => ?_) _ _ ?_
    | with_reducible exact id | exact Nat.le_refl _ | exact fun hp => legalModes_of rfl rfl rfl rfl hp
    | exact fun he => boundedErrors_of rfl rfl he | split | intro _ | dsimp only | assumption | omega
    | (intro he; simp only [legalModes, boundedErrors] at he ⊢; with_reducible exact he)
    | (simp only [legalModes, boundedErrors, Bool.and_eq_true, decide_eq_true_eq] at *; omega)
    | apply kept_legal)

theorem kept_leaveIdle {z s : State} (p : Part) (h : Kept z s) : Kept z (leaveIdle s p) := by
  unfold leaveIdle
  try dsimp only
  repeat' (first
    | with_reducible assumption | with_reducible apply kept_leaveTo | simp only [kept_upd] | split
    | with_reducible refine kept_foldl _ (fun _ _ _ => ?_) _ _ ?_ | exact Nat.le_refl _
    | exact fun hp => legalModes_of rfl rfl rfl rfl hp | exact fun he => boundedErrors_of rfl rfl he
    | apply kept_legal)

theorem keptO_execIdleEnter {z s : State} (q : Fin 8) (h : Kept z s) : KeptO z (execIdleEnter q s) := by
  unfold execIdleEnter
  try dsimp only
  repeat' (first
    | with_reducible assumption | refine keptO_next ?_ | with_reducible apply kept_takeLevel
    | with_reducible apply kept_snoopLines | with_reducible apply kept_leaveTo | simp only [kept_upd]
    | with_reducible apply kept_ite | with_reducible refine kept_foldl _ (fun _ _ _ => ?_) _ _ ?_
    | with_reducible exact id | exact Nat.le_refl _ | exact fun hp => legalModes_of rfl rfl rfl rfl hp
    | exact fun he => boundedErrors_of rfl rfl he | split | intro _ | dsimp only | assumption | omega
    | (intro he; simp only [legalModes, boundedErrors] at he ⊢; with_reducible exact he)
    | (simp only [legalModes, boundedErrors, Bool.and_eq_true, decide_eq_true_eq] at *; omega)
    | apply kept_legal)

theorem kept_settleExit {z s : State} (p : Part) (h : Kept z s) : Kept z (settleExit s p) := by
  unfold settleExit
  try dsimp only
  repeat' (first
    | with_reducible assumption | with_reducible apply kept_leaveIdle | simp only [kept_upd]
    | with_reducible apply kept_ite | with_reducible refine kept_foldl _ (fun _ _ _ => ?_) _ _ ?_
    | with_reducible exact id | exact Nat.le_refl _ | exact fun hp => legalModes_of rfl rfl rfl rfl hp
    | exact fun he => boundedErrors_of rfl rfl he | split | intro _ | dsimp only | assumption | omega
    | (intro he; simp only [legalModes, boundedErrors] at he ⊢; with_reducible exact he)
    | (simp only [legalModes, boundedErrors, Bool.and_eq_true, decide_eq_true_eq] at *; omega)
    | apply kept_legal)

theorem keptO_execIdleExit {z s : State} (q : Fin 8) (cause : IdleCause) (h : Kept z s) : KeptO z (execIdleExit q
    cause s) := by
  unfold execIdleExit
  try dsimp only
  repeat' (first
    | with_reducible assumption | refine keptO_next ?_ | with_reducible apply kept_leaveIdle
    | simp only [kept_upd] | split)

theorem kept_horizonWrite {z s : State} (r : Nat) (value : Word) (h : Kept z s) : Kept z (horizonWrite s r value) :=
    by
  unfold horizonWrite
  try dsimp only
  repeat' (first
    | with_reducible assumption | with_reducible apply kept_modQuad | with_reducible apply kept_leaveIdle
    | simp only [kept_upd] | split)

theorem keptO_execPwrHorizonHostWrite {z s : State} (r : Fin 8) (value : Word) (h : Kept z s) : KeptO z
    (execPwrHorizonHostWrite r value s) := by
  unfold execPwrHorizonHostWrite
  try dsimp only
  repeat' (first
    | with_reducible assumption | refine keptO_next ?_ | with_reducible apply kept_horizonWrite
    | simp only [kept_upd])

end Sys2Proof.Machine
end

