-- ==== Sys2Proof/Laws/KeptJournal.lean ====
section
/-! SUPPORT. What the operations of Machine/Journal.lean keep: `Kept` of each, from that of the operations it uses. -/

namespace Sys2Proof.Machine

theorem keptA_actJnlHash (a : At) : KeptA a.s (actJnlHash a) := by
  unfold actJnlHash
  refine keptA_eff ?_ rfl rfl
  try dsimp only
  repeat' (first
    | with_reducible exact Kept.refl _ | with_reducible assumption | with_reducible apply kept_push
    | with_reducible apply kept_readStore | simp only [kept_upd] | with_reducible apply kept_ite
    | with_reducible refine kept_foldl _ (fun _ _ _ => ?_) _ _ ?_ | with_reducible exact id
    | exact Nat.le_refl _ | exact fun hp => legalModes_of rfl rfl rfl rfl hp
    | exact fun he => boundedErrors_of rfl rfl he | split | intro _ | dsimp only | assumption | omega
    | (intro he; simp only [legalModes, boundedErrors] at he ⊢; with_reducible exact he)
    | (simp only [legalModes, boundedErrors, Bool.and_eq_true, decide_eq_true_eq] at *; omega)
    | apply kept_legal)

theorem keptA_actJnlWrite (a : At) : KeptA a.s (actJnlWrite a) := by
  unfold actJnlWrite
  refine keptA_eff ?_ rfl rfl
  try dsimp only
  repeat' (first
    | with_reducible exact Kept.refl _ | with_reducible assumption | with_reducible apply kept_readStore
    | with_reducible apply kept_modCore | simp only [kept_upd] | split)

theorem kept_starveCore {z s : State} (low : Nat) (n : Nat) (h : Kept z s) : Kept z (starveCore low s n) := by
  unfold starveCore
  try dsimp only
  repeat' (first
    | with_reducible assumption | with_reducible apply kept_setCore | with_reducible apply kept_noteW1c
    | with_reducible apply kept_modCore | with_reducible apply kept_record
    | with_reducible apply kept_partVector | with_reducible apply kept_modPart | simp only [kept_upd]
    | split | with_reducible refine kept_foldl _ (fun _ _ _ => ?_) _ _ ?_)

theorem kept_finishEntry {z s : State} (p : Part) (h : Kept z s) : Kept z (finishEntry s p) := by
  unfold finishEntry
  try dsimp only
  repeat' (first
    | with_reducible assumption | with_reducible apply kept_starveCore
    | with_reducible apply kept_writeMemBytes | with_reducible apply kept_modCore
    | with_reducible apply kept_modPartQuads | with_reducible apply kept_modPart | simp only [kept_upd]
    | split | with_reducible refine kept_foldl _ (fun _ _ _ => ?_) _ _ ?_)

theorem keptO_execJournalEntryComplete {z s0 : State} (q : Fin 8) (h : Kept z s0) : KeptO z
    (execJournalEntryComplete q s0) := by
  unfold execJournalEntryComplete
  try dsimp only
  repeat' (first
    | with_reducible assumption | refine keptO_next ?_ | with_reducible apply kept_landAll
    | with_reducible apply kept_finishEntry | with_reducible apply kept_snoopLines | simp only [kept_upd]
    | split | with_reducible refine kept_foldl _ (fun _ _ _ => ?_) _ _ ?_)

theorem kept_tapRead {z s : State} (p : Part) (t : Nat) (h : Kept z s) : Kept z (tapRead s p t) := by
  unfold tapRead
  try dsimp only
  repeat' (first
    | with_reducible assumption | with_reducible apply kept_findPoison | simp only [kept_upd]
    | with_reducible apply kept_ite | with_reducible refine kept_foldl _ (fun _ _ _ => ?_) _ _ ?_
    | with_reducible exact id | exact Nat.le_refl _ | exact fun hp => legalModes_of rfl rfl rfl rfl hp
    | exact fun he => boundedErrors_of rfl rfl he | split | intro _ | dsimp only | assumption | omega
    | (intro he; simp only [legalModes, boundedErrors] at he ⊢; with_reducible exact he)
    | (simp only [legalModes, boundedErrors, Bool.and_eq_true, decide_eq_true_eq] at *; omega)
    | apply kept_legal)

theorem kept_dropTap {z s : State} (p : Part) (n : Nat) (h : Kept z s) : Kept z (dropTap s p n) := by
  unfold dropTap
  try dsimp only
  repeat' (first
    | with_reducible assumption | with_reducible apply kept_modPartQuads | simp only [kept_upd] | split)

theorem kept_tapEffect (a : At) : Kept a.s (tapEffect a) := by
  unfold tapEffect
  try dsimp only
  repeat' (first
    | with_reducible exact Kept.refl _ | with_reducible assumption | with_reducible apply kept_tapRead
    | with_reducible apply kept_dropTap | with_reducible apply kept_modPart
    | with_reducible apply kept_newAccess | with_reducible apply kept_sramFound
    | with_reducible apply kept_sendAll | with_reducible apply kept_tapDrop | simp only [kept_upd]
    | with_reducible apply kept_ite | with_reducible refine kept_foldl _ (fun _ _ _ => ?_) _ _ ?_
    | with_reducible exact id | exact Nat.le_refl _ | exact fun hp => legalModes_of rfl rfl rfl rfl hp
    | exact fun he => boundedErrors_of rfl rfl he | split | intro _ | dsimp only | assumption | omega
    | (intro he; simp only [legalModes, boundedErrors] at he ⊢; with_reducible exact he)
    | (simp only [legalModes, boundedErrors, Bool.and_eq_true, decide_eq_true_eq] at *; omega)
    | apply kept_legal)

theorem keptA_actJnlTap (a : At) : KeptA a.s (actJnlTap a) := by
  unfold actJnlTap
  refine keptA_eff ?_ rfl rfl
  try dsimp only
  repeat' (first
    | with_reducible exact Kept.refl _ | with_reducible assumption | with_reducible apply kept_tapEffect
    | simp only [kept_upd] | split)

theorem keptO_execJnlHash {z s : State} (i : Issue) (h : Kept z s) : KeptO z (execJnlHash i s) := by
  unfold execJnlHash
  try dsimp only
  repeat' (first
    | with_reducible assumption | with_reducible apply keptO_issueWith
    | with_reducible apply keptA_actJnlHash | simp only [kept_upd])

theorem keptO_execJnlWrite {z s : State} (i : Issue) (h : Kept z s) : KeptO z (execJnlWrite i s) := by
  unfold execJnlWrite
  try dsimp only
  repeat' (first
    | with_reducible assumption | with_reducible apply keptO_issueWith
    | with_reducible apply keptA_actJnlWrite | simp only [kept_upd])

theorem keptO_execJnlTap {z s : State} (i : Issue) (h : Kept z s) : KeptO z (execJnlTap i s) := by
  unfold execJnlTap
  try dsimp only
  repeat' (first
    | with_reducible assumption | with_reducible apply keptO_issueWith
    | with_reducible apply keptA_actJnlTap | simp only [kept_upd])

end Sys2Proof.Machine
end

