-- ==== Sys2Proof/Laws/KeptMask.lean ====
section
/-! SUPPORT. What the operations of Machine/Mask.lean keep: `Kept` of each, from that of the operations it uses. -/

namespace Sys2Proof.Machine

theorem kept_failMask {z s : State} (a : At) (work kind detail : Nat) (mf : Dword) (h : Kept z s) : Kept z (failMask
    s a work kind detail mf) := by
  unfold failMask
  try dsimp only
  repeat' (first
    | with_reducible assumption | with_reducible apply kept_deferFault | with_reducible apply kept_modCore
    | simp only [kept_upd])

theorem keptA_actMask (a : At) (grow : Bool) (k : Nat) (work : Nat → Nat → Nat → Nat)
    (derive_ : Header → List (Nat × Nat) → List Spot → Derived) (dbs : List Image)
    (extra : Image → Conds) (onShort : State → Header → Nat → State)
    (ho : ∀ s h n, Kept a.s s → Kept a.s (onShort s h n)) :
    KeptA a.s (actMask a grow k work derive_ dbs extra onShort) := by
  unfold actMask
  dsimp only
  refine ⟨?_, ?_, ?_⟩
  on_goal 2 => intro t ht; cases ht
  on_goal 2 => intro t ht; cases ht
  dsimp only
  split
  · exact kept_failMask _ _ _ _ _ (kept_readStore _ _)
  · split
    · exact kept_failMask _ _ _ _ _ (ho _ _ _ (kept_noteAhead _ _ (kept_readStore _ _)))
    · split
      · exact kept_failMask _ _ _ _ _ (ho _ _ _ (kept_noteAhead _ _ (kept_readStore _ _)))
      · exact kept_pushStore _ _ _ _ (kept_modCore _ _ (ho _ _ _ (kept_noteAhead _ _ (kept_readStore _ _))))

theorem keptA_actCull (a : At) : KeptA a.s (actCull a) := by
  refine keptA_actMask a _ _ _ _ _ _ _ (fun s h n hs => ?_)
  split
  · exact hs
  · exact kept_bumpCore _ _ _ hs

theorem keptA_actGerminate (a : At) : KeptA a.s (actGerminate a) := by
  unfold actGerminate
  refine keptA_actMask a _ _ _ _ _ _ _ (fun s h n hs => ?_)
  dsimp only
  split
  · exact kept_record _ (kept_bumpCore _ _ _ hs)
  · split
    · exact hs
    · exact kept_bumpCore _ _ _ hs

theorem keptA_actMaskCommit (a : At) : KeptA a.s (actMaskCommit a) := by
  unfold actMaskCommit
  refine keptA_eff ?_ rfl rfl
  try dsimp only
  repeat' (first
    | with_reducible exact Kept.refl _ | with_reducible assumption | with_reducible apply kept_newAccess
    | with_reducible apply kept_push | simp only [kept_upd])

theorem keptO_execCull {z s : State} (i : Issue) (h : Kept z s) : KeptO z (execCull i s) := by
  unfold execCull
  try dsimp only
  repeat' (first
    | with_reducible assumption | with_reducible apply keptO_issueWith | with_reducible apply keptA_actCull
    | simp only [kept_upd])

theorem keptO_execGerminate {z s : State} (i : Issue) (h : Kept z s) : KeptO z (execGerminate i s) := by
  unfold execGerminate
  try dsimp only
  repeat' (first
    | with_reducible assumption | with_reducible apply keptO_issueWith
    | with_reducible apply keptA_actGerminate | simp only [kept_upd])

theorem keptO_execMaskCommit {z s : State} (i : Issue) (h : Kept z s) : KeptO z (execMaskCommit i s) := by
  unfold execMaskCommit
  try dsimp only
  repeat' (first
    | with_reducible assumption | with_reducible apply keptO_issueWith
    | with_reducible apply keptA_actMaskCommit | simp only [kept_upd])

end Sys2Proof.Machine
end

