-- ==== Sys2Proof/Laws/KeptPower.lean ====
section
/-! SUPPORT. What the operations of Machine/Power.lean keep: `Kept` of each, from that of the operations it uses. -/

namespace Sys2Proof.Machine

theorem kept_switchCclk {z s : State} (h : Kept z s) : Kept z (switchCclk s) := by
  unfold switchCclk
  split
  · exact h
  · dsimp only
    refine kept_record _ (kept_legal (Nat.le_refl _) (fun hp => ?_) id h)
    simp only [legalModes, Bool.and_eq_true, decide_eq_true_eq] at hp ⊢
    have hw : divWanted s ≤ 4 := by unfold divWanted shedDiv; split <;> omega
    exact ⟨⟨hp.1.1, hw⟩, hp.2⟩

theorem keptO_execCclkDividerChange {z s : State} (h : Kept z s) : KeptO z (execCclkDividerChange s) := by
  unfold execCclkDividerChange
  try dsimp only
  repeat' (first
    | with_reducible assumption | refine keptO_next ?_ | with_reducible apply kept_switchCclk
    | simp only [kept_upd])

theorem kept_divWrite {z s : State} (value : Word) (h : Kept z s) : Kept z (divWrite s value) := by
  unfold divWrite
  try dsimp only
  repeat' (first
    | with_reducible assumption | simp only [kept_upd] | with_reducible apply kept_ite
    | with_reducible refine kept_foldl _ (fun _ _ _ => ?_) _ _ ?_ | with_reducible exact id
    | exact Nat.le_refl _ | exact fun hp => legalModes_of rfl rfl rfl rfl hp
    | exact fun he => boundedErrors_of rfl rfl he | split | intro _ | dsimp only | assumption | omega
    | (intro he; simp only [legalModes, boundedErrors] at he ⊢; with_reducible exact he)
    | (simp only [legalModes, boundedErrors, Bool.and_eq_true, decide_eq_true_eq] at *; omega)
    | apply kept_legal)

theorem keptO_execDivHostWrite {z s : State} (value : Word) (h : Kept z s) : KeptO z (execDivHostWrite value s) := by
  unfold execDivHostWrite
  try dsimp only
  repeat' (first
    | with_reducible assumption | refine keptO_next ?_ | with_reducible apply kept_divWrite
    | simp only [kept_upd])

theorem kept_poolCapWrite {z s : State} (q : Nat) (value : Word) (h : Kept z s) : Kept z (poolCapWrite s q value) :=
    by
  unfold poolCapWrite
  try dsimp only
  repeat' (first
    | with_reducible assumption | with_reducible apply kept_modQuad | simp only [kept_upd])

theorem keptO_execPwrPoolCapWrite {z s : State} (q : Fin 8) (value : Word) (h : Kept z s) : KeptO z
    (execPwrPoolCapWrite q value s) := by
  unfold execPwrPoolCapWrite
  try dsimp only
  repeat' (first
    | with_reducible assumption | refine keptO_next ?_ | with_reducible apply kept_poolCapWrite
    | simp only [kept_upd])

theorem kept_stopUnheld {z s : State} (h : Kept z s) : Kept z (stopUnheld s) := by
  unfold stopUnheld
  try dsimp only
  repeat' (first
    | with_reducible assumption | with_reducible apply kept_stopPart | simp only [kept_upd] | split
    | with_reducible refine kept_foldl _ (fun _ _ _ => ?_) _ _ ?_)

theorem kept_finishS5 {z s : State} (t : Nat) (rec_ : Bool) (h : Kept z s) : Kept z (finishS5 s t rec_) :=
  kept_legal (Nat.le_refl _) (fun hp => legalModes_of rfl rfl rfl rfl hp) id h

theorem kept_settleS5 {z s : State} (h : Kept z s) : Kept z (settleS5 s) := by
  unfold settleS5
  split
  · exact h
  · split
    · exact h
    · dsimp only
      have hq : Kept z (if s.power.s5Sent then s else quiescePorts { s with power := { s.power with s5Sent := true } }) :=
        kept_ite h (kept_quiescePorts (kept_legal (Nat.le_refl _) (fun hp => legalModes_of rfl rfl rfl rfl hp) id h))
      generalize (if s.power.s5Sent then s else quiescePorts { s with power := { s.power with s5Sent := true } }) = u
        at hq ⊢
      split
      · exact kept_finishS5 _ _ hq
      · exact hq

theorem kept_enterS5 {z s : State} (rec_ : Bool) (h : Kept z s) : Kept z (enterS5 s rec_) := by
  unfold enterS5
  try dsimp only
  repeat' (first
    | with_reducible assumption | with_reducible apply kept_settleS5 | with_reducible apply kept_stopUnheld
    | simp only [kept_upd] | split | with_reducible refine kept_foldl _ (fun _ _ _ => ?_) _ _ ?_
    | exact Nat.le_refl _ | exact fun hp => legalModes_of rfl rfl rfl rfl hp
    | exact fun he => boundedErrors_of rfl rfl he | apply kept_legal)

theorem kept_releaseS4 {z s : State} (p : Part) (h : Kept z s) : Kept z (releaseS4 s p) := by
  unfold releaseS4
  try dsimp only
  repeat' (first
    | with_reducible assumption | with_reducible apply kept_modPart | with_reducible apply kept_modCore
    | simp only [kept_upd] | split | with_reducible refine kept_foldl _ (fun _ _ _ => ?_) _ _ ?_)

theorem kept_resumeSweeps {z s : State} (k : Nat) (h : Kept z s) : Kept z (resumeSweeps s k) := by
  unfold resumeSweeps
  try dsimp only
  repeat' (first
    | with_reducible assumption | with_reducible apply kept_modPort | simp only [kept_upd])

theorem kept_wakeS5 {z s : State} (h : Kept z s) : Kept z (wakeS5 s) := by
  unfold wakeS5
  try dsimp only
  repeat' (first
    | with_reducible assumption | simp only [kept_upd] | with_reducible apply kept_ite
    | with_reducible refine kept_foldl _ (fun _ _ _ => ?_) _ _ ?_ | with_reducible exact id
    | exact Nat.le_refl _ | exact fun hp => legalModes_of rfl rfl rfl rfl hp
    | exact fun he => boundedErrors_of rfl rfl he | split | intro _ | dsimp only | assumption | omega
    | (intro he; simp only [legalModes, boundedErrors] at he ⊢; with_reducible exact he)
    | (simp only [legalModes, boundedErrors, Bool.and_eq_true, decide_eq_true_eq] at *; omega)
    | apply kept_legal)

theorem kept_liftStages {z s : State} (old new : Nat) (h : Kept z s) : Kept z (liftStages s old new) := by
  unfold liftStages
  try dsimp only
  repeat' (first
    | with_reducible assumption | with_reducible apply kept_wakeS5 | with_reducible apply kept_releaseS4
    | with_reducible apply kept_switchCclk | with_reducible apply kept_resumeSweeps | simp only [kept_upd]
    | split | with_reducible refine kept_foldl _ (fun _ _ _ => ?_) _ _ ?_ | exact Nat.le_refl _
    | exact fun hp => legalModes_of rfl rfl rfl rfl hp | exact fun he => boundedErrors_of rfl rfl he
    | apply kept_legal)

theorem kept_enterStages {z s : State} (old new : Nat) (rec_ : Bool) (h : Kept z s) : Kept z (enterStages s old new
    rec_) := by
  unfold enterStages
  try dsimp only
  repeat' (first
    | with_reducible assumption | with_reducible apply kept_holdSweeps | with_reducible apply kept_enterS5
    | simp only [kept_upd] | split | with_reducible refine kept_foldl _ (fun _ _ _ => ?_) _ _ ?_
    | exact Nat.le_refl _ | exact fun hp => legalModes_of rfl rfl rfl rfl hp
    | exact fun he => boundedErrors_of rfl rfl he | apply kept_legal)

theorem stageFor_le (old average : Nat) : stageFor old average ≤ 5 := by
  unfold stageFor
  simp only [List.range, List.range.loop, List.foldl]
  repeat' split
  all_goals omega

theorem kept_changeStage {z s : State} (new average : Nat) (hn : new ≤ 5) (h : Kept z s) :
    Kept z (changeStage s new average) := by
  unfold changeStage
  dsimp only
  have hs : ∀ pw : Power, (legalModes s.power = true → legalModes pw = true) → Kept z { s with power := pw } :=
    fun pw hp => kept_legal (Nat.le_refl _) hp id h
  have hp := hs { s.power with stage := new, stageCounts := countStages s.power.stageCounts s.power.stage new }
    (fun hp => by
      simp only [legalModes, Bool.and_eq_true, decide_eq_true_eq] at hp ⊢
      exact ⟨hp.1, hn⟩)
  have hr := kept_raiseVector 33 (kept_record { kind := 0x40, detail := s.power.stage + new * 2 ^ 3 + average * 2 ^ 16 } hp)
  split
  · exact hr
  · split
    · exact kept_enterStages _ _ _ hr
    · exact kept_liftStages _ _ hr

theorem kept_settleEnd {z s : State} (h : Kept z s) : Kept z (settleEnd s) := by
  have hp : ∀ pw : Power, legalModes pw = legalModes s.power → Kept z { s with power := pw } :=
    fun pw e => kept_legal (Nat.le_refl _) (fun hl => e.trans hl) id h
  unfold settleEnd
  split
  · exact h
  · split
    · dsimp only
      split
      · exact kept_changeStage _ _ (Nat.min_le_right _ _) (hp _ rfl)
      · exact kept_liftStages _ _ (hp _ rfl)
    · exact h

theorem kept_beginEnd {z s : State} (new : Nat) (h : Kept z s) : Kept z (beginEnd s new) := by
  unfold beginEnd
  exact kept_settleEnd (kept_legal (Nat.le_refl _) (fun hp => legalModes_of rfl rfl rfl rfl hp) id (kept_wakeS5 h))

theorem kept_resumeS5 {z s : State} (h : Kept z s) : Kept z (resumeS5 s) := by
  unfold resumeS5
  exact kept_enterS5 _ (kept_legal (Nat.le_refl _) (fun hp => legalModes_of rfl rfl rfl rfl hp) id h)

theorem kept_leaveS5 {z s : State} (new avg : Nat) (hn : new ≤ 5) (h : Kept z s) : Kept z (leaveS5 s new avg) := by
  unfold leaveS5
  repeat' split
  · exact kept_resumeS5 h
  · exact h
  · exact kept_changeStage _ _ hn h
  · exact kept_beginEnd _ h

theorem keptO_execShedStageChange {z s0 : State} (average : Nat) (h : Kept z s0) :
    KeptO z (execShedStageChange average s0) := by
  have hs : Kept z (settleEnd (settleS5 { s0 with power := { s0.power with vinAvg := min average 65535 } })) :=
    kept_settleEnd (kept_settleS5 (kept_legal (Nat.le_refl _) id id h))
  unfold execShedStageChange
  dsimp only
  generalize settleEnd (settleS5 { s0 with power := { s0.power with vinAvg := min average 65535 } }) = s at hs ⊢
  refine keptO_next ?_
  split
  · exact kept_leaveS5 _ _ (stageFor_le _ _) hs
  · split
    · exact hs
    · split
      · exact kept_changeStage _ _ (stageFor_le _ _)
          (kept_legal (Nat.le_refl _) (fun hp => legalModes_of rfl rfl rfl rfl hp) id hs)
      · exact kept_changeStage _ _ (stageFor_le _ _) hs

theorem keptO_execS4LimitExpiry {z s : State} (q : Fin 8) (h : Kept z s) : KeptO z (execS4LimitExpiry q s) := by
  unfold execS4LimitExpiry
  try dsimp only
  repeat' (first
    | with_reducible assumption | refine keptO_next ?_ | with_reducible apply kept_stopPart
    | with_reducible apply kept_record | simp only [kept_upd] | split)

theorem keptO_execTclkLoss {z s : State} (h : Kept z s) : KeptO z (execTclkLoss s) := by
  unfold execTclkLoss
  try dsimp only
  repeat' (first
    | with_reducible assumption | refine keptO_next ?_ | with_reducible apply kept_record
    | simp only [kept_upd] | split | with_reducible refine kept_foldl _ (fun _ _ _ => ?_) _ _ ?_
    | exact Nat.le_refl _ | exact fun hp => legalModes_of rfl rfl rfl rfl hp
    | exact fun he => boundedErrors_of rfl rfl he | apply kept_legal)

theorem keptO_execTclkAbsent {z s : State} (h : Kept z s) : KeptO z (execTclkAbsent s) := by
  unfold execTclkAbsent
  try dsimp only
  repeat' (first
    | with_reducible assumption | refine keptO_next ?_ | with_reducible apply kept_resumeS5
    | with_reducible apply kept_enterStages | simp only [kept_upd] | split
    | with_reducible refine kept_foldl _ (fun _ _ _ => ?_) _ _ ?_ | exact Nat.le_refl _
    | exact fun hp => legalModes_of rfl rfl rfl rfl hp | exact fun he => boundedErrors_of rfl rfl he
    | apply kept_legal)

theorem keptO_execTclkReturn {z s : State} (h : Kept z s) : KeptO z (execTclkReturn s) := by
  unfold execTclkReturn
  try dsimp only
  repeat' (first
    | with_reducible assumption | refine keptO_next ?_ | with_reducible apply kept_beginEnd
    | simp only [kept_upd] | split | with_reducible refine kept_foldl _ (fun _ _ _ => ?_) _ _ ?_
    | exact Nat.le_refl _ | exact fun hp => legalModes_of rfl rfl rfl rfl hp
    | exact fun he => boundedErrors_of rfl rfl he | apply kept_legal)

theorem kept_setTmax {z s : State} (t : Int) (h : Kept z s) : Kept z (setTmax s t) := by
  unfold setTmax
  try dsimp only
  repeat' (first
    | with_reducible assumption | simp only [kept_upd] | split
    | with_reducible refine kept_foldl _ (fun _ _ _ => ?_) _ _ ?_ | exact Nat.le_refl _
    | exact fun hp => legalModes_of rfl rfl rfl rfl hp | exact fun he => boundedErrors_of rfl rfl he
    | apply kept_legal)

theorem kept_setTherm {z s : State} (code : Nat) (hc : legalModes s.power = true → code ≤ 4) (h : Kept z s) :
    Kept z (setTherm s code) := by
  unfold setTherm
  dsimp only
  have hs : Kept z { s with power := { s.power with divTherm := code, thermAt := s.pll } } :=
    kept_legal (Nat.le_refl _) (fun hp => by
      have := hc hp
      simp only [legalModes, Bool.and_eq_true, decide_eq_true_eq] at hp ⊢
      exact ⟨⟨⟨hp.1.1.1, this⟩, hp.1.2⟩, hp.2⟩) id h
  split
  · exact kept_raiseVector _ (kept_record _ hs)
  · split
    · exact kept_raiseVector _ (kept_record _ hs)
    · exact hs

theorem keptO_execThermalThrottleStep {z s0 : State} (tmax : Int) (h : Kept z s0) :
    KeptO z (execThermalThrottleStep tmax s0) := by
  have hs := kept_setTmax tmax h
  have hl : legalModes (setTmax s0 tmax).power = true → (setTmax s0 tmax).power.divTherm ≤ 4 := fun hp => by
    simp only [legalModes, Bool.and_eq_true, decide_eq_true_eq] at hp
    exact hp.1.1.2
  unfold execThermalThrottleStep
  dsimp only
  split
  · refine keptO_next ?_
    split
    · next hc => exact kept_setTherm _ (fun _ => hc.1) hs
    · exact hs
  · split
    · refine keptO_next ?_
      split
      · exact kept_setTherm _ (fun hp => Nat.le_trans (Nat.sub_le _ _) (hl hp)) hs
      · exact hs
    · exact keptO_next hs

theorem keptO_execThermalCritical {z s0 : State} (tmax : Int) (sensor : Byte) (h : Kept z s0) : KeptO z
    (execThermalCritical tmax sensor s0) := by
  unfold execThermalCritical
  try dsimp only
  repeat' (first
    | with_reducible assumption | refine keptO_next ?_ | with_reducible apply kept_setTmax
    | with_reducible apply kept_stopAll | with_reducible apply kept_raiseVector
    | with_reducible apply kept_record | simp only [kept_upd] | split
    | with_reducible refine kept_foldl _ (fun _ _ _ => ?_) _ _ ?_ | exact Nat.le_refl _
    | exact fun hp => legalModes_of rfl rfl rfl rfl hp | exact fun he => boundedErrors_of rfl rfl he
    | apply kept_legal)

theorem keptO_execThermalCritClear {z s0 : State} (tmax : Int) (h : Kept z s0) : KeptO z (execThermalCritClear tmax
    s0) := by
  unfold execThermalCritClear
  try dsimp only
  repeat' (first
    | with_reducible assumption | refine keptO_next ?_ | with_reducible apply kept_setTmax
    | simp only [kept_upd] | split | with_reducible refine kept_foldl _ (fun _ _ _ => ?_) _ _ ?_
    | exact Nat.le_refl _ | exact fun hp => legalModes_of rfl rfl rfl rfl hp
    | exact fun he => boundedErrors_of rfl rfl he | apply kept_legal)

theorem kept_cleared {z s : State} (h : Kept z s) : Kept z (cleared s) := by
  refine h.trans ⟨rfl, fusedSame_of rfl, Nat.le_refl _, Nat.le_refl _, fun _ => rfl, fun _ => ?_, fun _ => rfl⟩
  rfl

theorem kept_switchOff {z s : State} (trip await : Bool) (h : Kept z s) : Kept z (switchOff s trip await) := by
  unfold switchOff
  try dsimp only
  repeat' (first
    | with_reducible assumption | with_reducible apply kept_cleared | simp only [kept_upd] | split
    | with_reducible refine kept_foldl _ (fun _ _ _ => ?_) _ _ ?_ | exact Nat.le_refl _
    | exact fun hp => legalModes_of rfl rfl rfl rfl hp | exact fun he => boundedErrors_of rfl rfl he
    | apply kept_legal)

theorem kept_powerOn {z s : State} (h : Kept z s) : Kept z (powerOn s) := by
  unfold powerOn
  try dsimp only
  repeat' (first
    | with_reducible assumption | with_reducible apply kept_cleared | simp only [kept_upd] | split
    | with_reducible refine kept_foldl _ (fun _ _ _ => ?_) _ _ ?_ | exact Nat.le_refl _
    | exact fun hp => legalModes_of rfl rfl rfl rfl hp | exact fun he => boundedErrors_of rfl rfl he
    | apply kept_legal)

theorem keptO_execThermalShutdown {z s : State} (tmax : Int) (h : Kept z s) : KeptO z (execThermalShutdown tmax s)
    := by
  unfold execThermalShutdown
  try dsimp only
  repeat' (first
    | with_reducible assumption | refine keptO_next ?_ | with_reducible apply kept_switchOff
    | simp only [kept_upd] | split)

theorem keptO_execInputUndervoltageOff {z s : State} (input : Nat) (h : Kept z s) : KeptO z
    (execInputUndervoltageOff input s) := by
  unfold execInputUndervoltageOff
  try dsimp only
  repeat' (first
    | with_reducible assumption | refine keptO_next ?_ | with_reducible apply kept_switchOff
    | simp only [kept_upd] | split | with_reducible refine kept_foldl _ (fun _ _ _ => ?_) _ _ ?_
    | exact Nat.le_refl _ | exact fun hp => legalModes_of rfl rfl rfl rfl hp
    | exact fun he => boundedErrors_of rfl rfl he | apply kept_legal)

theorem keptO_execInputOvervoltageOff {z s : State} (average : Nat) (h : Kept z s) : KeptO z
    (execInputOvervoltageOff average s) := by
  unfold execInputOvervoltageOff
  try dsimp only
  repeat' (first
    | with_reducible assumption | refine keptO_next ?_ | with_reducible apply kept_switchOff
    | simp only [kept_upd] | split)

theorem keptO_execRailFault {z s : State} (h : Kept z s) : KeptO z (execRailFault s) := by
  unfold execRailFault
  try dsimp only
  repeat' (first
    | with_reducible assumption | refine keptO_next ?_ | with_reducible apply kept_switchOff
    | simp only [kept_upd] | split)

theorem keptO_execInputReturn {z s : State} (input : Nat) (h : Kept z s) : KeptO z (execInputReturn input s) := by
  unfold execInputReturn
  try dsimp only
  repeat' (first
    | with_reducible assumption | refine keptO_next ?_ | with_reducible apply kept_powerOn
    | simp only [kept_upd] | split)

theorem keptO_execPowerUp {z s : State} (input : Nat) (h : Kept z s) : KeptO z (execPowerUp input s) := by
  unfold execPowerUp
  try dsimp only
  repeat' (first
    | with_reducible assumption | refine keptO_next ?_ | with_reducible apply kept_powerOn
    | simp only [kept_upd] | split | with_reducible refine kept_foldl _ (fun _ _ _ => ?_) _ _ ?_
    | exact Nat.le_refl _ | exact fun hp => legalModes_of rfl rfl rfl rfl hp
    | exact fun he => boundedErrors_of rfl rfl he | apply kept_legal)

theorem kept_railsOff {z s : State} (h : Kept z s) : Kept z (railsOff s) := by
  unfold railsOff
  try dsimp only
  repeat' (first
    | with_reducible assumption | with_reducible apply kept_switchOff | simp only [kept_upd] | split
    | with_reducible refine kept_foldl _ (fun _ _ _ => ?_) _ _ ?_ | exact Nat.le_refl _
    | exact fun hp => legalModes_of rfl rfl rfl rfl hp | exact fun he => boundedErrors_of rfl rfl he
    | apply kept_legal)

theorem keptO_execPowerDown {z s : State} (h : Kept z s) : KeptO z (execPowerDown s) := by
  unfold execPowerDown
  try dsimp only
  repeat' (first
    | with_reducible assumption | refine keptO_next ?_ | with_reducible apply kept_enterS5
    | with_reducible apply kept_railsOff | simp only [kept_upd] | split
    | with_reducible refine kept_foldl _ (fun _ _ _ => ?_) _ _ ?_ | exact Nat.le_refl _
    | exact fun hp => legalModes_of rfl rfl rfl rfl hp | exact fun he => boundedErrors_of rfl rfl he
    | apply kept_legal)

theorem keptO_execLeakDetect {z s : State} (wet : Bool) (h : Kept z s) : KeptO z (execLeakDetect wet s) := by
  unfold execLeakDetect
  try dsimp only
  repeat' (first
    | with_reducible assumption | refine keptO_next ?_ | simp only [kept_upd] | split
    | with_reducible refine kept_foldl _ (fun _ _ _ => ?_) _ _ ?_ | exact Nat.le_refl _
    | exact fun hp => legalModes_of rfl rfl rfl rfl hp | exact fun he => boundedErrors_of rfl rfl he
    | apply kept_legal)

end Sys2Proof.Machine
end

