-- ==== Sys2Proof/Laws/KeptResets.lean ====
section
/-! SUPPORT. What the operations of Machine/Resets.lean keep: `Kept` of each, from that of the operations it uses. -/

namespace Sys2Proof.Machine

theorem kept_endTests {z s : State} (p : Part) (h : Kept z s) : Kept z (endTests s p) := by
  unfold endTests
  try dsimp only
  repeat' (first
    | with_reducible assumption | with_reducible apply kept_modPart
    | with_reducible apply kept_returnToLeft | simp only [kept_upd] | split
    | with_reducible refine kept_foldl _ (fun _ _ _ => ?_) _ _ ?_)

theorem kept_beginReset {z s : State} (p : Part) (q : ResetSeq) (h : Kept z s) : Kept z (beginReset s p q) := by
  unfold beginReset
  try dsimp only
  repeat' (first
    | with_reducible assumption | with_reducible apply kept_dropHeldSignals
    | with_reducible apply kept_abandonPart | with_reducible apply kept_endTests
    | with_reducible apply kept_modCore | with_reducible apply kept_modPartQuads
    | with_reducible apply kept_modPart | with_reducible apply kept_discardHeld
    | with_reducible apply kept_completeBusy | simp only [kept_upd] | split
    | with_reducible refine kept_foldl _ (fun _ _ _ => ?_) _ _ ?_)

theorem kept_coverPart {z s : State} (q : ResetSeq) (p : Part) (h : Kept z s) : Kept z (coverPart q s p) := by
  unfold coverPart
  try dsimp only
  repeat' (first
    | with_reducible assumption | with_reducible apply kept_modPart | with_reducible apply kept_beginReset
    | simp only [kept_upd] | split)

theorem kept_quadReset {z s : State} (p : Part) (h : Kept z s) : Kept z (quadReset s p) := by
  unfold quadReset
  try dsimp only
  repeat' (first
    | with_reducible assumption | with_reducible apply kept_modPartQuads | simp only [kept_upd])

theorem kept_meshReset {z s : State} (h : Kept z s) : Kept z (meshReset s) := by
  unfold meshReset
  try dsimp only
  repeat' (first
    | with_reducible assumption | simp only [kept_upd])

theorem kept_enterLevel {z s : State} (p : Part) (q : ResetSeq) (h : Kept z s) : Kept z (enterLevel s p q) := by
  unfold enterLevel
  try dsimp only
  repeat' (first
    | with_reducible assumption | with_reducible apply kept_meshReset | with_reducible apply kept_quadReset
    | with_reducible apply kept_coverPart | simp only [kept_upd] | split
    | with_reducible refine kept_foldl _ (fun _ _ _ => ?_) _ _ ?_)

theorem kept_requestReset {z s : State} (p : Part) (level source : Nat) (h : Kept z s) : Kept z (requestReset s p
    level source) := by
  unfold requestReset
  try dsimp only
  repeat' (first
    | with_reducible assumption | with_reducible apply kept_coverPart
    | with_reducible apply kept_enterLevel | simp only [kept_upd] | split
    | with_reducible refine kept_foldl _ (fun _ _ _ => ?_) _ _ ?_)

theorem keptO_execReset {z s : State} (r : Fin 8) (e : CmdEntry) (h : Kept z s) : KeptO z (execReset r e s) := by
  unfold execReset
  try dsimp only
  repeat' (first
    | with_reducible assumption | with_reducible apply keptO_ringCommand
    | with_reducible apply kept_keepBusy | with_reducible apply kept_requestReset | simp only [kept_upd]
    | split | intro _)

theorem kept_withdraw {z s : State} (times : List Nat) (h : Kept z s) : Kept z (withdraw s times) := by
  unfold withdraw
  try dsimp only
  repeat' (first
    | with_reducible assumption | with_reducible apply kept_stopAll | with_reducible apply kept_raiseVector
    | with_reducible apply kept_record | simp only [kept_upd])

theorem kept_requestL5 {z s : State} (h : Kept z s) : Kept z (requestL5 s) := by
  unfold requestL5
  try dsimp only
  repeat' (first
    | with_reducible assumption | simp only [kept_upd] | split
    | with_reducible refine kept_foldl _ (fun _ _ _ => ?_) _ _ ?_ | exact Nat.le_refl _
    | exact fun hp => legalModes_of rfl rfl rfl rfl hp | exact fun he => boundedErrors_of rfl rfl he
    | apply kept_legal)

theorem kept_passLimit {z s : State} (p : Part) (x : ResetSeq) (h : Kept z s) : Kept z (passLimit s p x) := by
  unfold passLimit
  try dsimp only
  repeat' (first
    | with_reducible assumption | with_reducible apply kept_requestReset
    | with_reducible apply kept_withdraw | with_reducible apply kept_requestL5
    | with_reducible apply kept_record | simp only [kept_upd] | with_reducible apply kept_ite
    | with_reducible refine kept_foldl _ (fun _ _ _ => ?_) _ _ ?_ | with_reducible exact id
    | exact Nat.le_refl _ | exact fun hp => legalModes_of rfl rfl rfl rfl hp
    | exact fun he => boundedErrors_of rfl rfl he | split | intro _ | dsimp only | assumption | omega
    | (intro he; simp only [legalModes, boundedErrors] at he ⊢; with_reducible exact he)
    | (simp only [legalModes, boundedErrors, Bool.and_eq_true, decide_eq_true_eq] at *; omega)
    | apply kept_legal)

theorem keptO_execResetLevelTimeout {z s : State} (q : Fin 8) (h : Kept z s) : KeptO z (execResetLevelTimeout q s)
    := by
  unfold execResetLevelTimeout
  try dsimp only
  repeat' (first
    | with_reducible assumption | refine keptO_next ?_ | with_reducible apply kept_passLimit
    | simp only [kept_upd] | split)

theorem kept_finishPart {z s : State} (p : Part) (h : Kept z s) : Kept z (finishPart s p) := by
  unfold finishPart
  try dsimp only
  repeat' (first
    | with_reducible assumption | with_reducible apply kept_modPartQuads
    | with_reducible apply kept_clearPart | with_reducible apply kept_modPart | simp only [kept_upd])

theorem kept_noteHistory {z s : State} (q : ResetSeq) (h : Kept z s) : Kept z (noteHistory s q) := by
  unfold noteHistory
  try dsimp only
  repeat' (first
    | with_reducible assumption | with_reducible apply kept_withdraw | simp only [kept_upd] | split)

theorem kept_reportReset {z s : State} (p : Part) (q : ResetSeq) (h : Kept z s) : Kept z (reportReset s p q) := by
  unfold reportReset
  try dsimp only
  repeat' (first
    | with_reducible assumption | with_reducible apply kept_record | with_reducible apply kept_noteHistory
    | simp only [kept_upd] | split)

theorem keptO_execResetSequenceComplete {z s : State} (q : Fin 8) (h : Kept z s) : KeptO z
    (execResetSequenceComplete q s) := by
  unfold execResetSequenceComplete
  try dsimp only
  repeat' (first
    | with_reducible assumption | refine keptO_next ?_ | with_reducible apply kept_passLimit
    | with_reducible apply kept_reportReset | with_reducible apply kept_finishPart
    | with_reducible apply kept_completeBusy | simp only [kept_upd] | split
    | with_reducible refine kept_foldl _ (fun _ _ _ => ?_) _ _ ?_)

theorem keptO_execHangDetect {z s : State} (q : Fin 8) (h : Kept z s) : KeptO z (execHangDetect q s) := by
  unfold execHangDetect
  try dsimp only
  repeat' (first
    | with_reducible assumption | refine keptO_next ?_ | with_reducible apply kept_noteW1c
    | with_reducible apply kept_modPartQuads | with_reducible apply kept_modPart
    | with_reducible apply kept_record | with_reducible apply kept_partVector | simp only [kept_upd]
    | split | with_reducible refine kept_foldl _ (fun _ _ _ => ?_) _ _ ?_)

theorem keptO_execHangAutoReset {z s : State} (q : Fin 8) (h : Kept z s) : KeptO z (execHangAutoReset q s) := by
  unfold execHangAutoReset
  try dsimp only
  repeat' (first
    | with_reducible assumption | refine keptO_next ?_ | with_reducible apply kept_requestReset
    | simp only [kept_upd] | split)

theorem keptO_execResetHistoryExpiry {z s : State} (h : Kept z s) : KeptO z (execResetHistoryExpiry s) := by
  unfold execResetHistoryExpiry
  try dsimp only
  repeat' (first
    | with_reducible assumption | refine keptO_next ?_ | simp only [kept_upd])

theorem keptO_execIntermittentWindowExpiry {z s : State} (core : Fin 192) (h : Kept z s) : KeptO z
    (execIntermittentWindowExpiry core s) := by
  unfold execIntermittentWindowExpiry
  try dsimp only
  repeat' (first
    | with_reducible assumption | refine keptO_next ?_ | with_reducible apply kept_modCore
    | simp only [kept_upd])

theorem kept_admitWrite {z s : State} (h : Kept z s) : Kept z (admitWrite s) := by
  unfold admitWrite
  try dsimp only
  repeat' (first
    | with_reducible assumption | with_reducible apply kept_record | simp only [kept_upd] | split)

theorem keptO_execAdmit {z s : State} (h : Kept z s) : KeptO z (execAdmit s) := by
  unfold execAdmit
  try dsimp only
  repeat' (first
    | with_reducible assumption | refine keptO_next ?_ | with_reducible apply kept_admitWrite
    | simp only [kept_upd])

end Sys2Proof.Machine
end

