-- ==== Sys2Proof/Laws/KeptSelfTest.lean ====
section
/-! SUPPORT. What the operations of Machine/SelfTest.lean keep: `Kept` of each, from that of the operations it uses. -/

namespace Sys2Proof.Machine

theorem kept_settleTests {z s : State} (h : Kept z s) : Kept z (settleTests s) := by
  unfold settleTests
  try dsimp only
  repeat' (first
    | with_reducible assumption | with_reducible apply kept_noteW1c | with_reducible apply kept_raiseVector
    | with_reducible apply kept_record | simp only [kept_upd] | split)

theorem kept_selftestWrite {z s : State} (value : Word) (h : Kept z s) : Kept z (selftestWrite s value) := by
  unfold selftestWrite
  try dsimp only
  repeat' (first
    | with_reducible assumption | with_reducible apply kept_settleTests | simp only [kept_upd] | split)

theorem keptO_execSelftestGo {z s : State} (value : Word) (h : Kept z s) : KeptO z (execSelftestGo value s) := by
  unfold execSelftestGo
  try dsimp only
  repeat' (first
    | with_reducible assumption | refine keptO_next ?_ | with_reducible apply kept_selftestWrite
    | simp only [kept_upd])

theorem kept_beginTest {z s : State} (n : Nat) (h : Kept z s) : Kept z (beginTest s n) := by
  unfold beginTest
  try dsimp only
  repeat' (first
    | with_reducible assumption | simp only [kept_upd])

theorem kept_startWindow {z s : State} (p : Part) (h : Kept z s) : Kept z (startWindow s p) := by
  unfold startWindow
  try dsimp only
  repeat' (first
    | with_reducible assumption | with_reducible apply kept_leaveIdle | with_reducible apply kept_modPart
    | with_reducible apply kept_beginTest | simp only [kept_upd] | split
    | with_reducible refine kept_foldl _ (fun _ _ _ => ?_) _ _ ?_)

theorem kept_startIntrusive {z s : State} (p : Part) (n : Nat) (h : Kept z s) : Kept z (startIntrusive s p n) := by
  unfold startIntrusive
  try dsimp only
  repeat' (first
    | with_reducible assumption | with_reducible apply kept_modQuad | with_reducible apply kept_beginTest
    | simp only [kept_upd] | split)

theorem keptO_execSelftestCoreStart {z s : State} (core : Fin 192) (h : Kept z s) : KeptO z (execSelftestCoreStart
    core s) := by
  unfold execSelftestCoreStart
  try dsimp only
  repeat' (first
    | with_reducible assumption | refine keptO_next ?_ | with_reducible apply kept_startWindow
    | with_reducible apply kept_startIntrusive | simp only [kept_upd] | split)

theorem kept_failTest {z s : State} (n : Nat) (h : Kept z s) : Kept z (failTest s n) := by
  unfold failTest
  try dsimp only
  repeat' (first
    | with_reducible assumption | with_reducible apply kept_record | with_reducible apply kept_modCore
    | with_reducible apply kept_modQuad | with_reducible apply kept_noteW1c
    | with_reducible apply kept_fenceFor | simp only [kept_upd] | split)

theorem keptO_execSelftestCoreDone {z s : State} (core : Fin 192) (pass : Bool) (h : Kept z s) : KeptO z
    (execSelftestCoreDone core pass s) := by
  unfold execSelftestCoreDone
  try dsimp only
  repeat' (first
    | with_reducible assumption | refine keptO_next ?_ | with_reducible apply kept_modPart
    | with_reducible apply kept_modCore | with_reducible apply kept_settleTests
    | with_reducible apply kept_failTest | simp only [kept_upd] | split)

theorem kept_calWrite {z s : State} (value : Word) (h : Kept z s) : Kept z (calWrite s value) := by
  unfold calWrite
  try dsimp only
  repeat' (first
    | with_reducible assumption | simp only [kept_upd] | split)

theorem keptO_execCalGo {z s : State} (value : Word) (h : Kept z s) : KeptO z (execCalGo value s) := by
  unfold execCalGo
  try dsimp only
  repeat' (first
    | with_reducible assumption | refine keptO_next ?_ | with_reducible apply kept_calWrite
    | simp only [kept_upd])

theorem kept_sweepOn {z s : State} (h : Kept z s) : Kept z (sweepOn s) := by
  unfold sweepOn
  try dsimp only
  repeat' (first
    | with_reducible assumption | with_reducible apply kept_modChan | simp only [kept_upd]
    | with_reducible apply kept_ite | with_reducible refine kept_foldl _ (fun _ _ _ => ?_) _ _ ?_
    | with_reducible exact id | exact Nat.le_refl _ | exact fun hp => legalModes_of rfl rfl rfl rfl hp
    | exact fun he => boundedErrors_of rfl rfl he | split | intro _ | dsimp only | assumption | omega
    | (intro he; simp only [legalModes, boundedErrors] at he ⊢; with_reducible exact he)
    | (simp only [legalModes, boundedErrors, Bool.and_eq_true, decide_eq_true_eq] at *; omega)
    | apply kept_legal)

theorem keptO_execCalComplete {z s : State} (h : Kept z s) : KeptO z (execCalComplete s) := by
  unfold execCalComplete
  try dsimp only
  repeat' (first
    | with_reducible assumption | refine keptO_next ?_ | with_reducible apply kept_raiseVector
    | with_reducible apply kept_record | simp only [kept_upd] | split)

end Sys2Proof.Machine
end

