-- ==== Sys2Proof/Laws/KeptRegMap.lean ====
section
/-! SUPPORT. What the operations of Machine/RegMap.lean keep: `Kept` of each, from that of the operations it uses. -/

namespace Sys2Proof.Machine

theorem kept_fabricWrite {z s : State} (value : Word) (h : Kept z s) : Kept z (fabricWrite s value) := by
  unfold fabricWrite
  try dsimp only
  repeat' (first
    | with_reducible assumption | with_reducible apply kept_darken | with_reducible apply kept_dropBeyond
    | simp only [kept_upd] | split | with_reducible refine kept_foldl _ (fun _ _ _ => ?_) _ _ ?_)

theorem keptO_execPortFabricWrite {z s : State} (value : Word) (h : Kept z s) : KeptO z (execPortFabricWrite value
    s) := by
  unfold execPortFabricWrite
  try dsimp only
  repeat' (first
    | with_reducible assumption | refine keptO_next ?_ | with_reducible apply kept_fabricWrite
    | simp only [kept_upd])

theorem kept_modWide {z s : State} (q : Nat) (g : Quad → Quad) (h : Kept z s) : Kept z (modWide s q g) := by
  unfold modWide
  try dsimp only
  repeat' (first
    | with_reducible assumption | with_reducible apply kept_modPartQuads | simp only [kept_upd] | split)

theorem kept_genWrite {z s : State} (q : Nat) (value : Dword) (h : Kept z s) : Kept z (genWrite s q value) := by
  unfold genWrite
  split
  · exact h
  · split
    · exact kept_modPartQuads _ _ h
    · exact kept_modPartQuads _ _ h

theorem keptO_execQuadMaskGenWrite {z s : State} (q : Fin 8) (value : Dword) (h : Kept z s) : KeptO z
    (execQuadMaskGenWrite q value s) := by
  unfold execQuadMaskGenWrite
  try dsimp only
  repeat' (first
    | with_reducible assumption | refine keptO_next ?_ | with_reducible apply kept_genWrite
    | simp only [kept_upd])

theorem kept_modeWrite {z s : State} (q : Nat) (value : Word) (h : Kept z s) : Kept z (modeWrite s q value) := by
  unfold modeWrite
  try dsimp only
  repeat' (first
    | with_reducible assumption | with_reducible apply kept_modPartQuads | simp only [kept_upd] | split)

theorem keptO_execQuadCtxModeWrite {z s : State} (q : Fin 8) (value : Word) (h : Kept z s) : KeptO z
    (execQuadCtxModeWrite q value s) := by
  unfold execQuadCtxModeWrite
  try dsimp only
  repeat' (first
    | with_reducible assumption | refine keptO_next ?_ | with_reducible apply kept_modeWrite
    | simp only [kept_upd])

theorem kept_unfence {z s : State} (n : Nat) (h : Kept z s) : Kept z (unfence s n) := by
  unfold unfence
  try dsimp only
  repeat' (first
    | with_reducible assumption | with_reducible apply kept_modCore | simp only [kept_upd] | split)

theorem kept_fenceClear {z s : State} (i : Nat) (value : Dword) (h : Kept z s) : Kept z (fenceClear s i value) := by
  unfold fenceClear
  try dsimp only
  repeat' (first
    | with_reducible assumption | with_reducible apply kept_unfence | simp only [kept_upd] | split
    | with_reducible refine kept_foldl _ (fun _ _ _ => ?_) _ _ ?_)

theorem keptO_execCellarCoreFenceClear {z s : State} (i : Fin 3) (value : Dword) (h : Kept z s) : KeptO z
    (execCellarCoreFenceClear i value s) := by
  unfold execCellarCoreFenceClear
  try dsimp only
  repeat' (first
    | with_reducible assumption | refine keptO_next ?_ | with_reducible apply kept_fenceClear
    | simp only [kept_upd])

theorem kept_fenceSet {z s : State} (i : Nat) (value : Dword) (h : Kept z s) : Kept z (fenceSet s i value) := by
  unfold fenceSet
  try dsimp only
  repeat' (first
    | with_reducible assumption | with_reducible apply kept_fenceCore | simp only [kept_upd] | split
    | with_reducible refine kept_foldl _ (fun _ _ _ => ?_) _ _ ?_)

theorem keptO_execCellarCoreFenceSet {z s : State} (i : Fin 3) (value : Dword) (h : Kept z s) : KeptO z
    (execCellarCoreFenceSet i value s) := by
  unfold execCellarCoreFenceSet
  try dsimp only
  repeat' (first
    | with_reducible assumption | refine keptO_next ?_ | with_reducible apply kept_fenceSet
    | simp only [kept_upd])

theorem kept_tailErrWrite {z s : State} (value : Dword) (h : Kept z s) : Kept z (tailErrWrite s value) :=
  kept_errTail _ h

theorem keptO_execCellarErrTailWrite {z s : State} (value : Dword) (h : Kept z s) : KeptO z (execCellarErrTailWrite
    value s) := by
  unfold execCellarErrTailWrite
  try dsimp only
  repeat' (first
    | with_reducible assumption | refine keptO_next ?_ | with_reducible apply kept_tailErrWrite
    | simp only [kept_upd])

theorem kept_selWrite {z s : State} (i : Nat) (value : Dword) (h : Kept z s) : Kept z (selWrite s i value) := by
  unfold selWrite
  try dsimp only
  repeat' (first
    | with_reducible assumption | simp only [kept_upd] | split)

theorem kept_modSelv {z s : State} (g : HostSelv → HostSelv) (h : Kept z s) : Kept z (modSelv s g) := by
  unfold modSelv
  try dsimp only
  repeat' (first
    | with_reducible assumption | simp only [kept_upd])

theorem kept_selvCtrlWrite {z s : State} (v : Word) (h : Kept z s) : Kept z (selvCtrlWrite s v) := by
  unfold selvCtrlWrite
  try dsimp only
  repeat' (first
    | with_reducible assumption | with_reducible apply kept_modSelv | with_reducible apply kept_selvGo
    | simp only [kept_upd] | split)

theorem kept_cellarWrite32 {z s : State} (o : Nat) (v : Word) (h : Kept z s) : Kept z (cellarWrite32 s o v) := by
  unfold cellarWrite32
  generalize clampTo = g
  try dsimp only
  repeat' (first
    | with_reducible assumption | with_reducible apply kept_ctrlWrite | with_reducible apply kept_tailWrite
    | with_reducible apply kept_cplHeadWrite | with_reducible apply kept_segWrite
    | with_reducible apply kept_commitSvn | with_reducible apply kept_admitWrite
    | with_reducible apply kept_modSelv | with_reducible apply kept_selvCtrlWrite
    | with_reducible apply kept_selftestWrite | with_reducible apply kept_calWrite | simp only [kept_upd]
    | split)

theorem kept_setErrBase {z s : State} (b : Dword) (h : Kept z s) : Kept z (setErrBase s b) := by
  unfold setErrBase
  try dsimp only
  repeat' (first
    | with_reducible assumption | simp only [kept_upd] | split
    | with_reducible refine kept_foldl _ (fun _ _ _ => ?_) _ _ ?_ | exact Nat.le_refl _
    | exact fun hp => legalModes_of rfl rfl rfl rfl hp | exact fun he => boundedErrors_of rfl rfl he
    | apply kept_legal)

theorem kept_cellarWrite64 {z s : State} (o : Nat) (v acts : Dword) (h : Kept z s) : Kept z (cellarWrite64 s o v
    acts) := by
  unfold cellarWrite64
  generalize clampMult = f
  generalize clampTo = g
  try dsimp only
  repeat' (first
    | with_reducible assumption | with_reducible apply kept_modRing | with_reducible apply kept_fenceClear
    | with_reducible apply kept_fenceSet | with_reducible apply kept_selWrite
    | with_reducible apply kept_setErrBase | with_reducible apply kept_tailErrWrite
    | with_reducible apply kept_modSelv | simp only [kept_upd] | split)

theorem kept_modPower {z s : State} (g : Power → Power) (hg : ∀ p, legalModes p = true → legalModes (g p) = true)
 (h : Kept z s) : Kept z (modPower s g) := kept_legal (Nat.le_refl _) (hg _) id h

theorem kept_pwrWrite32 {z s : State} (o : Nat) (v : Word) (h : Kept z s) : Kept z (pwrWrite32 s o v) := by
  unfold pwrWrite32
  generalize clampTo = g
  try dsimp only
  repeat' (first
    | with_reducible assumption | with_reducible apply kept_poolCapWrite
    | with_reducible apply kept_horizonWrite | with_reducible apply kept_divWrite
    | with_reducible apply kept_modPower | simp only [kept_upd] | with_reducible apply kept_ite
    | with_reducible refine kept_foldl _ (fun _ _ _ => ?_) _ _ ?_ | with_reducible exact id
    | exact Nat.le_refl _ | exact fun hp => legalModes_of rfl rfl rfl rfl hp
    | exact fun he => boundedErrors_of rfl rfl he | split | intro _ | dsimp only | assumption | omega
    | (intro he; simp only [legalModes, boundedErrors] at he ⊢; with_reducible exact he)
    | (simp only [legalModes, boundedErrors, Bool.and_eq_true, decide_eq_true_eq] at *; omega)
    | apply kept_legal)

theorem kept_setSaveBase {z s : State} (b : Dword) (h : Kept z s) : Kept z (setSaveBase s b) := by
  unfold setSaveBase
  try dsimp only
  repeat' (first
    | with_reducible assumption | simp only [kept_upd] | split
    | with_reducible refine kept_foldl _ (fun _ _ _ => ?_) _ _ ?_ | exact Nat.le_refl _
    | exact fun hp => legalModes_of rfl rfl rfl rfl hp | exact fun he => boundedErrors_of rfl rfl he
    | apply kept_legal)

theorem kept_pwrWrite64 {z s : State} (o : Nat) (v : Dword) (h : Kept z s) : Kept z (pwrWrite64 s o v) := by
  unfold pwrWrite64
  generalize clampMult = f
  try dsimp only
  repeat' (first
    | with_reducible assumption | with_reducible apply kept_setSaveBase | simp only [kept_upd] | split)

theorem kept_portDevWrite {z s : State} (o : Nat) (v : Word) (h : Kept z s) : Kept z (portDevWrite s o v) := by
  unfold portDevWrite
  generalize clampTo = g
  try dsimp only
  repeat' (first
    | with_reducible assumption | with_reducible apply kept_fabricWrite | simp only [kept_upd] | split)

theorem kept_caskWrite {z s : State} (k o : Nat) (v : Word) (h : Kept z s) : Kept z (caskWrite s k o v) := by
  unfold caskWrite
  try dsimp only
  repeat' (first
    | with_reducible assumption | with_reducible apply kept_modCask | simp only [kept_upd] | split)

theorem kept_quadWrite32 {z s : State} (q o : Nat) (v : Word) (h : Kept z s) : Kept z (quadWrite32 s q o v) := by
  unfold quadWrite32
  try dsimp only
  repeat' (first
    | with_reducible assumption | with_reducible apply kept_modeWrite | with_reducible apply kept_modWide
    | simp only [kept_upd] | split)

theorem kept_quadWrite64 {z s : State} (q o : Nat) (v : Dword) (low : Bool) (h : Kept z s) : Kept z (quadWrite64 s q
    o v low) := by
  unfold quadWrite64
  generalize clampMult = f
  try dsimp only
  repeat' (first
    | with_reducible assumption | with_reducible apply kept_genWrite | with_reducible apply kept_modWide
    | simp only [kept_upd] | split)

theorem kept_satWrite {z s : State} (n i : Nat) (h : Kept z s) : Kept z (satWrite s n i) := by
  unfold satWrite
  try dsimp only
  repeat' (first
    | with_reducible assumption | with_reducible apply kept_noteSat | with_reducible apply kept_modCore
    | simp only [kept_upd] | with_reducible apply kept_ite
    | with_reducible refine kept_foldl _ (fun _ _ _ => ?_) _ _ ?_ | with_reducible exact id
    | exact Nat.le_refl _ | exact fun hp => legalModes_of rfl rfl rfl rfl hp
    | exact fun he => boundedErrors_of rfl rfl he | split | intro _ | dsimp only | assumption | omega
    | (intro he; simp only [legalModes, boundedErrors] at he ⊢; with_reducible exact he)
    | (simp only [legalModes, boundedErrors, Bool.and_eq_true, decide_eq_true_eq] at *; omega)
    | apply kept_legal)

theorem kept_coreWrite32 {z s0 : State} (n o : Nat) (value : Word) (h : Kept z s0) : Kept z (coreWrite32 s0 n o
    value) := by
  unfold coreWrite32
  generalize clampTo = g
  try dsimp only
  repeat' (first
    | with_reducible assumption | with_reducible apply kept_landAll | with_reducible apply kept_satWrite
    | with_reducible apply kept_modCore | simp only [kept_upd] | split)

theorem kept_coreWrite64 {z s : State} (n o : Nat) (acts : Dword) (h : Kept z s) : Kept z (coreWrite64 s n o acts)
    := by
  unfold coreWrite64
  try dsimp only
  repeat' (first
    | with_reducible assumption | with_reducible apply kept_modCore | simp only [kept_upd] | split)

theorem kept_regWrite32 {z s : State} (a : Nat) (v : Word) (h : Kept z s) : Kept z (regWrite32 s a v) := by
  unfold regWrite32
  try dsimp only
  repeat' (first
    | with_reducible assumption | with_reducible apply kept_cellarWrite32
    | with_reducible apply kept_pwrWrite32 | with_reducible apply kept_portDevWrite
    | with_reducible apply kept_caskWrite | with_reducible apply kept_quadWrite32
    | with_reducible apply kept_coreWrite32 | simp only [kept_upd] | split)

theorem kept_regWrite64 {z s : State} (a : Nat) (v acts : Dword) (low : Bool) (h : Kept z s) : Kept z (regWrite64 s
    a v acts low) := by
  unfold regWrite64
  try dsimp only
  repeat' (first
    | with_reducible assumption | with_reducible apply kept_cellarWrite64
    | with_reducible apply kept_pwrWrite64 | with_reducible apply kept_retrainWrite
    | with_reducible apply kept_quadWrite64 | with_reducible apply kept_coreWrite64 | simp only [kept_upd]
    | split)

theorem kept_mmioWrite32 {z s : State} (a : Nat) (v : Word) (h : Kept z s) : Kept z (mmioWrite32 s a v) := by
  unfold mmioWrite32
  try dsimp only
  repeat' (first
    | with_reducible assumption | with_reducible apply kept_regWrite32
    | with_reducible apply kept_regWrite64 | simp only [kept_upd] | split)

theorem kept_mmioWrite {z s : State} (a width : Nat) (v : Dword) (h : Kept z s) : Kept z (mmioWrite s a width v) := by
  unfold mmioWrite
  try dsimp only
  repeat' (first
    | with_reducible assumption | with_reducible apply kept_regWrite64
    | with_reducible apply kept_mmioWrite32 | simp only [kept_upd] | split)

theorem kept_serveMmio {z s : State} (x : MmioAccess) (h : Kept z s) : Kept z (serveMmio s x) := by
  unfold serveMmio
  try dsimp only
  repeat' (first
    | with_reducible assumption | with_reducible apply kept_mmioWrite | with_reducible apply kept_hostReply
    | simp only [kept_upd] | split)

theorem keptO_execRegisterWrite {z s : State} (access : MmioAccess) (h : Kept z s) : KeptO z (execRegisterWrite
    access s) := by
  unfold execRegisterWrite
  try dsimp only
  repeat' (first
    | with_reducible assumption | refine keptO_next ?_ | with_reducible apply kept_serveMmio
    | simp only [kept_upd] | split)

theorem kept_beginExit {z s : State} (p : Part) (h : Kept z s) : Kept z (beginExit s p) := by
  unfold beginExit
  try dsimp only
  repeat' (first
    | with_reducible assumption | with_reducible apply kept_modPartQuads | simp only [kept_upd]
    | with_reducible apply kept_ite | with_reducible refine kept_foldl _ (fun _ _ _ => ?_) _ _ ?_
    | with_reducible exact id | exact Nat.le_refl _ | exact fun hp => legalModes_of rfl rfl rfl rfl hp
    | exact fun he => boundedErrors_of rfl rfl he | split | intro _ | dsimp only | assumption | omega
    | (intro he; simp only [legalModes, boundedErrors] at he ⊢; with_reducible exact he)
    | (simp only [legalModes, boundedErrors, Bool.and_eq_true, decide_eq_true_eq] at *; omega)
    | apply kept_legal)

theorem keptO_execIdleMmioAccess {z s : State} (access : MmioAccess) (h : Kept z s) : KeptO z (execIdleMmioAccess
    access s) := by
  unfold execIdleMmioAccess
  try dsimp only
  repeat' (first
    | with_reducible assumption | refine keptO_next ?_ | with_reducible apply kept_refuseMmio
    | with_reducible apply kept_beginExit | with_reducible apply kept_serveMmio | simp only [kept_upd]
    | split)

end Sys2Proof.Machine
end

