-- ==== Sys2Proof/Laws/KeptRemote.lean ====
section
/-! SUPPORT. What the operations of Machine/Remote.lean keep: `Kept` of each, from that of the operations it uses. -/

namespace Sys2Proof.Machine

theorem kept_answer {z s : State} (rx : Rx) (g : Frame → Frame) (h : Kept z s) : Kept z (answer s rx g) := by
  unfold answer
  try dsimp only
  repeat' (first
    | with_reducible assumption | with_reducible apply kept_sendTo | simp only [kept_upd])

theorem kept_refuse {z s : State} (rx : Rx) (h : Kept z s) : Kept z (refuse rx s) := by
  unfold refuse
  try dsimp only
  repeat' (first
    | with_reducible assumption | with_reducible apply kept_answer | with_reducible apply kept_record
    | simp only [kept_upd])

theorem kept_serveRead {z s : State} (rx : Rx) (ecc : MemEcc) (h : Kept z s) : Kept z (serveRead rx ecc s) := by
  unfold serveRead
  try dsimp only
  repeat' (first
    | with_reducible assumption | with_reducible apply kept_wakeMemory | with_reducible apply kept_eccRead
    | with_reducible apply kept_answer | with_reducible apply kept_refuse | simp only [kept_upd] | split)

theorem kept_poisonAll {z s : State} (t : Tier) (us : List Nat) (h : Kept z s) : Kept z (poisonAll s t us) := by
  unfold poisonAll
  try dsimp only
  repeat' (first
    | with_reducible assumption | with_reducible apply kept_poisonUnit | simp only [kept_upd] | split
    | with_reducible refine kept_foldl _ (fun _ _ _ => ?_) _ _ ?_)

theorem kept_serveWrite {z s : State} (rx : Rx) (h : Kept z s) : Kept z (serveWrite rx s) := by
  unfold serveWrite
  try dsimp only
  repeat' (first
    | with_reducible assumption | with_reducible apply kept_writeMem | with_reducible apply kept_wakeMemory
    | with_reducible apply kept_poisonAll | with_reducible apply kept_answer
    | with_reducible apply kept_refuse | simp only [kept_upd] | split)

theorem kept_serveAdd {z s : State} (rx : Rx) (ecc : MemEcc) (h : Kept z s) : Kept z (serveAdd rx ecc s) := by
  unfold serveAdd
  try dsimp only
  repeat' (first
    | with_reducible assumption | with_reducible apply kept_wakeMemory | with_reducible apply kept_eccRead
    | with_reducible apply kept_writeMem | with_reducible apply kept_poisonAll
    | with_reducible apply kept_answer | with_reducible apply kept_refuse | simp only [kept_upd] | split)

theorem keptO_afterSnoop {z s : State} (rx : Rx) (g : State → State) (hg : ∀ t, Kept z t → Kept z (g t))
 (h : Kept z s) : KeptO z (afterSnoop s rx g) := by
  unfold afterSnoop
  dsimp only
  split
  · exact keptO_withRx _ _ hg h
  · split
    · exact keptO_next h
    · exact keptO_next (kept_snoopLines _ h)

theorem keptO_execReadFrameReceive {z s : State} (rx : Rx) (ecc : MemEcc) (h : Kept z s) : KeptO z
    (execReadFrameReceive rx ecc s) := by
  unfold execReadFrameReceive
  try dsimp only
  repeat' (first
    | with_reducible assumption | refine keptO_next ?_ | with_reducible apply keptO_withRx
    | with_reducible apply kept_serveRead | simp only [kept_upd] | split | intro _)

theorem keptO_execWriteFrameReceive {z s : State} (rx : Rx) (h : Kept z s) : KeptO z (execWriteFrameReceive rx s) :=
    by
  unfold execWriteFrameReceive
  try dsimp only
  repeat' (first
    | with_reducible assumption | refine keptO_next ?_ | with_reducible apply keptO_afterSnoop
    | with_reducible apply kept_serveWrite | simp only [kept_upd] | split | intro _)

theorem keptO_execAddFrameReceive {z s : State} (rx : Rx) (ecc : MemEcc) (h : Kept z s) : KeptO z
    (execAddFrameReceive rx ecc s) := by
  unfold execAddFrameReceive
  try dsimp only
  repeat' (first
    | with_reducible assumption | refine keptO_next ?_ | with_reducible apply keptO_afterSnoop
    | with_reducible apply kept_serveAdd | simp only [kept_upd] | split | intro _)

theorem kept_orAbandoned {z s : State} (rx : Rx) (g : State → State) (hg : ∀ t, Kept z t → Kept z (g t))
 (h : Kept z s) : Kept z (orAbandoned rx g s) := by
  unfold orAbandoned
  split
  · exact kept_mk h
  · exact hg _ h

theorem kept_takeData {z s : State} (rx : Rx) (h : Kept z s) : Kept z (takeData rx s) := by
  unfold takeData
  try dsimp only
  repeat' (first
    | with_reducible assumption | with_reducible apply kept_modRequest | with_reducible apply kept_modCore
    | simp only [kept_upd] | split)

theorem kept_takeDone {z s : State} (rx : Rx) (h : Kept z s) : Kept z (takeDone rx s) := by
  unfold takeDone
  try dsimp only
  repeat' (first
    | with_reducible assumption | with_reducible apply kept_modRequest | simp only [kept_upd] | split)

theorem kept_answered {z s : State} (n : Nat) (sh : Shuttle) (x : Access) (dest : Nat) (addr : Dword) (h : Kept z s)
    : Kept z (answered s n sh x dest addr) := by
  unfold answered
  try dsimp only
  repeat' (first
    | with_reducible assumption | with_reducible apply kept_tapDrop
    | with_reducible apply kept_performAccess | with_reducible apply kept_modAccess | simp only [kept_upd]
    | split)

theorem kept_takeSignalDone {z s : State} (rx : Rx) (h : Kept z s) : Kept z (takeSignalDone rx s) := by
  unfold takeSignalDone
  try dsimp only
  repeat' (first
    | with_reducible assumption | with_reducible apply kept_answered | simp only [kept_upd] | split)

theorem keptO_execDataFrameReceive {z s : State} (rx : Rx) (h : Kept z s) : KeptO z (execDataFrameReceive rx s) := by
  unfold execDataFrameReceive
  try dsimp only
  repeat' (first
    | with_reducible assumption | refine keptO_next ?_ | with_reducible apply keptO_withRx
    | with_reducible apply kept_orAbandoned | with_reducible apply kept_takeData | simp only [kept_upd]
    | split | intro _)

theorem keptO_execDoneFrameReceive {z s : State} (rx : Rx) (h : Kept z s) : KeptO z (execDoneFrameReceive rx s) := by
  unfold execDoneFrameReceive
  try dsimp only
  repeat' (first
    | with_reducible assumption | refine keptO_next ?_ | with_reducible apply keptO_withRx
    | with_reducible apply kept_orAbandoned | with_reducible apply kept_takeSignalDone
    | with_reducible apply kept_takeDone | simp only [kept_upd] | split | intro _)

theorem kept_serveTap {z s : State} (rx : Rx) (h : Kept z s) : Kept z (serveTap rx s) := by
  unfold serveTap
  try dsimp only
  repeat' (first
    | with_reducible assumption | with_reducible apply kept_takeSignalDone
    | with_reducible apply kept_sendFrame | with_reducible apply kept_writeMem
    | with_reducible apply kept_wakeMemory | with_reducible apply kept_poisonAll
    | with_reducible apply kept_record | simp only [kept_upd] | split)

theorem keptO_execTapFrameReceive {z s : State} (rx : Rx) (h : Kept z s) : KeptO z (execTapFrameReceive rx s) := by
  unfold execTapFrameReceive
  try dsimp only
  repeat' (first
    | with_reducible assumption | refine keptO_next ?_ | with_reducible apply keptO_afterSnoop
    | with_reducible apply kept_serveTap | simp only [kept_upd] | split | intro _)

end Sys2Proof.Machine
end

