-- ==== Sys2Proof/Laws/KeptScalar.lean ====
section
/-! SUPPORT. What the operations of Machine/Scalar.lean keep: `Kept` of each, from that of the operations it uses. -/

namespace Sys2Proof.Machine

theorem keptA_actNop (a : At) : KeptA a.s (actNop a) := by
  unfold actNop
  refine keptA_eff ?_ rfl rfl
  try dsimp only
  repeat' (first
    | with_reducible exact Kept.refl _ | with_reducible assumption | simp only [kept_upd])

theorem keptA_actBr (a : At) : KeptA a.s (actBr a) := by
  unfold actBr
  refine keptA_eff ?_ rfl rfl
  try dsimp only
  repeat' (first
    | with_reducible exact Kept.refl _ | with_reducible assumption | simp only [kept_upd])

theorem keptA_actLoop (a : At) : KeptA a.s (actLoop a) := by
  unfold actLoop
  refine keptA_eff ?_ rfl rfl
  try dsimp only
  repeat' (first
    | with_reducible exact Kept.refl _ | with_reducible assumption | with_reducible apply kept_pushReg
    | simp only [kept_upd])

theorem keptA_actEnd (a : At) : KeptA a.s (actEnd a) := by
  unfold actEnd
  refine keptA_eff ?_ rfl rfl
  try dsimp only
  repeat' (first
    | with_reducible exact Kept.refl _ | with_reducible assumption | with_reducible apply kept_modCore
    | simp only [kept_upd])

theorem keptA_actSlotSel (a : At) : KeptA a.s (actSlotSel a) := by
  unfold actSlotSel
  refine keptA_eff ?_ rfl rfl
  try dsimp only
  repeat' (first
    | with_reducible exact Kept.refl _ | with_reducible assumption | with_reducible apply kept_modCore
    | simp only [kept_upd])

theorem keptA_actTrap (a : At) : KeptA a.s (actTrap a) := by
  unfold actTrap
  refine keptA_eff ?_ rfl rfl
  try dsimp only
  repeat' (first
    | with_reducible exact Kept.refl _ | with_reducible assumption | simp only [kept_upd])

theorem keptA_actScalar (a : At) (fnMax : Nat) (v : Nat) : KeptA a.s (actScalar a fnMax v) := by
  unfold actScalar
  refine keptA_eff ?_ rfl rfl
  try dsimp only
  repeat' (first
    | with_reducible exact Kept.refl _ | with_reducible assumption | with_reducible apply kept_pushReg
    | simp only [kept_upd])

theorem keptA_actAdd (a : At) : KeptA a.s (actAdd a) := by
  unfold actAdd
  apply keptA_actScalar

theorem keptA_actSub (a : At) : KeptA a.s (actSub a) := by
  unfold actSub
  apply keptA_actScalar

theorem keptA_actMul (a : At) : KeptA a.s (actMul a) := by
  unfold actMul
  apply keptA_actScalar

theorem keptA_actLogic (a : At) : KeptA a.s (actLogic a) := by
  unfold actLogic
  apply keptA_actScalar

theorem keptA_actShf (a : At) : KeptA a.s (actShf a) := by
  unfold actShf
  apply keptA_actScalar

theorem keptA_actMov (a : At) : KeptA a.s (actMov a) := by
  unfold actMov
  refine keptA_eff ?_ rfl rfl
  try dsimp only
  repeat' (first
    | with_reducible exact Kept.refl _ | with_reducible assumption | with_reducible apply kept_pushReg
    | simp only [kept_upd])

theorem keptA_actCmp (a : At) : KeptA a.s (actCmp a) := by
  unfold actCmp
  refine keptA_eff ?_ rfl rfl
  try dsimp only
  repeat' (first
    | with_reducible exact Kept.refl _ | with_reducible assumption | with_reducible apply kept_pushReg
    | simp only [kept_upd])

theorem keptA_actSel (a : At) : KeptA a.s (actSel a) := by
  unfold actSel
  refine keptA_eff ?_ rfl rfl
  try dsimp only
  repeat' (first
    | with_reducible exact Kept.refl _ | with_reducible assumption | with_reducible apply kept_pushReg
    | simp only [kept_upd])

theorem keptO_execNop {z s : State} (i : Issue) (h : Kept z s) : KeptO z (execNop i s) := by
  unfold execNop
  try dsimp only
  repeat' (first
    | with_reducible assumption | with_reducible apply keptO_issueWith | with_reducible apply keptA_actNop
    | simp only [kept_upd])

theorem keptO_execBr {z s : State} (i : Issue) (h : Kept z s) : KeptO z (execBr i s) := by
  unfold execBr
  try dsimp only
  repeat' (first
    | with_reducible assumption | with_reducible apply keptO_issueWith | with_reducible apply keptA_actBr
    | simp only [kept_upd])

theorem keptO_execLoop {z s : State} (i : Issue) (h : Kept z s) : KeptO z (execLoop i s) := by
  unfold execLoop
  try dsimp only
  repeat' (first
    | with_reducible assumption | with_reducible apply keptO_issueWith | with_reducible apply keptA_actLoop
    | simp only [kept_upd])

theorem keptO_execEndShuttle {z s : State} (i : Issue) (h : Kept z s) : KeptO z (execEndShuttle i s) := by
  unfold execEndShuttle
  try dsimp only
  repeat' (first
    | with_reducible assumption | with_reducible apply keptO_issueWith | with_reducible apply keptA_actEnd
    | simp only [kept_upd])

theorem keptO_execSlotSel {z s : State} (i : Issue) (h : Kept z s) : KeptO z (execSlotSel i s) := by
  unfold execSlotSel
  try dsimp only
  repeat' (first
    | with_reducible assumption | with_reducible apply keptO_issueWith
    | with_reducible apply keptA_actSlotSel | simp only [kept_upd])

theorem keptO_execTrap {z s : State} (i : Issue) (h : Kept z s) : KeptO z (execTrap i s) := by
  unfold execTrap
  try dsimp only
  repeat' (first
    | with_reducible assumption | with_reducible apply keptO_issueWith | with_reducible apply keptA_actTrap
    | simp only [kept_upd])

theorem keptO_execAdd {z s : State} (i : Issue) (h : Kept z s) : KeptO z (execAdd i s) := by
  unfold execAdd
  try dsimp only
  repeat' (first
    | with_reducible assumption | with_reducible apply keptO_issueWith | with_reducible apply keptA_actAdd
    | simp only [kept_upd] | split | intro _)

theorem keptO_execSubtract {z s : State} (i : Issue) (h : Kept z s) : KeptO z (execSubtract i s) := by
  unfold execSubtract
  try dsimp only
  repeat' (first
    | with_reducible assumption | with_reducible apply keptO_issueWith | with_reducible apply keptA_actSub
    | simp only [kept_upd] | split | intro _)

theorem keptO_execMul {z s : State} (i : Issue) (h : Kept z s) : KeptO z (execMul i s) := by
  unfold execMul
  try dsimp only
  repeat' (first
    | with_reducible assumption | with_reducible apply keptO_issueWith | with_reducible apply keptA_actMul
    | simp only [kept_upd] | split | intro _)

theorem keptO_execLogic {z s : State} (i : Issue) (h : Kept z s) : KeptO z (execLogic i s) := by
  unfold execLogic
  try dsimp only
  repeat' (first
    | with_reducible assumption | with_reducible apply keptO_issueWith
    | with_reducible apply keptA_actLogic | simp only [kept_upd] | split | intro _)

theorem keptO_execShf {z s : State} (i : Issue) (h : Kept z s) : KeptO z (execShf i s) := by
  unfold execShf
  try dsimp only
  repeat' (first
    | with_reducible assumption | with_reducible apply keptO_issueWith | with_reducible apply keptA_actShf
    | simp only [kept_upd] | split | intro _)

theorem keptO_execMov {z s : State} (i : Issue) (h : Kept z s) : KeptO z (execMov i s) := by
  unfold execMov
  try dsimp only
  repeat' (first
    | with_reducible assumption | with_reducible apply keptO_issueWith | with_reducible apply keptA_actMov
    | simp only [kept_upd])

theorem keptO_execCmp {z s : State} (i : Issue) (h : Kept z s) : KeptO z (execCmp i s) := by
  unfold execCmp
  try dsimp only
  repeat' (first
    | with_reducible assumption | with_reducible apply keptO_issueWith | with_reducible apply keptA_actCmp
    | simp only [kept_upd])

theorem keptO_execSel {z s : State} (i : Issue) (h : Kept z s) : KeptO z (execSel i s) := by
  unfold execSel
  try dsimp only
  repeat' (first
    | with_reducible assumption | with_reducible apply keptO_issueWith | with_reducible apply keptA_actSel
    | simp only [kept_upd])

end Sys2Proof.Machine
end

