-- ==== Sys2Proof/Laws/KeptSelv.lean ====
section
/-! SUPPORT. What the operations of Machine/Selv.lean keep: `Kept` of each, from that of the operations it uses. -/

namespace Sys2Proof.Machine

theorem keptA_actSelvCfg (a : At) : KeptA a.s (actSelvCfg a) := by
  unfold actSelvCfg
  refine keptA_eff ?_ rfl rfl
  try dsimp only
  repeat' (first
    | with_reducible exact Kept.refl _ | with_reducible assumption | with_reducible apply kept_push
    | simp only [kept_upd])

theorem keptA_actSelvRead (a : At) : KeptA a.s (actSelvRead a) := by
  unfold actSelvRead
  refine keptA_eff ?_ rfl rfl
  try dsimp only
  repeat' (first
    | with_reducible exact Kept.refl _ | with_reducible assumption | with_reducible apply kept_pushReg
    | simp only [kept_upd])

theorem keptA_actSelvRun (a : At) : KeptA a.s (actSelvRun a) := by
  unfold actSelvRun
  refine keptA_eff ?_ rfl rfl
  try dsimp only
  repeat' (first
    | with_reducible exact Kept.refl _ | with_reducible assumption | with_reducible apply kept_readStore
    | with_reducible apply kept_deferFault | with_reducible apply kept_modCore
    | with_reducible apply kept_push | with_reducible apply kept_pushStore | simp only [kept_upd] | split)

theorem keptO_execSelvCfg {z s : State} (i : Issue) (h : Kept z s) : KeptO z (execSelvCfg i s) := by
  unfold execSelvCfg
  try dsimp only
  repeat' (first
    | with_reducible assumption | with_reducible apply keptO_issueWith
    | with_reducible apply keptA_actSelvCfg | simp only [kept_upd])

theorem keptO_execSelvRun {z s : State} (i : Issue) (h : Kept z s) : KeptO z (execSelvRun i s) := by
  unfold execSelvRun
  try dsimp only
  repeat' (first
    | with_reducible assumption | with_reducible apply keptO_issueWith
    | with_reducible apply keptA_actSelvRun | simp only [kept_upd])

theorem keptO_execSelvRead {z s : State} (i : Issue) (h : Kept z s) : KeptO z (execSelvRead i s) := by
  unfold execSelvRead
  try dsimp only
  repeat' (first
    | with_reducible assumption | with_reducible apply keptO_issueWith
    | with_reducible apply keptA_actSelvRead | simp only [kept_upd])

theorem keptO_execSelvRunComplete {z s : State} (core : Fin 192) (h : Kept z s) : KeptO z (execSelvRunComplete core
    s) := by
  unfold execSelvRunComplete
  try dsimp only
  repeat' (first
    | with_reducible assumption | refine keptO_next ?_ | with_reducible apply kept_landAll
    | simp only [kept_upd])

theorem keptA_actPwrHorizon (a : At) : KeptA a.s (actPwrHorizon a) := by
  unfold actPwrHorizon
  refine keptA_eff ?_ rfl rfl
  try dsimp only
  repeat' (first
    | with_reducible exact Kept.refl _ | with_reducible assumption | with_reducible apply kept_modPart
    | simp only [kept_upd])

theorem keptO_execPwrHorizon {z s : State} (i : Issue) (h : Kept z s) : KeptO z (execPwrHorizon i s) := by
  unfold execPwrHorizon
  try dsimp only
  repeat' (first
    | with_reducible assumption | with_reducible apply keptO_issueWith
    | with_reducible apply keptA_actPwrHorizon | simp only [kept_upd])

end Sys2Proof.Machine
end

