-- ==== Sys2Proof/Laws/KeptUpdate.lean ====
section
/-! SUPPORT. What the operations of Machine/Update.lean keep: `Kept` of each, from that of the operations it uses. -/

namespace Sys2Proof.Machine

theorem keptA_actUpdCfg (a : At) : KeptA a.s (actUpdCfg a) := by
  unfold actUpdCfg
  refine keptA_eff ?_ rfl rfl
  try dsimp only
  repeat' (first
    | with_reducible exact Kept.refl _ | with_reducible assumption | with_reducible apply kept_push
    | with_reducible apply kept_readStore | simp only [kept_upd])

theorem kept_jnlFlag {z s : State} (p : Part) (f : Nat) (h : Kept z s) : Kept z (jnlFlag s p f) := by
  unfold jnlFlag
  try dsimp only
  repeat' (first
    | with_reducible assumption | with_reducible apply kept_modPart | simp only [kept_upd])

theorem kept_blockUpd {z s : State} (a : At) (flagBit : Nat) (h : Kept z s) : Kept z (blockUpd a s flagBit) := by
  unfold blockUpd
  try dsimp only
  repeat' (first
    | with_reducible assumption | with_reducible apply kept_jnlFlag | with_reducible apply kept_bumpCore
    | with_reducible apply kept_partVector | with_reducible apply kept_record | simp only [kept_upd])

theorem kept_updEffect (a : At) : Kept a.s (updEffect a) := by
  unfold updEffect
  try dsimp only
  repeat' (first
    | with_reducible exact Kept.refl _ | with_reducible assumption | with_reducible apply kept_readStore
    | with_reducible apply kept_pushStore | with_reducible apply kept_detections
    | with_reducible apply kept_blockUpd | with_reducible apply kept_record
    | with_reducible apply kept_bumpCore | with_reducible apply kept_partVector
    | with_reducible apply kept_jnlFlag | simp only [kept_upd] | with_reducible apply kept_ite
    | with_reducible refine kept_foldl _ (fun _ _ _ => ?_) _ _ ?_ | with_reducible exact id
    | exact Nat.le_refl _ | exact fun hp => legalModes_of rfl rfl rfl rfl hp
    | exact fun he => boundedErrors_of rfl rfl he | split | intro _ | dsimp only | assumption | omega
    | (intro he; simp only [legalModes, boundedErrors] at he ⊢; with_reducible exact he)
    | (simp only [legalModes, boundedErrors, Bool.and_eq_true, decide_eq_true_eq] at *; omega)
    | apply kept_legal)

theorem keptA_actUpd (a : At) : KeptA a.s (actUpd a) := by
  unfold actUpd
  refine keptA_eff ?_ rfl rfl
  try dsimp only
  repeat' (first
    | with_reducible exact Kept.refl _ | with_reducible assumption | with_reducible apply kept_updEffect
    | simp only [kept_upd])

theorem keptO_execUpd {z s : State} (i : Issue) (h : Kept z s) : KeptO z (execUpd i s) := by
  unfold execUpd
  try dsimp only
  repeat' (first
    | with_reducible assumption | with_reducible apply keptO_issueWith | with_reducible apply keptA_actUpd
    | simp only [kept_upd])

theorem keptO_execUpdCfg {z s : State} (i : Issue) (h : Kept z s) : KeptO z (execUpdCfg i s) := by
  unfold execUpdCfg
  try dsimp only
  repeat' (first
    | with_reducible assumption | with_reducible apply keptO_issueWith
    | with_reducible apply keptA_actUpdCfg | simp only [kept_upd])

end Sys2Proof.Machine
end

