-- ==== Sys2Proof/Laws/KeptRun.lean ====
section
/-! SUPPORT. What the operations of Machine/Run.lean keep: `Kept` of each, from that of the operations it uses. -/

namespace Sys2Proof.Machine

theorem keptO_issueRow {z s : State} (i : Issue) (h : Kept z s) : KeptO z (issueRow i s) := by
  unfold issueRow
  split
  · exact keptO_execBr i h
  · exact keptO_execLoop i h
  · exact keptO_execEndShuttle i h
  · exact keptO_execSlotSel i h
  · exact keptO_execTrap i h
  · exact keptO_execAdd i h
  · exact keptO_execSubtract i h
  · exact keptO_execMul i h
  · exact keptO_execLogic i h
  · exact keptO_execShf i h
  · exact keptO_execMov i h
  · exact keptO_execCmp i h
  · exact keptO_execSel i h
  · exact keptO_execDescMake i h
  · exact keptO_execDescSet i h
  · exact keptO_execDescOffs i h
  · exact keptO_execDescLdt i h
  · exact keptO_execDescStt i h
  · exact keptO_execBqIssue i h
  · exact keptO_execBqWait i h
  · exact keptO_execBeamMm i h
  · exact keptO_execBeamScore i h
  · exact keptO_execBeamZero i h
  · exact keptO_execHeddleSpmm i h
  · exact keptO_execHeddleSddmm i h
  · exact keptO_execHeddleSpsp i h
  · exact keptO_execHeddleZero i h
  · exact keptO_execVecOp i h
  · exact keptO_execVecRed i h
  · exact keptO_execVecCvt i h
  · exact keptO_execSfuEval i h
  · exact keptO_execSfuDeriv i h
  · exact keptO_execSfuLoad i h
  · exact keptO_execGrav i h
  · exact keptO_execDrain i h
  · exact keptO_execDrainD i h
  · exact keptO_execChainSend i h
  · exact keptO_execChainSeed i h
  · exact keptO_execCaskOpen i h
  · exact keptO_execCaskHdr i h
  · exact keptO_execCaskPut i h
  · exact keptO_execCaskNorm i h
  · exact keptO_execCaskClose i h
  · exact keptO_execUpd i h
  · exact keptO_execUpdCfg i h
  · exact keptO_execCull i h
  · exact keptO_execGerminate i h
  · exact keptO_execMaskCommit i h
  · exact keptO_execSemSig i h
  · exact keptO_execSemWait i h
  · exact keptO_execBeatup i h
  · exact keptO_execVerdictWait i h
  · exact keptO_execFenceC i h
  · exact keptO_execFenceQ i h
  · exact keptO_execFenceD i h
  · exact keptO_execFenceF i h
  · exact keptO_execSelvCfg i h
  · exact keptO_execSelvRun i h
  · exact keptO_execSelvRead i h
  · exact keptO_execPwrHorizon i h
  · exact keptO_execJnlHash i h
  · exact keptO_execJnlWrite i h
  · exact keptO_execJnlTap i h
  · exact keptO_execNop i h

theorem kept_after {z s : State} (o : Host.Outcome State Fault Refusal) (ho : KeptO z o) (h : Kept z s) :
    Kept z (after s o) := by
  unfold after
  split
  · exact ho _ rfl
  · exact h

theorem kept_runShuttle {z s : State} (core : Fin 192) (sh : Shuttle) (h : Kept z s) :
    Kept z (runShuttle core s sh) := by
  unfold runShuttle
  split
  · exact h
  · dsimp only
    split
    · exact kept_ite (kept_after _ (keptO_issueRow _ h) h) h
    · exact h

theorem kept_detectDue {z s : State} (core : Fin 192) (sh : Shuttle) (h : Kept z s) :
    Kept z (detectDue core s sh) := by
  unfold detectDue
  exact kept_ite (kept_after _ (keptO_execDeferredFaultDetect _ _ h) h) h

theorem kept_runCore {z s : State} (n : Nat) (h : Kept z s) : Kept z (runCore s n) := by
  unfold runCore
  split
  · exact kept_foldl _ (fun _ _ ht => kept_detectDue _ _ ht) _ _ (kept_foldl _ (fun _ _ ht => kept_runShuttle _ _ ht) _ _
      (kept_foldl _ (fun _ _ ht => kept_after _ (keptO_execWaitResume _ _ ht) ht) _ _
        (kept_after _ (keptO_execSlotPlanTakeEffect _ h) h)))
  · exact h

end Sys2Proof.Machine
end

