-- ==== Sys2Proof/Laws/KeptTick.lean ====
section
/-! SUPPORT. What the operations of Machine/Tick.lean keep: `Kept` of each, from that of the operations it uses. -/

namespace Sys2Proof.Machine

theorem kept_endCore {z s : State} (x : Part × Nat) (h : Kept z s) : Kept z (endCore s x) := by
  unfold endCore
  try dsimp only
  repeat' (first
    | with_reducible assumption | with_reducible apply kept_landAll | with_reducible apply kept_verdictTest
    | with_reducible apply kept_modCore | simp only [kept_upd])

theorem kept_enterCore {z s : State} (x : Part × Nat) (h : Kept z s) : Kept z (enterCore s x) := by
  unfold enterCore
  try dsimp only
  repeat' (first
    | with_reducible assumption | with_reducible apply kept_modCore | with_reducible apply kept_landAll
    | simp only [kept_upd])

theorem kept_freezeCore {z s : State} (x : Part × Nat) (h : Kept z s) : Kept z (freezeCore s x) := by
  unfold freezeCore
  try dsimp only
  repeat' (first
    | with_reducible assumption | with_reducible apply kept_modCore | simp only [kept_upd])

theorem kept_meterQuad {z s : State} (live : List (Part × Nat)) (q : Nat) (h : Kept z s) : Kept z (meterQuad live s
    q) := by
  unfold meterQuad
  try dsimp only
  repeat' (first
    | with_reducible assumption | with_reducible apply kept_freezeCore | with_reducible apply kept_after
    | with_reducible apply kept_modQuad | simp only [kept_upd] | split
    | with_reducible refine kept_foldl _ (fun _ _ _ => ?_) _ _ ?_)

theorem kept_stillCore {z s : State} (x : Part × Nat) (h : Kept z s) : Kept z (stillCore s x) := by
  unfold stillCore
  try dsimp only
  repeat' (first
    | with_reducible assumption | with_reducible apply kept_modCore | simp only [kept_upd] | split)

theorem kept_finishDown {z s : State} (h : Kept z s) : Kept z (finishDown s) := by
  unfold finishDown
  try dsimp only
  repeat' (first
    | with_reducible assumption | with_reducible apply kept_railsOff | simp only [kept_upd] | split)

theorem kept_takeGen {z s : State} (q : Nat) (h : Kept z s) : Kept z (takeGen s q) := by
  unfold takeGen
  try dsimp only
  repeat' (first
    | with_reducible assumption | with_reducible apply kept_modQuad | simp only [kept_upd]
    | with_reducible apply kept_ite | with_reducible refine kept_foldl _ (fun _ _ _ => ?_) _ _ ?_
    | with_reducible exact id | exact Nat.le_refl _ | exact fun hp => legalModes_of rfl rfl rfl rfl hp
    | exact fun he => boundedErrors_of rfl rfl he | split | intro _ | dsimp only | assumption | omega
    | (intro he; simp only [legalModes, boundedErrors] at he ⊢; with_reducible exact he)
    | (simp only [legalModes, boundedErrors, Bool.and_eq_true, decide_eq_true_eq] at *; omega)
    | apply kept_legal)

theorem kept_tick {z s : State} (h : Kept z s) : Kept z (tick s) := by
  unfold tick
  try dsimp only
  repeat' (first
    | with_reducible assumption | with_reducible apply kept_runCore | with_reducible apply kept_endCore
    | with_reducible apply kept_foundTest | with_reducible apply kept_modCore
    | with_reducible apply kept_enterCore | with_reducible apply kept_meterQuad
    | with_reducible apply kept_stillCore | with_reducible apply kept_takeGen
    | with_reducible apply kept_settleExit | with_reducible apply kept_settleQuiesce
    | with_reducible apply kept_finishDown | with_reducible apply kept_settleEnd
    | with_reducible apply kept_settleS5 | with_reducible apply kept_sweepOn | simp only [kept_upd] | split
    | with_reducible refine kept_foldl _ (fun _ _ _ => ?_) _ _ ?_)

end Sys2Proof.Machine
end

