-- ==== Sys2Proof/Laws/PerInstr.lean ====
section
/-! SUPPORT. The family Opcode, one lemma per command: an instruction row names a defined opcode, and every 128-bit
word it may carry is well formed. -/

namespace Sys2Proof.Laws.Opcode

open Sys2Proof Sys2Proof.Machine

/-- A row that issues an instruction names an opcode of the map (R108), and nothing but the upsets restricts its word. -/
def Statement (c : Instr) : Prop :=
  ∀ op x, c.issue = some (op, x) → opcodeDefined op = true ∧ c.wf = x.ups.wf

theorem nop (i : Issue) : Statement (.nop i) := by
  intro op x h; cases h; exact ⟨by decide, rfl⟩
theorem br (i : Issue) : Statement (.br i) := by
  intro op x h; cases h; exact ⟨by decide, rfl⟩
theorem loop (i : Issue) : Statement (.loop i) := by
  intro op x h; cases h; exact ⟨by decide, rfl⟩
theorem endShuttle (i : Issue) : Statement (.endShuttle i) := by
  intro op x h; cases h; exact ⟨by decide, rfl⟩
theorem slotSel (i : Issue) : Statement (.slotSel i) := by
  intro op x h; cases h; exact ⟨by decide, rfl⟩
theorem trap (i : Issue) : Statement (.trap i) := by
  intro op x h; cases h; exact ⟨by decide, rfl⟩
theorem add (i : Issue) : Statement (.add i) := by
  intro op x h; cases h; exact ⟨by decide, rfl⟩
theorem subtract (i : Issue) : Statement (.subtract i) := by
  intro op x h; cases h; exact ⟨by decide, rfl⟩
theorem mul (i : Issue) : Statement (.mul i) := by
  intro op x h; cases h; exact ⟨by decide, rfl⟩
theorem logic (i : Issue) : Statement (.logic i) := by
  intro op x h; cases h; exact ⟨by decide, rfl⟩
theorem shf (i : Issue) : Statement (.shf i) := by
  intro op x h; cases h; exact ⟨by decide, rfl⟩
theorem mov (i : Issue) : Statement (.mov i) := by
  intro op x h; cases h; exact ⟨by decide, rfl⟩
theorem cmp (i : Issue) : Statement (.cmp i) := by
  intro op x h; cases h; exact ⟨by decide, rfl⟩
theorem sel (i : Issue) : Statement (.sel i) := by
  intro op x h; cases h; exact ⟨by decide, rfl⟩
theorem descMake (i : Issue) : Statement (.descMake i) := by
  intro op x h; cases h; exact ⟨by decide, rfl⟩
theorem descSet (i : Issue) : Statement (.descSet i) := by
  intro op x h; cases h; exact ⟨by decide, rfl⟩
theorem descOffs (i : Issue) : Statement (.descOffs i) := by
  intro op x h; cases h; exact ⟨by decide, rfl⟩
theorem descLdt (i : Issue) : Statement (.descLdt i) := by
  intro op x h; cases h; exact ⟨by decide, rfl⟩
theorem descStt (i : Issue) : Statement (.descStt i) := by
  intro op x h; cases h; exact ⟨by decide, rfl⟩
theorem bqIssue (i : Issue) : Statement (.bqIssue i) := by
  intro op x h; cases h; exact ⟨by decide, rfl⟩
theorem bqWait (i : Issue) : Statement (.bqWait i) := by
  intro op x h; cases h; exact ⟨by decide, rfl⟩
theorem beamMm (i : Issue) : Statement (.beamMm i) := by
  intro op x h; cases h; exact ⟨by decide, rfl⟩
theorem beamScore (i : Issue) : Statement (.beamScore i) := by
  intro op x h; cases h; exact ⟨by decide, rfl⟩
theorem beamZero (i : Issue) : Statement (.beamZero i) := by
  intro op x h; cases h; exact ⟨by decide, rfl⟩
theorem heddleSpmm (i : Issue) : Statement (.heddleSpmm i) := by
  intro op x h; cases h; exact ⟨by decide, rfl⟩
theorem heddleSddmm (i : Issue) : Statement (.heddleSddmm i) := by
  intro op x h; cases h; exact ⟨by decide, rfl⟩
theorem heddleSpsp (i : Issue) : Statement (.heddleSpsp i) := by
  intro op x h; cases h; exact ⟨by decide, rfl⟩
theorem heddleZero (i : Issue) : Statement (.heddleZero i) := by
  intro op x h; cases h; exact ⟨by decide, rfl⟩
theorem vecOp (i : Issue) : Statement (.vecOp i) := by
  intro op x h; cases h; exact ⟨by decide, rfl⟩
theorem vecRed (i : Issue) : Statement (.vecRed i) := by
  intro op x h; cases h; exact ⟨by decide, rfl⟩
theorem vecCvt (i : Issue) : Statement (.vecCvt i) := by
  intro op x h; cases h; exact ⟨by decide, rfl⟩
theorem sfuEval (i : Issue) : Statement (.sfuEval i) := by
  intro op x h; cases h; exact ⟨by decide, rfl⟩
theorem sfuDeriv (i : Issue) : Statement (.sfuDeriv i) := by
  intro op x h; cases h; exact ⟨by decide, rfl⟩
theorem sfuLoad (i : Issue) : Statement (.sfuLoad i) := by
  intro op x h; cases h; exact ⟨by decide, rfl⟩
theorem grav (i : Issue) : Statement (.grav i) := by
  intro op x h; cases h; exact ⟨by decide, rfl⟩
theorem drain (i : Issue) : Statement (.drain i) := by
  intro op x h; cases h; exact ⟨by decide, rfl⟩
theorem drainD (i : Issue) : Statement (.drainD i) := by
  intro op x h; cases h; exact ⟨by decide, rfl⟩
theorem chainSend (i : Issue) : Statement (.chainSend i) := by
  intro op x h; cases h; exact ⟨by decide, rfl⟩
theorem chainSeed (i : Issue) : Statement (.chainSeed i) := by
  intro op x h; cases h; exact ⟨by decide, rfl⟩
theorem caskOpen (i : Issue) : Statement (.caskOpen i) := by
  intro op x h; cases h; exact ⟨by decide, rfl⟩
theorem caskHdr (i : Issue) : Statement (.caskHdr i) := by
  intro op x h; cases h; exact ⟨by decide, rfl⟩
theorem caskPut (i : Issue) : Statement (.caskPut i) := by
  intro op x h; cases h; exact ⟨by decide, rfl⟩
theorem caskNorm (i : Issue) : Statement (.caskNorm i) := by
  intro op x h; cases h; exact ⟨by decide, rfl⟩
theorem caskClose (i : Issue) : Statement (.caskClose i) := by
  intro op x h; cases h; exact ⟨by decide, rfl⟩
theorem upd (i : Issue) : Statement (.upd i) := by
  intro op x h; cases h; exact ⟨by decide, rfl⟩
theorem updCfg (i : Issue) : Statement (.updCfg i) := by
  intro op x h; cases h; exact ⟨by decide, rfl⟩
theorem cull (i : Issue) : Statement (.cull i) := by
  intro op x h; cases h; exact ⟨by decide, rfl⟩
theorem germinate (i : Issue) : Statement (.germinate i) := by
  intro op x h; cases h; exact ⟨by decide, rfl⟩
theorem maskCommit (i : Issue) : Statement (.maskCommit i) := by
  intro op x h; cases h; exact ⟨by decide, rfl⟩
theorem semSig (i : Issue) : Statement (.semSig i) := by
  intro op x h; cases h; exact ⟨by decide, rfl⟩
theorem semWait (i : Issue) : Statement (.semWait i) := by
  intro op x h; cases h; exact ⟨by decide, rfl⟩
theorem beatup (i : Issue) : Statement (.beatup i) := by
  intro op x h; cases h; exact ⟨by decide, rfl⟩
theorem verdictWait (i : Issue) : Statement (.verdictWait i) := by
  intro op x h; cases h; exact ⟨by decide, rfl⟩
theorem fenceC (i : Issue) : Statement (.fenceC i) := by
  intro op x h; cases h; exact ⟨by decide, rfl⟩
theorem fenceQ (i : Issue) : Statement (.fenceQ i) := by
  intro op x h; cases h; exact ⟨by decide, rfl⟩
theorem fenceD (i : Issue) : Statement (.fenceD i) := by
  intro op x h; cases h; exact ⟨by decide, rfl⟩
theorem fenceF (i : Issue) : Statement (.fenceF i) := by
  intro op x h; cases h; exact ⟨by decide, rfl⟩
theorem selvCfg (i : Issue) : Statement (.selvCfg i) := by
  intro op x h; cases h; exact ⟨by decide, rfl⟩
theorem selvRun (i : Issue) : Statement (.selvRun i) := by
  intro op x h; cases h; exact ⟨by decide, rfl⟩
theorem selvRead (i : Issue) : Statement (.selvRead i) := by
  intro op x h; cases h; exact ⟨by decide, rfl⟩
theorem pwrHorizon (i : Issue) : Statement (.pwrHorizon i) := by
  intro op x h; cases h; exact ⟨by decide, rfl⟩
theorem jnlHash (i : Issue) : Statement (.jnlHash i) := by
  intro op x h; cases h; exact ⟨by decide, rfl⟩
theorem jnlWrite (i : Issue) : Statement (.jnlWrite i) := by
  intro op x h; cases h; exact ⟨by decide, rfl⟩
theorem jnlTap (i : Issue) : Statement (.jnlTap i) := by
  intro op x h; cases h; exact ⟨by decide, rfl⟩
theorem deferredFaultDetect (core : Fin 192) (sh : Shuttle) : Statement (.deferredFaultDetect core sh) := by
  intro op x h; cases h
theorem contextFaulted (q : Fin 8) : Statement (.contextFaulted q) := by
  intro op x h; cases h
theorem contextStopped (q : Fin 8) : Statement (.contextStopped q) := by
  intro op x h; cases h
theorem waitResume (core : Fin 192) (sh : Shuttle) : Statement (.waitResume core sh) := by
  intro op x h; cases h
theorem slotPlanTakeEffect (core : Fin 192) : Statement (.slotPlanTakeEffect core) := by
  intro op x h; cases h
theorem resultVisible (core : Fin 192) : Statement (.resultVisible core) := by
  intro op x h; cases h
theorem tunDrainLand (core : Fin 192) : Statement (.tunDrainLand core) := by
  intro op x h; cases h
theorem heddleOverrun (core : Fin 192) : Statement (.heddleOverrun core) := by
  intro op x h; cases h
theorem heddleWorkComplete (core : Fin 192) : Statement (.heddleWorkComplete core) := by
  intro op x h; cases h
theorem plausibilityVerdict (core : Fin 192) (id : Nat) (rep : RepeatEnd) : Statement (.plausibilityVerdict core id rep) := by
  intro op x h; cases h
theorem verdictFrameSend (core : Fin 192) (id : Nat) : Statement (.verdictFrameSend core id) := by
  intro op x h; cases h
theorem heldAccessRelease (core : Fin 192) (id : Nat) (sram : SramEcc) : Statement (.heldAccessRelease core id sram) := by
  intro op x h; cases h
theorem bobbinRequestComplete (core : Fin 192) (queue : Fin 16) (seq : Fin 2048) (ecc : MemEcc) (sram : SramEcc) :
    Statement (.bobbinRequestComplete core queue seq ecc sram) := by
  intro op x h; cases h
theorem remoteRequestTimeout (core : Fin 192) (queue : Fin 16) (seq : Fin 2048) : Statement (.remoteRequestTimeout core queue seq) := by
  intro op x h; cases h
theorem signalPerform (id : Nat) : Statement (.signalPerform id) := by
  intro op x h; cases h
theorem beatupComplete (scope : Fin 3) (q : Fin 8) : Statement (.beatupComplete scope q) := by
  intro op x h; cases h
theorem journalEntryComplete (q : Fin 8) : Statement (.journalEntryComplete q) := by
  intro op x h; cases h
theorem selvRunComplete (core : Fin 192) : Statement (.selvRunComplete core) := by
  intro op x h; cases h
theorem readFrameReceive (rx : Rx) (ecc : MemEcc) : Statement (.readFrameReceive rx ecc) := by
  intro op x h; cases h
theorem writeFrameReceive (rx : Rx) : Statement (.writeFrameReceive rx) := by
  intro op x h; cases h
theorem addFrameReceive (rx : Rx) (ecc : MemEcc) : Statement (.addFrameReceive rx ecc) := by
  intro op x h; cases h
theorem dataFrameReceive (rx : Rx) : Statement (.dataFrameReceive rx) := by
  intro op x h; cases h
theorem doneFrameReceive (rx : Rx) : Statement (.doneFrameReceive rx) := by
  intro op x h; cases h
theorem caskHdrReceive (rx : Rx) : Statement (.caskHdrReceive rx) := by
  intro op x h; cases h
theorem caskPieceReceive (rx : Rx) (sramDouble : Bool) : Statement (.caskPieceReceive rx sramDouble) := by
  intro op x h; cases h
theorem caskAckReceive (rx : Rx) : Statement (.caskAckReceive rx) := by
  intro op x h; cases h
theorem verdictReceive (rx : Rx) : Statement (.verdictReceive rx) := by
  intro op x h; cases h
theorem normReceive (rx : Rx) : Statement (.normReceive rx) := by
  intro op x h; cases h
theorem signalFrameReceive (rx : Rx) : Statement (.signalFrameReceive rx) := by
  intro op x h; cases h
theorem beatupFrameReceive (rx : Rx) : Statement (.beatupFrameReceive rx) := by
  intro op x h; cases h
theorem tapFrameReceive (rx : Rx) : Statement (.tapFrameReceive rx) := by
  intro op x h; cases h
theorem quiesceNoticeReceive (port : Fin 8) (peer : Fin 64) : Statement (.quiesceNoticeReceive port peer) := by
  intro op x h; cases h
theorem heldFrameRelease (cask : Fin 8) (id : Nat) : Statement (.heldFrameRelease cask id) := by
  intro op x h; cases h
theorem sectionSeal (cask : Fin 8) (q : Fin 8) (bkt : Half) : Statement (.sectionSeal cask q bkt) := by
  intro op x h; cases h
theorem bucketDeadline (cask : Fin 8) (q : Fin 8) (bkt : Half) : Statement (.bucketDeadline cask q bkt) := by
  intro op x h; cases h
theorem sectionDeadline (cask : Fin 8) (q : Fin 8) (bkt : Half) : Statement (.sectionDeadline cask q bkt) := by
  intro op x h; cases h
theorem caskSelvVerdict (cask : Fin 8) (id : Nat) : Statement (.caskSelvVerdict cask id) := by
  intro op x h; cases h
theorem flitSend (port : Fin 8) (peer : Fin 64) : Statement (.flitSend port peer) := by
  intro op x h; cases h
theorem flitReceive (port : Fin 8) (peer : Fin 64) (flit : Flit) (fec : FlitErrors) : Statement (.flitReceive port peer flit fec) := by
  intro op x h; cases h
theorem retryRequestReceive (port : Fin 8) (peer : Fin 64) (ack : Word) : Statement (.retryRequestReceive port peer ack) := by
  intro op x h; cases h
theorem lockLossTimeout (port : Fin 8) (peer : Fin 64) : Statement (.lockLossTimeout port peer) := by
  intro op x h; cases h
theorem retrainComplete (port : Fin 8) (peer : Fin 64) (seen : List TrainingSeen) : Statement (.retrainComplete port peer seen) := by
  intro op x h; cases h
theorem retrainTimeout (port : Fin 8) (peer : Fin 64) : Statement (.retrainTimeout port peer) := by
  intro op x h; cases h
theorem calTrackingStep (port : Fin 8) : Statement (.calTrackingStep port) := by
  intro op x h; cases h
theorem portBringUp (port : Fin 8) (seen : List TrainingSeen) : Statement (.portBringUp port seen) := by
  intro op x h; cases h
theorem laserInputChange (port : Fin 8) (powers : List Nat) : Statement (.laserInputChange port powers) := by
  intro op x h; cases h
theorem patrolScrubRead (tier : Tier) (unit : Nat) (found : ScrubFound) : Statement (.patrolScrubRead tier unit found) := by
  intro op x h; cases h
theorem errorRecordCopy : Statement (.errorRecordCopy) := by
  intro op x h; cases h
theorem hangDetect (q : Fin 8) : Statement (.hangDetect q) := by
  intro op x h; cases h
theorem hangAutoReset (q : Fin 8) : Statement (.hangAutoReset q) := by
  intro op x h; cases h
theorem resetLevelTimeout (q : Fin 8) : Statement (.resetLevelTimeout q) := by
  intro op x h; cases h
theorem resetSequenceComplete (q : Fin 8) : Statement (.resetSequenceComplete q) := by
  intro op x h; cases h
theorem contextClearComplete (q : Fin 8) : Statement (.contextClearComplete q) := by
  intro op x h; cases h
theorem load (r : Fin 8) (e : CmdEntry) (input : LoadInput) : Statement (.load r e input) := by
  intro op x h; cases h
theorem start (r : Fin 8) (e : CmdEntry) : Statement (.start r e) := by
  intro op x h; cases h
theorem stop (r : Fin 8) (e : CmdEntry) : Statement (.stop r e) := by
  intro op x h; cases h
theorem unload (r : Fin 8) (e : CmdEntry) : Statement (.unload r e) := by
  intro op x h; cases h
theorem checkpoint (r : Fin 8) (e : CmdEntry) (manifest : List RecordSource) : Statement (.checkpoint r e manifest) := by
  intro op x h; cases h
theorem restore (r : Fin 8) (e : CmdEntry) (targets : List RecordTarget) : Statement (.restore r e targets) := by
  intro op x h; cases h
theorem replay (r : Fin 8) (e : CmdEntry) (targets : List RecordTarget) : Statement (.replay r e targets) := by
  intro op x h; cases h
theorem partition (r : Fin 8) (e : CmdEntry) : Statement (.partition r e) := by
  intro op x h; cases h
theorem reset (r : Fin 8) (e : CmdEntry) : Statement (.reset r e) := by
  intro op x h; cases h
theorem cellarRingTailWrite (r : Fin 8) (value : Word) : Statement (.cellarRingTailWrite r value) := by
  intro op x h; cases h
theorem cellarCplHeadWrite (r : Fin 8) (value : Word) : Statement (.cellarCplHeadWrite r value) := by
  intro op x h; cases h
theorem cellarRingCtrlWrite (r : Fin 8) (value : Word) : Statement (.cellarRingCtrlWrite r value) := by
  intro op x h; cases h
theorem msixVectorUnmask (vector : Fin 64) : Statement (.msixVectorUnmask vector) := by
  intro op x h; cases h
theorem hdmHostRead (addr : Nat) (caches : Bool) (ecc : MemEcc) : Statement (.hdmHostRead addr caches ecc) := by
  intro op x h; cases h
theorem hdmHostWrite (addr : Nat) (data : List Byte) : Statement (.hdmHostWrite addr data) := by
  intro op x h; cases h
theorem biSnoopResponse (line : Nat) : Statement (.biSnoopResponse line) := by
  intro op x h; cases h
theorem cellarHdmSegWrite (i : Fin 16) (value : Word) : Statement (.cellarHdmSegWrite i value) := by
  intro op x h; cases h
theorem mmioBadAccess (access : MmioAccess) : Statement (.mmioBadAccess access) := by
  intro op x h; cases h
theorem cxlForeignRequest (pid : BitVec 12) (mem : Bool) (addr : Nat) : Statement (.cxlForeignRequest pid mem addr) := by
  intro op x h; cases h
theorem cxlLinkTrained (width : Nat) (found : LinkFound) : Statement (.cxlLinkTrained width found) := by
  intro op x h; cases h
theorem mctpControlMessage (ep : Endpoint) (body : MctpMessage) : Statement (.mctpControlMessage ep body) := by
  intro op x h; cases h
theorem pldmRequestUpdate (ep : Endpoint) : Statement (.pldmRequestUpdate ep) := by
  intro op x h; cases h
theorem pldmComponentTransfer (ep : Endpoint) (component : List Byte) : Statement (.pldmComponentTransfer ep component) := by
  intro op x h; cases h
theorem pldmActivateFirmware (ep : Endpoint) : Statement (.pldmActivateFirmware ep) := by
  intro op x h; cases h
theorem recoveryImageReceive (component : List Byte) (readBack : List Byte) : Statement (.recoveryImageReceive component readBack) := by
  intro op x h; cases h
theorem spdmGetMeasurements (ep : Endpoint) (index : Nat) (nonce : List Byte) : Statement (.spdmGetMeasurements ep index nonce) := by
  intro op x h; cases h
theorem spdmGetCertificate (ep : Endpoint) (slot : Nat) : Statement (.spdmGetCertificate ep slot) := by
  intro op x h; cases h
theorem spdmChallenge (ep : Endpoint) (slot : Nat) (nonce : List Byte) : Statement (.spdmChallenge ep slot nonce) := by
  intro op x h; cases h
theorem spdmKeyExchange (ep : Endpoint) (slot : Nat) (exchange : List Byte) : Statement (.spdmKeyExchange ep slot exchange) := by
  intro op x h; cases h
theorem spdmHeartbeat (ep : Endpoint) (session : Nat) : Statement (.spdmHeartbeat ep session) := by
  intro op x h; cases h
theorem ideKm (ep : Endpoint) (session : Nat) (stream : Nat) (key : BitVec 256) (go : Bool) : Statement (.ideKm ep session stream key go) := by
  intro op x h; cases h
theorem cellarCoreFenceClear (i : Fin 3) (value : Dword) : Statement (.cellarCoreFenceClear i value) := by
  intro op x h; cases h
theorem cellarCoreFenceSet (i : Fin 3) (value : Dword) : Statement (.cellarCoreFenceSet i value) := by
  intro op x h; cases h
theorem cellarErrTailWrite (value : Dword) : Statement (.cellarErrTailWrite value) := by
  intro op x h; cases h
theorem cellarSelvGo : Statement (.cellarSelvGo) := by
  intro op x h; cases h
theorem hostSelvRunComplete (ecc : MemEcc) : Statement (.hostSelvRunComplete ecc) := by
  intro op x h; cases h
theorem admitDevice : Statement (.admitDevice) := by
  intro op x h; cases h
theorem svnCommit : Statement (.svnCommit) := by
  intro op x h; cases h
theorem selftestGo (value : Word) : Statement (.selftestGo value) := by
  intro op x h; cases h
theorem selftestCoreStart (core : Fin 192) : Statement (.selftestCoreStart core) := by
  intro op x h; cases h
theorem selftestCoreDone (core : Fin 192) (pass : Bool) : Statement (.selftestCoreDone core pass) := by
  intro op x h; cases h
theorem calGo (value : Word) : Statement (.calGo value) := by
  intro op x h; cases h
theorem calComplete : Statement (.calComplete) := by
  intro op x h; cases h
theorem portRetrainWrite (port : Fin 8) (value : Dword) : Statement (.portRetrainWrite port value) := by
  intro op x h; cases h
theorem portFabricWrite (value : Word) : Statement (.portFabricWrite value) := by
  intro op x h; cases h
theorem quadMaskGenWrite (q : Fin 8) (value : Dword) : Statement (.quadMaskGenWrite q value) := by
  intro op x h; cases h
theorem quadCtxModeWrite (q : Fin 8) (value : Word) : Statement (.quadCtxModeWrite q value) := by
  intro op x h; cases h
theorem pwrHorizonHostWrite (r : Fin 8) (value : Word) : Statement (.pwrHorizonHostWrite r value) := by
  intro op x h; cases h
theorem pwrPoolCapWrite (q : Fin 8) (value : Word) : Statement (.pwrPoolCapWrite q value) := by
  intro op x h; cases h
theorem divHostWrite (value : Word) : Statement (.divHostWrite value) := by
  intro op x h; cases h
theorem registerWrite (access : MmioAccess) : Statement (.registerWrite access) := by
  intro op x h; cases h
theorem cclkDividerChange : Statement (.cclkDividerChange) := by
  intro op x h; cases h
theorem shedStageChange (average : Nat) : Statement (.shedStageChange average) := by
  intro op x h; cases h
theorem s4LimitExpiry (q : Fin 8) : Statement (.s4LimitExpiry q) := by
  intro op x h; cases h
theorem tclkLoss : Statement (.tclkLoss) := by
  intro op x h; cases h
theorem tclkAbsent : Statement (.tclkAbsent) := by
  intro op x h; cases h
theorem thermalThrottleStep (tmax : Int) : Statement (.thermalThrottleStep tmax) := by
  intro op x h; cases h
theorem thermalCritical (tmax : Int) (sensor : Byte) : Statement (.thermalCritical tmax sensor) := by
  intro op x h; cases h
theorem thermalShutdown (tmax : Int) : Statement (.thermalShutdown tmax) := by
  intro op x h; cases h
theorem idleEnter (q : Fin 8) : Statement (.idleEnter q) := by
  intro op x h; cases h
theorem idleExit (q : Fin 8) (cause : IdleCause) : Statement (.idleExit q cause) := by
  intro op x h; cases h
theorem powerUp (input : Nat) : Statement (.powerUp input) := by
  intro op x h; cases h
theorem boot (found : BootFound) : Statement (.boot found) := by
  intro op x h; cases h
theorem powerDown : Statement (.powerDown) := by
  intro op x h; cases h
theorem inputUndervoltageOff (input : Nat) : Statement (.inputUndervoltageOff input) := by
  intro op x h; cases h
theorem inputOvervoltageOff (average : Nat) : Statement (.inputOvervoltageOff average) := by
  intro op x h; cases h
theorem railFault : Statement (.railFault) := by
  intro op x h; cases h
theorem leakDetect (wet : Bool) : Statement (.leakDetect wet) := by
  intro op x h; cases h
theorem tclkReturn : Statement (.tclkReturn) := by
  intro op x h; cases h
theorem thermalCritClear (tmax : Int) : Statement (.thermalCritClear tmax) := by
  intro op x h; cases h
theorem inputReturn (input : Nat) : Statement (.inputReturn input) := by
  intro op x h; cases h
theorem intermittentWindowExpiry (core : Fin 192) : Statement (.intermittentWindowExpiry core) := by
  intro op x h; cases h
theorem resetHistoryExpiry : Statement (.resetHistoryExpiry) := by
  intro op x h; cases h
theorem idleMmioAccess (access : MmioAccess) : Statement (.idleMmioAccess access) := by
  intro op x h; cases h

end Sys2Proof.Laws.Opcode
end

