-- ==== Sys2Proof/Tests/Slice0.lean ====
section
/-! SUPPORT. The model's own tests: an ill-formed term for each check of well-formedness, what single commands do on small
states with results worked out from the manual, and for each obligation with hypotheses a state and operands that meet
them. -/

namespace Sys2Proof.Tests

set_option Elab.async false

open Sys2Proof Sys2Proof.Machine

/-! ### Small states -/

/-- A number from its fields, each given by its lowest bit and its value. -/
def fields (xs : List (Nat × Nat)) : Nat := xs.foldl (fun a x => a + x.2 * 2 ^ x.1) 0

/-- An instruction word with GAP 1, from its other fields. -/
def word (op : Nat) (xs : List (Nat × Nat)) : InstrWord := BitVec.ofNat 128 (op + 2 ^ 8 + fields xs)

/-- A word of format S. -/
def wS (op d s1 s2 fn imm : Nat) : InstrWord := word op [(32, d), (40, s1), (48, s2), (56, fn), (64, imm)]

/-- A word of format T. -/
def wT (op dO dA dB dX mode sub imm : Nat) : InstrWord :=
  word op [(32, dO), (40, dA), (48, dB), (56, dX), (64, mode), (72, sub), (96, imm)]

/-- A word of format W. -/
def wW (op tgt cnt rph tcore tmod bkt : Nat) : InstrWord :=
  word op [(32, tgt), (40, cnt), (56, rph), (72, tcore), (80, tmod), (88, bkt)]

/-- A DENSE descriptor of two dimensions in core store (handle 0) or the tun (handle 1): base, handle, type, format, sizes,
row stride in bytes, and pads. -/
def image (base handle ty fm n m stride pad0 pad1 : Nat) : BitVec 512 :=
  BitVec.ofNat 512 (fields [(0, base), (48, handle), (64, ty), (68, fm), (72, 2), (80, pad0), (90, pad1), (128, n), (192, m),
    (216, stride), (256, 1), (320, 1), (384, 1), (448, 1)])

/-- One shuttle of core 0 stands at a word, due now, with every engine granted to it. -/
def live (sh : Shuttle) (w : InstrWord) (g : Core → Core) : State :=
  let c : Core := { cycle := 1, sched := true, imgF := [w], imgB := [w], imgU := [w],
                    plans := [[BitVec.ofNat 8 (0x55 * (shIdx sh + 1))]] }
  { State.reset with parts := [{ low := 0, size := 8, ctx := .running, map := [0] }]
                     cores := [(0, g (modSh c sh (fun x => { x with mode := .run })))] }

/-- The issue of that word. -/
def issue (sh : Shuttle) (w : InstrWord) : Issue := { core := 0, sh := sh, word := w, ups := Upsets.none }

/-- The state an outcome goes on to; the reset state for the others. -/
def out (o : Host.Outcome State Fault Refusal) : State :=
  match o with
  | .next t => t
  | _ => State.reset

/-- An instruction stands in its place, and more holds there. -/
theorem placed {op : Nat} {i : Issue} {s : State} (P : At → Prop) [DecidablePred P]
    (h : (place op i s).any (fun a => decide (P a)) = true) : ∃ a, place op i s = some a ∧ P a := by
  cases ha : place op i s with
  | none => simp [ha] at h
  | some a => exact ⟨a, rfl, by simpa [ha] using h⟩

/-- It stands ready, and more holds there. -/
theorem readied {op : Nat} {f : Fmt} {i : Issue} {s : State} (P : At → Prop) [DecidablePred P]
    (h : (place op i s).any (fun a => decide ((opcodeDefined (fldOp a.w) = true ∧ executes a = true ∧
      reservedConds f a.w = []) ∧ P a)) = true) : ∃ a, Ready op f i s a ∧ P a := by
  obtain ⟨a, h1, h2, h3⟩ := placed _ h
  exact ⟨a, ⟨h1, h2⟩, h3⟩

/-- It runs, and more holds there. -/
theorem runs {op : Nat} {i : Issue} {s : State} {x : At → Action} (P : At → Prop) [DecidablePred P]
    (h : (place op i s).any (fun a => decide ((opcodeDefined (fldOp a.w) = true ∧ (executes a = true ∧
      actionFault a (x a) = none ∧ (x a).hold = none) ∧ a.ups = Upsets.none) ∧ P a)) = true) :
    ∃ a, Runs op i s a (x a) ∧ P a := by
  obtain ⟨a, h1, ⟨h2, h3, h4⟩, h5⟩ := placed _ h
  exact ⟨a, ⟨h1, h2, h3, h4⟩, h5⟩

theorem readyWith {op : Nat} {f : Fmt} (i : Issue) (s : State) (P : At → Prop) [DecidablePred P]
    (h : (place op i s).any (fun a => decide ((opcodeDefined (fldOp a.w) = true ∧ executes a = true ∧
      reservedConds f a.w = []) ∧ P a)) = true) : ∃ i s a, Ready op f i s a ∧ P a := ⟨i, s, readied P h⟩

theorem runsWith {op : Nat} {x : At → Action} (i : Issue) (s : State) (P : At → Prop) [DecidablePred P]
    (h : (place op i s).any (fun a => decide ((opcodeDefined (fldOp a.w) = true ∧ (executes a = true ∧
      actionFault a (x a) = none ∧ (x a).hold = none) ∧ a.ups = Upsets.none) ∧ P a)) = true) :
    ∃ i s a, Runs op i s a (x a) ∧ P a := ⟨i, s, runs P h⟩

/-- What `scalarNamed` says, in a form that evaluates. -/
abbrev named (w : InstrWord) : Prop :=
  specBad (sD w) = false ∧ specFile (sD w) ≠ 3 ∧ specBad (sS1 w) = false ∧ (fldFlag w 0 = true ∨ specBad (sS2 w) = false)

theorem named_eq (w : InstrWord) : named w = scalarNamed w := rfl

/-! ### Ill-formed commands are refused -/

/-- A frame of a kind, otherwise empty. -/
def frame (k : Byte) : Frame :=
  { kind := k, addr := 0, prov := false, backup := false, poison := false, standIn := 0, srcCore := 0, srcShuttle := .f,
    tag := 0, inline := .empty, data := [] }

def rx (k : Byte) : Rx := { port := 0, sender := 0, frame := frame k }

def flit (slots : List (Nat × Slot)) : Flit :=
  { seq := 0, ack := 0, type := .data, port := 0, sender := 1, slots := slots, credit := [], shared := 0 }

def noBinary : Binary :=
  { code := 0x9600, fabric := 1, quadrants := 8, kq := [1, 0, 0, 0, 0, 0, 0, 0], profile := 1, cores := [], demand := [],
    fixups := [] }

def input (b : Binary) : LoadInput := { binary := some b, raw := [], alloc := [], params := [], bad := false }

def access (addr width : Nat) (value : Dword) : MmioAccess := { write := true, addr := addr, width := width, value := value }

def entry (opc : Byte) : CmdEntry :=
  { opc := opc, z1 := 0, tag := 7, z4 := 0, addr0 := 0, len0 := 0, addr1 := 0, len1 := 0, addr2 := 0, arg := 0, z56 := 0,
    bad := false }

theorem test_wf_upsets :
    Instr.wf (.nop { core := 0, sh := .f, word := 0, ups := { Upsets.none with storeDouble := [24576] } }) = false ∧
    Instr.wf (.add { core := 0, sh := .f, word := 0, ups := { Upsets.none with tunDouble := [16384] } }) = false ∧
    Instr.wf (.beamMm { core := 0, sh := .f, word := 0,
                        ups := { Upsets.none with detections := [⟨0, .product, 16384, 0, 1, 0, 0, 0⟩] } }) = false ∧
    Instr.wf (.beamMm { core := 0, sh := .f, word := 0,
                        ups := { Upsets.none with detections := [⟨0, .product, 16383, 0, 1, 0, 0, 0⟩] } }) = true := by decide +kernel

theorem test_wf_memory :
    Instr.wf (.hostSelvRunComplete { bad := [(.hbm, 576 * 2 ^ 24)], corrected := [] }) = false ∧
    Instr.wf (.hostSelvRunComplete { bad := [], corrected := [(.lpddr, 3072 * 2 ^ 24)] }) = false ∧
    Instr.wf (.hostSelvRunComplete { bad := [(.lpddr, 3072 * 2 ^ 24 - 1)], corrected := [] }) = true ∧
    Instr.wf (.patrolScrubRead .hbm (576 * 2 ^ 24) .clean) = false ∧
    Instr.wf (.patrolScrubRead .hbm (576 * 2 ^ 24 - 1) .clean) = true := by decide +kernel

theorem test_wf_frames :
    Instr.wf (.dataFrameReceive { rx 0 with frame := { frame 0 with standIn := 64 } }) = false ∧
    Instr.wf (.doneFrameReceive { rx 0 with frame := { frame 0 with srcCore := 256 } }) = false ∧
    Instr.wf (.writeFrameReceive { rx 0 with frame := { frame 0 with data := List.replicate 4097 0 } }) = false ∧
    Instr.wf (.writeFrameReceive { rx 0 with sender := 64 }) = false ∧
    Instr.wf (.writeFrameReceive { rx 0 with sender := 63 }) = true := by decide +kernel

theorem test_wf_flits :
    Instr.wf (.flitReceive 0 1 (flit (List.replicate 26 (0, .data []))) ⟨0, []⟩) = false ∧
    Instr.wf (.flitReceive 0 1 (flit [(32, .data [])]) ⟨0, []⟩) = false ∧
    Instr.wf (.flitReceive 0 1 (flit [(0, .data (List.replicate 65 0))]) ⟨0, []⟩) = false ∧
    Instr.wf (.flitReceive 0 1 { flit [] with port := 8 } ⟨0, []⟩) = false ∧
    Instr.wf (.flitReceive 0 1 { flit [] with sender := 64 } ⟨0, []⟩) = false ∧
    Instr.wf (.flitReceive 0 1 { flit [] with credit := [(32, 1)] } ⟨0, []⟩) = false ∧
    Instr.wf (.flitReceive 0 1 (flit (List.replicate 25 (31, .data []))) ⟨0, []⟩) = true ∧
    Instr.wf (.portBringUp 0 [⟨0, 8, 0⟩]) = false ∧ Instr.wf (.portBringUp 0 [⟨0, 7, 63⟩]) = true := by decide +kernel

theorem test_wf_ring :
    Instr.wf (.load 0 (entry 0) (input { noBinary with kq := [1] })) = false ∧
    Instr.wf (.load 0 (entry 0) (input { noBinary with cores := List.replicate 193 ⟨[], [], [], [], []⟩ })) = false ∧
    Instr.wf (.load 0 (entry 0) (input { noBinary with cores := [⟨[], [], [], [], [(256, 0)]⟩] })) = false ∧
    Instr.wf (.load 0 (entry 0) { input noBinary with alloc := List.replicate 4097 0 }) = false ∧
    Instr.wf (.load 0 (entry 0) { input noBinary with params := List.replicate 17 0 }) = false ∧
    Instr.wf (.load 0 (entry 0) (input noBinary)) = true ∧
    Instr.wf (.checkpoint 0 (entry 0) [⟨0, 0, 0, .hbm, 576 * 2 ^ 30, 1⟩]) = false ∧
    Instr.wf (.restore 0 (entry 0) [⟨0, 0, 0, .hbm, 576 * 2 ^ 30⟩]) = false ∧
    Instr.wf (.replay 0 (entry 0) [⟨0, 0, 0, .hbm, 576 * 2 ^ 30 - 1⟩]) = true := by decide +kernel

theorem test_wf_host :
    Instr.wf (.registerWrite (access 0x38 24 0)) = false ∧ Instr.wf (.mmioBadAccess (access (2 ^ 25 - 4) 64 0)) = false ∧
    Instr.wf (.idleMmioAccess (access 0x38 32 (2 ^ 32))) = false ∧ Instr.wf (.registerWrite (access 0x38 64 (2 ^ 32))) = true ∧
    Instr.wf (.mmioBadAccess (access (2 ^ 25 - 1) 8 255)) = true ∧
    Instr.wf (.hdmHostRead (2 ^ 40) false MemEcc.clean) = false ∧ Instr.wf (.hdmHostRead 32 false MemEcc.clean) = false ∧
    Instr.wf (.hdmHostRead (2 ^ 40 - 64) false MemEcc.clean) = true ∧ Instr.wf (.hdmHostWrite 63 [1, 2]) = false ∧
    Instr.wf (.hdmHostWrite 62 [1, 2]) = true ∧ Instr.wf (.biSnoopResponse (2 * (3072 * 2 ^ 24) + 2)) = false ∧
    Instr.wf (.cxlForeignRequest 0 true (2 ^ 64)) = false ∧ Instr.wf (.cxlLinkTrained 3 ⟨64, none⟩) = false ∧
    Instr.wf (.cxlLinkTrained 4 ⟨64, none⟩) = true ∧ Instr.wf (.spdmChallenge .cxl 0 []) = false ∧
    Instr.wf (.spdmGetMeasurements .i3c 0 [0]) = false ∧
    Instr.wf (.spdmChallenge .cxl 0 (List.replicate 32 0)) = true := by decide +kernel

theorem test_wf_power :
    Instr.wf (.shedStageChange 65536) = false ∧ Instr.wf (.thermalThrottleStep 32768) = false ∧
    Instr.wf (.thermalCritical (-32769) 0) = false ∧ Instr.wf (.thermalShutdown 500) = true ∧
    Instr.wf (.thermalCritClear 40000) = false ∧ Instr.wf (.powerUp 65536) = false ∧
    Instr.wf (.inputUndervoltageOff 65536) = false ∧ Instr.wf (.inputOvervoltageOff 65536) = false ∧
    Instr.wf (.inputReturn 65536) = false ∧ Instr.wf (.boot ⟨true, true, true, true, 16, 64⟩) = false ∧
    Instr.wf (.boot ⟨true, true, true, true, 8, 64⟩) = true := by decide +kernel

/-! ### The queue, the invariants and the general rules of an issue -/

/-- A word of ADD that reads a0 and a1 and writes a2. -/
def wAdd : InstrWord := wS 0x08 2 0 1 0 0

/-- Core 0 about to add 5 and 7. -/
def sAdd : State := live .f wAdd (fun c => { c with regs := { c.regs with a := [(0, 5), (1, 7)] } })

theorem witness_QueueStep :
    ({ State.reset with pending := [.leakDetect true] } : State).pending = [.leakDetect true] ∧
    State.reset.pending = [] ∧ ({ State.reset with power := { State.reset.power with rails := false } } : State).pending = []
    := by decide +kernel

theorem witness_StepKeepsInvariant : ∃ s t, Inv s ∧ step s = .next t ∧ s ≠ t :=
  ⟨{ State.reset with pending := [.leakDetect true] }, _, ⟨by decide, by decide, by decide⟩, rfl, by decide⟩

theorem witness_FusesHold : ∃ t, step { State.reset with pending := [.leakDetect true] } = .next t := ⟨_, rfl⟩

theorem witness_ExecLeavesQueue : ∃ t, exec (.leakDetect true) State.reset = .next t := ⟨_, rfl⟩

theorem witness_InstructionCompletes :
    ∃ c op i m s a, Instr.issue c = some (op, i) ∧ actionOf c = some m ∧ place op i s = some a ∧
      opcodeDefined (fldOp a.w) = true ∧ clean a (m a) := by
  obtain ⟨a, h, -⟩ := runs (op := 0x08) (i := issue .f wAdd) (s := sAdd) (x := actAdd) (fun _ => True) (by decide +kernel)
  exact ⟨.add (issue .f wAdd), 0x08, _, actAdd, _, a, rfl, rfl, h.1, h.2.1, h.2.2.1⟩

/-- A word of ADD whose FN is undefined. -/
def wBad : InstrWord := wS 0x08 2 0 1 1 0

theorem witness_InstructionFaults :
    ∃ c op i m s a k d, Instr.issue c = some (op, i) ∧ actionOf c = some m ∧ place op i s = some a ∧
      opcodeDefined (fldOp a.w) = true ∧ actionFault a (m a) = some (k, d) := by
  obtain ⟨a, h1, h2, h3⟩ := placed (op := 0x08) (i := issue .f wBad) (s := live .f wBad id)
    (fun a => opcodeDefined (fldOp a.w) = true ∧ actionFault a (actAdd a) = some (2, 56)) (by decide +kernel)
  exact ⟨.add (issue .f wBad), 0x08, _, actAdd, _, a, 2, 56, rfl, rfl, h1, h2, h3⟩

/-- PEN with predicate p0, which is 0. -/
def pen (w : InstrWord) : InstrWord := w ||| BitVec.ofNat 128 (2 ^ 23)

/-- BEAM.ZERO, predicated off. -/
def wOff : InstrWord := pen (wT 0x22 0 0 0 0 0 0 0)

theorem witness_PredicatedOff :
    ∃ c op i m s a u, Instr.issue c = some (op, i) ∧ actionOf c = some m ∧ place op i s = some a ∧
      opcodeDefined (fldOp a.w) = true ∧ waitOpcode op = false ∧ executes a = false ∧ actionFault a (m a) = none ∧
      (m a).eng = some u := by
  obtain ⟨a, h1, h2, h3, h4, h5⟩ := placed (op := 0x22) (i := issue .b wOff) (s := live .b wOff id)
    (fun a => opcodeDefined (fldOp a.w) = true ∧ executes a = false ∧ actionFault a (actBeamZero a) = none ∧
      (actBeamZero a).eng.isSome = true) (by decide +kernel)
  obtain ⟨u, hu⟩ := Option.isSome_iff_exists.1 h5
  exact ⟨.beamZero (issue .b wOff), 0x22, _, actBeamZero, _, a, u, rfl, rfl, h1, h2, rfl, h3, h4, hu⟩

theorem witness_UndefinedOpcodeFaults : ∃ i s a, place 0 i s = some a ∧ opcodeDefined (fldOp a.w) = false := by
  obtain ⟨a, h⟩ := placed (op := 0) (i := issue .f (word 0x06 [])) (s := live .f (word 0x06 []) id)
    (fun a => opcodeDefined (fldOp a.w) = false) (by decide +kernel)
  exact ⟨_, _, a, h⟩

/-- A word of NOP with its last FLAGS bit set. -/
def wNop31 : InstrWord := word 0 [(31, 1)]

theorem witness_ReservedBitFaults :
    ∃ c op i m s a b, Instr.issue c = some (op, i) ∧ actionOf c = some m ∧ place op i s = some a ∧
      opcodeDefined (fldOp a.w) = true ∧ b < 128 ∧
      (a.w.toNat &&& reservedMask (m a).fmt (fldPen a.w)).testBit b = true := by
  obtain ⟨a, h1, h2, h3⟩ := placed (op := 0) (i := issue .f wNop31) (s := live .f wNop31 id)
    (fun a => opcodeDefined (fldOp a.w) = true ∧
      (a.w.toNat &&& reservedMask (actNop a).fmt (fldPen a.w)).testBit 31 = true) (by decide +kernel)
  exact ⟨.nop (issue .f wNop31), 0, _, actNop, _, a, 31, rfl, rfl, h1, h2, by decide, h3⟩

/-! ### Scalar instructions -/

/-- The register that a scalar word leaves in flight to its destination. -/
def inFlight (o : Host.Outcome State Fault Refusal) : List (Nat × Effect) :=
  (getCore (out o) 0).flight.map (fun f => (f.due, f.effect))

theorem test_add_wraps :
    inFlight (exec (.add (issue .f wAdd)) sAdd) = [(2, .reg 2 12)] ∧
    inFlight (exec (.add (issue .f wAdd))
      (live .f wAdd (fun c => { c with regs := { c.regs with a := [(0, 0xFFFFFFFFFFFFFFFF), (1, 2)] } }))) = [(2, .reg 2 1)]
    := by decide +kernel

/-- A count register saturates at 0 and at 2^32 − 1 (R109). -/
theorem test_counts_saturate :
    inFlight (exec (.subtract (issue .f (wS 0x09 0x40 0 1 0 0)))
      (live .f (wS 0x09 0x40 0 1 0 0) (fun c => { c with regs := { c.regs with a := [(0, 5), (1, 7)] } }))) =
      [(2, .reg 0x40 0)] ∧
    inFlight (exec (.mul (issue .f (wS 0x0A 0x40 0 0 0 0)))
      (live .f (wS 0x0A 0x40 0 0 0 0) (fun c => { c with regs := { c.regs with a := [(0, 0x10000)] } }))) =
      [(2, .reg 0x40 0xFFFFFFFF)] := by decide +kernel

/-- a0 = 0xF0F0, a1 = 0xFF00: AND, OR, XOR, ANDN. -/
theorem test_logic :
    [0, 1, 2, 3].map (fun fn => inFlight (exec (.logic (issue .f (wS 0x0B 2 0 1 fn 0)))
      (live .f (wS 0x0B 2 0 1 fn 0) (fun c => { c with regs := { c.regs with a := [(0, 0xF0F0), (1, 0xFF00)] } })))) =
    [[(2, .reg 2 0xF000)], [(2, .reg 2 0xFFF0)], [(2, .reg 2 0x0FF0)], [(2, .reg 2 0x00F0)]] := by decide +kernel

/-- A shift amount is taken modulo 64, and the arithmetic shift keeps the sign. -/
theorem test_shf :
    [0, 1, 2].map (fun fn => inFlight (exec (.shf (issue .f (wS 0x0C 2 0 1 fn 0)))
      (live .f (wS 0x0C 2 0 1 fn 0) (fun c => { c with regs := { c.regs with a := [(0, 0x8000000000000010), (1, 68)] } })))) =
    [[(2, .reg 2 0x100)], [(2, .reg 2 0x0800000000000001)], [(2, .reg 2 0xF800000000000001)]] := by decide +kernel

/-- a0 = −1 and a1 = 1: EQ, NE, LT, LTU, LE, LEU. -/
theorem test_cmp :
    [0, 1, 2, 3, 4, 5].map (fun fn => inFlight (exec (.cmp (issue .f (wS 0x0E 0x81 0 1 fn 0)))
      (live .f (wS 0x0E 0x81 0 1 fn 0) (fun c => { c with regs := { c.regs with a := [(0, 0xFFFFFFFFFFFFFFFF), (1, 1)] } })))) =
    [[(2, .reg 0x81 0)], [(2, .reg 0x81 1)], [(2, .reg 0x81 1)], [(2, .reg 0x81 0)], [(2, .reg 0x81 1)], [(2, .reg 0x81 0)]]
    := by decide +kernel

/-- SEL takes S1 where the predicate that FN names holds. -/
theorem test_sel :
    inFlight (exec (.sel (issue .f (wS 0x0F 2 0 1 3 0)))
      (live .f (wS 0x0F 2 0 1 3 0) (fun c => { c with regs := { c.regs with a := [(0, 5), (1, 7)], p := 8 } }))) =
      [(2, .reg 2 5)] ∧
    inFlight (exec (.sel (issue .f (wS 0x0F 2 0 1 2 0)))
      (live .f (wS 0x0F 2 0 1 2 0) (fun c => { c with regs := { c.regs with a := [(0, 5), (1, 7)], p := 8 } }))) =
      [(2, .reg 2 7)] := by decide +kernel

/-- MOV of an immediate, and of a token into the q file (R104). -/
theorem test_mov :
    inFlight (exec (.mov (issue .f (word 0x0D [(24, 1), (32, 2), (64, 0x1234)])))
      (live .f (word 0x0D [(24, 1), (32, 2), (64, 0x1234)]) id)) = [(2, .reg 2 0x1234)] ∧
    inFlight (exec (.mov (issue .f (wS 0x0D 0xC1 0xC0 0 0 0)))
      (live .f (wS 0x0D 0xC1 0xC0 0 0 0) (fun c => { c with regs := { c.regs with q := [(0, 0x8801)] } }))) =
      [(2, .reg 0xC1 0x8801)] := by decide +kernel

theorem witness_ScalarArithmetic :
    (∃ i s a, Ready 0x08 .s i s a ∧ sFn a.w = 0 ∧ named a.w) ∧ (∃ i s a, Ready 0x09 .s i s a ∧ sFn a.w = 0 ∧ named a.w) ∧
    (∃ i s a, Ready 0x0A .s i s a ∧ sFn a.w = 0 ∧ named a.w) :=
  let w1 := wS 0x09 0x4F 0x1F 0xBF 0 0
  let w2 := wS 0x0A 0x1F 0xCF 0x00 0 0
  ⟨readyWith (issue .f wAdd) sAdd _ (by decide +kernel), readyWith (issue .f w1) (live .f w1 id) _ (by decide +kernel),
    readyWith (issue .f w2) (live .f w2 id) _ (by decide +kernel)⟩

theorem witness_ScalarLogic :
    (∃ i s a, Ready 0x0B .s i s a ∧ sFn a.w = 3 ∧ named a.w) ∧ (∃ i s a, Ready 0x0C .s i s a ∧ sFn a.w = 2 ∧ named a.w) :=
  let w1 := wS 0x0B 0x02 0x00 0x01 3 0
  let w2 := wS 0x0C 0x02 0x00 0x01 2 0
  ⟨readyWith (issue .b w1) (live .b w1 id) _ (by decide +kernel), readyWith (issue .u w2) (live .u w2 id) _ (by decide +kernel)⟩

theorem witness_ScalarMoves :
    (∃ i s a, Ready 0x0D .s i s a ∧ sFn a.w = 0 ∧ specBad (sD a.w) = false ∧ fldFlag a.w 0 = true ∧ specFile (sD a.w) = 3 ∧
      sImm a.w = 0) ∧
    (∃ i s a, Ready 0x0D .s i s a ∧ sFn a.w = 0 ∧ specBad (sD a.w) = false ∧ fldFlag a.w 0 = false ∧
      specBad (sS1 a.w) = false ∧ specFile (sD a.w) = 3 ∧ specFile (sS1 a.w) = 3) ∧
    (∃ i s a, Ready 0x0E .s i s a ∧ sFn a.w = 5 ∧ named a.w ∧ specFile (sD a.w) = 2) ∧
    (∃ i s a, Ready 0x0F .s i s a ∧ sFn a.w = 63 ∧ named a.w) :=
  let w1 := word 0x0D [(24, 1), (32, 0xC1)]
  let w2 := wS 0x0D 0xC1 0xC0 0 0 0
  let w3 := wS 0x0E 0xBF 0x00 0x01 5 0
  let w4 := wS 0x0F 0x02 0x00 0x01 63 0
  ⟨readyWith (issue .f w1) (live .f w1 id) _ (by decide +kernel), readyWith (issue .f w2) (live .f w2 id) _ (by decide +kernel),
    readyWith (issue .f w3) (live .f w3 id) _ (by decide +kernel), readyWith (issue .f w4) (live .f w4 id) _ (by decide +kernel)⟩

theorem witness_TokensNotForged :
    (∃ i s a, Ready 0x08 .s i s a ∧ sFn a.w ≤ 0 ∧ specFile (sD a.w) = 3) ∧
    (∃ i s a, Ready 0x0D .s i s a ∧ sFn a.w ≤ 0 ∧ specFile (sD a.w) = 3 ∧
      ¬ ((fldFlag a.w 0 = true ∧ sImm a.w = 0) ∨
        (fldFlag a.w 0 = false ∧ specFile (sS1 a.w) = 3 ∧ specBad (sS1 a.w) = false))) :=
  let w1 := wS 0x08 0xC0 0 0 0 0
  let w2 := word 0x0D [(24, 1), (32, 0xC1), (64, 1)]
  ⟨readyWith (issue .f w1) (live .f w1 id) _ (by decide +kernel), readyWith (issue .f w2) (live .f w2 id) _ (by decide +kernel)⟩

/-- The place of ADD on core 0. -/
def atAdd (s : State) (sh : Shuttle) : At :=
  { s := s, n := 0, sh := sh, w := wAdd, ups := Upsets.none, p := { low := 0, size := 8 }, lc := 0, c := getCore s 0, r := {} }

/-- A register write of a shuttle in flight on core 0, to land on cycle 2. -/
def sFlight (sh : Shuttle) : State :=
  live .f wAdd (fun c => { c with flight := [{ due := 2, order := 0, sh := sh, access := none, verdict := none,
                                               effect := .reg 2 9 }] })

theorem witness_RegisterWriteIssued :
    (getCore sAdd 0).flight = [] ∧
    (∀ sh x : Shuttle, ∀ f ∈ (getCore (sFlight sh) 0).flight, x ≠ sh →
      f.due = (getCore (sFlight sh) 0).cycle + 1 ∧ f.sh ≠ x ∧ ∃ w, f.effect = .reg (BitVec.ofNat 8 2) w) ∧
    shIdx (atAdd (sFlight .b) .f).sh < shIdx .b ∧ shIdx .b < shIdx (atAdd (sFlight .b) .u).sh := by
  refine ⟨by decide +kernel, ?_, by decide +kernel, by decide +kernel⟩
  intro sh x f hf hx
  have h : f = { due := 2, order := 0, sh := sh, access := none, verdict := none, effect := .reg 2 9 } := by
    cases sh <;> simpa [sFlight, live, getCore, tget, modSh, setSh] using hf
  subst h
  exact ⟨by cases sh <;> rfl, fun e => hx e.symm, 9, rfl⟩

theorem witness_RegisterWriteLands :
    ∃ f ∈ (getCore (sFlight .f) 0).flight, f.effect = .reg 2 9 ∧ f.access = none ∧ f.verdict = none ∧
      specBad (2 : Byte).toNat = false := by decide +kernel

theorem witness_ControlCompletes :
    (∃ i s a, Ready 0x00 .s i s a ∧ sFn a.w = 0) ∧
    (∃ i s a, Ready 0x01 .s i s a ∧ sFn a.w = 0 ∧
      branchOk (imgOf a.c a.sh) (pcOf a.r a.sh).toNat (sImm a.w % 2 ^ 32) = true) ∧
    (∃ i s a, Ready 0x02 .s i s a ∧ sFn a.w = 0 ∧ specFile (sS1 a.w) = 1 ∧ specBad (sS1 a.w) = false ∧
      regRead a.r (sS1 a.w) - 1 = 0) ∧
    (∃ i s a, Ready 0x02 .s i s a ∧ sFn a.w = 0 ∧ specFile (sS1 a.w) = 1 ∧ specBad (sS1 a.w) = false ∧
      regRead a.r (sS1 a.w) - 1 ≠ 0 ∧ branchOk (imgOf a.c a.sh) (pcOf a.r a.sh).toNat (sImm a.w % 2 ^ 32) = true) ∧
    (∃ i s a, Ready 0x03 .s i s a ∧ sFn a.w = 0) ∧
    (∃ i s a, Ready 0x04 .s i s a ∧ sFn a.w = 0 ∧ sImm a.w % 4 < a.c.plans.length) :=
  let l := wS 0x02 0 0x4F 0 0 0
  ⟨readyWith (issue .f (word 0 [])) (live .f (word 0 []) id) _ (by decide +kernel),
    readyWith (issue .u (word 1 [])) (live .u (word 1 []) id) _ (by decide +kernel),
    readyWith (issue .f l) (live .f l (fun c => { c with regs := { c.regs with c := [(15, 1)] } })) _ (by decide +kernel),
    readyWith (issue .f l) (live .f l (fun c => { c with regs := { c.regs with c := [(15, 2)] } })) _ (by decide +kernel),
    readyWith (issue .b (word 3 [])) (live .b (word 3 []) id) _ (by decide +kernel),
    readyWith (issue .f (word 4 [])) (live .f (word 4 []) id) _ (by decide +kernel)⟩

theorem witness_TrapFaults : ∃ i s a, Ready 0x05 .s i s a ∧ sFn a.w = 0 ∧ a.s.errors.store.length < 512 :=
  ⟨_, _, readied (i := issue .f (word 5 [])) (s := live .f (word 5 []) id) _ (by decide +kernel)⟩

/-- TRAP with immediate 0xABCD: CORE_FAULT holds PC 0, kind 0x0F, FIRST and the DETAIL. -/
theorem test_trap :
    let t := out (exec (.trap (issue .f (word 5 [(64, 0xABCD)]))) (live .f (word 5 [(64, 0xABCD)]) id))
    (getCore t 0).f.fault = 0xABCD020F00000000 ∧ (getCore t 0).f.mode = .halted := by decide +kernel

/-- LOOP takes its branch while the count stays above 0, and BR goes where it says. -/
theorem test_branches :
    let l := wS 0x02 0 0x40 0 0 0
    let run := fun n : Word => out (exec (.loop (issue .f l)) (live .f l (fun c =>
      { c with regs := { c.regs with c := [(0, n)] } })))
    (getCore (run 1) 0).regs.pcF = 1 ∧ (getCore (run 3) 0).regs.pcF = 0 ∧
    (getCore (run 3) 0).flight.map (fun f => f.effect) = [.reg 0x40 2] := by decide +kernel

/-! ### Descriptors -/

/-- A descriptor of core store from byte 0: BF16, 32 × 1. -/
def dSrc : BitVec 512 := image 0 0 tyBF16 fmDense 32 1 64 0 0

/-- Its bytes at the start of core store, and it as entry 1. -/
def sDesc (w : InstrWord) : State :=
  live .f w (fun c => { c with store := poke [] (0, 512, dSrc.toNat), desc := [(1, some dSrc)] })

/-- Two descriptors in core store: a sound one and one of no rank. -/
def sTable (w : InstrWord) : State :=
  live .f w (fun c => { c with store := pokeAll [] [(0, 512, dSrc.toNat), (512, 512, (setBits dSrc 72 3 0).toNat)],
                               desc := [(1, some dSrc)] })

theorem test_descMake :
    inFlight (exec (.descMake (issue .f (wT 0x10 2 1 0 0 0 0 0))) (sDesc (wT 0x10 2 1 0 0 0 0 0))) = [(5, .desc 2 dSrc)] := by
  decide +kernel

/-- A rank of 0 fails validation for reason 0x03 (R139): kind 0x05, and the entry keeps its value. -/
theorem test_descSet_refused :
    let w := wT 0x11 1 0 0 0 0 3 0x0002
    let t := out (exec (.descSet (issue .f w)) (sDesc w))
    bits (getCore t 0).f.fault 32 8 = 5 ∧ bits (getCore t 0).f.fault 48 16 = 3 ∧
    tget none (getCore t 0).desc 1 = some dSrc := by decide +kernel

/-- Entry 2 of the table has no rank: the first entry lands, and DETAIL names entry 3 and reason 0x03 (R113). -/
theorem test_descLdt_stops :
    let w := wT 0x13 2 1 0 0 0 0 1
    let t := out (exec (.descLdt (issue .f w)) (sTable w))
    bits (getCore t 0).f.fault 32 8 = 5 ∧ bits (getCore t 0).f.fault 48 16 = 3 + 256 * 3 ∧
    (getCore t 0).flight.map (fun f => f.effect) = [.desc 2 dSrc] := by decide +kernel

theorem witness_DescriptorsCreated :
    (∃ i s a, Ready 0x10 .t i s a ∧ tMode a.w = 0 ∧ tSub a.w = 0 ∧ entryOf a (tDA a.w) = some dSrc ∧ dHandle dSrc = 0 ∧
      dBase dSrc + tImm a.w + 64 ≤ storeBytes ∧ descReason a.s a.p (imageAt a.c.store (dBase dSrc + tImm a.w)) = none ∧
      a.ups.storeDouble = [] ∧ a.ups.corrected = 0) ∧
    (∃ i s a, Ready 0x11 .t i s a ∧ tMode a.w = 0 ∧ descSetDefined (tSub a.w) = true ∧ entryOf a (tDO a.w) = some dSrc ∧
      descSetImage dSrc (tSub a.w) (tImm a.w) = some (setBits dSrc 192 24 2) ∧
      descReason a.s a.p (setBits dSrc 192 24 2) = none) ∧
    (∃ i s a, Ready 0x12 .t i s a ∧ tMode a.w = 0 ∧ tSub a.w ≤ 5 ∧ entryOf a (tDO a.w) = some dSrc ∧
      offsBase dSrc (tSub a.w) (signed 32 (tImm a.w)) = some ((64 * 3 : Nat) : Int) ∧
      descReason a.s a.p (setBits dSrc 0 48 (64 * 3)) = none) :=
  let w1 := wT 0x10 2 1 0 0 0 0 0
  let w2 := wT 0x11 1 0 0 0 0 9 2
  let w3 := wT 0x12 1 0 0 0 0 1 3
  ⟨readyWith (issue .f w1) (sDesc w1) _ (by decide +kernel), readyWith (issue .f w2) (sDesc w2) _ (by decide +kernel),
    readyWith (issue .f w3) (sDesc w3) _ (by decide +kernel)⟩

theorem witness_DescriptorTablesMove :
    (∃ i s a, Ready 0x13 .t i s a ∧ tMode a.w = 0 ∧ tSub a.w = 0 ∧ entryOf a (tDA a.w) = some dSrc ∧ dHandle dSrc = 0 ∧
      tDO a.w + (tImm a.w % 256 + 1) = 256 ∧ dBase dSrc + 64 * (tImm a.w % 256 + 1) ≤ storeBytes ∧
      a.ups.storeDouble = [] ∧ a.ups.corrected = 0 ∧
      ∀ j : Nat, j < tImm a.w % 256 + 1 → descReason a.s a.p (imageAt a.c.store (dBase dSrc + 64 * j)) = none) ∧
    (∃ i s a, Ready 0x13 .t i s a ∧ tMode a.w = 0 ∧ tSub a.w = 0 ∧ entryOf a (tDA a.w) = some dSrc ∧
      tDO a.w + (tImm a.w % 256 + 1) ≤ 256 ∧ 1 < tImm a.w % 256 + 1 ∧
      (∀ k : Nat, k < 1 → descReason a.s a.p (imageAt a.c.store (dBase dSrc + 64 * k)) = none) ∧
      descReason a.s a.p (imageAt a.c.store (dBase dSrc + 64 * 1)) = some 3) ∧
    (∃ i s a, Ready 0x14 .t i s a ∧ tMode a.w = 0 ∧ tSub a.w = 0 ∧ entryOf a (tDA a.w) = some dSrc ∧
      entryOf a (tDO a.w) = some dSrc ∧ dBase dSrc + 64 ≤ storeBytes) :=
  let w1 := wT 0x13 255 1 0 0 0 0 0
  let w2 := wT 0x13 2 1 0 0 0 0 1
  let w3 := wT 0x14 1 1 0 0 0 0 0
  ⟨readyWith (issue .f w1) (sTable w1) _ (by decide +kernel), readyWith (issue .f w2) (sTable w2) _ (by decide +kernel),
    readyWith (issue .f w3) (sDesc w3) _ (by decide +kernel)⟩

/-! ### Waits, requests, signals and barriers -/

/-- A core with one bucket open in its partition and one request outstanding on queue 0. -/
def sWait (w : InstrWord) (q : RegFile → RegFile) (reqs : List Request) (next : Nat) : State :=
  { live .f w (fun c => { c with regs := q c.regs, queues := [(0, { oldest := 0, next := next, reqs := reqs })] }) with
    parts := [{ low := 0, size := 8, ctx := .running, map := [0],
                buckets := [(5, ⟨256, 1, 1, 100, 0, 0, 1, 0, [], false⟩)] }] }

theorem witness_WaitsHoldTheirShuttle :
    (∃ i s a, Ready 0x19 .w i s a ∧ specFile (wTgt a.w) = 3 ∧ specBad (wTgt a.w) = false ∧
      regRead a.r (wTgt a.w) / 2 ^ 15 % 2 = 1 ∧
      (regRead a.r (wTgt a.w) % 2 ^ 11 + 2048 - (tget {} a.c.queues (regRead a.r (wTgt a.w) / 2 ^ 11 % 16)).oldest) % 2048 <
        ((tget {} a.c.queues (regRead a.r (wTgt a.w) / 2 ^ 11 % 16)).next + 2048 -
          (tget {} a.c.queues (regRead a.r (wTgt a.w) / 2 ^ 11 % 16)).oldest) % 2048) ∧
    (∃ i s a, Ready 0x19 .w i s a ∧ specFile (wTgt a.w) = 3 ∧ specBad (wTgt a.w) = false ∧
      ¬ (regRead a.r (wTgt a.w) / 2 ^ 15 % 2 = 1)) ∧
    (∃ i s a, Ready 0x71 .w i s a ∧ wCnt a.w = 0) ∧ (∃ i s a, Ready 0x71 .w i s a ∧ wCnt a.w ≠ 0) ∧
    (∃ i s a, Ready 0x72 .w i s a ∧ wTgt a.w = 2 ∧ wCnt a.w = 0 ∧ wTcore a.w = 0 ∧ wTmod a.w = 0 ∧ wBkt a.w = 0) ∧
    (∃ i s a, Ready 0x73 .w i s a ∧ (bucketRec a.p (BitVec.ofNat 16 (wBkt a.w))).isSome = true) ∧
    (∃ i s a, Ready 0x78 .w i s a ∧ True) ∧ (∃ i s a, Ready 0x79 .w i s a ∧ True) ∧
    (∃ i s a, Ready 0x7A .w i s a ∧ True) ∧ (∃ i s a, Ready 0x7B .w i s a ∧ True) :=
  let s := fun (w : InstrWord) => sWait w (fun r => { r with q := [(0, 0x8000), (1, 0x0000)] }) [] 1
  ⟨readyWith (issue .f (wW 0x19 0xC0 0 0 0 0 0)) (s (wW 0x19 0xC0 0 0 0 0 0)) _ (by decide +kernel),
    readyWith (issue .f (wW 0x19 0xC1 0 0 0 0 0)) (s (wW 0x19 0xC1 0 0 0 0 0)) _ (by decide +kernel),
    readyWith (issue .f (wW 0x71 3 0 0 0 0 0)) (s (wW 0x71 3 0 0 0 0 0)) _ (by decide +kernel),
    readyWith (issue .f (wW 0x71 3 65535 0 0 0 0)) (s (wW 0x71 3 65535 0 0 0 0)) _ (by decide +kernel),
    readyWith (issue .f (wW 0x72 2 0 511 0 0 0)) (s (wW 0x72 2 0 511 0 0 0)) _ (by decide +kernel),
    readyWith (issue .f (wW 0x73 0 0 0 0 0 5)) (s (wW 0x73 0 0 0 0 0 5)) _ (by decide +kernel),
    readyWith (issue .f (wW 0x78 0 0 0 0 0 0)) (s (wW 0x78 0 0 0 0 0 0)) _ (by decide +kernel),
    readyWith (issue .f (wW 0x79 0 0 0 0 0 0)) (s (wW 0x79 0 0 0 0 0 0)) _ (by decide +kernel),
    readyWith (issue .f (wW 0x7A 0 0 0 0 0 0)) (s (wW 0x7A 0 0 0 0 0 0)) _ (by decide +kernel),
    readyWith (issue .f (wW 0x7B 0 0 0 0 0 0)) (s (wW 0x7B 0 0 0 0 0 0)) _ (by decide +kernel)⟩

theorem witness_PredicatedOffWaits :
    (∃ i s a, place 0x78 i s = some a ∧ opcodeDefined (fldOp a.w) = true ∧ executes a = false ∧
      actionFault a (actFence 0 a) = none ∧ waitOpcode 0x78 = true) ∧
    (∃ i s a, place 0x01 i s = some a ∧ opcodeDefined (fldOp a.w) = true ∧ executes a = false ∧
      actionFault a (actBr a) = none) :=
  ⟨⟨_, _, placed (i := issue .f (pen (wW 0x78 0 0 0 0 0 0))) (s := live .f (pen (wW 0x78 0 0 0 0 0 0)) id) _
      (by decide +kernel)⟩,
    ⟨_, _, placed (i := issue .f (pen (word 1 []))) (s := live .f (pen (word 1 [])) id) _ (by decide +kernel)⟩⟩

/-- The F shuttle of core 0 in a wait, with the plan's phase at 0. -/
def sWaiting (w : Wait) (fault : Option (Nat × Nat × Nat)) : State :=
  let s := live .b wAdd (fun c => { c with f := { c.f with mode := .wait, wait := some w } })
  { s with cc := 5, parts := s.parts.map (fun p => { p with faultFirst := fault }) }

def waitFor (kind : WaitKind) (met : Option Nat) (poisoned : Bool) : Wait :=
  { kind := kind, rph := 1, acq := true, issued := 1, metAt := met, poisoned := poisoned }

/-- The state in which a wait stands ready to resume. -/
def mayResume (s0 : State) (w : Wait) (fault : Bool) (t : Option Nat) : Prop :=
  let s := modCore (landAll s0 0) 0 (takePlan s0.cc)
  (shOf (getCore s 0) .f).wait = some w ∧ (shOf (getCore s 0) .f).mode = .wait ∧
  ∃ p, corePart s 0 = some p ∧ p.ctx = .running ∧ p.map.contains 0 = true ∧ p.faultFirst.isSome = fault ∧
    p.stopping = false ∧ p.s4Hold = none ∧ w.metAt = t ∧ (∀ x, t = some x → x < s.cc) ∧
    (getCore s 0).sched = true ∧ 0 < planLen (getCore s 0) ∧ (getCore s 0).phase = w.rph % planLen (getCore s 0)

theorem witness_WaitResumes :
    mayResume (sWaiting (waitFor (.sem 0 1) none false) (some (3, 0, 1))) (waitFor (.sem 0 1) none false) true none ∧
    mayResume (sWaiting (waitFor (.sem 0 1) none false) none) (waitFor (.sem 0 1) none false) false none ∧
    mayResume (sWaiting (waitFor (.sem 0 1) (some 4) false) none) (waitFor (.sem 0 1) (some 4) false) false (some 4) ∧
    mayResume (sWaiting (waitFor (.bq 0 0) (some 4) true) none) (waitFor (.bq 0 0) (some 4) true) false (some 4) := by
  refine ⟨?_, ?_, ?_, ?_⟩ <;>
    refine ⟨by decide +kernel, by decide +kernel, _, rfl, ?_, ?_, ?_, ?_, ?_, ?_, ?_, ?_, ?_, ?_⟩ <;>
    first
    | (intro x h; cases h <;> decide +kernel)
    | decide +kernel

/-- It resumes on its cycle, and the same wait met in this very cycle does not. -/
theorem test_waitResume :
    (getCore (out (exec (.waitResume 0 .f) (sWaiting (waitFor (.sem 0 1) (some 4) false) none))) 0).f.mode = .run ∧
    (getCore (out (exec (.waitResume 0 .f) (sWaiting (waitFor (.sem 0 1) (some 5) false) none))) 0).f.mode = .wait := by
  decide +kernel

def request (seq : Nat) (complete : Bool) : Request :=
  { seq := seq, kind := 0, dl := dSrc, dr := image 0 2 tyBF16 fmDense 32 1 64 0 0, di := 0, offset := 0, access := 0, sh := .f,
    token := 0x8000, acq := false, held := false, complete := complete, poisoned := false, dest := none, sent := false,
    segs := [], got := [], bad := [], sentAt := 0 }

/-- A core whose F shuttle waits, with two requests on queue 0 and semaphore 3 at 2. -/
def coreWaiting (w : Wait) (done : Bool) : Core :=
  { f := { mode := .wait, wait := some w }, queues := [(0, { oldest := 2047, next := 1, reqs := [request 2047 true, request 0 done] })],
    sems := [(3, { count := 2, sat := false })] }

theorem witness_WaitConditionsMet :
    let bq := waitFor (.bq 0 0) none false
    let sem := fun k : Nat => waitFor (.sem 3 k) none false
    (pendingWait (coreWaiting bq true) .f = some bq ∧ (0 + 2048 - 2047) % 2048 < (1 + 2048 - 2047) % 2048 ∧
      ∀ r ∈ [request 2047 true, request 0 true], r.complete = true) ∧
    (pendingWait (coreWaiting bq false) .f = some bq ∧ ∃ r ∈ [request 2047 true, request 0 false], r.complete = false) ∧
    (pendingWait (coreWaiting (sem 2) true) .f = some (sem 2) ∧ 2 ≤ (tget {} (coreWaiting (sem 2) true).sems 3).count.toNat ∧
      pendingWait (coreWaiting (sem 2) true) .b = none ∧ pendingWait (coreWaiting (sem 2) true) .u = none) ∧
    (pendingWait (coreWaiting (sem 3) true) .f = some (sem 3) ∧
      (tget {} (coreWaiting (sem 3) true).sems 3).count.toNat < 3) := by decide +kernel

/-- SEM.WAIT takes its count from the semaphore when it is met (R198). -/
theorem test_semTest :
    (tget {} (semTest 9 (coreWaiting (waitFor (.sem 3 2) none false) true)).sems 3).count = 0 ∧
    (semTest 9 (coreWaiting (waitFor (.sem 3 2) none false) true)).f.wait =
      some (waitFor (.sem 3 2) (some 9) false) := by decide +kernel

/-- Entry 0 of the allocation table: 4 KiB of HBM3E from byte 0 of this module's partition 0. -/
def alloc0 : BitVec 128 := BitVec.ofNat 128 (4096 * 2 ^ 64)

/-- The same, of module 1 of a fabric of eight. -/
def alloc1 : BitVec 128 := BitVec.ofNat 128 (4096 * 2 ^ 64 + 2 ^ 58)

/-- A core about to issue a bobbin request between core store and the allocation. -/
def sBobbin (w : InstrWord) (al : BitVec 128) : State :=
  { live .f w (fun c => { c with
      desc := [(1, some dSrc), (2, some (image 0 2 tyBF16 fmDense 32 1 64 0 0))] }) with
    parts := [{ low := 0, size := 8, ctx := .running, map := [0], alloc := [al] }], fabric := 0x8 }

/-- BQ.ISSUE of a GET from entry 2 to entry 1 on queue 3, its token to q5. -/
def wGet : InstrWord := word 0x18 [(32, 3), (36, 5), (40, 1), (48, 2)]

/-- One index of type INT32 in core store, whose value is 0. -/
def diGather : BitVec 512 := BitVec.ofNat 512 (fields [(0, 64), (64, tyInt32), (72, 1), (75, 1), (128, 1), (192, 1), (256, 1), (320, 1),
  (384, 1), (448, 1)])

/-- BQ.ISSUE of a GATHER of one row by the index in entry 3. -/
def wGather : InstrWord := word 0x18 [(32, 3), (36, 5), (40, 1), (48, 2), (56, 3), (69, 2)]

/-- The hypotheses of BobbinIssuePosts but for DI. -/
abbrev mayPost (a : At) : Prop :=
  a.ups = Upsets.none ∧ qKind a.w ≠ 7 ∧ entryOf a (qDL a.w) = some dSrc ∧
    entryOf a (qDR a.w) = some (image 0 2 tyBF16 fmDense 32 1 64 0 0) ∧
    bqConds a.w dSrc (image 0 2 tyBF16 fmDense 32 1 64 0 0) = [] ∧ aoOffset a % 64 = 0 ∧
    (tget {} a.c.queues (qQN a.w)).reqs.length < 32 ∧ allocAt a.s a.p 2 = some ⟨0, 0, 0, false, false, 0, 4096⟩ ∧
    rangeIn (image 0 2 tyBF16 fmDense 32 1 64 0 0) (aoOffset a) 4096 = true ∧ bqReads (qKind a.w) = true ∧ a.c.flight = []

theorem witness_BobbinIssuePosts :
    (∃ i s a, Ready 0x18 .q i s a ∧ mayPost a ∧ bqRows (qKind a.w) = false) ∧
    (∃ i s a, Ready 0x18 .q i s a ∧ mayPost a ∧ bqRows (qKind a.w) = true ∧ entryOf a (qDI a.w) = some diGather ∧
      indexConds diGather = [] ∧ dValid dSrc (outerDim dSrc) = dValid diGather 0) :=
  ⟨readyWith (issue .f wGet) (sBobbin wGet alloc0) _ (by decide +kernel),
    readyWith (issue .f wGather) (modCore (sBobbin wGather alloc0) 0 (fun c => { c with desc := tset none c.desc 3 (some diGather) })) _
      (by decide +kernel)⟩

/-- The token of queue 3's first request (R93): bit 15, the queue, the sequence number. -/
theorem test_bqIssue :
    inFlight (exec (.bqIssue (issue .f wGet)) (sBobbin wGet alloc0)) = [(2, .reg 0xC5 0x9800)] := by decide +kernel

/-- A core with one request outstanding that nothing holds back. -/
def sLocal (kind : Nat) : State :=
  let s := sBobbin wGet alloc0
  { modCore s 0 (fun c => { c with queues := [(0, { oldest := 0, next := 1, reqs := [{ request 0 false with kind := kind }] })],
                                   store := poke [] (0, 16, 0xBEEF) }) with hbm := poke [] (16, 16, 0x1234) }

theorem witness_LocalRequestsComplete :
    ∀ kind : Nat, kind = bqGet ∨ kind = bqPut → ∃ p q, corePart (landAll (sLocal kind) 0) 0 = some p ∧
      findRequest (getCore (landAll (sLocal kind) 0) 0) 0 0 = some q ∧ q.complete = false ∧ q.held = false ∧
      sourceProv (getCore (landAll (sLocal kind) 0) 0) q = false ∧
      blockedBy (landAll (sLocal kind) 0) p (getCore (landAll (sLocal kind) 0) 0) 0 q = false ∧ q.dest = none ∧
      heldLines (landAll (sLocal kind) 0) .hbm (reqUnits (reqAlloc (landAll (sLocal kind) 0) p q)
        (getCore (landAll (sLocal kind) 0) 0).store q) = [] ∧
      (reqUnits (reqAlloc (landAll (sLocal kind) 0) p q) (getCore (landAll (sLocal kind) 0) 0).store q).all
        (fun u => !isPoisoned (landAll (sLocal kind) 0) .hbm u) = true := by
  rintro k (rfl | rfl) <;>
    exact ⟨_, _, rfl, rfl, rfl, rfl, by decide +kernel, by decide +kernel, rfl, by decide +kernel, by decide +kernel⟩

/-- A GET copies the allocation's bytes over the row, and a PUT the other way. -/
theorem test_bobbinRequestComplete :
    (getCore (out (exec (.bobbinRequestComplete 0 0 0 MemEcc.clean SramEcc.clean) (sLocal bqGet))) 0).store = [(2, 0x34), (3, 0x12)] ∧
    (out (exec (.bobbinRequestComplete 0 0 0 MemEcc.clean SramEcc.clean) (sLocal bqPut))).hbm = [(0, 0xEF), (1, 0xBE)] := by decide +kernel

/-- A core with one remote request on its way. -/
def sRemote (pll : Nat) : State :=
  { modCore State.reset 0 (fun c => { c with queues := [(0, { oldest := 0, next := 1, reqs :=
      [{ request 0 false with dest := some 1, sent := true, segs := [⟨0, [(0, 512, 0)]⟩] }] })] }) with pll := pll }

theorem witness_RemoteRequestTimesOut :
    (∃ q, findRequest (getCore (sRemote 102000000) 0) 0 0 = some q ∧ q.sent = true ∧ q.complete = false ∧ q.segs ≠ [] ∧
      q.sentAt + 10200 * bits (sRemote 102000000).reqTimeout 0 20 ≤ (sRemote 102000000).pll) ∧
    (∃ q, findRequest (getCore (sRemote 101999999) 0) 0 0 = some q ∧ q.sent = true ∧ q.complete = false ∧ q.segs ≠ [] ∧
      (sRemote 101999999).pll < q.sentAt + 10200 * bits (sRemote 101999999).reqTimeout 0 20) :=
  ⟨⟨_, rfl, rfl, rfl, by decide, by decide +kernel⟩, ⟨_, rfl, rfl, rfl, by decide, by decide +kernel⟩⟩

/-! ### Signals, barriers, plans and held accesses -/

/-- A state to which a frame has come. -/
def got (s : State) (x : Rx) : State :=
  if x.sender = ownIndex s then { s with mesh := [x] }
  else modPort s x.port.val (fun p => { p with delivered := (frameSlots x.frame).map (fun y => { peer := x.sender, vl := vlOf x.frame, slot := y }) })

/-- A fabric of eight modules, this one module 0, whose partition runs on core 0. -/
def sFabric : State :=
  { State.reset with fabric := 0x8, parts := [{ low := 0, size := 8, ctx := .running, map := [0] }] }

/-- A frame from module 1 on port 0. -/
def from1 (f : Frame) : Rx := { port := 0, sender := 1, frame := f }

/-- A semaphore of core 0 with a count. -/
def sSem (k : Half) (sat : Bool) : State := modCore sFabric 0 (fun c => { c with sems := [(3, { count := k, sat := sat })] })

theorem witness_SignalAdds :
    (tget {} (getCore (sSem 65535 false) 0).sems 3).count.toNat + 0 ≤ 65535 ∧
    (65535 < (tget {} (getCore (sSem 65535 false) 0).sems 3).count.toNat + 1 ∧
      (tget {} (getCore (sSem 65535 false) 0).sems 3).sat = false) ∧
    (tget {} (getCore (sSem 65535 true) 0).sems 3).sat = true := by decide +kernel

/-- A sum past 65,535 saturates and is recorded once (R197). -/
theorem test_semAdd :
    (tget {} (getCore (semAdd (sSem 65534 false) 0 3 1) 0).sems 3) = { count := 65535, sat := false } ∧
    (tget {} (getCore (semAdd (sSem 65535 false) 0 3 1) 0).sems 3) = { count := 65535, sat := true } ∧
    (semAdd (sSem 65535 false) 0 3 1).errors.rseq = 1 ∧ (semAdd (sSem 65535 true) 0 3 1).errors.rseq = 0 := by
  decide +kernel

def signalRx : Rx := from1 { frame fkSignal with addr := 3 * 2 ^ 8, inline := .signal 2 }

/-- A signal on its way to semaphore 3 of core 0. -/
def sSignal (source : Option (Nat × Shuttle × Nat)) (held : Bool) : State :=
  { sFabric with signals := [⟨4, 0, 3, 1, source, held⟩] }

theorem witness_SignalsSentAndPerformed :
    (∃ i s a, Ready 0x70 .w i s a ∧ wTmod a.w < fabricN a.s ∧ wTcore a.w < a.p.map.length ∧ wTmod a.w = ownIndex a.s ∧
      fldFlag a.w 1 = false ∧ a.c.f.acquiring = [] ∧ a.c.b.acquiring = [] ∧ a.c.u.acquiring = []) ∧
    (∃ i s a, Ready 0x70 .w i s a ∧ wTmod a.w < fabricN a.s ∧ wTcore a.w < a.p.map.length ∧ wTmod a.w ≠ ownIndex a.s) ∧
    (∃ g p, (sSignal (some (0, .f, 2)) false).signals.find? (fun x => x.id == 4 && !x.held) = some g ∧
      g.source = some (0, .f, 2) ∧ corePart (sSignal (some (0, .f, 2)) false) g.target = some p ∧
      (p.ctx = .running ∨ p.ctx = .stopped) ∧ p.reset = none ∧ p.map.contains g.target = true) ∧
    (∃ g p, ({ State.reset with signals := (sSignal none false).signals } : State).signals.find?
      (fun x => x.id == 4 && !x.held) = some g ∧ corePart State.reset g.target = some p ∧
      (p.ctx ≠ .running ∧ p.ctx ≠ .stopped ∨ p.map.contains g.target = false)) ∧
    (∀ g ∈ (sSignal none true).signals, g.id = 4 → g.held = true) ∧
    (signalRx.frame.kind = fkSignal ∧ signalRx.frame.inline = .signal 2 ∧ (takeRx (got sFabric signalRx) signalRx).isSome = true ∧
      signalRx.sender ≠ ownIndex (got sFabric signalRx) ∧ ∃ p q, partAt (got sFabric signalRx) 0 = some p ∧
      p.map[bits signalRx.frame.addr 0 8]? = some 0 ∧ corePart (got sFabric signalRx) 0 = some q ∧
      (q.ctx = .running ∨ q.ctx = .stopped) ∧ q.reset = none ∧ 0 ∈ q.map) ∧
    (let s := got { sFabric with parts := [{ low := 0, size := 8, ctx := .faulted, map := [0] }] } signalRx
     (takeRx s signalRx).isSome = true ∧ ∃ p, partAt s 0 = some p ∧ p.map[bits signalRx.frame.addr 0 8]? = some 0 ∧
      corePart s 0 = some p ∧ p.ctx = .faulted) ∧
    takeRx sFabric signalRx = none :=
  ⟨readyWith (issue .f (wW 0x70 3 1 0 0 0 0)) (live .f (wW 0x70 3 1 0 0 0 0) id) _ (by decide +kernel),
    readyWith (issue .f (wW 0x70 3 1 0 0 7 0)) { live .f (wW 0x70 3 1 0 0 7 0) id with fabric := 0x8 } _ (by decide +kernel),
    ⟨_, _, rfl, rfl, rfl, .inl rfl, rfl, rfl⟩, ⟨_, _, rfl, rfl, .inl ⟨by decide, by decide⟩⟩, by decide,
    ⟨rfl, rfl, by decide +kernel, by decide +kernel, _, _, rfl, rfl, rfl, .inl rfl, rfl, by decide⟩,
    ⟨by decide +kernel, _, rfl, rfl, rfl, rfl⟩, by decide +kernel⟩

theorem test_signalFrameReceive :
    (tget {} (getCore (out (exec (.signalFrameReceive signalRx) (got sFabric signalRx))) 0).sems 3).count = 2 := by
  decide +kernel

/-- Core 0 with its three shuttles at their first BEATUP of a scope, and a count left in a semaphore. -/
def sBeat (scope : Nat) (notices : List (Nat × Nat)) : State :=
  let w : Wait := { kind := .beatup scope 1, rph := 0, acq := false, issued := 0, metAt := none, poisoned := false }
  let x : Sh := { mode := .wait, wait := some w, beats0 := 1, beats1 := 1, beats2 := 1 }
  { modCore sFabric 0 (fun c => { c with f := x, b := x, u := x, sems := [(7, { count := 5, sat := false })] }) with
    parts := [{ low := 0, size := 8, ctx := .running, map := [0], notices := notices }] }

theorem witness_BeatupCompletes :
    ∀ scope : Fin 3, scope.val ≤ 1 → ∃ p, partOf (sBeat scope.val []) 0 = some p ∧ (p.ctx = .running ∨ p.ctx = .stopped) ∧
      let s := (scopeCores p scope.val 0).foldl landAll (sBeat scope.val [])
      arrived s p scope.val 0 = some 1 ∧ accessesDone s p scope.val 0 = true ∧ 0 ∈ scopeCores p scope.val 0 ∧
      tget 0 (freshSignals s.cc (getCore s 0)) 7 = 0 ∧ (shOf (getCore s 0) .f).mode = .wait ∧
      (shOf (getCore s 0) .f).wait.isSome = true := by
  intro scope _
  refine ⟨_, rfl, .inl rfl, ?_⟩
  revert scope
  decide +kernel

theorem test_beatupComplete :
    (tget {} (getCore (out (exec (.beatupComplete 1 0) (sBeat 1 []))) 0).sems 7).count = 0 ∧
    ((getCore (out (exec (.beatupComplete 1 0) (sBeat 1 []))) 0).f.wait.bind (fun w => w.metAt)) = some 3 ∧
    (getCore (out (exec (.beatupComplete 1 0) (sBeat 1 []))) 0).drift.toNat = 1 + 7 * 2 ^ 16 + 5 * 2 ^ 24 := by decide +kernel

theorem witness_DriftRecorded :
    let l := fun s : State => ((getCore s 0).sems.map (fun x =>
      (x.1, x.2.count.toNat - tget 0 (freshSignals s.cc (getCore s 0)) x.1))).filter (fun x => x.2 != 0)
    l State.reset = [] ∧ (l (sBeat 0 [])).map (fun x => x.1) = [7] ∧ tget 0 (freshSignals 0 (getCore (sBeat 0 []) 0)) 7 = 0 ∧
      tget {} (getCore (sBeat 0 []) 0).sems 7 ≠ {} := by decide +kernel

def beatRx : Rx := from1 { frame fkBeatup with inline := .beat 1 }

theorem witness_FabricBeatups :
    (∃ p, partOf (sBeat 2 []) 0 = some p ∧ (p.ctx = .running ∨ p.ctx = .stopped) ∧
      arrived ((scopeCores p 2 0).foldl landAll (sBeat 2 [])) p 2 0 = some 1 ∧
      accessesDone ((scopeCores p 2 0).foldl landAll (sBeat 2 [])) p 2 0 = true ∧
      1 < fabricN (sBeat 2 []) ∧ (∃ m ∈ peers (sBeat 2 []), p.notices.contains (m, 1) = false) ∧ 1 ∉ p.noticesSent ∧
      (∀ m ∈ peers (sBeat 2 []), (getChan (sBeat 2 []) (portOf p 0) m).state ≠ .failed) ∧ portOf p 0 < 8) ∧
    (∃ p, partOf (sBeat 2 [(1, 1), (2, 1), (3, 1), (4, 1), (5, 1), (6, 1), (7, 1)]) 0 = some p ∧
      ∀ m ∈ peers (sBeat 2 [(1, 1), (2, 1), (3, 1), (4, 1), (5, 1), (6, 1), (7, 1)]), p.notices.contains (m, 1) = true) ∧
    (beatRx.frame.kind = fkBeatup ∧ beatRx.frame.inline = .beat 1 ∧ (takeRx (got sFabric beatRx) beatRx).isSome = true ∧
      ∃ p, partAt (got sFabric beatRx) (faLow beatRx.frame.addr) = some p ∧ p.ctx = .running ∧ p.reset = none) ∧
    (let s := got { sFabric with parts := [{ low := 0, size := 8 }] } beatRx
     (takeRx s beatRx).isSome = true ∧ ∃ p, partAt s (faLow beatRx.frame.addr) = some p ∧ p.ctx = .empty) ∧
    takeRx sFabric beatRx = none :=
  ⟨⟨_, rfl, .inl rfl, by refine ⟨?_, ?_, ?_, ?_, ?_, ?_, ?_⟩ <;> decide +kernel⟩,
    ⟨_, rfl, by decide +kernel⟩, ⟨rfl, rfl, by decide +kernel, _, rfl, rfl, rfl⟩,
    ⟨by decide +kernel, _, rfl, rfl⟩, by decide +kernel⟩

/-- Core 0 with a pending plan: F waits since an earlier cycle, B has ended, and U is as given. -/
def sPlan (m : ShMode) : State :=
  let w : Wait := { kind := .sem 0 1, rph := 0, acq := false, issued := 1, metAt := none, poisoned := false }
  { modCore sFabric 0 (fun c => { c with planPending := some 1, cycle := 5, phase := 3, f := { mode := .wait, wait := some w }
                                         b := { mode := .ended, last := 4 }, u := { mode := m, wait := some w } }) with cc := 2 }

theorem witness_SlotPlanTakesEffect :
    ∀ m ∈ [ShMode.wait, .run], ∃ p, corePart (sPlan m) 0 = some p ∧ p.ctx = .running ∧ 0 ∈ p.map ∧
      (getCore (sPlan m) 0).planPending = some 1 ∧ (m = .wait ↔ ∀ sh : Shuttle,
        ((shOf (getCore (sPlan m) 0) sh).mode = .wait ∧ ((shOf (getCore (sPlan m) 0) sh).wait.any (fun w =>
          decide (w.issued < (sPlan m).cc))) = true) ∨
        ((shOf (getCore (sPlan m) 0) sh).mode = .ended ∧
          (shOf (getCore (sPlan m) 0) sh).last < (getCore (sPlan m) 0).cycle)) := by
  intro m hm
  refine ⟨_, rfl, rfl, by decide, ?_⟩
  have h : ∀ P : Shuttle → Prop, (∀ sh, P sh) ↔ P .f ∧ P .b ∧ P .u :=
    fun P => ⟨fun h => ⟨h _, h _, h _⟩, fun ⟨a, b, c⟩ sh => by cases sh <;> assumption⟩
  rw [h]
  revert m hm
  decide +kernel

/-- Core 0 with a held access, and an earlier one of its shuttle or not. -/
def sHeld (kind : AccessKind) (earlier : Bool) : State :=
  { modCore sFabric 0 (fun c => { c with
      f := { c.f with accesses := (if earlier then [⟨1, 0, .store, false, false, [], 0⟩] else []) ++
        [⟨2, 3, kind, true, true, [], 0⟩] }
      queues := [(0, { oldest := 0, next := 1, reqs := [{ request 0 false with held := true, kind := bqPut }] })] }) with
    signals := [⟨9, 0, 3, 1, some (0, .f, 2), true⟩] }

theorem witness_HeldAccessGoesOn :
    (∃ p x, corePart (landAll (sHeld (.signal 9) true) 0) 0 = some p ∧
      findAccess (getCore (landAll (sHeld (.signal 9) true) 0) 0) 2 = some (.f, x) ∧
      mustHold (shOf (getCore (landAll (sHeld (.signal 9) true) 0) 0) .f) 2 x.rel = true) ∧
    (∃ p x, corePart (landAll (sHeld (.signal 9) false) 0) 0 = some p ∧
      findAccess (getCore (landAll (sHeld (.signal 9) false) 0) 0) 2 = some (.f, x) ∧
      mustHold (shOf (getCore (landAll (sHeld (.signal 9) false) 0) 0) .f) 2 x.rel = false ∧ x.kind = .signal 9 ∧
      x.held = true) ∧
    (∃ p x q, corePart (landAll (sHeld (.bobbin 0 0) false) 0) 0 = some p ∧
      findAccess (getCore (landAll (sHeld (.bobbin 0 0) false) 0) 0) 2 = some (.f, x) ∧
      mustHold (shOf (getCore (landAll (sHeld (.bobbin 0 0) false) 0) 0) .f) 2 x.rel = false ∧ x.kind = .bobbin 0 0 ∧
      findRequest (getCore (landAll (sHeld (.bobbin 0 0) false) 0) 0) 0 0 = some q ∧ q.held = true ∧
      sourceProv (getCore (landAll (sHeld (.bobbin 0 0) false) 0) 0) q = false ∧ q.dest = none) ∧
    (let s := modCore sFabric 0 (fun c => { c with f := { c.f with accesses :=
       [⟨1, 3, .caskHdr 5 0 1, false, true, [], 0⟩, ⟨2, 3, .caskPiece 5 0 1 0 256, false, true, [], 0⟩] } })
     ∃ p x y, corePart (landAll s 0) 0 = some p ∧ findAccess (getCore (landAll s 0) 0) 2 = some (.f, x) ∧
       x.kind = .caskPiece 5 0 1 0 256 ∧ y ∈ (shOf (getCore (landAll s 0) 0) .f).accesses ∧ y.held = true ∧ y.id < 2 ∧
       y.kind = .caskHdr 5 0 1) := by
  refine ⟨⟨_, _, rfl, rfl, ?early⟩, ⟨_, _, rfl, rfl, ?free⟩, ⟨_, _, _, rfl, rfl, ?goes, ?what, rfl, ?local_⟩,
    ⟨_, _, ⟨1, 3, .caskHdr 5 0 1, false, true, [], 0⟩, rfl, rfl, ?frames⟩⟩
  case early => decide +kernel
  case free => exact ⟨by decide +kernel, rfl, rfl⟩
  case goes => decide +kernel
  case what => rfl
  case local_ => exact ⟨rfl, by decide +kernel, rfl⟩
  case frames => exact ⟨rfl, by decide +kernel, rfl, by decide, rfl⟩

/-! ### Beam and heddle -/

/-- Core store with one BF16 row of A at byte 0 and one of B at byte 64: A(0, 0) = 1.5, B(0, 0) = −2. -/
def abStore : Tbl Byte := pokeAll [] [(0, 16, 0x3FC0), (512, 16, 0xC000)]

/-- A: 128 rows of 32 BF16 elements; B: 32 rows of 128. -/
def dA : BitVec 512 := image 0 0 tyBF16 fmDense 32 128 64 0 0
def dB : BitVec 512 := image 8192 0 tyBF16 fmDense 128 32 256 0 0

/-- One row of 32 elements each, for tests that run the pass with TB = 1. -/
def dA1 : BitVec 512 := image 0 0 tyBF16 fmDense 32 1 64 0 0
def dB1 : BitVec 512 := image 64 0 tyBF16 fmDense 32 1 64 0 0

/-- A list of two 32-bit indices (one dimension, index flag), and a score tensor of 256 × 256 FP32. -/
def dIdx : BitVec 512 :=
  BitVec.ofNat 512 (fields [(0, 0x20000), (64, tyInt32), (72, 1), (75, 1), (80, 14), (128, 16), (192, 1), (256, 1), (320, 1),
    (384, 1), (448, 1)])
def dScore : BitVec 512 := image 0x40000 0 tyFP32 fmDense 256 256 1024 0 0

/-- A core with a table of entries from 1 on, and core store. -/
def sEng (sh : Shuttle) (w : InstrWord) (st : Tbl Byte) (ds : List (BitVec 512)) (g : Core → Core) : State :=
  live sh w (fun c => g { c with store := st, desc := ds.zipIdx.map (fun x => (x.2 + 1, some x.1)) })

/-- START. -/
def start : Nat := 1

def wMm : InstrWord := wT 0x20 0 1 2 0 start 0 0
def wScore : InstrWord := wT 0x21 4 1 2 3 start 0 0 ||| BitVec.ofNat 128 (2 ^ 24)

theorem witness_BeamPasses :
    (∃ i s a, Runs 0x20 i s a (actBeamMm a) ∧ passM a.w (entryD a (tDA a.w)) = 128 ∧ passN a.w (entryD a (tDB a.w)) = 128) ∧
    (∃ i s a, Runs 0x22 i s a (actBeamZero a) ∧ True) ∧
    (∃ i s a, Runs 0x21 i s a (actBeamScore a) ∧
      inValid (entryD a (tDO a.w)) 0 [128 * wrapIndex (readIndex a.c.store (entryD a (tDX a.w)) 1)
        ((dSize (entryD a (tDO a.w)) 0 + 127) / 128) + 127, 128 * wrapIndex (readIndex a.c.store (entryD a (tDX a.w)) 0)
        ((dSize (entryD a (tDO a.w)) 1 + 127) / 128) + 127] = true) :=
  ⟨runsWith (issue .f wMm) (sEng .f wMm [] [dA, dB] id) _ (by decide +kernel),
    runsWith (issue .b (wT 0x22 0 0 0 0 0 0 0)) (sEng .b (wT 0x22 0 0 0 0 0 0 0) [] [] id) _ (by decide +kernel),
    runsWith (issue .f wScore) (sEng .f wScore (poke [] (8 * 0x20000, 32, 1)) [dA, dB, dIdx, dScore] id) _
      (by decide +kernel)⟩

/-- 1.5 × −2 in lane (0, 0), visible 24 cycles after an occupancy of 64 × 128 × 32 / 4096 = 64. -/
theorem test_beamMm :
    let w := wT 0x20 0 1 2 0 5 0 0
    (getCore (out (exec (.beamMm (issue .f w)) (sEng .f w abStore [dA1, dB1] id))) 0).beam.later.map
      (fun x => (x.due, x.set.terms, rne32 (laneVal (tget {} x.set.lanes 0)))) = [(1 + 64 + 24, 32, 0xC0400000)] := by
  decide +kernel

/-- A BSR16 region of one 16 × 16 block at byte 4096, holding 1.0 at (1, 2): header, two block-row pointers, one column,
one map, one value. -/
def dBsr : BitVec 512 := image 4096 0 tyBF16 fmBSR 16 16 320 0 0
def bsrPokes : List Poke :=
  [(8 * 4096, 512, fields [(0, 1), (8, 2), (32, 16), (64, 16), (96, 1), (128, 1), (160, 64), (192, 192), (224, 256), (256, 64)]),
   (8 * (4096 + 68), 32, 1), (8 * (4096 + 192), 32, 2 ^ 18), (8 * (4096 + 256), 16, 0x3F80)]

/-- A PAIR region of one entry with key 0 at byte `b`; `p1` says whether the key is the row. -/
def pairPokes (b n m p1 : Nat) : List Poke :=
  [(8 * b, 512, fields [(0, 6), (8, 2), (16, 4), (24, p1), (32, m), (64, n), (96, 1), (160, 64), (192, 192), (224, 256), (256, 64)])] ++
  ((List.range 16).map (fun i => (8 * (b + 68 + 4 * i), 32, 1))) ++ [(8 * (b + 256), 16, 0x4000)]

def dPairA : BitVec 512 := image 8192 0 tyBF16 fmPAIR 16 1 320 0 0
def dPairB : BitVec 512 := image 12288 0 tyBF16 fmPAIR 1 16 320 0 0

/-- B of the sparse passes: 16 rows of 32. -/
def dB16 : BitVec 512 := image 0 0 tyBF16 fmDense 32 16 64 0 0

def regions : Tbl Byte := pokeAll [] (bsrPokes ++ pairPokes 8192 16 1 0 ++ pairPokes 12288 1 16 1)

def wSpmm : InstrWord := wT 0x28 0 1 2 0 start 0 100
/-- SDDMM takes TB = 1 with B of 16 rows of 32. -/
def wSddmm : InstrWord := wT 0x29 0 1 2 3 5 0 100 ||| BitVec.ofNat 128 (2 ^ 24)
def wSpsp : InstrWord := wT 0x2A 0 1 2 0 start 0 0xFFFFF
def wHzero : InstrWord := wT 0x2B 0 0 0 0 0 0 0

theorem witness_HeddlePasses :
    (∃ i s a, Runs 0x28 i s a (actSpmm a) ∧ operandMeta a.c.store [(0, entryD a (tDA a.w))] = none ∧ mSkip a.w = false) ∧
    (∃ i s a, Runs 0x29 i s a (actSddmm a) ∧ operandMeta a.c.store [(2, entryD a (tDX a.w))] = none ∧ mStart a.w = true ∧
      (storedOf a.c.store (entryD a (tDX a.w))).length = 1) ∧
    (∃ i s a, Runs 0x2A i s a (actSpsp a) ∧
      operandMeta a.c.store [(0, entryD a (tDA a.w)), (1, entryD a (tDB a.w))] = none) ∧
    (∃ i s a, Runs 0x2B i s a (actHeddleZero a) ∧ True) :=
  ⟨runsWith (issue .f wSpmm) (sEng .f wSpmm regions [dBsr, dB16] id) _ (by decide +kernel),
    runsWith (issue .f wSddmm) (sEng .f wSddmm regions [dB16, dB16, dBsr] id) _ (by decide +kernel),
    runsWith (issue .b wSpsp) (sEng .b wSpsp regions [dPairA, dPairB] id) _ (by decide +kernel),
    runsWith (issue .u wHzero) (sEng .u wHzero [] [] id) _ (by decide +kernel)⟩

/-- Key 0 of A meets key 0 of B: 2 × 2 in lane (0, 0). -/
theorem test_spsp :
    (getCore (out (exec (.heddleSpsp (issue .b wSpsp)) (sEng .b wSpsp regions [dPairA, dPairB] id))) 0).heddle.later.map
      (fun x => rne32 (laneVal (tget {} x.set.lanes 0))) = [0x40800000] := by decide +kernel

/-- The region with its column index past the last block column. -/
def badRegion : Tbl Byte := poke regions (8 * (4096 + 128), 32, 1)

theorem witness_MetadataFaultIsHarmless :
    (∃ i s a, Runs 0x28 i s a (actSpmm a) ∧ operandMeta a.c.store [(0, entryD a (tDA a.w))] = some (0, (6, 0, 0))) ∧
    (∃ f, (getCore (modCore sFabric 0 (fun c => { c with deferred := [⟨9, .f, 3, 0x28, 8, 0x600, 7⟩] })) 0).deferred.find?
        (fun d => d.sh == .f) = some f ∧ f.kind = 8) :=
  ⟨runsWith (issue .f wSpmm) (sEng .f wSpmm badRegion [dBsr, dB16] id) _ (by decide +kernel), _, rfl, rfl⟩

/-! ### Vector engine, special functions, gravity -/

/-- A DENSE descriptor of one dimension in core store. -/
def row (base ty n pad : Nat) : BitVec 512 :=
  BitVec.ofNat 512 (fields [(0, base), (64, ty), (72, 1), (80, pad), (128, n), (192, 1), (256, 1), (320, 1), (384, 1), (448, 1)])

/-- Core store with FP32 values at the starts of its first 64-byte units. -/
def words (l : List Nat) : Tbl Byte := pokeAll [] (l.zipIdx.map (fun x => (512 * x.2, 32, x.1)))

/-- One FP32 element at the start of a 64-byte unit. -/
def one (u : Nat) : BitVec 512 := row (64 * u) tyFP32 16 15

def flag24 (w : InstrWord) : InstrWord := w ||| BitVec.ofNat 128 (2 ^ 24)

/-- What a vector instruction leaves in flight from core store of given FP32 values, entries 1 to 4 naming its first four
units and entry 5 a result. -/
def vecOut (exec : Issue → State → Host.Outcome State Fault Refusal) (w : InstrWord) (l : List Nat) : List (Nat × Effect) :=
  inFlight (exec (issue .b w) (sEng .b w (words l) [one 0, one 1, one 2, one 3, one 4] id))

/-- ADD, SUB, MUL, FMA, MAX, MIN, ABS and SCALE on 1.5, −2 and 0.25. -/
theorem test_vecOp :
    [0, 1, 2, 3, 4, 5, 6, 7].map (fun sub =>
      vecOut (fun i s => exec (.vecOp i) s) (flag24 (wT 0x30 5 1 2 3 0 sub 3)) [0x3FC00000, 0xC0000000, 0x3E800000]) =
    [0xBF000000, 0x40600000, 0xC0400000, 0xC0300000, 0x3FC00000, 0xC0000000, 0x3FC00000, 0x41400000].map
      (fun v => [(7, .store [(2048, 32, v)] .clear)]) := by decide +kernel

/-- A NaN operand gives the canonical NaN. -/
theorem test_vecOp_nan :
    vecOut (fun i s => exec (.vecOp i) s) (wT 0x30 5 1 2 3 0 4 0) [0x7F800001, 0x3F800000] =
      [(7, .store [(2048, 32, 0x7FC00000)] .clear)] := by decide +kernel

/-- 3 × 2^24 + 1 + 1 + … rounds once: SUM of 2^24, 1, 1 is 2^24 + 2, and SUMSQ of 3 and 4 is 25. -/
theorem test_vecRed :
    let w := fun sub => wT 0x31 5 1 0 0 0 sub 0
    let s := fun sub => sEng .b (w sub) (pokeAll [] [(0, 32, 0x4B800000), (32, 32, 0x3F800000), (64, 32, 0x3F800000)])
      [row 0 tyFP32 16 13, 0, 0, 0, one 4] id
    let s2 := sEng .b (w 2) (pokeAll [] [(0, 32, 0x40400000), (32, 32, 0x40800000)]) [row 0 tyFP32 16 14, 0, 0, 0, one 4] id
    inFlight (exec (.vecRed (issue .b (w 0))) (s 0)) = [(7, .store [(2048, 32, 0x4B800001)] .clear)] ∧
    inFlight (exec (.vecRed (issue .b (w 2))) s2) = [(7, .store [(2048, 32, 0x41C80000)] .clear)] := by decide +kernel

/-- A tie goes to the even BF16: 1 + 2^-8 becomes 1. -/
theorem test_vecCvt :
    let w := wT 0x32 2 1 0 0 0 0 0
    inFlight (exec (.vecCvt (issue .b w)) (sEng .b w (words [0x3F808000]) [one 0, row 64 tyBF16 32 31] id)) =
      [(7, .store [(512, 16, 0x3F80)] .clear)] := by decide +kernel

theorem witness_VectorAndSfuResults :
    (∃ i s a, Runs 0x30 i s a (actVecOp a) ∧ tSub a.w = 3 ∧ validCount (entryD a (tDA a.w)) = 256) ∧
    (∃ i s a, Runs 0x31 i s a (actVecRed a) ∧ tSub a.w = 2) ∧
    (∃ i s a, Runs 0x32 i s a (actVecCvt a) ∧
      (cvtResults a (entryD a (tDA a.w)) (entryD a (tDO a.w)) (entryD a (tDX a.w))).1.any (fun r => r.ovf) = false ∧
      dType (entryD a (tDO a.w)) = tyBS4) ∧
    (∃ i s a, Runs 0x40 i s a (actGrav a) ∧ fldFlag a.w 0 = true) ∧
    (∃ i s a, Runs 0x38 i s a (actSfuEval a) ∧ tSub a.w = 3) ∧ (∃ i s a, Runs 0x39 i s a (actSfuDeriv a) ∧ tSub a.w = 1) ∧
    (∃ i s a, Runs 0x3A i s a (actSfuLoad a) ∧ tImm a.w = 1024) ∧ (∃ i s a, Runs 0x3A i s a (actSfuLoad a) ∧ tImm a.w = 960) :=
  let v := row 0 tyFP32 256 0
  let w1 := flag24 (wT 0x30 1 1 1 1 0 3 0)
  let w2 := wT 0x31 2 1 0 0 0 2 0
  let w3 := flag24 (wT 0x32 2 1 0 3 0 0 0)
  let w4 := flag24 (wT 0x40 2 1 0 3 0 0 0)
  let w5 := wT 0x38 1 1 0 0 0 3 0
  let w6 := wT 0x39 1 1 1 0 0 1 0
  let w7 := wT 0x3A 0 1 0 0 0 3 1024
  let w8 := wT 0x3A 0 1 0 0 0 3 960
  ⟨runsWith (issue .b w1) (sEng .b w1 [] [v] id) _ (by decide +kernel),
    runsWith (issue .b w2) (sEng .b w2 [] [v, one 4] id) _ (by decide +kernel),
    runsWith (issue .b w3) (sEng .b w3 (words [0x3F800000]) [row 0 tyFP32 32 0, row 4096 tyBS4 128 96, row 8192 tyScale 64 0] id) _
      (by decide +kernel),
    runsWith (issue .b w4) (sEng .b w4 [] [dA, image 0x8000 0 tyScale fmDense 64 1 64 63 0, row 0x9000 tyFP32 160 0] id) _
      (by decide +kernel),
    runsWith (issue .b w5) (sEng .b w5 [] [row 0 tyFP32 64 0] id) _ (by decide +kernel),
    runsWith (issue .b w6) (sEng .b w6 [] [row 0 tyFP32 64 0] id) _ (by decide +kernel),
    runsWith (issue .b w7) (sEng .b w7 [] [row 0 tyFP32 16 14] id) _ (by decide +kernel),
    runsWith (issue .b w8) (sEng .b w8 [] [row 0 tyFP32 128 0] id) _ (by decide +kernel)⟩

/-- SFU table 0 with LO = 0, INV = 1, entry 2 (f = 10, d = 4): at 2.5 the result is 10 + 4 × 0.5 = 12. -/
theorem test_sfuEval :
    let w := wT 0x38 2 1 0 0 0 0 0
    inFlight (exec (.sfuEval (issue .b w)) (sEng .b w (words [0x40200000]) [one 0, one 4]
      (fun c => { c with sfuConfig := [(0, 0x3F80000000000000)], sfuEntry := [(2, 0x4080000041200000)] }))) =
      [(15, .store [(2048, 32, 0x41400000)] .clear)] := by decide +kernel

/-! ### Drains, chains, buckets, updates, masks -/

/-- A set of one row of n lanes, its first lane holding a value. -/
def tile (n : Nat) (x : Word) : AccSet := { shape := some (1, n), lanes := [(0, { sum := x })], terms := 32 }

/-- The identity permutation of R117. -/
def permId : Nat := 0x4688

/-- A scale record of eight bytes at byte 0x800: E_IN and E_OUT 127, no check. -/
def dRecord : BitVec 512 := row 0x800 tyScale 64 56
def recStore : Tbl Byte := pokeAll [] [(8 * 0x800, 8, 127), (8 * 0x800 + 8, 8, 127)]

def wDrain : InstrWord := flag24 (wT 0x48 1 0 0 2 0 0 permId)
def wDrainD : InstrWord := flag24 (wT 0x49 1 0 3 2 0 0 permId)
def sDrain (w : InstrWord) : State :=
  sEng .b w recStore [row 0x1000 tyBF16 32 0, dRecord, row 0x2000 tyBit 512 480]
    (fun c => { c with beam := { c.beam with base := tile 32 0x3FC00000 } })

/-- A compensated buffer of one row of eight lanes and its trailer. -/
def dChain : BitVec 512 := image 0x3000 0 tyComp fmDense 8 2 64 0 0
def wSend : InstrWord := wT 0x50 1 0 0 0 0 0 (7 * 2 ^ 24)
def wSeed : InstrWord := wT 0x51 0 1 0 0 0 0 0
/-- The buffer with 1.0 in its first lane, 40 terms and N = 8. -/
def chainStore : Tbl Byte := pokeAll [] [(8 * 0x3000, 64, 0x3F800000), (8 * 0x3040, 64, 40), (8 * 0x3048, 64, 7 * 256)]

theorem witness_DrainsAndChains :
    (∃ i s a, Runs 0x48 i s a (actDrain a) ∧ drainChecked a (entryD a (tDO a.w)) (drainSet a) = false ∧
      dType (entryD a (tDO a.w)) ≠ tyTun ∧ dHandle (entryD a (tDO a.w)) = 0 ∧ dFmt (entryD a (tDO a.w)) = 0 ∧
      (drained a (entryD a (tDO a.w)) (drainSet a) false).sat = false ∧ fldFlag a.w 0 = true) ∧
    (∃ i s a, Runs 0x49 i s a (actDrainD a) ∧ drainChecked a (entryD a (tDO a.w)) (drainSet a) = false ∧
      dType (entryD a (tDO a.w)) ≠ tyTun ∧ dHandle (entryD a (tDO a.w)) = 0 ∧ dFmt (entryD a (tDO a.w)) = 0 ∧
      (drained a (entryD a (tDO a.w)) (drainSet a) true).sat = false) ∧
    (∃ i s a, Runs 0x50 i s a (actChainSend a) ∧ (drainSet a).shape = some (1, 8) ∧ a.p.map[immCore a.w]? = some 0) ∧
    (∃ i s a, Runs 0x51 i s a (actChainSeed a) ∧ dSize (entryD a (tDA a.w)) 1 - 1 = 1 ∧
      seedN a.c.store (entryD a (tDA a.w)) = 8) :=
  ⟨runsWith (issue .b wDrain) (sDrain wDrain) _ (by decide +kernel),
    runsWith (issue .b wDrainD) (sDrain wDrainD) _ (by decide +kernel),
    runsWith (issue .b wSend) (sEng .b wSend [] [dChain] (fun c => { c with beam := { c.beam with base := tile 8 0 } })) _
      (by decide +kernel),
    runsWith (issue .b wSeed) (sEng .b wSeed chainStore [dChain] id) _ (by decide +kernel)⟩

/-- 1.5 drains to BF16 0x3FC0, and the record's shift byte receives E_OUT + 0. -/
theorem test_drain :
    ((inFlight (exec (.drain (issue .b wDrain)) (sDrain wDrain))).map (fun x => (x.1, match x.2 with
      | .store l _ => (l.head?, l.contains (8 * 0x802, 8, 127))
      | _ => (none, false)))) = [(1 + 1 + 16, some (8 * 0x1000, 16, 0x3FC0), true)] := by decide +kernel

/-- The set that a seed leaves: 40 terms and 1.0 in its first lane (R255). -/
theorem test_chainSeed :
    (getCore (out (exec (.chainSeed (issue .b wSeed)) (sEng .b wSeed chainStore [dChain] id))) 0).beam.later.map
      (fun x => (x.set.shape, x.set.terms, rne32 (laneVal (tget {} x.set.lanes 0)))) = [(some (1, 8), 40, 0x3F800000)] := by
  decide +kernel

/-- The largest exponent of a slice's nonzero elements: that of 6.0 is 2 (R453). -/
theorem test_headerExp : headerExp [.num 0 0, .num 3 1, .num 1 (-3)] = 2 := by decide +kernel

/-- A record of 2 × 512 × 256 = 262,144 elements a cask for contributors 0 and 1. -/
def bucketBytes8 : List Nat := [0x01, 262144 + 64 * 2 ^ 32, 3, 1000 + 9 * 2 ^ 32 + 2 ^ 48 + 2 ^ 56]
def openStore : Tbl Byte :=
  pokeAll [] (bucketBytes8.zipIdx.map (fun x => (64 * x.2, 64, x.1)) ++
    (List.range 8).map (fun i => (512 + 64 * i, 64, 0xFFFFFFFFFFFFFFFF)))

def wOpen : InstrWord := flag24 (wT 0x58 0 2 0 1 0 0 5)
def sOpen (w : InstrWord) : State :=
  { sEng .b w openStore [row 0 tyFP32 16 0, row 64 tyFP32 16 0] id with fabric := 0x8 }

/-- A record of one unit a cask, and core 0 with a slice of one unit. -/
def rec1 : BucketRec := ⟨256, 64, 3, 1000, 9, 1, 1, 0x77, List.replicate 64 0xFF, false⟩
def sBucket (sh : Shuttle) (w : InstrWord) (st : Tbl Byte) (ds : List (BitVec 512)) (g : Core → Core) : State :=
  { sEng sh w st ds g with
    fabric := 0x8
    parts := [{ low := 0, size := 8, ctx := .running, map := [0], buckets := [(5, rec1)] }]
    casks := [(0, { buckets := [{ low := 0, bucket := 5, tag := 0, anchor := some 0, results := [(0, 0x3F800000)] }] })] }

/-- A slice of 256 BF16 elements at byte 0, a piece offset of 0 at byte 0x4000. -/
def dSlice : BitVec 512 := row 0 tyBF16 256 0
def dOff : BitVec 512 := row 0x4000 tyInt32 16 15
  ||| BitVec.ofNat 512 (2 ^ 75)

def wHdr : InstrWord := wT 0x59 0 1 0 0 0 0 (5 + 2 ^ 16)
def wPut : InstrWord := flag24 (wT 0x5A 0 1 0 2 1 0 (5 + 2 ^ 16))
def wNorm : InstrWord := wT 0x5B 0 0 0 0 0 0 5
def wClose : InstrWord := wT 0x5C 0 0 0 0 0 0 5

theorem witness_CaskInstructions :
    (∃ m e k, Exact.num m e ∈ [Exact.num 3 1] ∧ expoE m e = some k) ∧
    (∃ i s a, Runs 0x58 i s a (actCaskOpen a) ∧ (partAt a.s a.p.low).isSome = true) ∧
    (∃ i s a, Runs 0x59 i s a (actCaskHdr a) ∧ mustHold (shOf a.c a.sh) a.c.nextAccess false = false ∧
      operandMeta a.c.store (if dDense (entryD a (tDA a.w)) = true then [] else [(0, entryD a (tDA a.w))]) = none ∧
      immModule a.w ≠ ownIndex a.s ∧
      (getChan a.s (caskPort a.p (immCask a.w)) (immModule a.w)).state ≠ .failed) ∧
    (∃ i s a, Runs 0x5A i s a (actCaskPut a) ∧ mustHold (shOf a.c a.sh) a.c.nextAccess false = false ∧
      dDense (entryD a (tDA a.w)) = true ∧ modeProv a.w = true ∧ (shOf a.c a.sh).accesses = []) ∧
    (∃ i s a, Runs 0x5A i s a (actCaskPut a) ∧ mustHold (shOf a.c a.sh) a.c.nextAccess false = false ∧
      dDense (entryD a (tDA a.w)) = true ∧ immModule a.w = ownIndex a.s ∧ (shOf a.c a.sh).accesses = []) ∧
    (∃ i s a, Runs 0x5B i s a (actCaskNorm a) ∧ bucketRec a.p (immBucket a.w) = some rec1) ∧
    (∃ i s a, Runs 0x5C i s a (actCaskClose a) ∧ bucketRec a.p (immBucket a.w) = some rec1) :=
  let s := fun w => sBucket .b w [] [dSlice, dOff] id
  let wOwn : InstrWord := flag24 (wT 0x5A 0 1 0 2 0 0 5)
  ⟨⟨3, 1, 2, by decide, by decide +kernel⟩,
    runsWith (issue .b wOpen) (sOpen wOpen) _ (by decide +kernel),
    runsWith (issue .b wHdr) (s wHdr) _ (by decide +kernel), runsWith (issue .b wPut) (s wPut) _ (by decide +kernel),
    runsWith (issue .b wOwn) (s wOwn) _ (by decide +kernel),
    runsWith (issue .b wNorm) (s wNorm) _ (by decide +kernel), runsWith (issue .b wClose) (s wClose) _ (by decide +kernel)⟩

/-- A parameter slot: β₁ = 0.5, β₂ = 0.5, LR = 1, no clip, TBASE = 0x5000, LIST entry 5 and NSC entry 3. -/
def slot0 : List Byte :=
  ([1, 1, 0x3F800000 + 0x3F800000 * 2 ^ 32, 0x3F000000 + 0x3F000000 * 2 ^ 32, 0x3F800000, 0x7F800000, 0x5000, 0, 0,
    5 * 2 ^ 48 + 3 * 2 ^ 56].flatMap (leBytes 8)) ++ List.replicate 48 0

/-- Weights, moments, their scales, an old-index list: entries 1 to 5 (4 the wider scales of SUB 2). -/
def updDescs : List (BitVec 512) :=
  [row 0x5000 tyBF16 256 0, image 0x6000 0 tyE4M3 fmDense 256 2 256 0 0, row 0x7000 tyScale 64 0,
    image 0x8000 0 tyScale fmDense 64 1 64 0 0, row 0x9000 tyInt32 256 0]

def wUpd (sub : Nat) : InstrWord :=
  flag24 (wT 0x60 (if sub = 2 then 2 else 1) 2 (if sub = 2 then 4 else 3) 0 0 sub (if sub = 2 then 0 else 5))
def sUpd (w : InstrWord) (buckets : List Half) : State :=
  sBucket .u w [] updDescs (fun c => { c with params := [(0, some slot0)], verdictBuckets := buckets })

def wCfg : InstrWord := flag24 (wT 0x61 0 1 0 3 0 0 0)
def wCull : InstrWord := wT 0x68 2 1 0 0 0 0 (1 + 100 * 2 ^ 12)
def wGrow : InstrWord := wT 0x69 2 1 3 0 0 0 (1 + 100 * 2 ^ 12)
def wCommit : InstrWord := wT 0x6A 0 1 0 0 0 0 0

def dBsrOut : BitVec 512 := image 0xA000 0 tyBF16 fmBSR 16 16 640 0 0
def dScores : BitVec 512 := image 0xC000 0 tyFP32 fmDense 16 16 64 0 0

/-- The conditions of UpdateAndMasks on a derived region. -/
abbrev fitsIn (a : At) (grow : Bool) (k : Nat) (r : Derived) : Prop :=
  cullFmt (entryD a (tDA a.w)) = true ∧ worstMeta (regionChecks a.c.store (entryD a (tDA a.w))) = none ∧
  ((regionBytes (entryD a (tDA a.w)) (headerOf a.c.store (entryD a (tDA a.w)))
    (newP0 (entryD a (tDA a.w)) (headerOf a.c.store (entryD a (tDA a.w))) k grow)
    (bsrBlocks a.c.store (entryD a (tDA a.w))) r.spots).length : Int) ≤ dStride (entryD a (tDO a.w)) 1 ∧
  fldFlag a.w 0 = false

theorem witness_UpdateAndMasks :
    (∃ i s a, Runs 0x61 i s a (actUpdCfg a) ∧ tDX a.w = 3) ∧
    (∃ i s a, Runs 0x60 i s a (actUpd a) ∧ slotOf a = some (paramsOf slot0) ∧ tSub a.w < 2 ∧
      immBucket a.w ∉ a.c.verdictBuckets) ∧
    (∃ i s a, Runs 0x60 i s a (actUpd a) ∧ slotOf a = some (paramsOf slot0) ∧ tSub a.w = 0 ∧
      immBucket a.w ∈ a.c.verdictBuckets ∧ updSkips a.s a.p (immBucket a.w) = false ∧
      operandsChk (readStore a (operandUnits (updReads a))) a.n (updOperands a) ≠ .failed) ∧
    (∃ i s a, Runs 0x60 i s a (actUpd a) ∧ slotOf a = some (paramsOf slot0) ∧ tSub a.w = 1 ∧
      immBucket a.w ∈ a.c.verdictBuckets ∧ updSkips a.s a.p (immBucket a.w) = true ∧
      operandsChk (readStore a (operandUnits (updReads a))) a.n (updOperands a) ≠ .failed) ∧
    (∃ i s a, Runs 0x60 i s a (actUpd a) ∧ slotOf a = some (paramsOf slot0) ∧ tSub a.w = 2 ∧
      operandsChk (readStore a (operandUnits (updReads a))) a.n (updOperands a) ≠ .failed) ∧
    (∃ i s a, Runs 0x68 i s a (actCull a) ∧ dType (entryD a (tDA a.w)) ≠ tyBit ∧
      fitsIn a false (kK a.w) (cullSpots (entryD a (tDA a.w)) (headerOf a.c.store (entryD a (tDA a.w))) (kUnit a.w) (kK a.w)
        (bsrBlocks a.c.store (entryD a (tDA a.w))) (spotsOf a.c.store (entryD a (tDA a.w))))) ∧
    (∃ i s a, Runs 0x69 i s a (actGerminate a) ∧
      fitsIn a true (kK a.w) (growSpots a.c.store (entryD a (tDA a.w)) (entryD a (tDB a.w))
        (headerOf a.c.store (entryD a (tDA a.w))) (kUnit a.w) (kK a.w) (bsrBlocks a.c.store (entryD a (tDA a.w)))
        (spotsOf a.c.store (entryD a (tDA a.w)))) ∧ stageNow a.s = 0) ∧
    (∃ i s a, Runs 0x6A i s a (actMaskCommit a) ∧ True) :=
  let skip : State → State := fun s => { s with parts := s.parts.map (fun p => { p with
    groups := [{ group := 9, count := 1, contrib := 3, joined := 1, members := [5], nonfin := true }] }) }
  let s := fun w => sEng .u w regions [dBsr, dBsrOut, dScores] id
  ⟨runsWith (issue .u wCfg) (sEng .u wCfg [] [dSlice] id) _ (by decide +kernel),
    runsWith (issue .u (wUpd 0)) (sUpd (wUpd 0) []) _ (by decide +kernel),
    runsWith (issue .u (wUpd 0)) (sUpd (wUpd 0) [5]) _ (by decide +kernel),
    runsWith (issue .u (wUpd 1)) (skip (sUpd (wUpd 1) [5])) _ (by decide +kernel),
    runsWith (issue .u (wUpd 2)) (sUpd (wUpd 2) []) _ (by decide +kernel),
    runsWith (issue .u wCull) (s wCull) _ (by decide +kernel), runsWith (issue .u wGrow) (s wGrow) _ (by decide +kernel),
    runsWith (issue .u wCommit) (s wCommit) _ (by decide +kernel)⟩

/-- A UPD before its VERDICT.WAIT writes nothing and is counted (R415). -/
theorem test_upd_blocked :
    let t := out (exec (.upd (issue .u (wUpd 0))) (sUpd (wUpd 0) []))
    (getCore t 0).flight = [] ∧ t.errors.rseq = 1 ∧ (getCore t 0).regs.pcU = 1 := by decide +kernel

/-- One weight: g = 1, β₁ = β₂ = ½ and the moments 0 give m = ½, v = ½ and r = √½; SUB 1 has m = g. -/
theorem test_updateOf :
    let q := paramsOf slot0
    (updateOf q 1 0x3F800000 0x3F800000 0 Exact.zero Exact.zero).2.2 = 0xBF800000 ∧
    (match (updateOf q 0 0x3F800000 0x3F800000 0 Exact.zero Exact.zero).2.1 with
      | some r => rne32 r
      | none => 0) = 0x3F3504F3 := by decide +kernel

/-! ### Selvedge, horizon and journal instructions -/

/-- Core 0 with the CRC-32C configuration and "123456789" in core store. -/
def sCrc (sh : Shuttle) (w : InstrWord) : State :=
  sEng sh w (pokeAll [] ((List.range 9).map (fun i => (8 * i, 8, 0x31 + i)))) [row 0 tyE4M3 64 55, row 0 tyFP32 16 0]
    (fun c => { c with selv := { c.selv with poly := 0x1EDC6F41, init := 0xFFFFFFFF, width := 32, refin := true, refout := true,
                                             inv := true } })

def wRun : InstrWord := wT 0x81 0 1 0 0 0 0 0
def wHash : InstrWord := wT 0x90 0 1 0 0 0 0 0
def wWrite : InstrWord := wT 0x91 0 2 0 0 0 0 0
def wTap : InstrWord := wT 0x92 0 1 0 0 0 0 0
def wHorizon : InstrWord := word 0x88 [(24, 1), (64, 50)]

theorem witness_SelvedgeHorizonJournal :
    (∃ i s a, Runs 0x80 i s a (actSelvCfg a) ∧ sFn a.w = 3) ∧
    (∃ i s a, Runs 0x81 i s a (actSelvRun a) ∧ dDense (entryD a (tDA a.w)) = true ∧ tSub a.w < 2) ∧
    (∃ i s a, Runs 0x82 i s a (actSelvRead a) ∧ sFn a.w = 0) ∧ (∃ i s a, Runs 0x82 i s a (actSelvRead a) ∧ sFn a.w = 1) ∧
    (∃ i s a, Runs 0x88 i s a (actPwrHorizon a) ∧ (partAt a.s a.p.low).isSome = true) ∧
    (∃ i s a, Runs 0x90 i s a (actJnlHash a) ∧ True) ∧ (∃ i s a, Runs 0x91 i s a (actJnlWrite a) ∧ a.lc = 0) ∧
    (∃ i s a, Runs 0x92 i s a (actJnlTap a) ∧ replaying a.s a.p = false) :=
  ⟨runsWith (issue .f (wS 0x80 0 0 0 3 255)) (sCrc .f (wS 0x80 0 0 0 3 255)) _ (by decide +kernel),
    runsWith (issue .f wRun) (sCrc .f wRun) _ (by decide +kernel),
    runsWith (issue .f (wS 0x82 0x1F 0 0 0 0)) (sCrc .f (wS 0x82 0x1F 0 0 0 0)) _ (by decide +kernel),
    runsWith (issue .f (wS 0x82 0 0 0 1 0)) (sCrc .f (wS 0x82 0 0 0 1 0)) _ (by decide +kernel),
    runsWith (issue .f wHorizon) (sCrc .f wHorizon) _ (by decide +kernel),
    runsWith (issue .f wHash) (sCrc .f wHash) _ (by decide +kernel),
    runsWith (issue .f wWrite) (sCrc .f wWrite) _ (by decide +kernel),
    runsWith (issue .f wTap) (sCrc .f wTap) _ (by decide +kernel)⟩

/-- The check value of CRC-32C over "123456789". -/
theorem test_selvRun :
    (inFlight (exec (.selvRun (issue .f wRun)) (sCrc .f wRun))).map (fun x => (x.1, match x.2 with
      | .selv _ r _ _ _ _ => r
      | _ => 0)) = [(4, 0xE3069283)] := by decide +kernel

/-! ### Memory frames -/

/-- Module 0 of eight with one exported allocation entry, some bytes of HBM3E, and core 0's request for a unit of module 1. -/
def sServe : State :=
  { modCore sFabric 0 (fun c => { c with
      queues := [(0, { oldest := 0, next := 1, reqs := [{ request 0 false with
        dr := image 0 3 tyBF16 fmDense 32 1 64 0 0, dest := some 1, sent := true, segs := [⟨0, [(0, 512, 0)]⟩] }] })]
      b := { c.b with accesses := [⟨6, 3, .signal 2, false, false, [(0, 1, signalRx.frame)], 0⟩] } }) with
    parts := [{ low := 0, size := 8, ctx := .running, map := [0], alloc := [alloc0 ||| BitVec.ofNat 128 (2 ^ 47), alloc1] }]
    hbm := [(0, 0x11), (1, 0x22)] }

def req (k : Byte) (inl : Inline) (data : List Byte) : Rx := from1 { frame k with tag := 0x8001, inline := inl, data := data }
def rxRead : Rx := req fkRead (.units [0]) []
def rxWrite : Rx := req fkWrite (.spans [(0, 16)]) [0x55, 0x66]
/-- An ADD of BF16 1.0 onto one BF16 element. -/
def rxAdd : Rx := req fkAdd (.add 2 2 [(16, 1)]) [0x80, 0x3F]
/-- The answer to the request of core 0. -/
def rxData : Rx :=
  from1 { frame fkData with addr := segAddr ⟨0, 0, 0, false, false, 1, 4096⟩ 0, tag := 0x8000, inline := .units [0],
                            data := List.replicate 64 7 }
def rxDone : Rx := from1 { rxData.frame with kind := fkDone, data := [] }
def rxDone0 : Rx := from1 { signalRx.frame with kind := fkDone, inline := .empty, srcShuttle := .b }
def rxTap : Rx := req fkTap (.spans [(0, 16)]) [0x55, 0x66]
/-- A request beyond the entry. -/
def beyond (x : Rx) : Rx := from1 { x.frame with addr := 4096 }

/-- The general hypotheses of RemoteRequestsServed. -/
abbrev served (x : Rx) (k : Byte) (acc poison : Bool) (write : Bool) : Prop :=
  x.frame.kind = k ∧ (takeRx (got sServe x) x).isSome = true ∧ accepts (got sServe x) x.frame write = acc ∧
  heldLines (got sServe x) (rxTier x.frame) (rxUnits x.frame) = [] ∧ x.frame.poison = poison

theorem witness_RemoteRequestsServed :
    takeRx sServe rxRead = none ∧ served rxRead fkRead true false false ∧ served (beyond rxRead) fkRead false false false ∧
    (∃ u ∈ rxUnits rxRead.frame, isPoisoned { got sServe rxRead with poisonHbm := [0] } .hbm u = true) ∧
    served rxWrite fkWrite true false true ∧ served (beyond rxWrite) fkWrite false false true ∧
    served rxAdd fkAdd true false true ∧ (∀ u ∈ rxUnits rxAdd.frame, isPoisoned (got sServe rxAdd) .hbm u = false) ∧
    heldLines { got sServe rxWrite with host := { State.reset.host with snoop := [lineKey .hbm 0] } } .hbm
      (rxUnits rxWrite.frame) ≠ [] ∧
    (rxData.frame.kind = fkData ∧ (takeRx (got sServe rxData) rxData).isSome = true ∧
      findAbandoned (got sServe rxData) rxData = none ∧ (findSegment (got sServe rxData) rxData).isSome = true) ∧
    (findSegment (got sFabric rxData) rxData).isNone = true ∧
    (rxDone.frame.kind = fkDone ∧ (takeRx (got sServe rxDone) rxDone).isSome = true ∧ rxDone.frame.tag ≠ 0 ∧
      (findSegment (got sServe rxDone) rxDone).isSome = true) ∧
    (rxDone0.frame.tag = 0 ∧ (takeRx (got sServe rxDone0) rxDone0).isSome = true ∧
      ((sourceCores (got sServe rxDone0) 0).findSome? (fun n =>
        ((shOf (getCore (got sServe rxDone0) n) .b).accesses.find? (sentThis rxDone0)).map (fun x => (n, x.id, x.frames.length))))
        = some (0, 6, 1)) ∧
    (findAbandoned { got sServe rxData with abandoned := [⟨0, 1, 0x8000, rxData.frame.addr, 1⟩] } rxData).isSome = true ∧
    served rxTap fkTap true false true := by decide +kernel

theorem test_memory_frames :
    (out (exec (.writeFrameReceive rxWrite) (got sServe rxWrite))).hbm = [(0, 0x55), (1, 0x66)] ∧
    (out (exec (.addFrameReceive rxAdd MemEcc.clean) (got sServe rxAdd))).hbm =
      [(0, 0x11), (1, 0x22), (2, 0x80), (3, 0x3F)] ∧
    ((getChan (out (exec (.readFrameReceive rxRead MemEcc.clean) (got sServe rxRead))) 0 1).txq.map (fun x => x.2)) =
      (let bs := 0x11 :: 0x22 :: List.replicate 62 0
       [[.head { frame fkData with tag := 0x8001, inline := .units [0], data := bs }, .data bs]]) := by
  decide +kernel

/-! ### Cask frames -/

/-- Module 0 of eight with bucket 5 open in cask 0: an anchor of 0, and one unit of module 1 as given. -/
def sCask (anchor : Option Int) (u : CaskUnit) (verdicts : List CaskVerdict) : State :=
  { sFabric with
    parts := [{ low := 0, size := 8, ctx := .running, map := [0], buckets := [(5, rec1)] }]
    casks := [(0, { buckets := [{ low := 0, bucket := 5, tag := 0, anchor := anchor, units := tset {} [] (unitKey 1 0) u,
                                  verdicts := verdicts }] })] }

def caskRx (k : Byte) (inl : Inline) (data : List Byte) : Rx :=
  from1 { frame k with addr := caskAddr 5 0 0 0, inline := inl, data := data }
def rxHdr : Rx := caskRx fkCaskHdr (.header 3 false 256 0x77) []
/-- A unit whose first element is BF16 1.0. -/
def unitData : List Byte := [0x80, 0x3F] ++ List.replicate 510 0
def rxPiece : Rx := caskRx fkPiece (.piece 256 false 0 1) unitData
def rxProv : Rx := { rxPiece with frame := { rxPiece.frame with prov := true } }
def rxVerdict (pass : Bool) : Rx := caskRx fkVerdict (.verdict 0 256 pass) []
def placedUnit : CaskUnit := { added := true, own := true, crc := BitVec.ofNat 32 (crc32c unitData), sender := 1 }
def heldUnit : CaskUnit := { placedUnit with ledger := some unitData, awaitsPiece := true }
def loc5 : CaskLoc := { k := 0, low := 0, b := 5 }

/-- The place a frame names. -/
def locOf (p : Part) (x : Rx) : CaskLoc :=
  { k := caskOf p (faCask x.frame.addr), low := p.low, b := faBucket x.frame.addr }

/-- What `forBucket` says, but for the records, in a form that evaluates. -/
abbrev comes (s : State) (x : Rx) : Prop :=
  (takeRx s x).isSome = true ∧
  (partAt s (faLow x.frame.addr)).any (fun p => p.reset.isNone && !p.afterReset && decide (faCask x.frame.addr < caskCount p) &&
    decide (loc5 = locOf p x) && decide (bucketRec p 5 = some rec1)) = true ∧
  (bucketAt s loc5).any (fun b => decide (x.frame.tag = b.tag) && decide (speaksFor x ∉ b.withheld)) = true ∧
  bit rec1.contrib (speaksFor x) = true ∧ (x.frame.backup = true → backupOf rec1 (speaksFor x) = x.sender) ∧
  (getCask s x.port.val).held.any (fun h => sameLane h.rx x) = false

theorem comes_forBucket {s : State} {x : Rx} (h : comes s x) : ∃ p r y, forBucket s x loc5 p r y := by
  obtain ⟨h1, h2, h3, h4, h5, h6⟩ := h
  obtain ⟨p, hp, h2⟩ := (Option.any_eq_true _ _).1 h2
  obtain ⟨y, hy, h3⟩ := (Option.any_eq_true _ _).1 h3
  simp only [Bool.and_eq_true, Option.isNone_iff_eq_none, Bool.not_eq_true', decide_eq_true_eq] at h2 h3
  have hl : (5 : Half) = loc5.b := rfl
  exact ⟨p, rec1, y, h1, hp, h2.1.1.1.1, h2.1.1.1.2, h2.1.1.2, h2.1.2, hy, hl ▸ h2.2, h3.1, h4, h5, h3.2, h6⟩

theorem rxPiece_data : rxPiece.frame.data = unitData := rfl

theorem placedUnit_crc : placedUnit.crc = BitVec.ofNat 32 (crc32c rxPiece.frame.data) := by
  rw [rxPiece_data]
  simp only [placedUnit]

/-- That partition and bucket with changes to each. -/
def recPart : Part := { low := 0, size := 8, ctx := .running, map := [0], buckets := [(5, rec1)] }
def bucket5 : CaskBucket := { low := 0, bucket := 5, tag := 0, anchor := some 0 }
def sAct (p : Part) (bs : List CaskBucket) : State := { sFabric with parts := [p], casks := [(0, { buckets := bs })] }

/-- A frame of bucket 5 reaches its cask, no frame of its lane waits, and the place it names holds. -/
abbrev reaches (s : State) (x : Rx) (g : Part → Bool) (h : Option CaskBucket → Bool) : Prop :=
  (takeRx (got s x) x).isSome = true ∧ (getCask (got s x) x.port.val).held = [] ∧
  (partAt (got s x) (faLow x.frame.addr)).any (fun p => decide (faCask x.frame.addr < caskCount p) &&
    decide (loc5 = locOf p x) && g p) = true ∧ h (bucketAt (got s x) loc5) = true

abbrev calm (p : Part) : Bool := p.reset.isNone && !p.afterReset && decide (bucketRec p 5 = some rec1)

/-- A header, a unit and a verdict. -/
def threeFrames : List Rx := [rxHdr, rxPiece, rxVerdict true]

def heldHdrs : List HeldFrame := [⟨3, rxHdr, 1, (0, 0, 0)⟩, ⟨4, rxHdr, 1, (0, 0, 0)⟩]

theorem witness_CaskFramesAct_discards :
    (∀ x ∈ threeFrames, takeRx sFabric x = none) ∧
    (∀ x ∈ threeFrames, reaches (sAct { recPart with reset := some ⟨1, 1, 0, false, 0, 0, false⟩ } []) x
      (fun p => p.reset.isSome) (fun _ => true)) ∧
    (∀ x ∈ threeFrames, reaches (sAct { recPart with afterReset := true, ctx := .empty } []) x
      (fun p => p.afterReset && p.ctx == .empty) (fun _ => true)) ∧
    (∀ x ∈ threeFrames, reaches (sAct recPart [{ bucket5 with tag := 1 }]) x calm
      (fun b => b.any (fun y => x.frame.tag != y.tag && decide (32767 < (x.frame.tag - y.tag).toNat)))) ∧
    (∀ x ∈ threeFrames, reaches (sAct recPart [{ bucket5 with withheld := [1] }]) x calm
      (fun b => b.any (fun y => x.frame.tag == y.tag && y.withheld.contains (speaksFor x))) ∧
      bit rec1.contrib (speaksFor x) = true ∧ x.frame.backup = false) ∧
    (∀ x ∈ threeFrames, let z : Rx := { x with frame := { x.frame with backup := true, standIn := 0 } }
      reaches (sAct recPart [bucket5]) z calm (fun b => b.any (fun y => z.frame.tag == y.tag)) ∧
      backupOf rec1 (speaksFor z) ≠ z.sender) ∧
    (∀ x ∈ threeFrames, reaches (sAct recPart []) x calm (fun b => b.isNone) ∧ ((5 : Half), x.frame.tag) ∉ recPart.closed ∧
      (x.frame.tag - (getQuad (sAct recPart []) 0).jnlIndex.truncate 16).toNat ≤ 32767) ∧
    (∀ x ∈ threeFrames, let z : Rx := { x with frame := { x.frame with tag := 65535 } }
      reaches (sAct recPart []) z calm (fun b => b.isNone) ∧ ((5 : Half), z.frame.tag) ∉ recPart.closed ∧
      32767 < (z.frame.tag - (getQuad (sAct recPart []) 0).jnlIndex.truncate 16).toNat) := by
  refine ⟨?_, ?_, ?_, ?_, ?_, ?_, ?_, ?_⟩ <;> decide +kernel

theorem witness_CaskFramesAct :
    (∃ m e x, decodeFp fmtBF16 0x3F80 = .num m e ∧ expoE m e = some x ∧ x ≤ 0 ∧ 0 - 117 ≤ e) ∧
    (∃ m e x, decodeFp fmtBF16 0x0001 = .num m e ∧ expoE m e = some x ∧ x ≤ 0 ∧ e < 0 - 117) ∧
    (∃ p r y, forBucket (got (sCask none {} []) rxHdr) rxHdr loc5 p r y) ∧
    (∃ p r y, forBucket (got (sCask (some 0) {} []) rxPiece) rxPiece loc5 p r y) ∧
    (∃ p r y, forBucket (got (sCask (some 0) {} []) rxProv) rxProv loc5 p r y) ∧
    (∃ p r y, forBucket (got (sCask (some 0) placedUnit []) rxPiece) rxPiece loc5 p r y) ∧
    (∃ p r y, forBucket (got (sCask (some 0) heldUnit []) (rxVerdict false)) (rxVerdict false) loc5 p r y) ∧
    (∃ p r y, forBucket (got (sCask (some 0) heldUnit []) (rxVerdict true)) (rxVerdict true) loc5 p r y) ∧
    ((∃ n, rxPiece.frame.inline = .piece n false 0 1) ∧ rxPiece.frame.data.length = 512 ∧
      faElem rxPiece.frame.addr + 256 ≤ rec1.elems ∧ 512 ≤ 1024 * rec1.ledgerKb ∧
      placedUnit.crc = BitVec.ofNat 32 (crc32c rxPiece.frame.data) ∧ heldUnit.awaitsSelv = false) ∧
    (let x : Rx := from1 { rxPiece.frame with tag := 32767 }
     let s := got (sCask (some 0) {} []) x
     (takeRx s x).isSome = true ∧ x.frame.kind = fkPiece ∧ (bucketAt s loc5).any (fun b =>
       decide (1 ≤ (x.frame.tag - b.tag).toNat) && decide ((x.frame.tag - b.tag).toNat ≤ 32767)) = true) ∧
    (let s := { sAct recPart [bucket5] with casks := [(0, { buckets := [bucket5], held := heldHdrs })] }
     let hs := (getCask s 0).held
     (hs.find? (fun h => h.id == 3) = some ⟨3, rxHdr, 1, (0, 0, 0)⟩ ∧ (hs.takeWhile (fun x => x.id != 3)) = []) ∧
     (hs.find? (fun h => h.id == 4) = some ⟨4, rxHdr, 1, (0, 0, 0)⟩ ∧
       (hs.takeWhile (fun x => x.id != 4)).any (fun x => sameLane x.rx rxHdr) = true) ∧
     (partAt s (faLow rxHdr.frame.addr)).any (fun p => calm p && decide (loc5 = locOf p rxHdr)) = true ∧
     bucketAt s loc5 = some bucket5 ∧ rxHdr.frame.tag = bucket5.tag ∧ rxHdr.frame.kind = fkCaskHdr ∧
     bit rec1.contrib (speaksFor rxHdr) = true ∧ rxHdr.frame.backup = false ∧ speaksFor rxHdr ∉ bucket5.withheld ∧
     rxHdr.frame.inline = .header 3 false rec1.elems rec1.digest) ∧
    (∃ n pass, (rxVerdict pass).frame.inline = .verdict 0 n pass ∧ ∀ j, j < n / 256 →
      acceptedCopy (unitOf bucket5 1 (0 / 256 + j)) false = false) ∧
    ((rxVerdict true).frame.inline = .verdict (256 * 0) 256 true ∧ heldUnit.ledger = some unitData ∧
      heldUnit.awaitsPiece = true ∧ staleOf heldUnit false = 0) ∧
    (∀ n ∈ [1, 2], let x := caskRx fkCaskAck (.header 3 false 256 0x77) []
     let a : Access := ⟨4, 3, .caskHdr 5 0 1, false, false, [], n⟩
     let s := got (modCore (sCask none {} []) 0 (fun c => { c with f := { c.f with accesses := [a] } })) x
     (takeRx s x).isSome = true ∧ (partAt s (faLow x.frame.addr)).any (fun p => p.map[x.frame.srcCore]? == some 0) = true ∧
       (shOf (getCore s 0) x.frame.srcShuttle).accesses.find? (ackMatches x.frame x.sender) = some a ∧
       (getCore s 0).pieces = [] ∧ (shOf (getCore s 0) x.frame.srcShuttle).accesses = [a] ∧ a.unanswered = n) ∧
    takeRx sFabric (caskRx fkCaskAck (.header 3 false 256 0x77) []) = none ∧
    rxHdr.frame.inline = .header 3 false rec1.elems rec1.digest := by
  refine ⟨?_, ?_, comes_forBucket (by decide +kernel), comes_forBucket (by decide +kernel),
    comes_forBucket (by decide +kernel), comes_forBucket (by decide +kernel), comes_forBucket (by decide +kernel),
    comes_forBucket (by decide +kernel), ⟨⟨256, rfl⟩, by decide +kernel, by decide +kernel, by decide +kernel, placedUnit_crc, rfl⟩, by decide +kernel,
    by decide +kernel, ⟨256, true, rfl, by decide +kernel⟩, ⟨rfl, rfl, rfl, rfl⟩, by decide +kernel, by decide +kernel, rfl⟩
  · exact ⟨128, -7, 0, by decide +kernel⟩
  · exact ⟨1, -133, -133, by decide +kernel⟩

/-- 1.0 lies 2^117 grid units above an anchor of 0, and a failed verdict takes it out again (R459, R466). -/
theorem test_cask_unit :
    ((bucketAt (out (exec (.caskPieceReceive rxPiece false) (got (sCask (some 0) {} []) rxPiece))) loc5).map
      (fun b => tget 0 b.cells 0)) = some (2 ^ 117) ∧
    (((bucketAt (out (exec (.verdictReceive (rxVerdict false)) (got (sCask (some 0) heldUnit []) (rxVerdict false)))) loc5).map
      (fun b => tget 0 b.cells 0)) = some (-(2 ^ 117))) := by decide +kernel

/-! ### The fabric -/

/-- Module 0 of eight; port 0 is lit and its channel to module 1 as given. -/
def sChan (c : Chan) : State := modPort sFabric 0 (fun p => { p with lit := true, chans := [(1, c)] })
def up : Chan := { state := .up }
def aFlit : Flit := flit []

theorem witness_FlitsAndRetry :
    (∀ c ∈ [up, { up with askRetry := true }, { up with resend := [aFlit] }, { up with unacked := List.replicate 16 aFlit }],
      (getChan (sChan c) 0 1).state = .up ∧ (getChan (sChan c) 0 1).sent = none ∧ 1 ≠ ownIndex (sChan c)) ∧
    (getChan (sChan {}) 0 1).state ≠ .up ∧
    (aFlit.type = .data ∧ aFlit.seq = (getChan (sChan up) 0 1).rxSeq + 1 ∧
      { aFlit with seq := 3 }.seq ≠ (getChan (sChan up) 0 1).rxSeq + 1 ∧
      seqAhead ({ aFlit with seq := 3 }).seq (getChan (sChan up) 0 1).rxSeq = true) ∧
    (∀ n, (getChan (sChan up) 0 1).retryAck ≠ some (5, n + 7)) ∧
    (getChan (sChan { up with retryAck := some (5, 7) }) 0 1).retryAck = some (5, 7) ∧
    (∀ k ∈ [0, 2], let s := sChan { up with state := .retraining, retrainFails := k }
      (getChan s 0 1).state = .retraining ∧ (getPort s 0).sweepHeld = false ∧ (getChan s 0 1).retrainFails = k) ∧
    (getChan { sChan { up with state := .retraining } with pll := us 200 + 1 } 0 1).retrainAt + us 200 < us 200 + 1 ∧
    (let x : Rx := { port := 0, sender := 1, frame := quiesceFrame }
     (takeRx (got (sChan up) x) x).isSome = true ∧ 1 ≠ ownIndex (got (sChan up) x)) := by
  refine ⟨by decide +kernel, by decide +kernel, by decide +kernel, ?_, by decide +kernel, by decide +kernel,
    by decide +kernel, by decide +kernel⟩
  intro n h
  have e : (getChan (sChan up) 0 1).retryAck = none := by decide +kernel
  rw [e] at h
  cases h

def retr : Chan := { up with state := .retraining }
/-- Nine byte errors in codeword 0, and eight. -/
def nineBad : FlitErrors := ⟨0, [0, 8, 16, 24, 32, 40, 48, 56, 64]⟩
def eightBad : FlitErrors := ⟨flitCrc aFlit, [0, 8, 16, 24, 32, 40, 48, 56]⟩

theorem witness_FlitsAndRetry_training :
    (∀ c ∈ [up, { up with askRetry := true }, { up with resend := [aFlit] }, retr], (getPort (sChan c) 0).quiescing = false ∧
      c.holdTill ≤ (sChan c).pll) ∧
    ((getChan (sChan { up with sent := some aFlit, sentAt := 0 }) 0 1).sent = some aFlit ∧
      (sChan { up with sent := some aFlit }).pll < 0 + nsUp 128) ∧
    ((getChan (sChan retr) 0 1).state = .retraining ∧ (getChan (sChan retr) 0 1).sweepHeld = false ∧
      mayTrain (sChan retr) 0 1 = true) ∧
    (getChan (sChan { retr with sweepHeld := true }) 0 1).sweepHeld = true ∧
    (correctable nineBad = false ∧ correctable eightBad = true ∧ codewordErrors nineBad 0 = 9 ∧ eightBad.bad ≠ []) ∧
    (seenOn (rxLine 0 1) [⟨63, 0, 1⟩] = some ⟨63, 0, 1⟩ ∧ seenOn (rxLine 0 1) [⟨63, 2, 1⟩] = some ⟨63, 2, 1⟩ ∧
      seenOn (rxLine 0 1) [⟨62, 0, 1⟩] = none) := by decide +kernel

/-- A flit that is not corrupted, or that corrects to what was sent, passes its CRC; another fails it (R486). -/
theorem witness_FlitsAndRetry_crc :
    (eightBad.crc = flitCrc aFlit ∧ ∃ e : FlitErrors, e.bad = [] ∧ e.crc ≠ flitCrc aFlit) :=
  ⟨rfl, ⟨flitCrc aFlit + 1, []⟩, rfl, by simp⟩

/-- A flit takes the next number and is kept; a third failed retrain fails the channel (R495, R498, R499). -/
theorem test_channel :
    (let c := getChan (out (exec (.flitSend 0 1) (sendFrame (sChan up) 0 1 { frame fkSignal with inline := .signal 2 }))) 0 1
     c.txSeq = 1 ∧ c.unacked.map (fun f => (f.seq, f.slots.length)) = [(0, 1)]) ∧
    (getChan (out (exec (.retrainComplete 0 1 []) (sChan { up with state := .retraining, retrainFails := 2 }))) 0 1).state =
      .failed := by decide +kernel

/-- The eight modules' training flits at port 0 of module 0, but for the one of module 3. -/
def trains : List TrainingSeen := (List.finRange 8).filterMap (fun m =>
  if m = 3 then none else some { line := BitVec.toFin (BitVec.ofNat 6 (64 - m.val)), port := 0, sender := m.val })

/-- A powered module of eight whose port 0 is dark and has its laser. -/
def sDark (c : Chan) : State :=
  { modPort sFabric 0 (fun p => { p with laserOk := true, chans := [(1, c), (3, up)] }) with
    pll := us 200, power := { State.reset.power with rails := true }, parts := [{ low := 0, size := 8 }] }

/-- That device in stage S1, and in S5 with its end under way. -/
def sDarkHeld (stage : Nat) (ending : Option Nat) : State :=
  { sDark up with power := { State.reset.power with rails := true, stage := stage, s5Ending := ending } }
/-- That port lit, with a quiesced channel to module 1. -/
def sLitQuiet : State := modPort (sDark { up with state := .quiesced }) 0 (fun p => { p with lit := true })

theorem witness_PortsCalibrateAndLight :
    ((mayLight (sDarkHeld 1 none) (getPort (sDarkHeld 1 none) 0) = true ∧ sweepsHeld (sDarkHeld 1 none) = true ∧
        (getPort (sDarkHeld 1 none) 0).lit = false) ∧
      (mayLight (sDarkHeld 5 (some 2)) (getPort (sDarkHeld 5 (some 2)) 0) = true ∧
        (sDarkHeld 5 (some 2)).power.s5Ending.isSome = true ∧ (getPort (sDarkHeld 5 (some 2)) 0).lit = false) ∧
      (mayLight sLitQuiet (getPort sLitQuiet 0) = true ∧ (getPort sLitQuiet 0).lit = true ∧
        trained 0 0 1 trains = true ∧ trained 0 0 3 trains = false ∧ trained 0 0 1 [⟨63, 2, 1⟩] = false)) ∧
    (∀ c ∈ [up, { up with resend := [aFlit] }], let s := { sChan c with pll := us 200 }
      let s := modPort s 0 (fun p => { p with calNext := 1 })
      (getPort s 0).lit = true ∧ (getPort s 0).calAt + us (bits s.calCtrl 0 7) ≤ s.pll ∧
        skipsTracking (getChan s 0 (getPort s 0).calNext) = !c.resend.isEmpty) ∧
    (getPort sFabric 0).lit = false ∧ mayLight sFabric (getPort sFabric 0) = false ∧
    (∀ c ∈ [up, { up with state := .quiesced }, { up with state := .failed }], mayLight (sDark c) (getPort (sDark c) 0) = true ∧
      sweepsHeld (sDark c) = false ∧ (getPort (sDark c) 0).lit = false ∧ fabricN (sDark c) = 8) ∧
    ((seenOn (rxLine 0 1) trains).map (fun x => (x.port, x.sender)) = some (0, 1) ∧
      seenOn (rxLine 0 3) trains = none) ∧
    (bit (8 : Dword) 3 = true ∧ (getChan (modChan (sDark up) 0 3 (fun c => { c with state := .failed })) 0 3).state = .failed) ∧
    ((sDark up).parts.all (fun x => x.ctx == .empty) = true ∧ clampN (bits (8 : Word) 0 7) = 8 ∧
      clampN (bits (1 : Word) 0 7) = 1 ∧ sFabric.parts.all (fun x => x.ctx == .empty) = false) := by
  refine ⟨?_, ?_, ?_, ?_, ?_, ?_, ?_, ?_⟩ <;> decide +kernel

/-- A module missing from the wiring fails its channel; the others come up; N is clamped to a multiple of 8 (R505, R509). -/
theorem test_bringUp :
    (let t := out (exec (.portBringUp 0 trains) (sDark up))
     (getPort t 0).lit = true ∧ (getChan t 0 1).state = .up ∧ (getChan t 0 3).state = .failed ∧ (getPort t 0).failed = 8) ∧
    (out (exec (.portFabricWrite (BitVec.ofNat 32 (21 + 63 * 2 ^ 8))) (sDark up))).fabric = BitVec.ofNat 32 (24 + 23 * 2 ^ 8) := by
  decide +kernel

/-! ### Results, verdicts and the journal -/

/-- Core 0 at schedule cycle 10 with results in flight. -/
def sLand (fs : List Flight) : State := modCore sFabric 0 (fun c => { c with cycle := 10, flight := fs })
def fly (due : Nat) (e : Effect) : Flight := { due := due, order := 0, sh := .f, access := none, verdict := none, effect := e }
def tunPass : AccStep := { due := 10, set := {} }

/-- A result stands alone in flight, due now, with no access and no verdict of its own. -/
abbrev landable (f : Flight) : Prop :=
  (getCore (sLand [f]) 0).flight = [f] ∧ f.due ≤ (getCore (sLand [f]) 0).cycle ∧ f.access = none ∧ f.verdict = none

def sPass (work issued overran : Nat) : State :=
  modCore sFabric 0 (fun c => { c with cycle := 200, pass := some ⟨issued, 100, work, false, overran, false⟩ })

theorem witness_ResultsLand_marks :
    (∀ e ∈ ([.reg 5 7, .desc 3 0, .store [(0, 16, 1)] .clear, .jnlFold [1]] : List Effect),
      chainHeld (getCore (sLand [fly 10 e]) 0) (fly 10 e) = false) ∧
    (let y : AccMark := ⟨10, true, false, true⟩
     let s := modCore (sLand []) 0 (fun c => { c with beam := { c.beam with marks := [y] } })
     (getCore s 0).flight = [] ∧ (getCore s 0).beam.marks = [y] ∧ y.due ≤ (getCore s 0).cycle) := by decide +kernel

theorem witness_ResultsLand :
    (∀ e ∈ ([.reg 5 7, .desc 3 0, .store [(0, 16, 1)] .clear, .paramSlot 2 [1], .sfuConfig 4 1 2, .sfuEntries 4 9 [1],
        .selvCfg 3 0xFF, .jnlFold [1, 2], .commit [(0, 16, 1)]] : List Effect),
      landable (fly 10 e) ∧ isTun (fly 10 e) = false) ∧
    (corePart (sLand [fly 10 (.commit [(0, 16, 1)])]) 0).isSome = true ∧
    (let s := modCore (sLand []) 0 (fun c => { c with beam := { c.beam with later := [tunPass] } })
     (getCore s 0).flight = [] ∧ (getCore s 0).beam.later = [tunPass] ∧ tunPass.due ≤ (getCore s 0).cycle) ∧
    (let s := modCore (sLand []) 0 (fun c => { c with heddle := { c.heddle with later := [{ tunPass with due := 11 }] } })
     (getCore s 0).flight = [] ∧ (getCore s 0).heddle.later = [{ tunPass with due := 11 }] ∧ (getCore s 0).cycle < 11) ∧
    (∀ e ∈ ([.tunStore [(0, 16, 1)] .clear [], .accum true [(0, .num 1 0)] false .clear [] true] : List Effect),
      landable (fly 10 e) ∧ isTun (fly 10 e) = true) ∧
    (let f := fly 11 (.tunStore [(0, 16, 1)] .clear [])
     (getCore (sLand [f]) 0).flight.filter isTun = [f] ∧ (getCore (sLand [f]) 0).cycle < f.due) ∧
    landable (fly 10 (.selv 0 5 [] [(0, 32, 5)] .clear none)) ∧
    (∀ x ∈ [(150, 100, 0), (50, 100, 0), (150, 100, 50)], (getCore (sPass x.1 x.2.1 x.2.2) 0).pass =
      some ⟨x.2.1, 100, x.1, false, x.2.2, false⟩) ∧
    (100 < 150 ∧ 100 + 100 ≤ (getCore (sPass 150 100 0) 0).cycle ∧ 50 ≤ 100 ∧ 100 + 50 ≤ (getCore (sPass 50 100 0) 0).cycle ∧
      150 - 100 ≤ 50) := by decide +kernel

/-- A result lands on its cycle, not one before (R82). -/
theorem test_lands :
    ((getCore (out (exec (.resultVisible 0) (sLand [fly 10 (.reg 5 7)]))) 0).regs.a = [(5, 7)]) ∧
    ((getCore (out (exec (.resultVisible 0) (sLand [fly 11 (.reg 5 7)]))) 0).regs.a = []) := by decide +kernel

/-- A verdict of a landed tile, with a unit of core store that waits for it. -/
def aVerdict (fails : Option (Nat × Nat)) : Verdict :=
  { id := 4, sh := .b, pc := 9, opcode := 0x48, eng := 0, landed := some 5, fails := fails, tun := false, elems := [(0, 16, 1)] }
def sVerdict (fails : Option (Nat × Nat)) : State :=
  modCore (sLand []) 0 (fun c => { c with verdicts := [aVerdict fails], storeChk := [(0, .prov [4])] })

/-- A piece whose frame has gone, for module 1. -/
def aPiece : PieceVerdict :=
  { id := 6, sh := .b, pc := 9, dest := 1, offset := 0, count := 256, deps := [], failed := false, units := [0], da := 0,
    head := { frame fkPiece with addr := caskAddr 5 0 0 0 } }
def sPiece : State := modCore sFabric 0 (fun c => { c with pieces := [aPiece] })

/-- Core 0 has folded and issued its JNL.WRITE. -/
def sJournal : State :=
  modCore sFabric 0 (fun c => { c with jnlPend := [(0, List.replicate 64 1)], jnlHash := 5, nextOrder := 1 })

theorem oneCore (c : Core) (m : Nat) (s : State) (h : s.cores = [(0, c)]) (hc : twf Chk.clear c.storeChk = true) :
    twf Chk.clear (getCore s m).storeChk = true := by
  unfold getCore
  rw [h]
  unfold tget
  split
  · exact hc
  · rfl

theorem witness_VerdictsAndJournal :
    (∀ f ∈ [none, some (0, 0)], (getCore (landAll (sVerdict f) 0) 0).verdicts.find? (fun v => v.id == 4 && v.landed.isSome) =
      some (aVerdict f) ∧ twf ({} : Core) (landAll (sVerdict f) 0).cores = true ∧
      tget Chk.clear (getCore (landAll (sVerdict f) 0) 0).storeChk 0 = .prov [4]) ∧
    (∀ f ∈ [none, some (0, 0)], ∀ m, twf Chk.clear (getCore (landAll (sVerdict f) 0) m).storeChk = true) ∧
    ((corePart sPiece 0).any (fun p => caskPort p (faCask aPiece.head.addr) == 0) = true ∧
      (getCore sPiece 0).pieces.find? (fun v => v.id == 6) = some aPiece ∧
      (∀ x ∈ (shOf (getCore sPiece 0) aPiece.sh).accesses, x.id = 6 → x.held = false) ∧ pieceGone sPiece 0 aPiece = true) ∧
    ((partOf (sJournal) 0).any (fun p => p.map == [0] && p.reset.isNone && decide (partAt (sJournal) p.low = some p))
        = true ∧ jnlReady (getCore (landAll (sJournal) 0) 0) = true ∧
      (getCore (landAll (sJournal) 0) 0).starveTotal = [] ∧ heldLines (landAll (sJournal) 0) .lpddr [0, 1] = []) ∧
    jnlReady (getCore (sLand []) 0) = false := by
  refine ⟨by decide +kernel, ?_, by decide +kernel, by decide +kernel, by decide +kernel⟩
  intro f hf m
  have h : f = none ∨ f = some (0, 0) := by simpa using hf
  rcases h with rfl | rfl
  · exact oneCore (getCore (landAll (sVerdict none) 0) 0) m _ (by decide +kernel) (by decide +kernel)
  · exact oneCore (getCore (landAll (sVerdict (some (0, 0))) 0) 0) m _ (by decide +kernel) (by decide +kernel)

/-- That verdict is the quadrant's oldest, and not the oldest once core 1 has one that landed before it. -/
theorem witness_VerdictsAndJournal_queue :
    (∀ f ∈ [none, some (0, 0)], headOfChecker (landAll (sVerdict f) 0) 0 (aVerdict f) = true) ∧
    (let s := modCore (sVerdict none) 1 (fun c => { c with verdicts := [{ aVerdict none with landed := some 4 }] })
     (getCore (landAll s 0) 0).verdicts.find? (fun v => v.id == 4 && v.landed.isSome) = some (aVerdict none) ∧
       headOfChecker (landAll s 0) 0 (aVerdict none) = false) := by decide +kernel

/-- A failed verdict is counted by what the repeat says (R559, R565). -/
theorem test_verdict :
    (let c := getCore (out (exec (.plausibilityVerdict 0 4 .neither) (sVerdict (some (0, 0))))) 0
     (tget 0 c.counters ctrPlaus, tget 0 c.counters ctrRepeat, tget .clear c.storeChk 0)) = (1, 2, .failed) ∧
    tget .clear (getCore (out (exec (.plausibilityVerdict 0 4 .first) (sVerdict none))) 0).storeChk 0 = .clear := by
  decide +kernel
/-! ### Contexts, hangs and resets -/

/-- One partition of one quadrant on core 0, with its shuttles in a mode. -/
def sPart (p : Part) (m : ShMode) : State :=
  let c : Core := { f := { mode := m }, b := { mode := m }, u := { mode := .ended } }
  { sFabric with parts := [p], cores := [(0, c)], pll := ms 200 }
def onCore0 : Part := { low := 0, size := 1, ctx := .running, map := [0] }
def resetting (level began : Nat) : ResetSeq := ⟨level, level, 0, false, 0, began, false⟩

/-- The partition of quadrant 0 is the one given. -/
abbrev holds (s : State) (p : Part) : Prop := partOf s 0 = some p ∧ partAt s p.low = some p

theorem witness_ContextsHangsResets :
    longest [(0, Shuttle.f, 4), (0, .b, 3)] = some (0, .b, 3) ∧
    (let p := { onCore0 with stopping := true }
     let s := sPart p .wait
     holds s p ∧ p.ctx = .running ∧ p.reset = none ∧ p.faultFirst = none ∧ p.stopping = true ∧ allSh s p shHeld = true) ∧
    (holds (sPart onCore0 .ended) onCore0 ∧ allSh (sPart onCore0 .ended) onCore0 shEnded = true) ∧
    (∀ c ∈ [Ctx.running, .stopped], let p := { onCore0 with faultFirst := some (0, 1, 2), ctx := c }
     let s := sPart p .halted
     holds s p ∧ p.reset = none ∧ p.faultFirst.isSome = true ∧ allSh s p (shHalted s.cc) = true) ∧
    (let p := { onCore0 with ctx := .empty, clearing := some 0 }
     holds (sPart p .off) p ∧ p.ctx ≠ .running ∧ p.clearing.isSome = true) ∧
    (let s := sPart onCore0 .wait
     holds s onCore0 ∧ longest (standing s onCore0) = some (0, .f, 0) ∧ watched s onCore0 = true ∧
       0 + hangWindow s onCore0 ≤ s.pll) ∧
    (let s := { sPart onCore0 .wait with pll := 5 }
     holds s onCore0 ∧ s.pll < 0 + hangWindow s onCore0) ∧
    (let p := { onCore0 with hangShuttle := some (0, .f, 7) }
     let s := modQuad (sPart p .wait) 0 (fun q => { q with hangCtrl := 0x20064 })
     holds s p ∧ bits (getQuad s p.low).hangCtrl 16 2 ≠ 0 ∧ (shOf (getCore s 0) .f).progressAt ≤ 7 ∧
       7 + hangWindow s p ≤ s.pll ∧ p.s4Hold = none) ∧
    (∀ l ∈ [1, 2, 3, 4], let p := { onCore0 with reset := some (resetting l 0) }
      let s := sPart p .halted
      holds s p ∧ 0 + levelLimit l < s.pll ∧ (resetting l 0).overrun = false) ∧
    (∀ x ∈ [resetting 1 (ms 200), { resetting 4 0 with overrun := true }, { resetting 3 0 with overrun := true }],
      let p := { onCore0 with reset := some x }
      holds (sPart p .halted) p ∧ ((sPart p .halted).pll ≤ x.levelBegan + levelLimit x.level ∨ x.overrun = true) ∧
        localDone (sPart p .halted) p = true) := by
  refine ⟨?_, ?_, ?_, ?_, ?_, ?_, ?_, ?_, ?_, ?_⟩ <;> decide +kernel

/-- The hang of the longest stall is reported and HUNG set (R603); an L1 that is done leaves the context EMPTY (R612). -/
theorem test_hang :
    ((getQuad (out (exec (.hangDetect 0) (sPart onCore0 .wait))) 0).hangCtrl, (out (exec (.hangDetect 0)
      (sPart onCore0 .wait))).errors.store.map (fun r => r.kind)) = ((0x64 : Word) ||| BitVec.ofNat 32 (2 ^ 24), [0x30]) ∧
    (out (exec (.resetSequenceComplete 0) (sPart { onCore0 with reset := some (resetting 1 (ms 200)) } .halted))).parts.map
      (fun p => (p.ctx, p.afterReset)) = [(.empty, true)] := by decide +kernel

/-! ### Ring commands -/

def aRing : Ring := { tail := 1, ctrl := 0x36 }
/-- A serviced device with a command at the head of ring 0. -/
def sRing (p : Part) : State :=
  { sPart p .ended with rings := [(0, aRing)], boot := { State.reset.boot with service := 1 } }
def part0 (c : Ctx) : Part := { onCore0 with ctx := c }
def cmd (opc arg : Nat) : CmdEntry := { entry (BitVec.ofNat 8 opc) with arg := BitVec.ofNat 64 arg }

/-- What `ringRuns` says, but for the partition, in a form that evaluates. -/
abbrev takes (opc : Nat) (e : CmdEntry) (s : State) : Prop :=
  ringReady s 0 opc = true ∧ rowTakes opc e = true ∧ e.bad = false ∧ entryBad e = false ∧
  serviceTakes s.boot.service opc = true

/-- A binary for one quadrant and one core, of one instruction. -/
def aBinary (fab : Nat) : Binary :=
  { code := 0x9600, fabric := fab, quadrants := 1, kq := [1], profile := 1,
    cores := [⟨[wS 0 0 0 0 0 0], [], [], [[0x55]], []⟩], demand := [], fixups := [] }
def loadCmd : CmdEntry := { cmd cLoad 0 with addr2 := BitVec.ofNat 64 (2 ^ 30) }

def ckCmd : CmdEntry := { cmd cCheckpoint 0 with len0 := 256 }
def ckManifest : List RecordSource := [⟨1, 5, 0, .hbm, 4096, 8⟩]
/-- A stopped context with eight bytes to save. -/
def sSave : State := { sRing (part0 .stopped) with hbm := [(4096, 9), (4099, 7)] }
/-- The state after that checkpoint, with the next command at the head of the ring. -/
def sSaved : State := modRing (out (exec (.checkpoint 0 ckCmd ckManifest) sSave)) 0 (fun x => { x with tail := 2 })
def ckTargets : List RecordTarget := [⟨1, 5, 0, .hbm, 8192⟩]

theorem witness_RingCommandsRun :
    (∀ fab ∈ [8, 16], let p := part0 .empty
      let s := sRing p
      let x := aBinary fab
      let i := input x
      let cs := applyFixups s p.low i.params x.cores x.fixups
      takes cLoad loadCmd s ∧ partAt s 0 = some p ∧ p.clearing = none ∧ loadLines s loadCmd i = [] ∧
        loadFields loadCmd = false ∧ regionBad s p (i.alloc.take (loadCmd.len1.toNat / 16)) loadCmd.addr2.toNat
          (up4k (codeSize x.cores)) = false ∧ loadRefusal s p x cs = (if fab = 8 then none else some 3)) ∧
    (∀ c ∈ [Ctx.loaded, .stopped, .running], takes cStart (cmd cStart 0) (sRing (part0 c)) ∧
      takes cStop (cmd cStop 0) (sRing (part0 c)) ∧ takes cUnload (cmd cUnload 0) (sRing (part0 c)) ∧
      takes cReset (cmd cReset 2) (sRing (part0 c)) ∧ partAt (sRing (part0 c)) 0 = some (part0 c)) ∧
    (takes cCheckpoint ckCmd sSave ∧ partAt sSave 0 = some (part0 .stopped) ∧ ckAddrBad ckCmd = false ∧
      heldLines sSave (ckTier ckCmd.addr0) (rangeUnits (ckOff ckCmd.addr0) (ckLength ckManifest)) = [] ∧
      inTier sSave (ckTier ckCmd.addr0) (ckOff ckCmd.addr0) ckCmd.len0.toNat = true ∧
      (∀ x ∈ ckManifest, inTier sSave x.tier x.offset x.length = true ∧
        ∀ u ∈ rangeUnits x.offset x.length, isPoisoned sSave x.tier u = false) ∧ ckLength ckManifest ≤ ckCmd.len0.toNat) ∧
    (takes cRestore (cmd cRestore 0) sSaved ∧ takes cReplay (cmd cReplay 3) sSaved ∧
      partAt sSaved 0 = some (part0 .stopped) ∧ ckAddrBad (cmd cRestore 0) = false ∧
      restoreLines sSaved (cmd cRestore 0) ckTargets = [] ∧
      (restoreBad sSaved (part0 .stopped) (cmd cRestore 0) ckTargets).isNone = true ∧
      (restoreBad sSaved (part0 .stopped) (cmd cReplay 3) ckTargets).isNone = true) ∧
    (∀ a ∈ [0x55, 0x56], takes cPartition (cmd cPartition a) (sRing (part0 .empty)) ∧
      partAt (sRing (part0 .empty)) 0 = some (part0 .empty) ∧ allEmpty (sRing (part0 .empty)) = true ∧
      layoutOk (cmd cPartition a).arg.toNat = decide (a = 0x55)) := by
  refine ⟨?_, by decide +kernel, by decide +kernel, by decide +kernel, by decide +kernel⟩
  simp only
  decide +kernel

/-- A checkpoint restored elsewhere gives the saved bytes back (R435, R436). -/
theorem test_restore :
    ((out (exec (.restore 0 (cmd cRestore 0) ckTargets) sSaved)).hbm.filter (fun x => 4096 ≤ x.1)) =
      [(4096, 9), (4099, 7), (8192, 9), (8195, 7)] := by decide +kernel

/-- A binary for another fabric size is refused with code 3 (R96); START runs the context. -/
theorem test_load :
    (out (exec (.load 0 loadCmd (input (aBinary 16))) (sRing (part0 .empty)))).host.completions.map (fun c => c.status) = [3] ∧
    (out (exec (.load 0 loadCmd (input (aBinary 8))) (sRing (part0 .empty)))).host.completions.map
      (fun c => (c.status, c.detail)) = [(0, 16)] ∧
    (out (exec (.start 0 (cmd cStart 0)) (sRing (part0 .loaded)))).parts.map (fun p => p.ctx) = [.running] := by decide +kernel

/-! ### Sections, deadlines and norms -/

/-- The state with one bucket as given in cask 0. -/
def sSec (x : CaskBucket) (groups : List NormGroup) : State :=
  { sFabric with
    pll := us 5000
    parts := [{ low := 0, size := 8, ctx := .running, map := [0], buckets := [(5, rec1)], groups := groups }]
    casks := [(0, { buckets := [x] })] }
/-- Both contributors have said their largest exponent, and module 0 has placed its unit. -/
def secBucket : CaskBucket :=
  { low := 0, bucket := 5, tag := 0, clock := some 0, anchor := some 0, headers := [0, 1],
    units := [(unitKey 0 0, { added := true, own := true })], cells := [(0, 2 ^ 117)] }
def fullBucket : CaskBucket := { secBucket with units := secBucket.units ++ [(unitKey 1 0, { added := true, own := true })] }
/-- A selvedge check of module 1's unit, which lies in the ledger and waits for it. -/
def selvCheck : CaskVerdict := ⟨9, 1, false, true, 1, false, false, [0], []⟩
def checkBucket : CaskBucket :=
  { secBucket with units := [(unitKey 1 0, { added := true, own := true, ledger := some [0], awaitsSelv := true })],
                   verdicts := [selvCheck] }
def group9 : NormGroup := { group := 9, count := 1, contrib := 3, partials := [(0, some (0, 0, false))], sent := true }
def rxNorm : Rx := from1 { frame fkNorm with addr := caskAddr 0 0 0 0, inline := .norm 9 0x41800000 0 false }

/-- That check while its piece's only unit has not been accepted, and one that passed. -/
def waitCheck : CaskVerdict := { selvCheck with units := [0], waiting := [0] }
def passCheck : CaskVerdict := { selvCheck with pass := true }

theorem witness_SectionsDeadlinesNorms_checks :
    (∀ v ∈ [waitCheck, passCheck], let x := { checkBucket with verdicts := [v] }
      (getCask (sSec x []) 0).buckets.findSome? (fun x =>
        (x.verdicts.find? (fun v => v.id == 9 && v.selv && !v.landed)).map (fun v => (x, v))) = some (x, v) ∧
      (v.waiting = [0] ∨ 0 ∉ v.waiting) ∧ 0 ∈ v.units ∧ (unitOf x v.speaksFor 0).backup = v.backup) ∧
    (∀ g ∈ [group9, { group9 with contrib := 7 }],
      let lacks := fun (g : NormGroup) => g.group == 9 && (tget none g.partials rxNorm.sender).isNone
      (sSec secBucket [g]).parts.flatMap (fun p => p.groups) = [g] ∧ ([g] : List NormGroup).findIdx? lacks = some 0 ∧
        g.sent = true ∧ g.final = none ∧ ([] : List NormGroup).findIdx? lacks = none) ∧
    rxNorm.frame.inline = .norm 9 0x41800000 0 false := by
  refine ⟨?_, ?_, ?_⟩ <;> decide +kernel

theorem witness_SectionsDeadlinesNorms :
    (∀ x ∈ [secBucket, fullBucket, checkBucket], bucketAt (sSec x []) loc5 = some x ∧
      (partAt (sSec x []) 0).any (fun p => decide (bucketRec p 5 = some rec1) && p.reset.isNone) = true) ∧
    (rec1.elems ≤ 2 ^ 28 ∧ canSeal fullBucket rec1 = true ∧ twf 0 fullBucket.cells = true ∧ canSeal secBucket rec1 = false) ∧
    (bucketDeadline secBucket rec1 = some (us 1000) ∧ us 1000 ≤ (sSec secBucket []).pll ∧
      secBucket.bucketElapsed = false ∧ bucketDeadline { secBucket with clock := none } rec1 = none) ∧
    (sectionDeadline secBucket rec1 0).any (fun d => decide (d ≤ us 5000)) = true ∧
    unitsResolved { secBucket with elapsed := [0] } rec1 0 1 = false ∧
    ((getCask (sSec checkBucket []) 0).buckets.findSome? (fun x =>
        (x.verdicts.find? (fun v => v.id == 9 && v.selv && !v.landed)).map (fun v => (x, v))) = some (checkBucket, selvCheck) ∧
      (unitOf checkBucket 1 0).ledger.isSome = true ∧ (unitOf checkBucket 1 0).awaitsSelv = true) ∧
    (∀ gs ∈ [[], [group9]], let s := got (sSec secBucket gs) rxNorm
      (takeRx s rxNorm).isSome = true ∧ rxNorm.frame.kind = fkNorm ∧ (partAt s (faLow rxNorm.frame.addr)).isSome = true ∧
        rxNorm.sender ≠ ownIndex s) := by
  refine ⟨?_, ?_, ?_, ?_, ?_, ?_, ?_⟩ <;> decide +kernel

/-- A full section seals to the rounded cells (R470); a missing contributor is withheld at the deadline; sqrt(16) is the
norm of the partials 0 and 16 (R473, R474). -/
theorem test_sections :
    ((bucketAt (out (exec (.sectionSeal 0 0 5) (sSec fullBucket []))) loc5).map (fun x => (x.sealedCount, x.results))) =
      some (1, [(0, 0x3F800000)]) ∧
    ((bucketAt (out (exec (.sectionDeadline 0 0 5) (sSec secBucket []))) loc5).map (fun x => x.withheld)) = some [1] ∧
    (out (exec (.normReceive rxNorm) (got (sSec secBucket [group9]) rxNorm))).parts.flatMap (fun p =>
      p.groups.map (fun g => g.final)) = [some 0x40800000] := by decide +kernel
/-! ### Host registers, windows and the link -/

/-- The device with a segment for the first 64 GiB of HBM3E, one line of which the host holds. -/
def sHost (lines : List Nat) : State :=
  { sFabric with host := { State.reset.host with seg := [(0, 0x80)], snoop := lines } }
def sSnooping (lines : List Nat) : State :=
  { sFabric with host := { State.reset.host with seg := [(0, 0x80)], snoop := lines, snooping := [6], segWait := [(0, 0)] } }
/-- One more record than the device had. -/
def sRecord : State := record sFabric { kind := 0x51, detail := 3 }
def aRec : Record × Nat × Nat × Bool := ((sRecord.errors.store.headD ⟨0, 0, 0, 0, 0, 0, 0, 0, 0, 0, 0, 0, 0, 0, 0, 0, 0, 0, 0⟩), 3, 2, false)

theorem witness_HostRegistersAndRings :
    (bit ({} : Ring).ctrl 4 = false ∧ bit aRing.ctrl 4 = true ∧ bit (0x18 : Word) 4 = true ∧ bit (0x08 : Word) 4 = false) ∧
    (segHeld (sHost []) 0 = false ∧ segClamp (sHost []) 0x80 = segReg (sHost []) 0 ∧
      segClamp (sHost []) 0xC0 ≠ segReg (sHost []) 0 ∧ segLines (sHost []) 0 = [] ∧ segLines (sHost [6]) 0 ≠ []) ∧
    (9 ∉ (sSnooping [6]).host.snooping ∧ 6 ∈ (sSnooping [6]).host.snooping ∧
      (sSnooping [6]).host.segWait = [(0, 0)] ∧ (∀ l ∈ segLines (sSnooping [6]) 0, l = 6) ∧
      ∃ l ∈ segLines (sSnooping [6, 8]) 0, l ≠ 6) ∧
    (ringFull { sFabric with errors := { sFabric.errors with head := 65536 } } = true ∧ sFabric.errors.store = [] ∧
      sFabric.errors.table = []) ∧
    (ringFull sRecord = false ∧ ringLineHeld sRecord = false ∧ sRecord.errors.store.length = 1) ∧
    (let s := { sRecord with errors := { sRecord.errors with store := [], table := [aRec] } }
     ringFull s = false ∧ ringLineHeld s = false ∧ s.errors.store = [] ∧ s.errors.table = [aRec]) := by
  refine ⟨by decide +kernel, by decide +kernel, by decide +kernel, by decide +kernel, by decide +kernel,
    ⟨by decide +kernel, by decide +kernel, rfl, rfl⟩⟩

/-- Pointers stop at the ring's last entry (R520); a held line keeps its segment until the host has given it up (R517). -/
theorem test_pointers :
    (getRing (out (exec (.cellarRingTailWrite 0 0xFFF) (sRing (part0 .empty)))) 0).tail = 63 ∧
    segReg (out (exec (.cellarHdmSegWrite 0 0xC0) (sHost [6]))) 0 = 0x80 ∧
    segReg (out (exec (.biSnoopResponse 6) (out (exec (.cellarHdmSegWrite 0 0xC0) (sHost [6]))))) 0 = 0xC0 := by decide +kernel

theorem witness_HostWindowLinkScrub :
    (let s := sHost []
     0 < hdmBytes ∧ segHeld s 0 = false ∧ stageNow s < 5 ∧ segEn (segReg s 0) = true ∧ isPoisoned s .hbm 0 = false ∧
       s.host.snoop.length < snoopSize ∧ s.errors.store.length < 512 ∧ (Tier.hbm, 0) ∈ (⟨[(.hbm, 0)], []⟩ : MemEcc).bad ∧
       inCode s .hbm 0 8 = false) ∧
    inCode { sHost [] with parts := [{ low := 0, size := 8, ctx := .loaded, codeStart := 0, codeLen := 4096 }] } .hbm 0 8 = true ∧
    segEn (segReg sFabric 0) = false ∧ hdmBytes ≤ 2 ^ 40 ∧
    mmioRule sFabric (access 0x100 16 0) = some 4 ∧ mmioRule sFabric (access 0x102 32 0) = some 4 ∧
    (0 : BitVec 12) = sFabric.host.pid ∧ (3 : BitVec 12) ≠ sFabric.host.pid ∧
    (bit sFabric.scrubCtrl 0 = true ∧ stageNow sFabric = 0 ∧ (getQuad sFabric 0).idle ≠ 4 ∧
      64 * 5 < tierBytes sFabric (tierCode .hbm) ∧ heldLines sFabric .hbm [5] = [] ∧ isPoisoned sFabric .hbm 5 = false) ∧
    ¬ 64 * 2 ^ 40 < tierBytes sFabric (tierCode .hbm) := by decide +kernel

/-- A link found at full width and rate, degraded in either, at another width or rate; bound to another host, or not. -/
theorem witness_HostWindowLinkScrub_link :
    (∀ x ∈ [(8, 64), (4, 64), (8, 32)], (x.1 = 4 ∨ x.1 = 8) ∧ (x.2 = 32 ∨ x.2 = 64) ∧ (x = (8, 64) ∨ x.1 = 4 ∨ x.2 = 32)) ∧
    (∀ x ∈ [(2, 64), (8, 16)], ¬ ((x.1 = 4 ∨ x.1 = 8) ∧ (x.2 = 32 ∨ x.2 = 64))) ∧
    (LinkFound.mk 64 (some 7)).binding = some 7 := by decide +kernel

/-- A read through a disabled segment is poisoned zeros and is counted with rule 2 (R191); one through an enabled one is
the memory's bytes. -/
theorem test_window :
    (out (exec (.hdmHostRead 64 false MemEcc.clean) sFabric)).host.replies = [.data 64 (List.replicate 64 0) true] ∧
    (out (exec (.hdmHostRead 66 false MemEcc.clean) { sHost [] with hbm := [(65, 9)] })).host.replies =
      [.data 64 (0 :: 9 :: List.replicate 62 0) false] := by decide +kernel

/-! ### Firmware and management -/

/-- An image of one 64-byte body, SVN 3, its keys and signatures zeros. -/
def fwHead : List Byte := fwMagic ++ [1, 0, 3, 0, 0, 0, 0, 0] ++ leBytes 8 64
def fwImage : List Byte := fwHead ++ List.replicate 4200 0

/-- A device whose fuses hold the hashes of that image's keys. -/
def sFw (p : BootPhase) : State :=
  { sFabric with
    fuses := { State.reset.fuses with eccKeyHash := Config.sha384 (imgBytes fwImage (fwBlock fwImage) 97),
                                      lmsKeyHash := Config.sha256 (imgBytes fwImage (fwBlock fwImage + 256) 56) }
    flash := { State.reset.flash with image := fwImage, staging := fwImage, marker := true }
    boot := { State.reset.boot with phase := p } }

theorem imgByte_head (l : List Byte) (n i : Nat) (h : l.length ≤ i) (h2 : i < l.length + n) :
    imgByte (l ++ List.replicate n 0) i = 0 := by
  simp [imgByte, List.getD_eq_getElem?_getD, List.getElem?_append_right h, show i - l.length < n by omega]

theorem zeros_head (l : List Byte) (n a k : Nat) (h : l.length ≤ a) (h2 : a + k ≤ l.length + n) :
    zeros (l ++ List.replicate n 0) a k = true := by
  simp only [zeros, imgBytes, List.all_map, List.all_eq_true, List.mem_range, Function.comp_apply, beq_iff_eq]
  intro i hi
  exact imgByte_head l n (a + i) (by omega) (by omega)

theorem fwImage_body : fwBodyLen fwImage = 64 := by decide +kernel

theorem fwImage_header : headerOk fwImage = true := by
  have z := fun a k => zeros_head fwHead 4200 a k
  have hl : fwHead.length = 24 := by decide
  simp only [headerOk, fwBlock, fwImage_body, Bool.and_eq_true]
  refine ⟨⟨⟨⟨⟨⟨⟨⟨by decide +kernel, by decide +kernel⟩, by decide +kernel⟩, by decide⟩, ?_⟩, ?_⟩, ?_⟩, ?_⟩, ?_⟩ <;>
    exact z _ _ (by omega) (by omega)

/-- The image passes every check where its two signatures do. -/
theorem fwImage_passes (p : BootPhase)
    (h1 : Config.ecdsaVerify (imgBytes fwImage (fwBlock fwImage) 97) (imgBytes fwImage (fwBlock fwImage + 128) 96)
      (fwCovered fwImage) = true)
    (h2 : Config.lmsVerify (imgBytes fwImage (fwBlock fwImage + 256) 56) (imgBytes fwImage (fwBlock fwImage + 320) 1772)
      (fwCovered fwImage) = true) : verifyImage (sFw p) true fwImage = 0 := by
  have h : ¬ fwSvn fwImage < (sFw p).fuses.otpSvn := Nat.not_lt_zero _
  simp [verifyImage, fwImage_header, h1, h2, h]
  simp [sFw]

/-- What does not turn on the signatures, which the configuration leaves open. -/
theorem witness_FirmwareAndManagement :
    ((∀ p : BootPhase, (sFw p).power.rails = true ∧ (sFw p).boot.phase = p ∧ stageNow (sFw p) ≤ 3) ∧
      stageNow { sFw .start with power := { State.reset.power with stage := 4 } } = 4 ∧
      verifyImage (sFw .start) false fwImage ≠ 0 ∧ verifyImage (sFw .recovery) true [] ≠ 0) ∧
    ((sFw .done).boot.updating = none ∧ sessionsOf (sFw .done) .cxl = [] ∧ endpointUp (sFw .done) .i3c = true ∧
      endpointUp (sFw .start) .i3c = false ∧ (measure (sFw .done) 1).isSome = true ∧ measure (sFw .done) 5 = none) ∧
    (let s := { sFw .done with boot := { (sFw .done).boot with
       updating := some .i3c, updateVerified := true, sessionsCxl := [0, 1], imageSvn := 3 } }
     s.boot.phase = .done ∧ s.boot.updating = some .i3c ∧ s.boot.updateVerified = true ∧ 2 ≤ (sessionsOf s .cxl).length ∧
       1 ∈ s.boot.sessionsCxl ∧ 5 ∉ s.boot.sessionsCxl ∧ s.fuses.otpSvn < s.boot.imageSvn ∧ s.boot.imageSvn ≤ 64 ∧
       (sFw .done).boot.imageSvn ≤ (sFw .done).fuses.otpSvn) := by
  refine ⟨⟨fun p => ⟨rfl, rfl, Nat.zero_le _⟩, rfl, ?_, ?_⟩, by decide +kernel, by decide +kernel⟩
  · simp [verifyImage]
  · have h : headerOk [] = false := by decide +kernel
    simp [verifyImage, h]

/-- Both endpoints answer, and a control message may name an endpoint identifier or a transmission unit. -/
theorem witness_FirmwareAndManagement_mctp :
    (∀ ep ∈ [Endpoint.cxl, .i3c], endpointUp (sFw .done) ep = true) ∧ (0 : Byte).toNat % 128 = 0 ∧
    (∀ ask ∈ [MctpAsk.nothing, .setEid 9, .unit 100], (MctpMessage.mk [0] ask).ask = ask) := ⟨by
  intro ep h
  have h : ep = .cxl ∨ ep = .i3c := by simpa using h
  rcases h with rfl | rfl <;> rfl, rfl, fun _ _ => rfl⟩

/-- An image that is not one fails with reason 2 and is dropped from the update (R660, R663). -/
theorem test_transfer :
    (let s := { State.reset with boot := { State.reset.boot with phase := .done, updating := some .cxl } }
     let t := out (exec (.pldmComponentTransfer .cxl [1, 2]) s)
     (t.boot.replies, t.boot.updating)) = ([.verifyComplete .cxl 2], none) := by decide +kernel
/-! ### Fences, tests and runs -/

/-- A device with eight idle quadrants, one partition, and a core selected for the self-test. -/
def sTest (c : Ctx) (t : SelfTest) : State :=
  { sFabric with parts := [{ low := 0, size := 8, ctx := c, map := if c = .empty then [] else [0] }], selfTest := t, pll := ms 3 }
def wantsTest : SelfTest := { busy := true, sel := 3, left := 3, asked := 2 }
def selvRun (len : Dword) : Option (Word × Dword × Dword × Dword × Dword × Dword) :=
  some (0x3A0, 0x1EDC6F41, 0xFFFFFFFF, 0, len, 0xE3069283)
/-- "123456789" at the start of HBM3E, and a host run over it. -/
def sHostRun (len : Dword) : State :=
  { sFabric with hbm := (List.range 9).map (fun i => (i, BitVec.ofNat 8 (0x31 + i))), pll := 100,
                 hostSelv := { State.reset.hostSelv with busy := true, run := selvRun len } }

theorem witness_Fences :
    (let s := { sTest .empty {} with fence := 1 }
     bit (1 : Dword) 0 = true ∧ isFenced s 0 = true ∧ (corePart s 0).any (fun p => p.ctx == .empty) = true ∧
       (w1cNow s 0x100).testBit 0 = false ∧ isFenced s 1 = false) ∧
    ((∀ j, bit (1 : Dword) j = true ↔ j = 0) ∧ isFenced (sTest .running {}) 0 = false) ∧
    (∀ c ∈ [Ctx.empty, .running], (corePart (sTest c {}) 0).any (fun p =>
      decide (partAt (sTest c {}) p.low = some p) && p.ctx == c && (c == .empty || p.map.contains 0)) = true) ∧
    ((getCore (sTest .running {}) 0).storeCause = false ∧ pairActive (sTest .running {}) 0 = false ∧
      (getQuad (sTest .running {}) 0).pairNext = none ∧
      (getCore (modCore (sTest .running {}) 0 (fun c => { c with storeCause := true })) 0).storeCause = true) := by
  refine ⟨by decide +kernel, ⟨?_, by decide +kernel⟩, by decide +kernel, by decide +kernel⟩
  intro j
  simp only [bit]
  constructor
  · intro h
    match j with
    | 0 => rfl
    | j + 1 => simp [BitVec.getLsbD_one] at h
  · rintro rfl
    decide

/-- A context whose quadrant has cores 2 and 3 paired, for a fence or for a test, or waiting to be for core 2's fence. -/
def sPairOf (test : Bool) : State := modQuad (sTest .running {}) 0 (fun q => { q with pair := 0x8302, testPair := test })
def sPairNext : State := modQuad { sTest .running {} with fence := 4 } 0 (fun q => { q with pairNext := some (2, 3) })

theorem witness_Fences_second :
    (pairActive (sPairOf false) 0 = true ∧ (getQuad (sPairOf false) 0).testPair = false) ∧
    (pairActive (sPairOf true) 0 = true ∧ (getQuad (sPairOf true) 0).testPair = true ∧ nextIsFence (sPairOf true) 0 0 = false ∧
      pairFenced (sPairOf true) 0 < 192) ∧
    nextIsFence sPairNext 0 0 = true ∧
    (∀ s ∈ [sPairOf false, sPairOf true, sPairNext], isFenced s 0 = false ∧
      (corePart s 0).any (fun p => decide (partAt s p.low = some p) && p.ctx == .running && p.map.contains 0) = true) := by
  decide +kernel

theorem witness_TestsAndRuns :
    (bit (7 : Word) 2 = true ∧ (sTest .empty {}).selfTest.busy = false ∧ selected (sTest .empty { sel := 3 }) ≠ 0 ∧
      selected (sTest .empty {}) = 0) ∧
    (let s := sTest .empty wantsTest
     s.selfTest.busy = true ∧ bit s.selfTest.left 0 = true ∧ (corePart s 0).any (testWindow s) = true) ∧
    (let s := sTest .running { wantsTest with intrusive := true }
     (corePart s 0).any (fun p => !testWindow s p && testIntrudes s p && p.map.contains 0 && !p.map.contains 1) = true ∧
       bit s.selfTest.left 1 = true ∧ isFenced s (partnerOf s 0) = false) ∧
    (corePart (sTest .running wantsTest) 0).any (fun p => !testWindow (sTest .running wantsTest) p &&
      !testIntrudes (sTest .running wantsTest) p) = true ∧
    (∀ d ∈ [false, true], let s := sTest .empty { wantsTest with started := [(0, 1)], kind := d }
      tget 0 s.selfTest.started 0 ≠ 0 ∧ tget 0 s.selfTest.started 0 + testTime s ≤ s.pll + 1) ∧
    tget 0 (sTest .empty {}).selfTest.started 0 = 0 ∧
    (bit (16 : Word) 4 = true ∧ (sTest .empty {}).selfTest.calBusy = false ∧ sFabric.selfTest.calRun = none) ∧
    (∀ kind ∈ [false, true], ({ wantsTest with calRun := some (kind, 2, 0) }).calRun = some (kind, 2, 0) ∧
      ¬ (sTest .empty {}).pll < 0 + us 100 ∧ sweepsHeld (sTest .empty {}) = false) ∧
    ((sHostRun 9).hostSelv.run = selvRun 9 ∧ sFabric.hostSelv.busy = false ∧
      0 + 9 ≤ tierBytes (sHostRun 9) (tierCode .hbm) ∧ (sHostRun 9).hostSelv.began + 24 * ceilDiv 9 64 ≤ (sHostRun 9).pll ∧
      (∀ u ∈ rangeUnits 0 9, isPoisoned (sHostRun 9) .hbm u = false) ∧
      tierBytes (sHostRun 9) (tierCode .hbm) < 0 + bits (BitVec.ofNat 64 (2 ^ 41)) 0 42) ∧
    ({ sFabric.boot with service := 2 }).service = 2 := by
  refine ⟨?_, ?_, ?_, ?_, ?_, ?_, ?_, ?_, ?_, ?_⟩ <;> decide +kernel

/-- A port of a fabric of eight, lit, whose sweep has come to wavelength `m`. -/
def sSweep (m : Nat) : State :=
  modPort { sTest .empty { calRun := some (false, 0, 0), calWave := m } with fabric := 8 } 0 (fun p => { p with lit := true })

theorem witness_TestsAndRuns_sweep :
    (let s := sSweep 3
     fabricN s = 8 ∧ (getPort s 0).lit = true ∧ sweepsHeld s = false ∧ s.selfTest.calTill ≤ s.pll ∧ s.selfTest.calWave ≤ 3) ∧
    ∀ m, ¬ ((sSweep 8).selfTest.calWave ≤ m ∧ m < fabricN (sSweep 8)) := by
  refine ⟨by decide +kernel, fun m h => ?_⟩
  have : fabricN (sSweep 8) = 8 := by decide +kernel
  have : (sSweep 8).selfTest.calWave = 8 := rfl
  omega

/-- +6 dBm is 3.98107… mW and +12 dBm 15.84893… mW; 64 lines of the latter are more than +30 dBm (R705). -/
theorem test_laser :
    [3981071, 3981072, 15848931, 15848932].map lineOk = [false, true, true, false] ∧
    [List.replicate 64 15625000, List.replicate 64 15848931, List.replicate 63 15625000].map laserGood = [true, false, false] := by
  decide +kernel

/-- The example of R687: the semaphore saturates again on the cycle of the write, SAT reads 1 and one more record is written. -/
theorem test_w1c :
    (let s := modCore sFabric 80 (fun c => { c with sems := [(4, { count := 65535, sat := true })] })
     let t := out (exec (.registerWrite (access 0x1501010 32 0x10000)) (semAdd s 80 4 1))
     let u := out (exec (.registerWrite (access 0x1501010 32 0x10000)) s)
     ((tget {} (getCore t 80).sems 4).sat, t.errors.rseq - s.errors.rseq, (tget {} (getCore u 80).sems 4).sat)) =
      (true, 1, false) := by decide +kernel

/-- The CRC-32C of "123456789" through the host path (R598). -/
theorem test_hostRun :
    (let t := out (exec (.hostSelvRunComplete MemEcc.clean) (sHostRun 9))
     (t.hostSelv.result, t.hostSelv.mismatch, t.hostSelv.done)) = (0xE3069283, false, true) := by decide +kernel

/-! ### Registers and idle levels -/

/-- A device at an idle level, its context EMPTY. -/
def sIdle (l : Nat) : State :=
  { (List.range 8).foldl (fun s q => modQuad s q (fun x => { x with idle := l })) sFabric with
    parts := [{ low := 0, size := 8 }] }
def readOf (a w : Nat) : MmioAccess := { write := false, addr := a, width := w, value := 0 }

/-- That device with its choice up to date. -/
def sChosen (l : Nat) : State := { sIdle l with power := { (sIdle l).power with idleSeen := choiceNow (sIdle l) } }

theorem witness_RegistersAndIdle_choice :
    (choiceChanged (sChosen 2) = false ∧ (partOf (sChosen 2) 0).any (fun p => decide (idleLevel (sChosen 2) p ≤
        (getQuad (sChosen 2) p.low).idle)) = true) ∧
    (∀ l ∈ [1, 2, 4], choiceChanged (sIdle l) = true ∧ (getQuad (sIdle l) 0).exitAt = none ∧ stageNow (sIdle l) < 5 ∧
      (partOf (sIdle l) 0).any (fun p => p.low == 0 && idleLevel (sIdle l) p == 1) = true ∧ (getQuad (sIdle l) 0).idle = l) ∧
    (getQuad (modQuad (sIdle 1) 0 (fun q => { q with exitAt := some 5 })) 0).exitAt.isSome = true := by decide +kernel

theorem witness_RegistersAndIdle :
    (∀ c ∈ [Ctx.empty, .loaded, .stopped, .running, .faulted], (partOf { sFabric with parts := [part0 c] } 0) = some (part0 c)) ∧
    ((partOf (sIdle 0) 0).any (fun p => idleLevel (sIdle 0) p == 1 && decide (saveLines (sIdle 0) (savesDies (sIdle 0) p 1) = [])) =
        true ∧ (getQuad (sIdle 0) 0).idle < 1 ∧ (getQuad (sIdle 2) 0).idle = 2) ∧
    (let s := { sIdle 2 with rings := [(0, aRing)] }
     (partOf s 0).any (fun p => (getQuad s p.low).idle != 0 && exitCause s p .command) = true ∧
       (partOf (sIdle 2) 0).any (fun p => !exitCause (sIdle 2) p .command) = true) ∧
    (coreQuadOf (readOf 0x40008 32).addr = some 0 ∧ mmioRule (sIdle 2) (readOf 0x40008 32) = none ∧
      mmioRule (sIdle 3) (readOf 0x40008 32) = some 6 ∧ atI2 (sIdle 2) (readOf 0x40008 32) = true) ∧
    (∀ x ∈ [readOf 0x38 64, access 0x38 32 5, access 0x3C 32 5, access 0x38 64 5, access 0x8000 32 0, access 0x1000004 32 7],
      mmioRule sFabric x = none ∧ atI2 sFabric x = false ∧ readWaits sFabric x = false) ∧
    readWaits (modQuad sFabric 0 (fun q => { q with genNext := some 4 })) (readOf 0x38 64) = true ∧
    regAt sFabric 0x8000 = none ∧ isDisabled sFabric 0 = false ∧
    (partAt sFabric 0).any (fun p => decide (1 ≤ p.size)) = true := by decide +kernel

/-! ### Supply, clocks and heat -/

def sPow (p : Power) : State := { sPart onCore0 .wait with power := p, pll := ms 200 }

theorem witness_SupplyClocksAndHeat :
    ((1 : Nat) ≤ 5 ∧ (4000 : Nat) < 5300 - 200 * 5 ∧ 3 ≤ 4 ∧ 4750 < 5400 - 200 * 3) ∧
    (max (0 : Nat) 0 = ({} : Power).divNow ∧ max 2 0 ≠ ({ divHost := 2 } : Power).divNow) ∧
    (stageFor 0 5400 = 0 ∧ stageFor 0 4850 = 2 ∧ stageFor 0 4250 = 5 ∧ stageFor 4 5000 = 1 ∧ stageFor 5 5400 = 0 ∧
      (sPow {}).power.s5Wait = none ∧ (sPow {}).power.tclkAbsent = false ∧
      ∀ p ∈ (sPart (part0 .empty) .off).parts, p.ctx ≠ .running) ∧
    (let s := sPow { stage := 4 }
     holds s onCore0 ∧ 4 ≤ stageNow s ∧ onCore0.stopping = false ∧ s4Holds s onCore0 = false ∧
       s.power.s4At + ms s.power.s4LimitMs ≤ s.pll) ∧
    ¬ 4 ≤ stageNow (sPow {}) ∧
    ((sPow {}).power.tclk = true ∧ (sPow { tclk := false, tclkLostAt := some 0 }).power.tclk = false ∧
      0 + ms 100 ≤ (sPow { tclk := false, tclkLostAt := some 0 }).pll ∧ ms 150 < ms 150 + ms 100) ∧
    (((sPow {}).power.throttle : Int) ≤ 460 ∧ (sPow {}).power.divTherm < 4 ∧ (sPow {}).power.thermAt + ms 1 ≤ (sPow {}).pll ∧
      (300 : Int) < ((sPow {}).power.throttle : Int) - 20 ∧ 0 < ({ divTherm := 2 } : Power).divTherm ∧
      ¬ ((sPow {}).power.throttle : Int) ≤ 390 ∧ ¬ (390 : Int) < ((sPow {}).power.throttle : Int) - 20) ∧
    ((460 : Int) ≤ 460 ∧ (sPow {}).power.crit = false ∧ ({ crit := true } : Power).crit = true) := by decide +kernel

/-- S5 and an absent TCLK, with every port dark, every request complete and no port that could light, or one that could. -/
def sDarkPow (p : Power) (laser : Bool) : State := modPort (sPow p) 0 (fun x => { x with laserOk := laser })

theorem witness_SupplyClocksAndHeat_s5 :
    ((sPow {}).power.s5Ending = none ∧ portsDark (sPart (part0 .empty) .off) = true ∧ memoryIdle (sPart (part0 .empty) .off) = true) ∧
    (∀ laser ∈ [false, true], let s := sDarkPow { stage := 5, s5Ending := some 0 } laser
      let w := sDarkPow { stage := 5, tclk := false, tclkAbsent := true, tclkLostAt := some 0 } laser
      let v := sDarkPow { tclkAbsent := false, s5Ending := some 0, stage := 2 } laser
      s.power.stage = 5 ∧ stageFor 5 5400 < 5 ∧ portsUp s = !laser ∧ portsUp v = !laser ∧
      w.power.tclk = false ∧ w.power.tclkAbsent = true ∧ w.power.stage = 5) ∧
    (∀ x ∈ [(false, none), (true, some 0), (false, some 0)],
      let s := sPow { tclk := false, tclkLostAt := some 0, tclkAbsent := x.1, s5Ending := x.2 }
      s.power.tclkLostAt = some 0 ∧ (s.power.tclkAbsent = false ∨ s.power.s5Ending.isSome = true) ∧ 0 + ms 100 ≤ s.pll ∧
        s.power.stage < 5) ∧
    (let s := sPow { tclk := false, tclkLostAt := some 0, tclkAbsent := true }
     s.power.tclkAbsent = true ∧ s.power.s5Ending = none ∧ s.power.stage ≠ 5) := by
  refine ⟨?_, ?_, ?_, ?_⟩ <;> decide +kernel

/-- A fall through three stages records once and counts three; a stage is left 100 mV above where it is entered. -/
theorem test_stages :
    (let t := out (exec (.shedStageChange 4700) (sPow {}))
     (t.power.stage, t.power.stageCounts, t.errors.store.map (fun r => r.kind))) = (2, [(1, 1), (2, 1)], [0x40]) ∧
    (out (exec (.shedStageChange 4950) (sPow { stage := 2 }))).power.stage = 2 ∧
    (out (exec (.shedStageChange 5000) (sPow { stage := 2 }))).power.stage = 1 := by decide +kernel

theorem witness_PowerOnAndOff :
    ((sPow {}).power.rails = true ∧ (sPow {}).power.pgood = true ∧ (sPow {}).power.pwrEn = true ∧
      3999 < 4000 ∧ 6200 < 6201 ∧ (500 : Int) ≤ 500) ∧
    (let p : Power := { rails := false, pgood := false, pwrEn := false }
     p.pgood = false ∧ p.pwrEn = false ∧ p.rails = false ∧ 4800 ≤ 4800 ∧ 4799 < 4800) ∧
    (let p : Power := { rails := false, pgood := false, awaitInput := true }
     p.awaitInput = true ∧ p.pwrEn = true ∧ 4800 < 4801 ∧ 4801 ≤ 6200) ∧
    (let p : Power := { pwrEn := false }
     p.pwrEn = false ∧ p.rails = true) ∧
    (let s := { sPart (part0 .empty) .off with power := {} }
     s.power.pwrEn = true ∧ s.power.rails = true ∧ (∀ p ∈ s.parts, p.ctx ≠ .running) ∧ portsDark s = true ∧
       memoryIdle s = true) := by
  refine ⟨?_, ?_, ?_, ?_, ?_⟩ <;> decide +kernel

/-- 3.999 V switches the device off; it comes back above 4.8 V (R701, R702). -/
theorem test_undervoltage :
    (let t := out (exec (.inputUndervoltageOff 3999) (sPow {}))
     (t.power.rails, t.power.awaitInput, t.parts.map (fun p => p.ctx),
       (out (exec (.inputReturn 4801) t)).power.rails)) = (false, true, [.empty], true) := by decide +kernel
end Sys2Proof.Tests
end

section
/-! Register and descriptor writes going in flight (R76, R145): the three ends of `pushWrite`, by whether a write of the
same target from another shuttle lands on the same schedule cycle, and whose shuttle is the later one. -/

namespace Sys2Proof.Machine

/-! ### The collision of two writes -/

/-- Whether a result in flight collides with a write that a shuttle issues now: another shuttle's write of the same
target, landing on the same schedule cycle. -/
def writeClash (c : Core) (sh : Shuttle) (lat : Nat) (e : Effect) (f : Flight) : Bool :=
  f.due == c.cycle + lat && f.sh != sh && sameTarget f.effect e

/-- What a collision leaves behind: REG_COLLIDE set, and noted as set on this cycle (R687). -/
def noteCollide (s : State) (n : Nat) : State :=
  noteW1c (modCore s n (fun c => { c with collide := true })) (corePage n 0) 3

/-- The core without the results in flight that collide with the write. -/
def dropClashes (c : Core) (sh : Shuttle) (lat : Nat) (e : Effect) : Core :=
  { c with flight := c.flight.filter (fun f => !writeClash c sh lat e f) }

theorem sameTarget_reg_iff (e : Effect) (r : Byte) (v : Dword) :
    sameTarget e (.reg r v) = true ↔ ∃ w, e = .reg r w := by
  cases e <;> simp [sameTarget]

/-- For a register write the collision is with a write of that register. -/
theorem writeClash_reg_iff (c : Core) (sh : Shuttle) (lat : Nat) (r : Byte) (v : Dword) (f : Flight) :
    writeClash c sh lat (.reg r v) f = true ↔ f.due = c.cycle + lat ∧ f.sh ≠ sh ∧ ∃ w, f.effect = .reg r w := by
  simp [writeClash, sameTarget_reg_iff, and_assoc]

theorem mem_dropClashes_flight (c : Core) (sh : Shuttle) (lat : Nat) (e : Effect) (f : Flight) :
    f ∈ (dropClashes c sh lat e).flight ↔ f ∈ c.flight ∧ ¬ writeClash c sh lat e f := by
  simp [dropClashes]

/-! ### The core after each step of a write -/

@[simp] theorem getCore_push_same (s : State) (n : Nat) (sh : Shuttle) (lat : Nat) (access verdict : Option Nat)
    (e : Effect) : getCore (push s n sh lat access verdict e) n =
      { getCore s n with nextOrder := (getCore s n).nextOrder + 1
                         flight := (getCore s n).flight ++ [{ due := (getCore s n).cycle + lat
                                                              order := (getCore s n).nextOrder, sh := sh
                                                              access := access, verdict := verdict, effect := e }] } :=
  getCore_modCore_same s n _

@[simp] theorem getCore_noteCollide_same (s : State) (n : Nat) :
    getCore (noteCollide s n) n = { getCore s n with collide := true } := by
  rw [noteCollide, getCore_noteW1c, getCore_modCore_same]

theorem onlyCores_push (s : State) (n : Nat) (sh : Shuttle) (lat : Nat) (access verdict : Option Nat) (e : Effect) :
    onlyCores [n] s (push s n sh lat access verdict e) :=
  onlyCores_modCore s _ (List.mem_singleton_self n)

theorem onlyCores_noteCollide (s : State) (n : Nat) : onlyCores [n] s (noteCollide s n) :=
  onlyCores_trans (onlyCores_modCore s _ (List.mem_singleton_self n)) (onlyCores_noteW1c _ _ _ _)

/-! ### The three ends of a write -/

theorem pushWrite_of_free {s : State} {a : At} {lat : Nat} {e : Effect}
    (hfree : ∀ f ∈ (getCore s a.n).flight, ¬ writeClash (getCore s a.n) a.sh lat e f) :
    pushWrite s a lat e = push s a.n a.sh lat none none e :=
  if_neg (fun hany => by
    obtain ⟨f, hf, hc⟩ := List.any_eq_true.mp hany
    exact hfree f hf hc)

/-- The write issued now is the earlier shuttle's, so the one in flight stays. -/
theorem pushWrite_of_later {s : State} {a : At} {lat : Nat} {e : Effect} {f : Flight}
    (hf : f ∈ (getCore s a.n).flight) (hc : writeClash (getCore s a.n) a.sh lat e f) (hl : shIdx a.sh < shIdx f.sh) :
    pushWrite s a lat e = noteCollide s a.n :=
  (if_pos (List.any_eq_true.mpr ⟨f, hf, hc⟩)).trans
    (if_pos (List.any_eq_true.mpr ⟨f, hf, Bool.and_eq_true_iff.mpr ⟨hc, decide_eq_true hl⟩⟩))

/-- The write issued now is the latest shuttle's, so it takes the place of those in flight. -/
theorem pushWrite_of_earlier {s : State} {a : At} {lat : Nat} {e : Effect}
    (hclash : ∃ f ∈ (getCore s a.n).flight, writeClash (getCore s a.n) a.sh lat e f)
    (hl : ∀ f ∈ (getCore s a.n).flight, writeClash (getCore s a.n) a.sh lat e f → ¬ shIdx a.sh < shIdx f.sh) :
    pushWrite s a lat e =
      push (modCore (noteCollide s a.n) a.n (fun c => dropClashes c a.sh lat e)) a.n a.sh lat none none e := by
  have hcore : modCore (noteCollide s a.n) a.n (fun c => dropClashes c a.sh lat e) =
      modCore (noteCollide s a.n) a.n (fun c =>
        { c with flight := c.flight.filter (fun f => !writeClash (getCore s a.n) a.sh lat e f) }) := by
    simp [modCore, dropClashes, writeClash]
  rw [hcore]
  refine (if_pos (List.any_eq_true.mpr hclash)).trans (if_neg (fun hany => ?_))
  obtain ⟨f, hf, hboth⟩ := List.any_eq_true.mp hany
  obtain ⟨hc, hlate⟩ := Bool.and_eq_true_iff.mp hboth
  exact hl f hf hc (of_decide_eq_true hlate)

theorem onlyCores_pushWrite (s : State) (a : At) (lat : Nat) (e : Effect) :
    onlyCores [a.n] s (pushWrite s a lat e) := by
  by_cases hclash : ∃ f ∈ (getCore s a.n).flight, writeClash (getCore s a.n) a.sh lat e f
  · by_cases hlater : ∃ f ∈ (getCore s a.n).flight,
        writeClash (getCore s a.n) a.sh lat e f ∧ shIdx a.sh < shIdx f.sh
    · obtain ⟨f, hf, hc, hl⟩ := hlater
      rw [pushWrite_of_later hf hc hl]
      exact onlyCores_noteCollide s a.n
    · rw [pushWrite_of_earlier hclash (fun f hf hc hl => hlater ⟨f, hf, hc, hl⟩)]
      exact onlyCores_trans (onlyCores_noteCollide s a.n)
        (onlyCores_trans (onlyCores_modCore _ _ (List.mem_singleton_self a.n)) (onlyCores_push ..))
  · rw [pushWrite_of_free (fun f hf hc => hclash ⟨f, hf, hc⟩)]
    exact onlyCores_push ..

/-- Settles O15: by the three ends of `pushWrite`, with the collision read for a register. -/
theorem registerWriteIssued : Obligations.RegisterWriteIssued := by
  intro s a sp lat v c new clash
  have hclash (f : Flight) :
      writeClash c a.sh lat (.reg (BitVec.ofNat 8 sp) (BitVec.ofNat 64 v)) f = true ↔ clash f :=
    writeClash_reg_iff ..
  refine ⟨onlyCores_pushWrite .., fun hfree => ?free, fun f hf hc hl => ?later, fun hex hl => ?earlier⟩
  case free =>
    have hpush : pushReg s a sp lat v = _ := pushWrite_of_free (fun f hf hc => hfree f hf ((hclash f).mp hc))
    rw [hpush]
    exact ⟨rfl, getCore_push_same ..⟩
  case later =>
    have hpush : pushReg s a sp lat v = _ := pushWrite_of_later hf ((hclash f).mpr hc) hl
    rw [hpush]
    exact getCore_noteCollide_same s a.n
  case earlier =>
    obtain ⟨f, hf, hc⟩ := hex
    have hpush : pushReg s a sp lat v = _ := pushWrite_of_earlier ⟨f, hf, (hclash f).mpr hc⟩
      (fun f hf hc => (hl f hf ((hclash f).mp hc)).asymm)
    refine ⟨(dropClashes c a.sh lat (.reg (BitVec.ofNat 8 sp) (BitVec.ofNat 64 v))).flight, fun f => ?_, ?_⟩
    · rw [mem_dropClashes_flight, hclash]
    · rw [hpush, getCore_push_same, getCore_modCore_same, getCore_noteCollide_same]
      rfl

end Sys2Proof.Machine
end

section
/-! Predication and undefined or forbidden encodings (R99 to R104, R108): what a predicated-off instruction leaves, and
the faults that the word alone decides. -/

namespace Sys2Proof.Machine

/-! ### The condition that is reported -/

/-- The reported condition is one of those that are met. -/
theorem worst_mem {l : Conds} {x : Nat × Nat} (h : worst l = some x) : x ∈ l := by
  induction l generalizing x with
  | nil => cases h
  | cons y t ih =>
    cases ht : worst t with
    | none => simp_all [worst]
    | some z =>
      have hz : z ∈ t := ih ht
      cases hlt : condLt z y <;> simp_all [worst]

theorem worst_eq_none_iff (l : Conds) : worst l = none ↔ l = [] := by
  cases l with
  | nil => simp [worst]
  | cons y t =>
    cases ht : worst t with
    | none => simp [worst, ht]
    | some z => cases hlt : condLt z y <;> simp [worst, ht, hlt]

/-- Where every condition met is of one kind and one is met, that kind is reported. -/
theorem worst_of_kind {l : Conds} {k : Nat} (hk : ∀ x ∈ l, x.1 = k) (hl : l ≠ []) : ∃ d, worst l = some (k, d) := by
  cases hw : worst l with
  | none => exact absurd ((worst_eq_none_iff l).mp hw) hl
  | some x =>
    obtain rfl : x.1 = k := hk x (worst_mem hw)
    exact ⟨x.2, rfl⟩

@[simp] theorem mem_cond_iff (b : Bool) (k d : Nat) (x : Nat × Nat) : x ∈ cond b k d ↔ b = true ∧ x = (k, d) := by
  cases b <;> simp [cond]

/-! ### Predicated off -/

/-- Only the wait class does something of its own when predicated off (R101, R102). -/
theorem actionOf_off {c : Instr} {op : Nat} {i : Issue} {m : At → Action} (hi : c.issue = some (op, i))
    (hm : actionOf c = some m) (a : At) : (m a).off = if waitOpcode op then offWait a else none := by
  cases c <;> cases hi <;> cases hm <;> rfl

/-- Waits and branches use no engine. -/
theorem actionOf_eng_of_control {c : Instr} {op : Nat} {i : Issue} {m : At → Action} (hi : c.issue = some (op, i))
    (hm : actionOf c = some m) (hop : (waitOpcode op || op == 0x01 || op == 0x02) = true) (a : At) : (m a).eng = none := by
  cases c <;> cases hi <;> cases hm <;> cases hop <;> rfl

/-- A predicated-off instruction outside the wait class only advances, with its engine reserved (R101). -/
theorem exec_off {c : Instr} {op : Nat} {i : Issue} {m : At → Action} {s : State} {a : At} (hi : c.issue = some (op, i))
    (hm : actionOf c = some m) (hp : place op i s = some a) (hd : opcodeDefined (fldOp a.w) = true)
    (he : executes a = false) (hf : actionFault a (m a) = none) (hw : waitOpcode op = false) :
    exec c s = .next (advance (occupy a.s a (m a) false) a none) := by
  rw [exec_issue s hi hm, issueWith_off hp hd he hf, actionOf_off hi hm a, hw]
  rfl

theorem occupy_of_no_engine {s : State} {a : At} {act : Action} {on : Bool} (h : act.eng = none) :
    occupy s a act on = s := by
  simp [occupy, h]

/-- Predicated off, an instruction raises only kinds up to 0x03 (R101). -/
theorem actionFault_off_le {a : At} {act : Action} {k d : Nat} (he : executes a = false)
    (h : actionFault a act = some (k, d)) : k ≤ 3 := by
  have hmem : (k, d) ∈ (reservedConds act.fmt a.w ++ act.enc).filter (fun x => decide (x.1 ≤ 3)) :=
    worst_mem (by simpa [actionFault, he] using h)
  exact of_decide_eq_true (List.mem_filter.mp hmem).2

/-! ### The engine that an instruction names -/

@[simp] theorem engTime_setEng (c : Core) (e : Engine) (t : EngineTime) : engTime (setEng c e t) e = t := by
  cases e <;> rfl

/-- An engine is reserved for the occupancy, or longer where it was (R71). -/
theorem useEngine_occupied (c : Core) (u : EngUse) (on : Bool) :
    (engTime (useEngine c u on) u.eng).occupied = max (engTime c u.eng).occupied (c.cycle + u.occ) := by
  simp [useEngine]

/-- Predicated off, an instruction does not make its engine busy (R101). -/
theorem useEngine_busy_off (c : Core) (u : EngUse) : (engTime (useEngine c u false) u.eng).busy = (engTime c u.eng).busy := by
  simp [useEngine]

theorem useEngine_drain {u : EngUse} {k : Nat} (c : Core) (on : Bool) (h : u.drain = some k) :
    (engTime (useEngine c u on) u.eng).drain = max (engTime c u.eng).drain (c.cycle + k) := by
  simp [useEngine, h]

theorem getCore_occupy {s : State} {a : At} {act : Action} {u : EngUse} {on : Bool} (h : act.eng = some u) :
    getCore (occupy s a act on) a.n = useEngine (getCore s a.n) u on := by
  simp [occupy, h]

/-- Settles O8: the class of the opcode says that nothing is done but the reservation. -/
theorem predicatedOff : Obligations.PredicatedOff := by
  intro c op i m s a hi hm hp hd hw he
  obtain ⟨-, -, -, -, -, hc, -⟩ := place_spec hp
  refine ⟨fun k d => actionFault_off_le he, fun hf => exec_off hi hm hp hd he hf hw, fun u hu => ?_⟩
  rw [getCore_occupy hu, ← hc]
  exact ⟨useEngine_occupied .., useEngine_busy_off .., fun k hk => useEngine_drain _ _ hk⟩

/-- Settles O24: the off state of a wait is the wait that is met at once, and a branch has none. -/
theorem predicatedOffWaits : Obligations.PredicatedOffWaits := by
  intro c op i m s a hi hm hp hd he hf
  refine ⟨fun hw => ?wait, fun hb => ?branch⟩
  case wait =>
    have heng : (m a).eng = none := actionOf_eng_of_control hi hm (by simp [hw]) a
    rw [exec_issue s hi hm, issueWith_off hp hd he hf, occupy_of_no_engine heng, actionOf_off hi hm a, hw]
    rfl
  case branch =>
    have hw : waitOpcode op = false := by rcases hb with rfl | rfl <;> rfl
    have heng : (m a).eng = none := actionOf_eng_of_control hi hm (by rcases hb with rfl | rfl <;> rfl) a
    rw [exec_off hi hm hp hd he hf hw, occupy_of_no_engine heng]

/-! ### Undefined opcodes and forged tokens -/

/-- Settles O9: the NOP row is where an undefined opcode comes to issue. -/
theorem undefinedOpcodeFaults : Obligations.UndefinedOpcodeFaults :=
  fun _ _ _ hp hd => issueWith_undefined hp hd

/-- An instruction that stands ready and meets conditions of kind 0x03 only, on its word alone, faults with that kind. -/
theorem exec_operandFault {c : Instr} {op : Nat} {f : Fmt} {i : Issue} {m : At → Action} {s : State} {a : At}
    (hi : c.issue = some (op, i)) (hm : actionOf c = some m) (hr : Ready op f i s a) (hf : (m a).fmt = f)
    (heng : (m a).eng = none) (hchk : (m a).chk = []) (hkind : ∀ x ∈ (m a).enc, x.1 = 3) (hmet : (m a).enc ≠ []) :
    ∃ d, exec c s = .next (raiseFault a.s a.p a.n a.sh (pcOf a.r a.sh) (fldOp a.w) 3 d false) := by
  obtain ⟨hp, hd, he, hres⟩ := hr
  obtain ⟨d, hworst⟩ := worst_of_kind hkind hmet
  have hfault : actionFault a (m a) = some (3, d) := by
    simp [actionFault, he, hf, hres, heng, hchk, hworst]
  exact ⟨d, by rw [exec_issue s hi hm, issueWith_fault hp hd hfault, if_neg (by decide)]⟩

theorem scalarConds_kind {w : InstrWord} : ∀ x ∈ scalarConds w, x.1 = 3 := by
  rintro x hx
  simp only [scalarConds, List.mem_append, mem_cond_iff] at hx
  rcases hx with (⟨-, rfl⟩ | ⟨-, rfl⟩) | ⟨-, rfl⟩ <;> rfl

/-- A destination in the q file breaks the operand rule of the two-source scalar instructions (R104). -/
theorem scalarConds_token {w : InstrWord} (hq : specFile (sD w) = 3) : scalarConds w ≠ [] := by
  simp [scalarConds, cond, hq]

/-- The conditions of a two-source scalar instruction on its word, with FN defined. -/
theorem actScalar_enc {a : At} {fnMax v : Nat} (hfn : sFn a.w ≤ fnMax) : (actScalar a fnMax v).enc = scalarConds a.w := by
  simp [actScalar, undefinedField, cond, hfn]

theorem actCmp_enc {a : At} (hfn : sFn a.w ≤ 5) :
    (actCmp a).enc = scalarConds a.w ++ cond (specFile (sD a.w) != 2) 3 32 := by
  simp [actCmp, undefinedField, cond, hfn]

theorem actSel_enc {a : At} (hfn : sFn a.w ≤ 63) : (actSel a).enc = scalarConds a.w := by
  simp [actSel, undefinedField, cond, hfn]

/-- MOV with FN 0 meets only conditions of kind 0x03. -/
theorem actMov_enc_kind {a : At} (hfn : sFn a.w = 0) : ∀ x ∈ (actMov a).enc, x.1 = 3 := by
  intro x hx
  simp only [actMov, fnZero, undefinedField, List.mem_append, mem_cond_iff, hfn] at hx
  rcases hx with ((⟨h, -⟩ | ⟨-, rfl⟩) | ⟨-, rfl⟩) | ⟨-, rfl⟩
  · cases h
  all_goals rfl

/-- MOV to a token register takes a token or immediate 0 and nothing else (R104). -/
theorem actMov_enc_token {a : At} (hq : specFile (sD a.w) = 3)
    (hsrc : ¬ ((fldFlag a.w 0 = true ∧ sImm a.w = 0) ∨
      (fldFlag a.w 0 = false ∧ specFile (sS1 a.w) = 3 ∧ specBad (sS1 a.w) = false))) : (actMov a).enc ≠ [] := by
  cases hflag : fldFlag a.w 0 with
  | true => simp_all [actMov, cond]
  | false =>
    cases hbad : specBad (sS1 a.w) <;> simp_all [actMov, cond]

/-- Settles O14: the conditions of each row are of kind 0x03, and one of them is met. -/
theorem tokensNotForged : Obligations.TokensNotForged := by
  intro c i op fnMax s a hrow hr hfn hq hmov
  have hfault {m : At → Action} (hi : c.issue = some (op, i)) (hm : actionOf c = some m) (hf : (m a).fmt = .s)
      (heng : (m a).eng = none) (hchk : (m a).chk = []) (henc : (m a).enc = scalarConds a.w) :=
    exec_operandFault hi hm hr hf heng hchk (henc ▸ scalarConds_kind) (henc ▸ scalarConds_token hq)
  simp only [List.mem_cons, Prod.mk.injEq, List.not_mem_nil, or_false] at hrow
  rcases hrow with ⟨rfl, rfl, rfl⟩ | ⟨rfl, rfl, rfl⟩ | ⟨rfl, rfl, rfl⟩ | ⟨rfl, rfl, rfl⟩ | ⟨rfl, rfl, rfl⟩ |
    ⟨rfl, rfl, rfl⟩ | ⟨rfl, rfl, rfl⟩ | ⟨rfl, rfl, rfl⟩
  iterate 5 exact hfault rfl rfl rfl rfl rfl (actScalar_enc hfn)
  · exact exec_operandFault rfl rfl hr rfl rfl rfl (actMov_enc_kind (Nat.le_zero.mp hfn))
      (actMov_enc_token hq (fun hsrc => hmov ⟨rfl, hsrc⟩))
  · have henc : (actCmp a).enc = scalarConds a.w ++ [(3, 32)] := by simp [actCmp_enc hfn, hq, cond]
    refine exec_operandFault rfl rfl hr rfl rfl rfl (fun x hx => ?_) (by simp [henc])
    rw [henc, List.mem_append, List.mem_singleton] at hx
    exact hx.elim (scalarConds_kind x) (fun h => h ▸ rfl)
  · exact hfault rfl rfl rfl rfl rfl (actSel_enc hfn)

end Sys2Proof.Machine
end

section
/-! Shuttle faults as they are raised (R122 to R129): CORE_FAULT and its fields, the halt, the record and the interrupt,
and what a fault leaves of every core. -/

namespace Sys2Proof.Machine

/-! ### Fields of CORE_FAULT -/

theorem faultWord_toNat {kind : Nat} (pc : Word) (detail : Nat) (deferred first : Bool) (hk : kind < 256) :
    (faultWord pc kind detail deferred first).toNat =
      pc.toNat + kind * 2 ^ 32 + flag deferred * 2 ^ 40 + flag first * 2 ^ 41 + detail % 65536 * 2 ^ 48 := by
  have hpc : pc.toNat < 2 ^ 32 := pc.isLt
  have hflag (b : Bool) : flag b ≤ 1 := by cases b <;> decide
  have hdef := hflag deferred
  have hfirst := hflag first
  rw [faultWord, BitVec.toNat_ofNat, Nat.mod_eq_of_lt]
  omega

section Fields
variable {kind : Nat} (pc : Word) (detail : Nat) (deferred first : Bool) (hk : kind < 256)
include hk

theorem faultWord_pc : bits (faultWord pc kind detail deferred first) 0 32 = pc.toNat := by
  have hpc : pc.toNat < 2 ^ 32 := pc.isLt
  rw [bits, faultWord_toNat pc detail deferred first hk, Nat.shiftRight_zero]
  omega

theorem faultWord_kind : bits (faultWord pc kind detail deferred first) 32 8 = kind := by
  have hpc : pc.toNat < 2 ^ 32 := pc.isLt
  rw [bits, faultWord_toNat pc detail deferred first hk, Nat.shiftRight_eq_div_pow]
  omega

theorem faultWord_deferred : bits (faultWord pc kind detail deferred first) 40 1 = flag deferred := by
  have hpc : pc.toNat < 2 ^ 32 := pc.isLt
  have hdef : flag deferred ≤ 1 := by cases deferred <;> decide
  rw [bits, faultWord_toNat pc detail deferred first hk, Nat.shiftRight_eq_div_pow]
  omega

theorem faultWord_detail : bits (faultWord pc kind detail deferred first) 48 16 = detail % 2 ^ 16 := by
  have hpc : pc.toNat < 2 ^ 32 := pc.isLt
  have hdef : flag deferred ≤ 1 := by cases deferred <;> decide
  have hfirst : flag first ≤ 1 := by cases first <;> decide
  rw [bits, faultWord_toNat pc detail deferred first hk, Nat.shiftRight_eq_div_pow]
  omega

end Fields

/-! ### Vectors and records -/

theorem bit_setBits_one {n : Nat} (x : BitVec n) {k : Nat} (hk : k < n) : bit (setBits x k 1 1) k = true := by
  rw [bit, setBits, BitVec.getLsbD_or, BitVec.getLsbD_ofNat]
  simp [hk, Nat.testBit_shiftLeft]

@[simp] theorem raiseVector_cores (s : State) (v : Nat) : (raiseVector s v).cores = s.cores := by
  unfold raiseVector
  split <;> rfl
@[simp] theorem raiseVector_quads (s : State) (v : Nat) : (raiseVector s v).quads = s.quads := by
  unfold raiseVector
  split <;> rfl
@[simp] theorem raiseVector_errors (s : State) (v : Nat) : (raiseVector s v).errors = s.errors := by
  unfold raiseVector
  split <;> rfl
@[simp] theorem raiseVector_msixMask (s : State) (v : Nat) :
    (raiseVector s v).host.msixMask = s.host.msixMask := by
  unfold raiseVector
  split <;> rfl

/-- A vector that is raised is sent, or pending where it is masked (R535). -/
theorem raiseVector_signals (s : State) (v : Nat) :
    if bit s.host.msixMask v = true then bit (raiseVector s v).host.msixPend v = true
    else (raiseVector s v).host.messages.getLast? = some v := by
  unfold raiseVector
  split
  · next hmask => exact bit_setBits_one _ (BitVec.lt_of_getLsbD hmask)
  · simp

theorem copyOldest_frame (s : State) :
    (copyOldest s).cores = s.cores ∧ (copyOldest s).quads = s.quads ∧
      (copyOldest s).host.msixMask = s.host.msixMask := by
  unfold copyOldest
  split
  · exact ⟨rfl, rfl, rfl⟩
  · simp

/-- A record leaves the cores, the quadrants and the masks of the vectors. -/
theorem record_frame (s : State) (r : RecIn) :
    (record s r).cores = s.cores ∧ (record s r).quads = s.quads ∧
      (record s r).host.msixMask = s.host.msixMask := by
  unfold record
  extract_lets rec_ e t u
  have hu : u.cores = s.cores ∧ u.quads = s.quads ∧ u.host.msixMask = s.host.msixMask := by
    unfold u
    split
    · exact ⟨rfl, rfl, rfl⟩
    · exact copyOldest_frame t
  split
  · exact hu
  · split <;> exact hu

@[simp] theorem record_cores (s : State) (r : RecIn) : (record s r).cores = s.cores := (record_frame s r).1
@[simp] theorem record_quads (s : State) (r : RecIn) : (record s r).quads = s.quads := (record_frame s r).2.1
@[simp] theorem record_msixMask (s : State) (r : RecIn) : (record s r).host.msixMask = s.host.msixMask :=
  (record_frame s r).2.2

/-- While the cellar has room a record goes there (R579). -/
theorem record_store_of_room {s : State} (r : RecIn) (h : s.errors.store.length < 512) :
    (record s r).errors.store = s.errors.store ++ [buildRecord s r (BitVec.ofNat 32 s.errors.rseq)] := by
  simp [record, h]

/-! ### The steps of a fault -/

/-- The context's first fault gives FIRST away to one that comes before it on its cycle (R129). -/
def passFirst (s : State) (p : Part) (first : Bool) : State :=
  match first, p.faultFirst with
  | true, some (_, m, k) =>
    modCore s m (fun c => modSh c (if k = 0 then Shuttle.f else if k = 1 then Shuttle.b else Shuttle.u)
      (fun x => { x with fault := setBits x.fault 41 1 0 }))
  | _, _ => s

/-- The shuttle halts with its fault, and its core halts on the next cycle at the latest (R124). -/
def haltFaulted (s : State) (n : Nat) (sh : Shuttle) (word : Dword) : State :=
  modCore s n (fun c => { modSh c sh (fun x => { x with fault := word, mode := .halted, wait := none }) with
    haltAt := match c.haltAt with | some h => some h | none => some (s.cc + 1) })

/-- The partition notes where and when its first fault was. -/
def noteFirst (s : State) (p : Part) (n : Nat) (sh : Shuttle) (first : Bool) : State :=
  if first then modPart s p.low (fun q => { q with faultFirst := some (s.cc, n, shIdx sh) }) else s

/-- The state of a fault before its record and its interrupt. -/
def faulted (s : State) (p : Part) (n : Nat) (sh : Shuttle) (word : Dword) : State :=
  let first := firstFault s p n sh
  noteFirst (haltFaulted (passFirst s p first) n sh word) p n sh first

/-- What the record of a fault says (R128). -/
def faultRec (n : Nat) (sh : Shuttle) (pc : Word) (op kind : Nat) (word : Dword) : RecIn :=
  { coreRec kind n word.toNat with shuttle := shIdx sh, opcode := op, pc := pc }

theorem raiseFault_eq (s : State) (p : Part) (n : Nat) (sh : Shuttle) (pc : Word) (op kind detail : Nat) (d : Bool) :
    raiseFault s p n sh pc op kind detail d =
      let word := faultWord pc kind detail d (firstFault s p n sh)
      partVector (record (faulted s p n sh word) (faultRec n sh pc op kind word)) p.low 1 := by
  unfold raiseFault faulted noteFirst haltFaulted passFirst
  rfl

/-- A core after a fault differs in its shuttles and its halt at most. -/
def coreFaulted (c d : Core) : Prop := d = { c with f := d.f, b := d.b, u := d.u, haltAt := d.haltAt }

theorem coreFaulted_trans {c d e : Core} (h : coreFaulted c d) (k : coreFaulted d e) : coreFaulted c e := by
  unfold coreFaulted at *
  rw [k, h]

theorem coreFaulted_modSh (c : Core) (sh : Shuttle) (g : Sh → Sh) : coreFaulted c (modSh c sh g) := by
  cases sh <;> rfl

theorem coreFaulted_haltAt (c : Core) (h : Option Nat) : coreFaulted c { c with haltAt := h } := rfl

theorem coreFaulted_modCore {s : State} {n : Nat} {g : Core → Core} (hg : coreFaulted (getCore s n) (g (getCore s n)))
    (m : Nat) : coreFaulted (getCore s m) (getCore (modCore s n g) m) := by
  rw [getCore_modCore]
  split
  · next h => rw [h]; exact hg
  · rfl

@[simp] theorem modSh_haltAt (c : Core) (sh : Shuttle) (g : Sh → Sh) : (modSh c sh g).haltAt = c.haltAt := by
  cases sh <;> rfl

theorem coreFaulted_passFirst (s : State) (p : Part) (first : Bool) (m : Nat) :
    coreFaulted (getCore s m) (getCore (passFirst s p first) m) := by
  unfold passFirst
  split
  · exact coreFaulted_modCore (coreFaulted_modSh ..) m
  · rfl

@[simp] theorem passFirst_haltAt (s : State) (p : Part) (first : Bool) (m : Nat) :
    (getCore (passFirst s p first) m).haltAt = (getCore s m).haltAt := by
  unfold passFirst
  split
  · rw [getCore_modCore]
    split
    · next h => rw [modSh_haltAt, h]
    · rfl
  · rfl

/-- Moving FIRST touches no more of a shuttle than its fault word. -/
theorem shOf_passFirst (s : State) (p : Part) (first : Bool) (m : Nat) (x : Shuttle) :
    shOf (getCore (passFirst s p first) m) x =
      { shOf (getCore s m) x with fault := (shOf (getCore (passFirst s p first) m) x).fault } := by
  unfold passFirst
  split
  · next m' k _ =>
    generalize (if k = 0 then Shuttle.f else if k = 1 then Shuttle.b else Shuttle.u) = sh
    rw [getCore_modCore]
    split
    · next h =>
      by_cases hx : x = sh
      · rw [hx, shOf_modSh, h]
      · rw [shOf_modSh_other _ _ hx, h]
    · rfl
  · rfl

theorem passFirst_frame (s : State) (p : Part) (first : Bool) :
    passFirst s p first = { s with cores := (passFirst s p first).cores } := by
  unfold passFirst
  split <;> rfl

@[simp] theorem getCore_noteFirst (s : State) (p : Part) (n : Nat) (sh : Shuttle) (first : Bool) (m : Nat) :
    getCore (noteFirst s p n sh first) m = getCore s m := by
  cases first <;> rfl

theorem noteFirst_frame (s : State) (p : Part) (n : Nat) (sh : Shuttle) (first : Bool) :
    noteFirst s p n sh first = { s with parts := (noteFirst s p n sh first).parts } := by
  cases first <;> rfl

theorem coreFaulted_faulted (s : State) (p : Part) (n : Nat) (sh : Shuttle) (word : Dword) (m : Nat) :
    coreFaulted (getCore s m) (getCore (faulted s p n sh word) m) := by
  simp only [faulted, getCore_noteFirst, haltFaulted]
  exact coreFaulted_trans (coreFaulted_passFirst ..)
    (coreFaulted_modCore (coreFaulted_trans (coreFaulted_modSh ..) (coreFaulted_haltAt ..)) m)

theorem faulted_frame (s : State) (p : Part) (n : Nat) (sh : Shuttle) (word : Dword) :
    faulted s p n sh word =
      { s with cores := (faulted s p n sh word).cores, parts := (faulted s p n sh word).parts } := by
  simp only [faulted]
  rw [noteFirst_frame, haltFaulted, passFirst_frame]
  rfl

/-! ### What a fault leaves -/

section Raised
variable (s : State) (p : Part) (n : Nat) (sh : Shuttle) (pc : Word) (op kind detail : Nat) (d : Bool)

theorem raiseFault_cores :
    (raiseFault s p n sh pc op kind detail d).cores =
      (faulted s p n sh (faultWord pc kind detail d (firstFault s p n sh))).cores := by
  simp [raiseFault_eq, partVector]

theorem getCore_raiseFault (m : Nat) :
    getCore (raiseFault s p n sh pc op kind detail d) m =
      getCore (faulted s p n sh (faultWord pc kind detail d (firstFault s p n sh))) m := by
  rw [getCore, raiseFault_cores, ← getCore]

/-- Of a core, a fault changes the shuttles and the halt at most (R122, R124). -/
theorem coreFaulted_raiseFault (m : Nat) :
    coreFaulted (getCore s m) (getCore (raiseFault s p n sh pc op kind detail d) m) := by
  rw [getCore_raiseFault]
  exact coreFaulted_faulted ..

/-- The faulting shuttle halts with CORE_FAULT written, and waits for nothing (R122, R128). -/
theorem shOf_raiseFault :
    shOf (getCore (raiseFault s p n sh pc op kind detail d) n) sh =
      { shOf (getCore s n) sh with
        fault := faultWord pc kind detail d (firstFault s p n sh), mode := .halted, wait := none } := by
  have hhalt (c : Core) (h : Option Nat) : shOf { c with haltAt := h } sh = shOf c sh := by cases sh <;> rfl
  rw [getCore_raiseFault]
  simp only [faulted, getCore_noteFirst, haltFaulted, getCore_modCore_same, hhalt, shOf_modSh]
  rw [shOf_passFirst]

/-- The faulting core halts on the next cycle, or earlier where it was to (R124). -/
theorem haltAt_raiseFault :
    (getCore (raiseFault s p n sh pc op kind detail d) n).haltAt = some ((getCore s n).haltAt.getD (s.cc + 1)) := by
  rw [getCore_raiseFault]
  simp only [faulted, getCore_noteFirst, haltFaulted, getCore_modCore_same, passFirst_haltAt]
  rw [passFirst_frame]
  cases (getCore s n).haltAt <;> rfl

theorem raiseFault_quads : (raiseFault s p n sh pc op kind detail d).quads = s.quads := by
  simp only [raiseFault_eq, partVector, raiseVector_quads, record_quads]
  rw [faulted_frame]

theorem runner_of_quads {s t : State} (h : t.quads = s.quads) (m : Nat) : runner t m = runner s m := by
  unfold runner pairActive pairFenced pairPartner getQuad
  rw [h]

/-- A fault leaves every identity's registers. -/
theorem getRegs_raiseFault (m : Nat) :
    getRegs (raiseFault s p n sh pc op kind detail d) m = getRegs s m := by
  have hrun : runner (raiseFault s p n sh pc op kind detail d) m = runner s m := runner_of_quads (raiseFault_quads ..) m
  have hregs (k : Nat) := coreFaulted_raiseFault s p n sh pc op kind detail d k
  rw [getRegs, getRegs, hrun, hregs m, hregs (runner s m)]

/-- The record of a fault goes to the cellar while it has room (R128, R579). -/
theorem raiseFault_store (hroom : s.errors.store.length < 512) :
    ∃ r, (raiseFault s p n sh pc op kind detail d).errors.store = s.errors.store ++ [r] ∧
      r.kind = kind ∧ r.shuttle = shIdx sh ∧ r.opcode = op ∧ r.pc = pc ∧ r.core = n := by
  have herr (word : Dword) : (faulted s p n sh word).errors = s.errors := by rw [faulted_frame]
  simp only [raiseFault_eq, partVector, raiseVector_errors]
  rw [record_store_of_room _ (by rwa [herr]), herr]
  exact ⟨_, rfl, rfl, rfl, rfl, rfl, rfl⟩

/-- The context-fault vector is sent, or pending where it is masked (R128, R534). -/
theorem raiseFault_signals :
    let t := raiseFault s p n sh pc op kind detail d
    if bit s.host.msixMask (4 * p.low + 1) = true then bit t.host.msixPend (4 * p.low + 1) = true
    else t.host.messages.getLast? = some (4 * p.low + 1) := by
  have hmask (word : Dword) : (faulted s p n sh word).host.msixMask = s.host.msixMask := by rw [faulted_frame]
  rw [raiseFault_eq]
  generalize faultWord pc kind detail d (firstFault s p n sh) = word
  have hsent := raiseVector_signals (record (faulted s p n sh word) (faultRec n sh pc op kind word)) (4 * p.low + 1)
  rw [record_msixMask, hmask] at hsent
  exact hsent

end Raised

/-! ### TRAP -/

/-- An instruction in its place with a defined opcode has the opcode of its row (R108). -/
theorem fldOp_of_place {op : Nat} {i : Issue} {s : State} {a : At} (hp : place op i s = some a)
    (hd : opcodeDefined (fldOp a.w) = true) : fldOp a.w = op := by
  cases hpart : corePart (landAll s i.core.val) i.core.val with
  | none => simp [place, hpart] at hp
  | some p =>
    cases hlog : logicalOf p i.core.val with
    | none => simp [place, hpart, hlog] at hp
    | some lc =>
      simp only [place, hpart, hlog, Bool.and_eq_true, Option.ite_none_right_eq_some, Option.some.injEq] at hp
      obtain ⟨⟨hrow, -⟩, rfl⟩ := hp
      simpa [hd] using hrow

/-- TRAP with FN 0 raises kind 0x0F with its immediate (R109). -/
theorem actionFault_trap {a : At} (he : executes a = true) (hres : reservedConds .s a.w = []) (hfn : sFn a.w = 0) :
    actionFault a (actTrap a) = some (0x0F, sImm a.w % 65536) := by
  simp [actionFault, he, actTrap, hres, fnZero, undefinedField, cond, hfn, worst]

/-- Settles O19: by the fault that TRAP raises and what `raiseFault` leaves. -/
theorem trapFaults : Obligations.TrapFaults := by
  intro i s a hr hfn
  obtain ⟨hp, hd, he, hres⟩ := hr
  have hop : fldOp a.w = 0x05 := fldOp_of_place hp hd
  have hexec : exec (.trap i) s =
      .next (raiseFault a.s a.p a.n a.sh (pcOf a.r a.sh) 0x05 0x0F (sImm a.w % 65536) false) := by
    rw [exec_issue s rfl rfl, issueWith_fault hp hd (actionFault_trap he hres hfn), hop]
    rfl
  refine ⟨_, hexec, ?_, ?_, ?_, ?_, ?_, ?_, ?_, fun hroom => raiseFault_store (hroom := hroom) ..,
    raiseFault_signals .., getRegs_raiseFault ..⟩
  · rw [shOf_raiseFault]
  · rw [shOf_raiseFault]
  · rw [shOf_raiseFault, faultWord_pc _ _ _ _ (by decide)]
  · rw [shOf_raiseFault, faultWord_kind _ _ _ _ (by decide)]
  · rw [shOf_raiseFault, faultWord_deferred _ _ _ _ (by decide)]
    rfl
  · rw [shOf_raiseFault, faultWord_detail _ _ _ _ (by decide)]
    exact Nat.mod_mod ..
  · rw [haltAt_raiseFault]
    cases (getCore a.s a.n).haltAt <;> rfl

/-! ### Deferred faults -/

/-- A core whose shuttle's deferred fault is being reported: CORE_META_FAULT is written for kind 0x08, and the fault and
the failed pass end (R123, R325). -/
def takeDeferred (c : Core) (sh : Shuttle) (f : Deferred) : Core :=
  { modSh c sh (fun x => { x with metaFault := if f.kind = 8 then f.metaFault else x.metaFault }) with
    deferred := c.deferred.erase f
    pass := match c.pass with
      | some q => if q.failed then none else some q
      | none => none }

@[simp] theorem shOf_takeDeferred (c : Core) (sh : Shuttle) (f : Deferred) :
    shOf (takeDeferred c sh f) sh =
      { shOf c sh with metaFault := if f.kind = 8 then f.metaFault else (shOf c sh).metaFault } := by
  cases sh <;> rfl

/-- DEFERRED_FAULT_DETECT raises the shuttle's deferred fault with DEFERRED 1, at the PC of the pass (R123). -/
theorem exec_deferredFaultDetect {core : Fin 192} {sh : Shuttle} {s : State} {p : Part} {f : Deferred}
    (hp : corePart s core.val = some p) (hf : (getCore s core.val).deferred.find? (fun d => d.sh == sh) = some f) :
    exec (.deferredFaultDetect core sh) s =
      .next (raiseFault (setCore s core.val (takeDeferred (getCore s core.val) sh f)) p core.val sh f.pc f.opcode.toNat
        f.kind f.detail.toNat true) := by
  show execDeferredFaultDetect core sh s = _
  simp only [execDeferredFaultDetect, hp, hf]
  rfl

@[simp] theorem modSh_heddle (c : Core) (sh : Shuttle) (g : Sh → Sh) : (modSh c sh g).heddle = c.heddle := by
  cases sh <;> rfl
@[simp] theorem modSh_beam (c : Core) (sh : Shuttle) (g : Sh → Sh) : (modSh c sh g).beam = c.beam := by
  cases sh <;> rfl

/-- The second clause of O39 with the bound that its line on DEFERRED lacks: a deferred fault whose kind fits in
CORE_FAULT.KIND is reported in full, and the engines and memories of its core stay as they are (R116, R123, R325). -/
theorem deferredFaultDetect_of_kind_lt {core : Fin 192} {sh : Shuttle} {s : State} {p : Part} {f : Deferred}
    (hp : corePart s core.val = some p) (hf : (getCore s core.val).deferred.find? (fun d => d.sh == sh) = some f)
    (hk : f.kind < 256) :
    ∃ t, exec (.deferredFaultDetect core sh) s = .next t ∧
      let c := getCore s core.val
      let d := getCore t core.val
      (shOf d sh).mode = .halted ∧ bits (shOf d sh).fault 0 32 = f.pc.toNat ∧ bits (shOf d sh).fault 32 8 = f.kind ∧
      bits (shOf d sh).fault 40 1 = 1 ∧ bits (shOf d sh).fault 48 16 = f.detail.toNat ∧
      (f.kind = 8 → (shOf d sh).metaFault = f.metaFault) ∧
      d.heddle = c.heddle ∧ d.beam = c.beam ∧ d.store = c.store ∧ d.tun = c.tun := by
  have hcore := coreFaulted_raiseFault (setCore s core.val (takeDeferred (getCore s core.val) sh f)) p core.val sh f.pc
    f.opcode.toNat f.kind f.detail.toNat true core.val
  rw [getCore_setCore_same] at hcore
  refine ⟨_, exec_deferredFaultDetect hp hf, ?_, ?_, ?_, ?_, ?_, ?_, ?_⟩
  · rw [shOf_raiseFault]
  · rw [shOf_raiseFault, faultWord_pc _ _ _ _ hk]
  · rw [shOf_raiseFault, faultWord_kind _ _ _ _ hk]
  · rw [shOf_raiseFault, faultWord_deferred _ _ _ _ hk]
    rfl
  · rw [shOf_raiseFault, faultWord_detail _ _ _ _ hk]
    exact Nat.mod_eq_of_lt f.detail.isLt
  · intro h8
    rw [shOf_raiseFault, getCore_setCore_same, shOf_takeDeferred, h8]
    rfl
  · rw [hcore]
    exact ⟨modSh_heddle .., modSh_beam .., modSh_store .., modSh_tun ..⟩

/-- A deferred fault of a kind that does not fit in CORE_FAULT.KIND: the module never defers one, and the model's table
of deferred faults can hold one. -/
def wideDeferred : Deferred :=
  { due := 0, sh := .f, pc := 0, opcode := 0x28, kind := 256, detail := 0, metaFault := 0 }

/-- The module at reset, with that fault deferred on core 0. -/
def sWideDeferred : State := modCore State.reset 0 (fun c => { c with deferred := [wideDeferred] })

/-- Kind 256 carries into DEFERRED, which CORE_FAULT then shows as 0. -/
theorem faultWord_wide_deferred (first : Bool) : bits (faultWord 0 256 0 true first) 40 1 = 0 := by
  cases first <;> decide

/-- Refutes O39: its second clause reads DEFERRED for every number that a deferred fault can have as its kind, and kind
256 overflows KIND into DEFERRED, so that DEFERRED reads 0. The deferred faults that the module's passes leave have kinds
0x03, 0x07 and 0x08 (R123); the clause lacks the bound that its line on KIND has. -/
theorem not_metadataFaultIsHarmless : ¬ Obligations.MetadataFaultIsHarmless := by
  rintro ⟨-, hdetect⟩
  obtain ⟨p, hpart⟩ : ∃ p, corePart sWideDeferred (0 : Fin 192).val = some p := ⟨_, rfl⟩
  have hfind : (getCore sWideDeferred (0 : Fin 192).val).deferred.find? (fun d => d.sh == .f) = some wideDeferred := rfl
  obtain ⟨t, hexec, -, -, hdeferred, -⟩ := hdetect 0 .f sWideDeferred p wideDeferred hpart hfind
  rw [exec_deferredFaultDetect hpart hfind] at hexec
  have hzero : bits (shOf (getCore t (0 : Fin 192).val) .f).fault 40 1 = 0 := by
    cases hexec
    rw [shOf_raiseFault]
    exact faultWord_wide_deferred _
  exact absurd (hzero.symm.trans hdeferred) (by decide)

end Sys2Proof.Machine
end

section
/-! Signals at a semaphore (R197, R202): `semAdd` is an update of one core, `countSignal`, and past 65,535 the notes of a
saturation, of which the first of a semaphore makes one record. -/

namespace Sys2Proof.Machine

/-! ### A record of an event takes one sequence number -/

@[simp] theorem copyOldest_rseq (s : State) : (copyOldest s).errors.rseq = s.errors.rseq := by
  unfold copyOldest
  split
  · rfl
  · simp

theorem record_rseq (s : State) (r : RecIn) : (record s r).errors.rseq = s.errors.rseq + 1 := by
  unfold record
  extract_lets rec_ e t u
  have hu : u.errors.rseq = s.errors.rseq + 1 := by
    unfold u
    split
    · rfl
    · exact copyOldest_rseq t
  split
  · exact hu
  · split <;> exact hu

@[simp] theorem noteSat_cores (s : State) (n i : Nat) : (noteSat s n i).cores = s.cores := by
  simp [noteSat, partVector]

theorem noteSat_rseq (s : State) (n i : Nat) : (noteSat s n i).errors.rseq = s.errors.rseq + 1 := by
  simp [noteSat, partVector, record_rseq]

/-! ### The semaphore after a signal -/

/-- A semaphore to which a signal of count `k` has been added (R197). -/
def addCount (m : Sem) (k : Nat) : Sem :=
  if 65535 < m.count.toNat + k then { count := 65535, sat := true }
  else { m with count := BitVec.ofNat 16 (m.count.toNat + k) }

theorem addCount_count (m : Sem) (k : Nat) : (addCount m k).count.toNat = min 65535 (m.count.toNat + k) := by
  unfold addCount
  split
  · next h => exact (Nat.min_eq_left h.le).symm
  · next h =>
    have hfits : m.count.toNat + k < 2 ^ 16 := by omega
    rw [BitVec.toNat_ofNat, Nat.mod_eq_of_lt hfits, Nat.min_eq_right (Nat.not_lt.mp h)]

theorem addCount_sat (m : Sem) (k : Nat) : (addCount m k).sat = (m.sat || decide (65535 < m.count.toNat + k)) := by
  unfold addCount
  split <;> simp [*]

/-! ### The core after a signal -/

/-- A core whose semaphore `i` takes a signal of count `k` on CCLK cycle `cc`, the cycle's tally kept beside it. -/
def countSignal (cc i k : Nat) (c : Core) : Core :=
  let m := tget {} c.sems i
  let fresh := freshSignals cc c
  { c with sems := tset {} c.sems i (addCount m k)
           semCycle := cc
           semFresh := tset 0 fresh i (tget 0 fresh i + ((addCount m k).count.toNat - m.count.toNat)) }

section CountSignal
variable (cc i k : Nat) (c : Core)

theorem countSignal_frame :
    countSignal cc i k c =
      { c with sems := (countSignal cc i k c).sems, semCycle := cc, semFresh := (countSignal cc i k c).semFresh } := rfl

@[simp] theorem countSignal_sem_same : tget {} (countSignal cc i k c).sems i = addCount (tget {} c.sems i) k :=
  tget_tset_same ..

theorem countSignal_sem_other {j : Nat} (h : j ≠ i) : tget {} (countSignal cc i k c).sems j = tget {} c.sems j :=
  tget_tset_other _ _ _ h

theorem countSignal_fresh_same :
    tget 0 (countSignal cc i k c).semFresh i =
      tget 0 (freshSignals cc c) i + ((addCount (tget {} c.sems i) k).count.toNat - (tget {} c.sems i).count.toNat) :=
  tget_tset_same ..

theorem countSignal_fresh_other {j : Nat} (h : j ≠ i) :
    tget 0 (countSignal cc i k c).semFresh j = tget 0 (freshSignals cc c) j :=
  tget_tset_other _ _ _ h

end CountSignal

/-! ### The state after a signal -/

/-- The three ends of a signal: the sum fits, SAT was set already, or this saturation is the first (R197, R202). -/
theorem semAdd_eq (s : State) (n i k : Nat) :
    semAdd s n i k =
      let m := tget {} (getCore s n).sems i
      let t := modCore s n (countSignal s.cc i k)
      if m.count.toNat + k ≤ 65535 then t
      else if m.sat then noteW1c (noteW1c t (semAddr n i) 16) (semAddr n i) 32
      else noteSat (noteW1c t (semAddr n i) 16) n i := rfl

theorem semAdd_cores (s : State) (n i k : Nat) :
    (semAdd s n i k).cores = (modCore s n (countSignal s.cc i k)).cores := by
  simp only [semAdd_eq]
  split
  · rfl
  · split <;> simp

theorem getCore_semAdd (s : State) (n i k x : Nat) :
    getCore (semAdd s n i k) x = if x = n then countSignal s.cc i k (getCore s n) else getCore s x := by
  rw [getCore, semAdd_cores, ← getCore, getCore_modCore]

theorem semAdd_rseq_of_first_saturation {s : State} {n i k : Nat}
    (hsum : 65535 < (tget {} (getCore s n).sems i).count.toNat + k) (hsat : (tget {} (getCore s n).sems i).sat = false) :
    (semAdd s n i k).errors.rseq = s.errors.rseq + 1 := by
  simp only [semAdd_eq, if_neg hsum.not_ge, hsat, Bool.false_eq_true, if_false, noteSat_rseq, noteW1c_errors,
    modCore_errors]

theorem semAdd_errors_of_no_first_saturation {s : State} {n i k : Nat}
    (h : (tget {} (getCore s n).sems i).count.toNat + k ≤ 65535 ∨ (tget {} (getCore s n).sems i).sat = true) :
    (semAdd s n i k).errors = s.errors := by
  simp only [semAdd_eq]
  split
  · rfl
  · next hsum => simp only [if_pos (h.resolve_left hsum), noteW1c_errors, modCore_errors]

/-- Settles O30: the core after the signal is `countSignal` of the core before it, and only a first saturation makes a
record. -/
theorem signalAdds : Obligations.SignalAdds := by
  intro s n i k m t
  have hcore : getCore t n = countSignal s.cc i k (getCore s n) := by simp [t, getCore_semAdd]
  have hsem : tget {} (getCore t n).sems i = addCount m k := by rw [hcore, countSignal_sem_same]
  refine ⟨?_, ?_, ?_, ?_, ?_, ?_, ?_, ?_, ?_⟩
  · rw [hsem, addCount_count]
  · rw [hsem, addCount_sat]
  · intro j hj
    rw [hcore, countSignal_sem_other _ _ _ _ hj]
  · intro x hx
    simp [t, getCore_semAdd, hx]
  · rw [hcore]
    exact countSignal_frame ..
  · intro j hj
    rw [hcore, countSignal_fresh_other _ _ _ _ hj]
  · rw [hsem, hcore, countSignal_fresh_same]
  · exact semAdd_rseq_of_first_saturation
  · exact semAdd_errors_of_no_first_saturation

end Sys2Proof.Machine
end

section
/-! Steps (assumption 2): what a step runs, and that whatever it runs keeps what `Kept` says. -/

namespace Sys2Proof.Machine

/-- Whatever the command, a next state keeps what `Kept` says: one arm per command, by the law of its meaning. -/
theorem keptO_exec {z s : State} (h : Kept z s) : ∀ c : Instr, KeptO z (exec c s)
  | .nop x => keptO_execNop x h
  | .br x => keptO_execBr x h
  | .loop x => keptO_execLoop x h
  | .endShuttle x => keptO_execEndShuttle x h
  | .slotSel x => keptO_execSlotSel x h
  | .trap x => keptO_execTrap x h
  | .add x => keptO_execAdd x h
  | .subtract x => keptO_execSubtract x h
  | .mul x => keptO_execMul x h
  | .logic x => keptO_execLogic x h
  | .shf x => keptO_execShf x h
  | .mov x => keptO_execMov x h
  | .cmp x => keptO_execCmp x h
  | .sel x => keptO_execSel x h
  | .descMake x => keptO_execDescMake x h
  | .descSet x => keptO_execDescSet x h
  | .descOffs x => keptO_execDescOffs x h
  | .descLdt x => keptO_execDescLdt x h
  | .descStt x => keptO_execDescStt x h
  | .bqIssue x => keptO_execBqIssue x h
  | .bqWait x => keptO_execBqWait x h
  | .beamMm x => keptO_execBeamMm x h
  | .beamScore x => keptO_execBeamScore x h
  | .beamZero x => keptO_execBeamZero x h
  | .heddleSpmm x => keptO_execHeddleSpmm x h
  | .heddleSddmm x => keptO_execHeddleSddmm x h
  | .heddleSpsp x => keptO_execHeddleSpsp x h
  | .heddleZero x => keptO_execHeddleZero x h
  | .vecOp x => keptO_execVecOp x h
  | .vecRed x => keptO_execVecRed x h
  | .vecCvt x => keptO_execVecCvt x h
  | .sfuEval x => keptO_execSfuEval x h
  | .sfuDeriv x => keptO_execSfuDeriv x h
  | .sfuLoad x => keptO_execSfuLoad x h
  | .grav x => keptO_execGrav x h
  | .drain x => keptO_execDrain x h
  | .drainD x => keptO_execDrainD x h
  | .chainSend x => keptO_execChainSend x h
  | .chainSeed x => keptO_execChainSeed x h
  | .caskOpen x => keptO_execCaskOpen x h
  | .caskHdr x => keptO_execCaskHdr x h
  | .caskPut x => keptO_execCaskPut x h
  | .caskNorm x => keptO_execCaskNorm x h
  | .caskClose x => keptO_execCaskClose x h
  | .upd x => keptO_execUpd x h
  | .updCfg x => keptO_execUpdCfg x h
  | .cull x => keptO_execCull x h
  | .germinate x => keptO_execGerminate x h
  | .maskCommit x => keptO_execMaskCommit x h
  | .semSig x => keptO_execSemSig x h
  | .semWait x => keptO_execSemWait x h
  | .beatup x => keptO_execBeatup x h
  | .verdictWait x => keptO_execVerdictWait x h
  | .fenceC x => keptO_execFenceC x h
  | .fenceQ x => keptO_execFenceQ x h
  | .fenceD x => keptO_execFenceD x h
  | .fenceF x => keptO_execFenceF x h
  | .selvCfg x => keptO_execSelvCfg x h
  | .selvRun x => keptO_execSelvRun x h
  | .selvRead x => keptO_execSelvRead x h
  | .pwrHorizon x => keptO_execPwrHorizon x h
  | .jnlHash x => keptO_execJnlHash x h
  | .jnlWrite x => keptO_execJnlWrite x h
  | .jnlTap x => keptO_execJnlTap x h
  | .deferredFaultDetect core sh => keptO_execDeferredFaultDetect core sh h
  | .contextFaulted q => keptO_execContextFaulted q h
  | .contextStopped q => keptO_execContextStopped q h
  | .waitResume core sh => keptO_execWaitResume core sh h
  | .slotPlanTakeEffect core => keptO_execSlotPlanTakeEffect core h
  | .resultVisible core => keptO_execResultVisible core h
  | .tunDrainLand core => keptO_execTunDrainLand core h
  | .heddleOverrun core => keptO_execHeddleOverrun core h
  | .heddleWorkComplete core => keptO_execHeddleWorkComplete core h
  | .plausibilityVerdict core id rep => keptO_execPlausibilityVerdict core id rep h
  | .verdictFrameSend core id => keptO_execVerdictFrameSend core id h
  | .heldAccessRelease core id sram => keptO_execHeldAccessRelease core id sram h
  | .bobbinRequestComplete core queue seq ecc sram => keptO_execBobbinRequestComplete core queue seq ecc sram h
  | .remoteRequestTimeout core queue seq => keptO_execRemoteRequestTimeout core queue seq h
  | .signalPerform id => keptO_execSignalPerform id h
  | .beatupComplete scope q => keptO_execBeatupComplete scope q h
  | .journalEntryComplete q => keptO_execJournalEntryComplete q h
  | .selvRunComplete core => keptO_execSelvRunComplete core h
  | .readFrameReceive rx ecc => keptO_execReadFrameReceive rx ecc h
  | .writeFrameReceive rx => keptO_execWriteFrameReceive rx h
  | .addFrameReceive rx ecc => keptO_execAddFrameReceive rx ecc h
  | .dataFrameReceive rx => keptO_execDataFrameReceive rx h
  | .doneFrameReceive rx => keptO_execDoneFrameReceive rx h
  | .caskHdrReceive rx => keptO_execCaskHdrReceive rx h
  | .caskPieceReceive rx sramDouble => keptO_execCaskPieceReceive rx sramDouble h
  | .caskAckReceive rx => keptO_execCaskAckReceive rx h
  | .verdictReceive rx => keptO_execVerdictReceive rx h
  | .normReceive rx => keptO_execNormReceive rx h
  | .signalFrameReceive rx => keptO_execSignalFrameReceive rx h
  | .beatupFrameReceive rx => keptO_execBeatupFrameReceive rx h
  | .tapFrameReceive rx => keptO_execTapFrameReceive rx h
  | .quiesceNoticeReceive port peer => keptO_execQuiesceNoticeReceive port peer h
  | .heldFrameRelease cask id => keptO_execHeldFrameRelease cask id h
  | .sectionSeal cask q bkt => keptO_execSectionSeal cask q bkt h
  | .bucketDeadline cask q bkt => keptO_execBucketDeadline cask q bkt h
  | .sectionDeadline cask q bkt => keptO_execSectionDeadline cask q bkt h
  | .caskSelvVerdict cask id => keptO_execCaskSelvVerdict cask id h
  | .flitSend port peer => keptO_execFlitSend port peer h
  | .flitReceive port peer flit err => keptO_execFlitReceive port peer flit err h
  | .retryRequestReceive port peer ack => keptO_execRetryRequestReceive port peer ack h
  | .lockLossTimeout port peer => keptO_execLockLossTimeout port peer h
  | .retrainComplete port peer seen => keptO_execRetrainComplete port peer seen h
  | .retrainTimeout port peer => keptO_execRetrainTimeout port peer h
  | .calTrackingStep port => keptO_execCalTrackingStep port h
  | .portBringUp port seen => keptO_execPortBringUp port seen h
  | .laserInputChange port powers => keptO_execLaserInputChange port powers h
  | .patrolScrubRead tier unit found => keptO_execPatrolScrubRead tier unit found h
  | .errorRecordCopy => keptO_execErrorRecordCopy h
  | .hangDetect q => keptO_execHangDetect q h
  | .hangAutoReset q => keptO_execHangAutoReset q h
  | .resetLevelTimeout q => keptO_execResetLevelTimeout q h
  | .resetSequenceComplete q => keptO_execResetSequenceComplete q h
  | .contextClearComplete q => keptO_execContextClearComplete q h
  | .load r e input => keptO_execLoad r e input h
  | .start r e => keptO_execStart r e h
  | .stop r e => keptO_execStop r e h
  | .unload r e => keptO_execUnload r e h
  | .checkpoint r e manifest => keptO_execCheckpoint r e manifest h
  | .restore r e targets => keptO_execRestore r e targets h
  | .replay r e targets => keptO_execReplay r e targets h
  | .partition r e => keptO_execPartition r e h
  | .reset r e => keptO_execReset r e h
  | .cellarRingTailWrite r value => keptO_execCellarRingTailWrite r value h
  | .cellarCplHeadWrite r value => keptO_execCellarCplHeadWrite r value h
  | .cellarRingCtrlWrite r value => keptO_execCellarRingCtrlWrite r value h
  | .msixVectorUnmask vector => keptO_execMsixVectorUnmask vector h
  | .hdmHostRead addr caches ecc => keptO_execHdmHostRead addr caches ecc h
  | .hdmHostWrite addr data => keptO_execHdmHostWrite addr data h
  | .biSnoopResponse line => keptO_execBiSnoopResponse line h
  | .cellarHdmSegWrite x value => keptO_execCellarHdmSegWrite x value h
  | .mmioBadAccess access => keptO_execMmioBadAccess access h
  | .cxlForeignRequest pid mem addr => keptO_execCxlForeignRequest pid mem addr h
  | .cxlLinkTrained width found => keptO_execCxlLinkTrained width found h
  | .mctpControlMessage ep body => keptO_execMctpControlMessage ep body h
  | .pldmRequestUpdate ep => keptO_execPldmRequestUpdate ep h
  | .pldmComponentTransfer ep component => keptO_execPldmComponentTransfer ep component h
  | .pldmActivateFirmware ep => keptO_execPldmActivateFirmware ep h
  | .recoveryImageReceive component readBack => keptO_execRecoveryImageReceive component readBack h
  | .spdmGetMeasurements ep index nonce => keptO_execSpdmGetMeasurements ep index nonce h
  | .spdmGetCertificate ep slot => keptO_execSpdmGetCertificate ep slot h
  | .spdmChallenge ep slot nonce => keptO_execSpdmChallenge ep slot nonce h
  | .spdmKeyExchange ep slot exchange => keptO_execSpdmKeyExchange ep slot exchange h
  | .spdmHeartbeat ep session => keptO_execSpdmHeartbeat ep session h
  | .ideKm ep session stream key go => keptO_execIdeKm ep session stream key go h
  | .cellarCoreFenceClear x value => keptO_execCellarCoreFenceClear x value h
  | .cellarCoreFenceSet x value => keptO_execCellarCoreFenceSet x value h
  | .cellarErrTailWrite value => keptO_execCellarErrTailWrite value h
  | .cellarSelvGo => keptO_execCellarSelvGo h
  | .hostSelvRunComplete ecc => keptO_execHostSelvRunComplete ecc h
  | .admitDevice => keptO_execAdmit h
  | .svnCommit => keptO_execSvnCommit h
  | .selftestGo value => keptO_execSelftestGo value h
  | .selftestCoreStart core => keptO_execSelftestCoreStart core h
  | .selftestCoreDone core pass => keptO_execSelftestCoreDone core pass h
  | .calGo value => keptO_execCalGo value h
  | .calComplete => keptO_execCalComplete h
  | .portRetrainWrite port value => keptO_execPortRetrainWrite port value h
  | .portFabricWrite value => keptO_execPortFabricWrite value h
  | .quadMaskGenWrite q value => keptO_execQuadMaskGenWrite q value h
  | .quadCtxModeWrite q value => keptO_execQuadCtxModeWrite q value h
  | .pwrHorizonHostWrite r value => keptO_execPwrHorizonHostWrite r value h
  | .pwrPoolCapWrite q value => keptO_execPwrPoolCapWrite q value h
  | .divHostWrite value => keptO_execDivHostWrite value h
  | .registerWrite access => keptO_execRegisterWrite access h
  | .cclkDividerChange => keptO_execCclkDividerChange h
  | .shedStageChange average => keptO_execShedStageChange average h
  | .s4LimitExpiry q => keptO_execS4LimitExpiry q h
  | .tclkLoss => keptO_execTclkLoss h
  | .tclkAbsent => keptO_execTclkAbsent h
  | .thermalThrottleStep tmax => keptO_execThermalThrottleStep tmax h
  | .thermalCritical tmax sensor => keptO_execThermalCritical tmax sensor h
  | .thermalShutdown tmax => keptO_execThermalShutdown tmax h
  | .idleEnter q => keptO_execIdleEnter q h
  | .idleExit q cause => keptO_execIdleExit q cause h
  | .powerUp input => keptO_execPowerUp input h
  | .boot found => keptO_execBoot found h
  | .powerDown => keptO_execPowerDown h
  | .inputUndervoltageOff input => keptO_execInputUndervoltageOff input h
  | .inputOvervoltageOff average => keptO_execInputOvervoltageOff average h
  | .railFault => keptO_execRailFault h
  | .leakDetect wet => keptO_execLeakDetect wet h
  | .tclkReturn => keptO_execTclkReturn h
  | .thermalCritClear tmax => keptO_execThermalCritClear tmax h
  | .inputReturn input => keptO_execInputReturn input h
  | .intermittentWindowExpiry core => keptO_execIntermittentWindowExpiry core h
  | .resetHistoryExpiry => keptO_execResetHistoryExpiry h
  | .idleMmioAccess access => keptO_execIdleMmioAccess access h

theorem step_of_queued {s : State} {c : Instr} {rest : List Instr} (h : s.pending = c :: rest) :
    step s = exec c { s with pending := rest } := by
  rw [step, h]

theorem step_of_empty {s : State} (h : s.pending = []) : step s = .next (tick s) := by
  rw [step, h]

theorem tick_railsOff {s : State} (h : s.power.rails = false) : tick s = s := by
  simp [tick, h]

/-- A next state of a step keeps what `Kept` says of the state found, but for the command taken from its queue. -/
theorem step_kept {s t : State} (h : step s = .next t) : ∃ rest, Kept { s with pending := rest } t := by
  cases hq : s.pending with
  | nil =>
    rw [step_of_empty hq] at h
    cases h
    exact ⟨s.pending, kept_tick (.refl s)⟩
  | cons c rest =>
    rw [step_of_queued hq] at h
    exact ⟨rest, keptO_exec (.refl _) c t h⟩

/-- Settles O1. -/
theorem queueStep : Obligations.QueueStep :=
  fun _ => ⟨fun _ _ => step_of_queued, fun hq => ⟨step_of_empty hq, fun hr => by rw [step_of_empty hq, tick_railsOff hr]⟩⟩

/-- Settles O2: the memories, the record store and the queue are empty at power-on. -/
theorem resetInvariant : Obligations.ResetInvariant :=
  ⟨⟨rfl, rfl, rfl⟩, rfl⟩

/-- Settles O3: the three parts of the invariant are among what every command and the tick keep. -/
theorem stepKeepsInvariant : Obligations.StepKeepsInvariant := by
  intro s t ⟨hmem, hmodes, herrors⟩ hstep
  obtain ⟨rest, -, -, -, -, mem, modes, errors⟩ := step_kept hstep
  exact ⟨mem hmem, modes hmodes, errors herrors⟩

/-- Settles O4: the fuses are among what every command and the tick keep. -/
theorem fusesHold : Obligations.FusesHold := by
  intro s t hstep
  obtain ⟨rest, -, fuses, svn, -⟩ := step_kept hstep
  exact ⟨fuses, svn⟩

/-- Settles O5: the queue and the draw counter are among what every command keeps. -/
theorem execLeavesQueue : Obligations.ExecLeavesQueue := by
  intro c s t hexec
  obtain ⟨queue, -, -, draws, -⟩ := keptO_exec (.refl s) c t hexec
  exact ⟨queue, draws⟩

end Sys2Proof.Machine
end

section
/-! The issue of an instruction (R99 to R122): one that runs completes, one that meets a condition faults with the lowest,
and a reserved bit is such a condition. -/

namespace Sys2Proof.Machine

/-! ### Completion and fault -/

/-- Settles O6: `exec` of an instruction row is the issue of its action, and a clean issue completes it. -/
theorem instructionCompletes : Obligations.InstructionCompletes :=
  fun _ _ _ _ s _ hi hm hp hd hc => (exec_issue s hi hm).trans (issueWith_clean hp hd hc)

/-- Settles O7: `exec` of an instruction row is the issue of its action, and an issue that meets a condition faults. -/
theorem instructionFaults : Obligations.InstructionFaults :=
  fun _ _ _ _ s _ _ _ hi hm hp hd hf => (exec_issue s hi hm).trans (issueWith_fault hp hd hf)

/-! ### The condition that is reported is the least -/

/-- Conditions are ordered by kind, and within a kind by DETAIL. -/
def condLe (x y : Nat × Nat) : Prop := x.1 < y.1 ∨ x.1 = y.1 ∧ x.2 ≤ y.2

theorem condLt_eq_true {x y : Nat × Nat} : condLt x y = true ↔ x.1 < y.1 ∨ x.1 = y.1 ∧ x.2 < y.2 := by
  simp [condLt]

theorem condLe_of_condLt {x y : Nat × Nat} (h : condLt x y = true) : condLe x y := by
  rw [condLt_eq_true] at h
  unfold condLe
  omega

theorem condLe_of_not_condLt {x y : Nat × Nat} (h : ¬ condLt y x = true) : condLe x y := by
  rw [condLt_eq_true] at h
  unfold condLe
  omega

theorem condLe_trans {x y z : Nat × Nat} (h : condLe x y) (k : condLe y z) : condLe x z := by
  unfold condLe at *
  omega

/-- Where a condition is met, one is reported, and none that is met comes before it. -/
theorem worst_least {l : Conds} {y : Nat × Nat} (hy : y ∈ l) : ∃ x, worst l = some x ∧ condLe x y := by
  induction l generalizing y with
  | nil => cases hy
  | cons z t ih =>
    cases ht : worst t with
    | none =>
      obtain rfl : t = [] := (worst_eq_none_iff t).mp ht
      obtain rfl : y = z := List.mem_singleton.mp hy
      exact ⟨y, by simp [worst], Or.inr ⟨rfl, Nat.le_refl _⟩⟩
    | some v =>
      have hv (x : Nat × Nat) (hx : x ∈ t) : condLe v x := by
        obtain ⟨w, hw, hle⟩ := ih hx
        obtain rfl : v = w := Option.some.inj (ht.symm.trans hw)
        exact hle
      by_cases hlt : condLt v z = true
      · refine ⟨v, by simp [worst, ht, hlt], ?_⟩
        rcases List.mem_cons.mp hy with rfl | hy
        · exact condLe_of_condLt hlt
        · exact hv y hy
      · refine ⟨z, by simp [worst, ht, hlt], ?_⟩
        rcases List.mem_cons.mp hy with rfl | hy
        · exact Or.inr ⟨rfl, Nat.le_refl _⟩
        · exact condLe_trans (condLe_of_not_condLt hlt) (hv y hy)

/-! ### Reserved bits -/

theorem lowestBit_le {x b : Nat} (hb : b < 128) (hx : x.testBit b = true) : ∃ i, lowestBit x = some i ∧ i ≤ b := by
  cases hl : lowestBit x with
  | none => exact absurd hx (List.find?_eq_none.mp hl b (List.mem_range.mpr hb))
  | some i =>
    obtain ⟨-, -, hlow⟩ := List.find?_range_eq_some.mp hl
    refine ⟨i, rfl, Nat.le_of_not_lt fun hlt => ?_⟩
    simpa [hx] using hlow b hlt

/-- A reserved bit that is set is a condition of kind 0x02 whose DETAIL is that bit or a lower one (R107). -/
theorem reservedConds_of_bit {f : Fmt} {w : InstrWord} {b : Nat} (hb : b < 128)
    (hset : (w.toNat &&& reservedMask f (fldPen w)).testBit b = true) : ∃ i ≤ b, (2, i) ∈ reservedConds f w := by
  obtain ⟨i, hi, hle⟩ := lowestBit_le hb hset
  exact ⟨i, hle, by simp [reservedConds, hi]⟩

/-- A condition of the word of a kind up to 0x03 makes the instruction fault, whether or not it executes (R101). -/
theorem actionFault_of_mem {a : At} {x : Action} {y : Nat × Nat} (hy : y ∈ reservedConds x.fmt a.w) (hk : y.1 ≤ 3) :
    ∃ v, actionFault a x = some v ∧ condLe v y := by
  unfold actionFault
  split
  · exact worst_least (by simp [hy])
  · exact worst_least (by simp [hy, hk])

/-- Settles O10: the bit is a condition of kind 0x02 that is met, so the reported one is that or one before it. -/
theorem reservedBitFaults : Obligations.ReservedBitFaults := by
  intro c op i m s a b hi hm hp hd hb hset
  obtain ⟨j, hj, hmem⟩ := reservedConds_of_bit hb hset
  obtain ⟨⟨k, d⟩, hf, hle⟩ := actionFault_of_mem hmem (Nat.le_succ 2)
  exact ⟨k, d, hle.imp_right fun ⟨hk, hd⟩ => ⟨hk, hd.trans hj⟩, instructionFaults c op i m s a k d hi hm hp hd hf⟩

/-! ### Instructions that stand ready -/

/-- An instruction that stands ready and meets no condition of its own completes. -/
theorem exec_ready {c : Instr} {op : Nat} {f : Fmt} {i : Issue} {m : At → Action} {s : State} {a : At}
    (hi : c.issue = some (op, i)) (hm : actionOf c = some m) (hr : Ready op f i s a) (hf : (m a).fmt = f)
    (henc : (m a).enc = []) (heng : (m a).eng = none) (hchk : (m a).chk = []) (hhold : (m a).hold = none) :
    exec c s = .next (advance (m a).eff a (m a).jump) := by
  obtain ⟨hp, hd, he, hres⟩ := hr
  have hfault : actionFault a (m a) = none := by simp [actionFault, he, hf, hres, henc, heng, hchk, worst]
  rw [instructionCompletes c op i m s a hi hm hp hd ⟨he, hfault, hhold⟩, occupy_of_no_engine heng]

end Sys2Proof.Machine
end

section
/-! Scalar and control instructions (R109 to R112): the values they send to D, as numbers. -/

namespace Sys2Proof.Machine

/-! ### Values of operands -/

theorem flag_lt_two (b : Bool) : flag b < 2 := by cases b <;> decide

theorem bits_lt {n : Nat} (x : BitVec n) (lo len : Nat) : bits x lo len < 2 ^ len :=
  Nat.mod_lt _ (Nat.two_pow_pos len)

/-- Every register reads as a 64-bit number. -/
theorem regRead_lt (r : RegFile) (sp : Nat) : regRead r sp < 2 ^ 64 := by
  unfold regRead
  split
  · exact BitVec.isLt _
  · exact (BitVec.isLt _).trans (by decide)
  · exact (flag_lt_two _).trans (by decide)
  · exact (BitVec.isLt _).trans (by decide)

theorem src1_lt (a : At) : src1 a < 2 ^ 64 := regRead_lt ..

theorem src2_lt (a : At) : src2 a < 2 ^ 64 := by
  unfold src2
  split
  · exact bits_lt ..
  · exact regRead_lt ..

theorem scalarConds_of_named {w : InstrWord} (h : scalarNamed w) : scalarConds w = [] := by
  obtain ⟨hd, hq, h1, h2⟩ := h
  rcases h2 with h2 | h2 <;> simp [scalarConds, cond, hd, hq, h1, h2]

/-- A ready two-source scalar instruction with its operands named sends its value to D. -/
theorem exec_scalar {c : Instr} {op : Nat} {i : Issue} {m : At → Action} {s : State} {a : At} {fnMax v : Nat}
    (hi : c.issue = some (op, i)) (hm : actionOf c = some m) (hact : m a = actScalar a fnMax v) (hr : Ready op .s i s a)
    (hfn : sFn a.w ≤ fnMax) (hn : scalarNamed a.w) : exec c s = .next (advance (toD a v) a none) := by
  have henc : (m a).enc = [] := by rw [hact, actScalar_enc hfn, scalarConds_of_named hn]
  have h := exec_ready hi hm hr (by rw [hact]; rfl) henc (by rw [hact]; rfl) (by rw [hact]; rfl) (by rw [hact]; rfl)
  rwa [hact] at h

/-! ### ADD, SUB and MUL -/

/-- What a destination keeps of a result (R95, R109). -/
theorem fitResult_eq_scalarFit (w : InstrWord) (v : Int) : fitResult (sD w) v = scalarFit w v := by
  unfold fitResult scalarFit pow2
  split
  · split
    · omega
    · split <;> omega
  · rfl

/-- Settles O11: each row is a two-source scalar instruction whose value is fitted to D. -/
theorem scalarArithmetic : Obligations.ScalarArithmetic := by
  intro i s a hfn hn
  simp only [← fitResult_eq_scalarFit]
  exact ⟨fun hr => exec_scalar (m := actAdd) rfl rfl rfl hr hfn.le hn,
    fun hr => exec_scalar (m := actSub) rfl rfl rfl hr hfn.le hn,
    fun hr => exec_scalar (m := actMul) rfl rfl rfl hr hfn.le hn⟩

/-! ### LOGIC and SHF -/

/-- The 64-bit word that LOGIC sends. -/
def logicWord (fn x y : Nat) : BitVec 64 :=
  let a := BitVec.ofNat 64 x
  let b := BitVec.ofNat 64 y
  if fn = 0 then a &&& b else if fn = 1 then a ||| b else if fn = 2 then a ^^^ b else a &&& ~~~b

theorem logicOf_eq (fn x y : Nat) : logicOf fn x y = (logicWord fn x y).toNat := rfl

theorem getLsbD_logicWord {k : Nat} (fn x y : Nat) (hk : k < 64) :
    (logicWord fn x y).getLsbD k =
      if fn = 0 then x.testBit k && y.testBit k else if fn = 1 then x.testBit k || y.testBit k
      else if fn = 2 then x.testBit k ^^ y.testBit k else x.testBit k && !y.testBit k := by
  unfold logicWord
  split_ifs <;> simp [hk, BitVec.getLsbD_ofNat, -BitVec.getLsbD_eq_getElem]

theorem toInt_ofNat64 (x : Nat) : (BitVec.ofNat 64 x).toInt = signed 64 x := by
  rw [BitVec.toInt_eq_toNat_cond, BitVec.toNat_ofNat, signed]
  split_ifs <;> omega

/-- SHF on numbers: the shifts as products and quotients by a power of two. -/
theorem scalarShift_eq {x : Nat} (fn y : Nat) (hx : x < 2 ^ 64) :
    scalarShift fn x y =
      let n := y % 64
      if fn = 0 then x * 2 ^ n % 2 ^ 64 else if fn = 1 then x / 2 ^ n
      else (signed 64 x / 2 ^ n % 2 ^ 64).toNat := by
  have hmod : x % 2 ^ 64 = x := Nat.mod_eq_of_lt hx
  unfold scalarShift
  dsimp only
  split_ifs
  · rw [BitVec.toNat_shiftLeft, BitVec.toNat_ofNat, hmod, Nat.shiftLeft_eq]
  · rw [BitVec.toNat_ushiftRight, BitVec.toNat_ofNat, hmod, Nat.shiftRight_eq_div_pow]
  · rw [← toInt_ofNat64, ← BitVec.ofInt_toInt (x := (BitVec.ofNat 64 x).sshiftRight _), BitVec.toNat_ofInt,
      BitVec.toInt_sshiftRight, Int.shiftRight_eq_div_pow]
    norm_cast

/-- Settles O12: bit by bit for LOGIC, and as products and quotients for SHF. -/
theorem scalarLogic : Obligations.ScalarLogic := by
  intro i s a hn
  refine ⟨fun hr hfn => ⟨logicWord (sFn a.w) (src1 a) (src2 a), ?_, fun k hk => getLsbD_logicWord _ _ _ hk⟩,
    fun hr hfn => ?_⟩
  · exact exec_scalar (m := actLogic) rfl rfl rfl hr hfn hn
  · have hv := scalarShift_eq (sFn a.w) (src2 a) (src1_lt a)
    rw [← hv]
    exact exec_scalar (m := actShf) rfl rfl rfl hr hfn hn

/-! ### MOV, CMP and SEL -/

theorem actMov_enc_of_imm {a : At} (hfn : sFn a.w = 0) (hd : specBad (sD a.w) = false) (himm : fldFlag a.w 0 = true)
    (hq : specFile (sD a.w) = 3 → sImm a.w = 0) : (actMov a).enc = [] := by
  simp only [actMov, fnZero, undefinedField, cond, hfn, hd, himm]
  simpa using hq

theorem actMov_enc_of_reg {a : At} (hfn : sFn a.w = 0) (hd : specBad (sD a.w) = false) (himm : fldFlag a.w 0 = false)
    (h1 : specBad (sS1 a.w) = false) (hq : specFile (sD a.w) = 3 → specFile (sS1 a.w) = 3) : (actMov a).enc = [] := by
  simp only [actMov, fnZero, undefinedField, cond, hfn, hd, himm, h1]
  simpa using hq

theorem ofNat64_eq_iff {x y : Nat} (hx : x < 2 ^ 64) (hy : y < 2 ^ 64) :
    BitVec.ofNat 64 x = BitVec.ofNat 64 y ↔ x = y := by
  rw [← BitVec.toNat_inj, BitVec.toNat_ofNat, BitVec.toNat_ofNat, Nat.mod_eq_of_lt hx, Nat.mod_eq_of_lt hy]

/-- CMP compares as the relation that FN names does. -/
theorem compareOf_iff {fn x y : Nat} (hfn : fn ≤ 5) (hx : x < 2 ^ 64) (hy : y < 2 ^ 64) :
    compareOf fn x y = true ↔ cmpHolds fn x y := by
  have hxm : (BitVec.ofNat 64 x).toNat = x := Nat.mod_eq_of_lt hx
  have hym : (BitVec.ofNat 64 y).toNat = y := Nat.mod_eq_of_lt hy
  unfold compareOf cmpHolds
  interval_cases fn <;>
    simp [ofNat64_eq_iff hx hy, BitVec.slt_iff_toInt_lt, BitVec.sle_iff_toInt_le, BitVec.ult_iff_toNat_lt,
      BitVec.ule_iff_toNat_le, toInt_ofNat64, hxm, hym, -BitVec.toNat_ofNat]

/-- Settles O13: the conditions of each row are not met, and CMP compares as its relation does. -/
theorem scalarMoves : Obligations.ScalarMoves := by
  intro i s a
  refine ⟨fun hr hfn hd => ⟨fun himm hq => ?imm, fun himm h1 hq => ?reg⟩, fun hr hfn hn hp => ?cmp,
    fun hr hfn hn => ?sel⟩
  case imm =>
    have heff : (actMov a).eff = toD a (sImm a.w) := by simp [actMov, toD, himm]
    rw [← heff]
    exact exec_ready (m := actMov) rfl rfl hr rfl (actMov_enc_of_imm hfn hd himm hq) rfl rfl rfl
  case reg =>
    have heff : (actMov a).eff = toD a (src1 a) := by simp [actMov, toD, himm]
    rw [← src1, ← heff]
    exact exec_ready (m := actMov) rfl rfl hr rfl (actMov_enc_of_reg hfn hd himm h1 hq) rfl rfl rfl
  case cmp =>
    have henc : (actCmp a).enc = [] := by simp [actCmp_enc hfn, scalarConds_of_named hn, cond, hp]
    exact ⟨_, compareOf_iff hfn (src1_lt a) (src2_lt a), exec_ready (m := actCmp) rfl rfl hr rfl henc rfl rfl rfl⟩
  case sel =>
    have hmod : sFn a.w % 64 = sFn a.w := Nat.mod_eq_of_lt (Nat.lt_succ_of_le hfn)
    have heff : (actSel a).eff = toD a (if bit a.r.p (sFn a.w) then src1 a else src2 a) := by simp [actSel, toD, hmod]
    rw [← heff]
    exact exec_ready (m := actSel) rfl rfl hr rfl ((actSel_enc hfn).trans (scalarConds_of_named hn)) rfl rfl rfl

/-! ### Control -/

theorem fnZero_of_zero {w : InstrWord} (h : sFn w = 0) : fnZero w = [] := by simp [fnZero, undefinedField, cond, h]

theorem branchConds_of_ok {a : At} {t : Nat} (h : branchOk (imgOf a.c a.sh) (pcOf a.r a.sh).toNat t = true) :
    branchConds a t = [] := by simp [branchConds, cond, h]

theorem actLoop_enc {a : At} (hfn : sFn a.w = 0) (hc : specFile (sS1 a.w) = 1) (hb : specBad (sS1 a.w) = false) :
    (actLoop a).enc = [] := by simp [actLoop, fnZero_of_zero hfn, cond, hc, hb]

/-- Settles O18: FN 0 and the conditions of the row leave nothing to fault, and LOOP branches unless its count ends. -/
theorem controlCompletes : Obligations.ControlCompletes := by
  intro i s a hfn t n
  refine ⟨fun hr => ?nop, fun hr hok => ?br, fun hr hc hb => ⟨fun hn => ?stop, fun hn hok => ?loop⟩, fun hr => ?ends,
    fun hr hk => ?slot⟩
  case nop => exact exec_ready (m := actNop) rfl rfl hr rfl (fnZero_of_zero hfn) rfl rfl rfl
  case br => exact exec_ready (m := actBr) rfl rfl hr rfl (fnZero_of_zero hfn) rfl (branchConds_of_ok hok) rfl
  case stop =>
    have hcount : loopCount a = 0 := hn
    have h := exec_ready (c := .loop i) (m := actLoop) rfl rfl hr rfl (actLoop_enc hfn hc hb) rfl
      (by simp [actLoop, hcount]) rfl
    simpa [actLoop, hcount] using h
  case loop =>
    have htaken : (loopCount a != 0) = true := bne_iff_ne.mpr hn
    have hchk : (actLoop a).chk = [] := (if_pos htaken).trans (branchConds_of_ok hok)
    have hjump : (actLoop a).jump = some t := if_pos htaken
    have h := exec_ready (c := .loop i) (m := actLoop) rfl rfl hr rfl (actLoop_enc hfn hc hb) rfl hchk rfl
    rwa [hjump] at h
  case ends => exact exec_ready (m := actEnd) rfl rfl hr rfl (fnZero_of_zero hfn) rfl rfl rfl
  case slot =>
    have henc : (actSlotSel a).enc = [] := by simp [actSlotSel, fnZero_of_zero hfn, cond, hk]
    exact exec_ready (m := actSlotSel) rfl rfl hr rfl henc rfl rfl rfl

end Sys2Proof.Machine
end

section
/-! Fields of words (R14): the bits of a word one of whose fields is written. -/

namespace Sys2Proof.Machine

theorem bit_setBits {n : Nat} (x : BitVec n) (lo len v : Nat) {k : Nat} (hk : k < n) :
    bit (setBits x lo len v) k = if lo ≤ k ∧ k < lo + len then v.testBit (k - lo) else bit x k := by
  unfold bit setBits
  have hmask : (2 ^ len - 1).testBit (k - lo) = decide (k - lo < len) := Nat.testBit_two_pow_sub_one ..
  simp only [BitVec.getLsbD_or, BitVec.getLsbD_and, BitVec.getLsbD_not, BitVec.getLsbD_ofNat, Nat.testBit_shiftLeft,
    Nat.testBit_mod_two_pow, hk, hmask, decide_true, Bool.true_and]
  by_cases hlo : lo ≤ k
  · by_cases hlen : k < lo + len
    · simp [hlo, hlen, show k - lo < len by omega]
    · simp [hlo, hlen, show ¬ k - lo < len by omega]
  · simp [hlo]

theorem bit_setBits_other {n : Nat} (x : BitVec n) (v : Nat) {j k : Nat} (hk : k < n) (h : k ≠ j) :
    bit (setBits x j 1 v) k = bit x k := by
  rw [bit_setBits x j 1 v hk, if_neg (by omega)]

end Sys2Proof.Machine
end

section
/-! Registers (R92 to R95, R103): what a register reads after a write, and what a write of an identity's registers leaves
of the cores. -/

namespace Sys2Proof.Machine

/-! ### Specifiers -/

/-- The width of a file's registers (R92). -/
def fileWidth (file : Nat) : Nat := if file = 0 then 64 else if file = 1 then 32 else if file = 2 then 1 else 16

theorem specFile_lt (sp : Nat) : specFile sp < 4 := Nat.mod_lt _ (by decide)

theorem spec_eq_of_file_idx {x y : Byte} (hf : specFile x.toNat = specFile y.toNat)
    (hi : specIdx x.toNat = specIdx y.toNat) : x = y := by
  have hx : x.toNat < 256 := x.isLt
  have hy : y.toNat < 256 := y.isLt
  unfold specFile at hf
  unfold specIdx at hi
  exact BitVec.eq_of_toNat_eq (by omega)

/-! ### A register after a write -/

theorem flag_decide_odd (v : Nat) : flag (decide (v % 2 = 1)) = v % 2 := by
  rcases Nat.mod_two_eq_zero_or_one v with h | h <;> simp [h, flag]

theorem specIdx_lt (sp : Nat) : specIdx sp < 64 := Nat.mod_lt _ (by decide)

/-- A register that was written reads as the value, truncated to the width of its file (R109). -/
theorem regRead_regWrite_same (r : RegFile) (sp v : Nat) :
    regRead (regWrite r sp v) sp = v % 2 ^ fileWidth (specFile sp) := by
  have hfile := specFile_lt sp
  unfold regRead regWrite fileWidth
  generalize specFile sp = file at hfile
  match file, hfile with
  | 0, _ => simp [tget_tset_same]
  | 1, _ => simp [tget_tset_same]
  | 2, _ => simp [bit_setBits _ _ _ _ (specIdx_lt sp), flag_decide_odd]
  | 3, _ => simp [tget_tset_same]

/-- Every other register reads as before. -/
theorem regRead_regWrite_other (r : RegFile) {sp x : Nat} (v : Nat) (h : specFile x = specFile sp → specIdx x ≠ specIdx sp) :
    regRead (regWrite r sp v) x = regRead r x := by
  have hfile := specFile_lt sp
  have hfile' := specFile_lt x
  unfold regRead regWrite
  generalize specFile sp = file at *
  generalize specFile x = file' at *
  match file, hfile with
  | 0, _ => match file', hfile' with
    | 0, _ => simp [tget_tset_other _ _ _ (h rfl)]
    | 1, _ | 2, _ | 3, _ => rfl
  | 1, _ => match file', hfile' with
    | 1, _ => simp [tget_tset_other _ _ _ (h rfl)]
    | 0, _ | 2, _ | 3, _ => rfl
  | 2, _ => match file', hfile' with
    | 2, _ =>
      exact congrArg flag (bit_setBits_other r.p v (specIdx_lt x) (h rfl))
    | 0, _ | 1, _ | 3, _ => rfl
  | 3, _ => match file', hfile' with
    | 3, _ => simp [tget_tset_other _ _ _ (h rfl)]
    | 0, _ | 1, _ | 2, _ => rfl

@[simp] theorem pcOf_regWrite (r : RegFile) (sp v : Nat) (sh : Shuttle) : pcOf (regWrite r sp v) sh = pcOf r sh := by
  unfold regWrite
  split <;> cases sh <;> rfl

/-! ### A write of an identity's registers -/

/-- A core after a register write differs in its registers at most. -/
theorem getCore_setRegs (s : State) (n m : Nat) (r : RegFile) :
    getCore (setRegs s n r) m =
      { getCore s m with regs := (getCore (setRegs s n r) m).regs, spare := (getCore (setRegs s n r) m).spare } := by
  unfold setRegs
  split <;> (rw [getCore_modCore]; split)
  · next h => rw [h]
  · rfl
  · next h => rw [h]
  · rfl

theorem onlyCores_setRegs (s : State) (n : Nat) (r : RegFile) : onlyCores [n, runner s n] s (setRegs s n r) := by
  unfold setRegs
  split
  · exact onlyCores_modCore s _ (by simp)
  · exact onlyCores_modCore s _ (by simp)

/-! ### A register result that lands -/

theorem landOne_reg {s : State} {n : Nat} {f : Flight} {sp : Byte} {v : Dword} (he : f.effect = .reg sp v)
    (ha : f.access = none) (hv : f.verdict = none) :
    landOne s n f = setRegs s n (regWrite (getRegs s n) sp.toNat v.toNat) := by
  simp [landOne, he, ha, hv, landVerdict]

/-- Settles O16: the result that lands is one register write of the identity. -/
theorem registerWriteLands : Obligations.RegisterWriteLands := by
  intro s n f sp v he ha hv hb t
  have ht : t = setRegs s n (regWrite (getRegs s n) sp.toNat v.toNat) := landOne_reg he ha hv
  rw [ht, getRegs_setRegs]
  refine ⟨regRead_regWrite_same .., fun x hx _ => ?_, fun sh => pcOf_regWrite .., onlyCores_setRegs ..,
    fun m => getCore_setRegs ..⟩
  exact regRead_regWrite_other _ _ (fun hf hi => hx (spec_eq_of_file_idx hf hi))

/-! ### An issue that advances -/

theorem onlyCores_mono {k l : List Nat} {s t : State} (h : onlyCores k s t) (hkl : k ⊆ l) : onlyCores l s t :=
  ⟨h.1, fun m hm => h.2 m (fun hk => hm (hkl hk))⟩

/-- A change of one shuttle leaves the rest of its core. -/
theorem modSh_frame (c : Core) (sh : Shuttle) (g : Sh → Sh) :
    modSh c sh g = { c with f := (modSh c sh g).f, b := (modSh c sh g).b, u := (modSh c sh g).u } := by
  cases sh <;> rfl

theorem getCore_modSh_frame (s : State) (n m : Nat) (sh : Shuttle) (g : Sh → Sh) :
    getCore (modCore s n (fun c => modSh c sh g)) m = { getCore s m with
      f := (getCore (modCore s n (fun c => modSh c sh g)) m).f
      b := (getCore (modCore s n (fun c => modSh c sh g)) m).b
      u := (getCore (modCore s n (fun c => modSh c sh g)) m).u } := by
  rw [getCore_modCore]
  split
  · next h => rw [h]; exact modSh_frame ..
  · rfl

/-- Settles O17: advancing writes the program counter of the identity, and then its shuttle's bookkeeping. -/
theorem issueAdvances : Obligations.IssueAdvances := by
  intro s a target t
  refine ⟨?only, ?regs, advance_shuttle s a target, fun x hx => ?other, fun m => ?frame⟩
  case only =>
    unfold t advance
    exact onlyCores_trans (onlyCores_setRegs ..) (onlyCores_modCore _ _ List.mem_cons_self)
  case regs =>
    exact (getRegs_modSh ..).trans (getRegs_setRegs ..)
  case other =>
    show shOf (getCore (modCore _ _ _) _) x = _
    rw [getCore_modCore_same, shOf_modSh_other _ _ hx, shOf_setRegs]
  case frame =>
    have hm : getCore t m = _ := getCore_modSh_frame ..
    rw [hm, getCore_setRegs]

end Sys2Proof.Machine
end

section
/-! What a fault leaves (R122 to R129): the frames of a vector, a record and a fault, each as one equation. -/

namespace Sys2Proof.Machine

/-- A vector that is raised changes its pending bit or the messages sent. -/
theorem raiseVector_frame (s : State) (v : Nat) :
    raiseVector s v = { s with host := { s.host with msixPend := (raiseVector s v).host.msixPend
                                                     messages := (raiseVector s v).host.messages } } := by
  unfold raiseVector
  split <;> rfl

theorem copyOldest_frame_eq (s : State) :
    copyOldest s = { s with
      hbm := (copyOldest s).hbm, poisonHbm := (copyOldest s).poisonHbm, errors := (copyOldest s).errors
      host := { s.host with msixPend := (copyOldest s).host.msixPend, messages := (copyOldest s).host.messages } } := by
  unfold copyOldest
  split
  · rfl
  · rw [raiseVector_frame]

/-- A record changes the error state, the draw counter, the pending vectors and messages, and of HBM3E what its copy to
the ring writes. -/
theorem record_frame_eq (s : State) (r : RecIn) :
    record s r = { s with
      hbm := (record s r).hbm, poisonHbm := (record s r).poisonHbm, errors := (record s r).errors
      draws := (record s r).draws
      host := { s.host with msixPend := (record s r).host.msixPend, messages := (record s r).host.messages } } := by
  unfold record
  extract_lets rec_ e t u
  have hu : u = { s with
      hbm := u.hbm, poisonHbm := u.poisonHbm, errors := u.errors, draws := u.draws
      host := { s.host with msixPend := u.host.msixPend, messages := u.host.messages } } := by
    unfold u
    split
    · rfl
    · rw [copyOldest_frame_eq]
  split
  · rw [hu]
  · split <;> rw [hu]

theorem raiseFault_frame (s : State) (p : Part) (n : Nat) (sh : Shuttle) (pc : Word) (op kind detail : Nat) (d : Bool) :
    let t := raiseFault s p n sh pc op kind detail d
    t = { s with cores := t.cores, parts := t.parts, hbm := t.hbm, poisonHbm := t.poisonHbm, errors := t.errors
                 draws := t.draws, host := { s.host with msixPend := t.host.msixPend, messages := t.host.messages } } := by
  intro t
  unfold t
  rw [raiseFault_eq]
  generalize faultWord pc kind detail d (firstFault s p n sh) = word
  dsimp only [partVector]
  rw [raiseVector_frame, record_frame_eq, faulted_frame]

/-- A fault touches no more of another shuttle than its fault word (R128, R129). -/
theorem shOf_raiseFault_other (s : State) (p : Part) {n : Nat} {sh : Shuttle} (pc : Word) (op kind detail : Nat) (d : Bool)
    {m : Nat} {x : Shuttle} (h : m ≠ n ∨ x ≠ sh) :
    shOf (getCore (raiseFault s p n sh pc op kind detail d) m) x =
      { shOf (getCore s m) x with fault := (shOf (getCore (raiseFault s p n sh pc op kind detail d) m) x).fault } := by
  have hhalt (c : Core) (y : Option Nat) : shOf { c with haltAt := y } x = shOf c x := by cases x <;> rfl
  rw [getCore_raiseFault]
  generalize faultWord pc kind detail d (firstFault s p n sh) = word
  have hpass : shOf (getCore (faulted s p n sh word) m) x = shOf (getCore (passFirst s p (firstFault s p n sh)) m) x := by
    simp only [faulted, getCore_noteFirst, haltFaulted, getCore_modCore]
    split
    · next hm =>
      have hx : x ≠ sh := h.resolve_left (fun hne => hne hm)
      rw [hhalt, shOf_modSh_other _ _ hx, hm]
    · rfl
  rw [hpass, shOf_passFirst]

theorem haltAt_raiseFault_other (s : State) (p : Part) {n : Nat} (sh : Shuttle) (pc : Word) (op kind detail : Nat) (d : Bool)
    {m : Nat} (h : m ≠ n) : (getCore (raiseFault s p n sh pc op kind detail d) m).haltAt = (getCore s m).haltAt := by
  rw [getCore_raiseFault]
  simp only [faulted, getCore_noteFirst, haltFaulted, getCore_modCore, if_neg h, passFirst_haltAt]

/-- Settles O20: of the cores by `coreFaulted`, of the rest by the frame of a fault. -/
theorem faultChangesOnly : Obligations.FaultChangesOnly := by
  intro s p n sh pc op kind detail d t
  have hframe : t = _ := raiseFault_frame s p n sh pc op kind detail d
  refine ⟨fun m => coreFaulted_raiseFault .., fun m x h => shOf_raiseFault_other s p pc op kind detail d h,
    fun m h => haltAt_raiseFault_other s p sh pc op kind detail d h, ?_⟩
  rw [hframe]
  exact ⟨rfl, rfl, rfl, rfl, rfl, rfl, rfl, rfl, rfl⟩

end Sys2Proof.Machine
end

section
/-! Descriptor instructions (R138 to R145): the images they make pass validation, and so are on their way to their
entries. -/

namespace Sys2Proof.Machine

/-! ### Conditions that are not met -/

@[simp] theorem cond_false (k d : Nat) : cond false k d = [] := rfl

@[simp] theorem cond_decide_of_not {P : Prop} [Decidable P] {k d : Nat} (h : ¬ P) : cond (decide P) k d = [] := by
  simp [h]

theorem modeSubZero_eq_nil {w : InstrWord} (hm : tMode w = 0) (hs : tSub w = 0) : modeSubZero w = [] := by
  simp [modeSubZero, undefinedField, hm, hs]

theorem modeZero_eq_nil {w : InstrWord} (hm : tMode w = 0) : modeZero w = [] := by
  simp [modeZero, undefinedField, hm]

@[simp] theorem needEntry_of_some {a : At} {k off : Nat} {d : Image} (h : entryOf a k = some d) : needEntry a k off = [] := by
  simp [needEntry, h]

@[simp] theorem onEntry_of_some {a : At} {k : Nat} {d : Image} (g : Image → Conds) (h : entryOf a k = some d) :
    onEntry a k g = g d := by
  simp [onEntry, h]

@[simp] theorem entryD_of_some {a : At} {k : Nat} {d : Image} (h : entryOf a k = some d) : entryD a k = d := by
  simp [entryD, h]

/-- A span of core store that DA names, inside core store (assumption 18). -/
theorem spanConds_eq_nil {a : At} {k off extra len : Nat} {d : Image} (he : entryOf a k = some d) (hh : dHandle d = 0)
    (hlen : dBase d + extra + len ≤ storeBytes) : spanConds a k off extra len = [] := by
  simp [spanConds, he, hh, Nat.not_lt.mpr hlen]

theorem reasonConds_of_none {a : At} {d : Image} (h : descReason a.s a.p d = none) : reasonConds a d = [] := by
  simp [reasonConds, h]

/-- A read that finds nothing leaves the state as it is. -/
theorem readStore_clean {a : At} {units : List Nat} (hs : a.ups.storeDouble = []) (hc : a.ups.corrected = 0) :
    readStore a units = a.s := by
  simp [readStore, sramErrors, sramFound, sramOf, hs, hc]

theorem latency_desc (p : Part) : latency p 4 3 = if p.profile = 2 then 3 else 4 := rfl

/-! ### DESC.MAKE, DESC.SET and DESC.OFFS -/

/-- Settles O21: each of the three meets no condition of its row, and sends the image it validated. -/
theorem descriptorsCreated : Obligations.DescriptorsCreated := by
  intro i s a x hmode hx lat
  have hlat : lat = latency a.p 4 3 := rfl
  rw [hlat]
  refine ⟨fun d hr hsub he hh hlen himg hups hcor => ?make, fun d hr hsub he hset => ?set,
    fun d b hr hsub he hbase hmul hlt himg => ?offs⟩
  case make =>
    have hspan : spanConds a (tDA a.w) offDA (tImm a.w) 64 = [] := spanConds_eq_nil he hh hlen
    have hchk : (actDescMake a).chk = [] := by
      simp [actDescMake, hspan, entryD_of_some he, ← himg, reasonConds_of_none hx]
    have heff : (actDescMake a).eff = pushWrite a.s a (latency a.p 4 3) (.desc (tDO a.w) x) := by
      simp [actDescMake, readStore_clean hups hcor, entryD_of_some he, ← himg]
    rw [← heff]
    exact exec_ready (m := actDescMake) rfl rfl hr rfl (modeSubZero_eq_nil hmode hsub) rfl hchk rfl
  case set =>
    have henc : (actDescSet a).enc = [] := by simp [actDescSet, modeZero_eq_nil hmode, undefinedField, hsub]
    have hchk : (actDescSet a).chk = [] := by
      simp [actDescSet, he, hset, reasonConds_of_none hx]
    have heff : (actDescSet a).eff = pushWrite a.s a (latency a.p 4 3) (.desc (tDO a.w) x) := by
      simp [actDescSet, entryD_of_some he, hset]
    rw [← heff]
    exact exec_ready (m := actDescSet) rfl rfl hr rfl henc rfl hchk rfl
  case offs =>
    have henc : (actDescOffs a).enc = [] := by simp [actDescOffs, modeZero_eq_nil hmode, undefinedField, Nat.not_lt.mpr hsub]
    have hmul' : ((b : Int) % 64) = 0 := by exact_mod_cast hmul
    have hlow : ¬ ((b : Int) < 0 ∨ pow2 48 ≤ (b : Int)) := by unfold pow2; omega
    have hchk : (actDescOffs a).chk = [] := by
      simp [actDescOffs, he, hbase, hmul', hlow, ← himg, reasonConds_of_none hx]
    have heff : (actDescOffs a).eff = pushWrite a.s a (latency a.p 4 3) (.desc (tDO a.w) x) := by
      simp [actDescOffs, entryD_of_some he, hbase, ← himg]
    rw [← heff]
    exact exec_ready (m := actDescOffs) rfl rfl hr rfl henc rfl hchk rfl

/-! ### DESC.LDT and DESC.STT -/

theorem firstBad_eq_none {a : At} {ds : List Image} (h : ∀ d ∈ ds, descReason a.s a.p d = none) (k : Nat) :
    firstBad a k ds = none := by
  induction ds generalizing k with
  | nil => rfl
  | cons d t ih =>
    rw [firstBad, h d List.mem_cons_self]
    exact ih (fun x hx => h x (List.mem_cons_of_mem _ hx)) _

/-- The first image that fails after images that pass is the one that is found (R140). -/
theorem firstBad_append {a : At} {ds rest : List Image} {d : Image} {r : Nat}
    (h : ∀ x ∈ ds, descReason a.s a.p x = none) (hd : descReason a.s a.p d = some r) (k : Nat) :
    firstBad a k (ds ++ d :: rest) = some (k + ds.length, r) := by
  induction ds generalizing k with
  | nil => simp [firstBad, hd]
  | cons x t ih =>
    rw [List.cons_append, firstBad, h x List.mem_cons_self, List.length_cons]
    rw [ih (fun y hy => h y (List.mem_cons_of_mem _ hy)) (k + 1)]
    simp only [Option.some.injEq, Prod.mk.injEq, and_true]
    omega

/-- The images of consecutive places, parted at one of them. -/
theorem map_range_split {α : Type} (f : Nat → α) {j n : Nat} (h : j < n) :
    ∃ rest, (List.range n).map f = (List.range j).map f ++ f j :: rest := by
  obtain ⟨m, rfl⟩ : ∃ m, n = j + 1 + m := ⟨n - (j + 1), by omega⟩
  exact ⟨((List.range m).map (fun k => j + 1 + k)).map f, by
    rw [List.range_add, List.map_append, List.range_succ, List.map_append]
    simp⟩

section Ldt
variable {a : At} {d : Image} (hmode : tMode a.w = 0) (hsub : tSub a.w = 0) (he : entryOf a (tDA a.w) = some d)
  (hh : dHandle d = 0) (hk : tDO a.w + (tImm a.w % 256 + 1) ≤ 256)
  (hlen : dBase d + 64 * (tImm a.w % 256 + 1) ≤ storeBytes)

/-- The images that DESC.LDT reads (R140). -/
def ldtImages (a : At) (d : Image) : List Image :=
  (List.range (tImm a.w % 256 + 1)).map (fun j => imageAt a.c.store (dBase d + 64 * j))

include hmode hsub hk in
theorem actDescLdt_enc : (actDescLdt a).enc = [] := by
  have hend : ¬ 255 < tDO a.w + (tImm a.w % 256 + 1) - 1 := by omega
  simp only [actDescLdt, modeSubZero_eq_nil hmode hsub, decide_eq_false hend, cond_false, List.append_nil]

include he hh hlen

theorem actDescLdt_span : spanConds a (tDA a.w) offDA 0 (64 * (tImm a.w % 256 + 1)) = [] := spanConds_eq_nil he hh hlen

theorem actDescLdt_chk_of_bad {j r : Nat} (hbad : firstBad a 0 (ldtImages a d) = some (j, r)) :
    (actDescLdt a).chk = [(5, r + (tDO a.w + j) % 256 * 256)] := by
  rw [ldtImages] at hbad
  simp [actDescLdt, actDescLdt_span he hh hlen, entryD_of_some he, hbad]

theorem actDescLdt_chk_of_good (hgood : firstBad a 0 (ldtImages a d) = none) : (actDescLdt a).chk = [] := by
  rw [ldtImages] at hgood
  simp [actDescLdt, actDescLdt_span he hh hlen, entryD_of_some he, hgood]

theorem actDescLdt_onDesc_of_bad (hups : a.ups.storeDouble = []) (hcor : a.ups.corrected = 0) {j r : Nat}
    (hbad : firstBad a 0 (ldtImages a d) = some (j, r)) :
    (actDescLdt a).onDesc = some (pushDescs a a.s (tDO a.w) ((ldtImages a d).take j)) := by
  rw [ldtImages] at hbad
  simp [actDescLdt, actDescLdt_span he hh hlen, entryD_of_some he, hbad, readStore_clean hups hcor,
    ldtImages]

end Ldt

/-- Settles O22: no image of DESC.LDT fails, or the first that does is found and named; DESC.STT meets no condition. -/
theorem descriptorTablesMove : Obligations.DescriptorTablesMove := by
  intro i s a d hmode hsub he hh n img
  refine ⟨fun hr hk hlen hups hcor => ⟨fun hgood => ?load, fun j r hj hgood hbad _ => ?fails⟩, fun x hr hx hlen => ?stt⟩
  case load =>
    have hnone : firstBad a 0 (ldtImages a d) = none :=
      firstBad_eq_none (fun y hy => by
        obtain ⟨j, hj, rfl⟩ := List.mem_map.mp hy
        exact hgood j (List.mem_range.mp hj)) 0
    have heff : (actDescLdt a).eff = pushDescs a a.s (tDO a.w) ((List.range n).map img) := by
      simp [actDescLdt, entryD_of_some he, readStore_clean hups hcor, img, n]
    rw [← heff]
    exact exec_ready (m := actDescLdt) rfl rfl hr rfl (actDescLdt_enc hmode hsub hk) rfl
      (actDescLdt_chk_of_good he hh hlen hnone) rfl
  case fails =>
    obtain ⟨rest, hsplit⟩ := map_range_split img hj
    have hfound : firstBad a 0 (ldtImages a d) = some (j, r) := by
      have h := firstBad_append (ds := (List.range j).map img) (rest := rest) (fun y hy => by
        obtain ⟨k, hk, rfl⟩ := List.mem_map.mp hy
        exact hgood k (List.mem_range.mp hk)) hbad 0
      rw [← hsplit, List.length_map, List.length_range, Nat.zero_add] at h
      exact h
    have htake : (ldtImages a d).take j = (List.range j).map img := by
      have h : ldtImages a d = _ := hsplit
      rw [h]
      exact List.take_left' (by simp)
    have hdetail : r + (tDO a.w + j) % 256 * 256 = r + 256 * (tDO a.w + j) := by
      have hn : n = tImm a.w % 256 + 1 := rfl
      omega
    obtain ⟨hp, hd, hex, hres⟩ := hr
    have hfault : actionFault a (actDescLdt a) = some (5, r + 256 * (tDO a.w + j)) := by
      have hfmt : (actDescLdt a).fmt = .t := rfl
      have heng : (actDescLdt a).eng = none := rfl
      simp [actionFault, hex, hfmt, hres, actDescLdt_enc hmode hsub hk, heng,
        actDescLdt_chk_of_bad he hh hlen hfound, hdetail, worst]
    rw [instructionFaults (.descLdt i) 0x13 i actDescLdt s a 5 _ rfl rfl hp hd hfault, if_pos rfl,
      actDescLdt_onDesc_of_bad he hh hlen hups hcor hfound, htake]
    rfl
  case stt =>
    have hspan : spanConds a (tDA a.w) offDA 0 64 = [] := spanConds_eq_nil he hh hlen
    have hchk : (actDescStt a).chk = [] := by simp [actDescStt, hx, hspan]
    have heff : (actDescStt a).eff = pushStore a.s a (latency a.p 4 3) none
        (.store [(8 * dBase d, 512, x.toNat)] .clear) := by
      simp [actDescStt, entryD_of_some he, entryD_of_some hx]
    rw [← latency_desc, ← heff]
    exact exec_ready (m := actDescStt) rfl rfl hr rfl (modeSubZero_eq_nil hmode hsub) rfl hchk rfl

end Sys2Proof.Machine
end

section
/-! Waits (R77 to R79, R102, R171, R187, R198 to R200): how a shuttle enters one, when its condition is met and when it
resumes; and slot plans (R72). -/

namespace Sys2Proof.Machine

/-! ### Entering a wait -/

/-- The shuttle at a wait that its instruction has put it at. -/
def waiting (a : At) (kind : WaitKind) (acq : Bool) (met : Option Nat) (x : Sh) : Sh :=
  { x with mode := .wait
           wait := some { kind := kind, rph := wRph a.w, acq := acq, issued := a.s.cc, metAt := met, poisoned := false } }

theorem enterWait_met (a : At) (acq : Bool) :
    enterWait a.s a .met acq = modCore a.s a.n (fun c => modSh c a.sh (waiting a .met acq (some a.s.cc))) := rfl

theorem enterWait_pending (a : At) {kind : WaitKind} (acq : Bool) (h : kind ≠ .met) :
    enterWait a.s a kind acq = modCore a.s a.n (fun c => modSh c a.sh (waiting a kind acq none)) := by
  unfold enterWait waiting
  rw [if_neg h]

@[simp] theorem immZero_zero (off kind : Nat) : immZero 0 off kind = [] := by
  have h : lowestBit 0 = none := List.find?_eq_none.mpr (fun i _ => by simp)
  simp [immZero, h]

theorem beatsOf_addBeat (x : Sh) {scope : Nat} : beatsOf (addBeat x scope) scope = beatsOf x scope + 1 := by
  unfold beatsOf addBeat
  split
  · rfl
  · split <;> rfl

/-- What a wait on a token register waits for (R94, R171). -/
theorem bqWaitKind_live {c : Core} {tok : Nat} (hv : tok / 2 ^ 15 % 2 = 1)
    (hl : tokenLive (tget {} c.queues (tok / 2 ^ 11 % 16)) (tok % 2 ^ 11) = true) :
    bqWaitKind c tok = .bq (tok / 2 ^ 11 % 16) (tok % 2 ^ 11) := if_pos ⟨hv, hl⟩

theorem bqWaitKind_dead {c : Core} {tok : Nat}
    (h : ¬ (tok / 2 ^ 15 % 2 = 1 ∧ tokenLive (tget {} c.queues (tok / 2 ^ 11 % 16)) (tok % 2 ^ 11) = true)) :
    bqWaitKind c tok = .met := if_neg h

/-- A fence that stands ready holds its shuttle. -/
theorem exec_fence {c : Instr} {op k : Nat} {i : Issue} {s : State} {a : At} (hi : c.issue = some (op, i))
    (hm : actionOf c = some (actFence k)) (hr : Ready op .w i s a) :
    exec c s = .next (advance (modCore a.s a.n (fun x => modSh x a.sh (waiting a (.fence k) (decide (2 ≤ k)) none))) a
      none) := by
  rw [← enterWait_pending a (decide (2 ≤ k)) (by simp)]
  exact exec_ready (m := actFence k) hi hm hr rfl rfl rfl rfl rfl

/-- Settles O23: each row meets no condition and enters its wait, met at once or pending. -/
theorem waitsHoldTheirShuttle : Obligations.WaitsHoldTheirShuttle := by
  intro i s a held tok q
  refine ⟨fun hr hq hb => ⟨fun hv hl => ?live, fun hdead => ?dead⟩, fun hr => ⟨fun hc => ?none, fun hc => ?some⟩,
    fun hr hscope hcnt hcore hmod hbkt => ?beatup, fun hr hb => ?verdict, fun hr => exec_fence rfl rfl hr,
    fun hr => exec_fence rfl rfl hr, fun hr => exec_fence rfl rfl hr, fun hr => exec_fence rfl rfl hr⟩
  case live =>
    have henc : (actBqWait a).enc = [] := by simp [actBqWait, hq, hb]
    have heff : (actBqWait a).eff = enterWait a.s a (.bq (tok / 2 ^ 11 % 16) (tok % 2 ^ 11)) (fldFlag a.w 0) :=
      congrArg (fun k => enterWait a.s a k _) (bqWaitKind_live hv (decide_eq_true hl))
    have h := exec_ready (c := .bqWait i) (m := actBqWait) rfl rfl hr rfl henc rfl rfl rfl
    rw [heff, enterWait_pending a _ (by simp)] at h
    exact h
  case dead =>
    have henc : (actBqWait a).enc = [] := by simp [actBqWait, hq, hb]
    have heff : (actBqWait a).eff = enterWait a.s a .met (fldFlag a.w 0) :=
      congrArg (fun k => enterWait a.s a k _) (bqWaitKind_dead (fun h => hdead ⟨h.1, of_decide_eq_true h.2⟩))
    have h := exec_ready (c := .bqWait i) (m := actBqWait) rfl rfl hr rfl henc rfl rfl rfl
    rw [heff, enterWait_met] at h
    exact h
  case none =>
    have heff : (actSemWait a).eff = enterWait a.s a .met (fldFlag a.w 0) :=
      congrArg (fun k => enterWait a.s a k _) (if_pos hc)
    have h := exec_ready (c := .semWait i) (m := actSemWait) rfl rfl hr rfl rfl rfl rfl rfl
    rw [heff, enterWait_met] at h
    exact h
  case some =>
    have heff : (actSemWait a).eff = enterWait a.s a (.sem (wTgt a.w) (wCnt a.w)) (fldFlag a.w 0) :=
      congrArg (fun k => enterWait a.s a k _) (if_neg hc)
    have h := exec_ready (c := .semWait i) (m := actSemWait) rfl rfl hr rfl rfl rfl rfl rfl
    rw [heff, enterWait_pending a _ (by simp)] at h
    exact h
  case beatup =>
    have henc : (actBeatup a).enc = [] := by simp [actBeatup, Nat.not_lt.mpr hscope, hcnt, hcore, hmod, hbkt]
    have h := exec_ready (c := .beatup i) (m := actBeatup) rfl rfl hr rfl henc rfl rfl rfl
    have hc : a.c = getCore a.s a.n := by
      obtain ⟨-, -, -, -, -, hc, -⟩ := place_spec hr.1
      exact hc
    dsimp only [actBeatup] at h
    rw [enterWait_pending a _ (by simp)] at h
    refine ⟨_, h, rfl, ?_⟩
    rw [advance_shuttle, getCore_modCore_same, getCore_modCore_same, shOf_modSh,
      shOf_modSh, ← hc]
    exact (beatsOf_addBeat _)
  case verdict =>
    have hchk : (actVerdictWait a).chk = [] := by
      rw [show (actVerdictWait a).chk = cond _ 0x0E _ from rfl, Option.isNone_eq_false_iff.mpr hb, cond_false]
    have h := exec_ready (c := .verdictWait i) (m := actVerdictWait) rfl rfl hr rfl rfl rfl hchk rfl
    rw [show (actVerdictWait a).eff = enterWait a.s a (.verdict _) _ from rfl, enterWait_pending a _ (by simp)] at h
    exact h

/-! ### Conditions of waits -/

@[simp] theorem meetWait_regs (c : Core) (sh : Shuttle) (cc : Nat) (b : Bool) : (meetWait c sh cc b).regs = c.regs :=
  modSh_regs ..
@[simp] theorem meetWait_queues (c : Core) (sh : Shuttle) (cc : Nat) (b : Bool) : (meetWait c sh cc b).queues = c.queues :=
  modSh_queues ..
@[simp] theorem meetWait_sems (c : Core) (sh : Shuttle) (cc : Nat) (b : Bool) : (meetWait c sh cc b).sems = c.sems :=
  modSh_sems ..

/-- A pending wait is the wait of a shuttle that waits. -/
theorem wait_of_pending {c : Core} {sh : Shuttle} {w : Wait} (h : pendingWait c sh = some w) :
    (shOf c sh).mode = .wait ∧ (shOf c sh).wait = some w ∧ w.metAt = none := by
  unfold pendingWait at h
  dsimp only at h
  split at h
  · next hm =>
    cases hw : (shOf c sh).wait with
    | none => simp [hw] at h
    | some v =>
      rw [hw] at h
      cases hv : v.metAt with
      | some t => simp [hv] at h
      | none =>
        simp only [hv, Option.isNone_none, if_true, Option.some.injEq] at h
        exact ⟨hm, by rw [h], h ▸ hv⟩
  · cases h

theorem shOf_meetWait {c : Core} {sh : Shuttle} {w : Wait} (hw : (shOf c sh).wait = some w) (cc : Nat) (b : Bool) :
    (shOf (meetWait c sh cc b) sh).wait = some { w with metAt := some cc, poisoned := w.poisoned || b } := by
  simp [meetWait, hw]

theorem shOf_meetWait_other (c : Core) {sh x : Shuttle} (cc : Nat) (b : Bool) (h : x ≠ sh) :
    shOf (meetWait c sh cc b) x = shOf c x := shOf_modSh_other _ _ h

theorem shOf_queues (c : Core) (q : Tbl Queue) (sh : Shuttle) : shOf { c with queues := q } sh = shOf c sh := by
  cases sh <;> rfl

theorem shOf_sems (c : Core) (m : Tbl Sem) (sh : Shuttle) : shOf { c with sems := m } sh = shOf c sh := by
  cases sh <;> rfl

section Bq
variable {cc k seq : Nat} {c : Core} {sh : Shuttle} {w : Wait}

/-- How many of a queue's requests a wait on a sequence number covers (R171). -/
def covered (q : Queue) (seq : Nat) : Nat := (seq + 2048 - q.oldest) % 2048 + 1

/-- The queue without the requests that a wait on a sequence number covers. -/
def retire (q : Queue) (seq : Nat) : Queue :=
  { q with oldest := (q.oldest + covered q seq) % 2048, reqs := q.reqs.drop (covered q seq) }

theorem bqTest_done (hp : pendingWait c sh = some w) (hk : w.kind = .bq k seq)
    (hl : tokenLive (tget {} c.queues k) seq = true)
    (hd : ∀ r ∈ (tget {} c.queues k).reqs.take (covered (tget {} c.queues k) seq), r.complete = true) :
    bqTest cc c sh =
      let q := tget {} c.queues k
      meetWait { c with queues := tset {} c.queues k (retire q seq) } sh cc
        ((q.reqs.take (covered q seq)).any (fun r => r.poisoned)) := by
  have hall := List.all_eq_true.mpr hd
  unfold retire covered at *
  simp [bqTest, hp, hk, hl, hall]

theorem bqTest_pending (hp : pendingWait c sh = some w) (hk : w.kind = .bq k seq)
    (hl : tokenLive (tget {} c.queues k) seq = true)
    (hd : ∃ r ∈ (tget {} c.queues k).reqs.take (covered (tget {} c.queues k) seq), r.complete = false) :
    bqTest cc c sh = c := by
  have hall : ((tget {} c.queues k).reqs.take (covered (tget {} c.queues k) seq)).all (fun r => r.complete) = false :=
    List.all_eq_false.mpr (by simpa using hd)
  unfold covered at hall
  simp [bqTest, hp, hk, hl, hall]

end Bq

section Sem
variable {cc i k : Nat} {c : Core} {sh : Shuttle} {w : Wait}

/-- The SEM.WAIT at which a shuttle is pending, as (issue cycle, shuttle, semaphore, CNT). -/
def semWaitOf (c : Core) (sh : Shuttle) : Option (Nat × Shuttle × Nat × Nat) :=
  match pendingWait c sh with
  | some w => match w.kind with
    | .sem i k => some (w.issued, sh, i, k)
    | _ => none
  | none => none

theorem semWaits_eq (c : Core) :
    semWaits c = (allShuttles.filterMap (semWaitOf c)).foldl (fun l x => insSem x l) [] := rfl

theorem semWaitOf_some (hp : pendingWait c sh = some w) (hk : w.kind = .sem i k) :
    semWaitOf c sh = some (w.issued, sh, i, k) := by
  simp [semWaitOf, hp, hk]

theorem semWaitOf_none (h : ∀ y, pendingWait c sh = some y → ∀ j l, y.kind ≠ .sem j l) : semWaitOf c sh = none := by
  unfold semWaitOf
  split
  · next y hy =>
    split
    · next j l hj => exact absurd hj (h y hy j l)
    · rfl
  · rfl

/-- The only pending SEM.WAIT of a core is the only one that is tested (R200). -/
theorem semWaits_single (hp : pendingWait c sh = some w) (hk : w.kind = .sem i k)
    (hother : ∀ x y, x ≠ sh → pendingWait c x = some y → ∀ j l, y.kind ≠ .sem j l) :
    semWaits c = [(w.issued, sh, i, k)] := by
  have hmine := semWaitOf_some hp hk
  have hnone (x : Shuttle) (hx : x ≠ sh) : semWaitOf c x = none := semWaitOf_none (fun y hy => hother x y hx hy)
  have hlist : allShuttles.filterMap (semWaitOf c) = [(w.issued, sh, i, k)] := by
    cases sh
    · simp [allShuttles, hmine, hnone .b, hnone .u]
    · simp [allShuttles, hmine, hnone .f, hnone .u]
    · simp [allShuttles, hmine, hnone .f, hnone .b]
  rw [semWaits_eq, hlist]
  rfl

theorem semTest_single (hp : pendingWait c sh = some w) (hk : w.kind = .sem i k)
    (hother : ∀ x y, x ≠ sh → pendingWait c x = some y → ∀ j l, y.kind ≠ .sem j l) :
    semTest cc c =
      let m := tget {} c.sems i
      if k ≤ m.count.toNat then
        meetWait { c with sems := tset {} c.sems i { m with count := m.count - BitVec.ofNat 16 k } } sh cc false
      else c := by
  unfold semTest
  rw [semWaits_single hp hk hother]
  simp only [List.foldl_cons, List.foldl_nil, List.contains_nil, Bool.false_eq_true, if_false]
  split <;> rfl

end Sem

theorem toNat_sub_ofNat16 {x : BitVec 16} {k : Nat} (h : k ≤ x.toNat) : (x - BitVec.ofNat 16 k).toNat = x.toNat - k := by
  have hx : x.toNat < 2 ^ 16 := x.isLt
  rw [BitVec.toNat_sub, BitVec.toNat_ofNat]
  omega

/-- Settles O26: the test of a BQ.WAIT by what it covers, and the test of the only SEM.WAIT of a core. -/
theorem waitConditionsMet : Obligations.WaitConditionsMet := by
  intro cc c sh w hp
  obtain ⟨-, hw, -⟩ := wait_of_pending hp
  refine ⟨fun k seq hk => ?bq, fun i k hk hother => ?sem⟩
  case bq =>
    intro q n hl
    refine ⟨fun hd => ?_, fun hd => bqTest_pending hp hk (decide_eq_true hl) hd⟩
    rw [bqTest_done hp hk (decide_eq_true hl) hd]
    refine ⟨shOf_meetWait (by rw [shOf_queues, hw]) cc _, ?_, fun j hj => ?_, meetWait_regs ..⟩
    · rw [meetWait_queues, tget_tset_same]
      rfl
    · rw [meetWait_queues, tget_tset_other _ _ _ hj]
  case sem =>
    intro m
    rw [semTest_single hp hk hother]
    refine ⟨fun hle => ?_, fun hlt => if_neg (Nat.not_le.mpr hlt)⟩
    dsimp only
    rw [if_pos hle]
    refine ⟨?_, ?_, ?_, fun j hj => ?_, fun x hx => ?_⟩
    · rw [shOf_meetWait (w := w) (by rw [shOf_sems, hw]) cc false, Bool.or_false]
    · rw [meetWait_sems, tget_tset_same]
      exact toNat_sub_ofNat16 hle
    · rw [meetWait_sems, tget_tset_same]
    · rw [meetWait_sems, tget_tset_other _ _ _ hj]
    · rw [shOf_meetWait_other _ _ _ hx, shOf_sems]

/-! ### Slot plans -/

/-- A shuttle that lets a slot plan in: held at a wait of an earlier cycle, or ended on an earlier one (R72). -/
def letsPlan (cc : Nat) (c : Core) (sh : Shuttle) : Prop :=
  ((shOf c sh).mode = .wait ∧ ∃ w, (shOf c sh).wait = some w ∧ w.issued < cc) ∨
    ((shOf c sh).mode = .ended ∧ (shOf c sh).last < c.cycle)

theorem planDue_iff (cc : Nat) (c : Core) :
    planDue cc c = true ↔ c.planPending.isSome = true ∧ ∀ sh, letsPlan cc c sh := by
  have hone (sh : Shuttle) : (match (shOf c sh).mode, (shOf c sh).wait with
      | .wait, some w => decide (w.issued < cc)
      | .ended, _ => decide ((shOf c sh).last < c.cycle)
      | _, _ => false) = true ↔ letsPlan cc c sh := by
    unfold letsPlan
    cases hm : (shOf c sh).mode <;> cases hw : (shOf c sh).wait <;> simp
  have hall : planDue cc c = true ↔ c.planPending.isSome = true ∧ ∀ sh ∈ allShuttles, letsPlan cc c sh := by
    rw [planDue, Bool.and_eq_true, List.all_eq_true]
    exact and_congr_right (fun _ => forall₂_congr (fun sh _ => hone sh))
  rw [hall]
  exact and_congr_right fun _ => ⟨fun h sh => h sh (by cases sh <;> decide), fun h sh _ => h sh⟩

theorem takePlan_due {cc : Nat} {c : Core} {k : Nat} (hk : c.planPending = some k) (h : ∀ sh, letsPlan cc c sh) :
    takePlan cc c = { c with plan := k, planPending := none, phase := 0 } := by
  rw [takePlan, if_pos ((planDue_iff cc c).mpr ⟨by rw [hk]; rfl, h⟩), hk]
  rfl

theorem takePlan_not_due {cc : Nat} {c : Core} (h : ¬ ∀ sh, letsPlan cc c sh) : takePlan cc c = c :=
  if_neg (fun hd => h ((planDue_iff cc c).mp hd).2)

/-- Settles O35: by when a plan is due, in a RUNNING context that maps the core and otherwise. -/
theorem slotPlanTakesEffect : Obligations.SlotPlanTakesEffect := by
  intro core s p k hpart hk c held
  have hexec : exec (.slotPlanTakeEffect core) s =
      .next (if p.ctx = .running ∧ p.map.contains core.val then modCore s core.val (takePlan s.cc) else s) := by
    show execSlotPlanTakeEffect core s = _
    rw [execSlotPlanTakeEffect, hpart]
  refine ⟨_, hexec, ?_, fun hrun hmap hheld => ?_, fun hnot => ?_⟩
  · split
    · exact onlyCores_modCore s _ (List.mem_singleton_self _)
    · exact onlyCores_refl ..
  · rw [if_pos ⟨hrun, List.contains_iff_mem.mpr hmap⟩, getCore_modCore_same]
    exact takePlan_due hk hheld
  · split
    · next hrun =>
      rw [getCore_modCore_same]
      refine takePlan_not_due (fun hheld => ?_)
      rcases hnot with h | h | h
      · exact h hrun.1
      · exact h (List.contains_iff_mem.mp hrun.2)
      · exact h hheld
    · rfl

end Sys2Proof.Machine
end

section
/-! Resumption of waits (R78, R124, R175, R188, R415). -/

namespace Sys2Proof.Machine

/-- The state in which a met wait is tested for its resumption: what is due has landed, and a slot plan that is due has taken
effect. -/
def resumeState (s0 : State) (n : Nat) : State := modCore (landAll s0 n) n (takePlan s0.cc)

/-- A resuming wait that acquires drops the read-combining entries (R188). -/
def dropCombined (s : State) (n : Nat) (w : Wait) : State := if w.acq then modCore s n combineClear else s

/-- The U shuttle's VERDICT.WAIT opens its bucket to UPD (R415). -/
def openToUpd (s : State) (n : Nat) (sh : Shuttle) (w : Wait) : State :=
  match sh, w.kind with
  | .u, .verdict b => modCore s n (fun c =>
      { c with verdictBuckets := if c.verdictBuckets.contains b then c.verdictBuckets else c.verdictBuckets ++ [b] })
  | _, _ => s

/-- The shuttle runs again, on this schedule cycle (R78, R601). -/
def runAgain (s : State) (n : Nat) (sh : Shuttle) : State :=
  modCore s n (fun c => modSh c sh (fun x =>
    { x with mode := .run, wait := none, last := c.cycle, resumed := true, progress := x.progress + 1, progressAt := s.pll }))

/-- The queue that a poisoned wait names (R175). -/
def queueOf (w : Wait) : Nat :=
  match w.kind with
  | .bq k _ => k
  | _ => 0

section Resume
variable {core : Fin 192} {sh : Shuttle} {s0 : State} {p : Part} {w : Wait}

/-- The ends of a resumption, for a shuttle that waits in a RUNNING context that maps its core. -/
theorem exec_waitResume (hpart : corePart (resumeState s0 core.val) core.val = some p)
    (hw : (shOf (getCore (resumeState s0 core.val) core.val) sh).wait = some w)
    (hm : (shOf (getCore (resumeState s0 core.val) core.val) sh).mode = .wait) (hrun : p.ctx = .running)
    (hmap : p.map.contains core.val = true) :
    exec (.waitResume core sh) s0 = .next (
      let s := resumeState s0 core.val
      if p.faultFirst.isSome then
        modCore s core.val (fun c => modSh c sh (fun x => { x with mode := .halted, wait := none }))
      else if p.stopping || s4Holds s p || !resumeDue s (getCore s core.val) w then s
      else if w.poisoned then
        raiseFault s p core.val sh (pcOf (getRegs s core.val) sh - 1) 0x19 0x0B (queueOf w) false
      else runAgain (openToUpd (dropCombined s core.val w) core.val sh w) core.val sh) := by
  show execWaitResume core sh s0 = _
  unfold resumeState at *
  rw [execWaitResume, hpart, hw]
  dsimp only
  rw [if_pos ⟨hm, hrun, hmap⟩]
  simp only [apply_ite Host.Outcome.next]
  rfl

end Resume

/-! ### The parts of a resumption -/

section Parts
variable (s : State) (n : Nat) (sh : Shuttle) (w : Wait)

theorem getCore_dropCombined :
    getCore (dropCombined s n w) n =
      { getCore s n with combine := if w.acq = true then [] else (getCore s n).combine } := by
  unfold dropCombined
  by_cases h : w.acq = true
  · simp only [if_pos h, getCore_modCore_same, combineClear]
  · simp only [if_neg h]

theorem getCore_openToUpd :
    getCore (openToUpd s n sh w) n =
      { getCore s n with verdictBuckets := (getCore (openToUpd s n sh w) n).verdictBuckets } := by
  unfold openToUpd
  split
  · rw [getCore_modCore_same]
  · rfl

theorem mem_openToUpd {b : Half} (hk : w.kind = .verdict b) :
    b ∈ (getCore (openToUpd s n .u w) n).verdictBuckets := by
  simp only [openToUpd, hk, getCore_modCore_same]
  split
  · next h => exact List.contains_iff_mem.mp h
  · exact List.mem_append_right _ (List.mem_singleton_self b)

theorem onlyCores_dropCombined : onlyCores [n] s (dropCombined s n w) := by
  unfold dropCombined
  split
  · exact onlyCores_modCore s _ (List.mem_singleton_self n)
  · exact onlyCores_refl ..

theorem onlyCores_openToUpd : onlyCores [n] s (openToUpd s n sh w) := by
  unfold openToUpd
  split
  · exact onlyCores_modCore s _ (List.mem_singleton_self n)
  · exact onlyCores_refl ..

theorem onlyCores_runAgain : onlyCores [n] s (runAgain s n sh) := onlyCores_modCore s _ (List.mem_singleton_self n)

@[simp] theorem dropCombined_pll : (dropCombined s n w).pll = s.pll := by
  unfold dropCombined
  split <;> rfl

@[simp] theorem openToUpd_pll : (openToUpd s n sh w).pll = s.pll := by
  unfold openToUpd
  split <;> rfl

end Parts

theorem shOf_of_shuttles {c d : Core} (hf : c.f = d.f) (hb : c.b = d.b) (hu : c.u = d.u) (sh : Shuttle) :
    shOf c sh = shOf d sh := by
  cases sh
  · exact hf
  · exact hb
  · exact hu

/-- The core before its shuttle runs again differs in its combining buffer and open buckets only. -/
theorem getCore_beforeRun (s : State) (n : Nat) (sh : Shuttle) (w : Wait) :
    let t := openToUpd (dropCombined s n w) n sh w
    getCore t n = { getCore s n with combine := if w.acq = true then [] else (getCore s n).combine
                                     verdictBuckets := (getCore t n).verdictBuckets } := by
  intro t
  have ht : getCore t n = _ := getCore_openToUpd ..
  rw [ht, getCore_dropCombined]

theorem getCore_runAgain (s : State) (n : Nat) (sh : Shuttle) :
    getCore (runAgain s n sh) n = modSh (getCore s n) sh (fun x =>
      { x with mode := .run, wait := none, last := (getCore s n).cycle, resumed := true, progress := x.progress + 1
               progressAt := s.pll }) := getCore_modCore_same ..

/-- What a resumption that goes through leaves of its core, and that it touches no other. -/
theorem runAgain_core (s : State) (n : Nat) (sh : Shuttle) (w : Wait) :
    let c := getCore s n
    let u := runAgain (openToUpd (dropCombined s n w) n sh w) n sh
    onlyCores [n] s u ∧
    shOf (getCore u n) sh = { shOf c sh with mode := .run, wait := none, last := c.cycle, resumed := true,
                                             progress := (shOf c sh).progress + 1, progressAt := s.pll } ∧
    (∀ x, x ≠ sh → shOf (getCore u n) x = shOf c x) ∧
    (getCore u n).combine = (if w.acq = true then [] else c.combine) ∧
    (∀ b, sh = .u → w.kind = .verdict b → b ∈ (getCore u n).verdictBuckets) ∧
    getCore u n = { c with f := (getCore u n).f, b := (getCore u n).b, u := (getCore u n).u,
                           combine := (getCore u n).combine, verdictBuckets := (getCore u n).verdictBuckets } := by
  intro c u
  have hbefore := getCore_beforeRun s n sh w
  have hpll : (openToUpd (dropCombined s n w) n sh w).pll = s.pll := by simp
  have honly : onlyCores [n] s (openToUpd (dropCombined s n w) n sh w) :=
    onlyCores_trans (onlyCores_dropCombined s n w) (onlyCores_openToUpd ..)
  have hopen : ∀ b, sh = .u → w.kind = .verdict b →
      b ∈ (getCore (openToUpd (dropCombined s n w) n sh w) n).verdictBuckets := by
    rintro b rfl hk
    exact mem_openToUpd _ n w hk
  have hu : u = runAgain (openToUpd (dropCombined s n w) n sh w) n sh := rfl
  generalize openToUpd (dropCombined s n w) n sh w = v at hbefore hpll honly hopen hu
  have hsh (x : Shuttle) : shOf (getCore v n) x = shOf c x :=
    shOf_of_shuttles (by rw [hbefore]) (by rw [hbefore]) (by rw [hbefore]) x
  have hrunc := getCore_runAgain v n sh
  rw [← hu] at hrunc
  refine ⟨hu ▸ onlyCores_trans honly (onlyCores_runAgain v n sh), ?_, fun x hx => ?_, ?_, fun b hb hk => ?_, ?_⟩
  · rw [hrunc, shOf_modSh, hsh, hpll, hbefore]
  · rw [hrunc, shOf_modSh_other _ _ hx, hsh]
  · rw [hrunc, modSh_frame, hbefore]
  · rw [hrunc, modSh_frame]
    exact hopen b hb hk
  · rw [hrunc, modSh_frame, hbefore]

/-- Settles O25: each clause is one of the ends of a resumption. -/
theorem waitResumes : Obligations.WaitResumes := by
  intro core sh s0 p w n s c hpart hw hm hrun hmap
  have hexec := exec_waitResume hpart hw hm hrun hmap
  refine ⟨fun hf => ?fault, fun hf hstay => ?stay, fun t hf hstop hs4 ht hlt hsched hplan hphase => ⟨fun hp => ?runs,
    fun k seq hp hk => ?poisoned⟩⟩
  case fault =>
    rw [hexec]
    exact congrArg _ (if_pos hf)
  case stay =>
    have hheld : (p.stopping || s4Holds s p || !resumeDue s c w) = true := by
      rcases hstay with h | h | h | h
      · simp [h]
      · simp [resumeDue, h]
      · cases hmet : w.metAt <;> simp [resumeDue, h, hmet]
      · cases hmet : w.metAt <;> simp [resumeDue, h, hmet]
    rw [hexec]
    refine congrArg _ ((if_neg (by simp [hf])).trans (if_pos hheld))
  all_goals
    have hgo : ¬ (p.stopping || s4Holds s p || !resumeDue s c w) = true := by
      have hcc : t < s.cc := hlt
      simp [hstop, s4Holds, hs4, resumeDue, ht, hcc, hsched, hplan, hphase]
    have hnofault : ¬ p.faultFirst.isSome = true := by simp [hf]
  case runs =>
    have hend : exec (.waitResume core sh) s0 = .next (runAgain (openToUpd (dropCombined s n w) n sh w) n sh) :=
      hexec.trans (congrArg _ ((if_neg hnofault).trans ((if_neg hgo).trans (if_neg (by simp [hp])))))
    exact ⟨_, hend, runAgain_core s n sh w⟩
  case poisoned =>
    have hq : queueOf w = k := by simp [queueOf, hk]
    rw [hexec, ← hq]
    exact congrArg _ ((if_neg hnofault).trans ((if_neg hgo).trans (if_pos hp)))

end Sys2Proof.Machine
end

section
/-! Results that land (R82): what the landing of a core's due results can change of the module. -/

namespace Sys2Proof.Machine

/-! ### The frame of a landing -/

/-- A state after results have landed: cores, the commit bits of the quadrants, signals posted by chains, and what the
records of selvedge events leave. -/
def landed (s t : State) : Prop :=
  t = { s with cores := t.cores, quads := t.quads, signals := t.signals, nextSignal := t.nextSignal, w1c := t.w1c
               w1cAt := t.w1cAt, errors := t.errors, hbm := t.hbm, poisonHbm := t.poisonHbm, draws := t.draws
               host := { s.host with msixPend := t.host.msixPend, messages := t.host.messages } }

theorem landed_refl (s : State) : landed s s := rfl

theorem landed_trans {s t u : State} (h : landed s t) (k : landed t u) : landed s u := by
  unfold landed at *
  rw [k, h]

theorem landed_foldl {α : Type} {f : State → α → State} (hf : ∀ t x, landed t (f t x)) (l : List α) (s : State) :
    landed s (l.foldl f s) := by
  induction l generalizing s with
  | nil => exact landed_refl s
  | cons x l ih => exact landed_trans (hf s x) (ih _)

theorem landed_modCore (s : State) (n : Nat) (g : Core → Core) : landed s (modCore s n g) := rfl
theorem landed_setCore (s : State) (n : Nat) (c : Core) : landed s (setCore s n c) := rfl
theorem landed_noteW1c (s : State) (a b : Nat) : landed s (noteW1c s a b) := rfl
theorem landed_modQuad (s : State) (q : Nat) (g : Quad → Quad) : landed s (modQuad s q g) := rfl

theorem landed_record (s : State) (r : RecIn) : landed s (record s r) := by
  unfold landed
  rw [record_frame_eq]

theorem landed_setRegs (s : State) (n : Nat) (r : RegFile) : landed s (setRegs s n r) := by
  unfold setRegs
  split <;> rfl

theorem landed_modPartQuads (s : State) (p : Part) (g : Quad → Quad) : landed s (modPartQuads s p g) :=
  landed_foldl (fun t q => landed_modQuad t q g) _ s

theorem landed_landVerdict (s : State) (n : Nat) (v : Option Nat) : landed s (landVerdict s n v) := by
  unfold landVerdict
  split <;> rfl

theorem landed_landSelv (s : State) (n : Nat) (sh : Shuttle) (pc : Word) (r : Dword) (ev : List (Nat × Nat))
    (e : List Poke) (chk : Chk) (t : Option Byte) : landed s (landSelv s n sh pc r ev e chk t) :=
  landed_trans (landed_modCore s n _)
    (landed_foldl (fun _ _ => landed_trans (landed_modCore _ _ _) (landed_record _ _)) _ _)

/-- The access of a result performs as it lands (R181). -/
def doneAccess (n : Nat) (f : Flight) (t : State) : State :=
  match f.access with
  | some id => performAccess t n f.sh id
  | none => t

theorem landed_doneAccess (n : Nat) (f : Flight) (s : State) : landed s (doneAccess n f s) := by
  unfold doneAccess
  split <;> rfl

theorem landed_landOne (s : State) (n : Nat) (f : Flight) : landed s (landOne s n f) := by
  refine landed_trans ?_ (landed_landVerdict _ n f.verdict)
  have hdone {t : State} (h : landed s t) : landed s (doneAccess n f t) := landed_trans h (landed_doneAccess n f t)
  cases f.effect with
  | nothing => exact hdone (landed_refl s)
  | reg sp v => exact hdone (landed_setRegs ..)
  | desc k d => exact hdone (landed_modCore ..)
  | store e chk => exact hdone (landed_modCore ..)
  | tunStore e chk back => exact hdone (landed_modCore ..)
  | accum m a t chk back beam =>
    refine hdone (landed_trans ?_ (landed_modCore ..))
    split
    · exact landed_noteW1c ..
    · exact landed_refl s
  | chain target e chk sem => rfl
  | sfuEntries tb first es => exact hdone (landed_modCore ..)
  | sfuConfig tb lo inv => exact hdone (landed_modCore ..)
  | paramSlot k b => exact hdone (landed_modCore ..)
  | selvCfg fn imm => exact hdone (landed_modCore ..)
  | selv pc r ev e chk t => exact hdone (landed_landSelv ..)
  | jnlFold bs => exact hdone (landed_modCore ..)
  | commit e =>
    refine hdone (landed_trans (landed_modCore s n (fun c => storeElems c e .clear)) ?_)
    split
    · exact landed_modPartQuads ..
    · exact landed_refl _

theorem landed_noteMarks (s : State) (n o cycle : Nat) (m : Multiplier) : landed s (noteMarks s n o cycle m) := by
  refine landed_foldl (fun t x => ?_) _ s
  have hnote {u : State} (c : Bool) (b : Nat) (h : landed t u) : landed t (if c then noteW1c u (corePage n o) b else u) := by
    split
    · exact landed_trans h (landed_noteW1c ..)
    · exact h
  exact hnote _ 2 (hnote _ 1 (hnote _ 0 (landed_refl t)))

theorem landed_landDue (s : State) (n : Nat) : landed s (landDue s n) :=
  landed_trans (landed_noteMarks ..) (landed_trans (landed_noteMarks ..)
    (landed_trans (landed_setCore ..) (landed_foldl (fun t f => landed_landOne t n f) _ _)))

theorem landed_landTun (s : State) (n : Nat) : landed s (landTun s n) :=
  landed_trans (landed_setCore ..) (landed_foldl (fun t f => landed_landOne t n f) _ _)

/-- What a core's due results leave as they land. -/
theorem landed_landAll (s : State) (n : Nat) : landed s (landAll s n) :=
  landed_trans (landed_landDue s n) (landed_landTun _ n)

theorem landed_landEach (l : List Nat) (s : State) : landed s (l.foldl landAll s) := landed_foldl landed_landAll l s

section Fields
variable {s t : State} (h : landed s t)
include h

theorem landed_parts : t.parts = s.parts := by rw [h]
theorem landed_cc : t.cc = s.cc := by rw [h]
theorem landed_ports : t.ports = s.ports := by rw [h]
theorem landed_lpddr : t.lpddr = s.lpddr := by rw [h]
theorem landed_fabric : t.fabric = s.fabric := by rw [h]

end Fields

end Sys2Proof.Machine
end

section
/-! Frames on their way (R482 to R493): what sending and taking a frame changes, and where its slots end. -/

namespace Sys2Proof.Machine

/-! ### The frame of sending and taking -/

/-- A state after frames have been sent or taken: only the ports and the mesh differ. -/
def linked (s t : State) : Prop := t = { s with ports := t.ports, mesh := t.mesh }

theorem linked_refl (s : State) : linked s s := rfl

theorem linked_trans {s t u : State} (h : linked s t) (k : linked t u) : linked s u := by
  unfold linked at *
  rw [k, h]

theorem linked_modPort (s : State) (k : Nat) (g : Port → Port) : linked s (modPort s k g) := rfl
theorem linked_modChan (s : State) (port peer : Nat) (g : Chan → Chan) : linked s (modChan s port peer g) := rfl
theorem linked_sendFrame (s : State) (port peer : Nat) (f : Frame) : linked s (sendFrame s port peer f) := rfl

theorem linked_sendTo (s : State) (x : Nat × Nat × Frame) : linked s (sendTo s x) := by
  unfold sendTo
  split <;> rfl

theorem linked_sendAll (s : State) (xs : List (Nat × Nat × Frame)) : linked s (sendAll s xs) := by
  unfold sendAll
  induction xs generalizing s with
  | nil => exact linked_refl s
  | cons x xs ih => exact linked_trans (linked_sendTo s x) (ih _)

theorem linked_freeRx (s : State) (rx : Rx) (n : Nat) : linked s (freeRx s rx n) := by
  unfold freeRx
  split
  · exact linked_refl s
  · exact linked_modChan ..

theorem linked_takeRx {s t : State} {rx : Rx} (h : takeRx s rx = some t) : linked s t := by
  unfold takeRx at h
  dsimp only at h
  split at h
  · split at h
    · split at h
      · cases h; rfl
      · cases h
    · cases h
  · split at h
    · cases h; rfl
    · cases h

section Fields
variable {s t : State} (h : linked s t)
include h

theorem linked_cores : t.cores = s.cores := by rw [h]
theorem linked_parts : t.parts = s.parts := by rw [h]
theorem linked_signals : t.signals = s.signals := by rw [h]
theorem linked_hbm : t.hbm = s.hbm := by rw [h]
theorem linked_lpddr : t.lpddr = s.lpddr := by rw [h]
theorem linked_cc : t.cc = s.cc := by rw [h]
theorem linked_fabric : t.fabric = s.fabric := by rw [h]
theorem linked_errors : t.errors = s.errors := by rw [h]
theorem linked_quads : t.quads = s.quads := by rw [h]
theorem linked_getCore (m : Nat) : getCore t m = getCore s m := by rw [getCore, linked_cores h, ← getCore]
theorem linked_partAt (low : Nat) : partAt t low = partAt s low := by rw [partAt, linked_parts h, ← partAt]
theorem linked_partOf (q : Nat) : partOf t q = partOf s q := by rw [partOf, linked_parts h, ← partOf]
theorem linked_corePart (n : Nat) : corePart t n = corePart s n := linked_partOf h _
theorem linked_ownIndex : ownIndex t = ownIndex s := by rw [ownIndex, linked_fabric h, ← ownIndex]
theorem linked_fabricN : fabricN t = fabricN s := by rw [fabricN, linked_fabric h, ← fabricN]

end Fields

/-! ### Channels -/

theorem getChan_modChan (s : State) (port peer k m : Nat) (g : Chan → Chan) :
    getChan (modChan s port peer g) k m = if k = port ∧ m = peer then g (getChan s port peer) else getChan s k m := by
  unfold getChan modChan
  rw [getPort_modPort]
  split
  · next hk =>
    rw [tget_tset]
    by_cases hm : m = peer <;> simp [hk, hm]
  · next hk => rw [if_neg (fun h => hk h.1)]

@[simp] theorem getChan_modChan_same (s : State) (port peer : Nat) (g : Chan → Chan) :
    getChan (modChan s port peer g) port peer = g (getChan s port peer) := by
  rw [getChan_modChan, if_pos ⟨rfl, rfl⟩]

/-! ### A frame sent -/

/-- Every slot of a frame sent to a channel that has not failed waits on its virtual lane (R488, R499). -/
theorem mem_txq_sendFrame {s : State} {port peer : Nat} {f : Frame} (h : (getChan s port peer).state ≠ .failed) :
    ∀ y ∈ frameSlots f, y ∈ tget [] (getChan (sendFrame s port peer f) port peer).txq (vlOf f) := by
  intro y hy
  rw [sendFrame, getChan_modChan_same, if_neg h, tget_tset_same]
  exact List.mem_append_right _ hy

theorem sendFrame_state (s : State) (port peer k m : Nat) (f : Frame) :
    (getChan (sendFrame s port peer f) k m).state = (getChan s k m).state := by
  rw [sendFrame, getChan_modChan]
  split
  · next h =>
    obtain ⟨rfl, rfl⟩ := h
    split <;> rfl
  · rfl

/-- What waits on a virtual lane goes on waiting there as more is sent. -/
theorem txq_sendFrame_mono (s : State) (port peer k m vl : Nat) (f : Frame) {y : Slot}
    (hy : y ∈ tget [] (getChan s k m).txq vl) : y ∈ tget [] (getChan (sendFrame s port peer f) k m).txq vl := by
  rw [sendFrame, getChan_modChan]
  split
  · next h =>
    obtain ⟨rfl, rfl⟩ := h
    split
    · exact hy
    · rw [tget_tset]
      split
      · next hv => exact List.mem_append_left _ (hv ▸ hy)
      · exact hy
  · exact hy

theorem sendTo_state (s : State) (x : Nat × Nat × Frame) (k m : Nat) :
    (getChan (sendTo s x) k m).state = (getChan s k m).state := by
  unfold sendTo
  split
  · rfl
  · exact sendFrame_state ..

theorem txq_sendTo_mono (s : State) (x : Nat × Nat × Frame) (k m vl : Nat) {y : Slot}
    (hy : y ∈ tget [] (getChan s k m).txq vl) : y ∈ tget [] (getChan (sendTo s x) k m).txq vl := by
  unfold sendTo
  split
  · exact hy
  · exact txq_sendFrame_mono _ _ _ _ _ _ _ hy

theorem txq_sendAll_mono (xs : List (Nat × Nat × Frame)) (s : State) (k m vl : Nat) {y : Slot}
    (hy : y ∈ tget [] (getChan s k m).txq vl) : y ∈ tget [] (getChan (sendAll s xs) k m).txq vl := by
  unfold sendAll
  induction xs generalizing s with
  | nil => exact hy
  | cons x xs ih => exact ih _ (txq_sendTo_mono s x k m vl hy)

/-- Of frames sent, each one to another module whose channel has not failed waits there with all its slots. -/
theorem mem_txq_sendAll {xs : List (Nat × Nat × Frame)} {s : State} {k m : Nat} {f : Frame} (hx : (k, m, f) ∈ xs)
    (hm : m ≠ ownIndex s) (hc : (getChan s k m).state ≠ .failed) :
    ∀ y ∈ frameSlots f, y ∈ tget [] (getChan (sendAll s xs) k m).txq (vlOf f) := by
  intro y hy
  induction xs generalizing s with
  | nil => cases hx
  | cons x xs ih =>
    have hown : ownIndex (sendTo s x) = ownIndex s := linked_ownIndex (linked_sendTo s x)
    rcases List.mem_cons.mp hx with rfl | hx
    · refine txq_sendAll_mono xs (sendTo s (k, m, f)) k m (vlOf f) ?_
      rw [sendTo, if_neg hm]
      exact mem_txq_sendFrame hc y hy
    · exact ih hx (hown ▸ hm) (by rwa [sendTo_state])

/-! ### A frame received -/

theorem withRx_absent {s : State} {rx : Rx} (g : State → State) (h : takeRx s rx = none) : withRx s rx g = .next s := by
  rw [withRx, h]

/-- A frame that has arrived is acted on in a state in which only the link has changed, and no channel its state. -/
theorem withRx_present {s : State} {rx : Rx} (g : State → State) (h : (takeRx s rx).isSome = true) :
    ∃ t, withRx s rx g = .next (g t) ∧ linked s t ∧ ∀ k m, (getChan t k m).state = (getChan s k m).state := by
  obtain ⟨u, hu⟩ := Option.isSome_iff_exists.mp h
  refine ⟨freeRx u rx (frameSlots rx.frame).length, by rw [withRx, hu], linked_trans (linked_takeRx hu)
    (linked_freeRx ..), fun k m => ?_⟩
  have htake : (getChan u k m).state = (getChan s k m).state := by
    unfold takeRx at hu
    dsimp only at hu
    split at hu
    · split at hu
      · split at hu
        · cases hu; rfl
        · cases hu
      · cases hu
    · split at hu
      · cases hu
        unfold getChan
        rw [getPort_modPort]
        split
        · next hk => rw [hk]
        · rfl
      · cases hu
  rw [← htake, freeRx]
  split
  · rfl
  · rw [freeSlots, getChan_modChan]
    split
    · next hk =>
      obtain ⟨rfl, rfl⟩ := hk
      rfl
    · rfl

/-- An answer to another module goes out on the port on which the frame came (R494). -/
theorem frameOut_sendFrame {s t : State} {port : Fin 8} {m : Nat} {f : Frame} (hm : m ≠ ownIndex s)
    (hstate : (getChan t port.val m).state = (getChan s port.val m).state) :
    frameOut s (sendFrame t port.val m f) port m f :=
  ⟨fun h => absurd h hm, fun _ hc => mem_txq_sendFrame (hstate ▸ hc)⟩

end Sys2Proof.Machine
end

section
/-! Signals (R197 to R204): sent, performed, discarded with a record, and those of other modules answered. -/

namespace Sys2Proof.Machine

/-! ### Cores and records -/

/-- A state after cores have changed and records may have been made. -/
def noted (s t : State) : Prop :=
  t = { s with cores := t.cores, w1c := t.w1c, w1cAt := t.w1cAt, errors := t.errors, hbm := t.hbm
               poisonHbm := t.poisonHbm, draws := t.draws
               host := { s.host with msixPend := t.host.msixPend, messages := t.host.messages } }

theorem noted_refl (s : State) : noted s s := rfl

theorem noted_trans {s t u : State} (h : noted s t) (k : noted t u) : noted s u := by
  unfold noted at *
  rw [k, h]

theorem noted_modCore (s : State) (n : Nat) (g : Core → Core) : noted s (modCore s n g) := rfl
theorem noted_setCore (s : State) (n : Nat) (c : Core) : noted s (setCore s n c) := rfl
theorem noted_noteW1c (s : State) (a b : Nat) : noted s (noteW1c s a b) := rfl

theorem noted_record (s : State) (r : RecIn) : noted s (record s r) := by
  unfold noted
  rw [record_frame_eq]

theorem noted_raiseVector (s : State) (v : Nat) : noted s (raiseVector s v) := by
  unfold noted
  rw [raiseVector_frame]

theorem noted_noteSat (s : State) (n i : Nat) : noted s (noteSat s n i) :=
  noted_trans (noted_record ..) (noted_raiseVector ..)

theorem noted_semAdd (s : State) (n i k : Nat) : noted s (semAdd s n i k) := by
  have hcore : noted s (modCore s n (countSignal s.cc i k)) := noted_modCore ..
  rw [semAdd_eq]
  dsimp only
  split
  · exact hcore
  · split
    · exact noted_trans hcore (noted_trans (noted_noteW1c ..) (noted_noteW1c ..))
    · exact noted_trans hcore (noted_trans (noted_noteW1c ..) (noted_noteSat ..))

section Fields
variable {s t : State} (h : noted s t)
include h

theorem noted_parts : t.parts = s.parts := by rw [h]
theorem noted_quads : t.quads = s.quads := by rw [h]
theorem noted_ports : t.ports = s.ports := by rw [h]
theorem noted_signals : t.signals = s.signals := by rw [h]
theorem noted_lpddr : t.lpddr = s.lpddr := by rw [h]
theorem noted_cc : t.cc = s.cc := by rw [h]
theorem noted_fabric : t.fabric = s.fabric := by rw [h]
theorem noted_getChan (k m : Nat) : getChan t k m = getChan s k m := by
  rw [getChan, getPort, noted_ports h, ← getPort, ← getChan]
theorem noted_corePart (n : Nat) : corePart t n = corePart s n := by
  rw [corePart, partOf, noted_parts h, ← partOf, ← corePart]

end Fields

/-! ### A record that is generated -/

theorem record_hbm_of_room {s : State} (r : RecIn) (h : s.errors.store.length < 512) : (record s r).hbm = s.hbm := by
  simp [record, h]

/-- A record is generated: numbered, and stored while the cellar has room (R577, R579). -/
theorem recorded_record (s : State) (r : RecIn) : recorded s (record s r) r :=
  ⟨record_rseq s r, fun h => ⟨record_hbm_of_room r h, _, record_store_of_room r h, rfl, rfl, rfl, rfl, rfl, rfl⟩⟩

theorem recorded_congr {s s' t t' : State} {r : RecIn} (h : recorded s t r) (he : s'.errors = s.errors)
    (hh : s'.hbm = s.hbm) (he' : t'.errors = t.errors) (hh' : t'.hbm = t.hbm) : recorded s' t' r := by
  unfold recorded at *
  rwa [he, hh, he', hh']

/-! ### Delivery -/

/-- A signal for a core of a live context that maps it is added (R197, R204). -/
theorem deliverSignal_live {s : State} {n low i k sender : Nat} {p : Part} (hp : corePart s n = some p)
    (hlive : takesSignals p = true) (hmap : p.map.contains n = true) :
    deliverSignal s (some n) low i k sender = semAdd s n i k := by
  simp only [deliverSignal, hp, hlive, hmap, Bool.and_self, if_true]

/-- What a discarded signal is recorded as (R204). -/
def discardRec (low sender : Nat) : RecIn := { kind := 0x20, detail := sender, die := low / 4, quad := low }

/-- Any other signal is discarded with a record (R204). -/
theorem deliverSignal_dead {s : State} {target : Option Nat} {low i k sender : Nat}
    (h : ∀ n p, target = some n → corePart s n = some p → ¬ (takesSignals p = true ∧ p.map.contains n = true)) :
    deliverSignal s target low i k sender = record s (discardRec low sender) := by
  unfold deliverSignal
  cases target with
  | none => rfl
  | some n =>
    cases hp : corePart s n with
    | none => simp [hp, discardRec]
    | some p =>
      simp only [hp]
      rw [if_neg (fun hb => h n p rfl hp (Bool.and_eq_true_iff.mp hb))]
      rfl

theorem noted_deliverSignal (s : State) (target : Option Nat) (low i k sender : Nat) :
    noted s (deliverSignal s target low i k sender) := by
  unfold deliverSignal
  dsimp only
  split
  · exact noted_record ..
  · split
    · split
      · exact noted_semAdd ..
      · exact noted_record ..
    · exact noted_record ..

theorem takesSignals_iff (p : Part) : takesSignals p = true ↔ (p.ctx = .running ∨ p.ctx = .stopped) ∧ p.reset = none := by
  simp [takesSignals]

theorem semAdd_sem_count (s : State) (n i k : Nat) :
    (tget {} (getCore (semAdd s n i k) n).sems i).count.toNat =
      min 65535 ((tget {} (getCore s n).sems i).count.toNat + k) := by
  rw [getCore_semAdd, if_pos rfl, countSignal_sem_same, addCount_count]

/-! ### SEM.SIG -/

/-- Shuttles, registers and their place apart, an advance leaves the module. -/
theorem advance_frame (s : State) (a : At) (target : Option Nat) :
    advance s a target = { s with cores := (advance s a target).cores } := by
  unfold advance setRegs
  dsimp only
  split <;> rfl

theorem newAccess_fst_frame (s : State) (n : Nat) (sh : Shuttle) (level : Nat) (kind : AccessKind) (rel held : Bool)
    (frames : List (Nat × Nat × Frame)) :
    (newAccess s n sh level kind rel held frames).1 =
      { s with cores := (newAccess s n sh level kind rel held frames).1.cores } := rfl

/-- Nothing holds an access that does not carry release, behind no acquire (R184, R185). -/
theorem mustHold_of_free {x : Sh} (id : Nat) (h : x.acquiring = []) : mustHold x id false = false := by
  simp [mustHold, h]

theorem actSemSig_clean {a : At} (hm : wTmod a.w < fabricN a.s) (hc : wTcore a.w < a.p.map.length) :
    (actSemSig a).enc = [] ∧ (actSemSig a).chk = [] := by
  simp [actSemSig, Nat.not_le.mpr hm, Nat.not_le.mpr hc]

theorem postSignal_own {a : At} (h : wTmod a.w = ownIndex a.s) :
    ∃ g, (postSignal a).signals = a.s.signals ++ [g] ∧ g.target = a.p.map.getD (wTcore a.w) 0 ∧ g.sem = wTgt a.w ∧
      g.count = BitVec.ofNat 16 (wCnt a.w) ∧
      g.held = mustHold (shOf (getCore a.s a.n) a.sh) (getCore a.s a.n).nextAccess (fldFlag a.w 1) ∧
      (postSignal a).hbm = a.s.hbm ∧ (postSignal a).lpddr = a.s.lpddr := by
  unfold postSignal
  dsimp only
  rw [if_pos h]
  exact ⟨_, rfl, rfl, rfl, rfl, rfl, rfl, rfl⟩

theorem postSignal_other {a : At} (h : wTmod a.w ≠ ownIndex a.s) :
    (postSignal a).signals = a.s.signals ∧ (postSignal a).hbm = a.s.hbm ∧ (postSignal a).lpddr = a.s.lpddr := by
  unfold postSignal
  dsimp only
  rw [if_neg h]
  split
  · exact ⟨rfl, rfl, rfl⟩
  · have hl := linked_sendAll (newAccess a.s a.n a.sh 3 (.signal a.s.nextSignal) (fldFlag a.w 1)
      (mustHold (shOf (getCore a.s a.n) a.sh) (getCore a.s a.n).nextAccess (fldFlag a.w 1))
      [(portOf a.p (wTcore a.w % caskCount a.p), wTmod a.w, signalFrame a.p a.lc a.sh a.w)]).1
      [(portOf a.p (wTcore a.w % caskCount a.p), wTmod a.w, signalFrame a.p a.lc a.sh a.w)]
    exact ⟨(linked_signals hl).trans rfl, (linked_hbm hl).trans rfl, (linked_lpddr hl).trans rfl⟩

/-! ### SIGNAL_PERFORM -/

/-- The state in which the source of a performed signal no longer waits for it. -/
def signalDone (s : State) (g : Signal) : State :=
  match g.source with
  | some (n, sh, acc) => performAccess s n sh acc
  | none => s

/-- The core that a signal names as its sender. -/
def sourceCore (g : Signal) : Nat :=
  match g.source with
  | some (n, _, _) => n
  | none => 0

/-- The module without the signal that performs. -/
def takeSignal (s : State) (id : Nat) : State := { s with signals := s.signals.filter (fun x => x.id != id) }

theorem exec_signalPerform {id : Nat} {s : State} {g : Signal}
    (h : s.signals.find? (fun x => x.id == id && !x.held) = some g) :
    exec (.signalPerform id) s = .next (signalDone
      (deliverSignal (takeSignal s id) (some g.target)
        (((corePart s g.target).map (fun p => p.low)).getD (quadOf g.target)) g.sem g.count.toNat
        (signalFrom (ownIndex s) (sourceCore g))) g) := by
  show execSignalPerform id s = _
  rw [execSignalPerform, h]
  rfl

theorem noted_signalDone (s : State) (g : Signal) : noted s (signalDone s g) := by
  unfold signalDone
  split <;> rfl

theorem signalDone_errors (s : State) (g : Signal) : (signalDone s g).errors = s.errors := by
  unfold signalDone
  split <;> rfl

theorem signalDone_sems (s : State) (g : Signal) (m : Nat) : (getCore (signalDone s g) m).sems = (getCore s m).sems := by
  unfold signalDone performAccess
  split
  · rw [getCore_modCore]
    split
    · next h => rw [h]; exact modSh_sems ..
    · rfl
  · rfl

theorem mem_dropAccess (c : Core) (sh : Shuttle) (k : Nat) (y : Access) :
    y ∈ (shOf (dropAccess c sh k) sh).accesses ↔ y ∈ (shOf c sh).accesses ∧ y.id ≠ k := by
  simp [dropAccess]

/-- A signal changes no shuttle of the core that takes it. -/
theorem shOf_semAdd (s : State) (n i k m : Nat) (sh : Shuttle) :
    shOf (getCore (semAdd s n i k) m) sh = shOf (getCore s m) sh := by
  rw [getCore_semAdd]
  split
  · next h => rw [h]; cases sh <;> rfl
  · rfl

theorem shOf_deliverSignal (s : State) (target : Option Nat) (low i k sender m : Nat) (sh : Shuttle) :
    shOf (getCore (deliverSignal s target low i k sender) m) sh = shOf (getCore s m) sh := by
  have hrec (r : RecIn) : getCore (record s r) m = getCore s m := by rw [getCore, record_cores, ← getCore]
  unfold deliverSignal
  dsimp only
  split
  · rw [hrec]
  · split
    · split
      · exact shOf_semAdd ..
      · rw [hrec]
    · rw [hrec]

/-! ### SIGNAL_FRAME_RECEIVE -/

theorem exec_signalFrame {rx : Rx} {s : State} (hk : rx.frame.kind = fkSignal) (hrx : (takeRx s rx).isSome = true) :
    ∃ u, exec (.signalFrameReceive rx) s = .next (remoteSignal rx u) ∧ linked s u ∧
      ∀ k m, (getChan u k m).state = (getChan s k m).state := by
  obtain ⟨u, hu, hl, hc⟩ := withRx_present (remoteSignal rx) hrx
  refine ⟨u, ?_, hl, hc⟩
  show execSignalFrameReceive rx s = _
  rw [execSignalFrameReceive, if_pos hk, hu]

theorem exec_signalFrame_absent {rx : Rx} {s : State} (hrx : takeRx s rx = none) :
    exec (.signalFrameReceive rx) s = .next s := by
  show execSignalFrameReceive rx s = _
  rw [execSignalFrameReceive, withRx_absent _ hrx, ite_self]

/-- The core of this module that a SIGNAL frame names (R203). -/
def signalTarget (s : State) (f : Frame) : Option Nat := (partAt s (bits f.addr 20 3)).bind (fun p => p.map[bits f.addr 0 8]?)

/-- The state of a SIGNAL frame's delivery, before its answer. -/
def signalArrived (u : State) (rx : Rx) (k : Half) : State :=
  deliverSignal u (signalTarget u rx.frame) (bits rx.frame.addr 20 3) (bits rx.frame.addr 8 8) k.toNat
    (signalFrom rx.sender rx.frame.srcCore)

/-- The answer to a signal of another module (R494). -/
def signalAnswer (f : Frame) : Frame := bareFrame fkDone f.addr f.srcCore f.srcShuttle 0 .empty

theorem remoteSignal_eq {rx : Rx} {k : Half} (h : rx.frame.inline = .signal k) (u : State) :
    remoteSignal rx u = sendFrame (signalArrived u rx k) rx.port.val rx.sender (signalAnswer rx.frame) := by
  unfold remoteSignal
  dsimp only
  rw [h]
  rfl

/-- Settles O31: by what a posted signal leaves, and by the two ends of a delivery. -/
theorem signalsSentAndPerformed : Obligations.SignalsSentAndPerformed := by
  refine ⟨fun i s a hr hm hc => ?send, fun id s g hg => ?perform, fun id s hheld => ?held,
    fun id s g n sh k hg hsrc => ?source, fun rx s k hk hi hrx => ?frame, fun rx s hrx => exec_signalFrame_absent hrx⟩
  case send =>
    obtain ⟨henc, hchk⟩ := actSemSig_clean hm hc
    have hcore : a.c = getCore a.s a.n := by
      obtain ⟨-, -, -, -, -, hcore, -⟩ := place_spec hr.1
      exact hcore
    refine ⟨advance (postSignal a) a none, exec_ready (m := actSemSig) rfl rfl hr rfl henc rfl hchk rfl, ?_⟩
    rw [advance_frame]
    by_cases hown : wTmod a.w = ownIndex a.s
    · obtain ⟨g, hsig, htgt, hsem, hcnt, hheld, hhbm, hlp⟩ := postSignal_own hown
      refine ⟨fun _ => ⟨g, hsig, htgt, hsem, ?_, fun hrel hf hb hu => ?_⟩, fun hne => absurd hown hne, hhbm, hlp⟩
      · rw [hcnt, BitVec.toNat_ofNat]
        exact Nat.mod_eq_of_lt (bits_lt a.w 40 16)
      · rw [hheld, hrel, ← hcore]
        exact mustHold_of_free _ (by cases a.sh <;> assumption)
    · obtain ⟨hsig, hhbm, hlp⟩ := postSignal_other hown
      exact ⟨fun h => absurd h hown, fun _ => hsig, hhbm, hlp⟩
  case perform =>
    refine ⟨_, exec_signalPerform hg, ?_, fun p hp hctx hreset hmap => ?_, fun p hp hdead => ?_⟩
    · rw [noted_signals (noted_signalDone ..), noted_signals (noted_deliverSignal ..), takeSignal]
    · rw [signalDone_sems, deliverSignal_live (s := takeSignal s id) (p := p) hp ((takesSignals_iff p).mpr ⟨hctx, hreset⟩) hmap]
      exact semAdd_sem_count ..
    · have hdrop := deliverSignal_dead (s := takeSignal s id) (target := some g.target)
        (low := ((corePart s g.target).map (fun p => p.low)).getD (quadOf g.target)) (i := g.sem) (k := g.count.toNat)
        (sender := signalFrom (ownIndex s) (sourceCore g)) (fun n q hn hq => by
          cases hn
          obtain rfl : p = q := Option.some.inj (hp.symm.trans hq)
          rw [takesSignals_iff]
          rintro ⟨⟨hctx, -⟩, hmap⟩
          rcases hdead with ⟨h1, h2⟩ | h
          · exact hctx.elim h1 h2
          · rw [h] at hmap; cases hmap)
      rw [hdrop]
      refine ⟨?_, fun m => ?_⟩
      · rw [signalDone_errors, record_rseq]
        rfl
      · rw [signalDone_sems, getCore, record_cores]
        rfl
  case held =>
    have hnone : s.signals.find? (fun x => x.id == id && !x.held) = none :=
      List.find?_eq_none.mpr (fun g hg => by
        have h := hheld g hg
        simp only [Bool.and_eq_true, beq_iff_eq, Bool.not_eq_true', not_and, Bool.not_eq_false]
        exact h)
    show execSignalPerform id s = _
    rw [execSignalPerform, hnone]
  case source =>
    refine ⟨_, exec_signalPerform hg, fun y => ?_, ?_, ?_⟩
    · rw [signalDone, hsrc]
      dsimp only
      rw [performAccess, getCore_modCore_same, mem_dropAccess, shOf_deliverSignal]
      rfl
    · rw [noted_ports (noted_signalDone ..), noted_ports (noted_deliverSignal ..), takeSignal]
    · rw [noted_lpddr (noted_signalDone ..), noted_lpddr (noted_deliverSignal ..), takeSignal]
  case frame =>
    intro low i live answered
    obtain ⟨u, hexec, hlink, hchan⟩ := exec_signalFrame hk hrx
    rw [remoteSignal_eq hi] at hexec
    have htarget : signalTarget u rx.frame = signalTarget s rx.frame := by
      rw [signalTarget, linked_partAt hlink, ← signalTarget]
    have hnoted : noted u (signalArrived u rx k) := noted_deliverSignal ..
    have hanswer : answered (sendFrame (signalArrived u rx k) rx.port.val rx.sender (signalAnswer rx.frame)) :=
      fun hm => ⟨signalAnswer rx.frame, frameOut_sendFrame hm (by rw [noted_getChan hnoted, hchan]), rfl, rfl, rfl, rfl, rfl⟩
    refine ⟨fun p q n hp hn hq hlive hmap => ?live, fun hdead => ?dead⟩
    case live =>
      have htgt : signalTarget u rx.frame = some n := by
        rw [htarget]
        exact Option.bind_eq_some_iff.mpr ⟨p, hp, hn⟩
      have hadd : signalArrived u rx k = semAdd u n i k.toNat := by
        rw [signalArrived, htgt]
        exact deliverSignal_live (by rw [linked_corePart hlink, hq]) ((takesSignals_iff q).mpr hlive)
          (List.contains_iff_mem.mpr hmap)
      have hcore (m : Nat) : getCore (sendFrame (signalArrived u rx k) rx.port.val rx.sender (signalAnswer rx.frame)) m =
          if m = n then countSignal u.cc i k.toNat (getCore s n) else getCore s m := by
        rw [linked_getCore (linked_sendFrame ..), hadd, getCore_semAdd, linked_getCore hlink, linked_getCore hlink]
      refine ⟨_, hexec, hanswer, ?_, ?_, fun j hj => ?_, fun m hm => ?_⟩
      · rw [linked_lpddr (linked_sendFrame ..), noted_lpddr hnoted, linked_lpddr hlink]
      · rw [hcore, if_pos rfl, countSignal_sem_same, addCount_count]
      · rw [hcore, if_pos rfl, countSignal_sem_other _ _ _ _ hj]
      · rw [hcore, if_neg hm]
    case dead =>
      have hdrop : signalArrived u rx k = record u (discardRec low (signalFrom rx.sender rx.frame.srcCore)) :=
        deliverSignal_dead (fun n q hn hq => by
          rw [htarget] at hn
          obtain ⟨p, hp, hn⟩ := Option.bind_eq_some_iff.mp hn
          rw [takesSignals_iff, List.contains_iff_mem]
          exact hdead p n hp hn q (by rw [← linked_corePart hlink, hq]))
      refine ⟨_, hexec, hanswer, ?_, ?_⟩
      · rw [linked_cores (linked_sendFrame ..), hdrop, record_cores, linked_cores hlink]
      · rw [hdrop]
        exact recorded_congr (recorded_record u _) (linked_errors hlink).symm (linked_hbm hlink).symm rfl rfl

end Sys2Proof.Machine
end

section
/-! Held accesses (R178 to R185, R454, R562): what keeps one held, and what its release changes. -/

namespace Sys2Proof.Machine

/-! ### Changes of requests and of the combining buffer -/

theorem queues_modRequest (s : State) (n k seq : Nat) (g : Request → Request) :
    (getCore (modRequest s n k seq g) n).queues =
      tset {} (getCore s n).queues k { tget {} (getCore s n).queues k with
        reqs := (tget {} (getCore s n).queues k).reqs.map (fun r => if r.seq = seq then g r else r) } := by
  rw [modRequest, getCore_modCore_same]

/-- A change of a request that leaves its number is what is found under that number afterwards. -/
theorem findRequest_modRequest {s : State} {n k seq : Nat} {g : Request → Request} {q : Request}
    (hq : findRequest (getCore s n) k seq = some q) (hseq : ∀ r, (g r).seq = r.seq) :
    findRequest (getCore (modRequest s n k seq g) n) k seq = some (g q) := by
  have hkeep (r : Request) : ((if r.seq = seq then g r else r).seq == seq) = (r.seq == seq) := by
    split
    · rw [hseq]
    · rfl
  have hfound : q.seq = seq := by simpa using List.find?_some hq
  unfold findRequest at *
  rw [queues_modRequest, tget_tset_same, List.find?_map]
  have hp : ((fun r => r.seq == seq) ∘ fun r => if r.seq = seq then g r else r) = fun r => r.seq == seq :=
    funext hkeep
  rw [hp, hq, Option.map_some, if_pos hfound]

theorem findRequest_congr {c d : Core} (h : d.queues = c.queues) (k seq : Nat) :
    findRequest d k seq = findRequest c k seq := by
  rw [findRequest, h, ← findRequest]

/-- A state after cores and the link have changed. -/
def departed (s t : State) : Prop := t = { s with cores := t.cores, ports := t.ports, mesh := t.mesh }

theorem departed_trans {s t u : State} (h : departed s t) (k : departed t u) : departed s u := by
  unfold departed at *
  rw [k, h]

theorem departed_modCore (s : State) (n : Nat) (g : Core → Core) : departed s (modCore s n g) := rfl

theorem departed_of_linked {s t : State} (h : linked s t) : departed s t := by
  unfold departed
  rw [h]

theorem departed_hbm {s t : State} (h : departed s t) : t.hbm = s.hbm := by rw [h]
theorem departed_lpddr {s t : State} (h : departed s t) : t.lpddr = s.lpddr := by rw [h]

theorem requestSram_clean (s : State) (n : Nat) (q : Request) : requestSram s n q SramEcc.clean = s := if_pos rfl

/-- What a request of the queue is once its link engine has it (R489). -/
def markSent (segs : List Segment) (got : List Poke) (now : Nat) (r : Request) : Request :=
  { r with sent := true, segs := segs, got := got, sentAt := now }

theorem queues_combineDrop (c : Core) (l : List Nat) : (combineDrop c l).queues = c.queues := by
  unfold combineDrop
  split <;> rfl

theorem combineDrop_frame (c : Core) (l : List Nat) : combineDrop c l = { c with combine := (combineDrop c l).combine } := by
  unfold combineDrop
  split <;> rfl

/-- A remote request that leaves, with nothing found in its source, is marked as sent, a write drops its own units from
the combining buffer, and the link takes the frames. -/
theorem departRemote_cases (s : State) (p : Part) (n k : Nat) (q : Request) :
    (∃ (segs : List Segment) (got : List Poke) (keys : Core → List Nat) (xs : List (Nat × Nat × Frame)), departRemote s p n k q SramEcc.clean = sendAll
      (modCore (modRequest s n k q.seq (markSent segs got s.pll)) n (fun c => combineDrop c (keys c))) xs) ∨
    ∃ (segs : List Segment) (got : List Poke) (xs : List (Nat × Nat × Frame)),
      departRemote s p n k q SramEcc.clean = sendAll (modRequest s n k q.seq (markSent segs got s.pll)) xs := by
  unfold departRemote
  rw [requestSram_clean]
  dsimp only
  split
  · exact .inl ⟨_, _, fun c => (reqUnits (reqAlloc s p q) c.store q).map
      (combineKey (reqAlloc s p q).module (reqAlloc s p q).tier), _, rfl⟩
  · split
    · exact .inr ⟨_, _, _, rfl⟩
    · exact .inl ⟨_, _, fun c => (reqUnits (reqAlloc s p q) c.store q).map
        (combineKey (reqAlloc s p q).module (reqAlloc s p q).tier), _, rfl⟩

/-- Of the cores only its own changes, in that request and its combining buffer. -/
theorem departRemote_clean (s : State) (p : Part) (n k : Nat) (q : Request) :
    ∃ segs got l, departed s (departRemote s p n k q SramEcc.clean) ∧
      getCore (departRemote s p n k q SramEcc.clean) n =
        { getCore (modRequest s n k q.seq (markSent segs got s.pll)) n with combine := l } ∧
      ∀ m, m ≠ n → getCore (departRemote s p n k q SramEcc.clean) m = getCore s m := by
  have hsent (segs : List Segment) (got : List Poke) : departed s (modRequest s n k q.seq (markSent segs got s.pll)) :=
    departed_modCore s n _
  rcases departRemote_cases s p n k q with ⟨segs, got, keys, xs, h⟩ | ⟨segs, got, xs, h⟩
  · rw [h]
    let c := getCore (modRequest s n k q.seq (markSent segs got s.pll)) n
    refine ⟨segs, got, (combineDrop c (keys c)).combine, departed_trans (departed_trans (hsent segs got) (departed_modCore _ n _))
      (departed_of_linked (linked_sendAll ..)), ?_, fun m hm => ?_⟩
    · rw [linked_getCore (linked_sendAll ..), getCore_modCore_same]
      exact combineDrop_frame ..
    · rw [linked_getCore (linked_sendAll ..), getCore_modCore, if_neg hm, modRequest, getCore_modCore, if_neg hm]
  · rw [h]
    refine ⟨segs, got, (getCore (modRequest s n k q.seq (markSent segs got s.pll)) n).combine,
      departed_trans (hsent segs got) (departed_of_linked (linked_sendAll ..)), ?_, fun m hm => ?_⟩
    · rw [linked_getCore (linked_sendAll ..)]
    · rw [linked_getCore (linked_sendAll ..), modRequest, getCore_modCore, if_neg hm]

/-! ### What holds an access -/

/-- A bobbin request released: no longer held, and a remote one on its way. -/
def releaseRequest (s : State) (p : Part) (n : Nat) (sh : Shuttle) (id k seq : Nat) (q : Request) : State :=
  let s := modRequest (freeAccess s n sh id) n k seq (fun r => { r with held := false })
  if q.dest.isSome then departRemote s p n k { q with held := false } SramEcc.clean else s

theorem mustHold_iff (x : Sh) (id : Nat) (rel : Bool) :
    mustHold x id rel = true ↔ (rel = true ∧ ∃ y ∈ x.accesses, y.id < id) ∨ ∃ y ∈ x.acquiring, y < id := by
  simp [mustHold]

section Release
variable {core : Fin 192} {id : Nat} {s0 : State} {p : Part} {sh : Shuttle} {x : Access} (sram : SramEcc)
  (hp : corePart (landAll s0 core.val) core.val = some p)
  (hx : findAccess (getCore (landAll s0 core.val) core.val) id = some (sh, x))
include hp hx

/-- An access that something earlier holds stays held (R184, R185, R454). -/
theorem exec_heldAccess_held
    (hh : (mustHold (shOf (getCore (landAll s0 core.val) core.val) sh) id x.rel ||
      behindHdr (shOf (getCore (landAll s0 core.val) core.val) sh) id x.kind) = true) :
    exec (.heldAccessRelease core id sram) s0 = .next (landAll s0 core.val) := by
  show execHeldAccessRelease core id _ s0 = _
  rw [execHeldAccessRelease]
  dsimp only
  rw [hp, hx]
  exact if_pos hh

variable (hfree : mustHold (shOf (getCore (landAll s0 core.val) core.val) sh) id x.rel = false)
include hfree

/-- A held signal that nothing earlier holds goes on (R185). -/
theorem exec_heldAccess_signal {k : Nat} (hk : x.kind = .signal k) (hheld : x.held = true) :
    exec (.heldAccessRelease core id sram) s0 = .next (sendAll (freeSignals
      (modAccess (landAll s0 core.val) core.val sh id (fun y => { y with held := false })) core.val sh id) x.frames) := by
  show execHeldAccessRelease core id _ s0 = _
  rw [execHeldAccessRelease]
  dsimp only
  rw [hp, hx]
  dsimp only
  rw [hfree, hk]
  simp only [behindHdr, Bool.or_self, Bool.false_eq_true, if_false, hheld, Bool.not_true]

/-- A held bobbin request that nothing earlier holds goes on, and a remote one leaves (R180, R562). -/
theorem exec_heldAccess_bobbin {k seq : Nat} {q : Request} (hk : x.kind = .bobbin k seq)
    (hq : findRequest (getCore (landAll s0 core.val) core.val) k seq = some q) (hheld : q.held = true)
    (hprov : sourceProv (getCore (landAll s0 core.val) core.val) q = false)
    (hblock : (q.dest.isSome && blockedBy (landAll s0 core.val) p (getCore (landAll s0 core.val) core.val) k q) = false) :
    exec (.heldAccessRelease core id SramEcc.clean) s0 = .next (
      releaseRequest (landAll s0 core.val) p core.val sh id k seq q) := by
  show execHeldAccessRelease core id _ s0 = _
  rw [execHeldAccessRelease]
  dsimp only
  rw [hp, hx]
  dsimp only
  rw [hfree, hk]
  simp only [behindHdr, Bool.or_self, Bool.false_eq_true, if_false, hq, hheld, hprov, hblock, Bool.not_true]
  rfl

end Release

theorem mem_modAccess_held {s : State} {n : Nat} {sh : Shuttle} {id : Nat} {y : Access}
    (hy : y ∈ (shOf (getCore (modAccess s n sh id (fun y => { y with held := false })) n) sh).accesses) (hid : y.id = id) :
    y.held = false := by
  rw [modAccess, getCore_modCore_same, shOf_modSh] at hy
  obtain ⟨z, -, rfl⟩ := List.mem_map.mp hy
  split
  · rfl
  · next hz =>
    rw [if_neg hz] at hid
    exact absurd hid hz

theorem queues_freeAccess (s : State) (n : Nat) (sh : Shuttle) (id : Nat) :
    (getCore (freeAccess s n sh id) n).queues = (getCore s n).queues := by
  rw [freeAccess, modAccess, getCore_modCore_same, modSh_queues]

/-- A remote request that leaves is found as it was but for the marks of its sending. -/
theorem found_departRemote {s : State} (p : Part) {n k : Nat} {q : Request}
    (hq : findRequest (getCore s n) k q.seq = some q) :
    ∃ q', findRequest (getCore (departRemote s p n k q SramEcc.clean) n) k q.seq = some q' ∧ q'.held = q.held ∧
      (departRemote s p n k q SramEcc.clean).hbm = s.hbm ∧
      (departRemote s p n k q SramEcc.clean).lpddr = s.lpddr := by
  obtain ⟨segs, got, l, hdep, hcore, -⟩ := departRemote_clean s p n k q
  have hqueues : (getCore (departRemote s p n k q SramEcc.clean) n).queues =
      (getCore (modRequest s n k q.seq (markSent segs got s.pll)) n).queues := by rw [hcore]
  exact ⟨_, (findRequest_congr hqueues k q.seq).trans (findRequest_modRequest hq (fun _ => rfl)), rfl,
    departed_hbm hdep, departed_lpddr hdep⟩

theorem released_request (s : State) (p : Part) (n : Nat) (sh : Shuttle) (id : Nat) {k seq : Nat} {q : Request}
    (hq : findRequest (getCore s n) k seq = some q) :
    ∃ q', findRequest (getCore (releaseRequest s p n sh id k seq q) n) k seq = some q' ∧ q'.held = false ∧
      (releaseRequest s p n sh id k seq q).hbm = s.hbm ∧ (releaseRequest s p n sh id k seq q).lpddr = s.lpddr := by
  have hseq : q.seq = seq := by simpa using List.find?_some hq
  subst hseq
  have hfound := findRequest_modRequest (g := fun r => { r with held := false })
    ((findRequest_congr (queues_freeAccess s n sh id) k q.seq).trans hq) (fun _ => rfl)
  rw [releaseRequest]
  split
  · exact found_departRemote p (q := { q with held := false }) hfound
  · exact ⟨_, hfound, rfl, rfl, rfl⟩

/-- Settles O36: by what holds an access, and by what is done with one that nothing holds. -/
theorem heldAccessGoesOn : Obligations.HeldAccessGoesOn := by
  intro core id s0 p sh x n s c hp hx
  refine ⟨mustHold_iff .., fun hhold sram => exec_heldAccess_held sram hp hx (by rw [hhold, Bool.true_or]),
    fun b j m off count y hk hy hheld hid hhdr sram => ?behind, fun hfree => ⟨fun k hk hheld sram => ?signal,
      fun k seq q hk hq hheld hprov hdest => ?bobbin⟩⟩
  case behind =>
    have hbehind : behindHdr (shOf c sh) id x.kind = true := by
      rw [hk]
      exact List.any_eq_true.mpr ⟨y, hy, by simp [hheld, hid, hhdr]⟩
    exact exec_heldAccess_held sram hp hx (by rw [hbehind, Bool.or_true])
  case signal =>
    refine ⟨_, exec_heldAccess_signal sram hp hx hfree hk hheld, fun g hg hsrc => ?_, fun y hy hid => ?_⟩
    · rw [linked_signals (linked_sendAll ..)] at hg
      obtain ⟨g', -, rfl⟩ := List.mem_map.mp hg
      split
      · rfl
      · next h =>
        rw [if_neg h] at hsrc
        exact absurd hsrc h
    · rw [linked_getCore (linked_sendAll ..)] at hy
      exact mem_modAccess_held hy hid
  case bobbin =>
    have hblock : (q.dest.isSome && blockedBy s p c k q) = false := by
      rcases hdest with h | h
      · rw [h]; rfl
      · rw [h, Bool.and_false]
    obtain ⟨q', hq', hheld', hhbm, hlpddr⟩ := released_request s p n sh id hq
    exact ⟨_, q', exec_heldAccess_bobbin hp hx hfree hk hq hheld hprov hblock, hq', hheld', hhbm, hlpddr⟩

end Sys2Proof.Machine
end

section
/-! Beat-ups (R205 to R212, R638, R717): the drift and the zeroing, the pairings, and the notices of a fabric. -/

namespace Sys2Proof.Machine

/-! ### The drift of one core -/

/-- The semaphores that held a count before the signals of this cycle, with that count (R211). -/
def heldCounts (cc : Nat) (c : Core) : List (Nat × Nat) :=
  (c.sems.map (fun x => (x.1, x.2.count.toNat - tget 0 (freshSignals cc c) x.1))).filter (fun x => x.2 != 0)

/-- CORE_SEM_DRIFT of a list of semaphores that held a count. -/
def driftWord : List (Nat × Nat) → Nat
  | [] => 0
  | (i, k) :: r => (r.length + 1) + i * 2 ^ 16 + k * 2 ^ 24

/-- The semaphores with what the signals of this cycle have added (R210). -/
def freshSems (fresh : Nat → Nat) (t : Tbl Sem) : Tbl Sem :=
  (t.map (fun x => (x.1, { x.2 with count := BitVec.ofNat 16 (fresh x.1) }))).filter (fun x => x.2 != ({} : Sem))

/-- A core with its drift recorded and its semaphores zeroed. -/
def driftCore (cc : Nat) (c : Core) : Core :=
  { c with drift := BitVec.ofNat 64 (driftWord (heldCounts cc c))
           sems := freshSems (fun i => tget 0 (freshSignals cc c) i) c.sems }

/-- A state with the drift of a core counted. -/
def driftState (s : State) (n : Nat) : State := bumpCore (setCore s n (driftCore s.cc (getCore s n))) n ctrBeatup 1

/-- The record of a core's drift. -/
def noteDrift (s : State) (n word : Nat) : State :=
  partVector (record s (coreRec 0x1A n word)) (((corePart s n).map (fun p => p.low)).getD 0) 2

theorem recordDrift_eq (s : State) (n : Nat) :
    recordDrift s n = if (heldCounts s.cc (getCore s n)).isEmpty then driftState s n
      else noteDrift (driftState s n) n (driftWord (heldCounts s.cc (getCore s n))) := by
  unfold recordDrift driftState driftCore
  dsimp only
  rw [← heldCounts, ← freshSems]
  cases heldCounts s.cc (getCore s n) <;> rfl

theorem noteDrift_cores (s : State) (n word : Nat) : (noteDrift s n word).cores = s.cores := by
  rw [noteDrift, partVector, raiseVector_cores, record_cores]

theorem noted_noteDrift (s : State) (n word : Nat) : noted s (noteDrift s n word) :=
  noted_trans (noted_record ..) (noted_raiseVector ..)

theorem getCore_driftState (s : State) (n m : Nat) :
    getCore (driftState s n) m = if m = n then
      { driftCore s.cc (getCore s n) with counters := bumpTbl (getCore s n).counters ctrBeatup 1 }
    else getCore s m := by
  rw [driftState, bumpCore, getCore_modCore]
  split
  · rw [getCore_setCore_same]; rfl
  · next h => rw [getCore_setCore, if_neg h]

theorem getCore_recordDrift (s : State) (n m : Nat) : getCore (recordDrift s n) m = getCore (driftState s n) m := by
  rw [recordDrift_eq]
  split
  · rfl
  · rw [getCore, noteDrift_cores, ← getCore]

theorem noted_recordDrift (s : State) (n : Nat) : noted s (recordDrift s n) := by
  have hcore : noted s (driftState s n) := by
    rw [driftState, bumpCore]
    exact noted_trans (noted_setCore s n _) (noted_modCore _ n _)
  rw [recordDrift_eq]
  split
  · exact hcore
  · exact noted_trans hcore (noted_noteDrift ..)

theorem freshSems_cons (fresh : Nat → Nat) (k : Nat) (v : Sem) (t : Tbl Sem) :
    freshSems fresh ((k, v) :: t) = if ({ v with count := BitVec.ofNat 16 (fresh k) } : Sem) = {} then freshSems fresh t
      else (k, { v with count := BitVec.ofNat 16 (fresh k) }) :: freshSems fresh t := by
  unfold freshSems
  rw [List.map_cons, List.filter_cons]
  split
  · next h => rw [if_neg (by simpa using h)]
  · next h => rw [if_pos (by simpa using h)]

theorem freshSems_value (fresh : Nat → Nat) (t : Tbl Sem) (i : Nat) :
    tget {} (freshSems fresh t) i = {} ∨ (tget {} (freshSems fresh t) i).count = BitVec.ofNat 16 (fresh i) := by
  induction t with
  | nil => exact .inl rfl
  | cons x t ih =>
    obtain ⟨k, v⟩ := x
    rw [freshSems_cons]
    split
    · exact ih
    · rw [tget]
      split
      · next h => exact .inr (by rw [h])
      · exact ih

/-- Where nothing has been added on this cycle, a semaphore is zeroed (R210). -/
theorem freshSems_zero {fresh : Nat → Nat} {i : Nat} (h : fresh i = 0) (t : Tbl Sem) :
    (tget {} (freshSems fresh t) i).count = 0 := by
  rcases freshSems_value fresh t i with hv | hv
  · rw [hv]
  · rw [hv, h]; rfl

/-- A semaphore in use holds what the signals of this cycle have added (R210). -/
theorem freshSems_used (fresh : Nat → Nat) {t : Tbl Sem} {i : Nat} (h : tget {} t i ≠ {}) :
    (tget {} (freshSems fresh t) i).count = BitVec.ofNat 16 (fresh i) := by
  induction t with
  | nil => exact absurd rfl h
  | cons x t ih =>
    obtain ⟨k, v⟩ := x
    rw [tget] at h
    rw [freshSems_cons]
    split at h
    · next hik =>
      subst hik
      split
      · next hv =>
        have hzero : BitVec.ofNat 16 (fresh i) = 0 := congrArg Sem.count hv
        rcases freshSems_value fresh t i with hw | hw
        · rw [hw, hzero]
        · exact hw
      · rw [tget, if_pos rfl]
    · next hik =>
      split
      · exact ih h
      · rw [tget, if_neg hik]
        exact ih h

/-! ### Settling what a drift records -/

theorem bits_driftWord {i k : Nat} {r : List (Nat × Nat)} (hr : r.length + 1 < 512) (hi : i < 256) (hk : k < 65536) :
    bits (BitVec.ofNat 64 (driftWord ((i, k) :: r))) 0 9 = r.length + 1 ∧
    bits (BitVec.ofNat 64 (driftWord ((i, k) :: r))) 16 8 = i ∧
    bits (BitVec.ofNat 64 (driftWord ((i, k) :: r))) 24 16 = k := by
  simp only [bits, BitVec.toNat_ofNat, driftWord, Nat.shiftRight_eq_div_pow]
  omega

theorem heldCounts_lt {cc : Nat} {c : Core} {x : Nat × Nat} (hx : x ∈ heldCounts cc c) : x.2 < 65536 := by
  obtain ⟨y, -, rfl⟩ := List.mem_map.mp (List.mem_filter.mp hx).1
  exact Nat.lt_of_le_of_lt (Nat.sub_le ..) y.2.count.isLt

theorem noteDrift_rseq (s : State) (n word : Nat) : (noteDrift s n word).errors.rseq = s.errors.rseq + 1 := by
  rw [noteDrift, partVector, raiseVector_errors, record_rseq]

/-- Settles O33: by whether any semaphore held a count. -/
theorem driftRecorded : Obligations.DriftRecorded := by
  intro s n c fresh l t
  have hl : l = heldCounts s.cc c := rfl
  have hcore : getCore t n = { driftCore s.cc c with counters := bumpTbl c.counters ctrBeatup 1 } := by
    rw [getCore_recordDrift, getCore_driftState, if_pos rfl]
  have ht : t = if l.isEmpty then driftState s n else noteDrift (driftState s n) n (driftWord l) := recordDrift_eq s n
  rw [hcore]
  refine ⟨fun h => ?_, fun x r h hlen hx => ?_, fun i hi => freshSems_zero hi c.sems,
    fun i hi => freshSems_used fresh hi, tget_tset_same .., fun m hm => ?_⟩
  · rw [h] at ht
    refine ⟨?_, by rw [ht]; rfl⟩
    show BitVec.ofNat 64 (driftWord (heldCounts s.cc c)) = 0
    rw [← hl, h]
    rfl
  · obtain ⟨i, k⟩ := x
    have hk : k < 65536 := heldCounts_lt (x := (i, k)) (hl ▸ h ▸ List.mem_cons_self)
    obtain ⟨hcount, hfirst, hheld⟩ := bits_driftWord (r := r) (by simpa [h] using hlen) hx hk
    have hword : (driftCore s.cc c).drift = BitVec.ofNat 64 (driftWord ((i, k) :: r)) := by rw [← h]; rfl
    rw [h] at ht
    refine ⟨?_, hword ▸ hfirst, hword ▸ hheld, ?_⟩
    · rw [h]
      exact hword ▸ hcount
    · rw [ht]
      exact noteDrift_rseq ..
  · rw [getCore_recordDrift, getCore_driftState, if_neg hm]

/-! ### The rest of a beat-up's cycle -/

/-- A core in which only the registers have moved. -/
def repaired (c d : Core) : Prop := d = { c with regs := d.regs, spare := d.spare }

theorem repaired_refl (c : Core) : repaired c c := rfl

theorem repaired_trans {c d e : Core} (h : repaired c d) (k : repaired d e) : repaired c e := by
  unfold repaired at *
  rw [k, h]

/-- A state whose pairings have changed: registers have moved within cores, and of the module only quadrants and the
self-test's bookkeeping have changed. -/
def moved (s t : State) : Prop :=
  t = { s with cores := t.cores, quads := t.quads, selfTest := t.selfTest } ∧ ∀ m, repaired (getCore s m) (getCore t m)

theorem moved_refl (s : State) : moved s s := ⟨rfl, fun _ => rfl⟩

theorem moved_trans {s t u : State} (h : moved s t) (k : moved t u) : moved s u := by
  obtain ⟨hst, hcore⟩ := h
  obtain ⟨htu, hcore'⟩ := k
  exact ⟨by rw [htu, hst], fun m => repaired_trans (hcore m) (hcore' m)⟩

theorem moved_foldl {α : Type} {f : State → α → State} (hf : ∀ t x, moved t (f t x)) (l : List α) (s : State) :
    moved s (l.foldl f s) := by
  induction l generalizing s with
  | nil => exact moved_refl s
  | cons x l ih => exact moved_trans (hf s x) (ih _)

theorem moved_modCore {s : State} (n : Nat) {g : Core → Core} (hg : ∀ c, repaired c (g c)) : moved s (modCore s n g) := by
  refine ⟨rfl, fun m => ?_⟩
  rw [getCore_modCore]
  split
  · next h => rw [h]; exact hg _
  · rfl

theorem moved_modQuad (s : State) (q : Nat) (g : Quad → Quad) : moved s (modQuad s q g) := ⟨rfl, fun _ => rfl⟩

theorem moved_regs (s : State) (n : Nat) (r : RegFile) : moved s (modCore s n (fun c => { c with regs := r })) :=
  moved_modCore n (fun _ => rfl)

theorem moved_spare (s : State) (n : Nat) (r : RegFile) : moved s (modCore s n (fun c => { c with spare := r })) :=
  moved_modCore n (fun _ => rfl)

theorem moved_unpair (s : State) (q : Nat) : moved s (unpair s q) := by
  rw [unpair]
  exact moved_trans (moved_trans (moved_regs ..) (moved_spare ..)) (moved_modQuad ..)

theorem moved_selfTest (s : State) (x : SelfTest) : moved s { s with selfTest := x } := ⟨rfl, fun _ => rfl⟩

theorem moved_formPair (s : State) (q f g : Nat) : moved s (formPair s q f g) := by
  rw [formPair]
  split
  · exact moved_trans (moved_trans (moved_spare ..) (moved_modQuad ..)) (moved_selfTest ..)
  · exact moved_trans (moved_spare ..) (moved_modQuad ..)

/-- The pairing that waits in a quadrant forms, unless one is in force or a test's is held back (R61, R672). -/
def startPairing (s : State) (q : Nat) : State :=
  match (getQuad s q).pairNext with
  | some (f, g) =>
    if pairActive s q then s
    else if !isFenced s (24 * q + f) && decide (0 < stageNow s) then modQuad s q (fun y => { y with pairNext := none })
    else formPair s q f g
  | none => s

theorem moved_startPairing (s : State) (q : Nat) : moved s (startPairing s q) := by
  rw [startPairing]
  split
  · split
    · exact moved_refl s
    · split
      · exact moved_modQuad ..
      · exact moved_formPair ..
  · exact moved_refl s

/-- Whether a test's pairing ends at the beat-up (R672, R675). -/
def testOver (s : State) (q : Nat) : Bool :=
  pairActive s q && (getQuad s q).testPair &&
    (tget 0 s.selfTest.started (pairFenced s q) == 0 || (getQuad s q).pairNext.isSome)

theorem applyPairings_eq (s : State) (q : Nat) :
    applyPairings s q = startPairing (if testOver s q then unpair s q else s) q := rfl

theorem moved_applyPairings (s : State) (q : Nat) : moved s (applyPairings s q) := by
  rw [applyPairings_eq]
  split
  · exact moved_trans (moved_unpair s q) (moved_startPairing ..)
  · exact moved_startPairing ..

theorem moved_advanceGen (s : State) (p : Part) : moved s (advanceGen s p) :=
  moved_foldl (fun _ _ => moved_modQuad ..) _ s

/-! ### Every participant's wait is met -/

/-- The waits of a core's shuttles at a beat-up of a scope, met on a cycle. -/
def meetBeats (scope cc : Nat) (c : Core) : Core :=
  allShuttles.foldl (fun c sh => if (atBeatup (shOf c sh) scope).isSome then meetWait c sh cc false else c) c

theorem sems_meetBeats (scope cc : Nat) (c : Core) : (meetBeats scope cc c).sems = c.sems := by
  have step : ∀ (l : List Shuttle) (c : Core), (l.foldl (fun c sh =>
      if (atBeatup (shOf c sh) scope).isSome then meetWait c sh cc false else c) c).sems = c.sems := by
    intro l
    induction l with
    | nil => exact fun _ => rfl
    | cons sh l ih =>
      intro c
      rw [List.foldl_cons, ih]
      split
      · exact meetWait_sems ..
      · rfl
  exact step _ c

/-- A shuttle at a beat-up whose wait has been met. -/
def beatMet (scope cc : Nat) (x : Sh) : Sh :=
  if (atBeatup x scope).isSome then { x with wait := x.wait.map (fun w => { w with metAt := some cc }) } else x

theorem shOf_meetBeats (scope cc : Nat) (c : Core) (sh : Shuttle) :
    shOf (meetBeats scope cc c) sh = beatMet scope cc (shOf c sh) := by
  have same : ∀ (c : Core) (sh : Shuttle),
      shOf (if (atBeatup (shOf c sh) scope).isSome then meetWait c sh cc false else c) sh = beatMet scope cc (shOf c sh) := by
    intro c sh
    unfold beatMet
    split
    · simp [meetWait]
    · rfl
  have other : ∀ (c : Core) (sh x : Shuttle), x ≠ sh →
      shOf (if (atBeatup (shOf c sh) scope).isSome then meetWait c sh cc false else c) x = shOf c x := by
    intro c sh x hx
    split
    · exact shOf_meetWait_other c cc false hx
    · rfl
  unfold meetBeats allShuttles
  simp only [List.foldl_cons, List.foldl_nil]
  cases sh
  · rw [other _ .u .f (by decide), other _ .b .f (by decide), same]
  · rw [other _ .u .b (by decide), same, other _ .f .b (by decide)]
  · rw [same, other _ .b .u (by decide), other _ .f .u (by decide)]

theorem beatMet_of_at {scope k cc : Nat} {x : Sh} {w : Wait} (hx : atBeatup x scope = some k) (hw : x.wait = some w) :
    (beatMet scope cc x).wait = some { w with metAt := some cc } := by
  rw [beatMet, if_pos (by rw [hx]; rfl), hw]
  rfl

/-- A wait that has been met is met once. -/
theorem beatMet_met {scope cc : Nat} {x : Sh} {w : Wait} {t : Nat} (hw : x.wait = some w) (hm : w.metAt = some t) :
    beatMet scope cc x = x := by
  have h : (atBeatup x scope).isSome = false := by
    unfold atBeatup
    rw [hw]
    split
    · next heq =>
      cases heq
      split
      · next hnone =>
        rw [hm] at hnone
        cases hnone
      · rfl
    · rfl
  rw [beatMet, if_neg (by rw [h]; exact Bool.false_ne_true)]

/-- The participants of a list of cores have their waits met. -/
def meetCores (scope : Nat) (ns : List Nat) (s : State) : State :=
  ns.foldl (fun s n => modCore s n (meetBeats scope (s.cc + 3))) s

theorem noted_meetCores (scope : Nat) (ns : List Nat) (s : State) : noted s (meetCores scope ns s) := by
  unfold meetCores
  induction ns generalizing s with
  | nil => exact noted_refl s
  | cons n ns ih => exact noted_trans (noted_modCore s n _) (ih _)

theorem sems_meetCores (scope : Nat) (ns : List Nat) (s : State) (m : Nat) :
    (getCore (meetCores scope ns s) m).sems = (getCore s m).sems := by
  unfold meetCores
  induction ns generalizing s with
  | nil => rfl
  | cons n ns ih =>
    rw [List.foldl_cons, ih, getCore_modCore]
    split
    · next h => rw [sems_meetBeats, h]
    · rfl

/-- What every participant's wait is after its core's turn. -/
theorem wait_meetCores {scope m : Nat} {ns : List Nat} {s : State} {sh : Shuttle} {w : Wait} {t : Nat}
    (hw : (shOf (getCore s m) sh).wait = some w) (ht : w.metAt = some t) :
    (shOf (getCore (meetCores scope ns s) m) sh).wait = some w := by
  unfold meetCores
  induction ns generalizing s with
  | nil => exact hw
  | cons n ns ih =>
    refine ih ?_
    rw [getCore_modCore]
    split
    · next h =>
      rw [shOf_meetBeats, ← h, beatMet_met hw ht, hw]
    · exact hw

theorem met_meetCores {scope m k : Nat} {ns : List Nat} {s : State} {sh : Shuttle} {w : Wait} (hm : m ∈ ns)
    (hk : atBeatup (shOf (getCore s m) sh) scope = some k) (hw : (shOf (getCore s m) sh).wait = some w) :
    (shOf (getCore (meetCores scope ns s) m) sh).wait = some { w with metAt := some (s.cc + 3) } := by
  induction ns generalizing s with
  | nil => cases hm
  | cons n ns ih =>
    by_cases h : m = n
    · subst h
      refine wait_meetCores (ns := ns) (t := s.cc + 3) ?_ rfl
      rw [getCore_modCore_same, shOf_meetBeats, beatMet_of_at hk hw]
    · have hsame : getCore (modCore s n (meetBeats scope (s.cc + 3))) m = getCore s m := by rw [getCore_modCore, if_neg h]
      exact ih ((List.mem_cons.mp hm).resolve_left h) (hsame ▸ hk) (hsame ▸ hw)

/-! ### The whole cycle -/

/-- The pairings and the generation of a beat-up (R64, R399). -/
def beatPaired (s : State) (p : Part) (scope q : Nat) : State :=
  if 1 ≤ scope then advanceGen ((scopeQuads p scope q).foldl applyPairings s) p
  else (scopeQuads p scope q).foldl applyPairings s

/-- Under S4 a partition is held after its beat-up (R638). -/
def beatHold (s : State) (p : Part) (scope : Nat) : State :=
  if 1 ≤ scope ∧ 4 ≤ stageNow s then
    modPart s p.low (fun x => { x with s4Hold := some (s.cc + 4, s.pll + 4 * divider s.power.divNow) })
  else s

/-- What comes between the drift and the met waits. -/
def beatMid (s : State) (p : Part) (scope q : Nat) : State := beatHold (beatPaired s p scope q) p scope

theorem beatupCycle_eq (s : State) (p : Part) (scope q : Nat) :
    beatupCycle s p scope q =
      meetCores scope (scopeCores p scope q) (beatMid ((scopeCores p scope q).foldl recordDrift s) p scope q) := rfl

theorem moved_beatPaired (s : State) (p : Part) (scope q : Nat) : moved s (beatPaired s p scope q) := by
  have hpair : moved s ((scopeQuads p scope q).foldl applyPairings s) := moved_foldl moved_applyPairings _ s
  rw [beatPaired]
  split
  · exact moved_trans hpair (moved_advanceGen ..)
  · exact hpair

theorem beatMid_spec (s : State) (p : Part) (scope q : Nat) :
    (beatMid s p scope q).cc = s.cc ∧ (beatMid s p scope q).ports = s.ports ∧
      ∀ m, repaired (getCore s m) (getCore (beatMid s p scope q) m) := by
  obtain ⟨heq, hcores⟩ := moved_beatPaired s p scope q
  have hcc : (beatPaired s p scope q).cc = s.cc := by rw [heq]
  have hports : (beatPaired s p scope q).ports = s.ports := by rw [heq]
  rw [beatMid, beatHold]
  split
  · exact ⟨hcc, hports, hcores⟩
  · exact ⟨hcc, hports, hcores⟩

/-- Every semaphore to which no signal of this cycle has added holds no count. -/
def spent (cc : Nat) (c : Core) : Prop :=
  ∀ i, tget 0 (freshSignals cc c) i = 0 → (tget {} c.sems i).count = 0

/-- What a beat-up's drift leaves of a core: its shuttles and the signals of this cycle. -/
def driftKept (cc : Nat) (c d : Core) : Prop :=
  freshSignals cc d = freshSignals cc c ∧ ∀ sh, shOf d sh = shOf c sh

theorem driftKept_refl (cc : Nat) (c : Core) : driftKept cc c c := ⟨rfl, fun _ => rfl⟩

theorem driftKept_trans {cc : Nat} {c d e : Core} (h : driftKept cc c d) (k : driftKept cc d e) : driftKept cc c e :=
  ⟨k.1.trans h.1, fun sh => (k.2 sh).trans (h.2 sh)⟩

theorem recordDrift_kept (s : State) (n m : Nat) : driftKept s.cc (getCore s m) (getCore (recordDrift s n) m) := by
  rw [getCore_recordDrift, getCore_driftState]
  split
  · next h =>
    subst h
    exact ⟨rfl, fun sh => by cases sh <;> rfl⟩
  · exact driftKept_refl ..

theorem recordDrift_spent (s : State) (n m : Nat) (h : m = n ∨ spent s.cc (getCore s m)) :
    spent s.cc (getCore (recordDrift s n) m) := by
  rw [getCore_recordDrift, getCore_driftState]
  split
  · exact fun i hi => freshSems_zero hi _
  · next hm => exact h.resolve_left hm

theorem drifts_spec (ns : List Nat) (s : State) :
    noted s (ns.foldl recordDrift s) ∧
      (∀ m, driftKept s.cc (getCore s m) (getCore (ns.foldl recordDrift s) m)) ∧
      ∀ m, m ∈ ns ∨ spent s.cc (getCore s m) → spent s.cc (getCore (ns.foldl recordDrift s) m) := by
  induction ns generalizing s with
  | nil => exact ⟨noted_refl s, fun _ => driftKept_refl .., fun m hm => hm.resolve_left (List.not_mem_nil)⟩
  | cons n ns ih =>
    obtain ⟨hnoted, hkept, hspent⟩ := ih (recordDrift s n)
    have hcc : (recordDrift s n).cc = s.cc := noted_cc (noted_recordDrift s n)
    rw [hcc] at hkept hspent
    refine ⟨noted_trans (noted_recordDrift s n) hnoted, fun m => driftKept_trans (recordDrift_kept s n m) (hkept m),
      fun m hm => hspent m ?_⟩
    rcases hm with hm | hm
    · rcases List.mem_cons.mp hm with h | h
      · exact .inr (recordDrift_spent s n m (.inl h))
      · exact .inl h
    · exact .inr (recordDrift_spent s n m (.inr hm))

theorem beatupCycle_ports (s : State) (p : Part) (scope q : Nat) : (beatupCycle s p scope q).ports = s.ports := by
  rw [beatupCycle_eq, noted_ports (noted_meetCores ..), (beatMid_spec ..).2.1, noted_ports (drifts_spec _ s).1]

section Cycle
variable {s : State} {p : Part} {scope q n : Nat} (hn : n ∈ scopeCores p scope q)
include hn

/-- A participant's semaphores are zeroed but for the signals of this cycle (R209, R210). -/
theorem beatupCycle_zeroes {i : Nat} (hi : tget 0 (freshSignals s.cc (getCore s n)) i = 0) :
    (tget {} (getCore (beatupCycle s p scope q) n).sems i).count = 0 := by
  obtain ⟨-, hkept, hspent⟩ := drifts_spec (scopeCores p scope q) s
  obtain ⟨-, -, hrep⟩ := beatMid_spec ((scopeCores p scope q).foldl recordDrift s) p scope q
  rw [beatupCycle_eq, sems_meetCores, hrep n]
  exact hspent n (.inl hn) i (by rw [(hkept n).1]; exact hi)

/-- A participant's wait is met with t = z + 3 (R210). -/
theorem beatupCycle_meets {k : Nat} {sh : Shuttle} {w : Wait} (hk : atBeatup (shOf (getCore s n) sh) scope = some k)
    (hw : (shOf (getCore s n) sh).wait = some w) :
    (shOf (getCore (beatupCycle s p scope q) n) sh).wait = some { w with metAt := some (s.cc + 3) } := by
  obtain ⟨hnoted, hkept, -⟩ := drifts_spec (scopeCores p scope q) s
  obtain ⟨hcc, -, hrep⟩ := beatMid_spec ((scopeCores p scope q).foldl recordDrift s) p scope q
  have hsh : shOf (getCore (beatMid ((scopeCores p scope q).foldl recordDrift s) p scope q) n) sh = shOf (getCore s n) sh := by
    rw [hrep n, ← (hkept n).2 sh]
    cases sh <;> rfl
  rw [noted_cc hnoted] at hcc
  rw [beatupCycle_eq, ← hcc]
  exact met_meetCores hn (hsh ▸ hk) (hsh ▸ hw)

end Cycle

/-! ### Who has arrived -/

/-- Where every participant has arrived, one that waits is at the beat-up (R205). -/
theorem atBeatup_of_arrived {s : State} {p : Part} {scope q k n : Nat} (h : arrived s p scope q = some k)
    (hn : n ∈ scopeCores p scope q) {sh : Shuttle} (hm : (shOf (getCore s n) sh).mode = .wait) :
    atBeatup (shOf (getCore s n) sh) scope = some k := by
  have hmem : shOf (getCore s n) sh ∈ ((scopeCores p scope q).flatMap (fun n => allShuttles.map
      (fun sh => shOf (getCore s n) sh))).filter (fun x => x.mode != .ended) := by
    refine List.mem_filter.mpr ⟨List.mem_flatMap.mpr ⟨n, hn, List.mem_map.mpr ⟨sh, by cases sh <;> decide, rfl⟩⟩, ?_⟩
    rw [hm]
    rfl
  unfold arrived at h
  dsimp only at h
  split at h
  · next hnil =>
    rw [List.head?_eq_none_iff.mp hnil] at hmem
    cases hmem
  · split at h
    · cases h
    · split at h
      · next hall =>
        cases h
        exact beq_iff_eq.mp (List.all_eq_true.mp hall _ hmem)
      · cases h

/-- The first command of a fabric beat-up notifies every peer (R717). -/
def notified (s : State) (p : Part) (k : Nat) : State :=
  if p.noticesSent.contains k then s
  else modPart (sendAll s ((peers s).map (fun m => (portOf p 0, m, beatFrame p k)))) p.low
    (fun x => { x with noticesSent := x.noticesSent ++ [k] })

/-- A fabric beat-up whose notices are all there. -/
def fabricBeat (s : State) (p : Part) (q k : Nat) : State :=
  modPart (beatupCycle s p 2 q) p.low (fun x =>
    { x with notices := x.notices.filter (fun y => y.2 != k), noticesSent := x.noticesSent.filter (fun y => y != k) })

/-- Whether every peer's notice of a beat-up is there. -/
def allNoticed (s : State) (p : Part) (k : Nat) : Bool := (peers s).all (fun m => p.notices.contains (m, k))

section Exec
variable {scope : Fin 3} {q : Fin 8} {s0 s : State} {p : Part} {k : Nat} (hp : partOf s0 q.val = some p)
  (hs : (scopeCores p scope.val q.val).foldl landAll s0 = s) (hctx : p.ctx = .running ∨ p.ctx = .stopped)
  (harr : arrived s p scope.val q.val = some k) (hdone : accessesDone s p scope.val q.val = true)
include hp hs hctx harr hdone

/-- A beat-up within the module completes at once. -/
theorem exec_beatup_local (hlocal : ¬ (scope.val = 2 ∧ 1 < fabricN s)) :
    exec (.beatupComplete scope q) s0 = .next (beatupCycle s p scope.val q.val) := by
  show execBeatupComplete scope q s0 = _
  have hrun : (p.ctx == .running || p.ctx == .stopped) = true := by rcases hctx with h | h <;> rw [h] <;> rfl
  rw [execBeatupComplete, hp]
  dsimp only
  rw [hs, hrun, harr]
  dsimp only
  rw [hdone, if_neg hlocal]
  rfl

/-- A fabric beat-up completes with the last notice (R717). -/
theorem exec_beatup_fabric (hscope : scope.val = 2) (hn : 1 < fabricN s) :
    exec (.beatupComplete scope q) s0 = .next (if allNoticed (notified s p k) p k then
      fabricBeat (notified s p k) p q.val k else notified s p k) := by
  show execBeatupComplete scope q s0 = _
  have hrun : (p.ctx == .running || p.ctx == .stopped) = true := by rcases hctx with h | h <;> rw [h] <;> rfl
  have hfabric : scope.val = 2 ∧ 1 < fabricN s := ⟨hscope, hn⟩
  rw [execBeatupComplete, hp]
  dsimp only
  rw [hs, hrun, harr]
  dsimp only
  rw [hdone, if_pos hfabric, hscope, ← notified, ← allNoticed, ← fabricBeat]
  exact (apply_ite Host.Outcome.next (allNoticed (notified s p k) p k = true) _ _).symm

end Exec

/-- Settles O32: a beat-up of these scopes is the cycle of its cores. -/
theorem beatupCompletes : Obligations.BeatupCompletes := by
  intro scope q s0 p k hp hscope s hctx harr hdone
  exact ⟨_, exec_beatup_local hp rfl hctx harr hdone (fun h => by omega), fun n hn i hi => beatupCycle_zeroes hn hi,
    fun n hn sh w hm hw => beatupCycle_meets hn (atBeatup_of_arrived harr hn hm) hw⟩

/-! ### Notices -/

/-- Notifying changes the link and the partition's list of notices sent. -/
theorem notified_frame (s : State) (p : Part) (k : Nat) :
    notified s p k = { s with ports := (notified s p k).ports, mesh := (notified s p k).mesh
                              parts := (notified s p k).parts } := by
  rw [notified]
  split
  · rfl
  · have h := linked_sendAll s ((peers s).map (fun m => (portOf p 0, m, beatFrame p k)))
    unfold linked at h
    rw [modPart, h]

theorem notified_getCore (s : State) (p : Part) (k m : Nat) : getCore (notified s p k) m = getCore s m := by
  rw [notified_frame]
  rfl

theorem peers_notified (s : State) (p : Part) (k : Nat) : peers (notified s p k) = peers s := by
  rw [notified_frame]
  rfl

/-- Every peer whose channel has not failed is sent the notice (R717). -/
theorem notified_sends {s : State} {p : Part} {k m : Nat} (hk : k ∉ p.noticesSent) (hm : m ∈ peers s)
    (hc : (getChan s (portOf p 0) m).state ≠ .failed) :
    Slot.head (beatFrame p k) ∈ tget [] (getChan (notified s p k) (portOf p 0) m).txq 28 := by
  have hown : m ≠ ownIndex s := by simpa using (List.mem_filter.mp hm).2
  have hslot : Slot.head (beatFrame p k) ∈ frameSlots (beatFrame p k) := List.mem_cons_self
  rw [notified, if_neg (by simpa using hk)]
  exact mem_txq_sendAll (List.mem_map.mpr ⟨m, hm, rfl⟩) hown hc _ hslot

theorem mem_modPart {s : State} {p : Part} (g : Part → Part) (h : p ∈ s.parts) : g p ∈ (modPart s p.low g).parts :=
  List.mem_map.mpr ⟨p, h, if_pos rfl⟩

theorem notified_sent {s : State} {p : Part} (k : Nat) (h : p ∈ s.parts) :
    ∃ x ∈ (notified s p k).parts, x.low = p.low ∧ k ∈ x.noticesSent := by
  rw [notified]
  split
  · next hk => exact ⟨p, h, rfl, by simpa using hk⟩
  · exact ⟨_, mem_modPart _ ((linked_parts (linked_sendAll ..)).symm ▸ h), rfl, by simp⟩

/-- A beat-up's notices are spent when it completes. -/
theorem fabricBeat_spends {s : State} {p : Part} {q k : Nat} {x : Part} (hx : x ∈ (fabricBeat s p q k).parts)
    (hl : x.low = p.low) {y : Nat × Nat} (hy : y ∈ x.notices) : y.2 ≠ k := by
  obtain ⟨z, -, rfl⟩ := List.mem_map.mp hx
  split at hl
  · next h =>
    rw [if_pos h] at hy
    simpa using (List.mem_filter.mp hy).2
  · next h => exact absurd hl h

/-- A notice that is kept joins the partition's notices (R717). -/
def addNotice (sender k : Nat) (x : Part) : Part :=
  if x.notices.contains (sender, k) then x else { x with notices := x.notices ++ [(sender, k)] }

theorem mem_addNotice (sender k : Nat) (x : Part) : (sender, k) ∈ (addNotice sender k x).notices := by
  unfold addNotice
  split
  · next h => simpa using h
  · simp

theorem addNotice_low (sender k : Nat) (x : Part) : (addNotice sender k x).low = x.low := by
  unfold addNotice
  split <;> rfl

section Notice
variable {rx : Rx} {u : State} {p : Part} {k : Nat} (hk : rx.frame.inline = .beat k)
  (hp : partAt u (faLow rx.frame.addr) = some p)
include hk hp

theorem keepNotice_kept (hctx : p.ctx = .loaded ∨ p.ctx = .running ∨ p.ctx = .stopped) (hr : p.reset = none) :
    keepNotice rx u = modPart u p.low (addNotice rx.sender k) := by
  rw [keepNotice, hp, hk]
  exact if_pos ⟨hctx, by rw [hr]; rfl⟩

theorem keepNotice_discarded (h : p.ctx = .empty ∨ p.ctx = .faulted ∨ p.reset.isSome = true) : keepNotice rx u = u := by
  rw [keepNotice, hp, hk]
  refine if_neg (fun hlive => ?_)
  obtain ⟨hctx, hr⟩ := hlive
  rcases h with h | h | h
  · simp [h] at hctx
  · simp [h] at hctx
  · simp [Option.isNone_iff_eq_none.mp hr] at h

end Notice

/-- A change of a partition that leaves its place is what is found there afterwards. -/
theorem partAt_modPart {s : State} {p : Part} {low : Nat} {g : Part → Part} (hp : partAt s low = some p)
    (hg : ∀ x, (g x).low = x.low) : partAt (modPart s low g) low = some (g p) := by
  have hlow : p.low = low := by simpa using List.find?_some hp
  have hsame : ((fun x : Part => x.low == low) ∘ fun x => if x.low = low then g x else x) = fun x => x.low == low := by
    funext x
    rw [Function.comp]
    split
    · rw [hg]
    · rfl
  rw [partAt, modPart, List.find?_map, hsame]
  rw [partAt] at hp
  rw [hp, Option.map_some, if_pos hlow]

theorem exec_beatupFrame {rx : Rx} {s : State} (hk : rx.frame.kind = fkBeatup) :
    exec (.beatupFrameReceive rx) s = withRx s rx (keepNotice rx) := by
  show execBeatupFrameReceive rx s = _
  rw [execBeatupFrameReceive, if_pos hk]

/-- Settles O34: by whether every peer's notice is there, and by what the receiver's context is. -/
theorem fabricBeatups : Obligations.FabricBeatups := by
  refine ⟨?complete, fun rx s p k hkind hk hrx hp => ?receive, fun rx s hrx => ?absent⟩
  case complete =>
    intro q s0 p k hp s hctx harr hdone hn
    have hcc : (notified s p k).cc = s.cc := by rw [notified_frame]
    have hexec := exec_beatup_fabric (scope := 2) (s := s) hp rfl hctx harr hdone rfl hn
    refine ⟨_, hexec, fun hk m hm hc _ => ?_, fun hmiss => ?_,
      fun hall => ?_⟩
    · have hsent := notified_sends hk hm hc
      split
      · rw [getChan, getPort, fabricBeat, modPart_ports, beatupCycle_ports, ← getPort, ← getChan]
        exact hsent
      · exact hsent
    · obtain ⟨m, hm, hmiss⟩ := hmiss
      have hnot : ¬ allNoticed (notified s p k) p k = true := fun h =>
        Bool.false_ne_true (hmiss.symm.trans (List.all_eq_true.mp h m ((peers_notified s p k).symm ▸ hm)))
      rw [if_neg hnot]
      have hmem : p ∈ s.parts := by
        rw [landed_parts (landed_landEach ..)]
        exact List.mem_of_find?_eq_some hp
      exact ⟨notified_sent k hmem, by rw [notified_frame]⟩
    · have hnoticed : allNoticed (notified s p k) p k = true :=
        List.all_eq_true.mpr (fun m hm => hall m (peers_notified s p k ▸ hm))
      rw [if_pos hnoticed]
      refine ⟨fun x hx hl y hy => fabricBeat_spends hx hl hy, fun n hcore i hi => ?_, fun n hcore sh w hm hw => ?_⟩
      · rw [← notified_getCore s p k, ← hcc] at hi
        exact beatupCycle_zeroes hcore hi
      · have hat := atBeatup_of_arrived harr hcore hm
        rw [← notified_getCore s p k] at hat hw
        rw [← hcc]
        exact beatupCycle_meets hcore hat hw
  case receive =>
    obtain ⟨u, hu, hlink, -⟩ := withRx_present (keepNotice rx) hrx
    have hpu : partAt u (faLow rx.frame.addr) = some p := (linked_partAt hlink _).trans hp
    have hlow : p.low = faLow rx.frame.addr := by simpa using List.find?_some hp
    refine ⟨fun hctx hr => ?_, fun hdead => ?_⟩
    · refine ⟨_, addNotice rx.sender k p, (exec_beatupFrame hkind).trans hu, ?_, mem_addNotice .., ?_, ?_⟩
      · rw [keepNotice_kept hk hpu hctx hr, hlow]
        exact partAt_modPart hpu (addNotice_low rx.sender k)
      · rw [keepNotice_kept hk hpu hctx hr]
        exact (modPart_cores ..).trans (linked_cores hlink)
      · rw [keepNotice_kept hk hpu hctx hr]
        exact (modPart_lpddr ..).trans (linked_lpddr hlink)
    · refine ⟨_, (exec_beatupFrame hkind).trans hu, ?_⟩
      rw [keepNotice_discarded hk hpu hdead]
      exact ⟨linked_parts hlink, linked_cores hlink⟩
  case absent =>
    show execBeatupFrameReceive rx s = _
    rw [execBeatupFrameReceive]
    split
    · exact withRx_absent _ hrx
    · rfl

end Sys2Proof.Machine
end

section
/-! Completion of bobbin requests (R151, R175, R176, R180, R183, R514, R559). -/

namespace Sys2Proof.Machine

/-! ### Elements written to a core -/

@[simp] theorem replaceUnits_store (c : Core) (tun : Bool) (units : List Nat) : (replaceUnits c tun units).store = c.store := by
  unfold replaceUnits
  split <;> rfl

@[simp] theorem replaceUnits_queues (c : Core) (tun : Bool) (units : List Nat) :
    (replaceUnits c tun units).queues = c.queues := by
  unfold replaceUnits
  split <;> rfl

theorem storeElems_store (c : Core) (xs : List Poke) (k : Chk) : (storeElems c xs k).store = pokeAll c.store xs := by
  unfold storeElems
  split
  · next h => rw [List.isEmpty_iff.mp h]; rfl
  · exact congrArg (fun m => pokeAll m xs) (replaceUnits_store ..)

@[simp] theorem storeElems_queues (c : Core) (xs : List Poke) (k : Chk) : (storeElems c xs k).queues = c.queues := by
  unfold storeElems
  split
  · rfl
  · exact replaceUnits_queues ..

@[simp] theorem tunPokes_queues (c : Core) (xs : List Poke) (k : Chk) : (tunPokes c xs k).queues = c.queues :=
  replaceUnits_queues ..

/-- Elements that a request brings, written to core store or tun. -/
def putElems (q : Request) (c : Core) (xs : List Poke) (k : Chk) : Core :=
  if xs.isEmpty then c else if bqTun q.kind then tunPokes c xs k else storeElems c xs k

theorem deliver_eq (s : State) (n : Nat) (q : Request) (good bad : List Poke) :
    deliver s n q good bad = modCore { s with draws := s.draws + 64 * bad.length } n
      (fun c => putElems q (putElems q c good .clear) (garbage s.draws bad) .failed) := rfl

theorem putElems_queues (q : Request) (c : Core) (xs : List Poke) (k : Chk) : (putElems q c xs k).queues = c.queues := by
  unfold putElems
  split
  · rfl
  · split
    · exact tunPokes_queues ..
    · exact storeElems_queues ..

theorem putElems_store {q : Request} (h : bqTun q.kind = false) (c : Core) (xs : List Poke) (k : Chk) :
    (putElems q c xs k).store = pokeAll c.store xs := by
  unfold putElems
  rw [h]
  split
  · next hx => rw [List.isEmpty_iff.mp hx]; rfl
  · exact storeElems_store ..

theorem deliver_queues (s : State) (n : Nat) (q : Request) (good bad : List Poke) :
    (getCore (deliver s n q good bad) n).queues = (getCore s n).queues := by
  rw [deliver_eq, getCore_modCore_same, putElems_queues, putElems_queues]
  rfl

/-! ### The end of a request -/

/-- A request that has completed. -/
def completed (r : Request) (poisoned : Bool) : Request := { r with complete := true, poisoned := r.poisoned || poisoned }

theorem performAccess_queues (s : State) (n : Nat) (sh : Shuttle) (id : Nat) :
    (getCore (performAccess s n sh id) n).queues = (getCore s n).queues := by
  rw [performAccess, getCore_modCore_same]
  exact modSh_queues ..

theorem performAccess_store (s : State) (n : Nat) (sh : Shuttle) (id : Nat) :
    (getCore (performAccess s n sh id) n).store = (getCore s n).store := by
  rw [performAccess, getCore_modCore_same]
  exact modSh_store ..

/-- An acquiring request drops what was fetched before (R185). -/
def acquireDrop (s : State) (n : Nat) (q : Request) : State := if q.acq then modCore s n combineClear else s

theorem acquireDrop_core (s : State) (n : Nat) (q : Request) :
    (getCore (acquireDrop s n q) n).queues = (getCore s n).queues ∧
      (getCore (acquireDrop s n q) n).store = (getCore s n).store ∧ departed s (acquireDrop s n q) := by
  unfold acquireDrop
  split
  · rw [getCore_modCore_same]
    exact ⟨rfl, rfl, departed_modCore ..⟩
  · exact ⟨rfl, rfl, rfl⟩

theorem finishRequest_eq (s : State) (n k : Nat) (q : Request) (b : Bool) :
    finishRequest s n k q b =
      performAccess (acquireDrop (modRequest s n k q.seq (fun r => completed r b)) n q) n q.sh q.access := rfl

/-- A request that ends is found as completed. -/
theorem found_finishRequest {s : State} {n k : Nat} {q r : Request} (b : Bool)
    (h : findRequest (getCore s n) k q.seq = some r) :
    findRequest (getCore (finishRequest s n k q b) n) k q.seq = some (completed r b) := by
  rw [finishRequest_eq, findRequest_congr (performAccess_queues ..), findRequest_congr (acquireDrop_core ..).1]
  exact findRequest_modRequest h (fun _ => rfl)

theorem departed_finishRequest (s : State) (n k : Nat) (q : Request) (b : Bool) : departed s (finishRequest s n k q b) := by
  rw [finishRequest_eq, performAccess, modRequest]
  exact departed_trans (departed_modCore s n _) (departed_trans (acquireDrop_core ..).2.2 (departed_modCore ..))

theorem finishRequest_store (s : State) (n k : Nat) (q : Request) (b : Bool) :
    (getCore (finishRequest s n k q b) n).store = (getCore s n).store := by
  rw [finishRequest_eq, performAccess_store, (acquireDrop_core ..).2.1, modRequest, getCore_modCore_same]

theorem seq_of_found {c : Core} {k seq : Nat} {q : Request} (h : findRequest c k seq = some q) : q.seq = seq := by
  simpa using List.find?_some h

/-- A remote request whose time has passed: what has come of a read is written, and it ends poisoned (R176). -/
def timedOut (s : State) (n k : Nat) (q : Request) (lost : List Poke) : State :=
  finishRequest (if bqReads q.kind then deliver s n q q.got (q.bad ++ lost) else s) n k q true

theorem exec_remoteTimeout {core : Fin 192} {queue : Fin 16} {seq : Fin 2048} {s : State} {q : Request}
    (hq : findRequest (getCore s core.val) queue.val seq.val = some q) (hsent : q.sent = true)
    (hcomplete : q.complete = false) (hsegs : q.segs ≠ []) :
    exec (.remoteRequestTimeout core queue seq) s =
      if q.sentAt + us (bits s.reqTimeout 0 20) ≤ s.pll then .next (timedOut s core.val queue.val q
        (q.segs.flatMap (fun x => x.pieces.flatMap (fun y => localPokes y.2.2 y.2.1 0)))) else .next s := by
  show execRemoteRequestTimeout core queue seq s = _
  rw [execRemoteRequestTimeout]
  dsimp only
  rw [hq]
  dsimp only
  have hopen : q.segs.isEmpty = false := by simpa using hsegs
  rw [hsent, hcomplete, hopen]
  simp only [Bool.not_false, Bool.and_self, Bool.true_and, decide_eq_true_eq]
  rfl

theorem timedOut_spec {s : State} {n k : Nat} {q : Request} (lost : List Poke)
    (hq : findRequest (getCore s n) k q.seq = some q) :
    findRequest (getCore (timedOut s n k q lost) n) k q.seq = some (completed q true) ∧
      (timedOut s n k q lost).hbm = s.hbm ∧ (timedOut s n k q lost).lpddr = s.lpddr := by
  rw [timedOut]
  split
  · have hdep := departed_finishRequest (deliver s n q q.got (q.bad ++ lost)) n k q true
    exact ⟨found_finishRequest true ((findRequest_congr (deliver_queues ..) ..).trans hq), (departed_hbm hdep).trans rfl,
      (departed_lpddr hdep).trans rfl⟩
  · have hdep := departed_finishRequest s n k q true
    exact ⟨found_finishRequest true hq, departed_hbm hdep, departed_lpddr hdep⟩

/-- Settles O29: before its time the command does nothing; then the request ends poisoned. -/
theorem remoteRequestTimesOut : Obligations.RemoteRequestTimesOut := by
  intro core queue seq s q hq hsent hcomplete hsegs
  have hexec := exec_remoteTimeout hq hsent hcomplete hsegs
  have hus (x : Nat) : us x = 10200 * x := Nat.mul_comm ..
  rw [hus] at hexec
  refine ⟨fun hdue => ?_, fun hearly => by rw [hexec, if_neg (Nat.not_le.mpr hearly)]⟩
  rw [if_pos hdue] at hexec
  have hseq := seq_of_found hq
  rw [← hseq] at hq ⊢
  obtain ⟨hfound, hhbm, hlpddr⟩ := timedOut_spec
    (q.segs.flatMap (fun x => x.pieces.flatMap (fun y => localPokes y.2.2 y.2.1 0))) hq
  exact ⟨_, _, hexec, hfound, rfl, Bool.or_true _, hhbm, hlpddr⟩

/-! ### Local requests -/

theorem eccRead_clean (s : State) (t : Tier) (pq : Nat) {us : List Nat} (h : ∀ u ∈ us, isPoisoned s t u = false) :
    eccRead s t pq us MemEcc.clean = s := by
  have hfind : ∀ l : List Nat, (∀ u ∈ l, isPoisoned s t u = false) → l.foldl (fun s u => findPoison s t pq u) s = s := by
    intro l hl
    induction l with
    | nil => rfl
    | cons u l ih =>
      have hu : findPoison s t pq u = s := by
        rw [findPoison, hl u List.mem_cons_self]
        rfl
      rw [List.foldl_cons, hu]
      exact ih (fun v hv => hl v (List.mem_cons_of_mem u hv))
  unfold eccRead
  simp only [MemEcc.clean, List.filter_nil, List.foldl_nil, List.map_nil, heldLines, snoopLines, List.append_nil]
  exact hfind us h

/-- What a local read brings: the elements from the units as this core reads them, and the zeros of its padding. -/
def readPokes (s : State) (c : Core) (al : Alloc) (q : Request) : List Poke :=
  (unitSegs (reqSegs al c.store q)).map (fun x =>
    (x.2.2, x.2.1, unitValue s c al (x.1 / 512) / 2 ^ (x.1 % 512) % 2 ^ x.2.1)) ++ zeroPokes (zeroSpans c.store q)

/-- The units that a local read fetches are put in the combining buffer (R183). -/
def keepUnits (n : Nat) (al : Alloc) (t : Tier) (us : List Nat) (s : State) : State :=
  us.foldl (fun s u => modCore s n (fun c =>
    combinePut c s.pll (combineKey al.module al.tier u) (readBytes (tierMem s t) (64 * u) 64))) s

theorem keepUnits_spec (n : Nat) (al : Alloc) (t : Tier) (us : List Nat) (s : State) :
    departed s (keepUnits n al t us s) ∧ (getCore (keepUnits n al t us s) n).queues = (getCore s n).queues ∧
      (getCore (keepUnits n al t us s) n).store = (getCore s n).store := by
  unfold keepUnits
  induction us generalizing s with
  | nil => exact ⟨rfl, rfl, rfl⟩
  | cons u us ih =>
    obtain ⟨hdep, hq, hst⟩ := ih (modCore s n (fun c =>
      combinePut c s.pll (combineKey al.module al.tier u) (readBytes (tierMem s t) (64 * u) 64)))
    rw [List.foldl_cons]
    rw [getCore_modCore_same] at hq hst
    exact ⟨departed_trans (departed_modCore ..) hdep, hq, hst⟩

/-- The units of a local read that the combining buffer does not hold. -/
def fetchedUnits (s : State) (n : Nat) (al : Alloc) (q : Request) : List Nat :=
  (reqUnits al (getCore s n).store q).filter
    (fun u => (combineGet (getCore s n) s.pll (combineKey al.module al.tier u)).isNone)

/-- A read of sound units brings them all and ends unpoisoned. -/
theorem localRead_sound {s : State} {p : Part} {n k : Nat} {q : Request} {al : Alloc} (hal : reqAlloc s p q = al)
    (h : ∀ u ∈ reqUnits al (getCore s n).store q, isPoisoned s (tierOf al.tier) u = false) :
    localRead s p n k q MemEcc.clean SramEcc.clean =
      finishRequest (keepUnits n al (tierOf al.tier) (fetchedUnits s n al q)
        (deliver s n q (readPokes s (getCore s n) al q) [])) n k q false := by
  have hsound : ∀ u ∈ fetchedUnits s n al q, isPoisoned s (tierOf al.tier) u = false :=
    fun u hu => h u (List.mem_filter.mp hu).1
  have hbad : ∀ u, ((fetchedUnits s n al q).contains u && isPoisoned s (tierOf al.tier) u) = false := by
    intro u
    cases hu : (fetchedUnits s n al q).contains u
    · rfl
    · rw [hsound u (List.contains_iff_mem.mp hu)]
      rfl
  have hnone : ∀ l : List Nat, l.any (fun _ => false) = false := by simp
  rw [localRead]
  dsimp only
  rw [requestSram_clean, hal, ← fetchedUnits, eccRead_clean _ _ _ hsound]
  simp only [hbad, hnone, Bool.not_false, List.filter_true, List.filter_false, List.map_nil]
  rw [← readPokes, ← keepUnits]

/-! ### Local writes -/

theorem tierMem_setPoison (s : State) (t x : Tier) (l : List Nat) : tierMem (setPoison s t l) x = tierMem s x := by
  cases t <;> cases x <;> rfl

theorem tierMem_poisonUnit (s : State) (t x : Tier) (u : Nat) : tierMem (poisonUnit s t u) x = tierMem s x := by
  unfold poisonUnit
  dsimp only
  split
  · cases x <;> rfl
  · rw [tierMem_setPoison]
    cases x <;> rfl

theorem poisonUnit_cores (s : State) (t : Tier) (u : Nat) : (poisonUnit s t u).cores = s.cores := by
  unfold poisonUnit
  dsimp only
  split
  · rfl
  · cases t <;> rfl

theorem tierMem_unpoison (s : State) (t x : Tier) (us : List Nat) : tierMem (unpoison s t us) x = tierMem s x := by
  rw [← tierMem_setPoison s t x ((poisonOf s t).filter (fun u => !us.contains u))]
  cases x <;> rfl

theorem tierMem_writeMem_same (s : State) (t : Tier) (xs : List Poke) :
    tierMem (writeMem s t xs) t = pokeAll (tierMem s t) xs := by
  rw [writeMem, tierMem_unpoison]
  cases t <;> rfl

theorem tierMem_writeMem_other (s : State) {t x : Tier} (xs : List Poke) (h : x ≠ t) :
    tierMem (writeMem s t xs) x = tierMem s x := by
  rw [writeMem, tierMem_unpoison]
  cases t <;> cases x
  · exact absurd rfl h
  · rfl
  · rfl
  · exact absurd rfl h

theorem writeMem_cores (s : State) (t : Tier) (xs : List Poke) : (writeMem s t xs).cores = s.cores := by
  cases t <;> rfl

theorem poisonAll_spec (s : State) (t : Tier) (us : List Nat) :
    (poisonAll s t us).cores = s.cores ∧ ∀ x, tierMem (poisonAll s t us) x = tierMem s x := by
  unfold poisonAll
  induction us generalizing s with
  | nil => exact ⟨rfl, fun _ => rfl⟩
  | cons u us ih =>
    obtain ⟨hcores, hmem⟩ := ih (if isPoisoned s t u then s else poisonUnit s t u)
    rw [List.foldl_cons]
    refine ⟨hcores.trans ?_, fun x => (hmem x).trans ?_⟩
    · split
      · rfl
      · exact poisonUnit_cores ..
    · split
      · rfl
      · exact tierMem_poisonUnit ..

/-- The memory after a local write has gone through, before the request ends. -/
def written (s : State) (n : Nat) (al : Alloc) (q : Request) : State :=
  modCore (poisonAll (writeMem s (tierOf al.tier) (writePokes (getCore s n) al q).1) (tierOf al.tier)
    (writePokes (getCore s n) al q).2) n
    (fun c => combineDrop c ((reqUnits al (getCore s n).store q).map (combineKey al.module al.tier)))

/-- A write whose lines the host does not hold goes through. -/
theorem localWrite_free {s : State} {p : Part} {n k : Nat} {q : Request} {al : Alloc} (hal : reqAlloc s p q = al)
    (hq : q.kind ≠ bqAdd) (h : heldLines s (tierOf al.tier) (reqUnits al (getCore s n).store q) = []) :
    localWrite s p n k q MemEcc.clean SramEcc.clean = finishRequest (written s n al q) n k q false := by
  rw [localWrite]
  dsimp only
  rw [hal, h, requestSram_clean]
  simp only [List.isEmpty_nil, Bool.not_true, Bool.false_eq_true, if_false, if_neg hq, List.append_nil]
  rfl

theorem written_queues (s : State) (n : Nat) (al : Alloc) (q : Request) :
    (getCore (written s n al q) n).queues = (getCore s n).queues := by
  rw [written, getCore_modCore_same, queues_combineDrop, getCore, (poisonAll_spec ..).1, writeMem_cores, ← getCore]

theorem tierMem_departed {s t : State} (h : departed s t) (x : Tier) : tierMem t x = tierMem s x := by
  cases x
  · exact departed_hbm h
  · exact departed_lpddr h

theorem tierMem_written (s : State) (n : Nat) (al : Alloc) (q : Request) (x : Tier) :
    tierMem (written s n al q) x =
      tierMem (writeMem s (tierOf al.tier) (writePokes (getCore s n) al q).1) x := by
  rw [written, tierMem_departed (departed_modCore ..), (poisonAll_spec ..).2]

/-! ### Bytes outside what is written -/

theorem mem_placed {addr : Nat} {bs : List Byte} {x : Nat × Byte} (h : x ∈ placed addr bs) :
    addr ≤ x.1 ∧ x.1 < addr + bs.length := by
  induction bs generalizing addr with
  | nil => cases h
  | cons b bs ih =>
    rw [List.length_cons]
    rcases List.mem_cons.mp h with rfl | h
    · exact ⟨Nat.le_refl _, by omega⟩
    · have := ih h
      omega

theorem leBytes_length (n v : Nat) : (leBytes n v).length = n := by
  induction n generalizing v with
  | zero => rfl
  | succ n ih => rw [leBytes, List.length_cons, ih]

/-- A byte outside an element keeps its value. -/
theorem tget_poke_outside (m : Tbl Byte) {x : Poke} {b : Nat} (h : b < x.1 / 8 ∨ (x.1 + x.2.1 + 7) / 8 ≤ b) :
    tget 0 (poke m x) b = tget 0 m b := by
  unfold poke
  split
  · refine tget_tsetAll_other 0 _ m (fun y hy => ?_)
    have hin := mem_placed hy
    rw [leBytes_length] at hin
    omega
  · next hx => exact tget_tset_other 0 m _ (by omega)

theorem tget_pokeAll_outside {xs : List Poke} {b : Nat} (h : ∀ x ∈ xs, b < x.1 / 8 ∨ (x.1 + x.2.1 + 7) / 8 ≤ b)
    (m : Tbl Byte) : tget 0 (pokeAll m xs) b = tget 0 m b := by
  unfold pokeAll
  induction xs generalizing m with
  | nil => rfl
  | cons x xs ih =>
    rw [List.foldl_cons, ih (fun y hy => h y (List.mem_cons_of_mem x hy)), tget_poke_outside m (h x List.mem_cons_self)]

theorem exec_localRequest {core : Fin 192} {queue : Fin 16} {seq : Fin 2048} {s0 s : State} {p : Part} {q : Request}
    (ecc : MemEcc) (sram : SramEcc) (hs : landAll s0 core.val = s) (hp : corePart s core.val = some p)
    (hq : findRequest (getCore s core.val) queue.val seq.val = some q) (hcomplete : q.complete = false)
    (hheld : q.held = false) (hprov : sourceProv (getCore s core.val) q = false)
    (hblock : blockedBy s p (getCore s core.val) queue.val q = false) (hdest : q.dest = none) :
    exec (.bobbinRequestComplete core queue seq ecc sram) s0 =
      .next (if bqReads q.kind then localRead s p core.val queue.val q ecc sram
        else localWrite s p core.val queue.val q ecc sram) := by
  show execBobbinRequestComplete core queue seq ecc sram s0 = _
  rw [execBobbinRequestComplete, hs, hp, hq]
  dsimp only
  rw [hcomplete, hheld, hprov, hblock, hdest]
  rfl

/-- Settles O28: by whether the request reads or writes. -/
theorem localRequestsComplete : Obligations.LocalRequestsComplete := by
  intro core queue seq s0 p q n s c al ti hp hq hcomplete hheld hprov hblock hdest
  have hexec := exec_localRequest MemEcc.clean SramEcc.clean rfl hp hq hcomplete hheld hprov hblock hdest
  have hseq := seq_of_found hq
  rw [← hseq] at hq ⊢
  refine ⟨fun hreads hsound => ?_, fun hwrites hadd hfree => ?_⟩
  · rw [if_pos hreads, localRead_sound rfl hsound] at hexec
    obtain ⟨hkeep, hqueues, hstore⟩ := keepUnits_spec n al ti (fetchedUnits s n al q) (deliver s n q (readPokes s c al q) [])
    have hdep := departed_trans hkeep (departed_finishRequest _ n queue.val q false)
    have hfound : findRequest (getCore (deliver s n q (readPokes s c al q) []) n) queue.val q.seq = some q :=
      (findRequest_congr (deliver_queues ..) ..).trans hq
    refine ⟨_, hexec, (departed_hbm hdep).trans rfl, (departed_lpddr hdep).trans rfl, fun htun => ?_, completed q false,
      found_finishRequest false ((findRequest_congr hqueues ..).trans hfound), rfl, Bool.or_false _⟩
    rw [finishRequest_store, hstore, deliver_eq, getCore_modCore_same, putElems_store htun, putElems_store htun]
    rfl
  · rw [if_neg (by rw [hwrites]; exact Bool.false_ne_true), localWrite_free rfl hadd hfree] at hexec
    have hdep := departed_finishRequest (written s n al q) n queue.val q false
    have hmem (x : Tier) : tierMem (finishRequest (written s n al q) n queue.val q false) x =
        tierMem (writeMem s ti (writePokes c al q).1) x :=
      (tierMem_departed hdep x).trans (tierMem_written ..)
    refine ⟨_, hexec, fun x hx => (hmem x).trans (tierMem_writeMem_other s _ hx), (hmem ti).trans (tierMem_writeMem_same ..),
      fun b hb => ?_, completed q false,
      found_finishRequest false ((findRequest_congr (written_queues ..) ..).trans hq), rfl, Bool.or_false _⟩
    rw [hmem ti, tierMem_writeMem_same]
    exact tget_pokeAll_outside hb _

end Sys2Proof.Machine
end

section
/-! BQ.ISSUE (R93, R148, R171, R178 to R180): what a posted request is, and what its posting leaves. -/

namespace Sys2Proof.Machine

/-! ### What a register write leaves of its core -/

/-- A write that is issued changes its core's results in flight and its mark of a collision. -/
theorem pushWrite_frame (s : State) (a : At) (lat : Nat) (e : Effect) :
    getCore (pushWrite s a lat e) a.n = { getCore s a.n with
      collide := (getCore (pushWrite s a lat e) a.n).collide, flight := (getCore (pushWrite s a lat e) a.n).flight
      nextOrder := (getCore (pushWrite s a lat e) a.n).nextOrder } := by
  unfold pushWrite
  dsimp only
  split
  · split
    · simp only [getCore_noteW1c, getCore_modCore_same]
    · simp only [getCore_push_same, getCore_noteW1c, getCore_modCore_same]
  · simp only [getCore_push_same]

/-! ### The request and its state -/

/-- A core that posts a request: its queue, its shuttles and its count of accesses. -/
def postedCore (c d : Core) (qn : Nat) (q : Queue) : Prop :=
  d = { c with queues := tset {} c.queues qn q, nextAccess := d.nextAccess, f := d.f, b := d.b, u := d.u }

theorem postedCore_of (c : Core) (sh : Shuttle) (g h : Sh → Sh) (k qn : Nat) (q : Queue) :
    postedCore c { modSh { modSh c sh g with nextAccess := k } sh h with
      queues := tset {} ({ modSh c sh g with nextAccess := k } : Core).queues qn q } qn q := by
  cases sh <;> rfl

/-- What posting a request does, up to the register write of its token. -/
theorem postRequest_parts (a : At) (hups : a.ups = Upsets.none) :
    ∃ (s : State) (r : Request) (go : Bool), s = { a.s with cores := s.cores } ∧
      postedCore (getCore a.s a.n) (getCore s a.n) (qQN a.w) { tget {} a.c.queues (qQN a.w) with
        next := ((tget {} a.c.queues (qQN a.w)).next + 1) % 2048, reqs := (tget {} a.c.queues (qQN a.w)).reqs ++ [r] } ∧
      (∀ m, m ≠ a.n → getCore s m = getCore a.s m) ∧
      r.seq = (tget {} a.c.queues (qQN a.w)).next ∧ r.kind = qKind a.w ∧ r.dl = entryD a (qDL a.w) ∧
      r.dr = entryD a (qDR a.w) ∧ r.offset = aoOffset a ∧ r.complete = false ∧ r.poisoned = false ∧ r.sh = a.sh ∧
      r.acq = fldFlag a.w 0 ∧ (go = true → r.dest ≠ none) ∧
      postRequest a =
        (let t := pushReg s a (192 + qQT a.w) 1 (tokenOf (qQN a.w) (tget {} a.c.queues (qQN a.w)).next)
         if go then departRemote t a.p a.n (qQN a.w) r SramEcc.clean else t) := by
  have hsram : sramOf a.ups = SramEcc.clean := by rw [hups]; rfl
  unfold postRequest
  rw [hsram]
  unfold newAccess
  dsimp only
  refine ⟨_, _, _, ?_, ?_, fun m hm => ?_, ?_, ?_, ?_, ?_, ?_, ?_, ?_, ?_, ?_, fun hgo => ?_, rfl⟩
  · rfl
  · rw [getCore_setCore_same, getCore_setCore_same]
    exact postedCore_of ..
  · rw [getCore_setCore, if_neg hm, getCore_setCore, if_neg hm]
  · rfl
  · rfl
  · rfl
  · rfl
  · rfl
  · rfl
  · rfl
  · rfl
  · rfl
  · simp only [Bool.and_eq_true] at hgo
    exact Option.isSome_iff_ne_none.mp hgo.1

/-- A request like another but for the marks of its sending. -/
def sameRequest (r x : Request) : Prop :=
  x.seq = r.seq ∧ x.kind = r.kind ∧ x.dl = r.dl ∧ x.dr = r.dr ∧ x.offset = r.offset ∧ x.complete = r.complete ∧
    x.poisoned = r.poisoned ∧ x.sh = r.sh ∧ x.acq = r.acq

/-- The queue after its newest request has left: the same requests in the same order. -/
theorem queue_departed {s : State} {n k : Nat} {r : Request} {rs : List Request} (g : Request → Request)
    (hg : ∀ x, (g x).seq = x.seq) (h : (tget {} (getCore s n).queues k).reqs = rs ++ [r]) :
    tget {} (getCore (modRequest s n k r.seq g) n).queues k =
        { tget {} (getCore s n).queues k with reqs := rs.map (fun x => if x.seq = r.seq then g x else x) ++ [g r] } ∧
      (rs.map (fun x => if x.seq = r.seq then g x else x)).map (fun x => x.seq) = rs.map (fun x => x.seq) := by
  constructor
  · rw [queues_modRequest, tget_tset_same, h, List.map_append, List.map_singleton, if_pos rfl]
  · rw [List.map_map]
    refine List.map_congr_left (fun x _ => ?_)
    dsimp only [Function.comp]
    split
    · exact hg x
    · rfl

/-- What a request that leaves, or stays, does to its core and the module: the queue holds the same requests in the same
order, and nothing but the queue and the combining buffer of the core changes. -/
theorem maybeDepart_spec {s : State} {p : Part} {n k : Nat} {r : Request} {rs : List Request} (go : Bool)
    (hgo : go = true → r.dest ≠ none) (h : (tget {} (getCore s n).queues k).reqs = rs ++ [r]) :
    let t := if go then departRemote s p n k r SramEcc.clean else s
    ∃ l x, tget {} (getCore t n).queues k = { tget {} (getCore s n).queues k with reqs := l ++ [x] } ∧
      l.map (fun y => y.seq) = rs.map (fun y => y.seq) ∧ (x.dest = none → l = rs) ∧ sameRequest r x ∧
      (∀ j, j ≠ k → tget {} (getCore t n).queues j = tget {} (getCore s n).queues j) ∧
      getCore t n = { getCore s n with queues := (getCore t n).queues, combine := (getCore t n).combine } ∧
      (∀ m, m ≠ n → getCore t m = getCore s m) ∧ departed s t := by
  intro t
  cases go with
  | false =>
    refine ⟨rs, r, ?_, rfl, fun _ => rfl, ⟨rfl, rfl, rfl, rfl, rfl, rfl, rfl, rfl, rfl⟩, fun _ _ => rfl, rfl, fun _ _ => rfl, rfl⟩
    rw [← h]
    rfl
  | true =>
    obtain ⟨segs, got, l, hdep, hcore, hother⟩ := departRemote_clean s p n k r
    obtain ⟨hqueue, hseqs⟩ := queue_departed (markSent segs got s.pll) (fun _ => rfl) h
    have ht : t = departRemote s p n k r SramEcc.clean := rfl
    have hqs : (getCore t n).queues = (getCore (modRequest s n k r.seq (markSent segs got s.pll)) n).queues := by
      rw [ht, hcore]
    refine ⟨_, markSent segs got s.pll r, hqs ▸ hqueue, hseqs, fun hnone => absurd hnone (hgo rfl),
      ⟨rfl, rfl, rfl, rfl, rfl, rfl, rfl, rfl, rfl⟩, fun j hj => ?_, ?_, hother, hdep⟩
    · rw [hqs, queues_modRequest, tget_tset_other _ _ _ hj]
    · rw [ht, hcore, modRequest, getCore_modCore_same]

/-! ### Settling what BQ.ISSUE does -/

/-- BQ.ISSUE meets no condition where its fields, descriptors, queue and allocation are as its rows ask. -/
theorem actBqIssue_clean {a : At} {dl dr : Image} {al : Alloc} (hk : qKind a.w ≠ 7)
    (hdl : entryOf a (qDL a.w) = some dl) (hdr : entryOf a (qDR a.w) = some dr)
    (hdi : bqRows (qKind a.w) = true → ∃ di, entryOf a (qDI a.w) = some di ∧ indexConds di = [] ∧
      dValid dl (outerDim dl) = dValid di 0) (hconds : bqConds a.w dl dr = []) (hoff : aoOffset a % 64 = 0)
    (hfull : (tget {} a.c.queues (qQN a.w)).reqs.length < 32) (hal : allocAt a.s a.p (dHandle dr) = some al)
    (hrange : rangeIn dr (aoOffset a) al.length = true) (hacc : al.readonly = false ∨ bqReads (qKind a.w) = true) :
    (actBqIssue a).enc = [] ∧ (actBqIssue a).chk = [] := by
  have hrows : (if bqRows (qKind a.w) then needEntry a (qDI a.w) 56 else []) = [] ∧
      (if bqRows (qKind a.w) then onEntry a (qDI a.w) (fun di => indexConds di ++
        onEntry a (qDL a.w) (fun dl => cond (dValid dl (outerDim dl) != dValid di 0) 3 40)) else []) = [] := by
    split
    · next hr =>
      obtain ⟨di, he, hc, hv⟩ := hdi hr
      simp [he, hdl, hc, hv]
    · exact ⟨rfl, rfl⟩
  have halloc : (!rangeIn dr (aoOffset a) al.length || (al.readonly && !bqReads (qKind a.w))) = false := by
    rcases hacc with h | h <;> simp [hrange, h]
  refine ⟨by rw [actBqIssue, undefinedField, beq_eq_false_iff_ne.mpr hk, cond_false], ?_⟩
  unfold actBqIssue
  dsimp only
  rw [hrows.1, hrows.2, onEntry_of_some _ hdr, hal]
  simp [hdl, hdr, hconds, hoff, Nat.not_le.mpr hfull, halloc]

/-- The token's register write, where no other result in flight writes that register. -/
theorem pushReg_flight {s : State} {a : At} {sp lat v : Nat}
    (h : ∀ f ∈ (getCore s a.n).flight, ∀ w, f.effect ≠ .reg (BitVec.ofNat 8 sp) w) :
    ∃ f ∈ (getCore (pushReg s a sp lat v) a.n).flight, f.due = (getCore s a.n).cycle + lat ∧
      f.effect = .reg (BitVec.ofNat 8 sp) (BitVec.ofNat 64 v) := by
  have hpush : pushReg s a sp lat v = _ := pushWrite_of_free (fun f hf hclash => by
    obtain ⟨-, -, w, hw⟩ := (writeClash_reg_iff ..).mp hclash
    exact h f hf w hw)
  rw [hpush, getCore_push_same]
  exact ⟨_, List.mem_append_right _ (List.mem_singleton_self _), rfl, rfl⟩

/-- Settles O27: the request is posted, its token written, and a remote one that nothing holds leaves. -/
theorem bobbinIssuePosts : Obligations.BobbinIssuePosts := by
  intro i s a dl dr al hr hups hk hdl hdr hdi hconds hoff hfull hal hrange hacc q
  obtain ⟨henc, hchk⟩ := actBqIssue_clean hk hdl hdr hdi hconds hoff hfull hal hrange hacc
  have hexec : exec (.bqIssue i) s = .next (advance (postRequest a) a none) :=
    exec_ready (m := actBqIssue) rfl rfl hr rfl henc rfl hchk rfl
  have hc : a.c = getCore a.s a.n := by
    obtain ⟨-, -, -, -, -, hc, -⟩ := place_spec hr.1
    exact hc
  obtain ⟨u, r, go, hu, hposted, hothers, hseq, hkind, hrdl, hrdr, hroff, hcomp, hpois, hsh, hacq, hgo, hpost⟩ :=
    postRequest_parts a hups
  rw [← hc] at hposted
  let v := pushReg u a (192 + qQT a.w) 1 (tokenOf (qQN a.w) q.next)
  obtain ⟨hvframe, hvothers⟩ : onlyCores [a.n] u v := onlyCores_pushWrite ..
  have hvcore : getCore v a.n = _ := pushWrite_frame ..
  have hvqueue : tget {} (getCore v a.n).queues (qQN a.w) = { q with next := (q.next + 1) % 2048, reqs := q.reqs ++ [r] } := by
    rw [hvcore, hposted]
    exact tget_tset_same ..
  obtain ⟨l, x, hqueue, hseqs, hlocal, hsame, hqothers, htcore, htothers, hdep⟩ :=
    maybeDepart_spec (p := a.p) go hgo (congrArg Queue.reqs hvqueue)
  obtain ⟨hxseq, hxkind, hxdl, hxdr, hxoff, hxcomp, hxpois, hxsh, hxacq⟩ := hsame
  obtain ⟨⟨hadv, hadvothers⟩, -, -, -, hadvcore⟩ := issueAdvances (postRequest a) a none
  have hpost' : postRequest a = if go then departRemote v a.p a.n (qQN a.w) r SramEcc.clean else v := hpost
  rw [← hpost'] at hqueue hqothers htcore htothers hdep
  refine ⟨_, l, x, hexec, ?_, hseqs, hlocal, hxseq.trans hseq, hxkind.trans hkind, ?_, ?_, hxoff.trans hroff,
    hxcomp.trans hcomp, hxpois.trans hpois, hxsh.trans hsh, hxacq.trans hacq, fun j hj => ?_, fun hfree => ?_, ?_, ?_, ?_, ?_,
    fun m hm hrun => ?_⟩
  · rw [hadvcore a.n]
    exact hqueue.trans (by rw [hvqueue])
  · exact hxdl.trans (hrdl.trans (entryD_of_some hdl))
  · exact hxdr.trans (hrdr.trans (entryD_of_some hdr))
  · rw [hadvcore a.n]
    refine (hqothers j hj).trans ?_
    rw [hvcore, hposted]
    exact tget_tset_other _ _ _ hj
  · have hflight : (getCore u a.n).flight = a.c.flight := by rw [hposted]
    have hcycle : (getCore u a.n).cycle = a.c.cycle := by rw [hposted]
    rw [hadvcore a.n, htcore, ← hcycle]
    exact pushReg_flight (hflight ▸ hfree)
  · rw [hadvcore a.n, htcore, hvcore, hposted]
  · rw [hadvcore a.n, htcore, hvcore, hposted]
  · rw [hadv, departed_hbm hdep, hvframe, hu]
  · rw [hadv, departed_lpddr hdep, hvframe, hu]
  · have hquads : (postRequest a).quads = a.s.quads := by rw [hdep, hvframe, hu]
    have hkept : m ∉ [a.n, runner (postRequest a) a.n] := by
      rw [runner_of_quads hquads]
      simp [hm, hrun]
    rw [hadvothers m hkept, htothers m hm, hvothers m (by simpa using hm), hothers m hm]

end Sys2Proof.Machine
end

section
/-! Engine instructions in general: what the state of an issued instruction keeps (R71, R82, R121), and what is read
from physics that upsets nothing. -/

namespace Sys2Proof.Machine

/-! ### The state of an instruction that has issued -/

/-- The state after an instruction that executes and meets no fault. -/
def issued (a : At) (act : Action) : State := advance (occupy act.eff a act true) a act.jump

theorem exec_runs {c : Instr} {op : Nat} {i : Issue} {m : At → Action} {s : State} {a : At}
    (hi : c.issue = some (op, i)) (hm : actionOf c = some m) (hr : Runs op i s a (m a)) :
    exec c s = .next (issued a (m a)) := by
  obtain ⟨hp, hd, hclean, -⟩ := hr
  rw [exec_issue s hi hm, issueWith_clean hp hd hclean, issued]

/-- What running in its place says: the core and registers are the state's, no condition is met, and nothing is upset. -/
theorem runs_spec {op : Nat} {i : Issue} {s : State} {a : At} {x : Action} (hr : Runs op i s a x) :
    a.c = getCore a.s a.n ∧ a.r = getRegs a.s a.n ∧ x.enc = [] ∧ x.chk = [] ∧
      (∀ u, x.eng = some u → engConds a.c a.sh u = []) ∧ a.ups = Upsets.none := by
  obtain ⟨hp, -, ⟨he, hf, -⟩, hups⟩ := hr
  obtain ⟨-, -, -, -, -, hc, hregs, -⟩ := place_spec hp
  unfold actionFault at hf
  rw [if_pos he, worst_eq_none_iff] at hf
  obtain ⟨hfront, hchk⟩ := List.append_eq_nil_iff.mp hf
  obtain ⟨henc, heng⟩ := List.append_eq_nil_iff.mp hfront
  refine ⟨hc, hregs, (List.append_eq_nil_iff.mp henc).2, hchk, fun u hu => ?_, hups⟩
  rw [hu] at heng
  exact heng

/-- Of a core, what no engine instruction changes as it issues. -/
structure CoreKept (c d : Core) : Prop where
  regs : d.regs = c.regs
  spare : d.spare = c.spare
  store : d.store = c.store
  tun : d.tun = c.tun
  desc : d.desc = c.desc
  sems : d.sems = c.sems
  queues : d.queues = c.queues
  cycle : d.cycle = c.cycle

theorem CoreKept.refl (c : Core) : CoreKept c c := ⟨rfl, rfl, rfl, rfl, rfl, rfl, rfl, rfl⟩

theorem CoreKept.trans {c d e : Core} (h : CoreKept c d) (k : CoreKept d e) : CoreKept c e :=
  ⟨k.regs.trans h.regs, k.spare.trans h.spare, k.store.trans h.store, k.tun.trans h.tun, k.desc.trans h.desc,
    k.sems.trans h.sems, k.queues.trans h.queues, k.cycle.trans h.cycle⟩

theorem CoreKept.modSh (c : Core) (sh : Shuttle) (g : Sh → Sh) : CoreKept c (modSh c sh g) := by
  cases sh <;> exact ⟨rfl, rfl, rfl, rfl, rfl, rfl, rfl, rfl⟩

theorem CoreKept.useEngine (c : Core) (u : EngUse) (on : Bool) : CoreKept c (useEngine c u on) := by
  unfold Machine.useEngine setEng
  cases u.eng <;> exact ⟨rfl, rfl, rfl, rfl, rfl, rfl, rfl, rfl⟩

/-- Of the module, what no engine instruction changes as it issues. -/
structure EffKept (n : Nat) (s t : State) : Prop where
  core : CoreKept (getCore s n) (getCore t n)
  others : ∀ m, m ≠ n → getCore t m = getCore s m
  quads : t.quads = s.quads
  lpddr : t.lpddr = s.lpddr
  hbm : t.hbm = s.hbm

theorem EffKept.refl (n : Nat) (s : State) : EffKept n s s := ⟨.refl _, fun _ _ => rfl, rfl, rfl, rfl⟩

theorem EffKept.trans {n : Nat} {s t u : State} (h : EffKept n s t) (k : EffKept n t u) : EffKept n s u :=
  ⟨h.core.trans k.core, fun m hm => (k.others m hm).trans (h.others m hm), k.quads.trans h.quads, k.lpddr.trans h.lpddr,
    k.hbm.trans h.hbm⟩

theorem EffKept.modCore {n : Nat} {s : State} {g : Core → Core} (h : CoreKept (getCore s n) (g (getCore s n))) :
    EffKept n s (modCore s n g) := by
  refine ⟨by rw [getCore_modCore_same]; exact h, fun m hm => ?_, rfl, rfl, rfl⟩
  rw [getCore_modCore, if_neg hm]

theorem EffKept.occupy {a : At} {s u : State} (act : Action) (on : Bool) (h : EffKept a.n s u) :
    EffKept a.n s (occupy u a act on) := by
  unfold Machine.occupy
  split
  · exact h.trans (.modCore (.useEngine ..))
  · exact h

theorem EffKept.push (s : State) (n : Nat) (sh : Shuttle) (lat : Nat) (access verdict : Option Nat) (e : Effect) :
    EffKept n s (push s n sh lat access verdict e) := .modCore ⟨rfl, rfl, rfl, rfl, rfl, rfl, rfl, rfl⟩

theorem EffKept.newAccess (s : State) (n : Nat) (sh : Shuttle) (level : Nat) (kind : AccessKind) (rel held : Bool)
    (frames : List (Nat × Nat × Frame)) : EffKept n s (newAccess s n sh level kind rel held frames).1 := by
  refine .modCore (g := fun c => _) ?_
  cases sh <;> exact ⟨rfl, rfl, rfl, rfl, rfl, rfl, rfl, rfl⟩

theorem EffKept.pushStore (s : State) (a : At) (lat : Nat) (verdict : Option Nat) (e : Effect) :
    EffKept a.n s (pushStore s a lat verdict e) :=
  .trans (.newAccess ..) (.push ..)

/-- The same where a record may have been made: it leaves HBM3E as long as the cellar has room. -/
structure IssueKept (n : Nat) (s t : State) : Prop where
  core : CoreKept (getCore s n) (getCore t n)
  others : ∀ m, m ≠ n → getCore t m = getCore s m
  quads : t.quads = s.quads
  lpddr : t.lpddr = s.lpddr
  hbm : s.errors.store.length < 510 → t.hbm = s.hbm

theorem EffKept.issue {n : Nat} {s t : State} (h : EffKept n s t) : IssueKept n s t :=
  ⟨h.core, h.others, h.quads, h.lpddr, fun _ => h.hbm⟩

theorem IssueKept.then {n : Nat} {s t u : State} (h : IssueKept n s t) (k : EffKept n t u) : IssueKept n s u :=
  ⟨h.core.trans k.core, fun m hm => (k.others m hm).trans (h.others m hm), k.quads.trans h.quads, k.lpddr.trans h.lpddr,
    fun hroom => k.hbm.trans (h.hbm hroom)⟩

theorem IssueKept.occupy {a : At} {s u : State} (act : Action) (on : Bool) (h : IssueKept a.n s u) :
    IssueKept a.n s (occupy u a act on) := h.then ((EffKept.refl a.n u).occupy act on)

/-- Registers that an issue leaves, read through whichever core holds them. -/
theorem IssueKept.getRegs {n : Nat} {s t : State} (h : IssueKept n s t) : getRegs t n = getRegs s n := by
  have hrun := runner_of_quads h.quads n
  unfold Machine.getRegs
  rw [hrun, h.core.regs]
  split
  · rfl
  · next hne => rw [h.others _ hne]

@[simp] theorem regRead_setPc (r : RegFile) (sh : Shuttle) (v : Word) (sp : Nat) : regRead (setPc r sh v) sp = regRead r sp := by
  cases sh <;> rfl

/-- What an instruction that has issued leaves, from what its effect leaves. -/
theorem issueFrame_issued {a : At} {act : Action} (hc : a.c = getCore a.s a.n) (hr : a.r = getRegs a.s a.n)
    (h : IssueKept a.n a.s act.eff) : issueFrame a (issued a act) := by
  have hu := h.occupy act true
  obtain ⟨⟨hstate, hothers⟩, hregs, -, -, hcore⟩ := issueAdvances (occupy act.eff a act true) a act.jump
  have hn := hcore a.n
  rw [issueFrame, issued, hn, hregs, hc, hr]
  refine ⟨hu.core.store, hu.core.tun, hu.core.desc, hu.core.sems, hu.core.queues, fun sp => ?_, fun m hm hrun => ?_, ?_,
    fun hroom => ?_⟩
  · rw [regRead_setPc, hu.getRegs]
  · rw [hothers m (by rw [runner_of_quads hu.quads]; simp [hm, hrun]), hu.others m hm]
  · rw [hstate]; exact hu.lpddr
  · rw [hstate]; exact hu.hbm hroom

/-! ### What an issued instruction puts in its core -/

section Issued
variable (a : At) (act : Action)

/-- An issued instruction's core, but for registers, shuttles and engine times, is what its effect leaves. -/
theorem getCore_issued : getCore (issued a act) a.n = { getCore act.eff a.n with
    regs := (getCore (issued a act) a.n).regs, spare := (getCore (issued a act) a.n).spare
    f := (getCore (issued a act) a.n).f, b := (getCore (issued a act) a.n).b, u := (getCore (issued a act) a.n).u
    beamT := (getCore (issued a act) a.n).beamT, heddleT := (getCore (issued a act) a.n).heddleT
    vecT := (getCore (issued a act) a.n).vecT, sfuT := (getCore (issued a act) a.n).sfuT } := by
  obtain ⟨-, -, -, -, hcore⟩ := issueAdvances (occupy act.eff a act true) a act.jump
  have hocc : getCore (occupy act.eff a act true) a.n = { getCore act.eff a.n with
      beamT := (getCore (occupy act.eff a act true) a.n).beamT
      heddleT := (getCore (occupy act.eff a act true) a.n).heddleT
      vecT := (getCore (occupy act.eff a act true) a.n).vecT, sfuT := (getCore (occupy act.eff a act true) a.n).sfuT } := by
    unfold occupy
    split
    · next u _ =>
      rw [getCore_modCore_same]
      unfold useEngine setEng
      cases u.eng <;> rfl
    · rfl
  rw [issued, hcore a.n, hocc]

theorem issued_flight : (getCore (issued a act) a.n).flight = (getCore act.eff a.n).flight := by rw [getCore_issued]
theorem issued_beam : (getCore (issued a act) a.n).beam = (getCore act.eff a.n).beam := by rw [getCore_issued]
theorem issued_heddle : (getCore (issued a act) a.n).heddle = (getCore act.eff a.n).heddle := by rw [getCore_issued]
theorem issued_pass : (getCore (issued a act) a.n).pass = (getCore act.eff a.n).pass := by rw [getCore_issued]

/-- The engine that an instruction uses is occupied from its issue on, which nothing else did beyond it. -/
theorem issued_occupied {u : EngUse} (hu : act.eng = some u) (hfree : engConds a.c a.sh u = [])
    (hsame : (engTime (getCore act.eff a.n) u.eng).occupied = (engTime a.c u.eng).occupied)
    (hcycle : (getCore act.eff a.n).cycle = a.c.cycle) :
    (engTime (getCore (issued a act) a.n) u.eng).occupied = a.c.cycle + u.occ := by
  obtain ⟨-, -, -, -, hcore⟩ := issueAdvances (occupy act.eff a act true) a act.jump
  have htime : engTime (getCore (issued a act) a.n) u.eng = engTime (getCore (occupy act.eff a act true) a.n) u.eng := by
    rw [issued, hcore a.n]
    cases u.eng <;> rfl
  have hle : (engTime a.c u.eng).occupied ≤ a.c.cycle := by
    by_contra hlt
    have : decide (a.c.cycle < (engTime a.c u.eng).occupied) = true := decide_eq_true (Nat.not_le.mp hlt)
    simp [engConds, cond, this] at hfree
  rw [htime, getCore_occupy hu, useEngine_occupied, hsame, hcycle]
  omega

theorem landsIn_issued {lat : Nat} {e : Effect} {f : Flight} (hf : (getCore act.eff a.n).flight = a.c.flight ++ [f])
    (hdue : f.due = a.c.cycle + lat) (hsh : f.sh = a.sh) (he : f.effect = e) : landsIn a (issued a act) lat e :=
  ⟨f, (issued_flight a act).trans hf, hdue, hsh, he⟩

end Issued

/-- A store that is sent is the newest result in flight. -/
theorem pushStore_flight {s : State} {a : At} (lat : Nat) (verdict : Option Nat) (e : Effect) :
    ∃ f, (getCore (pushStore s a lat verdict e) a.n).flight = (getCore s a.n).flight ++ [f] ∧
      f.due = (getCore s a.n).cycle + lat ∧ f.sh = a.sh ∧ f.effect = e := by
  have hk := EffKept.newAccess s a.n a.sh 0 .store false false []
  have hflight : (getCore (newAccess s a.n a.sh 0 .store false false []).1 a.n).flight = (getCore s a.n).flight := by
    unfold newAccess
    rw [getCore_setCore_same]
    exact modSh_flight ..
  unfold pushStore
  rw [getCore_push_same]
  exact ⟨_, congrArg (· ++ _) hflight, congrArg (· + lat) hk.core.cycle, rfl, rfl⟩

/-! ### Physics that upsets nothing -/

theorem readStore_none {a : At} (h : a.ups = Upsets.none) (units : List Nat) : readStore a units = a.s :=
  readStore_clean (by rw [h]; rfl) (by rw [h]; rfl)

theorem failuresOf_none {a : At} (h : a.ups = Upsets.none) (e : Engine) (m last : Nat)
    (want : Detection → Option Nat) : failuresOf a e m last want = [] := by
  rw [failuresOf, h]
  rfl

@[simp] theorem detections_nil (s : State) (n : Nat) : detections s n [] = s := rfl
@[simp] theorem detectSet_nil (x : AccSet) : detectSet [] x = x := rfl

end Sys2Proof.Machine
end

section
/-! The beam engine (R222 to R246, R390 to R392): the lanes of a pass, BEAM.ZERO and BEAM.SCORE. -/

namespace Sys2Proof.Machine

/-! ### Lanes after a pass -/

/-- A lane with its terms added in their order (R230, R242). -/
def addLane (l : Lane) (ts : List Exact) : Lane := ts.foldl (fun l x => laneAdd l (laneTerm x)) l

/-- The lanes after the terms of some columns of a row. -/
def addRow (terms : Nat → Nat → List Exact) (m : Nat) (ns : List Nat) (t : Tbl Lane) : Tbl Lane :=
  ns.foldl (fun t n => tset {} t (128 * m + n) (addLane (tget {} t (128 * m + n)) (terms m n))) t

theorem addTerms_eq (base : AccSet) (mm nn : Nat) (terms : Nat → Nat → List Exact) :
    addTerms base mm nn terms = (List.range mm).foldl (fun t m => addRow terms m (List.range nn) t) base.lanes := rfl

theorem addRow_other {terms : Nat → Nat → List Exact} {m j : Nat} {ns : List Nat} (h : ∀ n ∈ ns, j ≠ 128 * m + n)
    (t : Tbl Lane) : tget {} (addRow terms m ns t) j = tget {} t j := by
  unfold addRow
  induction ns generalizing t with
  | nil => rfl
  | cons n ns ih =>
    rw [List.foldl_cons, ih (fun k hk => h k (List.mem_cons_of_mem n hk)), tget_tset_other _ _ _ (h n List.mem_cons_self)]

theorem addRow_same {terms : Nat → Nat → List Exact} {m n : Nat} {ns : List Nat} (hn : n ∈ ns) (hd : ns.Nodup)
    (t : Tbl Lane) : tget {} (addRow terms m ns t) (128 * m + n) = addLane (tget {} t (128 * m + n)) (terms m n) := by
  induction ns generalizing t with
  | nil => cases hn
  | cons k ns ih =>
    obtain ⟨hk, hd⟩ := List.nodup_cons.mp hd
    show tget {} (addRow terms m ns (tset {} t (128 * m + k) _)) _ = _
    by_cases h : n = k
    · subst h
      rw [addRow_other (fun x hx hne => hk (by rwa [Nat.add_left_cancel hne])), tget_tset_same]
    · rw [ih ((List.mem_cons.mp hn).resolve_left h) hd, tget_tset_other _ _ _ (by omega)]

/-- The lanes after the terms of some rows of at most 128 columns. -/
theorem addRows_other {terms : Nat → Nat → List Exact} {nn m n : Nat} (hnn : nn ≤ 128) (hn : n < 128) {ms : List Nat}
    (hm : m ∉ ms) (t : Tbl Lane) :
    tget {} (ms.foldl (fun t m => addRow terms m (List.range nn) t) t) (128 * m + n) = tget {} t (128 * m + n) := by
  induction ms generalizing t with
  | nil => rfl
  | cons k ms ih =>
    have hk : m ≠ k := fun h => hm (h ▸ List.mem_cons_self)
    replace hm : m ∉ ms := fun h => hm (List.mem_cons_of_mem k h)
    rw [List.foldl_cons, ih hm]
    refine addRow_other (fun x hx hne => hk ?_) t
    have := List.mem_range.mp hx
    omega

/-- Lane (m, n) of a pass over a tile of at most 128 columns. -/
theorem tget_addTerms {base : AccSet} {mm nn m n : Nat} {terms : Nat → Nat → List Exact} (hnn : nn ≤ 128) (hm : m < mm)
    (hn : n < nn) : tget {} (addTerms base mm nn terms) (128 * m + n) = addLane (tget {} base.lanes (128 * m + n)) (terms m n) := by
  rw [addTerms_eq]
  have hrow : ∀ (ms : List Nat) (t : Tbl Lane), m ∈ ms → ms.Nodup →
      tget {} (ms.foldl (fun t m => addRow terms m (List.range nn) t) t) (128 * m + n) =
        addLane (tget {} t (128 * m + n)) (terms m n) := by
    intro ms
    induction ms with
    | nil => exact fun _ h => absurd h List.not_mem_nil
    | cons k ms ih =>
      intro t hmem hd
      obtain ⟨hk, hd⟩ := List.nodup_cons.mp hd
      rw [List.foldl_cons]
      by_cases h : m = k
      · subst h
        rw [addRows_other hnn (by omega) hk, addRow_same (List.mem_range.mpr hn) List.nodup_range]
      · rw [ih _ ((List.mem_cons.mp hmem).resolve_left h) hd]
        rw [addRow_other (fun x hx hne => ?_)]
        have := List.mem_range.mp hx
        omega
  exact hrow _ _ (List.mem_range.mpr hm) List.nodup_range

/-! ### Operands of a pass -/

theorem cond_eq_nil_iff {b : Bool} {k d : Nat} : cond b k d = [] ↔ b = false := by
  cases b <;> simp [cond]

theorem entryOf_of_need {a : At} {k off : Nat} (h : needEntry a k off = []) : entryOf a k = some (entryD a k) := by
  have hsome := cond_eq_nil_iff.mp h
  unfold entryD
  cases he : entryOf a k with
  | none => rw [he] at hsome; cases hsome
  | some d => rfl

theorem passN_le_of_clean {w : InstrWord} {da db : Image} (h : beamPairConds w da db = []) : passN w db ≤ 128 := by
  simp only [beamPairConds, List.append_eq_nil_iff, cond_eq_nil_iff, Bool.or_eq_false_iff, decide_eq_false_iff_not] at h
  obtain ⟨⟨-, ⟨-, hn⟩, -⟩, -⟩ := h
  omega

/-- The lanes of a beam pass (R230, R239 to R243). -/
theorem lane_beamSet {a : At} {da db dx : Image} {chk : Chk} {m n : Nat} (hnn : passN a.w db ≤ 128)
    (hm : m < passM a.w da) (hn : n < passN a.w db) :
    tget {} (beamSet a da db dx chk).lanes (128 * m + n) =
      ((kOrder a.c.store a.w dx (passKA a.w da)).map (fun k => beamProduct a.c.store a.w da db dx m n k)).foldl
        (fun l x => laneAdd l (laneTerm x))
        (tget {} (if mStart a.w = true then ({} : AccSet) else accNow a.c.beam).lanes (128 * m + n)) :=
  tget_addTerms hnn hm hn

/-! ### The three instructions -/

/-- The set that BEAM.MM leaves where physics upsets nothing. -/
def beamOut (a : At) : AccSet :=
  let da := entryD a (tDA a.w)
  let db := entryD a (tDB a.w)
  let dx := entryD a (tDX a.w)
  beamSet a da db dx (operandsChk a.s a.n (passOperands a.w da db dx))

/-- The cycles after which a beam pass is visible (R228, R229). -/
def beamLat (a : At) : Nat := beamOcc a.w (entryD a (tDA a.w)) (entryD a (tDB a.w)) + latency a.p 24 20

theorem actBeamMm_eff {a : At} (hups : a.ups = Upsets.none) : (actBeamMm a).eff = modCore a.s a.n (fun c =>
    { c with beam := pushAcc c.beam (c.cycle + beamLat a) (beamOut a) (decide (longTerms < (beamOut a).terms))
                       (anyNonfin (beamOut a)) false }) := by
  unfold actBeamMm
  dsimp only
  rw [readStore_none hups, failuresOf_none hups]
  rfl

theorem actBeamZero_eff (a : At) : (actBeamZero a).eff = modCore a.s a.n (fun c =>
    { c with beam := pushAcc c.beam (c.cycle + 1 + latency a.p 24 20) {} false false false }) := rfl

/-- What BEAM.SCORE stores: the magnitude of each lane of the tile inside DO's valid extent (R391). -/
def scorePokes (a : At) (lanes : Tbl Lane) : List Poke :=
  let d := entryD a (tDO a.w)
  let dx := entryD a (tDX a.w)
  let tr := wrapIndex (readIndex a.c.store dx 0) ((dSize d 1 + 127) / 128)
  let tc := wrapIndex (readIndex a.c.store dx 1) ((dSize d 0 + 127) / 128)
  (boxOf [passN a.w (entryD a (tDB a.w)), passM a.w (entryD a (tDA a.w))]).filterMap (fun ix => match ix with
    | [n, m] =>
      let pos := [128 * tc + n, 128 * tr + m]
      if inValid d 0 pos then some (elemBit d pos, 32, (scoreWord (tget {} lanes (128 * m + n))).toNat) else none
    | _ => none)

/-- The set whose magnitudes BEAM.SCORE stores. -/
def scoreSet (a : At) : AccSet :=
  let da := entryD a (tDA a.w)
  let db := entryD a (tDB a.w)
  beamSet a da db 0 (operandsChk a.s a.n [da, db, entryD a (tDX a.w)])

/-- The cycles of a BEAM.SCORE in the drain buffer (R392). -/
def scoreBuf (a : At) : Nat :=
  ceilDiv (4 * passM a.w (entryD a (tDA a.w)) * passN a.w (entryD a (tDB a.w))) 192

theorem actBeamScore_eff {a : At} (hups : a.ups = Upsets.none) : (actBeamScore a).eff =
    modCore (pushStore a.s a (beamLat a + scoreBuf a) none (.store (scorePokes a (scoreSet a).lanes) (scoreSet a).chk)) a.n
      (fun c => { c with
        beam := pushAcc c.beam (c.cycle + beamLat a) {} (decide (longTerms < (scoreSet a).terms)) (anyNonfin (scoreSet a)) false
        beamT := fillBuffer c.cycle c.beamT (c.cycle + beamLat a) (c.cycle + beamLat a + scoreBuf a) }) := by
  unfold actBeamScore
  dsimp only
  rw [readStore_none hups, failuresOf_none hups]
  rfl

theorem mem_scorePokes {a : At} {lanes : Tbl Lane} {m n : Nat} (hm : m < passM a.w (entryD a (tDA a.w)))
    (hn : n < passN a.w (entryD a (tDB a.w))) :
    let d := entryD a (tDO a.w)
    let dx := entryD a (tDX a.w)
    let pos := [128 * wrapIndex (readIndex a.c.store dx 1) ((dSize d 0 + 127) / 128) + n,
                128 * wrapIndex (readIndex a.c.store dx 0) ((dSize d 1 + 127) / 128) + m]
    inValid d 0 pos = true →
      (elemBit d pos, 32, (scoreWord (tget {} lanes (128 * m + n))).toNat) ∈ scorePokes a lanes := by
  intro d dx pos hpos
  refine List.mem_filterMap.mpr ⟨[n, m], ?_, if_pos hpos⟩
  simp [boxOf, hm, hn]

theorem pushStore_beam (s : State) (a : At) (lat : Nat) (verdict : Option Nat) (e : Effect) :
    (getCore (pushStore s a lat verdict e) a.n).beam = (getCore s a.n).beam := by
  unfold pushStore newAccess
  rw [getCore_push_same, getCore_setCore_same]
  exact modSh_beam ..

section Passes
variable {i : Issue} {s : State} {a : At}

theorem beamMm_passN (hchk : (actBeamMm a).chk = []) : passN a.w (entryD a (tDB a.w)) ≤ 128 := by
  unfold actBeamMm at hchk
  simp only [List.append_eq_nil_iff] at hchk
  obtain ⟨⟨hda, hdb⟩, hpair⟩ := hchk
  rw [onEntry_of_some _ (entryOf_of_need hda), onEntry_of_some _ (entryOf_of_need hdb)] at hpair
  simp only [List.append_eq_nil_iff] at hpair
  exact passN_le_of_clean hpair.1.1

theorem beamScore_passN (hchk : (actBeamScore a).chk = []) : passN a.w (entryD a (tDB a.w)) ≤ 128 := by
  unfold actBeamScore at hchk
  simp only [List.append_eq_nil_iff] at hchk
  obtain ⟨⟨⟨⟨⟨⟨hda, hdb⟩, -⟩, -⟩, hpair⟩, -⟩, -⟩ := hchk
  rw [onEntry_of_some _ (entryOf_of_need hda), onEntry_of_some _ (entryOf_of_need hdb)] at hpair
  simp only [List.append_eq_nil_iff] at hpair
  exact passN_le_of_clean hpair.1.1

theorem beamScore_start (henc : (actBeamScore a).enc = []) : mStart a.w = true := by
  unfold actBeamScore at henc
  simp only [List.append_eq_nil_iff, undefinedField, cond_eq_nil_iff, Bool.or_eq_false_iff, Bool.not_eq_false'] at henc
  obtain ⟨⟨⟨-, ⟨-, h⟩, -⟩, -⟩, -⟩ := henc
  exact h

end Passes

/-- Settles O37: each pass queues its set behind the engine's operations, and the engine is occupied. -/
theorem beamPasses : Obligations.BeamPasses := by
  intro i s a da db dx d occ lat lane start summed
  refine ⟨fun hr => ?mm, fun hr => ?zero, fun hr => ?score⟩
  case mm =>
    obtain ⟨hc, hregs, -, hchk, heng, hups⟩ := runs_spec hr
    have heff := actBeamMm_eff (a := a) hups
    have hkept : EffKept a.n a.s (actBeamMm a).eff := by
      rw [heff]
      exact .modCore ⟨rfl, rfl, rfl, rfl, rfl, rfl, rfl, rfl⟩
    have hcore := getCore_modCore_same a.s a.n (fun c => { c with
      beam := pushAcc c.beam (c.cycle + beamLat a) (beamOut a) (decide (longTerms < (beamOut a).terms))
        (anyNonfin (beamOut a)) false })
    rw [← heff, ← hc] at hcore
    refine ⟨_, { due := a.c.cycle + lat, set := beamOut a }, exec_runs (m := actBeamMm) rfl rfl hr,
      issueFrame_issued hc hregs hkept.issue, ?_, rfl, rfl, rfl, fun m n hm hn => lane_beamSet (beamMm_passN hchk) hm hn, ?_⟩
    · rw [issued_beam, hcore]
      rfl
    · exact issued_occupied a _ (u := { eng := .beam, occ := max 1 occ, busy := max 1 occ }) rfl (heng _ rfl)
        (by rw [hcore]; rfl) (by rw [hcore])
  case zero =>
    obtain ⟨hc, hregs, -, -, heng, -⟩ := runs_spec hr
    have heff := actBeamZero_eff a
    have hkept : EffKept a.n a.s (actBeamZero a).eff := by
      rw [heff]
      exact .modCore ⟨rfl, rfl, rfl, rfl, rfl, rfl, rfl, rfl⟩
    have hcore := getCore_modCore_same a.s a.n (fun c => { c with
      beam := pushAcc c.beam (c.cycle + 1 + latency a.p 24 20) {} false false false })
    rw [← heff, ← hc] at hcore
    refine ⟨_, { due := a.c.cycle + 1 + latency a.p 24 20, set := {} }, exec_runs (m := actBeamZero) rfl rfl hr,
      issueFrame_issued hc hregs hkept.issue, ?_, rfl, rfl, ?_⟩
    · rw [issued_beam, hcore]
      rfl
    · exact issued_occupied a _ (u := { eng := .beam, occ := 1, busy := 1 }) rfl (heng _ rfl) (by rw [hcore]; rfl)
        (by rw [hcore])
  case score =>
    obtain ⟨hc, hregs, henc, hchk, heng, hups⟩ := runs_spec hr
    have heff := actBeamScore_eff (a := a) hups
    let u := pushStore a.s a (beamLat a + scoreBuf a) none (.store (scorePokes a (scoreSet a).lanes) (scoreSet a).chk)
    have hu : EffKept a.n a.s u := .pushStore ..
    have hkept : EffKept a.n a.s (actBeamScore a).eff := by
      rw [heff]
      exact hu.trans (.modCore ⟨rfl, rfl, rfl, rfl, rfl, rfl, rfl, rfl⟩)
    obtain ⟨f, hflight, hdue, hsh, hf⟩ := pushStore_flight (s := a.s) (a := a) (beamLat a + scoreBuf a) none
      (.store (scorePokes a (scoreSet a).lanes) (scoreSet a).chk)
    have hbeam : (getCore u a.n).beam = a.c.beam := by
      rw [hc]
      exact pushStore_beam ..
    have hcycle : (getCore u a.n).cycle = a.c.cycle := by rw [hu.core.cycle, hc]
    rw [← hc] at hflight hdue
    refine ⟨_, { due := a.c.cycle + beamLat a, set := {} }, scorePokes a (scoreSet a).lanes, (scoreSet a).chk,
      exec_runs (m := actBeamScore) rfl rfl hr, issueFrame_issued hc hregs hkept.issue, ?_, rfl, ?_, fun m n hm hn => ?_⟩
    · rw [issued_beam, heff, getCore_modCore_same]
      dsimp only [pushAcc]
      rw [hbeam, hcycle]
    · refine landsIn_issued a _ (f := f) ?_ hdue hsh hf
      rw [heff, getCore_modCore_same]
      exact hflight
    · intro pos scored hpos
      have hlane := lane_beamSet (a := a) (dx := 0) (chk := operandsChk a.s a.n [da, db, dx]) (beamScore_passN hchk) hm hn
      rw [if_pos (beamScore_start henc)] at hlane
      have hmem := mem_scorePokes (lanes := (scoreSet a).lanes) hm hn hpos
      rw [scoreSet, hlane] at hmem
      exact hmem

end Sys2Proof.Machine
end

section
/-! Heddle passes (R337 to R375, R400): the pass in progress, its set behind the engine's operations, and the lanes of each
kind of pass. -/

namespace Sys2Proof.Machine

/-! ### What a pass does beside its set -/

/-- A core in which a pass's counters and its pick table have changed. -/
def sideCore (c d : Core) : Prop :=
  d = { c with counters := d.counters, pick0 := d.pick0, pick1 := d.pick1, victim := d.victim }

theorem sideCore.trans {c d e : Core} (h : sideCore c d) (k : sideCore d e) : sideCore c e := by
  unfold sideCore at *
  rw [k, h]

theorem sideCore.kept {c d : Core} (h : sideCore c d) : CoreKept c d := by
  rw [h]
  exact ⟨rfl, rfl, rfl, rfl, rfl, rfl, rfl, rfl⟩

/-- A state in which a pass's counters and its pick table have changed. -/
def sideWork (n : Nat) (s t : State) : Prop := sideCore (getCore s n) (getCore t n) ∧ EffKept n s t

theorem sideWork.refl (n : Nat) (s : State) : sideWork n s s := ⟨rfl, .refl n s⟩

theorem sideWork.trans {n : Nat} {s t u : State} (h : sideWork n s t) (k : sideWork n t u) : sideWork n s u :=
  ⟨h.1.trans k.1, h.2.trans k.2⟩

theorem sideWork.modCore {n : Nat} {s : State} {g : Core → Core} (h : sideCore (getCore s n) (g (getCore s n))) :
    sideWork n s (modCore s n g) := ⟨by rw [getCore_modCore_same]; exact h, .modCore h.kept⟩

theorem sideWork_bumpCore (s : State) (n off k : Nat) : sideWork n s (bumpCore s n off k) := .modCore rfl

theorem sideWork_countChunks (s : State) (n chunks victims serial : Nat) :
    sideWork n s (countChunks s n chunks victims serial) := by
  have hbump (b : Prop) [Decidable b] (s : State) (off k : Nat) : sideWork n s (if b then bumpCore s n off k else s) := by
    split
    · exact sideWork_bumpCore ..
    · exact .refl n s
  exact .trans (.trans (hbump ..) (hbump ..)) (hbump ..)

theorem getCore_reported (s : State) (r : RecIn) (low k m : Nat) :
    getCore (partVector (record s r) low k) m = getCore s m := by
  rw [getCore, partVector, raiseVector_cores, record_cores, ← getCore]

/-- A record with its vector leaves what an instruction leaves. -/
theorem IssueKept.reported {n : Nat} {s t : State} (h : EffKept n s t) (he : t.errors = s.errors) (r : RecIn) (low k : Nat) :
    IssueKept n s (partVector (record t r) low k) := by
  have hnoted : noted t (partVector (record t r) low k) := noted_trans (noted_record ..) (noted_raiseVector ..)
  refine ⟨?_, fun m hm => ?_, (noted_quads hnoted).trans h.quads, (noted_lpddr hnoted).trans h.lpddr, fun hroom => ?_⟩
  · rw [getCore_reported]
    exact h.core
  · rw [getCore_reported]
    exact h.others m hm
  · have hvector : (partVector (record t r) low k).hbm = (record t r).hbm := by rw [partVector, raiseVector_frame]
    rw [hvector, record_hbm_of_room r (by rw [he]; omega), h.hbm]

/-- Regions ahead of G are counted and recorded, and nothing else changes (R400). -/
theorem noteAhead_kept (a : At) (s : State) (ds : List Image) :
    IssueKept a.n s (noteAhead s a ds) ∧ sideCore (getCore s a.n) (getCore (noteAhead s a ds) a.n) := by
  unfold noteAhead
  dsimp only
  split
  · exact ⟨(EffKept.refl a.n s).issue, rfl⟩
  · obtain ⟨hcore, hkept⟩ := sideWork_bumpCore s a.n ctrMaskAhead 1
    refine ⟨.reported hkept rfl .., ?_⟩
    rw [getCore_reported]
    exact hcore

/-! ### The set that a pass queues -/

theorem finishHeddle_none {a : At} (h : a.ups = Upsets.none) (s : State) (x : AccSet) (checks : PassChecks) (work : Nat)
    (parity : Bool) : finishHeddle s a x checks work parity = modCore s a.n (fun c => { c with
      heddle := pushAcc c.heddle (c.cycle + hBudget a.w + latency a.p 40 32) x (decide (longTerms < x.terms))
                  (anyNonfin x) false }) := by
  have hparity : a.ups.parity = [] := by rw [h]; rfl
  unfold finishHeddle
  dsimp only
  rw [failuresOf_none h]
  unfold parityErrors
  rw [hparity]
  cases parity <;> rfl

theorem startPass_kept (c : Core) (budget work : Nat) (failed : Bool) : CoreKept c (startPass c budget work failed) := by
  have hfin : CoreKept c (finishPass c) := by
    unfold finishPass
    split
    · split
      · exact ⟨rfl, rfl, rfl, rfl, rfl, rfl, rfl, rfl⟩
      · exact .refl c
    · exact .refl c
  exact hfin.trans ⟨rfl, rfl, rfl, rfl, rfl, rfl, rfl, rfl⟩

theorem startPass_heddle (c : Core) (budget work : Nat) (failed : Bool) :
    (startPass c budget work failed).heddle = c.heddle ∧ (startPass c budget work failed).heddleT = c.heddleT := by
  unfold startPass finishPass
  split
  · split <;> exact ⟨rfl, rfl⟩
  · exact ⟨rfl, rfl⟩

/-- What every pass on sound regions does: its set is queued, it is the pass in progress, and the heddle is occupied for its
budget (R357, R364). -/
theorem heddlePass_spec {a : At} {act : Action} {ds : List Image} {u : State} {x : AccSet} {checks : PassChecks} {work : Nat}
    {parity : Bool} (hc : a.c = getCore a.s a.n) (hregs : a.r = getRegs a.s a.n) (hups : a.ups = Upsets.none)
    (heng : act.eng = some (heddleUse (hBudget a.w) work)) (hfree : engConds a.c a.sh (heddleUse (hBudget a.w) work) = [])
    (hu : sideWork a.n (modCore (noteAhead a.s a ds) a.n (fun c => startPass c (hBudget a.w) work false)) u)
    (heff : act.eff = finishHeddle u a x checks work parity) :
    (getCore (issued a act) a.n).heddle.later =
      a.c.heddle.later ++ [{ due := a.c.cycle + hBudget a.w + latency a.p 40 32, set := x }] ∧
    (getCore (issued a act) a.n).heddleT.occupied = a.c.cycle + hBudget a.w ∧
    (∃ p, (getCore (issued a act) a.n).pass = some p ∧ p.issued = a.c.cycle ∧ p.budget = hBudget a.w ∧ p.failed = false) ∧
    issueFrame a (issued a act) := by
  obtain ⟨hahead, hside⟩ := noteAhead_kept a a.s ds
  obtain ⟨hucore, hukept⟩ := hu
  rw [← hc] at hside
  rw [getCore_modCore_same] at hucore
  let b := getCore (noteAhead a.s a ds) a.n
  have hb : sideCore a.c b := hside
  obtain ⟨hheddle, htime⟩ := startPass_heddle b (hBudget a.w) work false
  have hcycle : (startPass b (hBudget a.w) work false).cycle = a.c.cycle :=
    (startPass_kept ..).cycle.trans (by rw [hb])
  have hpass : ∃ p, (startPass b (hBudget a.w) work false).pass = some p ∧ p.issued = a.c.cycle ∧
      p.budget = hBudget a.w ∧ p.failed = false := ⟨_, rfl, hcycle, rfl, rfl⟩
  have hcore : getCore act.eff a.n = { getCore u a.n with
      heddle := pushAcc (getCore u a.n).heddle ((getCore u a.n).cycle + hBudget a.w + latency a.p 40 32) x
                  (decide (longTerms < x.terms)) (anyNonfin x) false } := by
    rw [heff, finishHeddle_none hups, getCore_modCore_same]
  have hkept : IssueKept a.n a.s act.eff := by
    rw [heff, finishHeddle_none hups]
    exact ((hahead.then (.modCore (startPass_kept ..))).then hukept).then
      (.modCore ⟨rfl, rfl, rfl, rfl, rfl, rfl, rfl, rfl⟩)
  refine ⟨?_, ?_, ?_, issueFrame_issued hc hregs hkept⟩
  · rw [issued_heddle, hcore, hucore]
    dsimp only [pushAcc]
    rw [hheddle, hcycle, hb]
  · exact issued_occupied a act heng hfree (by rw [hcore, hucore]; exact (congrArg EngineTime.occupied htime).trans (by rw [hb]; rfl))
      (by rw [hcore, hucore]; exact hcycle)
  · rw [issued_pass, hcore, hucore]
    exact hpass

/-! ### HEDDLE.SPMM -/

/-- The chunks of an SPMM's stored positions (R353). -/
def spmmChunking (a : At) : Chunking := spmmChunks (spmmPositions a.c.store a.w (entryD a (tDA a.w)))

/-- The pick table that a TA = 1 pass leaves, and its counters (R356). -/
def spmmPick (a : At) (s : State) : State :=
  if usesPick a.w (entryD a (tDA a.w)) then
    countChunks (modCore s a.n (fun c => { c with
        pick0 := (spmmChunking a).cur.b0, pick1 := (spmmChunking a).cur.b1, victim := (spmmChunking a).cur.vic }))
      a.n (spmmChunking a).done.length (spmmChunking a).victims (spmmChunking a).serial.length
  else s

theorem sideWork_spmmPick (a : At) (s : State) : sideWork a.n s (spmmPick a s) := by
  unfold spmmPick
  split
  · refine .trans (.modCore ?_) (sideWork_countChunks ..)
    rfl
  · exact .refl ..

/-- The set that an SPMM without skipping leaves (R342, R346). -/
def spmmSet (a : At) : AccSet :=
  let da := entryD a (tDA a.w)
  let db := entryD a (tDB a.w)
  passSet (accNow a.c.heddle) (mStart a.w) (passM a.w da) (passN a.w db) (passKA a.w da) false false
    (joinChk (unitsChk (getCore a.s a.n).storeChk (regionUnits a.c.store da)) (operandsChk a.s a.n [db]))
    (fun m n => spmmTerms a.c.store a.w db (passKA a.w da) (spmmPositions a.c.store a.w da) m n)

theorem actSpmm_eff {a : At} (hups : a.ups = Upsets.none) (hskip : mSkip a.w = false)
    (hmeta : operandMeta a.c.store [(0, entryD a (tDA a.w))] = none) : ∃ checks work,
    (actSpmm a).eng = some (heddleUse (hBudget a.w) work) ∧
    (actSpmm a).eff = finishHeddle (spmmPick a (modCore (noteAhead a.s a [entryD a (tDA a.w)]) a.n
      (fun c => startPass c (hBudget a.w) work false))) a (spmmSet a) checks work (usesPick a.w (entryD a (tDA a.w))) := by
  unfold actSpmm
  dsimp only
  rw [hmeta, readStore_none hups, hskip]
  simp only [spmmSkips, hskip, Bool.false_and, Bool.not_false, if_true, Bool.false_eq_true, if_false, List.getD_nil,
    List.foldl_fixed]
  exact ⟨_, _, rfl, rfl⟩

theorem passN_le_of_shape {w : InstrWord} {da db : Image} (h : heddleShape w da db = []) : passN w db ≤ 128 := by
  simp only [heddleShape, List.append_eq_nil_iff, cond_eq_nil_iff, Bool.or_eq_false_iff, decide_eq_false_iff_not] at h
  obtain ⟨-, ⟨-, hn⟩, -⟩ := h
  omega

theorem spmm_passN {a : At} (hchk : (actSpmm a).chk = []) : passN a.w (entryD a (tDB a.w)) ≤ 128 := by
  unfold actSpmm at hchk
  simp only [List.append_eq_nil_iff] at hchk
  obtain ⟨⟨⟨hda, hdb⟩, -⟩, hpair⟩ := hchk
  rw [onEntry_of_some _ (entryOf_of_need hda), onEntry_of_some _ (entryOf_of_need hdb)] at hpair
  simp only [List.append_eq_nil_iff] at hpair
  obtain ⟨⟨⟨⟨⟨-, hshape⟩, -⟩, -⟩, -⟩, -⟩ := hpair
  exact passN_le_of_shape hshape

/-! ### HEDDLE.SDDMM -/

/-- Lanes from a list of numbered positions, each lane's terms added to it. -/
def numberedLanes (terms : Stored → List Exact) (ps : List (Stored × Nat)) (t : Tbl Lane) : Tbl Lane :=
  ps.foldl (fun t x => tset {} t x.2 (addLane (tget {} t x.2) (terms x.1))) t

theorem numberedLanes_other {terms : Stored → List Exact} {ps : List (Stored × Nat)} {j : Nat} (h : ∀ x ∈ ps, j ≠ x.2)
    (t : Tbl Lane) : tget {} (numberedLanes terms ps t) j = tget {} t j := by
  unfold numberedLanes
  induction ps generalizing t with
  | nil => rfl
  | cons x ps ih =>
    rw [List.foldl_cons, ih (fun y hy => h y (List.mem_cons_of_mem x hy)), tget_tset_other _ _ _ (h x List.mem_cons_self)]

/-- The i-th stored position's terms are in lane i (R347). -/
theorem tget_numberedLanes {terms : Stored → List Exact} {ps : List Stored} {k j : Nat} {y : Stored} (hy : ps[j]? = some y)
    (t : Tbl Lane) :
    tget {} (numberedLanes terms (ps.zipIdx k) t) (k + j) = addLane (tget {} t (k + j)) (terms y) := by
  induction ps generalizing k j t with
  | nil => cases hy
  | cons x ps ih =>
    rw [List.zipIdx_cons]
    show tget {} (numberedLanes terms (ps.zipIdx (k + 1)) (tset {} t k (addLane (tget {} t k) (terms x)))) _ = _
    cases j with
    | zero =>
      cases hy
      rw [numberedLanes_other (fun z hz hne => ?_), Nat.add_zero, tget_tset_same]
      have := (List.mem_zipIdx hz).1
      omega
    | succ j =>
      rw [show k + (j + 1) = (k + 1) + j by omega, ih hy, tget_tset_other _ _ _ (by omega)]

/-- The lanes that a starting SDDMM leaves (R347). -/
def sddmmLanes (a : At) : Tbl Lane :=
  let da := entryD a (tDA a.w)
  numberedLanes (fun x => sddmmTerms a.c.store a.w da (entryD a (tDB a.w)) (passKA a.w da) x.row x.col)
    (storedOf a.c.store (entryD a (tDX a.w))).zipIdx []

/-- The check state of an SDDMM's operands (R560). -/
def sddmmChk (a : At) : Chk :=
  joinChk (unitsChk (getCore a.s a.n).storeChk (regionUnits a.c.store (entryD a (tDX a.w))))
    (operandsChk a.s a.n [entryD a (tDA a.w), entryD a (tDB a.w)])

/-- The set that a starting SDDMM leaves (R347). -/
def sddmmSet (a : At) : AccSet :=
  { passSet { ({} : AccSet) with lanes := sddmmLanes a } false 0 0 (passKA a.w (entryD a (tDA a.w))) true false (sddmmChk a)
      (fun _ _ => []) with
    shape := some (max 1 (ceilDiv (storedOf a.c.store (entryD a (tDX a.w))).length 128), 128) }

theorem actSddmm_eff {a : At} (hups : a.ups = Upsets.none) (hstart : mStart a.w = true)
    (hmeta : operandMeta a.c.store [(2, entryD a (tDX a.w))] = none) : ∃ checks work,
    (actSddmm a).eng = some (heddleUse (hBudget a.w) work) ∧
    (actSddmm a).eff = finishHeddle (modCore (noteAhead a.s a [entryD a (tDX a.w)]) a.n
      (fun c => startPass c (hBudget a.w) work false)) a (sddmmSet a) checks work false := by
  unfold actSddmm
  dsimp only
  rw [hmeta, readStore_none hups, hstart]
  exact ⟨_, _, rfl, rfl⟩

/-! ### HEDDLE.SPSP -/

/-- The matched pairs of a lane, in the order of DA's keys (R348). -/
def spspTerms (ea eb : List (Nat × Nat × Exact)) (m n : Nat) : List Exact :=
  (distinctKeys ea).flatMap (fun key => (ea.filter (fun x => x.1 == key && x.2.1 == m)).flatMap (fun x =>
    (eb.filter (fun y => y.1 == key && y.2.1 == n)).map (fun y => mulE x.2.2 y.2.2)))

/-- The set that an SPSP leaves. -/
def spspSet (a : At) : AccSet :=
  let da := entryD a (tDA a.w)
  let db := entryD a (tDB a.w)
  let st := a.c.store
  passSet (accNow a.c.heddle) (mStart a.w) (passM a.w da) (passN a.w db) (passKA a.w da) false false
    (joinChk (unitsChk (getCore a.s a.n).storeChk (regionUnits st da)) (unitsChk (getCore a.s a.n).storeChk (regionUnits st db)))
    (spspTerms (pairEntries st da) (pairEntries st db))

/-- The factors of a lane, one pair per term, have the products as their terms. -/
theorem termsOf_pairs (ea eb : List (Nat × Nat × Exact)) (m n : Nat) :
    termsOf ((distinctKeys ea).flatMap (fun key => (ea.filter (fun x => x.1 == key && x.2.1 == m)).flatMap (fun x =>
      (eb.filter (fun y => y.1 == key && y.2.1 == n)).map (fun y => [(x.2.2, y.2.2)])))) = spspTerms ea eb m n := by
  simp only [termsOf, spspTerms, List.map_flatMap, List.map_map]
  rfl

theorem actSpsp_eff {a : At} (hups : a.ups = Upsets.none)
    (hmeta : operandMeta a.c.store [(0, entryD a (tDA a.w)), (1, entryD a (tDB a.w))] = none) :
    ∃ checks work u, (actSpsp a).eng = some (heddleUse (hBudget a.w) work) ∧
      sideWork a.n (modCore (noteAhead a.s a [entryD a (tDA a.w), entryD a (tDB a.w)]) a.n
        (fun c => startPass c (hBudget a.w) work false)) u ∧
      (actSpsp a).eff = finishHeddle u a (spspSet a) checks work true := by
  unfold actSpsp
  dsimp only
  rw [hmeta, readStore_none hups]
  simp only [termsOf_pairs]
  refine ⟨_, _, _, rfl, ?_, rfl⟩
  refine .trans (.modCore ?_) (sideWork_countChunks ..)
  rfl

theorem spsp_passN {a : At} (hchk : (actSpsp a).chk = []) : passN a.w (entryD a (tDB a.w)) ≤ 128 := by
  unfold actSpsp at hchk
  simp only [List.append_eq_nil_iff] at hchk
  obtain ⟨⟨hda, hdb⟩, hpair⟩ := hchk
  rw [onEntry_of_some _ (entryOf_of_need hda), onEntry_of_some _ (entryOf_of_need hdb)] at hpair
  simp only [List.append_eq_nil_iff] at hpair
  obtain ⟨⟨⟨⟨-, hshape⟩, -⟩, -⟩, -⟩ := hpair
  exact passN_le_of_shape hshape

/-! ### Settling the passes -/

theorem actHeddleZero_eff (a : At) : (actHeddleZero a).eff = modCore a.s a.n (fun c =>
    { c with heddle := pushAcc c.heddle (c.cycle + 1 + latency a.p 40 32) {} false false false }) := rfl

/-- Settles O38: each pass on sound regions queues its set, and its lanes are those of its kind. -/
theorem heddlePasses : Obligations.HeddlePasses := by
  intro i s a st da db dx k lane start grown done
  refine ⟨fun hr hmeta hskip => ?spmm, ?sddmm, ?spsp, fun hr => ?zero⟩
  case spmm =>
    obtain ⟨hc, hregs, -, hchk, heng, hups⟩ := runs_spec hr
    obtain ⟨checks, work, hengine, heff⟩ := actSpmm_eff hups hskip hmeta
    obtain ⟨hlater, hocc, hpass, hframe⟩ := heddlePass_spec hc hregs hups hengine (heng _ hengine)
      (sideWork_spmmPick ..) heff
    exact ⟨_, _, exec_runs (m := actSpmm) rfl rfl hr, ⟨hlater, rfl, rfl, hocc, hpass, hframe⟩, rfl,
      fun m n hm hn => tget_addTerms (spmm_passN hchk) hm hn⟩
  case sddmm =>
    intro hr hmeta hstart ps
    obtain ⟨hc, hregs, -, -, heng, hups⟩ := runs_spec hr
    obtain ⟨checks, work, hengine, heff⟩ := actSddmm_eff hups hstart hmeta
    obtain ⟨hlater, hocc, hpass, hframe⟩ := heddlePass_spec hc hregs hups hengine (heng _ hengine) (.refl ..) heff
    have hempty : start = {} := if_pos hstart
    refine ⟨_, _, exec_runs (m := actSddmm) rfl rfl hr, ⟨hlater, rfl, by rw [hempty]; rfl, hocc, hpass, hframe⟩, rfl, rfl,
      fun j y hy => ?_⟩
    have hlane := tget_numberedLanes (terms := fun x => sddmmTerms st a.w da db k x.row x.col) (k := 0) hy []
    rw [Nat.zero_add] at hlane
    simp only [grown, hempty]
    exact hlane
  case spsp =>
    intro hr hmeta ea eb
    obtain ⟨hc, hregs, -, hchk, heng, hups⟩ := runs_spec hr
    obtain ⟨checks, work, u, hengine, hside, heff⟩ := actSpsp_eff hups hmeta
    obtain ⟨hlater, hocc, hpass, hframe⟩ := heddlePass_spec hc hregs hups hengine (heng _ hengine) hside heff
    exact ⟨_, _, exec_runs (m := actSpsp) rfl rfl hr, ⟨hlater, rfl, rfl, hocc, hpass, hframe⟩, rfl,
      fun m n hm hn => tget_addTerms (spsp_passN hchk) hm hn⟩
  case zero =>
    obtain ⟨hc, hregs, -, -, heng, -⟩ := runs_spec hr
    have heff := actHeddleZero_eff a
    have hkept : EffKept a.n a.s (actHeddleZero a).eff := by
      rw [heff]
      exact .modCore ⟨rfl, rfl, rfl, rfl, rfl, rfl, rfl, rfl⟩
    have hcore := getCore_modCore_same a.s a.n (fun c => { c with
      heddle := pushAcc c.heddle (c.cycle + 1 + latency a.p 40 32) {} false false false })
    rw [← heff, ← hc] at hcore
    refine ⟨_, { due := a.c.cycle + 1 + latency a.p 40 32, set := {} }, exec_runs (m := actHeddleZero) rfl rfl hr,
      issueFrame_issued hc hregs hkept.issue, ?_, rfl, rfl, ?_⟩
    · rw [issued_heddle, hcore]
      rfl
    · exact issued_occupied a _ (u := { eng := .heddle, occ := 1, busy := 1 }) rfl (heng _ rfl) (by rw [hcore]; rfl)
        (by rw [hcore])

end Sys2Proof.Machine
end

section
/-! The vector engine and the special-function unit (R109, R272 to R275, R285 to R287, R299 to R301): what each of their
instructions sends to its destination. -/

namespace Sys2Proof.Machine

/-! ### An instruction that sends one store -/

/-- An instruction whose effect sends one result from a state that keeps the core: its frame, and where the result lands. -/
theorem sends_spec {a : At} {act : Action} {u : State} {lat : Nat} {e : Effect} (hc : a.c = getCore a.s a.n)
    (hregs : a.r = getRegs a.s a.n) (hu : EffKept a.n a.s u) (hflight : (getCore u a.n).flight = a.c.flight)
    (heff : act.eff = pushStore u a lat none e) : issueFrame a (issued a act) ∧ landsIn a (issued a act) lat e := by
  obtain ⟨f, hf, hdue, hsh, he⟩ := pushStore_flight (s := u) (a := a) lat none e
  rw [hflight] at hf
  have hcycle : (getCore u a.n).cycle = a.c.cycle := by rw [hu.core.cycle, hc]
  rw [hcycle] at hdue
  refine ⟨issueFrame_issued hc hregs ?_, landsIn_issued a act (f := f) (by rw [heff]; exact hf) hdue hsh he⟩
  rw [heff]
  exact (hu.trans (.pushStore ..)).issue

theorem sends_here {a : At} {act : Action} {lat : Nat} {e : Effect} (hc : a.c = getCore a.s a.n)
    (hregs : a.r = getRegs a.s a.n) (heff : act.eff = pushStore a.s a lat none e) :
    issueFrame a (issued a act) ∧ landsIn a (issued a act) lat e :=
  sends_spec hc hregs (.refl ..) (by rw [hc]) heff

/-- The same of a result that is no access. -/
theorem pushes_here {a : At} {act : Action} {lat : Nat} {e : Effect} (hc : a.c = getCore a.s a.n)
    (hregs : a.r = getRegs a.s a.n) (heff : act.eff = push a.s a.n a.sh lat none none e) :
    issueFrame a (issued a act) ∧ landsIn a (issued a act) lat e := by
  refine ⟨issueFrame_issued hc hregs (by rw [heff]; exact (EffKept.push ..).issue), ?_⟩
  exact ⟨_, by rw [issued_flight, heff, getCore_push_same, ← hc], rfl, rfl, rfl⟩

/-! ### Detections where nothing is upset -/

theorem vecFailures_none {a : At} (h : a.ups = Upsets.none) (last : Nat) (adds : Nat → List (Exact × Exact)) :
    vecFailures a last adds = [] := failuresOf_none h ..

@[simp] theorem detectVals_nil (xs : List Word) : detectVals [] xs = xs := rfl
@[simp] theorem detectChk_nil (c : Chk) : detectChk [] c = c := rfl

theorem sramErrors_none {a : At} (h : a.ups = Upsets.none) (pc : Word) (op : Nat) (units lines : List Nat) :
    sramErrors a.s a.n a.sh pc op a.ups units lines = a.s := by
  rw [h]
  rfl

/-! ### The effects -/

section Effects
variable {a : At} (hups : a.ups = Upsets.none)
include hups

/-- The elements of an operand as FP32 patterns. -/
def fpElems (a : At) (x : Image) : List Word := (rawElems a.c.store x).map (widen (dType x))

theorem actVecOp_eff : ∃ chk, (actVecOp a).eff = pushStore a.s a (latency a.p 6 5) none (.store
    (pokesOf (entryD a (tDO a.w)) ((fpElems a (entryD a (tDA a.w))).zipIdx.map (fun x => narrow (dType (entryD a (tDO a.w)))
      (vecElem (tSub a.w) (signed 32 (tImm a.w)) x.1 ((fpElems a (entryD a (tDB a.w))).getD x.2 0)
        ((fpElems a (entryD a (tDX a.w))).getD x.2 0))))) chk) := by
  unfold actVecOp
  dsimp only
  rw [vecFailures_none hups, readStore_none hups, detectVals_nil, List.map_map]
  exact ⟨_, rfl⟩

theorem actVecRed_eff : ∃ chk, (actVecRed a).eff = pushStore a.s a (latency a.p 6 5) none (.store
    (pokesOf (entryD a (tDO a.w)) [narrow (dType (entryD a (tDO a.w))) (reduceOf (tSub a.w) (fpElems a (entryD a (tDA a.w))))])
      chk) := by
  unfold actVecRed
  dsimp only
  rw [vecFailures_none hups, readStore_none hups]
  exact ⟨_, rfl⟩

/-- The starved-gradient counts of a conversion (R296). -/
def countCvt (a : At) (res : List Conv) : State :=
  if immSen a.w then modCore a.s a.n (fun c =>
    countStarve c (immSidx a.w) res.length (res.filter (fun r => r.flush)).length) else a.s

omit hups in
theorem countCvt_kept (a : At) (res : List Conv) :
    EffKept a.n a.s (countCvt a res) ∧ (getCore (countCvt a res) a.n).flight = (getCore a.s a.n).flight := by
  unfold countCvt
  split
  · refine ⟨.modCore ⟨rfl, rfl, rfl, rfl, rfl, rfl, rfl, rfl⟩, ?_⟩
    rw [getCore_modCore_same]
    rfl
  · exact ⟨.refl .., rfl⟩

theorem actVecCvt_eff
    (hsat : (cvtResults a (entryD a (tDA a.w)) (entryD a (tDO a.w)) (entryD a (tDX a.w))).1.any (fun r => r.ovf) = false) :
    let res := cvtResults a (entryD a (tDA a.w)) (entryD a (tDO a.w)) (entryD a (tDX a.w))
    ∃ chk, (actVecCvt a).eff = pushStore (countCvt a res.1) a (latency a.p 6 5) none (.store
      (pokesOf (entryD a (tDO a.w)) (res.1.map (fun r => r.bits)) ++
        (if dType (entryD a (tDO a.w)) = tyBS4 then pokesOf (entryD a (tDX a.w)) res.2 else [])) chk) := by
  intro res
  unfold actVecCvt
  dsimp only
  rw [sramErrors_none hups, hsat, if_neg Bool.false_ne_true]
  exact ⟨_, rfl⟩

/-- The norms of GRAV's rows and columns (R274). -/
def gravNorms (a : At) (da : Image) : List Nat :=
  let val (c r : Nat) : Exact := decodeTy (dType da) (readElem a.c.store da [c, r])
  ((((List.range (dValid da 1)).map (fun r => (List.range (dValid da 0)).map (fun c => val c r)) ++
    (List.range (dValid da 0)).map (fun c => (List.range (dValid da 1)).map (fun r => val c r))).map normUp)).map
      (fun x => x.toNat)

theorem actGrav_eff :
    let da := entryD a (tDA a.w)
    let sub := tSub a.w
    ∃ chk, (actGrav a).eff = pushStore a.s a
      (ceilDiv (dValid da 0 * dValid da 1 * tyWidth (dType da) / 8) 192 + latency a.p 16 12) none (.store
      (pokesOf (entryD a (tDO a.w)) ((boxOf (validDims (entryD a (tDO a.w)))).map (fun ix => gravScale (gravMax sub).1
        (gravMax sub).2 (granuleVals a.c.store da (gravGranule sub) (ix.getD 0 0) (ix.getD 1 0)))) ++
        (if fldFlag a.w 0 = true then pokesOf (entryD a (tDX a.w)) (gravNorms a da) else [])) chk) := by
  intro da sub
  unfold actGrav
  dsimp only
  rw [vecFailures_none hups, readStore_none hups, ite_self]
  exact ⟨_, rfl⟩

theorem actSfuEval_eff : ∃ chk, (actSfuEval a).eff = pushStore a.s a (latency a.p 14 11) none (.store
    (pokesOf (entryD a (tDO a.w)) (sfuResults a.c (tSub a.w) (tSub a.w) (dType (entryD a (tDO a.w)))
      (fpElems a (entryD a (tDA a.w))))) chk) := by
  unfold actSfuEval
  dsimp only
  rw [readStore_none hups]
  exact ⟨_, rfl⟩

theorem actSfuDeriv_eff : ∃ chk, (actSfuDeriv a).eff = pushStore a.s a (latency a.p 14 11) none (.store
    (pokesOf (entryD a (tDO a.w)) (sfuResults a.c (2 * tSub a.w) (2 * tSub a.w) (dType (entryD a (tDO a.w)))
        (fpElems a (entryD a (tDA a.w)))) ++
      pokesOf (entryD a (tDB a.w)) (sfuResults a.c (2 * tSub a.w) (2 * tSub a.w + 1) (dType (entryD a (tDB a.w)))
        (fpElems a (entryD a (tDA a.w))))) chk) := by
  unfold actSfuDeriv
  dsimp only
  rw [readStore_none hups]
  exact ⟨_, rfl⟩

/-- An SFU table's 64 entries as SFU.LOAD reads them (R299). -/
def sfuRow (a : At) : List Dword := (List.range 64).map (fun j => BitVec.ofNat 64
  (readElem a.c.store (entryD a (tDA a.w)) [2 * j] + readElem a.c.store (entryD a (tDA a.w)) [2 * j + 1] * 2 ^ 32))

theorem actSfuLoad_config (h : tImm a.w = 1024) : (actSfuLoad a).eff = push a.s a.n a.sh (latency a.p 14 11) none none
    (.sfuConfig (tSub a.w) (BitVec.ofNat 32 (readElem a.c.store (entryD a (tDA a.w)) [0]))
      (BitVec.ofNat 32 (readElem a.c.store (entryD a (tDA a.w)) [1]))) := by
  unfold actSfuLoad
  dsimp only
  rw [readStore_none hups, if_pos (beq_iff_eq.mpr h)]

theorem actSfuLoad_entries (h : tImm a.w ≠ 1024) : (actSfuLoad a).eff = push a.s a.n a.sh (latency a.p 14 11) none none
    (.sfuEntries (tSub a.w) (tImm a.w) (sfuRow a)) := by
  unfold actSfuLoad
  dsimp only
  rw [readStore_none hups, if_neg (fun hb => h (beq_iff_eq.mp hb)), sfuRow]

end Effects

/-- Settles O40: each instruction sends one result, which its row gives. -/
theorem vectorAndSfuResults : Obligations.VectorAndSfuResults := by
  intro i s a st da db dx d vals sub
  refine ⟨fun hr => ?op, fun hr => ?red, fun hr hsat => ?cvt, fun hr => ?grav, fun hr => ?eval, fun hr => ?deriv,
    fun hr => ?load⟩
  case op =>
    obtain ⟨hc, hregs, -, -, -, hups⟩ := runs_spec hr
    obtain ⟨chk, heff⟩ := actVecOp_eff hups
    exact ⟨_, chk, exec_runs (m := actVecOp) rfl rfl hr, sends_here hc hregs heff⟩
  case red =>
    obtain ⟨hc, hregs, -, -, -, hups⟩ := runs_spec hr
    obtain ⟨chk, heff⟩ := actVecRed_eff hups
    exact ⟨_, chk, exec_runs (m := actVecRed) rfl rfl hr, sends_here hc hregs heff⟩
  case cvt =>
    obtain ⟨hc, hregs, -, -, -, hups⟩ := runs_spec hr
    obtain ⟨chk, heff⟩ := actVecCvt_eff hups hsat
    obtain ⟨hkept, hflight⟩ := countCvt_kept a (cvtResults a da d dx).1
    exact ⟨_, chk, exec_runs (m := actVecCvt) rfl rfl hr, sends_spec hc hregs hkept (by rw [hflight, hc]) heff⟩
  case grav =>
    obtain ⟨hc, hregs, -, -, -, hups⟩ := runs_spec hr
    obtain ⟨chk, heff⟩ := actGrav_eff hups
    obtain ⟨hframe, hlands⟩ := sends_here hc hregs heff
    refine ⟨_, chk, gravNorms a da, exec_runs (m := actGrav) rfl rfl hr, hframe, hlands, ?_, fun r hr => ?_⟩
    · simp [gravNorms]
    · unfold gravNorms
      dsimp only
      rw [List.map_append, List.map_append, List.getElem?_append_left (by simpa using hr), List.getElem?_map,
        List.getElem?_map, List.getElem?_map, List.getElem?_range hr]
      rfl
  case eval =>
    obtain ⟨hc, hregs, -, -, -, hups⟩ := runs_spec hr
    obtain ⟨chk, heff⟩ := actSfuEval_eff hups
    exact ⟨_, chk, exec_runs (m := actSfuEval) rfl rfl hr, sends_here hc hregs heff⟩
  case deriv =>
    obtain ⟨hc, hregs, -, -, -, hups⟩ := runs_spec hr
    obtain ⟨chk, heff⟩ := actSfuDeriv_eff hups
    exact ⟨_, chk, exec_runs (m := actSfuDeriv) rfl rfl hr, sends_here hc hregs heff⟩
  case load =>
    obtain ⟨hc, hregs, -, -, -, hups⟩ := runs_spec hr
    have hexec := exec_runs (c := .sfuLoad i) (m := actSfuLoad) rfl rfl hr
    by_cases h : tImm a.w = 1024
    · obtain ⟨hframe, hlands⟩ := pushes_here hc hregs (actSfuLoad_config hups h)
      exact ⟨_, hexec, hframe, fun _ => hlands, fun hne => absurd h hne⟩
    · obtain ⟨hframe, hlands⟩ := pushes_here hc hregs (actSfuLoad_entries hups h)
      refine ⟨_, hexec, hframe, fun he => absurd he h, fun _ => ⟨sfuRow a, hlands, ?_, fun j hj => ?_⟩⟩
      · simp [sfuRow]
      · rw [sfuRow, List.getElem?_map, List.getElem?_range hj]
        rfl

end Sys2Proof.Machine
end

section
/-! Drains and chains (R235 to R238, R251 to R256, R276 to R284): the shift of a drain, the elements it sends, and what
a chain sends and loads. -/

namespace Sys2Proof.Machine

/-! ### The shift (R278) -/

/-- The shift of a drain with a scale record is the least of those whose scale code is in range that meets the type. -/
theorem shiftOf_eq_iff (eout : Nat) (f : FpFmt) (x : Exact) (r : Nat) :
    shiftOf true eout f x = (r, false) ↔ r ≤ 4 ∧ eout + r ≤ 254 ∧
      (convert .rne .saturate f (scaleE x (-(r : Int)))).ovf = false ∧
      ∀ k, k < r → (convert .rne .saturate f (scaleE x (-(k : Int)))).ovf = true := by
  let good (r : Nat) : Bool := decide (eout + r ≤ 254) && !(convert .rne .saturate f (scaleE x (-(r : Int)))).ovf
  have hfind : shiftOf true eout f x = (r, false) ↔ (List.range 5).find? good = some r := by
    unfold shiftOf
    rw [if_neg (by decide)]
    split
    · next hf => rw [show (List.range 5).find? good = _ from hf]; simp
    · next hf => rw [show (List.range 5).find? good = _ from hf]; simp
  rw [hfind, List.find?_range_eq_some]
  simp only [good, Bool.and_eq_true, decide_eq_true_eq, Bool.not_eq_true', List.mem_range, Bool.not_eq_true',
    Bool.and_eq_false_iff, decide_eq_false_iff_not]
  constructor
  · rintro ⟨⟨hle, hr⟩, hlt, hmin⟩
    refine ⟨by omega, hle, hr, fun k hk => ?_⟩
    simpa [show eout + k ≤ 254 by omega] using hmin k hk
  · rintro ⟨hr, hle, hgood, hmin⟩
    exact ⟨⟨hle, hgood⟩, by omega, fun k hk => .inr (by simp [hmin k hk])⟩

/-! ### What a drain changes before it sends -/

/-- Everything of a core and the module that the bookkeeping of a drain leaves. -/
structure BooksKept (n : Nat) (s t : State) : Prop extends EffKept n s t where
  flight : (getCore t n).flight = (getCore s n).flight
  beamLater : (getCore t n).beam.later = (getCore s n).beam.later
  beamBase : (getCore t n).beam.base = (getCore s n).beam.base
  heddle : (getCore t n).heddle = (getCore s n).heddle

theorem BooksKept.refl (n : Nat) (s : State) : BooksKept n s s := ⟨.refl n s, rfl, rfl, rfl, rfl⟩

theorem BooksKept.trans {n : Nat} {s t u : State} (h : BooksKept n s t) (k : BooksKept n t u) : BooksKept n s u :=
  ⟨h.toEffKept.trans k.toEffKept, k.flight.trans h.flight, k.beamLater.trans h.beamLater, k.beamBase.trans h.beamBase,
    k.heddle.trans h.heddle⟩

theorem BooksKept.bumpCore (s : State) (n off k : Nat) : BooksKept n s (bumpCore s n off k) := by
  refine ⟨.modCore ⟨rfl, rfl, rfl, rfl, rfl, rfl, rfl, rfl⟩, ?_, ?_, ?_, ?_⟩ <;>
    rw [Machine.bumpCore, getCore_modCore_same]

theorem BooksKept.countStarve (s : State) (n idx total flushed : Nat) :
    BooksKept n s (modCore s n (fun c => countStarve c idx total flushed)) := by
  refine ⟨.modCore ⟨rfl, rfl, rfl, rfl, rfl, rfl, rfl, rfl⟩, ?_, ?_, ?_, ?_⟩ <;>
    rw [getCore_modCore_same] <;> rfl

theorem BooksKept.nonfinite (s : State) (n : Nat) :
    BooksKept n s (modCore s n (fun c => { c with beam := { c.beam with stNonfin := true } })) := by
  refine ⟨.modCore ⟨rfl, rfl, rfl, rfl, rfl, rfl, rfl, rfl⟩, ?_, ?_, ?_, ?_⟩ <;> rw [getCore_modCore_same]

theorem BooksKept.noteW1c (s : State) (n x b : Nat) : BooksKept n s (noteW1c s x b) :=
  ⟨⟨.refl _, fun _ _ => rfl, rfl, rfl, rfl⟩, rfl, rfl, rfl, rfl⟩

theorem BooksKept.subMul {n : Nat} {s t : State} (h : BooksKept n s t) (w : InstrWord) :
    (subMul (getCore t n) w).later = (subMul (getCore s n) w).later ∧
      (subMul (getCore t n) w).base = (subMul (getCore s n) w).base := by
  unfold Machine.subMul
  split
  · exact ⟨h.beamLater, h.beamBase⟩
  · rw [h.heddle]
    exact ⟨rfl, rfl⟩

/-- The bookkeeping of an unchecked drain that does not saturate: a retry, a starved-gradient tally, an overflow. -/
def drainBooks (a : At) (out : Drained) : State :=
  let s := if out.shift = 0 then a.s else bumpCore a.s a.n ctrNumRetry 1
  let s := if immSen a.w then modCore s a.n (fun c => countStarve c (immSidx a.w) out.total out.flushed) else s
  if out.wideOvf ∧ tSub a.w = 0 then
    noteW1c (modCore s a.n (fun c => { c with beam := { c.beam with stNonfin := true } })) (corePage a.n 4) 1
  else s

theorem drainBooks_kept (a : At) (out : Drained) : BooksKept a.n a.s (drainBooks a out) := by
  unfold drainBooks
  dsimp only
  generalize hs : (if out.shift = 0 then a.s else bumpCore a.s a.n ctrNumRetry 1) = s
  have h1 : BooksKept a.n a.s s := by
    rw [← hs]
    split
    · exact .refl ..
    · exact .bumpCore ..
  generalize ht : (if immSen a.w = true then _ else s) = t
  have h2 : BooksKept a.n a.s t := by
    rw [← ht]
    split
    · exact h1.trans (.countStarve ..)
    · exact h1
  split
  · exact (h2.trans (.nonfinite ..)).trans (.noteW1c ..)
  · exact h2

/-! ### DRAIN and DRAIN.D -/

/-- The scale and the shift that a drain with a scale record writes back. -/
def scaleBack (a : At) (out : Drained) : List Poke :=
  let dx := entryD a (tDX a.w)
  if fldFlag a.w 0 then
    [(elemBit dx [2], 8, (scaleRec a).eout + out.shift), (elemBit dx [3], 8, out.shift + 128 * flag out.sat)]
  else []

theorem drainEffect_plain {a : At} {d : Image} {set : AccSet} {deriv : Bool} {occ : Nat} (hups : a.ups = Upsets.none)
    (hunchecked : drainChecked a d set = false) (htun : dType d ≠ tyTun) (hcore : dHandle d = 0)
    (hsat : (drained a d set deriv).sat = false) :
    ∃ chk, drainEffect a d set deriv occ = pushStore (drainBooks a (drained a d set deriv)) a (occ + latency a.p 16 12) none
      (.store ((drained a d set deriv).elems ++ scaleBack a (drained a d set deriv)) chk) := by
  unfold drainEffect
  dsimp only
  rw [sramErrors_none hups, hunchecked, if_neg htun, if_neg (by omega : ¬ dHandle d = 1), hsat,
    if_neg Bool.false_ne_true, if_neg Bool.false_ne_true, if_neg Bool.false_ne_true]
  refine ⟨_, congrArg (fun back => pushStore _ a _ none (.store ((drained a d set deriv).elems ++ back) _)) ?_⟩
  rw [scaleBack, hsat]

/-- A plain destination takes one element for each of its positions, converted under the shift. -/
theorem mem_drained {a : At} {d : Image} {set : AccSet} {deriv : Bool} (htun : dType d ≠ tyTun) (hfmt : dFmt d = 0)
    {x : List Nat × Exact} (hx : x ∈ drainVals a d set deriv) :
    (elemBit d x.1, tyWidth (dType d), (drainConv (dType d) (drained a d set deriv).shift x.2).bits) ∈
      (drained a d set deriv).elems := by
  unfold drained
  dsimp only
  rw [if_neg htun, if_neg (by rw [hfmt]; decide : ¬ dFmt d = fmIVQ)]
  exact List.mem_map.mpr ⟨_, List.mem_map.mpr ⟨x, hx, rfl⟩, rfl⟩

/-- The cycles a drain of the set takes in the drain buffer. -/
def drainOcc (d : Image) (set : AccSet) : Nat :=
  match set.shape with
  | some (mm, nn) => occBits (mm * nn * tyWidth (dType d))
  | none => 1

theorem actDrainAny_eff (deriv : Bool) (a : At) : (actDrainAny deriv a).eff =
    drainEffect a (entryD a (tDO a.w)) (drainSet a) deriv (drainOcc (entryD a (tDO a.w)) (drainSet a)) := rfl

/-- The bits of a drained set. -/
def drainBits (d : Image) (set : AccSet) : Nat :=
  match set.shape with
  | some (mm, nn) => mm * nn * tyWidth (dType d)
  | none => 0

theorem drainOcc_eq (d : Image) (set : AccSet) : drainOcc d set = occBits (drainBits d set) := by
  unfold drainOcc drainBits
  split <;> rfl

theorem pushStore_heddle (s : State) (a : At) (lat : Nat) (verdict : Option Nat) (e : Effect) :
    (getCore (pushStore s a lat verdict e) a.n).heddle = (getCore s a.n).heddle := by
  unfold pushStore newAccess
  rw [getCore_push_same, getCore_setCore_same]
  exact modSh_heddle ..

/-- What the obligation says of either drain. -/
theorem drain_sends {deriv : Bool} {a : At} (hc : a.c = getCore a.s a.n) (hregs : a.r = getRegs a.s a.n)
    (hups : a.ups = Upsets.none) (hunchecked : drainChecked a (entryD a (tDO a.w)) (drainSet a) = false)
    (htun : dType (entryD a (tDO a.w)) ≠ tyTun) (hcore : dHandle (entryD a (tDO a.w)) = 0)
    (hfmt : dFmt (entryD a (tDO a.w)) = 0) (hsat : (drained a (entryD a (tDO a.w)) (drainSet a) deriv).sat = false) :
    let d := entryD a (tDO a.w)
    let dx := entryD a (tDX a.w)
    let set := drainSet a
    let t := issued a (actDrainAny deriv a)
    ∃ elems chk, ((subMul (getCore t a.n) a.w).later = (subMul a.c a.w).later ∧
        (subMul (getCore t a.n) a.w).base = (subMul a.c a.w).base) ∧
      (∀ x ∈ drainVals a d set deriv,
        (elemBit d x.1, tyWidth (dType d), (drainConv (dType d) (drained a d set deriv).shift x.2).bits) ∈ elems) ∧
      (fldFlag a.w 0 = true → (elemBit dx [2], 8, (scaleRec a).eout + (drained a d set deriv).shift) ∈ elems) ∧
      landsIn a t (occBits (drainBits d set) + latency a.p 16 12) (.store elems chk) ∧ issueFrame a t := by
  intro d dx set t
  have hbooks := drainBooks_kept a (drained a d set deriv)
  obtain ⟨chk, heff⟩ := drainEffect_plain (occ := drainOcc d set) hups hunchecked htun hcore hsat
  rw [← actDrainAny_eff, drainOcc_eq] at heff
  obtain ⟨hframe, hlands⟩ := sends_spec hc hregs hbooks.toEffKept (by rw [hbooks.flight, hc]) heff
  refine ⟨_, chk, ?_, fun x hx => List.mem_append_left _ (mem_drained htun hfmt hx), fun hflag => ?_, hlands, hframe⟩
  · have hsub := hbooks.subMul a.w
    have hbeam : (getCore t a.n).beam = (getCore (drainBooks a (drained a d set deriv)) a.n).beam := by
      rw [issued_beam, heff, pushStore_beam]
    have hheddle : (getCore t a.n).heddle = (getCore (drainBooks a (drained a d set deriv)) a.n).heddle := by
      rw [issued_heddle, heff, pushStore_heddle]
    rw [← hc] at hsub
    have heq : subMul (getCore t a.n) a.w = subMul (getCore (drainBooks a (drained a d set deriv)) a.n) a.w := by
      rw [subMul, subMul, hbeam, hheddle]
    rw [heq]
    exact hsub
  · refine List.mem_append_right _ ?_
    rw [scaleBack, if_pos hflag]
    exact List.mem_cons_self

/-! ### CHAIN.SEND (R251 to R254) -/

/-- The state behind the access of a send. -/
def sendAccess (a : At) (tgt : Nat) : State × Nat := newAccess a.s a.n a.sh (coreLevel a.n tgt) .chain true false []

theorem actChainSend_eff {a : At} {mm nn tgt : Nat} (hshape : (drainSet a).shape = some (mm, nn))
    (htgt : a.p.map[immCore a.w]? = some tgt) : (actChainSend a).eff =
      push (sendAccess a tgt).1 a.n a.sh (occBits (chainBits mm nn) + latency a.p 16 12) (some (sendAccess a tgt).2) none
        (.chain tgt (chainElems (entryD a (tDO a.w)) (drainSet a) mm nn) (drainSet a).chk (immSem a.w)) := by
  unfold actChainSend
  dsimp only
  rw [hshape, htgt]
  rfl

theorem sendAccess_core (a : At) (tgt : Nat) :
    (getCore (sendAccess a tgt).1 a.n).flight = (getCore a.s a.n).flight ∧
      (getCore (sendAccess a tgt).1 a.n).beam = (getCore a.s a.n).beam ∧
      (getCore (sendAccess a tgt).1 a.n).heddle = (getCore a.s a.n).heddle := by
  unfold sendAccess newAccess
  rw [getCore_setCore_same]
  cases a.sh <;> exact ⟨rfl, rfl, rfl⟩

/-- Every position of the buffer has its element. -/
theorem mem_chainElems {d : Image} {set : AccSet} {mm nn n m : Nat} (hn : n < max nn 2) (hm : m ≤ mm) :
    (elemBit d [n, m], 64,
      if m < mm then (if n < nn then lanePair (tget {} set.lanes (128 * m + n)) else 0)
      else if n = 0 then set.terms % 2 ^ 64
      else if n = 1 then trailerFlags set nn
      else 0) ∈ chainElems d set mm nn := by
  have hbox : [n, m] ∈ boxOf [max nn 2, mm + 1] := by
    simp only [boxOf, List.mem_flatMap, List.mem_map, List.mem_range]
    exact ⟨[m], ⟨[], List.mem_singleton_self _, m, by omega, rfl⟩, n, hn, rfl⟩
  exact List.mem_map.mpr ⟨_, hbox, rfl⟩

/-! ### CHAIN.SEED (R255, R256) -/

/-- Writing a table at the keys of a list, where every write of a key writes one value. -/
theorem tget_foldl_tset {α β : Type} [DecidableEq β] (z : β) (key : α → Nat) (val : α → β) {j : Nat} {v : β} :
    ∀ (xs : List α) (t : Tbl β), (∀ x ∈ xs, key x = j → val x = v) → (∃ x ∈ xs, key x = j) ∨ tget z t j = v →
      tget z (xs.foldl (fun t x => tset z t (key x) (val x)) t) j = v
  | [], _, _, h => h.resolve_left (fun ⟨_, hx, _⟩ => absurd hx List.not_mem_nil)
  | x :: xs, t, hval, h => by
    rw [List.foldl_cons]
    refine tget_foldl_tset z key val xs _ (fun y hy => hval y (List.mem_cons_of_mem x hy)) ?_
    by_cases hx : key x = j
    · right
      rw [← hx, tget_tset_same, hval x List.mem_cons_self hx]
    · rcases h with ⟨y, hy, hkey⟩ | h
      · rcases List.mem_cons.mp hy with rfl | hy
        · exact absurd hkey hx
        · exact .inl ⟨y, hy, hkey⟩
      · right
        rw [tget_tset_other _ _ _ (Ne.symm hx), h]

theorem tget_seedSet {st : Tbl Byte} {d : Image} {chk : Chk} {m n : Nat} (hm : m < dSize d 1 - 1) (hn : n < seedN st d) :
    tget {} (seedSet st d chk).lanes (128 * m + n) = seedLane st d m n := by
  let places := (List.range (dSize d 1 - 1)).flatMap (fun m => (List.range (seedN st d)).map (fun n => (m, n)))
  have hlanes : (seedSet st d chk).lanes =
      places.foldl (fun t x => tset {} t (128 * x.1 + x.2) (seedLane st d x.1 x.2)) [] := by
    simp only [seedSet, places, List.foldl_flatMap, List.foldl_map]
  rw [hlanes]
  refine tget_foldl_tset {} (fun x : Nat × Nat => 128 * x.1 + x.2) (fun x => seedLane st d x.1 x.2) _ _ ?_ (.inl ⟨(m, n), ?_, rfl⟩)
  · rintro ⟨m', n'⟩ hx hkey
    have hn' : n' < seedN st d := by simpa [places] using (by simpa [places] using hx : _ ∧ _).2
    have hnn : seedN st d ≤ 128 := by
      unfold seedN
      omega
    have hsame : m' = m ∧ n' = n := by
      dsimp only at hkey
      omega
    rw [hsame.1, hsame.2]
  · simp [places, hm, hn]

/-- The set that CHAIN.SEED queues. -/
def seeded (a : At) : AccSet :=
  seedSet a.c.store (entryD a (tDA a.w)) (descChk (getCore a.s a.n) (entryD a (tDA a.w)))

theorem actChainSeed_eff {a : At} (hups : a.ups = Upsets.none) : (actChainSeed a).eff =
    modCore a.s a.n (fun c => setSubMul c a.w (pushAcc (subMul c a.w)
      (c.cycle + occBits (64 * validCount (entryD a (tDA a.w))) + latency a.p 16 12) (seeded a) false false false)) := by
  unfold actChainSeed
  dsimp only
  rw [readStore_none hups]
  rfl

theorem setSubMul_kept (c : Core) (w : InstrWord) (m : Multiplier) : CoreKept c (setSubMul c w m) := by
  unfold setSubMul
  split <;> exact ⟨rfl, rfl, rfl, rfl, rfl, rfl, rfl, rfl⟩

@[simp] theorem subMul_setSubMul (c : Core) (w : InstrWord) (m : Multiplier) : subMul (setSubMul c w m) w = m := by
  unfold subMul setSubMul
  split <;> rfl

/-- Settles O41: the shift is the least that does not overflow; a drain and a send leave the set, a seed queues one. -/
theorem drainsAndChains : Obligations.DrainsAndChains := by
  refine ⟨fun eout f x r => shiftOf_eq_iff eout f x r, fun i s a => ?_⟩
  intro d dx set isBeam kept sent
  refine ⟨fun hr hck htun hcore hfmt hsat => ?drain, fun hr hck htun hcore hfmt hsat => ?drainD,
    fun hr mm nn tgt hshape htgt => ?send, fun hr => ?seed⟩
  case drain =>
    obtain ⟨hc, hregs, -, -, -, hups⟩ := runs_spec hr
    refine ⟨_, exec_runs (m := actDrain) rfl rfl hr, ?_⟩
    exact drain_sends hc hregs hups hck htun hcore hfmt hsat
  case drainD =>
    obtain ⟨hc, hregs, -, -, -, hups⟩ := runs_spec hr
    refine ⟨_, exec_runs (m := actDrainD) rfl rfl hr, ?_⟩
    exact drain_sends hc hregs hups hck htun hcore hfmt hsat
  case send =>
    obtain ⟨hc, hregs, -, -, -, -⟩ := runs_spec hr
    have heff := actChainSend_eff hshape htgt
    obtain ⟨hflight, hbeam, hheddle⟩ := sendAccess_core a tgt
    have hacc : EffKept a.n a.s (sendAccess a tgt).1 := .newAccess ..
    have hsub : subMul (getCore (issued a (actChainSend a)) a.n) a.w = subMul a.c a.w := by
      rw [subMul, subMul, issued_beam, issued_heddle, heff, getCore_push_same, hbeam, hheddle, ← hc]
    refine ⟨_, chainElems d set mm nn, set.chk, exec_runs (m := actChainSend) rfl rfl hr, ⟨by rw [hsub], by rw [hsub]⟩,
      issueFrame_issued hc hregs (by rw [heff]; exact (hacc.trans (.push ..)).issue), ?_, fun m n hm hn => ?_, ?_, ?_⟩
    · refine ⟨_, (issued_flight ..).trans (by rw [heff, getCore_push_same, hflight, ← hc]), ?_, rfl, rfl⟩
      exact congrArg (· + _) (hacc.core.cycle.trans (by rw [hc]))
    · have h := mem_chainElems (d := d) (set := set) (mm := mm) (nn := nn) (n := n) (m := m) (by omega) (by omega)
      rwa [if_pos hm, if_pos hn] at h
    · have h := mem_chainElems (d := d) (set := set) (mm := mm) (nn := nn) (n := 0) (m := mm) (by omega) (by omega)
      rwa [if_neg (Nat.lt_irrefl mm), if_pos rfl] at h
    · have h := mem_chainElems (d := d) (set := set) (mm := mm) (nn := nn) (n := 1) (m := mm) (by omega) (by omega)
      rwa [if_neg (Nat.lt_irrefl mm), if_neg Nat.one_ne_zero, if_pos rfl] at h
  case seed =>
    intro da
    obtain ⟨hc, hregs, -, -, -, hups⟩ := runs_spec hr
    have heff := actChainSeed_eff hups
    have hkept : EffKept a.n a.s (actChainSeed a).eff := by
      rw [heff]
      exact .modCore (setSubMul_kept ..)
    let m := pushAcc (subMul a.c a.w) (a.c.cycle + occBits (64 * validCount da) + latency a.p 16 12) (seeded a) false false false
    have hcore : getCore (actChainSeed a).eff a.n = setSubMul a.c a.w m := by
      rw [heff, getCore_modCore_same, ← hc]
    have hsub : subMul (getCore (issued a (actChainSeed a)) a.n) a.w = m := by
      rw [subMul, issued_beam, issued_heddle, hcore]
      exact subMul_setSubMul ..
    refine ⟨_, { due := a.c.cycle + occBits (64 * validCount da) + latency a.p 16 12, set := seeded a },
      exec_runs (m := actChainSeed) rfl rfl hr, issueFrame_issued hc hregs hkept.issue, ?_, rfl, rfl,
      fun m n hm hn => tget_seedSet hm hn, ?_, fun hbeam => ?_⟩
    · rw [hsub]
      rfl
    · rw [hsub]
      rfl
    · rw [issued_heddle, hcore, setSubMul, if_pos hbeam]

end Sys2Proof.Machine
end

section
/-! The program's side of gradient exchange (R442 to R456, R472 to R476): buckets opened and closed in every cask of a
partition, headers and pieces sent, and what settling a norm group leaves. -/

namespace Sys2Proof.Machine

/-! ### An issued instruction that uses no engine -/

theorem issued_frame (a : At) (act : Action) : issued a act = { act.eff with cores := (issued a act).cores } := by
  have hocc : occupy act.eff a act true = { act.eff with cores := (occupy act.eff a act true).cores } := by
    unfold occupy
    split <;> rfl
  unfold issued
  rw [advance_frame, hocc]

theorem issued_eq {a : At} {act : Action} (h : act.eng = none) : issued a act = advance act.eff a act.jump := by
  rw [issued, occupy, h]

/-- Without an engine, an issue changes registers and shuttles alone. -/
theorem getCore_issued_plain {a : At} {act : Action} (h : act.eng = none) (m : Nat) :
    getCore (issued a act) m = { getCore act.eff m with
      regs := (getCore (issued a act) m).regs, spare := (getCore (issued a act) m).spare
      f := (getCore (issued a act) m).f, b := (getCore (issued a act) m).b, u := (getCore (issued a act) m).u } := by
  obtain ⟨-, -, -, -, hcore⟩ := issueAdvances act.eff a act.jump
  rw [issued_eq h]
  exact hcore m

theorem issued_accesses {a : At} {act : Action} (h : act.eng = none) :
    (shOf (getCore (issued a act) a.n) a.sh).accesses = (shOf (getCore act.eff a.n) a.sh).accesses := by
  obtain ⟨-, -, hsh, -, -⟩ := issueAdvances act.eff a act.jump
  rw [issued_eq h, hsh]

/-! ### Casks and partitions -/

theorem partAt_of_corePart {s : State} {n : Nat} {p : Part} (h : corePart s n = some p) : ∃ q, partAt s p.low = some q := by
  refine Option.isSome_iff_exists.mp (List.find?_isSome.mpr ⟨p, List.mem_of_find?_eq_some h, ?_⟩)
  simp

theorem partAt_parts {s t : State} (h : t.parts = s.parts) (low : Nat) : partAt t low = partAt s low := by
  rw [partAt, h, ← partAt]

theorem caskOf_injective (p : Part) : Function.Injective (caskOf p) := by
  intro i j h
  unfold caskOf at h
  split at h <;> omega

theorem nodup_partCasks (p : Part) : (partCasks p).Nodup := List.nodup_range.map (caskOf_injective p)

/-- Changing each cask of a list by one rule. -/
theorem getCask_foldl_modCask {g : State → Cask → Cask} (hg : ∀ s k x, g (setCask s k x) = g s) {ks : List Nat}
    (hks : ks.Nodup) (s : State) (j : Nat) : getCask (ks.foldl (fun s k => modCask s k (g s)) s) j =
      if j ∈ ks then g s (getCask s j) else getCask s j := by
  induction ks generalizing s with
  | nil => simp
  | cons k ks ih =>
    obtain ⟨hk, hks⟩ := List.nodup_cons.mp hks
    rw [List.foldl_cons, ih hks, getCask_modCask, modCask, hg]
    by_cases h : j = k
    · subst h
      simp [hk]
    · simp [h]

theorem foldl_modCask_frame {g : State → Cask → Cask} (ks : List Nat) (s : State) :
    ks.foldl (fun s k => modCask s k (g s)) s = { s with casks := (ks.foldl (fun s k => modCask s k (g s)) s).casks } := by
  induction ks generalizing s with
  | nil => rfl
  | cons k ks ih =>
    rw [List.foldl_cons, ih]
    rfl

theorem foldl_modCore_frame {g : Core → Core} (ns : List Nat) (s : State) :
    ns.foldl (fun s n => modCore s n g) s = { s with cores := (ns.foldl (fun s n => modCore s n g) s).cores } := by
  induction ns generalizing s with
  | nil => rfl
  | cons n ns ih =>
    rw [List.foldl_cons, ih]
    rfl

theorem foldl_modCore_mem {g : Core → Core} {P : Core → Prop} (hset : ∀ c, P (g c)) {n : Nat} (ns : List Nat) (s : State)
    (h : n ∈ ns ∨ P (getCore s n)) : P (getCore (ns.foldl (fun s n => modCore s n g) s) n) := by
  induction ns generalizing s with
  | nil => exact h.resolve_left List.not_mem_nil
  | cons m ns ih =>
    rw [List.foldl_cons]
    refine ih _ ?_
    by_cases hm : n = m
    · right
      rw [hm, getCore_modCore_same]
      exact hset _
    · rcases h with h | h
      · exact .inl ((List.mem_cons.mp h).resolve_left hm)
      · right
        rwa [getCore_modCore, if_neg hm]

/-! ### CASK.OPEN (R447, R463) -/

/-- A bucket as it opens in a cask. -/
def freshBucket (s : State) (low : Nat) (b tag : Half) : CaskBucket :=
  { low := low, bucket := b, tag := tag, allocAt := tset 0 (tset 0 [] 0 s.pll) 1 s.pll }

/-- A cask with a bucket opened in it. -/
def withBucket (low : Nat) (b tag : Half) (s : State) (c : Cask) : Cask :=
  { c with buckets := c.buckets ++ [freshBucket s low b tag] }

/-- A partition with a bucket opened in it. -/
def withRecord (b tag : Half) (r : BucketRec) (p : Part) : Part :=
  { p with buckets := p.buckets ++ [(b, r)], closed := p.closed.filter (fun x => x != (b, tag)), groups := joinGroup p.groups b r }

/-- A core whose U shuttle has not waited on a bucket. -/
def unwaited (b : Half) (c : Core) : Core := { c with verdictBuckets := c.verdictBuckets.filter (fun x => x != b) }

/-- The casks with a bucket opened in them. -/
def openCasks (s : State) (p : Part) (b : Half) : State :=
  (partCasks p).foldl (fun t k => modCask t k (withBucket p.low b (stepTag s p) t)) s

theorem openBucket_eq (s : State) (p : Part) (b : Half) (r : BucketRec) : openBucket s p b r =
    p.map.foldl (fun t n => modCore t n (unwaited b)) (modPart (openCasks s p b) p.low (withRecord b (stepTag s p) r)) := rfl

theorem getCask_openBucket (s : State) (p : Part) (b : Half) (r : BucketRec) (k : Nat) :
    getCask (openBucket s p b r) k =
      if k ∈ partCasks p then withBucket p.low b (stepTag s p) s (getCask s k) else getCask s k := by
  rw [openBucket_eq, foldl_modCore_frame]
  exact getCask_foldl_modCask (fun _ _ _ => rfl) (nodup_partCasks p) s k

theorem partAt_openBucket {s : State} {p q : Part} (b : Half) (r : BucketRec) (h : partAt s p.low = some q) :
    partAt (openBucket s p b r) p.low = some (withRecord b (stepTag s p) r q) := by
  rw [openBucket_eq, foldl_modCore_frame]
  refine partAt_modPart ?_ (fun _ => rfl)
  rw [openCasks, foldl_modCask_frame]
  exact h

theorem openBucket_unwaited (s : State) {p : Part} (b : Half) (r : BucketRec) {n : Nat} (hn : n ∈ p.map) :
    b ∉ (getCore (openBucket s p b r) n).verdictBuckets := by
  rw [openBucket_eq]
  refine foldl_modCore_mem (P := fun c => b ∉ c.verdictBuckets) (fun c => ?_) _ _ (.inl hn)
  simp [unwaited]

theorem actCaskOpen_eff {a : At} (hups : a.ups = Upsets.none) (hchk : (actCaskOpen a).chk = []) :
    ∃ r, openRecord a = some r ∧ (actCaskOpen a).eff = openBucket a.s a.p (immBucket a.w) r := by
  unfold actCaskOpen at hchk
  dsimp only at hchk
  generalize (if fldFlag a.w 0 = true then spanConds a (tDX a.w) offDX 0 64 else []) ++ spanConds a (tDA a.w) offDA 0 64 = spans
    at hchk
  have hopen : ∃ r, openRecord a = some r := by
    cases hr : openRecord a with
    | none => cases spans <;> simp [hr, cond] at hchk
    | some r => exact ⟨r, rfl⟩
  obtain ⟨r, hr⟩ := hopen
  refine ⟨r, hr, ?_⟩
  unfold actCaskOpen
  dsimp only
  rw [hr, readStore_none hups]

/-! ### Settling norm groups (R472, R473) -/

/-- A partition without its norm groups. -/
def groupless (p : Part) : Part := { p with groups := [] }

/-- What settling norm groups leaves: everything but partitions' groups and frames sent. -/
structure Settled (s t : State) : Prop where
  frame : t = { s with parts := t.parts, ports := t.ports, mesh := t.mesh }
  parts : t.parts.map groupless = s.parts.map groupless

theorem Settled.refl (s : State) : Settled s s := ⟨rfl, rfl⟩

theorem Settled.trans {s t u : State} (h : Settled s t) (k : Settled t u) : Settled s u :=
  ⟨by rw [k.frame, h.frame], k.parts.trans h.parts⟩

theorem Settled.linked {s t : State} (h : linked s t) : Settled s t :=
  ⟨by unfold Machine.linked at h; rw [h], by rw [linked_parts h]⟩

theorem Settled.groups (s : State) (low : Nat) (g : Part → List NormGroup) :
    Settled s (modPart s low (fun p => { p with groups := g p })) := by
  refine ⟨rfl, ?_⟩
  rw [modPart, List.map_map]
  refine List.map_congr_left (fun p _ => ?_)
  rw [Function.comp]
  split <;> rfl

theorem settleGroup_settled (s : State) (p : Part) (i : Nat) : Settled s (settleGroup s p i) := by
  unfold settleGroup
  split
  · exact .refl s
  · dsimp only
    split
    · exact (Settled.linked (linked_sendAll ..)).trans (.groups ..)
    · exact .groups ..

/-- Settling the i-th group of the partition at `low`. -/
def settleAt (low : Nat) (s : State) (i : Nat) : State :=
  match partAt s low with
  | some p => settleGroup s p i
  | none => s

theorem settleAt_settled (low : Nat) (s : State) (i : Nat) : Settled s (settleAt low s i) := by
  unfold settleAt
  split
  · exact settleGroup_settled ..
  · exact .refl s

theorem settleGroups_settled (s : State) (low : Nat) : Settled s (settleGroups s low) := by
  have hfold : ∀ (is : List Nat) (t : State), Settled s t → Settled s (is.foldl (settleAt low) t) := by
    intro is
    induction is with
    | nil => exact fun _ h => h
    | cons i is ih => exact fun t h => ih _ (h.trans (settleAt_settled low t i))
  unfold settleGroups
  split
  · exact .refl s
  · exact hfold _ _ (.refl s)

/-- A partition is found with all but its groups as before. -/
theorem Settled.partAt {s t : State} (h : Settled s t) (low : Nat) :
    (partAt t low).map groupless = (partAt s low).map groupless := by
  have hfind : ∀ ps : List Part, (ps.find? (fun p => p.low == low)).map groupless =
      (ps.map groupless).find? (fun p => p.low == low) := by
    intro ps
    rw [List.find?_map]
    rfl
  rw [Machine.partAt, Machine.partAt, hfind, hfind, h.parts]

theorem Settled.part {s t : State} (h : Settled s t) {low : Nat} {p : Part} (hp : Machine.partAt s low = some p) :
    ∃ q, Machine.partAt t low = some q ∧ groupless q = groupless p := by
  have := h.partAt low
  rw [hp] at this
  exact Option.map_eq_some_iff.mp this

theorem buckets_of_groupless {p q : Part} (h : groupless q = groupless p) : q.buckets = p.buckets :=
  (congrArg Part.buckets h : (groupless q).buckets = (groupless p).buckets)

theorem bucketRec_congr {p q : Part} (h : q.buckets = p.buckets) (b : Half) : bucketRec q b = bucketRec p b := by
  rw [bucketRec, h, ← bucketRec]

theorem Settled.getCask {s t : State} (h : Settled s t) (k : Nat) : getCask t k = getCask s k := by
  rw [h.frame]
  rfl

/-! ### CASK.NORM and CASK.CLOSE (R472, R475) -/

/-- A partition with a bucket declared for its norm. -/
def declared (b : Half) (p : Part) : Part :=
  { p with buckets := p.buckets.map (fun x => if x.1 = b then (x.1, { x.2 with normDeclared := true }) else x) }

theorem actCaskNorm_eff (a : At) : (actCaskNorm a).eff =
    settleGroups (modPart a.s a.p.low (declared (immBucket a.w))) a.p.low := rfl

theorem bucketRec_declared (b c : Half) (p : Part) : bucketRec (declared b p) c =
    if c = b then (bucketRec p c).map (fun r => { r with normDeclared := true }) else bucketRec p c := by
  have hkey : ((fun x : Half × BucketRec => x.1 == c) ∘
      fun x => if x.1 = b then (x.1, { x.2 with normDeclared := true }) else x) = fun x => x.1 == c := by
    funext x
    rw [Function.comp]
    split <;> rfl
  unfold bucketRec declared
  rw [List.find?_map, hkey]
  cases hx : p.buckets.find? (fun x => x.1 == c) with
  | none => simp
  | some x =>
    have hc : x.1 = c := by simpa using List.find?_some hx
    by_cases h : c = b <;> simp [hc, h]

/-- A cask without a bucket. -/
def withoutBucket (low : Nat) (b : Half) (c : Cask) : Cask :=
  { c with buckets := c.buckets.filter (fun x => !(x.low == low && x.bucket == b)) }

/-- A partition without a bucket, whose tag is kept. -/
def withoutRecord (b : Half) (tags : List Half) (p : Part) : Part :=
  { p with
    buckets := p.buckets.filter (fun x => x.1 != b)
    closed := p.closed ++ (tags.take 1).map (fun t => (b, t))
    groups := (p.groups.map (fun g => { g with members := g.members.filter (fun x => x != b) })).filter (fun g =>
      g.joined == 0 || !g.members.isEmpty) }

theorem closeBucket_eq (s : State) (p : Part) (b : Half) : closeBucket s p b =
    modPart ((partCasks p).foldl (fun s k => modCask s k (withoutBucket p.low b)) s) p.low
      (withoutRecord b ((caskBuckets s p b).map (fun x => x.tag))) := rfl

theorem getCask_closeBucket (s : State) (p : Part) (b : Half) (k : Nat) : getCask (closeBucket s p b) k =
    if k ∈ partCasks p then withoutBucket p.low b (getCask s k) else getCask s k := by
  rw [closeBucket_eq, getCask_modPart]
  exact getCask_foldl_modCask (g := fun _ => withoutBucket p.low b) (fun _ _ _ => rfl) (nodup_partCasks p) s k

theorem partAt_closeBucket {s : State} {p q : Part} (b : Half) (h : partAt s p.low = some q) :
    partAt (closeBucket s p b) p.low = some (withoutRecord b ((caskBuckets s p b).map (fun x => x.tag)) q) := by
  rw [closeBucket_eq]
  refine partAt_modPart ?_ (fun _ => rfl)
  rw [foldl_modCask_frame (g := fun _ => withoutBucket p.low b)]
  exact h

theorem bucketRec_withoutRecord (b c : Half) (tags : List Half) (p : Part) :
    bucketRec (withoutRecord b tags p) c = if c = b then none else bucketRec p c := by
  unfold bucketRec withoutRecord
  dsimp only
  rw [List.find?_filter]
  split
  · next h =>
    rw [List.find?_eq_none.mpr (fun x _ => by simp [h]), Option.map_none]
  · next h =>
    have hsame : (fun x : Half × BucketRec => (x.1 != b) && (x.1 == c)) = fun x => x.1 == c := by
      funext x
      by_cases hx : x.1 = c <;> simp [hx, h]
    simp only [Bool.decide_and, Bool.decide_eq_true, hsame]

/-! ### Frames to a cask (R449, R483) -/

/-- Frames to one module through one port. -/
def toCask (port m : Nat) (fs : List Frame) : List (Nat × Nat × Frame) := fs.map (fun f => (port, m, f))

theorem sendAll_mesh (port m : Nat) (fs : List Frame) (s : State) (hm : m = ownIndex s) :
    (sendAll s (toCask port m fs)).mesh = s.mesh ++ fs.map (fun f => { port := Fin.ofNat 8 port, sender := m, frame := f }) := by
  induction fs generalizing s with
  | nil => simp [toCask, sendAll]
  | cons f fs ih =>
    show (sendAll (sendTo s (port, m, f)) (toCask port m fs)).mesh = _
    rw [ih _ (hm.trans (linked_ownIndex (linked_sendTo ..)).symm), sendTo, if_pos hm, ← hm]
    simp

/-- The access of a shuttle that sends frames at once, waiting for an acknowledgement of each. -/
def awaiting (a : At) (kind : AccessKind) (k : Nat) : State :=
  expectAcks (newAccess a.s a.n a.sh (caskLevel a.s (immModule a.w)) kind false false []).1 a.n a.sh
    (getCore a.s a.n).nextAccess k

theorem postCask_free {a : At} {kind : AccessKind} (frames : List Frame)
    (h : mustHold (shOf (getCore a.s a.n) a.sh) (getCore a.s a.n).nextAccess false = false)
    (hb : behindHdr (shOf (getCore a.s a.n) a.sh) (getCore a.s a.n).nextAccess kind = false) :
    postCask a kind frames = (sendAll (awaiting a kind frames.length)
      (toCask (caskPort a.p (immCask a.w)) (immModule a.w) frames), (getCore a.s a.n).nextAccess) := by
  unfold postCask
  dsimp only
  rw [h, hb, Bool.or_self, if_neg Bool.false_ne_true, if_neg Bool.false_ne_true]
  rfl

theorem awaiting_frame (a : At) (kind : AccessKind) (k : Nat) :
    awaiting a kind k = { a.s with cores := (awaiting a kind k).cores } := rfl

theorem awaiting_kept (a : At) (kind : AccessKind) (k : Nat) :
    (getCore (awaiting a kind k) a.n).store = (getCore a.s a.n).store := by
  unfold awaiting expectAcks newAccess
  rw [getCore_modCore_same, getCore_setCore_same]
  cases a.sh <;> rfl

theorem mem_awaiting (a : At) (kind : AccessKind) (k : Nat) :
    ∃ x ∈ (shOf (getCore (awaiting a kind k) a.n) a.sh).accesses, x.id = (getCore a.s a.n).nextAccess ∧ x.kind = kind ∧
      x.unanswered = k := by
  let new : Access := { id := (getCore a.s a.n).nextAccess, level := caskLevel a.s (immModule a.w), kind := kind,
                        rel := false, held := false, frames := [], unanswered := 0 }
  have hacc : (shOf (getCore (awaiting a kind k) a.n) a.sh).accesses =
      ((shOf (getCore a.s a.n) a.sh).accesses ++ [new]).map (fun y : Access =>
        if y.id = (getCore a.s a.n).nextAccess then { y with unanswered := y.unanswered + k } else y) := by
    unfold awaiting expectAcks newAccess
    rw [getCore_modCore_same, getCore_setCore_same, shOf_modSh]
    cases a.sh <;> rfl
  rw [hacc]
  refine ⟨_, List.mem_map_of_mem (List.mem_append_right _ (List.mem_singleton_self _)), ?_⟩
  rw [if_pos rfl]
  exact ⟨rfl, rfl, Nat.zero_add k⟩

/-- What the obligation says of frames sent to a cask. -/
def sentToCask (a : At) (t : State) (fs : List Frame) : Prop :=
  (immModule a.w = ownIndex a.s → t.mesh = a.s.mesh ++
    fs.map (fun f => { port := Fin.ofNat 8 (caskPort a.p (immCask a.w)), sender := immModule a.w, frame := f })) ∧
  (immModule a.w ≠ ownIndex a.s → (getChan a.s (caskPort a.p (immCask a.w)) (immModule a.w)).state ≠ .failed →
    ∀ f ∈ fs, ∀ y ∈ frameSlots f, y ∈ tget [] (getChan t (caskPort a.p (immCask a.w)) (immModule a.w)).txq (vlOf f))

theorem sentToCask_sendAll {a : At} {s t : State} {fs : List Frame} (hmesh : s.mesh = a.s.mesh) (hports : s.ports = a.s.ports)
    (hfab : s.fabric = a.s.fabric) (htm : t.mesh = (sendAll s (toCask (caskPort a.p (immCask a.w)) (immModule a.w) fs)).mesh)
    (htp : t.ports = (sendAll s (toCask (caskPort a.p (immCask a.w)) (immModule a.w) fs)).ports) : sentToCask a t fs := by
  have hown : ownIndex s = ownIndex a.s := by rw [ownIndex, hfab, ← ownIndex]
  have hchan : ∀ {u v : State}, u.ports = v.ports → ∀ k m, getChan u k m = getChan v k m := by
    intro u v h k m
    rw [getChan, getPort, h, ← getPort, ← getChan]
  refine ⟨fun hm => ?_, fun hm hc f hf => ?_⟩
  · rw [htm, sendAll_mesh _ _ _ _ (hm.trans hown.symm), hmesh]
  · rw [hchan htp]
    refine mem_txq_sendAll (List.mem_map_of_mem hf) (hown ▸ hm) ?_
    rwa [hchan hports]

/-! ### CASK.HDR (R453) -/

/-- The largest exponent among some values, from a start. -/
def maxExp (r : Int) (xs : List Exact) : Int :=
  xs.foldl (fun r x => match x with
    | .num m e => match expoE m e with
      | some k => max r k
      | none => r
    | .nonfin _ => r) r

/-- What a value makes of the exponent so far. -/
def expStep (r : Int) (x : Exact) : Int := maxExp r [x]

theorem maxExp_cons (r : Int) (x : Exact) (xs : List Exact) : maxExp r (x :: xs) = maxExp (expStep r x) xs := rfl

theorem expStep_num {m e k r : Int} (h : expoE m e = some k) : expStep r (.num m e) = max r k := by
  simp [expStep, maxExp, h]

theorem expStep_cases (r : Int) (x : Exact) :
    expStep r x = r ∨ ∃ m e k, x = .num m e ∧ expoE m e = some k ∧ expStep r x = max r k := by
  cases x with
  | nonfin b => exact .inl rfl
  | num m e =>
    cases h : expoE m e with
    | none => exact .inl (by simp [expStep, maxExp, h])
    | some k => exact .inr ⟨m, e, k, rfl, h, expStep_num h⟩

theorem le_maxExp (r : Int) (xs : List Exact) : r ≤ maxExp r xs := by
  induction xs generalizing r with
  | nil => exact Int.le_refl r
  | cons x xs ih =>
    rw [maxExp_cons]
    refine Int.le_trans ?_ (ih _)
    rcases expStep_cases r x with h | ⟨m, e, k, -, -, h⟩ <;> omega

theorem le_maxExp_of_mem {m e k : Int} {xs : List Exact} (h : Exact.num m e ∈ xs) (hk : expoE m e = some k) (r : Int) :
    k ≤ maxExp r xs := by
  induction xs generalizing r with
  | nil => cases h
  | cons x xs ih =>
    rw [maxExp_cons]
    rcases List.mem_cons.mp h with rfl | h
    · refine Int.le_trans ?_ (le_maxExp _ _)
      rw [expStep_num hk]
      exact Int.le_max_right r k
    · exact ih h _

theorem maxExp_attained (r : Int) (xs : List Exact) :
    maxExp r xs = r ∨ ∃ m e, Exact.num m e ∈ xs ∧ expoE m e = some (maxExp r xs) := by
  induction xs generalizing r with
  | nil => exact .inl rfl
  | cons x xs ih =>
    rw [maxExp_cons]
    rcases ih (expStep r x) with h | ⟨m, e, hmem, hk⟩
    · rw [h]
      rcases expStep_cases r x with hs | ⟨m, e, k, rfl, hk, hs⟩
      · exact .inl hs
      · by_cases hle : k ≤ r
        · exact .inl (by omega)
        · refine .inr ⟨m, e, List.mem_cons_self, ?_⟩
          rw [hk, hs, Int.max_eq_right (by omega)]
    · exact .inr ⟨m, e, List.mem_cons_of_mem x hmem, hk⟩

/-- The state in which a header is posted: with a record where a value is non-finite. -/
def headerState (a : At) : State :=
  let d := entryD a (tDA a.w)
  let b := immBucket a.w
  if headerNonfin (sliceVals a.c.store d) then
    record a.s { coreRec 0x21 a.n (bucketDetail b (ownIndex a.s) (flag (modeBackup a.w)) + thinDetail a.s a.p.low b) with
      shuttle := shIdx a.sh, opcode := fldOp a.w, pc := pcOf a.r a.sh }
  else a.s

theorem noted_headerState (a : At) : noted a.s (headerState a) := by
  unfold headerState
  dsimp only
  split
  · exact noted_record ..
  · exact noted_refl _

theorem getCore_headerState (a : At) (n : Nat) : getCore (headerState a) n = getCore a.s n := by
  have hcores : (headerState a).cores = a.s.cores := by
    unfold headerState
    dsimp only
    split
    · exact record_cores ..
    · rfl
  rw [getCore, hcores, ← getCore]

/-- The header that CASK.HDR sends. -/
def headerOut (a : At) : Frame :=
  let d := entryD a (tDA a.w)
  let xs := sliceVals a.c.store d
  caskFrame a fkCaskHdr 0 false (.header (headerExp xs) (headerNonfin xs) (validCount d)
    (((bucketRec a.p (immBucket a.w)).map (fun r => r.digest)).getD 0))

/-- The instruction as it posts its header. -/
def headerAt (a : At) : At := { a with s := headerState a }

/-- The access that CASK.HDR makes. -/
def headerKind (a : At) : AccessKind := .caskHdr (immBucket a.w) (immCask a.w) (immModule a.w)

theorem actCaskHdr_eff {a : At} (hups : a.ups = Upsets.none) (hc : a.c = getCore a.s a.n)
    (hfree : mustHold (shOf a.c a.sh) a.c.nextAccess false = false)
    (hmeta : operandMeta a.c.store (if dDense (entryD a (tDA a.w)) = true then [] else [(0, entryD a (tDA a.w))]) = none) :
    (actCaskHdr a).eff = sendAll (awaiting (headerAt a) (headerKind a) 1)
      (toCask (caskPort a.p (immCask a.w)) (immModule a.w) [headerOut a]) := by
  have hcore : getCore (headerAt a).s (headerAt a).n = a.c := (getCore_headerState a a.n).trans hc.symm
  have hpost : (actCaskHdr a).eff = (postCask (headerAt a) (headerKind a) [headerOut a]).1 := by
    unfold actCaskHdr headerEffect
    dsimp only
    rw [readStore_none hups, hmeta]
    rfl
  rw [hpost, postCask_free [headerOut a] (by rw [hcore]; exact hfree) rfl]
  rfl

/-! ### CASK.PUT (R452, R563) -/

theorem flatMap_chunks (bs : List Byte) (k : Nat) :
    (List.range k).flatMap (fun i => (bs.drop (4096 * i)).take 4096) = bs.take (4096 * k) := by
  induction k with
  | zero => simp
  | succ k ih => rw [List.range_succ, List.flatMap_append, ih, List.flatMap_singleton, Nat.mul_succ, List.take_add]

/-- The pieces of 4 KiB hold the data, in order. -/
theorem flatMap_cut4k (bs : List Byte) : (cut4k bs).flatMap (fun x => x.2) = bs := by
  unfold cut4k
  rw [List.flatMap_map, flatMap_chunks]
  refine List.take_of_length_le ?_
  unfold ceilDiv
  omega

/-- Whether a piece is provisional, and its first frame's header. -/
def pieceHead (a : At) (prov : Bool) : Frame := caskFrame a fkPiece (pieceOffset a).toNat prov (.piece 0 false 0 1)

theorem pieceFrames_dense {st : Tbl Byte} {d : Image} (hd : dDense d = true) (off : Nat) (head : Frame) :
    (pieceFrames st d off head).flatMap (fun f => f.data) = (validElems d).flatMap (fun x => leBytes 2 (peek st x.1 16)) := by
  rw [pieceFrames, if_pos hd, List.flatMap_map]
  exact flatMap_cut4k _

/-- Every frame of a piece has its header's kind, tag and marks. -/
theorem pieceFrames_head {st : Tbl Byte} {d : Image} {off : Nat} {head f : Frame} (hf : f ∈ pieceFrames st d off head) :
    f.kind = head.kind ∧ f.tag = head.tag ∧ f.backup = head.backup ∧ f.standIn = head.standIn ∧ f.prov = head.prov := by
  unfold pieceFrames at hf
  dsimp only at hf
  split at hf <;> obtain ⟨x, -, rfl⟩ := List.mem_map.mp hf <;> exact ⟨rfl, rfl, rfl, rfl, rfl⟩

/-- The check states of a slice's units. -/
def sliceChks (a : At) : List Chk := (anyUnits a.c.store (entryD a (tDA a.w))).map (tget Chk.clear (getCore a.s a.n).storeChk)

/-- Whether a piece is sent provisional (R563, R566). -/
def putProv (a : At) : Bool :=
  modeProv a.w || (sliceChks a).contains .failed || !((sliceChks a).flatMap depsOf).dedup.isEmpty

/-- The frames that CASK.PUT sends. -/
def putFrames (a : At) : List Frame :=
  pieceFrames a.c.store (entryD a (tDA a.w)) (pieceOffset a).toNat (pieceHead a (putProv a))

/-- The access that CASK.PUT makes. -/
def putKind (a : At) : AccessKind :=
  .caskPiece (immBucket a.w) (immCask a.w) (immModule a.w) (pieceOffset a).toNat (validCount (entryD a (tDA a.w)))

/-- The piece whose verdict CASK.PUT owes. -/
def putPiece (a : At) (id : Nat) : PieceVerdict :=
  let d := entryD a (tDA a.w)
  { id := id, sh := a.sh, pc := pcOf a.r a.sh, dest := immModule a.w, offset := (pieceOffset a).toNat, count := validCount d
    deps := ((sliceChks a).flatMap depsOf).dedup, failed := (sliceChks a).contains .failed
    units := anyUnits a.c.store d, da := d, head := pieceHead a (putProv a) }

theorem actCaskPut_eff {a : At} (hups : a.ups = Upsets.none) (hd : dDense (entryD a (tDA a.w)) = true) :
    (actCaskPut a).eff = if putProv a = true then
      modCore (postCask a (putKind a) (putFrames a)).1 a.n (fun c => { c with
        pieces := c.pieces ++ [putPiece a (postCask a (putKind a) (putFrames a)).2] })
      else (postCask a (putKind a) (putFrames a)).1 := by
  unfold actCaskPut putEffect
  dsimp only
  rw [readStore_none hups, if_pos hd]
  rfl

/-- Settles O42: each instruction's effect, written through the casks, the partition and the frames it changes. -/
theorem caskInstructions : Obligations.CaskInstructions := by
  refine ⟨fun xs => ⟨fun m e k hx hk => le_maxExp_of_mem hx hk _, maxExp_attained _ xs⟩, fun i s a => ?_⟩
  intro b low port m d row free noHdr sent waits
  refine ⟨fun hr => ?opens, fun hr hfree hmeta => ?header, fun hr hfree hno hd => ?piece, fun hr => ?norm, fun hr => ?closes⟩
  case opens =>
    obtain ⟨hc, hregs, -, hchk, -, hups⟩ := runs_spec hr
    obtain ⟨-, -, -, -, -, -, -, hpart, -, -⟩ := place_spec hr.1
    obtain ⟨p, hp⟩ := partAt_of_corePart hpart
    obtain ⟨r, hrec, heff⟩ := actCaskOpen_eff hups hchk
    have hframe := issued_frame a (actCaskOpen a)
    have hcask : ∀ k, getCask (issued a (actCaskOpen a)) k = getCask (openBucket a.s a.p b r) k := by
      intro k
      rw [hframe, heff]
      rfl
    refine ⟨r, _, p, withRecord b (stepTag a.s a.p) r p, hrec, exec_runs (m := actCaskOpen) rfl rfl hr, hp, ?_, ?_,
      fun k hk => ?_, fun k hk => ?_, fun n hn => ?_⟩
    · rw [hframe, heff]
      exact partAt_openBucket b r hp
    · rfl
    · dsimp only [row]
      rw [hcask, getCask_openBucket, if_pos hk]
      rfl
    · rw [hcask, getCask_openBucket, if_neg hk]
    · have hcore := getCore_issued_plain (a := a) (act := actCaskOpen a) rfl n
      rw [hcore, heff]
      exact openBucket_unwaited a.s b r hn
  case header =>
    intro xs
    obtain ⟨hc, hregs, -, -, -, hups⟩ := runs_spec hr
    have hnoted := noted_headerState a
    have hcore : getCore (headerAt a).s (headerAt a).n = a.c := (getCore_headerState a a.n).trans hc.symm
    have heff := actCaskHdr_eff hups hc hfree hmeta
    have hframe := issued_frame a (actCaskHdr a)
    have hlink := linked_sendAll (awaiting (headerAt a) (headerKind a) 1) (toCask port m [headerOut a])
    refine ⟨_, headerOut a, ((bucketRec a.p b).map (fun r => r.digest)).getD 0, exec_runs (m := actCaskHdr) rfl rfl hr,
      sentToCask_sendAll (s := awaiting (headerAt a) (headerKind a) 1) ?_ ?_ ?_ ?_ ?_, ?_,
      rfl, rfl, rfl, rfl, rfl, rfl, rfl, fun r hb => ?_, rfl, ?_⟩
    · exact (congrArg State.mesh hnoted : (headerState a).mesh = _)
    · exact (noted_ports hnoted : (headerState a).ports = _)
    · exact (noted_fabric hnoted : (headerState a).fabric = _)
    · rw [hframe, heff]
    · rw [hframe, heff]
    · obtain ⟨x, hx, hid, hkind, hun⟩ := mem_awaiting (headerAt a) (headerKind a) 1
      refine ⟨x, ?_, by rw [hid, hcore], hkind, hun⟩
      rw [issued_accesses rfl, heff, linked_getCore hlink]
      exact hx
    · rw [hb]
      rfl
    · have hissued := getCore_issued_plain (a := a) (act := actCaskHdr a) rfl a.n
      rw [hissued, heff, linked_getCore hlink, ← hcore]
      exact awaiting_kept (headerAt a) (headerKind a) 1
  case piece =>
    obtain ⟨hc, hregs, -, -, -, hups⟩ := runs_spec hr
    have hbehind : behindHdr (shOf (getCore a.s a.n) a.sh) (getCore a.s a.n).nextAccess (putKind a) = false := by
      rw [← hc]
      refine List.any_eq_false.mpr (fun y hy hbad => ?_)
      simp only [Bool.and_eq_true, beq_iff_eq] at hbad
      exact hno y hy hbad.1.1 hbad.2
    have hfree' : mustHold (shOf (getCore a.s a.n) a.sh) (getCore a.s a.n).nextAccess false = false := by
      rw [← hc]
      exact hfree
    have hpost := postCask_free (putFrames a) hfree' hbehind
    have heff := actCaskPut_eff hups hd
    rw [hpost] at heff
    have hlink := linked_sendAll (awaiting a (putKind a) (putFrames a).length) (toCask port m (putFrames a))
    have hframe := issued_frame a (actCaskPut a)
    have hissued := getCore_issued_plain (a := a) (act := actCaskPut a) rfl a.n
    generalize hu : sendAll (awaiting a (putKind a) (putFrames a).length) (toCask port m (putFrames a)) = u at heff hlink
    have hrest : (actCaskPut a).eff = { u with cores := (actCaskPut a).eff.cores } := by
      rw [heff]
      split <;> rfl
    have hsame : (shOf (getCore (actCaskPut a).eff a.n) a.sh).accesses = (shOf (getCore u a.n) a.sh).accesses ∧
        (getCore (actCaskPut a).eff a.n).store = (getCore u a.n).store := by
      rw [heff]
      split
      · rw [getCore_modCore_same]
        cases a.sh <;> exact ⟨rfl, rfl⟩
      · exact ⟨rfl, rfl⟩
    refine ⟨_, putFrames a, exec_runs (m := actCaskPut) rfl rfl hr,
      sentToCask_sendAll (s := awaiting a (putKind a) (putFrames a).length) rfl rfl rfl ?_ ?_, ?_,
      pieceFrames_dense hd _ _, fun f hf => ?_, fun hprov => ?_, ?_⟩
    · rw [hframe, hrest, ← hu]
    · rw [hframe, hrest, ← hu]
    · dsimp only [waits]
      rw [issued_accesses rfl, hsame.1, linked_getCore hlink, hc]
      exact mem_awaiting a (putKind a) (putFrames a).length
    · obtain ⟨hkind, htag, hbackup, hstand, hprov⟩ := pieceFrames_head hf
      refine ⟨hkind, htag, hbackup, hstand, fun hm => hprov.trans ?_⟩
      show putProv a = true
      rw [putProv, hm]
      rfl
    · have hp : putProv a = true := by
        rw [putProv, hprov]
        rfl
      refine ⟨putPiece a (getCore a.s a.n).nextAccess, ?_, by rw [hc]; rfl, rfl, rfl⟩
      rw [hissued, heff, if_pos hp, getCore_modCore_same]
      exact List.mem_append_right _ (List.mem_singleton_self _)
    · rw [hissued, hc]
      exact hsame.2.trans ((congrArg (·.store) (linked_getCore hlink a.n)).trans (awaiting_kept a _ _))
  case norm =>
    obtain ⟨-, -, -, -, -, -, -, hpart, -, -⟩ := place_spec hr.1
    obtain ⟨p, hp⟩ := partAt_of_corePart hpart
    have heff := actCaskNorm_eff a
    have hset := settleGroups_settled (modPart a.s low (declared b)) low
    obtain ⟨q, hq, hgroups⟩ := hset.part (partAt_modPart (g := declared b) hp (fun _ => rfl))
    have hrec : ∀ c, bucketRec q c = bucketRec (declared b p) c := bucketRec_congr (buckets_of_groupless hgroups)
    have hframe := issued_frame a (actCaskNorm a)
    refine ⟨_, p, q, exec_runs (m := actCaskNorm) rfl rfl hr, hp, ?_, fun r h => ?_, fun c hcb => ?_, fun k => ?_⟩
    · rw [hframe, heff]
      exact hq
    · rw [hrec, bucketRec_declared, if_pos rfl, h]
      rfl
    · rw [hrec, bucketRec_declared, if_neg hcb]
    · rw [hframe, heff]
      exact hset.getCask k
  case closes =>
    obtain ⟨-, -, -, -, -, -, -, hpart, -, -⟩ := place_spec hr.1
    obtain ⟨p, hp⟩ := partAt_of_corePart hpart
    have hframe := issued_frame a (actCaskClose a)
    have hcask : ∀ k, getCask (issued a (actCaskClose a)) k = getCask (closeBucket a.s a.p b) k := by
      intro k
      rw [hframe]
      rfl
    refine ⟨_, p, withoutRecord b ((caskBuckets a.s a.p b).map (fun x => x.tag)) p,
      exec_runs (m := actCaskClose) rfl rfl hr, hp, ?_, ?_, fun c hcb => ?_, fun k hk => ?_, fun k hk => ?_⟩
    · rw [hframe]
      exact partAt_closeBucket b hp
    · rw [bucketRec_withoutRecord, if_pos rfl]
    · rw [bucketRec_withoutRecord, if_neg hcb]
    · dsimp only [row]
      rw [hcask, getCask_closeBucket, if_pos hk]
      rfl
    · rw [hcask, getCask_closeBucket, if_neg hk]

end Sys2Proof.Machine
end

section
/-! The optimizer update and the mask instructions (R376 to R423): the patterns that CULL and GERMINATE leave, what UPD
writes behind its verdict fence, and the stamp of MASK.COMMIT. -/

namespace Sys2Proof.Machine

/-! ### Patterns (R388, R393) -/

theorem cullSpots_subset {d : Image} {h : Header} {unit : Bool} {k : Nat} {blocks : List (Nat × Nat)} {sp : List Spot}
    {x : Spot} (hx : x ∈ (cullSpots d h unit k blocks sp).spots) : x ∈ sp := by
  unfold cullSpots at hx
  split at hx <;> exact (List.mem_filter.mp hx).1

/-- A CULL of nothing takes no position away. -/
theorem cullSpots_zero (d : Image) (h : Header) (unit : Bool) (blocks : List (Nat × Nat)) (sp : List Spot) :
    (cullSpots d h unit 0 blocks sp).spots = sp := by
  unfold cullSpots
  split
  · exact List.filter_eq_self.mpr (fun x _ => by simp [matchRounds])
  · exact List.filter_eq_self.mpr (fun x _ => by simp)

theorem mem_of_mem_tinsert {α : Type} {i : Nat} {x : α} {y : Nat × α} :
    ∀ {t : Tbl α}, y ∈ tinsert t i x → y = (i, x) ∨ y ∈ t
  | [], h => .inl (List.mem_singleton.mp h)
  | (k, v) :: t, h => by
    unfold tinsert at h
    split at h
    · exact List.mem_cons.mp h
    · split at h
      · exact (List.mem_cons.mp h).imp_right (List.mem_cons_of_mem _)
      · rcases List.mem_cons.mp h with rfl | h
        · exact .inr List.mem_cons_self
        · exact (mem_of_mem_tinsert h).imp_right (List.mem_cons_of_mem _)

/-- What stands in a table after a list has been entered by key. -/
theorem mem_of_mem_foldl_tinsert {α : Type} {key : α → Nat} {xs : List α} {t : Tbl α} {y : Nat × α}
    (h : y ∈ xs.foldl (fun t x => tinsert t (key x) x) t) : y.2 ∈ xs ∨ y ∈ t := by
  induction xs generalizing t with
  | nil => exact .inr h
  | cons x xs ih =>
    rcases ih h with h | h
    · exact .inl (List.mem_cons_of_mem x h)
    · rcases mem_of_mem_tinsert h with rfl | h
      · exact .inl List.mem_cons_self
      · exact .inr h

/-- A grown pattern holds the positions it had and new ones with value 0. -/
theorem growSpots_origin {st : Tbl Byte} {d db : Image} {h : Header} {unit : Bool} {k : Nat} {blocks : List (Nat × Nat)}
    {sp : List Spot} {x : Spot} (hx : x ∈ (growSpots st d db h unit k blocks sp).spots) :
    x ∈ sp ∨ (x.raw = 0 ∧ x.origin = none) := by
  unfold growSpots at hx
  dsimp only at hx
  obtain ⟨y, hy, rfl⟩ := List.mem_map.mp hx
  rcases mem_of_mem_foldl_tinsert (key := fun x : Spot => x.key) hy with hmem | hmem
  · rcases List.mem_append.mp hmem with hmem | hmem
    · exact .inl hmem
    · obtain ⟨z, -, hz⟩ := List.mem_map.mp hmem
      rw [← hz]
      exact .inr ⟨rfl, rfl⟩
  · cases hmem

/-! ### Counters, journal flags and vectors -/

theorem issued_counters (a : At) (act : Action) :
    (getCore (issued a act) a.n).counters = (getCore act.eff a.n).counters := by rw [getCore_issued]

theorem counter_bumpCore (s : State) (n off : Nat) :
    tget 0 (getCore (bumpCore s n off 1) n).counters off = tget 0 (getCore s n).counters off + 1 := by
  rw [bumpCore, getCore_modCore_same, bumpTbl, tget_tset_same]
  rfl

theorem EffKept.jnlFlag (n : Nat) (s : State) (p : Part) (f : Nat) : EffKept n s (jnlFlag s p f) :=
  ⟨.refl _, fun _ _ => rfl, rfl, rfl, rfl⟩

theorem getCore_partVector (s : State) (low k m : Nat) : getCore (partVector s low k) m = getCore s m := by
  rw [getCore, partVector, raiseVector_cores, ← getCore]

theorem effKept_partVector (n : Nat) (s : State) (low k : Nat) : EffKept n s (partVector s low k) := by
  refine ⟨by rw [getCore_partVector]; exact .refl _, fun m _ => getCore_partVector .., raiseVector_quads .., ?_, ?_⟩ <;>
    rw [partVector, raiseVector_frame]

theorem getCore_record (s : State) (r : RecIn) (m : Nat) : getCore (record s r) m = getCore s m := by
  rw [getCore, record_cores, ← getCore]

/-- A record leaves what an instruction leaves, as long as there is room for it. -/
theorem IssueKept.recorded {n : Nat} {s t : State} (h : IssueKept n s t)
    (hroom : s.errors.store.length < 510 → t.errors.store.length < 512) (r : RecIn) : IssueKept n s (record t r) := by
  have hnoted : noted t (record t r) := noted_record ..
  refine ⟨by rw [getCore_record]; exact h.core, fun m hm => (getCore_record ..).trans (h.others m hm), (noted_quads hnoted).trans h.quads,
    (noted_lpddr hnoted).trans h.lpddr, fun hs => ?_⟩
  rw [record_hbm_of_room r (hroom hs), h.hbm hs]

/-! ### UPD.CFG and UPD (R412 to R423) -/

theorem actUpdCfg_eff {a : At} (hups : a.ups = Upsets.none) : (actUpdCfg a).eff =
    push a.s a.n a.sh (latency a.p 4 3) none none
      (.paramSlot (tDX a.w) (readBytes a.c.store (dBase (entryD a (tDA a.w))) 128)) := by
  unfold actUpdCfg
  dsimp only
  rw [readStore_none hups]

/-- The element that UPD stores for a weight (R292, R293). -/
def weightOut (a : At) (q : Params) (k : Nat) : Nat :=
  let d := entryD a (tDO a.w)
  newWeight ((tyFp (dType d)).getD fmtBF16) (weightTrace a q k).1 (weightTrace a q k).2.delta
    (philoxRho q.seed (q.estart + (weightIndex q d).getD 0 + k) q.tensor q.stepNo)

section Upd
variable {a : At} {q : Params} (hups : a.ups = Upsets.none) (hslot : slotOf a = some q)
include hups hslot

theorem actUpd_blocked (hsub : tSub a.w < 2) (hb : immBucket a.w ∉ a.c.verdictBuckets) :
    (actUpd a).eff = blockUpd a a.s 2 := by
  unfold actUpd updEffect
  dsimp only
  rw [readStore_none hups, hslot]
  dsimp only
  rw [if_pos ⟨by omega, by simpa using hb⟩]

/-- What a UPD that may write goes on to. -/
theorem actUpd_open (hb : tSub a.w = 2 ∨ immBucket a.w ∈ a.c.verdictBuckets)
    (hquiet : operandsChk (readStore a (operandUnits (updReads a))) a.n (updOperands a) ≠ .failed) :
    (actUpd a).eff =
      if tSub a.w = 2 then
        pushStore (if (remapPokes a q).2 = 0 then a.s
          else record (bumpCore a.s a.n ctrRemapMiss (remapPokes a q).2) { coreRec 0x1E a.n (remapPokes a q).2 with
            engine := 2, shuttle := shIdx a.sh, opcode := fldOp a.w, pc := pcOf a.r a.sh })
          a (latency a.p 6 5) none (.store (remapPokes a q).1 .clear)
      else if updSkips a.s a.p (immBucket a.w) = true then
        partVector (jnlFlag (bumpCore a.s a.n ctrUpdSkipped 1) a.p 1) a.p.low 2
      else pushStore (detections a.s a.n (updFailures a q)) a (latency a.p 6 5) none
        (.store (updatePokes a q) (detectChk (updFailures a q) .clear)) := by
  rw [readStore_none hups] at hquiet
  unfold actUpd updEffect
  dsimp only
  rw [readStore_none hups, hslot]
  dsimp only
  have hopen : ¬ (tSub a.w ≠ 2 ∧ (!a.c.verdictBuckets.contains (immBucket a.w)) = true) := by
    rintro ⟨hne, hnot⟩
    rcases hb with h | h
    · exact hne h
    · simp [h] at hnot
  rw [if_neg hopen, if_neg hquiet]
  rfl

omit hslot in
theorem updFailures_none : updFailures a q = [] := vecFailures_none hups ..

omit hslot in
theorem mem_updatePokes {k : Nat} (hk : k < dValid (entryD a (tDO a.w)) 0) :
    (elemBit (entryD a (tDO a.w)) [k], 16, weightOut a q k % 2 ^ 16) ∈ updatePokes a q := by
  unfold updatePokes
  dsimp only
  rw [updFailures_none hups, detectVals_nil]
  refine List.mem_append_left _ (List.mem_append_left _ (List.mem_map.mpr ⟨(BitVec.ofNat 32 (weightOut a q k), k), ?_, ?_⟩))
  · rw [List.mem_zipIdx_iff_getElem?]
    simp only [List.getElem?_map, List.getElem?_range hk, Option.map_some]
    rfl
  · rw [BitVec.toNat_ofNat, Nat.mod_mod_of_dvd _ (by decide)]

end Upd

theorem blockUpd_kept (a : At) (f : Nat) : IssueKept a.n a.s (blockUpd a a.s f) ∧
    (getCore (blockUpd a a.s f) a.n).flight = (getCore a.s a.n).flight ∧
    tget 0 (getCore (blockUpd a a.s f) a.n).counters ctrUpdBlocked = tget 0 (getCore a.s a.n).counters ctrUpdBlocked + 1 := by
  have hkept : EffKept a.n a.s (jnlFlag (bumpCore a.s a.n ctrUpdBlocked 1) a.p f) :=
    (sideWork_bumpCore ..).2.trans (.jnlFlag ..)
  have hcore : getCore (blockUpd a a.s f) a.n = getCore (bumpCore a.s a.n ctrUpdBlocked 1) a.n := getCore_reported ..
  refine ⟨.reported hkept rfl .., ?_, ?_⟩
  · rw [hcore, bumpCore, getCore_modCore_same]
  · rw [hcore, counter_bumpCore]

theorem skipUpd_kept (a : At) :
    let t := partVector (jnlFlag (bumpCore a.s a.n ctrUpdSkipped 1) a.p 1) a.p.low 2
    EffKept a.n a.s t ∧ (getCore t a.n).flight = (getCore a.s a.n).flight ∧
      tget 0 (getCore t a.n).counters ctrUpdSkipped = tget 0 (getCore a.s a.n).counters ctrUpdSkipped + 1 := by
  intro t
  have hcore : getCore t a.n = getCore (bumpCore a.s a.n ctrUpdSkipped 1) a.n := getCore_partVector ..
  refine ⟨((sideWork_bumpCore ..).2.trans (.jnlFlag ..)).trans (effKept_partVector ..), ?_, ?_⟩
  · rw [hcore, bumpCore, getCore_modCore_same]
  · rw [hcore, counter_bumpCore]

/-- Missed list entries are counted and recorded, and the core's results in flight stay (R423). -/
theorem remapMiss_kept (a : At) (k : Nat) (r : RecIn) :
    let t := if k = 0 then a.s else record (bumpCore a.s a.n ctrRemapMiss k) r
    IssueKept a.n a.s t ∧ (getCore t a.n).flight = (getCore a.s a.n).flight := by
  intro t
  dsimp only [t]
  split
  · exact ⟨(EffKept.refl ..).issue, rfl⟩
  · refine ⟨(sideWork_bumpCore ..).2.issue.recorded (fun h => by exact Nat.lt_trans h (by decide)) r, ?_⟩
    rw [getCore_record, bumpCore, getCore_modCore_same]

/-- As `sends_spec`, where a record may have been made. -/
theorem sends_recorded {a : At} {act : Action} {u : State} {lat : Nat} {e : Effect} (hc : a.c = getCore a.s a.n)
    (hregs : a.r = getRegs a.s a.n) (hu : IssueKept a.n a.s u) (hflight : (getCore u a.n).flight = a.c.flight)
    (heff : act.eff = pushStore u a lat none e) : issueFrame a (issued a act) ∧ landsIn a (issued a act) lat e := by
  obtain ⟨f, hf, hdue, hsh, he⟩ := pushStore_flight (s := u) (a := a) lat none e
  rw [hflight] at hf
  have hcycle : (getCore u a.n).cycle = a.c.cycle := by rw [hu.core.cycle, hc]
  rw [hcycle] at hdue
  refine ⟨issueFrame_issued hc hregs ?_, landsIn_issued a act (f := f) (by rw [heff]; exact hf) hdue hsh he⟩
  rw [heff]
  exact hu.then (.pushStore ..)

/-! ### CULL and GERMINATE (R376 to R402) -/

/-- The elements of a region's bytes at a base. -/
def regionPokes (base : Nat) (bs : List Byte) : List Poke :=
  bs.zipIdx.map (fun (x : Byte × Nat) => (8 * (base + x.2), 8, x.1.toNat))

theorem mem_regionPokes {base j : Nat} {bs : List Byte} {b : Byte} (h : bs[j]? = some b) :
    (8 * (base + j), 8, b.toNat) ∈ regionPokes base bs :=
  List.mem_map.mpr ⟨(b, j), List.mem_zipIdx_iff_getElem?.mpr h, rfl⟩

theorem startPass_core (c : Core) (budget work : Nat) (failed : Bool) :
    startPass c budget work failed =
      { c with pass := (startPass c budget work failed).pass, lastW := (startPass c budget work failed).lastW } := by
  unfold startPass finishPass
  split
  · split <;> rfl
  · rfl

theorem pushStore_pass (s : State) (a : At) (lat : Nat) (verdict : Option Nat) (e : Effect) :
    (getCore (pushStore s a lat verdict e) a.n).pass = (getCore s a.n).pass := by
  unfold pushStore newAccess
  rw [getCore_push_same, getCore_setCore_same]
  cases a.sh <;> rfl

section Masks
variable {a : At} {grow : Bool} {k : Nat} {work : Nat → Nat → Nat → Nat}
  {derive_ : Header → List (Nat × Nat) → List Spot → Derived} {dbs : List Image} {extra : Image → Conds}
  {onShort : State → Header → Nat → State}

/-- What a mask instruction on a sound region whose output fits does. -/
theorem actMask_eff (hups : a.ups = Upsets.none) (hfmt : cullFmt (entryD a (tDA a.w)) = true)
    (hbit : grow = true ∨ dType (entryD a (tDA a.w)) ≠ tyBit)
    (hmeta : worstMeta (regionChecks a.c.store (entryD a (tDA a.w))) = none) :
    let da := entryD a (tDA a.w)
    let h := headerOf a.c.store da
    let blocks := bsrBlocks a.c.store da
    let r := derive_ h blocks (spotsOf a.c.store da)
    let out := regionBytes da h (newP0 da h k grow) blocks r.spots
    (out.length : Int) ≤ dStride (entryD a (tDO a.w)) 1 →
    (fldFlag a.w 0 = true → r.spots.length ≤ dValid (entryD a (tDX a.w)) 0) →
    ∃ wk list chk, (actMask a grow k work derive_ dbs extra onShort).eff =
      pushStore (modCore (onShort (noteAhead a.s a [da]) h r.short) a.n (fun c => startPass c (kBudget a.w) wk false)) a
        (kBudget a.w + latency a.p 40 32) none (.store (regionPokes (dBase (entryD a (tDO a.w))) out ++ list) chk) := by
  intro da h blocks r out hlen hx
  have hrefused : (!cullFmt da || (!grow && dType da == tyBit)) = false := by
    rw [hfmt]
    rcases hbit with rfl | hbit
    · rfl
    · simp [da, hbit]
  have hfit : ¬ ((fldFlag a.w 0 && decide (dValid (entryD a (tDX a.w)) 0 < r.spots.length)) = true) := by
    simp only [Bool.and_eq_true, decide_eq_true_eq, not_and, Nat.not_lt]
    exact hx
  unfold actMask
  dsimp only
  rw [hrefused, if_neg Bool.false_ne_true, hmeta]
  dsimp only
  rw [readStore_none hups, if_neg (Int.not_lt.mpr hlen), if_neg hfit]
  exact ⟨_, _, _, rfl⟩

/-- The region that a mask instruction stores, as the obligation states it. -/
theorem mask_region (hc : a.c = getCore a.s a.n) (hregs : a.r = getRegs a.s a.n) {act : Action} {u : State} {wk : Nat}
    {out : List Byte} {list : List Poke} {chk : Chk} (hu : IssueKept a.n a.s u) (hside : sideCore (getCore a.s a.n) (getCore u a.n))
    (heff : act.eff = pushStore (modCore u a.n (fun c => startPass c (kBudget a.w) wk false)) a
      (kBudget a.w + latency a.p 40 32) none (.store (regionPokes (dBase (entryD a (tDO a.w))) out ++ list) chk)) :
    ∃ elems chk, landsIn a (issued a act) (kBudget a.w + latency a.p 40 32) (.store elems chk) ∧
      (∀ j b, out[j]? = some b → (8 * (dBase (entryD a (tDO a.w)) + j), 8, b.toNat) ∈ elems) ∧
      issueFrame a (issued a act) ∧ (getCore (issued a act) a.n).heddle = a.c.heddle ∧
      ∃ p, (getCore (issued a act) a.n).pass = some p ∧ p.budget = kBudget a.w ∧ p.failed = false := by
  let v := modCore u a.n (fun c => startPass c (kBudget a.w) wk false)
  have hv : IssueKept a.n a.s v := hu.then (.modCore (startPass_kept ..))
  have hcore : getCore v a.n = startPass (getCore u a.n) (kBudget a.w) wk false := getCore_modCore_same ..
  have hkeep := startPass_core (getCore u a.n) (kBudget a.w) wk false
  rw [← hcore] at hkeep
  have hflight : (getCore v a.n).flight = a.c.flight := by rw [hkeep, hside, hc]
  obtain ⟨hframe, hlands⟩ := sends_recorded hc hregs hv hflight heff
  refine ⟨_, chk, hlands, fun j b hb => List.mem_append_left _ (mem_regionPokes hb), hframe, ?_, ?_⟩
  · rw [issued_heddle, heff, pushStore_heddle, hkeep, hside, hc]
  · refine ⟨{ issued := (finishPass (getCore u a.n)).cycle, budget := kBudget a.w, work := wk, overrunning := false,
              overran := 0, failed := false }, ?_, rfl, rfl⟩
    rw [issued_pass, heff, pushStore_pass, hcore]
    rfl

end Masks

/-- The pattern and the bytes that a CULL of DA leaves. -/
def culled (a : At) : Derived :=
  let da := entryD a (tDA a.w)
  cullSpots da (headerOf a.c.store da) (kUnit a.w) (kK a.w) (bsrBlocks a.c.store da) (spotsOf a.c.store da)

/-- How many positions GERMINATE adds to a unit: none under S2 (R636). -/
def growCount (a : At) : Nat := if decide (2 ≤ stageNow a.s) then 0 else kK a.w

/-- The pattern that GERMINATE leaves. -/
def grown (a : At) : Derived :=
  let da := entryD a (tDA a.w)
  growSpots a.c.store da (entryD a (tDB a.w)) (headerOf a.c.store da) (kUnit a.w) (growCount a) (bsrBlocks a.c.store da)
    (spotsOf a.c.store da)

/-- The bytes of DA's region with a new pattern. -/
def maskOut (a : At) (grow : Bool) (k : Nat) (r : Derived) : List Byte :=
  let da := entryD a (tDA a.w)
  regionBytes da (headerOf a.c.store da) (newP0 da (headerOf a.c.store da) k grow) (bsrBlocks a.c.store da) r.spots

/-- The store that a mask instruction sends. -/
def maskStore (a : At) (u : State) (wk : Nat) (out : List Byte) (list : List Poke) (chk : Chk) : State :=
  pushStore (modCore u a.n (fun c => startPass c (kBudget a.w) wk false)) a (kBudget a.w + latency a.p 40 32) none
    (.store (regionPokes (dBase (entryD a (tDO a.w))) out ++ list) chk)

/-- What GERMINATE does of its shortfall: under S2 it is counted in full and recorded (R636). -/
def growShort (a : At) (s : State) (h : Header) (short : Nat) : State :=
  if decide (2 ≤ stageNow a.s) then
    record (bumpCore s a.n ctrMaskShort (kK a.w * unitTotal a h)) { coreRec 0x44 a.n (stageNow a.s) with
      engine := 1, shuttle := shIdx a.sh, opcode := fldOp a.w, pc := pcOf a.r a.sh }
  else if short = 0 then s
  else bumpCore s a.n ctrMaskShort short

/-- A shortfall is counted, and what else was noted stays (R395). -/
theorem short_kept {a : At} {s : State} (h : IssueKept a.n a.s s) (hside : sideCore (getCore a.s a.n) (getCore s a.n))
    (off short : Nat) :
    let t := if short = 0 then s else bumpCore s a.n off short
    IssueKept a.n a.s t ∧ sideCore (getCore a.s a.n) (getCore t a.n) := by
  intro t
  dsimp only [t]
  split
  · exact ⟨h, hside⟩
  · obtain ⟨hcore, hkept⟩ := sideWork_bumpCore s a.n off short
    exact ⟨h.then hkept, hside.trans hcore⟩

theorem noteAhead_room (a : At) (s : State) (ds : List Image) (h : s.errors.store.length < 510) :
    (noteAhead s a ds).errors.store.length < 512 := by
  unfold noteAhead
  dsimp only
  split
  · omega
  · rw [partVector, raiseVector_errors, record_store_of_room]
    · simp only [List.length_append, List.length_singleton]
      exact Nat.lt_trans (Nat.succ_lt_succ h) (by decide)
    · exact Nat.lt_trans h (by decide)

theorem growShort_kept (a : At) (ds : List Image) (h : Header) (short : Nat) :
    let t := growShort a (noteAhead a.s a ds) h short
    IssueKept a.n a.s t ∧ sideCore (getCore a.s a.n) (getCore t a.n) := by
  intro t
  obtain ⟨hkept, hside⟩ := noteAhead_kept a a.s ds
  dsimp only [t]
  unfold growShort
  split
  · obtain ⟨hcore, hbump⟩ := sideWork_bumpCore (noteAhead a.s a ds) a.n ctrMaskShort (kK a.w * unitTotal a h)
    refine ⟨(hkept.then hbump).recorded (fun hroom => noteAhead_room a a.s ds hroom) _, ?_⟩
    rw [getCore_record]
    exact hside.trans hcore
  · exact short_kept hkept hside ..

theorem actCull_eff {a : At} (hups : a.ups = Upsets.none) (hfmt : cullFmt (entryD a (tDA a.w)) = true)
    (hbit : dType (entryD a (tDA a.w)) ≠ tyBit) (hmeta : worstMeta (regionChecks a.c.store (entryD a (tDA a.w))) = none)
    (hlen : ((maskOut a false (kK a.w) (culled a)).length : Int) ≤ dStride (entryD a (tDO a.w)) 1)
    (hx : fldFlag a.w 0 = true → (culled a).spots.length ≤ dValid (entryD a (tDX a.w)) 0) :
    ∃ wk list chk, (actCull a).eff = maskStore a
      (if (culled a).short = 0 then noteAhead a.s a [entryD a (tDA a.w)]
        else bumpCore (noteAhead a.s a [entryD a (tDA a.w)]) a.n ctrMaskShort (culled a).short)
      wk (maskOut a false (kK a.w) (culled a)) list chk := by
  unfold actCull
  exact actMask_eff hups hfmt (.inr hbit) hmeta hlen hx

theorem actGerminate_eff {a : At} (hups : a.ups = Upsets.none) (hfmt : cullFmt (entryD a (tDA a.w)) = true)
    (hmeta : worstMeta (regionChecks a.c.store (entryD a (tDA a.w))) = none)
    (hlen : ((maskOut a true (growCount a) (grown a)).length : Int) ≤ dStride (entryD a (tDO a.w)) 1)
    (hx : fldFlag a.w 0 = true → (grown a).spots.length ≤ dValid (entryD a (tDX a.w)) 0) :
    ∃ wk list chk, (actGerminate a).eff = maskStore a
      (growShort a (noteAhead a.s a [entryD a (tDA a.w)]) (headerOf a.c.store (entryD a (tDA a.w))) (grown a).short)
      wk (maskOut a true (growCount a) (grown a)) list chk := by
  unfold actGerminate
  exact actMask_eff (onShort := growShort a) hups hfmt (.inl rfl) hmeta hlen hx

/-! ### MASK.COMMIT (R398) -/

theorem actMaskCommit_eff (a : At) : (actMaskCommit a).eff =
    push (newAccess a.s a.n a.sh 0 .commit false false []).1 a.n a.sh 1
      (some (newAccess a.s a.n a.sh 0 .commit false false []).2) none (.commit (commitPoke a)) := rfl

theorem maskCommit_sends {a : At} (hc : a.c = getCore a.s a.n) (hregs : a.r = getRegs a.s a.n) :
    issueFrame a (issued a (actMaskCommit a)) ∧ landsIn a (issued a (actMaskCommit a)) 1 (.commit (commitPoke a)) := by
  have hacc : EffKept a.n a.s (newAccess a.s a.n a.sh 0 .commit false false []).1 := .newAccess ..
  have hflight : (getCore (newAccess a.s a.n a.sh 0 .commit false false []).1 a.n).flight = (getCore a.s a.n).flight := by
    unfold newAccess
    rw [getCore_setCore_same]
    exact modSh_flight ..
  have heff := actMaskCommit_eff a
  refine ⟨issueFrame_issued hc hregs (by rw [heff]; exact (hacc.trans (.push ..)).issue), ?_⟩
  refine ⟨_, (issued_flight ..).trans (by rw [heff, getCore_push_same, hflight, ← hc]), ?_, rfl, rfl⟩
  exact congrArg (· + _) (hacc.core.cycle.trans (by rw [hc]))

/-- Settles O43: by what a mask instruction stores, and by the branches of UPD. -/
theorem updateAndMasks : Obligations.UpdateAndMasks := by
  refine ⟨fun d db h st unit k blocks sp => ⟨fun x => cullSpots_subset, cullSpots_zero d h unit blocks sp,
    fun x => growSpots_origin⟩, fun i s a => ?_⟩
  intro st d da db dx h blocks quiet tally region fits
  refine ⟨fun hr => ?cfg, fun hr q hslot hsub => ⟨fun hb => ?blocked, fun hb hquiet => ⟨fun hskip => ?skipped,
    fun hskip => ?written⟩⟩, fun hr q hslot hsub hquiet => ?remap, fun hr => ?cull, fun hr => ?germinate, fun hr => ?commit⟩
  case cfg =>
    obtain ⟨hc, hregs, -, -, -, hups⟩ := runs_spec hr
    exact ⟨_, exec_runs (m := actUpdCfg) rfl rfl hr, pushes_here hc hregs (actUpdCfg_eff hups)⟩
  case blocked =>
    obtain ⟨hc, hregs, -, -, -, hups⟩ := runs_spec hr
    have heff := actUpd_blocked hups hslot hsub hb
    obtain ⟨hkept, hflight, hcount⟩ := blockUpd_kept a 2
    refine ⟨_, exec_runs (m := actUpd) rfl rfl hr, ?_, issueFrame_issued hc hregs (by rw [heff]; exact hkept), ?_⟩
    · rw [issued_flight, heff, hflight, hc]
    · dsimp only [tally]
      rw [issued_counters, heff, hcount, hc]
  case skipped =>
    obtain ⟨hc, hregs, -, -, -, hups⟩ := runs_spec hr
    have heff := actUpd_open hups hslot (.inr hb) hquiet
    rw [if_neg (by omega), if_pos hskip] at heff
    obtain ⟨hkept, hflight, hcount⟩ := skipUpd_kept a
    refine ⟨_, exec_runs (m := actUpd) rfl rfl hr, ?_, issueFrame_issued hc hregs (by rw [heff]; exact hkept.issue), ?_⟩
    · rw [issued_flight, heff, hflight, hc]
    · dsimp only [tally]
      rw [issued_counters, heff, hcount, hc]
  case written =>
    obtain ⟨hc, hregs, -, -, -, hups⟩ := runs_spec hr
    have heff := actUpd_open hups hslot (.inr hb) hquiet
    rw [if_neg (by omega), if_neg (by rw [hskip]; decide), updFailures_none hups] at heff
    obtain ⟨hframe, hlands⟩ := sends_here hc hregs heff
    refine ⟨_, updatePokes a q, _, exec_runs (m := actUpd) rfl rfl hr, hframe, hlands, fun k hk => ?_⟩
    have hmem := mem_updatePokes (q := q) hups hk
    rw [weightOut, weightTrace] at hmem
    dsimp only at hmem
    rw [Nat.add_assoc q.goff, Nat.add_assoc q.estart] at hmem
    exact hmem
  case remap =>
    obtain ⟨hc, hregs, -, -, -, hups⟩ := runs_spec hr
    have heff := actUpd_open hups hslot (.inl hsub) hquiet
    rw [if_pos hsub] at heff
    obtain ⟨hkept, hflight⟩ := remapMiss_kept a (remapPokes a q).2 { coreRec 0x1E a.n (remapPokes a q).2 with
      engine := 2, shuttle := shIdx a.sh, opcode := fldOp a.w, pc := pcOf a.r a.sh }
    exact ⟨_, _, exec_runs (m := actUpd) rfl rfl hr, sends_recorded hc hregs hkept (by rw [hflight, hc]) heff⟩
  case cull =>
    intro r hfits hbit
    obtain ⟨hc, hregs, -, -, -, hups⟩ := runs_spec hr
    obtain ⟨hfmt, hmeta, hlen, hx⟩ := hfits
    obtain ⟨wk, list, chk, heff⟩ := actCull_eff hups hfmt hbit hmeta hlen hx
    obtain ⟨hahead, hside⟩ := noteAhead_kept a a.s [da]
    obtain ⟨hkept, hside⟩ := short_kept hahead hside ctrMaskShort (culled a).short
    exact ⟨_, exec_runs (m := actCull) rfl rfl hr, mask_region hc hregs hkept hside heff⟩
  case germinate =>
    intro k r hfits
    obtain ⟨hc, hregs, -, -, -, hups⟩ := runs_spec hr
    have hk : k = growCount a := by
      simp [k, growCount]
    clear_value k
    subst hk
    obtain ⟨hfmt, hmeta, hlen, hx⟩ := hfits
    obtain ⟨wk, list, chk, heff⟩ := actGerminate_eff hups hfmt hmeta hlen hx
    obtain ⟨hkept, hside⟩ := growShort_kept a [da] h (grown a).short
    exact ⟨_, exec_runs (m := actGerminate) rfl rfl hr, mask_region hc hregs hkept hside heff⟩
  case commit =>
    obtain ⟨hc, hregs, -, -, -, -⟩ := runs_spec hr
    exact ⟨_, exec_runs (m := actMaskCommit) rfl rfl hr, maskCommit_sends hc hregs⟩

end Sys2Proof.Machine
end

section
/-! The selvedge unit, the declared horizon and the step journal (R424 to R432, R584 to R594, R649). -/

namespace Sys2Proof.Machine

/-! ### The selvedge unit (R584 to R593) -/

/-- The check value of CRC-32C in the unit's arithmetic (R585). -/
theorem crc32c_check : crcResult 32 0x1EDC6F41 0xFFFFFFFF true true true
    [0x31, 0x32, 0x33, 0x34, 0x35, 0x36, 0x37, 0x38, 0x39] = 0xE3069283 := by decide +kernel

/-- The cycle on which a run ends: one cc per 64 bytes, behind the runs before it (R589). -/
def runStop (a : At) : Nat :=
  max (a.c.cycle + 1) ((liveRuns a.c).getLast?.getD 0) + ceilDiv (selvOut a).bytes 64

/-- The state in which a run is queued. -/
def runQueued (a : At) : State :=
  modCore a.s a.n (fun c => { c with selv := { c.selv with runs := liveRuns c ++ [runStop a] } })

/-- The outcome of a run, under the check state of what it reads. -/
def runEffect (a : At) (chk : Chk) : Effect :=
  .selv (pcOf a.r a.sh) (BitVec.ofNat 64 (selvOut a).result) (selvOut a).events (selvOut a).writes chk (selvOut a).tally

theorem actSelvRun_eff {a : At} (hups : a.ups = Upsets.none)
    (hmeta : dDense (entryD a (tDA a.w)) = false → worstMeta (regionChecks a.c.store (entryD a (tDA a.w))) = none) :
    ∃ chk, (actSelvRun a).eff =
      if (selvOut a).writes.isEmpty then
        push (runQueued a) a.n a.sh (runStop a + 1 - a.c.cycle) none none (runEffect a chk)
      else pushStore (runQueued a) a (runStop a + 1 - a.c.cycle) none (runEffect a chk) := by
  have hbad : (if dDense (entryD a (tDA a.w)) = true then none
      else worstMeta (regionChecks a.c.store (entryD a (tDA a.w)))) = none := by
    split
    · rfl
    · next h => exact hmeta (by simpa using h)
  unfold actSelvRun
  dsimp only
  rw [readStore_none hups, hbad]
  exact ⟨_, rfl⟩

theorem runQueued_kept (a : At) : EffKept a.n a.s (runQueued a) := .modCore ⟨rfl, rfl, rfl, rfl, rfl, rfl, rfl, rfl⟩

theorem issued_selv (a : At) (act : Action) : (getCore (issued a act) a.n).selv = (getCore act.eff a.n).selv := by
  rw [getCore_issued]

theorem pushStore_selv (s : State) (a : At) (lat : Nat) (verdict : Option Nat) (e : Effect) :
    (getCore (pushStore s a lat verdict e) a.n).selv = (getCore s a.n).selv := by
  unfold pushStore newAccess
  rw [getCore_push_same, getCore_setCore_same]
  cases a.sh <;> rfl

/-- As `sends_spec`, of a result that is no access. -/
theorem pushes_spec {a : At} {act : Action} {u : State} {lat : Nat} {e : Effect} (hc : a.c = getCore a.s a.n)
    (hregs : a.r = getRegs a.s a.n) (hu : EffKept a.n a.s u) (hflight : (getCore u a.n).flight = a.c.flight)
    (heff : act.eff = push u a.n a.sh lat none none e) : issueFrame a (issued a act) ∧ landsIn a (issued a act) lat e := by
  refine ⟨issueFrame_issued hc hregs (by rw [heff]; exact (hu.trans (.push ..)).issue), ?_⟩
  refine ⟨_, (issued_flight ..).trans (by rw [heff, getCore_push_same, hflight]), ?_, rfl, rfl⟩
  exact congrArg (· + _) (hu.core.cycle.trans (by rw [hc]))

/-- A run is queued and its outcome lands one cycle after it. -/
theorem selvRun_spec {a : At} {chk : Chk} (hc : a.c = getCore a.s a.n) (hregs : a.r = getRegs a.s a.n)
    (heff : (actSelvRun a).eff =
      if (selvOut a).writes.isEmpty then
        push (runQueued a) a.n a.sh (runStop a + 1 - a.c.cycle) none none (runEffect a chk)
      else pushStore (runQueued a) a (runStop a + 1 - a.c.cycle) none (runEffect a chk)) :
    issueFrame a (issued a (actSelvRun a)) ∧
      landsIn a (issued a (actSelvRun a)) (runStop a + 1 - a.c.cycle) (runEffect a chk) ∧
      (getCore (issued a (actSelvRun a)) a.n).selv.runs = liveRuns a.c ++ [runStop a] := by
  have hcore : getCore (runQueued a) a.n = { a.c with selv := { a.c.selv with runs := liveRuns a.c ++ [runStop a] } } := by
    rw [runQueued, getCore_modCore_same, ← hc]
  have hflight : (getCore (runQueued a) a.n).flight = a.c.flight := by rw [hcore]
  split at heff
  · obtain ⟨hframe, hlands⟩ := pushes_spec hc hregs (runQueued_kept a) hflight heff
    refine ⟨hframe, hlands, ?_⟩
    rw [issued_selv, heff, getCore_push_same, hcore]
  · obtain ⟨hframe, hlands⟩ := sends_spec hc hregs (runQueued_kept a) hflight heff
    refine ⟨hframe, hlands, ?_⟩
    rw [issued_selv, heff, pushStore_selv, hcore]

/-- A run that checks a dense operand has the CRC of its bytes as its result, and writes nothing. -/
theorem selvOut_dense {a : At} (hsub : tSub a.w < 2) (hd : dDense (entryD a (tDA a.w)) = true) :
    (selvOut a).result = selvCrc a.c.selv (extentBytes a.c.store (entryD a (tDA a.w))) ∧ (selvOut a).writes = [] := by
  unfold selvOut
  dsimp only
  rw [if_neg (by omega), if_neg (by omega), if_pos hd]
  exact ⟨rfl, rfl⟩

/-! ### The horizon and the journal -/

/-- A partition with one more deadline declared. -/
def declaredHorizon (a : At) (p : Part) : Part :=
  { p with horizon := p.horizon ++
      [a.s.pll + (if fldFlag a.w 0 = true then sImm a.w else regRead a.r (sS1 a.w)) * divider a.s.power.divNow] }

theorem actJnlHash_eff {a : At} (hups : a.ups = Upsets.none) :
    let bs := extentBytes a.c.store (entryD a (tDA a.w))
    (actJnlHash a).eff = push a.s a.n a.sh
      (max (foldEnd a.c) (a.c.cycle + max 1 (ceilDiv bs.length 64)) - a.c.cycle) none none (.jnlFold bs) := by
  intro bs
  unfold actJnlHash
  dsimp only
  rw [readStore_none hups]

/-- A core whose shuttle has joined the next entry (R426). -/
def joinEntry (a : At) (c : Core) : Core :=
  { c with jnlPend := c.jnlPend ++
      [(c.nextOrder, if a.lc = 0 then extentBytes a.c.store (entryD a (tDA a.w)) else [])] }

theorem actJnlWrite_eff {a : At} (hups : a.ups = Upsets.none) : (actJnlWrite a).eff = modCore a.s a.n (joinEntry a) := by
  unfold actJnlWrite joinEntry
  dsimp only
  rw [readStore_none hups, ite_self]
  simp only [beq_iff_eq]

/-- Settles O44: by what each instruction sends or queues. -/
theorem selvedgeHorizonJournal : Obligations.SelvedgeHorizonJournal := by
  refine ⟨crc32c_check, fun i s a => ?_⟩
  intro st da start stop
  refine ⟨fun hr => ?cfg, fun hr hmeta => ?run, fun hr => ?read, fun hr => ?horizon, fun hr => ?hash, fun hr => ?write,
    fun hr hoff => ?tap⟩
  case cfg =>
    obtain ⟨hc, hregs, -, -, -, -⟩ := runs_spec hr
    exact ⟨_, exec_runs (m := actSelvCfg) rfl rfl hr, pushes_here hc hregs rfl⟩
  case run =>
    obtain ⟨hc, hregs, -, -, -, hups⟩ := runs_spec hr
    obtain ⟨chk, heff⟩ := actSelvRun_eff hups hmeta
    obtain ⟨hframe, hlands, hruns⟩ := selvRun_spec hc hregs heff
    exact ⟨_, chk, exec_runs (m := actSelvRun) rfl rfl hr, hframe, hlands, hruns, selvOut_dense⟩
  case read =>
    exact ⟨_, exec_runs (m := actSelvRead) rfl rfl hr, issued_eq (act := actSelvRead a) rfl⟩
  case horizon =>
    obtain ⟨hc, hregs, -, -, -, -⟩ := runs_spec hr
    obtain ⟨-, -, -, -, -, -, -, hpart, -, -⟩ := place_spec hr.1
    obtain ⟨p, hp⟩ := partAt_of_corePart hpart
    have hkept : EffKept a.n a.s (actPwrHorizon a).eff := ⟨.refl _, fun _ _ => rfl, rfl, rfl, rfl⟩
    have hframe := issued_frame a (actPwrHorizon a)
    refine ⟨_, p, declaredHorizon a p, exec_runs (m := actPwrHorizon) rfl rfl hr, hp, ?_,
      issueFrame_issued hc hregs hkept.issue, rfl⟩
    rw [hframe]
    exact partAt_modPart hp (fun _ => rfl)
  case hash =>
    obtain ⟨hc, hregs, -, -, -, hups⟩ := runs_spec hr
    obtain ⟨hframe, hlands⟩ := pushes_here hc hregs (actJnlHash_eff hups)
    exact ⟨_, exec_runs (m := actJnlHash) rfl rfl hr, hframe, hlands⟩
  case write =>
    obtain ⟨hc, hregs, -, -, -, hups⟩ := runs_spec hr
    have heff := actJnlWrite_eff hups
    have hkept : EffKept a.n a.s (actJnlWrite a).eff := by
      rw [heff]
      exact .modCore ⟨rfl, rfl, rfl, rfl, rfl, rfl, rfl, rfl⟩
    refine ⟨_, exec_runs (m := actJnlWrite) rfl rfl hr, issueFrame_issued hc hregs hkept.issue, ?_, ?_⟩
    · rw [issued_flight, heff, getCore_modCore_same, ← hc]
      rfl
    · rw [getCore_issued_plain (a := a) (act := actJnlWrite a) rfl, heff, getCore_modCore_same, ← hc]
      rfl
  case tap =>
    have heff : (actJnlTap a).eff = a.s := if_neg (by rw [hoff]; decide)
    rw [exec_runs (m := actJnlTap) rfl rfl hr, issued_eq (act := actJnlTap a) rfl, heff]
    rfl

end Sys2Proof.Machine
end

section
/-! Remote requests at both ends (R160, R167, R175, R182, R432, R494, R608): what a served frame reads, writes and
answers, and what a response takes off its request. -/

namespace Sys2Proof.Machine

/-! ### What serving a frame leaves to its answer -/

/-- A state from which an answer goes out as from another: the same links, fabric and cores. -/
structure Served (s t : State) : Prop where
  ports : t.ports = s.ports
  fabric : t.fabric = s.fabric
  cores : t.cores = s.cores

theorem Served.refl (s : State) : Served s s := ⟨rfl, rfl, rfl⟩

theorem Served.trans {s t u : State} (h : Served s t) (k : Served t u) : Served s u :=
  ⟨k.ports.trans h.ports, k.fabric.trans h.fabric, k.cores.trans h.cores⟩

theorem served_wakeMemory (s : State) : Served s (wakeMemory s) := by
  unfold wakeMemory
  split <;> exact ⟨rfl, rfl, rfl⟩

theorem served_writeMem (s : State) (t : Tier) (xs : List Poke) : Served s (writeMem s t xs) := by
  cases t <;> exact ⟨rfl, rfl, rfl⟩

theorem served_record (s : State) (r : RecIn) : Served s (record s r) :=
  ⟨noted_ports (noted_record s r), noted_fabric (noted_record s r), record_cores s r⟩

theorem served_findPoison (s : State) (t : Tier) (pq u : Nat) : Served s (findPoison s t pq u) := by
  unfold findPoison
  split
  · exact .trans (t := { s with poisonFound := s.poisonFound ++ [(t, u)] }) ⟨rfl, rfl, rfl⟩ (served_record ..)
  · exact .refl s

/-- A read with nothing for ECC to find only notes poison. -/
theorem served_eccRead_clean (s : State) (t : Tier) (pq : Nat) (us : List Nat) :
    Served s (eccRead s t pq us MemEcc.clean) := by
  have hfold : ∀ (l : List Nat) (v : State), Served s v → Served s (l.foldl (fun s u => findPoison s t pq u) v) := by
    intro l
    induction l with
    | nil => exact fun _ h => h
    | cons u l ih => exact fun v h => ih _ (h.trans (served_findPoison ..))
  exact hfold us _ ⟨rfl, rfl, rfl⟩

theorem tierMem_wakeMemory (s : State) (x : Tier) : tierMem (wakeMemory s) x = tierMem s x := by
  unfold wakeMemory
  split <;> cases x <;> rfl

theorem isPoisoned_wakeMemory (s : State) (x : Tier) (u : Nat) : isPoisoned (wakeMemory s) x u = isPoisoned s x u := by
  unfold wakeMemory
  split <;> cases x <;> rfl

section Linked
variable {s t : State} (h : linked s t)
include h

theorem linked_tierMem (x : Tier) : tierMem t x = tierMem s x := by
  cases x
  · exact linked_hbm h
  · exact linked_lpddr h

theorem linked_isPoisoned (x : Tier) (u : Nat) : isPoisoned t x u = isPoisoned s x u := by
  rw [h]
  cases x <;> rfl

theorem linked_accepts (f : Frame) (w : Bool) : accepts t f w = accepts s f w := by
  rw [h]
  rfl

theorem linked_allocAt (p : Part) (k : Nat) : allocAt t p k = allocAt s p k := by
  rw [h]
  rfl

theorem linked_reqAlloc (p : Part) (q : Request) : reqAlloc t p q = reqAlloc s p q := by
  rw [reqAlloc, linked_allocAt h, ← reqAlloc]

theorem linked_findAbandoned (rx : Rx) : findAbandoned t rx = findAbandoned s rx := by
  rw [h]
  rfl

theorem linked_sourceCores (lc : Nat) : sourceCores t lc = sourceCores s lc := by
  rw [sourceCores, linked_parts h, ← sourceCores]

theorem linked_findSegment (rx : Rx) : findSegment t rx = findSegment s rx := by
  simp only [findSegment, linked_sourceCores h, linked_corePart h, linked_getCore h, linked_reqAlloc h]

end Linked

/-! ### Answers (R167, R494) -/

/-- What an answer has of its request. -/
def answerFrame (rx : Rx) : Frame :=
  bareFrame fkDone rx.frame.addr rx.frame.srcCore rx.frame.srcShuttle rx.frame.tag .empty

/-- A frame sent back on the port on which another came. -/
theorem sendTo_out {s u v : State} (rx : Rx) (d : Frame) (hlink : linked s u)
    (hstate : ∀ k m, (getChan u k m).state = (getChan s k m).state) (hports : v.ports = u.ports) (hfab : v.fabric = u.fabric) :
    frameOut s (sendTo v (rx.port.val, rx.sender, d)) rx.port rx.sender d := by
  have hown : ownIndex v = ownIndex s := by rw [ownIndex, hfab, ← ownIndex, linked_ownIndex hlink]
  refine ⟨fun hm => ?_, fun hm hc => ?_⟩
  · have hsent : sendTo v (rx.port.val, rx.sender, d) =
        { v with mesh := v.mesh ++ [{ port := rx.port, sender := rx.sender, frame := d }] } := by
      unfold sendTo
      dsimp only
      rw [if_pos (hm.trans hown.symm), ← hm.trans hown.symm, Fin.ofNat_val_eq_self]
    rw [hsent]
    exact List.mem_append_right _ (List.mem_singleton_self _)
  · rw [sendTo, if_neg (hown ▸ hm)]
    refine mem_txq_sendFrame ?_
    rw [getChan, getPort, hports, ← getPort, ← getChan, hstate]
    exact hc

/-- An answer leaves on the port on which its request came, and changes nothing but the link. -/
theorem answer_out {s u v : State} (rx : Rx) (g : Frame → Frame) (hlink : linked s u)
    (hstate : ∀ k m, (getChan u k m).state = (getChan s k m).state) (hv : Served u v) :
    frameOut s (answer v rx g) rx.port rx.sender (g (answerFrame rx)) ∧ (answer v rx g).cores = s.cores ∧
      linked v (answer v rx g) := by
  have hsent : linked v (answer v rx g) := linked_sendTo ..
  refine ⟨sendTo_out rx (g (answerFrame rx)) hlink hstate hv.ports hv.fabric, ?_, hsent⟩
  rw [linked_cores hsent, hv.cores, linked_cores hlink]

/-! ### READ (R175, R489) -/

/-- The units of a request that are sound. -/
def goodUnits (s : State) (f : Frame) : List Nat := (rxUnits f).filter (fun u => !isPoisoned s (rxTier f) u)

/-- What a READ's answer is made of. -/
def readAnswer (s : State) (f : Frame) (d : Frame) : Frame :=
  if (goodUnits s f).isEmpty && !(rxUnits f).isEmpty then { d with poison := true }
  else { d with
    kind := fkData, inline := .units (goodUnits s f), poison := decide ((goodUnits s f).length < (rxUnits f).length)
    data := (goodUnits s f).flatMap (fun u => readBytes (tierMem s (rxTier f)) (64 * u) 64) }

theorem serveRead_clean {s u : State} (rx : Rx) (hlink : linked s u) (hacc : accepts s rx.frame false = true) :
    serveRead rx MemEcc.clean u =
      answer (eccRead (wakeMemory u) (rxTier rx.frame) (faPq rx.frame.addr) (rxUnits rx.frame) MemEcc.clean) rx
        (readAnswer s rx.frame) := by
  have hgood : (rxUnits rx.frame).filter (fun v => !(isPoisoned (wakeMemory u) (rxTier rx.frame) v ||
      MemEcc.clean.bad.contains (rxTier rx.frame, v))) = goodUnits s rx.frame := by
    refine List.filter_congr (fun v _ => ?_)
    rw [isPoisoned_wakeMemory, linked_isPoisoned hlink, MemEcc.clean, List.contains_nil, Bool.or_false]
  unfold serveRead
  dsimp only
  rw [linked_accepts hlink, if_pos hacc, hgood]
  unfold answer readAnswer
  dsimp only
  split
  · rfl
  · rw [tierMem_wakeMemory, linked_tierMem hlink]

theorem serveRead_refused {s u : State} {rx : Rx} {ecc : MemEcc} (hlink : linked s u)
    (hacc : accepts s rx.frame false = false) : serveRead rx ecc u = refuse rx u := by
  rw [serveRead, if_neg (by rw [linked_accepts hlink, hacc]; decide)]

/-- With every unit sound, all of them come back. -/
theorem readAnswer_sound {s : State} {f : Frame} (d : Frame) (h : ∀ u ∈ rxUnits f, isPoisoned s (rxTier f) u = false) :
    readAnswer s f d = { d with
      kind := fkData, inline := .units (rxUnits f), poison := false
      data := (rxUnits f).flatMap (fun u => readBytes (tierMem s (rxTier f)) (64 * u) 64) } := by
  have hgood : goodUnits s f = rxUnits f := List.filter_eq_self.mpr (fun u hu => by rw [h u hu]; rfl)
  unfold readAnswer
  rw [hgood, Bool.and_not_self, if_neg Bool.false_ne_true, decide_eq_false (Nat.lt_irrefl _)]

/-- With a unit poisoned, the answer says so, and brings the sound ones if there are any. -/
theorem readAnswer_poisoned {s : State} {f : Frame} {d : Frame} (hd : d.kind = fkDone)
    (h : ∃ u ∈ rxUnits f, isPoisoned s (rxTier f) u = true) :
    (readAnswer s f d).poison = true ∧
      if goodUnits s f = [] then (readAnswer s f d).kind = fkDone
      else (readAnswer s f d).kind = fkData ∧ (readAnswer s f d).inline = .units (goodUnits s f) ∧
        (readAnswer s f d).data = (goodUnits s f).flatMap (fun u => readBytes (tierMem s (rxTier f)) (64 * u) 64) := by
  obtain ⟨u, hu, hbad⟩ := h
  have hlt : (goodUnits s f).length < (rxUnits f).length :=
    List.length_filter_lt_length_iff_exists.mpr ⟨u, hu, by simp [hbad]⟩
  have hne : (rxUnits f).isEmpty = false := by
    cases hl : rxUnits f with
    | nil => rw [hl] at hu; cases hu
    | cons => rfl
  unfold readAnswer
  rw [hne, Bool.not_false, Bool.and_true]
  by_cases hg : goodUnits s f = []
  · rw [if_pos (by rw [hg]; rfl), if_pos hg]
    exact ⟨rfl, hd⟩
  · rw [if_neg (by simpa using hg), if_neg hg]
    exact ⟨decide_eq_true hlt, rfl, rfl, rfl⟩

theorem answerFrame_same (rx : Rx) : (answerFrame rx).addr = rx.frame.addr ∧ (answerFrame rx).srcCore = rx.frame.srcCore ∧
    (answerFrame rx).srcShuttle = rx.frame.srcShuttle ∧ (answerFrame rx).tag = rx.frame.tag := ⟨rfl, rfl, rfl, rfl⟩

theorem readAnswer_same (s : State) (f d : Frame) : (readAnswer s f d).addr = d.addr ∧
    (readAnswer s f d).srcCore = d.srcCore ∧ (readAnswer s f d).srcShuttle = d.srcShuttle ∧
    (readAnswer s f d).tag = d.tag := by
  unfold readAnswer
  split <;> exact ⟨rfl, rfl, rfl, rfl⟩

/-- A refusal: one record, and a DONE that says so (R167). -/
theorem refuse_out {s u : State} (rx : Rx) (hlink : linked s u)
    (hstate : ∀ k m, (getChan u k m).state = (getChan s k m).state) :
    (refuse rx u).cores = s.cores ∧
      frameOut s (refuse rx u) rx.port rx.sender { answerFrame rx with inline := .refusal } ∧
      (refuse rx u).lpddr = s.lpddr ∧ (s.errors.store.length < 512 → (refuse rx u).hbm = s.hbm) := by
  let r : RecIn := { kind := 0x1F, detail := rx.frame.addr.toNat, die := faPq rx.frame.addr / 4, quad := faPq rx.frame.addr }
  obtain ⟨hout, hcores, hsent⟩ := answer_out rx (fun f => { f with inline := .refusal }) hlink hstate (served_record u r)
  refine ⟨hcores, hout, ?_, fun hroom => ?_⟩
  · exact (linked_lpddr hsent).trans ((noted_lpddr (noted_record u r)).trans (linked_lpddr hlink))
  · exact (linked_hbm hsent).trans ((record_hbm_of_room r (by rw [linked_errors hlink]; exact hroom)).trans (linked_hbm hlink))

/-! ### WRITE, ADD and TAP (R160, R182, R432) -/

/-- What the obligation says of a tier that a frame has written. -/
def wroteTier (s t : State) (ti : Tier) (xs : List Poke) : Prop :=
  onlyTier s t ti (pokeAll (tierMem s ti) xs) ∧
    ∀ b : Nat, (∀ x ∈ xs, b < x.1 / 8 ∨ (x.1 + x.2.1 + 7) / 8 ≤ b) → tget 0 (tierMem t ti) b = tget 0 (tierMem s ti) b

theorem wroteTier_writeMem {s u t : State} {ti : Tier} {xs : List Poke} (hlink : linked s u)
    (ht : ∀ x, tierMem t x = tierMem (writeMem (wakeMemory u) ti xs) x) : wroteTier s t ti xs := by
  have hmem : ∀ x, tierMem (wakeMemory u) x = tierMem s x := fun x =>
    (tierMem_wakeMemory u x).trans (linked_tierMem hlink x)
  have hti : tierMem t ti = pokeAll (tierMem s ti) xs := by rw [ht, tierMem_writeMem_same, hmem]
  refine ⟨⟨hti, fun x hx => by rw [ht, tierMem_writeMem_other _ _ hx, hmem]⟩, fun b hb => ?_⟩
  rw [hti, tget_pokeAll_outside hb]

theorem afterSnoop_free {s : State} {rx : Rx} (g : State → State)
    (h : heldLines s (rxTier rx.frame) (rxUnits rx.frame) = []) : afterSnoop s rx g = withRx s rx g := by
  unfold afterSnoop
  dsimp only
  rw [h, List.isEmpty_nil, if_pos rfl]

theorem serveWrite_sound {s u : State} {rx : Rx} (hlink : linked s u) (hacc : accepts s rx.frame true = true)
    (hp : rx.frame.poison = false) : serveWrite rx u =
      answer (writeMem (wakeMemory u) (rxTier rx.frame) (writeElems rx.frame)) rx
        (fun d => { d with inline := .units (rxUnits rx.frame) }) := by
  unfold serveWrite
  dsimp only
  rw [linked_accepts hlink, if_pos hacc, hp, if_neg Bool.false_ne_true]

theorem serveAdd_sound {s u : State} {rx : Rx} (hlink : linked s u) (hacc : accepts s rx.frame true = true)
    (hp : rx.frame.poison = false) (hsound : ∀ v ∈ rxUnits rx.frame, isPoisoned s (rxTier rx.frame) v = false) :
    serveAdd rx MemEcc.clean u =
      answer (writeMem (wakeMemory u) (rxTier rx.frame) (addedElems (tierMem s (rxTier rx.frame)) rx.frame)) rx
        (fun d => { d with poison := false, inline := .units (rxUnits rx.frame) }) := by
  have hwake : ∀ v ∈ rxUnits rx.frame, isPoisoned (wakeMemory u) (rxTier rx.frame) v = false := fun v hv => by
    rw [isPoisoned_wakeMemory, linked_isPoisoned hlink]
    exact hsound v hv
  have hold : (rxUnits rx.frame).filter (isPoisoned (wakeMemory u) (rxTier rx.frame)) = [] :=
    List.filter_eq_nil_iff.mpr (fun v hv => by rw [hwake v hv]; decide)
  unfold serveAdd
  dsimp only
  rw [linked_accepts hlink, if_pos hacc, eccRead_clean _ _ _ hwake, hold, hp, if_neg Bool.false_ne_true, tierMem_wakeMemory,
    linked_tierMem hlink]
  rfl

/-- The frame that tells a tap's sender that its bytes are written. -/
def tapDone (rx : Rx) (inl : Inline) : Frame := bareFrame fkDone rx.frame.addr rx.frame.srcCore rx.frame.srcShuttle 0 inl

theorem serveTap_sound {s u : State} {rx : Rx} (hlink : linked s u)
    (hacc : rx.sender = ownIndex s ∨ accepts s rx.frame true = true) (hp : rx.frame.poison = false) :
    let v := writeMem (wakeMemory u) (rxTier rx.frame) (writeElems rx.frame)
    serveTap rx u = if rx.sender = ownIndex s then
        takeSignalDone { port := rx.port, sender := rx.sender, frame := tapDone rx (.units (rxUnits rx.frame)) } v
      else sendFrame v rx.port.val rx.sender (tapDone rx (.units (rxUnits rx.frame))) := by
  intro v
  have hown : ownIndex v = ownIndex s := by
    rw [ownIndex, (served_writeMem ..).fabric, (served_wakeMemory u).fabric, ← ownIndex, linked_ownIndex hlink]
  have hcond : (decide (rx.sender = ownIndex u) || accepts u rx.frame true) = true := by
    rw [linked_ownIndex hlink, linked_accepts hlink, Bool.or_eq_true, decide_eq_true_eq]
    exact hacc
  unfold serveTap
  dsimp only
  rw [hcond, if_pos rfl, hp, if_neg Bool.false_ne_true, hown]
  rfl

theorem tierMem_modCore (s : State) (n : Nat) (g : Core → Core) (x : Tier) : tierMem (modCore s n g) x = tierMem s x := by
  cases x <;> rfl

theorem tierMem_answered (s : State) (n : Nat) (sh : Shuttle) (x : Access) (dest : Nat) (addr : Dword) (ti : Tier) :
    tierMem (answered s n sh x dest addr) ti = tierMem s ti := by
  have hlast : ∀ (v : State) (b : Bool) (rest : List (Nat × Nat × Frame)), tierMem (if b then performAccess v n sh x.id
      else modAccess v n sh x.id (fun y => { y with frames := rest })) ti = tierMem v ti := by
    intro v b rest
    split <;> exact tierMem_modCore ..
  unfold answered
  dsimp only
  rw [hlast]
  split
  · split
    · exact tierMem_modCore ..
    · rfl
  · rfl

theorem tierMem_takeSignalDone (rx : Rx) (s : State) (ti : Tier) : tierMem (takeSignalDone rx s) ti = tierMem s ti := by
  unfold takeSignalDone
  dsimp only
  split
  · exact tierMem_answered ..
  · rfl

/-! ### Responses at the source (R175, R494, R608) -/

/-- The request that a response answers is one of its queue. -/
theorem findSegment_spec {s : State} {rx : Rx} {n k : Nat} {p : Part} {q : Request} {x : Segment}
    (h : findSegment s rx = some (n, p, k, q, x)) : q ∈ (tget {} (getCore s n).queues k).reqs := by
  unfold findSegment at h
  dsimp only at h
  obtain ⟨n', -, hn⟩ := List.exists_of_findSome?_eq_some h
  obtain ⟨p', -, hp⟩ := Option.bind_eq_some_iff.mp hn
  obtain ⟨q', hq', hfound⟩ := List.exists_of_findSome?_eq_some hp
  split at hfound
  · obtain ⟨y, -, hy⟩ := Option.map_eq_some_iff.mp hfound
    cases hy
    exact hq'
  · cases hfound

theorem mem_modRequest {s : State} {n k : Nat} {q : Request} (g : Request → Request)
    (h : q ∈ (tget {} (getCore s n).queues k).reqs) :
    g q ∈ (tget {} (getCore (modRequest s n k q.seq g) n).queues k).reqs := by
  rw [queues_modRequest, tget_tset_same]
  exact List.mem_map.mpr ⟨q, h, if_pos rfl⟩

theorem combineUnits_frame (c : Core) (now : Nat) (al : Alloc) (f : Frame) :
    combineUnits c now al f = { c with combine := (combineUnits c now al f).combine } := by
  unfold combineUnits
  induction dataUnits f generalizing c with
  | nil => rfl
  | cons x xs ih =>
    rw [List.foldl_cons, ih]
    rfl

/-- What a response does to a core that it answers, from the request's change and the core's. -/
theorem response_core {s : State} {n k seq : Nat} (g : Request → Request) (m : Nat) :
    (m ≠ n → getCore (modRequest s n k seq g) m = getCore s m) ∧
      (getCore (modRequest s n k seq g) n).store = (getCore s n).store := by
  refine ⟨fun hm => ?_, ?_⟩
  · rw [modRequest, getCore_modCore, if_neg hm]
  · rw [modRequest, getCore_modCore_same]

/-- DATA takes its segment off the request. -/
def dataTaken (f : Frame) (x : Segment) (r : Request) : Request :=
  { r with
    segs := r.segs.erase x
    got := r.got ++ dataPokes f x
    bad := r.bad ++ lostPokes (x.pieces.filter (fun y => !brought f y))
    poisoned := r.poisoned || !(x.pieces.filter (fun y => !brought f y)).isEmpty }

theorem dataTaken_poisoned (f : Frame) (x : Segment) (r : Request) :
    (dataTaken f x r).poisoned = (r.poisoned || !x.pieces.all (brought f)) := by
  have hlost : (!(x.pieces.filter (fun y => !brought f y)).isEmpty) = !x.pieces.all (brought f) := by
    rw [Bool.eq_iff_iff]
    simp
  rw [dataTaken, hlost]

theorem takeData_found {s : State} {rx : Rx} {n k : Nat} {p : Part} {q : Request} {x : Segment}
    (h : findSegment s rx = some (n, p, k, q, x)) : takeData rx s =
      modCore (modRequest s n k q.seq (dataTaken rx.frame x)) n
        (fun c => combineUnits c (modRequest s n k q.seq (dataTaken rx.frame x)).pll
          (reqAlloc (modRequest s n k q.seq (dataTaken rx.frame x)) p q) rx.frame) := by
  rw [takeData, h]
  rfl

/-- DONE takes its segment off the request. -/
def doneTaken (f : Frame) (x : Segment) (q r : Request) : Request :=
  { r with
    segs := r.segs.erase x
    poisoned := r.poisoned || (f.poison || f.inline == .refusal)
    bad := if bqReads q.kind then r.bad ++ lostPokes x.pieces else r.bad }

theorem takeDone_found {s : State} {rx : Rx} {n k : Nat} {p : Part} {q : Request} {x : Segment}
    (h : findSegment s rx = some (n, p, k, q, x)) : takeDone rx s = modRequest s n k q.seq (doneTaken rx.frame x q) := by
  rw [takeDone, h]
  rfl

/-- The access that a DONE with TAG 0 answers. -/
def answeredBy (s : State) (rx : Rx) : Option (Nat × Access) :=
  (sourceCores s rx.frame.srcCore).findSome? (fun n =>
    ((shOf (getCore s n) rx.frame.srcShuttle).accesses.find? (sentThis rx)).map (fun x => (n, x)))

theorem linked_answeredBy {s t : State} (h : linked s t) (rx : Rx) : answeredBy t rx = answeredBy s rx := by
  simp only [answeredBy, linked_sourceCores h, linked_getCore h]

theorem sentThis_of_answeredBy {s : State} {rx : Rx} {n : Nat} {x : Access} (h : answeredBy s rx = some (n, x)) :
    sentThis rx x = true := by
  obtain ⟨n', -, hn⟩ := List.exists_of_findSome?_eq_some h
  obtain ⟨y, hy, hx⟩ := Option.map_eq_some_iff.mp hn
  cases hx
  exact List.find?_some hy

/-- A state in which the bytes of an answered tap have left the combining buffer. -/
def tapped (s : State) (n : Nat) (x : Access) : State :=
  match x.kind, corePart s n with
  | .tap _ handle off count, some p => match allocAt s p handle with
    | some al => tapDrop s n al off count
    | none => s
  | _, _ => s

theorem tapped_shuttles (s : State) (n : Nat) (x : Access) (sh : Shuttle) :
    shOf (getCore (tapped s n x) n) sh = shOf (getCore s n) sh := by
  unfold tapped
  split
  · split
    · rw [tapDrop, getCore_modCore_same, combineDrop_frame]
      cases sh <;> rfl
    · rfl
  · rfl

/-- An access whose only frame has been answered performs. -/
theorem answered_only {s : State} {n : Nat} {rx : Rx} {x : Access} (hx : sentThis rx x = true) (hlen : x.frames.length = 1) :
    answered s n rx.frame.srcShuttle x rx.sender rx.frame.addr =
      performAccess (tapped s n x) n rx.frame.srcShuttle x.id := by
  obtain ⟨z, hz⟩ := List.length_eq_one_iff.mp hlen
  have hfind : [z].find? (fun y => y.2.1 == rx.sender && y.2.2.addr == rx.frame.addr) = some z := by
    simp only [sentThis, hz, List.any_cons, List.any_nil, Bool.or_false, Bool.and_eq_true] at hx
    simp [hx.1.2]
  unfold answered
  simp only [hz, hfind, List.erase_cons_head, List.isEmpty_nil, if_true]
  rfl

theorem mem_answered {s : State} {n : Nat} {rx : Rx} {x : Access} (hx : sentThis rx x = true) (hlen : x.frames.length = 1)
    (y : Access) :
    y ∈ (shOf (getCore (answered s n rx.frame.srcShuttle x rx.sender rx.frame.addr) n) rx.frame.srcShuttle).accesses ↔
      y ∈ (shOf (getCore s n) rx.frame.srcShuttle).accesses ∧ y.id ≠ x.id := by
  rw [answered_only hx hlen, performAccess, getCore_modCore_same, mem_dropAccess, tapped_shuttles]

/-! ### The frames as they come -/

theorem exec_readFrame {rx : Rx} (ecc : MemEcc) (s : State) (h : rx.frame.kind = fkRead) :
    exec (.readFrameReceive rx ecc) s = withRx s rx (serveRead rx ecc) := by
  show execReadFrameReceive rx ecc s = _
  rw [execReadFrameReceive, if_pos h]

theorem exec_writeFrame {rx : Rx} (s : State) (h : rx.frame.kind = fkWrite) :
    exec (.writeFrameReceive rx) s = afterSnoop s rx (serveWrite rx) := by
  show execWriteFrameReceive rx s = _
  rw [execWriteFrameReceive, if_pos h]

theorem exec_addFrame {rx : Rx} (ecc : MemEcc) (s : State) (h : rx.frame.kind = fkAdd) :
    exec (.addFrameReceive rx ecc) s = afterSnoop s rx (serveAdd rx ecc) := by
  show execAddFrameReceive rx ecc s = _
  rw [execAddFrameReceive, if_pos h]

theorem exec_tapFrame {rx : Rx} (s : State) (h : rx.frame.kind = fkTap) :
    exec (.tapFrameReceive rx) s = afterSnoop s rx (serveTap rx) := by
  show execTapFrameReceive rx s = _
  rw [execTapFrameReceive, if_pos h]

theorem exec_dataFrame {rx : Rx} (s : State) (h : rx.frame.kind = fkData) :
    exec (.dataFrameReceive rx) s = withRx s rx (orAbandoned rx (takeData rx)) := by
  show execDataFrameReceive rx s = _
  rw [execDataFrameReceive, if_pos h]

theorem exec_doneFrame {rx : Rx} (s : State) (h : rx.frame.kind = fkDone) (htag : rx.frame.tag ≠ 0) :
    exec (.doneFrameReceive rx) s = withRx s rx (orAbandoned rx (takeDone rx)) := by
  show execDoneFrameReceive rx s = _
  rw [execDoneFrameReceive, if_pos h, if_neg htag]

theorem exec_doneSignal {rx : Rx} (s : State) (h : rx.frame.kind = fkDone) (htag : rx.frame.tag = 0) :
    exec (.doneFrameReceive rx) s = withRx s rx (orAbandoned rx (takeSignalDone rx)) := by
  show execDoneFrameReceive rx s = _
  rw [execDoneFrameReceive, if_pos h, if_pos htag]

theorem orAbandoned_none {rx : Rx} {s : State} (g : State → State) (h : findAbandoned s rx = none) :
    orAbandoned rx g s = g s := by rw [orAbandoned, h]

/-- Settles O45: each kind of frame by what it is served with, from a state in which only the link has changed. -/
theorem remoteRequestsServed : Obligations.RemoteRequestsServed := by
  intro rx s f ti here free sound replied wrote done no
  refine ⟨fun hk ecc => ⟨fun h => ?absent, fun hrx hacc hecc => ⟨fun hgood => ?read, fun hbad => ?readPoison⟩,
    fun hrx hacc => ?readNo⟩, fun hk hfree => ⟨fun hrx hacc hp => ?write, fun hrx hacc => ?writeNo⟩,
    fun hk hfree hrx hacc hsound => ?add, fun hk hrx hheld => ?snoop, fun hk hrx habn n p k q x hseg => ?data,
    fun hk hrx habn hseg => ?dataNone, fun hk hrx habn htag n p k q x hseg => ?done,
    fun hk hrx habn htag n x hacc hlen => ?doneSignal, fun hk hrx x habn => ?abandoned, fun hk hfree hrx hacc hp => ?tap⟩
  case absent => rw [exec_readFrame ecc s hk, withRx_absent _ h]
  case read =>
    subst hecc
    obtain ⟨u, hu, hlink, hstate⟩ := withRx_present (serveRead rx MemEcc.clean) hrx
    have hsound : ∀ v ∈ rxUnits f, isPoisoned (wakeMemory u) ti v = false := fun v hv => by
      rw [isPoisoned_wakeMemory, linked_isPoisoned hlink]
      exact hgood v hv
    obtain ⟨hout, hcores, hsent⟩ := answer_out rx (readAnswer s f) hlink hstate (served_wakeMemory u)
    rw [serveRead_clean rx hlink hacc, eccRead_clean _ _ _ hsound, ← exec_readFrame _ s hk] at hu
    have hmem : ∀ x, tierMem (answer (wakeMemory u) rx (readAnswer s f)) x = tierMem s x := fun x =>
      (linked_tierMem hsent x).trans ((tierMem_wakeMemory u x).trans (linked_tierMem hlink x))
    refine ⟨_, hu, hmem .hbm, hmem .lpddr, hcores, readAnswer s f (answerFrame rx), hout, ?_, ?_, ?_, ?_, ?_⟩ <;>
      rw [readAnswer_sound _ hgood]
    · rfl
    · rfl
    · rfl
    · rfl
    · exact ⟨rfl, rfl, rfl, rfl⟩
  case readPoison =>
    subst hecc
    obtain ⟨u, hu, hlink, hstate⟩ := withRx_present (serveRead rx MemEcc.clean) hrx
    obtain ⟨hout, hcores, -⟩ := answer_out rx (readAnswer s f) hlink hstate
      ((served_wakeMemory u).trans (served_eccRead_clean _ (rxTier f) (faPq f.addr) (rxUnits f)))
    rw [serveRead_clean rx hlink hacc, ← exec_readFrame _ s hk] at hu
    obtain ⟨haddr, hcore, hsh, htag⟩ := readAnswer_same s f (answerFrame rx)
    exact ⟨_, hu, hcores, readAnswer s f (answerFrame rx), hout, haddr, hcore, hsh, htag, readAnswer_poisoned rfl hbad⟩
  case readNo =>
    obtain ⟨u, hu, hlink, hstate⟩ := withRx_present (serveRead rx ecc) hrx
    rw [serveRead_refused hlink hacc, ← exec_readFrame _ s hk] at hu
    obtain ⟨hcores, hout, -, -⟩ := refuse_out rx hlink hstate
    exact ⟨_, hu, hcores, _, hout, rfl, rfl, rfl, rfl, rfl, rfl⟩
  case write =>
    obtain ⟨u, hu, hlink, hstate⟩ := withRx_present (serveWrite rx) hrx
    obtain ⟨hout, hcores, hsent⟩ := answer_out rx (fun d => { d with inline := .units (rxUnits f) }) hlink hstate
      ((served_wakeMemory u).trans (served_writeMem _ ti (writeElems f)))
    rw [serveWrite_sound hlink hacc hp, ← afterSnoop_free _ hfree, ← exec_writeFrame s hk] at hu
    exact ⟨_, hu, wroteTier_writeMem hlink (linked_tierMem hsent), hcores, _, hout, rfl, rfl, rfl, rfl, rfl, rfl, rfl⟩
  case writeNo =>
    obtain ⟨u, hu, hlink, hstate⟩ := withRx_present (serveWrite rx) hrx
    have hno : serveWrite rx u = refuse rx u := by
      rw [serveWrite, if_neg (by rw [linked_accepts hlink, hacc]; decide)]
    rw [hno, ← afterSnoop_free _ hfree, ← exec_writeFrame s hk] at hu
    obtain ⟨hcores, hout, hlpddr, hhbm⟩ := refuse_out rx hlink hstate
    exact ⟨_, hu, ⟨hcores, _, hout, rfl, rfl, rfl, rfl, rfl, rfl⟩, hlpddr, hhbm⟩
  case add =>
    obtain ⟨u, hu, hlink, hstate⟩ := withRx_present (serveAdd rx MemEcc.clean) hrx
    obtain ⟨hp, hunits⟩ := hsound
    obtain ⟨hout, hcores, hsent⟩ := answer_out rx (fun d => { d with poison := false, inline := .units (rxUnits f) }) hlink
      hstate ((served_wakeMemory u).trans (served_writeMem _ ti (addedElems (tierMem s ti) f)))
    rw [serveAdd_sound hlink hacc hp hunits, ← afterSnoop_free _ hfree, ← exec_addFrame _ s hk] at hu
    exact ⟨_, hu, wroteTier_writeMem hlink (linked_tierMem hsent), hcores, _, hout, rfl, rfl, rfl, rfl, rfl, rfl, rfl⟩
  case snoop =>
    obtain ⟨u, hu⟩ := Option.isSome_iff_exists.mp hrx
    have hne : (heldLines s (rxTier rx.frame) (rxUnits rx.frame)).isEmpty = false := by
      simpa using hheld
    rw [exec_writeFrame s hk, afterSnoop, hne, if_neg Bool.false_ne_true, hu]
  case data =>
    obtain ⟨u, hu, hlink, -⟩ := withRx_present (orAbandoned rx (takeData rx)) hrx
    have hmem := findSegment_spec hseg
    rw [← linked_findSegment hlink] at hseg
    rw [← linked_getCore hlink] at hmem
    rw [orAbandoned_none _ ((linked_findAbandoned hlink rx).trans habn), takeData_found hseg, ← exec_dataFrame s hk] at hu
    obtain ⟨hothers, hstore⟩ := response_core (s := u) (n := n) (k := k) (seq := q.seq) (dataTaken f x) n
    refine ⟨_, hu, (linked_hbm hlink : u.hbm = s.hbm), (linked_lpddr hlink : u.lpddr = s.lpddr),
      ⟨dataTaken f x q, ?_, rfl, rfl, dataTaken_poisoned f x q, rfl, rfl⟩, fun m hm => ?_, ?_⟩
    · rw [getCore_modCore_same, combineUnits_frame]
      exact mem_modRequest (dataTaken f x) hmem
    · rw [getCore_modCore, if_neg hm, (response_core (dataTaken f x) m).1 hm, linked_getCore hlink]
    · rw [getCore_modCore_same, combineUnits_frame]
      exact hstore.trans (congrArg (·.store) (linked_getCore hlink n))
  case dataNone =>
    obtain ⟨u, hu, hlink, -⟩ := withRx_present (orAbandoned rx (takeData rx)) hrx
    have hnone : takeData rx u = u := by rw [takeData, linked_findSegment hlink, hseg]
    rw [orAbandoned_none _ ((linked_findAbandoned hlink rx).trans habn), hnone, ← exec_dataFrame s hk] at hu
    exact ⟨_, hu, linked_cores hlink, linked_hbm hlink, linked_lpddr hlink⟩
  case done =>
    obtain ⟨u, hu, hlink, -⟩ := withRx_present (orAbandoned rx (takeDone rx)) hrx
    have hmem := findSegment_spec hseg
    rw [← linked_findSegment hlink] at hseg
    rw [← linked_getCore hlink] at hmem
    rw [orAbandoned_none _ ((linked_findAbandoned hlink rx).trans habn), takeDone_found hseg,
      ← exec_doneFrame s hk htag] at hu
    obtain ⟨-, hstore⟩ := response_core (s := u) (n := n) (k := k) (seq := q.seq) (doneTaken f x q) n
    refine ⟨_, hu, (linked_hbm hlink : u.hbm = s.hbm), (linked_lpddr hlink : u.lpddr = s.lpddr),
      ⟨doneTaken f x q q, mem_modRequest (doneTaken f x q) hmem, rfl, rfl, ?_⟩, fun m hm => ?_, ?_⟩
    · exact (Bool.or_assoc ..).symm
    · rw [(response_core (doneTaken f x q) m).1 hm, linked_getCore hlink]
    · rw [hstore, linked_getCore hlink]
  case doneSignal =>
    obtain ⟨u, hu, hlink, -⟩ := withRx_present (orAbandoned rx (takeSignalDone rx)) hrx
    have hs : answeredBy s rx = some (n, x) := hacc
    have hfound : takeSignalDone rx u = answered u n f.srcShuttle x rx.sender f.addr := by
      have : answeredBy u rx = some (n, x) := (linked_answeredBy hlink rx).trans hs
      unfold answeredBy at this
      rw [takeSignalDone, this]
    rw [orAbandoned_none _ ((linked_findAbandoned hlink rx).trans habn), hfound,
      ← exec_doneSignal s hk htag] at hu
    refine ⟨_, hu, fun y => ?_⟩
    rw [mem_answered (sentThis_of_answeredBy hs) hlen, linked_getCore hlink]
  case abandoned =>
    obtain ⟨u, hu, hlink, -⟩ := withRx_present (orAbandoned rx (takeData rx)) hrx
    have hfree : orAbandoned rx (takeData rx) u = { u with abandoned := u.abandoned.erase x } := by
      rw [orAbandoned, linked_findAbandoned hlink, habn]
    rw [hfree, ← exec_dataFrame s hk] at hu
    refine ⟨_, hu, (linked_cores hlink : u.cores = s.cores), ?_⟩
    rw [hlink]
  case tap =>
    obtain ⟨u, hu, hlink, hstate⟩ := withRx_present (serveTap rx) hrx
    rw [serveTap_sound hlink hacc hp, ← afterSnoop_free _ hfree, ← exec_tapFrame s hk] at hu
    refine ⟨_, hu, wroteTier_writeMem hlink (fun x => ?_), fun hm => ?_⟩
    · split
      · exact tierMem_takeSignalDone ..
      · exact linked_tierMem (linked_sendFrame ..) x
    · rw [if_neg hm]
      refine ⟨tapDone rx (.units (rxUnits rx.frame)), frameOut_sendFrame hm ?_, rfl, rfl⟩
      have hserved := (served_wakeMemory u).trans (served_writeMem (wakeMemory u) (rxTier rx.frame) (writeElems rx.frame))
      rw [getChan, getPort, hserved.ports, ← getPort, ← getChan]
      exact hstate _ _

end Sys2Proof.Machine
end

section
/-! A cask at work on one bucket (R457 to R469, R565, R595): what placing, comparing, judging, withholding and counting
leave of every other bucket, of the frames held and of the module. -/

namespace Sys2Proof.Machine

/-! ### The frame of a cask at work -/

/-- A state after a cask has acted: only casks, records and vectors differ. -/
def caskWorked (s t : State) : Prop :=
  t = { s with casks := t.casks, nextHeld := t.nextHeld, errors := t.errors, hbm := t.hbm, poisonHbm := t.poisonHbm
               draws := t.draws
               host := { s.host with msixPend := t.host.msixPend, messages := t.host.messages } }

theorem caskWorked_refl (s : State) : caskWorked s s := rfl

theorem caskWorked_trans {s t u : State} (h : caskWorked s t) (k : caskWorked t u) : caskWorked s u := by
  unfold caskWorked at *
  rw [k, h]

theorem caskWorked_record (s : State) (r : RecIn) : caskWorked s (record s r) := by
  unfold caskWorked
  rw [record_frame_eq]

section Fields
variable {s t : State} (h : caskWorked s t)
include h

theorem worked_cores : t.cores = s.cores := by rw [h]
theorem worked_parts : t.parts = s.parts := by rw [h]
theorem worked_ports : t.ports = s.ports := by rw [h]
theorem worked_mesh : t.mesh = s.mesh := by rw [h]
theorem worked_fabric : t.fabric = s.fabric := by rw [h]
theorem worked_lpddr : t.lpddr = s.lpddr := by rw [h]
theorem worked_pll : t.pll = s.pll := by rw [h]
theorem worked_quads : t.quads = s.quads := by rw [h]
theorem worked_partAt (low : Nat) : partAt t low = partAt s low := partAt_parts (worked_parts h) low

end Fields

/-- Work that leaves every bucket: counters, records and what is noted of late frames. -/
structure CaskSide (s t : State) : Prop where
  frame : caskWorked s t
  held : ∀ k, (getCask t k).held = (getCask s k).held
  buckets : ∀ k, (getCask t k).buckets = (getCask s k).buckets

/-- Work on one bucket of one cask. -/
structure CaskWork (l : CaskLoc) (s t : State) : Prop where
  frame : caskWorked s t
  held : ∀ k, (getCask t k).held = (getCask s k).held
  others : onlyBucket s t l

theorem CaskSide.refl (s : State) : CaskSide s s := ⟨rfl, fun _ => rfl, fun _ => rfl⟩

theorem CaskSide.trans {s t u : State} (h : CaskSide s t) (k : CaskSide t u) : CaskSide s u :=
  ⟨caskWorked_trans h.frame k.frame, fun c => (k.held c).trans (h.held c), fun c => (k.buckets c).trans (h.buckets c)⟩

theorem CaskSide.bucketAt {s t : State} (h : CaskSide s t) (l : CaskLoc) : bucketAt t l = bucketAt s l := by
  rw [Machine.bucketAt, h.buckets, ← Machine.bucketAt]

theorem CaskSide.work {s t : State} (h : CaskSide s t) (l : CaskLoc) : CaskWork l s t :=
  ⟨h.frame, h.held, fun o _ => h.bucketAt o⟩

theorem CaskWork.refl (l : CaskLoc) (s : State) : CaskWork l s s := (CaskSide.refl s).work l

theorem CaskWork.trans {l : CaskLoc} {s t u : State} (h : CaskWork l s t) (k : CaskWork l t u) : CaskWork l s u :=
  ⟨caskWorked_trans h.frame k.frame, fun c => (k.held c).trans (h.held c), fun o ho => (k.others o ho).trans (h.others o ho)⟩

theorem CaskWork.side {l : CaskLoc} {s t u : State} (h : CaskWork l s t) (k : CaskSide t u) : CaskWork l s u :=
  h.trans (k.work l)

theorem CaskSide.record (s : State) (r : RecIn) : CaskSide s (record s r) := by
  have hcask : ∀ k, getCask (Machine.record s r) k = getCask s k := by
    intro k
    rw [getCask, record_frame_eq]
    rfl
  exact ⟨caskWorked_record s r, fun k => by rw [hcask], fun k => by rw [hcask]⟩

theorem CaskSide.modCask (s : State) (k : Nat) {g : Cask → Cask} (hheld : ∀ c, (g c).held = c.held)
    (hbuckets : ∀ c, (g c).buckets = c.buckets) : CaskSide s (modCask s k g) := by
  refine ⟨rfl, fun j => ?_, fun j => ?_⟩ <;> rw [getCask_modCask] <;> split
  · next h => rw [hheld, h]
  · rfl
  · next h => rw [hbuckets, h]
  · rfl

theorem CaskSide.bumpCask (s : State) (k off n : Nat) : CaskSide s (bumpCask s k off n) :=
  .modCask s k (fun _ => rfl) (fun _ => rfl)

theorem CaskSide.caskRecord (s : State) (l : CaskLoc) (kind detail : Nat) : CaskSide s (caskRecord s l kind detail) :=
  .record ..

theorem CaskSide.nextHeld (s : State) (n : Nat) : CaskSide s { s with nextHeld := n } := ⟨rfl, fun _ => rfl, fun _ => rfl⟩

/-! ### One bucket changed -/

/-- A change of a bucket that leaves where it is found. -/
def keyed (g : CaskBucket → CaskBucket) : Prop := ∀ x, (g x).low = x.low ∧ (g x).bucket = x.bucket

theorem subtractUnit_key (x : CaskBucket) (m u : Nat) :
    (subtractUnit x m u).low = x.low ∧ (subtractUnit x m u).bucket = x.bucket := by
  unfold subtractUnit
  dsimp only
  split <;> exact ⟨rfl, rfl⟩

theorem bucketAt_modBucket {s : State} {g : CaskBucket → CaskBucket} (hg : keyed g) (l o : CaskLoc) :
    bucketAt (modBucket s l g) o = if o = l then (bucketAt s l).map g else bucketAt s o := by
  have hkey : ∀ p : CaskBucket → Bool, (∀ x, p (if x.low = l.low ∧ x.bucket = l.b then g x else x) = p x) →
      ∀ bs : List CaskBucket, (bs.map (fun x => if x.low = l.low ∧ x.bucket = l.b then g x else x)).find? p =
        (bs.find? p).map (fun x => if x.low = l.low ∧ x.bucket = l.b then g x else x) := by
    intro p hp bs
    rw [List.find?_map]
    exact congrArg (fun f => Option.map _ (bs.find? f)) (funext hp)
  have hpred : ∀ x : CaskBucket, ((if x.low = l.low ∧ x.bucket = l.b then g x else x).low == o.low &&
      (if x.low = l.low ∧ x.bucket = l.b then g x else x).bucket == o.b) = (x.low == o.low && x.bucket == o.b) := by
    intro x
    split
    · rw [(hg x).1, (hg x).2]
    · rfl
  unfold bucketAt modBucket
  rw [getCask_modCask]
  by_cases hk : o.k = l.k
  · rw [if_pos hk]
    dsimp only
    rw [hkey _ hpred, hk]
    cases hf : (getCask s l.k).buckets.find? (fun x => x.low == o.low && x.bucket == o.b) with
    | none =>
      split
      · next h =>
        rw [h] at hf
        rw [hf]
        rfl
      · rfl
    | some x =>
      have hx : x.low = o.low ∧ x.bucket = o.b := by simpa using List.find?_some hf
      by_cases h : o = l
      · subst h
        rw [if_pos rfl, hf, Option.map_some, if_pos hx]
        rfl
      · rw [if_neg h, Option.map_some, if_neg]
        rintro ⟨hlow, hb⟩
        refine h ?_
        cases o
        cases l
        simp_all
  · rw [if_neg hk, if_neg (fun h => hk (by rw [h]))]

@[simp] theorem bucketAt_modBucket_same {s : State} {l : CaskLoc} {g : CaskBucket → CaskBucket} (hg : keyed g) :
    bucketAt (modBucket s l g) l = (bucketAt s l).map g := by rw [bucketAt_modBucket hg, if_pos rfl]

theorem CaskWork.modBucket {s : State} {l : CaskLoc} {g : CaskBucket → CaskBucket} (hg : keyed g) :
    CaskWork l s (modBucket s l g) := by
  refine ⟨rfl, fun k => ?_, fun o ho => by rw [bucketAt_modBucket hg, if_neg ho]⟩
  rw [Machine.modBucket, getCask_modCask]
  split
  · next h => rw [h]
  · rfl

/-! ### The steps of a cask's work -/

section Steps
variable {l : CaskLoc}

theorem judgeUnit_work (s : State) (m u : Nat) (backup selv pass : Bool) :
    CaskWork l s (judgeUnit s l m u backup selv pass) := by
  unfold judgeUnit
  split
  · exact .refl l s
  · dsimp only
    split
    · exact .refl l s
    · split
      · refine .side ?_ (.bumpCask ..)
        exact .modBucket (fun x => subtractUnit_key (setUnit x m u _) m u)
      · exact .modBucket (fun _ => ⟨rfl, rfl⟩)

theorem meetVerdict_work (s : State) (m u : Nat) (backup pass : Bool) : CaskWork l s (meetVerdict s l m u backup pass) := by
  unfold meetVerdict
  split
  · exact .refl l s
  · dsimp only
    split
    · exact .modBucket (fun _ => ⟨rfl, rfl⟩)
    · split
      · exact judgeUnit_work ..
      · exact .modBucket (fun _ => ⟨rfl, rfl⟩)

theorem applyPiece_work (s : State) (m u : Nat) (backup : Bool) : CaskWork l s (applyPiece s l m u backup) := by
  unfold applyPiece
  split
  · exact .refl l s
  · refine .trans ?_ (meetVerdict_work ..)
    exact .modBucket (fun _ => ⟨rfl, rfl⟩)

theorem applySelv_work (s : State) (m u : Nat) (backup : Bool) : CaskWork l s (applySelv s l m u backup) := by
  unfold applySelv
  split
  · exact .refl l s
  · split
    · refine .trans ?_ (judgeUnit_work ..)
      exact .modBucket (fun _ => ⟨rfl, rfl⟩)
    · exact .modBucket (fun _ => ⟨rfl, rfl⟩)

theorem countBackups_work (s : State) : CaskWork l s (countBackups s l) := by
  unfold countBackups
  split
  · dsimp only
    split
    · exact .refl l s
    · refine .side ?_ (.bumpCask ..)
      exact .modBucket (fun _ => ⟨rfl, rfl⟩)
  · exact .refl l s

theorem foldl_subtractUnit_key (us : List Nat) (x : CaskBucket) (m : Nat) :
    (us.foldl (fun x u => subtractUnit x m u) x).low = x.low ∧
      (us.foldl (fun x u => subtractUnit x m u) x).bucket = x.bucket := by
  induction us generalizing x with
  | nil => exact ⟨rfl, rfl⟩
  | cons u us ih => exact ⟨(ih _).1.trans (subtractUnit_key ..).1, (ih _).2.trans (subtractUnit_key ..).2⟩

/-- A bucket from which a contributor is withheld. -/
def withheldIn (m : Nat) (us : List Nat) (x : CaskBucket) : CaskBucket :=
  let x := us.foldl (fun x u => subtractUnit x m u) x
  { x with withheld := x.withheld ++ [m], withheldMark := true
           verdicts := x.verdicts.filter (fun v => v.speaksFor != m)
           building := x.building.filter (fun v => v.speaksFor != m) }

theorem withheldIn_keyed (m : Nat) (us : List Nat) : keyed (withheldIn m us) := fun x => foldl_subtractUnit_key us x m

/-- What the withholding of a contributor counts and records. -/
def withheldNotes (s : State) (l : CaskLoc) (m subtracted : Nat) : State :=
  let s := bumpCask s l.k caskWithheld 1
  let s := if subtracted = 0 then s else bumpCask s l.k caskSub subtracted
  caskRecord s l 0x24 (bucketDetail l.b m 0)

theorem withheldNotes_side (s : State) (m k : Nat) : CaskSide s (withheldNotes s l m k) := by
  unfold withheldNotes
  dsimp only
  split
  · exact (CaskSide.bumpCask ..).trans (.caskRecord ..)
  · exact ((CaskSide.bumpCask ..).trans (.bumpCask ..)).trans (.caskRecord ..)

theorem withhold_new {s : State} {x : CaskBucket} {m : Nat} (hx : bucketAt s l = some x) (hm : m ∉ x.withheld) :
    withhold s l m =
      withheldNotes (modBucket s l (withheldIn m (ledgerUnits x m))) l m (ledgerUnits x m).length := by
  unfold withhold withheldNotes
  rw [hx]
  dsimp only
  rw [if_neg (by simpa using hm)]
  simp only [List.isEmpty_iff_length_eq_zero]
  rfl

theorem withhold_old {s : State} {x : CaskBucket} {m : Nat} (hx : bucketAt s l = some x) (hm : m ∈ x.withheld) :
    withhold s l m = s := by
  unfold withhold
  rw [hx]
  exact if_pos (by simpa using hm)

theorem withhold_work (s : State) (m : Nat) : CaskWork l s (withhold s l m) := by
  cases hx : bucketAt s l with
  | none =>
    rw [withhold, hx]
    exact .refl l s
  | some x =>
    by_cases hm : m ∈ x.withheld
    · rw [withhold_old hx hm]
      exact .refl l s
    · rw [withhold_new hx hm]
      exact (CaskWork.modBucket (withheldIn_keyed m _)).side (withheldNotes_side ..)

/-- A unit as it is placed (R465 to R467). -/
def placedUnit (x : CaskBucket) (m u sender : Nat) (backup prov selv : Bool) (bytes : List Byte) : CaskUnit :=
  { unitOf x m u with
    added := true, own := !backup, crc := BitVec.ofNat 32 (crc32c bytes), sender := sender, backup := backup
    ledger := if prov || selv then some bytes else none, awaitsPiece := prov, awaitsSelv := selv }

/-- Whether a unit brings the first non-finite element of its contributor. -/
def freshNonfin (x : CaskBucket) (a : Int) (m u : Nat) (bytes : List Byte) : Bool :=
  (unitTerms a u bytes).any (fun t => t.2.isNone) && !x.nonfinSeen.contains m

/-- A bucket in which a unit is placed. -/
def placedIn (x : CaskBucket) (a : Int) (m u sender : Nat) (backup prov selv : Bool) (bytes : List Byte) (z : CaskBucket) :
    CaskBucket :=
  setUnit { z with
    cells := addCells z.cells (unitTerms a u bytes) 1
    nonfin := z.nonfin || (unitTerms a u bytes).any (fun t => t.2.isNone)
    nonfinSeen := if freshNonfin x a m u bytes then z.nonfinSeen ++ [m] else z.nonfinSeen } m u
    (placedUnit x m u sender backup prov selv bytes)

/-- The elements of which a remainder is lost. -/
def lostTerms (ts : List (Nat × Option (Int × Bool))) : Nat :=
  (ts.filter (fun t => match t.2 with | some (_, true) => true | _ => false)).length

/-- What the placement of a unit counts and records. -/
def placedNotes (s : State) (l : CaskLoc) (x : CaskBucket) (a : Int) (m u sender : Nat) (backup : Bool) (bytes : List Byte) :
    State :=
  let lost := lostTerms (unitTerms a u bytes)
  let s := if lost = 0 then s else bumpCask s l.k caskTrunc lost
  if freshNonfin x a m u bytes then caskRecord s l 0x21 (bucketDetail l.b sender (flag backup)) else s

theorem placedNotes_side (s : State) (x : CaskBucket) (a : Int) (m u sender : Nat) (backup : Bool) (bytes : List Byte) :
    CaskSide s (placedNotes s l x a m u sender backup bytes) := by
  have hlost : ∀ n, CaskSide s (if n = 0 then s else bumpCask s l.k caskTrunc n) := by
    intro n
    split
    · exact .refl s
    · exact .bumpCask ..
  unfold placedNotes
  dsimp only
  split
  · exact (hlost _).trans (.caskRecord ..)
  · exact hlost _

/-- A unit placed where the ledger has room: the kept verdicts of its copy then apply. -/
theorem placeUnit_done {s : State} {r : BucketRec} {x : CaskBucket} {a : Int} {m u sender : Nat} {backup prov selv : Bool}
    {bytes : List Byte} (h : ((prov || selv) && decide (1024 * r.ledgerKb < ledgerUsed x + 512)) = false) :
    placeUnit s l r x a m u sender backup prov selv bytes =
      let t := placedNotes (modBucket s l (placedIn x a m u sender backup prov selv bytes)) l x a m u sender backup bytes
      .done (applySelv (if prov then applyPiece t l m u backup else t) l m u backup) := by
  unfold placeUnit
  rw [if_neg (by rw [h]; decide)]
  rfl

theorem placeUnit_work {s t : State} {r : BucketRec} {x : CaskBucket} {a : Int} {m u sender : Nat} {backup prov selv : Bool}
    {bytes : List Byte} (h : placeUnit s l r x a m u sender backup prov selv bytes = .done t) : CaskWork l s t := by
  by_cases hfull : ((prov || selv) && decide (1024 * r.ledgerKb < ledgerUsed x + 512)) = true
  · rw [placeUnit, if_pos hfull] at h
    cases h
  · rw [placeUnit_done (by simpa using hfull)] at h
    have hplaced : CaskWork l s (placedNotes (modBucket s l (placedIn x a m u sender backup prov selv bytes)) l x a m u
        sender backup bytes) := by
      refine .side ?_ (placedNotes_side ..)
      exact .modBucket (fun _ => ⟨rfl, rfl⟩)
    cases h
    refine .trans ?_ (applySelv_work ..)
    split
    · exact hplaced.trans (applyPiece_work ..)
    · exact hplaced

/-- A bucket in which a unit has been compared with the copy it has (R465). -/
def comparedIn (x : CaskBucket) (m u : Nat) (backup prov : Bool) (bytes : List Byte) (z : CaskBucket) : CaskBucket :=
  let y := unitOf x m u
  let same := y.crc == BitVec.ofNat 32 (crc32c bytes)
  setUnit { z with verdicts := dropKept z.verdicts (fun v => checksNext v m u backup) u } m u { y with
    own := y.own || (same && !backup)
    comparedOwn := y.comparedOwn + flag (prov && !backup)
    comparedBackup := y.comparedBackup + flag (prov && backup) }

theorem compareUnit_eq (s : State) (x : CaskBucket) (m u sender : Nat) (backup prov : Bool) (bytes : List Byte) :
    compareUnit s l x m u sender backup prov bytes =
      let s := modBucket s l (comparedIn x m u backup prov bytes)
      let s := if prov then applyPiece s l m u backup else s
      if (unitOf x m u).crc == BitVec.ofNat 32 (crc32c bytes) then bumpCask s l.k caskDup 1
      else withhold (caskRecord (bumpCask s l.k caskMismatch 1) l 0x22 (bucketDetail l.b (unitOf x m u).sender sender)) l m :=
  rfl

theorem compareUnit_work (s : State) (x : CaskBucket) (m u sender : Nat) (backup prov : Bool) (bytes : List Byte) :
    CaskWork l s (compareUnit s l x m u sender backup prov bytes) := by
  have hcompared : CaskWork l s (if prov then applyPiece (modBucket s l (comparedIn x m u backup prov bytes)) l m u backup
      else modBucket s l (comparedIn x m u backup prov bytes)) := by
    split
    · refine .trans ?_ (applyPiece_work ..)
      exact .modBucket (fun _ => ⟨rfl, rfl⟩)
    · exact .modBucket (fun _ => ⟨rfl, rfl⟩)
  rw [compareUnit_eq]
  dsimp only
  split
  · exact hcompared.side (.bumpCask ..)
  · exact ((hcompared.side (.bumpCask ..)).side (.caskRecord ..)).trans (withhold_work ..)

theorem acceptUnit_work {s t : State} {r : BucketRec} {m u sender : Nat} {backup prov : Bool} {bytes : List Byte}
    (h : acceptUnit s l r m u sender backup prov bytes = .done t) : CaskWork l s t := by
  unfold acceptUnit at h
  split at h
  · cases h
  · split at h
    · cases h
    · dsimp only at h
      split at h
      · cases h
        exact .refl l _
      · split at h
        · cases h
        · split at h
          · cases h
            exact compareUnit_work ..
          · exact placeUnit_work h

theorem acceptUnits_work {r : BucketRec} {m sender : Nat} {backup prov : Bool} (n u : Nat) (bytes : List Byte) (s : State) :
    CaskWork l s (acceptUnits l r m sender backup prov n u bytes s).1 := by
  induction n generalizing u bytes s with
  | zero => exact .refl l s
  | succ n ih =>
    unfold acceptUnits
    split
    · next t ht => exact (acceptUnit_work ht).trans (ih ..)
    · exact .refl l s

/-- The state that a cask leaves, whether it has acted or holds the frame. -/
def CaskEnd.state : CaskEnd → State
  | .acted s => s
  | .hold s _ => s

theorem caskPlace_work (s : State) (r : BucketRec) (rx : Rx) (m : Nat) : CaskWork l s (caskPlace s l r rx m).state := by
  have hunits := acceptUnits_work (l := l) (r := r) (m := m) (sender := rx.sender) (backup := rx.frame.backup)
    (prov := rx.frame.prov) (rx.frame.data.length / 512) (faElem rx.frame.addr / 256) rx.frame.data s
  unfold caskPlace
  dsimp only
  split
  · next h =>
    rw [h] at hunits
    exact hunits.trans (countBackups_work _)
  · next h =>
    rw [h] at hunits
    exact hunits.trans (countBackups_work _)

/-- A bucket changed under the next number. -/
theorem numbered_work {s : State} {g : CaskBucket → CaskBucket} (hg : keyed g) :
    CaskWork l s (modBucket { s with nextHeld := s.nextHeld + 1 } l g) :=
  .trans ((CaskSide.nextHeld s (s.nextHeld + 1)).work l) (.modBucket hg)

theorem caskIvq_work (s : State) (r : BucketRec) (rx : Rx) (m : Nat) (cfg : Word × Word × Word) (count part parts : Nat) :
    CaskWork l s (caskIvq s l r rx m cfg count part parts).state := by
  unfold caskIvq
  dsimp only
  split
  · exact .refl l s
  · split
    · exact .modBucket (fun _ => ⟨rfl, rfl⟩)
    · refine .trans ?_ (caskPlace_work ..)
      exact numbered_work (fun _ => ⟨rfl, rfl⟩)

theorem foldl_meetVerdict_work (us : List Nat) (s : State) (m : Nat) (backup pass : Bool) :
    CaskWork l s (us.foldl (fun s u => meetVerdict s l m u backup pass) s) := by
  induction us generalizing s with
  | nil => exact .refl l s
  | cons u us ih => exact (meetVerdict_work ..).trans (ih _)

/-- The units that a verdict speaks of. -/
def verdictUnits (r : BucketRec) (off count : Nat) : List Nat :=
  ((List.range (count / 256)).map (fun i => off / 256 + i)).filter (fun u => decide (256 * u < r.elems))

/-- The units that a verdict judges at once, and those whose acceptance it waits for. -/
def judgedUnits (x : CaskBucket) (r : BucketRec) (m off count : Nat) (backup : Bool) : List Nat :=
  (verdictUnits r off count).filter (fun u => acceptedCopy (unitOf x m u) backup)
def awaitedUnits (x : CaskBucket) (r : BucketRec) (m off count : Nat) (backup : Bool) : List Nat :=
  (verdictUnits r off count).filter (fun u => !acceptedCopy (unitOf x m u) backup)

/-- Units judged by a piece's verdict, and contributors counted that have come to be resolved. -/
def judged (s : State) (l : CaskLoc) (m : Nat) (us : List Nat) (backup pass : Bool) : State :=
  countBackups (us.foldl (fun s u => meetVerdict s l m u backup pass) s) l

/-- A verdict kept for units to come (R565). -/
def keptVerdict (s : State) (rx : Rx) (m : Nat) (us : List Nat) (pass : Bool) : CaskVerdict :=
  { id := s.nextHeld, speaksFor := m, backup := rx.frame.backup, selv := false, sender := rx.sender, pass := pass,
    landed := true, units := us, waiting := [] }

theorem caskVerdict_eq {s : State} {x : CaskBucket} (r : BucketRec) (rx : Rx) (m off count : Nat) (pass : Bool)
    (hx : bucketAt s l = some x) : caskVerdict s l r rx m off count pass =
      let t := judged s l m (judgedUnits x r m off count rx.frame.backup) rx.frame.backup pass
      if (awaitedUnits x r m off count rx.frame.backup).isEmpty then t
      else modBucket { t with nextHeld := t.nextHeld + 1 } l (fun z => { z with verdicts := z.verdicts ++
        [keptVerdict t rx m (awaitedUnits x r m off count rx.frame.backup) pass] }) := by
  unfold caskVerdict
  rw [hx]
  rfl

theorem judged_work (s : State) (m : Nat) (us : List Nat) (backup pass : Bool) :
    CaskWork l s (judged s l m us backup pass) := (foldl_meetVerdict_work ..).trans (countBackups_work _)

theorem caskVerdict_work (s : State) (r : BucketRec) (rx : Rx) (m off count : Nat) (pass : Bool) :
    CaskWork l s (caskVerdict s l r rx m off count pass) := by
  cases hx : bucketAt s l with
  | none =>
    rw [caskVerdict, hx]
    exact .refl l s
  | some x =>
    rw [caskVerdict_eq r rx m off count pass hx]
    dsimp only
    split
    · exact judged_work ..
    · exact (judged_work ..).trans (numbered_work (fun _ => ⟨rfl, rfl⟩))

theorem fixAnchor_work (s : State) (r : BucketRec) : CaskWork l s (fixAnchor s l r) := by
  refine .modBucket (fun x => ?_)
  split <;> exact ⟨rfl, rfl⟩

theorem acceptHeader_work (s : State) (r : BucketRec) (m : Nat) (e : Int) : CaskWork l s (acceptHeader s l r m e) := by
  refine .trans ?_ (fixAnchor_work _ r)
  exact .modBucket (fun _ => ⟨rfl, rfl⟩)

end Steps

/-! ### Discards (R463, R469) -/

theorem discardInvalid_side (s : State) (l : CaskLoc) (rx : Rx) : CaskSide s (discardInvalid s l rx) :=
  (CaskSide.bumpCask ..).trans (.caskRecord ..)

/-- What a cask notes of a late frame beside its contributor: bucket, partition and tag (R463). -/
def lateKey (rx : Rx) : Nat :=
  (faBucket rx.frame.addr).toNat + faLow rx.frame.addr * 2 ^ 16 + rx.frame.tag.toNat * 2 ^ 20

theorem discardLate_side (s : State) (k : Nat) (rx : Rx) (b : Bool) : CaskSide s (discardLate s k rx b) := by
  unfold discardLate
  dsimp only
  split
  · refine .trans (.trans (.bumpCask s k caskLate (frameUnits rx.frame)) ?_) (.record _ _)
    exact .modCask _ k (g := fun c => { c with lateSeen := c.lateSeen ++ [(speaksFor rx, lateKey rx)] })
      (fun _ => rfl) (fun _ => rfl)
  · exact .bumpCask ..

theorem caskAccept_work (s : State) (l : CaskLoc) (r : BucketRec) (x : CaskBucket) (rx : Rx) (cfg : Word × Word × Word) :
    CaskWork l s (caskAccept s l r x rx cfg).state := by
  unfold caskAccept
  dsimp only
  split
  · exact (discardInvalid_side ..).work l
  · split
    · exact .refl l s
    · split
      · split
        · exact (discardInvalid_side ..).work l
        · exact acceptHeader_work ..
      · split
        · split
          · exact (discardInvalid_side ..).work l
          · exact caskIvq_work ..
        · split
          · exact (discardInvalid_side ..).work l
          · exact caskPlace_work ..
      · exact caskVerdict_work ..
      · exact .refl l s

theorem held_discardLate (s : State) (j : Nat) (rx : Rx) (b : Bool) (k : Nat) :
    (getCask (CaskEnd.acted (discardLate s j rx b)).state k).held = (getCask s k).held := (discardLate_side s j rx b).held k

/-- Whatever a cask does with a frame, it leaves the frames it holds. -/
theorem caskAct_held (s : State) (rx : Rx) (cfg : Word × Word × Word) (k : Nat) :
    (getCask (caskAct s rx cfg).state k).held = (getCask s k).held := by
  unfold caskAct
  dsimp only
  split
  · exact held_discardLate ..
  · split
    · exact held_discardLate ..
    · split
      · exact held_discardLate ..
      · split
        · split
          · exact (caskAccept_work ..).held k
          · split
            · rfl
            · exact held_discardLate ..
        · split
          · rfl
          · split
            · rfl
            · exact held_discardLate ..

end Sys2Proof.Machine
end

section
/-! Cask frames as they come (R450 to R469, R492, R565, R618): the grid, what a cask does with each frame, and its
acknowledgement. -/

namespace Sys2Proof.Machine

/-! ### The grid (R457 to R460, R466) -/

/-- What the terms of a unit add to one cell. -/
def cellSum (e : Nat) (ts : List (Nat × Option (Int × Bool))) : Int :=
  (ts.map (fun x => match x.2 with
    | some (q, _) => if x.1 = e then q else 0
    | none => 0)).sum

theorem tget_addCells (ts : List (Nat × Option (Int × Bool))) (c : Tbl Int) (sign : Int) (e : Nat) :
    tget 0 (addCells c ts sign) e = tget 0 c e + sign * cellSum e ts := by
  unfold addCells cellSum
  induction ts generalizing c with
  | nil => simp
  | cons x ts ih =>
    obtain ⟨i, o⟩ := x
    rw [List.foldl_cons, ih, List.map_cons, List.sum_cons]
    cases o with
    | none => simp
    | some y =>
      dsimp only
      rw [tget_tset, Int.mul_add]
      by_cases h : i = e
      · subst h
        rw [if_pos rfl, if_pos rfl, Int.add_assoc]
      · rw [if_neg (Ne.symm h), if_neg h, Int.mul_zero, Int.zero_add]

/-- An element in grid units, where its exponent is within the anchor. -/
theorem gridUnits_of_le {a m e x : Int} {raw : Nat} (hd : decodeFp fmtBF16 raw = .num m e) (hx : expoE m e = some x)
    (hle : x ≤ a) : gridUnits a raw =
      if 0 ≤ e - (a - 117) then some (m * pow2 (e - (a - 117)).toNat, false)
      else some (m.tdiv (pow2 (-(e - (a - 117))).toNat),
        m.tdiv (pow2 (-(e - (a - 117))).toNat) * pow2 (-(e - (a - 117))).toNat != m) := by
  unfold gridUnits
  rw [hd]
  dsimp only
  rw [hx]
  dsimp only
  rw [if_neg (Int.not_lt.mpr hle)]

/-! ### Taking a frame and acknowledging it -/

/-- Taking a frame leaves the state of every channel. -/
theorem takeRx_state {s u : State} {rx : Rx} (h : takeRx s rx = some u) (k m : Nat) :
    (getChan u k m).state = (getChan s k m).state := by
  unfold takeRx at h
  dsimp only at h
  split at h
  · split at h
    · split at h
      · cases h; rfl
      · cases h
    · cases h
  · split at h
    · cases h
      unfold getChan
      rw [getPort_modPort]
      split
      · next hk => rw [hk]
      · rfl
    · cases h

theorem frameOut_freeRx {s v : State} {port : Fin 8} {m : Nat} {f : Frame} (rx : Rx) (n : Nat) (h : frameOut s v port m f) :
    frameOut s (freeRx v rx n) port m f := by
  obtain ⟨hmesh, hport⟩ := h
  have hfree : (freeRx v rx n).mesh = v.mesh ∧
      ∀ k j, (getChan (freeRx v rx n) k j).txq = (getChan v k j).txq := by
    unfold freeRx
    split
    · exact ⟨rfl, fun _ _ => rfl⟩
    · refine ⟨rfl, fun k j => ?_⟩
      rw [freeSlots, getChan_modChan]
      split
      · next hk => rw [hk.1, hk.2]
      · rfl
  refine ⟨fun hm => hfree.1 ▸ hmesh hm, fun hm hc => ?_⟩
  rw [hfree.2]
  exact hport hm hc

theorem linked_getCask {s t : State} (h : linked s t) (k : Nat) : getCask t k = getCask s k := by
  rw [h]
  rfl

theorem linked_bucketAt {s t : State} (h : linked s t) (l : CaskLoc) : bucketAt t l = bucketAt s l := by
  rw [bucketAt, linked_getCask h, ← bucketAt]

theorem linked_pll {s t : State} (h : linked s t) : t.pll = s.pll := by rw [h]

/-- The acknowledgement of a frame (R455). -/
def ackFrame (rx : Rx) : Frame :=
  { bareFrame fkCaskAck rx.frame.addr rx.frame.srcCore rx.frame.srcShuttle rx.frame.tag rx.frame.inline with
    backup := rx.frame.backup }

/-- A frame that a cask has acted on: acknowledged, its credits on their way. -/
def ackedState (rx : Rx) (v : State) : State := freeRx (caskAck v rx) rx (frameSlots rx.frame).length

theorem linked_acked (rx : Rx) (v : State) : linked v (ackedState rx v) :=
  linked_trans (linked_sendTo ..) (linked_freeRx ..)

/-- What the obligation says of an acknowledgement. -/
def ackOut (s : State) (rx : Rx) (t : State) : Prop :=
  ∃ d, frameOut s t rx.port rx.sender d ∧ d.kind = fkCaskAck ∧ d.addr = rx.frame.addr ∧ d.tag = rx.frame.tag ∧
    d.inline = rx.frame.inline

theorem ackedState_out {s u v : State} {rx : Rx} (hu : takeRx s rx = some u) (hv : caskWorked u v) :
    ackOut s rx (ackedState rx v) :=
  ⟨ackFrame rx, frameOut_freeRx rx _ (sendTo_out rx (ackFrame rx) (linked_takeRx hu) (takeRx_state hu)
    (worked_ports hv) (worked_fabric hv)), rfl, rfl, rfl, rfl⟩

/-- A cask frame's command, by its kind. -/
def caskCommand (c : Instr) (rx : Rx) : Prop :=
  c = .caskHdrReceive rx ∧ rx.frame.kind = fkCaskHdr ∨ c = .caskPieceReceive rx false ∧ rx.frame.kind = fkPiece ∨
    c = .verdictReceive rx ∧ rx.frame.kind = fkVerdict

theorem caskReceive_taken {kind : Byte} {rx : Rx} {s u : State} (hk : rx.frame.kind = kind) (hu : takeRx s rx = some u) :
    caskReceive kind rx s = .next (caskArrive u rx (metCfg s rx)) := by
  rw [caskReceive, if_pos hk, hu]

theorem exec_caskCommand {c : Instr} {rx : Rx} {s u : State} (hc : caskCommand c rx) (hu : takeRx s rx = some u) :
    exec c s = .next (caskArrive u rx (metCfg s rx)) := by
  obtain ⟨rfl, hk⟩ | ⟨rfl, hk⟩ | ⟨rfl, hk⟩ := hc
  · exact caskReceive_taken hk hu
  · exact (if_neg (by simp) : execCaskPieceReceive rx false s = _).trans (caskReceive_taken hk hu)
  · exact caskReceive_taken hk hu

theorem caskReceive_absent {kind : Byte} {rx : Rx} {s : State} (h : takeRx s rx = none) : caskReceive kind rx s = .next s := by
  unfold caskReceive
  rw [h, ite_self]

/-- A frame behind no held one of its lane, once the cask has acted. -/
theorem caskArrive_acted {u v : State} {rx : Rx} {cfg : Word × Word × Word}
    (hheld : (getCask u rx.port.val).held.any (fun h => sameLane h.rx rx) = false) (hact : caskAct u rx cfg = .acted v) :
    caskArrive u rx cfg = ackedState rx v := by
  unfold caskArrive
  dsimp only
  rw [hheld, if_neg Bool.false_ne_true, hact]
  rfl

/-- A frame kept in the link engine. -/
def heldState (u : State) (rx : Rx) (f : Frame) (cfg : Word × Word × Word) : State :=
  modCask { u with nextHeld := u.nextHeld + 1 } rx.port.val (fun c => { c with held := c.held ++
    [{ id := u.nextHeld, rx := { rx with frame := f }, slots := (frameSlots rx.frame).length, cfg := cfg }] })

theorem caskArrive_held {u : State} {rx : Rx} {cfg : Word × Word × Word} (hact : caskAct u rx cfg = .hold u rx.frame) :
    caskArrive u rx cfg = heldState u rx rx.frame cfg := by
  unfold caskArrive
  dsimp only
  split
  · rfl
  · rw [hact]
    rfl

theorem heldState_held (u : State) (rx : Rx) (cfg : Word × Word × Word) :
    ∃ h, (getCask (heldState u rx rx.frame cfg) rx.port.val).held = (getCask u rx.port.val).held ++ [h] ∧ h.rx = rx := by
  refine ⟨{ id := u.nextHeld, rx := rx, slots := (frameSlots rx.frame).length, cfg := cfg }, ?_, rfl⟩
  rw [heldState, getCask_modCask_same]
  rfl

theorem heldState_buckets (u : State) (rx : Rx) (f : Frame) (cfg : Word × Word × Word) (k : Nat) :
    (getCask (heldState u rx f cfg) k).buckets = (getCask u k).buckets := by
  rw [heldState, getCask_modCask]
  split
  · next h =>
    rw [h]
    rfl
  · rfl

/-! ### What a cask does with a frame (R462, R463, R618) -/

section Acts
variable {s : State} {rx : Rx} {cfg : Word × Word × Word} {p : Part} (hp : partAt s (faLow rx.frame.addr) = some p)
  (hj : faCask rx.frame.addr < caskCount p)
include hp hj

/-- The cask and bucket that a frame names. -/
def frameLoc (p : Part) (f : Frame) : CaskLoc := { k := caskOf p (faCask f.addr), low := p.low, b := faBucket f.addr }

theorem caskAct_reset (h : p.reset.isSome = true ∨ (p.afterReset = true ∧ p.ctx = .empty)) :
    caskAct s rx cfg = .acted (discardLate s (caskOf p (faCask rx.frame.addr)) rx false) := by
  have hcond : (p.reset.isSome || (p.afterReset && p.ctx == .empty)) = true := by simpa using h
  unfold caskAct
  dsimp only
  rw [hp]
  dsimp only
  rw [hcond, if_pos rfl, if_pos hj]

variable (hr : p.reset = none) (ha : p.afterReset = false)
include hr ha

theorem caskAct_live : caskAct s rx cfg =
    match bucketAt s (frameLoc p rx.frame), bucketRec p (faBucket rx.frame.addr) with
    | some x, some r =>
      let d := (rx.frame.tag - x.tag).toNat
      if d = 0 then caskAccept s (frameLoc p rx.frame) r x rx cfg
      else if d ≤ 32767 then .hold s rx.frame
      else .acted (discardLate s (caskOf p (faCask rx.frame.addr)) rx true)
    | _, _ =>
      if rx.frame.kind = fkVerdict ∧ p.closed.contains (faBucket rx.frame.addr, rx.frame.tag) then .acted s
      else if (rx.frame.tag - (getQuad s p.low).jnlIndex.truncate 16).toNat ≤ 32767 then .hold s rx.frame
      else .acted (discardLate s (caskOf p (faCask rx.frame.addr)) rx true) := by
  unfold caskAct
  dsimp only
  rw [hp]
  dsimp only
  rw [hr, ha, if_neg (by simp), if_neg (Nat.not_le.mpr hj)]
  rfl

theorem caskAct_open {x : CaskBucket} {r : BucketRec} (hx : bucketAt s (frameLoc p rx.frame) = some x)
    (hrec : bucketRec p (faBucket rx.frame.addr) = some r) (ht : rx.frame.tag = x.tag) :
    caskAct s rx cfg = caskAccept s (frameLoc p rx.frame) r x rx cfg := by
  rw [caskAct_live hp hj hr ha, hx, hrec]
  dsimp only
  rw [if_pos (by rw [ht]; simp)]

theorem caskAct_early {x : CaskBucket} {r : BucketRec} (hx : bucketAt s (frameLoc p rx.frame) = some x)
    (hrec : bucketRec p (faBucket rx.frame.addr) = some r) (h1 : 1 ≤ (rx.frame.tag - x.tag).toNat)
    (h2 : (rx.frame.tag - x.tag).toNat ≤ 32767) : caskAct s rx cfg = .hold s rx.frame := by
  rw [caskAct_live hp hj hr ha, hx, hrec]
  dsimp only
  rw [if_neg (by omega), if_pos h2]

theorem caskAct_late {x : CaskBucket} {r : BucketRec} (hx : bucketAt s (frameLoc p rx.frame) = some x)
    (hrec : bucketRec p (faBucket rx.frame.addr) = some r) (h : 32767 < (rx.frame.tag - x.tag).toNat) :
    caskAct s rx cfg = .acted (discardLate s (caskOf p (faCask rx.frame.addr)) rx true) := by
  rw [caskAct_live hp hj hr ha, hx, hrec]
  dsimp only
  rw [if_neg (by omega), if_neg (by omega)]

theorem caskAct_unopened (hx : bucketAt s (frameLoc p rx.frame) = none)
    (hv : ¬ (rx.frame.kind = fkVerdict ∧ (faBucket rx.frame.addr, rx.frame.tag) ∈ p.closed)) :
    caskAct s rx cfg =
      if (rx.frame.tag - (getQuad s p.low).jnlIndex.truncate 16).toNat ≤ 32767 then .hold s rx.frame
      else .acted (discardLate s (caskOf p (faCask rx.frame.addr)) rx true) := by
  rw [caskAct_live hp hj hr ha, hx]
  dsimp only
  rw [if_neg (by simpa using hv)]

end Acts

/-! ### Late and invalid frames (R463, R469) -/

theorem counter_bumpCask (s : State) (k off n : Nat) : tget 0 (getCask (bumpCask s k off n) k).counters off =
    tget 0 (getCask s k).counters off + BitVec.ofNat 64 n := by
  rw [bumpCask, getCask_modCask_same, bumpTbl, tget_tset_same]

theorem getCask_record (s : State) (r : RecIn) (k : Nat) : getCask (record s r) k = getCask s k := by
  rw [getCask, record_frame_eq]
  rfl

theorem counted_discardLate (s : State) (k : Nat) (rx : Rx) (b : Bool) :
    tget 0 (getCask (discardLate s k rx b) k).counters caskLate =
      tget 0 (getCask s k).counters caskLate + BitVec.ofNat 64 (frameUnits rx.frame) := by
  rw [← counter_bumpCask]
  unfold discardLate
  dsimp only
  split
  · rw [getCask_record, getCask_modCask_same]
  · rfl

theorem discardLate_quiet (s : State) (k : Nat) (rx : Rx) :
    discardLate s k rx false = bumpCask s k caskLate (frameUnits rx.frame) := by
  unfold discardLate
  dsimp only
  rw [Bool.false_and, if_neg Bool.false_ne_true]

theorem counted_discardInvalid (s : State) (l : CaskLoc) (rx : Rx) :
    tget 0 (getCask (discardInvalid s l rx) l.k).counters caskLate =
        tget 0 (getCask s l.k).counters caskLate + BitVec.ofNat 64 (frameUnits rx.frame) ∧
      (discardInvalid s l rx).errors.rseq = s.errors.rseq + 1 := by
  unfold discardInvalid caskRecord
  refine ⟨?_, record_rseq ..⟩
  rw [getCask_record, counter_bumpCask]

/-- A frame from a sender that may not speak for its contributor (R450, R469). -/
theorem caskAccept_invalid {s : State} {l : CaskLoc} {r : BucketRec} {x : CaskBucket} {rx : Rx} {cfg : Word × Word × Word}
    (h : bit r.contrib (speaksFor rx) = false ∨ (rx.frame.backup = true ∧ backupOf r (speaksFor rx) ≠ rx.sender)) :
    caskAccept s l r x rx cfg = .acted (discardInvalid s l rx) := by
  unfold caskAccept
  dsimp only
  rw [if_pos (by simpa using h)]

section Accepted
variable {s : State} {l : CaskLoc} {r : BucketRec} {x : CaskBucket} {rx : Rx} {cfg : Word × Word × Word}
  (hbit : bit r.contrib (speaksFor rx) = true) (hbackup : rx.frame.backup = true → backupOf r (speaksFor rx) = rx.sender)
include hbit hbackup

theorem mayspeak : (!bit r.contrib (speaksFor rx) || (rx.frame.backup && backupOf r (speaksFor rx) != rx.sender)) = false := by
  cases hb : rx.frame.backup with
  | false => simp [hbit]
  | true => simp [hbit, hbackup hb]

theorem caskAccept_withheld (hw : speaksFor rx ∈ x.withheld) : caskAccept s l r x rx cfg = .acted s := by
  unfold caskAccept
  dsimp only
  rw [mayspeak hbit hbackup, if_neg Bool.false_ne_true, if_pos (by simpa using hw)]

variable (hw : speaksFor rx ∉ x.withheld)
include hw

theorem caskAccept_header {e : Int} {bad : Bool} (hin : rx.frame.inline = .header e bad r.elems r.digest) :
    caskAccept s l r x rx cfg = .acted (acceptHeader s l r (speaksFor rx) e) := by
  unfold caskAccept
  dsimp only
  rw [mayspeak hbit hbackup, if_neg Bool.false_ne_true, if_neg (by simpa using hw), hin]
  simp

theorem caskAccept_piece {n : Nat} (hin : rx.frame.inline = .piece n false 0 1) (hlen : rx.frame.data.length = 512)
    (hoff : faElem rx.frame.addr % 256 = 0) (hend : faElem rx.frame.addr + 256 ≤ r.elems) :
    caskAccept s l r x rx cfg = caskPlace s l r rx (speaksFor rx) := by
  unfold caskAccept
  dsimp only
  rw [mayspeak hbit hbackup, if_neg Bool.false_ne_true, if_neg (by simpa using hw), hin]
  dsimp only
  rw [if_neg Bool.false_ne_true, hlen, if_neg (by omega), if_neg Bool.false_ne_true]

theorem caskAccept_verdict {voff count : Nat} {pass : Bool} (hin : rx.frame.inline = .verdict voff count pass) :
    caskAccept s l r x rx cfg = .acted (caskVerdict s l r rx (speaksFor rx) voff count pass) := by
  unfold caskAccept
  dsimp only
  rw [mayspeak hbit hbackup, if_neg Bool.false_ne_true, if_neg (by simpa using hw), hin]

end Accepted

end Sys2Proof.Machine
end

section
/-! The buckets that cask frames leave, held frames that go on, and acknowledgements (R455 to R469, R492, R565). -/

namespace Sys2Proof.Machine

/-! ### Commands for an open bucket -/

/-- A frame for its open bucket, on which the cask acts: what the bucket becomes, and what stays. -/
theorem forBucket_acts {c : Instr} {rx : Rx} {s : State} {l : CaskLoc} {p : Part} {r : BucketRec} {x : CaskBucket}
    {g : CaskBucket → Prop} (hc : caskCommand c rx) (hfor : forBucket s rx l p r x)
    (h : ∀ u, linked s u → bucketAt u l = some x →
      ∃ v z, caskAccept u l r x rx (metCfg s rx) = .acted v ∧ bucketAt v l = some z ∧ g z) :
    ∃ t z, exec c s = .next t ∧ bucketAt t l = some z ∧ g z ∧ ackOut s rx t ∧ onlyBucket s t l ∧ t.cores = s.cores ∧
      t.lpddr = s.lpddr := by
  obtain ⟨hsome, hp, hr, ha, hj, rfl, hx, hrec, htag, -, -, -, hheld⟩ := hfor
  obtain ⟨u, hu⟩ := Option.isSome_iff_exists.mp hsome
  have hlink := linked_takeRx hu
  have hxu : bucketAt u (frameLoc p rx.frame) = some x := (linked_bucketAt hlink _).trans hx
  obtain ⟨v, z, hacc, hz, hg⟩ := h u hlink hxu
  have hact : caskAct u rx (metCfg s rx) = .acted v :=
    (caskAct_open ((linked_partAt hlink _).trans hp) hj hr ha hxu hrec htag).trans hacc
  have hwork : CaskWork (frameLoc p rx.frame) u v := by
    have := caskAccept_work u (frameLoc p rx.frame) r x rx (metCfg s rx)
    rw [show caskAccept u (frameLoc p rx.frame) r x rx (metCfg s rx) = .acted v from hacc] at this
    exact this
  have hlast : linked v (ackedState rx v) := linked_acked rx v
  refine ⟨ackedState rx v, z, ?_, (linked_bucketAt hlast _).trans hz, hg, ackedState_out hu hwork.frame, fun o ho => ?_,
    ?_, ?_⟩
  · rw [exec_caskCommand hc hu, caskArrive_acted (by rw [linked_getCask hlink]; exact hheld) hact]
  · rw [linked_bucketAt hlast, hwork.others o ho, linked_bucketAt hlink]
  · exact (linked_cores hlast).trans ((worked_cores hwork.frame).trans (linked_cores hlink))
  · exact (linked_lpddr hlast).trans ((worked_lpddr hwork.frame).trans (linked_lpddr hlink))

/-! ### The bucket after each step -/

section Buckets
variable {s : State} {l : CaskLoc} {x : CaskBucket} (hx : bucketAt s l = some x)
include hx

theorem bucketAt_modBucket_some {g : CaskBucket → CaskBucket} (hg : keyed g) :
    bucketAt (modBucket s l g) l = some (g x) := by
  rw [bucketAt_modBucket_same hg, hx]
  rfl

/-- Counting backups only notes contributors. -/
theorem bucketAt_countBackups : ∃ ms, bucketAt (countBackups s l) l = some { x with backedUp := ms } := by
  unfold countBackups
  rw [hx]
  split
  · next y r hy _ =>
    obtain rfl := Option.some.inj hy
    dsimp only
    split
    · exact ⟨x.backedUp, hx⟩
    · exact ⟨_, ((CaskSide.bumpCask ..).bucketAt l).trans (bucketAt_modBucket_some hx (fun _ => ⟨rfl, rfl⟩))⟩
  · exact ⟨x.backedUp, hx⟩

/-- A bucket whose anchor is fixed where every contributor is resolved for its header (R457). -/
def anchoredIn (now : Nat) (r : BucketRec) (x : CaskBucket) : CaskBucket :=
  if x.anchor.isNone && (contributors r).all (fun m => x.headers.contains m || x.withheld.contains m) then
    { x with anchor := some (max (-16) x.largest), anchorAt := now }
  else x

omit hx in
theorem anchoredIn_frame (now : Nat) (r : BucketRec) (x : CaskBucket) :
    anchoredIn now r x =
      { x with anchor := (anchoredIn now r x).anchor, anchorAt := (anchoredIn now r x).anchorAt } := by
  unfold anchoredIn
  split <;> rfl

omit hx in
theorem anchoredIn_keyed (now : Nat) (r : BucketRec) : keyed (anchoredIn now r) := fun x => by
  rw [anchoredIn_frame]
  exact ⟨rfl, rfl⟩

theorem bucketAt_fixAnchor (r : BucketRec) : bucketAt (fixAnchor s l r) l = some (anchoredIn s.pll r x) :=
  bucketAt_modBucket_some hx (anchoredIn_keyed s.pll r)

/-- A bucket that a header has reached. -/
def headedIn (now m : Nat) (e : Int) (x : CaskBucket) : CaskBucket :=
  { x with
    clock := some (x.clock.getD now)
    headers := if x.headers.contains m then x.headers else x.headers ++ [m]
    largest := max x.largest e }

omit hx in
theorem acceptHeader_eq (r : BucketRec) (m : Nat) (e : Int) :
    acceptHeader s l r m e = fixAnchor (modBucket s l (headedIn s.pll m e)) l r := by
  unfold acceptHeader
  congr 2
  funext x
  cases hc : x.clock <;> simp [headedIn, hc]

theorem bucketAt_acceptHeader (r : BucketRec) (m : Nat) (e : Int) :
    bucketAt (acceptHeader s l r m e) l = some (anchoredIn s.pll r (headedIn s.pll m e x)) := by
  rw [acceptHeader_eq]
  exact bucketAt_fixAnchor (s := modBucket s l _)
    (bucketAt_modBucket_some (g := headedIn s.pll m e) hx (fun _ => ⟨rfl, rfl⟩)) r

end Buckets

theorem mem_headedIn (now m : Nat) (e : Int) (x : CaskBucket) : m ∈ (headedIn now m e x).headers := by
  unfold headedIn
  dsimp only
  split
  · next h => simpa using h
  · simp

theorem anchoredIn_some {now : Nat} {r : BucketRec} {x : CaskBucket} {a : Int} (h : x.anchor = some a) :
    anchoredIn now r x = x := by
  unfold anchoredIn
  rw [h]
  rfl

theorem anchoredIn_resolved {now : Nat} {r : BucketRec} {x : CaskBucket} (h : x.anchor = none)
    (hall : ∀ c ∈ contributors r, c ∈ x.headers ∨ c ∈ x.withheld) :
    (anchoredIn now r x).anchor = some (max (-16) x.largest) := by
  unfold anchoredIn
  rw [if_pos]
  simpa [h] using hall

/-- What the obligation says of the bucket of a header. -/
theorem headed_bucket (now m : Nat) (e : Int) (r : BucketRec) (x : CaskBucket) :
    let z := anchoredIn now r (headedIn now m e x)
    m ∈ z.headers ∧ z.largest = max x.largest e ∧ z.cells = x.cells ∧ z.units = x.units ∧
      z.clock = some (x.clock.getD now) ∧
      (x.anchor = none → (∀ c ∈ contributors r, c ∈ z.headers ∨ c ∈ z.withheld) →
        z.anchor = some (max (-16) z.largest)) ∧ (∀ a, x.anchor = some a → z.anchor = some a) := by
  intro z
  have hz : z = { headedIn now m e x with anchor := z.anchor, anchorAt := z.anchorAt } := anchoredIn_frame ..
  have hheaders : z.headers = (headedIn now m e x).headers := by rw [hz]
  have hwithheld : z.withheld = (headedIn now m e x).withheld := by rw [hz]
  have hlargest : z.largest = (headedIn now m e x).largest := by rw [hz]
  refine ⟨hheaders ▸ mem_headedIn now m e x, hlargest, by rw [hz]; rfl, by rw [hz]; rfl, by rw [hz]; rfl, ?_, ?_⟩
  · intro hnone hall
    rw [hlargest]
    refine anchoredIn_resolved hnone ?_
    rwa [hheaders, hwithheld] at hall
  · intro a ha
    exact (congrArg CaskBucket.anchor (anchoredIn_some (x := headedIn now m e x) ha)).trans ha

/-! ### A unit of a piece (R464 to R467) -/

section Units
variable {s : State} {l : CaskLoc} {x : CaskBucket}

theorem unitOf_setUnit (x : CaskBucket) (m u : Nat) (y : CaskUnit) : unitOf (setUnit x m u y) m u = y := tget_tset_same ..

theorem units_placedIn_other {a : Int} {m u sender v : Nat} {backup prov selv : Bool} {bytes : List Byte}
    (h : v ≠ unitKey m u) :
    tget {} (placedIn x a m u sender backup prov selv bytes x).units v = tget {} x.units v := by
  show tget {} (tset {} x.units (unitKey m u) (placedUnit x m u sender backup prov selv bytes)) v = _
  exact tget_tset_other _ _ _ h

/-- No kept verdict meets a unit where none is kept. -/
theorem applyPiece_none (hx : bucketAt s l = some x) (hv : x.verdicts = []) (m u : Nat) (b : Bool) :
    applyPiece s l m u b = s := by
  unfold applyPiece
  rw [hx, Option.bind_some, hv]
  rfl

theorem applySelv_none (hx : bucketAt s l = some x) (hv : x.verdicts = []) (m u : Nat) (b : Bool) :
    applySelv s l m u b = s := by
  unfold applySelv
  rw [hx, Option.bind_some, hv]
  rfl

/-- A piece of one unit on which the cask acts. -/
theorem caskPlace_one {r : BucketRec} {rx : Rx} {m : Nat} {v : State} (hlen : rx.frame.data.length = 512)
    (h : acceptUnit s l r m (faElem rx.frame.addr / 256) rx.sender rx.frame.backup rx.frame.prov rx.frame.data =
      .done v) : caskPlace s l r rx m = .acted (countBackups v l) := by
  have hall : acceptUnits l r m rx.sender rx.frame.backup rx.frame.prov (rx.frame.data.length / 512)
      (faElem rx.frame.addr / 256) rx.frame.data s = (v, none) := by
    rw [hlen, acceptUnits, List.take_of_length_le hlen.le, h]
    rfl
  unfold caskPlace
  dsimp only
  rw [hall]

variable {r : BucketRec} {m u sender : Nat} {backup prov : Bool} {bytes : List Byte} {a : Int}
  (hx : bucketAt s l = some x) (ha : x.anchor = some a) (hv : x.verdicts = []) (hw : m ∉ x.withheld)
  (hlow : x.sealedCount ≤ u / 256) (hhigh : u / 256 ≤ x.sealedCount + 1)
include hx ha hv hw hlow hhigh

/-- An absent unit is placed: its terms are added, and with the ledger where it is provisional. -/
theorem acceptUnit_placed (habsent : (unitOf x m u).added = false) (hroom : prov = true → ledgerUsed x + 512 ≤ 1024 * r.ledgerKb) :
    ∃ v, acceptUnit s l r m u sender backup prov bytes = .done v ∧
      bucketAt v l = some (placedIn x a m u sender backup prov false bytes x) := by
  have hplaced : bucketAt (placedNotes (modBucket s l (placedIn x a m u sender backup prov false bytes)) l x a m u sender
      backup bytes) l = some (placedIn x a m u sender backup prov false bytes x) := by
    rw [(placedNotes_side ..).bucketAt]
    exact bucketAt_modBucket_some hx (fun _ => ⟨rfl, rfl⟩)
  have hnone : (placedIn x a m u sender backup prov false bytes x).verdicts = [] := hv
  refine ⟨_, ?_, hplaced⟩
  unfold acceptUnit
  rw [hx]
  dsimp only
  rw [ha]
  dsimp only
  rw [if_neg (by simpa using hw), if_neg (by omega), habsent, if_neg Bool.false_ne_true, hv, List.any_nil,
    placeUnit_done (by
      cases hp : prov with
      | false => rfl
      | true => simpa using hroom hp)]
  dsimp only
  rw [applyPiece_none hplaced hnone, ite_self, applySelv_none hplaced hnone]

/-- A unit added before with the same bytes is only compared. -/
theorem acceptUnit_same (hadded : (unitOf x m u).added = true) (hcrc : (unitOf x m u).crc = BitVec.ofNat 32 (crc32c bytes)) :
    ∃ v, acceptUnit s l r m u sender backup prov bytes = .done v ∧
      bucketAt v l = some (comparedIn x m u backup prov bytes x) := by
  have hcompared : bucketAt (modBucket s l (comparedIn x m u backup prov bytes)) l =
      some (comparedIn x m u backup prov bytes x) := bucketAt_modBucket_some hx (fun _ => ⟨rfl, rfl⟩)
  have hnone : (comparedIn x m u backup prov bytes x).verdicts = [] := by
    show dropKept x.verdicts _ u = []
    rw [hv]
    rfl
  refine ⟨bumpCask (modBucket s l (comparedIn x m u backup prov bytes)) l.k caskDup 1, ?_, ?_⟩
  · unfold acceptUnit
    rw [hx]
    dsimp only
    rw [ha]
    dsimp only
    rw [if_neg (by simpa using hw), if_neg (by omega), hadded, if_pos rfl, compareUnit_eq]
    dsimp only
    rw [applyPiece_none hcompared hnone, ite_self, hcrc, if_pos (beq_self_eq_true _)]
  · rw [(CaskSide.bumpCask ..).bucketAt, hcompared]

end Units

/-! ### Verdicts (R466, R565) -/

section Verdicts
variable {s : State} {l : CaskLoc} {x : CaskBucket} (hx : bucketAt s l = some x)
include hx

/-- A verdict whose units have yet to come is kept for them. -/
theorem caskVerdict_kept {r : BucketRec} {rx : Rx} {m voff count : Nat} {pass : Bool}
    (hnone : ∀ j, j < count / 256 → acceptedCopy (unitOf x m (voff / 256 + j)) rx.frame.backup = false) :
    ∃ z, bucketAt (caskVerdict s l r rx m voff count pass) l = some z ∧ z.cells = x.cells ∧ z.units = x.units ∧
      ∀ j, j < count / 256 → 256 * (voff / 256 + j) < r.elems → ∃ v ∈ z.verdicts, v.speaksFor = m ∧
        v.backup = rx.frame.backup ∧ v.pass = pass ∧ v.landed = true ∧ voff / 256 + j ∈ v.units := by
  have hjudged : judgedUnits x r m voff count rx.frame.backup = [] := by
    rw [judgedUnits, List.filter_eq_nil_iff]
    intro u hu
    obtain ⟨hu, -⟩ := List.mem_filter.mp hu
    obtain ⟨j, hj, rfl⟩ := List.mem_map.mp hu
    rw [hnone j (List.mem_range.mp hj)]
    exact Bool.false_ne_true
  have hawaited : ∀ j, j < count / 256 → 256 * (voff / 256 + j) < r.elems →
      voff / 256 + j ∈ awaitedUnits x r m voff count rx.frame.backup := by
    intro j hj hend
    refine List.mem_filter.mpr ⟨List.mem_filter.mpr ⟨List.mem_map.mpr ⟨j, List.mem_range.mpr hj, rfl⟩, by simpa using hend⟩, ?_⟩
    rw [hnone j hj]
    rfl
  obtain ⟨ms, hms⟩ := bucketAt_countBackups hx
  rw [caskVerdict_eq r rx m voff count pass hx, hjudged]
  dsimp only
  rw [show judged s l m [] rx.frame.backup pass = countBackups s l from rfl]
  split
  · next hempty =>
    refine ⟨_, hms, rfl, rfl, fun j hj hend => ?_⟩
    rw [List.isEmpty_iff.mp hempty] at hawaited
    exact absurd (hawaited j hj hend) List.not_mem_nil
  · refine ⟨_, bucketAt_modBucket_some (s := { countBackups s l with nextHeld := _ }) hms (fun _ => ⟨rfl, rfl⟩), rfl, rfl,
      fun j hj hend => ⟨_, List.mem_append_right _ (List.mem_singleton.mpr rfl), rfl, rfl, rfl, rfl, hawaited j hj hend⟩⟩

omit hx in
theorem subtractUnit_placed {m u : Nat} {a : Int} {bs : List Byte} (ha : x.anchor = some a)
    (hledger : (unitOf x m u).ledger = some bs) :
    (subtractUnit x m u).cells = addCells x.cells (unitTerms a u bs) (-1) ∧
      (unitOf (subtractUnit x m u) m u).added = false ∧ (unitOf (subtractUnit x m u) m u).ledger = none := by
  unfold subtractUnit
  dsimp only
  rw [hledger, ha]
  dsimp only
  rw [unitOf_setUnit]
  exact ⟨rfl, rfl, rfl⟩

/-- A failing verdict of a placed copy takes its terms off and marks it absent. -/
theorem judgeUnit_fail {m u : Nat} {backup : Bool} {a : Int} {bs : List Byte} (ha : x.anchor = some a)
    (hledger : (unitOf x m u).ledger = some bs) (hbackup : (unitOf x m u).backup = backup) :
    ∃ z, bucketAt (judgeUnit s l m u backup false false) l = some z ∧ z.cells = addCells x.cells (unitTerms a u bs) (-1) ∧
      (unitOf z m u).added = false ∧ (unitOf z m u).ledger = none := by
  unfold judgeUnit
  rw [hx]
  dsimp only
  rw [if_neg (by simp [hledger, hbackup])]
  refine ⟨_, ((CaskSide.bumpCask ..).bucketAt l).trans
    (bucketAt_modBucket_some hx (fun z => subtractUnit_key (setUnit z m u _) m u)), ?_⟩
  refine subtractUnit_placed (x := setUnit x m u _) ha ?_
  rw [unitOf_setUnit]
  exact hledger

/-- A passing verdict of a placed copy frees its ledger entry, where no other is awaited. -/
theorem judgeUnit_pass {m u : Nat} {backup : Bool} (hledger : (unitOf x m u).ledger.isSome = true)
    (hbackup : (unitOf x m u).backup = backup) :
    ∃ z, bucketAt (judgeUnit s l m u backup false true) l = some z ∧ z.cells = x.cells ∧
      ((unitOf x m u).awaitsSelv = false → (unitOf z m u).ledger = none ∧
        (unitOf z m u).added = (unitOf x m u).added) := by
  unfold judgeUnit
  rw [hx]
  dsimp only
  rw [if_neg (by rw [← Option.not_isSome, hledger, hbackup]; simp)]
  refine ⟨_, bucketAt_modBucket_some hx (fun _ => ⟨rfl, rfl⟩), rfl, fun hselv => ?_⟩
  rw [unitOf_setUnit, hselv]
  exact ⟨rfl, rfl⟩

omit hx in
theorem verdictUnits_one {r : BucketRec} {u : Nat} (hend : 256 * u < r.elems) : verdictUnits r (256 * u) 256 = [u] := by
  unfold verdictUnits
  rw [show 256 * u / 256 = u by omega]
  simp [hend]

/-- A verdict on one placed copy judges it. -/
theorem caskVerdict_judges {r : BucketRec} {rx : Rx} {m u : Nat} {pass : Bool} (hend : 256 * u < r.elems)
    (hawaits : awaitsFrom (unitOf x m u) rx.frame.backup = true) (hstale : staleOf (unitOf x m u) rx.frame.backup = 0) :
    caskVerdict s l r rx m (256 * u) 256 pass = countBackups (judgeUnit s l m u rx.frame.backup false pass) l := by
  have hacc : acceptedCopy (unitOf x m u) rx.frame.backup = true := by
    rw [acceptedCopy, hawaits, Bool.or_true, Bool.true_or]
  have hmeet : meetVerdict s l m u rx.frame.backup pass = judgeUnit s l m u rx.frame.backup false pass := by
    unfold meetVerdict
    rw [hx]
    dsimp only
    rw [if_neg (by omega), if_pos hawaits]
  rw [caskVerdict_eq r rx m _ _ pass hx, judgedUnits, awaitedUnits, verdictUnits_one hend,
    List.filter_cons_of_pos (by exact hacc), List.filter_cons_of_neg (by rw [hacc]; exact Bool.false_ne_true),
    List.filter_nil, judged, List.foldl_cons, List.foldl_nil, hmeet]
  exact if_pos rfl

end Verdicts

end Sys2Proof.Machine
end

section
/-! What a cask does with the frames that come to it, with those it holds, and with acknowledgements: the obligation on
cask frames. -/

namespace Sys2Proof.Machine

/-! ### The grid -/

theorem addCells_restore (c : Tbl Int) (t : List (Nat × Option (Int × Bool))) (e : Nat) :
    tget 0 (addCells (addCells c t 1) t (-1)) e = tget 0 c e := by
  rw [tget_addCells, tget_addCells]
  omega

theorem addCells_comm (c : Tbl Int) (t u : List (Nat × Option (Int × Bool))) (e : Nat) :
    tget 0 (addCells (addCells c t 1) u 1) e = tget 0 (addCells (addCells c u 1) t 1) e := by
  rw [tget_addCells, tget_addCells, tget_addCells, tget_addCells]
  omega

theorem gridUnits_whole {a m e x : Int} {raw : Nat} (hd : decodeFp fmtBF16 raw = .num m e) (hx : expoE m e = some x)
    (hle : x ≤ a) (hwhole : a - 117 ≤ e) : gridUnits a raw = some (m * pow2 (e - (a - 117)).toNat, false) := by
  rw [gridUnits_of_le hd hx hle, if_pos (by omega)]

theorem gridUnits_cut {a m e x : Int} {raw : Nat} (hd : decodeFp fmtBF16 raw = .num m e) (hx : expoE m e = some x)
    (hle : x ≤ a) (hcut : e < a - 117) :
    ∃ q lost, gridUnits a raw = some (q, lost) ∧ q = m.tdiv (pow2 (a - 117 - e).toNat) ∧
      (lost = false ↔ q * pow2 (a - 117 - e).toNat = m) := by
  refine ⟨m.tdiv (pow2 (a - 117 - e).toNat),
    m.tdiv (pow2 (a - 117 - e).toNat) * pow2 (a - 117 - e).toNat != m, ?_, rfl, by simp⟩
  rw [gridUnits_of_le hd hx hle, if_neg (by omega), show -(e - (a - 117)) = a - 117 - e by omega]

/-! ### Frames discarded or held -/

/-- What the obligation says stays where a frame is discarded or held. -/
def sameBuckets (s t : State) : Prop :=
  (∀ k, (getCask t k).buckets = (getCask s k).buckets) ∧ t.cores = s.cores ∧ t.parts = s.parts ∧ t.lpddr = s.lpddr

section Frames
variable {c : Instr} {rx : Rx} {s u : State} (hc : caskCommand c rx) (hu : takeRx s rx = some u)
include hc hu

/-- A frame that leaves every bucket is acknowledged. -/
theorem frame_discarded {v : State} (hheld : (getCask s rx.port.val).held.any (fun h => sameLane h.rx rx) = false)
    (hact : caskAct u rx (metCfg s rx) = .acted v) (hside : CaskSide u v) :
    ∃ t, exec c s = .next t ∧ sameBuckets s t ∧ ackOut s rx t ∧ (∀ k, getCask t k = getCask v k) ∧ t.errors = v.errors := by
  have hlink := linked_takeRx hu
  have hlast : linked v (ackedState rx v) := linked_acked rx v
  refine ⟨ackedState rx v, ?_, ⟨fun k => ?_, ?_, ?_, ?_⟩, ackedState_out hu hside.frame, linked_getCask hlast,
    linked_errors hlast⟩
  · rw [exec_caskCommand hc hu, caskArrive_acted (by rw [linked_getCask hlink]; exact hheld) hact]
  · rw [linked_getCask hlast, hside.buckets, linked_getCask hlink]
  · exact (linked_cores hlast).trans ((worked_cores hside.frame).trans (linked_cores hlink))
  · exact (linked_parts hlast).trans ((worked_parts hside.frame).trans (linked_parts hlink))
  · exact (linked_lpddr hlast).trans ((worked_lpddr hside.frame).trans (linked_lpddr hlink))

/-- A late frame is counted. -/
theorem frame_late {k : Nat} {b : Bool} (hheld : (getCask s rx.port.val).held.any (fun h => sameLane h.rx rx) = false)
    (hact : caskAct u rx (metCfg s rx) = .acted (discardLate u k rx b)) :
    ∃ t, exec c s = .next t ∧ sameBuckets s t ∧ ackOut s rx t ∧
      tget 0 (getCask t k).counters caskLate =
        tget 0 (getCask s k).counters caskLate + BitVec.ofNat 64 (frameUnits rx.frame) := by
  obtain ⟨t, ht, hsame, hack, hcask, -⟩ := frame_discarded hc hu hheld hact (discardLate_side ..)
  exact ⟨t, ht, hsame, hack, by rw [hcask, counted_discardLate, linked_getCask (linked_takeRx hu)]⟩

/-- A frame that the cask cannot act on yet is kept. -/
theorem frame_held (hact : caskAct u rx (metCfg s rx) = .hold u rx.frame) :
    ∃ t h, exec c s = .next t ∧ sameBuckets s t ∧
      (getCask t rx.port.val).held = (getCask s rx.port.val).held ++ [h] ∧ h.rx = rx := by
  have hlink := linked_takeRx hu
  obtain ⟨h, hheld, hrx⟩ := heldState_held u rx (metCfg s rx)
  refine ⟨heldState u rx rx.frame (metCfg s rx), h, ?_, ⟨fun k => ?_, (linked_cores hlink : u.cores = _),
    (linked_parts hlink : u.parts = _), (linked_lpddr hlink : u.lpddr = _)⟩, ?_, hrx⟩
  · rw [exec_caskCommand hc hu, caskArrive_held hact]
  · rw [heldState_buckets, linked_getCask hlink]
  · rw [hheld, linked_getCask hlink]

end Frames

/-! ### Held frames (R463, R464, R467, R492) -/

section Release
variable {cask : Fin 8} {id : Nat} {s : State} {h : HeldFrame}
  (hfind : (getCask s cask.val).held.find? (fun h => h.id == id) = some h)
include hfind

theorem held_id : h.id = id := by simpa using List.find?_some hfind

/-- A held frame behind another of its lane stays. -/
theorem release_behind
    (hbefore : ((getCask s cask.val).held.takeWhile (fun x => x.id != id)).any (fun x => sameLane x.rx h.rx) = true) :
    exec (.heldFrameRelease cask id) s = .next s := by
  show execHeldFrameRelease cask id s = _
  unfold execHeldFrameRelease
  dsimp only
  rw [hfind]
  dsimp only
  rw [if_pos hbefore]

variable (hfirst : ((getCask s cask.val).held.takeWhile (fun x => x.id != id)).any (fun x => sameLane x.rx h.rx) = false)
include hfirst

theorem release_first : exec (.heldFrameRelease cask id) s = .next (releaseFrame cask.val s h) := by
  show execHeldFrameRelease cask id s = _
  unfold execHeldFrameRelease
  dsimp only
  rw [hfind]
  dsimp only
  rw [hfirst, if_neg Bool.false_ne_true]

omit hfind hfirst in
/-- A held frame that goes on is held no longer. -/
theorem releaseFrame_acted {v : State} (k : Nat) (hact : caskAct s h.rx h.cfg = .acted v) :
    (∀ y ∈ (getCask (releaseFrame k s h) k).held, y.id ≠ h.id) ∧
      ∀ l, bucketAt (releaseFrame k s h) l = bucketAt v l := by
  have hfree : ∀ w : State, linked w (freeRx (caskAck w h.rx) h.rx h.slots) := fun w =>
    linked_trans (linked_sendTo ..) (linked_freeRx ..)
  unfold releaseFrame
  rw [hact]
  dsimp only
  refine ⟨fun y hy => ?_, fun l => ?_⟩
  · rw [linked_getCask (hfree _), getCask_modCask_same] at hy
    simpa using (List.mem_filter.mp hy).2
  · rw [linked_bucketAt (hfree _), bucketAt, getCask_modCask, bucketAt]
    split
    · next hk => rw [hk]
    · rfl

omit hfirst in
/-- A held frame of which a part remains is kept with it. -/
theorem releaseFrame_hold {v : State} {f : Frame} (hact : caskAct s h.rx h.cfg = .hold v f) :
    ∃ y ∈ (getCask (releaseFrame cask.val s h) cask.val).held, y.id = id ∧ y.rx.frame = f := by
  have hheld := caskAct_held s h.rx h.cfg cask.val
  rw [hact] at hheld
  unfold releaseFrame
  rw [hact]
  dsimp only
  rw [getCask_modCask_same]
  refine ⟨{ h with rx := { h.rx with frame := f } }, List.mem_map.mpr ⟨h, ?_, if_pos rfl⟩, ?_, rfl⟩
  swap
  · exact (held_id hfind : h.id = id)
  exact hheld ▸ List.mem_of_find?_eq_some hfind

end Release

/-! ### Acknowledgements (R455, R494) -/

/-- One acknowledgement less. -/
def oneAnswered (s : State) (n : Nat) (sh : Shuttle) (id : Nat) : State :=
  modCore s n (fun c => modSh c sh (fun x => { x with accesses := x.accesses.map (fun y =>
    if y.id = id then { y with unanswered := y.unanswered - 1 } else y) }))

theorem mem_oneAnswered (s : State) (n : Nat) (sh : Shuttle) (id : Nat) (y : Access) :
    y ∈ (shOf (getCore (oneAnswered s n sh id) n) sh).accesses ↔
      ∃ x ∈ (shOf (getCore s n) sh).accesses, (if x.id = id then { x with unanswered := x.unanswered - 1 } else x) = y := by
  rw [oneAnswered, getCore_modCore_same, shOf_modSh, List.mem_map]

/-- Whether the last acknowledgement of an access has come, and no verdict of its is to be sent. -/
def lastAnswered (s : State) (n : Nat) (sh : Shuttle) (id : Nat) : Bool :=
  (shOf (getCore s n) sh).accesses.any (fun y => y.id == id && y.unanswered == 0) &&
    !(getCore s n).pieces.any (fun v => v.id == id)

theorem answerAccess_eq (s : State) (n : Nat) (sh : Shuttle) (id : Nat) :
    answerAccess s n sh id = if lastAnswered (oneAnswered s n sh id) n sh id then
      performAccess (oneAnswered s n sh id) n sh id else oneAnswered s n sh id := rfl

/-- An acknowledgement concerns one shuttle of one core. -/
theorem answerAccess_frame (s : State) (n : Nat) (sh : Shuttle) (id : Nat) :
    (answerAccess s n sh id).casks = s.casks ∧ (answerAccess s n sh id).lpddr = s.lpddr ∧
      (∀ m, m ≠ n → getCore (answerAccess s n sh id) m = getCore s m) ∧
      (getCore (answerAccess s n sh id) n).store = (getCore s n).store := by
  rw [answerAccess_eq]
  split
  · refine ⟨rfl, rfl, fun m hm => ?_, ?_⟩
    · rw [performAccess, getCore_modCore, if_neg hm, oneAnswered, getCore_modCore, if_neg hm]
    · rw [performAccess_store, oneAnswered, getCore_modCore_same, modSh_store]
  · refine ⟨rfl, rfl, fun m hm => ?_, ?_⟩
    · rw [oneAnswered, getCore_modCore, if_neg hm]
    · rw [oneAnswered, getCore_modCore_same, modSh_store]

section Answered
variable {s : State} {n : Nat} {sh : Shuttle} {x : Access} (hx : x ∈ (shOf (getCore s n) sh).accesses)
include hx

/-- With the last acknowledgement the access has performed. -/
theorem answerAccess_last (hone : x.unanswered = 1) (hpieces : ∀ v ∈ (getCore s n).pieces, v.id ≠ x.id) :
    ∀ y ∈ (shOf (getCore (answerAccess s n sh x.id) n) sh).accesses, y.id ≠ x.id := by
  have hlast : lastAnswered (oneAnswered s n sh x.id) n sh x.id = true := by
    have hsame : (getCore (oneAnswered s n sh x.id) n).pieces = (getCore s n).pieces := by
      rw [oneAnswered, getCore_modCore_same]
      cases sh <;> rfl
    rw [lastAnswered, hsame, Bool.and_eq_true, List.any_eq_true]
    refine ⟨⟨_, (mem_oneAnswered ..).mpr ⟨x, hx, rfl⟩, ?_⟩, by simpa using hpieces⟩
    rw [if_pos rfl]
    simp [hone]
  rw [answerAccess_eq, if_pos hlast]
  intro y hy
  rw [performAccess, getCore_modCore_same, mem_dropAccess] at hy
  exact hy.2

/-- With more to come, the access waits for one less. -/
theorem answerAccess_more (hmore : 2 ≤ x.unanswered) (hone : ∀ y ∈ (shOf (getCore s n) sh).accesses, y.id = x.id → y = x) :
    ∃ y ∈ (shOf (getCore (answerAccess s n sh x.id) n) sh).accesses, y.id = x.id ∧ y.unanswered = x.unanswered - 1 := by
  have hlast : lastAnswered (oneAnswered s n sh x.id) n sh x.id = false := by
    rw [lastAnswered, Bool.and_eq_false_iff]
    refine .inl ?_
    rw [List.any_eq_false]
    intro y hy
    obtain ⟨w, hw, rfl⟩ := (mem_oneAnswered ..).mp hy
    by_cases hid : w.id = x.id
    · rw [if_pos hid, hone w hw hid]
      simp
      omega
    · rw [if_neg hid]
      simp [hid]
  rw [answerAccess_eq, if_neg (by rw [hlast]; exact Bool.false_ne_true)]
  exact ⟨_, (mem_oneAnswered ..).mpr ⟨x, hx, if_pos rfl⟩, rfl, rfl⟩

end Answered

theorem takeCaskAck_found {u : State} {rx : Rx} {p : Part} {n : Nat} {x : Access}
    (hp : partAt u (faLow rx.frame.addr) = some p) (hn : p.map[rx.frame.srcCore]? = some n)
    (hx : (shOf (getCore u n) rx.frame.srcShuttle).accesses.find? (ackMatches rx.frame rx.sender) = some x) :
    takeCaskAck rx u = answerAccess u n rx.frame.srcShuttle x.id := by
  unfold takeCaskAck
  dsimp only
  rw [hp, Option.bind_some, hn]
  dsimp only
  rw [hx]

/-! ### The obligation, part by part -/

section Parts

/-- What becomes of the bucket that a frame names. -/
def bucketBecomes (s : State) (rx : Rx) (l : CaskLoc) (c : Instr) (g : CaskBucket → Prop) : Prop :=
  ∃ t z, exec c s = .next t ∧ bucketAt t l = some z ∧ g z ∧ ackOut s rx t ∧ onlyBucket s t l ∧ t.cores = s.cores ∧
    t.lpddr = s.lpddr

variable {rx : Rx} {s : State} {l : CaskLoc} {p : Part} {r : BucketRec} {x : CaskBucket} (hfor : forBucket s rx l p r x)
include hfor

theorem forBucket_speaks : bit r.contrib (speaksFor rx) = true ∧
    (rx.frame.backup = true → backupOf r (speaksFor rx) = rx.sender) ∧ speaksFor rx ∉ x.withheld := by
  obtain ⟨-, -, -, -, -, -, -, -, -, hbit, hbackup, hw, -⟩ := hfor
  exact ⟨hbit, hbackup, hw⟩

theorem header_becomes {e : Int} {bad : Bool} (hk : rx.frame.kind = fkCaskHdr)
    (hin : rx.frame.inline = .header e bad r.elems r.digest) :
    bucketBecomes s rx l (.caskHdrReceive rx) (fun z =>
      z = anchoredIn s.pll r (headedIn s.pll (speaksFor rx) e x)) := by
  obtain ⟨hbit, hbackup, hw⟩ := forBucket_speaks hfor
  refine forBucket_acts (.inl ⟨rfl, hk⟩) hfor (fun u hlink hx => ⟨_, _, caskAccept_header hbit hbackup hw hin,
    bucketAt_acceptHeader hx r _ e, ?_⟩)
  rw [linked_pll hlink]

theorem piece_becomes {n : Nat} {g : CaskBucket → Prop} (hk : rx.frame.kind = fkPiece)
    (hin : rx.frame.inline = .piece n false 0 1) (hlen : rx.frame.data.length = 512)
    (hoff : faElem rx.frame.addr % 256 = 0) (hend : faElem rx.frame.addr + 256 ≤ r.elems)
    (hunit : ∀ u, bucketAt u l = some x → ∃ v z, acceptUnit u l r (speaksFor rx) (faElem rx.frame.addr / 256) rx.sender
      rx.frame.backup rx.frame.prov rx.frame.data = .done v ∧ bucketAt v l = some z ∧ ∀ ms, g { z with backedUp := ms }) :
    bucketBecomes s rx l (.caskPieceReceive rx false) g := by
  obtain ⟨hbit, hbackup, hw⟩ := forBucket_speaks hfor
  refine forBucket_acts (.inr (.inl ⟨rfl, hk⟩)) hfor (fun u _ hx => ?_)
  obtain ⟨v, z, hacc, hz, hg⟩ := hunit u hx
  obtain ⟨ms, hms⟩ := bucketAt_countBackups hz
  exact ⟨_, _, (caskAccept_piece hbit hbackup hw hin hlen hoff hend).trans (caskPlace_one hlen hacc), hms, hg ms⟩

theorem verdict_becomes {voff count : Nat} {pass : Bool} {g : CaskBucket → Prop} (hk : rx.frame.kind = fkVerdict)
    (hin : rx.frame.inline = .verdict voff count pass)
    (hverdict : ∀ u, bucketAt u l = some x →
      ∃ z, bucketAt (caskVerdict u l r rx (speaksFor rx) voff count pass) l = some z ∧ g z) :
    bucketBecomes s rx l (.verdictReceive rx) g := by
  obtain ⟨hbit, hbackup, hw⟩ := forBucket_speaks hfor
  refine forBucket_acts (.inr (.inr ⟨rfl, hk⟩)) hfor (fun u _ hx => ?_)
  obtain ⟨z, hz, hg⟩ := hverdict u hx
  exact ⟨_, z, caskAccept_verdict hbit hbackup hw hin, hz, hg⟩

end Parts

/-- Settles O46: a cask acts on what it may, holds what is early and discards what is late; each frame that it has acted
on is acknowledged, and only the bucket that it names changes. -/
theorem caskFramesAct : Obligations.CaskFramesAct := by
  unfold Obligations.CaskFramesAct
  refine ⟨fun c t u e => ⟨addCells_restore c t e, addCells_comm c t u e⟩,
    fun a m e x raw hd hx hle => ⟨gridUnits_whole hd hx hle, gridUnits_cut hd hx hle⟩,
    fun rx s h => ⟨caskReceive_absent h, ?none, caskReceive_absent h⟩, ?discard, ?bucket, ?early, ?release, ?ack, ?ackNone⟩
  case none =>
    intro b
    show execCaskPieceReceive rx b s = _
    unfold execCaskPieceReceive
    rw [if_neg (by rw [h]; simp)]
    exact caskReceive_absent h
  case discard =>
    intro rx s p c hsome hc hheld hp
    dsimp only
    obtain ⟨u, hu⟩ := Option.isSome_iff_exists.mp hsome
    have hlink := linked_takeRx hu
    have hpu : partAt u (faLow rx.frame.addr) = some p := (linked_partAt hlink _).trans hp
    have hbucket : ∀ l, bucketAt u l = bucketAt s l := linked_bucketAt hlink
    refine ⟨fun hj hreset => ?_, fun hr ha hj => ⟨?_, ?_, ?_, ?_⟩⟩
    · have hact := caskAct_reset (cfg := metCfg s rx) hpu hj hreset
      obtain ⟨t, ht, hsame, hack, hcask, herr⟩ := frame_discarded hc hu hheld hact (discardLate_side ..)
      refine ⟨t, ht, hsame, hack, ?_, ?_⟩
      · rw [hcask, counted_discardLate, linked_getCask hlink]
      · rw [herr, discardLate_quiet]
        exact (linked_errors hlink : u.errors = s.errors)
    · intro x r hx hrec _ hlate
      exact frame_late hc hu hheld (caskAct_late hpu hj hr ha ((hbucket _).trans hx) hrec hlate)
    · intro x r hx hrec htag hbit hbackup hw
      have hact := (caskAct_open (cfg := metCfg s rx) hpu hj hr ha ((hbucket _).trans hx) hrec htag).trans
        (caskAccept_withheld hbit hbackup hw)
      obtain ⟨t, ht, hsame, hack, -, herr⟩ := frame_discarded hc hu hheld hact (.refl u)
      exact ⟨t, ht, hsame, hack, herr.trans (linked_errors hlink)⟩
    · intro x r hx hrec htag hbad
      have hact := (caskAct_open (cfg := metCfg s rx) hpu hj hr ha ((hbucket _).trans hx) hrec htag).trans
        (caskAccept_invalid hbad)
      obtain ⟨t, ht, hsame, hack, hcask, herr⟩ := frame_discarded hc hu hheld hact (discardInvalid_side ..)
      obtain ⟨hcount, hrec⟩ := counted_discardInvalid u (frameLoc p rx.frame) rx
      refine ⟨t, ht, hsame, hack, ?_, ?_⟩
      · exact (congrArg (fun c => tget 0 c.counters caskLate) (hcask _)).trans
          (hcount.trans (by rw [linked_getCask hlink]))
      · rw [herr, hrec, linked_errors hlink]
    · intro hx hv
      have hact := caskAct_unopened (cfg := metCfg s rx) hpu hj hr ha ((hbucket _).trans hx) hv
      rw [getQuad, linked_quads hlink, ← getQuad] at hact
      refine ⟨fun hearly => ?_, fun hlate => ?_⟩
      · rw [if_pos hearly] at hact
        exact frame_held hc hu hact
      · rw [if_neg (by omega)] at hact
        exact frame_late hc hu hheld hact
  case bucket =>
    intro rx s l p r x hfor
    dsimp only
    obtain ⟨-, -, hw⟩ := forBucket_speaks hfor
    refine ⟨fun e bad hk hin => ?_, ?placed, ?compared, ?kept, ?judged⟩
    · obtain ⟨t, z, ht, hz, rfl, hrest⟩ := header_becomes hfor hk hin
      exact ⟨t, _, ht, hz, headed_bucket .., hrest⟩
    case placed =>
      intro a hframe ha habsent hledger hroom
      obtain ⟨hk, ⟨n, hin⟩, hlen, hoff, hend, hv, hlow, hhigh⟩ := hframe
      refine piece_becomes hfor hk hin hlen hoff hend (fun u hx => ?_)
      obtain ⟨v, hacc, hz⟩ := acceptUnit_placed (sender := rx.sender) (backup := rx.frame.backup) (bytes := rx.frame.data)
        hx ha hv hw hlow hhigh habsent hroom
      refine ⟨v, _, hacc, hz, fun ms => ?_⟩
      have hunit := unitOf_setUnit x (speaksFor rx) (faElem rx.frame.addr / 256) (placedUnit x (speaksFor rx)
        (faElem rx.frame.addr / 256) rx.sender rx.frame.backup rx.frame.prov false rx.frame.data)
      have hown : unitOf { placedIn x a (speaksFor rx) (faElem rx.frame.addr / 256) rx.sender rx.frame.backup rx.frame.prov
          false rx.frame.data x with backedUp := ms } (speaksFor rx) (faElem rx.frame.addr / 256) = _ := hunit
      rw [hown]
      refine ⟨rfl, rfl, rfl, rfl, ?_, rfl, fun v hv => units_placedIn_other hv⟩
      show (if (rx.frame.prov || false) = true then _ else _) = _
      rw [Bool.or_false]
    case compared =>
      intro a hframe ha hadded hcrc
      obtain ⟨hk, ⟨n, hin⟩, hlen, hoff, hend, hv, hlow, hhigh⟩ := hframe
      refine piece_becomes hfor hk hin hlen hoff hend (fun u hx => ?_)
      obtain ⟨v, hacc, hz⟩ := acceptUnit_same (r := r) (sender := rx.sender) (backup := rx.frame.backup)
        (prov := rx.frame.prov) hx ha hv hw hlow hhigh hadded hcrc
      exact ⟨v, _, hacc, hz, fun ms => ⟨rfl, rfl⟩⟩
    case kept =>
      intro voff count pass hk hin hnone
      exact verdict_becomes hfor hk hin (fun u hx => caskVerdict_kept hx hnone)
    case judged =>
      intro a bs pass hk hin ha hend hledger hbackup hawaits hstale
      refine verdict_becomes hfor hk hin (fun u hx => ?_)
      rw [caskVerdict_judges hx hend (by simp [awaitsFrom, hledger, hbackup, hawaits]) hstale]
      cases pass with
      | false =>
        obtain ⟨z, hz, hcells, hadded, hnone⟩ := judgeUnit_fail hx ha hledger hbackup
        obtain ⟨ms, hms⟩ := bucketAt_countBackups hz
        exact ⟨_, hms, fun _ => ⟨hcells, hadded, hnone⟩, fun h => absurd h Bool.false_ne_true⟩
      | true =>
        obtain ⟨z, hz, hcells, hfreed⟩ := judgeUnit_pass hx (by rw [hledger]; rfl) hbackup
        obtain ⟨ms, hms⟩ := bucketAt_countBackups hz
        exact ⟨_, hms, fun h => absurd h Bool.true_eq_false.mp, fun _ hselv => ⟨hcells, hfreed hselv⟩⟩
  case early =>
    intro rx s p x f l hsome hk hp hr ha hj hx hrec h1 h2
    obtain ⟨u, hu⟩ := Option.isSome_iff_exists.mp hsome
    obtain ⟨r, hrec⟩ := Option.isSome_iff_exists.mp hrec
    have hlink := linked_takeRx hu
    have hact := caskAct_early (cfg := metCfg s rx) ((linked_partAt hlink _).trans hp) hj hr ha
      ((linked_bucketAt hlink _).trans hx) hrec h1 h2
    obtain ⟨t, h, ht, hsame, hheld, hrx⟩ := frame_held (.inr (.inl ⟨rfl, hk⟩)) hu hact
    refine ⟨t, h, ht, hheld, hrx, ?_⟩
    rw [bucketAt, hsame.1, ← bucketAt, hx]
  case release =>
    intro cask id s h hfind
    refine ⟨release_behind hfind, fun hfirst => ⟨?_, _, release_first hfind hfirst, ?_, ?_⟩⟩
    · intro p x r hp hr ha hj l hx hrec htag _ hbit hbackup hw e bad hin
      have hact := (caskAct_open (cfg := h.cfg) hp hj hr ha hx hrec htag).trans
        (caskAccept_header hbit (fun hb => absurd (hbackup.symm.trans hb) Bool.false_ne_true) hw hin)
      obtain ⟨hheld, hbucket⟩ := releaseFrame_acted cask.val hact
      refine ⟨_, _, release_first hfind hfirst, held_id hfind ▸ hheld, (hbucket _).trans (bucketAt_acceptHeader hx r _ e), ?_⟩
      obtain ⟨hmem, hlargest, -⟩ := headed_bucket s.pll (speaksFor h.rx) e r x
      exact ⟨hmem, hlargest⟩
    · intro u hact
      exact held_id hfind ▸ (releaseFrame_acted cask.val hact).1
    · intro u g hact
      exact releaseFrame_hold hfind hact
  case ack =>
    intro rx s p n x hsome hk hp hn hx
    obtain ⟨t, ht, hlink, -⟩ := withRx_present (takeCaskAck rx) hsome
    have hcore := linked_getCore hlink
    have hxt : (shOf (getCore t n) rx.frame.srcShuttle).accesses.find? (ackMatches rx.frame rx.sender) = some x := by
      rw [hcore, hx]
    rw [takeCaskAck_found ((linked_partAt hlink _).trans hp) hn hxt] at ht
    have hmem := List.mem_of_find?_eq_some hxt
    obtain ⟨hcasks, hlp, hothers, hstore⟩ := answerAccess_frame t n rx.frame.srcShuttle x.id
    refine ⟨_, (if_pos hk : execCaskAckReceive rx s = _).trans ht, hcasks.trans (by rw [hlink]),
      hlp.trans (linked_lpddr hlink), fun m hm => (hothers m hm).trans (hcore m), hstore.trans (by rw [hcore]), ?_, ?_⟩
    · intro hone hpieces
      exact answerAccess_last hmem hone (by rw [hcore]; exact hpieces)
    · intro hmore hone
      exact answerAccess_more hmem hmore (by rw [hcore]; exact hone)
  case ackNone =>
    intro rx s h
    show execCaskAckReceive rx s = _
    unfold execCaskAckReceive
    rw [withRx_absent _ h, ite_self]

end Sys2Proof.Machine
end

section
/-! The channels of a port (R478, R485 to R500, R505, R643): flits sent and received, retry and retraining. -/

namespace Sys2Proof.Machine

/-! ### One channel changed -/

/-- A state in which, of the channels, only one differs. -/
structure ChanOnly (k m : Nat) (s t : State) : Prop where
  others : ∀ j n, (j, n) ≠ (k, m) → getChan t j n = getChan s j n
  cores : t.cores = s.cores
  casks : t.casks = s.casks
  lpddr : t.lpddr = s.lpddr

section ChanOnly
variable {k m : Nat} {s t u : State}

theorem ChanOnly.refl (s : State) : ChanOnly k m s s := ⟨fun _ _ _ => rfl, rfl, rfl, rfl⟩

theorem ChanOnly.trans (h : ChanOnly k m s t) (g : ChanOnly k m t u) : ChanOnly k m s u :=
  ⟨fun j n hne => (g.others j n hne).trans (h.others j n hne), g.cores.trans h.cores, g.casks.trans h.casks,
    g.lpddr.trans h.lpddr⟩

theorem ChanOnly.modChan (s : State) (g : Chan → Chan) : ChanOnly k m s (modChan s k m g) :=
  ⟨fun j n hne => by rw [getChan_modChan, if_neg (fun h => hne (by rw [h.1, h.2]))], rfl, rfl, rfl⟩

theorem getChan_modPort {s : State} {k : Nat} {g : Port → Port} (hg : ∀ p, (g p).chans = p.chans) (j n : Nat) :
    getChan (modPort s k g) j n = getChan s j n := by
  rw [getChan, getPort_modPort]
  split
  · next h => rw [hg, h, ← getChan]
  · rfl

theorem ChanOnly.modPort (s : State) {j : Nat} {g : Port → Port} (hg : ∀ p, (g p).chans = p.chans) :
    ChanOnly k m s (modPort s j g) := ⟨fun j n _ => getChan_modPort hg j n, rfl, rfl, rfl⟩

theorem ChanOnly.bumpPort (s : State) (j off n : Nat) : ChanOnly k m s (bumpPort s j off n) := .modPort s (fun _ => rfl)

@[simp] theorem getChan_bumpPort (s : State) (i off x j n : Nat) : getChan (bumpPort s i off x) j n = getChan s j n := by
  rw [bumpPort, getChan_modPort (by exact fun _ => rfl)]

/-- A change of a channel leaves the rest of every port. -/
theorem getPort_modChan_frame (s : State) (k m j : Nat) (g : Chan → Chan) :
    getPort (Machine.modChan s k m g) j =
      { getPort s j with chans := (getPort (Machine.modChan s k m g) j).chans } := by
  rw [Machine.modChan, getPort_modPort]
  split
  · next h => rw [h]
  · rfl

@[simp] theorem counters_modChan (s : State) (k m j : Nat) (g : Chan → Chan) :
    (getPort (Machine.modChan s k m g) j).counters = (getPort s j).counters := by rw [getPort_modChan_frame]
@[simp] theorem delivered_modChan (s : State) (k m j : Nat) (g : Chan → Chan) :
    (getPort (Machine.modChan s k m g) j).delivered = (getPort s j).delivered := by rw [getPort_modChan_frame]
@[simp] theorem quiescing_modChan (s : State) (k m j : Nat) (g : Chan → Chan) :
    (getPort (Machine.modChan s k m g) j).quiescing = (getPort s j).quiescing := by rw [getPort_modChan_frame]
@[simp] theorem lit_modChan (s : State) (k m j : Nat) (g : Chan → Chan) :
    (getPort (Machine.modChan s k m g) j).lit = (getPort s j).lit := by rw [getPort_modChan_frame]

theorem counters_bumpPort (s : State) (k off n : Nat) :
    (getPort (bumpPort s k off n) k).counters = bumpTbl (getPort s k).counters off n := by
  rw [Machine.bumpPort, getPort_modPort_same]

@[simp] theorem delivered_bumpPort (s : State) (k off n j : Nat) :
    (getPort (bumpPort s k off n) j).delivered = (getPort s j).delivered := by
  rw [Machine.bumpPort, getPort_modPort]
  split
  · next h => rw [h]
  · rfl

/-- The record of a failed channel leaves every port (R499). -/
theorem chanRecord_frame (s : State) (k detail : Nat) :
    (chanRecord s k detail).ports = s.ports ∧ (chanRecord s k detail).cores = s.cores ∧
      (chanRecord s k detail).casks = s.casks ∧ (chanRecord s k detail).lpddr = s.lpddr ∧
      (chanRecord s k detail).parts = s.parts ∧ (chanRecord s k detail).fabric = s.fabric := by
  unfold chanRecord
  rw [raiseVector_frame, record_frame_eq]
  exact ⟨rfl, rfl, rfl, rfl, rfl, rfl⟩

theorem getPort_chanRecord (s : State) (k detail j : Nat) : getPort (chanRecord s k detail) j = getPort s j := by
  rw [getPort, (chanRecord_frame ..).1, ← getPort]

theorem getChan_chanRecord (s : State) (k detail j n : Nat) : getChan (chanRecord s k detail) j n = getChan s j n := by
  rw [getChan, getPort_chanRecord, ← getChan]

theorem ChanOnly.chanRecord (s : State) (j detail : Nat) : ChanOnly k m s (chanRecord s j detail) := by
  obtain ⟨-, hcores, hcasks, hlpddr, -⟩ := chanRecord_frame s j detail
  exact ⟨fun i n _ => getChan_chanRecord .., hcores, hcasks, hlpddr⟩

end ChanOnly

/-! ### The next flit (R485, R487, R490, R496, R497) -/

/-- What a flit says of the credits returned since the last one. -/
def toldCredits (c : Chan) (f : Flit) : Prop :=
  f.credit = c.returned.map (fun x => (x.1, min 15 x.2)) ∧ f.shared = min 255 c.returnedShared

/-- Filling slots takes them from the lanes with their credits. -/
theorem fillSlots_frame (n : Nat) (c : Chan) : (fillSlots n c).1.length ≤ n ∧ (fillSlots n c).2 =
    { c with txq := (fillSlots n c).2.txq, creditUsed := (fillSlots n c).2.creditUsed, lastVl := (fillSlots n c).2.lastVl } := by
  induction n generalizing c with
  | zero => exact ⟨Nat.le_refl 0, rfl⟩
  | succ n ih =>
    unfold fillSlots
    split
    · exact ⟨Nat.zero_le _, rfl⟩
    · split
      · exact ⟨Nat.zero_le _, rfl⟩
      · next v _ _ x t _ =>
        obtain ⟨hlen, hchan⟩ := ih { c with
          txq := tset [] c.txq v t
          creditUsed := tset 0 c.creditUsed v (tget 0 c.creditUsed v + 1)
          lastVl := if v = 31 ∨ v = 24 then c.lastVl else v }
        exact ⟨Nat.succ_le_succ hlen, hchan⟩

section NextFlit
variable (k own : Nat) (c : Chan)

/-- A retry request that is due goes first. -/
theorem nextFlit_retry (h : c.askRetry = true) : nextFlit k own c =
    withCredits (bareFlit k own c .retry) { c with askRetry := false } := by
  unfold nextFlit
  exact if_pos h

variable (h : c.askRetry = false)
include h

theorem nextFlit_resend {f : Flit} {l : List Flit} (hr : c.resend = f :: l) :
    nextFlit k own c = ({ f with ack := c.rxSeq }, { c with resend := l }) := by
  unfold nextFlit
  rw [if_neg (by rw [h]; exact Bool.false_ne_true), hr]

theorem nextFlit_full (hr : c.resend = []) (hfull : 16 ≤ c.unacked.length) :
    nextFlit k own c = withCredits (bareFlit k own c .idle) c := by
  unfold nextFlit
  rw [if_neg (by rw [h]; exact Bool.false_ne_true), hr]
  exact if_pos hfull

/-- A data flit of the slots that stand ready, or an idle one. -/
theorem nextFlit_data (hr : c.resend = []) (hfull : c.unacked.length < 16) :
    let f := (nextFlit k own c).1
    let d := (nextFlit k own c).2
    (f.type = .idle ∧ toldCredits c f ∧ d.txSeq = c.txSeq ∧ d.unacked = c.unacked) ∨
      (f.type = .data ∧ toldCredits c f ∧ f.seq = c.txSeq ∧ f.ack = c.rxSeq ∧ d.txSeq = c.txSeq + 1 ∧
        1 ≤ f.slots.length ∧ f.slots.length ≤ 25 ∧ d.unacked = c.unacked ++ [f]) := by
  obtain ⟨hlen, hchan⟩ := fillSlots_frame 25 c
  unfold nextFlit
  rw [if_neg (by rw [h]; exact Bool.false_ne_true), hr]
  dsimp only
  rw [if_neg (Nat.not_le.mpr hfull)]
  split
  · exact .inl ⟨rfl, ⟨rfl, rfl⟩, rfl, rfl⟩
  · next hne =>
    refine .inr ?_
    generalize fillSlots 25 c = r at hlen hchan hne
    obtain ⟨slots, c1⟩ := r
    dsimp only at hlen hchan hne ⊢
    have hpos : 1 ≤ slots.length := List.length_pos_iff.mpr (fun h => hne (by rw [h]; rfl))
    have hreturned : c1.returned = c.returned := by rw [hchan]
    have hshared : c1.returnedShared = c.returnedShared := by rw [hchan]
    have htx : c1.txSeq = c.txSeq := by rw [hchan]
    have hrx : c1.rxSeq = c.rxSeq := by rw [hchan]
    have hunacked : c1.unacked = c.unacked := by rw [hchan]
    exact ⟨rfl, ⟨by rw [← hreturned]; rfl, by rw [← hshared]; rfl⟩, htx, hrx, congrArg (· + 1) htx, hpos, hlen,
      congrArg (· ++ _) hunacked⟩

end NextFlit

/-! ### Sending (R478, R481, R485, R498) -/

/-- What a channel sends, and what it becomes. -/
def emitted (port own peer : Nat) (c : Chan) : Flit × Chan :=
  if peer = own then (bareFlit port own c .idle, c) else nextFlit port own c

theorem getChan_emitFlit (s : State) (k m : Nat) : getChan (emitFlit s k m) k m =
    { (emitted k (ownIndex s) m (getChan s k m)).2 with
      sent := some (emitted k (ownIndex s) m (getChan s k m)).1, sentAt := s.pll, line := txLine (ownIndex s) m } :=
  getChan_modChan_same ..

theorem getChan_emitTraining (s : State) (k m : Nat) : getChan (emitTraining s k m) k m =
    { getChan s k m with
      sent := some (bareFlit k (ownIndex s) (getChan s k m) .training), sentAt := s.pll, line := txLine (ownIndex s) m } :=
  getChan_modChan_same ..

theorem emitFlit_only (s : State) (k m : Nat) : ChanOnly k m s (emitFlit s k m) := by
  unfold emitFlit
  exact .modChan ..

theorem emitTraining_only (s : State) (k m : Nat) : ChanOnly k m s (emitTraining s k m) := by
  unfold emitTraining
  exact .modChan ..

/-- What a channel that is up sends. -/
theorem emitted_spec (port own peer : Nat) (c : Chan) :
    let f := (emitted port own peer c).1
    let d := (emitted port own peer c).2
    (peer = own → f.type = .idle) ∧
      (peer ≠ own → c.askRetry = true → f.type = .retry ∧ f.ack = c.rxSeq ∧ toldCredits c f ∧ d.askRetry = false ∧
        d.unacked = c.unacked) ∧
      (peer ≠ own → c.askRetry = false → ∀ g l, c.resend = g :: l → f = { g with ack := c.rxSeq } ∧ d.resend = l) ∧
      (peer ≠ own → c.askRetry = false → c.resend = [] → 16 ≤ c.unacked.length →
        f.type = .idle ∧ toldCredits c f ∧ d.txSeq = c.txSeq) ∧
      (peer ≠ own → c.askRetry = false → c.resend = [] → c.unacked.length < 16 →
        (f.type = .idle ∧ toldCredits c f ∧ d.txSeq = c.txSeq ∧ d.unacked = c.unacked) ∨
        (f.type = .data ∧ toldCredits c f ∧ f.seq = c.txSeq ∧ f.ack = c.rxSeq ∧ d.txSeq = c.txSeq + 1 ∧
          1 ≤ f.slots.length ∧ f.slots.length ≤ 25 ∧ d.unacked = c.unacked ++ [f])) := by
  dsimp only
  refine ⟨fun h => ?_, fun h hr => ?_, fun h hr g l hg => ?_, fun h hr hg hfull => ?_, fun h hr hg hfull => ?_⟩
  · rw [emitted, if_pos h]
    rfl
  · rw [emitted, if_neg h, nextFlit_retry port own c hr]
    exact ⟨rfl, rfl, ⟨rfl, rfl⟩, rfl, rfl⟩
  · rw [emitted, if_neg h, nextFlit_resend port own c hr hg]
    exact ⟨rfl, rfl⟩
  · rw [emitted, if_neg h, nextFlit_full port own c hr hg hfull]
    exact ⟨rfl, ⟨rfl, rfl⟩, rfl⟩
  · rw [emitted, if_neg h]
    exact nextFlit_data port own c hr hg hfull

/-- Where no port darkens, nothing settles. -/
theorem settleQuiesce_quiet {s : State} {k : Nat} (h : (getPort s k).quiescing = false) : settleQuiesce s k = s := by
  unfold settleQuiesce
  dsimp only
  rw [h, Bool.false_and, if_neg Bool.false_ne_true]

/-! ### Receiving (R486, R487, R496, R497) -/

theorem correctable_iff (e : FlitErrors) : correctable e = true ↔ ∀ j, j < 8 → codewordErrors e j ≤ 8 := by
  simp [correctable]

theorem correctable_clean {e : FlitErrors} (h : e.bad = []) : correctable e = true := by
  rw [correctable_iff]
  intro j _
  rw [codewordErrors, h]
  exact Nat.zero_le 8

theorem takeCredits_frame (c : Chan) (f : Flit) :
    takeCredits c f = { c with creditUsed := (takeCredits c f).creditUsed } := rfl

section Receive
variable {k m : Nat} {s : State} {f : Flit}

/-- The state that a flit without errors meets: its ACK has counted. -/
def ackTaken (s : State) (k m : Nat) (f : Flit) : State := modChan s k m (fun c => takeAck c f.ack)

theorem getChan_ackTaken : getChan (ackTaken s k m f) k m = takeAck (getChan s k m) f.ack := getChan_modChan_same ..

theorem takeFlit_data (ht : f.type = .data) : takeFlit s k m f =
    if f.seq = (getChan s k m).rxSeq + 1 then acceptFlit (ackTaken s k m f) k m f
    else if seqAhead f.seq (getChan s k m).rxSeq then modChan (ackTaken s k m f) k m (fun c => noteGap c f.seq true)
    else ackTaken s k m f := by
  unfold takeFlit
  dsimp only
  rw [ht, getChan_modChan_same]
  rfl

/-- The next data flit is accepted. -/
theorem takeFlit_next (ht : f.type = .data) (hseq : f.seq = (getChan s k m).rxSeq + 1) :
    ChanOnly k m s (takeFlit s k m f) ∧ (getChan (takeFlit s k m f) k m).rxSeq = f.seq ∧
      (getChan (takeFlit s k m f) k m).gap = none ∧
      (getChan (takeFlit s k m f) k m).unacked = (getChan s k m).unacked.filter (fun g => seqAhead g.seq f.ack) ∧
      (getPort (takeFlit s k m f) k).delivered = (getPort s k).delivered ++ f.slots.map (arrive s k m) ∧
      (getPort (takeFlit s k m f) k).counters = (getPort s k).counters := by
  rw [takeFlit_data ht, if_pos hseq, acceptFlit]
  refine ⟨((ChanOnly.modChan ..).trans (.modChan ..)).trans (.modPort _ (fun _ => rfl)), ?_, ?_, ?_, ?_, ?_⟩
  · rw [getChan_modPort (by exact fun _ => rfl), getChan_modChan_same]
    rfl
  · rw [getChan_modPort (by exact fun _ => rfl), getChan_modChan_same]
    rfl
  · rw [getChan_modPort (by exact fun _ => rfl), getChan_modChan_same, getChan_ackTaken]
    rfl
  · rw [getPort_modPort_same]
    dsimp only
    rw [delivered_modChan, ackTaken, delivered_modChan]
    rfl
  · rw [getPort_modPort_same]
    dsimp only
    rw [counters_modChan, ackTaken, counters_modChan]

/-- A data flit out of turn delivers nothing, and asks for a retry at a gap. -/
theorem takeFlit_behind (ht : f.type = .data) (hseq : f.seq ≠ (getChan s k m).rxSeq + 1) :
    ChanOnly k m s (takeFlit s k m f) ∧ (getChan (takeFlit s k m f) k m).rxSeq = (getChan s k m).rxSeq ∧
      (getPort (takeFlit s k m f) k).delivered = (getPort s k).delivered ∧
      (seqAhead f.seq (getChan s k m).rxSeq = true → (getChan s k m).gap = none →
        (getChan (takeFlit s k m f) k m).askRetry = true ∧ (getChan (takeFlit s k m f) k m).gap = some f.seq) ∧
      (seqAhead f.seq (getChan s k m).rxSeq = false →
        (getChan (takeFlit s k m f) k m).askRetry = (getChan s k m).askRetry ∧
        (getChan (takeFlit s k m f) k m).gap = (getChan s k m).gap) := by
  rw [takeFlit_data ht, if_neg hseq]
  by_cases hahead : seqAhead f.seq (getChan s k m).rxSeq = true
  · rw [if_pos hahead]
    have hgap : (noteGap (takeAck (getChan s k m) f.ack) f.seq true).rxSeq = (getChan s k m).rxSeq := by
      unfold noteGap
      split
      · rfl
      · rw [if_neg (by decide)]
        split <;> rfl
    refine ⟨(ChanOnly.modChan ..).trans (.modChan ..), ?_, by rw [delivered_modChan, ackTaken, delivered_modChan],
      fun _ hnone => ?_, fun h => absurd (hahead.symm.trans h) Bool.true_eq_false.mp⟩
    · rw [getChan_modChan_same, getChan_ackTaken, hgap]
    · rw [getChan_modChan_same, getChan_ackTaken, noteGap, show (takeAck (getChan s k m) f.ack).gap = none from hnone]
      exact ⟨rfl, rfl⟩
  · rw [if_neg hahead]
    refine ⟨.modChan .., ?_, by rw [ackTaken, delivered_modChan], fun h => absurd h hahead, fun _ => ?_⟩
    · rw [getChan_ackTaken]
      rfl
    · rw [getChan_ackTaken]
      exact ⟨rfl, rfl⟩

end Receive

/-! ### Retry and retraining (R497 to R500) -/

/-- A channel whose unacknowledged flits are resent from an ACK. -/
def retried (c : Chan) (ack : Word) (n : Nat) : Chan :=
  { takeAck c ack with resend := (takeAck c ack).unacked, retryAck := some (ack, n) }

/-- How many retry requests in a row name one ACK, with this one. -/
def retryRun (c : Chan) (ack : Word) : Nat :=
  match c.retryAck with
  | some (a, k) => if a = ack then k + 1 else 1
  | none => 1

theorem takeRetry_eq (s : State) (k m : Nat) (ack : Word) : takeRetry s k m ack =
    let t := modChan (bumpPort s k portRetry 1) k m (fun c => retried c ack (retryRun c ack))
    if 8 ≤ retryRun (getChan s k m) ack then startRetrain t k m else t := by
  have hlast : (getChan (modChan (bumpPort s k portRetry 1) k m (fun c => retried c ack (retryRun c ack))) k m).retryAck =
      some (ack, retryRun (getChan s k m) ack) := by
    rw [getChan_modChan_same, getChan_bumpPort]
    rfl
  show (match (getChan (modChan (bumpPort s k portRetry 1) k m (fun c => retried c ack (retryRun c ack))) k m).retryAck with
    | some (_, n) => if 8 ≤ n then startRetrain _ k m else _
    | none => _) = _
  rw [hlast]
  rfl

/-- A retrain changes how the channel stands, and is counted. -/
theorem startRetrain_spec (s : State) (k m : Nat) :
    ChanOnly k m s (startRetrain s k m) ∧
      getChan (startRetrain s k m) k m = { getChan s k m with
        state := .retraining, retrainAt := s.pll, retryAck := none, sweepHeld := sweepsHeld s } ∧
      (getPort (startRetrain s k m) k).counters = bumpTbl (getPort s k).counters portRetrainCount 1 := by
  refine ⟨(ChanOnly.modChan ..).trans (.bumpPort ..), ?_, ?_⟩
  · rw [startRetrain, getChan_bumpPort, getChan_modChan_same]
  · rw [startRetrain, counters_bumpPort, counters_modChan]

/-- A channel whose frames are discarded (R499). -/
def failedChan (c : Chan) : Chan :=
  { c with
    state := .failed, txq := [], creditUsed := [], unacked := c.unacked.map (fun f => { f with slots := [] })
    resend := c.resend.map (fun f => { f with slots := [] }), retrainFails := 0, retryAck := none, sweepHeld := false }

/-- A port one of whose channels has failed. -/
def failedPort (m : Nat) (p : Port) : Port :=
  { p with failed := setBits p.failed m 1 1, retrain := setBits p.retrain m 1 0, delivered := keepWhole m p.delivered }

theorem failChan_eq (s : State) (k m detail : Nat) :
    failChan s k m detail = chanRecord (modPort (modChan s k m failedChan) k (failedPort m)) k detail := rfl

theorem getChan_failChan (s : State) (k m detail : Nat) :
    getChan (failChan s k m detail) k m = failedChan (getChan s k m) := by
  rw [failChan_eq, getChan_chanRecord, getChan_modPort (by exact fun _ => rfl), getChan_modChan_same]

theorem failChan_only (s : State) (k m detail : Nat) : ChanOnly k m s (failChan s k m detail) := by
  rw [failChan_eq]
  exact ((ChanOnly.modChan s failedChan).trans (.modPort _ (g := failedPort m) (fun _ => rfl))).trans (.chanRecord _ k detail)

theorem failed_failChan (s : State) (k m detail : Nat) (hm : m < 64) :
    bit (getPort (failChan s k m detail) k).failed m = true := by
  rw [failChan_eq, getPort_chanRecord, getPort_modPort_same, failedPort, bit_setBits _ _ _ _ hm, if_pos (by omega),
    Nat.sub_self]
  rfl

end Sys2Proof.Machine
end

section
/-! Flits, retry, retraining and quiescence as commands: the obligation on flits and retry. -/

namespace Sys2Proof.Machine

section Commands
variable {port : Fin 8} {peer : Fin 64} {s : State}

/-! ### FLIT_SEND -/

/-- Whether a channel may put a flit on the fiber (R485, R501). -/
def flitDue (s : State) (c : Chan) : Prop := (c.sent = none ∨ c.sentAt + nsUp 128 ≤ s.pll) ∧ c.holdTill ≤ s.pll

theorem flitSend_due (h : flitDue s (getChan s port.val peer.val)) : exec (.flitSend port peer) s =
    if (getChan s port.val peer.val).state = .up then .next (settleQuiesce (emitFlit s port.val peer.val) port.val)
    else if (getChan s port.val peer.val).state = .retraining ∧ (getChan s port.val peer.val).sweepHeld = false ∧
      mayTrain s port.val peer.val then .next (emitTraining s port.val peer.val)
    else .next s := by
  show execFlitSend port peer s = _
  rw [execFlitSend]
  exact if_pos (by rw [Option.isNone_iff_eq_none]; exact h)

theorem flitSend_early (h : ¬ flitDue s (getChan s port.val peer.val)) : exec (.flitSend port peer) s = .next s := by
  show execFlitSend port peer s = _
  rw [execFlitSend]
  exact if_neg (by rw [Option.isNone_iff_eq_none]; exact h)

theorem flitSend_up (hstate : (getChan s port.val peer.val).state = .up) (hdue : flitDue s (getChan s port.val peer.val))
    (hquiet : (getPort s port.val).quiescing = false) :
    exec (.flitSend port peer) s = .next (emitFlit s port.val peer.val) := by
  rw [flitSend_due hdue, if_pos hstate, settleQuiesce_quiet (by rw [emitFlit, quiescing_modChan]; exact hquiet)]

theorem flitSend_training (hstate : (getChan s port.val peer.val).state = .retraining)
    (hsweep : (getChan s port.val peer.val).sweepHeld = false) (hmay : mayTrain s port.val peer.val = true)
    (hdue : flitDue s (getChan s port.val peer.val)) :
    exec (.flitSend port peer) s = .next (emitTraining s port.val peer.val) := by
  rw [flitSend_due hdue, if_neg (by rw [hstate]; decide), if_pos ⟨hstate, hsweep, hmay⟩]

theorem flitSend_still (hup : (getChan s port.val peer.val).state ≠ .up)
    (hretraining : (getChan s port.val peer.val).state ≠ .retraining) : exec (.flitSend port peer) s = .next s := by
  by_cases hdue : flitDue s (getChan s port.val peer.val)
  · rw [flitSend_due hdue, if_neg hup, if_neg (fun h => hretraining h.1)]
  · exact flitSend_early hdue

/-! ### FLIT_RECEIVE -/

/-- A flit's corrections counted (R486). -/
def corrected (s : State) (k : Nat) (e : FlitErrors) : State :=
  if e.bad.isEmpty then s else bumpPort s k portFecCorr 1

variable (hopen : (getChan s port.val peer.val).state = .up ∧ peer.val ≠ ownIndex s)
include hopen

theorem flitReceive_lost {f : Flit} {e : FlitErrors} (h : correctable e = false ∨ (e.bad = [] ∧ e.crc ≠ flitCrc f)) :
    exec (.flitReceive port peer f e) s = .next (bumpPort s port.val portFecUncorr 1) := by
  show execFlitReceive port peer f e s = _
  rw [execFlitReceive]
  dsimp only
  rw [if_pos hopen]
  obtain h | ⟨hclean, hcrc⟩ := h
  · rw [if_neg (by rw [h]; exact Bool.false_ne_true)]
  · rw [if_pos (correctable_clean hclean), hclean, if_neg hcrc]
    rfl

theorem flitReceive_taken {f : Flit} {e : FlitErrors} (h : correctable e = true) (hcrc : e.crc = flitCrc f) :
    exec (.flitReceive port peer f e) s = .next (takeFlit (corrected s port.val e) port.val peer.val f) := by
  show execFlitReceive port peer f e s = _
  rw [execFlitReceive]
  dsimp only
  rw [if_pos hopen, if_pos h, if_pos hcrc]
  rfl

omit hopen in
theorem corrected_spec (s : State) (k m : Nat) (e : FlitErrors) :
    ChanOnly k m s (corrected s k e) ∧ getChan (corrected s k e) k m = getChan s k m ∧
      (corrected s k e).casks = s.casks ∧ (getPort (corrected s k e) k).delivered = (getPort s k).delivered ∧
      (e.bad = [] → (getPort (corrected s k e) k).counters = (getPort s k).counters) ∧
      (e.bad ≠ [] → (getPort (corrected s k e) k).counters = bumpTbl (getPort s k).counters portFecCorr 1) := by
  unfold corrected
  split
  · next h => exact ⟨.refl s, rfl, rfl, rfl, fun _ => rfl, fun hne => absurd (List.isEmpty_iff.mp h) hne⟩
  · next h =>
    exact ⟨.bumpPort .., getChan_bumpPort .., rfl, delivered_bumpPort .., fun hnil => absurd (List.isEmpty_iff.mpr hnil) h,
      fun _ => counters_bumpPort ..⟩

/-! ### Retry and retraining -/

theorem retryRequest_open (ack : Word) :
    exec (.retryRequestReceive port peer ack) s = .next (takeRetry s port.val peer.val ack) := if_pos hopen

omit hopen in
theorem lockLoss_up (h : (getChan s port.val peer.val).state = .up) :
    exec (.lockLossTimeout port peer) s = .next (startRetrain s port.val peer.val) := if_pos h

end Commands

/-- A retry request resends what its ACK does not free; short of the eighth in a row it starts no retrain. -/
theorem takeRetry_resends {s : State} {k m : Nat} {ack : Word} (h : ∀ n, (getChan s k m).retryAck ≠ some (ack, n + 7)) :
    ChanOnly k m s (takeRetry s k m ack) ∧
      getChan (takeRetry s k m ack) k m = retried (getChan s k m) ack (retryRun (getChan s k m) ack) ∧
      (getPort (takeRetry s k m ack) k).counters = bumpTbl (getPort s k).counters portRetry 1 := by
  have hrun : ¬ 8 ≤ retryRun (getChan s k m) ack := by
    unfold retryRun
    split
    · next a n hn =>
      split
      · next ha =>
        intro hle
        refine h (n - 7) ?_
        rw [hn, ha, show n - 7 + 7 = n by omega]
      · omega
    · omega
  rw [takeRetry_eq]
  dsimp only
  rw [if_neg hrun]
  refine ⟨(ChanOnly.bumpPort ..).trans (.modChan ..), ?_, ?_⟩
  · rw [getChan_modChan_same, getChan_bumpPort]
  · rw [counters_modChan, counters_bumpPort]

/-- The eighth retry request in a row for one ACK starts a retrain (R498). -/
theorem takeRetry_retrains {s : State} {k m : Nat} {ack : Word} (h : (getChan s k m).retryAck = some (ack, 7)) :
    ChanOnly k m s (takeRetry s k m ack) ∧ (getChan (takeRetry s k m ack) k m).state = .retraining ∧
      (getChan (takeRetry s k m ack) k m).resend = (getChan s k m).unacked.filter (fun f => seqAhead f.seq ack) := by
  have hrun : retryRun (getChan s k m) ack = 8 := by
    unfold retryRun
    rw [h]
    exact if_pos rfl
  rw [takeRetry_eq]
  dsimp only
  rw [if_pos (by rw [hrun])]
  obtain ⟨honly, hchan, -⟩ := startRetrain_spec (modChan (bumpPort s k portRetry 1) k m
    (fun c => retried c ack (retryRun c ack))) k m
  refine ⟨((ChanOnly.bumpPort ..).trans (.modChan ..)).trans honly, ?_, ?_⟩
  · rw [hchan]
  · rw [hchan, getChan_modChan_same, getChan_bumpPort]
    rfl

/-- What the obligation says of a channel that retrains. -/
def retrains (s t : State) (k m : Nat) : Prop :=
  (getChan t k m).state = .retraining ∧ (getChan t k m).retrainAt = s.pll ∧ (getChan t k m).txSeq = (getChan s k m).txSeq ∧
    (getChan t k m).rxSeq = (getChan s k m).rxSeq ∧ (getChan t k m).sweepHeld = sweepsHeld s ∧
    (getPort t k).counters = bumpTbl (getPort s k).counters portRetrainCount 1

theorem startRetrain_retrains (s : State) (k m : Nat) :
    ChanOnly k m s (startRetrain s k m) ∧ retrains s (startRetrain s k m) k m := by
  obtain ⟨honly, hchan, hcount⟩ := startRetrain_spec s k m
  refine ⟨honly, ?_⟩
  unfold retrains
  rw [hchan]
  exact ⟨rfl, rfl, rfl, rfl, rfl, hcount⟩

/-- What the obligation says of a channel that has failed. -/
def failsChan (s t : State) (k m : Nat) : Prop :=
  (getChan t k m).state = .failed ∧ (getChan t k m).txq = [] ∧ bit (getPort t k).failed m = true ∧
    (getChan t k m).txSeq = (getChan s k m).txSeq ∧ (getChan t k m).rxSeq = (getChan s k m).rxSeq

theorem failChan_fails (s : State) (k m detail : Nat) (hm : m < 64) :
    ChanOnly k m s (failChan s k m detail) ∧ failsChan s (failChan s k m detail) k m := by
  refine ⟨failChan_only .., ?_⟩
  unfold failsChan
  rw [getChan_failChan]
  exact ⟨rfl, rfl, failed_failChan s k m detail hm, rfl, rfl⟩

section Retrain
variable {port : Fin 8} {peer : Fin 64} {s : State} {seen : List TrainingSeen}
  (hstate : (getChan s port.val peer.val).state = .retraining)
  (hsweep : (getChan s port.val peer.val).sweepHeld = false)

/-- A channel that resumes (R498). -/
def resumed (s : State) (k m : Nat) : State :=
  modPort (modChan s k m (fun c => { c with state := .up, retrainFails := 0, resend := c.unacked, gap := none })) k
    (fun p => { p with retrain := setBits p.retrain m 1 0 })

theorem resumed_spec (s : State) (k m : Nat) : ChanOnly k m s (resumed s k m) ∧
    getChan (resumed s k m) k m = { getChan s k m with
      state := .up, retrainFails := 0, resend := (getChan s k m).unacked, gap := none } := by
  refine ⟨(ChanOnly.modChan ..).trans (.modPort _ (fun _ => rfl)), ?_⟩
  rw [resumed, getChan_modPort (by exact fun _ => rfl), getChan_modChan_same]

section Complete
variable (hmay : mayTrain s port.val peer.val = true)
include hstate hsweep hmay

theorem retrainComplete_seen {x : TrainingSeen} (hx : seenOn (rxLine (ownIndex s) peer.val) seen = some x) :
    exec (.retrainComplete port peer seen) s =
      if x.port = port.val ∧ x.sender = peer.val then .next (resumed s port.val peer.val)
      else .next (failChan s port.val peer.val
        (chanDetail port.val peer.val (rxLine (ownIndex s) peer.val) x.port x.sender)) := by
  show execRetrainComplete port peer seen s = _
  rw [execRetrainComplete]
  dsimp only
  rw [if_pos ⟨hstate, hsweep, hmay⟩, hx]
  rfl

theorem retrainComplete_none (hx : seenOn (rxLine (ownIndex s) peer.val) seen = none) :
    exec (.retrainComplete port peer seen) s =
      if 2 ≤ (getChan s port.val peer.val).retrainFails then
        .next (failChan s port.val peer.val (failDetail s port.val peer.val))
      else .next (startRetrain (modChan s port.val peer.val (fun c => { c with retrainFails := c.retrainFails + 1 }))
        port.val peer.val) := by
  show execRetrainComplete port peer seen s = _
  rw [execRetrainComplete]
  dsimp only
  rw [if_pos ⟨hstate, hsweep, hmay⟩, hx]

end Complete

/-- A failed retrain short of the third starts again. -/
theorem retrainAgain (s : State) (k m : Nat) :
    let t := startRetrain (modChan s k m (fun c => { c with retrainFails := c.retrainFails + 1 })) k m
    ChanOnly k m s t ∧ retrains s t k m ∧ (getChan t k m).retrainFails = (getChan s k m).retrainFails + 1 := by
  dsimp only
  obtain ⟨honly, hchan, hcount⟩ := startRetrain_spec (modChan s k m (fun c => { c with retrainFails := c.retrainFails + 1 })) k m
  rw [counters_modChan] at hcount
  rw [getChan_modChan_same] at hchan
  refine ⟨(ChanOnly.modChan ..).trans honly, ?_, by rw [hchan]⟩
  unfold retrains
  rw [hchan]
  exact ⟨rfl, rfl, rfl, rfl, rfl, hcount⟩

theorem retrainComplete_still (h : (getChan s port.val peer.val).sweepHeld = true) :
    exec (.retrainComplete port peer seen) s = .next s :=
  if_neg (fun hc => Bool.false_ne_true (hc.2.1.symm.trans h))

theorem retrainTimeout_still
    (h : (getChan s port.val peer.val).sweepHeld = true ∨ s.pll ≤ (getChan s port.val peer.val).retrainAt + us 200) :
    exec (.retrainTimeout port peer) s = .next s := by
  refine if_neg (fun hc => ?_)
  obtain ⟨-, hsweep, hlate⟩ := hc
  obtain h | h := h
  · exact Bool.false_ne_true (hsweep.symm.trans h)
  · omega

include hstate hsweep in
theorem retrainTimeout_late (h : (getChan s port.val peer.val).retrainAt + us 200 < s.pll) :
    exec (.retrainTimeout port peer) s = .next (failChan s port.val peer.val (failDetail s port.val peer.val)) :=
  if_pos ⟨hstate, hsweep, h⟩

end Retrain

/-! ### The quiesce notice (R643) -/

/-- Taking a frame and returning its credits leaves every channel but the sender's, and of that its state and sequence
numbers. -/
theorem received_chan {s u : State} {rx : Rx} (hm : rx.sender ≠ ownIndex s) (h : takeRx s rx = some u) (n : Nat) :
    ChanOnly rx.port.val rx.sender s (freeRx u rx n) ∧
      (getChan (freeRx u rx n) rx.port.val rx.sender).state = (getChan s rx.port.val rx.sender).state ∧
      (getChan (freeRx u rx n) rx.port.val rx.sender).txSeq = (getChan s rx.port.val rx.sender).txSeq ∧
      (getChan (freeRx u rx n) rx.port.val rx.sender).rxSeq = (getChan s rx.port.val rx.sender).rxSeq := by
  have htake : u = modPort s rx.port.val (fun p => { p with
        delivered := dropLane rx.sender (vlOf rx.frame) (frameSlots rx.frame).length p.delivered }) := by
    unfold takeRx at h
    dsimp only at h
    rw [if_neg hm] at h
    split at h
    · exact (Option.some.inj h).symm
    · cases h
  subst htake
  rw [freeRx, if_neg (by exact hm), freeSlots, getChan_modChan_same,
    getChan_modPort (by exact fun _ => rfl)]
  refine ⟨.trans (.modPort s ?_) (.modChan ..), rfl, rfl, rfl⟩
  exact fun _ => rfl

theorem quiesceNotice_taken {port : Fin 8} {peer : Fin 64} {s : State}
    (hrx : (takeRx s { port := port, sender := peer.val, frame := quiesceFrame }).isSome = true)
    (hm : peer.val ≠ ownIndex s) (hfail : (getChan s port.val peer.val).state ≠ .failed) :
    ∃ t, exec (.quiesceNoticeReceive port peer) s = .next t ∧ ChanOnly port.val peer.val s t ∧
      (getChan t port.val peer.val).state = .quiesced ∧
      (getChan t port.val peer.val).txSeq = (getChan s port.val peer.val).txSeq ∧
      (getChan t port.val peer.val).rxSeq = (getChan s port.val peer.val).rxSeq := by
  obtain ⟨u, hu⟩ := Option.isSome_iff_exists.mp hrx
  obtain ⟨honly, hstate, htx, hrxs⟩ := received_chan hm hu (frameSlots quiesceFrame).length
  refine ⟨modChan _ port.val peer.val (fun c => if c.state = .failed then c else { c with state := .quiesced }), ?_,
    honly.trans (.modChan ..), ?_⟩
  · show execQuiesceNoticeReceive port peer s = _
    rw [execQuiesceNoticeReceive, if_neg hm, withRx, hu]
  · rw [getChan_modChan_same, if_neg (by rw [hstate]; exact hfail)]
    exact ⟨rfl, htx, hrxs⟩

/-- Settles O47: flits go and come in sequence order, and channels retry, retrain, fail and quiesce as chapter 14 says. -/
theorem flitsAndRetry : Obligations.FlitsAndRetry := by
  unfold Obligations.FlitsAndRetry
  intro port peer s
  dsimp only
  have hbecomes : ∀ {o : Host.Outcome State Fault Refusal} {g : State → Prop} (t : State), o = .next t →
      ChanOnly port.val peer.val s t → g t → ∃ t, o = .next t ∧ ((∀ j n, (j, n) ≠ (port.val, peer.val) →
        getChan t j n = getChan s j n) ∧ t.cores = s.cores ∧ t.casks = s.casks ∧ t.lpddr = s.lpddr) ∧ g t :=
    fun t ht honly hg => ⟨t, ht, ⟨honly.others, honly.cores, honly.casks, honly.lpddr⟩, hg⟩
  refine ⟨?sends, ?trains, fun hup hret => flitSend_still hup hret, fun h => flitSend_early h,
    fun e => ⟨correctable_iff e, correctable_clean⟩, fun f e hopen h => flitReceive_lost hopen h, ?next, ?behind, ?retry,
    ?eighth, ?lock, ?retrain, fun h => ⟨retrainTimeout_still (.inl h), fun _ => retrainComplete_still h⟩, ?quiesce⟩
  case sends =>
    intro hstate hdue hquiet
    refine hbecomes _ (flitSend_up hstate hdue hquiet) (emitFlit_only ..)
      ⟨(emitted port.val (ownIndex s) peer.val (getChan s port.val peer.val)).1, ?_⟩
    rw [getChan_emitFlit]
    exact ⟨rfl, rfl, rfl, emitted_spec ..⟩
  case trains =>
    intro hstate hsweep hmay hdue
    refine hbecomes _ (flitSend_training hstate hsweep hmay hdue) (emitTraining_only ..) ?_
    rw [getChan_emitTraining]
    exact ⟨⟨_, rfl, rfl, rfl, rfl⟩, rfl⟩
  case next =>
    intro f e hopen hcorr hcrc ht hseq
    obtain ⟨hc1, hc2, hc3, hc4, hc5, hc6⟩ := corrected_spec s port.val peer.val e
    obtain ⟨honly, hrx, hgap, hunacked, hdelivered, hcount⟩ := takeFlit_next (s := corrected s port.val e)
      (k := port.val) (m := peer.val) ht (by rw [hc2]; exact hseq)
    have harrive : arrive (corrected s port.val e) port.val peer.val = arrive s port.val peer.val := by
      funext x
      unfold arrive getCask
      rw [hc3]
    rw [hc2] at hunacked
    rw [hc4, harrive] at hdelivered
    exact hbecomes _ (flitReceive_taken hopen hcorr hcrc) (hc1.trans honly) ⟨hrx, hgap, hunacked, hdelivered,
      fun hnil => hcount.trans (hc5 hnil), fun hne => hcount.trans (hc6 hne)⟩
  case behind =>
    intro f e hopen hcorr hcrc ht hseq
    obtain ⟨hc1, hc2, -, hc4, -, -⟩ := corrected_spec s port.val peer.val e
    obtain ⟨honly, hrx, hdelivered, hahead, hbehind⟩ := takeFlit_behind (s := corrected s port.val e)
      (k := port.val) (m := peer.val) ht (by rw [hc2]; exact hseq)
    rw [hc2] at hrx hahead hbehind
    rw [hc4] at hdelivered
    exact hbecomes _ (flitReceive_taken hopen hcorr hcrc) (hc1.trans honly) ⟨hrx, hdelivered, hahead, hbehind⟩
  case retry =>
    intro ack hopen hrun
    obtain ⟨honly, hchan, hcount⟩ := takeRetry_resends hrun
    refine hbecomes _ (retryRequest_open hopen ack) honly ⟨hcount, ?_⟩
    rw [hchan]
    exact ⟨hopen.1, rfl, rfl⟩
  case eighth =>
    intro ack hopen hrun
    obtain ⟨honly, hstate, hresend⟩ := takeRetry_retrains hrun
    exact hbecomes _ (retryRequest_open hopen ack) honly ⟨hstate, hresend⟩
  case lock =>
    intro hstate
    obtain ⟨honly, hret⟩ := startRetrain_retrains s port.val peer.val
    exact hbecomes _ (lockLoss_up hstate) honly hret
  case retrain =>
    intro hstate hsweep
    refine ⟨fun hmay seen => ⟨fun x hx hport hsender => ?_, fun x hx hwrong => ?_, fun hx => ⟨fun hfew => ?_, fun hthird => ?_⟩⟩,
      fun hlate => ?_, fun hearly => retrainTimeout_still (.inr hearly)⟩
    · obtain ⟨honly, hchan⟩ := resumed_spec s port.val peer.val
      refine hbecomes _ ((retrainComplete_seen hstate hsweep hmay hx).trans (if_pos ⟨hport, hsender⟩)) honly ?_
      rw [hchan]
      exact ⟨rfl, rfl, rfl, rfl, rfl, rfl⟩
    · obtain ⟨honly, hfails⟩ := failChan_fails s port.val peer.val
        (chanDetail port.val peer.val (rxLine (ownIndex s) peer.val) x.port x.sender) peer.isLt
      exact hbecomes _ ((retrainComplete_seen hstate hsweep hmay hx).trans (if_neg (by omega))) honly hfails
    · obtain ⟨honly, hret, hfails⟩ := retrainAgain s port.val peer.val
      exact hbecomes _ ((retrainComplete_none hstate hsweep hmay hx).trans (if_neg (by omega))) honly ⟨hret, hfails⟩
    · obtain ⟨honly, hfails⟩ := failChan_fails s port.val peer.val (failDetail s port.val peer.val) peer.isLt
      exact hbecomes _ ((retrainComplete_none hstate hsweep hmay hx).trans (if_pos hthird)) honly hfails
    · obtain ⟨honly, hfails⟩ := failChan_fails s port.val peer.val (failDetail s port.val peer.val) peer.isLt
      exact hbecomes _ (retrainTimeout_late hstate hsweep hlate) honly hfails
  case quiesce =>
    intro hrx hm hfail
    obtain ⟨t, ht, honly, hg⟩ := quiesceNotice_taken hrx hm hfail
    exact hbecomes t ht honly hg

end Sys2Proof.Machine
end

section
/-! Ports as they calibrate, light and go dark (R481, R498 to R509, R643, R705). -/

namespace Sys2Proof.Machine

/-! ### Steps over what stands apart -/

/-- Steps over a list of different keys, each of which changes only what is seen at its key: what each key shows at last
is what its own step made of it. -/
theorem foldl_view {β : Type} {view : State → Nat → β} {step : State → Nat → State} {inv : State → Prop}
    {rel : Nat → β → β → Prop} {ms : List Nat} {s : State} (hnodup : ms.Nodup) (hs : inv s)
    (hinv : ∀ s m, m ∈ ms → inv s → inv (step s m))
    (hother : ∀ s m n, m ∈ ms → inv s → n ≠ m → view (step s m) n = view s n)
    (hsame : ∀ s m, m ∈ ms → inv s → rel m (view s m) (view (step s m) m)) :
    inv (ms.foldl step s) ∧ (∀ m ∈ ms, rel m (view s m) (view (ms.foldl step s) m)) ∧
      ∀ n, n ∉ ms → view (ms.foldl step s) n = view s n := by
  induction ms generalizing s with
  | nil => exact ⟨hs, fun m hm => absurd hm List.not_mem_nil, fun n _ => rfl⟩
  | cons m ms ih =>
    obtain ⟨hm, hms⟩ := List.nodup_cons.mp hnodup
    obtain ⟨hi, hin, hout⟩ := ih hms (hinv s m List.mem_cons_self hs)
      (fun s n hn => hinv s n (List.mem_cons_of_mem m hn)) (fun s n o hn => hother s n o (List.mem_cons_of_mem m hn))
      (fun s n hn => hsame s n (List.mem_cons_of_mem m hn))
    rw [List.foldl_cons]
    refine ⟨hi, fun n hn => ?_, fun n hn => ?_⟩
    · obtain rfl | hn := List.mem_cons.mp hn
      · rw [hout n hm]
        exact hsame s n List.mem_cons_self hs
      · rw [← hother s m n List.mem_cons_self hs (fun h => hm (h ▸ hn))]
        exact hin n hn
    · rw [hout n (fun h => hn (List.mem_cons_of_mem m h)), hother s m n List.mem_cons_self hs
        (fun h => hn (h ▸ List.mem_cons_self))]

theorem bit_setBits_apart {n : Nat} (x : BitVec n) (v : Nat) {j k : Nat} (h : k ≠ j) : bit (setBits x j 1 v) k = bit x k := by
  by_cases hk : k < n
  · exact bit_setBits_other x v hk h
  · unfold bit
    rw [BitVec.getLsbD_of_ge _ _ (by omega), BitVec.getLsbD_of_ge _ _ (by omega)]

theorem bit_setBits_at {n : Nat} (x : BitVec n) {k : Nat} (v : Nat) (hk : k < n) :
    bit (setBits x k 1 v) k = v.testBit 0 := by
  rw [bit_setBits x k 1 v hk, if_pos (by omega), Nat.sub_self]

/-! ### One port changed -/

/-- A state in which, of the ports, only one differs. -/
structure PortOnly (k : Nat) (s t : State) : Prop where
  others : ∀ j, j ≠ k → getPort t j = getPort s j
  cores : t.cores = s.cores
  lpddr : t.lpddr = s.lpddr
  fabric : t.fabric = s.fabric
  pll : t.pll = s.pll

section PortOnly
variable {k : Nat} {s t u : State}

theorem PortOnly.refl (s : State) : PortOnly k s s := ⟨fun _ _ => rfl, rfl, rfl, rfl, rfl⟩

theorem PortOnly.trans (h : PortOnly k s t) (g : PortOnly k t u) : PortOnly k s u :=
  ⟨fun j hj => (g.others j hj).trans (h.others j hj), g.cores.trans h.cores, g.lpddr.trans h.lpddr,
    g.fabric.trans h.fabric, g.pll.trans h.pll⟩

theorem PortOnly.modPort (s : State) (g : Port → Port) : PortOnly k s (modPort s k g) :=
  ⟨fun j hj => by rw [getPort_modPort, if_neg hj], rfl, rfl, rfl, rfl⟩

theorem PortOnly.modChan (s : State) (m : Nat) (g : Chan → Chan) : PortOnly k s (modChan s k m g) := .modPort ..

theorem PortOnly.failChan (s : State) (m detail : Nat) : PortOnly k s (failChan s k m detail) := by
  have hrec : ∀ v : State, PortOnly k v (chanRecord v k detail) := by
    intro v
    obtain ⟨-, hcores, -, hlpddr, -, hfabric⟩ := chanRecord_frame v k detail
    exact ⟨fun j _ => getPort_chanRecord .., hcores, hlpddr, hfabric,
      by rw [chanRecord, raiseVector_frame, record_frame_eq]⟩
  rw [failChan_eq]
  exact ((PortOnly.modChan s m failedChan).trans (.modPort _ (failedPort m))).trans (hrec _)

theorem PortOnly.startRetrain (s : State) (m : Nat) : PortOnly k s (startRetrain s k m) := by
  unfold Machine.startRetrain
  exact (PortOnly.modChan s m _).trans (.modPort ..)

theorem PortOnly.ownIndex (h : PortOnly k s t) : ownIndex t = ownIndex s := by
  rw [Machine.ownIndex, h.fabric, ← Machine.ownIndex]

end PortOnly

/-! ### What a port shows of one channel -/

/-- A channel, and what its port's registers say of it. -/
structure ChanView where
  chan : Chan
  failed : Bool
  retrain : Bool

def chanView (k : Nat) (s : State) (m : Nat) : ChanView :=
  { chan := getChan s k m, failed := bit (getPort s k).failed m, retrain := bit (getPort s k).retrain m }

theorem chanView_modChan (s : State) (k m n : Nat) (g : Chan → Chan) : chanView k (modChan s k m g) n =
    if n = m then { chanView k s n with chan := g (getChan s k m) } else chanView k s n := by
  unfold chanView
  rw [getPort_modChan_frame, getChan_modChan]
  by_cases h : n = m <;> simp [h]

/-- A change of the port's registers at one channel's bit, and of what is delivered. -/
theorem chanView_modPort {s : State} {k n : Nat} {g : Port → Port} (hchans : ∀ p, (g p).chans = p.chans)
    (hfailed : ∀ p, bit (g p).failed n = bit p.failed n) (hretrain : ∀ p, bit (g p).retrain n = bit p.retrain n) :
    chanView k (modPort s k g) n = chanView k s n := by
  unfold chanView
  rw [getChan_modPort hchans, getPort_modPort_same, hfailed, hretrain]

theorem chanView_failChan_other (s : State) (k detail : Nat) {m n : Nat} (h : n ≠ m) :
    chanView k (failChan s k m detail) n = chanView k s n := by
  have hrec : ∀ v : State, chanView k (chanRecord v k detail) n = chanView k v n := by
    intro v
    unfold chanView
    rw [getChan_chanRecord, getPort_chanRecord]
  rw [failChan_eq, hrec, chanView_modPort, chanView_modChan, if_neg h]
  · exact fun _ => rfl
  · exact fun p => bit_setBits_apart p.failed 1 h
  · exact fun p => bit_setBits_apart p.retrain 0 h

/-- A channel that comes up. -/
theorem bringUp_view (s : State) (k m : Nat) : PortOnly k s (bringUp s k m) ∧
    (getPort (bringUp s k m) k).lit = (getPort s k).lit ∧
    getChan (bringUp s k m) k m = raiseChan (getChan (emitTraining s k m) k m) ∧
    ∀ n, n ≠ m → chanView k (bringUp s k m) n = chanView k s n := by
  have hemit : PortOnly k s (emitTraining s k m) := by
    unfold emitTraining
    exact .modChan ..
  refine ⟨(hemit.trans (.modChan _ m raiseChan)).trans (.modPort ..), ?_, ?_, fun n hn => ?_⟩
  · rw [bringUp, getPort_modPort_same]
    dsimp only
    rw [lit_modChan, emitTraining, lit_modChan]
  · rw [bringUp, getChan_modPort (by exact fun _ => rfl), getChan_modChan_same]
  · rw [bringUp, chanView_modPort, chanView_modChan, if_neg hn, emitTraining, chanView_modChan, if_neg hn]
    · exact fun _ => rfl
    · exact fun _ => rfl
    · exact fun p => bit_setBits_apart p.retrain 0 hn

/-! ### The wiring check (R495, R504, R505, R643) -/

theorem trained_iff (own k m : Nat) (seen : List TrainingSeen) : trained own k m seen = true ↔
    ∃ x, seenOn (rxLine own m) seen = some x ∧ x.port = k ∧ x.sender = m := by
  unfold trained
  cases seenOn (rxLine own m) seen with
  | none => simp
  | some x => simp

/-- Sequence numbers from 0 (R495). -/
def freshSeq (d : Chan) : Prop := d.txSeq = 0 ∧ d.rxSeq = 0xFFFFFFFF ∧ d.unacked = []

/-- What the wiring check makes of one channel. -/
def wired (own k m : Nat) (seen : List TrainingSeen) (c d : Chan) (failed : Bool) : Prop :=
  (c.state ≠ .failed → ∃ f, d.sent = some f ∧ f.type = .training ∧ f.port = k ∧ f.sender = own) ∧
  (c.state = .quiesced → d.txSeq = c.txSeq ∧ d.rxSeq = c.rxSeq ∧ d.unacked = c.unacked ∧
    (trained own k m seen = true → d.state = .up ∧ d.resend = c.unacked) ∧
    (¬ trained own k m seen = true → d.state = .quiesced)) ∧
  (c.state = .failed → d.state = .failed ∧ freshSeq d) ∧
  (c.state ≠ .quiesced → c.state ≠ .failed → freshSeq d ∧ (trained own k m seen = true → d.state = .up) ∧
    (¬ trained own k m seen = true → d.state = .failed ∧ failed = true))

/-- A channel whose wiring is wrong, or that shows no training flits, fails anew. -/
theorem wireChan_other {s : State} {k m : Nat} {seen : List TrainingSeen} (hq : (getChan s k m).state ≠ .quiesced)
    (hf : (getChan s k m).state ≠ .failed) : wireChan seen k s m =
      if trained (ownIndex s) k m seen then bringUp s k m
      else match seenOn (rxLine (ownIndex s) m) seen with
        | some x => failChan (modChan (emitTraining s k m) k m freshChan) k m
            (chanDetail k m (rxLine (ownIndex s) m) x.port x.sender)
        | none => failChan (modChan (emitTraining s k m) k m freshChan) k m
            (chanDetail k m (rxLine (ownIndex s) m) 0xFF 0xFF) := by
  unfold wireChan
  dsimp only
  split
  · next h => exact absurd h hq
  · next h => exact absurd h hf
  · rfl

/-- A channel that trains and fails (R505). -/
theorem failedAnew (s : State) (k m detail : Nat) (hm : m < 64) :
    let t := failChan (modChan (emitTraining s k m) k m freshChan) k m detail
    PortOnly k s t ∧ (getPort t k).lit = (getPort s k).lit ∧ (∀ n, n ≠ m → chanView k t n = chanView k s n) ∧
      getChan t k m = failedChan (freshChan (getChan (emitTraining s k m) k m)) ∧ bit (getPort t k).failed m = true := by
  dsimp only
  have hemit : PortOnly k s (emitTraining s k m) := by
    unfold emitTraining
    exact .modChan ..
  refine ⟨(hemit.trans (.modChan _ m freshChan)).trans (.failChan ..), ?_, fun n hn => ?_, ?_, failed_failChan _ _ _ _ hm⟩
  · rw [failChan_eq, getPort_chanRecord, getPort_modPort_same, failedPort]
    dsimp only
    rw [lit_modChan, lit_modChan, emitTraining, lit_modChan]
  · rw [chanView_failChan_other _ _ _ hn, chanView_modChan, if_neg hn, emitTraining, chanView_modChan, if_neg hn]
  · rw [getChan_failChan, getChan_modChan_same]

/-- The wiring check of a channel, and what it leaves. -/
theorem wireChan_spec (s : State) (k : Nat) {m : Nat} (seen : List TrainingSeen) (hm : m < 64) :
    PortOnly k s (wireChan seen k s m) ∧ (getPort (wireChan seen k s m) k).lit = (getPort s k).lit ∧
      (∀ n, n ≠ m → chanView k (wireChan seen k s m) n = chanView k s n) ∧
      wired (ownIndex s) k m seen (getChan s k m) (getChan (wireChan seen k s m) k m)
        (bit (getPort (wireChan seen k s m) k).failed m) := by
  obtain ⟨honly, hlit, hchan, hview⟩ := bringUp_view s k m
  by_cases hf : (getChan s k m).state = .failed
  · have hwire : wireChan seen k s m = modChan s k m freshChan := by
      unfold wireChan
      dsimp only
      rw [hf]
    rw [hwire]
    refine ⟨.modChan .., lit_modChan .., fun n hn => by rw [chanView_modChan, if_neg hn], fun h => absurd hf h,
      fun h => ?_, fun _ => ?_, fun _ h => absurd hf h⟩
    · rw [hf] at h
      cases h
    · rw [getChan_modChan_same]
      exact ⟨hf, rfl, rfl, rfl⟩
  by_cases hq : (getChan s k m).state = .quiesced
  · have hwire : wireChan seen k s m = if trained (ownIndex s) k m seen then bringUp s k m else emitTraining s k m := by
      unfold wireChan
      dsimp only
      rw [hq]
    rw [hwire]
    by_cases htr : trained (ownIndex s) k m seen = true
    · rw [if_pos htr]
      refine ⟨honly, hlit, hview, ?_⟩
      rw [hchan, getChan_emitTraining, raiseChan, if_pos hq]
      exact ⟨fun _ => ⟨_, rfl, rfl, rfl, rfl⟩, fun _ => ⟨rfl, rfl, rfl, fun _ => ⟨rfl, rfl⟩, fun h => absurd htr h⟩,
        fun h => absurd h hf, fun h => absurd hq h⟩
    · rw [if_neg htr]
      refine ⟨?_, ?_, fun n hn => ?_, ?_⟩
      · unfold emitTraining
        exact .modChan ..
      · rw [emitTraining, lit_modChan]
      · rw [emitTraining, chanView_modChan, if_neg hn]
      · rw [getChan_emitTraining]
        exact ⟨fun _ => ⟨_, rfl, rfl, rfl, rfl⟩, fun _ => ⟨rfl, rfl, rfl, fun h => absurd h htr, fun _ => hq⟩,
          fun h => absurd h hf, fun h => absurd hq h⟩
  rw [wireChan_other hq hf]
  by_cases htr : trained (ownIndex s) k m seen = true
  · rw [if_pos htr]
    refine ⟨honly, hlit, hview, ?_⟩
    rw [hchan, getChan_emitTraining, raiseChan, if_neg (by exact hq)]
    exact ⟨fun _ => ⟨_, rfl, rfl, rfl, rfl⟩, fun h => absurd h hq, fun h => absurd h hf,
      fun _ _ => ⟨⟨rfl, rfl, rfl⟩, fun _ => rfl, fun h => absurd htr h⟩⟩
  · rw [if_neg htr]
    have hfails : ∀ detail, let t := failChan (modChan (emitTraining s k m) k m freshChan) k m detail
        PortOnly k s t ∧ (getPort t k).lit = (getPort s k).lit ∧ (∀ n, n ≠ m → chanView k t n = chanView k s n) ∧
          wired (ownIndex s) k m seen (getChan s k m) (getChan t k m) (bit (getPort t k).failed m) := by
      intro detail
      obtain ⟨h1, h2, h3, h4, h5⟩ := failedAnew s k m detail hm
      refine ⟨h1, h2, h3, ?_⟩
      rw [h4, h5, getChan_emitTraining]
      exact ⟨fun _ => ⟨_, rfl, rfl, rfl, rfl⟩, fun h => absurd h hq, fun h => absurd h hf,
        fun _ _ => ⟨⟨rfl, rfl, rfl⟩, fun h => absurd h htr, fun _ => ⟨rfl, rfl⟩⟩⟩
    split
    · exact hfails _
    · exact hfails _

end Sys2Proof.Machine
end

section
/-! Tracking steps, bring-up, the laser input, PORT_RETRAIN and PORT_FABRIC: the obligation on ports. -/

namespace Sys2Proof.Machine

section Commands
variable {port : Fin 8} {s : State}

/-! ### Tracking steps (R501, R503) -/

/-- A port on which the next tracking step has begun. -/
def trackedPort (s : State) (k : Nat) : State :=
  modPort s k (fun p => { p with calNext := (p.calNext + 1) % 64, calAt := s.pll })

theorem trackingStep_due (hlit : (getPort s port.val).lit = true)
    (hdue : (getPort s port.val).calAt + us (bits s.calCtrl 0 7) ≤ s.pll) : exec (.calTrackingStep port) s =
      .next (if skipsTracking (getChan s port.val (getPort s port.val).calNext) then trackedPort s port.val
        else bumpPort (trackChan (trackedPort s port.val) port.val (getPort s port.val).calNext) port.val portCalSteps 1) := by
  show execCalTrackingStep port s = _
  rw [execCalTrackingStep]
  dsimp only
  rw [if_pos ⟨hlit, hdue⟩, getChan_modPort (by exact fun _ => rfl)]
  rfl

theorem trackChan_spec (s : State) (k m : Nat) : getChan (trackChan s k m) k m =
    { getChan s k m with
      holdTill := flitBoundary s (getChan s k m) + min (nsUp 200) (Config.trackHold s.pll) } := getChan_modChan_same ..

/-! ### Bring-up (R502, R504, R505, R642) -/

theorem bringUp_dark (seen : List TrainingSeen) (h : mayLight s (getPort s port.val) = false) :
    exec (.portBringUp port seen) s = .next s := by
  show execPortBringUp port seen s = _
  rw [execPortBringUp]
  dsimp only
  rw [h]
  rfl

variable (hmay : mayLight s (getPort s port.val) = true)
include hmay

theorem bringUp_held (seen : List TrainingSeen) (hlit : (getPort s port.val).lit = false) (hheld : sweepsHeld s = true)
    (hending : s.power.s5Ending = none) : exec (.portBringUp port seen) s =
      .next (modPort s port.val (fun p => { p with sweepHeld := true })) := by
  show execPortBringUp port seen s = _
  rw [execPortBringUp]
  dsimp only
  rw [hmay, hlit, hheld, hending]
  rfl

/-- A port that lights. -/
def litPort (s : State) (k : Nat) : State :=
  modPort s k (fun p => { p with lit := true, sweepHeld := false, calAt := s.pll })

theorem bringUp_lights (seen : List TrainingSeen) (hlit : (getPort s port.val).lit = false)
    (hheld : sweepsHeld s = false ∨ s.power.s5Ending.isSome = true) : exec (.portBringUp port seen) s =
      .next ((fabricModules s).foldl (wireChan seen port.val) (litPort s port.val)) := by
  have hcond : (sweepsHeld s && s.power.s5Ending.isNone) = false := by
    obtain h | h := hheld
    · rw [h, Bool.false_and]
    · rw [← Option.not_isSome, h, Bool.not_true, Bool.and_false]
  show execPortBringUp port seen s = _
  rw [execPortBringUp]
  dsimp only
  rw [hmay, hlit, hcond]
  rfl

/-- The quiesced channels whose peers train. -/
def returning (s : State) (k : Nat) (seen : List TrainingSeen) : List Nat :=
  (fabricModules s).filter (fun m => (getChan s k m).state == .quiesced && trained (ownIndex s) k m seen)

theorem bringUp_lit (seen : List TrainingSeen) (hlit : (getPort s port.val).lit = true) :
    exec (.portBringUp port seen) s =
      .next ((returning s port.val seen).foldl (fun s m => bringUp s port.val m) s) := by
  show execPortBringUp port seen s = _
  rw [execPortBringUp]
  dsimp only
  rw [hmay, hlit]
  rfl

end Commands

/-- The wiring check of every channel of a port. -/
theorem wireAll_spec (s : State) (k : Nat) (seen : List TrainingSeen) {n : Nat} (hn : n ≤ 64) :
    let t := (List.range n).foldl (wireChan seen k) s
    PortOnly k s t ∧ (getPort t k).lit = (getPort s k).lit ∧ ∀ m, m < n →
      wired (ownIndex s) k m seen (getChan s k m) (getChan t k m) (bit (getPort t k).failed m) := by
  have hlt : ∀ m ∈ List.range n, m < 64 := fun m hm => Nat.lt_of_lt_of_le (List.mem_range.mp hm) hn
  obtain ⟨⟨honly, hlit⟩, hin, -⟩ := foldl_view (view := chanView k) (step := wireChan seen k)
    (inv := fun t => PortOnly k s t ∧ (getPort t k).lit = (getPort s k).lit)
    (rel := fun m c d => wired (ownIndex s) k m seen c.chan d.chan d.failed) (ms := List.range n) (s := s)
    List.nodup_range ⟨.refl s, rfl⟩
    (fun t m hm ht => by
      obtain ⟨h1, h2, -, -⟩ := wireChan_spec t k seen (hlt m hm)
      exact ⟨ht.1.trans h1, h2.trans ht.2⟩)
    (fun t m j hm _ hj => (wireChan_spec t k seen (hlt m hm)).2.2.1 j hj)
    (fun t m hm ht => by
      obtain ⟨-, -, -, h4⟩ := wireChan_spec t k seen (hlt m hm)
      rw [ht.1.ownIndex] at h4
      exact h4)
  exact ⟨honly, hlit, fun m hm => hin m (List.mem_range.mpr hm)⟩

/-- Quiesced channels come up with their sequence state; the others stay. -/
theorem bringUpAll_spec (s : State) (k : Nat) {ms : List Nat} (hnodup : ms.Nodup)
    (hq : ∀ m ∈ ms, (getChan s k m).state = .quiesced) :
    let t := ms.foldl (fun s m => bringUp s k m) s
    PortOnly k s t ∧ (∀ m ∈ ms, (getChan t k m).state = .up ∧ (getChan t k m).txSeq = (getChan s k m).txSeq ∧
      (getChan t k m).resend = (getChan s k m).unacked) ∧ ∀ m, m ∉ ms → getChan t k m = getChan s k m := by
  obtain ⟨honly, hin, hout⟩ := foldl_view (view := chanView k) (step := fun s m => bringUp s k m)
    (inv := fun t => PortOnly k s t)
    (rel := fun _ c d => c.chan.state = .quiesced → d.chan.state = .up ∧ d.chan.txSeq = c.chan.txSeq ∧
      d.chan.resend = c.chan.unacked) (s := s) hnodup (.refl s)
    (fun t m _ ht => ht.trans (bringUp_view t k m).1) (fun t m j _ _ hj => (bringUp_view t k m).2.2.2 j hj)
    (fun t m _ _ hc => by
      obtain ⟨-, -, hchan, -⟩ := bringUp_view t k m
      show (getChan (bringUp t k m) k m).state = _ ∧ (getChan (bringUp t k m) k m).txSeq = _ ∧
        (getChan (bringUp t k m) k m).resend = _
      rw [hchan, getChan_emitTraining, raiseChan, if_pos (by exact hc)]
      exact ⟨rfl, rfl, rfl⟩)
  exact ⟨honly, fun m hm => hin m hm (hq m hm), fun m hm => congrArg ChanView.chan (hout m hm)⟩

/-! ### The laser input (R506, R705) -/

theorem laserGood_iff (powers : List Nat) : laserGood powers = true ↔ powers.length = 64 ∧
    (∀ x ∈ powers, 10 ^ 33 ≤ x ^ 5 ∧ x ^ 5 ≤ 10 ^ 36) ∧ powers.sum ≤ 10 ^ 9 := by
  simp only [laserGood, lineOk, Bool.and_eq_true, beq_iff_eq, List.all_eq_true, decide_eq_true_eq, and_assoc]

/-- Reading a table whose entries have changed by a rule that keeps their keys, and the default. -/
theorem tget_map {α : Type} {d : α} {g : Nat → α → α} {i : Nat} (hd : g i d = d) (t : Tbl α) :
    tget d (t.map (fun x => (x.1, g x.1 x.2))) i = g i (tget d t i) := by
  induction t with
  | nil => exact hd.symm
  | cons x t ih =>
    rw [List.map_cons, tget, tget, ih]
    split
    · next h => rw [h]
    · rfl

/-- A port that goes dark. -/
theorem darken_spec (s : State) (k : Nat) : PortOnly k s (darken s k) ∧
    (getPort (darken s k) k).laserOk = (getPort s k).laserOk ∧ (getPort (darken s k) k).lit = false ∧
    (getPort (darken s k) k).retrain = 0 ∧ ∀ m, getChan (darken s k) k m = darkChan (getChan s k m) := by
  refine ⟨.modPort .., ?_, ?_, ?_, fun m => ?_⟩
  · rw [darken, getPort_modPort_same]
  · rw [darken, getPort_modPort_same]
  · rw [darken, getPort_modPort_same]
  · rw [getChan, darken, getPort_modPort_same]
    exact tget_map (g := fun _ => darkChan) (i := m) rfl (getPort s k).chans

/-! ### PORT_RETRAIN (R499) -/

/-- One bit of a write of PORT_RETRAIN. -/
def retrainBit (k : Nat) (value : Dword) (s : State) (m : Nat) : State :=
  if bit value m && (getChan s k m).state == .failed then
    startRetrain (modPort s k (fun p => { p with failed := setBits p.failed m 1 0, retrain := setBits p.retrain m 1 1 })) k m
  else s

theorem retrainWrite_eq (s : State) (k : Nat) (value : Dword) :
    retrainWrite s k value = (List.range 64).foldl (retrainBit k value) s := rfl

/-- What a write of PORT_RETRAIN makes of one channel. -/
def retrainedBy (value : Dword) (m : Nat) (c d : ChanView) : Prop :=
  (bit value m = true → c.chan.state = .failed → d.chan.state = .retraining ∧ d.failed = false ∧ d.retrain = true ∧
    d.chan.txSeq = c.chan.txSeq ∧ d.chan.rxSeq = c.chan.rxSeq) ∧
  (bit value m = false ∨ c.chan.state ≠ .failed → d.chan = c.chan)

theorem retrainBit_spec (s : State) (k : Nat) (value : Dword) {m : Nat} (hm : m < 64) :
    PortOnly k s (retrainBit k value s m) ∧ (∀ n, n ≠ m → chanView k (retrainBit k value s m) n = chanView k s n) ∧
      retrainedBy value m (chanView k s m) (chanView k (retrainBit k value s m) m) := by
  unfold retrainBit
  by_cases h : bit value m = true ∧ (getChan s k m).state = .failed
  · rw [if_pos (by simpa using h)]
    refine ⟨(PortOnly.modPort ..).trans (.startRetrain ..), fun n hn => ?_, fun _ _ => ?_, fun hno => ?_⟩
    · rw [startRetrain, bumpPort, chanView_modPort, chanView_modChan, if_neg hn, chanView_modPort]
      · exact fun _ => rfl
      · exact fun p => bit_setBits_apart p.failed 0 hn
      · exact fun p => bit_setBits_apart p.retrain 1 hn
      · exact fun _ => rfl
      · exact fun _ => rfl
      · exact fun _ => rfl
    · rw [startRetrain, bumpPort, chanView_modPort (by exact fun _ => rfl) (by exact fun _ => rfl) (by exact fun _ => rfl),
        chanView_modChan, if_pos rfl, getChan_modPort (by exact fun _ => rfl)]
      unfold chanView
      dsimp only
      rw [getPort_modPort_same]
      exact ⟨rfl, bit_setBits_at _ 0 hm, bit_setBits_at _ 1 hm, rfl, rfl⟩
    · obtain hno | hno := hno
      · exact absurd (hno.symm.trans h.1) Bool.false_ne_true
      · exact absurd h.2 hno
  · rw [if_neg (by simpa using h)]
    exact ⟨.refl s, fun _ _ => rfl, fun hb hc => absurd ⟨hb, hc⟩ h, fun _ => rfl⟩

theorem retrainWrite_spec (s : State) (k : Nat) (value : Dword) :
    PortOnly k s (retrainWrite s k value) ∧
      ∀ m, m < 64 → retrainedBy value m (chanView k s m) (chanView k (retrainWrite s k value) m) := by
  obtain ⟨honly, hin, -⟩ := foldl_view (view := chanView k) (step := retrainBit k value) (inv := fun t => PortOnly k s t)
    (rel := retrainedBy value) (ms := List.range 64) (s := s) List.nodup_range (.refl s)
    (fun t m hm ht => ht.trans (retrainBit_spec t k value (List.mem_range.mp hm)).1)
    (fun t m j hm _ hj => (retrainBit_spec t k value (List.mem_range.mp hm)).2.1 j hj)
    (fun t m hm _ => (retrainBit_spec t k value (List.mem_range.mp hm)).2.2)
  exact ⟨honly, fun m hm => hin m (List.mem_range.mpr hm)⟩

/-! ### PORT_FABRIC (R481, R509, R537) -/

theorem clampN_legal {n : Nat} : clampN n = 1 ∨ (clampN n % 8 = 0 ∧ 8 ≤ clampN n ∧ clampN n ≤ 64) := by
  unfold clampN
  split
  · exact .inl rfl
  · refine .inr ?_
    have h8 : 64 % 8 = 0 := rfl
    omega

/-- PORT_FABRIC as a write stores it. -/
def fabricStored (value : Word) : Word :=
  BitVec.ofNat 32 (clampN (bits value 0 7) + min (bits value 8 6) (clampN (bits value 0 7) - 1) * 2 ^ 8)

theorem fabricStored_fields (value : Word) : bits (fabricStored value) 0 7 = clampN (bits value 0 7) ∧
    bits (fabricStored value) 8 6 = min (bits value 8 6) (clampN (bits value 0 7) - 1) := by
  have hn : clampN (bits value 0 7) ≤ 64 := by
    obtain h | ⟨-, -, h⟩ := clampN_legal (n := bits value 0 7)
    · omega
    · exact h
  unfold fabricStored
  have hi : min (bits value 8 6) (clampN (bits value 0 7) - 1) < 64 := by omega
  generalize clampN (bits value 0 7) = n at *
  generalize min (bits value 8 6) (n - 1) = i at *
  unfold bits
  rw [BitVec.toNat_ofNat, Nat.shiftRight_eq_div_pow, Nat.shiftRight_eq_div_pow]
  omega

/-- Ports changed one by one. -/
theorem foldl_ports {s : State} {step : State → Nat → State} {rel : Port → Port → Prop} {inv : State → Prop} (hs : inv s)
    (hstep : ∀ t j, inv t → inv (step t j) ∧ PortOnly j t (step t j) ∧ rel (getPort t j) (getPort (step t j) j)) :
    let t := (List.range 8).foldl step s
    inv t ∧ t.cores = s.cores ∧ t.fabric = s.fabric ∧ ∀ j, j < 8 → rel (getPort s j) (getPort t j) := by
  obtain ⟨⟨hi, hcores, hfabric⟩, hin, -⟩ := foldl_view (view := getPort) (step := step)
    (inv := fun t => inv t ∧ t.cores = s.cores ∧ t.fabric = s.fabric) (rel := fun _ => rel) (ms := List.range 8) (s := s)
    List.nodup_range ⟨hs, rfl, rfl⟩
    (fun t j _ ht => by
      obtain ⟨h1, h2, -⟩ := hstep t j ht.1
      exact ⟨h1, h2.cores.trans ht.2.1, h2.fabric.trans ht.2.2⟩)
    (fun t j i _ ht hi => (hstep t j ht.1).2.1.others i hi)
    (fun t j _ ht => (hstep t j ht.1).2.2)
  exact ⟨hi, hcores, hfabric, fun j hj => hin j (List.mem_range.mpr hj)⟩

/-- A channel whose wavelength is no longer modulated (R481). -/
def droppedChan (n m : Nat) (c : Chan) : Chan := if n ≤ m ∧ c.state ≠ .failed ∧ c.state ≠ .quiesced then {} else c

theorem dropBeyond_spec (s : State) (j : Nat) : PortOnly j s (dropBeyond s j) ∧ (dropBeyond s j).parts = s.parts ∧
    (getPort (dropBeyond s j) j).lit = (getPort s j).lit ∧
    ∀ m, tget {} (getPort (dropBeyond s j) j).chans m = droppedChan (fabricN s) m (tget {} (getPort s j).chans m) := by
  refine ⟨?_, rfl, ?_, fun m => ?_⟩
  · unfold dropBeyond
    exact .modPort ..
  · rw [dropBeyond, getPort_modPort_same]
  · rw [dropBeyond, getPort_modPort_same]
    refine Eq.trans ?_ (tget_map (g := droppedChan (fabricN s)) (i := m) ?_ (getPort s j).chans)
    · refine congrArg (fun t => tget ({} : Chan) t m) (List.map_congr_left fun x _ => ?_)
      unfold droppedChan
      split <;> rfl
    · unfold droppedChan
      rw [ite_self]

/-- A write of PORT_FABRIC: the wavelengths beyond N go down, and with N of 1 every port is dark. -/
theorem fabricWrite_spec {s : State} (value : Word) (h : s.parts.all (fun x => x.ctx == .empty) = true) :
    let t := fabricWrite s value
    let n := clampN (bits value 0 7)
    t.fabric = fabricStored value ∧ t.cores = s.cores ∧ t.parts = s.parts ∧ ∀ j, j < 8 →
      (n = 1 → (getPort t j).lit = false) ∧
      (n ≠ 1 → (getPort t j).lit = (getPort s j).lit ∧ ∀ m, getChan t j m = droppedChan n m (getChan s j m)) := by
  have hstored : fabricWrite s value = (List.range 8).foldl dropBeyond (if clampN (bits value 0 7) = 1 then
      (List.range 8).foldl darken { s with fabric := fabricStored value } else { s with fabric := fabricStored value }) :=
    if_pos h
  have hdark := foldl_ports (step := darken) (inv := fun t => t.parts = s.parts) (rel := fun _ q => q.lit = false)
    (s := { s with fabric := fabricStored value }) rfl (fun t j ht => by
      obtain ⟨h1, -, h3, -⟩ := darken_spec t j
      exact ⟨ht, h1, h3⟩)
  obtain ⟨hfield, -⟩ := fabricStored_fields value
  have hdrop : ∀ u : State, u.fabric = fabricStored value → u.parts = s.parts → _ := fun u hu hparts =>
    foldl_ports (step := dropBeyond) (inv := fun t => t.parts = s.parts ∧ t.fabric = fabricStored value)
      (rel := fun p q => q.lit = p.lit ∧
        ∀ m, tget {} q.chans m = droppedChan (clampN (bits value 0 7)) m (tget {} p.chans m)) (s := u) ⟨hparts, hu⟩
      (fun t j ht => by
        obtain ⟨h1, h2, h3, h4⟩ := dropBeyond_spec t j
        rw [fabricN, ht.2, hfield] at h4
        exact ⟨⟨h2.trans ht.1, h1.fabric.trans ht.2⟩, h1, h3, h4⟩)
  dsimp only at hdark ⊢
  rw [hstored]
  by_cases hn : clampN (bits value 0 7) = 1
  · obtain ⟨hparts, hcores, hfabric, hports⟩ := hdark
    rw [if_pos hn]
    obtain ⟨⟨hparts', -⟩, hcores', hfabric', hports'⟩ := hdrop _ hfabric hparts
    refine ⟨hfabric'.trans hfabric, hcores'.trans hcores, hparts', fun j hj => ⟨fun _ => ?_, fun h => absurd hn h⟩⟩
    exact ((hports' j hj).1).trans (hports j hj)
  · rw [if_neg hn]
    obtain ⟨⟨hparts, -⟩, hcores, hfabric, hports⟩ := hdrop { s with fabric := fabricStored value } rfl rfl
    exact ⟨hfabric, hcores, hparts, fun j hj => ⟨fun h => absurd h hn, fun _ => hports j hj⟩⟩

/-- Settles O48: ports step their tracking, light after their wiring check, follow their laser input, and take the writes
of PORT_RETRAIN and PORT_FABRIC. -/
theorem portsCalibrateAndLight : Obligations.PortsCalibrateAndLight := by
  unfold Obligations.PortsCalibrateAndLight
  intro port s
  dsimp only
  have hothers : ∀ {t : State}, PortOnly port.val s t →
      (∀ j, j ≠ port.val → getPort t j = getPort s j) ∧ t.cores = s.cores ∧ t.lpddr = s.lpddr :=
    fun h => ⟨h.others, h.cores, h.lpddr⟩
  refine ⟨?tracks, fun hlit => if_neg (fun h => Bool.false_ne_true (hlit.symm.trans h.1)), fun seen h => bringUp_dark seen h,
    ?held, ?lights, ?returns, ?laser, ?retrain, ?fabric, fun value h => ?still⟩
  case tracks =>
    intro hlit hdue
    have htracked : PortOnly port.val s (trackedPort s port.val) := .modPort ..
    have hchan : ∀ m, getChan (trackedPort s port.val) port.val m = getChan s port.val m := fun m => by
      rw [trackedPort, getChan_modPort (by exact fun _ => rfl)]
    refine ⟨_, trackingStep_due hlit hdue, ?_⟩
    by_cases hskip : skipsTracking (getChan s port.val (getPort s port.val).calNext) = true
    · rw [if_pos hskip]
      refine ⟨hothers htracked, ?_, ?_, fun m _ => hchan m, fun _ => ⟨?_, hchan _⟩, fun h => ?_⟩
      · rw [trackedPort, getPort_modPort_same]
      · rw [trackedPort, getPort_modPort_same]
      · rw [trackedPort, getPort_modPort_same]
      · exact absurd (hskip.symm.trans h) Bool.true_eq_false.mp
    · rw [if_neg hskip]
      have hport : ∀ {α : Type} (g : Port → α), (∀ p c, g { p with chans := c } = g p) →
          (∀ p c, g { p with counters := c } = g p) → g (getPort (bumpPort (trackChan (trackedPort s port.val) port.val
            (getPort s port.val).calNext) port.val portCalSteps 1) port.val) = g (getPort (trackedPort s port.val) port.val) := by
        intro α g hchans hcounters
        rw [bumpPort, getPort_modPort_same, hcounters, trackChan, modChan, getPort_modPort_same, hchans]
      refine ⟨hothers ((htracked.trans (.modChan ..)).trans (.modPort ..)), ?_, ?_, fun m hm => ?_, fun h => absurd h hskip,
        fun _ => ?_⟩
      · rw [hport Port.calNext (fun _ _ => rfl) (fun _ _ => rfl), trackedPort, getPort_modPort_same]
      · rw [hport Port.calAt (fun _ _ => rfl) (fun _ _ => rfl), trackedPort, getPort_modPort_same]
      · rw [getChan_bumpPort, trackChan, getChan_modChan, if_neg (fun h => hm h.2), hchan]
      · rw [getChan_bumpPort, trackChan_spec, hchan, counters_bumpPort, trackChan, counters_modChan, trackedPort,
          getPort_modPort_same]
        exact ⟨rfl, rfl, Nat.le_add_right .., Nat.add_le_add_left (Nat.min_le_left ..) _⟩
  case held =>
    intro seen hmay hlit hheld hending
    exact ⟨_, bringUp_held hmay seen hlit hheld hending, hothers (.modPort ..), by rw [getPort_modPort_same]⟩
  case lights =>
    intro seen hmay hheld hlit hn
    obtain ⟨honly, hlit', hwired⟩ := wireAll_spec (litPort s port.val) port.val seen hn
    have hlitPort : PortOnly port.val s (litPort s port.val) := .modPort ..
    refine ⟨_, bringUp_lights hmay seen hlit hheld, hothers (hlitPort.trans honly), ?_, fun m hm => ?_⟩
    · refine Eq.trans hlit' ?_
      rw [litPort, getPort_modPort_same]
    · obtain ⟨h1, h2, h3, h4⟩ := hwired m hm
      rw [litPort, getChan_modPort (by exact fun _ => rfl)] at h1 h2 h3 h4
      exact ⟨trained_iff .., h1, h2, h3, h4⟩
  case returns =>
    intro seen hmay hlit hn
    obtain ⟨honly, hin, hout⟩ := bringUpAll_spec s port.val (ms := returning s port.val seen) (List.nodup_range.filter _)
      (fun m hm => by
        obtain ⟨-, h⟩ := List.mem_filter.mp hm
        exact (by simpa using h : _ ∧ _).1)
    refine ⟨_, bringUp_lit hmay seen hlit, hothers honly, fun m => ⟨fun hm hq htr => hin m ?_, fun h => hout m ?_⟩⟩
    · exact List.mem_filter.mpr ⟨List.mem_range.mpr hm, by simp [hq, htr]⟩
    · intro hm
      obtain ⟨-, hr⟩ := List.mem_filter.mp hm
      obtain ⟨hq, htr⟩ : (getChan s port.val m).state = .quiesced ∧ trained (ownIndex s) port.val m seen = true := by
        simpa using hr
      obtain h | h := h
      · exact h hq
      · exact Bool.false_ne_true (h.symm.trans htr)
  case laser =>
    intro powers
    refine ⟨fun h => ?_, fun h => ?_⟩
    · have hgood := (laserGood_iff powers).mpr h
      refine ⟨modPort s port.val (fun p => { p with laserOk := true }), ?_, hothers (.modPort ..), by
        rw [getPort_modPort_same]⟩
      show execLaserInputChange port powers s = _
      rw [execLaserInputChange, hgood]
      rfl
    · have hbad : laserGood powers = false := by
        rw [← Bool.not_eq_true]
        exact fun hgood => h ((laserGood_iff powers).mp hgood)
      obtain ⟨honly, hok, hlit, hretrain, hchans⟩ :=
        darken_spec (modPort s port.val (fun p => { p with laserOk := false })) port.val
      refine ⟨darken (modPort s port.val (fun p => { p with laserOk := false })) port.val, ?_,
        hothers ((PortOnly.modPort ..).trans honly), ?_, hlit, hretrain, fun m => ?_⟩
      · show execLaserInputChange port powers s = _
        rw [execLaserInputChange, hbad]
        rfl
      · rw [hok, getPort_modPort_same]
      · rw [hchans, getChan_modPort (by exact fun _ => rfl), darkChan]
  case retrain =>
    intro value
    obtain ⟨honly, hchans⟩ := retrainWrite_spec s port.val value
    refine ⟨_, rfl, hothers honly, fun m hm => ?_⟩
    obtain ⟨h1, h2⟩ := hchans m hm
    exact ⟨h1, h2⟩
  case fabric =>
    intro value h
    obtain ⟨hfabric, hcores, hparts, hports⟩ := fabricWrite_spec value h
    obtain ⟨hn, hi⟩ := fabricStored_fields value
    have hN : fabricN (fabricWrite s value) = clampN (bits value 0 7) := by rw [fabricN, hfabric, hn]
    refine ⟨_, rfl, hN, ?_, ?_, fun h1 j hj => ?_, fun h1 j hj => ?_, hcores, hparts⟩
    · rw [hN, ownIndex, hfabric, hi]
    · rw [hN]
      exact clampN_legal
    · exact (hports j hj).1 (hN ▸ h1)
    · rw [hN] at h1 ⊢
      obtain ⟨hlit, hchans⟩ := (hports j hj).2 (by omega)
      refine ⟨hlit, fun m hm => ?_, fun m hm hf hq => ?_⟩
      · rw [hchans, droppedChan, if_neg (fun h => by omega)]
      · rw [hchans, droppedChan, if_pos ⟨hm, hf, hq⟩]
  case still => exact congrArg _ (if_neg (by rw [h]; exact Bool.false_ne_true))

end Sys2Proof.Machine
end

section
/-! Results that land (R82, R246, R290, R364, R405): what the landing of one result leaves of every core, and a core whose
only result is due. -/

namespace Sys2Proof.Machine

/-! ### The frame of a core under a landing -/

/-- A core after results have landed: the results in flight, the engines' sets but a flag, the queues and what only issue
or the cycle changes are as before; the tun and its check states may differ where `b` says so. -/
def coreLanded (b : Bool) (c d : Core) : Prop :=
  d = { c with
    regs := d.regs, spare := d.spare, f := d.f, b := d.b, u := d.u, store := d.store, storeChk := d.storeChk
    tun := if b then d.tun else c.tun, tunChk := if b then d.tunChk else c.tunChk, desc := d.desc, verdicts := d.verdicts
    beam := { c.beam with stNonfin := d.beam.stNonfin }, sfuEntry := d.sfuEntry, sfuConfig := d.sfuConfig
    params := d.params, selv := d.selv, jnlHash := d.jnlHash, counters := d.counters }

section CoreLanded
variable {b : Bool} {c d e : Core}

theorem coreLanded_refl (b : Bool) (c : Core) : coreLanded b c c := by
  cases b <;> rfl

theorem coreLanded_trans (h : coreLanded b c d) (g : coreLanded b d e) : coreLanded b c e := by
  unfold coreLanded at *
  cases b <;> (rw [g, h]; rfl)

theorem coreLanded_wide (h : coreLanded false c d) (b : Bool) : coreLanded b c d := by
  unfold coreLanded at *
  cases b <;> (rw [h]; rfl)

theorem coreLanded_any (h : coreLanded b c d) : coreLanded true c d := by
  cases b with
  | false => exact coreLanded_wide h true
  | true => exact h

theorem coreLanded_flight (h : coreLanded b c d) : d.flight = c.flight := by rw [h]
theorem coreLanded_tun (h : coreLanded false c d) : d.tun = c.tun := by rw [h]; rfl

theorem coreLanded_replaceUnits (c : Core) (tun : Bool) (us : List Nat) : coreLanded false c (replaceUnits c tun us) := by
  unfold replaceUnits
  split <;> rfl

theorem coreLanded_storeElems (c : Core) (xs : List Poke) (k : Chk) : coreLanded false c (storeElems c xs k) := by
  unfold storeElems
  split
  · rfl
  · exact coreLanded_trans (coreLanded_replaceUnits c false (pokeUnits xs)) rfl

theorem coreLanded_tunPokes (c : Core) (xs : List Poke) (k : Chk) : coreLanded true c (tunPokes c xs k) :=
  coreLanded_trans (coreLanded_wide (coreLanded_replaceUnits c true (pokeUnits xs)) true) rfl

theorem coreLanded_accumElems (c : Core) (tun : Bool) (adds : List (Nat × Exact)) (ov : Bool) (chk : Chk) (beam : Bool) :
    coreLanded tun c (accumElems c tun adds ov chk beam) := by
  unfold accumElems
  extract_lets units d r e
  have hd : coreLanded tun c d := coreLanded_wide (coreLanded_replaceUnits c tun units) tun
  have he : coreLanded tun d e := by
    unfold e
    cases tun <;> rfl
  split
  · exact coreLanded_trans (coreLanded_trans hd he) (coreLanded_wide (by exact rfl) tun)
  · exact coreLanded_trans hd he

theorem coreLanded_modSh (c : Core) (sh : Shuttle) (g : Sh → Sh) : coreLanded false c (modSh c sh g) := by
  cases sh <;> rfl

end CoreLanded

/-! ### Quadrants of a partition -/

theorem foldl_keeps {α β : Type} {g : State → β} {f : State → α → State} (hf : ∀ t x, g (f t x) = g t) (l : List α)
    (s : State) : g (l.foldl f s) = g s := by
  induction l generalizing s with
  | nil => rfl
  | cons x l ih => exact (ih _).trans (hf s x)

theorem cores_modPartQuads (s : State) (p : Part) (g : Quad → Quad) : (modPartQuads s p g).cores = s.cores :=
  foldl_keeps (g := State.cores) (f := fun t q => modQuad t q g) (fun _ _ => rfl) _ s

theorem nodup_partQuads (p : Part) : (partQuads p).Nodup :=
  List.Nodup.map (fun i j (h : p.low + i = p.low + j) => by omega) List.nodup_range

/-- A change of a partition's quadrants reaches each of them once. -/
theorem getQuad_modPartQuads (s : State) (p : Part) (g : Quad → Quad) {q : Nat} (hq : q ∈ partQuads p) :
    getQuad (modPartQuads s p g) q = g (getQuad s q) :=
  (foldl_view (view := getQuad) (step := fun t q => modQuad t q g) (inv := fun _ => True) (rel := fun _ x y => y = g x)
    (nodup_partQuads p) trivial (fun _ _ _ _ => trivial) (fun t m n _ _ h => by rw [getQuad_modQuad, if_neg h])
    (fun t m _ _ => getQuad_modQuad_same ..)).2.1 q hq

/-- Every core of a state after results have landed. -/
def coresLanded (b : Bool) (s t : State) : Prop := ∀ n, coreLanded b (getCore s n) (getCore t n)

theorem coresLanded_refl (b : Bool) (s : State) : coresLanded b s s := fun _ => coreLanded_refl b _

theorem coresLanded_trans {b : Bool} {s t u : State} (h : coresLanded b s t) (g : coresLanded b t u) : coresLanded b s u :=
  fun m => coreLanded_trans (h m) (g m)

theorem coresLanded_modCore {b : Bool} {s : State} {n : Nat} {g : Core → Core} (hg : ∀ c, coreLanded b c (g c)) :
    coresLanded b s (modCore s n g) := by
  intro m
  rw [getCore_modCore]
  split
  · next h => rw [h]; exact hg _
  · exact coreLanded_refl b _

theorem coresLanded_cores {b : Bool} {s t : State} (h : t.cores = s.cores) : coresLanded b s t := by
  intro m
  rw [getCore, getCore, h]
  exact coreLanded_refl b _

theorem coresLanded_setRegs {b : Bool} (s : State) (n : Nat) (r : RegFile) : coresLanded b s (setRegs s n r) := by
  unfold setRegs
  split <;> exact coresLanded_modCore (fun c => coreLanded_wide (by exact rfl) b)

theorem coresLanded_doneAccess {b : Bool} (n : Nat) (f : Flight) (s : State) : coresLanded b s (doneAccess n f s) := by
  unfold doneAccess
  split
  · exact coresLanded_modCore (fun c => coreLanded_wide (coreLanded_modSh ..) b)
  · exact coresLanded_refl b s

/-- The cores once the events of a selvedge run have been counted. -/
theorem getCore_selvEvents (ev : List (Nat × Nat)) (s : State) (n : Nat) (sh : Nat) (pc : Word) (m : Nat) :
    ∃ k, getCore (ev.foldl (fun s x => record (bumpCore s n ctrSelvMismatch 1)
        { coreRec x.1 n x.2 with shuttle := sh, opcode := 0x81, pc := pc }) s) m = { getCore s m with counters := k } ∧
      (m = n → tget 0 k ctrSelvMismatch = tget 0 (getCore s m).counters ctrSelvMismatch + BitVec.ofNat 64 ev.length) := by
  induction ev generalizing s with
  | nil => exact ⟨(getCore s m).counters, rfl, fun _ => (BitVec.add_zero _).symm⟩
  | cons x ev ih =>
    have hone : getCore (record (bumpCore s n ctrSelvMismatch 1)
        { coreRec x.1 n x.2 with shuttle := sh, opcode := 0x81, pc := pc }) m =
          if m = n then { getCore s m with counters := bumpTbl (getCore s m).counters ctrSelvMismatch 1 }
          else getCore s m := by
      rw [getCore_record, bumpCore, getCore_modCore]
      split
      · next h => rw [h]
      · rfl
    obtain ⟨k, hk, hcount⟩ := ih (record (bumpCore s n ctrSelvMismatch 1)
      { coreRec x.1 n x.2 with shuttle := sh, opcode := 0x81, pc := pc })
    rw [hone] at hk hcount
    refine ⟨k, ?_, fun hm => ?_⟩
    · rw [List.foldl_cons, hk]
      split <;> rfl
    · rw [hcount hm, if_pos hm, bumpTbl, tget_tset_same, BitVec.add_assoc, ← BitVec.ofNat_add, List.length_cons,
        Nat.add_comm]

/-- A core on which the outcome of a selvedge run has landed. -/
def selvLanded (r : Dword) (ev : List (Nat × Nat)) (e : List Poke) (chk : Chk) (t : Option Byte) (c : Core) : Core :=
  { storeElems c e chk with selv := { (storeElems c e chk).selv with
      result := r, lastMismatch := !ev.isEmpty, tally := t.getD (storeElems c e chk).selv.tally } }

/-- The cores after a selvedge run has landed: its outcome, and a count of each event. -/
theorem getCore_landSelv (s : State) (n : Nat) (sh : Shuttle) (pc : Word) (r : Dword) (ev : List (Nat × Nat)) (e : List Poke)
    (chk : Chk) (t : Option Byte) (m : Nat) :
    ∃ k, getCore (landSelv s n sh pc r ev e chk t) m =
        { getCore (modCore s n (selvLanded r ev e chk t)) m with counters := k } ∧
      (m = n → tget 0 k ctrSelvMismatch =
        tget 0 (getCore (modCore s n (selvLanded r ev e chk t)) m).counters ctrSelvMismatch + BitVec.ofNat 64 ev.length) :=
  getCore_selvEvents ev (modCore s n (selvLanded r ev e chk t)) n (shIdx sh) pc m

theorem coresLanded_landSelv {b : Bool} (s : State) (n : Nat) (sh : Shuttle) (pc : Word) (r : Dword) (ev : List (Nat × Nat))
    (e : List Poke) (chk : Chk) (t : Option Byte) : coresLanded b s (landSelv s n sh pc r ev e chk t) := by
  have hselv : coresLanded b s (modCore s n (selvLanded r ev e chk t)) := coresLanded_modCore fun c =>
    coreLanded_wide (coreLanded_trans (coreLanded_storeElems c e chk) (by exact rfl)) b
  refine coresLanded_trans hselv (fun m => ?_)
  obtain ⟨k, hk, -⟩ := getCore_landSelv s n sh pc r ev e chk t m
  rw [hk]
  exact coreLanded_wide (by exact rfl) b

/-- One result that lands leaves the results in flight of every core; one that is none of the tun's leaves every tun. -/
theorem coresLanded_landOne (s : State) (n : Nat) (f : Flight) : coresLanded (isTun f) s (landOne s n f) := by
  have hverdict : ∀ {b : Bool} t, coresLanded b t (landVerdict t n f.verdict) := by
    intro b t
    unfold landVerdict
    split
    · exact coresLanded_refl _ t
    · exact coresLanded_modCore (fun c => coreLanded_wide (by exact rfl) _)
  refine coresLanded_trans ?_ (hverdict _)
  have hdone {b : Bool} {t : State} (h : coresLanded b s t) : coresLanded b s (doneAccess n f t) :=
    coresLanded_trans h (coresLanded_doneAccess n f t)
  have hmod {b : Bool} {t : State} {g : Core → Core} (hg : ∀ c, coreLanded false c (g c)) : coresLanded b t (modCore t n g) :=
    coresLanded_modCore (fun c => coreLanded_wide (hg c) b)
  generalize hb : isTun f = b
  unfold isTun at hb
  generalize f.effect = eff at hb ⊢
  cases eff with
  | nothing => exact hdone (coresLanded_refl _ s)
  | reg sp v => exact hdone (coresLanded_setRegs _ _ _)
  | desc k d => exact hdone (hmod fun c => rfl)
  | store e chk => exact hdone (hmod fun c => coreLanded_storeElems c e chk)
  | tunStore e chk back =>
    subst hb
    exact hdone (coresLanded_modCore fun c => coreLanded_trans (coreLanded_tunPokes c e chk)
      (coreLanded_wide (coreLanded_storeElems ..) _))
  | accum m a t chk back beam =>
    subst hb
    refine hdone (coresLanded_trans ?_ (coresLanded_modCore fun c => coreLanded_trans (coreLanded_accumElems c m a t chk beam)
      (coreLanded_wide (coreLanded_storeElems ..) _)))
    exact coresLanded_cores (by split <;> rfl)
  | chain target e chk sem =>
    exact coresLanded_trans (coresLanded_modCore fun c => coreLanded_wide (coreLanded_storeElems c e chk) _)
      (coresLanded_cores rfl)
  | sfuEntries tb first es => exact hdone (hmod fun c => rfl)
  | sfuConfig tb lo inv => exact hdone (hmod fun c => rfl)
  | paramSlot k b => exact hdone (hmod fun c => rfl)
  | selvCfg fn imm => exact hdone (hmod fun c => rfl)
  | selv pc r ev e chk t => exact hdone (coresLanded_landSelv _ _ _ _ _ _ _ _ _)
  | jnlFold bs => exact hdone (hmod fun c => rfl)
  | commit e =>
    refine hdone (coresLanded_trans (hmod fun c => coreLanded_storeElems c e .clear) ?_)
    split
    · exact coresLanded_cores (cores_modPartQuads ..)
    · exact coresLanded_refl _ _

theorem coresLanded_landOnes {n : Nat} (fs : List Flight) (s : State) :
    coresLanded true s (fs.foldl (fun t f => landOne t n f) s) := by
  induction fs generalizing s with
  | nil => exact coresLanded_refl _ s
  | cons f fs ih => exact coresLanded_trans (fun m => coreLanded_any (coresLanded_landOne s n f m)) (ih _)

end Sys2Proof.Machine
end

section
/-! A core whose results are due, and the obligation on results that land. -/

namespace Sys2Proof.Machine

/-! ### A core as its results are taken out -/

/-- A core whose results in flight are reduced, with the engines' operations settled. -/
def takenCore (fl : List Flight) (c : Core) : Core :=
  { c with flight := fl, beam := settleMul c.cycle c.beam, heddle := settleMul c.cycle c.heddle }

def taken (s : State) (n : Nat) (fl : List Flight) : State :=
  setCore (noteMarks (noteMarks s n 4 (getCore s n).cycle (getCore s n).beam) n 8 (getCore s n).cycle (getCore s n).heddle) n
    (takenCore fl (getCore s n))

/-- Whether a result lands with RESULT_VISIBLE. -/
def landsNow (c : Core) (f : Flight) : Bool := !isTun f && decide (f.due ≤ c.cycle) && !chainHeld c f

theorem landDue_eq (s : State) (n : Nat) : landDue s n =
    (sortFlights ((getCore s n).flight.filter (landsNow (getCore s n)))).foldl (fun t f => landOne t n f)
      (taken s n ((getCore s n).flight.filter (fun f => !landsNow (getCore s n) f))) := rfl

/-- Marks noted leave all but the note of what the device sets. -/
theorem noteMarks_keeps {β : Type} {g : State → β} (hg : ∀ s a b, g (noteW1c s a b) = g s) (s : State) (n o cycle : Nat)
    (m : Multiplier) : g (noteMarks s n o cycle m) = g s := by
  have hif : ∀ (b : Bool) (s : State) (a k : Nat), g (if b then noteW1c s a k else s) = g s := by
    intro b s a k
    cases b with
    | false => rfl
    | true => exact hg s a k
  refine foldl_keeps (g := g) (fun t x => ?_) _ s
  dsimp only
  rw [hif, hif, hif]

theorem getCore_taken (s : State) (n m : Nat) (fl : List Flight) :
    getCore (taken s n fl) m = if m = n then takenCore fl (getCore s n) else getCore s m := by
  have hcores : ∀ t : State, ∀ o cycle x, (noteMarks t n o cycle x).cores = t.cores := fun t o cycle x =>
    noteMarks_keeps (g := State.cores) (fun _ _ _ => rfl) t n o cycle x
  rw [taken, getCore_setCore]
  split
  · rfl
  · rw [getCore, hcores, hcores, ← getCore]

theorem getCore_taken_same (s : State) (n : Nat) (fl : List Flight) :
    getCore (taken s n fl) n = takenCore fl (getCore s n) := by rw [getCore_taken, if_pos rfl]

theorem getCore_taken_other (s : State) {n m : Nat} (fl : List Flight) (h : m ≠ n) :
    getCore (taken s n fl) m = getCore s m := by rw [getCore_taken, if_neg h]

theorem quads_taken (s : State) (n : Nat) (fl : List Flight) : (taken s n fl).quads = s.quads := by
  show (noteMarks _ n 8 _ _).quads = _
  rw [noteMarks_keeps (g := State.quads) (fun _ _ _ => rfl), noteMarks_keeps (g := State.quads) (fun _ _ _ => rfl)]

theorem parts_taken (s : State) (n : Nat) (fl : List Flight) : (taken s n fl).parts = s.parts := by
  show (noteMarks _ n 8 _ _).parts = _
  rw [noteMarks_keeps (g := State.parts) (fun _ _ _ => rfl), noteMarks_keeps (g := State.parts) (fun _ _ _ => rfl)]

theorem runner_taken (s : State) (n m : Nat) (fl : List Flight) : runner (taken s n fl) m = runner s m :=
  runner_of_quads (quads_taken ..) m

theorem getRegs_taken (s : State) (n : Nat) (fl : List Flight) : getRegs (taken s n fl) n = getRegs s n := by
  unfold getRegs
  rw [runner_taken]
  split
  · rw [getCore_taken_same]
    rfl
  · next h => rw [getCore_taken_other s fl h]

/-- What is in flight once results have landed: what was not ready. -/
theorem flight_landDue (s : State) (n : Nat) :
    (getCore (landDue s n) n).flight = (getCore s n).flight.filter (fun f => !landsNow (getCore s n) f) := by
  rw [landDue_eq, coreLanded_flight (coresLanded_landOnes _ _ n), getCore_taken_same]
  rfl

/-! ### A core with one result, which is due -/

section Single
variable {s : State} {n : Nat} {f : Flight} (hf : (getCore s n).flight = [f]) (hdue : f.due ≤ (getCore s n).cycle)
include hf hdue

theorem landDue_one (htun : isTun f = false) (hheld : chainHeld (getCore s n) f = false) :
    landDue s n = landOne (taken s n []) n f := by
  have hnow : landsNow (getCore s n) f = true := by
    rw [landsNow, htun, hheld, decide_eq_true hdue]
    rfl
  rw [landDue_eq, hf, List.filter_cons_of_pos hnow, List.filter_nil, List.filter_cons_of_neg (by rw [hnow]; decide),
    List.filter_nil]
  rfl

theorem landTun_one (htun : isTun f = true) :
    landTun s n = landOne (setCore s n { getCore s n with flight := [] }) n f := by
  unfold landTun
  dsimp only
  rw [hf, List.filter_cons_of_pos htun, List.filter_nil, tunReady, if_pos hdue, tunReady,
    List.filter_cons_of_neg (by rw [htun]; decide), List.filter_nil]
  rfl

end Single

theorem landDue_none {s : State} {n : Nat} (hf : (getCore s n).flight = []) : landDue s n = taken s n [] := by
  rw [landDue_eq, hf]
  rfl

/-- No tun drain lands before the oldest is due. -/
theorem landTun_early {s : State} {n : Nat} {f : Flight} {l : List Flight} (hf : (getCore s n).flight.filter isTun = f :: l)
    (hdue : (getCore s n).cycle < f.due) : landTun s n = setCore s n { getCore s n with
      flight := (getCore s n).flight.filter (fun f => !isTun f) ++ f :: l } := by
  unfold landTun
  dsimp only
  rw [hf, tunReady, if_neg (Nat.not_le.mpr hdue)]
  rfl

theorem landTun_none {s : State} {n : Nat} (hf : (getCore s n).flight = []) :
    landTun s n = setCore s n { getCore s n with flight := [] } := by
  unfold landTun
  dsimp only
  rw [hf]
  rfl

/-! ### One result's landing, by its effect -/

section Effects
variable {s : State} {n : Nat} {f : Flight} (ha : f.access = none) (hv : f.verdict = none)
include ha hv

theorem landOne_desc {k : Nat} {d : BitVec 512} (he : f.effect = .desc k d) :
    landOne s n f = modCore s n (fun c => { c with desc := tset none c.desc k (some d) }) := by
  simp [landOne, he, ha, hv, landVerdict]

theorem landOne_store {e : List Poke} {chk : Chk} (he : f.effect = .store e chk) :
    landOne s n f = modCore s n (fun c => storeElems c e chk) := by
  simp [landOne, he, ha, hv, landVerdict]

theorem landOne_paramSlot {k : Nat} {b : List Byte} (he : f.effect = .paramSlot k b) :
    landOne s n f = modCore s n (fun c => { c with params := tset none c.params k (some b) }) := by
  simp [landOne, he, ha, hv, landVerdict]

theorem landOne_sfuConfig {tb : Nat} {lo inv : Word} (he : f.effect = .sfuConfig tb lo inv) :
    landOne s n f = modCore s n (fun c =>
      { c with sfuConfig := tset 0 c.sfuConfig tb (lo.zeroExtend 64 ||| (inv.zeroExtend 64 <<< 32)) }) := by
  simp [landOne, he, ha, hv, landVerdict]

theorem landOne_sfuEntries {tb first : Nat} {es : List Dword} (he : f.effect = .sfuEntries tb first es) :
    landOne s n f = modCore s n (fun c =>
      { c with sfuEntry := tsetAll 0 c.sfuEntry (es.zipIdx.map (fun x => (1024 * tb + first + x.2, x.1))) }) := by
  simp [landOne, he, ha, hv, landVerdict]

theorem landOne_selvCfg {fn : Nat} {imm : Dword} (he : f.effect = .selvCfg fn imm) :
    landOne s n f = modCore s n (fun c => { c with selv := selvWrite c.selv fn imm }) := by
  simp [landOne, he, ha, hv, landVerdict]

theorem landOne_jnlFold {bs : List Byte} (he : f.effect = .jnlFold bs) : landOne s n f = modCore s n (fun c =>
    { c with jnlHash := BitVec.ofNat 64 (crcRun 64 0x42F0E1EBA9EA3693 false c.jnlHash.toNat bs) }) := by
  simp [landOne, he, ha, hv, landVerdict]

theorem landOne_commit {e : List Poke} {p : Part} (he : f.effect = .commit e) (hp : corePart s n = some p) :
    landOne s n f = modPartQuads (modCore s n (fun c => storeElems c e .clear)) p
      (fun q => { q with maskGen := setBits q.maskGen 32 1 1 }) := by
  have hp' : corePart (modCore s n (fun c => storeElems c e .clear)) n = some p := hp
  simp [landOne, he, ha, hv, landVerdict, hp']

theorem landOne_tunStore {e back : List Poke} {chk : Chk} (he : f.effect = .tunStore e chk back) :
    landOne s n f = modCore s n (fun c => storeElems (tunPokes c e chk) back chk) := by
  simp [landOne, he, ha, hv, landVerdict]

theorem landOne_selv {pc : Word} {r : Dword} {ev : List (Nat × Nat)} {e : List Poke} {chk : Chk} {ty : Option Byte}
    (he : f.effect = .selv pc r ev e chk ty) : landOne s n f = landSelv s n f.sh pc r ev e chk ty := by
  simp [landOne, he, ha, hv, landVerdict]

/-- An accumulation into the tun. -/
theorem getCore_landOne_accum {a : List (Nat × Exact)} {ov : Bool} {chk : Chk} {back : List Poke} {bm : Bool}
    (he : f.effect = .accum true a ov chk back bm) :
    getCore (landOne s n f) n = storeElems (accumElems (getCore s n) true a ov chk bm) back chk := by
  simp only [landOne, he, ha, hv, landVerdict, getCore_modCore_same]
  split <;> rfl

end Effects

/-- Elements written to core store leave the descriptors and the counters. -/
theorem storeElems_side (c : Core) (xs : List Poke) (k : Chk) :
    (storeElems c xs k).desc = c.desc ∧ (storeElems c xs k).counters = c.counters := by
  unfold storeElems replaceUnits
  dsimp only
  split
  · exact ⟨rfl, rfl⟩
  · split <;> exact ⟨rfl, rfl⟩

/-- Bits below those that are set. -/
theorem bits_setBits_below {n : Nat} (x : BitVec n) (len v : Nat) {lo k : Nat} (h : k ≤ lo) :
    bits (setBits x lo len v) 0 k = bits x 0 k := by
  refine Nat.eq_of_testBit_eq fun i => ?_
  unfold bits
  rw [Nat.testBit_mod_two_pow, Nat.testBit_mod_two_pow, Nat.shiftRight_zero, Nat.shiftRight_zero]
  by_cases hi : i < k
  · have hbit : bit (setBits x lo len v) i = bit x i := by
      by_cases hn : i < n
      · rw [bit_setBits x lo len v hn, if_neg (by omega)]
      · unfold bit
        rw [BitVec.getLsbD_of_ge _ _ (by omega), BitVec.getLsbD_of_ge _ _ (by omega)]
    exact congrArg (decide (i < k) && ·) hbit
  · rw [decide_eq_false hi, Bool.false_and, Bool.false_and]

theorem tunPokes_tun (c : Core) (xs : List Poke) (k : Chk) : (tunPokes c xs k).tun = pokeAll c.tun xs := by
  have h := coreLanded_tun (coreLanded_replaceUnits c true (pokeUnits xs))
  exact congrArg (fun m => pokeAll m xs) h

/-- The tun after an accumulation; core store stays. -/
theorem accumElems_tun (c : Core) (a : List (Nat × Exact)) (ov : Bool) (chk : Chk) (bm : Bool) :
    (accumElems c true a ov chk bm).tun = (accumInto c.tun a ov).1 ∧ (accumElems c true a ov chk bm).store = c.store := by
  have htun := coreLanded_tun (coreLanded_replaceUnits c true ((a.map (fun x => x.1 / 512)).dedup))
  have hstore := replaceUnits_store c true ((a.map (fun x => x.1 / 512)).dedup)
  unfold accumElems
  extract_lets units d r e
  have he : e.tun = (accumInto c.tun a ov).1 ∧ e.store = c.store := ⟨congrArg (fun m => (accumInto m a ov).1) htun, hstore⟩
  split <;> exact he

/-! ### Engines settle (R237, R246) -/

theorem settleMul_due {cycle : Nat} {m : Multiplier} {x : AccStep} (h : m.later = [x]) (hdue : x.due ≤ cycle) :
    (settleMul cycle m).base = x.set ∧ (settleMul cycle m).later = [] := by
  have hset : settleSet cycle m = { m with base := x.set, later := [] } := by
    rw [settleSet, h, List.foldl_cons, List.foldl_nil, if_pos hdue]
  rw [settleMul, hset]
  exact ⟨rfl, rfl⟩

theorem settleMul_early {cycle : Nat} {m : Multiplier} {x : AccStep} (h : m.later = [x]) (hdue : cycle < x.due) :
    (settleMul cycle m).base = m.base ∧ (settleMul cycle m).later = [x] := by
  have hset : settleSet cycle m = { m with later := [x] } := by
    rw [settleSet, h, List.foldl_cons, List.foldl_nil, if_neg (Nat.not_le.mpr hdue)]
    rfl
  rw [settleMul, hset]
  exact ⟨rfl, rfl⟩

/-- Settling the set leaves the marks. -/
theorem settleSet_marks (cycle : Nat) (m : Multiplier) : (settleSet cycle m).marks = m.marks ∧
    (settleSet cycle m).stLong = m.stLong ∧ (settleSet cycle m).stNonfin = m.stNonfin ∧
    (settleSet cycle m).stMismatch = m.stMismatch := by
  have hfold : ∀ (l : List AccStep) (a : Multiplier), let r := l.foldl (fun (a : Multiplier) x =>
      if x.due ≤ cycle then { a with base := x.set, later := [] } else { a with later := a.later ++ [x] }) a
      r.marks = a.marks ∧ r.stLong = a.stLong ∧ r.stNonfin = a.stNonfin ∧ r.stMismatch = a.stMismatch := by
    intro l
    induction l with
    | nil => exact fun a => ⟨rfl, rfl, rfl, rfl⟩
    | cons x l ih =>
      intro a
      obtain ⟨h1, h2, h3, h4⟩ := ih (if x.due ≤ cycle then { a with base := x.set, later := [] }
        else { a with later := a.later ++ [x] })
      rw [List.foldl_cons]
      refine ⟨h1.trans ?_, h2.trans ?_, h3.trans ?_, h4.trans ?_⟩ <;> split <;> rfl
  exact hfold m.later { m with later := [] }

theorem settleMul_mark {cycle : Nat} {m : Multiplier} {y : AccMark} (h : m.marks = [y]) (hdue : y.due ≤ cycle) :
    (settleMul cycle m).marks = [] ∧ (settleMul cycle m).stLong = (m.stLong || y.long) ∧
      (settleMul cycle m).stNonfin = (m.stNonfin || y.nonfin) ∧
      (settleMul cycle m).stMismatch = (m.stMismatch || y.mismatch) := by
  obtain ⟨h1, h2, h3, h4⟩ := settleSet_marks cycle m
  rw [settleMul, settleMarks]
  simp [h1, h2, h3, h4, h, hdue, Nat.not_lt.mpr hdue]

/-! ### Passes of the heddle (R364) -/

section Passes
variable {core : Fin 192} {s : State} {p : HeddlePass} (hp : (getCore s core.val).pass = some p)
include hp

theorem heddleOverrun_late (hno : p.overrunning = false) (hmore : p.budget < p.work)
    (hdue : p.issued + p.budget ≤ (getCore s core.val).cycle) : exec (.heddleOverrun core) s =
      .next (noteW1c (modCore s core.val (fun c => { c with
        pass := some { p with overrunning := true }, sched := false, heddle := { c.heddle with stOverrun := true } }))
        (corePage core.val 8) 21) := by
  show execHeddleOverrun core s = _
  unfold execHeddleOverrun
  dsimp only
  rw [hp]
  dsimp only
  rw [hno, decide_eq_true hmore, decide_eq_true hdue]
  rfl

theorem heddleOverrun_within (h : p.work ≤ p.budget) : exec (.heddleOverrun core) s = .next s := by
  show execHeddleOverrun core s = _
  unfold execHeddleOverrun
  dsimp only
  rw [hp]
  dsimp only
  rw [decide_eq_false (Nat.not_lt.mpr h), Bool.and_false, Bool.false_and, if_neg Bool.false_ne_true]

theorem finishPass_done (h : (p.work ≤ p.budget ∧ p.issued + p.work ≤ (getCore s core.val).cycle) ∨
      (p.budget < p.work ∧ p.work - p.budget ≤ p.overran)) : finishPass (getCore s core.val) =
    { getCore s core.val with
      pass := none
      lastW := if p.failed then (getCore s core.val).lastW else BitVec.ofNat 32 (min p.work 0xFFFFFFFF) } := by
  have hdone : passDone (getCore s core.val) p = true := by
    unfold passDone
    obtain ⟨hle, hdue⟩ | ⟨hlt, hover⟩ := h
    · rw [if_pos hle, decide_eq_true hdue]
    · rw [if_neg (Nat.not_le.mpr hlt), decide_eq_true hover]
  unfold finishPass
  rw [hp]
  exact if_pos hdone

end Passes

/-- Settles O49: results land on their cycle, each where its effect says. -/
theorem resultsLand : Obligations.ResultsLand := by
  unfold Obligations.ResultsLand
  intro core s
  dsimp only
  have hexec : exec (.resultVisible core) s = .next (landDue s core.val) := rfl
  have htun : exec (.tunDrainLand core) s = .next (landTun s core.val) := rfl
  refine ⟨⟨_, hexec, fun f hf hno => ?_⟩, ?empties, ?effects, ?engines, ?tuns, ?early, ?selv, ?passes⟩
  · rw [flight_landDue] at hf
    obtain ⟨-, hf⟩ := List.mem_filter.mp hf
    rw [landsNow, hno] at hf
    by_cases hdue : f.due ≤ (getCore s core.val).cycle
    · exact .inr (by simpa [hdue] using hf)
    · exact .inl (Nat.not_le.mp hdue)
  case empties =>
    intro f hf hdue hv hno hheld
    have hland := landDue_one hf hdue hno hheld
    have hcore := coresLanded_landOne (taken s core.val []) core.val f core.val
    rw [hno, ← hland, getCore_taken_same] at hcore
    exact ⟨_, hexec, coreLanded_flight hcore, (coreLanded_tun hcore).trans rfl⟩
  case effects =>
    intro f hf hdue ha hv
    have hheld : chainHeld (getCore s core.val) f = false := by
      unfold chainHeld
      rw [ha]
      split
      · next h => cases h
      · rfl
    have hone : ∀ {eff : Effect}, f.effect = eff → isTun { f with effect := eff } = false →
        landDue s core.val = landOne (taken s core.val []) core.val f := by
      intro eff he hno
      refine landDue_one hf hdue ?_ hheld
      rw [← hno, isTun, he]
      rfl
    have hothers : ∀ {g : Core → Core}, landDue s core.val = modCore (taken s core.val []) core.val g →
        (∀ m, m ≠ core.val → m ≠ runner s core.val → getCore (landDue s core.val) m = getCore s m) ∧
          getCore (landDue s core.val) core.val = g (takenCore [] (getCore s core.val)) := by
      intro g hland
      rw [hland]
      refine ⟨fun m hm _ => ?_, ?_⟩
      · rw [getCore_modCore, if_neg hm, getCore_taken_other s [] hm]
      · rw [getCore_modCore_same, getCore_taken_same]
    refine ⟨_, hexec, fun sp v he => ?_, fun k d he => ?_, fun e chk he => ?_, fun k b he => ?_, fun tb lo inv he => ?_,
      fun tb j x he => ?_, fun fn imm he => ?_, fun bs he => ?_, fun e p he hp => ?_⟩
    · have hland := (hone he rfl).trans (landOne_reg he ha hv)
      rw [getRegs_taken] at hland
      rw [hland]
      obtain ⟨-, honly⟩ := onlyCores_setRegs (taken s core.val []) core.val
        (regWrite (getRegs s core.val) sp.toNat v.toNat)
      refine ⟨fun m hm hr => ?_, getRegs_setRegs .., ?_, ?_⟩
      · rw [honly m (by rw [runner_taken]; simp [hm, hr]), getCore_taken_other s [] hm]
      · rw [getCore_setRegs, getCore_taken_same]
        rfl
      · rw [getCore_setRegs, getCore_taken_same]
        rfl
    · obtain ⟨ho, hc⟩ := hothers ((hone he rfl).trans (landOne_desc ha hv he))
      rw [hc]
      dsimp only
      exact ⟨ho, tget_tset_same .., rfl, fun j hj => tget_tset_other _ _ _ hj⟩
    · obtain ⟨ho, hc⟩ := hothers ((hone he rfl).trans (landOne_store ha hv he))
      rw [hc, storeElems_store, (storeElems_side ..).1]
      exact ⟨ho, rfl, rfl⟩
    · obtain ⟨-, hc⟩ := hothers ((hone he rfl).trans (landOne_paramSlot ha hv he))
      rw [hc]
      dsimp only
      exact ⟨tget_tset_same .., rfl⟩
    · obtain ⟨-, hc⟩ := hothers ((hone he rfl).trans (landOne_sfuConfig ha hv he))
      rw [hc]
      exact tget_tset_same ..
    · obtain ⟨-, hc⟩ := hothers ((hone he rfl).trans (landOne_sfuEntries ha hv he))
      rw [hc]
      exact tget_tset_same ..
    · obtain ⟨-, hc⟩ := hothers ((hone he rfl).trans (landOne_selvCfg ha hv he))
      rw [hc]
      rfl
    · obtain ⟨-, hc⟩ := hothers ((hone he rfl).trans (landOne_jnlFold ha hv he))
      rw [hc]
      rfl
    · have hp' : corePart (taken s core.val []) core.val = some p := by
        rw [corePart, partOf, parts_taken]
        exact hp
      rw [(hone he rfl).trans (landOne_commit ha hv he hp')]
      refine ⟨?_, fun q hq => ?_⟩
      · rw [getCore, cores_modPartQuads, ← getCore, getCore_modCore_same, storeElems_store, getCore_taken_same]
        rfl
      · rw [getQuad_modPartQuads _ _ _ hq, getQuad_modCore, getQuad, quads_taken, ← getQuad]
        exact ⟨bit_setBits_at _ 1 (by decide), bits_setBits_below _ 1 1 (by decide)⟩
  case engines =>
    intro x hf
    rw [landDue_none hf] at hexec
    refine ⟨_, hexec, ?_⟩
    rw [getCore_taken_same]
    exact ⟨fun h hdue => settleMul_due h hdue, fun y h hdue => settleMul_mark h hdue, fun h hdue => settleMul_early h hdue⟩
  case tuns =>
    intro f hf hdue ha hv
    refine ⟨_, htun, fun e chk back he => ?_, fun a ov chk back bm he => ?_⟩
    · rw [landTun_one hf hdue (by rw [isTun, he]), landOne_tunStore ha hv he, getCore_modCore_same, getCore_setCore_same]
      have hstore := coreLanded_storeElems (tunPokes { getCore s core.val with flight := [] } e chk) back chk
      refine ⟨?_, ?_, ?_⟩
      · rw [coreLanded_flight hstore, coreLanded_flight (coreLanded_tunPokes ..)]
      · rw [coreLanded_tun hstore, tunPokes_tun]
      · rw [storeElems_store]
        exact congrArg (fun m => pokeAll m back) (replaceUnits_store ..)
    · rw [landTun_one hf hdue (by rw [isTun, he]), getCore_landOne_accum ha hv he, getCore_setCore_same]
      obtain ⟨htuns, hstores⟩ := accumElems_tun { getCore s core.val with flight := [] } a ov chk bm
      have hstore := coreLanded_storeElems (accumElems { getCore s core.val with flight := [] } true a ov chk bm) back chk
      refine ⟨?_, ?_, ?_⟩
      · rw [coreLanded_flight hstore, coreLanded_flight (coreLanded_accumElems ..)]
      · rw [coreLanded_tun hstore, htuns]
      · rw [storeElems_store, hstores]
  case early =>
    intro f l hf hdue
    refine ⟨_, htun, ?_⟩
    rw [landTun_early hf hdue, getCore_setCore_same]
    refine ⟨rfl, rfl, ?_⟩
    dsimp only
    rw [List.filter_append, ← hf, List.filter_filter, List.filter_filter]
    simp
  case selv =>
    intro f pc r ev e chk ty hf hdue ha hv he
    have hno : isTun f = false := by rw [isTun, he]
    have hheld : chainHeld (getCore s core.val) f = false := by
      unfold chainHeld
      rw [he]
    have hland := (landDue_one hf hdue hno hheld).trans (landOne_selv ha hv he)
    obtain ⟨k, hk, hcount⟩ := getCore_landSelv (taken s core.val []) core.val f.sh pc r ev e chk ty core.val
    rw [← hland, getCore_modCore_same, getCore_taken_same] at hk
    rw [getCore_modCore_same, getCore_taken_same] at hcount
    have hflight : (getCore (landDue s core.val) core.val).flight = [] := by
      rw [hk]
      exact coreLanded_flight (coreLanded_storeElems (takenCore [] (getCore s core.val)) e chk)
    refine ⟨landAll s core.val, rfl, ?_⟩
    rw [landAll, landTun_none hflight, getCore_setCore_same, hk]
    refine ⟨rfl, rfl, storeElems_store .., ?_⟩
    rw [hcount rfl]
    exact congrArg (fun k => tget 0 k ctrSelvMismatch + BitVec.ofNat 64 ev.length) (storeElems_side ..).2
  case passes =>
    intro p hp
    refine ⟨fun hno hmore hdue => ⟨_, heddleOverrun_late hp hno hmore hdue, fun m hm _ => ?_, ?_⟩,
      fun h => heddleOverrun_within hp h, fun h => ⟨_, rfl, fun m hm _ => ?_, ?_⟩⟩
    · rw [getCore_noteW1c, getCore_modCore, if_neg hm]
    · rw [getCore_noteW1c, getCore_modCore_same]
      exact ⟨rfl, rfl, rfl, rfl⟩
    · rw [getCore_modCore, if_neg hm]
    · rw [getCore_modCore_same, finishPass_done hp h]
      exact ⟨rfl, rfl, fun hfail => if_neg (by rw [hfail]; exact Bool.false_ne_true)⟩

end Sys2Proof.Machine
end

section
/-! Verdicts of tiles (R551 to R572), verdict frames (R563, R564, R569) and journal entries (R426 to R431): the obligation
on verdicts and the journal. -/

namespace Sys2Proof.Machine

/-! ### Every core changed at once (R561) -/

theorem tget_below {α : Type} [DecidableEq α] {d : α} {lo i : Nat} {t : Tbl α} (h : tsorted d lo t = true) (hi : i < lo) :
    tget d t i = d := by
  induction t generalizing lo with
  | nil => rfl
  | cons x t ih =>
    obtain ⟨k, v⟩ := x
    obtain ⟨hlo, -, ht⟩ := tsorted_cons.mp h
    rw [tget, if_neg (by omega)]
    exact ih ht (by omega)

/-- Reading a canonical table whose entries have changed by a rule that keeps the default, with what became the default
unlisted. -/
theorem tget_map_listed {α : Type} [DecidableEq α] {d : α} {g : α → α} (hd : g d = d) {lo : Nat} {t : Tbl α}
    (h : tsorted d lo t = true) (i : Nat) :
    tget d ((t.map (fun x => (x.1, g x.2))).filter (fun x => x.2 != d)) i = g (tget d t i) := by
  induction t generalizing lo with
  | nil => exact hd.symm
  | cons x t ih =>
    obtain ⟨k, v⟩ := x
    obtain ⟨-, -, ht⟩ := tsorted_cons.mp h
    rw [List.map_cons, tget]
    by_cases hv : g v = d
    · rw [List.filter_cons_of_neg (by simp [hv]), ih ht]
      split
      · next hi => rw [tget_below ht (by omega), hd, hv]
      · rfl
    · rw [List.filter_cons_of_pos (by simp [hv]), tget, ih ht]
      split <;> rfl

theorem getCore_mapCores {s : State} {g : Core → Core} (hg : g {} = {}) (h : twf ({} : Core) s.cores = true) (m : Nat) :
    getCore (mapCores s g) m = g (getCore s m) := tget_map_listed hg h m

theorem resolveCore_default (id : Nat) (pass : Bool) : resolveCore id pass {} = {} := rfl

theorem getCore_resolveVerdict {s : State} (h : twf ({} : Core) s.cores = true) (id : Nat) (pass : Bool) (m : Nat) :
    getCore (resolveVerdict s id pass) m = resolveCore id pass (getCore s m) :=
  getCore_mapCores (resolveCore_default id pass) h m

/-- A unit's check state once a verdict has resolved. -/
theorem resolved_unit {c : Core} (h : twf Chk.clear c.storeChk = true) (id : Nat) (pass : Bool) (u : Nat) :
    tget Chk.clear (resolveCore id pass c).storeChk u = resolveChk id pass (tget Chk.clear c.storeChk u) :=
  tget_map_listed rfl h u

theorem twf_modCore {s : State} (h : twf ({} : Core) s.cores = true) (n : Nat) (g : Core → Core) :
    twf ({} : Core) (modCore s n g).cores = true := twf_tset n _ h

/-! ### A verdict that fails (R551, R569, R572) -/

/-- A core whose fence history has changed. -/
def fenceNoted (c d : Core) : Prop :=
  d = { c with intermits := d.intermits, fenceStore := d.fenceStore, storeCause := d.storeCause }

theorem fenceNoted_refl (c : Core) : fenceNoted c c := rfl

theorem fenceNoted_core {c d : Core} (h : fenceNoted c d) : d.storeChk = c.storeChk ∧ d.counters = c.counters := by
  rw [h]
  exact ⟨rfl, rfl⟩

theorem getCore_of_cores {s t : State} (h : t.cores = s.cores) (m : Nat) : getCore t m = getCore s m := by
  rw [getCore, h, ← getCore]

theorem getCore_bumpCore (s : State) (n off k m : Nat) : getCore (bumpCore s n off k) m = { getCore s m with
    counters := if m = n then bumpTbl (getCore s m).counters off k else (getCore s m).counters } := by
  rw [bumpCore, getCore_modCore]
  split
  · next h => rw [h]
  · rfl

theorem fenceInContext_cores (s : State) (core : Nat) : (fenceInContext s core).cores = s.cores := by
  have hvec : ∀ (t : State) (a b : Nat), (partVector t a b).cores = t.cores := by
    intro t a b
    unfold partVector
    rw [raiseVector_frame]
  unfold fenceInContext
  dsimp only
  split
  · rfl
  · split
    · split
      · exact (hvec ..).trans (record_cores ..)
      · show (if _ then _ else s).cores = _
        split <;> rfl
    · rfl

/-- A core's intermittents change its fence history, and nothing else of any core. -/
theorem intermittent_cores (s : State) (n m : Nat) (storage : Bool) :
    fenceNoted (getCore s m) (getCore (intermittent s n storage) m) := by
  have hmod : ∀ (t : State) {g : Core → Core}, (∀ c, fenceNoted c (g c)) → fenceNoted (getCore t m) (getCore (modCore t n g) m) := by
    intro t g hg
    rw [getCore_modCore]
    split
    · next h => rw [h]; exact hg _
    · rfl
  have hfence : ∀ t : State, fenceNoted (getCore t m) (getCore (fenceFor t n 2 storage) m) := by
    intro t
    unfold fenceFor
    split
    · rfl
    · dsimp only
      rw [if_neg (by decide), getCore_of_cores (fenceInContext_cores ..), getCore_record, getCore_noteW1c]
      refine hmod { t with fence := setBits t.fence n 1 1 } ?_
      exact fun c => rfl
  unfold intermittent
  dsimp only
  split
  · have h1 := hmod s (g := fun c => { c with
      intermits := (getCore s n).intermits.filter (fun t => decide (s.pll < t + intermitWindow)) ++ [s.pll]
      storeCause := c.storeCause || storage }) (fun c => rfl)
    have h2 := hfence (modCore s n (fun c => { c with
      intermits := (getCore s n).intermits.filter (fun t => decide (s.pll < t + intermitWindow)) ++ [s.pll]
      storeCause := c.storeCause || storage }))
    unfold fenceNoted at *
    rw [h2, h1]
  · exact hmod s (fun c => rfl)

theorem getCore_addRepeats (s : State) (n k m : Nat) : getCore (addRepeats s n k) m = getCore s m := by
  unfold addRepeats
  split <;> rfl

/-- A failed verdict counted. -/
theorem getCore_countVerdictFail (s : State) (n m : Nat) (r : RecIn) :
    getCore (countVerdictFail s n r) m = getCore (bumpCore s n ctrVerdictFail 1) m := by
  unfold countVerdictFail
  dsimp only
  rw [getCore_record]
  split <;> rfl

/-- The core of a tile that fails, with what a repeat wrote. -/
def failCounted (s : State) (n : Nat) (v : Verdict) (rep : RepeatEnd) : State :=
  let reps := if rep = .first then 1 else 2
  let s := addRepeats (bumpCore (bumpCore s n ctrPlaus 1) n ctrRepeat reps) n reps
  if rep = .neither then s else modCore s n (fun c => rewriteTile c v)

theorem counters_rewriteTile (c : Core) (v : Verdict) : (rewriteTile c v).counters = c.counters := by
  unfold rewriteTile
  dsimp only
  split <;> rfl

theorem failCounted_counters (s : State) (n : Nat) (v : Verdict) (rep : RepeatEnd) :
    (getCore (failCounted s n v rep) n).counters =
      bumpTbl (bumpTbl (getCore s n).counters ctrPlaus 1) ctrRepeat (if rep = .first then 1 else 2) := by
  have hbump : (getCore (addRepeats (bumpCore (bumpCore s n ctrPlaus 1) n ctrRepeat (if rep = .first then 1 else 2)) n
      (if rep = .first then 1 else 2)) n).counters =
        bumpTbl (bumpTbl (getCore s n).counters ctrPlaus 1) ctrRepeat (if rep = .first then 1 else 2) := by
    rw [getCore_addRepeats, bumpCore, getCore_modCore_same, bumpCore, getCore_modCore_same]
  unfold failCounted
  dsimp only
  by_cases h : rep = .neither
  · rw [if_pos h, hbump]
  · rw [if_neg h, getCore_modCore_same, counters_rewriteTile, hbump]

theorem failCounted_twf {s : State} (h : twf ({} : Core) s.cores = true) (n : Nat) (v : Verdict) (rep : RepeatEnd) :
    twf ({} : Core) (failCounted s n v rep).cores = true := by
  have hadd : ∀ t k, (addRepeats t n k).cores = t.cores := by
    intro t k
    unfold addRepeats
    split <;> rfl
  have hbump : twf ({} : Core) (addRepeats (bumpCore (bumpCore s n ctrPlaus 1) n ctrRepeat (if rep = .first then 1 else 2)) n
      (if rep = .first then 1 else 2)).cores = true := by
    rw [hadd]
    exact twf_modCore (twf_modCore h ..) ..
  unfold failCounted
  dsimp only
  split
  · exact hbump
  · exact twf_modCore hbump ..

theorem failCounted_neither (s : State) (n m : Nat) (v : Verdict) :
    (getCore (failCounted s n v .neither) m).storeChk = (getCore s m).storeChk := by
  unfold failCounted
  dsimp only
  rw [if_pos rfl, getCore_addRepeats, getCore_bumpCore, getCore_bumpCore]

/-- The state of a tile that fails, before an intermittent is charged. -/
def failRecorded (s : State) (n : Nat) (v : Verdict) (mn : Nat × Nat) (rep : RepeatEnd) : State :=
  let s := resolveVerdict (failCounted s n v rep) v.id false
  let base : RecIn := { coreRec 0x12 n (mn.1 + 128 * mn.2) with
    engine := v.eng, shuttle := shIdx v.sh, opcode := v.opcode.toNat, pc := v.pc }
  let s := record s { base with outcome := if rep = .neither then 2 else 1, fence := rep == .neither && intermitFences s n }
  countVerdictFail s n { base with detail := 0 }

theorem failVerdict_eq (s : State) (n : Nat) (v : Verdict) (mn : Nat × Nat) (rep : RepeatEnd) : failVerdict s n v mn rep =
    if rep = .neither then intermittent (failRecorded s n v mn rep) n false else failRecorded s n v mn rep := rfl

theorem failRecorded_core {s : State} (h : twf ({} : Core) s.cores = true) (n m : Nat) (v : Verdict) (mn : Nat × Nat)
    (rep : RepeatEnd) :
    (getCore (failRecorded s n v mn rep) m).storeChk =
        (resolveCore v.id false (getCore (failCounted s n v rep) m)).storeChk ∧
      (getCore (failRecorded s n v mn rep) n).counters =
        bumpTbl (getCore (failCounted s n v rep) n).counters ctrVerdictFail 1 := by
  unfold failRecorded
  dsimp only
  rw [getCore_countVerdictFail, getCore_countVerdictFail, getCore_bumpCore, getCore_bumpCore, getCore_record,
    getCore_record, getCore_resolveVerdict (failCounted_twf h n v rep), getCore_resolveVerdict (failCounted_twf h n v rep)]
  exact ⟨rfl, if_pos rfl⟩

/-- What a failing verdict leaves of a core's units, and what it counts. -/
theorem failVerdict_core {s : State} (h : twf ({} : Core) s.cores = true) (n m : Nat) (v : Verdict) (mn : Nat × Nat)
    (rep : RepeatEnd) :
    (getCore (failVerdict s n v mn rep) m).storeChk =
        (resolveCore v.id false (getCore (failCounted s n v rep) m)).storeChk ∧
      (getCore (failVerdict s n v mn rep) n).counters =
        bumpTbl (getCore (failCounted s n v rep) n).counters ctrVerdictFail 1 := by
  have hlast : ∀ j, fenceNoted (getCore (failRecorded s n v mn rep) j) (getCore (failVerdict s n v mn rep) j) := by
    intro j
    rw [failVerdict_eq]
    split
    · exact intermittent_cores ..
    · exact fenceNoted_refl _
  obtain ⟨hchk, hcount⟩ := failRecorded_core h n m v mn rep
  exact ⟨(fenceNoted_core (hlast m)).1.trans hchk, (fenceNoted_core (hlast n)).2.trans hcount⟩

/-! ### Verdict frames (R563, R564, R569) -/

/-- A frame among those sent to one module goes out. -/
theorem frameOut_toCask {s u t : State} {port : Fin 8} {m : Nat} {fs : List Frame} {f : Frame} (hports : u.ports = s.ports)
    (hfab : u.fabric = s.fabric) (hf : f ∈ fs) (htm : t.mesh = (sendAll u (toCask port.val m fs)).mesh)
    (htp : t.ports = (sendAll u (toCask port.val m fs)).ports) : frameOut s t port m f := by
  have hown : ownIndex u = ownIndex s := by rw [ownIndex, hfab, ← ownIndex]
  have hchan : ∀ {v w : State}, v.ports = w.ports → ∀ k j, getChan v k j = getChan w k j := by
    intro v w h k j
    rw [getChan, getPort, h, ← getPort, ← getChan]
  refine ⟨fun hm => ?_, fun hm hc => ?_⟩
  · rw [htm, sendAll_mesh _ _ _ _ (hm.trans hown.symm)]
    exact List.mem_append_right _ (List.mem_map.mpr ⟨f, hf, by rw [Fin.ofNat_val_eq_self]⟩)
  · intro y hy
    rw [hchan htp]
    exact mem_txq_sendAll (List.mem_map.mpr ⟨f, hf, rfl⟩) (hown ▸ hm) (by rwa [hchan hports]) y hy

/-- The VERDICT frame of a piece. -/
def verdictFrame (v : PieceVerdict) : Frame :=
  { v.head with kind := fkVerdict, prov := false, data := [], inline := .verdict v.offset v.count (!v.failed) }

/-- The frames of a failed piece whose units are all CLEAR by now, sent again. -/
def resentFrames (c : Core) (v : PieceVerdict) : List Frame :=
  if v.failed && v.units.all (fun u => tget Chk.clear c.storeChk u == .clear) then
    pieceFrames c.store v.da v.offset { v.head with prov := false }
  else []

/-- A core whose piece's verdict is on its way, with an acknowledgement of each frame awaited. -/
def verdictAwaited (s : State) (n : Nat) (v : PieceVerdict) (id k : Nat) : State :=
  expectAcks (modCore s n (fun c => { c with pieces := c.pieces.filter (fun x => x.id != id) })) n v.sh id k

/-- What has been sent, before a failure is counted. -/
def verdictSent (s : State) (n : Nat) (v : PieceVerdict) (port : Nat) : State :=
  sendAll (verdictAwaited s n v v.id (1 + (resentFrames (getCore s n) v).length))
    (toCask port v.dest (verdictFrame v :: resentFrames (getCore s n) v))

theorem verdictFrameSend_ready {core : Fin 192} {s : State} {p : Part} {v : PieceVerdict} {id : Nat}
    (hp : corePart s core.val = some p) (hv : (getCore s core.val).pieces.find? (fun v => v.id == id) = some v)
    (hdeps : v.deps = []) (hheld : ∀ x ∈ (shOf (getCore s core.val) v.sh).accesses, x.id = id → x.held = false)
    (hgone : pieceGone s (caskPort p (faCask v.head.addr)) v = true) :
    ∃ (b : Bool) (r : RecIn), exec (.verdictFrameSend core id) s = .next (if b then
      verdictSent s core.val v (caskPort p (faCask v.head.addr))
      else countVerdictFail (verdictSent s core.val v (caskPort p (faCask v.head.addr))) core.val r) := by
  have hid : v.id = id := by simpa using List.find?_some hv
  have hfree : (shOf (getCore s core.val) v.sh).accesses.any (fun x => x.id == id && x.held) = false := by
    rw [List.any_eq_false]
    intro x hx
    by_cases h : x.id = id
    · simp [hheld x hx h]
    · simp [h]
  refine ⟨!v.failed || v.units.all (fun u => tget Chk.clear (getCore s core.val).storeChk u == .clear),
    { coreRec 0x13 core.val (faBucket v.head.addr).toNat with shuttle := shIdx v.sh, opcode := 0x5A, pc := v.pc }, ?_⟩
  show execVerdictFrameSend core id s = _
  unfold execVerdictFrameSend
  dsimp only
  rw [hp, hv]
  dsimp only
  rw [hdeps, hfree, hgone]
  subst hid
  rw [verdictSent, resentFrames, Bool.not_not]
  rfl

/-- A failed verdict counted leaves what is on its way. -/
theorem countVerdictFail_frame (s : State) (n : Nat) (r : RecIn) :
    (countVerdictFail s n r).ports = s.ports ∧ (countVerdictFail s n r).mesh = s.mesh := by
  unfold countVerdictFail
  dsimp only
  rw [record_frame_eq]
  dsimp only
  split <;> exact ⟨rfl, rfl⟩

theorem pieces_verdictSent (s : State) (n : Nat) (v : PieceVerdict) (port : Nat) :
    (getCore (verdictSent s n v port) n).pieces = (getCore s n).pieces.filter (fun x => x.id != v.id) := by
  rw [verdictSent, linked_getCore (linked_sendAll ..), verdictAwaited, expectAcks, getCore_modCore_same, modSh_frame,
    getCore_modCore_same]

/-! ### Journal entries (R426 to R431) -/

/-- A state whose cores read as before. -/
def sameCores (s t : State) : Prop := t = { s with cores := t.cores } ∧ ∀ m, getCore t m = getCore s m

theorem sameCores_refl (s : State) : sameCores s s := ⟨rfl, fun _ => rfl⟩

theorem sameCores_trans {s t u : State} (h : sameCores s t) (g : sameCores t u) : sameCores s u := by
  refine ⟨?_, fun m => (g.2 m).trans (h.2 m)⟩
  rw [g.1, h.1]

section Fields
variable {s t : State} (h : sameCores s t)
include h

theorem sameCores_quads : t.quads = s.quads := by rw [h.1]
theorem sameCores_parts : t.parts = s.parts := by rw [h.1]
theorem sameCores_pll : t.pll = s.pll := by rw [h.1]
theorem sameCores_hbm : t.hbm = s.hbm := by rw [h.1]
theorem sameCores_lpddr : t.lpddr = s.lpddr := by rw [h.1]

end Fields

theorem sameCores_setCore (s : State) (n : Nat) : sameCores s (setCore s n (getCore s n)) := by
  refine ⟨rfl, fun m => ?_⟩
  rw [getCore_setCore]
  split
  · next h => rw [h]
  · rfl

/-- With no tally open, the counters of a core are evaluated without effect (R297). -/
theorem starveCore_none (low n : Nat) {s : State} (h : (getCore s n).starveTotal = []) : sameCores s (starveCore low s n) := by
  have hcounter : ∀ (c : Core) (i : Nat), c.starveTotal = [] → starveCounter c i = (c, false) := by
    intro c i hc
    unfold starveCounter
    dsimp only
    rw [hc]
    exact if_pos rfl
  unfold starveCore
  suffices hfold : ∀ (l : List Nat) (t : State), sameCores s t → sameCores s (l.foldl (fun s i =>
      let (c, ev) := starveCounter (getCore s n) i
      let s := setCore s n c
      if ev then
        let s := noteW1c (modCore s n (fun c => { c with starveEvent := setBits c.starveEvent i 1 1 })) (corePage n 0x80) i
        let s := record s (coreRec 0x1C n i)
        partVector (modPart s low (fun p => { p with jnlFlags := p.jnlFlags ||| 8 })) low 2
      else s) t) from hfold _ s (sameCores_refl s)
  intro l
  induction l with
  | nil => exact fun t ht => ht
  | cons i l ih =>
    intro t ht
    rw [List.foldl_cons, hcounter _ i (by rw [ht.2 n]; exact h)]
    exact ih _ (sameCores_trans ht (sameCores_setCore t n))

theorem starveCores_none (low : Nat) (ns : List Nat) {s : State} (h : ∀ n ∈ ns, (getCore s n).starveTotal = []) :
    sameCores s (ns.foldl (starveCore low) s) := by
  suffices hfold : ∀ t, sameCores s t → sameCores s (ns.foldl (starveCore low) t) from hfold s (sameCores_refl s)
  induction ns with
  | nil => exact fun t ht => ht
  | cons n ns ih =>
    intro t ht
    rw [List.foldl_cons]
    refine ih (fun m hm => h m (List.mem_cons_of_mem n hm)) _ (sameCores_trans ht (starveCore_none low n ?_))
    rw [ht.2 n]
    exact h n List.mem_cons_self

/-- The entry's bytes depend on the cores by what they read. -/
theorem entryBytes_same {s t : State} (h : sameCores s t) (p : Part) (image : List Byte) :
    entryBytes t p image = entryBytes s p image := by
  have hhash : inputHash t p = inputHash s p := by
    unfold inputHash
    simp only [h.2]
  have hq : ∀ q, getQuad t q = getQuad s q := fun q => by rw [getQuad, sameCores_quads h, ← getQuad]
  have hpair : pairActive t = pairActive s := by
    funext q
    rw [pairActive, hq, ← pairActive]
  have hrep : replaying t p = replaying s p := by rw [replaying, hq, ← replaying]
  have htime : deviceTime t = deviceTime s := by
    unfold deviceTime
    rw [sameCores_pll h]
  unfold entryBytes
  rw [hhash, hq, hpair, hrep, htime]

theorem entryAddr_same {s t : State} (h : sameCores s t) (p : Part) : entryAddr t p = entryAddr s p := by
  have hq : ∀ q, getQuad t q = getQuad s q := fun q => by rw [getQuad, sameCores_quads h, ← getQuad]
  unfold entryAddr replaying
  rw [hq]

/-- The step's tallies start anew. -/
def entryClosed (s : State) (p : Part) : State :=
  modPartQuads (p.map.foldl (fun s n => modCore s n (fun c => { c with jnlHash := 0, jnlPend := c.jnlPend.drop 1 })) s) p
    (fun q => { q with jnlIndex := q.jnlIndex + 1 })

theorem finishEntry_eq (s : State) (p : Part) : ∃ g, finishEntry s p =
    let t := p.map.foldl (starveCore p.low) s
    let p' := (partAt t p.low).getD p
    modPart (entryClosed (writeMemBytes t .lpddr (entryAddr t p')
      (entryBytes t p' ((getCore t (p'.map.headD 0)).jnlPend.headD (0, [])).2)) p') p'.low g := ⟨_, rfl⟩

end Sys2Proof.Machine
end

section
/-! The obligation on verdicts and the journal. -/

namespace Sys2Proof.Machine

/-! ### PLAUSIBILITY_VERDICT (R555, R556) -/

section Verdict
variable {core : Fin 192} {id : Nat} {s0 : State} {v : Verdict}
  (hv : (getCore (landAll s0 core.val) core.val).verdicts.find? (fun v => v.id == id && v.landed.isSome) = some v)
include hv

theorem verdict_waits (rep : RepeatEnd) (h : headOfChecker (landAll s0 core.val) core.val v = false) :
    exec (.plausibilityVerdict core id rep) s0 = .next (landAll s0 core.val) := by
  show execPlausibilityVerdict core id rep s0 = _
  unfold execPlausibilityVerdict
  dsimp only
  rw [hv]
  dsimp only
  rw [h]
  rfl

/-- The state in which a verdict at the head of its queue resolves. -/
def verdictTaken (s : State) (n id : Nat) : State :=
  modCore s n (fun c => { c with verdicts := c.verdicts.filter (fun x => x.id != id) })

variable (h : headOfChecker (landAll s0 core.val) core.val v = true)
include h

theorem verdict_passes (rep : RepeatEnd) (hpass : v.fails = none) : exec (.plausibilityVerdict core id rep) s0 =
    .next (resolveVerdict (verdictTaken (landAll s0 core.val) core.val id) id true) := by
  show execPlausibilityVerdict core id rep s0 = _
  unfold execPlausibilityVerdict
  dsimp only
  rw [hv]
  dsimp only
  rw [h, hpass]
  rfl

theorem verdict_fails (rep : RepeatEnd) {mn : Nat × Nat} (hfail : v.fails = some mn) :
    exec (.plausibilityVerdict core id rep) s0 =
      .next (failVerdict (verdictTaken (landAll s0 core.val) core.val id) core.val v mn rep) := by
  show execPlausibilityVerdict core id rep s0 = _
  unfold execPlausibilityVerdict
  dsimp only
  rw [hv]
  dsimp only
  rw [h, hfail]
  rfl

end Verdict

/-- Taking a verdict leaves all else of every core. -/
theorem verdictTaken_core (s : State) (n id m : Nat) : getCore (verdictTaken s n id) m =
    { getCore s m with verdicts := (getCore (verdictTaken s n id) m).verdicts } := by
  rw [verdictTaken, getCore_modCore]
  split
  · next h => rw [h]
  · rfl

theorem verdictTaken_chk (s : State) (n id m : Nat) :
    (getCore (verdictTaken s n id) m).storeChk = (getCore s m).storeChk ∧
      (getCore (verdictTaken s n id) m).store = (getCore s m).store ∧
      (getCore (verdictTaken s n id) m).counters = (getCore s m).counters := by
  rw [verdictTaken_core]
  exact ⟨rfl, rfl, rfl⟩

theorem verdictTaken_gone (s : State) (n id : Nat) : ∀ x ∈ (getCore (verdictTaken s n id) n).verdicts, x.id ≠ id := by
  intro x hx
  rw [verdictTaken, getCore_modCore_same] at hx
  simpa using (List.mem_filter.mp hx).2

theorem resolveChk_last (id : Nat) : resolveChk id true (.prov [id]) = .clear := by simp [resolveChk]

theorem resolveChk_fails {id : Nat} {l : List Nat} (h : id ∈ l) : resolveChk id false (.prov l) = .failed := by
  simp [resolveChk, h]

/-! ### JOURNAL_ENTRY_COMPLETE (R426, R428) -/

section Journal
variable {q : Fin 8} {s0 : State} {p : Part} (hp : partOf s0 q.val = some p)
include hp

theorem journalEntry_waits (h : ∃ n ∈ p.map, jnlReady (getCore (p.map.foldl landAll s0) n) = false) :
    exec (.journalEntryComplete q) s0 = .next (p.map.foldl landAll s0) := by
  have hall : p.map.all (fun n => jnlReady (getCore (p.map.foldl landAll s0) n)) = false := by
    rw [List.all_eq_false]
    obtain ⟨n, hn, hready⟩ := h
    exact ⟨n, hn, by rw [hready]; exact Bool.false_ne_true⟩
  show execJournalEntryComplete q s0 = _
  unfold execJournalEntryComplete
  rw [hp]
  dsimp only
  rw [hall, Bool.not_false, Bool.or_true, if_pos rfl]

theorem journalEntry_ready (hreset : p.reset = none) (hmap : p.map ≠ [])
    (hready : ∀ n ∈ p.map, jnlReady (getCore (p.map.foldl landAll s0) n) = true)
    (hlines : heldLines (p.map.foldl landAll s0) .lpddr [entryAddr (p.map.foldl landAll s0) p / 64,
      entryAddr (p.map.foldl landAll s0) p / 64 + 1] = []) :
    exec (.journalEntryComplete q) s0 = .next (finishEntry (p.map.foldl landAll s0) p) := by
  have hall : p.map.all (fun n => jnlReady (getCore (p.map.foldl landAll s0) n)) = true := List.all_eq_true.mpr hready
  have hempty : p.map.isEmpty = false := by simpa using hmap
  show execJournalEntryComplete q s0 = _
  unfold execJournalEntryComplete
  rw [hp]
  dsimp only
  rw [hall, hempty, hreset, hlines]
  rfl

end Journal

/-- An entry closed changes the hashes, what is pending, and the index. -/
theorem entryClosed_spec (s : State) (p : Part) :
    (entryClosed s p).hbm = s.hbm ∧ (entryClosed s p).lpddr = s.lpddr ∧
      (∀ r ∈ partQuads p, (getQuad (entryClosed s p) r).jnlIndex = (getQuad s r).jnlIndex + 1) ∧
      (∀ n ∈ p.map, (getCore (entryClosed s p) n).jnlHash = 0) ∧
      ∀ n, (getCore (entryClosed s p) n).store = (getCore s n).store := by
  have hfold := foldl_modCore_frame (g := fun c : Core => { c with jnlHash := 0, jnlPend := c.jnlPend.drop 1 }) p.map s
  have hcores : ∀ n, getCore (entryClosed s p) n = getCore (p.map.foldl (fun s n => modCore s n
      (fun c => { c with jnlHash := 0, jnlPend := c.jnlPend.drop 1 })) s) n :=
    fun n => getCore_of_cores (cores_modPartQuads ..) n
  refine ⟨?_, ?_, fun r hr => ?_, fun n hn => ?_, fun n => ?_⟩
  · refine (foldl_keeps (g := State.hbm) (f := fun t q => modQuad t q (fun q => { q with jnlIndex := q.jnlIndex + 1 }))
      (fun _ _ => rfl) (partQuads p) _).trans ?_
    rw [hfold]
  · refine (foldl_keeps (g := State.lpddr) (f := fun t q => modQuad t q (fun q => { q with jnlIndex := q.jnlIndex + 1 }))
      (fun _ _ => rfl) (partQuads p) _).trans ?_
    rw [hfold]
  · rw [entryClosed, getQuad_modPartQuads _ _ _ hr, hfold]
    rfl
  · rw [hcores]
    exact foldl_modCore_mem (P := fun c => c.jnlHash = 0) (fun _ => rfl) p.map s (.inl hn)
  · rw [hcores]
    refine foldl_keeps (g := fun s => (getCore s n).store) (fun t m => ?_) p.map s
    rw [getCore_modCore]
    split
    · next h => rw [h]
    · rfl

/-- An entry that completes with no tally open: its bytes, the index, the hashes. -/
theorem finishEntry_spec {s : State} {p : Part} (hp : partAt s p.low = some p)
    (hstarve : ∀ n ∈ p.map, (getCore s n).starveTotal = []) :
    (finishEntry s p).lpddr = pokeAll s.lpddr (unitPokes (entryAddr s p)
        (entryBytes s p ((getCore s (p.map.headD 0)).jnlPend.headD (0, [])).2)) ∧
      (finishEntry s p).hbm = s.hbm ∧
      (∀ r ∈ partQuads p, (getQuad (finishEntry s p) r).jnlIndex = (getQuad s r).jnlIndex + 1) ∧
      (∀ n ∈ p.map, (getCore (finishEntry s p) n).jnlHash = 0) ∧
      ∀ n, (getCore (finishEntry s p) n).store = (getCore s n).store := by
  obtain ⟨g, hg⟩ := finishEntry_eq s p
  have hsame := starveCores_none p.low p.map hstarve
  have hpart : partAt (p.map.foldl (starveCore p.low) s) p.low = some p := by
    rw [partAt_parts (sameCores_parts hsame), hp]
  rw [hg]
  dsimp only
  generalize p.map.foldl (starveCore p.low) s = t at hsame hpart
  rw [hpart, Option.getD_some, entryAddr_same hsame, entryBytes_same hsame, hsame.2]
  obtain ⟨hhbm, hlpddr, hindex, hhash, hstore⟩ := entryClosed_spec (writeMemBytes t .lpddr (entryAddr s p)
    (entryBytes s p ((getCore s (p.map.headD 0)).jnlPend.headD (0, [])).2)) p
  have hmem := tierMem_writeMem_same t .lpddr (unitPokes (entryAddr s p)
    (entryBytes s p ((getCore s (p.map.headD 0)).jnlPend.headD (0, [])).2))
  have hother := tierMem_writeMem_other t (t := .lpddr) (x := .hbm) (unitPokes (entryAddr s p)
    (entryBytes s p ((getCore s (p.map.headD 0)).jnlPend.headD (0, [])).2)) (by decide)
  refine ⟨hlpddr.trans (hmem.trans ?_), hhbm.trans (hother.trans (sameCores_hbm hsame)), fun r hr => (hindex r hr).trans ?_,
    hhash, fun n => (hstore n).trans ?_⟩
  · show pokeAll t.lpddr _ = _
    rw [sameCores_lpddr hsame]
  · show (getQuad t r).jnlIndex + 1 = _
    rw [getQuad, sameCores_quads hsame, ← getQuad]
  · show (getCore t n).store = _
    rw [hsame.2]

/-! ### The obligation's three parts -/

/-- A tile whose verdict passes: its units are clear where they waited for it alone. -/
theorem verdictPassed_spec {s : State} (hwf : twf ({} : Core) s.cores = true)
    (hchk : ∀ m, twf Chk.clear (getCore s m).storeChk = true) (n id : Nat) :
    let t := resolveVerdict (verdictTaken s n id) id true
    (∀ x ∈ (getCore t n).verdicts, x.id ≠ id) ∧ t.hbm = s.hbm ∧ t.lpddr = s.lpddr ∧
      ∀ m u, (getCore t m).store = (getCore s m).store ∧
        (tget Chk.clear (getCore s m).storeChk u = .prov [id] → tget Chk.clear (getCore t m).storeChk u = .clear) := by
  have hres := getCore_resolveVerdict (s := verdictTaken s n id) (twf_modCore hwf ..) id true
  intro t
  refine ⟨?_, rfl, rfl, fun m u => ?_⟩
  · rw [hres]
    exact verdictTaken_gone s n id
  · obtain ⟨h1, h2, -⟩ := verdictTaken_chk s n id m
    rw [hres]
    refine ⟨h2, fun hu => ?_⟩
    rw [resolved_unit (by rw [h1]; exact hchk m), h1, hu, resolveChk_last]

/-- A tile whose verdict fails: what is counted, and, where no repeat passes, what fails with it. -/
theorem verdictFailed_spec {s : State} (hwf : twf ({} : Core) s.cores = true)
    (hchk : ∀ m, twf Chk.clear (getCore s m).storeChk = true) (n : Nat) (v : Verdict) (mn : Nat × Nat) (rep : RepeatEnd) :
    let t := failVerdict (verdictTaken s n v.id) n v mn rep
    tget 0 (getCore t n).counters ctrPlaus = tget 0 (getCore s n).counters ctrPlaus + 1 ∧
      tget 0 (getCore t n).counters ctrRepeat =
        tget 0 (getCore s n).counters ctrRepeat + (if rep = .first then 1 else 2) ∧
      tget 0 (getCore t n).counters ctrVerdictFail = tget 0 (getCore s n).counters ctrVerdictFail + 1 ∧
      (rep = .neither → ∀ m u l, tget Chk.clear (getCore s m).storeChk u = .prov l → v.id ∈ l →
        tget Chk.clear (getCore t m).storeChk u = .failed) := by
  intro t
  have hwf' : twf ({} : Core) (verdictTaken s n v.id).cores = true := twf_modCore hwf ..
  have hcount := (failVerdict_core hwf' n n v mn rep).2
  rw [failCounted_counters, (verdictTaken_chk s n v.id n).2.2] at hcount
  refine ⟨?_, ?_, ?_, fun hrep m u l hu hl => ?_⟩
  · rw [hcount, bumpTbl, bumpTbl, bumpTbl, tget_tset_other _ _ _ (by decide), tget_tset_other _ _ _ (by decide),
      tget_tset_same]
    rfl
  · rw [hcount, bumpTbl, bumpTbl, tget_tset_other _ _ _ (by decide), tget_tset_same, bumpTbl,
      tget_tset_other _ _ _ (by decide)]
    split <;> rfl
  · rw [hcount, bumpTbl, tget_tset_same, bumpTbl, tget_tset_other _ _ _ (by decide), bumpTbl,
      tget_tset_other _ _ _ (by decide)]
    rfl
  · subst hrep
    have hsame := (failCounted_neither (verdictTaken s n v.id) n m v).trans (verdictTaken_chk s n v.id m).1
    rw [(failVerdict_core hwf' n m v mn .neither).1, resolved_unit (by rw [hsame]; exact hchk m), hsame, hu,
      resolveChk_fails hl]

/-- A failed verdict counted with a piece whose frames are sent leaves its core's other pieces and what is on its way. -/
theorem verdictSent_spec {s t : State} {n : Nat} {v : PieceVerdict} {port : Fin 8} (b : Bool) (r : RecIn)
    (ht : t = if b then verdictSent s n v port.val else countVerdictFail (verdictSent s n v port.val) n r) :
    (∀ x ∈ (getCore t n).pieces, x.id ≠ v.id) ∧ frameOut s t port v.dest (verdictFrame v) := by
  have hpieces : (getCore t n).pieces = (getCore (verdictSent s n v port.val) n).pieces := by
    rw [ht]
    split
    · rfl
    · rw [getCore_countVerdictFail, getCore_bumpCore]
  have hout : t.mesh = (verdictSent s n v port.val).mesh ∧ t.ports = (verdictSent s n v port.val).ports := by
    rw [ht]
    split
    · exact ⟨rfl, rfl⟩
    · exact ⟨(countVerdictFail_frame ..).2, (countVerdictFail_frame ..).1⟩
  refine ⟨fun x hx => ?_, ?_⟩
  · rw [hpieces, pieces_verdictSent] at hx
    simpa using (List.mem_filter.mp hx).2
  · exact frameOut_toCask (u := verdictAwaited s n v v.id (1 + (resentFrames (getCore s n) v).length)) rfl rfl
      List.mem_cons_self hout.1 hout.2

/-- Settles O50: verdicts clear or fail what depends on them, verdict frames follow their pieces, and a complete entry is
written. -/
theorem verdictsAndJournal : Obligations.VerdictsAndJournal := by
  unfold Obligations.VerdictsAndJournal
  refine ⟨?verdicts, ?frames, ?journal⟩
  case verdicts =>
    intro core id rep s0 v
    dsimp only
    intro hv
    have hid : v.id = id := by
      have h := List.find?_some hv
      simp only [Bool.and_eq_true, beq_iff_eq] at h
      exact h.1
    refine ⟨verdict_waits hv rep, fun h hwf hchk => ⟨fun hpass => ?_, fun mn hfail => ?_⟩⟩
    · exact ⟨_, verdict_passes hv h rep hpass, verdictPassed_spec hwf hchk core.val id⟩
    · have hspec := verdictFailed_spec hwf hchk core.val v mn rep
      rw [hid] at hspec
      exact ⟨_, verdict_fails hv h rep hfail, hspec⟩
  case frames =>
    intro core id s p v port hp hv hdeps hheld hport hgone
    rw [← hport] at hgone
    obtain ⟨b, r, hexec⟩ := verdictFrameSend_ready hp hv hdeps hheld hgone
    rw [hport] at hexec
    obtain ⟨hpieces, hout⟩ := verdictSent_spec b r rfl
    have hid : v.id = id := by simpa using List.find?_some hv
    exact ⟨_, verdictFrame v, hexec, hid ▸ hpieces, hout, rfl, rfl, rfl, rfl⟩
  case journal =>
    intro q s0 p hp
    dsimp only
    exact ⟨fun hreset hready hpart hstarve hlines => ⟨_, journalEntry_ready hp hreset hready.1 hready.2 hlines,
      finishEntry_spec hpart hstarve⟩, fun h => journalEntry_waits hp h⟩

end Sys2Proof.Machine
end

section
/-! Rings and contexts (R519 to R533): what a completion, a change of a partition's quadrants and a reset's first steps leave,
as the obligations on contexts, resets and ring commands use them. -/

namespace Sys2Proof.Machine

/-! ### Partitions and their quadrants -/

theorem modPartQuads_frame (s : State) (p : Part) (g : Quad → Quad) :
    modPartQuads s p g = { s with quads := (modPartQuads s p g).quads } := by
  unfold modPartQuads
  suffices hfold : ∀ (qs : List Nat) (t : State), qs.foldl (fun t q => modQuad t q g) t =
      { t with quads := (qs.foldl (fun t q => modQuad t q g) t).quads } from hfold _ s
  intro qs
  induction qs with
  | nil => exact fun _ => rfl
  | cons q qs ih =>
    intro t
    rw [List.foldl_cons, ih]
    rfl

/-- A change of another partition is not seen. -/
theorem partAt_modPart_other {s : State} {low low' : Nat} {g : Part → Part} (hg : ∀ x, (g x).low = x.low) (h : low ≠ low') :
    partAt (modPart s low' g) low = partAt s low := by
  unfold partAt modPart
  dsimp only
  induction s.parts with
  | nil => rfl
  | cons x ps ih =>
    rw [List.map_cons, List.find?_cons, List.find?_cons, ih]
    by_cases hx : x.low = low'
    · have h1 : (g x).low ≠ low := by rw [hg, hx]; exact fun e => h e.symm
      have h2 : x.low ≠ low := by rw [hx]; exact fun e => h e.symm
      rw [if_pos hx, beq_eq_false_iff_ne.mpr h1, beq_eq_false_iff_ne.mpr h2]
    · rw [if_neg hx]

/-! ### Completions (R526) -/

theorem completeCmd_frame (s : State) (r : Nat) (tag : Half) (status detail : Nat) :
    completeCmd s r tag status detail = { s with rings := (completeCmd s r tag status detail).rings
                                                 host := (completeCmd s r tag status detail).host } := by
  unfold completeCmd
  dsimp only
  split
  · rw [raiseVector_frame]
    rfl
  · rfl

theorem completeBusy_frame (s : State) (r opc status detail : Nat) :
    completeBusy s r opc status detail = { s with rings := (completeBusy s r opc status detail).rings
                                                  host := (completeBusy s r opc status detail).host } := by
  unfold completeBusy
  split
  · split
    · exact completeCmd_frame ..
    · rfl
  · rfl

theorem raiseVector_rings (s : State) (v : Nat) : (raiseVector s v).rings = s.rings ∧
    (raiseVector s v).host.completions = s.host.completions := by
  rw [raiseVector_frame]
  exact ⟨rfl, rfl⟩

/-- A command completes on its ring, and no other ring changes. -/
theorem completeCmd_spec (s : State) (r : Nat) (tag : Half) (status detail : Nat) :
    completes s (completeCmd s r tag status detail) r tag status detail ∧
      ∀ j, j ≠ r → getRing (completeCmd s r tag status detail) j = getRing s j := by
  have hring : ∀ (t : State) (v j : Nat), getRing (raiseVector t v) j = getRing t j := by
    intro t v j
    rw [getRing, (raiseVector_rings t v).1, ← getRing]
  unfold completeCmd completes
  dsimp only
  split
  · rw [(raiseVector_rings ..).2, hring]
    refine ⟨⟨_, rfl, rfl, rfl, rfl, rfl, rfl, ?_⟩, fun j hj => ?_⟩
    · exact congrArg Ring.busy (getRing_setRing_same ..)
    · rw [hring]
      exact (getRing_setRing ..).trans (if_neg hj)
  · refine ⟨⟨_, rfl, rfl, rfl, rfl, rfl, rfl, ?_⟩, fun j hj => ?_⟩
    · exact congrArg Ring.busy (getRing_setRing_same ..)
    · exact (getRing_setRing ..).trans (if_neg hj)

/-- A completion told from a state with the same ring and completions. -/
theorem completes_of {s u t : State} {r : Nat} {tag : Half} {status detail : Nat} (hr : getRing u r = getRing s r)
    (hh : u.host.completions = s.host.completions) (h : completes u t r tag status detail) :
    completes s t r tag status detail := by
  unfold completes at *
  rwa [hr, hh] at h

theorem completeBusy_of {s : State} {r opc : Nat} {b : Busy} (hb : (getRing s r).busy = some b) (ho : b.opc = opc)
    (status detail : Nat) : completeBusy s r opc status detail = completeCmd s r b.tag status detail := by
  unfold completeBusy
  rw [hb]
  dsimp only
  rw [if_pos ho]

theorem completeBusy_idle {s : State} {r : Nat} (hb : (getRing s r).busy = none) (opc status detail : Nat) :
    completeBusy s r opc status detail = s := by
  unfold completeBusy
  rw [hb]

/-- The STOP in progress, if there is one, completes. -/
theorem completeBusy_completes {s u : State} {r opc : Nat} {b : Busy} (hb : (getRing s r).busy = some b) (ho : b.opc = opc)
    (hr : u.rings = s.rings) (hh : u.host = s.host) (status detail : Nat) :
    completes s (completeBusy u r opc status detail) r b.tag status detail := by
  have hring : getRing u r = getRing s r := by rw [getRing, hr, ← getRing]
  rw [completeBusy_of (by rw [hring]; exact hb) ho]
  exact completes_of hring (by rw [hh]) (completeCmd_spec ..).1

/-- Of rings of which one alone is busy, that one completes its command. -/
theorem foldl_completeBusy_one {l : List Nat} {r opc : Nat} (hl : l.Nodup) (hr : r ∈ l) (s : State) (status detail : Nat)
    (h : ∀ j ∈ l, j ≠ r → (getRing s j).busy = none) :
    l.foldl (fun s r => completeBusy s r opc status detail) s = completeBusy s r opc status detail := by
  have hidle : ∀ (l : List Nat) (t : State), (∀ j ∈ l, (getRing t j).busy = none) →
      l.foldl (fun s r => completeBusy s r opc status detail) t = t := by
    intro l
    induction l with
    | nil => exact fun _ _ => rfl
    | cons a l ih =>
      intro t ht
      rw [List.foldl_cons, completeBusy_idle (ht a List.mem_cons_self)]
      exact ih t (fun j hj => ht j (List.mem_cons_of_mem a hj))
  have hother : ∀ j, j ≠ r → getRing (completeBusy s r opc status detail) j = getRing s j := by
    intro j hj
    unfold completeBusy
    split
    · split
      · exact (completeCmd_spec ..).2 j hj
      · rfl
    · rfl
  induction l with
  | nil => simp at hr
  | cons a l ih =>
    obtain ⟨ha, hl⟩ := List.nodup_cons.mp hl
    rw [List.foldl_cons]
    rcases List.mem_cons.mp hr with rfl | hmem
    · refine hidle l _ (fun j hj => ?_)
      have hne : j ≠ r := fun e => ha (e ▸ hj)
      rw [hother j hne]
      exact h j (List.mem_cons_of_mem r hj) hne
    · rw [completeBusy_idle (h a List.mem_cons_self (fun e => ha (e ▸ hmem)))]
      exact ih hl hmem (fun j hj => h j (List.mem_cons_of_mem a hj))

theorem foldl_completeBusy_frame (l : List Nat) (s : State) (opc status detail : Nat) :
    l.foldl (fun s r => completeBusy s r opc status detail) s =
      { s with rings := (l.foldl (fun s r => completeBusy s r opc status detail) s).rings
               host := (l.foldl (fun s r => completeBusy s r opc status detail) s).host } := by
  induction l generalizing s with
  | nil => rfl
  | cons r l ih =>
    rw [List.foldl_cons, ih]
    generalize hu : (l.foldl (fun s r => completeBusy s r opc status detail) (completeBusy s r opc status detail)) = u
    rw [completeBusy_frame]

/-! ### Cores of a list -/

/-- A rule that changes nothing the second time reaches each core of a list once. -/
theorem getCore_foldl_modCore {g : Core → Core} (hg : ∀ c, g (g c) = g c) (ns : List Nat) (s : State) (n : Nat) :
    getCore (ns.foldl (fun s n => modCore s n g) s) n = if n ∈ ns then g (getCore s n) else getCore s n := by
  induction ns generalizing s with
  | nil => simp
  | cons m ns ih =>
    rw [List.foldl_cons, ih, getCore_modCore]
    by_cases h : n = m
    · subst h
      simp [hg]
    · simp [h]

/-! ### A context leaves RUNNING (R55, R125, R431) -/

theorem leaveRunning_frame (s : State) (p : Part) (ctx : Ctx) : leaveRunning s p ctx =
    { s with quads := (leaveRunning s p ctx).quads, parts := (leaveRunning s p ctx).parts } := by
  unfold leaveRunning
  dsimp only
  rw [modPartQuads_frame]
  rfl

/-- A partition that has left RUNNING. -/
def leftRunning (ctx : Ctx) (p : Part) : Part := { p with ctx := ctx, stopping := false, replayLeft := 0, s4Hold := none }

theorem partAt_leaveRunning {s : State} {p q : Part} (hq : partAt s p.low = some q) (ctx : Ctx) :
    partAt (leaveRunning s p ctx) p.low = some (leftRunning ctx q) := by
  refine partAt_modPart ?_ (fun _ => rfl)
  rw [modPartQuads_frame]
  exact hq

theorem replay_leaveRunning (s : State) (p : Part) (ctx : Ctx) {r : Nat} (hr : r ∈ partQuads p) :
    bit (getQuad (leaveRunning s p ctx) r).ctxMode 1 = false := by
  rw [leaveRunning, getQuad_modPart, getQuad_modPartQuads s p _ hr]
  exact (bit_setBits _ 1 1 0 (by decide)).trans (if_pos (by decide))

/-- A core whose shuttles have halted. -/
theorem haltCore_spec (c : Core) : (haltCore c).store = c.store ∧
    ∀ sh, (shOf (haltCore c) sh).mode = .halted ∨ (shOf (haltCore c) sh).mode = .ended := by
  have hone : ∀ x : Sh, (if x.mode = .ended then x else { x with mode := .halted }).mode = .halted ∨
      (if x.mode = .ended then x else { x with mode := .halted }).mode = .ended := by
    intro x
    split
    · next h => exact .inr h
    · exact .inl rfl
  refine ⟨rfl, fun sh => ?_⟩
  cases sh
  · exact hone c.f
  · exact hone c.b
  · exact hone c.u

/-! ### Stopping contexts -/

theorem stopAll_frame (s : State) : stopAll s = { s with parts := (stopAll s).parts } := by
  unfold stopAll
  suffices hfold : ∀ (ps : List Part) (t : State), ps.foldl (fun s p => stopPart s p.low) t =
      { t with parts := (ps.foldl (fun s p => stopPart s p.low) t).parts } from hfold _ s
  intro ps
  induction ps with
  | nil => exact fun _ => rfl
  | cons p ps ih =>
    intro t
    rw [List.foldl_cons, ih]
    rfl

/-- A context that is not RUNNING is not stopped. -/
theorem partAt_stopAll {s : State} {low : Nat} {p : Part} (hp : partAt s low = some p) (h : p.ctx ≠ .running) :
    partAt (stopAll s) low = some p := by
  unfold stopAll
  generalize s.parts = ps
  induction ps generalizing s with
  | nil => exact hp
  | cons x ps ih =>
    rw [List.foldl_cons]
    refine ih ?_
    have hlow : ∀ y : Part, (if y.ctx = .running then { y with stopping := true } else y).low = y.low := by
      intro y
      split <;> rfl
    by_cases hx : low = x.low
    · rw [hx] at hp ⊢
      exact (partAt_modPart hp hlow).trans (congrArg some (if_neg h))
    · exact (partAt_modPart_other hlow hx).trans hp

/-- A stop keeps of every partition what it does not look at. -/
theorem stopAll_parts {P : Part → Prop} (hP : ∀ p, P p → P { p with stopping := true }) {s : State} (h : ∀ p ∈ s.parts, P p) :
    ∀ p ∈ (stopAll s).parts, P p := by
  unfold stopAll
  suffices hfold : ∀ (qs : List Part) (t : State), (∀ p ∈ t.parts, P p) →
      ∀ p ∈ (qs.foldl (fun s p => stopPart s p.low) t).parts, P p from hfold s.parts s h
  intro qs
  induction qs with
  | nil => exact fun t ht => ht
  | cons x qs ih =>
    intro t ht
    rw [List.foldl_cons]
    refine ih _ (fun p hp => ?_)
    obtain ⟨y, hy, rfl⟩ := List.mem_map.mp hp
    by_cases hx : y.low = x.low
    · rw [if_pos hx]
      show P (if y.ctx = .running then { y with stopping := true } else y)
      split
      · exact hP y (ht y hy)
      · exact ht y hy
    · rw [if_neg hx]
      exact ht y hy

end Sys2Proof.Machine
end

section
/-! Resets, hangs and the ends of contexts (R55, R125, R601 to R621): the obligation on contexts, hangs and resets. -/

namespace Sys2Proof.Machine

/-! ### The shuttle that stood longest (R603) -/

theorem longest_spec {l : List (Nat × Shuttle × Nat)} {x : Nat × Shuttle × Nat} (h : longest l = some x) :
    x ∈ l ∧ ∀ y ∈ l, x.2.2 ≤ y.2.2 := by
  induction l generalizing x with
  | nil => cases h
  | cons a l ih =>
    rw [longest] at h
    cases hl : longest l with
    | none =>
      rw [hl] at h
      cases h
      have hnil : l = [] := by
        cases l with
        | nil => rfl
        | cons b l =>
          rw [longest] at hl
          split at hl
          · cases hl
          · split at hl <;> cases hl
      subst hnil
      simp
    | some y =>
      rw [hl] at h
      dsimp only at h
      obtain ⟨hy, hleast⟩ := ih hl
      split at h
      · next hlt =>
        cases h
        refine ⟨List.mem_cons_of_mem _ hy, fun z hz => ?_⟩
        rcases List.mem_cons.mp hz with rfl | hz
        · omega
        · exact hleast z hz
      · next hge =>
        cases h
        refine ⟨List.mem_cons_self, fun z hz => ?_⟩
        rcases List.mem_cons.mp hz with rfl | hz
        · omega
        · have := hleast z hz
          omega

/-! ### What a reset's first steps leave (R607, R618) -/

/-- Frames given back: only casks and what is on its way differ. -/
def unheld (s t : State) : Prop := t = { s with casks := t.casks, ports := t.ports, mesh := t.mesh }

theorem unheld_trans {s t u : State} (h : unheld s t) (k : unheld t u) : unheld s u := by
  unfold unheld at *
  rw [k, h]

theorem unheld_linked {s t : State} (h : linked s t) : unheld s t := by
  unfold unheld
  rw [h]

/-- In a partition that a reset covers a frame is counted late, and no more. -/
theorem caskAct_covered {s : State} {p : Part} {rx : Rx} (hp : partAt s (faLow rx.frame.addr) = some p)
    (hreset : p.reset.isSome = true) (cfg : Word × Word × Word) :
    ∃ k, caskAct s rx cfg = .acted (bumpCask s k caskLate (frameUnits rx.frame)) := by
  unfold caskAct
  dsimp only
  rw [hp]
  dsimp only
  rw [hreset, Bool.true_or, if_pos rfl]
  exact ⟨_, congrArg CaskEnd.acted (discardLate_quiet ..)⟩

theorem releaseFrame_covered {s : State} {p : Part} {h : HeldFrame} (hp : partAt s (faLow h.rx.frame.addr) = some p)
    (hreset : p.reset.isSome = true) (k : Nat) : unheld s (releaseFrame k s h) := by
  obtain ⟨j, hact⟩ := caskAct_covered hp hreset h.cfg
  unfold releaseFrame
  rw [hact]
  dsimp only
  refine unheld_trans ?_ (unheld_linked (linked_trans (linked_sendTo _ _) (linked_freeRx ..)))
  rfl

theorem discardHeld_covered {s : State} {p q : Part} (hq : partAt s p.low = some q) (hreset : q.reset.isSome = true) :
    unheld s (discardHeld s p) := by
  have hframes : ∀ (k : Nat) (hs : List HeldFrame) (t : State), (∀ h ∈ hs, faLow h.rx.frame.addr = p.low) → unheld s t →
      unheld s (hs.foldl (releaseFrame k) t) := by
    intro k hs
    induction hs with
    | nil => exact fun t _ ht => ht
    | cons h hs ih =>
      intro t hmem ht
      refine ih _ (fun x hx => hmem x (List.mem_cons_of_mem h hx)) (unheld_trans ht (releaseFrame_covered ?_ hreset k))
      rw [hmem h List.mem_cons_self, ht]
      exact hq
  have hcasks : ∀ (ks : List Nat) (t : State), unheld s t → unheld s (ks.foldl (fun s k =>
      ((getCask s k).held.filter (fun h => faLow h.rx.frame.addr == p.low)).foldl (releaseFrame k) s) t) := by
    intro ks
    induction ks with
    | nil => exact fun t ht => ht
    | cons k ks ih =>
      intro t ht
      refine ih _ (hframes k _ t (fun h hh => ?_) ht)
      simpa using (List.mem_filter.mp hh).2
  exact hcasks _ s rfl

/-- A core that a reset has halted. -/
def resetHalted (c : Core) : Prop :=
  c.flight = [] ∧ c.verdicts = [] ∧
    ∀ sh, (shOf c sh).mode = .halted ∨ (shOf c sh).mode = .off ∨ (shOf c sh).mode = .ended

theorem haltForReset_halted (c : Core) : resetHalted (haltForReset c) := by
  have hone : ∀ x : Sh, (haltSh x).mode = .halted ∨ (haltSh x).mode = .off ∨ (haltSh x).mode = .ended := by
    intro x
    unfold haltSh
    dsimp only
    split
    · next h => exact .inr h
    · exact .inl rfl
  refine ⟨rfl, rfl, fun sh => ?_⟩
  cases sh
  · exact hone c.f
  · exact hone c.b
  · exact hone c.u

theorem endTests_frame (s : State) (p : Part) :
    endTests s p = { s with selfTest := (endTests s p).selfTest, parts := (endTests s p).parts } := by
  have hfold : ∀ (ns : List Nat) (t : State), ns.foldl returnToLeft t =
      { t with selfTest := (ns.foldl returnToLeft t).selfTest } := by
    intro ns
    induction ns with
    | nil => exact fun _ => rfl
    | cons n ns ih =>
      intro t
      rw [List.foldl_cons, ih]
      rfl
  unfold endTests
  dsimp only
  rw [hfold]
  rfl

theorem partAt_endTests {s : State} {p q : Part} (hq : partAt s p.low = some q) :
    partAt (endTests s p) p.low = some { q with testing := [] } := by
  unfold endTests
  dsimp only
  refine partAt_modPart ?_ (fun _ => rfl)
  refine (partAt_parts ?_ _).trans hq
  exact foldl_keeps (g := State.parts) (f := returnToLeft) (fun _ _ => rfl) _ s

/-- Cores halted, quadrants and partition covered by a sequence. -/
def resetCovered (s : State) (p : Part) (q : ResetSeq) : State :=
  modPart (modPartQuads ((partCores p).foldl (fun s n => modCore s n haltForReset) s) p
    (fun x => { x with hangCtrl := setBits x.hangCtrl 24 1 0, idle := 0, exitAt := none })) p.low
    (fun x => { x with reset := some q, hangShuttle := none, stopping := false, s4Hold := none })

/-- The state before the frames held for the partition are given back. -/
def resetHeld (s : State) (p : Part) (q : ResetSeq) : State :=
  resetCovered (endTests (dropHeldSignals (abandonPart s p) p) p) p q

theorem beginReset_eq (s : State) (p : Part) (q : ResetSeq) :
    beginReset s p q = completeBusy (discardHeld (resetHeld s p q) p) p.low cStop stState 0 := rfl

theorem resetCovered_frame (s : State) (p : Part) (q : ResetSeq) : resetCovered s p q = { s with
    cores := ((partCores p).foldl (fun s n => modCore s n haltForReset) s).cores
    quads := (resetCovered s p q).quads, parts := (resetCovered s p q).parts } := by
  unfold resetCovered
  rw [modPartQuads_frame, foldl_modCore_frame]
  rfl

theorem partAt_resetCovered {s : State} {p x : Part} (hx : partAt s p.low = some x) (q : ResetSeq) :
    ∃ y, partAt (resetCovered s p q) p.low = some y ∧ y.reset = some q := by
  refine ⟨_, partAt_modPart (p := x) ?_ (fun _ => rfl), rfl⟩
  rw [modPartQuads_frame, foldl_modCore_frame]
  exact hx

theorem resetCovered_halted (s : State) (p : Part) (q : ResetSeq) {n : Nat} (hn : n ∈ partCores p) :
    resetHalted (getCore (resetCovered s p q) n) := by
  rw [resetCovered_frame]
  exact foldl_modCore_mem haltForReset_halted (partCores p) s (.inl hn)

theorem resetHeld_spec {s : State} {p : Part} (hp : partAt s p.low = some p) (q : ResetSeq) :
    (resetHeld s p q).hbm = s.hbm ∧ (resetHeld s p q).lpddr = s.lpddr ∧
      (∃ x, partAt (resetHeld s p q) p.low = some x ∧ x.reset = some q) ∧
      ∀ n ∈ partCores p, resetHalted (getCore (resetHeld s p q) n) := by
  have hpart : partAt (dropHeldSignals (abandonPart s p) p) p.low = some p := hp
  have hhbm : (dropHeldSignals (abandonPart s p) p).hbm = s.hbm := rfl
  have hlpddr : (dropHeldSignals (abandonPart s p) p).lpddr = s.lpddr := rfl
  unfold resetHeld
  generalize dropHeldSignals (abandonPart s p) p = t at hpart hhbm hlpddr
  refine ⟨?_, ?_, partAt_resetCovered (partAt_endTests hpart) q, fun n hn => resetCovered_halted _ p q hn⟩
  · rw [resetCovered_frame, endTests_frame, ← hhbm]
  · rw [resetCovered_frame, endTests_frame, ← hlpddr]

/-- What begins when a reset does: memory as before, the sequence in its partition, its cores halted. -/
theorem beginReset_spec {s : State} {p : Part} (hp : partAt s p.low = some p) (q : ResetSeq) :
    (beginReset s p q).hbm = s.hbm ∧ (beginReset s p q).lpddr = s.lpddr ∧
      (∃ x, partAt (beginReset s p q) p.low = some x ∧ x.reset = some q) ∧
      ∀ n ∈ partCores p, resetHalted (getCore (beginReset s p q) n) := by
  obtain ⟨hhbm, hlpddr, ⟨x, hx, hreset⟩, hcores⟩ := resetHeld_spec hp q
  have hgiven : unheld (resetHeld s p q) (discardHeld (resetHeld s p q) p) :=
    discardHeld_covered hx (by rw [hreset]; rfl)
  rw [beginReset_eq]
  generalize discardHeld (resetHeld s p q) p = u at hgiven
  generalize resetHeld s p q = t at hhbm hlpddr hx hcores hgiven
  rw [completeBusy_frame, hgiven]
  exact ⟨hhbm, hlpddr, ⟨x, hx, hreset⟩, hcores⟩

theorem quadReset_frame (s : State) (p : Part) :
    quadReset s p = { s with quads := (quadReset s p).quads, signals := (quadReset s p).signals } := by
  unfold quadReset
  dsimp only
  rw [modPartQuads_frame]

/-- A level below L4 begins. -/
theorem enterLevel_spec {s : State} {p : Part} {q : ResetSeq} (h : q.level ≠ 4) :
    ∃ quads signals, enterLevel s p q = { coverPart q s p with quads := quads, signals := signals } := by
  unfold enterLevel
  rw [if_neg h]
  dsimp only
  split
  · exact ⟨_, _, quadReset_frame ..⟩
  · exact ⟨_, _, rfl⟩

/-! ### A level that passes its limit (R614, R615) -/

/-- The sequence with its next level in progress. -/
def deeperSeq (s : State) (x : ResetSeq) : ResetSeq :=
  { x with level := x.level + 1, source := 2, levelBegan := s.pll, escalated := true }

theorem passLimit_deeper {s : State} {p : Part} {x : ResetSeq} (hp : partAt s p.low = some p) (hx : p.reset = some x)
    (h : x.level < 3) : (passLimit s p x).hbm = s.hbm ∧ (passLimit s p x).lpddr = s.lpddr ∧
      ∃ p', partAt (passLimit s p x) p.low = some p' ∧ p'.reset = some (deeperSeq s x) := by
  have hnext : passLimit s p x = enterLevel s p (deeperSeq s x) := by
    unfold passLimit
    rw [if_pos (by omega)]
    unfold requestReset joined
    rw [if_neg (by omega), hx]
    dsimp only
    rw [if_neg (by omega)]
    unfold deeperSeq
    simp
  obtain ⟨quads, signals, hlevel⟩ := enterLevel_spec (s := s) (p := p) (q := deeperSeq s x) (by
    show x.level + 1 ≠ 4
    omega)
  have hcover : coverPart (deeperSeq s x) s p = modPart s p.low (fun y => { y with reset := some (deeperSeq s x) }) := by
    unfold coverPart
    rw [hx]
    rfl
  rw [hnext, hlevel, hcover]
  exact ⟨rfl, rfl, _, partAt_modPart hp (fun _ => rfl), rfl⟩

theorem withdraw_frame (s : State) (times : List Nat) :
    let t := withdraw s times
    t = { s with parts := (stopAll s).parts, flash := { s.flash with withdrawn := true }, boot := { s.boot with service := 3 }
                 hbm := t.hbm, poisonHbm := t.poisonHbm, errors := t.errors, draws := t.draws, host := t.host } := by
  intro t
  unfold t withdraw
  dsimp only
  rw [raiseVector_frame, record_frame_eq, stopAll_frame]

/-- What an L4 beyond its limit leaves. -/
theorem passLimit_last {s : State} {p : Part} {x : ResetSeq} (h : x.level = 4) :
    (passLimit s p x).power.l5Request = true ∧ (passLimit s p x).boot.service = 3 ∧ (passLimit s p x).cores = s.cores ∧
      ∀ p' ∈ (passLimit s p x).parts, ∀ y, p'.reset = some y → y.overrun = true := by
  unfold passLimit
  rw [if_neg (by omega)]
  dsimp only
  have hover : ∀ p' ∈ s.parts.map (fun (p : Part) => { p with
      reset := p.reset.map (fun (y : ResetSeq) => { y with overrun := true }) }), ∀ y, p'.reset = some y → y.overrun = true := by
    intro p' hp' y hy
    obtain ⟨z, -, rfl⟩ := List.mem_map.mp hp'
    obtain ⟨w, -, rfl⟩ := Option.map_eq_some_iff.mp hy
    rfl
  generalize s.parts.map (fun (p : Part) => { p with
    reset := p.reset.map (fun (y : ResetSeq) => { y with overrun := true }) }) = ps at hover
  unfold requestL5
  rw [record_frame_eq]
  split
  · next hservice => exact ⟨rfl, hservice, rfl, hover⟩
  · rw [withdraw_frame]
    exact ⟨rfl, rfl, rfl, stopAll_parts (fun p' hp' => hp') hover⟩

/-! ### A partition cleared (R218, R612) -/

theorem clearCore_idem (c : Core) : clearCore (clearCore c) = clearCore c := rfl

/-- A cask without a partition's buckets. -/
def caskCleared (low : Nat) (c : Cask) : Cask := { c with buckets := c.buckets.filter (fun x => x.low != low) }

/-- The clearing of R218, its steps named. -/
theorem clearPart_eq (s : State) (p : Part) : ∃ abandoned signals, clearPart s p =
    modPart ((partCasks p).foldl (fun t k => modCask t k (caskCleared p.low)) (modPartQuads
      ((partCores p).foldl (fun t n => modCore t n clearCore) { s with abandoned := abandoned, signals := signals }) p
      clearQuad)) p.low emptyPart := ⟨_, _, rfl⟩

theorem clearPart_frame (s : State) (p : Part) : let t := clearPart s p
    t = { s with abandoned := t.abandoned, signals := t.signals, cores := t.cores, quads := t.quads, casks := t.casks
                 parts := t.parts } := by
  intro t
  obtain ⟨abandoned, signals, h⟩ := clearPart_eq s p
  unfold t
  rw [h, foldl_modCask_frame (g := fun _ => caskCleared p.low), modPartQuads_frame, foldl_modCore_frame]
  rfl

theorem getCore_clearPart (s : State) (p : Part) (n : Nat) :
    getCore (clearPart s p) n = if n ∈ partCores p then clearCore (getCore s n) else getCore s n := by
  obtain ⟨abandoned, signals, h⟩ := clearPart_eq s p
  rw [h, getCore_modPart, foldl_modCask_frame (g := fun _ => caskCleared p.low), modPartQuads_frame]
  exact getCore_foldl_modCore clearCore_idem (partCores p) _ n

theorem getQuad_clearPart (s : State) (p : Part) {r : Nat} (hr : r ∈ partQuads p) :
    getQuad (clearPart s p) r = clearQuad (getQuad s r) := by
  obtain ⟨abandoned, signals, h⟩ := clearPart_eq s p
  rw [h, getQuad_modPart, foldl_modCask_frame (g := fun _ => caskCleared p.low)]
  refine (getQuad_modPartQuads _ p _ hr).trans ?_
  rw [foldl_modCore_frame]
  rfl

theorem getCask_clearPart (s : State) (p : Part) (k : Nat) :
    getCask (clearPart s p) k = if k ∈ partCasks p then caskCleared p.low (getCask s k) else getCask s k := by
  obtain ⟨abandoned, signals, h⟩ := clearPart_eq s p
  rw [h, getCask_modPart, modPartQuads_frame, foldl_modCore_frame]
  exact getCask_foldl_modCask (g := fun _ => caskCleared p.low) (fun _ _ _ => rfl) (nodup_partCasks p) _ k

theorem partAt_clearPart {s : State} {p q : Part} (hq : partAt s p.low = some q) :
    partAt (clearPart s p) p.low = some (emptyPart q) := by
  obtain ⟨abandoned, signals, h⟩ := clearPart_eq s p
  rw [h]
  refine partAt_modPart ?_ (fun _ => rfl)
  rw [foldl_modCask_frame (g := fun _ => caskCleared p.low), modPartQuads_frame, foldl_modCore_frame]
  exact hq

/-! ### A sequence that completes (R612, R618 to R620) -/

/-- The quadrants and the partition at the end of a sequence. -/
theorem finishPart_spec {s : State} {p : Part} (hp : partAt s p.low = some p) :
    partAt (finishPart s p) p.low = some { emptyPart p with reset := none, afterReset := true } ∧
      (∀ n, getCore (finishPart s p) n = getCore (clearPart s p) n) ∧
      (∀ r ∈ partQuads p, bit (getQuad (finishPart s p) r).hangCtrl 24 = false ∧
        (getQuad (finishPart s p) r).maskGen = 0 ∧ (getQuad (finishPart s p) r).ctxMode = 0) ∧
      (∀ k, getCask (finishPart s p) k = getCask (clearPart s p) k) ∧
      (finishPart s p).lpddr = s.lpddr ∧ (finishPart s p).resets = s.resets ∧ (finishPart s p).pll = s.pll := by
  unfold finishPart
  have hpart := partAt_clearPart hp
  have hquad : ∀ r ∈ partQuads p, getQuad (modPartQuads (clearPart s p) p (fun x =>
      { x with hangCtrl := setBits x.hangCtrl 24 1 0 })) r =
        { clearQuad (getQuad s r) with hangCtrl := setBits (getQuad s r).hangCtrl 24 1 0 } := by
    intro r hr
    rw [getQuad_modPartQuads _ p _ hr, getQuad_clearPart s p hr]
    rfl
  have hframe := clearPart_frame s p
  dsimp only at hframe
  refine ⟨partAt_modPart (p := emptyPart p) ?_ (fun _ => rfl), fun n => ?_, fun r hr => ?_, fun k => ?_, ?_⟩
  · rw [modPartQuads_frame]
    exact hpart
  · rw [getCore_modPart, modPartQuads_frame]
    rfl
  · rw [getQuad_modPart, hquad r hr]
    exact ⟨(bit_setBits _ 24 1 0 (by decide)).trans (if_pos (by decide)), rfl, rfl⟩
  · rw [getCask_modPart, modPartQuads_frame]
    rfl
  · rw [modPartQuads_frame, hframe]
    exact ⟨rfl, rfl, rfl⟩

/-- Counting, recording and perhaps withdrawing: what they leave of the module. -/
structure Reported (s t : State) : Prop where
  frame : t = { s with resets := { s.resets with history := t.resets.history }, parts := t.parts, flash := t.flash
                       boot := t.boot, hbm := t.hbm, poisonHbm := t.poisonHbm, errors := t.errors, draws := t.draws
                       host := t.host }
  idle : ∀ low x, partAt s low = some x → x.ctx ≠ .running → partAt t low = some x

theorem Reported.refl (s : State) : Reported s s := ⟨rfl, fun _ _ h _ => h⟩

theorem Reported.trans {s t u : State} (h : Reported s t) (k : Reported t u) : Reported s u :=
  ⟨by rw [k.frame, h.frame], fun low x hx hidle => k.idle low x (h.idle low x hx hidle) hidle⟩

theorem Reported.record (s : State) (r : RecIn) : Reported s (record s r) := by
  refine ⟨?_, fun low x hx _ => ?_⟩ <;> rw [record_frame_eq]
  exact hx

theorem Reported.withdraw (s : State) (times : List Nat) : Reported s (withdraw s times) := by
  have hframe := withdraw_frame s times
  dsimp only at hframe
  refine ⟨?_, fun low x hx hidle => ?_⟩ <;> rw [hframe]
  exact partAt_stopAll hx hidle

theorem Reported.noteHistory (s : State) (q : ResetSeq) : Reported s (noteHistory s q) := by
  unfold Machine.noteHistory
  split
  · exact .refl s
  · have hlogged : Reported s { s with resets := { s.resets with history := recentResets s ++ [s.pll] } } :=
      ⟨rfl, fun _ _ h _ => h⟩
    dsimp only
    split
    · exact hlogged.trans (.withdraw ..)
    · exact hlogged

/-- A sequence is counted under its level. -/
def resetCounted (s : State) (level : Nat) : State :=
  { s with resets := { s.resets with counts := bumpTbl s.resets.counts level 1, last := level } }

theorem reportReset_eq (s : State) (p : Part) (q : ResetSeq) : ∃ r r', reportReset s p q =
    noteHistory (if q.escalated then record (record (resetCounted s q.level) r) r' else record (resetCounted s q.level) r) q :=
  ⟨_, _, rfl⟩

theorem reportReset_reported (s : State) (p : Part) (q : ResetSeq) :
    Reported (resetCounted s q.level) (reportReset s p q) := by
  obtain ⟨r, r', h⟩ := reportReset_eq s p q
  have hfirst := Reported.record (resetCounted s q.level) r
  rw [h]
  split
  · exact (hfirst.trans (.record ..)).trans (.noteHistory ..)
  · exact hfirst.trans (.noteHistory ..)

theorem resetCounted_counts (s : State) (level : Nat) :
    tget 0 (resetCounted s level).resets.counts level = tget 0 s.resets.counts level + 1 := tget_tset_same ..

/-- A level below L4 completes. -/
theorem resetSequence_completes {q : Fin 8} {s : State} {p : Part} {x : ResetSeq} (hp : partOf s q.val = some p)
    (hx : p.reset = some x) (hlevel : x.level < 4) (hlimit : s.pll ≤ x.levelBegan + levelLimit x.level ∨ x.overrun = true)
    (hdone : localDone s p = true) : exec (.resetSequenceComplete q) s =
      .next (completeBusy (reportReset (finishPart s p) p x) p.low cReset stDone x.level) := by
  have hpast : pastLimit s x = false := by
    unfold pastLimit
    rcases hlimit with h | h
    · rw [decide_eq_false (by omega), Bool.false_and]
    · rw [h, Bool.not_true, Bool.and_false]
  show execResetSequenceComplete q s = _
  unfold execResetSequenceComplete
  rw [hp]
  dsimp only
  rw [hx]
  dsimp only
  rw [hpast, if_neg Bool.false_ne_true, if_neg (by omega : ¬ x.level = 4), List.all_cons, hdone]
  rfl

/-- A level beyond its limit goes on, whether its timeout or its completion comes. -/
theorem reset_passes {q : Fin 8} {s : State} {p : Part} {x : ResetSeq} (hp : partOf s q.val = some p)
    (hx : p.reset = some x) (hlimit : x.levelBegan + levelLimit x.level < s.pll) (hover : x.overrun = false) :
    exec (.resetLevelTimeout q) s = .next (passLimit s p x) ∧ exec (.resetSequenceComplete q) s = .next (passLimit s p x) := by
  have hpast : pastLimit s x = true := by
    unfold pastLimit
    rw [decide_eq_true hlimit, hover]
    rfl
  constructor
  · show execResetLevelTimeout q s = _
    unfold execResetLevelTimeout
    rw [hp]
    dsimp only
    rw [hx]
    dsimp only
    rw [hpast, if_pos rfl]
  · show execResetSequenceComplete q s = _
    unfold execResetSequenceComplete
    rw [hp]
    dsimp only
    rw [hx]
    dsimp only
    rw [hpast, if_pos rfl]

theorem resetLevel_waits {q : Fin 8} {s : State} {p : Part} {x : ResetSeq} (hp : partOf s q.val = some p)
    (hx : p.reset = some x) (h : s.pll ≤ x.levelBegan + levelLimit x.level ∨ x.overrun = true) :
    exec (.resetLevelTimeout q) s = .next s := by
  have hpast : pastLimit s x = false := by
    unfold pastLimit
    rcases h with h | h
    · rw [decide_eq_false (by omega), Bool.false_and]
    · rw [h, Bool.not_true, Bool.and_false]
  show execResetLevelTimeout q s = _
  unfold execResetLevelTimeout
  rw [hp]
  dsimp only
  rw [hx]
  dsimp only
  rw [hpast, if_neg Bool.false_ne_true]

/-! ### A hang (R601 to R605) -/

/-- The state in which a hang has been found. -/
def hangFound (s : State) (p : Part) (n : Nat) (sh : Shuttle) : State :=
  modPart ((partQuads p).foldl (fun t q => noteW1c t (0x40008 + 0x1000 * q) 24)
    (modPartQuads s p (fun x => { x with hangCtrl := setBits x.hangCtrl 24 1 1 }))) p.low
    (fun x => { x with hangShuttle := some (n, sh, s.pll) })

theorem foldl_noteW1c_frame (a : Nat → Nat) (b : Nat) (qs : List Nat) (s : State) : let t := qs.foldl (fun t q => noteW1c t (a q) b) s
    t = { s with w1c := t.w1c, w1cAt := t.w1cAt } := by
  induction qs generalizing s with
  | nil => rfl
  | cons q qs ih =>
    have h := ih (noteW1c s (a q) b)
    dsimp only at h ⊢
    rw [List.foldl_cons, h]
    rfl

theorem hangFound_frame (s : State) (p : Part) (n : Nat) (sh : Shuttle) : hangFound s p n sh =
    { s with quads := (modPartQuads s p (fun x => { x with hangCtrl := setBits x.hangCtrl 24 1 1 })).quads
             parts := (hangFound s p n sh).parts, w1c := (hangFound s p n sh).w1c, w1cAt := (hangFound s p n sh).w1cAt } := by
  have h := foldl_noteW1c_frame (fun q => 0x40008 + 0x1000 * q) 24 (partQuads p)
    (modPartQuads s p (fun x => { x with hangCtrl := setBits x.hangCtrl 24 1 1 }))
  dsimp only at h
  unfold hangFound
  rw [h, modPartQuads_frame]
  rfl

theorem partAt_hangFound {s : State} {p : Part} (hp : partAt s p.low = some p) (n : Nat) (sh : Shuttle) :
    partAt (hangFound s p n sh) p.low = some { p with hangShuttle := some (n, sh, s.pll) } := by
  have h := foldl_noteW1c_frame (fun q => 0x40008 + 0x1000 * q) 24 (partQuads p)
    (modPartQuads s p (fun x => { x with hangCtrl := setBits x.hangCtrl 24 1 1 }))
  dsimp only at h
  refine partAt_modPart ?_ (fun _ => rfl)
  rw [h, modPartQuads_frame]
  exact hp

theorem hangDetect_found {q : Fin 8} {s : State} {p : Part} {n at_ : Nat} {sh : Shuttle} (hp : partOf s q.val = some p)
    (hlong : longest (standing s p) = some (n, sh, at_)) (hw : watched s p = true) (hat : at_ + hangWindow s p ≤ s.pll) :
    ∃ r, exec (.hangDetect q) s = .next (partVector (record (hangFound s p n sh) r) p.low 3) := by
  show ∃ r, execHangDetect q s = _
  unfold execHangDetect
  rw [hp]
  dsimp only
  rw [hlong]
  dsimp only
  rw [hw, decide_eq_true hat, Bool.and_true, if_pos rfl]
  refine ⟨_, congrArg Host.Outcome.next (congrArg (partVector · p.low 3) (congrArg₂ record ?_ rfl))⟩
  rw [hangFound]
  have h := foldl_noteW1c_frame (fun q => 0x40008 + 0x1000 * q) 24 (partQuads p)
    (modPartQuads s p (fun x => { x with hangCtrl := setBits x.hangCtrl 24 1 1 }))
  dsimp only at h
  rw [h, modPartQuads_frame]

theorem hangDetect_waits {q : Fin 8} {s : State} {p : Part} {n at_ : Nat} {sh : Shuttle} (hp : partOf s q.val = some p)
    (hlong : longest (standing s p) = some (n, sh, at_)) (h : watched s p = false ∨ s.pll < at_ + hangWindow s p) :
    exec (.hangDetect q) s = .next s := by
  have hcond : (watched s p && decide (at_ + hangWindow s p ≤ s.pll)) = false := by
    rcases h with h | h
    · rw [h, Bool.false_and]
    · rw [decide_eq_false (by omega), Bool.and_false]
  show execHangDetect q s = _
  unfold execHangDetect
  rw [hp]
  dsimp only
  rw [hlong]
  dsimp only
  rw [hcond, if_neg Bool.false_ne_true]

/-- A hang found: the context runs on, HUNG is set in every quadrant. -/
theorem hangFound_spec {s : State} {p : Part} (hp : partAt s p.low = some p) (n : Nat) (sh : Shuttle) (r : RecIn) :
    let t := partVector (record (hangFound s p n sh) r) p.low 3
    partAt t p.low = some { p with hangShuttle := some (n, sh, s.pll) } ∧ t.cores = s.cores ∧
      ∀ j ∈ partQuads p, bit (getQuad t j).hangCtrl 24 = true := by
  intro t
  have ht : t.parts = (hangFound s p n sh).parts ∧ t.cores = (hangFound s p n sh).cores ∧
      t.quads = (hangFound s p n sh).quads := by
    unfold t partVector
    rw [raiseVector_frame, record_frame_eq]
    exact ⟨rfl, rfl, rfl⟩
  obtain ⟨hparts, hcores, hquads⟩ := ht
  refine ⟨(partAt_parts hparts _).trans (partAt_hangFound hp n sh), ?_, fun j hj => ?_⟩
  · rw [hcores, hangFound_frame]
  · rw [getQuad, hquads, hangFound_frame]
    show bit (getQuad (modPartQuads s p _) j).hangCtrl 24 = true
    rw [getQuad_modPartQuads s p _ hj]
    exact (bit_setBits _ 24 1 1 (by decide)).trans (if_pos (by decide))

/-- AUTO starts a reset of its level. -/
theorem hangAutoReset_starts {q : Fin 8} {s : State} {p : Part} {n at_ : Nat} {sh : Shuttle} (hp : partOf s q.val = some p)
    (hhang : p.hangShuttle = some (n, sh, at_)) (hauto : bits (getQuad s p.low).hangCtrl 16 2 ≠ 0) (hctx : p.ctx = .running)
    (hreset : p.reset = none) (hstood : (shOf (getCore s n) sh).progressAt ≤ at_) (hat : at_ + hangWindow s p ≤ s.pll)
    (hs4 : p.s4Hold = none) : exec (.hangAutoReset q) s =
      .next (enterLevel s p { first := bits (getQuad s p.low).hangCtrl 16 2, level := bits (getQuad s p.low).hangCtrl 16 2,
                              source := 1, escalated := false, began := s.pll, levelBegan := s.pll }) := by
  have hlevel : bits (getQuad s p.low).hangCtrl 16 2 ≠ 4 := by
    have : bits (getQuad s p.low).hangCtrl 16 2 < 4 := Nat.mod_lt _ (by decide)
    omega
  show execHangAutoReset q s = _
  unfold execHangAutoReset
  rw [hp]
  dsimp only
  rw [hhang]
  dsimp only
  rw [if_pos ⟨hauto, hctx, by rw [hreset]; rfl, hstood, hat, by rw [hs4]; rfl⟩]
  unfold requestReset joined
  rw [if_neg hlevel, hreset]

end Sys2Proof.Machine
end

section
/-! The obligation on contexts, hangs and resets: its clauses, and the theorem that puts them together. -/

namespace Sys2Proof.Machine

section Clauses
variable {q : Fin 8} {s : State} {p : Part} (hp : partOf s q.val = some p)
include hp

theorem contextStopped_stops (hctx : p.ctx = .running) (hreset : p.reset = none) (hfault : p.faultFirst = none)
    (hheld : (p.stopping = true ∧ allSh s p shHeld = true) ∨ allSh s p shEnded = true) :
    exec (.contextStopped q) s = .next (completeBusy (leaveRunning s p .stopped) p.low cStop stDone 0) := by
  have hcond : (p.ctx == .running && p.reset.isNone && p.faultFirst.isNone &&
      ((p.stopping && allSh s p shHeld) || allSh s p shEnded)) = true := by
    simpa [hctx, hreset, hfault] using hheld
  show execContextStopped q s = _
  unfold execContextStopped
  rw [hp]
  dsimp only
  rw [if_pos hcond]

theorem contextStopped_waits (hctx : p.ctx ≠ .running) : exec (.contextStopped q) s = .next s := by
  show execContextStopped q s = _
  unfold execContextStopped
  rw [hp]
  dsimp only
  rw [if_neg (by simp [hctx])]

theorem contextFaulted_faults (hctx : p.ctx = .running ∨ p.ctx = .stopped) (hreset : p.reset = none)
    (hfault : p.faultFirst.isSome = true) (hheld : allSh s p (shHalted s.cc) = true) : exec (.contextFaulted q) s =
      .next (completeBusy (leaveRunning (p.map.foldl (fun s n => modCore s n haltCore) s) p .faulted) p.low cStop
        stFaulted 0) := by
  have hcond : ((p.ctx == .running || p.ctx == .stopped) && p.reset.isNone && p.faultFirst.isSome &&
      allSh s p (shHalted s.cc)) = true := by
    rcases hctx with h | h <;> simp [h, hreset, hfault, hheld]
  show execContextFaulted q s = _
  unfold execContextFaulted
  rw [hp]
  dsimp only
  rw [if_pos hcond]

theorem contextFaulted_waits (hr : p.ctx ≠ .running) (hs : p.ctx ≠ .stopped) : exec (.contextFaulted q) s = .next s := by
  show execContextFaulted q s = _
  unfold execContextFaulted
  rw [hp]
  dsimp only
  rw [if_neg (by simp [hr, hs])]

/-- The state in which a partition's clearing has ended. -/
def clearEnded (s : State) (p : Part) : State := modPart s p.low (fun x => { x with clearing := none })

theorem contextClear_ends (h : p.clearing.isSome = true) : exec (.contextClearComplete q) s =
    .next ((partQuads p).foldl (fun s r => completeBusy s r cUnload stDone 0) (clearEnded s p)) := by
  show execContextClearComplete q s = _
  unfold execContextClearComplete
  rw [hp]
  dsimp only
  rw [if_pos h]
  rfl

end Clauses

/-- A context that leaves RUNNING, with its STOP completed. -/
theorem left_spec {s : State} {p : Part} (hp : partAt s p.low = some p) (ctx : Ctx) (st : Nat) :
    let t := completeBusy (leaveRunning s p ctx) p.low cStop st 0
    partAt t p.low = some (leftRunning ctx p) ∧ t.cores = s.cores ∧ t.hbm = s.hbm ∧ t.lpddr = s.lpddr ∧
      (∀ r ∈ partQuads p, bit (getQuad t r).ctxMode 1 = false) ∧
      ∀ b, (getRing s p.low).busy = some b → b.opc = cStop → completes s t p.low b.tag st 0 := by
  have hframe := leaveRunning_frame s p ctx
  have hpart := partAt_leaveRunning hp ctx
  have hmode : ∀ r ∈ partQuads p, bit (getQuad (leaveRunning s p ctx) r).ctxMode 1 = false :=
    fun r hr => replay_leaveRunning s p ctx hr
  generalize leaveRunning s p ctx = u at hframe hpart hmode
  intro t
  refine ⟨?_, ?_, ?_, ?_, fun r hr => ?_, fun b hb ho => ?_⟩
  · unfold t
    rw [completeBusy_frame]
    exact hpart
  · unfold t
    rw [completeBusy_frame, hframe]
  · unfold t
    rw [completeBusy_frame, hframe]
  · unfold t
    rw [completeBusy_frame, hframe]
  · unfold t
    rw [completeBusy_frame]
    exact hmode r hr
  · exact completeBusy_completes hb ho (by rw [hframe]) (by rw [hframe]) st 0

/-- A context that a fault ends: its shuttles have halted or ended. -/
theorem faulted_spec {s : State} {p : Part} (hp : partAt s p.low = some p) :
    let t := completeBusy (leaveRunning (p.map.foldl (fun s n => modCore s n haltCore) s) p .faulted) p.low cStop stFaulted 0
    partAt t p.low = some (leftRunning .faulted p) ∧
      (∀ b, (getRing s p.low).busy = some b → b.opc = cStop → completes s t p.low b.tag stFaulted 0) ∧
      ∀ n ∈ p.map, (getCore t n).store = (getCore s n).store ∧ ∀ sh, (shOf (getCore t n) sh).mode = .halted ∨
        (shOf (getCore t n) sh).mode = .ended := by
  have hframe := foldl_modCore_frame (g := haltCore) p.map s
  have hmode : ∀ n ∈ p.map, ∀ sh, (shOf (getCore (p.map.foldl (fun s n => modCore s n haltCore) s) n) sh).mode = .halted ∨
      (shOf (getCore (p.map.foldl (fun s n => modCore s n haltCore) s) n) sh).mode = .ended :=
    fun n hn => foldl_modCore_mem (P := fun c => ∀ sh, (shOf c sh).mode = .halted ∨ (shOf c sh).mode = .ended)
      (fun c => (haltCore_spec c).2) p.map s (.inl hn)
  have hstore : ∀ n, (getCore (p.map.foldl (fun s n => modCore s n haltCore) s) n).store = (getCore s n).store := by
    intro n
    refine foldl_keeps (g := fun s => (getCore s n).store) (fun t m => ?_) p.map s
    rw [getCore_modCore]
    split
    · next h => rw [h]; rfl
    · rfl
  generalize p.map.foldl (fun s n => modCore s n haltCore) s = u at hframe hmode hstore
  have hu : partAt u p.low = some p := by
    rw [hframe]
    exact hp
  obtain ⟨hpart, hcores, -, -, -, hstop⟩ := left_spec hu .faulted stFaulted
  have hring : getRing u p.low = getRing s p.low := by
    rw [hframe]
    rfl
  intro t
  refine ⟨hpart, fun b hb ho => ?_, fun n hn => ?_⟩
  · exact completes_of hring (by rw [hframe]) (hstop b (by rw [hring]; exact hb) ho)
  · rw [getCore_of_cores hcores]
    exact ⟨hstore n, hmode n hn⟩

/-- A clearing that ends completes the UNLOAD of the partition's ring. -/
theorem clearEnded_spec {s : State} {p : Part} (hp : partAt s p.low = some p) :
    let t := (partQuads p).foldl (fun s r => completeBusy s r cUnload stDone 0) (clearEnded s p)
    partAt t p.low = some { p with clearing := none } ∧ t.cores = s.cores ∧
      ∀ r ∈ partQuads p, ∀ b, (getRing s r).busy = some b → b.opc = cUnload →
        (∀ j ∈ partQuads p, j ≠ r → (getRing s j).busy = none) → completes s t r b.tag 0 0 := by
  have hpart : partAt (clearEnded s p) p.low = some { p with clearing := none } := partAt_modPart hp (fun _ => rfl)
  have hring : ∀ j, getRing (clearEnded s p) j = getRing s j := fun _ => rfl
  have hframe : (clearEnded s p).cores = s.cores ∧ (clearEnded s p).rings = s.rings ∧ (clearEnded s p).host = s.host :=
    ⟨rfl, rfl, rfl⟩
  generalize clearEnded s p = u at hpart hring hframe
  intro t
  refine ⟨?_, ?_, fun r hr b hb ho hidle => ?_⟩
  · unfold t
    rw [foldl_completeBusy_frame]
    exact hpart
  · unfold t
    rw [foldl_completeBusy_frame]
    exact hframe.1
  · unfold t
    rw [foldl_completeBusy_one (nodup_partQuads p) hr u stDone 0 (fun j hj hne => by rw [hring]; exact hidle j hj hne)]
    exact completeBusy_completes hb ho hframe.2.1 hframe.2.2 0 0

/-- A reset below L4 that starts. -/
theorem started_spec {s : State} {p : Part} (hp : partAt s p.low = some p) (hreset : p.reset = none) (q : ResetSeq)
    (hlevel : q.level ≠ 4) :
    (∀ n ∈ partCores p, resetHalted (getCore (enterLevel s p q) n)) ∧ (enterLevel s p q).lpddr = s.lpddr ∧
      (enterLevel s p q).hbm = s.hbm ∧ ∃ x, partAt (enterLevel s p q) p.low = some x ∧ x.reset = some q := by
  obtain ⟨quads, signals, hframe⟩ := enterLevel_spec (s := s) (p := p) hlevel
  have hcover : coverPart q s p = beginReset s p q := by
    rw [coverPart, if_neg (by rw [hreset]; exact Bool.false_ne_true)]
  obtain ⟨hhbm, hlpddr, hpart, hcores⟩ := beginReset_spec hp q
  rw [hframe, hcover]
  generalize beginReset s p q = u at hhbm hlpddr hpart hcores
  exact ⟨hcores, hlpddr, hhbm, hpart⟩

/-- A sequence below L4 that completes. -/
theorem completed_spec {s : State} {p : Part} (hp : partAt s p.low = some p) (x : ResetSeq) :
    let t := completeBusy (reportReset (finishPart s p) p x) p.low cReset stDone x.level
    partAt t p.low = some { emptyPart p with reset := none, afterReset := true } ∧ t.lpddr = s.lpddr ∧
      (∀ n, getCore t n = getCore (clearPart s p) n) ∧
      (∀ r ∈ partQuads p, bit (getQuad t r).hangCtrl 24 = false ∧ (getQuad t r).maskGen = 0 ∧ (getQuad t r).ctxMode = 0) ∧
      (∀ k, getCask t k = getCask (clearPart s p) k) ∧
      tget 0 t.resets.counts x.level = tget 0 s.resets.counts x.level + 1 ∧ t.resets.last = x.level := by
  obtain ⟨hpart, hcore, hquad, hcask, hlpddr, hresets, -⟩ := finishPart_spec hp
  have hreport := reportReset_reported (finishPart s p) p x
  have hcount : tget 0 (resetCounted (finishPart s p) x.level).resets.counts x.level =
      tget 0 s.resets.counts x.level + 1 := by rw [resetCounted_counts, hresets]
  generalize reportReset (finishPart s p) p x = u at hreport
  generalize finishPart s p = v at *
  have hidle := hreport.idle p.low _ hpart Ctx.noConfusion
  have hframe := hreport.frame
  intro t
  have ht : t = { u with rings := t.rings, host := t.host } := completeBusy_frame ..
  refine ⟨?_, ?_, fun n => ?_, fun r hr => ?_, fun k => ?_, ?_, ?_⟩
  · rw [ht]
    exact hidle
  · rw [ht, hframe]
    exact hlpddr
  · rw [ht, hframe]
    exact hcore n
  · rw [ht, hframe]
    exact hquad r hr
  · rw [ht, hframe]
    exact hcask k
  · rw [ht, hframe]
    exact hcount
  · rw [ht, hframe]
    rfl

/-- Settles O51: contexts stop, fault and clear, hangs are found, and resets start, escalate and complete. -/
theorem contextsHangsResets : Obligations.ContextsHangsResets := by
  unfold Obligations.ContextsHangsResets
  refine ⟨fun l x h => longest_spec h, fun q s p hp hpart => ?_⟩
  dsimp only
  refine ⟨fun hctx hreset hfault hheld => ?stops, fun hctx hreset hfault hheld => ?faults, contextStopped_waits hp,
    contextFaulted_waits hp, fun hclear => ?clears, fun n sh at_ hlong => ⟨fun hw hat => ?hang, hangDetect_waits hp hlong⟩,
    fun n sh at_ hhang hauto hctx hreset hstood hat hs4 => ?auto, fun x hx => ⟨resetLevel_waits hp hx,
      fun hlimit hover hlevel => ?deeper, fun hlimit hover hlevel => ?last, fun hlevel hlimit hdone => ?completes⟩⟩
  case stops =>
    obtain ⟨hleft, hcores, hhbm, hlpddr, hmode, hstop⟩ := left_spec hpart .stopped 0
    exact ⟨_, _, contextStopped_stops hp hctx hreset hfault hheld, hleft, rfl, rfl, hcores, hhbm, hlpddr, hmode, hstop⟩
  case faults =>
    obtain ⟨hleft, hstop, hcores⟩ := faulted_spec hpart
    exact ⟨_, _, contextFaulted_faults hp hctx hreset hfault hheld, hleft, rfl, hstop, hcores⟩
  case clears =>
    obtain ⟨hleft, hcores, hunload⟩ := clearEnded_spec hpart
    exact ⟨_, _, contextClear_ends hp hclear, hleft, rfl, rfl, hcores, hunload⟩
  case hang =>
    obtain ⟨r, hexec⟩ := hangDetect_found hp hlong hw hat
    obtain ⟨hfound, hcores, hhung⟩ := hangFound_spec hpart n sh r
    have hctx : p.ctx = .running := by
      unfold watched at hw
      simp only [Bool.and_eq_true, beq_iff_eq] at hw
      exact hw.1.1.1
    exact ⟨_, _, hexec, hfound, hctx, rfl, hcores, hhung⟩
  case auto =>
    have hlevel : bits (getQuad s p.low).hangCtrl 16 2 ≠ 4 := by
      have : bits (getQuad s p.low).hangCtrl 16 2 < 4 := Nat.mod_lt _ (by decide)
      omega
    obtain ⟨hcores, hlpddr, hhbm, p', hp', hseq⟩ := started_spec hpart hreset
      { first := bits (getQuad s p.low).hangCtrl 16 2, level := bits (getQuad s p.low).hangCtrl 16 2, source := 1,
        escalated := false, began := s.pll, levelBegan := s.pll } hlevel
    exact ⟨_, p', hangAutoReset_starts hp hhang hauto hctx hreset hstood hat hs4, hp', hcores, hlpddr, hhbm, _, hseq, rfl,
      rfl, rfl, rfl⟩
  case deeper =>
    obtain ⟨htimeout, hcomplete⟩ := reset_passes hp hx hlimit hover
    obtain ⟨hhbm, hlpddr, p', hp', hseq⟩ := passLimit_deeper hpart hx hlevel
    exact ⟨⟨_, p', htimeout, hp', hhbm, hlpddr, hseq⟩, _, p', hcomplete, hp', hhbm, hlpddr, hseq⟩
  case last =>
    exact ⟨_, (reset_passes hp hx hlimit hover).1, passLimit_last hlevel⟩
  case completes =>
    obtain ⟨hp', hlpddr, hcores, hquads, hcasks, hcount, hlast⟩ := completed_spec hpart x
    refine ⟨_, _, resetSequence_completes hp hx hlevel hlimit hdone, hp', rfl, rfl, rfl, hlpddr, fun n hn => ?_,
      fun n hn => ?_, hquads, fun k hk y hy => ?_, hcount, hlast⟩
    · rw [hcores, getCore_clearPart, if_pos hn]
    · rw [hcores, getCore_clearPart, if_neg hn]
    · rw [hcasks, getCask_clearPart, if_pos hk] at hy
      simpa using (List.mem_filter.mp hy).2

end Sys2Proof.Machine
end

section
/-! Ring commands (R519 to R528): how a ring takes an entry, and what LOAD, START, STOP and UNLOAD leave. -/

namespace Sys2Proof.Machine

/-! ### Taking an entry (R523) -/

/-- The state once ring r has taken the entry at HEAD. -/
def ringTaken (s : State) (r : Nat) : State := modRing s r (fun x => { x with head := ringNext x x.head })

theorem ringTaken_frame (s : State) (r : Nat) : ringTaken s r = { s with rings := (ringTaken s r).rings } := rfl

theorem low_of_ringRuns {opc : Nat} {r : Fin 8} {e : CmdEntry} {s : State} {p : Part} (h : ringRuns opc r e s p) :
    p.low = r.val := by
  obtain ⟨-, -, -, -, -, hp⟩ := h
  simpa using List.find?_some hp

/-- A sound entry with sound fields: the command acts in the states that accept it, else completes with status 0x20. -/
theorem ringCommand_runs {opc : Nat} {r : Fin 8} {e : CmdEntry} {s : State} {p : Part} (h : ringRuns opc r e s p)
    {fields : Bool} (hf : fields = false) (states : Part → Bool) (g : Part → State → State) :
    ringCommand opc r e s fields states g = .next (if states p then g p (ringTaken s r.val)
      else completeCmd (ringTaken s r.val) r.val e.tag stState 0) := by
  obtain ⟨hready, hrow, hbad, hentry, hservice, hp⟩ := h
  unfold ringCommand
  rw [hready, hrow, hbad, hentry, hf, hservice, hp]
  rfl

/-- A completion of a command on the state that has taken it. -/
theorem taken_completes {s u : State} {r : Nat} (hrings : u.rings = (ringTaken s r).rings) (hhost : u.host = s.host)
    (tag : Half) (status detail : Nat) : completes s (completeCmd u r tag status detail) r tag status detail := by
  have hring : getRing u r = { getRing s r with head := ringNext (getRing s r) (getRing s r).head } := by
    rw [getRing, hrings]
    exact getRing_modRing_same ..
  obtain ⟨c, hc, h1, h2, h3, h4, haddr, hbusy⟩ := (completeCmd_spec u r tag status detail).1
  rw [hring] at haddr
  rw [hhost] at hc
  exact ⟨c, hc, h1, h2, h3, h4, haddr, hbusy⟩

/-- A command refused for its context state. -/
theorem refused_spec (s : State) (r : Nat) (tag : Half) :
    let t := completeCmd (ringTaken s r) r tag stState 0
    t.parts = s.parts ∧ t.cores = s.cores ∧ completes s t r tag 0x20 0 := by
  intro t
  have ht : t = { ringTaken s r with rings := t.rings, host := t.host } := completeCmd_frame ..
  exact ⟨by rw [ht]; rfl, by rw [ht]; rfl, taken_completes rfl rfl tag stState 0⟩

theorem getRing_keepBusy (s : State) (r opc : Nat) (tag : Half) :
    (getRing (keepBusy s r opc tag) r).busy = some { opc := opc, tag := tag } :=
  congrArg Ring.busy (getRing_modRing_same ..)

/-! ### The map of a load (R57 to R66) -/

theorem nodup_quadCores (q : Nat) : (quadCores q).Nodup :=
  List.Nodup.map (fun i j (h : 24 * q + i = 24 * q + j) => by omega) List.nodup_range

theorem mem_quadCores {q n : Nat} (h : n ∈ quadCores q) : n / 24 = q := by
  obtain ⟨i, hi, rfl⟩ := List.mem_map.mp h
  have := List.mem_range.mp hi
  omega

/-- The cores of a quadrant's part of a map: each once, all of the quadrant. -/
theorem mapQuad_cores {s : State} {q k : Nat} {a : List Nat} {f : Option Nat} (h : mapQuad s q k = some (a, f)) :
    a.Nodup ∧ ∀ n ∈ a, n / 24 = q := by
  have hpresent : (presentCores s q).Nodup ∧ ∀ n ∈ presentCores s q, n / 24 = q :=
    ⟨(nodup_quadCores q).filter _, fun n hn => mem_quadCores (List.mem_filter.mp hn).1⟩
  have hgood : ((presentCores s q).filter (fun n => !isFenced s n)).Nodup := hpresent.1.filter _
  unfold mapQuad at h
  dsimp only at h
  split at h
  · cases h
  · split at h
    · cases h
      exact ⟨hgood.sublist (List.take_sublist ..),
        fun n hn => hpresent.2 n (List.mem_filter.mp (List.mem_of_mem_take hn)).1⟩
    · split at h
      · split at h
        · cases h
          exact hpresent
        · cases h
      · cases h

theorem mapPart_cores {s : State} {qs ks : List Nat} {m : List Nat} {l : List (Nat × Option Nat)} (hqs : qs.Nodup)
    (h : mapPart s qs ks = some (m, l)) : m.Nodup ∧ ∀ n ∈ m, n / 24 ∈ qs := by
  induction qs generalizing ks m l with
  | nil =>
    cases ks with
    | nil => cases h; simp
    | cons k ks => cases h
  | cons q qs ih =>
    obtain ⟨hq, hqs⟩ := List.nodup_cons.mp hqs
    cases ks with
    | nil => cases h
    | cons k ks =>
      rw [mapPart] at h
      split at h
      · next a f b l' ha hb =>
        cases h
        obtain ⟨hna, hma⟩ := mapQuad_cores ha
        obtain ⟨hnb, hmb⟩ := ih hqs hb
        refine ⟨List.nodup_append'.mpr ⟨hna, hnb, fun n hn hn' => hq ?_⟩, fun n hn => ?_⟩
        · rw [← hma n hn]
          exact hmb n hn'
        · rcases List.mem_append.mp hn with h | h
          · rw [hma n h]
            exact List.mem_cons_self
          · exact List.mem_cons_of_mem q (hmb n h)
      · cases h

theorem mapPart_taken (s : State) (r : Nat) (qs ks : List Nat) : mapPart (ringTaken s r) qs ks = mapPart s qs ks := by
  induction qs generalizing ks with
  | nil => cases ks <;> rfl
  | cons q qs ih =>
    cases ks with
    | nil => rfl
    | cons k ks =>
      rw [mapPart, mapPart, ih]
      rfl

theorem loadRefusal_taken (s : State) (r : Nat) (p : Part) (x : Binary) (cs : List CoreImage) :
    loadRefusal (ringTaken s r) p x cs = loadRefusal s p x cs := by
  unfold loadRefusal
  rw [mapPart_taken]
  rfl

/-! ### Memory written -/

theorem writeMem_frame (s : State) (t : Tier) (xs : List Poke) : let u := writeMem s t xs
    u = { s with hbm := u.hbm, lpddr := u.lpddr, poisonHbm := u.poisonHbm, poisonLpddr := u.poisonLpddr
                 poisonFound := u.poisonFound } := by
  cases t <;> rfl

/-! ### What a load leaves (R52) -/

/-- A load's cores: each of the map with its image. -/
def coresLoaded (s : State) (p : Part) (l : List (Nat × CoreImage)) : State :=
  l.foldl (fun s y => modCore s y.1 (fun c => loadCore s p c y.2)) s

theorem coresLoaded_frame (s : State) (p : Part) (l : List (Nat × CoreImage)) :
    coresLoaded s p l = { s with cores := (coresLoaded s p l).cores } := by
  unfold coresLoaded
  induction l generalizing s with
  | nil => rfl
  | cons y l ih =>
    rw [List.foldl_cons, ih]
    rfl

/-- A core holds an image's streams and plans. -/
def holdsImage (c : Core) (x : CoreImage) : Prop := c.imgF = x.f ∧ c.imgB = x.b ∧ c.imgU = x.u ∧ c.plans = x.plans

theorem coresLoaded_holds {s : State} {p : Part} {l : List (Nat × CoreImage)} (hl : (l.map Prod.fst).Nodup) {n : Nat}
    {x : CoreImage} (h : (n, x) ∈ l) : holdsImage (getCore (coresLoaded s p l) n) x := by
  have hother : ∀ (l : List (Nat × CoreImage)) (t : State), n ∉ l.map Prod.fst → getCore (coresLoaded t p l) n = getCore t n := by
    intro l
    induction l with
    | nil => exact fun _ _ => rfl
    | cons y l ih =>
      intro t hn
      rw [List.map_cons, List.mem_cons, not_or] at hn
      refine (ih _ hn.2).trans ?_
      rw [getCore_modCore, if_neg hn.1]
  induction l generalizing s with
  | nil => simp at h
  | cons y l ih =>
    rw [List.map_cons] at hl
    obtain ⟨hy, hl⟩ := List.nodup_cons.mp hl
    show holdsImage (getCore (coresLoaded (modCore s y.1 (fun c => loadCore s p c y.2)) p l) n) x
    rcases List.mem_cons.mp h with rfl | h
    · rw [hother l _ hy, getCore_modCore_same]
      exact ⟨rfl, rfl, rfl, rfl⟩
    · exact ih hl h

theorem loadPairs_frame (pairs : List (Nat × Option Nat)) (s : State) :
    pairs.foldl loadPair s = { s with quads := (pairs.foldl loadPair s).quads } := by
  induction pairs generalizing s with
  | nil => rfl
  | cons x pairs ih =>
    rw [List.foldl_cons, ih]
    rfl

/-- The first parts of pairs are the first entries of their list. -/
theorem sublist_map_fst_zip {α β : Type} (l : List α) (m : List β) : ((l.zip m).map Prod.fst).Sublist l := by
  induction l generalizing m with
  | nil => simp
  | cons x l ih =>
    cases m with
    | nil => simp
    | cons y m => exact (ih m).cons_cons x

/-- An accepted load, its steps named. -/
def loadAccepted (s : State) (p : Part) (x : Binary) (cs : List CoreImage) (e : CmdEntry) (input : LoadInput) (len : Nat)
    (map : List Nat) (pairs : List (Nat × Option Nat)) : State :=
  modPartQuads (pairs.foldl loadPair (coresLoaded (modPart (writeMemBytes s .hbm e.addr2.toNat (codeBytes cs)) p.low
    (fun _ => loadedPart p x map e input len)) (loadedPart p x map e input len) (map.zip cs))) p
    (fun q => { q with jnlIndex := 0 })

theorem acceptLoad_eq {s : State} {p : Part} {x : Binary} {map : List Nat} {pairs : List (Nat × Option Nat)}
    (h : mapPart s (partQuads p) x.kq = some (map, pairs)) (cs : List CoreImage) (e : CmdEntry) (input : LoadInput) (len : Nat) :
    acceptLoad s p x cs e input len = loadAccepted s p x cs e input len map pairs := by
  unfold acceptLoad
  rw [h]
  rfl

/-- A partition replaced by one of the same place. -/
theorem partAt_replaced {s : State} {p q : Part} {low : Nat} (hp : partAt s low = some p) (hq : q.low = low) :
    partAt (modPart s low (fun _ => q)) low = some q := by
  have hsame : ((fun x : Part => x.low == low) ∘ fun x => if x.low = low then q else x) = fun x => x.low == low := by
    funext x
    rw [Function.comp]
    split
    · next h => rw [hq, h]
    · rfl
  have hlow : p.low = low := by simpa using List.find?_some hp
  rw [partAt, modPart, List.find?_map, hsame]
  rw [partAt] at hp
  rw [hp, Option.map_some, if_pos hlow]

theorem loadAccepted_spec {s : State} {p : Part} (hp : partAt s p.low = some p) (x : Binary) (cs : List CoreImage)
    (e : CmdEntry) (input : LoadInput) (len : Nat) {map : List Nat} (pairs : List (Nat × Option Nat)) (hmap : map.Nodup) :
    let t := loadAccepted s p x cs e input len map pairs
    partAt t p.low = some (loadedPart p x map e input len) ∧ (∀ q ∈ partQuads p, (getQuad t q).jnlIndex = 0) ∧
      onlyTier s t .hbm (pokeAll s.hbm (unitPokes e.addr2.toNat (codeBytes cs))) ∧
      (∀ (i n : Nat) (c : CoreImage), map[i]? = some n → cs[i]? = some c → holdsImage (getCore t n) c) ∧
      t.rings = s.rings ∧ t.host = s.host := by
  have hframe := writeMem_frame s .hbm (unitPokes e.addr2.toNat (codeBytes cs))
  have hwritten := tierMem_writeMem_same s .hbm (unitPokes e.addr2.toNat (codeBytes cs))
  have hkept := fun y hy => tierMem_writeMem_other s (t := .hbm) (x := y) (unitPokes e.addr2.toNat (codeBytes cs)) hy
  dsimp only at hframe
  unfold loadAccepted writeMemBytes
  generalize writeMem s .hbm (unitPokes e.addr2.toNat (codeBytes cs)) = w at hframe hwritten hkept
  have hpart : partAt w p.low = some p := by
    rw [hframe]
    exact hp
  have hholds : ∀ (i n : Nat) (c : CoreImage), map[i]? = some n → cs[i]? = some c →
      holdsImage (getCore (coresLoaded (modPart w p.low (fun _ => loadedPart p x map e input len))
        (loadedPart p x map e input len) (map.zip cs)) n) c := by
    intro i n c hn hc
    refine coresLoaded_holds ?_ (List.mem_of_getElem? (i := i) ?_)
    · exact hmap.sublist (sublist_map_fst_zip ..)
    · rw [List.getElem?_zip_eq_some]
      exact ⟨hn, hc⟩
  have hcores := coresLoaded_frame (modPart w p.low (fun _ => loadedPart p x map e input len))
    (loadedPart p x map e input len) (map.zip cs)
  have hplace : partAt (modPart w p.low (fun _ => loadedPart p x map e input len)) p.low =
      some (loadedPart p x map e input len) := partAt_replaced hpart rfl
  generalize coresLoaded (modPart w p.low (fun _ => loadedPart p x map e input len))
    (loadedPart p x map e input len) (map.zip cs) = u at hholds hcores
  intro t
  have ht : t = { u with quads := t.quads } := by
    unfold t
    rw [modPartQuads_frame, loadPairs_frame]
  refine ⟨?_, fun q hq => ?_, ⟨?_, fun y hy => ?_⟩, fun i n c hn hc => ?_, ?_, ?_⟩
  · rw [ht, hcores]
    exact hplace
  · unfold t
    rw [getQuad_modPartQuads _ p _ hq]
  · rw [ht, hcores]
    exact hwritten
  · rw [ht, hcores]
    exact hkept y hy
  · rw [ht]
    exact hholds i n c hn hc
  · rw [ht, hcores, hframe]
    rfl
  · rw [ht, hcores, hframe]
    rfl

end Sys2Proof.Machine
end

section
/-! Ring commands, continued: START, CHECKPOINT, RESTORE, REPLAY, PARTITION and RESET, and the obligation on all of them. -/

namespace Sys2Proof.Machine

/-! ### A context enters RUNNING (R53, R54) -/

/-- A partition that has entered RUNNING. -/
def enteredRunning (fresh : Bool) (started : Nat) (p : Part) : Part :=
  { p with ctx := .running, jnlStart := if p.jnlFresh then started else p.jnlStart, jnlFresh := false, horizon := []
           stopping := p.stopAtRun, stopAtRun := false, faultFirst := if fresh then none else p.faultFirst }

/-- Cores that start now, however the time is read. -/
theorem foldl_startCore (fresh : Bool) (ns : List Nat) {s t : State} (h : t.pll = s.pll) :
    ns.foldl (fun t n => modCore t n (startCore t.pll fresh)) t = ns.foldl (fun t n => modCore t n (startCore s.pll fresh)) t := by
  induction ns generalizing t with
  | nil => rfl
  | cons n ns ih =>
    rw [List.foldl_cons, List.foldl_cons, h]
    exact ih h

theorem getCore_foldl_other {g : Core → Core} (ns : List Nat) (s : State) {n : Nat} (hn : n ∉ ns) :
    getCore (ns.foldl (fun t n => modCore t n g) s) n = getCore s n := by
  induction ns generalizing s with
  | nil => rfl
  | cons m ns ih =>
    rw [List.mem_cons, not_or] at hn
    rw [List.foldl_cons, ih _ hn.2, getCore_modCore, if_neg hn.1]

theorem enterRunning_eq (s : State) (p : Part) (fresh : Bool) : ∃ now started, enterRunning s p fresh =
    modPart (modPartQuads (p.map.foldl (fun t n => modCore t n (startCore s.pll fresh)) s) p
      (fun q => { q with pairFrom := now })) p.low (enteredRunning fresh started) := by
  rw [← foldl_startCore fresh p.map rfl]
  exact ⟨_, _, rfl⟩

theorem enterRunning_spec {s : State} {p q : Part} (hq : partAt s p.low = some q) (fresh : Bool) :
    let t := enterRunning s p fresh
    t = { s with cores := t.cores, quads := t.quads, parts := t.parts } ∧
      (∃ started, partAt t p.low = some (enteredRunning fresh started q)) ∧
      (∀ r ∈ partQuads p, (getQuad t r).jnlIndex = (getQuad s r).jnlIndex ∧ (getQuad t r).ctxMode = (getQuad s r).ctxMode) ∧
      (fresh = true → ∀ n ∈ p.map, (getCore t n).phase = 0 ∧ (getCore t n).plan = 0) ∧
      ∀ n, n ∉ p.map → getCore t n = getCore s n := by
  obtain ⟨now, started, h⟩ := enterRunning_eq s p fresh
  have hframe := foldl_modCore_frame (g := startCore s.pll fresh) p.map s
  have hfresh : fresh = true → ∀ n ∈ p.map,
      (getCore (p.map.foldl (fun t n => modCore t n (startCore s.pll fresh)) s) n).phase = 0 ∧
      (getCore (p.map.foldl (fun t n => modCore t n (startCore s.pll fresh)) s) n).plan = 0 := by
    intro hf n hn
    exact foldl_modCore_mem (P := fun c => c.phase = 0 ∧ c.plan = 0) (fun c => by rw [hf]; exact ⟨rfl, rfl⟩) p.map s (.inl hn)
  have hother : ∀ n, n ∉ p.map → getCore (p.map.foldl (fun t n => modCore t n (startCore s.pll fresh)) s) n = getCore s n := by
    exact fun n hn => getCore_foldl_other p.map s hn
  intro t
  unfold t
  rw [h]
  generalize p.map.foldl (fun t n => modCore t n (startCore s.pll fresh)) s = u at hframe hfresh hother
  have hu : partAt (modPartQuads u p (fun q => { q with pairFrom := now })) p.low = some q := by
    rw [modPartQuads_frame, hframe]
    exact hq
  refine ⟨?_, ⟨started, partAt_modPart hu (fun _ => rfl)⟩, fun r hr => ?_, fun hf n hn => ?_, fun n hn => ?_⟩
  · rw [modPartQuads_frame, hframe]
    rfl
  · rw [getQuad_modPart, getQuad_modPartQuads u p _ hr, hframe]
    exact ⟨rfl, rfl⟩
  · rw [getCore_modPart, modPartQuads_frame]
    exact hfresh hf n hn
  · rw [getCore_modPart, modPartQuads_frame]
    exact hother n hn

/-! ### CHECKPOINT (R435) -/

/-- What a manifest names holds no poisoned unit. -/
def soundSources (s : State) (manifest : List RecordSource) : Prop :=
  ∀ x ∈ manifest, ∀ u ∈ rangeUnits x.offset x.length, isPoisoned s x.tier u = false

theorem findPoison_sound {s : State} {t : Tier} {u : Nat} (h : isPoisoned s t u = false) (pq : Nat) : findPoison s t pq u = s := by
  unfold findPoison
  rw [h, Bool.false_and, if_neg Bool.false_ne_true]

theorem findPoisons_sound {s : State} (manifest : List RecordSource) (pq : Nat) (h : soundSources s manifest) :
    manifest.foldl (fun s x => (rangeUnits x.offset x.length).foldl (fun s u => findPoison s x.tier pq u) s) s = s := by
  have hone : ∀ (t : Tier) (us : List Nat), (∀ u ∈ us, isPoisoned s t u = false) →
      us.foldl (fun s u => findPoison s t pq u) s = s := by
    intro t us
    induction us with
    | nil => exact fun _ => rfl
    | cons u us ih =>
      intro hu
      rw [List.foldl_cons, findPoison_sound (hu u List.mem_cons_self)]
      exact ih (fun v hv => hu v (List.mem_cons_of_mem u hv))
  induction manifest with
  | nil => rfl
  | cons x manifest ih =>
    rw [List.foldl_cons, hone x.tier _ (h x List.mem_cons_self)]
    exact ih (fun y hy => h y (List.mem_cons_of_mem x hy))

/-- A write makes no unit poisoned. -/
theorem isPoisoned_writeMem {s : State} {x : Tier} {u : Nat} (h : isPoisoned s x u = false) (t : Tier) (xs : List Poke) :
    isPoisoned (writeMem s t xs) x u = false := by
  have hfilter : ∀ (l : List Nat) (f : Nat → Bool), l.contains u = false → (l.filter f).contains u = false := by
    intro l f hl
    simp only [List.contains_eq_mem, decide_eq_false_iff_not, List.mem_filter, not_and] at hl ⊢
    exact fun hu => absurd hu hl
  cases t <;> cases x
  · exact hfilter _ _ h
  · exact h
  · exact h
  · exact hfilter _ _ h

theorem payloadAt_source {k : Nat} {manifest : List RecordSource} {y : Nat × RecordSource} (h : y ∈ payloadAt k manifest) :
    y.2 ∈ manifest := by
  induction manifest generalizing k with
  | nil => cases h
  | cons x manifest ih =>
    rcases List.mem_cons.mp h with rfl | h
    · exact List.mem_cons_self
    · exact List.mem_cons_of_mem x (ih h)

theorem markPoisons_sound {s : State} (off : Nat) (t : Tier) {manifest : List RecordSource} (h : soundSources s manifest) :
    (payloadAt 0 manifest).foldl (fun s x => Machine.markPoison off t s (x.1 + 64, x.2)) s = s := by
  have hnone : ∀ l : List (Nat × RecordSource), (∀ y ∈ l, y.2 ∈ manifest) →
      l.foldl (fun s x => Machine.markPoison off t s (x.1 + 64, x.2)) s = s := by
    intro l
    induction l with
    | nil => exact fun _ => rfl
    | cons y l ih =>
      intro hl
      have hy : (rangeUnits y.2.offset y.2.length).any (isPoisoned s y.2.tier) = false := by
        rw [List.any_eq_false]
        intro u hu
        rw [h y.2 (hl y List.mem_cons_self) u hu]
        exact Bool.false_ne_true
      have hstay : Machine.markPoison off t s (y.1 + 64, y.2) = s := by
        unfold Machine.markPoison
        dsimp only
        rw [hy, if_neg Bool.false_ne_true]
      rw [List.foldl_cons, hstay]
      exact ih (fun z hz => hl z (List.mem_cons_of_mem y hz))
  exact hnone _ (fun y hy => payloadAt_source hy)

/-- A checkpoint of sound sources writes its image. -/
theorem doCheckpoint_writes {s : State} {e : CmdEntry} {manifest : List RecordSource} (r : Nat) (p : Part)
    (hin : inTier s (ckTier e.addr0) (ckOff e.addr0) e.len0.toNat = true)
    (htiers : ∀ x ∈ manifest, inTier s x.tier x.offset x.length = true) (hsound : soundSources s manifest)
    (hlen : ckLength manifest ≤ e.len0.toNat) : doCheckpoint r e manifest p s =
      completeCmd (writeMem s (ckTier e.addr0) (bytePokes (ckOff e.addr0) (ckImage s p manifest))) r e.tag stDone
        (ckLength manifest) := by
  have hall : manifest.all (fun x => inTier s x.tier x.offset x.length) = true := List.all_eq_true.mpr htiers
  have hafter : soundSources (writeMem s (ckTier e.addr0) (bytePokes (ckOff e.addr0) (ckImage s p manifest))) manifest :=
    fun x hx u hu => isPoisoned_writeMem (hsound x hx u hu) _ _
  unfold doCheckpoint
  dsimp only
  rw [hin, hall, Bool.not_true, Bool.or_self, if_neg Bool.false_ne_true, if_neg (by omega), findPoisons_sound manifest p.low hsound,
    markPoisons_sound _ _ hafter]

/-! ### RESTORE and REPLAY (R430, R431, R436) -/

/-- No check of a restore fails. -/
def restoreSound (s : State) (e : CmdEntry) (targets : List RecordTarget) : Prop :=
  inTier s (ckTier e.addr0) (ckOff e.addr0) 64 = true ∧
    (imageLeaves s e && (imagePoison s e (readHead s e)).isNone && (headBad s (readHead s e)).isNone) = false ∧
    imagePoison s e (if imageLeaves s e then readHead s e else readImage s e) = none ∧
    imgBad s (if imageLeaves s e then readHead s e else readImage s e) = none ∧
    (imgMoves targets (if imageLeaves s e then readHead s e else readImage s e)).all
      (fun x => inTier s x.1.tier x.1.offset x.2.length) = true

theorem restoreBad_none (s : State) (p : Part) (e : CmdEntry) (targets : List RecordTarget) :
    restoreBad s p e targets = none ↔ restoreSound s e targets := by
  unfold restoreBad restoreSound
  dsimp only
  cases inTier s (ckTier e.addr0) (ckOff e.addr0) 64 with
  | false => simp
  | true =>
    rw [Bool.not_true, if_neg Bool.false_ne_true]
    cases (imageLeaves s e && (imagePoison s e (readHead s e)).isNone && (headBad s (readHead s e)).isNone) with
    | true => simp
    | false =>
      rw [if_neg Bool.false_ne_true]
      generalize (if imageLeaves s e then readHead s e else readImage s e) = img
      cases imagePoison s e img with
      | some u => simp
      | none =>
        dsimp only
        cases imgBad s img with
        | some k => simp
        | none => simp

theorem restoreBad_taken {s : State} {p : Part} {e : CmdEntry} {targets : List RecordTarget} (r : Nat)
    (h : restoreBad s p e targets = none) : restoreBad (ringTaken s r) p e targets = none := by
  have htier : inTier (ringTaken s r) = inTier s := rfl
  have hleaves : imageLeaves (ringTaken s r) e = imageLeaves s e := rfl
  have hhead : readHead (ringTaken s r) e = readHead s e := rfl
  have himage : readImage (ringTaken s r) e = readImage s e := rfl
  have hpoison : imagePoison (ringTaken s r) e = imagePoison s e := rfl
  have hheadBad : headBad (ringTaken s r) = headBad s := rfl
  have hbad : imgBad (ringTaken s r) = imgBad s := by
    funext img
    rw [imgBad, imgBad, hheadBad]
  rw [restoreBad_none] at h ⊢
  unfold restoreSound at h ⊢
  rw [htier, hleaves, hhead, himage, hpoison, hheadBad, hbad]
  exact h

/-- The state with every payload of an image at its target. -/
def payloadsMoved (s : State) (l : List (RecordTarget × List Byte)) : State :=
  l.foldl (fun s x => writeMem s x.1.tier (bytePokes x.1.offset x.2)) s

theorem payloadsMoved_frame (s : State) (l : List (RecordTarget × List Byte)) : let t := payloadsMoved s l
    t = { s with hbm := t.hbm, lpddr := t.lpddr, poisonHbm := t.poisonHbm, poisonLpddr := t.poisonLpddr
                 poisonFound := t.poisonFound } := by
  intro t
  unfold t payloadsMoved
  induction l generalizing s with
  | nil => rfl
  | cons x l ih =>
    have hframe := writeMem_frame s x.1.tier (bytePokes x.1.offset x.2)
    dsimp only at hframe
    have h := ih (writeMem s x.1.tier (bytePokes x.1.offset x.2))
    rw [List.foldl_cons, h, hframe]

/-- A partition whose image has been restored. -/
def restoredPart (step : Dword) (p : Part) : Part := { p with jnlFresh := true, jnlStep := step }

theorem restoreImage_spec {s : State} {p : Part} (hp : partAt s p.low = some p) (e : CmdEntry) (targets : List RecordTarget) :
    let t := restoreImage s p e targets
    (∃ step, partAt t p.low = some (restoredPart step p)) ∧
      (∀ r ∈ partQuads p, (getQuad t r).jnlIndex = BitVec.ofNat 64 (imgNum (readImage s e) 48 8)) ∧
      t.cores = s.cores ∧ t.rings = s.rings ∧ t.host = s.host := by
  have hframe := payloadsMoved_frame s (imgMoves targets (readImage s e))
  dsimp only at hframe
  intro t
  have ht : t = modPart (modPartQuads (payloadsMoved s (imgMoves targets (readImage s e))) p
    (fun q => { q with jnlIndex := BitVec.ofNat 64 (imgNum (readImage s e) 48 8) })) p.low
      (restoredPart (BitVec.ofNat 64 (imgNum (readImage s e) 16 8))) := rfl
  clear_value t
  generalize payloadsMoved s (imgMoves targets (readImage s e)) = u at hframe ht
  have hu : partAt (modPartQuads u p (fun q => { q with jnlIndex := BitVec.ofNat 64 (imgNum (readImage s e) 48 8) })) p.low =
      some p := by
    rw [modPartQuads_frame, hframe]
    exact hp
  refine ⟨⟨_, by rw [ht]; exact partAt_modPart hu (fun _ => rfl)⟩, fun r hr => ?_, ?_, ?_, ?_⟩
  · rw [ht, getQuad_modPart, getQuad_modPartQuads u p _ hr]
  all_goals
    rw [ht, modPartQuads_frame, hframe]
    rfl

/-- The cores' counters go back to their start. -/
theorem rewound_frame (ns : List Nat) (s : State) : let t := ns.foldl (fun s n => rewindPcs (modCore s n rewindCore) n) s
    t = { s with cores := t.cores } := by
  intro t
  unfold t
  induction ns generalizing s with
  | nil => rfl
  | cons n ns ih =>
    have hone : rewindPcs (modCore s n rewindCore) n = { s with cores := (rewindPcs (modCore s n rewindCore) n).cores } := by
      unfold rewindPcs setRegs
      split <;> rfl
    rw [List.foldl_cons, ih, hone]

/-- A context that replays: RUNNING, with its entries to go and its REPLAY bit set. -/
theorem startReplay_spec {s : State} {p : Part} (hp : partAt s p.low = some p) (count : Nat) :
    let t := startReplay s p count
    (∃ x, partAt t p.low = some x ∧ x.ctx = .running ∧ x.replayLeft = count ∧ x.cursors = []) ∧
      (∀ r ∈ partQuads p, (getQuad t r).jnlIndex = (getQuad s r).jnlIndex ∧ bit (getQuad t r).ctxMode 1 = true) ∧
      t.rings = s.rings ∧ t.host = s.host := by
  have hrewound := rewound_frame p.map s
  dsimp only at hrewound
  unfold startReplay
  dsimp only
  generalize p.map.foldl (fun s n => rewindPcs (modCore s n rewindCore) n) s = u at hrewound
  have hset : ∀ r ∈ partQuads p, getQuad (modPartQuads u p (fun q => { q with ctxMode := setBits q.ctxMode 1 1 1 })) r =
      { getQuad s r with ctxMode := setBits (getQuad s r).ctxMode 1 1 1 } := by
    intro r hr
    rw [getQuad_modPartQuads u p _ hr, hrewound]
    rfl
  have hframe := modPartQuads_frame u p (fun q => { q with ctxMode := setBits q.ctxMode 1 1 1 })
  generalize modPartQuads u p (fun q => { q with ctxMode := setBits q.ctxMode 1 1 1 }) = v at hset hframe
  have hv : partAt v p.low = some p := by
    rw [hframe, hrewound]
    exact hp
  have hpart : partAt (modPart v p.low (fun x => { x with replayLeft := count, cursors := [] })) p.low =
      some { p with replayLeft := count, cursors := [] } := partAt_modPart hv (fun _ => rfl)
  rw [hpart, Option.getD_some]
  obtain ⟨hrun, ⟨started, hrunning⟩, hquads, -, -⟩ :=
    enterRunning_spec (p := { p with replayLeft := count, cursors := [] }) hpart true
  refine ⟨⟨_, hrunning, rfl, rfl, rfl⟩, fun r hr => ?_, ?_, ?_⟩
  · obtain ⟨hindex, hmode⟩ := hquads r hr
    rw [hindex, hmode, getQuad_modPart, hset r hr]
    exact ⟨rfl, (bit_setBits _ 1 1 1 (by decide)).trans (if_pos (by decide))⟩
  · rw [hrun, hframe, hrewound]
    rfl
  · rw [hrun, hframe, hrewound]
    rfl

/-! ### PARTITION (R43, R44) -/

theorem applyLayout_spec (s : State) (arg : Nat) : let t := applyLayout s arg
    t = { s with parts := (layoutParts (layoutStarts arg)).map (newPart s), quads := t.quads } := by
  have hfold : ∀ (ps : List Part) (u : State), ps.foldl (fun s p => modPartQuads s p (shareQuad (getQuad s p.low))) u =
      { u with quads := (ps.foldl (fun s p => modPartQuads s p (shareQuad (getQuad s p.low))) u).quads } := by
    intro ps
    induction ps with
    | nil => exact fun _ => rfl
    | cons p ps ih =>
      intro u
      rw [List.foldl_cons, ih, modPartQuads_frame]
  exact hfold _ _

end Sys2Proof.Machine
end

section
/-! The obligation on ring commands: its clauses, and the theorem that puts them together. -/

namespace Sys2Proof.Machine

/-! ### The commands as they run -/

section Exec
variable {r : Fin 8} {e : CmdEntry} {s : State} {p : Part}

theorem exec_load {input : LoadInput} (hr : ringRuns cLoad r e s p) (hclear : p.clearing = none)
    (hlines : loadLines s e input = []) (hf : loadFields e = false) (hctx : p.ctx = .empty) (hreset : p.reset = none) :
    exec (.load r e input) s = .next (doLoad r.val e input p (ringTaken s r.val)) := by
  have hwait : ((partAt s r.val).bind (fun p => p.clearing)).isSome = false := by
    rw [hr.2.2.2.2.2, Option.bind_some, hclear]
    rfl
  show execLoad r e input s = _
  unfold execLoad
  rw [hwait, if_neg Bool.false_ne_true, hlines]
  dsimp only
  rw [List.isEmpty_nil, Bool.not_true, Bool.and_false, if_neg Bool.false_ne_true, ringCommand_runs hr hf,
    if_pos (by rw [hctx, hreset]; rfl)]

theorem exec_start (hr : ringRuns cStart r e s p) (hreset : p.reset = none) : exec (.start r e) s =
    .next (if p.ctx = .loaded ∨ p.ctx = .stopped then
      completeCmd (enterRunning (ringTaken s r.val) p (p.ctx == .loaded)) r.val e.tag stDone 0
      else completeCmd (ringTaken s r.val) r.val e.tag stState 0) := by
  show execStart r e s = _
  rw [execStart, ringCommand_runs hr rfl]
  refine congrArg Host.Outcome.next ?_
  by_cases h : p.ctx = .loaded ∨ p.ctx = .stopped
  · rw [if_pos (by simpa [hreset] using h), if_pos h]
  · rw [if_neg (by simpa [hreset] using h), if_neg h]

theorem exec_stop (hr : ringRuns cStop r e s p) (hreset : p.reset = none) : exec (.stop r e) s =
    .next (if p.ctx = .running then keepBusy (stopPart (ringTaken s r.val) r.val) r.val cStop e.tag
      else completeCmd (ringTaken s r.val) r.val e.tag stState 0) := by
  show execStop r e s = _
  rw [execStop, ringCommand_runs hr rfl]
  refine congrArg Host.Outcome.next ?_
  by_cases h : p.ctx = .running
  · rw [if_pos (by simp [hreset, h]), if_pos h]
  · rw [if_neg (by simp [h]), if_neg h]

theorem exec_unload (hr : ringRuns cUnload r e s p) (hreset : p.reset = none) (hctx : p.ctx = .loaded ∨ p.ctx = .stopped) :
    exec (.unload r e) s = .next (keepBusy (modPart (clearPart (ringTaken s r.val) p) r.val
      (fun x => { x with clearing := some s.pll, afterReset := false })) r.val cUnload e.tag) := by
  show execUnload r e s = _
  rw [execUnload, ringCommand_runs hr rfl]
  refine congrArg Host.Outcome.next ?_
  rw [if_pos (by simpa [hreset] using hctx)]
  rfl

theorem exec_checkpoint {manifest : List RecordSource} (hr : ringRuns cCheckpoint r e s p) (hreset : p.reset = none)
    (hctx : p.ctx = .stopped) (hf : ckAddrBad e = false)
    (hlines : heldLines s (ckTier e.addr0) (rangeUnits (ckOff e.addr0) (ckLength manifest)) = []) :
    exec (.checkpoint r e manifest) s = .next (doCheckpoint r.val e manifest p (ringTaken s r.val)) := by
  show execCheckpoint r e manifest s = _
  unfold execCheckpoint
  rw [hlines]
  dsimp only
  rw [List.isEmpty_nil, Bool.not_true, Bool.and_false, if_neg Bool.false_ne_true, ringCommand_runs hr hf,
    if_pos (by rw [hctx, hreset]; rfl)]

theorem exec_restore {targets : List RecordTarget} (hr : ringRuns cRestore r e s p) (hin : restoreIn p = true)
    (hf : ckAddrBad e = false) (hlines : restoreLines s e targets = []) :
    exec (.restore r e targets) s = .next (doRestore r.val e targets p (ringTaken s r.val)) := by
  show execRestore r e targets s = _
  unfold execRestore
  rw [hlines]
  dsimp only
  rw [List.isEmpty_nil, Bool.not_true, Bool.and_false, if_neg Bool.false_ne_true, ringCommand_runs hr hf, if_pos hin]

theorem exec_replay {targets : List RecordTarget} (hr : ringRuns cReplay r e s p) (hin : restoreIn p = true)
    (hf : ckAddrBad e = false) (hlines : restoreLines s e targets = []) (hlow : 1 ≤ e.arg.toNat)
    (hhigh : e.arg.toNat ≤ 4096) :
    exec (.replay r e targets) s = .next (doReplay r.val e targets p (ringTaken s r.val)) := by
  have hzero : e.arg ≠ 0 := by
    intro h
    rw [h] at hlow
    exact absurd hlow (by decide)
  have hfields : (ckAddrBad e || e.arg = 0 || decide (4096 < e.arg.toNat)) = false := by
    rw [hf, decide_eq_false hzero, decide_eq_false (by omega)]
    rfl
  show execReplay r e targets s = _
  unfold execReplay
  rw [hlines]
  dsimp only
  rw [List.isEmpty_nil, Bool.not_true, Bool.and_false, if_neg Bool.false_ne_true, ringCommand_runs hr hfields, if_pos hin]

theorem exec_partition (hr : ringRuns cPartition r e s p) (hempty : allEmpty s = true) (hzero : r = 0)
    (harg : e.arg.toNat < 2 ^ 8) : exec (.partition r e) s =
    .next (if layoutOk e.arg.toNat then completeCmd (applyLayout (ringTaken s r.val) e.arg.toNat) r.val e.tag stDone 0
      else completeCmd (ringTaken s r.val) r.val e.tag stLayout 0) := by
  show execPartition r e s = _
  rw [execPartition, ringCommand_runs hr (decide_eq_false (by omega))]
  refine congrArg Host.Outcome.next ?_
  rw [if_pos (by rw [hempty, hzero]; rfl)]

theorem exec_reset (hr : ringRuns cReset r e s p) (hlow : 1 ≤ e.arg.toNat) (hhigh : e.arg.toNat < 4) :
    exec (.reset r e) s = .next (keepBusy (requestReset (ringTaken s r.val) p e.arg.toNat 0) r.val cReset e.tag) := by
  have hzero : (e.arg == 0) = false := by
    rw [beq_eq_false_iff_ne]
    intro h
    rw [h] at hlow
    exact absurd hlow (by decide)
  have hfour : (e.arg == 4) = false := by
    rw [beq_eq_false_iff_ne]
    intro h
    rw [h] at hhigh
    exact absurd hhigh (by decide)
  have hfields : (e.arg == 0 || decide (4 < e.arg.toNat) || (e.arg == 4 && r.val != 0)) = false := by
    rw [hzero, hfour, decide_eq_false (by omega)]
    rfl
  show execReset r e s = _
  rw [execReset, ringCommand_runs hr hfields, if_pos rfl]

end Exec

/-! ### The commands' clauses -/

section Clauses
variable {r : Fin 8} {e : CmdEntry} {s : State} {p : Part}

/-- A load that meets no refusal has a map. -/
theorem mapPart_of_loadRefusal {x : Binary} {cs : List CoreImage} (h : loadRefusal s p x cs = none) :
    ∃ map pairs, mapPart s (partQuads p) x.kq = some (map, pairs) := by
  cases hmap : mapPart s (partQuads p) x.kq with
  | some m => exact ⟨m.1, m.2, rfl⟩
  | none =>
    unfold loadRefusal at h
    dsimp only at h
    rw [hmap, Option.isNone_none, if_pos rfl] at h
    split_ifs at h

theorem load_spec {input : LoadInput} {x : Binary} (hp : partAt s p.low = some p) (hx : input.binary = some x) (hbad : input.bad = false) :
    let cs := applyFixups s p.low (if e.arg = 0 then [] else input.params) x.cores x.fixups
    let len := up4k (codeSize x.cores)
    regionBad s p (input.alloc.take (e.len1.toNat / 16)) e.addr2.toNat len = false →
    let t := doLoad r.val e input p (ringTaken s r.val)
    (loadRefusal s p x cs = none → ∃ map pairs, mapPart s (partQuads p) x.kq = some (map, pairs) ∧
      partAt t p.low = some (loadedPart p x map e input len) ∧ (∀ q ∈ partQuads p, (getQuad t q).jnlIndex = 0) ∧
      onlyTier s t .hbm (pokeAll s.hbm (unitPokes e.addr2.toNat (codeBytes cs))) ∧
      (∀ (i n : Nat) (c : CoreImage), map[i]? = some n → cs[i]? = some c → holdsImage (getCore t n) c) ∧
      completes s t r.val e.tag 0 (codeSize x.cores)) ∧
    (∀ code, loadRefusal s p x cs = some code →
      partAt t p.low = some p ∧ t.cores = s.cores ∧ completes s t r.val e.tag code (codeSize x.cores)) := by
  intro cs len hregion t
  have ht : t = match loadRefusal s p x cs with
      | some code => completeCmd (spoilRegion (ringTaken s r.val) e.addr2.toNat len) r.val e.tag code (codeSize x.cores)
      | none => completeCmd (acceptLoad (ringTaken s r.val) p x cs e input len) r.val e.tag stDone (codeSize x.cores) := by
    have hregion' : regionBad (ringTaken s r.val) p (input.alloc.take (e.len1.toNat / 16)) e.addr2.toNat len = false := hregion
    unfold t doLoad
    rw [hx]
    dsimp only
    rw [hbad, if_neg Bool.false_ne_true, if_neg (by rw [hregion']; exact Bool.false_ne_true), loadRefusal_taken]
    rfl
  clear_value t
  refine ⟨fun hnone => ?_, fun code hcode => ?_⟩
  · rw [hnone] at ht
    dsimp only at ht
    obtain ⟨map, pairs, hmap⟩ := mapPart_of_loadRefusal hnone
    rw [acceptLoad_eq (by rw [mapPart_taken]; exact hmap)] at ht
    obtain ⟨hpart, hindex, hmem, hcores, hrings, hhost⟩ := loadAccepted_spec (s := ringTaken s r.val) (p := p) hp x cs e input
      len pairs (mapPart_cores (nodup_partQuads p) hmap).1
    generalize loadAccepted (ringTaken s r.val) p x cs e input len map pairs = u at hpart hindex hmem hcores hrings hhost ht
    have hdone := taken_completes hrings hhost e.tag stDone (codeSize x.cores)
    have hframe : t = { u with rings := t.rings, host := t.host } := by
      rw [ht]
      exact completeCmd_frame ..
    refine ⟨map, pairs, hmap, ?_, fun q hq => ?_, ?_, fun i n c hn hc => ?_, ?_⟩
    · rw [hframe]
      exact hpart
    · rw [hframe]
      exact hindex q hq
    · rw [hframe]
      exact hmem
    · rw [hframe]
      exact hcores i n c hn hc
    · rw [ht]
      exact hdone
  · rw [hcode] at ht
    dsimp only at ht
    have hspoilt : ∃ u : State, spoilRegion (ringTaken s r.val) e.addr2.toNat len = u ∧ u.parts = s.parts ∧ u.cores = s.cores ∧
        u.rings = (ringTaken s r.val).rings ∧ u.host = s.host := by
      have hframe := writeMem_frame (ringTaken s r.val) .hbm (unitPokes e.addr2.toNat (drawBytes s.draws len))
      dsimp only at hframe
      refine ⟨_, rfl, ?_⟩
      unfold spoilRegion writeMemBytes
      rw [ringTaken_frame] at hframe ⊢
      dsimp only at hframe ⊢
      rw [hframe]
      exact ⟨rfl, rfl, rfl, rfl⟩
    obtain ⟨u, hu, hparts, hcores, hrings, hhost⟩ := hspoilt
    rw [hu] at ht
    have hdone := taken_completes hrings hhost e.tag code (codeSize x.cores)
    have hframe : t = { u with rings := t.rings, host := t.host } := by
      rw [ht]
      exact completeCmd_frame ..
    refine ⟨?_, ?_, ?_⟩
    · rw [hframe]
      exact (partAt_parts hparts _).trans hp
    · rw [hframe]
      exact hcores
    · rw [ht]
      exact hdone

theorem start_spec (hp : partAt s p.low = some p) :
    let t := completeCmd (enterRunning (ringTaken s r.val) p (p.ctx == .loaded)) r.val e.tag stDone 0
    (∃ started, partAt t p.low = some (enteredRunning (p.ctx == .loaded) started p)) ∧
      completes s t r.val e.tag 0 0 ∧ t.hbm = s.hbm ∧ t.lpddr = s.lpddr ∧
      (p.ctx = .loaded → ∀ n ∈ p.map, (getCore t n).phase = 0 ∧ (getCore t n).plan = 0) ∧
      ∀ n, n ∉ p.map → getCore t n = getCore s n := by
  obtain ⟨hrun, hpart, -, hfresh, hother⟩ := enterRunning_spec (s := ringTaken s r.val) (p := p) hp (p.ctx == .loaded)
  generalize enterRunning (ringTaken s r.val) p (p.ctx == .loaded) = u at hrun hpart hfresh hother
  have hdone := taken_completes (s := s) (u := u) (by rw [hrun]) (by rw [hrun]; rfl) e.tag stDone 0
  intro t
  have ht : t = { u with rings := t.rings, host := t.host } := completeCmd_frame ..
  refine ⟨?_, hdone, ?_, ?_, fun h n hn => ?_, fun n hn => ?_⟩
  · rw [ht]
    exact hpart
  · rw [ht, hrun]
    rfl
  · rw [ht, hrun]
    rfl
  · rw [ht]
    exact hfresh (by rw [h]; rfl) n hn
  · rw [ht]
    exact hother n hn

theorem checkpoint_spec {manifest : List RecordSource} (hp : partAt s p.low = some p)
    (hin : inTier s (ckTier e.addr0) (ckOff e.addr0) e.len0.toNat = true)
    (hall : ∀ x ∈ manifest, inTier s x.tier x.offset x.length = true ∧
      ∀ u ∈ rangeUnits x.offset x.length, isPoisoned s x.tier u = false)
    (hlen : ckLength manifest ≤ e.len0.toNat) :
    let t := doCheckpoint r.val e manifest p (ringTaken s r.val)
    partAt t p.low = some p ∧ t.cores = s.cores ∧ completes s t r.val e.tag 0 (ckLength manifest) ∧
      onlyTier s t (ckTier e.addr0) (pokeAll (tierMem s (ckTier e.addr0)) (bytePokes (ckOff e.addr0) (ckImage s p manifest))) := by
  have himage : ckImage (ringTaken s r.val) p manifest = ckImage s p manifest := rfl
  have ht := doCheckpoint_writes (s := ringTaken s r.val) r.val p hin (fun x hx => (hall x hx).1)
    (fun x hx u hu => (hall x hx).2 u hu) hlen
  rw [himage] at ht
  have hframe := writeMem_frame (ringTaken s r.val) (ckTier e.addr0) (bytePokes (ckOff e.addr0) (ckImage s p manifest))
  have hsame := tierMem_writeMem_same (ringTaken s r.val) (ckTier e.addr0)
    (bytePokes (ckOff e.addr0) (ckImage s p manifest))
  have hother := fun x hx => tierMem_writeMem_other (ringTaken s r.val) (t := ckTier e.addr0) (x := x)
    (bytePokes (ckOff e.addr0) (ckImage s p manifest)) hx
  have htier : ∀ x, tierMem (ringTaken s r.val) x = tierMem s x := fun x => by cases x <;> rfl
  dsimp only at hframe
  simp only [htier] at hsame hother
  generalize writeMem (ringTaken s r.val) (ckTier e.addr0) (bytePokes (ckOff e.addr0) (ckImage s p manifest)) = u
    at ht hframe hsame hother
  have hdone := taken_completes (s := s) (u := u) (by rw [hframe]) (by rw [hframe]; rfl) e.tag stDone (ckLength manifest)
  intro t
  have htu : t = { u with rings := t.rings, host := t.host } := by
    unfold t
    rw [ht]
    exact completeCmd_frame ..
  have hmem : ∀ x, tierMem t x = tierMem u x := by
    intro x
    rw [htu]
    cases x <;> rfl
  refine ⟨?_, ?_, ?_, (hmem _).trans hsame, fun x hx => (hmem x).trans (hother x hx)⟩
  · rw [htu, hframe]
    exact hp
  · rw [htu, hframe]
    rfl
  · unfold t
    rw [ht]
    exact hdone

theorem restore_spec {targets : List RecordTarget} (hp : partAt s p.low = some p) (hlow : p.low ∈ partQuads p)
    (hgood : restoreBad s p e targets = none) :
    let t := doRestore r.val e targets p (ringTaken s r.val)
    (∃ step, partAt t p.low = some (restoredPart step p)) ∧ completes s t r.val e.tag 0 0 ∧
      bits (getQuad t p.low).jnlIndex 0 64 = imgNum (readImage s e) 48 8 % 2 ^ 64 ∧ t.cores = s.cores := by
  obtain ⟨hpart, hindex, hcores, hrings, hhost⟩ := restoreImage_spec (s := ringTaken s r.val) (p := p) hp e targets
  have himage : readImage (ringTaken s r.val) e = readImage s e := rfl
  rw [himage] at hindex
  have ht : doRestore r.val e targets p (ringTaken s r.val) =
      completeCmd (restoreImage (ringTaken s r.val) p e targets) r.val e.tag stDone 0 := by
    rw [doRestore, restoreBad_taken r.val hgood]
  generalize restoreImage (ringTaken s r.val) p e targets = u at hpart hindex hcores hrings hhost ht
  have hdone := taken_completes (s := s) (u := u) hrings hhost e.tag stDone 0
  intro t
  have htu : t = { u with rings := t.rings, host := t.host } := by
    unfold t
    rw [ht]
    exact completeCmd_frame ..
  refine ⟨?_, ?_, ?_, ?_⟩
  · rw [htu]
    exact hpart
  · unfold t
    rw [ht]
    exact hdone
  · rw [htu]
    show bits (getQuad u p.low).jnlIndex 0 64 = _
    rw [hindex p.low hlow, bits, BitVec.toNat_ofNat, Nat.shiftRight_zero, Nat.mod_mod]
  · rw [htu]
    exact hcores

theorem replay_spec {targets : List RecordTarget} (hp : partAt s p.low = some p) (hlow : p.low ∈ partQuads p)
    (hgood : restoreBad s p e targets = none) :
    let t := doReplay r.val e targets p (ringTaken s r.val)
    (∃ x, partAt t p.low = some x ∧ x.ctx = .running ∧ x.replayLeft = e.arg.toNat ∧ x.cursors = []) ∧
      completes s t r.val e.tag 0 0 ∧ bits (getQuad t p.low).jnlIndex 0 64 = imgNum (readImage s e) 48 8 % 2 ^ 64 ∧
      bit (getQuad t p.low).ctxMode 1 = true := by
  obtain ⟨⟨step, hpart⟩, hindex, -, hrings, hhost⟩ := restoreImage_spec (s := ringTaken s r.val) (p := p) hp e targets
  have himage : readImage (ringTaken s r.val) e = readImage s e := rfl
  rw [himage] at hindex
  have ht : doReplay r.val e targets p (ringTaken s r.val) =
      completeCmd (startReplay (restoreImage (ringTaken s r.val) p e targets)
        ((partAt (restoreImage (ringTaken s r.val) p e targets) p.low).getD p) e.arg.toNat) r.val e.tag stDone 0 := by
    rw [doReplay, restoreBad_taken r.val hgood]
  generalize restoreImage (ringTaken s r.val) p e targets = u at hpart hindex hrings hhost ht
  rw [hpart, Option.getD_some] at ht
  obtain ⟨hrun, hquads, hrings', hhost'⟩ := startReplay_spec (s := u) (p := restoredPart step p) hpart e.arg.toNat
  obtain ⟨hindex', hmode⟩ := hquads p.low hlow
  generalize startReplay u (restoredPart step p) e.arg.toNat = v at hrun hquads hrings' hhost' hindex' hmode ht
  have hdone := taken_completes (s := s) (u := v) (hrings'.trans hrings) (hhost'.trans hhost) e.tag stDone 0
  intro t
  have htv : t = { v with rings := t.rings, host := t.host } := by
    unfold t
    rw [ht]
    exact completeCmd_frame ..
  refine ⟨?_, ?_, ?_, ?_⟩
  · rw [htv]
    exact hrun
  · unfold t
    rw [ht]
    exact hdone
  · rw [htv]
    show bits (getQuad v p.low).jnlIndex 0 64 = _
    rw [hindex', hindex p.low hlow, bits, BitVec.toNat_ofNat, Nat.shiftRight_zero, Nat.mod_mod]
  · rw [htv]
    exact hmode

theorem unload_spec (hp : partAt s p.low = some p) :
    let t := keepBusy (modPart (clearPart (ringTaken s r.val) p) p.low
      (fun x => { x with clearing := some s.pll, afterReset := false })) r.val cUnload e.tag
    partAt t p.low = some { emptyPart p with clearing := some s.pll, afterReset := false } ∧
      (∀ n ∈ partCores p, getCore t n = clearCore (getCore s n)) ∧ t.hbm = s.hbm ∧ t.lpddr = s.lpddr := by
  have hframe := clearPart_frame (ringTaken s r.val) p
  have hpart := partAt_clearPart (s := ringTaken s r.val) (p := p) hp
  have hcores := getCore_clearPart (ringTaken s r.val) p
  dsimp only at hframe
  generalize clearPart (ringTaken s r.val) p = u at hframe hpart hcores
  refine ⟨partAt_modPart hpart (fun _ => rfl), fun n hn => (hcores n).trans (if_pos hn), ?_, ?_⟩
  · rw [hframe]
    rfl
  · rw [hframe]
    rfl

theorem reset_spec (hp : partAt s p.low = some p) (hreset : p.reset = none) {level : Nat} (hlevel : level ≠ 4) :
    let t := keepBusy (requestReset (ringTaken s r.val) p level 0) r.val cReset e.tag
    t.hbm = s.hbm ∧ t.lpddr = s.lpddr ∧ ∃ y x, partAt t p.low = some y ∧ y.reset = some x ∧ x.level = level ∧
      x.source = 0 ∧ x.began = s.pll := by
  have hstart : requestReset (ringTaken s r.val) p level 0 = enterLevel (ringTaken s r.val) p
      { first := level, level := level, source := 0, escalated := false, began := s.pll, levelBegan := s.pll } := by
    unfold requestReset joined
    rw [if_neg hlevel, hreset]
    rfl
  obtain ⟨-, hlpddr, hhbm, y, hy, hseq⟩ := started_spec (s := ringTaken s r.val) (p := p) hp hreset
    { first := level, level := level, source := 0, escalated := false, began := s.pll, levelBegan := s.pll } hlevel
  rw [hstart]
  generalize enterLevel (ringTaken s r.val) p
    { first := level, level := level, source := 0, escalated := false, began := s.pll, levelBegan := s.pll } = u
    at hlpddr hhbm hy
  exact ⟨hhbm, hlpddr, y, _, hy, hseq, rfl, rfl, rfl⟩

end Clauses

/-- A context that STOP marks. -/
theorem stop_spec {s : State} {p : Part} {r : Nat} (hp : partAt s r = some p) (hctx : p.ctx = .running) (tag : Half) :
    let t := keepBusy (stopPart (ringTaken s r) r) r cStop tag
    partAt t r = some { p with stopping := true } ∧ t.cores = s.cores := by
  have hstop : partAt (stopPart (ringTaken s r) r) r =
      some (if p.ctx = .running then { p with stopping := true } else p) :=
    partAt_modPart (s := ringTaken s r) hp (fun x => by split <;> rfl)
  rw [if_pos hctx] at hstop
  exact ⟨hstop, rfl⟩

/-- A partition by a legal layout. -/
theorem partition_spec (s : State) (arg r : Nat) (tag : Half) :
    let t := completeCmd (applyLayout (ringTaken s r) arg) r tag stDone 0
    completes s t r tag 0 0 ∧ t.parts.map (fun x => (x.low, x.size)) = layoutParts (layoutStarts arg) ∧
      (∀ x ∈ t.parts, x.ctx = .empty) ∧ t.cores = s.cores := by
  have hframe := applyLayout_spec (ringTaken s r) arg
  dsimp only at hframe
  generalize applyLayout (ringTaken s r) arg = u at hframe
  have hdone := taken_completes (s := s) (u := u) (by rw [hframe]) (by rw [hframe]; rfl) tag stDone 0
  intro t
  have ht : t = { u with rings := t.rings, host := t.host } := completeCmd_frame ..
  have hparts : t.parts = (layoutParts (layoutStarts arg)).map (newPart (ringTaken s r)) := by rw [ht, hframe]
  refine ⟨hdone, ?_, fun x hx => ?_, ?_⟩
  · rw [hparts, List.map_map]
    exact List.map_id _
  · rw [hparts] at hx
    obtain ⟨y, -, rfl⟩ := List.mem_map.mp hx
    rfl
  · rw [ht, hframe]
    rfl

/-- Settles O52: each command does what R527 gives in a state that accepts it, and completes or goes on as it gives. -/
theorem ringCommandsRun : Obligations.RingCommandsRun := by
  unfold Obligations.RingCommandsRun
  intro r e s p
  dsimp only
  have hplace : ∀ {opc}, ringRuns opc r e s p → p.low = r.val ∧ partAt s p.low = some p := by
    intro opc h
    have hlow := low_of_ringRuns h
    obtain ⟨-, -, -, -, -, hp⟩ := h
    exact ⟨hlow, hlow ▸ hp⟩
  refine ⟨fun input x hr hclear hlines hf hx hbad hctx hreset hregion => ?load, fun hr hreset => ?start, fun hr hreset => ?stop,
    fun hr hreset hctx => ?unload, fun manifest hr hreset hctx hf hlines hin hall hlen => ?checkpoint,
    fun targets hreset hctx hf hsize hlines hgood => ⟨fun hr => ?restore, fun hr hlow hhigh => ?replay⟩,
    fun hr hempty hzero harg => ?partition, fun hr hreset hlow hhigh => ?reset⟩
  case load =>
    obtain ⟨hlow, hp⟩ := hplace hr
    have hexec := exec_load hr hclear hlines hf hctx hreset
    obtain ⟨haccept, hrefuse⟩ := load_spec (r := r) hp hx hbad hregion
    refine ⟨fun hnone => ?_, fun code hcode => ?_⟩
    · obtain ⟨map, pairs, hmap, hpart, hindex, hmem, hcores, hdone⟩ := haccept hnone
      exact ⟨_, _, hexec, hlow ▸ hpart, rfl, rfl, ⟨pairs, hmap⟩, rfl, hindex, hmem, hcores, hdone⟩
    · obtain ⟨hpart, hcores, hdone⟩ := hrefuse code hcode
      exact ⟨_, p, hexec, hlow ▸ hpart, hctx, hcores, hdone⟩
  case start =>
    obtain ⟨hlow, hp⟩ := hplace hr
    have hexec := exec_start hr hreset
    refine ⟨fun hctx => ?_, fun hl hs => ?_⟩
    · rw [if_pos hctx] at hexec
      obtain ⟨⟨started, hpart⟩, hdone, hhbm, hlpddr, hfresh, hother⟩ := start_spec (r := r) (e := e) hp
      rw [hlow] at hpart
      refine ⟨_, _, hexec, hpart, rfl, fun h => ?_, fun h => ?_, rfl, rfl, hdone, hhbm, hlpddr, hfresh, hother⟩
      · exact if_pos (by rw [h]; rfl)
      · exact if_neg (by rw [h]; decide)
    · rw [if_neg (not_or.mpr ⟨hl, hs⟩)] at hexec
      exact ⟨_, hexec, refused_spec s r.val e.tag⟩
  case stop =>
    obtain ⟨hlow, hp⟩ := hplace hr
    have hexec := exec_stop hr hreset
    refine ⟨fun hctx => ?_, fun hctx => ?_⟩
    · rw [if_pos hctx] at hexec
      obtain ⟨hpart, hcores⟩ := stop_spec (r := r.val) (hlow ▸ hp) hctx e.tag
      exact ⟨_, _, hexec, hpart, rfl, getRing_keepBusy .., hcores⟩
    · rw [if_neg hctx] at hexec
      exact ⟨_, hexec, refused_spec s r.val e.tag⟩
  case unload =>
    obtain ⟨hlow, hp⟩ := hplace hr
    have hexec := exec_unload hr hreset hctx
    obtain ⟨hpart, hcores, hhbm, hlpddr⟩ := unload_spec (r := r) (e := e) hp
    rw [hlow] at hpart hcores hhbm hlpddr
    exact ⟨_, _, hexec, hpart, rfl, rfl, getRing_keepBusy .., hcores, hhbm, hlpddr⟩
  case checkpoint =>
    obtain ⟨hlow, hp⟩ := hplace hr
    obtain ⟨hpart, hcores, hdone, hmem⟩ := checkpoint_spec (r := r) hp hin hall hlen
    exact ⟨_, _, exec_checkpoint hr hreset hctx hf hlines, hlow ▸ hpart, rfl, hcores, hdone, hmem⟩
  case restore =>
    obtain ⟨hlow, hp⟩ := hplace hr
    have hin : restoreIn p = true := by simpa [restoreIn, hreset] using hctx
    have hmem : p.low ∈ partQuads p := List.mem_map.mpr ⟨0, List.mem_range.mpr (by omega), Nat.add_zero _⟩
    obtain ⟨⟨step, hpart⟩, hdone, hindex, hcores⟩ := restore_spec (r := r) hp hmem hgood
    rw [hlow] at hpart hindex
    exact ⟨_, _, exec_restore hr hin hf hlines, hpart, rfl, hdone, hindex, rfl, hcores⟩
  case replay =>
    obtain ⟨hlow', hp⟩ := hplace hr
    have hin : restoreIn p = true := by simpa [restoreIn, hreset] using hctx
    have hmem : p.low ∈ partQuads p := List.mem_map.mpr ⟨0, List.mem_range.mpr (by omega), Nat.add_zero _⟩
    obtain ⟨⟨x, hpart, hrun, hleft, hcursors⟩, hdone, hindex, hmode⟩ := replay_spec (r := r) hp hmem hgood
    rw [hlow'] at hpart hindex hmode
    exact ⟨_, x, exec_replay hr hin hf hlines hlow hhigh, hpart, hrun, hdone, hindex, hleft, hcursors, hmode⟩
  case partition =>
    have hexec := exec_partition hr hempty hzero harg
    refine ⟨fun hok => ?_, fun hok => ?_⟩
    · rw [if_pos hok] at hexec
      exact ⟨_, hexec, partition_spec s e.arg.toNat r.val e.tag⟩
    · rw [if_neg (by rw [hok]; exact Bool.false_ne_true)] at hexec
      refine ⟨_, hexec, ?_, taken_completes rfl rfl e.tag stLayout 0⟩
      rw [completeCmd_frame]
      rfl
  case reset =>
    obtain ⟨hlow', hp⟩ := hplace hr
    obtain ⟨hhbm, hlpddr, y, x, hpart, hseq, hx⟩ := reset_spec (r := r) (e := e) hp hreset (level := e.arg.toNat) (by omega)
    rw [hlow'] at hpart
    exact ⟨_, y, exec_reset hr hlow hhigh, hpart, getRing_keepBusy .., hhbm, hlpddr, x, hseq, hx⟩

end Sys2Proof.Machine
end

section
/-! Casks between frames (R466, R468, R470): their tallies, sections that seal, and contributors withheld. -/

namespace Sys2Proof.Machine

/-! ### Tables -/

theorem tget_filter_key {α : Type} (d : α) (f : Nat → Bool) (t : Tbl α) (i : Nat) :
    tget d (t.filter (fun x => f x.1)) i = if f i then tget d t i else d := by
  induction t with
  | nil => simp [tget]
  | cons x t ih =>
    obtain ⟨k, v⟩ := x
    by_cases hk : f k = true
    · rw [List.filter_cons_of_pos (by simpa using hk), tget, tget, ih]
      by_cases hi : i = k
      · subst hi
        rw [if_pos rfl, if_pos rfl, if_pos hk]
      · rw [if_neg hi, if_neg hi]
    · rw [List.filter_cons_of_neg (by simpa using hk), ih, tget]
      by_cases hi : i = k
      · subst hi
        rw [if_neg hk, if_neg hk]
      · rw [if_neg hi]

theorem mem_of_tget {α : Type} {d : α} {t : Tbl α} {i : Nat} (h : tget d t i ≠ d) : (i, tget d t i) ∈ t := by
  induction t with
  | nil => exact absurd rfl h
  | cons x t ih =>
    obtain ⟨k, v⟩ := x
    rw [tget] at h ⊢
    split at h
    · next hi =>
      rw [if_pos hi, hi]
      exact List.mem_cons_self
    · next hi =>
      rw [if_neg hi]
      exact List.mem_cons_of_mem _ (ih h)

theorem le_of_mem_sorted {α : Type} [DecidableEq α] {d : α} {lo : Nat} {t : Tbl α} (h : tsorted d lo t = true) {i : Nat} {v : α}
    (hv : (i, v) ∈ t) : lo ≤ i := by
  induction t generalizing lo with
  | nil => cases hv
  | cons x t ih =>
    obtain ⟨k, w⟩ := x
    obtain ⟨hlo, -, ht⟩ := tsorted_cons.mp h
    rcases List.mem_cons.mp hv with hv | hv
    · cases hv
      exact hlo
    · exact Nat.le_of_succ_le (Nat.le_trans (Nat.succ_le_succ hlo) (ih ht hv))

/-- A canonical table lists what it holds once. -/
theorem tget_of_mem_sorted {α : Type} [DecidableEq α] {d : α} {lo : Nat} {t : Tbl α} (h : tsorted d lo t = true) {i : Nat} {v : α}
    (hv : (i, v) ∈ t) : tget d t i = v := by
  induction t generalizing lo with
  | nil => cases hv
  | cons x t ih =>
    obtain ⟨k, w⟩ := x
    obtain ⟨-, -, ht⟩ := tsorted_cons.mp h
    rw [tget]
    rcases List.mem_cons.mp hv with hv | hv
    · cases hv
      exact if_pos rfl
    · have hlt := le_of_mem_sorted ht hv
      rw [if_neg (by omega)]
      exact ih ht hv

/-! ### The tallies of a cask -/

/-- A counter of a cask. -/
def tally (s : State) (k o : Nat) : Dword := tget 0 (getCask s k).counters o

theorem tally_getCask {s t : State} {k : Nat} (h : getCask t k = getCask s k) (o : Nat) : tally t k o = tally s k o := by
  rw [tally, h, ← tally]

theorem tally_record (s : State) (r : RecIn) (k o : Nat) : tally (record s r) k o = tally s k o :=
  tally_getCask (getCask_record s r k) o

theorem tally_modBucket (s : State) (l : CaskLoc) (g : CaskBucket → CaskBucket) (k o : Nat) :
    tally (modBucket s l g) k o = tally s k o := by
  rw [tally, modBucket, getCask_modCask]
  split
  · next h => rw [tally, h]
  · rfl

theorem tally_bumpCask (s : State) (k off n o : Nat) :
    tally (bumpCask s k off n) k o = if o = off then tally s k o + BitVec.ofNat 64 n else tally s k o := by
  rw [tally, bumpCask, getCask_modCask_same, bumpTbl, tget_tset]
  split
  · next h => rw [h, tally]
  · rfl

/-! ### A section that seals (R470) -/

/-- The settling of groups leaves every cask. -/
theorem bucketAt_settled {s t : State} (h : Settled s t) (l : CaskLoc) : bucketAt t l = bucketAt s l := by
  rw [bucketAt, h.getCask, ← bucketAt]

theorem sealSection_keyed (a : Int) (now : Nat) : keyed (fun x => sealSection x a now) := fun _ => ⟨rfl, rfl⟩

/-- The cells of a sealed section are empty, and its results their rounded values. -/
theorem sealSection_own {x : CaskBucket} (h : twf 0 x.cells = true) (a : Int) (now : Nat) {e : Nat}
    (he : e / 65536 = x.sealedCount) : tget 0 (sealSection x a now).cells e = 0 ∧
      (tget 0 x.cells e ≠ 0 → tget 0 (sealSection x a now).results e = rne32 (.num (tget 0 x.cells e) (a - 117))) := by
  refine ⟨?_, fun hne => ?_⟩
  · refine (tget_filter_key 0 (fun k => k / 65536 != x.sealedCount) x.cells e).trans (if_neg ?_)
    simp [he]
  · refine tget_foldl_tset 0 Prod.fst Prod.snd _ x.results (fun y hy hkey => ?_) (.inl ⟨(e, rne32 (.num (tget 0 x.cells e) (a - 117))), ?_, rfl⟩)
    · obtain ⟨z, hz, rfl⟩ := List.mem_map.mp hy
      have hmem := (List.mem_filter.mp hz).1
      have hz1 : z.1 = e := hkey
      have hval : tget 0 x.cells e = z.2 := tget_of_mem_sorted h (by rw [← hz1]; exact hmem)
      rw [hval]
    · exact List.mem_map.mpr ⟨(e, tget 0 x.cells e), List.mem_filter.mpr ⟨mem_of_tget hne, by simp [he]⟩, rfl⟩

/-- Another section's cells and results stay. -/
theorem sealSection_other (x : CaskBucket) (a : Int) (now : Nat) {e : Nat} (he : e / 65536 ≠ x.sealedCount) :
    tget 0 (sealSection x a now).cells e = tget 0 x.cells e ∧
      tget 0 (sealSection x a now).results e = tget 0 x.results e := by
  refine ⟨?_, ?_⟩
  · exact (tget_filter_key 0 (fun k => k / 65536 != x.sealedCount) x.cells e).trans (if_pos (by simpa using he))
  · refine tget_foldl_tset 0 Prod.fst Prod.snd _ x.results (fun y hy hkey => ?_) (.inr rfl)
    obtain ⟨z, hz, rfl⟩ := List.mem_map.mp hy
    have hz2 := (List.mem_filter.mp hz).2
    have hz1 : z.1 = e := hkey
    rw [hz1] at hz2
    simp [he] at hz2

theorem sealSection_norm (x : CaskBucket) (a : Int) (now : Nat) : (sealSection x a now).norm =
    (x.cells.filter (fun y => y.1 / 65536 == x.sealedCount)).foldl (fun n (y : Nat × Int) =>
      laneAdd n (mulE (val32 (rne32 (.num y.2 (a - 117)))) (val32 (rne32 (.num y.2 (a - 117)))))) x.norm := by
  unfold sealSection
  dsimp only
  rw [List.foldl_map]

/-! ### Contributors withheld (R468) -/

/-- A bucket from which contributors may have been withheld. -/
def thinned (x z : CaskBucket) : Prop :=
  z = { x with cells := z.cells, units := z.units, verdicts := z.verdicts, building := z.building, withheld := z.withheld
               withheldMark := z.withheldMark }

theorem thinned_refl (x : CaskBucket) : thinned x x := rfl

theorem thinned_trans {x y z : CaskBucket} (h : thinned x y) (k : thinned y z) : thinned x z := by
  unfold thinned at *
  rw [k, h]

theorem unitKey_injective {m n u v : Nat} (hu : u < 2 ^ 20) (hv : v < 2 ^ 20) (h : unitKey m u = unitKey n v) :
    m = n ∧ u = v := by
  unfold unitKey at h
  omega

theorem unitOf_setUnit_other {x : CaskBucket} {m n u v : Nat} (y : CaskUnit) (h : unitKey n v ≠ unitKey m u) :
    unitOf (setUnit x m u y) n v = unitOf x n v := tget_tset_other _ _ _ h

/-- A unit taken off leaves the bucket's other fields, and every other unit. -/
theorem subtractUnit_frame (x : CaskBucket) (m u : Nat) : subtractUnit x m u =
    { x with cells := (subtractUnit x m u).cells, units := (subtractUnit x m u).units
             verdicts := (subtractUnit x m u).verdicts } := by
  unfold subtractUnit
  dsimp only
  split <;> rfl

theorem unitOf_subtractUnit_other {x : CaskBucket} {m n u v : Nat} (h : unitKey n v ≠ unitKey m u) :
    unitOf (subtractUnit x m u) n v = unitOf x n v := by
  unfold subtractUnit
  dsimp only
  split
  · exact unitOf_setUnit_other _ h
  · rfl

theorem foldl_subtractUnit_spec (m : Nat) (us : List Nat) (x : CaskBucket) (hus : ∀ u ∈ us, u < 2 ^ 20) :
    let z := us.foldl (fun x u => subtractUnit x m u) x
    z = { x with cells := z.cells, units := z.units, verdicts := z.verdicts } ∧
      ∀ n v, n ≠ m → v < 2 ^ 20 → unitOf z n v = unitOf x n v := by
  induction us generalizing x with
  | nil => exact ⟨rfl, fun _ _ _ _ => rfl⟩
  | cons u us ih =>
    obtain ⟨hframe, hunits⟩ := ih (subtractUnit x m u) (fun v hv => hus v (List.mem_cons_of_mem u hv))
    refine ⟨?_, fun n v hn hv => (hunits n v hn hv).trans (unitOf_subtractUnit_other (fun h => hn ?_))⟩
    · rw [List.foldl_cons, hframe, subtractUnit_frame]
    · exact (unitKey_injective hv (hus u List.mem_cons_self) h).1

theorem ledgerUnits_lt {x : CaskBucket} {m u : Nat} (h : u ∈ ledgerUnits x m) : u < 2 ^ 20 := by
  obtain ⟨y, -, rfl⟩ := List.mem_map.mp h
  exact Nat.mod_lt _ (by decide)

theorem withheldIn_spec (x : CaskBucket) (m : Nat) : let z := withheldIn m (ledgerUnits x m) x
    thinned x z ∧ z.withheld = x.withheld ++ [m] ∧ ∀ n v, n ≠ m → v < 2 ^ 20 → unitOf z n v = unitOf x n v := by
  obtain ⟨hframe, hunits⟩ := foldl_subtractUnit_spec m (ledgerUnits x m) x (fun u hu => ledgerUnits_lt hu)
  refine ⟨?_, ?_, hunits⟩
  · unfold thinned withheldIn
    dsimp only
    rw [hframe]
  · unfold withheldIn
    dsimp only
    rw [hframe]

theorem tally_withheldNotes (s : State) (l : CaskLoc) (m n : Nat) :
    tally (withheldNotes s l m n) l.k caskWithheld = tally s l.k caskWithheld + 1 ∧
      tally (withheldNotes s l m n) l.k caskBackup = tally s l.k caskBackup := by
  have hone : tally (bumpCask s l.k caskWithheld 1) l.k caskWithheld = tally s l.k caskWithheld + 1 ∧
      tally (bumpCask s l.k caskWithheld 1) l.k caskBackup = tally s l.k caskBackup :=
    ⟨(tally_bumpCask ..).trans (if_pos rfl), (tally_bumpCask ..).trans (if_neg (by decide))⟩
  unfold withheldNotes caskRecord
  dsimp only
  rw [tally_record, tally_record]
  split
  · exact hone
  · exact ⟨((tally_bumpCask ..).trans (if_neg (by decide))).trans hone.1,
      ((tally_bumpCask ..).trans (if_neg (by decide))).trans hone.2⟩

/-- Contributors withheld one after the other. -/
structure WithheldAll (l : CaskLoc) (s t : State) (x z : CaskBucket) (ms : List Nat) : Prop where
  work : CaskWork l s t
  found : bucketAt t l = some z
  thin : thinned x z
  withheld : ∀ m, m ∈ z.withheld ↔ m ∈ x.withheld ∨ m ∈ ms
  units : ∀ m u, m ∉ z.withheld → u < 2 ^ 20 → unitOf z m u = unitOf x m u
  backup : tally t l.k caskBackup = tally s l.k caskBackup
  count : ms.Nodup → tally t l.k caskWithheld =
    tally s l.k caskWithheld + BitVec.ofNat 64 (ms.filter (fun m => !x.withheld.contains m)).length

theorem foldl_withhold {l : CaskLoc} (ms : List Nat) {s : State} {x : CaskBucket} (hx : bucketAt s l = some x) :
    ∃ z, WithheldAll l s (ms.foldl (fun s m => withhold s l m) s) x z ms := by
  induction ms generalizing s x with
  | nil => exact ⟨x, .refl l s, hx, thinned_refl x, by simp, fun _ _ _ _ => rfl, rfl, fun _ => by simp⟩
  | cons m ms ih =>
    rw [List.foldl_cons]
    by_cases hm : m ∈ x.withheld
    · rw [withhold_old hx hm]
      obtain ⟨z, h⟩ := ih hx
      refine ⟨z, h.work, h.found, h.thin, fun n => ?_, h.units, h.backup, fun hnd => ?_⟩
      · rw [h.withheld n, List.mem_cons]
        constructor
        · rintro (h | h)
          · exact .inl h
          · exact .inr (.inr h)
        · rintro (h | rfl | h)
          · exact .inl h
          · exact .inl hm
          · exact .inr h
      · rw [h.count (List.nodup_cons.mp hnd).2, List.filter_cons_of_neg (by simpa using hm)]
    · obtain ⟨hthin, hwithheld, hunits⟩ := withheldIn_spec x m
      have hstep : bucketAt (withhold s l m) l = some (withheldIn m (ledgerUnits x m) x) := by
        rw [withhold_new hx hm, (withheldNotes_side ..).bucketAt]
        exact bucketAt_modBucket_some hx (withheldIn_keyed m _)
      have htally : tally (withhold s l m) l.k caskWithheld = tally s l.k caskWithheld + 1 ∧
          tally (withhold s l m) l.k caskBackup = tally s l.k caskBackup := by
        rw [withhold_new hx hm, (tally_withheldNotes ..).1, (tally_withheldNotes ..).2, tally_modBucket, tally_modBucket]
        exact ⟨rfl, rfl⟩
      obtain ⟨z, h⟩ := ih hstep
      have hmem : ∀ n, n ∈ z.withheld ↔ n ∈ x.withheld ∨ n ∈ m :: ms := by
        intro n
        rw [h.withheld n, hwithheld, List.mem_append, List.mem_singleton, List.mem_cons, or_assoc]
      refine ⟨z, (withhold_work s m).trans h.work, h.found, thinned_trans hthin h.thin, hmem, fun n u hn hu => ?_,
        h.backup.trans htally.2, fun hnd => ?_⟩
      · refine (h.units n u hn hu).trans (hunits n u (fun e => hn ?_) hu)
        rw [hmem, e]
        exact .inr List.mem_cons_self
      · obtain ⟨hm', hnd⟩ := List.nodup_cons.mp hnd
        have hfilter : ms.filter (fun n => !(x.withheld ++ [m]).contains n) = ms.filter (fun n => !x.withheld.contains n) := by
          refine List.filter_congr (fun n hn => ?_)
          have hne : n ≠ m := fun e => hm' (e ▸ hn)
          simp [hne]
        rw [h.count hnd, htally.1, hwithheld, hfilter, List.filter_cons_of_pos (by simpa using hm), List.length_cons,
          BitVec.ofNat_add, BitVec.add_assoc, BitVec.add_comm (1 : Dword)]
        rfl

end Sys2Proof.Machine
end

section
/-! Casks between frames, continued (R468, R595): deadlines, backups counted, and selvedge checks that land. -/

namespace Sys2Proof.Machine

/-! ### Backups counted (R468) -/

/-- The contributors that come to be resolved through a backup. -/
def newBackups (x : CaskBucket) (r : BucketRec) : List Nat :=
  (contributors r).filter (fun m => !x.backedUp.contains m && throughBackup x r m)

theorem countBackups_spec {s : State} {l : CaskLoc} {x : CaskBucket} {r : BucketRec} (hx : bucketAt s l = some x)
    (hr : (partAt s l.low).bind (fun p => bucketRec p l.b) = some r) :
    bucketAt (countBackups s l) l = some { x with backedUp := x.backedUp ++ newBackups x r } ∧
      (∀ o, tally (countBackups s l) l.k o =
        if o = caskBackup then tally s l.k o + BitVec.ofNat 64 (newBackups x r).length else tally s l.k o) := by
  unfold countBackups
  rw [hx, hr]
  dsimp only
  rw [← newBackups]
  split
  · next h =>
    rw [List.isEmpty_iff.mp h, List.append_nil]
    refine ⟨hx, fun o => ?_⟩
    split
    · simp
    · rfl
  · refine ⟨((CaskSide.bumpCask ..).bucketAt l).trans (bucketAt_modBucket_some hx (fun _ => ⟨rfl, rfl⟩)), fun o => ?_⟩
    rw [tally_bumpCask, tally_modBucket]

/-- What is resolved through a backup is counted as it is resolved. -/
def backupsCounted (l : CaskLoc) (s t : State) (x z : CaskBucket) : Prop :=
  tally t l.k caskBackup + BitVec.ofNat 64 x.backedUp.length = tally s l.k caskBackup + BitVec.ofNat 64 z.backedUp.length

theorem backupsCounted_trans {l : CaskLoc} {s t u : State} {x y z : CaskBucket} (h : backupsCounted l s t x y)
    (k : backupsCounted l t u y z) : backupsCounted l s u x z := by
  unfold backupsCounted at *
  bv_omega

/-- A count made on the way, the tally and the list as before. -/
theorem backupsCounted_step {l : CaskLoc} {s t u : State} {x y : CaskBucket} (ms : List Nat)
    (ht : tally t l.k caskBackup = tally s l.k caskBackup) (hy : y.backedUp = x.backedUp ++ ms)
    (hu : tally u l.k caskBackup = tally t l.k caskBackup + BitVec.ofNat 64 ms.length) : backupsCounted l s u x y := by
  unfold backupsCounted
  rw [hy, hu, ht, List.length_append, BitVec.ofNat_add]
  bv_omega

/-! ### The deadline of a section (R468) -/

/-- A contributor that the backups of a section leave unresolved. -/
def stuckIn (x : CaskBucket) (r : BucketRec) (i m : Nat) : Prop :=
  m ∈ contributors r ∧ unitsResolved { x with elapsed := x.elapsed ++ [i] } r i m = false

/-- A section whose deadline has come. -/
def sectionDue (now : Nat) (x : CaskBucket) (r : BucketRec) (i : Nat) : Prop :=
  i < sectionCount r ∧ i ∉ x.elapsed ∧ ∃ d, sectionDeadline x r i = some d ∧ d ≤ now

theorem sectionUnits_lt {r : BucketRec} (hr : r.elems ≤ 2 ^ 28) {i u : Nat} (h : u ∈ sectionUnits r i) : u < 2 ^ 20 := by
  have hu : 256 * u < r.elems := by simpa using (List.mem_filter.mp h).2
  omega

/-- Resolution looks at the contributor's units of the section. -/
theorem unitsResolved_congr {x z : CaskBucket} {r : BucketRec} {i m : Nat}
    (h : ∀ u ∈ sectionUnits r i, unitOf z m u = unitOf x m u) :
    unitsResolved { z with elapsed := z.elapsed ++ [i] } r i m = unitsResolved { x with elapsed := x.elapsed ++ [i] } r i m := by
  have hunit : ∀ (y : CaskBucket) (es : List Nat) (m u : Nat), unitOf { y with elapsed := es } m u = unitOf y m u :=
    fun _ _ _ _ => rfl
  have hall : ∀ f : CaskUnit → Bool, (sectionUnits r i).all (fun u => f (unitOf z m u)) =
      (sectionUnits r i).all (fun u => f (unitOf x m u)) := by
    intro f
    rw [Bool.eq_iff_iff, List.all_eq_true, List.all_eq_true]
    exact ⟨fun g u hu => by rw [← h u hu]; exact g u hu, fun g u hu => by rw [h u hu]; exact g u hu⟩
  unfold unitsResolved
  dsimp only
  simp only [hunit]
  rw [hall (fun y => y.own), hall (fun y => y.added && y.ledger.isNone)]
  simp

/-- Sections elapsed, with the contributors that they left unresolved withheld. -/
structure SectionsElapsed (l : CaskLoc) (r : BucketRec) (s t : State) (x z : CaskBucket) (is : Nat → Prop) : Prop where
  work : CaskWork l s t
  found : bucketAt t l = some z
  frame : z = { x with cells := z.cells, units := z.units, verdicts := z.verdicts, building := z.building
                       withheld := z.withheld, withheldMark := z.withheldMark, elapsed := z.elapsed, backedUp := z.backedUp }
  counted : backupsCounted l s t x z
  elapsed : ∀ i, i ∈ z.elapsed ↔ i ∈ x.elapsed ∨ is i
  withheld : ∀ m, m ∈ z.withheld ↔ m ∈ x.withheld ∨ ∃ i, is i ∧ stuckIn x r i m
  units : ∀ m u, m ∉ z.withheld → u < 2 ^ 20 → unitOf z m u = unitOf x m u

theorem elapseSection_spec {s : State} {l : CaskLoc} {x : CaskBucket} {r : BucketRec} (hx : bucketAt s l = some x)
    (hr : (partAt s l.low).bind (fun p => bucketRec p l.b) = some r) (i : Nat) :
    ∃ z, SectionsElapsed l r s (elapseSection s l r i) x z (fun j => j = i ∧ sectionDue s.pll x r i) := by
  have hstay : elapseSection s l r i = s → ¬ sectionDue s.pll x r i →
      ∃ z, SectionsElapsed l r s (elapseSection s l r i) x z (fun j => j = i ∧ sectionDue s.pll x r i) := by
    intro h hdue
    rw [h]
    exact ⟨x, .refl l s, hx, rfl, rfl, fun j => ⟨.inl, fun h => h.elim id (fun h => absurd h.2 hdue)⟩,
      fun m => ⟨.inl, fun h => h.elim id (fun ⟨_, h, _⟩ => absurd h.2 hdue)⟩, fun _ _ _ _ => rfl⟩
  cases hd : sectionDeadline x r i with
  | none =>
    refine hstay (by rw [elapseSection, hx]; dsimp only; rw [hd]) ?_
    rintro ⟨-, -, d, hd', -⟩
    rw [hd] at hd'
    cases hd'
  | some d =>
    by_cases hwait : s.pll < d ∨ x.elapsed.contains i = true ∨ sectionCount r ≤ i
    · refine hstay (by rw [elapseSection, hx]; dsimp only; rw [hd]; exact if_pos hwait) ?_
      rintro ⟨hi, hmem, d', hd', hle⟩
      rw [hd] at hd'
      cases hd'
      rcases hwait with h | h | h
      · omega
      · exact hmem (by simpa using h)
      · omega
    · have hexec : elapseSection s l r i = countBackups (((contributors r).filter (fun m =>
          !unitsResolved { x with elapsed := x.elapsed ++ [i] } r i m)).foldl (fun s m => withhold s l m)
            (modBucket s l (fun x => { x with elapsed := x.elapsed ++ [i] }))) l := by
        rw [elapseSection, hx]
        dsimp only
        rw [hd]
        exact if_neg hwait
      have hdue : sectionDue s.pll x r i := by
        refine ⟨by omega, fun h => hwait (.inr (.inl (by simpa using h))), d, hd, by omega⟩
      have hkeyed : keyed (fun x => { x with elapsed := x.elapsed ++ [i] }) := fun _ => ⟨rfl, rfl⟩
      obtain ⟨z, hw⟩ := foldl_withhold ((contributors r).filter (fun m =>
        !unitsResolved { x with elapsed := x.elapsed ++ [i] } r i m)) (bucketAt_modBucket_some hx hkeyed)
      rw [hexec]
      generalize ((contributors r).filter (fun m => !unitsResolved { x with elapsed := x.elapsed ++ [i] } r i m)).foldl
        (fun s m => withhold s l m) (modBucket s l (fun x => { x with elapsed := x.elapsed ++ [i] })) = u at hw
      have hwork : CaskWork l s u := (CaskWork.modBucket hkeyed).trans hw.work
      have hru : (partAt u l.low).bind (fun p => bucketRec p l.b) = some r := by
        rw [worked_partAt hwork.frame]
        exact hr
      obtain ⟨hfound, htally⟩ := countBackups_spec hw.found hru
      have hthin := hw.thin
      unfold thinned at hthin
      dsimp only at hthin
      have hbacked : z.backedUp = x.backedUp := by rw [hthin]
      refine ⟨_, hwork.trans (countBackups_work u), hfound, ?_, ?_, fun j => ?_, fun m => ?_, hw.units⟩
      · rw [hthin]
      · refine backupsCounted_step (newBackups z r) (t := u) (hw.backup.trans (tally_modBucket ..)) ?_ ?_
        · dsimp only
          rw [hbacked]
        · exact (htally caskBackup).trans (if_pos rfl)
      · rw [hthin]
        dsimp only
        rw [List.mem_append, List.mem_singleton]
        exact ⟨fun h => h.imp id (fun h => ⟨h, hdue⟩), fun h => h.imp id (fun h => h.1)⟩
      · dsimp only
        rw [hw.withheld m, List.mem_filter]
        constructor
        · rintro (h | ⟨hm, hs⟩)
          · exact .inl h
          · exact .inr ⟨i, ⟨rfl, hdue⟩, hm, by simpa using hs⟩
        · rintro (h | ⟨j, ⟨rfl, -⟩, hm, hs⟩)
          · exact .inl h
          · exact .inr ⟨hm, by simpa using hs⟩

/-- Both sections with cell buffers, one after the other. -/
theorem elapseSections_spec {s : State} {l : CaskLoc} {x : CaskBucket} {r : BucketRec} (hx : bucketAt s l = some x)
    (hr : (partAt s l.low).bind (fun p => bucketRec p l.b) = some r) (helems : r.elems ≤ 2 ^ 28) {i j : Nat} (hij : i ≠ j) :
    ∃ z, SectionsElapsed l r s (elapseSection (elapseSection s l r i) l r j) x z
      (fun k => (k = i ∨ k = j) ∧ sectionDue s.pll x r k) := by
  obtain ⟨y, h1⟩ := elapseSection_spec hx hr i
  generalize elapseSection s l r i = u at h1
  have hru : (partAt u l.low).bind (fun p => bucketRec p l.b) = some r := by
    rw [worked_partAt h1.work.frame]
    exact hr
  obtain ⟨z, h2⟩ := elapseSection_spec h1.found hru j
  generalize elapseSection u l r j = t at h2
  rw [worked_pll h1.work.frame] at h2
  have hdeadline : sectionDeadline y r j = sectionDeadline x r j := by rw [h1.frame]; rfl
  have hdue : sectionDue s.pll y r j ↔ sectionDue s.pll x r j := by
    unfold sectionDue
    rw [hdeadline, h1.elapsed j]
    have hne : ¬ (j = i ∧ sectionDue s.pll x r i) := fun h => hij h.1.symm
    simp only [hne, or_false]
  have hmono : ∀ m, m ∉ z.withheld → m ∉ y.withheld := fun m hm h => hm ((h2.withheld m).mpr (.inl h))
  have hstuck : ∀ m, m ∉ y.withheld → (stuckIn y r j m ↔ stuckIn x r j m) := by
    intro m hm
    unfold stuckIn
    rw [unitsResolved_congr (fun u hu => h1.units m u hm (sectionUnits_lt helems hu))]
  refine ⟨z, h1.work.trans h2.work, h2.found, by rw [h2.frame, h1.frame], backupsCounted_trans h1.counted h2.counted,
    fun k => ?_, fun m => ?_, fun m u hm hu => (h2.units m u hm hu).trans (h1.units m u (hmono m hm) hu)⟩
  · rw [h2.elapsed k, h1.elapsed k, or_assoc, hdue]
    constructor
    · rintro (h | ⟨rfl, h⟩ | ⟨rfl, h⟩)
      · exact .inl h
      · exact .inr ⟨.inl rfl, h⟩
      · exact .inr ⟨.inr rfl, h⟩
    · rintro (h | ⟨rfl | rfl, h⟩)
      · exact .inl h
      · exact .inr (.inl ⟨rfl, h⟩)
      · exact .inr (.inr ⟨rfl, h⟩)
  · rw [h2.withheld m, hdue]
    constructor
    · rintro (h | ⟨k, ⟨rfl, hd⟩, hs⟩)
      · rcases (h1.withheld m).mp h with h | ⟨k, ⟨rfl, hd⟩, hs⟩
        · exact .inl h
        · exact .inr ⟨k, ⟨.inl rfl, hd⟩, hs⟩
      · by_cases hm : m ∈ y.withheld
        · rcases (h1.withheld m).mp hm with h | ⟨k, ⟨rfl, hd⟩, hs⟩
          · exact .inl h
          · exact .inr ⟨k, ⟨.inl rfl, hd⟩, hs⟩
        · exact .inr ⟨k, ⟨.inr rfl, hd⟩, (hstuck m hm).mp hs⟩
    · rintro (h | ⟨k, ⟨rfl | rfl, hd⟩, hs⟩)
      · exact .inl ((h1.withheld m).mpr (.inl h))
      · exact .inl ((h1.withheld m).mpr (.inr ⟨k, ⟨rfl, hd⟩, hs⟩))
      · by_cases hm : m ∈ y.withheld
        · exact .inl hm
        · exact .inr ⟨k, ⟨rfl, hd⟩, (hstuck m hm).mpr hs⟩

end Sys2Proof.Machine
end

section
/-! A selvedge check of a piece that lands (R595), and norm groups that a partial completes (R472, R473). -/

namespace Sys2Proof.Machine

/-! ### A unit judged by its selvedge check -/

/-- What a subtracted unit keeps: what was compared, and the verdicts still to come of the copy. -/
def subtractedUnit (y : CaskUnit) : CaskUnit :=
  { comparedOwn := y.comparedOwn, comparedBackup := y.comparedBackup
    staleOwn := y.staleOwn + flag (y.awaitsPiece && !y.backup)
    staleBackup := y.staleBackup + flag (y.awaitsPiece && y.backup) }

/-- A unit after the selvedge check of a copy. -/
def selvUnit (backup pass : Bool) (y : CaskUnit) : CaskUnit :=
  if y.ledger.isNone || y.backup != backup then y
  else if !pass then subtractedUnit { y with awaitsSelv := false }
  else if y.awaitsPiece then { y with awaitsSelv := false } else { y with awaitsSelv := false, ledger := none }

/-- The check lands once on a unit, however often the piece names it. -/
theorem selvUnit_idem (backup pass : Bool) (y : CaskUnit) : selvUnit backup pass (selvUnit backup pass y) = selvUnit backup pass y := by
  by_cases h : (y.ledger.isNone || y.backup != backup) = true
  · have hy : selvUnit backup pass y = y := if_pos h
    rw [hy, hy]
  · have hfirst : selvUnit backup pass y = if !pass then subtractedUnit { y with awaitsSelv := false }
        else if y.awaitsPiece then { y with awaitsSelv := false } else { y with awaitsSelv := false, ledger := none } := if_neg h
    cases pass with
    | false =>
      rw [hfirst]
      rfl
    | true =>
      rw [hfirst]
      by_cases hp : y.awaitsPiece = true
      · simp [selvUnit, hp]
      · simp [selvUnit, hp]

theorem selvUnit_other {backup : Bool} {y : CaskUnit} (pass : Bool) (h : y.ledger = none ∨ y.backup ≠ backup) :
    selvUnit backup pass y = y := by
  refine if_pos ?_
  rcases h with h | h
  · simp [h]
  · simp [h]

theorem selvUnit_pass {backup : Bool} {y : CaskUnit} (hledger : y.ledger.isSome = true) (hb : y.backup = backup) :
    (selvUnit backup true y).awaitsSelv = false ∧ (selvUnit backup true y).added = y.added ∧
      (selvUnit backup true y).ledger = if y.awaitsPiece = true then y.ledger else none := by
  have hy : selvUnit backup true y =
      if y.awaitsPiece then { y with awaitsSelv := false } else { y with awaitsSelv := false, ledger := none } :=
    (if_neg (by rw [← Option.not_isSome, hledger, hb]; simp)).trans (if_neg (by simp))
  rw [hy]
  split <;> exact ⟨rfl, rfl, rfl⟩

theorem selvUnit_fail {backup : Bool} {y : CaskUnit} (hledger : y.ledger.isSome = true) (hb : y.backup = backup) :
    (selvUnit backup false y).added = false ∧ (selvUnit backup false y).ledger = none := by
  have hy : selvUnit backup false y = subtractedUnit { y with awaitsSelv := false } :=
    (if_neg (by rw [← Option.not_isSome, hledger, hb]; simp)).trans (if_pos rfl)
  rw [hy]
  exact ⟨rfl, rfl⟩

/-- Verdicts of a bucket that no judging of the listed units touches. -/
def keepsVerdict (us : List Nat) (k : CaskVerdict) : Prop := (∀ u ∈ us, u ∉ k.units) ∧ k.units ≠ []

/-- A bucket one of whose units the selvedge check of a piece has judged. -/
structure SelvJudged (m : Nat) (backup pass : Bool) (us : List Nat) (x z : CaskBucket) : Prop where
  frame : z = { x with cells := z.cells, units := z.units, verdicts := z.verdicts }
  units : ∀ u, unitOf z m u = if u ∈ us then selvUnit backup pass (unitOf x m u) else unitOf x m u
  verdicts : ∀ k ∈ x.verdicts, keepsVerdict us k → k ∈ z.verdicts

theorem unitKey_same {m u v : Nat} (h : unitKey m u = unitKey m v) : u = v := by
  unfold unitKey at h
  omega

theorem setUnit_judged {m u : Nat} {backup pass : Bool} {x : CaskBucket} {y : CaskUnit}
    (h : y = selvUnit backup pass (unitOf x m u)) : SelvJudged m backup pass [u] x (setUnit x m u y) := by
  refine ⟨rfl, fun v => ?_, fun k hk _ => hk⟩
  by_cases hv : v = u
  · subst hv
    rw [unitOf_setUnit, if_pos List.mem_cons_self, h]
  · rw [if_neg (by simpa using hv)]
    exact unitOf_setUnit_other _ (fun e => hv (unitKey_same e))

theorem mem_dropKept {vs : List CaskVerdict} {g : CaskVerdict → Bool} {u : Nat} {k : CaskVerdict} (hk : k ∈ vs)
    (hg : g k = false) (hunits : k.units ≠ []) : k ∈ dropKept vs g u := by
  refine List.mem_filter.mpr ⟨List.mem_map.mpr ⟨k, hk, by rw [hg]; rfl⟩, ?_⟩
  have : k.units.isEmpty = false := by simpa using hunits
  rw [this]
  simp

theorem subtractUnit_held {x : CaskBucket} {m u : Nat} {a : Int} {bs : List Byte} (ha : x.anchor = some a)
    (hbs : (unitOf x m u).ledger = some bs) : subtractUnit x m u = setUnit { x with
      cells := addCells x.cells (unitTerms a u bs) (-1)
      verdicts := dropKept x.verdicts (fun v => v.selv && keptFor v m u (unitOf x m u).backup && !v.waiting.contains u) u }
      m u (subtractedUnit (unitOf x m u)) := by
  unfold subtractUnit
  dsimp only
  rw [hbs, ha]
  rfl

theorem subtractUnit_judged {m u : Nat} {backup : Bool} {x : CaskBucket} {a : Int} (ha : x.anchor = some a)
    (hledger : (unitOf x m u).ledger.isSome = true) (hb : (unitOf x m u).backup = backup) :
    SelvJudged m backup false [u] x (subtractUnit (setUnit x m u { unitOf x m u with awaitsSelv := false }) m u) := by
  obtain ⟨bs, hbs⟩ := Option.isSome_iff_exists.mp hledger
  have hsub : subtractUnit (setUnit x m u { unitOf x m u with awaitsSelv := false }) m u =
      setUnit { setUnit x m u { unitOf x m u with awaitsSelv := false } with
        cells := addCells x.cells (unitTerms a u bs) (-1)
        verdicts := dropKept x.verdicts (fun v => v.selv && keptFor v m u (unitOf x m u).backup && !v.waiting.contains u) u }
        m u (subtractedUnit { unitOf x m u with awaitsSelv := false }) := by
    have hunit : unitOf (setUnit x m u { unitOf x m u with awaitsSelv := false }) m u =
      { unitOf x m u with awaitsSelv := false } := unitOf_setUnit ..
    have h := subtractUnit_held (x := setUnit x m u { unitOf x m u with awaitsSelv := false }) (m := m) (u := u) ha
      (by rw [hunit]; exact hbs)
    rw [hunit] at h
    exact h
  rw [hsub]
  refine ⟨rfl, fun v => ?_, fun k hk hkeep => ?_⟩
  · by_cases hv : v = u
    · subst hv
      have hfail : selvUnit backup false (unitOf x m v) = subtractedUnit { unitOf x m v with awaitsSelv := false } :=
        (if_neg (by rw [← Option.not_isSome, hledger, hb]; simp)).trans (if_pos rfl)
      rw [unitOf_setUnit, if_pos List.mem_cons_self, hfail]
    · have hne : unitKey m v ≠ unitKey m u := fun e => hv (unitKey_same e)
      rw [if_neg (by simpa using hv)]
      exact (unitOf_setUnit_other _ hne).trans (unitOf_setUnit_other (x := x) _ hne)
  · refine mem_dropKept hk ?_ hkeep.2
    have hnot : k.units.contains u = false := by simpa using hkeep.1 u List.mem_cons_self
    unfold keptFor
    rw [hnot]
    simp

theorem judgeUnit_judged {s : State} {l : CaskLoc} {x : CaskBucket} (hx : bucketAt s l = some x) {a : Int}
    (ha : x.anchor = some a) (m u : Nat) (backup pass : Bool) :
    ∃ z, bucketAt (judgeUnit s l m u backup true pass) l = some z ∧ SelvJudged m backup pass [u] x z ∧
      ∀ o, o ≠ caskSub → tally (judgeUnit s l m u backup true pass) l.k o = tally s l.k o := by
  by_cases hskip : ((unitOf x m u).ledger.isNone || (unitOf x m u).backup != backup) = true
  · have hstay : judgeUnit s l m u backup true pass = s := by
      rw [judgeUnit, hx]
      exact if_pos hskip
    have hsame : selvUnit backup pass (unitOf x m u) = unitOf x m u := if_pos hskip
    rw [hstay]
    refine ⟨x, hx, ⟨rfl, fun v => ?_, fun k hk _ => hk⟩, fun _ _ => rfl⟩
    split
    · next h =>
      rw [List.mem_singleton.mp h, hsame]
    · rfl
  · have hjudge : judgeUnit s l m u backup true pass =
        if !pass then bumpCask (modBucket s l (fun z =>
          subtractUnit (setUnit z m u { unitOf x m u with awaitsSelv := false }) m u)) l.k caskSub 1
        else modBucket s l (fun z => setUnit z m u (if (unitOf x m u).awaitsPiece then { unitOf x m u with awaitsSelv := false }
          else { unitOf x m u with awaitsSelv := false, ledger := none })) := by
      rw [judgeUnit, hx]
      dsimp only
      rw [if_neg hskip]
      simp
    have hledger : (unitOf x m u).ledger.isSome = true := by
      rw [Bool.or_eq_true, not_or] at hskip
      simpa [Option.isNone_iff_eq_none, Option.isSome_iff_ne_none] using hskip.1
    have hb : (unitOf x m u).backup = backup := by
      rw [Bool.or_eq_true, not_or] at hskip
      simpa using hskip.2
    rw [hjudge]
    cases pass with
    | false =>
      refine ⟨_, ((CaskSide.bumpCask ..).bucketAt l).trans (bucketAt_modBucket_some hx
        (fun z => subtractUnit_key (setUnit z m u _) m u)), subtractUnit_judged ha hledger hb, fun o ho => ?_⟩
      exact (tally_bumpCask ..).trans ((if_neg ho).trans (tally_modBucket ..))
    | true =>
      refine ⟨_, bucketAt_modBucket_some hx (fun _ => ⟨rfl, rfl⟩), setUnit_judged ?_, fun o _ => tally_modBucket ..⟩
      exact ((if_neg hskip).trans (if_neg (by simp))).symm

/-- The units of a piece judged one after the other. -/
theorem foldl_judgeUnit {l : CaskLoc} (us : List Nat) {s : State} {x : CaskBucket} (hx : bucketAt s l = some x) {a : Int}
    (ha : x.anchor = some a) (m : Nat) (backup pass : Bool) :
    let t := us.foldl (fun s u => judgeUnit s l m u backup true pass) s
    CaskWork l s t ∧ (∃ z, bucketAt t l = some z ∧ SelvJudged m backup pass us x z) ∧
      ∀ o, o ≠ caskSub → tally t l.k o = tally s l.k o := by
  induction us generalizing s x with
  | nil => exact ⟨.refl l s, ⟨x, hx, rfl, fun _ => (if_neg List.not_mem_nil).symm, fun _ hk _ => hk⟩, fun _ _ => rfl⟩
  | cons u us ih =>
    obtain ⟨y, hy, hjudged, htally⟩ := judgeUnit_judged hx ha m u backup pass
    have hya : y.anchor = some a := by
      rw [hjudged.frame]
      exact ha
    obtain ⟨hwork, ⟨z, hz, hall⟩, htallies⟩ := ih hy hya
    refine ⟨(judgeUnit_work ..).trans hwork, ⟨z, hz, ?_, fun v => ?_, fun k hk hkeep => ?_⟩,
      fun o ho => (htallies o ho).trans (htally o ho)⟩
    · rw [hall.frame, hjudged.frame]
    · rw [hall.units v, hjudged.units v]
      by_cases hv : v = u
      · subst hv
        rw [if_pos List.mem_cons_self, if_pos List.mem_cons_self, selvUnit_idem, ite_self]
      · rw [if_neg (show v ∉ [u] by simpa using hv)]
        simp [hv]
    · refine hall.verdicts k (hjudged.verdicts k hk ⟨fun w hw => ?_, hkeep.2⟩) ⟨fun w hw => ?_, hkeep.2⟩
      · rw [List.mem_singleton.mp hw]
        exact hkeep.1 u List.mem_cons_self
      · exact hkeep.1 w (List.mem_cons_of_mem u hw)

end Sys2Proof.Machine
end

section
/-! Selvedge checks that land and partials that arrive, as commands (R473, R595). -/

namespace Sys2Proof.Machine

/-! ### CASK_SELV_VERDICT (R595) -/

/-- Whether a cask keeps the selvedge check with an identifier, not landed yet. -/
def checkIn (id : Nat) (x : CaskBucket) : Option (CaskBucket × CaskVerdict) :=
  (x.verdicts.find? (fun v => v.id == id && v.selv && !v.landed)).map (fun v => (x, v))

/-- A bucket whose check has landed: it is kept for the units not accepted yet. -/
def checkLanded (id : Nat) (later : List Nat) (x : CaskBucket) : CaskBucket :=
  let vs := x.verdicts.map (fun y => if y.id = id then { y with landed := true, units := later } else y)
  { x with verdicts := vs.filter (fun y => y.id != id || !later.isEmpty) }

/-- A check that fails is counted and recorded. -/
def checkCounted (s : State) (k : Nat) (r : RecIn) (v : CaskVerdict) : State :=
  if v.pass then s else record (bumpCask s k caskSelvFail 1) r

theorem caskSelvVerdict_found {cask : Fin 8} {id : Nat} {s : State} {x : CaskBucket} {v : CaskVerdict} {l : CaskLoc}
    (hx : bucketAt s l = some x) (hk : l.k = cask.val)
    (h : (getCask s cask.val).buckets.findSome? (checkIn id) = some (x, v)) :
    ∃ r, exec (.caskSelvVerdict cask id) s = .next (countBackups ((v.units.filter (fun u => !v.waiting.contains u)).foldl
      (fun s u => judgeUnit s l v.speaksFor u v.backup true v.pass) (modBucket (checkCounted s l.k r v) l
        (checkLanded id (v.units.filter (fun u => v.waiting.contains u))))) l) := by
  have hl : l = { k := cask.val, low := x.low, b := x.bucket } := by
    have hat := List.find?_some hx
    simp only [Bool.and_eq_true, beq_iff_eq] at hat
    rw [hat.1, hat.2, ← hk]
  subst hl
  show ∃ r, execCaskSelvVerdict cask id s = _
  unfold execCaskSelvVerdict
  dsimp only
  unfold checkIn at h
  rw [h]
  exact ⟨_, rfl⟩

theorem checkCounted_side (s : State) (k : Nat) (r : RecIn) (v : CaskVerdict) : CaskSide s (checkCounted s k r v) := by
  unfold checkCounted
  split
  · exact .refl s
  · exact (CaskSide.bumpCask ..).trans (.record ..)

theorem tally_checkCounted (s : State) (k : Nat) (r : RecIn) (v : CaskVerdict) :
    tally (checkCounted s k r v) k caskSelvFail = tally s k caskSelvFail + (if v.pass = true then 0 else 1) ∧
      tally (checkCounted s k r v) k caskBackup = tally s k caskBackup := by
  unfold checkCounted
  split
  · exact ⟨(BitVec.add_zero _).symm, rfl⟩
  · rw [tally_record, tally_record, tally_bumpCask, tally_bumpCask, if_pos rfl, if_neg (by decide)]
    exact ⟨rfl, rfl⟩

/-- The check is kept, landed, with the units that wait for their piece. -/
theorem mem_checkLanded {id : Nat} {x : CaskBucket} {v : CaskVerdict} (hv : v ∈ x.verdicts) (hid : v.id = id)
    {later : List Nat} (hlater : later ≠ []) :
    { v with landed := true, units := later } ∈ (checkLanded id later x).verdicts := by
  refine List.mem_filter.mpr ⟨List.mem_map.mpr ⟨v, hv, if_pos hid⟩, ?_⟩
  have : later.isEmpty = false := by simpa using hlater
  rw [this]
  simp

/-- A check that lands judges the units accepted from its own copy and is kept for the others. -/
theorem caskSelvVerdict_spec {s : State} {l : CaskLoc} {x : CaskBucket} {r : BucketRec} {v : CaskVerdict} {id : Nat} {a : Int}
    (hx : bucketAt s l = some x) (hr : (partAt s l.low).bind (fun p => bucketRec p l.b) = some r)
    (ha : x.anchor = some a) (hv : v ∈ x.verdicts) (hid : v.id = id) (rec_ : RecIn) :
    let t := countBackups ((v.units.filter (fun u => !v.waiting.contains u)).foldl
      (fun s u => judgeUnit s l v.speaksFor u v.backup true v.pass) (modBucket (checkCounted s l.k rec_ v) l
        (checkLanded id (v.units.filter (fun u => v.waiting.contains u))))) l
    CaskWork l s t ∧ tally t l.k caskSelvFail = tally s l.k caskSelvFail + (if v.pass = true then 0 else 1) ∧
      ∃ z, bucketAt t l = some z ∧ backupsCounted l s t x z ∧
        (∀ m, m ∈ z.backedUp ↔ m ∈ x.backedUp ∨ m ∈ contributors r ∧ throughBackup z r m = true) ∧
        (∀ u, unitOf z v.speaksFor u = if u ∈ v.units ∧ u ∉ v.waiting then selvUnit v.backup v.pass (unitOf x v.speaksFor u)
          else unitOf x v.speaksFor u) ∧
        ∀ u ∈ v.units, u ∈ v.waiting → ∃ k ∈ z.verdicts, k.id = id ∧ k.landed = true ∧ u ∈ k.units := by
  have hkeyed : keyed (checkLanded id (v.units.filter (fun u => v.waiting.contains u))) := fun _ => ⟨rfl, rfl⟩
  have hside := checkCounted_side s l.k rec_ v
  have htallies := tally_checkCounted s l.k rec_ v
  generalize checkCounted s l.k rec_ v = w at hside htallies
  have hlanded := bucketAt_modBucket_some (s := w) ((hside.bucketAt l).trans hx) hkeyed
  obtain ⟨hwork, ⟨y, hy, hjudged⟩, htally⟩ := foldl_judgeUnit (v.units.filter (fun u => !v.waiting.contains u)) hlanded
    (show (checkLanded id (v.units.filter (fun u => v.waiting.contains u)) x).anchor = some a from ha) v.speaksFor v.backup v.pass
  generalize (v.units.filter (fun u => !v.waiting.contains u)).foldl (fun s u => judgeUnit s l v.speaksFor u v.backup true v.pass)
    (modBucket w l (checkLanded id (v.units.filter (fun u => v.waiting.contains u)))) = t' at hwork hy htally
  have hwork' : CaskWork l s t' := (hside.work l).trans ((CaskWork.modBucket hkeyed).trans hwork)
  have hrt : (partAt t' l.low).bind (fun p => bucketRec p l.b) = some r := by
    rw [worked_partAt hwork'.frame]
    exact hr
  obtain ⟨hfound, hcount⟩ := countBackups_spec hy hrt
  have hbacked : y.backedUp = x.backedUp := by
    rw [hjudged.frame]
    rfl
  intro t
  refine ⟨hwork'.trans (countBackups_work t'), ?_, _, hfound, ?_, fun m => ?_, fun u => ?_, fun u hu hwait => ?_⟩
  · refine ((hcount caskSelvFail).trans (if_neg (by decide))).trans ((htally _ (by decide)).trans ?_)
    rw [tally_modBucket, htallies.1]
  · refine backupsCounted_step (newBackups y r) (t := t') ?_ (by dsimp only; rw [hbacked]) ((hcount caskBackup).trans (if_pos rfl))
    rw [htally _ (by decide), tally_modBucket, htallies.2]
  · dsimp only
    rw [hbacked, List.mem_append]
    unfold newBackups
    rw [List.mem_filter, hbacked, Bool.and_eq_true, Bool.not_eq_true', List.contains_eq_mem, decide_eq_false_iff_not]
    constructor
    · rintro (h | ⟨hm, -, hthrough⟩)
      · exact .inl h
      · exact .inr ⟨hm, hthrough⟩
    · rintro (h | ⟨hm, hthrough⟩)
      · exact .inl h
      · by_cases hin : m ∈ x.backedUp
        · exact .inl hin
        · exact .inr ⟨hm, hin, hthrough⟩
  · show unitOf y v.speaksFor u = _
    refine (hjudged.units u).trans ?_
    by_cases h : u ∈ v.units ∧ u ∉ v.waiting
    · rw [if_pos h, if_pos (List.mem_filter.mpr ⟨h.1, by simpa using h.2⟩)]
      rfl
    · rw [if_neg h, if_neg (fun hmem => h ⟨(List.mem_filter.mp hmem).1, by simpa using (List.mem_filter.mp hmem).2⟩)]
      rfl
  · have hmem : u ∈ v.units.filter (fun u => v.waiting.contains u) := List.mem_filter.mpr ⟨hu, by simpa using hwait⟩
    have hne : v.units.filter (fun u => v.waiting.contains u) ≠ [] := List.ne_nil_of_mem hmem
    refine ⟨_, hjudged.verdicts _ (mem_checkLanded hv hid hne) ⟨fun w hw hw' => ?_, hne⟩, hid, rfl, hmem⟩
    have h1 := (List.mem_filter.mp hw).2
    have h2 := (List.mem_filter.mp hw').2
    rw [h2] at h1
    cases h1

/-! ### Norm groups settled (R472, R473) -/

/-- A group with the module's own partial, where it is complete. -/
def ownPartial (s : State) (p : Part) (g : NormGroup) : NormGroup :=
  let bs := g.members.foldl (fun l b => insHalf b l) []
  let lane := bs.foldl (fun l b => (caskBuckets s p b).foldl (fun l x => addPair l (pairOf x.norm)) l) {}
  let bad := bs.any (bucketNonfin s p) || laneNonfin lane
  { g with sent := true
           partials := tset none g.partials (ownIndex s) (some ((pairOf lane).1, (pairOf lane).2, bad)) }

/-- A group as settling leaves it. -/
def settledGroup (s : State) (p : Part) (g : NormGroup) : NormGroup :=
  finalNorm s p (if groupComplete s p g then ownPartial s p g else g)

theorem finalNorm_sendAll (s : State) (xs : List (Nat × Nat × Frame)) (p : Part) (g : NormGroup) :
    finalNorm (sendAll s xs) p g = finalNorm s p g := by
  have h : sendAll s xs = { s with ports := (sendAll s xs).ports, mesh := (sendAll s xs).mesh } := linked_sendAll s xs
  rw [h]
  rfl

theorem settleGroup_eq {s : State} {p : Part} {i : Nat} {g : NormGroup} (hg : p.groups[i]? = some g) :
    ∃ xs, settleGroup s p i =
      modPart (sendAll s xs) p.low (fun q => { q with groups := q.groups.set i (settledGroup s p g) }) := by
  unfold settleGroup settledGroup
  rw [hg]
  dsimp only
  by_cases h : groupComplete s p g = true
  · rw [if_pos h, if_pos h]
    simp only [finalNorm_sendAll]
    exact ⟨_, rfl⟩
  · rw [if_neg h, if_neg h]
    exact ⟨[], rfl⟩

/-- Settling looks at all but groups and frames. -/
theorem settledGroup_congr {s t : State} {p q : Part} (h : Settled s t) (hq : groupless q = groupless p) (g : NormGroup) :
    settledGroup t q g = settledGroup s p g := by
  have hpart : q = { p with groups := q.groups } := by
    have : { groupless q with groups := q.groups } = { groupless p with groups := q.groups } := by rw [hq]
    exact this
  rw [hpart, h.frame]
  rfl

theorem finalNorm_keeps (s : State) (p : Part) (g : NormGroup) : (finalNorm s p g).group = g.group ∧
    (finalNorm s p g).partials = g.partials := by
  unfold finalNorm
  dsimp only
  split <;> exact ⟨rfl, rfl⟩

/-- A peer's partial stays as a group settles. -/
theorem settledGroup_keeps {s : State} {m : Nat} (hm : m ≠ ownIndex s) (p : Part) (g : NormGroup) :
    (settledGroup s p g).group = g.group ∧ tget none (settledGroup s p g).partials m = tget none g.partials m := by
  unfold settledGroup
  rw [(finalNorm_keeps ..).1, (finalNorm_keeps ..).2]
  split
  · refine ⟨rfl, ?_⟩
    unfold ownPartial
    dsimp only
    exact tget_tset_other none g.partials _ hm
  · exact ⟨rfl, rfl⟩

/-- A partition whose groups have been settled up to one. -/
structure GroupsSettled (s t : State) (low : Nat) (p q : Part) (n : Nat) : Prop where
  settled : Settled s t
  found : partAt t low = some q
  rest : groupless q = groupless p
  groups : ∀ i, q.groups[i]? = if i < n then (p.groups[i]?).map (settledGroup s p) else p.groups[i]?

theorem foldl_settleAt {s : State} {low : Nat} {p : Part} (hp : partAt s low = some p) (n : Nat) (hn : n ≤ p.groups.length) :
    ∃ q, GroupsSettled s ((List.range n).foldl (settleAt low) s) low p q n := by
  induction n with
  | zero => exact ⟨p, .refl s, hp, rfl, fun i => by simp⟩
  | succ n ih =>
    obtain ⟨q, h⟩ := ih (by omega)
    obtain rfl : q.low = low := by simpa using List.find?_some h.found
    obtain ⟨g, hg⟩ : ∃ g, p.groups[n]? = some g := ⟨p.groups[n], List.getElem?_eq_getElem (by omega)⟩
    have hqg : q.groups[n]? = some g := by rw [h.groups n, if_neg (by omega), hg]
    rw [List.range_succ, List.foldl_append, List.foldl_cons, List.foldl_nil]
    generalize (List.range n).foldl (settleAt q.low) s = t at h
    have hstep : settleAt q.low t n = settleGroup t q n := by rw [settleAt, h.found]
    obtain ⟨xs, hu⟩ := settleGroup_eq (s := t) hqg
    have hfound : partAt (sendAll t xs) q.low = some q := by
      rw [partAt_parts (linked_parts (linked_sendAll t xs))]
      exact h.found
    refine ⟨{ q with groups := q.groups.set n (settledGroup t q g) }, ?_, ?_, ?_, fun i => ?_⟩
    · rw [hstep]
      exact h.settled.trans (settleGroup_settled ..)
    · rw [hstep, hu]
      exact partAt_modPart hfound (fun _ => rfl)
    · exact h.rest
    · dsimp only
      rw [List.getElem?_set, settledGroup_congr h.settled h.rest]
      by_cases hi : n = i
      · subst hi
        have hlen : n < q.groups.length := by
          by_contra hge
          rw [List.getElem?_eq_none (by omega)] at hqg
          cases hqg
        rw [if_pos rfl, if_pos hlen, if_pos (by omega), hg]
        rfl
      · rw [if_neg hi, h.groups i]
        by_cases hlt : i < n
        · rw [if_pos hlt, if_pos (by omega)]
        · rw [if_neg hlt, if_neg (by omega)]

/-- Every group of a partition settles. -/
theorem settleGroups_spec {s : State} {low : Nat} {p : Part} (hp : partAt s low = some p) :
    ∃ q, Settled s (settleGroups s low) ∧ partAt (settleGroups s low) low = some q ∧
      ∀ i : Nat, q.groups[i]? = (p.groups[i]?).map (settledGroup s p) := by
  obtain ⟨q, h⟩ := foldl_settleAt hp p.groups.length le_rfl
  have hall : settleGroups s low = (List.range p.groups.length).foldl (settleAt low) s := by
    unfold settleGroups
    rw [hp]
    rfl
  rw [hall]
  refine ⟨q, h.settled, h.found, fun i => (h.groups i).trans ?_⟩
  split
  · rfl
  · next hi => rw [List.getElem?_eq_none (by omega)]; rfl

end Sys2Proof.Machine
end

section
/-! The obligation on sections, deadlines and norms: partials that arrive, and the theorem that puts the clauses together. -/

namespace Sys2Proof.Machine

/-! ### NORM_RECEIVE (R473) -/

/-- Whether a group lacks a peer's partial. -/
def lacksPartial (group : Half) (m : Nat) (g : NormGroup) : Bool := g.group == group && (tget none g.partials m).isNone

/-- A group with a peer's partial filed. -/
def withPartial (m : Nat) (x : Word × Word × Bool) (g : NormGroup) : NormGroup :=
  { g with partials := tset none g.partials m (some x) }

theorem withPartial_own (m : Nat) (x : Word × Word × Bool) (g : NormGroup) :
    tget none (withPartial m x g).partials m = some x := tget_tset_same none g.partials m (some x)

/-- The groups of a partition with a partial filed: in the oldest that lacks it, else in a new one. -/
def filedGroups (p : Part) (group : Half) (m : Nat) (x : Word × Word × Bool) : List NormGroup :=
  match p.groups.findIdx? (lacksPartial group m) with
  | some i => p.groups.set i (withPartial m x (p.groups.getD i { group := group }))
  | none => p.groups ++ [withPartial m x { group := group }]

theorem takeNorm_eq {s : State} {rx : Rx} {p : Part} {group : Half} {sum err : Word} {bad : Bool}
    (hp : partAt s (faLow rx.frame.addr) = some p) (hin : rx.frame.inline = .norm group sum err bad) : takeNorm rx s =
      settleGroups (modPart s p.low (fun q => { q with groups := filedGroups p group rx.sender (sum, err, bad) })) p.low := by
  unfold takeNorm
  rw [hp, hin]
  rfl

/-- A group whose partials are all there gets its norm; another waits. -/
theorem finalNorm_sent {s : State} {p : Part} {g : NormGroup} (hsent : g.sent = true) (hfinal : g.final = none) :
    let ps := ((List.range 64).filter (fun m => bit g.contrib m)).map (fun m => tget none g.partials m)
    (ps.any (fun y => y.isNone) = true → finalNorm s p g = g) ∧
      (ps.any (fun y => y.isNone) = false →
        let vs := ps.map (fun y => y.getD (0, 0, false))
        (finalNorm s p g).nonfin = (vs.any (fun y => y.2.2) || g.members.any (bucketNonfin s p)) ∧
        (finalNorm s p g).final = some (if (finalNorm s p g).nonfin = true then nan32 else
          sqrt32 .rne (laneVal (vs.foldl (fun n (y : Word × Word × Bool) => addPair n (y.1, y.2.1)) {})))) := by
  intro ps
  have hunfold : finalNorm s p g = if ps.any (fun x => x.isNone) then g else
      { g with
        final := some (if (ps.any (fun x => match x with | some (_, _, n) => n | none => false) ||
            g.members.any (bucketNonfin s p)) = true then nan32 else
          sqrt32 .rne (laneVal (ps.foldl (fun l x => match x with | some (a, b, _) => addPair l (a, b) | none => l) {})))
        nonfin := ps.any (fun x => match x with | some (_, _, n) => n | none => false) ||
          g.members.any (bucketNonfin s p) } := by
    unfold finalNorm
    dsimp only
    rw [hsent, hfinal]
    rfl
  clear_value ps
  refine ⟨fun h => by rw [hunfold, if_pos h], fun h => ?_⟩
  have hany : ps.any (fun x => match x with | some (_, _, n) => n | none => false) =
      (ps.map (fun y => y.getD (0, 0, false))).any (fun y => y.2.2) := by
    rw [List.any_map]
    refine congrArg ps.any (funext fun x => ?_)
    cases x <;> rfl
  have hlane : ps.foldl (fun l x => match x with | some (a, b, _) => addPair l (a, b) | none => l) ({} : Lane) =
      (ps.map (fun y => y.getD (0, 0, false))).foldl (fun n (y : Word × Word × Bool) => addPair n (y.1, y.2.1)) {} := by
    rw [List.foldl_map]
    suffices hfold : ∀ (l : List (Option (Word × Word × Bool))) (n : Lane), l.any (fun y => y.isNone) = false →
        l.foldl (fun l x => match x with | some (a, b, _) => addPair l (a, b) | none => l) n =
          l.foldl (fun n y => addPair n ((y.getD (0, 0, false)).1, (y.getD (0, 0, false)).2.1)) n from hfold ps {} h
    intro l
    induction l with
    | nil => exact fun _ _ => rfl
    | cons y l ih =>
      intro n hl
      rw [List.any_cons, Bool.or_eq_false_iff] at hl
      cases y with
      | none => cases hl.1
      | some y => exact ih _ hl.2
  intro vs
  rw [hunfold, if_neg (by rw [h]; exact Bool.false_ne_true), hany, hlane]
  exact ⟨rfl, rfl⟩

/-- A partial that arrives is filed, and its group settles. -/
theorem normReceive_files {s : State} {rx : Rx} {p : Part} {group : Half} {sum err : Word} {bad : Bool}
    (hrx : (takeRx s rx).isSome = true) (hk : rx.frame.kind = fkNorm) (hp : partAt s (faLow rx.frame.addr) = some p)
    (hin : rx.frame.inline = .norm group sum err bad) :
    ∃ u t q, linked s u ∧ exec (.normReceive rx) s = .next t ∧
      Settled (modPart u p.low (fun q => { q with groups := filedGroups p group rx.sender (sum, err, bad) })) t ∧
      partAt t p.low = some q ∧ ∀ i : Nat, q.groups[i]? = ((filedGroups p group rx.sender (sum, err, bad))[i]?).map
        (settledGroup s p) := by
  have hlow : p.low = faLow rx.frame.addr := by simpa using List.find?_some hp
  obtain ⟨u, hu, hlink, -⟩ := withRx_present (takeNorm rx) hrx
  have hexec : exec (.normReceive rx) s = .next (takeNorm rx u) := by
    show execNormReceive rx s = _
    rw [execNormReceive, if_pos hk, hu]
  have hpu : partAt u p.low = some p := by
    rw [partAt_parts (linked_parts hlink), hlow]
    exact hp
  rw [takeNorm_eq (hlow ▸ hpu) hin] at hexec
  have hfiled : partAt (modPart u p.low (fun q => { q with groups := filedGroups p group rx.sender (sum, err, bad) })) p.low =
      some { p with groups := filedGroups p group rx.sender (sum, err, bad) } := partAt_modPart hpu (fun _ => rfl)
  obtain ⟨q, hsettled, hq, hgroups⟩ := settleGroups_spec hfiled
  refine ⟨u, _, q, hlink, hexec, hsettled, hq, fun i => (hgroups i).trans ?_⟩
  refine congrArg (fun f => Option.map f _) (funext fun g => ?_)
  exact settledGroup_congr ((Settled.linked hlink).trans (.groups u p.low (fun _ => filedGroups p group rx.sender (sum, err, bad)))) rfl g

/-- What a partial that arrives leaves of the module. -/
theorem settled_filed {s u t : State} {low : Nat} {g : Part → List NormGroup} (hlink : linked s u)
    (h : Settled (modPart u low (fun q => { q with groups := g q })) t) :
    t.cores = s.cores ∧ t.casks = s.casks ∧ t.hbm = s.hbm ∧ t.lpddr = s.lpddr := by
  have hall := ((Settled.linked hlink).trans (.groups u low g)).trans h
  rw [hall.frame]
  exact ⟨rfl, rfl, rfl, rfl⟩

/-! ### SECTION_SEAL and the deadlines as commands (R468, R470) -/

section Commands
variable {cask q : Fin 8} {b : Half} {s : State} {p : Part} {r : BucketRec} {x : CaskBucket}
  (hx : bucketAt s { k := cask.val, low := q.val, b := b } = some x) (hp : partAt s q.val = some p)
  (hr : bucketRec p b = some r)
include hx hp hr

theorem sectionSeal_seals {a : Int} (hreset : p.reset = none) (ha : x.anchor = some a) (hseal : canSeal x r = true) :
    exec (.sectionSeal cask q b) s = .next (settleGroups (modBucket s { k := cask.val, low := q.val, b := b }
      (fun x => sealSection x a s.pll)) q.val) := by
  show execSectionSeal cask q b s = _
  unfold execSectionSeal
  dsimp only
  rw [hx, hp, Option.bind_some, hreset, if_neg (by simp), hr]
  dsimp only
  rw [ha]
  dsimp only
  rw [if_pos hseal]

theorem sectionSeal_waits (h : p.reset.isSome = true ∨ x.anchor = none ∨ canSeal x r = false) :
    exec (.sectionSeal cask q b) s = .next s := by
  show execSectionSeal cask q b s = _
  unfold execSectionSeal
  dsimp only
  rw [hx, hp, Option.bind_some]
  by_cases hreset : p.reset.isSome = true
  · rw [if_pos hreset]
  · rw [if_neg hreset, hr]
    dsimp only
    cases ha : x.anchor with
    | none => rfl
    | some a =>
      dsimp only
      have hseal : canSeal x r = false := by
        rcases h with h | h | h
        · exact absurd h hreset
        · rw [ha] at h
          cases h
        · exact h
      rw [if_neg (by rw [hseal]; exact Bool.false_ne_true)]

/-- The state in which contributors without a header have been withheld. -/
def headersWithheld (s : State) (l : CaskLoc) (x : CaskBucket) (r : BucketRec) : State :=
  ((contributors r).filter (fun m => !x.headers.contains m)).foldl (fun s m => withhold s l m)
    (modBucket s l (fun x => { x with bucketElapsed := true }))

theorem bucketDeadline_elapses {d : Nat} (hd : bucketDeadline x r = some d) (hdue : d ≤ s.pll)
    (hfresh : x.bucketElapsed = false) : exec (.bucketDeadline cask q b) s =
      .next (fixAnchor (headersWithheld s { k := cask.val, low := q.val, b := b } x r)
        { k := cask.val, low := q.val, b := b } r) := by
  show execBucketDeadline cask q b s = _
  unfold execBucketDeadline
  dsimp only
  rw [hx, hp, Option.bind_some, hr]
  dsimp only
  rw [hd]
  dsimp only
  rw [if_neg (by rw [hfresh]; simp; omega)]
  rfl

theorem bucketDeadline_waits (h : ∀ d, bucketDeadline x r = some d → s.pll < d ∨ x.bucketElapsed = true) :
    exec (.bucketDeadline cask q b) s = .next s := by
  show execBucketDeadline cask q b s = _
  unfold execBucketDeadline
  dsimp only
  rw [hx, hp, Option.bind_some, hr]
  dsimp only
  cases hd : bucketDeadline x r with
  | none => rfl
  | some d =>
    dsimp only
    rw [if_pos (h d hd)]

theorem sectionDeadline_elapses : exec (.sectionDeadline cask q b) s =
    .next (elapseSection (elapseSection s { k := cask.val, low := q.val, b := b } r x.sealedCount)
      { k := cask.val, low := q.val, b := b } r (x.sealedCount + 1)) := by
  show execSectionDeadline cask q b s = _
  unfold execSectionDeadline
  dsimp only
  rw [hx, hp, Option.bind_some, hr]

end Commands

/-- A bucket whose own deadline has come. -/
theorem headersWithheld_spec {s : State} {l : CaskLoc} {x : CaskBucket} (hx : bucketAt s l = some x) (r : BucketRec) :
    let late := (contributors r).filter (fun m => !x.headers.contains m && !x.withheld.contains m)
    let t := fixAnchor (headersWithheld s l x r) l r
    ∃ z, CaskWork l s t ∧ bucketAt t l = some z ∧ z.bucketElapsed = true ∧ z.headers = x.headers ∧
      (∀ m, m ∈ z.withheld ↔ m ∈ x.withheld ∨ m ∈ late) ∧
      tally t l.k caskWithheld = tally s l.k caskWithheld + late.length ∧
      (x.anchor = none → z.anchor = some (max (-16) x.largest) ∧ z.anchorAt = s.pll) ∧
      ∀ a, x.anchor = some a → z.anchor = some a := by
  have hkeyed : keyed (fun x => { x with bucketElapsed := true }) := fun _ => ⟨rfl, rfl⟩
  have hnodup : ((contributors r).filter (fun m => !x.headers.contains m)).Nodup :=
    (List.nodup_range.filter _).filter _
  obtain ⟨y, hw⟩ := foldl_withhold ((contributors r).filter (fun m => !x.headers.contains m))
    (bucketAt_modBucket_some hx hkeyed)
  intro late t
  have hlate : ((contributors r).filter (fun m => !x.headers.contains m)).filter (fun m => !x.withheld.contains m) = late := by
    rw [List.filter_filter]
    exact List.filter_congr (fun m _ => Bool.and_comm ..)
  have hcount := hw.count hnodup
  dsimp only at hcount
  rw [hlate] at hcount
  unfold t headersWithheld
  generalize ((contributors r).filter (fun m => !x.headers.contains m)).foldl (fun s m => withhold s l m)
    (modBucket s l (fun x => { x with bucketElapsed := true })) = u at hw hcount
  have hthin := hw.thin
  unfold thinned at hthin
  have hwork : CaskWork l s u := (CaskWork.modBucket hkeyed).trans hw.work
  have hall : ∀ c ∈ contributors r, c ∈ y.headers ∨ c ∈ y.withheld := by
    intro c hc
    by_cases hh : c ∈ x.headers
    · left
      rw [hthin]
      exact hh
    · right
      exact (hw.withheld c).mpr (.inr (List.mem_filter.mpr ⟨hc, by simpa using hh⟩))
  have hmem : ∀ m, m ∈ y.withheld ↔ m ∈ x.withheld ∨ m ∈ late := by
    intro m
    rw [hw.withheld m, List.mem_filter, List.mem_filter]
    by_cases hm : m ∈ x.withheld
    · simp [hm]
    · simp [hm]
  refine ⟨anchoredIn u.pll r y, hwork.trans (fixAnchor_work u r), bucketAt_fixAnchor hw.found r, ?_, ?_, fun m => ?_, ?_,
    fun hnone => ?_, fun a ha => ?_⟩
  · rw [anchoredIn_frame, hthin]
  · rw [anchoredIn_frame, hthin]
  · rw [anchoredIn_frame]
    exact hmem m
  · rw [fixAnchor, tally_modBucket, hcount, tally_modBucket]
    rfl
  · have hy : y.anchor = none := by
      rw [hthin]
      exact hnone
    have hlargest : y.largest = x.largest := by rw [hthin]
    refine ⟨by rw [anchoredIn_resolved hy hall, hlargest], ?_⟩
    rw [← worked_pll hwork.frame]
    unfold anchoredIn
    rw [if_pos (by simpa [hy] using hall)]
  · have hy : y.anchor = some a := by
      rw [hthin]
      exact ha
    rw [anchoredIn_some hy, hy]

/-- Settles O53: sections seal, deadlines withhold, checks judge their units and partials complete norms. -/
theorem sectionsDeadlinesNorms : Obligations.SectionsDeadlinesNorms := by
  unfold Obligations.SectionsDeadlinesNorms
  refine ⟨?buckets, ?norms⟩
  case buckets =>
    intro cask q b s p r x
    dsimp only
    intro hx hp hr helems
    have hrec : (partAt s q.val).bind (fun p => bucketRec p b) = some r := by rw [hp, Option.bind_some, hr]
    refine ⟨fun a hreset ha hseal hwf => ?seals, sectionSeal_waits hx hp hr, fun d hd => ⟨fun h => ?waits, fun hdue hfresh => ?late⟩,
      fun hd => ⟨?noDeadline, ?noSections⟩, ?sections, fun id v a hfind ha => ?check⟩
    case seals =>
      have hsettled := settleGroups_settled (modBucket s { k := cask.val, low := q.val, b := b }
        (fun x => sealSection x a s.pll)) q.val
      have hfound := bucketAt_modBucket_some hx (sealSection_keyed a s.pll)
      have hwork : CaskWork { k := cask.val, low := q.val, b := b } s (modBucket s { k := cask.val, low := q.val, b := b }
        (fun x => sealSection x a s.pll)) := .modBucket (sealSection_keyed a s.pll)
      refine ⟨_, _, sectionSeal_seals hx hp hr hreset ha hseal, (bucketAt_settled hsettled _).trans hfound, ⟨rfl, ?_, rfl, rfl,
        rfl, rfl, fun e he => sealSection_own hwf a s.pll he, fun e he => sealSection_other x a s.pll he,
        sealSection_norm x a s.pll, ?_⟩, fun o ho => (bucketAt_settled hsettled o).trans (hwork.others o ho), ?_, ?_⟩
      · rw [hsettled.frame]
        rfl
      · exact (tally_getCask (hsettled.getCask _) _).trans (tally_modBucket ..)
      · rw [hsettled.frame]
        rfl
      · rw [hsettled.frame]
        rfl
    case waits =>
      refine bucketDeadline_waits hx hp hr (fun d' hd' => ?_)
      rw [hd] at hd'
      cases hd'
      exact h
    case late =>
      obtain ⟨z, hwork, hfound, helapsed, hheaders, hwithheld, hcount, hfixed, hkept⟩ := headersWithheld_spec hx r
      exact ⟨_, z, bucketDeadline_elapses hx hp hr hd hdue hfresh, hfound, ⟨helapsed, hheaders, hwithheld, hcount, hfixed, hkept⟩,
        hwork.others, worked_cores hwork.frame, worked_lpddr hwork.frame⟩
    case noDeadline =>
      refine bucketDeadline_waits hx hp hr (fun d' hd' => ?_)
      rw [hd] at hd'
      cases hd'
    case noSections =>
      have hstay : ∀ i, elapseSection s { k := cask.val, low := q.val, b := b } r i = s := by
        intro i
        have hnone : sectionDeadline x r i = none := by
          unfold sectionDeadline
          rw [hd]
          cases x.anchor <;> rfl
        rw [elapseSection, hx]
        dsimp only
        rw [hnone]
      rw [sectionDeadline_elapses hx hp hr, hstay, hstay]
    case sections =>
      obtain ⟨z, h⟩ := elapseSections_spec hx hrec helems (i := x.sealedCount) (j := x.sealedCount + 1) (by omega)
      refine ⟨_, z, sectionDeadline_elapses hx hp hr, h.found, ⟨?_, ?_, h.counted, h.elapsed, fun m => (h.withheld m).trans ?_⟩,
        h.work.others, worked_cores h.work.frame, worked_lpddr h.work.frame⟩
      · rw [h.frame]
      · rw [h.frame]
      · rfl
    case check =>
      have hat := List.exists_of_findSome?_eq_some hfind
      obtain ⟨y, -, hy⟩ := hat
      obtain ⟨w, hw, hpair⟩ := Option.map_eq_some_iff.mp hy
      cases hpair
      have hvw := List.find?_some hw
      simp only [Bool.and_eq_true, beq_iff_eq] at hvw
      obtain ⟨rec_, hexec⟩ := caskSelvVerdict_found hx rfl hfind
      obtain ⟨hwork, hfail, z, hfound, hcounted, hbacked, hunits, hwaiting⟩ :=
        caskSelvVerdict_spec hx hrec ha (List.mem_of_find?_eq_some hw) hvw.1.1 rec_
      refine ⟨_, z, hexec, hfound, ⟨hfail, hcounted, hbacked, fun u hu => ⟨fun hwait => ⟨?_, hwaiting u hu hwait⟩,
        fun hwait hother => ?_, fun hwait hledger hown => ⟨fun hpass => ?_, fun hpass => ?_⟩⟩⟩,
        hwork.others, worked_cores hwork.frame, worked_lpddr hwork.frame⟩
      · rw [hunits u, if_neg (fun h => h.2 hwait)]
      · rw [hunits u, if_pos ⟨hu, hwait⟩, selvUnit_other v.pass hother]
      · rw [hunits u, if_pos ⟨hu, hwait⟩, hpass]
        exact selvUnit_pass hledger hown
      · rw [hunits u, if_pos ⟨hu, hwait⟩, hpass]
        exact selvUnit_fail hledger hown
  case norms =>
    intro rx s p group sum err bad hrx hk hp hin hpeer
    dsimp only
    obtain ⟨u, t, q, hlink, hexec, hsettled, hq, hgroups⟩ := normReceive_files hrx hk hp hin
    obtain ⟨hcores, hcasks, hhbm, hlpddr⟩ := settled_filed hlink hsettled
    refine ⟨t, q, hexec, hq, hcores, hcasks, hhbm, hlpddr, fun hnone => ?_, fun i g hi hg => ?_⟩
    · have hfiled : filedGroups p group rx.sender (sum, err, bad) =
          p.groups ++ [withPartial rx.sender (sum, err, bad) { group := group }] := by
        unfold filedGroups lacksPartial
        rw [hnone]
      have hlast := hgroups p.groups.length
      rw [hfiled, List.getElem?_append_right (by omega), Nat.sub_self] at hlast
      obtain ⟨hgroup, hpartial⟩ := settledGroup_keeps hpeer p (withPartial rx.sender (sum, err, bad) { group := group })
      exact ⟨_, List.mem_of_getElem? hlast, hgroup, hpartial.trans (withPartial_own ..)⟩
    · have hlt : i < p.groups.length := by
        by_contra hge
        rw [List.getElem?_eq_none (by omega)] at hg
        cases hg
      have hfiled : filedGroups p group rx.sender (sum, err, bad) =
          p.groups.set i (withPartial rx.sender (sum, err, bad) g) := by
        unfold filedGroups lacksPartial
        rw [hi]
        dsimp only
        rw [List.getD_eq_getElem?_getD, hg, Option.getD_some]
      have hat := hgroups i
      rw [hfiled, List.getElem?_set_self hlt, Option.map_some] at hat
      have hlack : (g.group == group && (tget none g.partials rx.sender).isNone) = true := by
        obtain ⟨_, hat', -⟩ := List.findIdx?_eq_some_iff_getElem.mp hi
        rw [List.getElem?_eq_getElem hlt] at hg
        cases hg
        exact hat'
      rw [Bool.and_eq_true, beq_iff_eq] at hlack
      obtain ⟨hgroup, hpartial⟩ := settledGroup_keeps hpeer p (withPartial rx.sender (sum, err, bad) g)
      refine ⟨_, hat, hgroup.trans hlack.1, hpartial.trans (withPartial_own ..), fun hsent hfinal => ?_⟩
      have hcomplete : groupComplete s p (withPartial rx.sender (sum, err, bad) g) = false := by
        unfold groupComplete withPartial
        rw [hsent]
        rfl
      have hsettle : settledGroup s p (withPartial rx.sender (sum, err, bad) g) =
          finalNorm s p (withPartial rx.sender (sum, err, bad) g) := by
        rw [settledGroup, hcomplete, if_neg Bool.false_ne_true]
      rw [hsettle]
      exact finalNorm_sent (s := s) (p := p) (g := withPartial rx.sender (sum, err, bad) g) hsent hfinal

end Sys2Proof.Machine
end

section
/-! The obligation on host registers and rings (R190, R514 to R517, R523, R526, R535, R537, R539, R577 to R580). -/

namespace Sys2Proof.Machine

/-! ### Ring pointers and enables (R523, R526, R537, R539) -/

/-- A register write of one ring leaves the others and all else. -/
theorem modRing_only (s : State) (r : Fin 8) (g : Ring → Ring) :
    getRing (modRing s r.val g) r.val = g (getRing s r.val) ∧ modRing s r.val g = { s with rings := (modRing s r.val g).rings } ∧
      ∀ k : Fin 8, k ≠ r → getRing (modRing s r.val g) k.val = getRing s k.val :=
  ⟨getRing_modRing_same .., rfl, fun k hk => by rw [getRing_modRing, if_neg (fun h => hk (Fin.ext h))]⟩

/-- The stored control word: SIZE below, EN and IEN above. -/
theorem storeCtrl_bits (x : Ring) (v : Word) : bits (storeCtrl x v) 4 28 = bits v 4 2 ∧
    bits (storeCtrl x v) 0 4 = if bit x.ctrl 4 = true then bits x.ctrl 0 4 else max 6 (min 12 (bits v 0 4)) := by
  have hctrl := bits_lt x.ctrl 0 4
  have hfield := bits_lt v 4 2
  have hsize : (if bit x.ctrl 4 = true then bits x.ctrl 0 4 else max 6 (min 12 (bits v 0 4))) < 16 := by
    split <;> omega
  unfold storeCtrl ringEn
  dsimp only
  generalize (if bit x.ctrl 4 = true then bits x.ctrl 0 4 else max 6 (min 12 (bits v 0 4))) = size at hsize
  generalize bits v 4 2 = field at hfield
  rw [bits, bits, BitVec.toNat_ofNat, Nat.shiftRight_eq_div_pow, Nat.shiftRight_eq_div_pow]
  constructor <;> omega

theorem bit_of_bits {n : Nat} (x : BitVec n) (lo len : Nat) {i : Nat} (hi : i < len) :
    bit x (lo + i) = (bits x lo len).testBit i := by
  unfold bit bits
  rw [Nat.testBit_mod_two_pow, Nat.testBit_shiftRight, BitVec.testBit_toNat]
  simp [hi]

theorem ringEn_storeCtrl (x : Ring) (v : Word) : bit (storeCtrl x v) 4 = bit v 4 := by
  rw [bit_of_bits (storeCtrl x v) 4 28 (i := 0) (by decide), (storeCtrl_bits x v).1, ← bit_of_bits v 4 2 (i := 0) (by decide)]

/-- A ring as a write of its control register leaves it. -/
def ctrlStored (v : Word) (x : Ring) : Ring :=
  let y := { x with ctrl := storeCtrl x v }
  if !ringEn x && ringEn y then { y with tail := 0, head := 0, cplHead := 0, cplTail := 0, phase := true } else y

theorem ctrlStored_ctrl (v : Word) (x : Ring) : (ctrlStored v x).ctrl = storeCtrl x v := by
  unfold ctrlStored
  dsimp only
  split <;> rfl

theorem ctrlStored_starts {v : Word} {x : Ring} (hx : bit x.ctrl 4 = false) (hv : bit v 4 = true) : ctrlStored v x =
    { x with ctrl := (ctrlStored v x).ctrl, tail := 0, head := 0, cplHead := 0, cplTail := 0, phase := true } := by
  rw [ctrlStored_ctrl]
  refine if_pos ?_
  unfold ringEn
  dsimp only
  rw [hx, ringEn_storeCtrl, hv]
  rfl

theorem ctrlStored_keeps {v : Word} {x : Ring} (h : bit x.ctrl 4 = true ∨ bit v 4 = false) :
    ctrlStored v x = { x with ctrl := (ctrlStored v x).ctrl } := by
  rw [ctrlStored_ctrl]
  refine if_neg ?_
  unfold ringEn
  dsimp only
  rw [ringEn_storeCtrl]
  rcases h with h | h <;> simp [h]

/-! ### Vectors unmasked (R535) -/

theorem bit_clear {n : Nat} (x : BitVec n) (j i : Nat) : bit (setBits x j 1 0) i = (bit x i && i != j) := by
  by_cases hi : i < n
  · rw [bit_setBits x j 1 0 hi]
    by_cases hj : i = j
    · subst hj
      rw [if_pos (by omega)]
      simp
    · rw [if_neg (by omega)]
      simp [hj]
  · unfold bit
    rw [BitVec.getLsbD_of_ge _ _ (by omega), BitVec.getLsbD_of_ge _ _ (by omega)]
    rfl

/-! ### Segments (R190, R517) -/

theorem segClamp_bits (s : State) (v : Word) : bits (segClamp s v) 6 2 = bits v 6 2 ∧
    bits (segClamp s v) 0 6 = min (bits v 0 6) (tierBytes s (bits v 6 1) / segBytes - 1) := by
  have hindex := bits_lt v 0 6
  have htier : bits v 6 2 = bits v 6 1 + 2 * bits v 7 1 := by
    unfold bits
    rw [Nat.shiftRight_eq_div_pow, Nat.shiftRight_eq_div_pow]
    omega
  have ht := bits_lt v 6 1
  have he := bits_lt v 7 1
  have hmin : min (bits v 0 6) (tierBytes s (bits v 6 1) / segBytes - 1) < 2 ^ 6 := by omega
  unfold segClamp
  dsimp only
  generalize min (bits v 0 6) (tierBytes s (bits v 6 1) / segBytes - 1) = m at hmin
  rw [htier]
  generalize bits v 6 1 = t at *
  generalize bits v 7 1 = e at *
  rw [bits, bits, BitVec.toNat_ofNat, Nat.shiftRight_eq_div_pow, Nat.shiftRight_eq_div_pow]
  constructor <;> omega

theorem segReg_setSeg (s : State) (i j : Nat) (v : Word) : segReg (setSeg s i v) j = if j = i then v else segReg s j :=
  tget_tset 0 s.host.seg i j v

/-- A change that finds no line of the old mapping takes effect at once; another waits, and its lines are asked for. -/
theorem segWrite_changes {s : State} {i : Nat} {value : Word} (hfree : segHeld s i = false)
    (hne : segClamp s value ≠ segReg s i) : segWrite s i value =
      if (segLines s i).isEmpty then setSeg s i (segClamp s value)
      else { snoopLines s (segLines s i) with host := { (snoopLines s (segLines s i)).host with
        segWait := s.host.segWait ++ [(i, segClamp s value)] } } := by
  unfold segWrite
  dsimp only
  rw [hfree, if_neg Bool.false_ne_true, if_neg hne]
  rfl

theorem mem_snooping_snoopLines (s : State) (ls : List Nat) (l : Nat) :
    l ∈ (snoopLines s ls).host.snooping ↔ l ∈ s.host.snooping ∨ l ∈ ls := by
  unfold snoopLines
  dsimp only
  rw [List.mem_append, List.mem_filter]
  by_cases h : l ∈ s.host.snooping <;> simp [h]

/-! ### Back-invalidation responses (R514, R517) -/

/-- A change of the snoops outstanding alone. -/
def snoopsOnly (s t : State) : Prop := t = { s with host := { s.host with snooping := t.host.snooping } }

/-- Every line under a waiting change is asked for. -/
theorem chaseSegs_spec (s : State) : snoopsOnly s (chaseSegs s) ∧ ∀ l, l ∈ (chaseSegs s).host.snooping ↔
    l ∈ s.host.snooping ∨ ∃ x ∈ s.host.segWait, l ∈ segLines s x.1 := by
  suffices hfold : ∀ (xs : List (Nat × Word)) (t : State), snoopsOnly s t →
      snoopsOnly s (xs.foldl (fun s x => snoopLines s (segLines s x.1)) t) ∧
      ∀ l, l ∈ (xs.foldl (fun s x => snoopLines s (segLines s x.1)) t).host.snooping ↔
        l ∈ t.host.snooping ∨ ∃ x ∈ xs, l ∈ segLines s x.1 from hfold s.host.segWait s rfl
  intro xs
  induction xs with
  | nil => exact fun t ht => ⟨ht, fun l => by simp⟩
  | cons x xs ih =>
    intro t ht
    have hlines : segLines t x.1 = segLines s x.1 := by
      unfold snoopsOnly at ht
      rw [ht]
      rfl
    have hstep : snoopsOnly s (snoopLines t (segLines t x.1)) := by
      unfold snoopsOnly at ht ⊢
      rw [ht]
      rfl
    obtain ⟨honly, hmem⟩ := ih _ hstep
    refine ⟨honly, fun l => (hmem l).trans ?_⟩
    rw [mem_snooping_snoopLines, hlines, or_assoc]
    simp

/-- Waiting changes that take effect change segments and the list of those that wait. -/
theorem settleSegs_frame (xs : List (Nat × Word)) (s : State) : settleSegs xs s =
    { s with host := { s.host with seg := (settleSegs xs s).host.seg, segWait := (settleSegs xs s).host.segWait } } := by
  induction xs generalizing s with
  | nil => rfl
  | cons x xs ih =>
    obtain ⟨i, v⟩ := x
    rw [settleSegs]
    split
    · rw [ih]
      rfl
    · exact ih s

/-- The one change that waits takes effect when no line of the old mapping is held. -/
theorem settleSegs_one {s : State} {i : Nat} {v : Word} (h : s.host.segWait = [(i, v)]) :
    settleSegs s.host.segWait s = if (segLines s i).isEmpty then
      { setSeg s i v with host := { (setSeg s i v).host with segWait := [] } } else s := by
  have hfind : (s.host.segWait.find? (fun x => x.1 == i) == some (i, v)) = true := by
    rw [h]
    simp
  have herase : s.host.segWait.erase (i, v) = [] := by
    rw [h]
    simp
  conv => lhs; rw [h]
  rw [settleSegs, hfind, Bool.and_true, herase, settleSegs, settleSegs]

/-- The host as a response leaves it, before what waits goes on. -/
def lineDropped (s : State) (line : Nat) : State :=
  { s with host := { s.host with
      snoop := s.host.snoop.filter (fun l => l != line)
      snooping := s.host.snooping.filter (fun l => l != line) } }

theorem segLines_lineDropped (s : State) (line i : Nat) :
    segLines (lineDropped s line) i = (segLines s i).filter (fun l => l != line) := by
  have hreg : segReg (lineDropped s line) i = segReg s i := rfl
  unfold segLines
  rw [hreg]
  dsimp only
  cases segEn (segReg s i)
  · rfl
  · exact (List.filter_filter ..).trans ((List.filter_congr (fun l _ => Bool.and_comm ..)).trans
      (List.filter_filter ..).symm)

theorem biSnoop_stays {s : State} {line : Nat} (h : line ∉ s.host.snooping) : exec (.biSnoopResponse line) s = .next s := by
  show execBiSnoopResponse line s = _
  unfold execBiSnoopResponse
  rw [if_neg (by simpa using h)]

theorem biSnoop_drops {s : State} {line : Nat} (h : line ∈ s.host.snooping) : exec (.biSnoopResponse line) s =
    .next (chaseSegs (settleSegs (lineDropped s line).host.segWait (lineDropped s line))) := by
  show execBiSnoopResponse line s = _
  unfold execBiSnoopResponse
  rw [if_pos (by simpa using h)]
  rfl

end Sys2Proof.Machine
end

section
/-! The error ring's copy (R577 to R580), and the obligation on host registers and rings. -/

namespace Sys2Proof.Machine

/-! ### Bytes read back where they were written -/

theorem readBytes_congr {m t : Tbl Byte} {addr n : Nat} (h : ∀ b, addr ≤ b → b < addr + n → tget 0 m b = tget 0 t b) :
    readBytes m addr n = readBytes t addr n := by
  induction n generalizing addr with
  | zero => rfl
  | succ n ih =>
    rw [readBytes, readBytes, h addr (Nat.le_refl _) (by omega), ih (fun b lo hi => h b (by omega) (by omega))]

theorem tget_placed_outside (m : Tbl Byte) {addr : Nat} {bs : List Byte} {b : Nat} (h : b < addr ∨ addr + bs.length ≤ b) :
    tget 0 (writeBytes m (placed addr bs)) b = tget 0 m b :=
  tget_tsetAll_other 0 _ m (fun x hx => by have := mem_placed hx; omega)

theorem readBytes_placed (m : Tbl Byte) (addr : Nat) (bs : List Byte) :
    readBytes (writeBytes m (placed addr bs)) addr bs.length = bs := by
  induction bs generalizing m addr with
  | nil => rfl
  | cons b bs ih =>
    have hcons : writeBytes m (placed addr (b :: bs)) = writeBytes (tset 0 m addr b) (placed (addr + 1) bs) := rfl
    rw [List.length_cons, readBytes, hcons, ih, tget_placed_outside _ (by omega), tget_tset_same]

/-! ### The bytes of a record (R577) -/

theorem recordBytes_split (r : Record) (c : Nat) : recordBytes r c = (recordBytes r 0).take 60 ++ leBytes 4 c := by
  have hbody : ∀ c, recordBytes r c = (recordBytes r 0).take 60 ++ leBytes 4 c := fun c => by
    have hlen : ∀ xs : List Byte, xs.length = 60 → (xs ++ leBytes 4 0).take 60 = xs :=
      fun xs h => by rw [← h, List.take_left]
    unfold recordBytes
    rw [hlen]
    simp only [List.length_append, leBytes_length]
  exact hbody c

theorem recordBytes_length (r : Record) (c : Nat) : (recordBytes r c).length = 64 := by
  unfold recordBytes
  simp only [List.length_append, leBytes_length]

/-- The bytes of a record under its own check. -/
def sealedBytes (r : Record) : List Byte := recordBytes r (crc32c ((recordBytes r 0).take 60))

/-! ### The copy of the oldest record (R579) -/

theorem copyOldest_eq {s : State} {r : Record} {rest : List Record} (h : s.errors.store = r :: rest) : copyOldest s =
    raiseVector { s with
      hbm := writeBytes s.hbm (placed (ringAddr s) (sealedBytes r))
      poisonHbm := s.poisonHbm.filter (fun u => u != ringAddr s / 64)
      errors := { s.errors with store := rest, head := s.errors.head + 1 } } 32 := by
  rw [sealedBytes, recordBytes_split]
  unfold copyOldest
  rw [h]
  rfl

/-- What a copied record leaves. -/
def CopiedTo (s t : State) (r : Record) (l : List Record) : Prop :=
  t.errors.store = l ∧ t.errors.head = s.errors.head + 1 ∧ (sealedBytes r).length = 64 ∧
    readBytes t.hbm (ringAddr s) 64 = sealedBytes r ∧
    (∀ b : Nat, b < ringAddr s ∨ ringAddr s + 64 ≤ b → tget 0 t.hbm b = tget 0 s.hbm b) ∧
    t.lpddr = s.lpddr ∧ t.cores = s.cores ∧ (bit s.host.msixMask 32 = true → bit t.host.msixPend 32 = true) ∧
    (bit s.host.msixMask 32 = false → t.host.messages = s.host.messages ++ [32])

/-- A vector is sent, or kept pending while it is masked. -/
theorem raiseVector_marks (s : State) {v : Nat} (hv : v < 64) :
    (bit s.host.msixMask v = true → bit (raiseVector s v).host.msixPend v = true) ∧
      (bit s.host.msixMask v = false → (raiseVector s v).host.messages = s.host.messages ++ [v]) := by
  unfold raiseVector
  refine ⟨fun h => ?_, fun h => ?_⟩
  · rw [if_pos h]
    dsimp only
    rw [bit_setBits _ _ _ _ hv, if_pos (by omega)]
    simp
  · rw [h, if_neg Bool.false_ne_true]

theorem copyOldest_copies {s : State} {r : Record} {rest : List Record} (h : s.errors.store = r :: rest) :
    CopiedTo s (copyOldest s) r rest := by
  have hlen : (sealedBytes r).length = 64 := recordBytes_length ..
  rw [copyOldest_eq h]
  generalize hw : ({ s with
      hbm := writeBytes s.hbm (placed (ringAddr s) (sealedBytes r))
      poisonHbm := s.poisonHbm.filter (fun u => u != ringAddr s / 64)
      errors := { s.errors with store := rest, head := s.errors.head + 1 } } : State) = w
  have hhost : w.host = s.host := by rw [← hw]
  obtain ⟨hpend, hsent⟩ := raiseVector_marks w (v := 32) (by decide)
  rw [hhost] at hpend hsent
  have hframe := raiseVector_frame w 32
  generalize raiseVector w 32 = t at *
  have hhbm : t.hbm = writeBytes s.hbm (placed (ringAddr s) (sealedBytes r)) := by rw [hframe, ← hw]
  refine ⟨by rw [hframe, ← hw], by rw [hframe, ← hw], hlen, ?_, fun b hb => ?_, by rw [hframe, ← hw],
    by rw [hframe, ← hw], hpend, hsent⟩
  · rw [hhbm, ← hlen]
    exact readBytes_placed ..
  · rw [hhbm]
    exact tget_placed_outside _ (by rw [hlen]; exact hb)

theorem errorRecordCopy_runs {s : State} (hfull : ringFull s = false) (hheld : ringLineHeld s = false)
    (hany : s.errors.store ≠ [] ∨ s.errors.table ≠ []) : exec .errorRecordCopy s = .next (copyOldest (takeSummary s)) := by
  have hempty : ¬ (ringFull s || (s.errors.store.isEmpty && s.errors.table.isEmpty)) = true := by
    rw [hfull]
    rcases hany with h | h <;> simp [h]
  show execErrorRecordCopy s = _
  unfold execErrorRecordCopy
  rw [if_neg hempty, hheld, if_neg Bool.false_ne_true]

theorem takeSummary_keeps {s : State} {r : Record} {l : List Record} (h : s.errors.store = r :: l) : takeSummary s = s := by
  unfold takeSummary
  rw [h]

theorem takeSummary_takes {s : State} {x : Record × Nat × Nat × Bool} {l : List (Record × Nat × Nat × Bool)}
    (hs : s.errors.store = []) (ht : s.errors.table = x :: l) : takeSummary s =
      { s with errors := { s.errors with store := [summaryOf s x], table := l, rseq := s.errors.rseq + 1 } } := by
  unfold takeSummary
  rw [hs, ht]

theorem bits_ofNat_whole (n : Nat) : bits (BitVec.ofNat 32 n) 0 32 = n % 2 ^ 32 := by
  unfold bits
  rw [BitVec.toNat_ofNat, Nat.shiftRight_zero, Nat.mod_mod]

/-! ### The clauses of the obligation -/

theorem ctrlWrite_gives (r : Fin 8) (v : Word) (s : State) : exec (.cellarRingCtrlWrite r v) s =
    .next (modRing s r.val (ctrlStored v)) := rfl

/-- The one unmasked vector is sent once for all that was pending. -/
theorem unmask_sends (v : Fin 64) (s : State) : ∃ t, exec (.msixVectorUnmask v) s = .next t ∧ hostOnly s t ∧
    (∀ i, bit t.host.msixMask i = (bit s.host.msixMask i && i != v.val)) ∧
    (∀ i, bit t.host.msixPend i = (bit s.host.msixPend i && i != v.val)) ∧
    t.host.messages = s.host.messages ++ (if bit s.host.msixPend v.val = true then [v.val] else []) := by
  refine ⟨_, rfl, rfl, fun i => bit_clear _ _ _, fun i => bit_clear _ _ _, ?_⟩
  dsimp only
  cases bit s.host.msixPend v.val
  · exact (List.append_nil _).symm
  · rfl

theorem tailErr_clamps (v : Dword) (s : State) : ∃ t, exec (.cellarErrTailWrite v) s = .next t ∧
    t = { s with errors := { s.errors with tail := t.errors.tail } } ∧
    t.errors.tail.toNat = max (s.errors.head.toNat - 65536) (min s.errors.head.toNat v.toNat) := by
  refine ⟨tailErrWrite s v, rfl, rfl, ?_⟩
  have hhead : s.errors.head.toNat < 2 ^ 64 := BitVec.isLt _
  unfold tailErrWrite clampTo
  dsimp only
  rw [BitVec.toNat_ofNat]
  omega

theorem segWrite_settles (i : Fin 16) (v : Word) (s : State) (hfree : segHeld s i.val = false)
    (hne : segClamp s v ≠ segReg s i.val) : ∃ t, exec (.cellarHdmSegWrite i v) s = .next t ∧ hostOnly s t ∧
      (∀ j, j ≠ i.val → segReg t j = segReg s j) ∧ t.host.snoop = s.host.snoop ∧
      (segLines s i.val = [] → segReg t i.val = segClamp s v ∧ segHeld t i.val = false) ∧
      (segLines s i.val ≠ [] → segReg t i.val = segReg s i.val ∧ (i.val, segClamp s v) ∈ t.host.segWait ∧
        ∀ l ∈ segLines s i.val, l ∈ t.host.snooping) := by
  refine ⟨segWrite s i.val v, rfl, ?_⟩
  rw [segWrite_changes hfree hne]
  by_cases hl : segLines s i.val = []
  · rw [if_pos (List.isEmpty_iff.mpr hl)]
    exact ⟨rfl, fun j hj => by rw [segReg_setSeg, if_neg hj], rfl,
      fun _ => ⟨by rw [segReg_setSeg, if_pos rfl], hfree⟩, fun h => absurd hl h⟩
  · rw [if_neg (fun h => hl (List.isEmpty_iff.mp h))]
    exact ⟨rfl, fun _ _ => rfl, rfl, fun h => absurd h hl, fun _ => ⟨rfl, List.mem_append_right _ List.mem_cons_self,
      fun l h => (mem_snooping_snoopLines ..).mpr (.inr h)⟩⟩

theorem biSnoop_settles {line : Nat} {s : State} (hline : line ∈ s.host.snooping) : ∃ t,
    exec (.biSnoopResponse line) s = .next t ∧ hostOnly s t ∧
      (∀ l, l ∈ t.host.snoop ↔ l ∈ s.host.snoop ∧ l ≠ line) ∧
      (∀ l, l ∈ t.host.snooping ↔ (l ∈ s.host.snooping ∧ l ≠ line) ∨ ∃ x ∈ t.host.segWait, l ∈ segLines t x.1) ∧
      (∀ i v, s.host.segWait = [(i, v)] →
        ((∀ l ∈ segLines s i, l = line) → segReg t i = v ∧ t.host.segWait = []) ∧
        ((∃ l ∈ segLines s i, l ≠ line) → segReg t i = segReg s i ∧ t.host.segWait = s.host.segWait)) := by
  refine ⟨_, biSnoop_drops hline, ?_⟩
  generalize hd : lineDropped s line = d
  have hsnoop : d.host.snoop = s.host.snoop.filter (fun l => l != line) := by rw [← hd]; rfl
  have hasked : d.host.snooping = s.host.snooping.filter (fun l => l != line) := by rw [← hd]; rfl
  have hwait : d.host.segWait = s.host.segWait := by rw [← hd]; rfl
  have hreg : ∀ i, segReg d i = segReg s i := fun i => by rw [← hd]; rfl
  have hlines : ∀ i, segLines d i = (segLines s i).filter (fun l => l != line) := fun i => by
    rw [← hd, segLines_lineDropped]
  have honly : hostOnly s d := by rw [← hd]; rfl
  have hframe := settleSegs_frame d.host.segWait d
  have hone : ∀ {i v}, s.host.segWait = [(i, v)] → settleSegs d.host.segWait d = if (segLines d i).isEmpty then
      { setSeg d i v with host := { (setSeg d i v).host with segWait := [] } } else d :=
    fun h => settleSegs_one (hwait.trans h)
  generalize settleSegs d.host.segWait d = e at *
  obtain ⟨hchase, hasks⟩ := chaseSegs_spec e
  have hsame : ∀ i, segLines (chaseSegs e) i = segLines e i := fun i => by rw [hchase]; rfl
  have hregs : ∀ i, segReg (chaseSegs e) i = segReg e i := fun i => by rw [hchase]; rfl
  have hwaits : (chaseSegs e).host.segWait = e.host.segWait := by rw [hchase]
  have hsnoops : (chaseSegs e).host.snoop = e.host.snoop := by rw [hchase]
  have hrest : hostOnly s (chaseSegs e) := by
    unfold hostOnly at honly ⊢
    rw [hchase, hframe, honly]
  refine ⟨hrest, fun l => ?_, fun l => ?_, fun i v h1 => ⟨fun hall => ?_, fun ⟨l, hl, hne⟩ => ?_⟩⟩
  · rw [hsnoops, hframe]
    dsimp only
    rw [hsnoop, List.mem_filter]
    simp
  · have hasked' : e.host.snooping = d.host.snooping := by rw [hframe]
    rw [hasks, hwaits, hasked', hasked, List.mem_filter]
    simp [hsame]
  · have hnone : segLines d i = [] := by
      rw [hlines, List.filter_eq_nil_iff]
      exact fun l hl => by simp [hall l hl]
    have he := hone h1
    rw [hnone, if_pos (by rfl)] at he
    rw [hregs, hwaits, he]
    exact ⟨(segReg_setSeg ..).trans (if_pos rfl), rfl⟩
  · have hsome : ¬ (segLines d i).isEmpty = true := fun h => by
      have hin : l ∈ segLines d i := by
        rw [hlines, List.mem_filter]
        exact ⟨hl, by simpa using hne⟩
      rw [List.isEmpty_iff.mp h] at hin
      cases hin
    have he := hone h1
    rw [if_neg hsome] at he
    rw [hregs, hwaits, he]
    exact ⟨hreg i, hwait⟩

theorem errorRecordCopy_copies (s : State) (hfull : ringFull s = false) (hheld : ringLineHeld s = false) :
    (∀ r l, s.errors.store = r :: l → ∃ t, exec .errorRecordCopy s = .next t ∧ CopiedTo s t r l) ∧
    (∀ x l, s.errors.store = [] → s.errors.table = x :: l →
      (∃ t, exec .errorRecordCopy s = .next t ∧ CopiedTo s t (summaryOf s x) []) ∧
      (summaryOf s x).kind = x.1.kind ∧ bits (summaryOf s x).lost 0 32 = x.2.2.1 % 2 ^ 32) := by
  refine ⟨fun r l h => ?_, fun x l hs ht => ⟨?_, rfl, bits_ofNat_whole _⟩⟩
  · have hstep := errorRecordCopy_runs hfull hheld (.inl (by rw [h]; exact List.cons_ne_nil _ _))
    rw [takeSummary_keeps h] at hstep
    exact ⟨_, hstep, copyOldest_copies h⟩
  · have hstep := errorRecordCopy_runs hfull hheld (.inr (by rw [ht]; exact List.cons_ne_nil _ _))
    rw [takeSummary_takes hs ht] at hstep
    exact ⟨_, hstep, copyOldest_copies rfl⟩

end Sys2Proof.Machine

namespace Sys2Proof

open Machine

/-- Settles O54: each write is its register's own rule, and the ring takes one sealed record at its head. -/
theorem hostRegistersAndRings : Obligations.HostRegistersAndRings := by
  unfold Obligations.HostRegistersAndRings
  refine ⟨fun r v s => ⟨⟨_, rfl, ?_⟩, ⟨_, rfl, ?_⟩, ⟨_, ctrlWrite_gives r v s, ?_⟩⟩, unmask_sends, tailErr_clamps,
    fun i v s hfree => ⟨(segClamp_bits s v).1, (segClamp_bits s v).2, fun h => ?_, segWrite_settles i v s hfree⟩,
    fun line s => ⟨biSnoop_stays, biSnoop_settles⟩, fun s => ⟨fun h => ?_, fun hs ht => ?_, errorRecordCopy_copies s⟩⟩
  · exact modRing_only ..
  · exact modRing_only ..
  · obtain ⟨hown, hrest⟩ := modRing_only s r (ctrlStored v)
    refine ⟨?_, hrest⟩
    obtain ⟨hswitch, hsize⟩ := storeCtrl_bits (getRing s r.val) v
    rw [← ctrlStored_ctrl] at hswitch hsize
    rw [hown]
    exact ⟨hswitch, hsize, ctrlStored_starts, ctrlStored_keeps⟩
  · show Host.Outcome.next (segWrite s i.val v) = _
    unfold segWrite
    rw [hfree, if_neg Bool.false_ne_true, if_pos h]
  · show execErrorRecordCopy s = _
    unfold execErrorRecordCopy
    rw [h]
    rfl
  · show execErrorRecordCopy s = _
    unfold execErrorRecordCopy
    rw [hs, ht, if_pos (by simp)]

end Sys2Proof
end

section
/-! The HDM window, refused accesses, the link and patrol scrub (R189 to R195, R511 to R518, R530, R536, R718), and their
obligation. -/

namespace Sys2Proof.Machine

/-! ### Records and refused accesses (R577, R718) -/

/-- With room in the store a record changes the error state and the draw counter alone. -/
theorem record_room {s : State} (r : RecIn) (h : s.errors.store.length < 512) :
    record s r = { s with errors := (record s r).errors, draws := (record s r).draws } := by
  simp [record, h]

/-- A refused access is counted and recorded, whatever the host is answered. -/
theorem countedBad_badAccess (s : State) (off space rule : Nat) : countedBad s (badAccess s off space rule) off space rule := by
  refine ⟨?_, recorded_congr (recorded_record { s with host := { s.host with badacc := s.host.badacc + 1 } } _) rfl rfl rfl rfl⟩
  rw [badAccess, record_frame_eq]

/-- What a refused access leaves alone. -/
theorem badAccess_frame (s : State) (off space rule : Nat) : (badAccess s off space rule).lpddr = s.lpddr ∧
    (badAccess s off space rule).cores = s.cores ∧ (badAccess s off space rule).quads = s.quads ∧
    (badAccess s off space rule).host.replies = s.host.replies := by
  unfold badAccess
  rw [record_frame_eq]
  exact ⟨rfl, rfl, rfl, rfl⟩

/-! ### Reads of one unit (R193, R194, R518) -/

/-- Poison noted on one unit, with room in the store, changes records alone. -/
theorem findPoison_room {s : State} (t : Tier) (pq u : Nat) (h : s.errors.store.length < 512) : findPoison s t pq u =
    { s with poisonFound := (findPoison s t pq u).poisonFound, errors := (findPoison s t pq u).errors
             draws := (findPoison s t pq u).draws } := by
  unfold findPoison
  split
  · rw [record_room (s := { s with poisonFound := s.poisonFound ++ [(t, u)] }) _ h]
  · rfl

/-- What ECC may do to a state before a poisoned unit is noted. -/
def EccMarks (s t : State) : Prop :=
  t = { s with poisonHbm := t.poisonHbm, poisonLpddr := t.poisonLpddr, poisonFound := t.poisonFound
               eccCounts := t.eccCounts, host := { s.host with snooping := t.host.snooping } }

theorem eccMarks_poisonUnit {s t : State} (h : EccMarks s t) (x : Tier) (u : Nat) : EccMarks s (poisonUnit t x u) := by
  unfold EccMarks at *
  unfold poisonUnit
  dsimp only
  split
  · rw [h]
  · rw [h]
    cases x <;> rfl

theorem isPoisoned_poisonUnit (s : State) (t : Tier) (u : Nat) : isPoisoned (poisonUnit s t u) t u = true := by
  unfold poisonUnit
  dsimp only
  split
  · next h => exact h
  · cases t <;> simp [isPoisoned, setPoison, poisonOf]

theorem isPoisoned_poisonUnit_of (s : State) (t : Tier) (u v : Nat) (h : isPoisoned s t v = true) :
    isPoisoned (poisonUnit s t u) t v = true := by
  unfold poisonUnit
  dsimp only
  split
  · exact h
  · cases t <;> simp_all [isPoisoned, setPoison, poisonOf]

/-- Units that ECC cannot correct are poisoned. -/
theorem poisonBad_spec (t : Tier) (xs : List (Tier × Nat)) (s0 s : State) (hs : EccMarks s0 s) :
    let f := fun (s : State) (x : Tier × Nat) => if isPoisoned s t x.2 then s else poisonUnit s t x.2
    EccMarks s0 (xs.foldl f s) ∧ (∀ u, isPoisoned s t u = true → isPoisoned (xs.foldl f s) t u = true) ∧
      ∀ x ∈ xs, isPoisoned (xs.foldl f s) t x.2 = true := by
  intro f
  induction xs generalizing s with
  | nil => exact ⟨hs, fun _ h => h, fun _ h => absurd h List.not_mem_nil⟩
  | cons x xs ih =>
    have hstep : EccMarks s0 (f s x) ∧ isPoisoned (f s x) t x.2 = true ∧
        ∀ u, isPoisoned s t u = true → isPoisoned (f s x) t u = true := by
      have hf : f s x = if isPoisoned s t x.2 then s else poisonUnit s t x.2 := rfl
      rw [hf]
      split
      · next h => exact ⟨hs, h, fun _ hu => hu⟩
      · exact ⟨eccMarks_poisonUnit hs t x.2, isPoisoned_poisonUnit .., fun u => isPoisoned_poisonUnit_of s t x.2 u⟩
    obtain ⟨hmarks, hnow, hkeep⟩ := hstep
    obtain ⟨hall, hold, hnew⟩ := ih _ hmarks
    refine ⟨hall, fun u hu => hold u (hkeep u hu), fun y hy => ?_⟩
    rcases List.mem_cons.mp hy with rfl | hy
    · exact hold _ hnow
    · exact hnew y hy

theorem eccCounted_marks (t : Tier) (us : List Nat) {s0 s : State} (hs : EccMarks s0 s) :
    let u := us.foldl (fun s u => { s with eccCounts := bumpTbl s.eccCounts (controllerOf s t u) 1 }) s
    EccMarks s0 u ∧ ∀ v, isPoisoned u t v = isPoisoned s t v := by
  induction us generalizing s with
  | nil => exact ⟨hs, fun _ => rfl⟩
  | cons x us ih =>
    have hstep : EccMarks s0 { s with eccCounts := bumpTbl s.eccCounts (controllerOf s t x) 1 } := by
      unfold EccMarks at *
      rw [hs]
    obtain ⟨hmarks, hsame⟩ := ih hstep
    exact ⟨hmarks, fun v => (hsame v).trans (by cases t <;> rfl)⟩

/-- One unit read: what ECC marks, then one record at most. -/
theorem eccRead_one (s : State) (t : Tier) (pq u : Nat) (ecc : MemEcc) : ∃ w, eccRead s t pq [u] ecc = findPoison w t pq u ∧
    EccMarks s w ∧ ((t, u) ∈ ecc.bad → isPoisoned w t u = true) := by
  obtain ⟨hmarks, -, hbad⟩ := poisonBad_spec t (ecc.bad.filter (fun x => x.1 == t && [u].contains x.2)) s s rfl
  obtain ⟨hcount, hsame⟩ := eccCounted_marks t
    ((ecc.corrected.filter (fun x => x.1 == t && [u].contains x.2)).map (fun x => x.2)) hmarks
  refine ⟨_, rfl, ?_, fun h => ?_⟩
  · generalize List.foldl _ _ _ = w at hcount
    unfold EccMarks at *
    rw [hcount]
    rfl
  · have hin := hbad (t, u) (List.mem_filter.mpr ⟨h, by simp⟩)
    rw [← hsame u] at hin
    generalize List.foldl _ _ _ = w at hin
    cases t <;> exact hin

/-- A unit that ECC finds bad is poisoned, and with room in the store stays so. -/
theorem eccRead_bad {s : State} {t : Tier} {pq u : Nat} {ecc : MemEcc} (h : (t, u) ∈ ecc.bad)
    (hroom : s.errors.store.length < 512) : isPoisoned (eccRead s t pq [u] ecc) t u = true ∧
      (eccRead s t pq [u] ecc).host.replies = s.host.replies := by
  obtain ⟨w, hw, hmarks, hbad⟩ := eccRead_one s t pq u ecc
  have hreplies : w.host.replies = s.host.replies := by rw [hmarks]
  have hstore : w.errors.store.length < 512 := by rw [hmarks]; exact hroom
  have hp := hbad h
  rw [hw, findPoison_room t pq u hstore]
  generalize findPoison w t pq u = v
  exact ⟨by cases t <;> exact hp, hreplies⟩

/-! ### Reads of the HDM window (R189, R191, R515, R516, R518) -/

/-- The mapped offset of an address, and the unit that holds it. -/
theorem unit_of_addr (m addr : Nat) : addr / 64 * 64 / segBytes = addr / segBytes ∧
    m * segBytes + addr / 64 * 64 % segBytes = 64 * ((m * segBytes + addr % segBytes) / 64) := by
  unfold segBytes
  omega

/-- What a read leaves as the host takes its line. -/
def lineTaken (s : State) (caches : Bool) (l : Nat) : State := if caches then chaseSegs (takeLine s l) else s

theorem lineTaken_frame (s : State) (caches : Bool) (l : Nat) : lineTaken s caches l =
    { s with host := { s.host with snoop := (lineTaken s caches l).host.snoop
                                   snooping := (lineTaken s caches l).host.snooping } } := by
  unfold lineTaken
  cases caches
  · rfl
  · rw [if_pos rfl]
    have hchase := (chaseSegs_spec (takeLine s l)).1
    have htake : takeLine s l = { s with host := { s.host with snoop := (takeLine s l).host.snoop } } := by
      unfold takeLine
      split <;> rfl
    generalize takeLine s l = w at *
    unfold snoopsOnly at hchase
    rw [hchase, htake]

theorem mem_lineTaken (s : State) (l : Nat) : l ∈ (lineTaken s true l).host.snoop := by
  have hchase := (chaseSegs_spec (takeLine s l)).1
  unfold snoopsOnly at hchase
  rw [lineTaken, if_pos rfl, hchase]
  unfold takeLine
  split
  · next h => simpa using h
  · exact List.mem_append_right _ List.mem_cons_self

section Window
variable {s : State} {addr : Nat} (hlow : addr < hdmBytes) (hfree : segHeld s (addr / segBytes) = false)
include hlow hfree

/-- The tier and unit that a window address maps to. -/
theorem hdmHostRead_maps (hstage : stageNow s < 5) (hen : segEn (segReg s (addr / segBytes)) = true) (caches : Bool)
    (ecc : MemEcc) {ti : Tier} {unit : Nat} (hti : ti = segTier (segReg s (addr / segBytes)))
    (hunit : unit = (segIndex (segReg s (addr / segBytes)) * segBytes + addr % segBytes) / 64)
    (hroom : caches = true → lineKey ti unit ∈ s.host.snoop ∨ s.host.snoop.length < snoopSize) :
    exec (.hdmHostRead addr caches ecc) s =
      let t := lineTaken (eccRead (wakeMemory s) ti 0 [unit] ecc) caches (lineKey ti unit)
      .next (hostReply t (.data (addr / 64 * 64) (readBytes (tierMem t ti) (64 * unit) 64) (isPoisoned t ti unit))) := by
  obtain ⟨hseg, hoff⟩ := unit_of_addr (segIndex (segReg s (addr / segBytes))) addr
  have htarget : hdmTarget s (addr / 64 * 64) = (ti, 64 * unit) := by
    unfold hdmTarget
    rw [hseg]
    dsimp only
    rw [hoff, ← hti, ← hunit]
  have hfits : ¬ (caches && !s.host.snoop.contains (lineKey ti unit) && decide (snoopSize ≤ s.host.snoop.length)) = true := by
    cases caches with
    | false => simp
    | true => rcases hroom rfl with h | h <;> simp [h]
  show execHdmHostRead addr caches ecc s = _
  unfold execHdmHostRead
  dsimp only
  rw [hseg, if_neg (Nat.not_le.mpr hlow), hfree, if_neg Bool.false_ne_true, if_neg (Nat.not_le.mpr hstage), hen,
    if_neg (by decide), htarget]
  dsimp only
  rw [Nat.mul_div_cancel_left _ (by decide), if_neg hfits]
  rfl

/-- An address of a switched-off segment, or at S5, reads zeros marked poison. -/
theorem hdmHostRead_refused (caches : Bool) (ecc : MemEcc) (h : 5 ≤ stageNow s ∨ segEn (segReg s (addr / segBytes)) = false) :
    exec (.hdmHostRead addr caches ecc) s = .next (hostReply
      (badAccess s (addr / 64 * 64) 0 (if 5 ≤ stageNow s then 5 else 2))
      (.data (addr / 64 * 64) (List.replicate 64 0) true)) := by
  obtain ⟨hseg, -⟩ := unit_of_addr 0 addr
  show execHdmHostRead addr caches ecc s = _
  unfold execHdmHostRead
  dsimp only
  rw [hseg, if_neg (Nat.not_le.mpr hlow), hfree, if_neg Bool.false_ne_true]
  by_cases hstage : 5 ≤ stageNow s
  · rw [if_pos hstage, if_pos hstage]
  · rw [if_neg hstage, if_neg hstage, h.resolve_left hstage, if_pos (by decide)]

/-- A write that a rule refuses is counted alone. -/
theorem hdmHostWrite_refused (data : List Byte) (h : 5 ≤ stageNow s ∨ segEn (segReg s (addr / segBytes)) = false) :
    exec (.hdmHostWrite addr data) s = .next (badAccess s addr 0 (if 5 ≤ stageNow s then 5 else 2)) := by
  show execHdmHostWrite addr data s = _
  unfold execHdmHostWrite
  dsimp only
  rw [if_neg (Nat.not_le.mpr hlow), hfree, if_neg Bool.false_ne_true]
  by_cases hstage : 5 ≤ stageNow s
  · rw [if_pos hstage, if_pos hstage]
  · rw [if_neg hstage, if_neg hstage, h.resolve_left hstage, if_pos (by decide)]

theorem hdmHostWrite_maps (hstage : stageNow s < 5) (hen : segEn (segReg s (addr / segBytes)) = true) (data : List Byte)
    {ti : Tier} {off : Nat} (hti : ti = segTier (segReg s (addr / segBytes)))
    (hoff : off = segIndex (segReg s (addr / segBytes)) * segBytes + addr % segBytes) :
    let bs := data.take (64 - addr % 64)
    exec (.hdmHostWrite addr data) s = if inCode s ti off bs.length then .next (badAccess s addr 0 3)
      else .next (writeMem (wakeMemory s) ti (localPokes (8 * off) (8 * bs.length) (leVal bs))) := by
  subst hti hoff
  show execHdmHostWrite addr data s = _
  unfold execHdmHostWrite
  dsimp only
  rw [if_neg (Nat.not_le.mpr hlow), hfree, if_neg Bool.false_ne_true, if_neg (Nat.not_le.mpr hstage), hen,
    if_neg (by decide)]
  rfl

end Window

/-! ### Writes of the HDM window (R191) -/

theorem leVal_lt (bs : List Byte) : leVal bs < 2 ^ (8 * bs.length) := by
  induction bs with
  | nil => exact Nat.one_pos
  | cons b bs ih =>
    have hb := b.isLt
    rw [leVal, List.length_cons, Nat.mul_succ, Nat.pow_add]
    omega

theorem leBytes_leVal (bs : List Byte) : leBytes bs.length (leVal bs) = bs := by
  induction bs with
  | nil => rfl
  | cons b bs ih =>
    have hb := b.isLt
    have hlow : (b.toNat + 256 * leVal bs) % 256 = b.toNat := by omega
    have hhigh : (b.toNat + 256 * leVal bs) / 256 = leVal bs := by omega
    rw [List.length_cons, leVal, leBytes, hhigh, ih]
    exact congrArg (· :: bs) (BitVec.eq_of_toNat_eq (by rw [BitVec.toNat_ofNat]; exact hlow))

/-- Bytes within one unit are written as they stand. -/
theorem pokeAll_localPokes (m : Tbl Byte) {off : Nat} {bs : List Byte} (h : off % 64 + bs.length ≤ 64) :
    pokeAll m (localPokes (8 * off) (8 * bs.length) (leVal bs)) = writeBytes m (placed off bs) := by
  have hcut : cutSpan 512 (8 * bs.length / 512 + 1) (8 * off, 8 * bs.length) = [(8 * off, 8 * bs.length)] := by
    rw [cutSpan, if_pos (by omega)]
  unfold localPokes
  rw [hcut]
  show poke m (8 * off, 8 * bs.length, leVal bs / 2 ^ (8 * off - 8 * off) % 2 ^ (8 * bs.length)) = _
  unfold poke
  rw [if_pos ⟨Nat.mul_mod_right .., Nat.mul_mod_right ..⟩]
  dsimp only
  rw [Nat.sub_self, Nat.pow_zero, Nat.div_one, Nat.mod_eq_of_lt (leVal_lt bs), Nat.mul_div_cancel_left _ (by decide),
    Nat.mul_div_cancel_left _ (by decide), leBytes_leVal]

/-- What a window write stores, and what it leaves. -/
theorem windowWrite_spec (s : State) (ti : Tier) {off : Nat} {bs : List Byte} (h : off % 64 + bs.length ≤ 64) :
    let t := writeMem (wakeMemory s) ti (localPokes (8 * off) (8 * bs.length) (leVal bs))
    t.cores = s.cores ∧ readBytes (tierMem t ti) off bs.length = bs ∧ (∀ y, y ≠ ti → tierMem t y = tierMem s y) ∧
      ∀ b : Nat, b < off ∨ off + bs.length ≤ b → tget 0 (tierMem t ti) b = tget 0 (tierMem s ti) b := by
  intro t
  have hti : tierMem t ti = writeBytes (tierMem s ti) (placed off bs) := by
    rw [tierMem_writeMem_same, tierMem_wakeMemory, pokeAll_localPokes _ h]
  refine ⟨(writeMem_cores ..).trans (served_wakeMemory s).cores, ?_, fun y hy => ?_, fun b hb => ?_⟩
  · rw [hti, readBytes_placed]
  · exact (tierMem_writeMem_other _ _ hy).trans (tierMem_wakeMemory ..)
  · rw [hti, tget_placed_outside _ hb]

end Sys2Proof.Machine
end

section
/-! Window accesses, the link, scrub and the obligation on the host's window (R189 to R195, R512, R513, R536, R718). -/

namespace Sys2Proof.Machine

/-! ### Reads as the host sees them -/

theorem wakeMemory_frame (s : State) : wakeMemory s = { s with power := (wakeMemory s).power } := by
  unfold wakeMemory
  split <;> rfl

/-- A sound unit is answered as it stands. -/
theorem soundRead_spec (s : State) (caches : Bool) {ti : Tier} {unit : Nat} (l a : Nat)
    (hsound : isPoisoned s ti unit = false) :
    let w := lineTaken (eccRead (wakeMemory s) ti 0 [unit] MemEcc.clean) caches l
    let t := hostReply w (.data a (readBytes (tierMem w ti) (64 * unit) 64) (isPoisoned w ti unit))
    (t.hbm = s.hbm ∧ t.lpddr = s.lpddr ∧ t.cores = s.cores) ∧ t.errors = s.errors ∧
      t.host.replies = s.host.replies ++ [.data a (readBytes (tierMem s ti) (64 * unit) 64) false] ∧
      (caches = true → l ∈ t.host.snoop) := by
  intro w t
  have hread : eccRead (wakeMemory s) ti 0 [unit] MemEcc.clean = wakeMemory s :=
    eccRead_clean _ ti 0 (fun u hu => by
      rw [List.mem_singleton.mp hu, isPoisoned_wakeMemory]
      exact hsound)
  have hw : w = { s with power := w.power, host := { s.host with snoop := w.host.snoop, snooping := w.host.snooping } } := by
    unfold w
    rw [hread, lineTaken_frame, wakeMemory_frame]
  have hmem : tierMem w ti = tierMem s ti := by rw [hw]; cases ti <;> rfl
  have hpoison : isPoisoned w ti unit = false := by
    rw [← hsound, hw]
    cases ti <;> rfl
  have hreplies : w.host.replies = s.host.replies := by rw [hw]
  refine ⟨⟨by unfold t hostReply; rw [hw], by unfold t hostReply; rw [hw], by unfold t hostReply; rw [hw]⟩,
    by unfold t hostReply; rw [hw], ?_, ?_⟩
  · unfold t hostReply
    dsimp only
    rw [hmem, hpoison, hreplies]
  · rintro rfl
    exact mem_lineTaken _ l

/-- A unit that ECC finds bad is answered as poison. -/
theorem badRead_spec {s : State} (caches : Bool) {ti : Tier} {unit : Nat} (l a : Nat) {ecc : MemEcc}
    (hbad : (ti, unit) ∈ ecc.bad) (hroom : s.errors.store.length < 512) :
    let w := lineTaken (eccRead (wakeMemory s) ti 0 [unit] ecc) caches l
    let t := hostReply w (.data a (readBytes (tierMem w ti) (64 * unit) 64) (isPoisoned w ti unit))
    t.host.replies = s.host.replies ++ [.data a (readBytes (tierMem w ti) (64 * unit) 64) true] ∧
      isPoisoned t ti unit = true := by
  intro w t
  have hwake : (wakeMemory s).errors.store.length < 512 := by rw [wakeMemory_frame]; exact hroom
  obtain ⟨hp, hreplies⟩ := eccRead_bad (pq := 0) hbad hwake
  have hw : isPoisoned w ti unit = true ∧ w.host.replies = s.host.replies := by
    unfold w
    rw [lineTaken_frame]
    generalize eccRead (wakeMemory s) ti 0 [unit] ecc = v at *
    refine ⟨by cases ti <;> exact hp, hreplies.trans ?_⟩
    rw [wakeMemory_frame]
  clear_value w
  refine ⟨?_, by cases ti <;> exact hw.1⟩
  unfold t hostReply
  dsimp only
  rw [hw.1, hw.2]

/-! ### The link (R512) -/

/-- A binding that comes with a trained link changes the host's ID alone. -/
def bound (s : State) (b : Option (BitVec 12)) : State :=
  match b with
  | some pid => { s with host := { s.host with pid := pid } }
  | none => s

theorem bound_frame (s : State) (b : Option (BitVec 12)) :
    bound s b = { s with host := { s.host with pid := b.getD s.host.pid } } := by
  cases b <;> rfl

theorem cxlLinkTrained_step (width : Nat) (f : LinkFound) (s : State) :
    exec (.cxlLinkTrained width f) s = .next (bound (trainLink s width f.rate) f.binding) := by
  rfl

/-- The host's side as a width and rate that train leave it. -/
def trainedAt (s : State) (width rate : Nat) : State :=
  { s with host := { s.host with width := width, rate64 := rate == 64, degraded := width == 4 || rate == 32 } }

theorem trainLink_trains {s : State} {width rate : Nat} (h : (width = 4 ∨ width = 8) ∧ (rate = 32 ∨ rate = 64)) :
    trainLink s width rate = if width == 4 || rate == 32 then
      record (trainedAt s width rate) { kind := 0x27, detail := linkStatus (trainedAt s width rate), engine := 10 }
      else trainedAt s width rate := by
  unfold trainLink
  rw [if_pos h]
  rfl

theorem trainLink_waits {s : State} {width rate : Nat} (h : ¬ ((width = 4 ∨ width = 8) ∧ (rate = 32 ∨ rate = 64))) :
    trainLink s width rate = { s with host := { s.host with width := 0, rate64 := false, degraded := false } } := by
  unfold trainLink
  rw [if_neg h]

/-- A record leaves the link as it is. -/
theorem linkStatus_record (s : State) (r : RecIn) : linkStatus (record s r) = linkStatus s := by
  unfold linkStatus
  rw [record_frame_eq]

theorem cxlLinkTrained_spec (width : Nat) (f : LinkFound) (s : State) : ∃ t, exec (.cxlLinkTrained width f) s = .next t ∧
    t.cores = s.cores ∧
    let trains := (width = 4 ∨ width = 8) ∧ (f.rate = 32 ∨ f.rate = 64)
    t.host.pid = f.binding.getD s.host.pid ∧
    (width = 8 → f.rate = 64 → t.host.width = 8 ∧ t.host.rate64 = true ∧ t.host.degraded = false ∧ hostOnly s t) ∧
    (trains → width = 4 ∨ f.rate = 32 → t.host.width = width ∧ t.host.rate64 = (f.rate == 64) ∧
      t.host.degraded = true ∧ recorded s t { kind := 0x27, detail := linkStatus t, engine := 10 }) ∧
    (¬ trains → t.host.width = 0 ∧ t.host.degraded = false ∧ t.errors = s.errors) := by
  refine ⟨_, cxlLinkTrained_step width f s, ?_⟩
  rw [bound_frame]
  by_cases htrain : (width = 4 ∨ width = 8) ∧ (f.rate = 32 ∨ f.rate = 64)
  · rw [trainLink_trains htrain]
    by_cases hlow : (width == 4 || f.rate == 32) = true
    · have hpart : width = 4 ∨ f.rate = 32 := by simpa using hlow
      rw [if_pos hlow]
      generalize hr : ({ kind := 0x27, detail := linkStatus (trainedAt s width f.rate), engine := 10 } : RecIn) = r
      have hrec := recorded_record (trainedAt s width f.rate) r
      have hstatus := linkStatus_record (trainedAt s width f.rate) r
      have hframe := record_frame_eq (trainedAt s width f.rate) r
      generalize record (trainedAt s width f.rate) r = u at *
      have hhost : u.host.pid = s.host.pid ∧ u.host.width = width ∧ u.host.rate64 = (f.rate == 64) ∧
          u.host.degraded = true := by
        rw [hframe]
        exact ⟨rfl, rfl, rfl, hlow⟩
      obtain ⟨hpid, hwidth, hrate, hdeg⟩ := hhost
      refine ⟨by rw [hframe]; rfl, congrArg f.binding.getD hpid, fun hw h64 => by omega, fun _ _ => ⟨hwidth, hrate, hdeg, ?_⟩,
        fun h => absurd htrain h⟩
      rw [← hr, ← hstatus] at hrec
      exact recorded_congr hrec rfl rfl rfl rfl
    · have hfull : ¬ (width = 4 ∨ f.rate = 32) := by simpa using hlow
      rw [if_neg hlow]
      refine ⟨rfl, rfl, fun hw h64 => ⟨hw, ?_, ?_, rfl⟩, fun _ h => absurd h hfull, fun h => absurd htrain h⟩
      · show (f.rate == 64) = true
        rw [h64]
        rfl
      · show (width == 4 || f.rate == 32) = false
        rw [hw, h64]
        rfl
  · rw [trainLink_waits htrain]
    exact ⟨rfl, rfl, fun hw h64 => absurd ⟨.inr hw, .inr h64⟩ htrain, fun h => absurd h htrain, fun _ => ⟨rfl, rfl, rfl⟩⟩

/-! ### Refused requests (R513, R536) -/

theorem refuseMmio_spec (s : State) (x : MmioAccess) (r : Nat) : countedBad s (refuseMmio s x r) x.addr 1 r ∧
    (refuseMmio s x r).cores = s.cores ∧ (refuseMmio s x r).quads = s.quads ∧ (refuseMmio s x r).host.replies =
      s.host.replies ++ (if x.write = true then [] else [.unsupported x.addr]) := by
  obtain ⟨-, hcores, hquads, hreplies⟩ := badAccess_frame s x.addr 1 r
  have hcount := countedBad_badAccess s x.addr 1 r
  unfold refuseMmio
  generalize badAccess s x.addr 1 r = t at *
  dsimp only
  split
  · exact ⟨hcount, hcores, hquads, hreplies.trans (List.append_nil _).symm⟩
  · exact ⟨hcount, hcores, hquads, congrArg (· ++ _) hreplies⟩

theorem mmioBadAccess_refuses {x : MmioAccess} {s : State} {r : Nat} (h : mmioRule s x = some r) (hr : r ≠ 6) :
    exec (.mmioBadAccess x) s = .next (refuseMmio s x r) := by
  show execMmioBadAccess x s = _
  unfold execMmioBadAccess
  rw [h]
  dsimp only
  rw [if_neg hr]

theorem mmioRule_misshapen {x : MmioAccess} (s : State) (h : x.width ≠ 32 ∧ x.width ≠ 64 ∨ x.addr % (x.width / 8) ≠ 0) :
    mmioRule s x = some 4 := by
  have hbad : misshapen x = true := by
    unfold misshapen
    rcases h with ⟨h32, h64⟩ | h
    · simp [h32, h64]
    · simp [h]
  unfold mmioRule
  rw [if_pos hbad]

theorem cxlForeignRequest_refuses {pid : BitVec 12} {s : State} (mem : Bool) (addr : Nat) (h : pid ≠ s.host.pid) :
    ∃ t off space, exec (.cxlForeignRequest pid mem addr) s = .next t ∧ countedBad s t off space 1 ∧
      (mem = true → off = addr ∧ space = 0) ∧ t.host.replies = s.host.replies ++ [.unsupported addr] ∧
      t.cores = s.cores := by
  have hexec : exec (.cxlForeignRequest pid mem addr) s = .next (hostReply (badAccess s
      (if mem || (!mem && decide (addr < 0x2000000)) then addr else 0)
      (if mem then 0 else if !mem && decide (addr < 0x2000000) then 1 else 2) 1) (.unsupported addr)) := by
    show execCxlForeignRequest pid mem addr s = _
    unfold execCxlForeignRequest
    rw [if_neg h]
  generalize hoff : (if mem || (!mem && decide (addr < 0x2000000)) then addr else 0) = off at hexec
  generalize hspace : (if mem then 0 else if !mem && decide (addr < 0x2000000) then 1 else 2) = space at hexec
  obtain ⟨-, hcores, -, hreplies⟩ := badAccess_frame s off space 1
  have hcount := countedBad_badAccess s off space 1
  generalize badAccess s off space 1 = t at *
  refine ⟨_, off, space, hexec, hcount, ?_, congrArg (· ++ _) hreplies, hcores⟩
  rintro rfl
  exact ⟨hoff.symm, hspace.symm⟩

/-! ### Patrol scrub (R193 to R195) -/

/-- Whether scrub reads a unit of a tier. -/
def scrubRuns (s : State) (ti : Tier) (unit : Nat) : Prop :=
  bit s.scrubCtrl 0 = true ∧ stageNow s = 0 ∧ (getQuad s 0).idle ≠ 4 ∧ 64 * unit < tierBytes s (tierCode ti)

theorem scrub_held {s : State} {ti : Tier} {unit : Nat} (f : ScrubFound) (h : ¬ scrubRuns s ti unit) :
    exec (.patrolScrubRead ti unit f) s = .next s := by
  have hstop : (!bit s.scrubCtrl 0 || scrubHeld s || decide (tierBytes s (tierCode ti) ≤ 64 * unit)) = true := by
    by_contra hgo
    refine h ?_
    simp [scrubHeld] at hgo
    obtain ⟨⟨hon, hstage, hidle⟩, hin⟩ := hgo
    exact ⟨hon, hstage, hidle, hin⟩
  show execPatrolScrubRead ti unit f s = _
  unfold execPatrolScrubRead
  rw [if_pos hstop]

theorem scrub_goes {s : State} {ti : Tier} {unit : Nat} (h : scrubRuns s ti unit) :
    ¬ (!bit s.scrubCtrl 0 || scrubHeld s || decide (tierBytes s (tierCode ti) ≤ 64 * unit)) = true := by
  obtain ⟨hon, hstage, hidle, hin⟩ := h
  simp [scrubHeld, hon, hstage, hidle, hin]

theorem scrub_clean {s : State} {ti : Tier} {unit : Nat} (h : scrubRuns s ti unit) :
    exec (.patrolScrubRead ti unit .clean) s = .next (findPoison s ti 0 unit) := by
  show execPatrolScrubRead ti unit .clean s = _
  unfold execPatrolScrubRead
  rw [if_neg (scrub_goes h)]

theorem scrub_corrected {s : State} {ti : Tier} {unit : Nat} (h : scrubRuns s ti unit) (hfree : heldLines s ti [unit] = []) :
    exec (.patrolScrubRead ti unit .corrected) s =
      .next { s with eccCounts := bumpTbl s.eccCounts (controllerOf s ti unit) 1 } := by
  show execPatrolScrubRead ti unit .corrected s = _
  unfold execPatrolScrubRead
  rw [if_neg (scrub_goes h)]
  dsimp only
  rw [hfree, List.isEmpty_nil, if_pos rfl]

theorem scrub_uncorrectable {s : State} {ti : Tier} {unit : Nat} (h : scrubRuns s ti unit) :
    exec (.patrolScrubRead ti unit .uncorrectable) s = .next (eccRead s ti 0 [unit] ⟨[(ti, unit)], []⟩) := by
  show execPatrolScrubRead ti unit .uncorrectable s = _
  unfold execPatrolScrubRead
  rw [if_neg (scrub_goes h)]

/-- Noting poison leaves the cores and LPDDR5X, and with room in the store HBM3E. -/
theorem findPoison_leaves (s : State) (t : Tier) (pq u : Nat) : (findPoison s t pq u).lpddr = s.lpddr ∧
    (findPoison s t pq u).cores = s.cores ∧ (s.errors.store.length < 512 → (findPoison s t pq u).hbm = s.hbm) := by
  refine ⟨?_, ?_, fun h => by rw [findPoison_room t pq u h]⟩
  · unfold findPoison
    split
    · rw [record_frame_eq]
    · rfl
  · unfold findPoison
    split
    · rw [record_frame_eq]
    · rfl

theorem poisonUnit_fresh {s : State} {t : Tier} {u : Nat} (h : isPoisoned s t u = false) :
    isPoisoned (poisonUnit s t u) t u = true ∧ (t, u) ∉ (poisonUnit s t u).poisonFound := by
  refine ⟨isPoisoned_poisonUnit .., ?_⟩
  unfold poisonUnit
  dsimp only
  rw [if_neg (by cases t <;> exact Bool.eq_false_iff.mp h)]
  cases t <;> simp [setPoison]

/-- An uncorrectable unit is poisoned, and recorded once. -/
theorem uncorrectable_spec {s : State} {t : Tier} {u : Nat} (h : isPoisoned s t u = false) :
    let v := eccRead s t 0 [u] ⟨[(t, u)], []⟩
    ((s.errors.store.length < 512 → isPoisoned v t u = true) ∧ v.errors.rseq = s.errors.rseq + 1) ∧ v.lpddr = s.lpddr ∧
      v.cores = s.cores ∧ (s.errors.store.length < 512 → v.hbm = s.hbm) := by
  intro v
  have hv : v = findPoison (snoopLines (poisonUnit s t u) []) t 0 u := by
    unfold v eccRead
    have hkept : [(t, u)].filter (fun x => x.1 == t && [u].contains x.2) = [(t, u)] :=
      List.filter_eq_self.mpr (fun x hx => by simp [List.mem_singleton.mp hx])
    have hstep : [(t, u)].foldl (fun s x => if isPoisoned s t x.2 then s else poisonUnit s t x.2) s = poisonUnit s t u :=
      if_neg (Bool.eq_false_iff.mp h)
    dsimp only
    rw [hkept, hstep]
    rfl
  obtain ⟨hp, hfresh⟩ := poisonUnit_fresh h
  have hmarks := eccMarks_poisonUnit (s := s) (t := s) rfl t u
  generalize hw : snoopLines (poisonUnit s t u) [] = w at hv
  have hwm : EccMarks s w := by
    rw [← hw]
    unfold EccMarks at *
    rw [hmarks]
    rfl
  have hpw : isPoisoned w t u = true := by rw [← hw]; cases t <;> exact hp
  have hfw : (t, u) ∉ w.poisonFound := by rw [← hw]; exact hfresh
  have herr : w.errors = s.errors := by rw [hwm]
  obtain ⟨hlp, hcores, hhbm⟩ := findPoison_leaves w t 0 u
  rw [hv]
  refine ⟨⟨fun hroom => ?_, ?_⟩, hlp.trans (by rw [hwm]), hcores.trans (by rw [hwm]), fun hroom => ?_⟩
  · rw [findPoison_room t 0 u (by rw [herr]; exact hroom)]
    generalize findPoison w t 0 u = x
    cases t <;> exact hpw
  · unfold findPoison
    rw [if_pos (by simp [hpw, hfw]), ← herr]
    exact record_rseq _ _
  · exact (hhbm (by rw [herr]; exact hroom)).trans (by rw [hwm])

end Sys2Proof.Machine

namespace Sys2Proof

open Machine

/-- Settles O55: a window access maps through its segment or is refused and counted, and scrub poisons one unit. -/
theorem hostWindowLinkScrub : Obligations.HostWindowLinkScrub := by
  unfold Obligations.HostWindowLinkScrub
  refine ⟨fun addr s => ⟨?_, ?_, ?_, ?_⟩, fun x s r hr h6 => ?_, fun x s => mmioRule_misshapen s, fun pid mem addr s =>
    ⟨fun h => ?_, cxlForeignRequest_refuses mem addr⟩, cxlLinkTrained_spec, fun ti unit s => ⟨fun f => scrub_held f, ?_⟩⟩
  · rintro caches ⟨⟨hlow, hfree⟩, hstage, hen⟩ hsound hroom
    refine ⟨?_, fun ecc hbad hstore => ?_⟩
    · exact ⟨_, hdmHostRead_maps hlow hfree hstage hen caches _ rfl rfl hroom, soundRead_spec s caches _ _ hsound⟩
    · exact ⟨_, _, hdmHostRead_maps hlow hfree hstage hen caches ecc rfl rfl hroom, badRead_spec caches _ _ hbad hstore⟩
  · rintro caches ecc ⟨hlow, hfree⟩ h
    obtain ⟨-, -, -, hreplies⟩ := badAccess_frame s (addr / 64 * 64) 0 (if 5 ≤ stageNow s then 5 else 2)
    have hcount := countedBad_badAccess s (addr / 64 * 64) 0 (if 5 ≤ stageNow s then 5 else 2)
    refine ⟨_, hdmHostRead_refused hlow hfree caches ecc h, ?_⟩
    generalize badAccess s (addr / 64 * 64) 0 (if 5 ≤ stageNow s then 5 else 2) = t at *
    exact ⟨hcount, congrArg (· ++ _) hreplies⟩
  · intro data
    refine ⟨?_, ?_, ?_, fun h => if_pos h⟩
    · rintro ⟨⟨hlow, hfree⟩, hstage, hen⟩ hcode
      refine ⟨_, (hdmHostWrite_maps hlow hfree hstage hen data rfl rfl).trans (if_neg (Bool.eq_false_iff.mp hcode)),
        windowWrite_spec s _ ?_⟩
      rw [List.length_take]
      unfold segBytes
      omega
    · rintro ⟨⟨hlow, hfree⟩, hstage, hen⟩ hcode
      obtain ⟨hlp, hcores, -, -⟩ := badAccess_frame s addr 0 3
      exact ⟨_, (hdmHostWrite_maps hlow hfree hstage hen data rfl rfl).trans (if_pos hcode), countedBad_badAccess ..,
        hlp, hcores⟩
    · rintro ⟨hlow, hfree⟩ h
      obtain ⟨hlp, hcores, -, -⟩ := badAccess_frame s addr 0 (if 5 ≤ stageNow s then 5 else 2)
      exact ⟨_, hdmHostWrite_refused hlow hfree data h, countedBad_badAccess .., hlp, hcores⟩
  · exact fun caches ecc h => if_pos h
  · exact ⟨_, mmioBadAccess_refuses hr h6, refuseMmio_spec s x r⟩
  · exact if_pos h
  · intro hruns
    refine ⟨fun hsound => ?_, fun hfree => ?_, fun hsound => ⟨_, scrub_uncorrectable hruns, uncorrectable_spec hsound⟩⟩
    · have hsame : findPoison s ti 0 unit = s := findPoison_sound hsound 0
      exact ⟨s, (scrub_clean hruns).trans (congrArg _ hsame), rfl, rfl, rfl, fun _ => rfl⟩
    · exact ⟨_, scrub_corrected hruns hfree, ⟨tget_tset_same .., rfl⟩, rfl, rfl, fun _ => rfl⟩

end Sys2Proof
end

section
/-! Boot, recovery, updates and the management endpoints (R540, R541, R657 to R669), and their obligation. -/

namespace Sys2Proof.Machine

/-! ### Images (R658, R660) -/

/-- What an image's checks read of the state. -/
theorem verifyImage_congr {s t : State} (h : t.fuses = s.fuses) (rd : Bool) (img : List Byte) :
    verifyImage t rd img = verifyImage s rd img := by
  unfold verifyImage
  rw [h]

/-- An image that passes has passed each check. -/
theorem verifyImage_passes {s : State} {rd : Bool} {img : List Byte} (h : verifyImage s rd img = 0) : rd = true ∧
    Config.sha384 (imgBytes img (64 + fwBodyLen img) 97) = s.fuses.eccKeyHash ∧
    Config.sha256 (imgBytes img (64 + fwBodyLen img + 256) 56) = s.fuses.lmsKeyHash ∧
    Config.ecdsaVerify (imgBytes img (64 + fwBodyLen img) 97) (imgBytes img (64 + fwBodyLen img + 128) 96)
      (imgBytes img 0 (64 + fwBodyLen img)) = true ∧
    Config.lmsVerify (imgBytes img (64 + fwBodyLen img + 256) 56) (imgBytes img (64 + fwBodyLen img + 320) 1772)
      (imgBytes img 0 (64 + fwBodyLen img)) = true ∧ s.fuses.otpSvn ≤ (imgByte img 10).toNat := by
  unfold verifyImage at h
  dsimp only at h
  split at h
  · cases h
  next hrd =>
  split at h
  · cases h
  split at h
  · cases h
  next hecc =>
  split at h
  · cases h
  next hlms =>
  split at h
  · cases h
  next hsig =>
  split at h
  · cases h
  next hsig' =>
  split at h
  · cases h
  next hsvn =>
  exact ⟨by simpa using hrd, not_not.mp hecc, not_not.mp hlms, by simpa [fwBlock, fwCovered] using hsig,
    by simpa [fwBlock, fwCovered] using hsig', Nat.le_of_not_lt hsvn⟩

/-! ### Boot (R659 to R661, R696) -/

/-- A change of the boot state and of flash. -/
def romOnly (s t : State) : Prop := t = { s with boot := t.boot, flash := t.flash }

/-- The image that step 2 leaves. -/
def stagedImage (s : State) (readable : Bool) : List Byte :=
  if (s.flash.marker && verifyImage s readable s.flash.staging == 0) = true then s.flash.staging else s.flash.image

theorem bootStaged_spec (s : State) (readable : Bool) : romOnly s (bootStaged s readable) ∧
    (bootStaged s readable).flash.image = stagedImage s readable ∧ (bootStaged s readable).flash.marker = false ∧
    (bootStaged s readable).flash.withdrawn = s.flash.withdrawn ∧
    (bootStaged s readable).boot.service = s.boot.service := by
  unfold bootStaged stagedImage
  cases hm : s.flash.marker
  · exact ⟨rfl, rfl, hm, rfl, rfl⟩
  · rw [if_pos rfl]
    by_cases hr : verifyImage s readable s.flash.staging = 0
    · rw [if_pos hr, if_pos (by simp [hr])]
      exact ⟨rfl, rfl, rfl, rfl, rfl⟩
    · rw [if_neg hr, if_neg (by simp [hr])]
      exact ⟨rfl, rfl, rfl, rfl, rfl⟩

/-- The ROM halts without OTP or a reference clock. -/
theorem boot_halts {found : BootFound} {s : State} (hrails : s.power.rails = true) (hphase : s.boot.phase = .start)
    (h : found.otpOk = false ∨ s.power.tclk = false) : exec (.boot found) s =
      .next (mgmt { s with boot := { s.boot with phase := .haltedOtp } } (.romHalt (!found.otpOk))) := by
  have hstop : (!(s.power.tclk && found.otpOk)) = true := by
    rcases h with h | h <;> simp [h]
  show execBoot found s = _
  unfold execBoot bootRom
  rw [if_neg (by simp [hrails]), if_pos hphase, if_pos hstop]
  rfl

/-- The ROM's outcome once it has read OTP. -/
theorem boot_goes {found : BootFound} {s : State} (hrails : s.power.rails = true) (hphase : s.boot.phase = .start)
    (hotp : found.otpOk = true) (hclk : s.power.tclk = true) : exec (.boot found) s = .next
      (if verifyImage s found.imageReadable (stagedImage s found.stagedReadable) = 0 then
        bootFirmware found (bootDerive (bootStaged s found.stagedReadable))
      else { bootFailure (bootStaged s found.stagedReadable)
          (verifyImage s found.imageReadable (stagedImage s found.stagedReadable)) 3 with
        boot := { (bootFailure (bootStaged s found.stagedReadable)
          (verifyImage s found.imageReadable (stagedImage s found.stagedReadable)) 3).boot with phase := .recovery } }) := by
  obtain ⟨honly, himage, -⟩ := bootStaged_spec s found.stagedReadable
  have hverify : verifyImage (bootStaged s found.stagedReadable) found.imageReadable
      (bootStaged s found.stagedReadable).flash.image =
      verifyImage s found.imageReadable (stagedImage s found.stagedReadable) := by
    rw [himage]
    exact verifyImage_congr (by rw [honly]) ..
  show execBoot found s = _
  unfold execBoot bootRom
  rw [if_neg (by simp [hrails]), if_pos hphase, if_neg (by simp [hotp, hclk])]
  dsimp only
  rw [hverify]
  split
  · rw [if_pos (by rfl)]
  · rw [if_neg (by simp)]

/-- What the derivation of step 4 leaves. -/
theorem bootDerive_spec (s : State) : romOnly s (bootDerive s) ∧ (bootDerive s).flash = s.flash ∧
    (bootDerive s).boot.phase = .ready ∧ (bootDerive s).boot.service = s.boot.service ∧
    (bootDerive s).boot.imageSvn = fwSvn s.flash.image ∧
    (bootDerive s).boot.imageDigest = Config.sha384 (fwCovered s.flash.image) ∧
    (bootDerive s).boot.aliasCert = Config.aliasCert Config.deviceSecret (Config.sha384 (fwCovered s.flash.image)) ∧
    (bootDerive s).boot.secretLocked = true := by
  exact ⟨rfl, rfl, rfl, rfl, rfl, rfl, rfl, rfl⟩

/-- What the firmware's steps leave of the identity that step 4 derived. -/
structure FirmwareRan (s t : State) : Prop where
  fuses : t.fuses = s.fuses
  image : t.flash.image = s.flash.image
  marker : t.flash.marker = s.flash.marker
  withdrawn : t.flash.withdrawn = s.flash.withdrawn
  identity : t.boot.imageSvn = s.boot.imageSvn ∧ t.boot.imageDigest = s.boot.imageDigest ∧
    t.boot.aliasCert = s.boot.aliasCert ∧ t.boot.secretLocked = s.boot.secretLocked

theorem firmwareRan_record {s t : State} (h : FirmwareRan s t) (r : RecIn) : FirmwareRan s (record t r) := by
  rw [record_frame_eq]
  exact ⟨h.fuses, h.image, h.marker, h.withdrawn, h.identity⟩

theorem firmwareRan_phase {s t : State} (h : FirmwareRan s t) (p : BootPhase) (v : Nat) :
    FirmwareRan s { t with boot := { t.boot with phase := p, service := v } } :=
  ⟨h.fuses, h.image, h.marker, h.withdrawn, h.identity⟩

theorem foldl_record_frame {α : Type} (f : α → RecIn) (xs : List α) (s : State) :
    (xs.foldl (fun s x => record s (f x)) s).flash = s.flash ∧ (xs.foldl (fun s x => record s (f x)) s).boot = s.boot ∧
      (xs.foldl (fun s x => record s (f x)) s).fuses = s.fuses := by
  induction xs generalizing s with
  | nil => exact ⟨rfl, rfl, rfl⟩
  | cons x xs ih =>
    obtain ⟨hflash, hboot, hfuses⟩ := ih (record s (f x))
    rw [List.foldl_cons, hflash, hboot, hfuses, record_frame_eq]
    exact ⟨rfl, rfl, rfl⟩

/-- The persistent records leave flash for the error ring. -/
theorem copyPersistent_spec (s : State) :
    (copyPersistent s).flash = { s.flash with supply := [], bootFailures := [] } ∧
      (copyPersistent s).boot = s.boot ∧ (copyPersistent s).fuses = s.fuses := by
  unfold copyPersistent
  extract_lets sup fail flash u v w
  have hv : v.flash = u.flash ∧ v.boot = u.boot ∧ v.fuses = u.fuses :=
    foldl_record_frame (fun t => { kind := 0x45, detail := t }) sup u
  have hw : w.flash = v.flash ∧ w.boot = v.boot ∧ w.fuses = v.fuses :=
    foldl_record_frame (fun x : Nat × Nat => { kind := 0x50, detail := x.1 + x.2 * 2 ^ 4 }) fail v
  obtain ⟨hflash, hboot, hfuses⟩ := hv
  rw [hflash, hboot, hfuses] at hw
  clear_value w v
  obtain ⟨hflash, hboot, hfuses⟩ := hw
  split
  · rw [record_frame_eq]
    exact ⟨hflash, hboot, hfuses⟩
  · exact ⟨hflash, hboot, hfuses⟩

theorem trainLink_leaves (s : State) (width rate : Nat) : (trainLink s width rate).flash = s.flash ∧
    (trainLink s width rate).boot = s.boot ∧ (trainLink s width rate).fuses = s.fuses := by
  unfold trainLink
  split
  · dsimp only
    split
    · rw [record_frame_eq]
      exact ⟨rfl, rfl, rfl⟩
    · exact ⟨rfl, rfl, rfl⟩
  · exact ⟨rfl, rfl, rfl⟩

theorem trainLink_width {s : State} {width rate : Nat} (hw : width = 4 ∨ width = 8) (hr : rate = 32 ∨ rate = 64) :
    (trainLink s width rate).host.width = width := by
  rw [trainLink_trains ⟨hw, hr⟩]
  split
  · rw [record_frame_eq]
    rfl
  · rfl

/-- Memory and link trained, flash emptied of its records. -/
def servicedAt (found : BootFound) (s : State) : State := trainLink (copyPersistent s) found.linkWidth found.linkRate

theorem servicedAt_spec (found : BootFound) (s : State) :
    (servicedAt found s).flash = { s.flash with supply := [], bootFailures := [] } ∧
      (servicedAt found s).boot = s.boot ∧ (servicedAt found s).fuses = s.fuses := by
  obtain ⟨hflash, hboot, hfuses⟩ := trainLink_leaves (copyPersistent s) found.linkWidth found.linkRate
  obtain ⟨hflash', hboot', hfuses'⟩ := copyPersistent_spec s
  exact ⟨hflash.trans hflash', hboot.trans hboot', hfuses.trans hfuses'⟩

theorem firmwareRan_serviced (found : BootFound) (s : State) : FirmwareRan s (servicedAt found s) := by
  obtain ⟨hflash, hboot, hfuses⟩ := servicedAt_spec found s
  refine ⟨hfuses, by rw [hflash], by rw [hflash], by rw [hflash], ?_⟩
  rw [hboot]
  exact ⟨rfl, rfl, rfl, rfl⟩

theorem firmwareRan_bootFirmware (found : BootFound) (s : State) : FirmwareRan s (bootFirmware found s) := by
  have hself : FirmwareRan s s := ⟨rfl, rfl, rfl, rfl, rfl, rfl, rfl, rfl⟩
  have hran := firmwareRan_serviced found s
  unfold bootFirmware
  split
  · exact hself
  split
  · exact firmwareRan_record (firmwareRan_phase hself _ _) _
  dsimp only
  rw [← servicedAt]
  generalize servicedAt found s = t at *
  split
  · exact firmwareRan_record (firmwareRan_phase hran _ _) _
  · exact firmwareRan_phase hran _ _

theorem bootFirmware_serves {found : BootFound} {s : State} (hstage : stageNow s ≤ 3) (hmem : found.memoryTrains = true)
    (hw : found.linkWidth = 4 ∨ found.linkWidth = 8) (hr : found.linkRate = 32 ∨ found.linkRate = 64) :
    let t := bootFirmware found s
    t.boot.phase = .done ∧ t.boot.service = (if s.flash.withdrawn = true then 2 else 1) ∧
      t.host.width = found.linkWidth ∧ t.flash.bootFailures = [] ∧ t.flash.supply = [] := by
  have hwidth : (servicedAt found s).host.width = found.linkWidth := trainLink_width hw hr
  obtain ⟨hflash, -, -⟩ := servicedAt_spec found s
  have hstep : bootFirmware found s = { servicedAt found s with boot := { (servicedAt found s).boot with
      phase := .done, service := if (servicedAt found s).flash.withdrawn then 2 else 1 } } := by
    unfold bootFirmware
    rw [if_neg (Nat.not_lt.mpr hstage), if_neg (by simp [hmem])]
    dsimp only
    rw [← servicedAt, if_neg (by omega)]
  rw [hstep]
  generalize servicedAt found s = t at *
  exact ⟨rfl, by rw [hflash], hwidth, by rw [hflash], by rw [hflash]⟩

theorem bootFirmware_untrained {found : BootFound} {s : State} (hstage : stageNow s ≤ 3)
    (hmem : found.memoryTrains = false) : (bootFirmware found s).boot.phase = .haltedTraining := by
  unfold bootFirmware bootHalt
  rw [if_neg (Nat.not_lt.mpr hstage), if_pos (by simp [hmem]), record_frame_eq]

end Sys2Proof.Machine
end

section
/-! Recovery, updates, the endpoints' answers, and the obligation on firmware and management (R540, R541, R657 to R669). -/

namespace Sys2Proof.Machine

/-- A record generated after other changes counts as one of the state before them. -/
theorem recorded_after {s u : State} (r : RecIn) (he : u.errors = s.errors) (hh : u.hbm = s.hbm) :
    recorded s (record u r) r :=
  recorded_congr (recorded_record u r) he.symm hh.symm rfl rfl

/-! ### Boot from power-on -/

theorem boot_reads {found : BootFound} {s : State} (hrails : s.power.rails = true) (hphase : s.boot.phase = .start)
    (hotp : found.otpOk = true) (hclk : s.power.tclk = true) {image : List Byte} {r : Nat}
    (himage : image = stagedImage s found.stagedReadable) (hr : r = verifyImage s found.imageReadable image) :
    ∃ t, exec (.boot found) s = .next t ∧ t.flash.image = image ∧ t.flash.marker = false ∧ t.fuses = s.fuses ∧
      t.flash.withdrawn = s.flash.withdrawn ∧
      (r ≠ 0 → t.boot.phase = .recovery ∧ t.boot.reason = r ∧ (r, 3) ∈ t.flash.bootFailures ∧
        t.boot.service = s.boot.service) ∧
      (r = 0 → t.boot.imageSvn = fwSvn image ∧ t.boot.imageDigest = Config.sha384 (fwCovered image) ∧
        t.boot.aliasCert = Config.aliasCert Config.deviceSecret t.boot.imageDigest ∧ t.boot.secretLocked = true ∧
        (3 < stageNow s → t.boot.phase = .ready ∧ t.boot.service = s.boot.service) ∧
        (stageNow s ≤ 3 → found.memoryTrains = false → t.boot.phase = .haltedTraining) ∧
        (stageNow s ≤ 3 → found.memoryTrains = true → found.linkWidth = 4 ∨ found.linkWidth = 8 →
          found.linkRate = 32 ∨ found.linkRate = 64 → t.boot.phase = .done ∧
          t.boot.service = (if s.flash.withdrawn = true then 2 else 1) ∧
          t.host.width = found.linkWidth ∧ t.flash.bootFailures = [] ∧ t.flash.supply = [])) := by
  subst himage hr
  refine ⟨_, boot_goes hrails hphase hotp hclk, ?_⟩
  obtain ⟨honly, himage, hmarker, hwithdrawn, hservice⟩ := bootStaged_spec s found.stagedReadable
  generalize bootStaged s found.stagedReadable = u at *
  have hfuses : u.fuses = s.fuses := by rw [honly]
  have hstage : stageNow u = stageNow s := by rw [honly]; rfl
  split
  · next h0 =>
    obtain ⟨hrom, hflash, hready, hserved, hsvn, hdigest, hcert, hlocked⟩ := bootDerive_spec u
    rw [himage] at hsvn hdigest hcert
    generalize bootDerive u = v at *
    have hstage' : stageNow v = stageNow s := by rw [← hstage, hrom]; rfl
    obtain ⟨hfuses', himage', hmarker', hwithdrawn', hid, hid2, hid3, hid4⟩ := firmwareRan_bootFirmware found v
    refine ⟨himage'.trans (by rw [hflash, himage]), hmarker'.trans (by rw [hflash, hmarker]),
      hfuses'.trans (by rw [hrom, hfuses]), hwithdrawn'.trans (by rw [hflash, hwithdrawn]), fun h => absurd h0 h,
      fun _ => ⟨hid.trans hsvn, hid2.trans hdigest, ?_, hid4.trans hlocked, fun h => ?_, fun h hm => ?_,
        fun h hm hw hl => ?_⟩⟩
    · rw [hid3, hid2, hcert, hdigest]
    · have hheld : bootFirmware found v = v := if_pos (by rw [hstage']; exact h)
      rw [hheld]
      exact ⟨hready, hserved.trans hservice⟩
    · exact bootFirmware_untrained (by rw [hstage']; exact h) hm
    · obtain ⟨hdone, hserve, hwidth, hfail, hsup⟩ := bootFirmware_serves (s := v) (by rw [hstage']; exact h) hm hw hl
      exact ⟨hdone, by rw [hserve, hflash, hwithdrawn], hwidth, hfail, hsup⟩
  · next h0 =>
    exact ⟨himage, hmarker, hfuses, hwithdrawn,
      fun _ => ⟨rfl, rfl, List.mem_append_right _ List.mem_cons_self, hservice⟩, fun h => absurd h h0⟩

/-! ### Recovery (R662, R663) -/

/-- The reason code of a recovery component. -/
def recoveryReason (s : State) (img : List Byte) : Nat := if 2 ^ 24 < img.length then 2 else verifyImage s true img

/-- The transfers that the ROM asks for. -/
def recoveryAsks (img : List Byte) : List MgmtReply :=
  if 2 ^ 24 < img.length then [] else (List.range (ceilDiv img.length 4096)).map (fun k =>
    MgmtReply.requestData .i3c (4096 * k) (min 4096 (img.length - 4096 * k)))

/-- The state in which a component has been transferred and judged. -/
def recoveryJudged (s : State) (img : List Byte) : State :=
  { s with boot := { s.boot with
      replies := s.boot.replies ++ recoveryAsks img ++ [.verifyComplete .i3c (recoveryReason s img)] } }

/-- The image that was read back, in place and not yet judged. -/
def recoveryWritten (s : State) (img back : List Byte) : State :=
  { recoveryJudged s img with flash := { s.flash with image := back } }

/-- The image that was read back, running. -/
def recoveredAt (s : State) (img back : List Byte) : State :=
  { bootDerive (mgmt (recoveryWritten s img back) (.applyComplete .i3c true)) with
    boot := { (bootDerive (mgmt (recoveryWritten s img back) (.applyComplete .i3c true))).boot with recovered := true } }

theorem recoveryImageReceive_runs (img back : List Byte) {s : State} (h : s.boot.phase = .recovery) :
    exec (.recoveryImageReceive img back) s = if recoveryReason s img ≠ 0 then .next (recoveryJudged s img)
      else if verifyImage s true back ≠ 0 then .next (mgmt (recoveryWritten s img back) (.applyComplete .i3c false))
      else .next (record (recoveredAt s img back) { kind := 0x51, detail := fwSvn back }) := by
  have hbig : (if decide (2 ^ 24 < img.length) = true then 2 else verifyImage s true img) = recoveryReason s img := by
    unfold recoveryReason
    by_cases hb : 2 ^ 24 < img.length <;> simp
  have hasked : mgmt (if decide (2 ^ 24 < img.length) = true then s else requestAll s img.length)
      (.verifyComplete .i3c (recoveryReason s img)) = recoveryJudged s img := by
    unfold recoveryJudged recoveryAsks
    by_cases hb : 2 ^ 24 < img.length
    · rw [if_pos (decide_eq_true hb), if_pos hb, List.append_nil]
      rfl
    · rw [if_neg (by simpa using hb), if_neg hb]
      rfl
  show execRecoveryImageReceive img back s = _
  unfold execRecoveryImageReceive
  rw [if_neg (not_not.mpr h)]
  dsimp only
  rw [hbig, hasked]
  split
  · rfl
  · have hverify : verifyImage { recoveryJudged s img with flash := { (recoveryJudged s img).flash with image := back } }
        true back = verifyImage s true back := verifyImage_congr rfl ..
    rw [hverify]
    split <;> rfl

/-! ### Updates (R541, R664, R665) -/

theorem pldmComponentTransfer_runs {ep : Endpoint} (img : List Byte) {s : State} (h : s.boot.updating = some ep) :
    let r := if 2 ^ 24 - 64 < img.length then 2 else verifyImage s true img
    ∃ t, exec (.pldmComponentTransfer ep img) s = .next t ∧ t.flash = { s.flash with staging := img, marker := false } ∧
      t.fuses = s.fuses ∧ t.boot.replies = s.boot.replies ++ [.verifyComplete ep r] ∧
      (r = 0 → t.boot.updating = some ep ∧ t.boot.updateVerified = true ∧
        recorded s t { kind := 0x52, detail := fwSvn img }) ∧
      (r ≠ 0 → t.boot.updating = none ∧ t.boot.updateVerified = false ∧ recorded s t { kind := 0x53, detail := r }) := by
  intro r
  have hexec : exec (.pldmComponentTransfer ep img) s =
      if r = 0 then .next (record { s with
          flash := { s.flash with staging := img, marker := false }
          boot := { s.boot with replies := s.boot.replies ++ [.verifyComplete ep r], updateVerified := true } }
        { kind := 0x52, detail := fwSvn img })
      else .next (record { s with
          flash := { s.flash with staging := img, marker := false }
          boot := { s.boot with replies := s.boot.replies ++ [.verifyComplete ep r], updating := none
                                updateVerified := false } }
        { kind := 0x53, detail := r }) := by
    show execPldmComponentTransfer ep img s = _
    unfold execPldmComponentTransfer
    rw [if_neg (not_not.mpr h)]
    rfl
  clear_value r
  by_cases hr : r = 0
  · rw [if_pos hr] at hexec
    refine ⟨_, hexec, ?_, ?_, ?_, fun _ => ⟨?_, ?_, recorded_after _ rfl rfl⟩,
      fun hne => absurd hr hne⟩
    all_goals rw [record_frame_eq]
    exact h
  · rw [if_neg hr] at hexec
    refine ⟨_, hexec, ?_, ?_, ?_, fun h0 => absurd h0 hr,
      fun _ => ⟨?_, ?_, recorded_after _ rfl rfl⟩⟩
    all_goals rw [record_frame_eq]

theorem pldmActivate_runs {ep : Endpoint} {s : State} (h : s.boot.updating = some ep) (hv : s.boot.updateVerified = true) :
    exec (.pldmActivateFirmware ep) s = .next (mgmt { s with
      flash := { s.flash with marker := true }
      boot := { s.boot with updating := none, updateVerified := false } } (.activated ep)) :=
  if_pos ⟨h, hv⟩

theorem pldm_idle {ep : Endpoint} {s : State} (h : s.boot.updating ≠ some ep) :
    (∀ img, exec (.pldmComponentTransfer ep img) s = .next s) ∧ exec (.pldmActivateFirmware ep) s = .next s :=
  ⟨fun _ => if_pos h, if_neg (fun k => h k.1)⟩

theorem svnCommit_raises {s : State} (hdone : s.boot.phase = .done) (hlow : s.fuses.otpSvn < s.boot.imageSvn)
    (hmax : s.boot.imageSvn ≤ 64) : ∃ t, exec .svnCommit s = .next t ∧
      t.fuses = { s.fuses with otpSvn := s.boot.imageSvn } ∧ t.flash = s.flash ∧
      recorded s t { kind := 0x55, detail := s.fuses.otpSvn + s.boot.imageSvn * 2 ^ 8 } := by
  have hnew : max s.fuses.otpSvn (min 64 s.boot.imageSvn) = s.boot.imageSvn := by omega
  have hexec : exec .svnCommit s = .next (record { s with fuses := { s.fuses with otpSvn := s.boot.imageSvn } }
      { kind := 0x55, detail := s.fuses.otpSvn + s.boot.imageSvn * 2 ^ 8 }) := by
    show Host.Outcome.next (commitSvn s) = _
    unfold commitSvn
    rw [if_pos ⟨hdone, hlow⟩]
    dsimp only
    rw [hnew]
  refine ⟨_, hexec, ?_, ?_, recorded_after _ rfl rfl⟩
  all_goals rw [record_frame_eq]

theorem svnCommit_keeps {s : State} (h : s.boot.imageSvn ≤ s.fuses.otpSvn) : exec .svnCommit s = .next s := by
  show Host.Outcome.next (commitSvn s) = _
  unfold commitSvn
  rw [if_neg (fun k => Nat.not_lt.mpr h k.2)]

/-! ### MCTP (R540, R541) -/

/-- What a control message changes: the IDs and the transmission unit. -/
theorem mctpAsk_spec (s : State) (ep : Endpoint) (ask : MctpAsk) :
    mctpAsk s ep ask = { s with boot := { s.boot with
      eidCxl := (mctpAsk s ep ask).boot.eidCxl, eidI3c := (mctpAsk s ep ask).boot.eidI3c
      mctpUnit := (mctpAsk s ep ask).boot.mctpUnit } } ∧ (ask = .nothing → mctpAsk s ep ask = s) ∧
    (∀ e, ask = .setEid e → (mctpAsk s ep ask).boot.mctpUnit = s.boot.mctpUnit ∧
      (mctpAsk s ep ask).boot.eidCxl = (if ep = .cxl then e else s.boot.eidCxl) ∧
      (mctpAsk s ep ask).boot.eidI3c = (if ep = .i3c then e else s.boot.eidI3c)) ∧
    ∀ n, ask = .unit n → (mctpAsk s ep ask).boot.eidCxl = s.boot.eidCxl ∧
      (mctpAsk s ep ask).boot.eidI3c = s.boot.eidI3c ∧
      (mctpAsk s ep ask).boot.mctpUnit = (if ep = .cxl then max 64 (min 256 n) else s.boot.mctpUnit) := by
  refine ⟨?_, ?_, ?_, ?_⟩
  · cases ask <;> cases ep <;> rfl
  · rintro rfl
    rfl
  · rintro e rfl
    cases ep <;> exact ⟨rfl, rfl, rfl⟩
  · rintro n rfl
    cases ep <;> exact ⟨rfl, rfl, rfl⟩

/-- Whether a message type is one that the endpoints serve. -/
def mctpServes (bytes : List Byte) : Bool :=
  let t := (bytes.getD 0 0).toNat % 128
  t == 0 || (t == 1 && [0, 2, 5].contains ((bytes.getD 2 0).toNat % 64)) || t == 5

theorem mctp_answers {ep : Endpoint} {s : State} (h : endpointUp s ep = true) (b : Byte) (rest : List Byte) (ask : MctpAsk) :
    ∃ err t, exec (.mctpControlMessage ep { bytes := b :: rest, ask := ask }) s = .next (mgmt t (.mctp ep [] err)) ∧
      (b.toNat % 128 = 0 ∨ b.toNat % 128 = 5 → err = false) ∧ (5 < b.toNat % 128 → err = true) ∧
      t = { s with boot := { s.boot with
        eidCxl := t.boot.eidCxl, eidI3c := t.boot.eidI3c, mctpUnit := t.boot.mctpUnit } } ∧
      (b.toNat % 128 ≠ 0 ∨ ask = .nothing → t = s) ∧ (b.toNat % 128 = 0 →
        (∀ e, ask = .setEid e → t.boot.mctpUnit = s.boot.mctpUnit ∧
          t.boot.eidCxl = (if ep = .cxl then e else s.boot.eidCxl) ∧
          t.boot.eidI3c = (if ep = .i3c then e else s.boot.eidI3c)) ∧
        (∀ n, ask = .unit n → t.boot.eidCxl = s.boot.eidCxl ∧ t.boot.eidI3c = s.boot.eidI3c ∧
          t.boot.mctpUnit = (if ep = .cxl then max 64 (min 256 n) else s.boot.mctpUnit))) := by
  have hexec : exec (.mctpControlMessage ep { bytes := b :: rest, ask := ask }) s = .next (mgmt
      (if b.toNat % 128 = 0 then mctpAsk s ep ask else s) (.mctp ep [] (!mctpServes (b :: rest)))) := by
    show execMctpControlMessage ep { bytes := b :: rest, ask := ask } s = _
    unfold execMctpControlMessage
    rw [h]
    rfl
  refine ⟨_, _, hexec, fun hserved => ?_, fun hbad => ?_, ?_⟩
  · unfold mctpServes
    rcases hserved with h0 | h5
    · simp [h0]
    · simp [h5]
  · have h0 : b.toNat % 128 ≠ 0 := by omega
    have h1 : b.toNat % 128 ≠ 1 := by omega
    have h5 : b.toNat % 128 ≠ 5 := by omega
    simp [mctpServes, h0, h1, h5]
  · obtain ⟨honly, hnothing, hset, hunit⟩ := mctpAsk_spec s ep ask
    by_cases h0 : b.toNat % 128 = 0
    · rw [if_pos h0]
      exact ⟨honly, fun k => hnothing (k.resolve_left (not_not.mpr h0)), fun _ => ⟨hset, hunit⟩⟩
    · rw [if_neg h0]
      exact ⟨rfl, fun _ => rfl, fun k => absurd k h0⟩

/-! ### SPDM (R667, R668) -/

theorem measurement_one {ep : Endpoint} {i : Nat} (nonce : List Byte) {s : State} (hdone : s.boot.phase = .done)
    (hi : i ≠ 0xFF) {d : BitVec 384} (h : measure s i = some d) : exec (.spdmGetMeasurements ep i nonce) s =
      .next (mgmt s (.measurements ep [(i, d)]
        (Config.aliasSign s.boot.alias_ (nonce ++ (leBytes 1 i ++ leBytes 48 d.toNat))))) := by
  have hlist : (measureIndices i).filterMap (fun i => (measure s i).map (fun d => (i, d))) = [(i, d)] := by
    rw [measureIndices, if_neg hi, List.filterMap_cons, h]
    rfl
  have hbytes : measureBytes [(i, d)] = leBytes 1 i ++ leBytes 48 d.toNat := by
    unfold measureBytes
    rw [List.flatMap_cons, List.flatMap_nil, List.append_nil]
  show execSpdmGetMeasurements ep i nonce s = _
  unfold execSpdmGetMeasurements
  rw [if_neg (not_not.mpr hdone)]
  dsimp only
  rw [hlist, hbytes]
  rfl

theorem measurement_none {ep : Endpoint} {i : Nat} (nonce : List Byte) {s : State} (hdone : s.boot.phase = .done)
    (hi : i ≠ 0xFF) (h : measure s i = none) :
    exec (.spdmGetMeasurements ep i nonce) s = .next (mgmt s (.spdmError ep)) := by
  have hlist : (measureIndices i).filterMap (fun i => (measure s i).map (fun d => (i, d))) = [] := by
    rw [measureIndices, if_neg hi, List.filterMap_cons, h]
    rfl
  show execSpdmGetMeasurements ep i nonce s = _
  unfold execSpdmGetMeasurements
  rw [if_neg (not_not.mpr hdone)]
  dsimp only
  rw [hlist]
  rfl

/-- Every index that 0xFF names has a measurement. -/
theorem measure_listed (s : State) {i : Nat} (h : i ∈ measureIndices 0xFF) : (measure s i).isSome = true := by
  rw [measureIndices, if_pos rfl] at h
  unfold measure
  fin_cases h <;> rfl

theorem length_filterMap_some {α β : Type} {f : α → Option β} {l : List α} (h : ∀ x ∈ l, (f x).isSome = true) :
    (l.filterMap f).length = l.length := by
  induction l with
  | nil => rfl
  | cons x l ih =>
    obtain ⟨y, hy⟩ := Option.isSome_iff_exists.mp (h x List.mem_cons_self)
    rw [List.filterMap_cons, hy]
    exact congrArg (· + 1) (ih (fun z hz => h z (List.mem_cons_of_mem x hz)))

theorem measurement_all {ep : Endpoint} {i : Nat} (nonce : List Byte) {s : State} (hdone : s.boot.phase = .done)
    (hi : i = 0xFF) : ∃ l sig, exec (.spdmGetMeasurements ep i nonce) s = .next (mgmt s (.measurements ep l sig)) ∧
      l.length = 12 ∧ ∀ x ∈ l, measure s x.1 = some x.2 := by
  subst hi
  have hlen : ((measureIndices 0xFF).filterMap (fun i => (measure s i).map (fun d => (i, d)))).length = 12 :=
    length_filterMap_some (fun i h => by rw [Option.isSome_map]; exact measure_listed s h)
  have hgives : ∀ x ∈ (measureIndices 0xFF).filterMap (fun i => (measure s i).map (fun d => (i, d))),
      measure s x.1 = some x.2 := by
    intro x hx
    obtain ⟨i, -, hi⟩ := List.mem_filterMap.mp hx
    obtain ⟨d, hd, rfl⟩ := Option.map_eq_some_iff.mp hi
    exact hd
  have hexec : ∀ l, (measureIndices 0xFF).filterMap (fun i => (measure s i).map (fun d => (i, d))) = l → l.length = 12 →
      exec (.spdmGetMeasurements ep 0xFF nonce) s = .next (mgmt s
        (.measurements ep l (Config.aliasSign s.boot.alias_ (nonce ++ measureBytes l)))) := by
    intro l hl hlen
    have hsome : ¬ l.isEmpty = true := fun h => by
      rw [List.isEmpty_iff.mp h] at hlen
      cases hlen
    show execSpdmGetMeasurements ep 0xFF nonce s = _
    unfold execSpdmGetMeasurements
    rw [if_neg (not_not.mpr hdone)]
    dsimp only
    rw [hl, if_neg hsome]
  exact ⟨_, _, hexec _ rfl hlen, hlen, hgives⟩

/-- A request in a mission-mode phase, whatever its slot. -/
theorem spdm_slot {ep : Endpoint} {slot : Nat} (nonce : List Byte) {s : State} (hdone : s.boot.phase = .done) :
    (slot = 0 → exec (.spdmGetCertificate ep slot) s =
        .next (mgmt s (.certificate ep (s.flash.devidChain ++ s.boot.aliasCert))) ∧
      exec (.spdmChallenge ep slot nonce) s = .next (mgmt s (.challengeAuth ep (Config.aliasSign s.boot.alias_ nonce)))) ∧
    (slot ≠ 0 → exec (.spdmGetCertificate ep slot) s = .next (mgmt s (.spdmError ep)) ∧
      exec (.spdmChallenge ep slot nonce) s = .next (mgmt s (.spdmError ep))) := by
  have hcert : exec (.spdmGetCertificate ep slot) s = if slot ≠ 0 then .next (mgmt s (.spdmError ep))
      else .next (mgmt s (.certificate ep (s.flash.devidChain ++ s.boot.aliasCert))) := if_neg (not_not.mpr hdone)
  have hchallenge : exec (.spdmChallenge ep slot nonce) s = if slot ≠ 0 then .next (mgmt s (.spdmError ep))
      else .next (mgmt s (.challengeAuth ep (Config.aliasSign s.boot.alias_ nonce))) := if_neg (not_not.mpr hdone)
  rw [hcert, hchallenge]
  exact ⟨fun h => ⟨if_neg (not_not.mpr h), if_neg (not_not.mpr h)⟩, fun h => ⟨if_pos h, if_pos h⟩⟩

theorem addSession_spec (s : State) (ep : Endpoint) : sessionsOf (addSession s ep) ep = sessionsOf s ep ++ [s.boot.nextSession] ∧
    (∀ y, y ≠ ep → sessionsOf (addSession s ep) y = sessionsOf s y) ∧
    (addSession s ep).boot.nextSession = s.boot.nextSession + 1 ∧ (addSession s ep).flash = s.flash ∧
    (addSession s ep).boot.replies = s.boot.replies := by
  refine ⟨by cases ep <;> rfl, fun y hy => ?_, by cases ep <;> rfl, by cases ep <;> rfl, by cases ep <;> rfl⟩
  cases ep <;> cases y
  · exact absurd rfl hy
  · rfl
  · rfl
  · exact absurd rfl hy

theorem keyExchange_opens {ep : Endpoint} {slot : Nat} (x : List Byte) {s : State} (hdone : s.boot.phase = .done)
    (hslot : slot = 0) (hroom : (sessionsOf s ep).length < 2) : ∃ t, exec (.spdmKeyExchange ep slot x) s = .next t ∧
      sessionsOf t ep = sessionsOf s ep ++ [s.boot.nextSession] ∧ (∀ y, y ≠ ep → sessionsOf t y = sessionsOf s y) ∧
      t.boot.nextSession = s.boot.nextSession + 1 ∧ t.flash = s.flash ∧ t.boot.replies = s.boot.replies ++
        [.keyExchange ep s.boot.nextSession (Config.aliasSign s.boot.alias_ x)] := by
  have hexec : exec (.spdmKeyExchange ep slot x) s = .next (mgmt (addSession s ep)
      (.keyExchange ep s.boot.nextSession (Config.aliasSign s.boot.alias_ x))) := by
    show execSpdmKeyExchange ep slot x s = _
    unfold execSpdmKeyExchange
    rw [if_neg (not_not.mpr hdone), if_neg (by omega)]
  obtain ⟨hown, hother, hnext, hflash, hreplies⟩ := addSession_spec s ep
  refine ⟨_, hexec, ?_⟩
  generalize addSession s ep = t at *
  exact ⟨by cases ep <;> exact hown, fun y hy => by rw [← hother y hy]; cases y <;> rfl, hnext, hflash,
    congrArg (· ++ _) hreplies⟩

theorem keyExchange_refuses {ep : Endpoint} {slot : Nat} (x : List Byte) {s : State} (hdone : s.boot.phase = .done)
    (h : slot ≠ 0 ∨ 2 ≤ (sessionsOf s ep).length) :
    exec (.spdmKeyExchange ep slot x) s = .next (mgmt s (.spdmError ep)) := by
  show execSpdmKeyExchange ep slot x s = _
  unfold execSpdmKeyExchange
  rw [if_neg (not_not.mpr hdone), if_pos h]

theorem heartbeat_answers {ep : Endpoint} (n : Nat) {s : State} (hdone : s.boot.phase = .done) :
    exec (.spdmHeartbeat ep n) s =
      .next (mgmt s (if n ∈ sessionsOf s ep then .heartbeatAck ep n else .spdmError ep)) := by
  show execSpdmHeartbeat ep n s = _
  unfold execSpdmHeartbeat
  rw [if_neg (not_not.mpr hdone)]
  by_cases h : n ∈ sessionsOf s ep <;> simp [h]

theorem ideKm_programs {n : Nat} (stream : Nat) (key : BitVec 256) (go : Bool) {s : State} (hdone : s.boot.phase = .done)
    (hn : n ∈ s.boot.sessionsCxl) : exec (.ideKm .cxl n stream key go) s = .next (mgmt { s with
      boot := { s.boot with ideKeys := tset 0 s.boot.ideKeys stream key }
      host := { s.host with ideActive := s.host.ideActive || go } } (.ideAck stream)) := by
  show execIdeKm .cxl n stream key go s = _
  unfold execIdeKm
  rw [if_neg (not_not.mpr hdone), if_pos ⟨rfl, by simpa using hn⟩]

theorem ideKm_refuses {ep : Endpoint} {n : Nat} (stream : Nat) (key : BitVec 256) (go : Bool) {s : State}
    (hdone : s.boot.phase = .done) (h : ep = .i3c ∨ n ∉ s.boot.sessionsCxl) :
    exec (.ideKm ep n stream key go) s = .next (mgmt s (.spdmError ep)) := by
  have hno : ¬ (ep = .cxl ∧ s.boot.sessionsCxl.contains n = true) := by
    rintro ⟨rfl, hn⟩
    exact h.elim (fun k => nomatch k) (fun k => k (by simpa using hn))
  show execIdeKm ep n stream key go s = _
  unfold execIdeKm
  rw [if_neg (not_not.mpr hdone), if_neg hno]

end Sys2Proof.Machine

namespace Sys2Proof

open Machine

/-- Settles O56: each check, step and answer is the endpoint's own rule. -/
theorem firmwareAndManagement : Obligations.FirmwareAndManagement := by
  unfold Obligations.FirmwareAndManagement
  refine ⟨fun s rd img => verifyImage_passes, fun found s => ⟨fun h => if_pos h, fun hrails hphase =>
    ⟨fun h => ⟨_, boot_halts hrails hphase h, rfl, rfl, rfl, rfl⟩,
      fun hotp hclk => boot_reads hrails hphase hotp hclk rfl rfl⟩⟩,
    fun img back s => ⟨fun h => if_pos h, fun hphase => ⟨fun hr => ?_, fun hr => ?_⟩⟩,
    fun ep s => ⟨fun y hdone hy => ?_, fun hdone hnone => ?_, fun img => pldmComponentTransfer_runs img,
      fun h hv => ⟨_, pldmActivate_runs h hv, rfl, rfl, rfl⟩, pldm_idle, mctp_answers, fun h b => ?_,
      fun i nonce hdone => ⟨fun d hi => measurement_one nonce hdone hi, measurement_none nonce hdone,
        measurement_all nonce hdone⟩,
      fun slot nonce hdone => spdm_slot nonce hdone,
      fun slot x hdone => ⟨keyExchange_opens x hdone, keyExchange_refuses x hdone⟩,
      fun n hdone => heartbeat_answers n hdone,
      fun n stream key go hdone => ⟨?_, ideKm_refuses stream key go hdone⟩, svnCommit_raises, svnCommit_keeps⟩⟩
  · exact (recoveryImageReceive_runs img back hphase).trans (if_pos hr)
  · have hexec := (recoveryImageReceive_runs img back hphase).trans (if_neg (not_not.mpr hr))
    have hreason : recoveryReason s img = 0 := hr
    have hjudged : recoveryJudged s img = { s with boot := { s.boot with
        replies := s.boot.replies ++ recoveryAsks img ++ [.verifyComplete .i3c 0] } } := by
      rw [recoveryJudged, hreason]
    by_cases hback : verifyImage s true back = 0
    · rw [if_neg (not_not.mpr hback)] at hexec
      refine ⟨_, hexec, ?_⟩
      have hrec := recorded_record (recoveredAt s img back) { kind := 0x51, detail := fwSvn back }
      rw [record_frame_eq]
      unfold recoveredAt recoveryWritten at *
      rw [hjudged] at *
      refine ⟨rfl, rfl, rfl, fun hne => absurd hback hne, fun _ => ⟨rfl, rfl, rfl, ?_, ?_⟩⟩
      · show s.boot.replies ++ recoveryAsks img ++ _ ++ _ = _
        simp only [List.append_assoc, List.cons_append, List.nil_append]
        rfl
      · exact recorded_congr hrec rfl rfl rfl rfl
    · rw [if_pos hback] at hexec
      refine ⟨_, hexec, rfl, rfl, rfl, fun _ => ⟨hphase, ?_⟩, fun h0 => absurd h0 hback⟩
      show (recoveryJudged s img).boot.replies ++ _ = _
      rw [hjudged]
      simp only [List.append_assoc, List.cons_append, List.nil_append]
      rfl
  · show execPldmRequestUpdate ep s = _
    unfold execPldmRequestUpdate
    rw [if_neg (not_not.mpr hdone), hy]
  · refine ⟨mgmt { s with boot := { s.boot with updating := some ep, updateVerified := false } } (.updateMode ep), ?_,
      rfl, rfl, rfl, rfl⟩
    show execPldmRequestUpdate ep s = _
    unfold execPldmRequestUpdate
    rw [if_neg (not_not.mpr hdone), hnone]
  · show execMctpControlMessage ep b s = _
    unfold execMctpControlMessage
    rw [h]
    rfl
  · rintro rfl hn
    exact ⟨_, ideKm_programs stream key go hdone hn, tget_tset_same .., fun j hj => tget_tset_other _ _ _ hj, rfl, rfl⟩

end Sys2Proof
end

section
/-! Cores fenced and unfenced by the host (R573 to R575). -/

namespace Sys2Proof.Machine

/-! ### Bits of a set -/

theorem bit_set {n : Nat} (x : BitVec n) {j : Nat} (hj : j < n) (i : Nat) :
    bit (setBits x j 1 1) i = (bit x i || i == j) := by
  by_cases hi : i < n
  · rw [bit_setBits x j 1 1 hi]
    by_cases h : i = j
    · subst h
      rw [if_pos (by omega)]
      simp
    · rw [if_neg (by omega)]
      simp [h]
  · have hne : i ≠ j := fun h => hi (h ▸ hj)
    unfold bit
    rw [BitVec.getLsbD_of_ge _ _ (by omega), BitVec.getLsbD_of_ge _ _ (by omega)]
    simp [hne]

/-- What a host write of 1s clears: the bits written that the device has not set on this cycle. -/
theorem bit_w1cWrite {w : Nat} (s : State) (a : Nat) (v : BitVec w) (i : Nat) :
    bit (w1cWrite s a v) i = (bit v i && !(w1cNow s a).testBit i) := by
  unfold w1cWrite bit
  rw [BitVec.getLsbD_and, BitVec.getLsbD_not, BitVec.getLsbD_ofNat]
  by_cases hi : i < w
  · simp [hi]
  · rw [BitVec.getLsbD_of_ge _ _ (by omega)]
    rfl

/-- A step taken for each bit of a word is one step when one bit is set. -/
theorem foldl_bits_one {α : Type} {b : Nat → Bool} {n k : Nat} (hk : k < n) (hb : ∀ j, b j = true ↔ j = k) (f : α → Nat → α)
    (s : α) : (List.range n).foldl (fun s j => if b j then f s j else s) s = f s k := by
  have hfilter : (List.range n).filter b = [k] := by
    have hcongr : (List.range n).filter b = (List.range n).filter (· == k) :=
      List.filter_congr (fun j _ => by
        rw [Bool.eq_iff_iff, hb, beq_iff_eq])
    rw [hcongr, List.filter_beq, List.count_eq_one_of_mem List.nodup_range (List.mem_range.mpr hk)]
    rfl
  rw [← List.foldl_filter, hfilter]
  rfl

/-! ### Fences cleared (R573) -/

/-- A core without its fence's history. -/
def unfenced (c : Core) : Core := { c with intermits := [], storeCause := false, fenceStore := false }

/-- Whether a core's partition is EMPTY. -/
def emptyAt (s : State) (n : Nat) : Prop := ∃ p, corePart s n = some p ∧ p.ctx = .empty

/-- A change of the fence set and of cores. -/
def fenceCores (s t : State) : Prop := t = { s with fence := t.fence, cores := t.cores }

theorem fenceCores_trans {s t u : State} (h : fenceCores s t) (k : fenceCores t u) : fenceCores s u := by
  unfold fenceCores at *
  rw [k, h]

theorem emptyAt_fenceCores {s t : State} (h : fenceCores s t) (n : Nat) : emptyAt t n ↔ emptyAt s n := by
  unfold fenceCores at h
  unfold emptyAt
  rw [h]
  exact Iff.rfl

/-- One core's fence is cleared if its partition is EMPTY. -/
theorem unfence_spec (s : State) (n : Nat) : fenceCores s (unfence s n) ∧ ∀ m,
    (m = n ∧ emptyAt s n → isFenced (unfence s n) m = false ∧ getCore (unfence s n) m = unfenced (getCore s m)) ∧
    (¬ (m = n ∧ emptyAt s n) → isFenced (unfence s n) m = isFenced s m ∧ getCore (unfence s n) m = getCore s m) := by
  have hkept : ¬ emptyAt s n → unfence s n = s := fun h => by
    unfold unfence
    split
    · next p hp => exact if_neg (fun hctx => h ⟨p, hp, hctx⟩)
    · rfl
  have hcleared : emptyAt s n → unfence s n = modCore { s with fence := setBits s.fence n 1 0 } n unfenced := fun ⟨p, hp, hctx⟩ => by
    unfold unfence
    rw [hp]
    exact if_pos hctx
  by_cases h : emptyAt s n
  · rw [hcleared h]
    refine ⟨rfl, fun m => ⟨fun ⟨hm, _⟩ => ?_, fun hne => ?_⟩⟩
    · subst hm
      exact ⟨(bit_clear ..).trans (by simp), getCore_modCore_same ..⟩
    · have hm : m ≠ n := fun hm => hne ⟨hm, h⟩
      exact ⟨(bit_clear ..).trans (by simp [hm, isFenced]), (getCore_modCore ..).trans (if_neg hm)⟩
  · rw [hkept h]
    exact ⟨rfl, fun m => ⟨fun hm => absurd hm.2 h, fun _ => ⟨rfl, rfl⟩⟩⟩

/-- The cores of a write that lose their fence. -/
theorem unfenceAll_spec {w : Nat} (v : BitVec w) (base : Nat) (js : List Nat) (s : State) :
    let t := js.foldl (fun s j => if bit v j && isFenced s (base + j) then unfence s (base + j) else s) s
    fenceCores s t ∧ ∀ m,
      ((∃ j ∈ js, m = base + j ∧ bit v j = true) ∧ isFenced s m = true ∧ emptyAt s m →
        isFenced t m = false ∧ getCore t m = unfenced (getCore s m)) ∧
      (¬ ((∃ j ∈ js, m = base + j ∧ bit v j = true) ∧ isFenced s m = true ∧ emptyAt s m) →
        isFenced t m = isFenced s m ∧ getCore t m = getCore s m) := by
  induction js generalizing s with
  | nil => exact ⟨rfl, fun m => ⟨fun ⟨⟨_, h, _⟩, _⟩ => absurd h List.not_mem_nil, fun _ => ⟨rfl, rfl⟩⟩⟩
  | cons j js ih =>
    rw [List.foldl_cons]
    by_cases hgo : (bit v j && isFenced s (base + j)) = true
    · rw [if_pos hgo]
      obtain ⟨hbit, hfenced⟩ := Bool.and_eq_true_iff.mp hgo
      obtain ⟨honly, hone⟩ := unfence_spec s (base + j)
      obtain ⟨hrest, hall⟩ := ih (unfence s (base + j))
      refine ⟨fenceCores_trans honly hrest, fun m => ?_⟩
      obtain ⟨hin, hout⟩ := hall m
      obtain ⟨hhit, hmiss⟩ := hone m
      have hempty := emptyAt_fenceCores honly m
      by_cases hm : m = base + j ∧ emptyAt s (base + j)
      · obtain ⟨hoff, hcore⟩ := hhit hm
        obtain ⟨hsame, hsame'⟩ := hout (fun h => by rw [hoff] at h; cases h.2.1)
        refine ⟨fun _ => ⟨hsame.trans hoff, hsame'.trans hcore⟩, fun hno => absurd ?_ hno⟩
        obtain ⟨rfl, he⟩ := hm
        exact ⟨⟨j, List.mem_cons_self, rfl, hbit⟩, hfenced, he⟩
      · obtain ⟨hsame, hsame'⟩ := hmiss hm
        rw [hsame, hsame', hempty] at hin hout
        refine ⟨fun ⟨⟨k, hk, hmk, hb⟩, hf, he⟩ => hin ⟨?_, hf, he⟩, fun hno => hout (fun ⟨⟨k, hk, hmk, hb⟩, hf, he⟩ =>
          hno ⟨⟨k, List.mem_cons_of_mem j hk, hmk, hb⟩, hf, he⟩)⟩
        rcases List.mem_cons.mp hk with rfl | hk
        · exact absurd ⟨hmk, hmk ▸ he⟩ hm
        · exact ⟨k, hk, hmk, hb⟩
    · rw [if_neg hgo]
      obtain ⟨hrest, hall⟩ := ih s
      refine ⟨hrest, fun m => ?_⟩
      obtain ⟨hin, hout⟩ := hall m
      refine ⟨fun ⟨⟨k, hk, hmk, hb⟩, hf, he⟩ => hin ⟨?_, hf, he⟩, fun hno => hout (fun ⟨⟨k, hk, hmk, hb⟩, hf, he⟩ =>
        hno ⟨⟨k, List.mem_cons_of_mem j hk, hmk, hb⟩, hf, he⟩)⟩
      rcases List.mem_cons.mp hk with rfl | hk
      · exact absurd (by rw [← hmk, hb, hf]; rfl) hgo
      · exact ⟨k, hk, hmk, hb⟩

theorem fenceClear_clears (i : Fin 3) (v : Dword) (s : State) : ∃ t, exec (.cellarCoreFenceClear i v) s = .next t ∧
    t = { s with fence := t.fence, cores := t.cores } ∧ ∀ n : Fin 192,
      let named := n.val / 64 = i.val ∧ bit v (n.val % 64) = true ∧ isFenced s n.val = true ∧
        (w1cNow s (0x100 + 8 * i.val)).testBit (n.val % 64) = false ∧ ∃ p, corePart s n.val = some p ∧ p.ctx = .empty
      (named → isFenced t n.val = false ∧
        getCore t n.val = { getCore s n.val with intermits := [], storeCause := false, fenceStore := false }) ∧
      (¬ named → isFenced t n.val = isFenced s n.val ∧ getCore t n.val = getCore s n.val) := by
  obtain ⟨honly, hall⟩ := unfenceAll_spec (w1cWrite s (0x100 + 8 * i.val) v) (64 * i.val) (List.range 64) s
  refine ⟨fenceClear s i.val v, rfl, honly, fun n => ?_⟩
  obtain ⟨hin, hout⟩ := hall n.val
  have hnamed : (∃ j ∈ List.range 64, n.val = 64 * i.val + j ∧ bit (w1cWrite s (0x100 + 8 * i.val) v) j = true) ↔
      n.val / 64 = i.val ∧ bit v (n.val % 64) = true ∧ (w1cNow s (0x100 + 8 * i.val)).testBit (n.val % 64) = false := by
    constructor
    · rintro ⟨j, hj, hn, hb⟩
      have hj := List.mem_range.mp hj
      have hmod : n.val % 64 = j := by omega
      rw [bit_w1cWrite, Bool.and_eq_true, Bool.not_eq_true'] at hb
      rw [hmod]
      exact ⟨by omega, hb.1, hb.2⟩
    · rintro ⟨hdiv, hb, hw⟩
      refine ⟨n.val % 64, List.mem_range.mpr (Nat.mod_lt _ (by decide)), by omega, ?_⟩
      rw [bit_w1cWrite, hb, hw]
      rfl
  rw [hnamed] at hin hout
  exact ⟨fun ⟨hdiv, hb, hf, hw, he⟩ => hin ⟨⟨hdiv, hb, hw⟩, hf, he⟩,
    fun hno => hout (fun ⟨⟨hdiv, hb, hw⟩, hf, he⟩ => hno ⟨hdiv, hb, hf, hw, he⟩)⟩

/-! ### Fences set (R573 to R575) -/

/-- What a new fence means for a partition that must stop. -/
def fenceStops (p : Part) : Part := if p.ctx = .running then { p with stopping := true } else { p with stopAtRun := true }

/-- The record of a fence that finds no pairing (R574). -/
def secondRec (q core : Nat) : RecIn := { kind := 0x17, detail := q, die := q / 4, quad := q, core := core }

/-- Whether the pairing of a new fence is refused. -/
def fenceSecond (s : State) (core : Nat) : Bool :=
  (getCore s core).fenceStore || (pairActive s (quadOf core) && !(getQuad s (quadOf core)).testPair) ||
    nextIsFence s (quadOf core) core

/-- The state in which a pairing in force has given way. -/
def pairingGivesWay (s : State) (q : Nat) : State := if pairActive s q then returnToLeft s (pairFenced s q) else s

theorem fenceInContext_eq {s : State} {core : Nat} {p : Part} (hp : corePart s core = some p) : fenceInContext s core =
    if p.map.contains core && (p.ctx == .loaded || p.ctx == .running || p.ctx == .stopped) then
      if fenceSecond s core then
        modPart (partVector (record s (secondRec (quadOf core) core)) p.low 1) p.low fenceStops
      else modQuad (pairingGivesWay s (quadOf core)) (quadOf core)
        (fun x => { x with pairNext := some (core % 24, partnerOf s core % 24) })
    else s := by
  unfold corePart at hp
  unfold fenceInContext
  dsimp only
  rw [hp]
  dsimp only
  have hpartner : partnerOf (pairingGivesWay s (quadOf core)) core = partnerOf s core := by
    unfold pairingGivesWay
    split <;> rfl
  by_cases hc : (p.map.contains core && (p.ctx == .loaded || p.ctx == .running || p.ctx == .stopped)) = true
  · rw [if_pos hc, if_pos hc, ← hpartner]
    rfl
  · rw [if_neg hc, if_neg hc]

/-- What the fence of a core in a context changes. -/
def contextFenced (s t : State) : Prop :=
  t = { s with hbm := t.hbm, poisonHbm := t.poisonHbm, errors := t.errors, draws := t.draws, parts := t.parts
               quads := t.quads, selfTest := t.selfTest
               host := { s.host with msixPend := t.host.msixPend, messages := t.host.messages } }

theorem fenceInContext_frame (s : State) (core : Nat) : contextFenced s (fenceInContext s core) := by
  cases hp : corePart s core with
  | none =>
    unfold fenceInContext
    dsimp only
    rw [show partOf s (quadOf core) = none from hp]
    rfl
  | some p =>
    rw [fenceInContext_eq hp]
    split
    · split
      · unfold partVector contextFenced
        rw [raiseVector_frame, record_frame_eq]
        rfl
      · unfold pairingGivesWay
        split <;> rfl
    · rfl

/-- A core whose fence bit is set. -/
def fenceMarked (s : State) (n : Nat) (storage : Bool) : State :=
  modCore { s with fence := setBits s.fence n 1 1 } n (fun c =>
    { c with fenceStore := storage, storeCause := c.storeCause || storage })

theorem fenceFor_eq {s : State} {n : Nat} (h : isFenced s n = false) (cause : Nat) (storage : Bool) :
    fenceFor s n cause storage = fenceInContext (record (if cause = 3 then fenceMarked s n storage
      else noteW1c (fenceMarked s n storage) (0x100 + 8 * (n / 64)) (n % 64)) (coreRec 0x16 n cause)) n := by
  unfold fenceFor
  rw [h, if_neg Bool.false_ne_true]
  rfl

/-- A fence sets one bit and leaves LPDDR5X. -/
theorem fenceFor_fence (s : State) {n : Nat} (hn : n < 192) (cause : Nat) (storage : Bool) :
    (∀ m, isFenced (fenceFor s n cause storage) m = (isFenced s m || m == n)) ∧
      (fenceFor s n cause storage).lpddr = s.lpddr := by
  cases h : isFenced s n with
  | true =>
    have hsame : fenceFor s n cause storage = s := if_pos h
    rw [hsame]
    refine ⟨fun m => ?_, rfl⟩
    by_cases hm : m = n
    · rw [hm, h]
      rfl
    · simp [hm]
  | false =>
    rw [fenceFor_eq h]
    generalize hu : (if cause = 3 then fenceMarked s n storage
      else noteW1c (fenceMarked s n storage) (0x100 + 8 * (n / 64)) (n % 64)) = u
    have hfence : u.fence = setBits s.fence n 1 1 ∧ u.lpddr = s.lpddr := by
      rw [← hu]
      split <;> exact ⟨rfl, rfl⟩
    have hframe := fenceInContext_frame (record u (coreRec 0x16 n cause)) n
    unfold contextFenced at hframe
    have hkeep : (fenceInContext (record u (coreRec 0x16 n cause)) n).fence = u.fence ∧
        (fenceInContext (record u (coreRec 0x16 n cause)) n).lpddr = u.lpddr := by
      rw [hframe, record_frame_eq]
      exact ⟨rfl, rfl⟩
    obtain ⟨hf, hl⟩ := hkeep
    refine ⟨fun m => ?_, hl.trans hfence.2⟩
    unfold isFenced
    rw [hf, hfence.1, bit_set _ hn]

theorem fenceAll_fence (v : Dword) (base : Nat) (js : List Nat) (hbase : ∀ j ∈ js, base + j < 192) (s : State) :
    let t := js.foldl (fun s j => if bit v j then fenceCore s (base + j) 3 else s) s
    (∀ m, isFenced t m = (isFenced s m || js.any (fun j => bit v j && m == base + j))) ∧ t.lpddr = s.lpddr := by
  induction js generalizing s with
  | nil => exact ⟨fun m => (Bool.or_false _).symm, rfl⟩
  | cons j js ih =>
    rw [List.foldl_cons]
    have hin := fun k (hk : k ∈ js) => hbase k (List.mem_cons_of_mem j hk)
    cases hb : bit v j
    · obtain ⟨hall, hl⟩ := ih hin s
      rw [if_neg Bool.false_ne_true]
      exact ⟨fun m => by rw [hall m, List.any_cons, hb]; rfl, hl⟩
    · obtain ⟨hall, hl⟩ := ih hin (fenceCore s (base + j) 3)
      obtain ⟨hone, hl'⟩ := fenceFor_fence s (hbase j List.mem_cons_self) 3 false
      rw [if_pos rfl]
      exact ⟨fun m => by rw [hall m, fenceCore, hone m, List.any_cons, hb, Bool.true_and, Bool.or_assoc], hl.trans hl'⟩

end Sys2Proof.Machine
end

section
/-! One core fenced in its context (R574, R575); self-test requests, windows and intrusive tests (R670 to R673). -/

namespace Sys2Proof.Machine

/-! ### One core fenced by the host -/

/-- The state in which the host's fence of a core is marked and recorded. -/
def fenceRecorded (s : State) (n : Nat) : State := record (fenceMarked s n false) (coreRec 0x16 n 3)

theorem fenceRecorded_frame (s : State) (n : Nat) : fenceRecorded s n = { s with
    fence := setBits s.fence n 1 1, cores := (fenceMarked s n false).cores
    hbm := (fenceRecorded s n).hbm, poisonHbm := (fenceRecorded s n).poisonHbm, errors := (fenceRecorded s n).errors
    draws := (fenceRecorded s n).draws
    host := { s.host with msixPend := (fenceRecorded s n).host.msixPend
                          messages := (fenceRecorded s n).host.messages } } := by
  unfold fenceRecorded
  rw [record_frame_eq]
  rfl

theorem nextIsFence_marked {s u : State} {n : Nat} (hquads : u.quads = s.quads)
    (hfence : ∀ m, isFenced u m = (isFenced s m || m == n)) (q : Nat) : nextIsFence u q n = nextIsFence s q n := by
  have hquad : getQuad u q = getQuad s q := by rw [getQuad, hquads, ← getQuad]
  unfold nextIsFence
  rw [hquad]
  cases (getQuad s q).pairNext with
  | none => rfl
  | some x =>
    dsimp only
    rw [hfence]
    by_cases hm : 24 * q + x.1 = n
    · simp [hm]
    · rw [beq_eq_false_iff_ne.mpr hm, Bool.or_false]

section OneFence
variable {s : State} {n : Nat} {p : Part}

theorem fenceCore_steps (hoff : isFenced s n = false) : fenceCore s n 3 = fenceInContext (fenceRecorded s n) n := fenceFor_eq hoff 3 false

theorem fenceCore_cores (hoff : isFenced s n = false) : getCore (fenceCore s n 3) n = { getCore s n with fenceStore := false } ∧
    ∀ m, m ≠ n → getCore (fenceCore s n 3) m = getCore s m := by
  have hcores : (fenceCore s n 3).cores = (fenceMarked s n false).cores := by
    rw [fenceCore, fenceFor_eq hoff 3 false, if_pos rfl, fenceInContext_cores, record_cores]
  refine ⟨(getCore_of_cores hcores n).trans ?_, fun m hm => (getCore_of_cores hcores m).trans ?_⟩
  · refine (getCore_modCore_same ..).trans ?_
    rw [Bool.or_false]
    rfl
  · exact (getCore_modCore ..).trans (if_neg hm)

theorem corePart_fenceRecorded (hp : corePart s n = some p) : corePart (fenceRecorded s n) n = some p := by
  rw [fenceRecorded_frame]
  exact hp

theorem fenceSecond_recorded (hn : n < 192) : fenceSecond (fenceRecorded s n) n = true ↔
    (pairActive s (quadOf n) = true ∧ (getQuad s (quadOf n)).testPair = false) ∨ nextIsFence s (quadOf n) n = true := by
  have hquads : (fenceRecorded s n).quads = s.quads := by rw [fenceRecorded_frame]
  have hquad : getQuad (fenceRecorded s n) (quadOf n) = getQuad s (quadOf n) := by rw [getQuad, hquads, ← getQuad]
  have hpair : pairActive (fenceRecorded s n) (quadOf n) = pairActive s (quadOf n) := by rw [pairActive, hquad, ← pairActive]
  have hfence : ∀ m, isFenced (fenceRecorded s n) m = (isFenced s m || m == n) := fun m => by
    unfold isFenced
    rw [fenceRecorded_frame]
    exact bit_set _ hn m
  have hstore : (getCore (fenceRecorded s n) n).fenceStore = false := by
    rw [fenceRecorded, getCore_record]
    exact congrArg Core.fenceStore (getCore_modCore_same ..)
  unfold fenceSecond
  rw [hstore, hpair, hquad, nextIsFence_marked hquads hfence]
  simp

theorem recorded_fenceRecorded (s : State) (n : Nat) : recorded s (fenceRecorded s n) (coreRec 0x16 n 3) :=
  recorded_after _ rfl rfl

section
variable (hn : n < 192) (hoff : isFenced s n = false) (hp : corePart s n = some p)

include hoff hp

/-- A fence in an EMPTY partition is recorded alone. -/
theorem fenceCore_empty (hctx : p.ctx = .empty) : fenceCore s n 3 = fenceRecorded s n := by
  rw [fenceCore_steps hoff, fenceInContext_eq (corePart_fenceRecorded hp), if_neg (by simp [hctx])]

theorem fenceCore_running (hctx : p.ctx = .running) (hmap : n ∈ p.map) : fenceCore s n 3 =
    if fenceSecond (fenceRecorded s n) n then
      modPart (partVector (record (fenceRecorded s n) (secondRec (quadOf n) n)) p.low 1) p.low fenceStops
    else modQuad (pairingGivesWay (fenceRecorded s n) (quadOf n)) (quadOf n)
      (fun x => { x with pairNext := some (n % 24, partnerOf (fenceRecorded s n) n % 24) }) := by
  rw [fenceCore_steps hoff, fenceInContext_eq (corePart_fenceRecorded hp), if_pos (by simp [hctx, hmap])]

include hn

/-- A fence that finds its quadrant free prepares the pairing of R575. -/
theorem fenceCore_pairs (hctx : p.ctx = .running) (hmap : n ∈ p.map)
    (hfree : ¬ ((pairActive s (quadOf n) = true ∧ (getQuad s (quadOf n)).testPair = false) ∨
      nextIsFence s (quadOf n) n = true)) :
    let t := fenceCore s n 3
    recorded s t (coreRec 0x16 n 3) ∧ t.parts = s.parts ∧
      (getQuad t (quadOf n)).pairNext = some (n % 24, partnerOf s n % 24) ∧
      (pairActive s (quadOf n) = true → pairFenced s (quadOf n) < 192 →
        bit t.selfTest.left (pairFenced s (quadOf n)) = true) := by
  intro t
  have ht : t = modQuad (pairingGivesWay (fenceRecorded s n) (quadOf n)) (quadOf n)
      (fun x => { x with pairNext := some (n % 24, partnerOf (fenceRecorded s n) n % 24) }) :=
    (fenceCore_running hoff hp hctx hmap).trans (if_neg (fun h => hfree ((fenceSecond_recorded hn).mp h)))
  have hquads : (fenceRecorded s n).quads = s.quads := by rw [fenceRecorded_frame]
  have hquad : getQuad (fenceRecorded s n) (quadOf n) = getQuad s (quadOf n) := by rw [getQuad, hquads, ← getQuad]
  have hpartner : partnerOf (fenceRecorded s n) n = partnerOf s n := by
    rw [fenceRecorded_frame]
    rfl
  have hpair : pairActive (fenceRecorded s n) (quadOf n) = pairActive s (quadOf n) := by rw [pairActive, hquad, ← pairActive]
  have hmember : pairFenced (fenceRecorded s n) (quadOf n) = pairFenced s (quadOf n) := by rw [pairFenced, hquad, ← pairFenced]
  have hrec := recorded_fenceRecorded s n
  have hparts : (fenceRecorded s n).parts = s.parts := by rw [fenceRecorded_frame]
  rw [hpartner] at ht
  clear_value t
  generalize fenceRecorded s n = u at *
  have hgive : (pairingGivesWay u (quadOf n)).errors = u.errors ∧ (pairingGivesWay u (quadOf n)).hbm = u.hbm ∧
      (pairingGivesWay u (quadOf n)).parts = u.parts := by
    unfold pairingGivesWay
    split <;> exact ⟨rfl, rfl, rfl⟩
  obtain ⟨herr, hhbm, hprt⟩ := hgive
  refine ⟨?_, ?_, ?_, fun hact hlt => ?_⟩
  · rw [ht]
    exact recorded_congr hrec rfl rfl herr hhbm
  · rw [ht]
    exact hprt.trans hparts
  · rw [ht, getQuad_modQuad_same]
  · rw [ht]
    show bit (pairingGivesWay u (quadOf n)).selfTest.left _ = true
    unfold pairingGivesWay
    rw [hpair, hact, if_pos rfl, hmember]
    exact (bit_set _ hlt _).trans (by simp)

/-- A second fence of a quadrant records again and stops the context. -/
theorem fenceCore_second (hctx : p.ctx = .running) (hmap : n ∈ p.map) (hpart : partAt s p.low = some p)
    (hheld : (pairActive s (quadOf n) = true ∧ (getQuad s (quadOf n)).testPair = false) ∨
      nextIsFence s (quadOf n) n = true) :
    let t := fenceCore s n 3
    t.errors.rseq = s.errors.rseq + 2 ∧ (getQuad t (quadOf n)).pairNext = (getQuad s (quadOf n)).pairNext ∧
      partAt t p.low = some { p with stopping := true } := by
  intro t
  have ht : t = modPart (partVector (record (fenceRecorded s n) (secondRec (quadOf n) n)) p.low 1) p.low fenceStops :=
    (fenceCore_running hoff hp hctx hmap).trans (if_pos ((fenceSecond_recorded hn).mpr hheld))
  have hseq : (fenceRecorded s n).errors.rseq = s.errors.rseq + 1 := record_rseq _ _
  have hframe := fenceRecorded_frame s n
  have hquads : (fenceRecorded s n).quads = s.quads := by rw [hframe]
  have hparts : (fenceRecorded s n).parts = s.parts := by rw [hframe]
  clear_value t
  generalize fenceRecorded s n = u at *
  have hseq' := record_rseq u (secondRec (quadOf n) n)
  have hvec : partVector (record u (secondRec (quadOf n) n)) p.low 1 = { u with
      hbm := (record u (secondRec (quadOf n) n)).hbm, poisonHbm := (record u (secondRec (quadOf n) n)).poisonHbm
      errors := (record u (secondRec (quadOf n) n)).errors, draws := (record u (secondRec (quadOf n) n)).draws
      host := (partVector (record u (secondRec (quadOf n) n)) p.low 1).host } := by
    unfold partVector
    rw [raiseVector_frame, record_frame_eq]
  generalize partVector (record u (secondRec (quadOf n) n)) p.low 1 = w at *
  refine ⟨?_, ?_, ?_⟩
  · rw [ht, hvec]
    show (record u (secondRec (quadOf n) n)).errors.rseq = _
    rw [hseq', hseq]
  · rw [ht, getQuad_modPart, hvec, getQuad]
    show (tget {} u.quads (quadOf n)).pairNext = _
    rw [hquads, ← getQuad]
  · have hat : partAt w p.low = some p := by
      rw [hvec, partAt]
      show u.parts.find? _ = _
      rw [hparts]
      exact hpart
    have hstop : fenceStops p = { p with stopping := true } := if_pos hctx
    rw [ht, ← hstop]
    refine partAt_modPart hat (fun x => ?_)
    unfold fenceStops
    split <;> rfl

end

end OneFence

theorem fenceSet_one {i : Fin 3} {v : Dword} {n : Fin 192} (s : State) (hi : n.val / 64 = i.val)
    (hv : ∀ j, bit v j = true ↔ j = n.val % 64) : fenceSet s i.val v = fenceCore s n.val 3 := by
  have hone := foldl_bits_one (b := fun j => bit v j) (Nat.mod_lt n.val (by decide : 0 < 64)) hv
    (fun s j => fenceCore s (64 * i.val + j) 3) s
  have hn : 64 * i.val + n.val % 64 = n.val := by omega
  rw [hn] at hone
  exact hone

theorem fenceSet_sets (i : Fin 3) (v : Dword) (s : State) : ∃ t, exec (.cellarCoreFenceSet i v) s = .next t ∧
    t.lpddr = s.lpddr ∧
    (∀ n : Fin 192, isFenced t n.val = (isFenced s n.val || (n.val / 64 == i.val && bit v (n.val % 64)))) ∧
    ∀ (n : Fin 192) (p : Part), n.val / 64 = i.val → (∀ j, bit v j = true ↔ j = n.val % 64) → isFenced s n.val = false →
      corePart s n.val = some p → partAt s p.low = some p →
      let q := quadOf n.val
      let second := (pairActive s q = true ∧ (getQuad s q).testPair = false) ∨ nextIsFence s q n.val = true
      (getCore t n.val = { getCore s n.val with fenceStore := false } ∧
        ∀ m, m ≠ n.val → getCore t m = getCore s m) ∧
      (p.ctx = .empty → recorded s t (coreRec 0x16 n.val 3) ∧ t.parts = s.parts ∧ t.quads = s.quads) ∧
      (p.ctx = .running → n.val ∈ p.map →
        (¬ second → recorded s t (coreRec 0x16 n.val 3) ∧ t.parts = s.parts ∧
          (getQuad t q).pairNext = some (n.val % 24, partnerOf s n.val % 24) ∧
          (pairActive s q = true → pairFenced s q < 192 → bit t.selfTest.left (pairFenced s q) = true)) ∧
        (second → t.errors.rseq = s.errors.rseq + 2 ∧ (getQuad t q).pairNext = (getQuad s q).pairNext ∧
          partAt t p.low = some { p with stopping := true })) := by
  obtain ⟨hfence, hlpddr⟩ := fenceAll_fence v (64 * i.val) (List.range 64)
    (fun j hj => by have := List.mem_range.mp hj; omega) s
  refine ⟨fenceSet s i.val v, rfl, hlpddr, fun n => (hfence n.val).trans ?_, fun n p hi hv hoff hp hpart => ?_⟩
  · congr 1
    rw [Bool.eq_iff_iff, List.any_eq_true, Bool.and_eq_true]
    constructor
    · rintro ⟨j, hj, hb⟩
      have hj := List.mem_range.mp hj
      obtain ⟨hb, hn⟩ := Bool.and_eq_true_iff.mp hb
      have hn := beq_iff_eq.mp hn
      have hmod : n.val % 64 = j := by omega
      exact ⟨beq_iff_eq.mpr (by omega), by rw [hmod]; exact hb⟩
    · rintro ⟨hdiv, hb⟩
      have hdiv := beq_iff_eq.mp hdiv
      exact ⟨n.val % 64, List.mem_range.mpr (Nat.mod_lt _ (by decide)), by rw [hb]; simp; omega⟩
  · rw [fenceSet_one s hi hv]
    refine ⟨fenceCore_cores hoff, fun hctx => ?_, fun hctx hmap =>
      ⟨fenceCore_pairs n.isLt hoff hp hctx hmap, fenceCore_second n.isLt hoff hp hctx hmap hpart⟩⟩
    rw [fenceCore_empty hoff hp hctx]
    exact ⟨recorded_fenceRecorded .., by rw [fenceRecorded_frame], by rw [fenceRecorded_frame]⟩

end Sys2Proof.Machine
end

section
/-! Idle levels left (R651, R652), and self-test requests, windows and intrusive tests (R670 to R673). -/

namespace Sys2Proof.Machine

/-! ### Quadrants of several partitions -/

theorem getQuad_modPartQuads_other (s : State) (p : Part) (g : Quad → Quad) {q : Nat} (hq : q ∉ partQuads p) :
    getQuad (modPartQuads s p g) q = getQuad s q :=
  (foldl_view (view := getQuad) (step := fun t q => modQuad t q g) (inv := fun _ => True) (rel := fun _ _ _ => True)
    (nodup_partQuads p) trivial (fun _ _ _ _ => trivial) (fun t m n _ _ h => by rw [getQuad_modQuad, if_neg h])
    (fun _ _ _ _ => trivial)).2.2 q hq

/-- A fact of a quadrant that every partition's change keeps. -/
theorem foldl_modPartQuads_keeps {P : Quad → Prop} {g : Part → Quad → Quad} (hg : ∀ x q, P q → P (g x q)) (ps : List Part)
    {s : State} {r : Nat} (h : P (getQuad s r)) : P (getQuad (ps.foldl (fun s x => modPartQuads s x (g x)) s) r) := by
  induction ps generalizing s with
  | nil => exact h
  | cons x ps ih =>
    refine ih ?_
    by_cases hr : r ∈ partQuads x
    · rw [getQuad_modPartQuads s x (g x) hr]
      exact hg x _ h
    · rwa [getQuad_modPartQuads_other s x (g x) hr]

theorem foldl_modPartQuads_frame (g : Part → Quad → Quad) (ps : List Part) (s : State) :
    ps.foldl (fun s x => modPartQuads s x (g x)) s =
      { s with quads := (ps.foldl (fun s x => modPartQuads s x (g x)) s).quads } := by
  induction ps generalizing s with
  | nil => rfl
  | cons x ps ih =>
    rw [List.foldl_cons, ih]
    generalize List.foldl _ _ ps = u
    rw [modPartQuads_frame]

/-! ### Levels left (R651, R652) -/

/-- The other partitions as one of their die, or of the device, leaves a deep level. -/
def othersRise (s : State) (p : Part) (was l : Nat) : State :=
  if 3 ≤ was ∧ l < 3 then
    (s.parts.filter (fun x => x.low != p.low)).foldl (fun s x =>
      modPartQuads s x (fun q => { q with idle := shallower p x q.idle })) s
  else if was = 4 then
    (s.parts.filter (fun x => x.low != p.low)).foldl (fun s x =>
      modPartQuads s x (fun q => { q with idle := min 3 q.idle })) s
  else s

theorem othersRise_frame (s : State) (p : Part) (was l : Nat) :
    othersRise s p was l = { s with quads := (othersRise s p was l).quads } := by
  unfold othersRise
  split
  · exact foldl_modPartQuads_frame (fun x q => { q with idle := shallower p x q.idle }) _ _
  · split
    · exact foldl_modPartQuads_frame (fun _ q => { q with idle := min 3 q.idle }) _ _
    · rfl

theorem othersRise_idle {s : State} {p : Part} {was l r : Nat} (hl : l < 3 ∨ l < was)
    (h : (getQuad s r).idle = l) : (getQuad (othersRise s p was l) r).idle = l := by
  unfold othersRise
  split
  · next hdeep =>
    refine foldl_modPartQuads_keeps (P := fun q => q.idle = l) (g := fun x q => { q with idle := shallower p x q.idle })
      (fun x q hq => ?_) _ h
    show shallower p x q.idle = l
    unfold shallower
    split <;> omega
  · split
    · next hdeep =>
      refine foldl_modPartQuads_keeps (P := fun q => q.idle = l) (g := fun _ q => { q with idle := min 3 q.idle })
        (fun x q hq => ?_) _ h
      show min 3 q.idle = l
      omega
    · exact h

theorem leaveTo_eq (s : State) (p : Part) (l : Nat) : ∃ t,
    t = othersRise (modPartQuads s p (fun q => { q with idle := l, exitAt := none })) p (getQuad s p.low).idle l ∧
    leaveTo s p l = if (getQuad s p.low).idle = 4 ∧ stageNow t < 5 then
      { t with power := { t.power with selfRefresh := false } } else t := ⟨_, rfl, rfl⟩

/-- Leaving a level changes quadrants, and takes the memories out of self-refresh when the device leaves I4. -/
theorem leaveTo_frame (s : State) (p : Part) (l : Nat) : leaveTo s p l = { s with
    quads := (leaveTo s p l).quads
    power := if (getQuad s p.low).idle = 4 ∧ stageNow s < 5 then { s.power with selfRefresh := false } else s.power } := by
  obtain ⟨t, ht, hleave⟩ := leaveTo_eq s p l
  rw [othersRise_frame, modPartQuads_frame] at ht
  generalize (othersRise _ p _ l).quads = qs at ht
  have hstage : stageNow t = stageNow s := by rw [ht]; rfl
  rw [hleave, hstage]
  split
  · rw [ht]
  · rw [ht]

theorem leaveTo_idle {s : State} {p : Part} {l r : Nat} (hl : l < 3 ∨ l < (getQuad s p.low).idle) (hr : r ∈ partQuads p) :
    (getQuad (leaveTo s p l) r).idle = l := by
  obtain ⟨t, ht, hleave⟩ := leaveTo_eq s p l
  have hidle : (getQuad t r).idle = l := by
    rw [ht]
    refine othersRise_idle hl ?_
    rw [getQuad_modPartQuads _ _ _ hr]
  rw [hleave]
  split <;> exact hidle

theorem leaveIdle_frame (s : State) (p : Part) :
    leaveIdle s p = { s with quads := (leaveIdle s p).quads, power := (leaveIdle s p).power } := by
  unfold leaveIdle
  rw [leaveTo_frame]

theorem low_mem_partQuads {s : State} {q : Nat} {p : Part} (h : partOf s q = some p) : p.low ∈ partQuads p := by
  have hin := List.find?_some h
  simp only [Bool.and_eq_true, decide_eq_true_eq] at hin
  exact List.mem_map.mpr ⟨0, List.mem_range.mpr (by omega), rfl⟩

/-! ### Requests (R670) -/

theorem bit_clearAll {n : Nat} (b : Nat → Bool) (js : List Nat) (x : BitVec n) (m : Nat) :
    bit (js.foldl (fun a j => if b j then setBits a j 1 0 else a) x) m = (bit x m && !js.any (fun j => b j && m == j)) := by
  induction js generalizing x with
  | nil => exact (Bool.and_true _).symm
  | cons j js ih =>
    rw [List.foldl_cons, ih, List.any_cons]
    cases hb : b j
    · rfl
    · rw [if_pos rfl, bit_clear, Bool.true_and, Bool.not_or, ← Bool.and_assoc]
      rfl

theorem bit_selected (s : State) (n : Fin 192) :
    bit (selected s) n.val = (bit s.selfTest.sel n.val && !isDisabled s n.val) := by
  refine (bit_clearAll (isDisabled s) (List.range 192) s.selfTest.sel n.val).trans ?_
  congr 2
  rw [Bool.eq_iff_iff, List.any_eq_true]
  constructor
  · rintro ⟨j, -, h⟩
    obtain ⟨hd, hj⟩ := Bool.and_eq_true_iff.mp h
    rw [beq_iff_eq.mp hj]
    exact hd
  · exact fun h => ⟨n.val, List.mem_range.mpr n.isLt, by rw [h]; exact beq_self_eq_true _⟩

/-- The end of a request changes its BUSY and DONE, and generates a record. -/
theorem settleTests_frame (s : State) : settleTests s = { s with
    selfTest := { s.selfTest with busy := (settleTests s).selfTest.busy, done := (settleTests s).selfTest.done }
    hbm := (settleTests s).hbm, poisonHbm := (settleTests s).poisonHbm, errors := (settleTests s).errors
    draws := (settleTests s).draws, w1c := (settleTests s).w1c, w1cAt := (settleTests s).w1cAt
    host := { s.host with msixPend := (settleTests s).host.msixPend, messages := (settleTests s).host.messages } } := by
  unfold settleTests
  dsimp only
  split
  · rw [raiseVector_frame, record_frame_eq]
    rfl
  · rfl

theorem settleTests_waits {s : State} (h : (s.selfTest.busy && s.selfTest.left == 0 && s.selfTest.started.isEmpty) = false) :
    settleTests s = s :=
  if_neg (Bool.eq_false_iff.mp h)

/-- The request of a GO that nothing stands against. -/
def requested (s : State) (v : Word) : State :=
  { s with selfTest := { s.selfTest with
      test := bit v 0, intrusive := bit v 1, done := s.selfTest.done && !(bit v 4 && !(w1cNow s 0x300).testBit 4)
      busy := true, left := selected s, fail := 0, started := [], kind := bit v 0, asked := countCores (selected s) } }

theorem selftestWrite_eq (s : State) (v : Word) : selftestWrite s v =
    if bit v 2 && !s.selfTest.busy then settleTests (requested s v)
    else { s with selfTest := { s.selfTest with
      test := bit v 0, intrusive := bit v 1, done := s.selfTest.done && !(bit v 4 && !(w1cNow s 0x300).testBit 4) } } := by
  unfold selftestWrite
  dsimp only
  rw [bit_w1cWrite]
  rfl

theorem countCores_zero : countCores 0 = 0 := by decide

theorem selftestGo_starts (v : Word) (s : State) : ∃ t, exec (.selftestGo v) s = .next t ∧ t.selfTest.test = bit v 0 ∧
    t.selfTest.intrusive = bit v 1 ∧ t.cores = s.cores ∧ t.parts = s.parts ∧
    (bit v 2 = false ∨ s.selfTest.busy = true → t = { s with selfTest := { s.selfTest with
      test := bit v 0, intrusive := bit v 1
      done := s.selfTest.done && !(bit v 4 && !(w1cNow s 0x300).testBit 4) } }) ∧
    (bit v 2 = true → s.selfTest.busy = false → t.selfTest.left = selected s ∧ t.selfTest.fail = 0 ∧
      t.selfTest.started = [] ∧ t.selfTest.kind = bit v 0 ∧
      (selected s ≠ 0 → t.selfTest.busy = true ∧ t = { s with selfTest := t.selfTest }) ∧
      (selected s = 0 → t.selfTest.busy = false ∧ t.selfTest.done = true ∧
        recorded s t { kind := 0x57, detail := 0 })) := by
  refine ⟨selftestWrite s v, rfl, ?_⟩
  rw [selftestWrite_eq]
  by_cases hgo : (bit v 2 && !s.selfTest.busy) = true
  · rw [if_pos hgo]
    have hno : ¬ (bit v 2 = false ∨ s.selfTest.busy = true) := by
      rintro (h | h) <;> simp [h] at hgo
    have hself : (settleTests (requested s v)).selfTest = { (requested s v).selfTest with
        busy := (settleTests (requested s v)).selfTest.busy, done := (settleTests (requested s v)).selfTest.done } := by
      conv => lhs; rw [settleTests_frame]
    have hrest : (settleTests (requested s v)).cores = s.cores ∧ (settleTests (requested s v)).parts = s.parts := by
      rw [settleTests_frame]
      exact ⟨rfl, rfl⟩
    refine ⟨by rw [hself]; rfl, by rw [hself]; rfl, hrest.1, hrest.2, fun h => absurd h hno, fun _ _ =>
      ⟨by rw [hself]; rfl, by rw [hself]; rfl, by rw [hself]; rfl, by rw [hself]; rfl, fun hsome => ?_, fun hnone => ?_⟩⟩
    · have hwait : settleTests (requested s v) = requested s v := settleTests_waits (by
        show (true && (selected s == 0) && true) = false
        rw [beq_eq_false_iff_ne.mpr hsome]
        rfl)
      rw [hwait]
      exact ⟨rfl, rfl⟩
    · have hend : settleTests (requested s v) = raiseVector (record (noteW1c { requested s v with
          selfTest := { (requested s v).selfTest with busy := false, done := true } } 0x300 4)
          { kind := 0x57, detail := 0 }) 36 := by
        have hall : ((requested s v).selfTest.busy && (requested s v).selfTest.left == 0 &&
            (requested s v).selfTest.started.isEmpty) = true := by simp [requested, hnone]
        have hdetail : (requested s v).selfTest.asked + countCores (requested s v).selfTest.fail * 2 ^ 8 = 0 := by
          show countCores (selected s) + countCores 0 * 2 ^ 8 = 0
          rw [hnone, countCores_zero]
          rfl
        unfold settleTests
        dsimp only
        rw [if_pos hall, hdetail]
      rw [hend]
      generalize hw : noteW1c { requested s v with
        selfTest := { (requested s v).selfTest with busy := false, done := true } } 0x300 4 = w
      have hkeep : w.selfTest.busy = false ∧ w.selfTest.done = true ∧ w.errors = s.errors ∧ w.hbm = s.hbm := by
        rw [← hw]
        exact ⟨rfl, rfl, rfl, rfl⟩
      obtain ⟨hbusy, hdone, herr, hhbm⟩ := hkeep
      have hrec := recorded_after (s := s) { kind := 0x57, detail := 0 } herr hhbm
      have hframe := record_frame_eq w { kind := 0x57, detail := 0 }
      generalize record w { kind := 0x57, detail := 0 } = x at *
      rw [raiseVector_frame]
      exact ⟨by rw [hframe]; exact hbusy, by rw [hframe]; exact hdone, recorded_congr hrec rfl rfl rfl rfl⟩
  · rw [if_neg hgo]
    have hno : ¬ (bit v 2 = true ∧ s.selfTest.busy = false) := by
      rintro ⟨h2, hb⟩
      simp [h2, hb] at hgo
    exact ⟨rfl, rfl, rfl, rfl, fun _ => rfl, fun h2 hb => absurd ⟨h2, hb⟩ hno⟩

/-! ### Starting (R671 to R673) -/

theorem beginTests_spec (ns : List Nat) (s : State) : let t := ns.foldl beginTest s
    t = { s with selfTest := { s.selfTest with left := t.selfTest.left, started := t.selfTest.started } } ∧
      (∀ m ∈ ns, bit t.selfTest.left m = false ∧ tget 0 t.selfTest.started m = s.pll + 1) ∧
      ∀ m, m ∉ ns → bit t.selfTest.left m = bit s.selfTest.left m ∧
        tget 0 t.selfTest.started m = tget 0 s.selfTest.started m := by
  induction ns generalizing s with
  | nil => exact ⟨rfl, fun m hm => absurd hm List.not_mem_nil, fun m _ => ⟨rfl, rfl⟩⟩
  | cons n ns ih =>
    obtain ⟨honly, hin, hout⟩ := ih (beginTest s n)
    rw [List.foldl_cons]
    generalize ns.foldl beginTest (beginTest s n) = t at *
    refine ⟨honly, fun m hm => ?_, fun m hm => ?_⟩
    · by_cases h : m ∈ ns
      · exact hin m h
      · obtain ⟨hl, hs⟩ := hout m h
        obtain rfl : m = n := (List.mem_cons.mp hm).resolve_right h
        exact ⟨hl.trans ((bit_clear ..).trans (by simp)), hs.trans (tget_tset_same 0 s.selfTest.started m (s.pll + 1))⟩
    · obtain ⟨hne, hnot⟩ := not_or.mp (fun h => hm (List.mem_cons.mpr h))
      obtain ⟨hl, hs⟩ := hout m hnot
      exact ⟨hl.trans ((bit_clear ..).trans (by simp [hne])), hs.trans (tget_tset_other 0 s.selfTest.started (s.pll + 1) hne)⟩

/-- The partition as a window finds it: at I0. -/
def windowReady (s : State) (p : Part) : State := if (getQuad s p.low).idle = 0 then s else leaveIdle s p

theorem windowReady_frame (s : State) (p : Part) :
    windowReady s p = { s with quads := (windowReady s p).quads, power := (windowReady s p).power } := by
  unfold windowReady
  split
  · rfl
  · rw [leaveIdle_frame]

theorem windowReady_idle {s : State} {p : Part} (h : p.low ∈ partQuads p) : (getQuad (windowReady s p) p.low).idle = 0 := by
  unfold windowReady
  split
  · next h0 => exact h0
  · exact leaveTo_idle (.inl (by decide)) h

/-- The waiting cores of a partition. -/
def waitingCores (s : State) (p : Part) : List Nat := (partCores p).filter (fun m => bit s.selfTest.left m)

theorem startWindow_eq (s : State) (p : Part) : startWindow s p =
    modPart ((waitingCores s p).foldl beginTest (windowReady s p)) p.low (fun x => { x with testing := waitingCores s p }) :=
  rfl

theorem startWindow_spec {s : State} {p : Part} (hlow : p.low ∈ partQuads p) (hat : partAt s p.low = some p) :
    let t := startWindow s p
    let q := { p with testing := waitingCores s p }
    partAt t p.low = some q ∧ t.cores = s.cores ∧ (getQuad t p.low).idle = 0 ∧
      (∀ m ∈ waitingCores s p, bit t.selfTest.left m = false ∧ tget 0 t.selfTest.started m = s.pll + 1) ∧
      ∀ m, m ∉ waitingCores s p → bit t.selfTest.left m = bit s.selfTest.left m ∧
        tget 0 t.selfTest.started m = tget 0 s.selfTest.started m := by
  intro t q
  obtain ⟨honly, hin, hout⟩ := beginTests_spec (waitingCores s p) (windowReady s p)
  have hframe := windowReady_frame s p
  have hidle := windowReady_idle (s := s) hlow
  have ht : t = _ := startWindow_eq s p
  have hself : (windowReady s p).selfTest = s.selfTest := by rw [hframe]
  have hpll : (windowReady s p).pll = s.pll := by rw [hframe]
  have hparts : (windowReady s p).parts = s.parts := by rw [hframe]
  have hcores : (windowReady s p).cores = s.cores := by rw [hframe]
  clear_value t
  generalize windowReady s p = w at *
  rw [hpll] at hin
  rw [hself] at hout
  generalize hv : (waitingCores s p).foldl beginTest w = v at *
  have hvparts : v.parts = s.parts := by rw [honly]; exact hparts
  have hvcores : v.cores = s.cores := by rw [honly]; exact hcores
  have hvidle : (getQuad v p.low).idle = 0 := by rw [honly]; exact hidle
  rw [ht]
  refine ⟨partAt_modPart (by rw [partAt, hvparts]; exact hat) (fun _ => rfl), hvcores, ?_, hin, hout⟩
  rw [getQuad_modPart]
  exact hvidle

end Sys2Proof.Machine
end

section
/-! Self-tests that start and end (R671 to R675). -/

namespace Sys2Proof.Machine

/-! ### Starting (R671 to R673) -/

section Start
variable {n : Fin 192} {s : State} {p : Part} (hp : corePart s n.val = some p)
include hp

theorem selftestCoreStart_waits
    (h : ¬ (s.selfTest.busy = true ∧ bit s.selfTest.left n.val = true) ∨
      (testWindow s p = false ∧ testIntrudes s p = false)) : exec (.selftestCoreStart n) s = .next s := by
  show execSelftestCoreStart n s = _
  unfold execSelftestCoreStart
  dsimp only
  rw [hp]
  dsimp only
  split
  · rfl
  · next hgo =>
    obtain ⟨hw, hi⟩ := h.resolve_left (fun hno => hno (by simpa using hgo))
    rw [hw, hi]
    rfl

theorem selftestCoreStart_window (hbusy : s.selfTest.busy = true) (hleft : bit s.selfTest.left n.val = true)
    (hw : testWindow s p = true) : exec (.selftestCoreStart n) s = .next (startWindow s p) := by
  show execSelftestCoreStart n s = _
  unfold execSelftestCoreStart
  dsimp only
  rw [hp]
  dsimp only
  rw [hbusy, hleft, if_neg (by decide), if_pos hw]

theorem selftestCoreStart_intrudes (hbusy : s.selfTest.busy = true) (hleft : bit s.selfTest.left n.val = true)
    (hw : testWindow s p = false) (hi : testIntrudes s p = true) :
    exec (.selftestCoreStart n) s = .next (startIntrusive s p n.val) := by
  show execSelftestCoreStart n s = _
  unfold execSelftestCoreStart
  dsimp only
  rw [hp]
  dsimp only
  rw [hbusy, hleft, hw, if_neg (by decide), if_neg Bool.false_ne_true, if_pos hi]

end Start

theorem startIntrusive_free {s : State} {p : Part} {n : Nat} (h : n ∉ p.map) : startIntrusive s p n = beginTest s n :=
  if_neg (by simpa using h)

theorem startIntrusive_pairs {s : State} {p : Part} {n : Nat} (hmap : n ∈ p.map) (hact : pairActive s (quadOf n) = false)
    (hnext : (getQuad s (quadOf n)).pairNext = none) (hoff : isFenced s n = false)
    (hpartner : isFenced s (partnerOf s n) = false) : startIntrusive s p n =
      modQuad s (quadOf n) (fun x => { x with pairNext := some (n % 24, partnerOf s n % 24) }) := by
  unfold startIntrusive
  dsimp only
  rw [if_pos (by simpa using hmap), hact, hnext, hoff, hpartner]
  rfl

theorem testWindow_empty {s : State} {p : Part} (h : testWindow s p = true) : p.ctx = .empty := by
  unfold testWindow at h
  simp only [Bool.and_eq_true] at h
  obtain ⟨⟨⟨⟨⟨hctx, -⟩, -⟩, -⟩, -⟩, -⟩ := h
  exact beq_iff_eq.mp hctx

/-! ### Ending (R674, R675) -/

/-- What a failed test, and the end of a request, leave of the core under test and of the rest. -/
structure FailKept (n : Nat) (s t : State) : Prop where
  started : tget 0 s.selfTest.started n = 0 → tget 0 t.selfTest.started n = 0
  others : ∀ m, m ≠ n → getCore t m = getCore s m
  cause : (getCore s n).storeCause = true → (getCore t n).storeCause = true
  parts : ∀ low q, partAt s low = some q → ∃ x, partAt t low = some x ∧ x.testing = q.testing ∧ x.map = q.map
  fail : t.selfTest.fail = s.selfTest.fail
  fenced : isFenced s n = true → isFenced t n = true

theorem FailKept.refl (n : Nat) (s : State) : FailKept n s s :=
  ⟨id, fun _ _ => rfl, id, fun _ q h => ⟨q, h, rfl, rfl⟩, rfl, id⟩

theorem FailKept.trans {n : Nat} {s t u : State} (h : FailKept n s t) (k : FailKept n t u) : FailKept n s u where
  started := fun h0 => k.started (h.started h0)
  others := fun m hm => (k.others m hm).trans (h.others m hm)
  cause := fun hc => k.cause (h.cause hc)
  parts := fun low q hq => by
    obtain ⟨x, hx, htest, hmap⟩ := h.parts low q hq
    obtain ⟨y, hy, htest', hmap'⟩ := k.parts low x hx
    exact ⟨y, hy, htest'.trans htest, hmap'.trans hmap⟩
  fail := k.fail.trans h.fail
  fenced := fun hf => k.fenced (h.fenced hf)

/-- A state that keeps the cores, the partitions, the fences and the tests. -/
theorem FailKept.of_same {n : Nat} {s t : State} (hself : t.selfTest.started = s.selfTest.started)
    (hfail : t.selfTest.fail = s.selfTest.fail) (hcores : t.cores = s.cores) (hparts : t.parts = s.parts)
    (hfence : t.fence = s.fence) : FailKept n s t where
  started := fun h => by rw [hself]; exact h
  others := fun m _ => getCore_of_cores hcores m
  cause := fun h => by rw [getCore_of_cores hcores]; exact h
  parts := fun low q hq => ⟨q, by rw [partAt, hparts]; exact hq, rfl, rfl⟩
  fail := hfail
  fenced := fun h => by unfold isFenced; rw [hfence]; exact h

theorem FailKept.record (n : Nat) (s : State) (r : RecIn) : FailKept n s (record s r) := by
  refine .of_same ?_ ?_ ?_ ?_ ?_ <;> rw [record_frame_eq]

theorem FailKept.settleTests (n : Nat) (s : State) : FailKept n s (settleTests s) := by
  refine .of_same ?_ ?_ ?_ ?_ ?_ <;> rw [settleTests_frame]

/-- A change of the core under test that keeps its cause. -/
theorem FailKept.modCore {n : Nat} {s : State} {g : Core → Core}
    (hg : (getCore s n).storeCause = true → (g (getCore s n)).storeCause = true) : FailKept n s (modCore s n g) where
  started := id
  others := fun m hm => (getCore_modCore ..).trans (if_neg hm)
  cause := fun h => by rw [getCore_modCore_same]; exact hg h
  parts := fun _ q h => ⟨q, h, rfl, rfl⟩
  fail := rfl
  fenced := id

theorem FailKept.modPart {n low : Nat} {s : State} {g : Part → Part}
    (hg : ∀ x, (g x).low = x.low ∧ (g x).testing = x.testing ∧ (g x).map = x.map) : FailKept n s (modPart s low g) where
  started := id
  others := fun _ _ => rfl
  cause := id
  parts := fun low' q hq => by
    by_cases hlow : low' = low
    · subst hlow
      exact ⟨_, partAt_modPart hq (fun x => (hg x).1), (hg q).2.1, (hg q).2.2⟩
    · exact ⟨q, (partAt_modPart_other (fun x => (hg x).1) hlow).trans hq, rfl, rfl⟩
  fail := rfl
  fenced := id

theorem FailKept.returnToLeft (n : Nat) (s : State) (m : Nat) : FailKept n s (returnToLeft s m) := by
  have hstart : tget 0 s.selfTest.started n = 0 → tget 0 (Machine.returnToLeft s m).selfTest.started n = 0 := fun h => by
    show tget 0 (terase s.selfTest.started m) n = 0
    by_cases hm : n = m
    · rw [hm]
      exact tget_terase_same ..
    · exact (tget_terase_other _ _ hm).trans h
  exact ⟨hstart, fun _ _ => rfl, id, fun _ q h => ⟨q, h, rfl, rfl⟩, rfl, id⟩

theorem FailKept.fenceInContext (n : Nat) (s : State) (core : Nat) : FailKept n s (fenceInContext s core) := by
  cases hp : corePart s core with
  | none =>
    have hsame : Machine.fenceInContext s core = s := by
      unfold Machine.fenceInContext
      dsimp only
      rw [show partOf s (quadOf core) = none from hp]
    rw [hsame]
    exact .refl n s
  | some p =>
    rw [fenceInContext_eq hp]
    split
    · split
      · have hvec : FailKept n (Machine.record s (secondRec (quadOf core) core))
            (partVector (Machine.record s (secondRec (quadOf core) core)) p.low 1) := by
          unfold partVector
          refine .of_same ?_ ?_ ?_ ?_ ?_ <;> rw [raiseVector_frame]
        refine ((FailKept.record ..).trans hvec).trans (.modPart (fun x => ?_))
        unfold fenceStops
        split <;> exact ⟨rfl, rfl, rfl⟩
      · have hgive : FailKept n s (pairingGivesWay s (quadOf core)) := by
          unfold pairingGivesWay
          split
          · exact .returnToLeft ..
          · exact .refl ..
        exact hgive.trans (.of_same rfl rfl rfl rfl rfl)
    · exact .refl n s

theorem FailKept.fenceFor {n : Nat} (hn : n < 192) (s : State) (cause : Nat) (storage : Bool) :
    FailKept n s (fenceFor s n cause storage) := by
  cases h : isFenced s n with
  | true =>
    have hsame : Machine.fenceFor s n cause storage = s := if_pos h
    rw [hsame]
    exact .refl n s
  | false =>
    rw [fenceFor_eq h]
    have hbit : FailKept n s { s with fence := setBits s.fence n 1 1 } :=
      ⟨id, fun _ _ => rfl, id, fun _ q h => ⟨q, h, rfl, rfl⟩, rfl, fun _ => (bit_set _ hn n).trans (by simp)⟩
    have hmark : FailKept n s (fenceMarked s n storage) :=
      hbit.trans (.modCore (fun hc => by show (_ || storage) = true; rw [hc]; rfl))
    refine (FailKept.trans ?_ (.record ..)).trans (.fenceInContext ..)
    split
    · exact hmark
    · exact hmark.trans (.of_same rfl rfl rfl rfl rfl)

/-- The state in which a failed test is noted, before its fence. -/
def testFailed (s : State) (n : Nat) : State :=
  let u := record { s with selfTest := { s.selfTest with fail := setBits s.selfTest.fail n 1 1 } }
    { coreRec 0x56 n (n + flag s.selfTest.kind * 2 ^ 8) with fence := !isFenced s n }
  if u.selfTest.kind then modCore u n (fun c => { c with storeCause := true }) else u

theorem failTest_eq (s : State) (n : Nat) : failTest s n =
    if pairActive (testFailed s n) (quadOf n) && (getQuad (testFailed s n) (quadOf n)).testPair &&
        pairFenced (testFailed s n) (quadOf n) == n then
      let t := modQuad (testFailed s n) (quadOf n) (fun x => { x with testPair := false })
      if isFenced t n then t
      else record (noteW1c { t with fence := setBits t.fence n 1 1 } (0x100 + 8 * (n / 64)) (n % 64)) (coreRec 0x16 n 1)
    else fenceFor (testFailed s n) n 1 (testFailed s n).selfTest.kind := rfl

theorem testFailed_spec {n : Nat} (hn : n < 192) (s : State) : bit (testFailed s n).selfTest.fail n = true ∧
    (s.selfTest.kind = true → (getCore (testFailed s n) n).storeCause = true) ∧
    FailKept n { s with selfTest := { s.selfTest with fail := setBits s.selfTest.fail n 1 1 } } (testFailed s n) := by
  unfold testFailed
  dsimp only
  generalize hu : ({ s with selfTest := { s.selfTest with fail := setBits s.selfTest.fail n 1 1 } } : State) = u
  generalize ({ coreRec 0x56 n (n + flag s.selfTest.kind * 2 ^ 8) with fence := !isFenced s n } : RecIn) = r
  have hrec : FailKept n u (record u r) := .record n u r
  have hself : (record u r).selfTest = u.selfTest := by rw [record_frame_eq]
  have hkind : u.selfTest.kind = s.selfTest.kind := by rw [← hu]
  have hfail : bit u.selfTest.fail n = true := by
    rw [← hu]
    exact (bit_set _ hn n).trans (by simp)
  generalize record u r = v at *
  rw [hself, hkind]
  cases hk : s.selfTest.kind
  · rw [if_neg Bool.false_ne_true]
    exact ⟨by rw [hself]; exact hfail, fun h => Bool.noConfusion h, hrec⟩
  · rw [if_pos rfl]
    refine ⟨?_, fun _ => by rw [getCore_modCore_same], hrec.trans (.modCore (fun _ => rfl))⟩
    show bit v.selfTest.fail n = true
    rw [hself]
    exact hfail

theorem failTest_spec {n : Nat} (hn : n < 192) (s : State) : bit (failTest s n).selfTest.fail n = true ∧
    isFenced (failTest s n) n = true ∧ (s.selfTest.kind = true → (getCore (failTest s n) n).storeCause = true) ∧
    FailKept n { s with selfTest := { s.selfTest with fail := setBits s.selfTest.fail n 1 1 } } (failTest s n) := by
  obtain ⟨hfail, hcause, hkept⟩ := testFailed_spec hn s
  rw [failTest_eq]
  generalize testFailed s n = u at *
  suffices h : ∀ t, FailKept n u t → isFenced t n = true → bit t.selfTest.fail n = true ∧ isFenced t n = true ∧
      (s.selfTest.kind = true → (getCore t n).storeCause = true) ∧
      FailKept n { s with selfTest := { s.selfTest with fail := setBits s.selfTest.fail n 1 1 } } t by
    split
    · dsimp only
      split
      · next hf => exact h _ (.of_same rfl rfl rfl rfl rfl) hf
      · have hset : isFenced { modQuad u (quadOf n) (fun x => { x with testPair := false }) with
            fence := setBits u.fence n 1 1 } n = true := (bit_set _ hn n).trans (by simp)
        generalize hw : noteW1c { modQuad u (quadOf n) (fun x => { x with testPair := false }) with
          fence := setBits (modQuad u (quadOf n) (fun x => { x with testPair := false })).fence n 1 1 }
          (0x100 + 8 * (n / 64)) (n % 64) = w
        have hkept' : FailKept n u w := by
          rw [← hw]
          exact ⟨id, fun _ _ => rfl, id, fun _ q h => ⟨q, h, rfl, rfl⟩, rfl, fun _ => hset⟩
        have hset' : isFenced w n = true := by
          rw [← hw]
          exact hset
        exact h _ (hkept'.trans (.record ..)) ((FailKept.record n w _).fenced hset')
    · refine h _ (.fenceFor hn ..) ?_
      exact ((fenceFor_fence u hn 1 _).1 n).trans (by simp)
  intro t ht hf
  exact ⟨by rw [ht.fail]; exact hfail, hf, fun hk => ht.cause (hcause hk), hkept.trans ht⟩

/-- The state in which a test has ended, before its outcome. -/
def testEnded (s : State) (n : Nat) (p : Part) : State :=
  let u := modPart { s with selfTest := { s.selfTest with started := terase s.selfTest.started n } } p.low
    (fun x => { x with testing := x.testing.filter (fun k => k != n) })
  if s.selfTest.kind then modCore u n wipeCore else u

theorem selftestCoreDone_early {n : Fin 192} (pass : Bool) {s : State}
    (h : tget 0 s.selfTest.started n.val = 0 ∨ s.pll + 1 < tget 0 s.selfTest.started n.val + testTime s) :
    exec (.selftestCoreDone n pass) s = .next s := if_pos h

theorem selftestCoreDone_ends {n : Fin 192} (pass : Bool) {s : State} {p : Part} (hp : corePart s n.val = some p)
    (h0 : tget 0 s.selfTest.started n.val ≠ 0) (hdue : tget 0 s.selfTest.started n.val + testTime s ≤ s.pll + 1) :
    exec (.selftestCoreDone n pass) s =
      .next (settleTests (if pass then testEnded s n.val p else failTest (testEnded s n.val p) n.val)) := by
  have hpart : corePart { s with selfTest := { s.selfTest with started := terase s.selfTest.started n.val } } n.val =
      some p := hp
  show execSelftestCoreDone n pass s = _
  unfold execSelftestCoreDone
  dsimp only
  rw [if_neg (by omega), hpart]
  rfl

theorem testEnded_spec {s : State} {p : Part} (hat : partAt s p.low = some p) (n : Nat) :
    let u := testEnded s n p
    tget 0 u.selfTest.started n = 0 ∧ (∀ m, m ≠ n → getCore u m = getCore s m) ∧
      partAt u p.low = some { p with testing := p.testing.filter (fun k => k != n) } ∧
      (∀ m, m ≠ n → tget 0 u.selfTest.started m = tget 0 s.selfTest.started m) ∧ u.selfTest.left = s.selfTest.left ∧
      getCore u n = (if s.selfTest.kind = true then wipeCore (getCore s n) else getCore s n) ∧
      u.selfTest.fail = s.selfTest.fail ∧ u.fence = s.fence ∧ u.selfTest.kind = s.selfTest.kind := by
  unfold testEnded
  dsimp only
  generalize hv : modPart { s with selfTest := { s.selfTest with started := terase s.selfTest.started n } } p.low
    (fun x => { x with testing := x.testing.filter (fun k => k != n) }) = v
  have hcores : ∀ m, getCore v m = getCore s m := fun m => by
    rw [← hv]
    rfl
  have hparts : partAt v p.low = some { p with testing := p.testing.filter (fun k => k != n) } := by
    rw [← hv]
    exact partAt_modPart (s := { s with selfTest := { s.selfTest with started := terase s.selfTest.started n } }) hat
      (fun _ => rfl)
  have hself : v.selfTest = { s.selfTest with started := terase s.selfTest.started n } ∧ v.fence = s.fence := by
    rw [← hv]
    exact ⟨rfl, rfl⟩
  obtain ⟨hself, hfence⟩ := hself
  have hstart : tget 0 v.selfTest.started n = 0 ∧
      ∀ m, m ≠ n → tget 0 v.selfTest.started m = tget 0 s.selfTest.started m := by
    rw [hself]
    exact ⟨tget_terase_same .., fun m hm => tget_terase_other _ _ hm⟩
  cases hk : s.selfTest.kind
  · rw [if_neg Bool.false_ne_true, if_neg Bool.false_ne_true]
    exact ⟨hstart.1, fun m _ => hcores m, hparts, hstart.2, by rw [hself], hcores n, by rw [hself], hfence, by rw [hself, hk]⟩
  · rw [if_pos rfl, if_pos rfl]
    refine ⟨hstart.1, fun m hm => ((getCore_modCore ..).trans (if_neg hm)).trans (hcores m), hparts, hstart.2, ?_, ?_, ?_,
      hfence, ?_⟩
    · show v.selfTest.left = _
      rw [hself]
    · rw [getCore_modCore_same, hcores]
    · show v.selfTest.fail = _
      rw [hself]
    · show v.selfTest.kind = _
      rw [hself, hk]

theorem selftestCoreDone_spec {n : Fin 192} (pass : Bool) {s : State} {p : Part} (hp : corePart s n.val = some p)
    (hat : partAt s p.low = some p) (h0 : tget 0 s.selfTest.started n.val ≠ 0)
    (hdue : tget 0 s.selfTest.started n.val + testTime s ≤ s.pll + 1) :
    ∃ t q, exec (.selftestCoreDone n pass) s = .next t ∧
      tget 0 t.selfTest.started n.val = 0 ∧ (∀ m, m ≠ n.val → getCore t m = getCore s m) ∧
      partAt t p.low = some q ∧ n.val ∉ q.testing ∧ q.map = p.map ∧
      (pass = true → (∀ m, m ≠ n.val → tget 0 t.selfTest.started m = tget 0 s.selfTest.started m) ∧
        t.selfTest.left = s.selfTest.left ∧ getCore t n.val = (if s.selfTest.kind = true then wipeCore (getCore s n.val)
        else getCore s n.val) ∧ t.selfTest.fail = s.selfTest.fail ∧ t.fence = s.fence) ∧
      (pass = false → bit t.selfTest.fail n.val = true ∧ isFenced t n.val = true ∧
        (s.selfTest.kind = true → (getCore t n.val).storeCause = true)) := by
  have hexec := selftestCoreDone_ends pass hp h0 hdue
  obtain ⟨hstart, hothers, hpart, hstarted, hleft, hcore, hfail, hfence, hkind⟩ := testEnded_spec hat n.val
  generalize testEnded s n.val p = u at *
  have hnot : n.val ∉ ({ p with testing := p.testing.filter (fun k => k != n.val) } : Part).testing := fun h => by
    have hne := (List.mem_filter.mp h).2
    simp at hne
  cases pass with
  | true =>
    rw [if_pos rfl] at hexec
    have hkept := FailKept.settleTests n.val u
    have hself : (settleTests u).selfTest.started = u.selfTest.started ∧ (settleTests u).selfTest.left = u.selfTest.left ∧
        (settleTests u).cores = u.cores ∧ (settleTests u).fence = u.fence ∧ (settleTests u).parts = u.parts := by
      rw [settleTests_frame]
      exact ⟨rfl, rfl, rfl, rfl, rfl⟩
    obtain ⟨hst, hlf, hcs, hfn, hps⟩ := hself
    refine ⟨_, _, hexec, hkept.started hstart, fun m hm => (hkept.others m hm).trans (hothers m hm), ?_, hnot, rfl,
      fun _ => ⟨fun m hm => ?_, hlf.trans hleft, (getCore_of_cores hcs _).trans hcore, hkept.fail.trans hfail,
        hfn.trans hfence⟩, fun h => Bool.noConfusion h⟩
    · rw [partAt, hps]
      exact hpart
    · rw [hst]
      exact hstarted m hm
  | false =>
    rw [if_neg Bool.false_ne_true] at hexec
    obtain ⟨hbit, hset, hcause, hkept⟩ := failTest_spec n.isLt u
    have hsettle := FailKept.settleTests n.val (failTest u n.val)
    have hall := hkept.trans hsettle
    obtain ⟨x, hx, htest, hmap⟩ := hall.parts p.low _ hpart
    refine ⟨_, x, hexec, hall.started hstart, fun m hm => (hall.others m hm).trans (hothers m hm), hx, ?_, hmap,
      fun h => Bool.noConfusion h, fun _ => ⟨?_, hsettle.fenced hset, fun hk => hsettle.cause (hcause (hkind.trans hk))⟩⟩
    · rw [htest]
      exact hnot
    · rw [hsettle.fail]
      exact hbit

end Sys2Proof.Machine
end

section
/-! Calibrations, the host path of the selvedge and ADMIT (R598, R622, R676), and the obligation on fences, tests and runs. -/

namespace Sys2Proof.Machine

/-! ### Calibration (R676) -/

theorem calGo_gives (v : Word) (s : State) :
    let x := { s.selfTest with calKind := bit v 0, calPort := BitVec.ofNat 3 (bits v 1 3) }
    (bit v 4 = true → s.selfTest.calBusy = false → exec (.calGo v) s = .next { s with
      selfTest := { x with calBusy := true, calWave := 0, calTill := s.pll, calRun := some (bit v 0, bits v 1 3, s.pll) } }) ∧
    (bit v 4 = false ∨ s.selfTest.calBusy = true → exec (.calGo v) s = .next { s with selfTest := x }) := by
  intro x
  have hexec : exec (.calGo v) s = .next (if bit v 4 && !s.selfTest.calBusy then { s with
      selfTest := { x with calBusy := true, calWave := 0, calTill := s.pll, calRun := some (bit v 0, bits v 1 3, s.pll) } }
      else { s with selfTest := x }) := rfl
  refine ⟨fun h4 hb => ?_, fun h => ?_⟩
  · rw [hexec, h4, hb]
    rfl
  · rw [hexec, if_neg]
    rcases h with h | h <;> simp [h]

/-- A wavelength that a sweep still comes to. -/
def waveAhead (s : State) (port m : Nat) : Prop :=
  s.selfTest.calWave ≤ m ∧ m < fabricN s ∧ (getPort s port).lit = true

theorem nextWave_first {s : State} {port m : Nat} (h : waveAhead s port m) (hfirst : ∀ j, j < m → ¬ waveAhead s port j) :
    nextWave s port s.selfTest.calWave = some m := by
  obtain ⟨hle, hlt, hlit⟩ := h
  unfold nextWave
  rw [if_pos hlit, List.find?_range_eq_some]
  refine ⟨decide_eq_true hle, List.mem_range.mpr hlt, fun j hj => ?_⟩
  simpa using fun hwave : s.selfTest.calWave ≤ j => hfirst j hj ⟨hwave, by omega, hlit⟩

theorem nextWave_none {s : State} {port : Nat} :
    (nextWave s port s.selfTest.calWave).isNone = true ↔ ¬ ∃ m, waveAhead s port m := by
  unfold nextWave waveAhead
  split
  · next hlit =>
    rw [Option.isNone_iff_eq_none, List.find?_eq_none]
    simp only [List.mem_range, decide_eq_true_eq, not_exists, not_and]
    exact ⟨fun h m hle hlt _ => h m hlt hle, fun h m hlt hle => h m hle hlt hlit⟩
  · next hdark => simp [hdark]

theorem calOver_iff {s : State} {kind : Bool} {port at_ : Nat} (h : s.selfTest.calRun = some (kind, port, at_)) :
    calOver s = true ↔ ¬ (if kind = true then s.pll < at_ + us 100
      else sweepsHeld s = true ∨ s.pll < s.selfTest.calTill ∨ ∃ m, waveAhead s port m) := by
  unfold calOver
  rw [h]
  cases kind with
  | true => simp
  | false =>
    dsimp only
    rw [Bool.and_eq_true, Bool.and_eq_true, nextWave_none, if_neg Bool.false_ne_true, not_or, not_or, Bool.not_eq_true',
      Bool.not_eq_true, decide_eq_true_eq, Nat.not_lt, and_assoc]

/-- A channel whose transmission is held to a time. -/
def heldTill (till : Nat) (c : Chan) : Chan := { c with holdTill := max c.holdTill till }

/-- The next wavelength of a sweep: its channel is held for at most 50 microseconds from a flit boundary. -/
theorem sweepOn_next {s : State} {port at_ m : Nat} (h : s.selfTest.calRun = some (false, port, at_))
    (hm : waveAhead s port m) (hfirst : ∀ j, j < m → ¬ waveAhead s port j) (hfree : sweepsHeld s = false)
    (hdue : s.selfTest.calTill ≤ s.pll) :
    let t := sweepOn s
    let from_ := flitBoundary s (getChan s port m)
    t.selfTest.calWave = m + 1 ∧ from_ ≤ t.selfTest.calTill ∧ t.selfTest.calTill ≤ from_ + us 50 ∧
      (getChan t port m).holdTill = max (getChan s port m).holdTill t.selfTest.calTill ∧
      ∀ k j, (k, j) ≠ (port, m) → getChan t k j = getChan s k j := by
  intro t from_
  have hgo : ¬ (sweepsHeld s || decide (s.pll < s.selfTest.calTill)) = true := by simp [hfree, hdue]
  have ht : t = { modChan s port m (heldTill (from_ + min (us 50) (Config.sweepHold s.pll))) with
      selfTest := { s.selfTest with calWave := m + 1, calTill := from_ + min (us 50) (Config.sweepHold s.pll) } } := by
    unfold t sweepOn
    rw [h]
    dsimp only
    rw [if_neg hgo, nextWave_first hm hfirst]
    rfl
  clear_value t
  subst ht
  refine ⟨rfl, Nat.le_add_right .., Nat.add_le_add_left (Nat.min_le_left ..) _, ?_, fun k j hne => ?_⟩
  · exact congrArg Chan.holdTill
      (getChan_modChan_same s port m (heldTill (from_ + min (us 50) (Config.sweepHold s.pll))))
  · refine (getChan_modChan s port m k j (heldTill (from_ + min (us 50) (Config.sweepHold s.pll)))).trans (if_neg ?_)
    rintro ⟨rfl, rfl⟩
    exact hne rfl

theorem calComplete_waits {s : State} {kind : Bool} {port at_ : Nat} (h : s.selfTest.calRun = some (kind, port, at_))
    (hwait : ¬ calOver s = true) : exec .calComplete s = .next s := by
  show execCalComplete s = _
  unfold execCalComplete
  rw [h]
  dsimp only
  rw [if_pos (by simpa using hwait)]

theorem calComplete_ends {s : State} {kind : Bool} {port at_ : Nat} (h : s.selfTest.calRun = some (kind, port, at_))
    (hover : calOver s = true) : ∃ t, exec .calComplete s = .next t ∧
      t.selfTest = { s.selfTest with calBusy := false, calRun := none } ∧
      recorded s t { kind := 0x58, detail := flag kind + port * 2 } ∧ t.cores = s.cores ∧ t.ports = s.ports := by
  have hexec : exec .calComplete s = .next (raiseVector (record { s with
      selfTest := { s.selfTest with calBusy := false, calRun := none } }
      { kind := 0x58, detail := flag kind + port * 2 }) 36) := by
    show execCalComplete s = _
    unfold execCalComplete
    rw [h]
    dsimp only
    rw [hover, if_neg (by decide)]
  have hrec := recorded_after (s := s) (u := { s with selfTest := { s.selfTest with calBusy := false, calRun := none } })
    { kind := 0x58, detail := flag kind + port * 2 } rfl rfl
  have hframe := record_frame_eq { s with selfTest := { s.selfTest with calBusy := false, calRun := none } }
    { kind := 0x58, detail := flag kind + port * 2 }
  refine ⟨_, hexec, ?_⟩
  rw [raiseVector_frame]
  generalize record _ _ = t at *
  exact ⟨by rw [hframe], recorded_congr hrec rfl rfl rfl rfl, by rw [hframe], by rw [hframe]⟩

/-! ### The host path of the selvedge (R598) -/

theorem selvGo_gives (s : State) : (s.hostSelv.busy = true → exec .cellarSelvGo s = .next s) ∧
    (s.hostSelv.busy = false →
      let x := s.hostSelv
      let run := some (x.cfg, x.poly, x.init, x.addr, x.len, x.expect)
      exec .cellarSelvGo s = .next { s with hostSelv := { x with busy := true, began := s.pll, run := run } }) := by
  have hexec : exec .cellarSelvGo s = .next (selvGo s) := rfl
  refine ⟨fun h => ?_, fun h => ?_⟩
  · exact hexec.trans (congrArg _ (if_pos h))
  · exact hexec.trans (congrArg _ (if_neg (Bool.eq_false_iff.mp h)))

section Run
variable {s : State} {cfg : Word} {poly init addr len expect : Dword}
  (h : s.hostSelv.run = some (cfg, poly, init, addr, len, expect))
include h

/-- A range that leaves its tier reads nothing. -/
theorem hostSelv_range (ecc : MemEcc)
    (hout : tierBytes s (tierCode (tierOf (bits addr 42 2))) < bits addr 0 42 + bits len 0 42) :
    ∃ t, exec (.hostSelvRunComplete ecc) s = .next t ∧
      (t.hostSelv.busy = false ∧ t.hostSelv.run = none ∧ t.hostSelv.done = true ∧ t.lpddr = s.lpddr ∧ t.cores = s.cores) ∧
      t.hostSelv.range = true ∧ t.hostSelv.mismatch = false ∧ t.hostSelv.result = s.hostSelv.result ∧
      recorded s t { kind := 0x65, detail := s.hostSelv.result.toNat } := by
  have hexec : exec (.hostSelvRunComplete ecc) s = .next (selvRange s) := by
    show execHostSelvRunComplete ecc s = _
    unfold execHostSelvRunComplete
    rw [h]
    exact if_pos hout
  refine ⟨_, hexec, ?_⟩
  unfold selvRange
  dsimp only
  generalize hu : noteW1c { s with hostSelv := { s.hostSelv with
    busy := false, run := none, done := true, range := true, mismatch := false } } 0x204 3 = u
  have hself : u.hostSelv = { s.hostSelv with busy := false, run := none, done := true, range := true, mismatch := false } ∧
      u.errors = s.errors ∧ u.hbm = s.hbm ∧ u.lpddr = s.lpddr ∧ u.cores = s.cores := by
    rw [← hu]
    exact ⟨rfl, rfl, rfl, rfl, rfl⟩
  obtain ⟨hself, herr, hhbm, hlp, hcores⟩ := hself
  have hresult : u.hostSelv.result = s.hostSelv.result := by rw [hself]
  have hrec := recorded_after (s := s) { kind := 0x65, detail := u.hostSelv.result.toNat } herr hhbm
  have hframe := record_frame_eq u { kind := 0x65, detail := u.hostSelv.result.toNat }
  have hst : (record u { kind := 0x65, detail := u.hostSelv.result.toNat }).hostSelv = u.hostSelv ∧
      (record u { kind := 0x65, detail := u.hostSelv.result.toNat }).lpddr = u.lpddr ∧
      (record u { kind := 0x65, detail := u.hostSelv.result.toNat }).cores = u.cores := by
    rw [hframe]
    exact ⟨rfl, rfl, rfl⟩
  obtain ⟨hst, hlp', hcores'⟩ := hst
  generalize record u { kind := 0x65, detail := u.hostSelv.result.toNat } = t at *
  rw [hresult] at hrec
  rw [hst, hself]
  exact ⟨⟨rfl, rfl, rfl, hlp'.trans hlp, hcores'.trans hcores⟩, rfl, rfl, rfl, hrec⟩

theorem hostSelv_early (ecc : MemEcc)
    (hin : bits addr 0 42 + bits len 0 42 ≤ tierBytes s (tierCode (tierOf (bits addr 42 2))))
    (hearly : s.pll < s.hostSelv.began + 24 * ceilDiv (bits len 0 42) 64) :
    exec (.hostSelvRunComplete ecc) s = .next s := by
  show execHostSelvRunComplete ecc s = _
  unfold execHostSelvRunComplete
  rw [h]
  dsimp only
  rw [if_neg (Nat.not_lt.mpr hin), if_pos hearly]

/-- The CRC that a run over sound units gives. -/
theorem hostSelv_ends (hin : bits addr 0 42 + bits len 0 42 ≤ tierBytes s (tierCode (tierOf (bits addr 42 2))))
    (hdue : s.hostSelv.began + 24 * ceilDiv (bits len 0 42) 64 ≤ s.pll)
    (hsound : ∀ u ∈ rangeUnits (bits addr 0 42) (bits len 0 42), isPoisoned s (tierOf (bits addr 42 2)) u = false) {r : Nat}
    (hr : r = crcResult (bits cfg 0 7) (poly.toNat % 2 ^ bits cfg 0 7) init.toNat (bit cfg 7) (bit cfg 8) (bit cfg 9)
      (readBytes (tierMem s (tierOf (bits addr 42 2))) (bits addr 0 42) (bits len 0 42))) :
    ∃ t, exec (.hostSelvRunComplete MemEcc.clean) s = .next t ∧
      (t.hostSelv.busy = false ∧ t.hostSelv.run = none ∧ t.hostSelv.done = true ∧ t.lpddr = s.lpddr ∧ t.cores = s.cores) ∧
      t.hostSelv.range = false ∧ t.hostSelv.result = BitVec.ofNat 64 r ∧
      (t.hostSelv.mismatch = true ↔ r ≠ expect.toNat % 2 ^ bits cfg 0 7) ∧
      (r ≠ expect.toNat % 2 ^ bits cfg 0 7 → recorded s t { kind := 0x65, detail := r }) ∧
      (¬ r ≠ expect.toNat % 2 ^ bits cfg 0 7 → t.errors = s.errors ∧ t.hbm = s.hbm) := by
  have hexec : exec (.hostSelvRunComplete MemEcc.clean) s = .next
      (if r != expect.toNat % 2 ^ bits cfg 0 7 then record (noteW1c { s with hostSelv := { s.hostSelv with
          busy := false, run := none, done := true, range := false, mismatch := r != expect.toNat % 2 ^ bits cfg 0 7
          result := BitVec.ofNat 64 r } } 0x204 3) { kind := 0x65, detail := r }
      else noteW1c { s with hostSelv := { s.hostSelv with
          busy := false, run := none, done := true, range := false, mismatch := r != expect.toNat % 2 ^ bits cfg 0 7
          result := BitVec.ofNat 64 r } } 0x204 3) := by
    have hread := eccRead_clean s (tierOf (bits addr 42 2)) 0 hsound
    show execHostSelvRunComplete MemEcc.clean s = _
    unfold execHostSelvRunComplete
    rw [h]
    dsimp only
    rw [if_neg (Nat.not_lt.mpr hin), if_neg (Nat.not_lt.mpr hdue)]
    unfold selvEnd
    dsimp only
    rw [hread, ← hr]
  generalize hu : noteW1c { s with hostSelv := { s.hostSelv with
      busy := false, run := none, done := true, range := false, mismatch := r != expect.toNat % 2 ^ bits cfg 0 7
      result := BitVec.ofNat 64 r } } 0x204 3 = u at hexec
  have hself : u.hostSelv = { s.hostSelv with
      busy := false, run := none, done := true, range := false, mismatch := r != expect.toNat % 2 ^ bits cfg 0 7
      result := BitVec.ofNat 64 r } ∧ u.errors = s.errors ∧ u.hbm = s.hbm ∧ u.lpddr = s.lpddr ∧ u.cores = s.cores := by
    rw [← hu]
    exact ⟨rfl, rfl, rfl, rfl, rfl⟩
  obtain ⟨hself, herr, hhbm, hlp, hcores⟩ := hself
  by_cases hbad : r = expect.toNat % 2 ^ bits cfg 0 7
  · rw [if_neg (by simpa using hbad)] at hexec
    refine ⟨_, hexec, ?_⟩
    rw [hself]
    exact ⟨⟨rfl, rfl, rfl, hlp, hcores⟩, rfl, rfl, bne_iff_ne, fun hne => absurd hbad hne, fun _ => ⟨herr, hhbm⟩⟩
  · rw [if_pos (bne_iff_ne.mpr hbad)] at hexec
    have hrec := recorded_after (s := s) { kind := 0x65, detail := r } herr hhbm
    have hst : (record u { kind := 0x65, detail := r }).hostSelv = u.hostSelv ∧
        (record u { kind := 0x65, detail := r }).lpddr = u.lpddr ∧ (record u { kind := 0x65, detail := r }).cores = u.cores := by
      rw [record_frame_eq]
      exact ⟨rfl, rfl, rfl⟩
    obtain ⟨hst, hlp', hcores'⟩ := hst
    refine ⟨_, hexec, ?_⟩
    rw [hst, hself]
    exact ⟨⟨rfl, rfl, rfl, hlp'.trans hlp, hcores'.trans hcores⟩, rfl, rfl, bne_iff_ne, fun _ => hrec,
      fun hno => absurd hbad hno⟩

end Run

/-! ### ADMIT (R622) -/

theorem admit_readmits {s : State} (h : s.boot.service = 2) : ∃ t, exec .admitDevice s = .next t ∧
    t.boot = { s.boot with service := 1 } ∧ t.flash = { s.flash with withdrawn := false } ∧ recorded s t { kind := 0x34 } := by
  have hexec : exec .admitDevice s = .next (record { s with
      flash := { s.flash with withdrawn := false }, boot := { s.boot with service := 1 } } { kind := 0x34 }) := by
    show Host.Outcome.next (admitWrite s) = _
    unfold admitWrite
    rw [if_pos h]
  refine ⟨_, hexec, ?_, ?_, recorded_after _ rfl rfl⟩
  all_goals rw [record_frame_eq]

theorem admit_ignored {s : State} (h : s.boot.service ≠ 2) : exec .admitDevice s = .next s := by
  show Host.Outcome.next (admitWrite s) = _
  unfold admitWrite
  rw [if_neg h]

end Sys2Proof.Machine

namespace Sys2Proof

open Machine

/-- Settles O57: each fence, test, calibration and run starts and ends by its own rule and leaves the rest. -/
theorem fencesTestsAndRuns : Obligations.FencesTestsAndRuns := by
  unfold Obligations.FencesTestsAndRuns
  refine ⟨fenceClear_clears, fenceSet_sets, fun v s => ⟨bit_selected s, selftestGo_starts v s⟩,
    fun n s p hp hat => ⟨?_, fun ⟨hbusy, hleft⟩ hw hi => ⟨fun hmap => ?_, fun hmap hact hnext hoff hpartner => ?_⟩,
      selftestCoreStart_waits hp, fun pass => ⟨selftestCoreDone_early pass, selftestCoreDone_spec pass hp hat⟩⟩,
    fun v s => calGo_gives v s, fun s => ⟨fun h => ?_, fun kind port at_ h => ⟨fun m hk hm hfirst hfree hdue => ?_,
      fun hwait => calComplete_waits h (fun hover => (calOver_iff h).mp hover hwait),
      fun hgo => calComplete_ends h ((calOver_iff h).mpr hgo)⟩,
      (selvGo_gives s).1, (selvGo_gives s).2, fun cfg poly init addr len expect h => ⟨hostSelv_range h _, fun hin =>
        ⟨hostSelv_early h _ hin, fun hdue hsound => hostSelv_ends h hin hdue hsound rfl⟩⟩, admit_readmits, admit_ignored⟩⟩
  · rintro ⟨hbusy, hleft⟩ hw
    obtain ⟨hpart, hcores, hidle, hin, hout⟩ := startWindow_spec (low_mem_partQuads hp) hat
    exact ⟨_, _, selftestCoreStart_window hp hbusy hleft hw, hpart, rfl, (testWindow_empty hw : p.ctx = .empty), hcores, hidle, hin, hout⟩
  · have hexec := selftestCoreStart_intrudes hp hbusy hleft hw hi
    rw [startIntrusive_free hmap] at hexec
    exact ⟨_, hexec, ⟨(bit_clear ..).trans (by simp), tget_tset_same 0 s.selfTest.started n.val (s.pll + 1)⟩, rfl⟩
  · have hexec := selftestCoreStart_intrudes hp hbusy hleft hw hi
    rw [startIntrusive_pairs hmap hact hnext hoff hpartner] at hexec
    exact ⟨_, hexec, by rw [getQuad_modQuad_same], rfl⟩
  · show execCalComplete s = _
    unfold execCalComplete
    rw [h]
  · subst hk
    exact sweepOn_next h hm hfirst hfree hdue

end Sys2Proof
end

section
/-! Partition-wide registers and idle levels (R404, R438, R648 to R654). -/

namespace Sys2Proof.Machine

/-! ### Partition-wide registers (R404, R405, R438) -/

/-- What a write of a partition-wide register leaves. -/
def wideOnly (s t : State) (p : Part) (g : Quad → Quad → Prop) : Prop :=
  t = { s with quads := t.quads } ∧ (∀ r ∈ partQuads p, g (getQuad s r) (getQuad t r)) ∧
    ∀ r, r ∉ partQuads p → getQuad t r = getQuad s r

theorem wideOnly_modPartQuads (s : State) (p : Part) {f : Quad → Quad} {g : Quad → Quad → Prop} (h : ∀ x, g x (f x)) :
    wideOnly s (modPartQuads s p f) p g :=
  ⟨modPartQuads_frame .., fun r hr => by rw [getQuad_modPartQuads s p f hr]; exact h _,
    fun r hr => getQuad_modPartQuads_other s p f hr⟩

theorem bits_setBits_same {w : Nat} (x : BitVec w) {lo len v : Nat} (hw : lo + len ≤ w) (hv : v < 2 ^ len) :
    bits (setBits x lo len v) lo len = v := by
  refine Nat.eq_of_testBit_eq (fun i => ?_)
  by_cases hi : i < len
  · rw [← bit_of_bits _ lo len hi, bit_setBits x lo len v (by omega), if_pos (by omega), Nat.add_sub_cancel_left]
  · have hlt := bits_lt (setBits x lo len v) lo len
    rw [Nat.testBit_lt_two_pow (lt_of_lt_of_le hlt (Nat.pow_le_pow_right (by decide) (by omega))),
      Nat.testBit_lt_two_pow (lt_of_lt_of_le hv (Nat.pow_le_pow_right (by decide) (by omega)))]

theorem bits_setBits_apart {w : Nat} (x : BitVec w) {lo len lo' len' : Nat} (v : Nat) (hw : lo' + len' ≤ w)
    (h : lo + len ≤ lo' ∨ lo' + len' ≤ lo) : bits (setBits x lo len v) lo' len' = bits x lo' len' := by
  refine Nat.eq_of_testBit_eq (fun i => ?_)
  by_cases hi : i < len'
  · rw [← bit_of_bits _ lo' len' hi, ← bit_of_bits _ lo' len' hi, bit_setBits x lo len v (by omega), if_neg (by omega)]
  · have hlt := bits_lt (setBits x lo len v) lo' len'
    have hlt' := bits_lt x lo' len'
    have hpow : 2 ^ len' ≤ 2 ^ i := Nat.pow_le_pow_right (by decide) (by omega)
    rw [Nat.testBit_lt_two_pow (lt_of_lt_of_le hlt hpow), Nat.testBit_lt_two_pow (lt_of_lt_of_le hlt' hpow)]

section Wide
variable {q : Fin 8} {s : State} {p : Part} (hp : partOf s q.val = some p)
include hp

theorem genWrite_stores (v : Dword) (hctx : p.ctx ≠ .running) : ∃ t, exec (.quadMaskGenWrite q v) s = .next t ∧
    wideOnly s t p (fun x y => y = { x with maskGen := y.maskGen } ∧ bits y.maskGen 0 32 = bits v 0 32 ∧
      bits y.maskGen 32 32 = bits x.maskGen 32 32) := by
  have hexec : exec (.quadMaskGenWrite q v) s =
      .next (modPartQuads s p (fun x => { x with maskGen := setBits x.maskGen 0 32 (bits v 0 32) })) := by
    show Host.Outcome.next (genWrite s q.val v) = _
    unfold genWrite
    rw [hp]
    exact congrArg _ (if_neg hctx)
  exact ⟨_, hexec, wideOnly_modPartQuads s p (fun x => ⟨rfl, bits_setBits_same _ (by decide) (bits_lt ..),
    bits_setBits_apart _ _ (by decide) (.inl (by decide))⟩)⟩

theorem genWrite_waits (v : Dword) (hctx : p.ctx = .running) : ∃ t, exec (.quadMaskGenWrite q v) s = .next t ∧
    wideOnly s t p (fun x y => y = { x with genNext := some (bits v 0 32) }) := by
  have hexec : exec (.quadMaskGenWrite q v) s =
      .next (modPartQuads s p (fun x => { x with genNext := some (bits v 0 32) })) := by
    show Host.Outcome.next (genWrite s q.val v) = _
    unfold genWrite
    rw [hp]
    exact congrArg _ (if_pos hctx)
  exact ⟨_, hexec, wideOnly_modPartQuads s p (fun _ => rfl)⟩

theorem modeWrite_stores (v : Word) (hctx : p.ctx = .empty ∨ p.ctx = .loaded ∨ p.ctx = .stopped) :
    ∃ t, exec (.quadCtxModeWrite q v) s = .next t ∧ wideOnly s t p (fun x y => y = { x with ctxMode := y.ctxMode } ∧
      bit y.ctxMode 0 = bit v 0 ∧ ∀ i, i ≠ 0 → bit y.ctxMode i = bit x.ctxMode i) := by
  have hexec : exec (.quadCtxModeWrite q v) s =
      .next (modPartQuads s p (fun x => { x with ctxMode := setBits x.ctxMode 0 1 (bits v 0 1) })) := by
    show Host.Outcome.next (modeWrite s q.val v) = _
    unfold modeWrite
    rw [hp]
    exact congrArg _ (if_pos hctx)
  refine ⟨_, hexec, wideOnly_modPartQuads s p (fun x => ⟨rfl, ?_, fun i hi => bit_setBits_apart _ _ hi⟩)⟩
  rw [bit_setBits _ 0 1 _ (by decide), if_pos (by decide)]
  exact (bit_of_bits v 0 1 (i := 0) (by decide)).symm

theorem modeWrite_ignored (v : Word) (hctx : p.ctx = .running ∨ p.ctx = .faulted) :
    exec (.quadCtxModeWrite q v) s = .next s := by
  show Host.Outcome.next (modeWrite s q.val v) = _
  unfold modeWrite
  rw [hp]
  refine congrArg _ (if_neg ?_)
  rcases hctx with h | h <;> simp [h]

end Wide

/-! ### The choice (R650, R651) -/

theorem fittingLevel_le (room m : Nat) : fittingLevel room m ≤ m := by
  unfold fittingLevel
  suffices hfold : ∀ (ls : List Nat) (a : Nat), a ≤ m → (∀ l ∈ ls, l ≤ m) →
      ls.foldl (fun a l => if us (entryUs l + exitUs l) ≤ room then l else a) a ≤ m from
    hfold _ 0 (Nat.zero_le m) (fun l hl => Nat.le_of_lt_succ (List.mem_range.mp hl))
  intro ls
  induction ls with
  | nil => exact fun a ha _ => ha
  | cons l ls ih =>
    intro a ha hls
    refine ih _ ?_ (fun k hk => hls k (List.mem_cons_of_mem l hk))
    dsimp only
    split
    · exact hls l List.mem_cons_self
    · exact ha

theorem idleChoice_le (s : State) (p : Part) : idleChoice s p ≤ s.power.maxLevel := by
  unfold idleChoice
  split
  · split
    · exact Nat.min_le_right ..
    · exact fittingLevel_le ..
  · exact Nat.zero_le _

theorem idleLevel_le (s : State) (p : Part) : idleLevel s p ≤ idleChoice s p ∧ idleLevel s p ≤ 4 := by
  unfold idleLevel
  dsimp only
  split
  · next h => omega
  · split
    · split <;> omega
    · omega

/-- A level above 0 is taken by an eligible partition, up to the maximum. -/
theorem idleLevel_legal {s : State} {p : Part} (h : idleLevel s p ≠ 0) :
    idleEligible s p = true ∧ idleLevel s p ≤ s.power.maxLevel := by
  obtain ⟨hle, -⟩ := idleLevel_le s p
  refine ⟨?_, hle.trans (idleChoice_le s p)⟩
  by_contra hno
  have hzero : idleChoice s p = 0 := if_neg hno
  omega

/-! ### Levels taken (R650, R654) -/

/-- What a change of ports alone leaves. -/
def portsOnly (s t : State) : Prop := t = { s with ports := t.ports }

theorem portsOnly_trans {s t u : State} (h : portsOnly s t) (k : portsOnly t u) : portsOnly s u := by
  unfold portsOnly at *
  rw [k, h]

theorem portsOnly_settleQuiesce (s : State) (k : Nat) : portsOnly s (settleQuiesce s k) := by
  unfold settleQuiesce
  dsimp only
  split <;> rfl

theorem portsOnly_foldl {α : Type} {f : State → α → State} (hf : ∀ s x, portsOnly s (f s x)) (xs : List α) (s : State) :
    portsOnly s (xs.foldl f s) := by
  induction xs generalizing s with
  | nil => rfl
  | cons x xs ih => exact portsOnly_trans (hf s x) (ih (f s x))

theorem portsOnly_quiescePort (s : State) (k : Nat) : portsOnly s (quiescePort s k) := by
  unfold quiescePort
  dsimp only
  split
  · have hsent := portsOnly_foldl (f := fun s m => sendFrame s k m quiesceFrame) (fun _ _ => rfl)
      (((getPort s k).chans.filter (fun x => x.2.state == .up && x.1 != ownIndex s)).map (fun x => x.1)) s
    refine portsOnly_trans (portsOnly_trans hsent ?_) (portsOnly_settleQuiesce ..)
    rfl
  · rfl

theorem portsOnly_quiescePorts (s : State) : portsOnly s (quiescePorts s) := portsOnly_foldl portsOnly_quiescePort _ s

theorem setIdle_frame (s : State) (ps : List Part) (l : Nat) :
    setIdle s ps l = { s with quads := (setIdle s ps l).quads } :=
  foldl_modPartQuads_frame (fun _ q => { q with idle := l }) ps s

theorem setIdle_reached {ps : List Part} {x : Part} (hx : x ∈ ps) (s : State) (l : Nat) {r : Nat} (hr : r ∈ partQuads x) :
    (getQuad (setIdle s ps l) r).idle = l := by
  unfold setIdle
  induction ps generalizing s with
  | nil => exact absurd hx List.not_mem_nil
  | cons y ps ih =>
    rw [List.foldl_cons]
    by_cases hin : x ∈ ps
    · exact ih hin _
    · obtain rfl : x = y := (List.mem_cons.mp hx).resolve_right hin
      refine foldl_modPartQuads_keeps (P := fun q => q.idle = l) (g := fun _ q => { q with idle := l }) (fun _ _ _ => rfl) ps ?_
      rw [getQuad_modPartQuads s x _ hr]

theorem setIdle_apart {ps : List Part} {r : Nat} (hr : ∀ x ∈ ps, r ∉ partQuads x) (s : State) (l : Nat) :
    getQuad (setIdle s ps l) r = getQuad s r := by
  unfold setIdle
  induction ps generalizing s with
  | nil => rfl
  | cons y ps ih =>
    rw [List.foldl_cons, ih (fun x hx => hr x (List.mem_cons_of_mem y hx))]
    exact getQuad_modPartQuads_other s y _ (hr y List.mem_cons_self)

theorem drawBytes_length (d n : Nat) : (drawBytes d n).length = n := by
  induction n generalizing d with
  | zero => rfl
  | succ n ih => rw [drawBytes, List.length_cons, ih]

/-- Each piece of bytes written from an address lies among them. -/
theorem unitPokes_within {addr : Nat} {bs : List Byte} {x : Poke} (h : x ∈ unitPokes addr bs) :
    addr ≤ x.1 / 8 ∧ (x.1 + x.2.1 + 7) / 8 ≤ addr + bs.length := by
  obtain ⟨y, hy, hx⟩ := List.mem_filterMap.mp h
  obtain ⟨k, -, rfl⟩ := List.mem_map.mp hy
  by_cases he : ((bs.drop (64 * k)).take 64).isEmpty = true
  · simp [he] at hx
  · have hlen : 0 < ((bs.drop (64 * k)).take 64).length := by
      rw [List.isEmpty_iff, ← List.length_eq_zero_iff] at he
      omega
    dsimp only at hx
    rw [if_neg he] at hx
    obtain rfl := Option.some.inj hx
    dsimp only
    rw [List.length_take, List.length_drop] at *
    omega

/-- Bytes written to HBM3E from an address on. -/
theorem writeMemBytes_spec (s : State) (addr : Nat) (bs : List Byte) : let t := writeMemBytes s .hbm addr bs
    t = { s with hbm := t.hbm, poisonHbm := t.poisonHbm, poisonFound := t.poisonFound } ∧
      ∀ b : Nat, b < addr ∨ addr + bs.length ≤ b → tget 0 t.hbm b = tget 0 s.hbm b := by
  refine ⟨rfl, fun b hb => tget_pokeAll_outside (fun x hx => ?_) s.hbm⟩
  have hin := unitPokes_within hx
  omega

/-- Saving a die writes free bytes to its area. -/
theorem saveDie_spec (s : State) (d : Nat) : let t := saveDie s d
    t = { s with hbm := t.hbm, poisonHbm := t.poisonHbm, poisonFound := t.poisonFound, draws := t.draws } ∧
      ∀ b : Nat, b < saveArea s d ∨ saveArea s d + saveLen ≤ b → tget 0 t.hbm b = tget 0 s.hbm b := by
  have hlen : (drawBytes s.draws saveLen).length = saveLen := drawBytes_length ..
  obtain ⟨hframe, hbytes⟩ := writeMemBytes_spec s (saveArea s d) (drawBytes s.draws saveLen)
  unfold saveDie
  rw [hlen] at hbytes
  generalize writeMemBytes s .hbm (saveArea s d) (drawBytes s.draws saveLen) = t at *
  exact ⟨by rw [hframe], hbytes⟩

/-- What saving dies leaves. -/
theorem saveDies_spec (ds : List Nat) (s : State) : let t := ds.foldl saveDie s
    t = { s with hbm := t.hbm, poisonHbm := t.poisonHbm, poisonFound := t.poisonFound, draws := t.draws } ∧
      ∀ b : Nat, (∀ d ∈ ds, b < saveArea s d ∨ saveArea s d + saveLen ≤ b) → tget 0 t.hbm b = tget 0 s.hbm b := by
  induction ds generalizing s with
  | nil => exact ⟨rfl, fun _ _ => rfl⟩
  | cons d ds ih =>
    obtain ⟨hframe, hout⟩ := saveDie_spec s d
    rw [List.foldl_cons]
    generalize saveDie s d = u at *
    have harea : ∀ x, saveArea u x = saveArea s x := fun x => by
      have hpower : u.power = s.power := by rw [hframe]
      unfold saveArea
      rw [hpower]
    obtain ⟨hrest, hbytes⟩ := ih u
    generalize ds.foldl saveDie u = t at *
    refine ⟨by rw [hrest, hframe], fun b hb => (hbytes b (fun x hx => ?_)).trans (hout b (hb d List.mem_cons_self))⟩
    rw [harea]
    exact hb x (List.mem_cons_of_mem d hx)

end Sys2Proof.Machine
end

section
/-! Idle levels entered and left (R649 to R654), and accesses that idle levels meet (R652, R653). -/

namespace Sys2Proof.Machine

/-! ### A level taken (R650, R654) -/

/-- The partitions that take a level together. -/
def takenParts (s : State) (p : Part) (l : Nat) : List Part :=
  if l = 4 then s.parts else if l = 3 then s.parts.filter (sharesDie p) else [p]

/-- The dies that a level saves. -/
def savedDies (s : State) (p : Part) (l : Nat) : List Nat :=
  if 3 ≤ l then unsaved s (diesOf (takenParts s p l)) else []

/-- The state in which the areas are saved and the levels set. -/
def levelSet (s : State) (p : Part) (l : Nat) : State :=
  setIdle ((savedDies s p l).foldl saveDie s) (takenParts s p l) l

theorem takeLevel_eq (s : State) (p : Part) (l : Nat) : takeLevel s p l = if l = 4 then
    { quiescePorts (levelSet s p l) with power := { (quiescePorts (levelSet s p l)).power with selfRefresh := true } }
    else levelSet s p l := by
  unfold takeLevel levelSet savedDies
  dsimp only
  rw [← takenParts]
  by_cases h : 3 ≤ l
  · rw [if_pos h, if_pos h]
  · rw [if_neg h, if_neg h, List.foldl_nil]

theorem sharesDie_self {p : Part} (h : p.low ∈ partQuads p) : sharesDie p p = true := by
  unfold sharesDie
  rw [List.any_eq_true]
  refine ⟨p.low, h, ?_⟩
  rw [List.any_eq_true]
  exact ⟨p.low, h, beq_self_eq_true _⟩

theorem self_mem_takenParts {s : State} {p : Part} (hin : p ∈ s.parts) (hlow : p.low ∈ partQuads p) (l : Nat) :
    p ∈ takenParts s p l := by
  unfold takenParts
  split
  · exact hin
  · split
    · exact List.mem_filter.mpr ⟨hin, sharesDie_self hlow⟩
    · exact List.mem_cons_self

theorem takenParts_sub {s : State} {p : Part} (hin : p ∈ s.parts) {l : Nat} {x : Part} (hx : x ∈ takenParts s p l) :
    x ∈ s.parts := by
  unfold takenParts at hx
  split at hx
  · exact hx
  · split at hx
    · exact (List.mem_filter.mp hx).1
    · exact List.mem_singleton.mp hx ▸ hin

/-- What a level taken leaves before the ports quiesce. -/
theorem levelSet_spec (s : State) (p : Part) (l : Nat) : let t := levelSet s p l
    t = { s with hbm := t.hbm, poisonHbm := t.poisonHbm, poisonFound := t.poisonFound, draws := t.draws
                 quads := t.quads } ∧
      (l < 3 → t = { s with quads := t.quads }) ∧
      (∀ x ∈ takenParts s p l, ∀ r ∈ partQuads x, (getQuad t r).idle = l) ∧
      (∀ r, (∀ x ∈ takenParts s p l, r ∉ partQuads x) → getQuad t r = getQuad s r) ∧
      ∀ b : Nat, (∀ d ∈ savedDies s p l, b < saveArea s d ∨ saveArea s d + saveLen ≤ b) →
        tget 0 t.hbm b = tget 0 s.hbm b := by
  obtain ⟨hframe, hbytes⟩ := saveDies_spec (savedDies s p l) s
  have hnone : l < 3 → (savedDies s p l).foldl saveDie s = s := fun h => by
    rw [savedDies, if_neg (by omega), List.foldl_nil]
  unfold levelSet
  generalize (savedDies s p l).foldl saveDie s = u at *
  have hset := setIdle_frame u (takenParts s p l) l
  have hin := fun x hx r => setIdle_reached (ps := takenParts s p l) (x := x) hx u l (r := r)
  have hout := fun r hr => setIdle_apart (ps := takenParts s p l) (r := r) hr u l
  generalize setIdle u (takenParts s p l) l = t at *
  refine ⟨by rw [hset, hframe], fun h => by rw [hset, hnone h], fun x hx r hr => hin x hx r hr, fun r hr => ?_, fun b hb => ?_⟩
  · have hquads : u.quads = s.quads := by rw [hframe]
    rw [hout r hr, getQuad, hquads, ← getQuad]
  · rw [hset]
    exact hbytes b hb

/-- The power state under a new choice. -/
def choosing (s : State) : State := { s with power := { s.power with idleSeen := choiceNow s } }

theorem saveArea_choosing (s : State) (d : Nat) : saveArea (choosing s) d = saveArea s d := by
  unfold saveArea choosing
  dsimp only

theorem savedDies_choosing {s : State} {p : Part} {l : Nat} (hl : l ≤ 4) :
    savedDies (choosing s) p l = savesDies s p l := by
  unfold savesDies savedDies takenParts
  by_cases h : l < 3
  · rw [if_pos h, if_neg (by omega)]
  · rw [if_neg h, if_pos (by omega)]
    by_cases h4 : l = 4
    · rw [if_pos h4, if_pos h4]
      rfl
    · rw [if_neg h4, if_neg h4, if_pos (by omega)]
      rfl

theorem takeLevel_spec {s : State} {p : Part} {l : Nat} (hl : l ≤ 4) (hin : p ∈ s.parts) (hlow : p.low ∈ partQuads p) :
    let t := takeLevel (choosing s) p l
    (∀ x ∈ s.parts, (x = p ∨ l = 4 ∨ (l = 3 ∧ sharesDie p x = true)) → ∀ r ∈ partQuads x, (getQuad t r).idle = l) ∧
      (∀ r, (∀ x ∈ s.parts, r ∉ partQuads x) → getQuad t r = getQuad s r) ∧
      t.cores = s.cores ∧ t.lpddr = s.lpddr ∧ (l < 3 → t = { s with quads := t.quads, power := (choosing s).power }) ∧
      (∀ b : Nat, (∀ d ∈ savesDies s p l, b < saveArea s d ∨ saveArea s d + saveLen ≤ b) →
        tget 0 t.hbm b = tget 0 s.hbm b) ∧ (l = 4 → t.power.selfRefresh = true) := by
  obtain ⟨hframe, hshallow, hset, hkept, hbytes⟩ := levelSet_spec (choosing s) p l
  rw [savedDies_choosing hl] at hbytes
  simp only [saveArea_choosing] at hbytes
  rw [takeLevel_eq]
  generalize levelSet (choosing s) p l = u at *
  have hview : ∀ t, t.quads = u.quads → t.cores = u.cores → t.lpddr = u.lpddr → t.hbm = u.hbm →
      (∀ x ∈ s.parts, (x = p ∨ l = 4 ∨ (l = 3 ∧ sharesDie p x = true)) → ∀ r ∈ partQuads x, (getQuad t r).idle = l) ∧
      (∀ r, (∀ x ∈ s.parts, r ∉ partQuads x) → getQuad t r = getQuad s r) ∧ t.cores = s.cores ∧ t.lpddr = s.lpddr ∧
      ∀ b : Nat, (∀ d ∈ savesDies s p l, b < saveArea s d ∨ saveArea s d + saveLen ≤ b) →
        tget 0 t.hbm b = tget 0 s.hbm b := by
    intro t hq hc hlp hh
    have hquad : ∀ r, getQuad t r = getQuad u r := fun r => by rw [getQuad, hq, ← getQuad]
    refine ⟨fun x hx h r hr => ?_, fun r hr => ?_, hc.trans (by rw [hframe]; rfl), hlp.trans (by rw [hframe]; rfl),
      fun b hb => by rw [hh]; exact hbytes b hb⟩
    · rw [hquad]
      refine hset x ?_ r hr
      rcases h with rfl | rfl | ⟨rfl, hshare⟩
      · exact self_mem_takenParts (s := choosing s) hin hlow l
      · exact hx
      · exact List.mem_filter.mpr ⟨hx, hshare⟩
    · rw [hquad]
      exact hkept r (fun x hx => hr x (takenParts_sub (s := choosing s) hin hx))
  by_cases h4 : l = 4
  · rw [if_pos h4]
    have hports := portsOnly_quiescePorts u
    unfold portsOnly at hports
    generalize quiescePorts u = w at *
    obtain ⟨h1, h2, h3, h5, h6⟩ := hview { w with power := { w.power with selfRefresh := true } } (by rw [hports])
      (by rw [hports]) (by rw [hports]) (by rw [hports])
    exact ⟨h1, h2, h3, h5, fun h => by omega, h6, fun _ => rfl⟩
  · rw [if_neg h4]
    obtain ⟨h1, h2, h3, h5, h6⟩ := hview u rfl rfl rfl rfl
    exact ⟨h1, h2, h3, h5, hshallow, h6, fun h => absurd h h4⟩

/-! ### IDLE_ENTER (R650, R651) -/

section Enter
variable {q : Fin 8} {s : State} {p : Part} (hp : partOf s q.val = some p)
include hp

theorem idleEnter_held
    (h : (getQuad s p.low).exitAt.isSome = true ∨ (idleLevel s p ≤ (getQuad s p.low).idle ∧ choiceChanged s = false)) :
    exec (.idleEnter q) s = .next s := by
  show execIdleEnter q s = _
  unfold execIdleEnter
  rw [hp]
  dsimp only
  by_cases hexit : (getQuad s p.low).exitAt.isSome = true
  · rw [if_pos hexit]
  · obtain ⟨hle, hsame⟩ := h.resolve_left hexit
    rw [if_neg hexit, if_neg (Nat.not_lt.mpr hle), hsame, if_neg Bool.false_ne_true]

theorem idleEnter_again (hexit : (getQuad s p.low).exitAt = none) (hchange : choiceChanged s = true)
    (hle : idleLevel s p ≤ (getQuad s p.low).idle) : exec (.idleEnter q) s = .next
      (if idleLevel s p < (getQuad s p.low).idle then leaveTo (choosing s) p (idleLevel s p) else choosing s) := by
  show execIdleEnter q s = _
  unfold execIdleEnter
  rw [hp]
  dsimp only
  rw [hexit, if_neg (by simp), if_neg (Nat.not_lt.mpr hle), if_pos hchange]
  rfl

theorem idleEnter_takes (hexit : (getQuad s p.low).exitAt = none) (hlt : (getQuad s p.low).idle < idleLevel s p)
    (hfree : saveLines s (savesDies s p (idleLevel s p)) = []) :
    exec (.idleEnter q) s = .next (takeLevel (choosing s) p (idleLevel s p)) := by
  show execIdleEnter q s = _
  unfold execIdleEnter
  rw [hp]
  dsimp only
  rw [hexit, if_neg (by simp), if_pos hlt, hfree, List.isEmpty_nil, if_pos rfl]
  rfl

/-- A shallower level by a new choice. -/
theorem idleEnter_rises (hexit : (getQuad s p.low).exitAt = none) (hchange : choiceChanged s = true)
    (hlt : idleLevel s p < (getQuad s p.low).idle) : ∃ t, exec (.idleEnter q) s = .next t ∧
      (∀ r ∈ partQuads p, (getQuad t r).idle = idleLevel s p) ∧
      t = { s with quads := t.quads
                   power := { { s.power with idleSeen := choiceNow s } with selfRefresh := t.power.selfRefresh } } ∧
      ((getQuad s p.low).idle ≠ 4 → t.power.selfRefresh = s.power.selfRefresh) ∧
      ((getQuad s p.low).idle = 4 → stageNow s < 5 → t.power.selfRefresh = false) := by
  have hexec := idleEnter_again hp hexit hchange (Nat.le_of_lt hlt)
  rw [if_pos hlt] at hexec
  have hframe := leaveTo_frame (choosing s) p (idleLevel s p)
  have hidle := fun r => leaveTo_idle (s := choosing s) (p := p) (l := idleLevel s p) (r := r) (.inr hlt)
  have hstage : stageNow (choosing s) = stageNow s := rfl
  refine ⟨_, hexec, fun r => hidle r, ?_⟩
  rw [hstage] at hframe
  generalize leaveTo (choosing s) p (idleLevel s p) = t at *
  by_cases hwas : (getQuad (choosing s) p.low).idle = 4 ∧ stageNow s < 5
  · rw [if_pos hwas] at hframe
    have hpower : t.power = { (choosing s).power with selfRefresh := false } := by rw [hframe]
    rw [hpower]
    exact ⟨hframe, fun h => absurd hwas.1 h, fun _ _ => rfl⟩
  · rw [if_neg hwas] at hframe
    have hpower : t.power = (choosing s).power := by rw [hframe]
    rw [hpower]
    exact ⟨hframe, fun _ => rfl, fun h4 h5 => absurd ⟨h4, h5⟩ hwas⟩

/-! ### IDLE_EXIT (R652) -/

theorem idleExit_exits (c : IdleCause) (hidle : (getQuad s p.low).idle ≠ 0) (hcause : exitCause s p c = true) :
    ∃ t, exec (.idleExit q c) s = .next t ∧ (∀ r ∈ partQuads p, (getQuad t r).idle = 0) ∧
      t = { s with quads := t.quads, power := t.power } := by
  have hexec : exec (.idleExit q c) s = .next (leaveIdle s p) := by
    show execIdleExit q c s = _
    unfold execIdleExit
    rw [hp]
    exact if_pos ⟨hidle, hcause⟩
  exact ⟨_, hexec, fun r hr => leaveTo_idle (.inl (by decide)) hr, leaveIdle_frame s p⟩

theorem idleExit_stays (c : IdleCause) (h : (getQuad s p.low).idle = 0 ∨ exitCause s p c = false) :
    exec (.idleExit q c) s = .next s := by
  show execIdleExit q c s = _
  unfold execIdleExit
  rw [hp]
  refine if_neg (fun ⟨hidle, hcause⟩ => ?_)
  rcases h with h | h
  · exact hidle h
  · rw [h] at hcause
    cases hcause

/-! ### Accesses at I2 (R653) -/

/-- A read at I2 is answered at I1, with the exit to follow. -/
theorem idleMmio_begins (x : MmioAccess) (hx : coreQuadOf x.addr = some q.val) (hrule : mmioRule s x = none)
    (hidle : (getQuad s q.val).idle = 2) (hread : x.write = false) : ∃ t d, exec (.idleMmioAccess x) s = .next t ∧
      (∀ r ∈ partQuads p, (getQuad t r).idle = 1 ∧ (getQuad t r).exitAt = some (s.pll + us 30)) ∧
      t.host.replies = s.host.replies ++ (if readWaits s x = true then [] else [.mmio x.addr d]) ∧
      t.cores = s.cores ∧ t.errors = s.errors := by
  have hat : atI2 s x = true := by
    unfold atI2
    rw [hx]
    exact beq_iff_eq.mpr hidle
  have hexec : exec (.idleMmioAccess x) s =
      .next (if readWaits s x then beginExit s p else serveMmio (beginExit s p) x) := by
    show execIdleMmioAccess x s = _
    unfold execIdleMmioAccess
    rw [hrule]
    dsimp only
    rw [if_pos hat, hx, Option.bind_some, hp]
  have hquads : ∀ r ∈ partQuads p, (getQuad (beginExit s p) r).idle = 1 ∧
      (getQuad (beginExit s p) r).exitAt = some (s.pll + us 30) := fun r hr => by
    unfold beginExit
    rw [getQuad_modPartQuads s p _ hr]
    exact ⟨rfl, rfl⟩
  have hframe : beginExit s p = { s with quads := (beginExit s p).quads } := modPartQuads_frame ..
  generalize beginExit s p = u at *
  refine ⟨_, mmioRead u x.addr x.width, hexec, ?_⟩
  split
  · exact ⟨hquads, by rw [hframe, List.append_nil], by rw [hframe], by rw [hframe]⟩
  · unfold serveMmio
    rw [hread, if_neg Bool.false_ne_true]
    refine ⟨hquads, ?_, by rw [hframe]; rfl, by rw [hframe]; rfl⟩
    show u.host.replies ++ _ = _
    rw [hframe]

end Enter

/-! ### Host horizons and caps (R631, R649) -/

/-- A fact of a quadrant that no change of its level touches is kept as a partition leaves its level. -/
theorem leaveIdle_keeps {P : Quad → Prop} (hP : ∀ (q : Quad) (i : Nat) (e : Option Nat), P q → P { q with idle := i, exitAt := e })
    {s : State} {p : Part} {r : Nat} (h : P (getQuad s r)) : P (getQuad (leaveIdle s p) r) := by
  obtain ⟨t, ht, hleave⟩ := leaveTo_eq s p 0
  have hown : P (getQuad (modPartQuads s p (fun q => { q with idle := 0, exitAt := none })) r) := by
    by_cases hr : r ∈ partQuads p
    · rw [getQuad_modPartQuads _ _ _ hr]
      exact hP _ _ _ h
    · rwa [getQuad_modPartQuads_other _ _ _ hr]
  have hrest : P (getQuad t r) := by
    rw [ht]
    unfold othersRise
    split
    · exact foldl_modPartQuads_keeps (g := fun x q => { q with idle := shallower p x q.idle })
        (fun x q hq => hP q _ q.exitAt hq) _ hown
    · split
      · exact foldl_modPartQuads_keeps (g := fun _ q => { q with idle := min 3 q.idle })
          (fun x q hq => hP q _ q.exitAt hq) _ hown
      · exact hown
  unfold leaveIdle
  rw [hleave]
  split <;> exact hrest

theorem horizonWrite_spec (r : Fin 8) (v : Word) (s : State) : ∃ t, exec (.pwrHorizonHostWrite r v) s = .next t ∧
    (getQuad t r.val).horizonHost = v ∧ (getQuad t r.val).horizonAt = s.pll ∧
    t = { s with quads := t.quads, power := t.power } ∧
    (∀ p, partAt s r.val = some p → 1 ≤ p.size → (getQuad t r.val).idle = 0) := by
  refine ⟨horizonWrite s r.val v, rfl, ?_⟩
  unfold horizonWrite
  dsimp only
  generalize hu : modQuad s r.val (fun q => { q with horizonHost := v, horizonAt := s.pll }) = u
  have hstored : (getQuad u r.val).horizonHost = v ∧ (getQuad u r.val).horizonAt = s.pll := by
    rw [← hu, getQuad_modQuad_same]
    exact ⟨rfl, rfl⟩
  have hframe : u = { s with quads := u.quads } := by rw [← hu]; rfl
  have hpart : partAt u r.val = partAt s r.val := by rw [hframe]; rfl
  rw [hpart]
  cases hp : partAt s r.val with
  | none => exact ⟨hstored.1, hstored.2, by rw [hframe], fun p h => nomatch h⟩
  | some p =>
    have hlow : p.low = r.val := by simpa using List.find?_some hp
    dsimp only
    split
    · next h0 =>
      refine ⟨hstored.1, hstored.2, by rw [hframe], fun x hx _ => ?_⟩
      rw [← hlow]
      exact h0
    · refine ⟨?_, ?_, ?_, fun x hx hsize => ?_⟩
      · exact leaveIdle_keeps (P := fun q => q.horizonHost = v) (fun _ _ _ h => h) hstored.1
      · exact leaveIdle_keeps (P := fun q => q.horizonAt = s.pll) (fun _ _ _ h => h) hstored.2
      · rw [leaveIdle_frame, hframe]
      · obtain rfl := Option.some.inj hx
        exact leaveTo_idle (.inl (by decide))
          (List.mem_map.mpr ⟨0, List.mem_range.mpr (by omega), by rw [hlow]; rfl⟩)

theorem poolCapWrite_spec (q : Fin 8) (v : Word) (s : State) : ∃ t, exec (.pwrPoolCapWrite q v) s = .next t ∧
    t = { s with quads := t.quads } ∧
    getQuad t q.val = { getQuad s q.val with poolCap := BitVec.ofNat 32 (max 120 (min 600 (bits v 0 10))) } ∧
    ∀ r, r ≠ q.val → getQuad t r = getQuad s r :=
  ⟨_, rfl, rfl, getQuad_modQuad_same .., fun _ hr => (getQuad_modQuad ..).trans (if_neg hr)⟩

end Sys2Proof.Machine
end

section
/-! Register writes (R536 to R539, R681 to R688), and the obligation on registers and idle levels. -/

namespace Sys2Proof.Machine

/-! ### Accesses served (R536, R684, R686) -/

theorem registerWrite_held {x : MmioAccess} {s : State} (h : (mmioRule s x).isSome = true ∨ atI2 s x = true) :
    exec (.registerWrite x) s = .next s := by
  show execRegisterWrite x s = _
  unfold execRegisterWrite
  rw [if_pos]
  rcases h with h | h <;> simp [h]

section Served
variable {x : MmioAccess} {s : State} (hrule : mmioRule s x = none) (hidle : atI2 s x = false)
include hrule hidle

theorem registerWrite_reads (hread : x.write = false) : exec (.registerWrite x) s =
    .next (if readWaits s x = true then s else hostReply s (.mmio x.addr (mmioRead s x.addr x.width))) := by
  show execRegisterWrite x s = _
  unfold execRegisterWrite serveMmio
  rw [hrule, hidle, hread]
  cases readWaits s x <;> rfl

theorem registerWrite_writes (hwrite : x.write = true) :
    exec (.registerWrite x) s = .next (mmioWrite s x.addr x.width x.value) := by
  have hgo : readWaits s x = false := by
    unfold readWaits
    rw [hwrite]
    rfl
  show execRegisterWrite x s = _
  unfold execRegisterWrite serveMmio
  rw [hrule, hidle, hgo, hwrite]
  rfl

theorem registerWrite_writes32 (hwrite : x.write = true) (hwidth : x.width = 32) :
    exec (.registerWrite x) s = .next (mmioWrite32 s x.addr (x.value.truncate 32)) := by
  have hw := registerWrite_writes hrule hidle hwrite
  rw [hwidth] at hw
  exact hw

omit hidle in
theorem idleMmio_stays (hidle : atI2 s x = false) : exec (.idleMmioAccess x) s = .next s := by
  show execIdleMmioAccess x s = _
  unfold execIdleMmioAccess
  rw [hrule, hidle]
  rfl

end Served

/-- A read waits for a write of a segment or of GEN that has not taken effect. -/
theorem readWaits_iff (s : State) (x : MmioAccess) : readWaits s x = true ↔
    x.write = false ∧ (s.host.segWait ≠ [] ∨ ∃ q, q < 8 ∧ (getQuad s q).genNext ≠ none) := by
  have hseg : (!s.host.segWait.isEmpty) = true ↔ s.host.segWait ≠ [] := by simp
  unfold readWaits
  rw [Bool.and_eq_true, Bool.not_eq_true', Bool.or_eq_true, hseg, List.any_eq_true]
  simp only [List.mem_range, Option.isSome_iff_ne_none]

theorem idleMmio_refused {x : MmioAccess} {s : State} (h : mmioRule s x = some 6) :
    exec (.idleMmioAccess x) s = .next (refuseMmio s x 6) := by
  show execIdleMmioAccess x s = _
  unfold execIdleMmioAccess
  rw [h]
  rfl

/-! ### Writes by halves (R538, R681) -/

/-- A write where no register lies, at the lower half of a word, is dropped. -/
theorem mmioWrite32_nothing {s : State} {a : Nat} (v : Word) (h : regAt s a = none) (ha : a % 8 = 0) :
    mmioWrite32 s a v = s := by
  unfold mmioWrite32
  rw [h]
  exact if_neg (by omega)

theorem mmioWrite32_narrow {s : State} {a old : Nat} (v : Word) (h : regAt s a = some (false, old)) :
    mmioWrite32 s a v = regWrite32 s a v := by
  unfold mmioWrite32
  rw [h]

theorem mmioWrite32_low {s : State} {a old : Nat} (v : Word) (h : regAt s a = some (true, old)) : mmioWrite32 s a v =
    regWrite64 s a (BitVec.ofNat 64 (old / 2 ^ 32 * 2 ^ 32 + v.toNat)) (BitVec.ofNat 64 v.toNat) true := by
  unfold mmioWrite32
  rw [h]

theorem mmioWrite32_high {s : State} {a old : Nat} (v : Word) (hnone : regAt s a = none) (ha : a % 8 = 4)
    (h : regAt s (a - 4) = some (true, old)) : mmioWrite32 s a v =
      regWrite64 s (a - 4) (BitVec.ofNat 64 (old % 2 ^ 32 + v.toNat * 2 ^ 32)) (BitVec.ofNat 64 (v.toNat * 2 ^ 32)) false := by
  unfold mmioWrite32
  rw [hnone]
  dsimp only
  rw [if_pos ha, h]

/-! ### EPOCH -/

theorem regAt_epoch (s : State) : regAt s 0x38 = some (true, s.epoch.toNat % 2 ^ 64) := rfl

theorem regAt_epochHigh (s : State) : regAt s 0x3C = none := rfl

theorem regWrite64_epoch (s : State) (v acts : Dword) (low : Bool) : regWrite64 s 0x38 v acts low = { s with epoch := v } := rfl

theorem mmioWrite_epoch (s : State) (v : Dword) : mmioWrite s 0x38 64 v = { s with epoch := v } := by
  unfold mmioWrite
  rw [if_pos rfl, regAt_epoch]
  rfl

/-- Both halves of a 64-bit value put together. -/
theorem bits_halves {hi lo : Nat} (hhi : hi < 2 ^ 32) (hlo : lo < 2 ^ 32) :
    bits (BitVec.ofNat 64 (lo + hi * 2 ^ 32)) 0 32 = lo ∧ bits (BitVec.ofNat 64 (lo + hi * 2 ^ 32)) 32 32 = hi := by
  unfold bits
  rw [BitVec.toNat_ofNat, Nat.shiftRight_eq_div_pow, Nat.shiftRight_eq_div_pow]
  omega

theorem bits_of_toNat {w : Nat} (x : BitVec w) (lo len : Nat) : bits x lo len = x.toNat / 2 ^ lo % 2 ^ len := by
  unfold bits
  rw [Nat.shiftRight_eq_div_pow]

theorem toNat_truncate_low (v : Dword) : (v.truncate 32).toNat = bits v 0 32 := by
  rw [bits_of_toNat, Nat.pow_zero, Nat.div_one, BitVec.truncate_eq_setWidth, BitVec.toNat_setWidth]

/-- A write of the lower half of EPOCH. -/
theorem epochLow_spec (s : State) (v : Dword) : let t := mmioWrite32 s 0x38 (v.truncate 32)
    t = { s with epoch := t.epoch } ∧ bits t.epoch 0 32 = bits v 0 32 ∧ bits t.epoch 32 32 = bits s.epoch 32 32 := by
  have hold := s.epoch.isLt
  have hlow := bits_lt v 0 32
  have hhigh : s.epoch.toNat % 2 ^ 64 / 2 ^ 32 = bits s.epoch 32 32 := by
    rw [bits_of_toNat]
    omega
  have hlt := bits_lt s.epoch 32 32
  rw [mmioWrite32_low _ (regAt_epoch s), regWrite64_epoch, toNat_truncate_low, hhigh]
  obtain ⟨h0, h32⟩ := bits_halves hlt hlow
  rw [Nat.add_comm] at h0 h32
  exact ⟨rfl, h0, h32⟩

/-- A write of the upper half of EPOCH. -/
theorem epochHigh_spec (s : State) (v : Dword) : let t := mmioWrite32 s 0x3C (v.truncate 32)
    t = { s with epoch := t.epoch } ∧ bits t.epoch 32 32 = bits v 0 32 ∧ bits t.epoch 0 32 = bits s.epoch 0 32 := by
  have hhigh := bits_lt v 0 32
  have hlow : s.epoch.toNat % 2 ^ 64 % 2 ^ 32 = bits s.epoch 0 32 := by
    rw [bits_of_toNat]
    omega
  have hlt := bits_lt s.epoch 0 32
  rw [mmioWrite32_high _ (regAt_epochHigh s) (by decide) (regAt_epoch s)]
  show (let t := regWrite64 s 0x38 _ _ false; t = { s with epoch := t.epoch } ∧ _)
  rw [regWrite64_epoch, toNat_truncate_low, hlow]
  obtain ⟨h0, h32⟩ := bits_halves hhigh hlt
  exact ⟨rfl, h32, h0⟩

/-! ### CORE_BEAM_STATUS (R687) -/

theorem placeOf_core {n : Nat} (hn : n < 192) {o : Nat} (ho : o < 0x10000) :
    placeOf (0x1000000 + 0x10000 * n + o) = .core n o := by
  have hpage : (0x1000000 + 0x10000 * n + o - 0x1000000) / 0x10000 = n := by omega
  have hoff : (0x1000000 + 0x10000 * n + o - 0x1000000) % 0x10000 = o := by omega
  unfold placeOf
  rw [if_neg (by omega), if_neg (by omega), if_neg (by omega), if_neg (by omega), if_neg (by omega), if_neg (by omega),
    if_pos (by omega), hpage, hoff]

theorem coreReg_beamStatus (s : State) (n : Nat) : ∃ v, coreReg s n 4 = some (false, v) := ⟨_, rfl⟩

theorem coreWrite32_beamStatus (s : State) (n : Nat) (v : Word) : coreWrite32 s n 4 v =
    modCore (landAll s n) n (fun c => { c with beam := clearFlags c.beam (w1cWrite (landAll s n) (corePage n 4) v) }) := rfl

/-- A write of 1s to a core's beam status clears those of its three flags that the device has not set on this cycle. -/
theorem beamStatus_spec {s : State} {n a : Nat} (hn : n < 192) (ha : a = 0x1000000 + 0x10000 * n + 4)
    (hon : isDisabled s n = false) (v : Dword) : let t := mmioWrite32 s a (v.truncate 32)
    let m := (getCore (landAll s n) n).beam
    let y := (getCore t n).beam
    let clears := fun b => bit v b && !(w1cNow (landAll s n) a).testBit b
    y = { m with stLong := y.stLong, stNonfin := y.stNonfin, stMismatch := y.stMismatch } ∧
      y.stLong = (m.stLong && !clears 0) ∧ y.stNonfin = (m.stNonfin && !clears 1) ∧
      y.stMismatch = (m.stMismatch && !clears 2) := by
  have hplace : placeOf a = .core n 4 := by rw [ha]; exact placeOf_core hn (by decide)
  have hpage : corePage n 4 = a := ha.symm
  obtain ⟨old, hold⟩ := coreReg_beamStatus s n
  have hreg : regAt s a = some (false, old) := by
    unfold regAt
    rw [hplace]
    dsimp only
    rw [hon, if_neg Bool.false_ne_true, hold]
  have hwrite : mmioWrite32 s a (v.truncate 32) = modCore (landAll s n) n
      (fun c => { c with beam := clearFlags c.beam (w1cWrite (landAll s n) a (v.truncate 32)) }) := by
    rw [mmioWrite32_narrow _ hreg, ← hpage, ← coreWrite32_beamStatus, hpage]
    unfold regWrite32
    rw [hplace]
  have hbit : ∀ b, b < 32 → bit (w1cWrite (landAll s n) a (v.truncate 32)) b =
      (bit v b && !(w1cNow (landAll s n) a).testBit b) := fun b hb => by
    rw [bit_w1cWrite]
    congr 1
    unfold bit
    rw [BitVec.truncate_eq_setWidth, BitVec.getLsbD_setWidth, decide_eq_true hb, Bool.true_and]
  rw [hwrite]
  generalize landAll s n = w at *
  intro t m y clears
  have hy : y = clearFlags m (w1cWrite w a (v.truncate 32)) := by
    unfold y t
    rw [getCore_modCore_same]
  rw [hy]
  unfold clearFlags
  dsimp only
  rw [hbit 0 (by decide), hbit 1 (by decide), hbit 2 (by decide)]
  exact ⟨rfl, rfl, rfl, rfl⟩

end Sys2Proof.Machine

namespace Sys2Proof

open Machine

/-- Settles O58: each register is written by its own rule, and a level is taken and left with its partitions. -/
theorem registersAndIdle : Obligations.RegistersAndIdle := by
  unfold Obligations.RegistersAndIdle
  refine ⟨fun q s p hp => ⟨genWrite_stores hp, genWrite_waits hp, modeWrite_stores hp, modeWrite_ignored hp,
    idleLevel_legal, ⟨idleEnter_held hp, fun hexit hchange => ⟨fun heq => ?_, idleEnter_rises hp hexit hchange⟩,
      fun hexit hlt hfree => ⟨_, idleEnter_takes hp hexit hlt hfree,
        takeLevel_spec (idleLevel_le s p).2 (List.mem_of_find?_eq_some hp) (low_mem_partQuads hp)⟩⟩,
    fun c => ⟨fun hidle => idleExit_exits hp c hidle, idleExit_stays hp c⟩, idleMmio_begins hp⟩,
    fun x s => ⟨fun h => ?_, fun hrule hidle => ⟨idleMmio_stays hrule hidle, registerWrite_reads hrule hidle,
      readWaits_iff s x, fun hw h32 hnone ha => ?_, fun hw h64 ha => ?_, fun hw h32 ha => ?_, fun hw h32 ha => ?_,
      fun n hon hw h32 ha => ?_⟩, registerWrite_held⟩, horizonWrite_spec, poolCapWrite_spec, fun _ _ => rfl⟩
  · have hexec := idleEnter_again hp hexit hchange (Nat.le_of_eq heq)
    rw [if_neg (by omega)] at hexec
    exact hexec
  · obtain ⟨hcount, -, hquads, hreplies⟩ := refuseMmio_spec s x 6
    exact ⟨_, idleMmio_refused h, hcount, hquads, hreplies⟩
  · rw [registerWrite_writes32 hrule hidle hw h32, mmioWrite32_nothing _ hnone ha]
  · rw [registerWrite_writes hrule hidle hw, h64, ha, mmioWrite_epoch]
  · refine ⟨_, registerWrite_writes32 hrule hidle hw h32, ?_⟩
    rw [ha]
    exact epochLow_spec s x.value
  · refine ⟨_, registerWrite_writes32 hrule hidle hw h32, ?_⟩
    rw [ha]
    exact epochHigh_spec s x.value
  · exact ⟨_, registerWrite_writes32 hrule hidle hw h32, beamStatus_spec n.isLt ha hon x.value⟩

end Sys2Proof
end

section
/-! Supply stages entered: sweeps held, contexts stopped, and the entry to S5 (R633 to R641). -/

namespace Sys2Proof.Machine

/-! ### The stage for an average (R633, R634) -/

/-- The last index of a range that satisfies a test, or 0. -/
theorem foldl_last {c : Nat → Prop} [DecidablePred c] (n : Nat) :
    let r := (List.range n).foldl (fun a k => if c k then k else a) 0
    (∀ k, k < n → c k → k ≤ r) ∧ (r = 0 ∨ (r < n ∧ c r)) := by
  induction n with
  | zero => exact ⟨fun k hk => absurd hk (Nat.not_lt_zero k), .inl rfl⟩
  | succ n ih =>
    obtain ⟨hall, hlast⟩ := ih
    rw [List.range_succ, List.foldl_append, List.foldl_cons, List.foldl_nil]
    generalize (List.range n).foldl (fun a k => if c k then k else a) 0 = r at *
    by_cases hc : c n
    · rw [if_pos hc]
      exact ⟨fun k hk _ => Nat.le_of_lt_succ hk, .inr ⟨Nat.lt_succ_self n, hc⟩⟩
    · rw [if_neg hc]
      refine ⟨fun k hk hck => hall k ?_ hck, hlast.imp_right (fun ⟨hlt, hcr⟩ => ⟨Nat.lt_succ_of_lt hlt, hcr⟩)⟩
      exact lt_of_le_of_ne (Nat.le_of_lt_succ hk) (fun h => hc (h ▸ hck))

theorem stageFor_spec (old a k : Nat) : stageFor old a ≤ 5 ∧
    (1 ≤ k → k ≤ 5 → (a < 5300 - 200 * k ∨ (k ≤ old ∧ a < 5400 - 200 * k)) → k ≤ stageFor old a) ∧
    (stageFor old a = k → k ≠ 0 → a < 5300 - 200 * k ∨ (k ≤ old ∧ a < 5400 - 200 * k)) := by
  obtain ⟨hall, hlast⟩ := foldl_last
    (c := fun k => k ≠ 0 ∧ (a < enterBelow k ∨ (k ≤ old ∧ a < leaveAt k))) 6
  rw [← stageFor] at hall hlast
  refine ⟨by omega, fun h1 h5 hc => hall k (by omega) ⟨by omega, hc⟩, fun hk h0 => ?_⟩
  subst hk
  obtain ⟨-, -, hc⟩ := hlast.resolve_left h0
  exact hc

theorem countStages_spec (t : Tbl Dword) (old new : Nat) (hnew : new ≤ 5) :
    (∀ k, old < k → k ≤ new → tget 0 (countStages t old new) k = tget 0 t k + 1) ∧
      ∀ k, k ≤ old ∨ new < k → tget 0 (countStages t old new) k = tget 0 t k := by
  have hfold : ∀ (ks : List Nat) (t : Tbl Dword), ks.Nodup → ∀ k,
      tget 0 (ks.foldl (fun t k => if old < k ∧ k ≤ new then bumpTbl t k 1 else t) t) k =
        if k ∈ ks ∧ old < k ∧ k ≤ new then tget 0 t k + 1 else tget 0 t k := by
    intro ks
    induction ks with
    | nil => exact fun t _ k => (if_neg (fun h => absurd h.1 List.not_mem_nil)).symm
    | cons x ks ih =>
      intro t hnodup k
      obtain ⟨hx, hks⟩ := List.nodup_cons.mp hnodup
      have hstep : tget 0 (if old < x ∧ x ≤ new then bumpTbl t x 1 else t) k =
          if k = x ∧ old < x ∧ x ≤ new then tget 0 t k + 1 else tget 0 t k := by
        by_cases hin : old < x ∧ x ≤ new
        · rw [if_pos hin, bumpTbl, tget_tset]
          by_cases hk : k = x
          · rw [if_pos hk, if_pos ⟨hk, hin⟩, hk]
            rfl
          · rw [if_neg hk, if_neg (fun h => hk h.1)]
        · rw [if_neg hin, if_neg (fun h => hin h.2)]
      rw [List.foldl_cons, ih _ hks k, hstep]
      by_cases hk : k = x
      · subst hk
        simp [hx]
      · simp [hk]
  have hall := fun k => hfold (List.range 6) t List.nodup_range k
  refine ⟨fun k hlo hhi => (hall k).trans (if_pos ⟨List.mem_range.mpr (by omega), hlo, hhi⟩), fun k hk =>
    (hall k).trans (if_neg (fun h => ?_))⟩
  omega

/-! ### Contexts stopped (R641) -/

/-- Whether a partition runs on unheld and unstopped. -/
def settledOrHeld (s : State) (p : Part) : Prop := p.ctx = .running → p.stopping = true ∨ s4Holds s p = true

theorem stopUnheld_frame (s : State) : stopUnheld s = { s with parts := (stopUnheld s).parts } := by
  unfold stopUnheld
  suffices hfold : ∀ (ps : List Part) (t : State), ps.foldl (fun s p => if s4Holds s p then s else stopPart s p.low) t =
      { t with parts := (ps.foldl (fun s p => if s4Holds s p then s else stopPart s p.low) t).parts } from hfold _ s
  intro ps
  induction ps with
  | nil => exact fun _ => rfl
  | cons p ps ih =>
    intro t
    rw [List.foldl_cons, ih]
    split <;> rfl

/-- A stopped partition runs with its stop noted. -/
theorem mem_stopPart {s : State} {low : Nat} {p : Part} (h : p ∈ (stopPart s low).parts) : ∃ x ∈ s.parts,
    (x.low = low ∧ x.ctx = .running ∧ p = { x with stopping := true }) ∨ (p = x ∧ (x.low = low → x.ctx ≠ .running)) := by
  obtain ⟨x, hx, rfl⟩ := List.mem_map.mp h
  refine ⟨x, hx, ?_⟩
  by_cases hlow : x.low = low
  · rw [if_pos hlow]
    by_cases hrun : x.ctx = .running
    · exact .inl ⟨hlow, hrun, if_pos hrun⟩
    · exact .inr ⟨if_neg hrun, fun _ => hrun⟩
  · rw [if_neg hlow]
    exact .inr ⟨rfl, fun h => absurd h hlow⟩

theorem s4Holds_congr {s t : State} (h : t.cc = s.cc) (p : Part) : s4Holds t p = s4Holds s p := by
  unfold s4Holds
  rw [h]

/-- Every RUNNING context that S4 does not hold stops. -/
theorem stopUnheld_stops (s : State) : ∀ p ∈ (stopUnheld s).parts, settledOrHeld s p := by
  unfold stopUnheld
  suffices hfold : ∀ (ps : List Part) (t : State), t.cc = s.cc →
      (∀ p ∈ t.parts, p.ctx = .running → p.stopping = true ∨ s4Holds s p = true ∨ p ∈ ps) →
      ∀ p ∈ (ps.foldl (fun s p => if s4Holds s p then s else stopPart s p.low) t).parts, settledOrHeld s p from
    hfold s.parts s rfl (fun p hp _ => .inr (.inr hp))
  intro ps
  induction ps with
  | nil =>
    intro t _ h p hp hrun
    rcases h p hp hrun with hs | hh | hin
    · exact .inl hs
    · exact .inr hh
    · exact absurd hin List.not_mem_nil
  | cons x ps ih =>
    intro t hcc h
    rw [List.foldl_cons]
    by_cases hx : s4Holds t x = true
    · rw [if_pos hx]
      refine ih t hcc (fun p hp hrun => ?_)
      rcases h p hp hrun with hs | hh | hin
      · exact .inl hs
      · exact .inr (.inl hh)
      · rcases List.mem_cons.mp hin with rfl | hin
        · rw [s4Holds_congr hcc] at hx
          exact .inr (.inl hx)
        · exact .inr (.inr hin)
    · rw [if_neg hx]
      refine ih _ hcc (fun p hp hrun => ?_)
      obtain ⟨y, hy, (⟨-, -, rfl⟩ | ⟨rfl, hother⟩)⟩ := mem_stopPart hp
      · exact .inl rfl
      · rcases h p hy hrun with hs | hh | hin
        · exact .inl hs
        · exact .inr (.inl hh)
        · rcases List.mem_cons.mp hin with rfl | hin
          · exact absurd hrun (hother rfl)
          · exact .inr (.inr hin)

/-- A stop keeps each partition's place, context and hold. -/
theorem stopUnheld_parts {P : Part → Prop} (hP : ∀ p, P p → P { p with stopping := true }) {s : State}
    (h : ∀ p ∈ s.parts, P p) : ∀ p ∈ (stopUnheld s).parts, P p := by
  unfold stopUnheld
  suffices hfold : ∀ (ps : List Part) (t : State), (∀ p ∈ t.parts, P p) →
      ∀ p ∈ (ps.foldl (fun s p => if s4Holds s p then s else stopPart s p.low) t).parts, P p from hfold s.parts s h
  intro ps
  induction ps with
  | nil => exact fun _ ht => ht
  | cons x ps ih =>
    intro t ht
    rw [List.foldl_cons]
    refine ih _ ?_
    split
    · exact ht
    · intro p hp
      obtain ⟨y, hy, (⟨-, -, rfl⟩ | ⟨rfl, -⟩)⟩ := mem_stopPart hp
      · exact hP y (ht y hy)
      · exact ht _ hy

/-! ### The entry to S5 (R641) -/

theorem quiescePorts_dark {s : State} (h : portsDark s = true) : quiescePorts s = s := by
  have hdark : ∀ k ∈ List.range 8, (getPort s k).lit = false := fun k hk => by
    have hk := List.all_eq_true.mp h k hk
    simpa using hk
  unfold quiescePorts
  suffices hfold : ∀ ks : List Nat, (∀ k ∈ ks, (getPort s k).lit = false) → ks.foldl quiescePort s = s from hfold _ hdark
  intro ks
  induction ks with
  | nil => exact fun _ => rfl
  | cons k ks ih =>
    intro hks
    have hstep : quiescePort s k = s := by
      unfold quiescePort
      dsimp only
      rw [hks k List.mem_cons_self]
      rfl
    rw [List.foldl_cons, hstep]
    exact ih (fun j hj => hks j (List.mem_cons_of_mem k hj))

/-- What the entry to S5 changes: contexts' stops, ports, the memories' state and the supply record. -/
def s5Only (s t : State) : Prop := t = { s with
  parts := t.parts, ports := t.ports, flash := { s.flash with supply := t.flash.supply }
  power := { s.power with selfRefresh := t.power.selfRefresh, retention := t.power.retention, s5Wait := t.power.s5Wait
                          s5Sent := t.power.s5Sent, s5Ending := t.power.s5Ending } }

theorem s5Only_trans {s t u : State} (h : s5Only s t) (k : s5Only t u) : s5Only s u := by
  unfold s5Only at *
  rw [k, h]

/-- The port notices of S5 are sent once. -/
def s5Notices (s : State) : State :=
  if s.power.s5Sent then s else quiescePorts { s with power := { s.power with s5Sent := true } }

theorem settleS5_eq {s : State} {t : Nat} {rec_ : Bool} (h : s.power.s5Wait = some (t, rec_)) : settleS5 s =
    if !s.power.s5Sent && stopsPending s && decide (s.pll < t + ms 1) then s
    else if portsDark (s5Notices s) && memoryIdle (s5Notices s) then finishS5 (s5Notices s) t rec_ else s5Notices s := by
  unfold settleS5
  rw [h]
  rfl

theorem s5Only_notices (s : State) : s5Only s (s5Notices s) ∧ (s5Notices s).parts = s.parts ∧
    (s5Notices s).power.s5Ending = s.power.s5Ending := by
  unfold s5Notices
  split
  · exact ⟨rfl, rfl, rfl⟩
  · have hports := portsOnly_quiescePorts { s with power := { s.power with s5Sent := true } }
    unfold portsOnly at hports
    generalize quiescePorts { s with power := { s.power with s5Sent := true } } = t at *
    refine ⟨?_, by rw [hports], by rw [hports]⟩
    unfold s5Only
    rw [hports]

theorem s5Only_settle (s : State) : s5Only s (settleS5 s) ∧ (settleS5 s).parts = s.parts ∧
    (settleS5 s).power.s5Ending = s.power.s5Ending := by
  cases h : s.power.s5Wait with
  | none =>
    have hsame : settleS5 s = s := by
      unfold settleS5
      rw [h]
    rw [hsame]
    exact ⟨rfl, rfl, rfl⟩
  | some x =>
    obtain ⟨honly, hparts, hending⟩ := s5Only_notices s
    rw [settleS5_eq h]
    generalize s5Notices s = t at *
    split
    · exact ⟨rfl, rfl, rfl⟩
    · split
      · refine ⟨s5Only_trans honly ?_, hparts, hending⟩
        unfold finishS5 s5Only
        split <;> rfl
      · exact ⟨honly, hparts, hending⟩

/-- The entry's state as its stops are noted. -/
def s5Stopped (s : State) (rec_ : Bool) : State :=
  stopUnheld { s with power := { s.power with s5Wait := some (s.pll, rec_), s5Sent := false, s5Ending := none } }

theorem s5Stopped_frame (s : State) (rec_ : Bool) : s5Stopped s rec_ = { s with
    parts := (s5Stopped s rec_).parts
    power := { s.power with s5Wait := some (s.pll, rec_), s5Sent := false, s5Ending := none } } := stopUnheld_frame _

theorem enterS5_spec (s : State) (rec_ : Bool) : s5Only s (enterS5 s rec_) ∧ (enterS5 s rec_).power.s5Ending = none ∧
    ∀ p ∈ (enterS5 s rec_).parts, settledOrHeld s p := by
  have hframe := s5Stopped_frame s rec_
  have hstops : ∀ p ∈ (s5Stopped s rec_).parts, settledOrHeld s p := stopUnheld_stops
    { s with power := { s.power with s5Wait := some (s.pll, rec_), s5Sent := false, s5Ending := none } }
  have henter : enterS5 s rec_ = settleS5 (s5Stopped s rec_) := rfl
  rw [henter]
  generalize s5Stopped s rec_ = u at *
  obtain ⟨honly, hparts, hending⟩ := s5Only_settle u
  generalize settleS5 u = t at *
  have hu : s5Only s u := by
    unfold s5Only
    rw [hframe]
  refine ⟨s5Only_trans hu honly, hending.trans (by rw [hframe]), ?_⟩
  rw [hparts]
  exact hstops

/-- With nothing running, every port dark and the memories idle, the entry is complete at once. -/
theorem enterS5_finishes {s : State} (rec_ : Bool) (hidle : ∀ p ∈ s.parts, p.ctx ≠ .running) (hdark : portsDark s = true)
    (hmem : memoryIdle s = true) : (enterS5 s rec_).power.selfRefresh = true ∧ (enterS5 s rec_).power.retention = true ∧
      (rec_ = true → (enterS5 s rec_).flash.supply = s.flash.supply ++ [10 * (s.pll / 102)]) := by
  have hframe := s5Stopped_frame s rec_
  have hstill : ∀ p ∈ (s5Stopped s rec_).parts, p.ctx ≠ .running :=
    stopUnheld_parts (P := fun p => p.ctx ≠ .running) (fun _ h => h) hidle
  have henter : enterS5 s rec_ = settleS5 (s5Stopped s rec_) := rfl
  rw [henter]
  generalize s5Stopped s rec_ = u at *
  have hwait : u.power.s5Wait = some (s.pll, rec_) := by rw [hframe]
  have hnone : stopsPending u = false := by
    unfold stopsPending
    rw [List.any_eq_false]
    exact fun p hp => by simp [hstill p hp]
  have hdark' : portsDark { u with power := { u.power with s5Sent := true } } = true := by
    rw [hframe]
    exact hdark
  have hnotices : s5Notices u = { u with power := { u.power with s5Sent := true } } := by
    have hsent : u.power.s5Sent = false := by rw [hframe]
    unfold s5Notices
    rw [hsent, if_neg Bool.false_ne_true, quiescePorts_dark hdark']
  have hmem' : memoryIdle { u with power := { u.power with s5Sent := true } } = true := by
    rw [hframe]
    exact hmem
  rw [settleS5_eq hwait, hnone, hnotices, if_neg (by simp), hdark', hmem', Bool.true_and, if_pos rfl]
  refine ⟨rfl, rfl, fun hrec => ?_⟩
  subst hrec
  show u.flash.supply ++ _ = _
  rw [hframe]

/-! ### Sweeps held (R502) -/

theorem holdSweeps_portsOnly (s : State) (ks : List Nat) : portsOnly s (ks.foldl holdSweeps s) :=
  portsOnly_foldl (f := holdSweeps) (fun _ _ => rfl) ks s

theorem holdSweeps_ports (s : State) (ks : List Nat) (t : State) : (ks.foldl holdSweeps t).ports =
    ks.foldl (fun ps k => (holdSweeps { s with ports := ps } k).ports) t.ports := by
  induction ks generalizing t with
  | nil => rfl
  | cons k ks ih =>
    rw [List.foldl_cons, ih, List.foldl_cons]
    rfl

theorem portsDark_holdSweeps {s : State} (ks : List Nat) : portsDark (ks.foldl holdSweeps s) = portsDark s := by
  have hlit : ∀ (ks : List Nat) (t : State) (j : Nat), (getPort (ks.foldl holdSweeps t) j).lit = (getPort t j).lit := by
    intro ks
    induction ks with
    | nil => exact fun _ _ => rfl
    | cons k ks ih =>
      intro t j
      rw [List.foldl_cons, ih, holdSweeps, getPort_modPort]
      split
      · next h => rw [h]
      · rfl
  unfold portsDark
  simp only [hlit]

end Sys2Proof.Machine
end

section
/-! Supply stages entered and lifted (R630 to R643). -/

namespace Sys2Proof.Machine

/-! ### Stages entered (R635) -/

/-- What the actions of stages change. -/
def stageOnly (s t : State) : Prop := t = { s with
  parts := t.parts, ports := t.ports, flash := { s.flash with supply := t.flash.supply }
  power := { s.power with s4At := t.power.s4At, selfRefresh := t.power.selfRefresh, retention := t.power.retention
                          s5Wait := t.power.s5Wait, s5Sent := t.power.s5Sent, s5Ending := t.power.s5Ending } }

theorem stageOnly_trans {s t u : State} (h : stageOnly s t) (k : stageOnly t u) : stageOnly s u := by
  unfold stageOnly at *
  rw [k, h]

theorem stageOnly_of_s5Only {s t : State} (h : s5Only s t) : stageOnly s t := by
  unfold stageOnly s5Only at *
  rw [h]

/-- The state as sweeps are held and S4's time begins. -/
def stagesBegun (s : State) (old new : Nat) : State :=
  let u := if old < 1 ∧ 1 ≤ new then (List.range 8).foldl holdSweeps s else s
  if old < 4 ∧ 4 ≤ new then { u with power := { u.power with s4At := u.pll } } else u

theorem enterStages_eq (s : State) (old new : Nat) (rec_ : Bool) : enterStages s old new rec_ =
    if old < 5 ∧ new = 5 then enterS5 (stagesBegun s old new) rec_ else stagesBegun s old new := rfl

theorem stagesBegun_spec (s : State) (old new : Nat) : let u := stagesBegun s old new
    u = { s with ports := u.ports, power := { s.power with s4At := u.power.s4At } } ∧ (1 ≤ old → u.ports = s.ports) ∧
      (old = 0 → 1 ≤ new → u.ports = (List.range 8).foldl (fun ps k => (holdSweeps { s with ports := ps } k).ports) s.ports) ∧
      portsDark u = portsDark s ∧ (old < 4 → 4 ≤ new → u.power.s4At = s.pll) := by
  unfold stagesBegun
  dsimp only
  generalize hv : (if old < 1 ∧ 1 ≤ new then (List.range 8).foldl holdSweeps s else s) = v
  have hframe : portsOnly s v := by
    rw [← hv]
    split
    · exact holdSweeps_portsOnly ..
    · rfl
  have hkeep : 1 ≤ old → v.ports = s.ports := fun h => by
    rw [← hv, if_neg (by omega)]
  have hhold : old = 0 → 1 ≤ new →
      v.ports = (List.range 8).foldl (fun ps k => (holdSweeps { s with ports := ps } k).ports) s.ports := fun h h1 => by
    rw [← hv, if_pos ⟨by omega, h1⟩]
    exact holdSweeps_ports s (List.range 8) s
  have hdark : portsDark v = portsDark s := by
    rw [← hv]
    split
    · exact portsDark_holdSweeps ..
    · rfl
  unfold portsOnly at hframe
  split
  · refine ⟨?_, hkeep, hhold, hdark, fun _ _ => ?_⟩
    · rw [hframe]
    · rw [hframe]
  · next hno => exact ⟨by rw [hframe], hkeep, hhold, hdark, fun h4 h5 => absurd ⟨h4, h5⟩ hno⟩

theorem enterStages_spec (s : State) (old new : Nat) (rec_ : Bool) : let t := enterStages s old new rec_
    stageOnly s t ∧ (new < 5 → t.parts = s.parts ∧ (1 ≤ old → t.ports = s.ports) ∧
      (old = 0 → 1 ≤ new → t.ports =
        (List.range 8).foldl (fun ps k => (holdSweeps { s with ports := ps } k).ports) s.ports)) ∧
      (old < 4 → 4 ≤ new → t.power.s4At = s.pll) ∧
      (¬ (old < 5 ∧ new = 5) → t.power.s5Ending = s.power.s5Ending) ∧
      (old < 5 → new = 5 → t.power.s5Ending = none ∧ (∀ p ∈ t.parts, settledOrHeld s p) ∧
        ((∀ p ∈ s.parts, p.ctx ≠ .running) → portsDark s = true → memoryIdle s = true →
          t.power.selfRefresh = true ∧ t.power.retention = true ∧
          (rec_ = true → t.flash.supply = s.flash.supply ++ [10 * (s.pll / 102)]))) := by
  obtain ⟨hframe, hkeep, hhold, hdark, hat⟩ := stagesBegun_spec s old new
  rw [enterStages_eq]
  generalize stagesBegun s old new = u at *
  have hu : stageOnly s u := by
    unfold stageOnly
    rw [hframe]
  by_cases h5 : old < 5 ∧ new = 5
  · rw [if_pos h5]
    obtain ⟨honly, hending, hstops⟩ := enterS5_spec u rec_
    have hfinish := enterS5_finishes (s := u) rec_
    generalize enterS5 u rec_ = t at *
    have hs4 : t.power.s4At = u.power.s4At := by rw [honly]
    have hcc : u.cc = s.cc := by rw [hframe]
    refine ⟨stageOnly_trans hu (stageOnly_of_s5Only honly), fun h => by omega, fun h1 h2 => hs4.trans (hat h1 h2),
      fun h => absurd h5 h, fun _ _ => ⟨hending, fun p hp hrun => ?_, fun hidle hd hm => ?_⟩⟩
    · rw [← s4Holds_congr hcc]
      exact hstops p hp hrun
    · obtain ⟨h1, h2, h3⟩ := hfinish (by rw [hframe]; exact hidle) (hdark.trans hd) (by rw [hframe]; exact hm)
      refine ⟨h1, h2, fun hr => (h3 hr).trans ?_⟩
      rw [hframe]
  · rw [if_neg h5]
    refine ⟨hu, fun _ => ⟨by rw [hframe], hkeep, hhold⟩, hat, fun _ => by rw [hframe], fun h1 h2 => absurd ⟨h1, h2⟩ h5⟩

/-! ### Stages lifted (R635, R639, R642) -/

/-- A fold of changes to cores changes only cores. -/
theorem foldl_coresOnly {α : Type} {f : State → α → State} (hf : ∀ s x, f s x = { s with cores := (f s x).cores })
    (xs : List α) (s : State) : xs.foldl f s = { s with cores := (xs.foldl f s).cores } := by
  induction xs generalizing s with
  | nil => rfl
  | cons x xs ih =>
    rw [List.foldl_cons, ih, hf s x]

/-- The end of S4 for one partition: its hold ends and the rest of its place stays. -/
theorem releaseS4_spec (s : State) (p : Part) : ∃ h : Part → Part,
    releaseS4 s p = { s with parts := s.parts.map h, cores := (releaseS4 s p).cores } ∧
      (∀ x, (h x).low = x.low ∧ (h x).ctx = x.ctx ∧ (h x).stopping = x.stopping) ∧
      (∀ x, x.s4Hold = none → (h x).s4Hold = none) ∧
      ∀ x : Part, p.s4Hold.isSome = true → x.low = p.low → (h x).s4Hold = none := by
  cases hp : p.s4Hold with
  | none =>
    have hsame : releaseS4 s p = s := by
      unfold releaseS4
      rw [hp]
    refine ⟨id, ?_, fun x => ⟨rfl, rfl, rfl⟩, fun x hx => hx, fun x h => Bool.noConfusion h⟩
    rw [hsame, List.map_id]
  | some y =>
    obtain ⟨t, at_⟩ := y
    unfold releaseS4
    rw [hp]
    dsimp only
    generalize hclear : (fun x : Part => if x.low = p.low then { x with s4Hold := none } else x) = clear
    have hclears : ∀ x, (clear x).low = x.low ∧ (clear x).ctx = x.ctx ∧ (clear x).stopping = x.stopping ∧
        (x.s4Hold = none → (clear x).s4Hold = none) ∧ (x.low = p.low → (clear x).s4Hold = none) := fun x => by
      rw [← hclear]
      dsimp only
      split
      · exact ⟨rfl, rfl, rfl, fun _ => rfl, fun _ => rfl⟩
      · next hne => exact ⟨rfl, rfl, rfl, fun h => h, fun h => absurd h hne⟩
    have hfirst : modPart s p.low (fun x => { x with s4Hold := none }) = { s with parts := s.parts.map clear } := by
      rw [← hclear]
      rfl
    rw [hfirst]
    split
    · generalize hpause : (fun x : Part => if x.low = p.low then { x with
        hangShuttle := x.hangShuttle.map (fun h => (h.1, h.2.1, h.2.2 + (s.pll - at_))) } else x) = pause
      have hpauses : ∀ x, (pause x).low = x.low ∧ (pause x).ctx = x.ctx ∧ (pause x).stopping = x.stopping ∧
          (pause x).s4Hold = x.s4Hold := fun x => by
        rw [← hpause]
        dsimp only
        split <;> exact ⟨rfl, rfl, rfl, rfl⟩
      refine ⟨pause ∘ clear, ?_, fun x => ?_, fun x hx => ?_, fun x _ hx => ?_⟩
      · rw [foldl_coresOnly (fun _ _ => rfl), ← List.map_map, ← hpause]
        rfl
      · obtain ⟨h1, h2, h3, -, -⟩ := hclears x
        obtain ⟨k1, k2, k3, -⟩ := hpauses (clear x)
        exact ⟨k1.trans h1, k2.trans h2, k3.trans h3⟩
      · exact (hpauses (clear x)).2.2.2.trans ((hclears x).2.2.2.1 hx)
      · exact (hpauses (clear x)).2.2.2.trans ((hclears x).2.2.2.2 hx)
    · exact ⟨clear, rfl, fun x => ⟨(hclears x).1, (hclears x).2.1, (hclears x).2.2.1⟩, fun x => (hclears x).2.2.2.1,
        fun x _ => (hclears x).2.2.2.2⟩

/-- A partition's place, context and stop. -/
def placeOfPart (p : Part) : Nat × Ctx × Bool := (p.low, p.ctx, p.stopping)

/-- S4's end for every partition. -/
theorem releaseAll_spec (s : State) : let t := s.parts.foldl releaseS4 s
    t = { s with parts := t.parts, cores := t.cores } ∧ t.parts.map placeOfPart = s.parts.map placeOfPart ∧
      ∀ p ∈ t.parts, p.s4Hold = none := by
  suffices hfold : ∀ (ps : List Part) (t : State),
      (∀ p ∈ t.parts, p.s4Hold = none ∨ ∃ y ∈ ps, y.low = p.low ∧ y.s4Hold.isSome = true) →
      ps.foldl releaseS4 t = { t with parts := (ps.foldl releaseS4 t).parts, cores := (ps.foldl releaseS4 t).cores } ∧
      (ps.foldl releaseS4 t).parts.map placeOfPart = t.parts.map placeOfPart ∧
      ∀ p ∈ (ps.foldl releaseS4 t).parts, p.s4Hold = none by
    refine hfold s.parts s (fun p hp => ?_)
    cases h : p.s4Hold with
    | none => exact .inl rfl
    | some y => exact .inr ⟨p, hp, rfl, by rw [h]; rfl⟩
  intro ps
  induction ps with
  | nil =>
    intro t h
    refine ⟨rfl, rfl, fun p hp => ?_⟩
    rcases h p hp with h0 | ⟨y, hy, -⟩
    · exact h0
    · exact absurd hy List.not_mem_nil
  | cons x ps ih =>
    intro t h
    obtain ⟨g, hframe, hplace, hkeep, hclear⟩ := releaseS4_spec t x
    rw [List.foldl_cons]
    have hparts : (releaseS4 t x).parts = t.parts.map g := by rw [hframe]
    generalize releaseS4 t x = u at *
    obtain ⟨hrest, hmap, hnone⟩ := ih u (fun p hp => by
      rw [hparts] at hp
      obtain ⟨y, hy, rfl⟩ := List.mem_map.mp hp
      rcases h y hy with h0 | ⟨z, hz, hlow, hsome⟩
      · exact .inl (hkeep y h0)
      · rcases List.mem_cons.mp hz with rfl | hz
        · exact .inl (hclear y hsome hlow.symm)
        · exact .inr ⟨z, hz, hlow.trans (hplace y).1.symm, hsome⟩)
    generalize ps.foldl releaseS4 u = v at *
    refine ⟨by rw [hrest, hframe], ?_, hnone⟩
    rw [hmap, hparts, List.map_map]
    refine List.map_congr_left (fun y _ => ?_)
    obtain ⟨h1, h2, h3⟩ := hplace y
    show ((g y).low, (g y).ctx, (g y).stopping) = _
    rw [h1, h2, h3]
    rfl

/-- A switch of CCLK changes the divider and generates a record. -/
theorem switchCclk_frame (s : State) : switchCclk s = { s with
    hbm := (switchCclk s).hbm, poisonHbm := (switchCclk s).poisonHbm, errors := (switchCclk s).errors
    draws := (switchCclk s).draws, power := { s.power with divNow := divWanted s }
    host := { s.host with msixPend := (switchCclk s).host.msixPend, messages := (switchCclk s).host.messages } } := by
  unfold switchCclk
  split
  · next h =>
    rw [h]
  · dsimp only
    rw [record_frame_eq]

/-- What the lifting of stages leaves of the supply, the memories and the fuses. -/
structure Lifted (s t : State) : Prop where
  power : t.power = { s.power with selfRefresh := t.power.selfRefresh, retention := t.power.retention
                                   s5Wait := t.power.s5Wait, s5Sent := t.power.s5Sent, divNow := t.power.divNow }
  lpddr : t.lpddr = s.lpddr
  fuses : t.fuses = s.fuses
  place : t.parts.map placeOfPart = s.parts.map placeOfPart
  asleep : s.power.selfRefresh = false → t.power.selfRefresh = false
  kept : s.power.retention = false → t.power.retention = false

theorem Lifted.refl (s : State) : Lifted s s := ⟨rfl, rfl, rfl, rfl, id, id⟩

theorem Lifted.trans {s t u : State} (h : Lifted s t) (k : Lifted t u) : Lifted s u where
  power := by rw [k.power, h.power]
  lpddr := k.lpddr.trans h.lpddr
  fuses := k.fuses.trans h.fuses
  place := k.place.trans h.place
  asleep := fun h0 => k.asleep (h.asleep h0)
  kept := fun h0 => k.kept (h.kept h0)

theorem lifted_release (s : State) : Lifted s (s.parts.foldl releaseS4 s) := by
  obtain ⟨hframe, hplace, -⟩ := releaseAll_spec s
  have hpower : (s.parts.foldl releaseS4 s).power = s.power := by rw [hframe]
  exact ⟨by rw [hpower], by rw [hframe], by rw [hframe], hplace, fun h => by rw [hpower]; exact h,
    fun h => by rw [hpower]; exact h⟩

theorem lifted_switch (s : State) : Lifted s (switchCclk s) := by
  have hframe := switchCclk_frame s
  generalize switchCclk s = t at *
  have hpower : t.power = { s.power with divNow := divWanted s } := by rw [hframe]
  have hparts : t.parts = s.parts := by rw [hframe]
  exact ⟨by rw [hpower], by rw [hframe], by rw [hframe], by rw [hparts], fun h => by rw [hpower]; exact h,
    fun h => by rw [hpower]; exact h⟩

theorem portsOnly_resumeSweeps (s : State) (ks : List Nat) : portsOnly s (ks.foldl resumeSweeps s) :=
  portsOnly_foldl (f := resumeSweeps) (fun _ _ => rfl) ks s

theorem lifted_ports {s t : State} (h : portsOnly s t) : Lifted s t := by
  unfold portsOnly at h
  have hpower : t.power = s.power := by rw [h]
  have hparts : t.parts = s.parts := by rw [h]
  exact ⟨by rw [hpower], by rw [h], by rw [h], by rw [hparts], fun h0 => by rw [hpower]; exact h0,
    fun h0 => by rw [hpower]; exact h0⟩

/-- The stages of `liftStages` one by one. -/
def liftWake (s : State) (old new : Nat) : State := if old = 5 ∧ new < 5 then wakeS5 s else s
def liftHolds (s : State) (old new : Nat) : State := if 4 ≤ old ∧ new < 4 then s.parts.foldl releaseS4 s else s
def liftClock (s : State) (old new : Nat) : State := if 3 ≤ old ∧ new < 3 then switchCclk s else s
def liftSweeps (s : State) (old new : Nat) : State :=
  if 1 ≤ old ∧ new = 0 then (List.range 8).foldl resumeSweeps s else s

theorem liftStages_eq (s : State) (old new : Nat) : liftStages s old new =
    liftSweeps (liftClock (liftHolds (liftWake s old new) old new) old new) old new := rfl

theorem lifted_wake (s : State) (old new : Nat) : Lifted s (liftWake s old new) ∧
    (old = 5 → new < 5 → (liftWake s old new).power.selfRefresh = false ∧ (liftWake s old new).power.retention = false) ∧
    (liftWake s old new).power.stage = s.power.stage := by
  unfold liftWake
  split
  · exact ⟨⟨rfl, rfl, rfl, rfl, fun _ => rfl, fun _ => rfl⟩, fun _ _ => ⟨rfl, rfl⟩, rfl⟩
  · next h => exact ⟨.refl s, fun h5 hlt => absurd ⟨h5, hlt⟩ h, rfl⟩

theorem liftHolds_spec (s : State) (old new : Nat) : Lifted s (liftHolds s old new) ∧
    (4 ≤ old → new < 4 → ∀ p ∈ (liftHolds s old new).parts, p.s4Hold = none) := by
  unfold liftHolds
  split
  · exact ⟨lifted_release s, fun _ _ => (releaseAll_spec s).2.2⟩
  · next h => exact ⟨.refl s, fun h4 hlt => absurd ⟨h4, hlt⟩ h⟩

theorem liftClock_spec (s : State) (old new : Nat) : Lifted s (liftClock s old new) ∧
    (liftClock s old new).parts = s.parts ∧
    (3 ≤ old → new < 3 → (liftClock s old new).power.divNow = divWanted s) := by
  unfold liftClock
  split
  · refine ⟨lifted_switch s, ?_, fun _ _ => ?_⟩
    · rw [switchCclk_frame]
    · rw [switchCclk_frame]
  · next h => exact ⟨.refl s, rfl, fun h3 hlt => absurd ⟨h3, hlt⟩ h⟩

theorem liftSweeps_spec (s : State) (old new : Nat) : Lifted s (liftSweeps s old new) ∧
    (liftSweeps s old new).parts = s.parts ∧ (liftSweeps s old new).power = s.power := by
  unfold liftSweeps
  split
  · have hports := portsOnly_resumeSweeps s (List.range 8)
    refine ⟨lifted_ports hports, ?_, ?_⟩
    · rw [hports]
    · rw [hports]
  · exact ⟨.refl s, rfl, rfl⟩

theorem divWanted_lifted {s t : State} (h : Lifted s t) : divWanted t = divWanted s := by
  unfold divWanted shedDiv stageNow
  rw [h.power]

/-- What the lifting of stages does. -/
theorem liftStages_spec (s : State) (old new : Nat) : let t := liftStages s old new
    Lifted s t ∧ (old = 5 → new < 5 → t.power.selfRefresh = false ∧ t.power.retention = false) ∧
      (4 ≤ old → new < 4 → ∀ p ∈ t.parts, p.s4Hold = none) ∧
      (3 ≤ old → new < 3 → t.power.divNow = divWanted s) := by
  rw [liftStages_eq]
  obtain ⟨hwake, hslept, -⟩ := lifted_wake s old new
  generalize liftWake s old new = a at *
  obtain ⟨hhold, hholds⟩ := liftHolds_spec a old new
  generalize liftHolds a old new = b at *
  obtain ⟨hclock, hparts, hdiv⟩ := liftClock_spec b old new
  generalize liftClock b old new = c at *
  obtain ⟨hsweep, hparts', hpower⟩ := liftSweeps_spec c old new
  generalize liftSweeps c old new = d at *
  intro t
  refine ⟨((hwake.trans hhold).trans hclock).trans hsweep, fun h5 hlt => ?_, fun h4 hlt => ?_, fun h3 hlt => ?_⟩
  · obtain ⟨h1, h2⟩ := hslept h5 hlt
    exact ⟨((hhold.trans hclock).trans hsweep).asleep h1, ((hhold.trans hclock).trans hsweep).kept h2⟩
  · show ∀ p ∈ d.parts, _
    rw [hparts', hparts]
    exact hholds h4 hlt
  · show d.power.divNow = _
    rw [hpower, hdiv h3 hlt, divWanted_lifted (hwake.trans hhold)]

end Sys2Proof.Machine
end

section
/-! Supply averages, the limit of S4, the reference clock and heat (R625 to R646), and the windows of histories. -/

namespace Sys2Proof.Machine

/-! ### A change of stage (R633, R634) -/

/-- A change of stage is counted, recorded and signalled before its actions. -/
def stageNoted (s : State) (new average : Nat) : State :=
  raiseVector (record { s with power := { s.power with
    stage := new, stageCounts := countStages s.power.stageCounts s.power.stage new } }
    { kind := 0x40, detail := s.power.stage + new * 2 ^ 3 + average * 2 ^ 16 }) 33

theorem changeStage_eq (s : State) (new average : Nat) : changeStage s new average =
    if (stageNoted s new average).power.tclkAbsent then stageNoted s new average
    else if stageNow s < new then enterStages (stageNoted s new average) (stageNow s) new true
    else liftStages (stageNoted s new average) (stageNow s) new := rfl

theorem stageNoted_frame (s : State) (new average : Nat) : stageNoted s new average = { s with
    hbm := (stageNoted s new average).hbm, poisonHbm := (stageNoted s new average).poisonHbm
    errors := (stageNoted s new average).errors, draws := (stageNoted s new average).draws
    host := { s.host with msixPend := (stageNoted s new average).host.msixPend
                          messages := (stageNoted s new average).host.messages }
    power := { s.power with stage := new, stageCounts := countStages s.power.stageCounts s.power.stage new } } := by
  unfold stageNoted
  rw [raiseVector_frame, record_frame_eq]

theorem recorded_stageNoted (s : State) (new average : Nat) : recorded s (stageNoted s new average)
    { kind := 0x40, detail := s.power.stage + new * 2 ^ 3 + average * 2 ^ 16 } := by
  have hrec : recorded s (record { s with power := { s.power with
      stage := new, stageCounts := countStages s.power.stageCounts s.power.stage new } }
      { kind := 0x40, detail := s.power.stage + new * 2 ^ 3 + average * 2 ^ 16 })
      { kind := 0x40, detail := s.power.stage + new * 2 ^ 3 + average * 2 ^ 16 } := recorded_after _ rfl rfl
  unfold stageNoted
  refine recorded_congr hrec rfl rfl ?_ ?_
  · rw [raiseVector_frame]
  · rw [raiseVector_frame]

/-- A deeper stage. -/
theorem changeStage_deeper {s : State} {new average : Nat} (hclk : s.power.tclkAbsent = false) (hlt : s.power.stage < new)
    (hnew : new ≤ 5) : let t := changeStage s new average
    t.power.stage = new ∧ t.power.vinAvg = s.power.vinAvg ∧ t.lpddr = s.lpddr ∧ t.fuses = s.fuses ∧ t.cores = s.cores ∧
    recorded s t { kind := 0x40, detail := s.power.stage + new * 2 ^ 3 + average * 2 ^ 16 } ∧
    t.power.stageCounts = countStages s.power.stageCounts s.power.stage new ∧
    (new < 5 → t.parts = s.parts ∧ (1 ≤ s.power.stage → t.ports = s.ports) ∧ (s.power.stage = 0 → t.ports =
      (List.range 8).foldl (fun ps k => (holdSweeps { s with ports := ps } k).ports) s.ports)) ∧
    (s.power.stage < 4 → 4 ≤ new → t.power.s4At = s.pll) ∧
    (new = 5 → (∀ p ∈ t.parts, settledOrHeld s p) ∧
      ((∀ p ∈ s.parts, p.ctx ≠ .running) → portsDark s = true → memoryIdle s = true →
        t.power.selfRefresh = true ∧ t.power.retention = true ∧
        t.flash.supply = s.flash.supply ++ [10 * (s.pll / 102)])) := by
  have hframe := stageNoted_frame s new average
  have hrec := recorded_stageNoted s new average
  have hnow : stageNow s = s.power.stage := if_neg (by rw [hclk]; exact Bool.false_ne_true)
  rw [changeStage_eq, hnow]
  generalize stageNoted s new average = u at *
  have habsent : u.power.tclkAbsent = false := by rw [hframe]; exact hclk
  rw [habsent, if_neg Bool.false_ne_true, if_pos hlt]
  obtain ⟨honly, hshallow, hs4, -, hdeep⟩ := enterStages_spec u s.power.stage new true
  generalize enterStages u s.power.stage new true = t at *
  intro t'
  have hpower : u.power = { s.power with
      stage := new, stageCounts := countStages s.power.stageCounts s.power.stage new } := by rw [hframe]
  have hports : u.ports = s.ports := by rw [hframe]
  have hparts : u.parts = s.parts := by rw [hframe]
  have hpll : u.pll = s.pll := by rw [hframe]
  have hflash : u.flash = s.flash := by rw [hframe]
  have hcc : u.cc = s.cc := by rw [hframe]
  have hlpddr : u.lpddr = s.lpddr := by rw [hframe]
  have hfuses : u.fuses = s.fuses := by rw [hframe]
  have hcores : u.cores = s.cores := by rw [hframe]
  have hdark : portsDark u = portsDark s := by rw [hframe]; rfl
  have hmem : memoryIdle u = memoryIdle s := by rw [hframe]; rfl
  have hsweeps : ∀ ps k, (holdSweeps { u with ports := ps } k).ports = (holdSweeps { s with ports := ps } k).ports :=
    fun _ _ => rfl
  clear hframe
  have hstage : t.power.stage = u.power.stage := by rw [honly]
  have hvin : t.power.vinAvg = u.power.vinAvg := by rw [honly]
  have hcounts : t.power.stageCounts = u.power.stageCounts := by rw [honly]
  refine ⟨hstage.trans (by rw [hpower]), hvin.trans (by rw [hpower]), ?_, ?_, ?_, ?_, hcounts.trans (by rw [hpower]),
    fun h5 => ?_, fun h4 h4' => (hs4 h4 h4').trans hpll, fun h5 => ?_⟩
  · show t.lpddr = _
    rw [honly, ← hlpddr]
  · show t.fuses = _
    rw [honly, ← hfuses]
  · show t.cores = _
    rw [honly, ← hcores]
  · refine recorded_congr hrec rfl rfl ?_ ?_
    · show t.errors = _
      rw [honly]
    · show t.hbm = _
      rw [honly]
  · obtain ⟨h1, h2, h3⟩ := hshallow h5
    refine ⟨h1.trans hparts, fun h => (h2 h).trans hports, fun h => ?_⟩
    rw [← hports]
    exact (h3 h (by omega)).trans (by simp only [hsweeps])
  · obtain ⟨-, hstops, hfinish⟩ := hdeep (by omega) h5
    refine ⟨fun p hp hrun => ?_, fun hidle hd hm => ?_⟩
    · rw [← s4Holds_congr hcc]
      exact hstops p hp hrun
    · obtain ⟨h1, h2, h3⟩ := hfinish (by rw [hparts]; exact hidle) (hdark.trans hd) (hmem.trans hm)
      exact ⟨h1, h2, (h3 rfl).trans (by rw [hflash, hpll])⟩

theorem countStages_back (t : Tbl Dword) {old new : Nat} (h : new ≤ old) : countStages t old new = t := by
  unfold countStages
  generalize List.range 6 = ks
  induction ks with
  | nil => rfl
  | cons k ks ih => rw [List.foldl_cons, if_neg (by omega), ih]

/-- The slowest request below S3. -/
theorem divWanted_shallow {s : State} (hclk : s.power.tclkAbsent = false) (h : s.power.stage < 3) :
    divWanted s = max s.power.divHost s.power.divTherm := by
  unfold divWanted shedDiv stageNow
  rw [hclk, if_neg Bool.false_ne_true, if_neg (by omega), Nat.max_zero]

/-- A shallower stage. -/
theorem changeStage_shallower {s : State} {new average : Nat} (hclk : s.power.tclkAbsent = false)
    (hlt : new < s.power.stage) : let t := changeStage s new average
    t.power.stage = new ∧ t.power.vinAvg = s.power.vinAvg ∧ t.lpddr = s.lpddr ∧ t.fuses = s.fuses ∧
    t.power.stageCounts = s.power.stageCounts ∧
    (s.power.stage = 5 → t.power.selfRefresh = false ∧ t.power.retention = false) ∧
    t.power.s5Ending = s.power.s5Ending ∧
    (4 ≤ s.power.stage → new < 4 → ∀ p ∈ t.parts, p.s4Hold = none) ∧
    (3 ≤ s.power.stage → new < 3 → t.power.divNow = max s.power.divHost s.power.divTherm) ∧
    t.parts.map placeOfPart = s.parts.map placeOfPart := by
  have hframe := stageNoted_frame s new average
  have hnow : stageNow s = s.power.stage := if_neg (by rw [hclk]; exact Bool.false_ne_true)
  rw [countStages_back _ (Nat.le_of_lt hlt)] at hframe
  rw [changeStage_eq, hnow]
  generalize stageNoted s new average = u at *
  have hpower : u.power = { s.power with stage := new } := by rw [hframe]
  have hparts : u.parts = s.parts := by rw [hframe]
  have hlpddr : u.lpddr = s.lpddr := by rw [hframe]
  have hfuses : u.fuses = s.fuses := by rw [hframe]
  clear hframe
  have habsent : u.power.tclkAbsent = false := by rw [hpower]; exact hclk
  have hstage : u.power.stage = new := by rw [hpower]
  rw [habsent, if_neg Bool.false_ne_true, if_neg (by omega)]
  obtain ⟨hlift, hslept, hholds, hdiv⟩ := liftStages_spec u s.power.stage new
  generalize liftStages u s.power.stage new = t at *
  intro t'
  have hkept := hlift.power
  rw [hpower] at hkept
  refine ⟨?_, ?_, hlift.lpddr.trans hlpddr, hlift.fuses.trans hfuses, ?_, fun h5 => hslept h5 (by omega), ?_, hholds,
    fun h3 h3' => ?_, hlift.place.trans (by rw [hparts])⟩
  · show t.power.stage = _
    rw [hkept]
  · show t.power.vinAvg = _
    rw [hkept]
  · show t.power.stageCounts = _
    rw [hkept]
  · show t.power.s5Ending = _
    rw [hkept]
  · refine (hdiv h3 h3').trans ?_
    rw [divWanted_shallow habsent (by omega), hpower]

/-! ### SHED_STAGE_CHANGE -/

/-- The state with a new average, and as S5 begins to end. -/
def averaged (s : State) (a : Nat) : State := { s with power := { s.power with vinAvg := a } }

def endBegun (s : State) (a new : Nat) : State := { s with power := { s.power with
  vinAvg := a, selfRefresh := false, retention := false, s5Sent := false, s5Ending := some new } }

section
variable {s : State} {average : Nat} (hwait : s.power.s5Wait = none) (hend : s.power.s5Ending = none)
include hwait hend

theorem settled_averaged (a : Nat) : settleEnd (settleS5 (averaged s a)) = averaged s a := by
  have hsettle : settleS5 (averaged s a) = averaged s a := by
    unfold settleS5
    rw [show (averaged s a).power.s5Wait = none from hwait]
  rw [hsettle]
  unfold settleEnd
  rw [show (averaged s a).power.s5Ending = none from hend]

/-- What an average does where S5 neither begins nor ends. -/
theorem exec_shedStageChange : exec (.shedStageChange average) s =
    .next (if s.power.stage = 5 then
        leaveS5 (averaged s (min average 65535)) (stageFor s.power.stage (min average 65535)) (min average 65535)
      else if stageFor s.power.stage (min average 65535) = s.power.stage then averaged s (min average 65535)
      else changeStage (averaged s (min average 65535)) (stageFor s.power.stage (min average 65535)) (min average 65535)) := by
  show execShedStageChange average s = _
  unfold execShedStageChange
  dsimp only
  rw [← averaged, settled_averaged hwait hend]
  refine congrArg Host.Outcome.next ?_
  have hnot : ¬ (stageFor s.power.stage (min average 65535) = 5 ∧
      (averaged s (min average 65535)).power.s5Ending.isSome = true) := by
    rintro ⟨-, h⟩
    rw [show (averaged s (min average 65535)).power.s5Ending = none from hend] at h
    exact Bool.noConfusion h
  rw [show (averaged s (min average 65535)).power.stage = s.power.stage from rfl, if_neg hnot]

theorem shedStageChange_same (h : stageFor s.power.stage (min average 65535) = s.power.stage) :
    exec (.shedStageChange average) s = .next (averaged s (min average 65535)) := by
  rw [exec_shedStageChange hwait hend]
  refine congrArg Host.Outcome.next ?_
  split
  · next h5 =>
    rw [h5] at h
    unfold leaveS5
    rw [h5, h, if_pos rfl, show (averaged s (min average 65535)).power.s5Ending = none from hend]
    rfl
  · rfl

theorem shedStageChange_other (h5 : s.power.stage ≠ 5) (h : stageFor s.power.stage (min average 65535) ≠ s.power.stage) :
    exec (.shedStageChange average) s = .next (changeStage (averaged s (min average 65535))
      (stageFor s.power.stage (min average 65535)) (min average 65535)) := by
  rw [exec_shedStageChange hwait hend, if_neg h5, if_neg h]

theorem shedStageChange_ends (h5 : s.power.stage = 5) (hlt : stageFor s.power.stage (min average 65535) < 5)
    (hclk : s.power.tclkAbsent = false) : exec (.shedStageChange average) s = .next
      (settleEnd (endBegun s (min average 65535) (stageFor s.power.stage (min average 65535)))) := by
  rw [exec_shedStageChange hwait hend, if_pos h5]
  refine congrArg Host.Outcome.next ?_
  unfold leaveS5
  rw [if_neg (by omega), if_neg (by rw [show (averaged s (min average 65535)).power.tclkAbsent = false from hclk]; simp)]
  refine congrArg settleEnd ?_
  unfold wakeS5 averaged endBegun
  rw [← hwait]

end

theorem settleEnd_waits {s : State} {new : Nat} (h : s.power.s5Ending = some new) (hup : portsUp s = false) :
    settleEnd s = s := by
  unfold settleEnd
  rw [h]
  dsimp only
  rw [hup, if_neg Bool.false_ne_true]

theorem settleEnd_supply {s : State} {new : Nat} (h : s.power.s5Ending = some new) (hup : portsUp s = true)
    (h5 : s.power.stage = 5) : settleEnd s =
      changeStage { s with power := { s.power with s5Ending := none } } (min new 5) s.power.vinAvg := by
  unfold settleEnd
  rw [h]
  dsimp only
  rw [hup, if_pos rfl, if_pos h5]

theorem settleEnd_clock {s : State} {new : Nat} (h : s.power.s5Ending = some new) (hup : portsUp s = true)
    (h5 : s.power.stage ≠ 5) : settleEnd s =
      liftStages { s with power := { s.power with s5Ending := none, tclkAbsent := false } } 5 s.power.stage := by
  unfold settleEnd
  rw [h]
  dsimp only
  rw [hup, if_pos rfl, if_neg h5]

/-- A shallower stage takes force. -/
theorem shedStageChange_shallower {s : State} {average : Nat} (hwait : s.power.s5Wait = none)
    (hend : s.power.s5Ending = none) (hlt : stageFor s.power.stage (min average 65535) < s.power.stage)
    (hclk : s.power.tclkAbsent = false) (hup : s.power.stage = 5 →
      portsUp (endBegun s (min average 65535) (stageFor s.power.stage (min average 65535))) = true) :
    ∃ t, exec (.shedStageChange average) s = .next t ∧
      t.power.stage = stageFor s.power.stage (min average 65535) ∧ t.power.vinAvg = min average 65535 ∧
      t.lpddr = s.lpddr ∧ t.fuses = s.fuses ∧ t.power.stageCounts = s.power.stageCounts ∧
      (s.power.stage = 5 → t.power.selfRefresh = false ∧ t.power.retention = false ∧ t.power.s5Ending = none) ∧
      (4 ≤ s.power.stage → stageFor s.power.stage (min average 65535) < 4 → ∀ p ∈ t.parts, p.s4Hold = none) ∧
      (3 ≤ s.power.stage → stageFor s.power.stage (min average 65535) < 3 →
        t.power.divNow = max s.power.divHost s.power.divTherm) ∧
      t.parts.map placeOfPart = s.parts.map placeOfPart := by
  by_cases h5 : s.power.stage = 5
  · rw [shedStageChange_ends hwait hend h5 (h5 ▸ hlt) hclk, settleEnd_supply rfl (hup h5) h5,
      Nat.min_eq_left (by omega : stageFor s.power.stage (min average 65535) ≤ 5)]
    obtain ⟨h1, h2, h3, h4, h6, h7, h8, h9, h10, h11⟩ := changeStage_shallower (average := min average 65535)
      (s := { endBegun s (min average 65535) (stageFor s.power.stage (min average 65535)) with power := {
        (endBegun s (min average 65535) (stageFor s.power.stage (min average 65535))).power with s5Ending := none } })
      hclk hlt
    exact ⟨_, rfl, h1, h2, h3, h4, h6, fun h => ⟨(h7 h).1, (h7 h).2, h8⟩, h9, h10, h11⟩
  · rw [shedStageChange_other hwait hend h5 (by omega)]
    obtain ⟨h1, h2, h3, h4, h6, -, -, h9, h10, h11⟩ := changeStage_shallower (average := min average 65535)
      (s := averaged s (min average 65535)) hclk hlt
    exact ⟨_, rfl, h1, h2, h3, h4, h6, fun h => absurd h h5, h9, h10, h11⟩

end Sys2Proof.Machine
end

section
/-! The limit of S4, the reference clock, heat and the windows of histories (R572, R627, R640, R645, R646); the supply
obligation. -/

namespace Sys2Proof.Machine

/-! ### CCLK_DIVIDER_CHANGE (R625, R626) -/

theorem exec_cclkDividerChange (s : State) :
    (divWanted s = s.power.divNow → exec .cclkDividerChange s = .next s) ∧
    (divWanted s ≠ s.power.divNow → ∃ t, exec .cclkDividerChange s = .next t ∧
      t.power = { s.power with divNow := divWanted s } ∧
      recorded s t { kind := 0x41, detail := s.power.divNow + divWanted s * 2 ^ 3 + divSource s * 2 ^ 6 } ∧
      t.cores = s.cores) := by
  refine ⟨fun h => congrArg _ (if_pos h), fun h => ?_⟩
  refine ⟨record { s with power := { s.power with divNow := divWanted s } }
    { kind := 0x41, detail := s.power.divNow + divWanted s * 2 ^ 3 + divSource s * 2 ^ 6 }, congrArg _ (if_neg h), ?_,
    recorded_after _ rfl rfl, ?_⟩
  · rw [record_frame_eq]
  · rw [record_frame_eq]

/-! ### S4_LIMIT_EXPIRY (R640) -/

theorem exec_s4LimitExpiry (q : Fin 8) (s : State) (p : Part) (hq : partOf s q.val = some p) (hp : partAt s p.low = some p) :
    let late := 4 ≤ stageNow s ∧ p.ctx = .running ∧ p.stopping = false ∧ s4Holds s p = false ∧
      s.power.s4At + ms s.power.s4LimitMs ≤ s.pll
    (¬ late → exec (.s4LimitExpiry q) s = .next s) ∧
    (late → ∃ t, exec (.s4LimitExpiry q) s = .next t ∧ partAt t p.low = some { p with stopping := true } ∧
      recorded s t (partRec 0x46 p p.low) ∧ t.cores = s.cores) := by
  intro late
  have hexec : exec (.s4LimitExpiry q) s =
      if late then .next (stopPart (record s (partRec 0x46 p p.low)) p.low) else .next s := by
    show execS4LimitExpiry q s = _
    unfold execS4LimitExpiry
    rw [hq]
  rw [hexec]
  refine ⟨fun h => if_neg h, fun h => ⟨_, if_pos h, ?_, ?_, ?_⟩⟩
  · have hkept : partAt (record s (partRec 0x46 p p.low)) p.low = some p := by
      rw [record_frame_eq]
      exact hp
    refine (partAt_modPart hkept (fun x => ?_)).trans (congrArg some (if_pos h.2.1))
    split <;> rfl
  · exact recorded_congr (recorded_record s (partRec 0x46 p p.low)) rfl rfl rfl rfl
  · show (record s (partRec 0x46 p p.low)).cores = _
    rw [record_frame_eq]

/-! ### The reference clock (R627) -/

theorem exec_tclkLoss {s : State} (h : s.power.tclk = true) : ∃ t, exec .tclkLoss s = .next t ∧
    recorded s t { kind := 0x47 } ∧ t.power = { s.power with tclk := false, tclkLostAt := some (s.pll - us 1) } ∧
    t.parts = s.parts ∧ t.cores = s.cores := by
  refine ⟨_, if_pos h, recorded_after _ rfl rfl, ?_, ?_, ?_⟩
  · rw [record_frame_eq]
  · rw [record_frame_eq]
  · rw [record_frame_eq]

section
variable {s : State} {at_ : Nat} (hlost : s.power.tclkLostAt = some at_)
include hlost

theorem tclkAbsent_idle (h : (s.power.tclkAbsent = true ∧ s.power.s5Ending = none) ∨ s.pll < at_ + ms 100) :
    exec .tclkAbsent s = .next s := by
  show execTclkAbsent s = _
  unfold execTclkAbsent
  rw [hlost]
  dsimp only
  by_cases hearly : s.pll < at_ + ms 100
  · exact if_pos hearly
  · obtain ⟨habsent, hend⟩ := h.resolve_right hearly
    rw [if_neg hearly, hend, if_neg (by simp), if_pos habsent]

/-- After 100 ms the actions of S5 apply, or apply again. -/
theorem tclkAbsent_applies (h : s.power.tclkAbsent = false ∨ s.power.s5Ending.isSome = true) (hlate : at_ + ms 100 ≤ s.pll) :
    ∃ t, exec .tclkAbsent s = .next t ∧ t.power.tclkAbsent = true ∧ t.power.stage = s.power.stage ∧ t.cores = s.cores ∧
      t.errors = s.errors ∧ t.power.s5Ending = none ∧ (s.power.stage < 5 → (∀ p ∈ t.parts, settledOrHeld s p) ∧
        ((∀ p ∈ s.parts, p.ctx ≠ .running) → portsDark s = true → memoryIdle s = true →
          t.power.selfRefresh = true ∧ t.power.retention = true)) := by
  show ∃ t, execTclkAbsent s = .next t ∧ _
  unfold execTclkAbsent
  rw [hlost]
  dsimp only
  rw [if_neg (Nat.not_lt.mpr hlate)]
  by_cases hend : s.power.s5Ending.isSome = true
  · rw [if_pos hend]
    unfold resumeS5
    obtain ⟨honly, hending, hstops⟩ := enterS5_spec
      { s with power := { s.power with tclkAbsent := true, s5Ending := none } } false
    have hfinish := enterS5_finishes (s := { s with power := { s.power with tclkAbsent := true, s5Ending := none } }) false
    generalize enterS5 { s with power := { s.power with tclkAbsent := true, s5Ending := none } } false = t at *
    refine ⟨t, rfl, ?_, ?_, ?_, ?_, hending, fun _ => ⟨hstops, fun hidle hd hm => ?_⟩⟩
    · rw [honly]
    · rw [honly]
    · rw [honly]
    · rw [honly]
    · obtain ⟨h1, h2, -⟩ := hfinish hidle hd hm
      exact ⟨h1, h2⟩
  · have hclk : s.power.tclkAbsent = false := h.resolve_right hend
    rw [if_neg hend, if_neg (by rw [hclk]; exact Bool.false_ne_true)]
    obtain ⟨honly, -, -, hending, hdeep⟩ := enterStages_spec
      { s with power := { s.power with tclkAbsent := true } } s.power.stage 5 true
    generalize enterStages { s with power := { s.power with tclkAbsent := true } } s.power.stage 5 true = t at *
    have hnone : s.power.s5Ending = none := by
      rw [← Option.isNone_iff_eq_none, ← Option.not_isSome]
      simpa using hend
    refine ⟨t, rfl, ?_, ?_, ?_, ?_, ?_, fun h5 => ?_⟩
    · rw [honly]
    · rw [honly]
    · rw [honly]
    · rw [honly]
    · by_cases h5 : s.power.stage < 5
      · exact (hdeep h5 rfl).1
      · exact (hending (fun h => h5 h.1)).trans hnone
    · obtain ⟨-, hstops, hfinish⟩ := hdeep h5 rfl
      exact ⟨hstops, fun hidle hd hm => ⟨(hfinish hidle hd hm).1, (hfinish hidle hd hm).2.1⟩⟩

end

/-- The state as the clock is back, and as its absence's actions begin to end. -/
def clockBack (s : State) : State := { s with power := { s.power with tclk := true, tclkLostAt := none } }

def clockEnding (s : State) : State := { s with power := { s.power with
  tclk := true, tclkLostAt := none, selfRefresh := false, retention := false, s5Wait := none, s5Sent := false
  s5Ending := some s.power.stage } }

section
variable {s : State} (hlost : s.power.tclk = false)
include hlost

theorem exec_tclkReturn : exec .tclkReturn s = .next
    (if !s.power.tclkAbsent then clockBack s
    else if s.power.stage = 5 then
      { clockBack s with power := { (clockBack s).power with tclkAbsent := false } }
    else settleEnd (clockEnding s)) := by
  show execTclkReturn s = _
  unfold execTclkReturn
  rw [hlost, if_neg Bool.false_ne_true]
  rfl

theorem tclkReturn_lifts (habsent : s.power.tclkAbsent = true) (h5 : s.power.stage ≠ 5) (hup : portsUp (clockEnding s) = true) :
    ∃ t, exec .tclkReturn s = .next t ∧ t.power.tclk = true ∧ t.power.tclkAbsent = false ∧ t.power.tclkLostAt = none ∧
      t.power.stage = s.power.stage ∧ t.power.selfRefresh = false ∧ t.power.retention = false ∧
      t.power.s5Ending = none := by
  rw [exec_tclkReturn hlost, habsent, Bool.not_true, if_neg Bool.false_ne_true, if_neg h5,
    settleEnd_clock (new := s.power.stage) rfl hup h5]
  obtain ⟨hlift, -⟩ := liftStages_spec { clockEnding s with power := { (clockEnding s).power with
    s5Ending := none, tclkAbsent := false } } 5 (clockEnding s).power.stage
  generalize liftStages { clockEnding s with power := { (clockEnding s).power with
    s5Ending := none, tclkAbsent := false } } 5 (clockEnding s).power.stage = t at *
  have hpower := hlift.power
  refine ⟨t, rfl, ?_, ?_, ?_, ?_, hlift.asleep rfl, hlift.kept rfl, ?_⟩
  · rw [hpower]
    rfl
  · rw [hpower]
  · rw [hpower]
    rfl
  · rw [hpower]
    rfl
  · rw [hpower]

end

/-! ### Heat (R645, R646) -/

/-- A throttle step stores its code and records the ends of throttling. -/
theorem setTherm_spec (s : State) (code : Nat) (edge : Bool)
    (hedge : edge = true ↔ ((s.power.divTherm = 0 ∧ code ≠ 0) ∨ (s.power.divTherm ≠ 0 ∧ code = 0))) :
    let t := setTherm s code
    t.power = { s.power with divTherm := code, thermAt := s.pll } ∧ t.cores = s.cores ∧ t.parts = s.parts ∧
      (edge = false → t.errors = s.errors) ∧ (edge = true → recorded s t
        { kind := 0x42, detail := tmaxBits s.power.tmax + (if s.power.divTherm = 0 then 2 ^ 16 else 0) }) := by
  have hnoted : ∀ r : RecIn, let t := raiseVector (record { s with power := { s.power with
        divTherm := code, thermAt := s.pll } } r) 35
      t.power = { s.power with divTherm := code, thermAt := s.pll } ∧ t.cores = s.cores ∧ t.parts = s.parts ∧
        recorded s t r := fun r => by
    have hrec : recorded s (record { s with power := { s.power with divTherm := code, thermAt := s.pll } } r) r :=
      recorded_after r rfl rfl
    refine ⟨?_, ?_, ?_, recorded_congr hrec rfl rfl ?_ ?_⟩
    · rw [raiseVector_frame, record_frame_eq]
    · rw [raiseVector_frame, record_frame_eq]
    · rw [raiseVector_frame, record_frame_eq]
    · rw [raiseVector_frame]
    · rw [raiseVector_frame]
  unfold setTherm
  dsimp only
  by_cases hstart : s.power.divTherm = 0 ∧ code ≠ 0
  · rw [if_pos hstart, if_pos hstart.1]
    obtain ⟨h1, h2, h3, h4⟩ := hnoted { kind := 0x42, detail := tmaxBits s.power.tmax + 2 ^ 16 }
    have htrue : edge = true := hedge.mpr (.inl hstart)
    exact ⟨h1, h2, h3, fun h => absurd (htrue.symm.trans h) Bool.noConfusion, fun _ => h4⟩
  · rw [if_neg hstart]
    by_cases hstop : s.power.divTherm ≠ 0 ∧ code = 0
    · rw [if_pos hstop, if_neg hstop.1]
      obtain ⟨h1, h2, h3, h4⟩ := hnoted { kind := 0x42, detail := tmaxBits s.power.tmax }
      have htrue : edge = true := hedge.mpr (.inr hstop)
      exact ⟨h1, h2, h3, fun h => absurd (htrue.symm.trans h) Bool.noConfusion, fun _ => h4⟩
    · rw [if_neg hstop]
      exact ⟨rfl, rfl, rfl, fun _ => rfl, fun h => ((hedge.mp h).elim hstart hstop).elim⟩

/-- The statement of a step to a code. -/
def thermStep (x : Int) (s : State) (c : Nat) (edge : Bool) : Prop := ∃ t, exec (.thermalThrottleStep x) s = .next t ∧
  t.power = { s.power with tmax := x, divTherm := c, thermAt := s.pll } ∧ t.cores = s.cores ∧ t.parts = s.parts ∧
  (edge = false → t.errors = s.errors) ∧
  (edge = true → recorded s t { kind := 0x42, detail := tmaxBits x + (if c = 0 then 0 else 2 ^ 16) })

theorem thermStep_of_setTherm {x : Int} {s : State} {c : Nat} {edge : Bool}
    (hexec : exec (.thermalThrottleStep x) s = .next (setTherm (setTmax s x) c))
    (hedge : edge = true ↔ ((s.power.divTherm = 0 ∧ c ≠ 0) ∨ (s.power.divTherm ≠ 0 ∧ c = 0))) : thermStep x s c edge := by
  obtain ⟨h1, h2, h3, h4, h5⟩ := setTherm_spec (setTmax s x) c edge hedge
  refine ⟨_, hexec, h1, h2, h3, h4, fun he => ?_⟩
  have hbit : (if (setTmax s x).power.divTherm = 0 then 2 ^ 16 else 0) = if c = 0 then 0 else 2 ^ 16 := by
    show (if s.power.divTherm = 0 then 2 ^ 16 else 0) = _
    rcases hedge.mp he with ⟨h0, hc⟩ | ⟨h0, hc⟩
    · rw [if_pos h0, if_neg hc]
    · rw [if_neg h0, if_pos hc]
  have hrec := h5 he
  rw [hbit] at hrec
  exact hrec

theorem thermal_slower {x : Int} {s : State} (hhot : (s.power.throttle : Int) ≤ x) (hcode : s.power.divTherm < 4)
    (hdue : s.power.thermAt + ms 1 ≤ s.pll) : thermStep x s (s.power.divTherm + 1) (s.power.divTherm == 0) := by
  refine thermStep_of_setTherm ?_ (by rw [beq_iff_eq]; omega)
  show execThermalThrottleStep x s = _
  unfold execThermalThrottleStep
  dsimp only
  exact (if_pos hhot).trans (congrArg _ (if_pos ⟨hcode, hdue⟩))

theorem thermal_faster {x : Int} {s : State} (hcool : x < (s.power.throttle : Int) - 20) (hcode : 0 < s.power.divTherm)
    (hdue : s.power.thermAt + ms 10 ≤ s.pll) : thermStep x s (s.power.divTherm - 1) (s.power.divTherm == 1) := by
  refine thermStep_of_setTherm ?_ (by rw [beq_iff_eq]; omega)
  show execThermalThrottleStep x s = _
  unfold execThermalThrottleStep
  dsimp only
  refine (if_neg (show ¬ (s.power.throttle : Int) ≤ x by omega)).trans ((if_pos hcool).trans ?_)
  exact congrArg _ (if_pos ⟨hcode, hdue⟩)

theorem thermal_stays {x : Int} {s : State} (h : (¬ (s.power.throttle : Int) ≤ x ∧ ¬ x < (s.power.throttle : Int) - 20) ∨
      ((s.power.throttle : Int) ≤ x ∧ (4 ≤ s.power.divTherm ∨ s.pll < s.power.thermAt + ms 1)) ∨
      (x < (s.power.throttle : Int) - 20 ∧ ¬ (s.power.throttle : Int) ≤ x ∧
        (s.power.divTherm = 0 ∨ s.pll < s.power.thermAt + ms 10))) :
    exec (.thermalThrottleStep x) s = .next (setTmax s x) := by
  show execThermalThrottleStep x s = _
  unfold execThermalThrottleStep
  dsimp only
  rcases h with ⟨hhot, hcool⟩ | ⟨hhot, hcode⟩ | ⟨hcool, hhot, hcode⟩
  · exact (if_neg hhot).trans (if_neg hcool)
  · refine (if_pos hhot).trans (congrArg _ (if_neg ?_))
    show ¬ (s.power.divTherm < 4 ∧ s.power.thermAt + ms 1 ≤ s.pll)
    omega
  · refine (if_neg hhot).trans ((if_pos hcool).trans (congrArg _ (if_neg ?_)))
    show ¬ (0 < s.power.divTherm ∧ s.power.thermAt + ms 10 ≤ s.pll)
    omega

/-- After a stop of every context, every RUNNING one stops. -/
theorem stopAll_stops (s : State) : ∀ p ∈ (stopAll s).parts, p.ctx = .running → p.stopping = true := by
  unfold stopAll
  suffices hfold : ∀ (ps : List Part) (t : State),
      (∀ p ∈ t.parts, p.ctx = .running → p.stopping = true ∨ p ∈ ps) →
      ∀ p ∈ (ps.foldl (fun s p => stopPart s p.low) t).parts, p.ctx = .running → p.stopping = true from
    hfold s.parts s (fun p hp _ => .inr hp)
  intro ps
  induction ps with
  | nil =>
    intro t h p hp hrun
    exact (h p hp hrun).resolve_right List.not_mem_nil
  | cons x ps ih =>
    intro t h
    rw [List.foldl_cons]
    refine ih _ (fun p hp hrun => ?_)
    obtain ⟨y, hy, (⟨-, -, rfl⟩ | ⟨rfl, hother⟩)⟩ := mem_stopPart hp
    · exact .inl rfl
    · rcases h p hy hrun with hs | hin
      · exact .inl hs
      · rcases List.mem_cons.mp hin with rfl | hin
        · exact absurd hrun (hother rfl)
        · exact .inr hin

/-- A partition's place and context. -/
def contextOfPart (p : Part) : Nat × Ctx := (p.low, p.ctx)

theorem stopAll_contexts (s : State) : (stopAll s).parts.map contextOfPart = s.parts.map contextOfPart := by
  unfold stopAll
  suffices hfold : ∀ (ps : List Part) (t : State),
      (ps.foldl (fun s p => stopPart s p.low) t).parts.map contextOfPart = t.parts.map contextOfPart from hfold _ s
  intro ps
  induction ps with
  | nil => exact fun _ => rfl
  | cons x ps ih =>
    intro t
    rw [List.foldl_cons, ih]
    show (List.map _ t.parts).map contextOfPart = _
    rw [List.map_map]
    refine List.map_congr_left (fun y _ => ?_)
    rw [Function.comp]
    split
    · show contextOfPart (if y.ctx = .running then { y with stopping := true } else y) = _
      split <;> rfl
    · rfl

theorem thermal_critical {x : Int} {sensor : Byte} {s : State} (hx : 460 ≤ x) (hcrit : s.power.crit = false) :
    ∃ t, exec (.thermalCritical x sensor) s = .next t ∧
      t.power = { s.power with tmax := x, crit := true } ∧ t.cores = s.cores ∧
      recorded s t { kind := 0x43, detail := tmaxBits x + sensor.toNat * 2 ^ 16 } ∧
      (∀ p ∈ t.parts, p.ctx = .running → p.stopping = true) ∧
      t.parts.map contextOfPart = s.parts.map contextOfPart := by
  have hframe := stopAll_frame { s with power := { s.power with tmax := x, crit := true } }
  have hstops := stopAll_stops { s with power := { s.power with tmax := x, crit := true } }
  have hplace := stopAll_contexts { s with power := { s.power with tmax := x, crit := true } }
  have hexec : exec (.thermalCritical x sensor) s = .next (raiseVector (record
      (stopAll { s with power := { s.power with tmax := x, crit := true } })
      { kind := 0x43, detail := tmaxBits x + sensor.toNat * 2 ^ 16 }) 35) := if_pos ⟨hx, hcrit⟩
  generalize stopAll { s with power := { s.power with tmax := x, crit := true } } = u at *
  have hrec := recorded_after (s := s) (u := u) { kind := 0x43, detail := tmaxBits x + sensor.toNat * 2 ^ 16 }
    (by rw [hframe]) (by rw [hframe])
  refine ⟨_, hexec, ?_, ?_, recorded_congr hrec rfl rfl ?_ ?_, ?_, ?_⟩
  · rw [raiseVector_frame, record_frame_eq]
    show u.power = _
    rw [hframe]
  · rw [raiseVector_frame, record_frame_eq]
    show u.cores = _
    rw [hframe]
  · rw [raiseVector_frame]
  · rw [raiseVector_frame]
  · rw [raiseVector_frame, record_frame_eq]
    exact hstops
  · rw [raiseVector_frame, record_frame_eq]
    exact hplace

theorem thermal_clears (x : Int) (s : State) : ∃ t, exec (.thermalCritClear x) s = .next t ∧
    t = { s with power := t.power } ∧ t.power = { s.power with tmax := x, crit := t.power.crit } ∧
    (t.power.crit = true ↔ s.power.crit = true ∧ 420 ≤ x) := by
  show ∃ t, execThermalCritClear x s = .next t ∧ _
  unfold execThermalCritClear
  dsimp only
  by_cases hx : x < 420
  · rw [if_pos hx]
    refine ⟨_, rfl, rfl, rfl, ?_⟩
    show false = true ↔ _
    simp only [Bool.false_eq_true, false_iff]
    omega
  · rw [if_neg hx]
    refine ⟨_, rfl, rfl, rfl, ?_⟩
    show s.power.crit = true ↔ _
    simp only [iff_self_and]
    omega

/-! ### Histories (R572, R615) -/

theorem exec_resetHistoryExpiry (s : State) : ∃ t, exec .resetHistoryExpiry s = .next t ∧
    t = { s with resets := { s.resets with history := t.resets.history } } ∧
    ∀ x, x ∈ t.resets.history ↔ x ∈ s.resets.history ∧ s.pll ≤ x + sec 900 := by
  refine ⟨_, rfl, rfl, fun x => ?_⟩
  show x ∈ recentResets s ↔ _
  rw [recentResets, List.mem_filter, decide_eq_true_iff]
  rfl

theorem exec_intermittentWindowExpiry (n : Fin 192) (s : State) : ∃ t, exec (.intermittentWindowExpiry n) s = .next t ∧
    t = { s with cores := t.cores } ∧
    getCore t n.val = { getCore s n.val with intermits := (getCore t n.val).intermits } ∧
    (∀ x, x ∈ (getCore t n.val).intermits ↔ x ∈ (getCore s n.val).intermits ∧ s.pll < x + sec 86400) ∧
    ∀ m, m ≠ n.val → getCore t m = getCore s m := by
  refine ⟨_, rfl, rfl, ?_, fun x => ?_, fun m hm => ?_⟩
  · rw [getCore_modCore_same]
  · rw [getCore_modCore_same, List.mem_filter, decide_eq_true_iff]
    rfl
  · rw [getCore_modCore, if_neg hm]

/-! ### The obligation -/

/-- What a deeper stage does, of the state with the new average. -/
theorem shedStageChange_deeper {s : State} {average : Nat} (hwait : s.power.s5Wait = none)
    (hend : s.power.s5Ending = none) (hclk : s.power.tclkAbsent = false)
    (hlt : s.power.stage < stageFor s.power.stage (min average 65535)) :
    exec (.shedStageChange average) s = .next (changeStage (averaged s (min average 65535))
      (stageFor s.power.stage (min average 65535)) (min average 65535)) ∧
    (averaged s (min average 65535)).power.tclkAbsent = false ∧
    (averaged s (min average 65535)).power.stage < stageFor s.power.stage (min average 65535) ∧
    stageFor s.power.stage (min average 65535) ≤ 5 := by
  have h5 := (stageFor_spec s.power.stage (min average 65535) 0).1
  exact ⟨shedStageChange_other hwait hend (by omega) (by omega), hclk, hlt, h5⟩

/-- Settles O59. -/
theorem supplyClocksAndHeat : Obligations.SupplyClocksAndHeat := by
  unfold Obligations.SupplyClocksAndHeat
  refine ⟨stageFor_spec, exec_cclkDividerChange, fun average s hwait hend => ?_, exec_s4LimitExpiry, fun s => ?_,
    fun x sensor s => ?_, fun s => ⟨exec_resetHistoryExpiry s, fun n => exec_intermittentWindowExpiry n s⟩⟩
  · intro a old new runs
    refine ⟨fun h => ?_, fun hlt hclk => ?_, fun h5 hlt hclk hup => ?_, fun hlt hclk hup => ?_⟩
    · exact ⟨_, shedStageChange_same hwait hend h, rfl, h.symm, rfl, rfl, rfl⟩
    · obtain ⟨hexec, hclk', hlt', hle⟩ := shedStageChange_deeper hwait hend hclk hlt
      obtain ⟨h1, h2, h3, h4, h5, h6, h7, h8, h9, h10⟩ := changeStage_deeper (average := a) hclk' hlt' hle
      obtain ⟨hcount, hkept⟩ := countStages_spec s.power.stageCounts old new hle
      refine ⟨_, hexec, ⟨h5, h6, fun k hlo hhi => ?_, fun k hk => ?_, h8, h9, h10⟩, h1, h2, h3, h4⟩
      · rw [h7]
        exact hcount k hlo hhi
      · rw [h7]
        exact hkept k hk
    · rw [shedStageChange_ends hwait hend h5 hlt hclk]
      exact congrArg _ (settleEnd_waits (new := new) rfl hup)
    · obtain ⟨t, hexec, h1, h2, h3, h4, h5, h6, h7, h8, h9⟩ := shedStageChange_shallower hwait hend hlt hclk hup
      exact ⟨t, hexec, ⟨h5, h6, h7, h8, h9⟩, h1, h2, h3, h4⟩
  · refine ⟨fun h => if_neg (by rw [h]; exact Bool.false_ne_true), fun h => if_pos h, exec_tclkLoss, fun at_ hlost =>
      ⟨tclkAbsent_idle hlost, tclkAbsent_applies hlost⟩, fun h => ?_, fun hlost => ?_⟩
    · show execTclkAbsent s = _
      unfold execTclkAbsent
      rw [h]
    · intro back
      refine ⟨fun habsent => ?_, fun habsent h5 => ?_, fun habsent h5 => ?_⟩
      · rw [exec_tclkReturn hlost, habsent]
        rfl
      · rw [exec_tclkReturn hlost, habsent, Bool.not_true, if_neg Bool.false_ne_true, if_pos h5]
        rfl
      · intro w
        refine ⟨fun hup => ?_, fun hup => tclkReturn_lifts hlost habsent h5 hup⟩
        rw [exec_tclkReturn hlost, habsent, Bool.not_true, if_neg Bool.false_ne_true, if_neg h5]
        exact congrArg _ (settleEnd_waits (new := s.power.stage) rfl hup)
  · intro code hot cool step
    refine ⟨thermal_slower, thermal_faster, thermal_stays, thermal_critical, fun h => if_neg (fun hc => ?_),
      thermal_clears x s⟩
    obtain ⟨hx, hcrit⟩ := hc
    rcases h with h | h
    · omega
    · exact absurd (h.symm.trans hcrit) Bool.noConfusion

end Sys2Proof.Machine
end

section
/-! Switching off and on, the wet sensor, and the registers at power-on (R644, R692, R695, R700 to R711). -/

namespace Sys2Proof.Machine

/-! ### Switching off -/

/-- The volatile state at power-on beside what survives an L5. -/
def nothingLeft (s : State) : State :=
  { State.reset with pending := s.pending, fuses := s.fuses, flash := s.flash, draws := s.draws }

/-- All volatile state is lost. -/
def lostAll (s t : State) : Prop := t = { nothingLeft s with power := t.power } ∧ t.power.leak = s.power.leak ∧
  (let y := { t.power with rails := true, pgood := true, pwrEn := true, awaitInput := false }
   { y with l5Request := false, thermTrip := false, leak := false } = State.reset.power)

/-- The module is off. -/
def wentOff (s : State) (o : Host.Outcome State Fault Refusal) (trip await : Bool) : Prop := ∃ t, o = .next t ∧
  lostAll s t ∧ t.power.rails = false ∧ t.power.pgood = false ∧ t.power.pwrEn = s.power.pwrEn ∧
  t.power.awaitInput = await ∧ t.power.thermTrip = (trip || s.power.thermTrip)

/-- The module is on. -/
def wentOn (s : State) (o : Host.Outcome State Fault Refusal) : Prop := ∃ t, o = .next t ∧ lostAll s t ∧
  t.power.rails = true ∧ t.power.pgood = true ∧ t.power.pwrEn = true ∧ t.power.awaitInput = false

theorem wentOff_switchOff (s : State) (trip await : Bool) : wentOff s (.next (switchOff s trip await)) trip await :=
  ⟨_, rfl, ⟨rfl, rfl, rfl⟩, rfl, rfl, rfl, rfl, rfl⟩

theorem wentOn_powerOn (s : State) : wentOn s (.next (powerOn s)) := ⟨_, rfl, ⟨rfl, rfl, rfl⟩, rfl, rfl, rfl, rfl⟩

section
variable {s : State} {v : Nat} {x : Int}

theorem inputUndervoltageOff_off (hrails : s.power.rails = true) (hv : v < 4000) :
    wentOff s (exec (.inputUndervoltageOff v) s) false s.power.pwrEn := by
  have hexec : exec (.inputUndervoltageOff v) s = .next (switchOff s false s.power.pwrEn) :=
    (if_pos hv).trans (congrArg _ (if_pos hrails))
  rw [hexec]
  exact wentOff_switchOff ..

theorem inputOvervoltageOff_off (hrails : s.power.rails = true) (hv : 6200 < v) :
    wentOff s (exec (.inputOvervoltageOff v) s) false s.power.pwrEn := by
  have hexec : exec (.inputOvervoltageOff v) s = .next (switchOff s false s.power.pwrEn) := if_pos ⟨hv, hrails⟩
  rw [hexec]
  exact wentOff_switchOff ..

theorem inputOvervoltageOff_stays (h : v ≤ 6200 ∨ s.power.rails = false) :
    exec (.inputOvervoltageOff v) s = .next s :=
  if_neg (fun hc => h.elim (Nat.not_le.mpr hc.1) (fun hoff => Bool.noConfusion (hoff.symm.trans hc.2)))

theorem thermalShutdown_off (hrails : s.power.rails = true) (hx : 500 ≤ x) :
    wentOff s (exec (.thermalShutdown x) s) true false := by
  have hexec : exec (.thermalShutdown x) s = .next (switchOff s true false) := if_pos ⟨hx, hrails⟩
  rw [hexec]
  exact wentOff_switchOff ..

theorem thermalShutdown_stays (h : x < 500 ∨ s.power.rails = false) : exec (.thermalShutdown x) s = .next s :=
  if_neg (fun hc => h.elim (Int.not_lt.mpr hc.1) (fun hoff => Bool.noConfusion (hoff.symm.trans hc.2)))

theorem railFault_off (hgood : s.power.pgood = true) : wentOff s (exec .railFault s) false false := by
  have hexec : exec .railFault s = .next (switchOff s false false) := if_pos hgood
  rw [hexec]
  exact wentOff_switchOff ..

theorem railFault_stays (hgood : s.power.pgood = false) : exec .railFault s = .next s :=
  if_neg (by rw [hgood]; exact Bool.false_ne_true)

/-! ### Switching on (R707) -/

theorem exec_powerUp (hen : s.power.pwrEn = false) (hrails : s.power.rails = false) : exec (.powerUp v) s =
    if 4800 ≤ v then .next (powerOn s) else .next { s with power := { s.power with pwrEn := true, awaitInput := true } } := by
  show execPowerUp v s = _
  unfold execPowerUp
  rw [hen, hrails]
  rfl

theorem powerUp_on (hen : s.power.pwrEn = false) (hrails : s.power.rails = false) (hv : 4800 ≤ v) :
    wentOn s (exec (.powerUp v) s) := by
  rw [exec_powerUp hen hrails, if_pos hv]
  exact wentOn_powerOn s

theorem inputReturn_on (hwait : s.power.awaitInput = true) (hen : s.power.pwrEn = true) (hlo : 4800 < v)
    (hhi : v ≤ 6200) : wentOn s (exec (.inputReturn v) s) := by
  have hexec : exec (.inputReturn v) s = .next (powerOn s) := if_pos (by simp [hwait, hen, hlo, hhi])
  rw [hexec]
  exact wentOn_powerOn s

theorem inputReturn_stays (h : s.power.awaitInput = false ∨ s.power.pwrEn = false ∨ v ≤ 4800) :
    exec (.inputReturn v) s = .next s := by
  refine if_neg (fun hc => ?_)
  simp only [Bool.and_eq_true, decide_eq_true_eq] at hc
  obtain ⟨⟨⟨hwait, hen⟩, hlo⟩, -⟩ := hc
  rcases h with h | h | h
  · exact Bool.noConfusion (h.symm.trans hwait)
  · exact Bool.noConfusion (h.symm.trans hen)
  · omega

end

/-! ### POWER_DOWN (R700, R701, R708) -/

/-- An entry to S5 without a record leaves flash. -/
theorem enterS5_flash (s : State) : (enterS5 s false).flash = s.flash := by
  have hframe := s5Stopped_frame s false
  have henter : enterS5 s false = settleS5 (s5Stopped s false) := rfl
  rw [henter]
  generalize s5Stopped s false = u at *
  have hwait : u.power.s5Wait = some (s.pll, false) := by rw [hframe]
  have hflash : u.flash = s.flash := by rw [hframe]
  have hnotices : (s5Notices u).flash = u.flash := by
    unfold s5Notices
    split
    · rfl
    · have hports := portsOnly_quiescePorts { u with power := { u.power with s5Sent := true } }
      unfold portsOnly at hports
      rw [hports]
  rw [settleS5_eq hwait]
  split
  · exact hflash
  · split
    · exact hnotices.trans hflash
    · exact hnotices.trans hflash

/-- The pins as POWER_DOWN begins. -/
def downBegun (s : State) : State := { s with power := { s.power with
  pwrEn := false, l5Request := false, thermTrip := false, awaitInput := false, downAt := some s.pll } }

theorem powerDown_begins {s : State} (hen : s.power.pwrEn = true) : ∃ t, exec .powerDown s = .next t ∧
    t.power.pwrEn = false ∧ t.power.l5Request = false ∧ t.power.thermTrip = false ∧ t.power.awaitInput = false ∧
    t.power.downAt = some s.pll ∧ t.power.rails = s.power.rails ∧ t.flash = s.flash ∧ t.fuses = s.fuses ∧
    t.cores = s.cores ∧ (s.power.rails = true → (∀ p ∈ t.parts, settledOrHeld s p) ∧
      ((∀ p ∈ s.parts, p.ctx ≠ .running) → portsDark s = true → memoryIdle s = true →
        t.power.selfRefresh = true ∧ t.power.retention = true)) := by
  have hexec : exec .powerDown s = .next (if s.power.rails then enterS5 (downBegun s) false else downBegun s) := if_pos hen
  rw [hexec]
  cases hrails : s.power.rails with
  | false => exact ⟨_, rfl, rfl, rfl, rfl, rfl, rfl, hrails, rfl, rfl, rfl, fun h => Bool.noConfusion h⟩
  | true =>
    rw [if_pos rfl]
    obtain ⟨honly, -, hstops⟩ := enterS5_spec (downBegun s) false
    have hflash := enterS5_flash (downBegun s)
    have hfinish := enterS5_finishes (s := downBegun s) false
    generalize enterS5 (downBegun s) false = t at *
    refine ⟨t, rfl, ?_, ?_, ?_, ?_, ?_, ?_, hflash, ?_, ?_, fun _ => ⟨hstops, fun hidle hd hm => ?_⟩⟩
    · rw [honly]
      rfl
    · rw [honly]
      rfl
    · rw [honly]
      rfl
    · rw [honly]
      rfl
    · rw [honly]
      rfl
    · rw [honly]
      exact hrails
    · rw [honly]
      rfl
    · rw [honly]
      rfl
    · obtain ⟨h1, h2, -⟩ := hfinish hidle hd hm
      exact ⟨h1, h2⟩

theorem exec_powerDown_again {s : State} (hen : s.power.pwrEn = false) :
    exec .powerDown s = .next (if s.power.rails then railsOff s else s) :=
  if_neg (by rw [hen]; exact Bool.false_ne_true)

theorem powerDown_ends {s : State} (hen : s.power.pwrEn = false) (hrails : s.power.rails = true) :
    ∃ t, exec .powerDown s = .next t ∧ t.cores = [] ∧ t.hbm = [] ∧ t.lpddr = [] ∧ t.fuses = s.fuses ∧
      t.flash = s.flash ∧ t.power.rails = false ∧ t.power.pgood = false ∧ t.power.pwrEn = false ∧
      t.parts = State.reset.parts := by
  rw [exec_powerDown_again hen, if_pos hrails]
  exact ⟨_, rfl, rfl, rfl, rfl, rfl, rfl, rfl, rfl, rfl, rfl⟩

/-! ### Registers at power-on (R689) -/

theorem isDisabled_reset (n : Nat) : isDisabled State.reset n = false := by
  have hcode : bits State.reset.fuses.disable (8 * quadOf n) 8 = 0 := by
    unfold bits
    rw [show State.reset.fuses.disable = 0#64 from rfl, BitVec.toNat_ofNat, Nat.zero_mod, Nat.zero_shiftRight,
      Nat.zero_mod]
  unfold isDisabled
  rw [hcode]
  rfl

theorem landAll_reset (n : Nat) : landAll State.reset n = State.reset := rfl

theorem schedStatus_reset (n : Nat) : schedStatus State.reset n {} = 0 := by
  have hpair : pairActive State.reset (quadOf n) = false := BitVec.getLsbD_zero
  unfold schedStatus
  rw [hpair]
  rfl

theorem coreReg_schedStatus (s : State) (n : Nat) :
    coreReg s n 0 = rv32 (schedStatus (landAll s n) n (getCore (landAll s n) n)) := rfl

theorem coreReg_faultF (s : State) (n : Nat) : coreReg s n 0x20 = rv64 (getCore (landAll s n) n).f.fault.toNat := rfl

/-- A core page at power-on shows its registers. -/
theorem regAt_core_reset {n : Nat} (hn : n < 192) {o : Nat} (ho : o < 0x10000) :
    regAt State.reset (0x1000000 + 0x10000 * n + o) = coreReg State.reset n o := by
  unfold regAt
  rw [placeOf_core hn ho]
  dsimp only
  rw [isDisabled_reset, if_neg Bool.false_ne_true]

theorem regAt_schedStatus_reset (n : Fin 192) : regAt State.reset (0x1000000 + 0x10000 * n.val) = some (false, 0) := by
  have hreg := regAt_core_reset n.isLt (o := 0) (by decide)
  rw [Nat.add_zero] at hreg
  rw [hreg, coreReg_schedStatus, landAll_reset, show getCore State.reset n.val = {} from rfl, schedStatus_reset]
  rfl

theorem regAt_faultF_reset (n : Fin 192) : regAt State.reset (0x1000020 + 0x10000 * n.val) = some (true, 0) := by
  have hreg := regAt_core_reset n.isLt (o := 0x20) (by decide)
  rw [show 0x1000020 + 0x10000 * n.val = 0x1000000 + 0x10000 * n.val + 0x20 by omega, hreg, coreReg_faultF,
    landAll_reset]
  rfl

/-- The ring, pool and quadrant registers of each quadrant. -/
theorem regAt_quadrants_reset : ∀ k : Fin 8, regAt State.reset (0x1010 + 0x40 * k.val) = some (false, 6) ∧
    regAt State.reset (0x1014 + 0x40 * k.val) = some (false, 0) ∧
    regAt State.reset (0x10040 + 4 * k.val) = some (false, 0x258 + 600 * 2 ^ 10) ∧
    regAt State.reset (0x40008 + 0x1000 * k.val) = some (false, 0x64) ∧
    regAt State.reset (0x4000C + 0x1000 * k.val) = some (false, 0xFFFF) ∧
    regAt State.reset (0x40010 + 0x1000 * k.val) = some (true, 0) := by
  decide

/-! ### The obligation -/

/-- Settles O60. -/
theorem powerOnAndOff : Obligations.PowerOnAndOff := by
  unfold Obligations.PowerOnAndOff
  refine ⟨fun s v x => ?_, by decide, by decide, by decide, by decide, by decide, by decide, by decide, by decide,
    by decide, by decide, by decide, by decide, by decide, regAt_quadrants_reset, fun n =>
    ⟨regAt_schedStatus_reset n, regAt_faultF_reset n⟩⟩
  intro none_ lost off on
  refine ⟨fun hrails => ⟨inputUndervoltageOff_off hrails, inputOvervoltageOff_off hrails, thermalShutdown_off hrails⟩,
    railFault_off, railFault_stays, fun hv => if_neg (Nat.not_lt.mpr hv), inputOvervoltageOff_stays,
    thermalShutdown_stays, fun hen hrails => ⟨powerUp_on hen hrails, fun hv => ?_⟩, fun hen => if_pos hen,
    inputReturn_on, inputReturn_stays, powerDown_begins, powerDown_ends, fun hen hrails => ?_, fun _ => rfl⟩
  · rw [exec_powerUp hen hrails, if_neg (Nat.not_le.mpr hv)]
  · rw [exec_powerDown_again hen, hrails, if_neg Bool.false_ne_true]

end Sys2Proof.Machine
end
